-- ==== Sys2Proof/Word.lean ====
section
/-! DEFINITION. The words the machine is made of (R4), and the sparse maps that hold registers, memory and units. -/

namespace Sys2Proof

/-- Eight bits, the unit of every memory (R4). -/
abbrev Byte := BitVec 8

/-- A lane word (R37, R137). -/
abbrev Lane := BitVec 32

/-- A scalar register or an address (R37, R196). -/
abbrev Word := BitVec 64

/-- One bit for each lane of a group (R37). -/
abbrev Mask := BitVec 32

/-- A 96-bit instruction word (R277). -/
abbrev IWord := BitVec 96

/-- A sparse table: keys strictly rising, and no entry equal to what an unlisted key reads as. -/
abbrev Table (α : Type) := List (Nat × α)

/-- The lanes of a group (R37). -/
def lanes : List Nat := List.range 32

end Sys2Proof
end

