-- ==== Sys2Proof/Syntax.lean ====
section
/-! DEFINITION. The syntax of Sardan version 1: operands (R280, R281), modifiers (R286 to R289), the fields every word carries
(R277), and `Instr`, one constructor per row of the opcode table: 135 instructions and 67 events of the part. -/

namespace Sys2Proof

/-- The fields that every instruction word carries beside OPC, MOD and the operands (R277). -/
structure Ctl where
  /-- Guard inversion, bit 29. -/
  ginv : Bool
  /-- Guard predicate, bits [28:25]. -/
  gpred : BitVec 4
  /-- Run boundary. -/
  b : Bool
  /-- Local step boundary. -/
  l : Bool
  /-- Global step boundary. -/
  g : Bool
  /-- Empty policy for A, B and D: true is trapping (R49). -/
  ea : Bool
  eb : Bool
  ed : Bool
  /-- Run guard (R46). -/
  rg : BitVec 5
  /-- Issue delay (R53). -/
  dly : BitVec 4
  /-- Cache hint (R208). -/
  cph : BitVec 2
  /-- Yield (R52). -/
  y : Bool
  deriving DecidableEq, Repr

/-- A vector register operand: named, or base + index register (R280). -/
inductive VReg where
  | dir (n : BitVec 7)
  | idx (x : BitVec 3) (base : BitVec 8)
  deriving DecidableEq, Repr

/-- A scalar register operand (R280). -/
inductive SReg where
  | dir (n : BitVec 6)
  | idx (x : BitVec 3) (base : BitVec 8)
  deriving DecidableEq, Repr

/-- A scalar register or an immediate of 14 bits (R280). -/
inductive SSrc where
  | reg (r : SReg)
  | imm (i : BitVec 14)
  deriving DecidableEq, Repr

/-- A vector or scalar register. -/
inductive VS where
  | vec (r : VReg)
  | sca (r : SReg)
  deriving DecidableEq, Repr

/-- A vector register, a scalar register or an immediate. -/
inductive VSI where
  | vec (r : VReg)
  | sca (r : SReg)
  | imm (i : BitVec 14)
  deriving DecidableEq, Repr

/-- The special registers (R40, R82, R106, R168, R174, R214, R218, R229, R281). -/
inductive Special where
  | lane | widlo | widhi | arg | gwid | fw | lhdr | live | gstep | lstep | gcmt | lag | die | core | grp | time | toff | lfm | nrs | xcause | xpc | xaddr | xlanes | xstep | xprog | xinfo | xvec | wbv | wbs | spill | ovf | accst | wsref | part | ctx
  deriving DecidableEq, Repr

/-- What SMOV reads: a scalar, an index or a special register (R403). -/
inductive SMovSrc where
  | sca (r : SReg)
  | idx (x : BitVec 3)
  | spr (r : Special)
  deriving DecidableEq, Repr

/-- What SMOV writes: a scalar or an index register (R403). -/
inductive SMovDst where
  | sca (r : SReg)
  | idx (x : BitVec 3)
  deriving DecidableEq, Repr

/-- What VMOV reads (R426). -/
inductive VMovSrc where
  | vec (r : VReg)
  | sca (r : SReg)
  | spr (r : Special)
  | imm (i : BitVec 14)
  deriving DecidableEq, Repr

/-- What PMOV reads: a predicate or a scalar register (R367). -/
inductive PSrc where
  | pred (p : BitVec 4)
  | sca (r : SReg)
  deriving DecidableEq, Repr

/-- Type codes (R286). -/
inductive Ty where
  | i32 | n32 | i64 | n64 | f32 | f16x2 | bf16x2 | i16x2 | i8 | n8 | i16 | n16 | b32 | b64
  deriving DecidableEq, Repr

/-- Compare conditions (R288). -/
inductive Cond where
  | eq | ne | lt | le | gt | ge | ord | uno | ueq | ult | ule | ugt | uge
  deriving DecidableEq, Repr

/-- Rounding codes (R142). -/
inductive Rnd where
  | rne | rtz | rdn | rup
  deriving DecidableEq, Repr

/-- Access sizes, MOD [7:6] of the memory class (R287). -/
inductive Size where
  | s8 | s16 | s32 | s64
  deriving DecidableEq, Repr

/-- Read kinds (R79 to R83). -/
inductive Kind where
  | now | stb | lag
  deriving DecidableEq, Repr

/-- Store rules (R88). -/
inductive Rule where
  | lo | any | sum | flt
  deriving DecidableEq, Repr

/-- Sum types (R89). -/
inductive SumTy where
  | n32 | i64 | f32 | bf16x2 | f16x2
  deriving DecidableEq, Repr

/-- Operations of VRED and VSCAN (R289). -/
inductive RedOp where
  | add | min | max | and | or | xor
  deriving DecidableEq, Repr

/-- Element formats of the format block (R175). -/
inductive Fmt where
  | e4m3 | e5m2 | e3m2 | e2m3 | e2m1 | bf16 | fp16 | int8 | int4 | c8
  deriving DecidableEq, Repr

/-- Block-length codes (R175). -/
inductive BlkLen where
  | none | l16 | l32 | l64
  deriving DecidableEq, Repr

/-- Scale formats (R148). -/
inductive ScaleFmt where
  | e8m0 | ue4m3
  deriving DecidableEq, Repr

/-- Copy directions (R123). -/
inductive Dir where
  | g2l | l2g | l2l | w2l | g2g | ferry
  deriving DecidableEq, Repr

/-- Sides of GTH and SCT (R136). -/
inductive Side where
  | g | l | w
  deriving DecidableEq, Repr

/-- Scopes of TLBINV (R414). -/
inductive Scope where
  | va | ctx | gpa | all
  deriving DecidableEq, Repr

/-- A vector memory operand (R284): A a scalar base or null, B a vector, scalar or immediate offset. -/
structure VMem where
  a : Option SReg
  b : VSI
  deriving DecidableEq, Repr

/-- A scalar memory operand (R398). -/
structure SMem where
  a : Option SReg
  b : SSrc
  deriving DecidableEq, Repr

/-- What leaves a core after the hold window (R239): a global write of a launch, or a group's crossing report. -/
inductive Held where
  | write (launch id : Nat)
  | crossing (group : Nat)
  deriving DecidableEq, Repr

/-- Where a commit becomes visible (R74): a core, a die's coach house or a waystation. -/
inductive Place where
  | core (c : Nat)
  | die (p : Nat)
  | way (w : Nat)
  deriving DecidableEq, Repr

/-- A word of a memory that can be marked poisoned (R242): of device memory, or of a block's local store. -/
inductive PoisonAt where
  | dev (key : Nat)
  | loc (block addr : Nat)
  deriving DecidableEq, Repr

/-- What a host request addresses: the host's own context, or the weight store of a logical die (R102, R217). -/
inductive HostAt where
  | mem (va : BitVec 64)
  | weight (die off : Nat)
  deriving DecidableEq, Repr

/-- What a host read addresses: memory, or the BAR 0 of the physical function or of a guest's virtual function (R264, R266). -/
inductive HostSrc where
  | at_ (a : HostAt)
  | bar (guest : Option (BitVec 3)) (off : Nat)
  deriving DecidableEq, Repr

/-- What a register write carries: an aligned doubleword, or an aligned 32-bit half (R264). -/
inductive RegData where
  | whole (x : BitVec 64)
  | half (x : BitVec 32)
  deriving DecidableEq, Repr

/-- Where a fatal error of hardware strikes: a die, or the stack of a waystation (R207, R245). -/
inductive FatalAt where
  | die (p : Nat)
  | stack (w : Nat)
  deriving DecidableEq, Repr

/-- The rows of the opcode table. Instructions carry the word's common fields first, then what MOD holds, then the
operands D, A and B. Events carry the identifiers of what they act on, and the choice they make where the manual
leaves one. -/
inductive Instr where
  | nop (c : Ctl)
  | bra (c : Ctl) (imm : BitVec 32)
  | brz (c : Ctl) (d : SReg) (imm : BitVec 32)
  | brnz (c : Ctl) (d : SReg) (imm : BitVec 32)
  | brx (c : Ctl) (a : SReg)
  | call (c : Ctl) (nv ns : BitVec 4) (imm : BitVec 32)
  | callx (c : Ctl) (nv ns : BitVec 4) (a : SReg)
  | ret (c : Ctl)
  | exit (c : Ctl)
  | pass (c : Ctl) (a : SSrc)
  | detach (c : Ctl)
  | brk (c : Ctl)
  | trap (c : Ctl) (i : BitVec 14)
  | rett (c : Ctl)
  | sadd (c : Ctl) (ty : Ty) (d a : SReg) (b : SSrc)
  | ssub (c : Ctl) (ty : Ty) (d a : SReg) (b : SSrc)
  | smul (c : Ctl) (ty : Ty) (d a : SReg) (b : SSrc)
  | smulh (c : Ctl) (ty : Ty) (d a : SReg) (b : SSrc)
  | sdiv (c : Ctl) (ty : Ty) (d a : SReg) (b : SSrc)
  | srem (c : Ctl) (ty : Ty) (d a : SReg) (b : SSrc)
  | sand (c : Ctl) (ty : Ty) (d a : SReg) (b : SSrc)
  | sor (c : Ctl) (ty : Ty) (d a : SReg) (b : SSrc)
  | sxor (c : Ctl) (ty : Ty) (d a : SReg) (b : SSrc)
  | sshl (c : Ctl) (ty : Ty) (d a : SReg) (b : SSrc)
  | sshr (c : Ctl) (ty : Ty) (d a : SReg) (b : SSrc)
  | ssar (c : Ctl) (ty : Ty) (d a : SReg) (b : SSrc)
  | smin (c : Ctl) (ty : Ty) (d a : SReg) (b : SSrc)
  | smax (c : Ctl) (ty : Ty) (d a : SReg) (b : SSrc)
  | scmp (c : Ctl) (ty : Ty) (cond : Cond) (d a : SReg) (b : SSrc)
  | ssel (c : Ctl) (ty : Ty) (sel : BitVec 4) (d a : SReg) (b : SSrc)
  | smov (c : Ctl) (ty : Ty) (d : SMovDst) (a : SMovSrc)
  | smovi (c : Ctl) (ty : Ty) (d : SReg) (imm : BitVec 32)
  | smovh (c : Ctl) (ty : Ty) (d : SReg) (imm : BitVec 32)
  | spopc (c : Ctl) (ty : Ty) (d a : SReg)
  | sclz (c : Ctl) (ty : Ty) (d a : SReg)
  | sffs (c : Ctl) (ty : Ty) (d a : SReg)
  | sbfx (c : Ctl) (ty : Ty) (d a : SReg) (b : SSrc)
  | sbfi (c : Ctl) (ty : Ty) (d a : SReg) (b : SSrc)
  | slea (c : Ctl) (ty : Ty) (d a : SReg) (b : SSrc)
  | pand (c : Ctl) (d a b : BitVec 4)
  | por (c : Ctl) (d a b : BitVec 4)
  | pxor (c : Ctl) (d a b : BitVec 4)
  | pandn (c : Ctl) (d a b : BitVec 4)
  | pmov (c : Ctl) (d : BitVec 4) (a : PSrc)
  | vadd (c : Ctl) (ty : Ty) (d a : VReg) (b : VSI)
  | vsub (c : Ctl) (ty : Ty) (d a : VReg) (b : VSI)
  | vmul (c : Ctl) (ty : Ty) (d a : VReg) (b : VSI)
  | vmulh (c : Ctl) (ty : Ty) (d a : VReg) (b : VSI)
  | vmad (c : Ctl) (ty : Ty) (d a : VReg) (b : VSI)
  | vmin (c : Ctl) (ty : Ty) (d a : VReg) (b : VSI)
  | vmax (c : Ctl) (ty : Ty) (d a : VReg) (b : VSI)
  | vabs (c : Ctl) (ty : Ty) (d a : VReg)
  | vand (c : Ctl) (ty : Ty) (d a : VReg) (b : VSI)
  | vor (c : Ctl) (ty : Ty) (d a : VReg) (b : VSI)
  | vxor (c : Ctl) (ty : Ty) (d a : VReg) (b : VSI)
  | vshl (c : Ctl) (ty : Ty) (d a : VReg) (b : VSI)
  | vshr (c : Ctl) (ty : Ty) (d a : VReg) (b : VSI)
  | vsar (c : Ctl) (ty : Ty) (d a : VReg) (b : VSI)
  | vsadd (c : Ctl) (ty : Ty) (d a : VReg) (b : VSI)
  | vpopc (c : Ctl) (ty : Ty) (d a : VReg)
  | vclz (c : Ctl) (ty : Ty) (d a : VReg)
  | vbfx (c : Ctl) (ty : Ty) (d a : VReg) (b : VSI)
  | vbfi (c : Ctl) (ty : Ty) (d a : VReg) (b : VSI)
  | vsel (c : Ctl) (ty : Ty) (sel : BitVec 4) (d a : VReg) (b : VSI)
  | vcmp (c : Ctl) (ty : Ty) (cond : Cond) (d : BitVec 4) (a : VReg) (b : VSI)
  | vmov (c : Ctl) (ty : Ty) (d : VReg) (a : VMovSrc)
  | vmovi (c : Ctl) (ty : Ty) (d : VReg) (imm : BitVec 32)
  | fadd (c : Ctl) (rnd : Rnd) (d a : VReg) (b : VS)
  | fsub (c : Ctl) (rnd : Rnd) (d a : VReg) (b : VS)
  | fmul (c : Ctl) (rnd : Rnd) (d a : VReg) (b : VS)
  | ffma (c : Ctl) (rnd : Rnd) (d a : VReg) (b : VS)
  | fmin (c : Ctl) (rnd : Rnd) (d a : VReg) (b : VS)
  | fmax (c : Ctl) (rnd : Rnd) (d a : VReg) (b : VS)
  | fdiv (c : Ctl) (rnd : Rnd) (d a : VReg) (b : VS)
  | fsqrt (c : Ctl) (rnd : Rnd) (d a : VReg)
  | frcp (c : Ctl) (rnd : Rnd) (d a : VReg)
  | frsq (c : Ctl) (rnd : Rnd) (d a : VReg)
  | fex2 (c : Ctl) (rnd : Rnd) (d a : VReg)
  | flg2 (c : Ctl) (rnd : Rnd) (d a : VReg)
  | fsin (c : Ctl) (rnd : Rnd) (d a : VReg)
  | fcos (c : Ctl) (rnd : Rnd) (d a : VReg)
  | frnd (c : Ctl) (rnd : Rnd) (d a : VReg)
  | fcmp (c : Ctl) (cond : Cond) (d : BitVec 4) (a : VReg) (b : VS)
  | hadd (c : Ctl) (ty : Ty) (rnd : Rnd) (d a : VReg) (b : VS)
  | hmul (c : Ctl) (ty : Ty) (rnd : Rnd) (d a : VReg) (b : VS)
  | hfma (c : Ctl) (ty : Ty) (rnd : Rnd) (d a : VReg) (b : VS)
  | cvt (c : Ctl) (dty sty : Ty) (sat : Bool) (rnd : Rnd) (d a : VReg)
  | cvtp (c : Ctl) (dst : Fmt) (sty : Ty) (sat : Bool) (rnd : Rnd) (d a : VReg)
  | dqcvt (c : Ctl) (dty : Ty) (src : Fmt) (tab : BitVec 2) (len : BlkLen) (sat : Bool) (rnd : Rnd) (d a : VReg)
  | qscl (c : Ctl) (dst : Fmt) (sf : ScaleFmt) (len : BlkLen) (d a : VReg)
  | qcvt (c : Ctl) (dst : Fmt) (sf : ScaleFmt) (len : BlkLen) (rnd : Rnd) (d a : VReg)
  | qcmp (c : Ctl) (tab : BitVec 2) (d a : VReg)
  | vperm (c : Ctl) (ty : Ty) (d a : VReg) (b : VSI)
  | vbcast (c : Ctl) (ty : Ty) (d a : VReg) (b : VSI)
  | vred (c : Ctl) (ty : Ty) (op : RedOp) (d a : VReg)
  | vscan (c : Ctl) (ty : Ty) (op : RedOp) (d a : VReg)
  | ldl (c : Ctl) (sz : Size) (d : VReg) (m : VMem)
  | stl (c : Ctl) (sz : Size) (rule : Rule) (sum : SumTy) (d : VReg) (m : VMem)
  | stla (c : Ctl) (sz : Size) (sum : SumTy) (d : VReg) (m : VMem)
  | sldl (c : Ctl) (sz : Size) (d : SReg) (m : SMem)
  | sstl (c : Ctl) (sz : Size) (rule : Rule) (sum : SumTy) (d : SReg) (m : SMem)
  | ldg (c : Ctl) (sz : Size) (kind : Kind) (res : BitVec 4) (d : VReg) (m : VMem)
  | stg (c : Ctl) (sz : Size) (rule : Rule) (sum : SumTy) (d : VReg) (m : VMem)
  | stga (c : Ctl) (sz : Size) (sum : SumTy) (d : VReg) (m : VMem)
  | sldg (c : Ctl) (sz : Size) (kind : Kind) (res : BitVec 4) (d : SReg) (m : SMem)
  | sstg (c : Ctl) (sz : Size) (rule : Rule) (sum : SumTy) (d : SReg) (m : SMem)
  | ldw (c : Ctl) (sz : Size) (d : VReg) (m : VMem)
  | pfg (c : Ctl) (m : VMem)
  | pgreq (c : Ctl) (m : VMem)
  | cpy (c : Ctl) (dir : Dir) (rule : Rule) (kind : Kind) (d : SReg)
  | cpym (c : Ctl) (dir : Dir) (rule : Rule) (kind : Kind) (d : SReg)
  | land (c : Ctl) (d a b : SSrc)
  | gth (c : Ctl) (side : Side) (rule : Rule) (kind : Kind) (d : SReg)
  | sct (c : Ctl) (side : Side) (rule : Rule) (d : SReg)
  | cpyw (c : Ctl) (glob : Bool) (d : SReg)
  | btst (c : Ctl) (rule : Rule) (d : SReg)
  | btdem (c : Ctl) (d : SReg)
  | btpro (c : Ctl) (d : SReg)
  | mma (c : Ctl) (kind : Kind) (d : BitVec 4) (a : SReg) (b : SSrc)
  | mmq (c : Ctl) (kind : Kind) (d : BitVec 4) (a : VReg) (b : SReg)
  | mzero (c : Ctl) (flt : Bool) (d : BitVec 4)
  | mlda (c : Ctl) (flt : Bool) (d : BitVec 4) (a : SReg)
  | mdrn (c : Ctl) (clr flt : Bool) (rnd : Rnd) (d : BitVec 4) (a : SReg)
  | ctld (c : Ctl) (d : SSrc) (a : SReg)
  | spawn (c : Ctl) (fwd : Bool) (d : BitVec 4) (a : SReg) (b : VReg)
  | lnch (c : Ctl) (a : SReg)
  | mbxrd (c : Ctl) (d : SReg) (a : SSrc)
  | mbxwr (c : Ctl) (a b : SReg)
  | rdsr (c : Ctl) (d : SReg) (a : Special)
  | wrsr (c : Ctl) (d : Special) (a : SSrc)
  | rdcnt (c : Ctl) (d : SReg) (a : SSrc)
  | qtopo (c : Ctl) (d : SReg) (sel : BitVec 14) (b : SSrc)
  | tlbinv (c : Ctl) (scope : Scope) (host : Bool) (gctx : BitVec 4) (a : SReg) (b : SSrc)
  | ctxsv (c : Ctl) (a : SReg)
  | ctxld (c : Ctl) (a : SReg)
  | launchPacketPost (part : Nat) (guest : Option (BitVec 3)) (data : BitVec 64)
  | launchBroadcast (launch : Nat)
  | launchUnitPlace (die : Nat)
  | launchStart (launch : Nat)
  | launchComplete (launch : Nat)
  | runGrant (group slot : Nat)
  | deferredTrapTake (group : Nat)
  | writeHoldExpiry (h : Held)
  | writeArrival (launch id : Nat)
  | readServe (load lane back : Nat)
  | loadFill (load : Nat)
  | commitDeclare (launch : Nat)
  | commitApply (launch word order : Nat)
  | commitVisible (launch : Nat) (place : Place)
  | localClose (block order : Nat)
  | stepOverrun (launch : Nat)
  | spawnItemArrival (launch id : Nat)
  | groupPlace (die : Nat)
  | asyncComplete (op : Nat)
  | matrixKstep (core : Nat)
  | landingArrival (op recv : Nat)
  | mailboxDeliver (group : Nat)
  | pageWalk (core : Nat) (gctx : Option (BitVec 3)) (va : BitVec 64)
  | tlbinvBegin (group : Nat)
  | tlbinvComplete (group : Nat)
  | tierCopyComplete (op : Nat)
  | ferrySend (launch id : Nat)
  | ferryArrival (part : Nat) (off : BitVec 48) (data : List Byte)
  | hostWrite (part : Nat) (at_ : HostAt) (data : List Byte)
  | hostRead (part : Nat) (src : HostSrc) (len : Nat)
  | saveSequence (part die : Nat)
  | saveImageAssemble (part : Nat)
  | restoreDieReady (part die : Nat)
  | restoreResume (part : Nat)
  | timeSliceExpiry (launch : Nat) (image : BitVec 64)
  | preempt (part : Nat)
  | restore (part : Nat)
  | terminate (part : Nat)
  | layoutChange (part : Nat)
  | layoutChangeForce (part : Nat)
  | applyStaged (part : Nat)
  | partitionReset (part : Nat)
  | releaseFault (part : Nat)
  | releaseDiscard (part : Nat)
  | attestationReport (part : Nat)
  | debugStop (part : Nat) (data : BitVec 64)
  | counterReadLow (part : Nat) (guest : BitVec 3) (n : Nat)
  | registerWrite (part : Nat) (guest : Option (BitVec 3)) (off : Nat) (data : RegData)
  | strikeAlarm (core : Nat)
  | waystationAlarm (way : Nat)
  | eccCorrected (die store core : Nat) (addr : BitVec 64)
  | coreRetire (core : Nat)
  | blockMigrate (block : Nat)
  | poisonMark (die : Nat) (store : BitVec 32) (at_ : PoisonAt)
  | fecCorrection (link : BitVec 64) (flits : BitVec 32)
  | linkIntegrityFailure (part : Nat) (link : BitVec 64) (flit : BitVec 32)
  | dieFatalError (at_ : FatalAt) (cause : BitVec 64) (code : BitVec 32)
  | horizonTreeFailure (part : Nat) (segment : BitVec 64) (id : BitVec 32)
  | clockCapChange (die cap : Nat)
  | bringUp (disabled : List Nat)
  | weightRefreshEnd (die bank : Nat)
  | ideStreamEstablished (part : Nat) (up : Bool)
  | migrationComplete (block : Nat)
  | laneCycleCount
  | unassignedOpcode (word : IWord)
  | corePowerGating (core : Nat) (gated : Bool)
  | linkRetraining (part : Nat)
  deriving DecidableEq, Repr

end Sys2Proof
end

