-- ==== Sys2Proof/WellFormed.lean ====
section
/-! DEFINITION. The limits that the encoding and each entry put on an instruction whose fields read well. A word that breaks one
raises trap 0x02 (R277, R279, R287); sardas rejects such an instruction. -/

namespace Sys2Proof

/-- The limit that an instruction breaks. -/
inductive IllFormed where
  /-- L without B, or G without L (R277). -/
  | boundary
  /-- An instruction of R43 without B, or PASS without L (R369). -/
  | mustEndRun
  /-- TRAP with L or G (R417). -/
  | trapBoundary
  /-- A type the instruction does not accept (R287). -/
  | type
  /-- A condition the instruction does not accept (R288). -/
  | condition
  /-- An odd register that should begin a pair (R284, R337, R419). -/
  | oddPair
  /-- A sum type given where none is taken, or whose size differs from the store's (R89, R289). -/
  | sumType
  /-- A read kind where it must be 00 (R123, R136). -/
  | readKind
  /-- A direction, side or rule the instruction does not take (R128, R130, R136). -/
  | direction
  /-- An indexed operand where the entry takes a named register only (R124, R131). -/
  | indexed
  /-- An immediate outside the entry's range (R327, R358, R369, R380, R383). -/
  | immediate
  /-- A per-lane special register outside VMOV (R281). -/
  | perLane
  /-- A VRED or VSCAN operation with a type it does not take (R421). -/
  | operation
  /-- A pair of conversion codes or a field outside R333 or R375. -/
  | conversion
  /-- A register of a run above 127 (R375). -/
  | runRange
  /-- A guest context above 7, or a context beside the host tag (R414). -/
  | context
  /-- A word whose OPC is assigned under the row of unassigned ones (R290). -/
  | assigned
  deriving DecidableEq, Repr

/-- The types 0 to 3. -/
def Ty.int32or64 : Ty → Bool
  | .i32 | .n32 | .i64 | .n64 => true
  | _ => false

/-- The types 0 to 3, C and D. -/
def Ty.scalar : Ty → Bool
  | .b32 | .b64 => true
  | t => t.int32or64

/-- The types 0 to 3 and 7 to B. -/
def Ty.vecArith : Ty → Bool
  | .i16x2 | .i8 | .n8 | .i16 | .n16 => true
  | t => t.int32or64

/-- The types 0 to 3 and 7 to D. -/
def Ty.vecAny : Ty → Bool
  | .b32 | .b64 => true
  | t => t.vecArith

/-- The types of VABS: 0, 2, 7, 8, A (R418). -/
def Ty.signedInt : Ty → Bool
  | .i32 | .i64 | .i16x2 | .i8 | .i16 => true
  | _ => false

/-- The float types 4 to 6. -/
def Ty.float : Ty → Bool
  | .f32 | .f16x2 | .bf16x2 => true
  | _ => false

/-- A 64-bit type, which names register pairs (R286). -/
def Ty.is64 : Ty → Bool
  | .i64 | .n64 | .b64 => true
  | _ => false

/-- The conditions that integer compares take (R288). -/
def Cond.integer : Cond → Bool
  | .eq | .ne | .lt | .le | .gt | .ge => true
  | _ => false

/-- A named vector register that may begin a pair; the parity of an indexed one is judged when it is issued. -/
def VReg.mayPair : VReg → Bool
  | .dir n => n.toNat % 2 == 0
  | .idx _ _ => true

def VSI.mayPair : VSI → Bool
  | .vec r => r.mayPair
  | _ => true

def SReg.named : SReg → Bool
  | .dir _ => true
  | .idx _ _ => false

def SSrc.namedOrImm : SSrc → Bool
  | .reg r => r.named
  | .imm _ => true

/-- The last register of a run of `m` stands within 0 to 127; an indexed run is judged when it is issued (R375). -/
def VReg.runFits (r : VReg) (m : Nat) : Bool :=
  match r with
  | .dir n => n.toNat + m ≤ 128
  | .idx _ _ => true

/-- Bytes of a size code (R287). -/
def Size.bytes : Size → Nat
  | .s8 => 1 | .s16 => 2 | .s32 => 4 | .s64 => 8

/-- The size that a sum type needs (R89). -/
def SumTy.size : SumTy → Size
  | .i64 => .s64
  | _ => .s32

/-- The per-lane special registers 0x00 to 0x03 (R281). -/
def Special.perLane : Special → Bool
  | .lane | .widlo | .widhi | .arg => true
  | _ => false

/-- Elements of one lane word: the count m of R333. -/
def Fmt.perWord : Fmt → Nat
  | .bf16 | .fp16 => 2
  | .e4m3 | .e5m2 | .e3m2 | .e2m3 | .int8 | .c8 => 4
  | .e2m1 | .int4 => 8

/-- Element formats 0 to 4, which take block scales (R148). -/
def Fmt.narrowFloat : Fmt → Bool
  | .e4m3 | .e5m2 | .e3m2 | .e2m3 | .e2m1 => true
  | _ => false

/-- Formats 0 to 6 (R176). -/
def Fmt.isFloat : Fmt → Bool
  | .bf16 | .fp16 => true
  | f => f.narrowFloat

/-- The OPC values that R290 assigns. -/
def assignedOpc (x : BitVec 10) : Bool :=
  let n := x.toNat
  (1 ≤ n && n ≤ 0xE) || (0x40 ≤ n && n ≤ 0x58) || (0x80 ≤ n && n ≤ 0x84) || (0xA0 ≤ n && n ≤ 0xB6) ||
    (0x100 ≤ n && n ≤ 0x112) || (0x180 ≤ n && n ≤ 0x185) || (0x1C0 ≤ n && n ≤ 0x1C3) || (0x1E0 ≤ n && n ≤ 0x1E4) ||
    (0x1E8 ≤ n && n ≤ 0x1EC) || (0x1F0 ≤ n && n ≤ 0x1F2) || (0x220 ≤ n && n ≤ 0x225) || (0x228 ≤ n && n ≤ 0x22A) ||
    (0x260 ≤ n && n ≤ 0x265) || (0x2A0 ≤ n && n ≤ 0x2A3) || (0x2C0 ≤ n && n ≤ 0x2C6)

/-- The first limit of a list that does not hold. -/
def firstBad : List (Bool × IllFormed) → Option IllFormed
  | [] => none
  | (true, _) :: rest => firstBad rest
  | (false, e) :: _ => some e

/-- The boundary flags of every word: G implies L and L implies B (R43, R277). -/
def Ctl.flagsOk (c : Ctl) : Bool := (!c.g || c.l) && (!c.l || c.b)

/-- An instruction with no limit of its own beside the flags. -/
def plain (c : Ctl) : Option IllFormed := firstBad [(c.flagsOk, .boundary)]

/-- An instruction that must carry B (R43). -/
def ender (c : Ctl) : Option IllFormed := firstBad [(c.flagsOk, .boundary), (c.b, .mustEndRun)]

/-- An instruction that accepts some types only. -/
def typed (c : Ctl) (ok : Bool) : Option IllFormed := firstBad [(c.flagsOk, .boundary), (ok, .type)]

/-- A vector instruction on D, A and B under a type, with pairs under 64-bit types. -/
def vecTyped (c : Ctl) (ty : Ty) (ok : Bool) (d a : VReg) (b : VSI) : Option IllFormed :=
  firstBad [(c.flagsOk, .boundary), (ok, .type), (!ty.is64 || (d.mayPair && a.mayPair && b.mayPair), .oddPair)]

/-- A vector load (R349, R353). -/
def loadOk (c : Ctl) (glob : Bool) (sz : Size) (d : VReg) (m : VMem) : Option IllFormed :=
  firstBad [(c.flagsOk, .boundary), (sz != .s64 || d.mayPair, .oddPair),
    (!(glob && m.a.isNone) || m.b.mayPair, .oddPair)]

/-- A store's sum type: zero unless the rule is .sum, and then of the store's size (R89, R289). -/
def sumOk (sz : Size) (rule : Rule) (sum : SumTy) : Bool :=
  if rule = .sum then sum.size == sz else sum == .n32

/-- A vector store (R410). -/
def storeOk (c : Ctl) (glob : Bool) (sz : Size) (sumGood : Bool) (d : VReg) (m : VMem) : Option IllFormed :=
  firstBad [(c.flagsOk, .boundary), (sumGood, .sumType), (sz != .s64 || d.mayPair, .oddPair),
    (!(glob && m.a.isNone) || m.b.mayPair, .oddPair)]

/-- The operations that VRED and VSCAN take with a type (R421). -/
def redOk (op : RedOp) (ty : Ty) : Bool :=
  match op with
  | .add | .min | .max => ty.vecArith || ty.float
  | .and | .or | .xor => ty.vecAny

/-- The type pairs of CVT (R334). -/
def cvtOk (d s : Ty) : Bool :=
  let one (t : Ty) : Bool := t.int32or64 || t == .f32
  let two (t : Ty) : Bool := t == .f16x2 || t == .bf16x2 || t == .i16x2 || t == .i16 || t == .n16
  let four (t : Ty) : Bool := t == .i8 || t == .n8
  (one d && one s) || (two d && two s) || (four d && four s)

/-- The codes of CVTP (R333). -/
def cvtpOk (d : Fmt) (s : Ty) : Bool :=
  d != .c8 && (s == .f32 || (s == .i32 && (d == .int8 || d == .int4)))

/-- The codes of DQCVT (R333). -/
def dqcvtOk (d : Ty) (s : Fmt) (tab : BitVec 2) (len : BlkLen) : Bool :=
  (d == .f32 || (d == .i32 && len == .none && (s == .int8 || s == .int4 || s == .c8))) &&
    (len == .none || s.narrowFloat) &&
    (s == .c8 || tab == 0 || (len != .none && tab == 1))

/-- QSCL and QCVT: an element format 0 to 4 and a block length 1 to 3 (R375). -/
def quantOk (d : Fmt) (len : BlkLen) : Bool := d.narrowFloat && len != .none

/-- The first limit that an instruction breaks; none for a well-formed one. Events carry no word and have no limit. -/
def Instr.illFormed : Instr → Option IllFormed
  | .nop c | .brk c => plain c
  | .bra c _ | .brz c _ _ | .brnz c _ _ | .brx c _ | .call c _ _ _ | .callx c _ _ _ | .ret c | .exit c | .detach c
  | .rett c => ender c
  | .pass c a =>
    firstBad [(c.flagsOk, .boundary), (c.b && c.l, .mustEndRun),
      (match a with | .imm i => decide (1 ≤ i.toInt ∧ i.toInt ≤ 3) | .reg _ => true, .immediate)]
  | .trap c _ => firstBad [(c.flagsOk, .boundary), (!c.l && !c.g, .trapBoundary)]
  | .sadd c ty _ _ _ | .ssub c ty _ _ _ | .smul c ty _ _ _ | .sand c ty _ _ _ | .sor c ty _ _ _ | .sxor c ty _ _ _
  | .sshl c ty _ _ _ | .sshr c ty _ _ _ | .ssar c ty _ _ _ | .sbfx c ty _ _ _ | .sbfi c ty _ _ _
  | .ssel c ty _ _ _ _ | .smovi c ty _ _ | .smovh c ty _ _ | .spopc c ty _ _ | .sclz c ty _ _ | .sffs c ty _ _ =>
    typed c ty.scalar
  | .smov c ty _ a =>
    firstBad [(c.flagsOk, .boundary), (ty.scalar, .type),
      (match a with | .spr s => !s.perLane | _ => true, .perLane)]
  | .smulh c ty _ _ _ | .sdiv c ty _ _ _ | .srem c ty _ _ _ | .smin c ty _ _ _ | .smax c ty _ _ _
  | .slea c ty _ _ _ => typed c ty.int32or64
  | .scmp c ty cond _ _ _ =>
    firstBad [(c.flagsOk, .boundary), (ty.int32or64, .type), (cond.integer, .condition)]
  | .pand c _ _ _ | .por c _ _ _ | .pxor c _ _ _ | .pandn c _ _ _ | .pmov c _ _ => plain c
  | .vadd c ty d a b | .vsub c ty d a b | .vmul c ty d a b | .vmad c ty d a b | .vand c ty d a b | .vor c ty d a b
  | .vxor c ty d a b | .vshl c ty d a b | .vshr c ty d a b | .vsar c ty d a b | .vsel c ty _ d a b =>
    vecTyped c ty ty.vecAny d a b
  | .vmulh c ty d a b | .vmin c ty d a b | .vmax c ty d a b | .vsadd c ty d a b => vecTyped c ty ty.vecArith d a b
  | .vabs c ty d a => vecTyped c ty ty.signedInt d a (.imm 0)
  | .vpopc c ty d a | .vclz c ty d a => vecTyped c ty ty.vecAny d a (.imm 0)
  | .vbfx c ty d a b | .vbfi c ty d a b => vecTyped c ty ty.scalar d a b
  | .vcmp c ty cond _ a b =>
    firstBad [(c.flagsOk, .boundary), (ty.int32or64, .type), (cond.integer, .condition),
      (!ty.is64 || (a.mayPair && b.mayPair), .oddPair)]
  | .vmov c ty d a =>
    firstBad [(c.flagsOk, .boundary), (ty.vecAny, .type),
      (!ty.is64 || (d.mayPair && (match a with | .vec r => r.mayPair | _ => true)), .oddPair)]
  | .vmovi c ty d _ => firstBad [(c.flagsOk, .boundary), (ty.vecAny, .type), (!ty.is64 || d.mayPair, .oddPair)]
  | .fadd c _ _ _ _ | .fsub c _ _ _ _ | .fmul c _ _ _ _ | .ffma c _ _ _ _ | .fmin c _ _ _ _ | .fmax c _ _ _ _
  | .fdiv c _ _ _ _ => plain c
  | .fsqrt c _ _ _ | .frcp c _ _ _ | .frsq c _ _ _ | .fex2 c _ _ _ | .flg2 c _ _ _ | .fsin c _ _ _ | .fcos c _ _ _
  | .frnd c _ _ _ => plain c
  | .fcmp c _ _ _ _ => plain c
  | .hadd c ty _ _ _ _ | .hmul c ty _ _ _ _ | .hfma c ty _ _ _ _ => typed c (ty == .f16x2 || ty == .bf16x2)
  | .cvt c dty sty _ _ d a =>
    firstBad [(c.flagsOk, .boundary), (cvtOk dty sty, .conversion),
      ((!dty.is64 || d.mayPair) && (!sty.is64 || a.mayPair), .oddPair)]
  | .cvtp c dst sty _ _ _ _ => firstBad [(c.flagsOk, .boundary), (cvtpOk dst sty, .conversion)]
  | .dqcvt c dty src tab len _ _ _ _ => firstBad [(c.flagsOk, .boundary), (dqcvtOk dty src tab len, .conversion)]
  | .qscl c dst _ len _ a =>
    firstBad [(c.flagsOk, .boundary), (quantOk dst len, .conversion), (a.runFits dst.perWord, .runRange)]
  | .qcvt c dst _ len _ _ a =>
    firstBad [(c.flagsOk, .boundary), (quantOk dst len, .conversion), (a.runFits (dst.perWord + 1), .runRange)]
  | .qcmp c _ _ a => firstBad [(c.flagsOk, .boundary), (a.runFits 4, .runRange)]
  | .vperm c ty d a _ | .vbcast c ty d a _ =>
    firstBad [(c.flagsOk, .boundary), (!ty.is64 || (d.mayPair && a.mayPair), .oddPair)]
  | .vred c ty op d a | .vscan c ty op d a =>
    firstBad [(c.flagsOk, .boundary), (redOk op ty, .operation), (!ty.is64 || (d.mayPair && a.mayPair), .oddPair)]
  | .ldl c sz d m | .ldw c sz d m => loadOk c false sz d m
  | .ldg c sz _ _ d m => loadOk c true sz d m
  | .stl c sz rule sum d m => storeOk c false sz (sumOk sz rule sum) d m
  | .stg c sz rule sum d m => storeOk c true sz (sumOk sz rule sum) d m
  | .stla c sz sum d m => storeOk c false sz (sum.size == sz) d m
  | .stga c sz sum d m => storeOk c true sz (sum.size == sz) d m
  | .sldl c _ _ _ | .sldg c _ _ _ _ _ => plain c
  | .sstl c sz rule sum _ _ | .sstg c sz rule sum _ _ =>
    firstBad [(c.flagsOk, .boundary), (sumOk sz rule sum, .sumType)]
  | .pfg c m | .pgreq c m => firstBad [(c.flagsOk, .boundary), (!m.a.isNone || m.b.mayPair, .oddPair)]
  | .cpy c dir rule kind d =>
    firstBad [(c.flagsOk, .boundary), (kind == .now || dir == .g2l || dir == .g2g, .readKind),
      (dir != .ferry || rule == .lo, .direction), (d.named, .indexed)]
  | .cpym c dir _ kind d =>
    firstBad [(c.flagsOk, .boundary), (dir == .g2l || dir == .l2l || dir == .w2l, .direction),
      (kind == .now || dir == .g2l, .readKind), (d.named, .indexed)]
  | .land c d a b =>
    firstBad [(c.flagsOk, .boundary), (d.namedOrImm && a.namedOrImm && b.namedOrImm, .indexed)]
  | .gth c side _ kind d =>
    firstBad [(c.flagsOk, .boundary), (kind == .now || side == .g, .readKind), (d.named, .indexed)]
  | .sct c side _ d => firstBad [(c.flagsOk, .boundary), (side != .w, .direction), (d.named, .indexed)]
  | .cpyw c _ d => firstBad [(c.flagsOk, .boundary), (d.named, .indexed)]
  | .btst c _ _ | .btdem c _ | .btpro c _ => plain c
  | .mma c _ _ _ _ => plain c
  | .mmq c _ _ a _ => firstBad [(c.flagsOk, .boundary), (a.mayPair, .oddPair)]
  | .mzero c _ _ | .mlda c _ _ _ | .mdrn c _ _ _ _ _ => plain c
  | .ctld c d _ =>
    firstBad [(c.flagsOk, .boundary), (match d with | .imm i => decide (i.toNat ≤ 3) | .reg _ => true, .immediate)]
  | .spawn c fwd _ _ b => firstBad [(c.flagsOk, .boundary), (!fwd || b.mayPair, .oddPair)]
  | .lnch c _ | .ctxsv c _ | .ctxld c _ | .mbxwr c _ _ => plain c
  | .mbxrd c _ a =>
    firstBad [(c.flagsOk, .boundary), (match a with | .imm i => decide (i.toNat ≤ 1) | .reg _ => true, .immediate)]
  | .rdsr c _ a => firstBad [(c.flagsOk, .boundary), (!a.perLane, .perLane)]
  | .wrsr c d _ =>
    firstBad [(c.flagsOk, .boundary), (!d.perLane, .perLane), (!(d == .wbv || d == .wbs) || c.b, .mustEndRun)]
  | .rdcnt c _ a =>
    firstBad [(c.flagsOk, .boundary), (match a with | .imm i => decide (i.toNat < 8192) | .reg _ => true, .immediate)]
  | .qtopo c _ sel _ => firstBad [(c.flagsOk, .boundary), (decide (sel.toNat ≤ 11), .immediate)]
  | .tlbinv c _ host gctx _ _ =>
    firstBad [(c.flagsOk, .boundary), (c.b, .mustEndRun),
      (if host then gctx == 0 else decide (gctx.toNat ≤ 7), .context)]
  | .unassignedOpcode w => firstBad [(!assignedOpc (w.extractLsb' 86 10), .assigned)]
  | .launchPacketPost _ _ _ => none
  | .launchBroadcast _ => none
  | .launchUnitPlace _ => none
  | .launchStart _ => none
  | .launchComplete _ => none
  | .runGrant _ _ => none
  | .deferredTrapTake _ => none
  | .writeHoldExpiry _ => none
  | .writeArrival _ _ => none
  | .readServe _ _ _ => none
  | .loadFill _ => none
  | .commitDeclare _ => none
  | .commitApply _ _ _ => none
  | .commitVisible _ _ => none
  | .localClose _ _ => none
  | .stepOverrun _ => none
  | .spawnItemArrival _ _ => none
  | .groupPlace _ => none
  | .asyncComplete _ => none
  | .matrixKstep _ => none
  | .landingArrival _ _ => none
  | .mailboxDeliver _ => none
  | .pageWalk _ _ _ => none
  | .tlbinvBegin _ => none
  | .tlbinvComplete _ => none
  | .tierCopyComplete _ => none
  | .ferrySend _ _ => none
  | .ferryArrival _ _ _ => none
  | .hostWrite _ _ _ => none
  | .hostRead _ _ _ => none
  | .saveSequence _ _ => none
  | .saveImageAssemble _ => none
  | .restoreDieReady _ _ => none
  | .restoreResume _ => none
  | .timeSliceExpiry _ _ => none
  | .preempt _ => none
  | .restore _ => none
  | .terminate _ => none
  | .layoutChange _ => none
  | .layoutChangeForce _ => none
  | .applyStaged _ => none
  | .partitionReset _ => none
  | .releaseFault _ => none
  | .releaseDiscard _ => none
  | .attestationReport _ => none
  | .debugStop _ _ => none
  | .counterReadLow _ _ _ => none
  | .registerWrite _ _ _ _ => none
  | .strikeAlarm _ => none
  | .waystationAlarm _ => none
  | .eccCorrected _ _ _ _ => none
  | .coreRetire _ => none
  | .blockMigrate _ => none
  | .poisonMark _ _ _ => none
  | .fecCorrection _ _ => none
  | .linkIntegrityFailure _ _ _ => none
  | .dieFatalError _ _ _ => none
  | .horizonTreeFailure _ _ _ => none
  | .clockCapChange _ _ => none
  | .bringUp _ => none
  | .weightRefreshEnd _ _ => none
  | .ideStreamEstablished _ _ => none
  | .migrationComplete _ => none
  | .laneCycleCount => none
  | .corePowerGating _ _ => none
  | .linkRetraining _ => none

/-- An instruction that the encoding admits (R277, R287). -/
def Instr.WellFormed (i : Instr) : Prop := i.illFormed = none

/-- The rows that have a word of their own: the instructions, and an unassigned OPC. -/
def Instr.isEvent : Instr → Bool
  | .launchPacketPost _ _ _ => true
  | .launchBroadcast _ => true
  | .launchUnitPlace _ => true
  | .launchStart _ => true
  | .launchComplete _ => true
  | .runGrant _ _ => true
  | .deferredTrapTake _ => true
  | .writeHoldExpiry _ => true
  | .writeArrival _ _ => true
  | .readServe _ _ _ => true
  | .loadFill _ => true
  | .commitDeclare _ => true
  | .commitApply _ _ _ => true
  | .commitVisible _ _ => true
  | .localClose _ _ => true
  | .stepOverrun _ => true
  | .spawnItemArrival _ _ => true
  | .groupPlace _ => true
  | .asyncComplete _ => true
  | .matrixKstep _ => true
  | .landingArrival _ _ => true
  | .mailboxDeliver _ => true
  | .pageWalk _ _ _ => true
  | .tlbinvBegin _ => true
  | .tlbinvComplete _ => true
  | .tierCopyComplete _ => true
  | .ferrySend _ _ => true
  | .ferryArrival _ _ _ => true
  | .hostWrite _ _ _ => true
  | .hostRead _ _ _ => true
  | .saveSequence _ _ => true
  | .saveImageAssemble _ => true
  | .restoreDieReady _ _ => true
  | .restoreResume _ => true
  | .timeSliceExpiry _ _ => true
  | .preempt _ => true
  | .restore _ => true
  | .terminate _ => true
  | .layoutChange _ => true
  | .layoutChangeForce _ => true
  | .applyStaged _ => true
  | .partitionReset _ => true
  | .releaseFault _ => true
  | .releaseDiscard _ => true
  | .attestationReport _ => true
  | .debugStop _ _ => true
  | .counterReadLow _ _ _ => true
  | .registerWrite _ _ _ _ => true
  | .strikeAlarm _ => true
  | .waystationAlarm _ => true
  | .eccCorrected _ _ _ _ => true
  | .coreRetire _ => true
  | .blockMigrate _ => true
  | .poisonMark _ _ _ => true
  | .fecCorrection _ _ => true
  | .linkIntegrityFailure _ _ _ => true
  | .dieFatalError _ _ _ => true
  | .horizonTreeFailure _ _ _ => true
  | .clockCapChange _ _ => true
  | .bringUp _ => true
  | .weightRefreshEnd _ _ => true
  | .ideStreamEstablished _ _ => true
  | .migrationComplete _ => true
  | .laneCycleCount => true
  | .corePowerGating _ _ => true
  | .linkRetraining _ => true
  | .nop _ => false
  | .bra _ _ => false
  | .brz _ _ _ => false
  | .brnz _ _ _ => false
  | .brx _ _ => false
  | .call _ _ _ _ => false
  | .callx _ _ _ _ => false
  | .ret _ => false
  | .exit _ => false
  | .pass _ _ => false
  | .detach _ => false
  | .brk _ => false
  | .trap _ _ => false
  | .rett _ => false
  | .sadd _ _ _ _ _ => false
  | .ssub _ _ _ _ _ => false
  | .smul _ _ _ _ _ => false
  | .smulh _ _ _ _ _ => false
  | .sdiv _ _ _ _ _ => false
  | .srem _ _ _ _ _ => false
  | .sand _ _ _ _ _ => false
  | .sor _ _ _ _ _ => false
  | .sxor _ _ _ _ _ => false
  | .sshl _ _ _ _ _ => false
  | .sshr _ _ _ _ _ => false
  | .ssar _ _ _ _ _ => false
  | .smin _ _ _ _ _ => false
  | .smax _ _ _ _ _ => false
  | .scmp _ _ _ _ _ _ => false
  | .ssel _ _ _ _ _ _ => false
  | .smov _ _ _ _ => false
  | .smovi _ _ _ _ => false
  | .smovh _ _ _ _ => false
  | .spopc _ _ _ _ => false
  | .sclz _ _ _ _ => false
  | .sffs _ _ _ _ => false
  | .sbfx _ _ _ _ _ => false
  | .sbfi _ _ _ _ _ => false
  | .slea _ _ _ _ _ => false
  | .pand _ _ _ _ => false
  | .por _ _ _ _ => false
  | .pxor _ _ _ _ => false
  | .pandn _ _ _ _ => false
  | .pmov _ _ _ => false
  | .vadd _ _ _ _ _ => false
  | .vsub _ _ _ _ _ => false
  | .vmul _ _ _ _ _ => false
  | .vmulh _ _ _ _ _ => false
  | .vmad _ _ _ _ _ => false
  | .vmin _ _ _ _ _ => false
  | .vmax _ _ _ _ _ => false
  | .vabs _ _ _ _ => false
  | .vand _ _ _ _ _ => false
  | .vor _ _ _ _ _ => false
  | .vxor _ _ _ _ _ => false
  | .vshl _ _ _ _ _ => false
  | .vshr _ _ _ _ _ => false
  | .vsar _ _ _ _ _ => false
  | .vsadd _ _ _ _ _ => false
  | .vpopc _ _ _ _ => false
  | .vclz _ _ _ _ => false
  | .vbfx _ _ _ _ _ => false
  | .vbfi _ _ _ _ _ => false
  | .vsel _ _ _ _ _ _ => false
  | .vcmp _ _ _ _ _ _ => false
  | .vmov _ _ _ _ => false
  | .vmovi _ _ _ _ => false
  | .fadd _ _ _ _ _ => false
  | .fsub _ _ _ _ _ => false
  | .fmul _ _ _ _ _ => false
  | .ffma _ _ _ _ _ => false
  | .fmin _ _ _ _ _ => false
  | .fmax _ _ _ _ _ => false
  | .fdiv _ _ _ _ _ => false
  | .fsqrt _ _ _ _ => false
  | .frcp _ _ _ _ => false
  | .frsq _ _ _ _ => false
  | .fex2 _ _ _ _ => false
  | .flg2 _ _ _ _ => false
  | .fsin _ _ _ _ => false
  | .fcos _ _ _ _ => false
  | .frnd _ _ _ _ => false
  | .fcmp _ _ _ _ _ => false
  | .hadd _ _ _ _ _ _ => false
  | .hmul _ _ _ _ _ _ => false
  | .hfma _ _ _ _ _ _ => false
  | .cvt _ _ _ _ _ _ _ => false
  | .cvtp _ _ _ _ _ _ _ => false
  | .dqcvt _ _ _ _ _ _ _ _ _ => false
  | .qscl _ _ _ _ _ _ => false
  | .qcvt _ _ _ _ _ _ _ => false
  | .qcmp _ _ _ _ => false
  | .vperm _ _ _ _ _ => false
  | .vbcast _ _ _ _ _ => false
  | .vred _ _ _ _ _ => false
  | .vscan _ _ _ _ _ => false
  | .ldl _ _ _ _ => false
  | .stl _ _ _ _ _ _ => false
  | .stla _ _ _ _ _ => false
  | .sldl _ _ _ _ => false
  | .sstl _ _ _ _ _ _ => false
  | .ldg _ _ _ _ _ _ => false
  | .stg _ _ _ _ _ _ => false
  | .stga _ _ _ _ _ => false
  | .sldg _ _ _ _ _ _ => false
  | .sstg _ _ _ _ _ _ => false
  | .ldw _ _ _ _ => false
  | .pfg _ _ => false
  | .pgreq _ _ => false
  | .cpy _ _ _ _ _ => false
  | .cpym _ _ _ _ _ => false
  | .land _ _ _ _ => false
  | .gth _ _ _ _ _ => false
  | .sct _ _ _ _ => false
  | .cpyw _ _ _ => false
  | .btst _ _ _ => false
  | .btdem _ _ => false
  | .btpro _ _ => false
  | .mma _ _ _ _ _ => false
  | .mmq _ _ _ _ _ => false
  | .mzero _ _ _ => false
  | .mlda _ _ _ _ => false
  | .mdrn _ _ _ _ _ _ => false
  | .ctld _ _ _ => false
  | .spawn _ _ _ _ _ => false
  | .lnch _ _ => false
  | .mbxrd _ _ _ => false
  | .mbxwr _ _ _ => false
  | .rdsr _ _ _ => false
  | .wrsr _ _ _ => false
  | .rdcnt _ _ _ => false
  | .qtopo _ _ _ _ => false
  | .tlbinv _ _ _ _ _ _ => false
  | .ctxsv _ _ => false
  | .ctxld _ _ => false
  | .unassignedOpcode _ => false

end Sys2Proof
end

