-- ==== Sys2Proof/Decode.lean ====
section
/-! DEFINITION. The decoder, total on any word and rejecting by name, and the encoder written from the same tables
(R277 to R290). An unassigned OPC decodes to its own row of the opcode table; any other illegal word is rejected. -/

namespace Sys2Proof

/-- Why a word is rejected; each reason is trap 0x02 when the instruction is reached (R277, R279). -/
inductive DecodeErr where
  /-- Bits [6:0] of the word are not zero. -/
  | reserved
  /-- An operand of a kind or file the instruction does not take. -/
  | operand
  /-- A register number outside its file, or an unassigned special register. -/
  | number
  /-- A value of MOD that the class or the entry marks illegal. -/
  | modifier
  /-- A word whose fields read well and that breaks a limit of its entry. -/
  | illFormed (why : IllFormed)
  deriving DecidableEq, Repr

/-- A decoded value or the reason of a rejection. -/
abbrev Dec (α : Type) := Except DecodeErr α

/-- The fields of an instruction word (R277). -/
structure Raw where
  opc : BitVec 10
  mod : BitVec 8
  fd : BitVec 16
  fa : BitVec 16
  fb : BitVec 16
  c : Ctl
  res : BitVec 7
  deriving DecidableEq, Repr

/-- The low 30 bits of a word as its common fields (R277). -/
def splitCtl (x : BitVec 30) : Ctl where
  ginv := x.getLsbD 29
  gpred := x.extractLsb' 25 4
  b := x.getLsbD 24
  l := x.getLsbD 23
  g := x.getLsbD 22
  ea := x.getLsbD 21
  eb := x.getLsbD 20
  ed := x.getLsbD 19
  rg := x.extractLsb' 14 5
  dly := x.extractLsb' 10 4
  cph := x.extractLsb' 8 2
  y := x.getLsbD 7

/-- The fields of a word (R277). -/
def split (w : IWord) : Raw where
  opc := w.extractLsb' 86 10
  mod := w.extractLsb' 78 8
  fd := w.extractLsb' 62 16
  fa := w.extractLsb' 46 16
  fb := w.extractLsb' 30 16
  c := splitCtl (w.extractLsb' 0 30)
  res := w.extractLsb' 0 7

/-- The low 30 bits that hold the common fields and the reserved field (R277). -/
def joinCtl (c : Ctl) (res : BitVec 7) : BitVec 30 :=
  BitVec.ofBool c.ginv ++ (c.gpred ++ (BitVec.ofBool c.b ++ (BitVec.ofBool c.l ++ (BitVec.ofBool c.g ++
    (BitVec.ofBool c.ea ++ (BitVec.ofBool c.eb ++ (BitVec.ofBool c.ed ++ (c.rg ++ (c.dly ++ (c.cph ++
      (BitVec.ofBool c.y ++ res)))))))))))

/-- The word that holds the fields (R277). -/
def join (r : Raw) : IWord :=
  r.opc ++ (r.mod ++ (r.fd ++ (r.fa ++ (r.fb ++ joinCtl r.c r.res))))

/-- MOD [7:4]. -/
def hi4 (m : BitVec 8) : BitVec 4 := m.extractLsb' 4 4

/-- MOD [3:0]. -/
def lo4 (m : BitVec 8) : BitVec 4 := m.extractLsb' 0 4

/-- A value or the rejection `e`. -/
def orErr {α : Type} (e : DecodeErr) : Option α → Dec α
  | some x => .ok x
  | none => .error e

/-- A check or the rejection `e`. -/
def need (e : DecodeErr) (p : Bool) : Dec Unit := if p then .ok () else .error e

def zeroMod (m : BitVec 8) : Dec Unit := need .modifier (m == 0)
def zero4 (x : BitVec 4) : Dec Unit := need .modifier (x == 0)

/-! The codes of the modifiers. -/

def Ty.bits : Ty → BitVec 4
  | .i32 => 0 | .n32 => 1 | .i64 => 2 | .n64 => 3 | .f32 => 4 | .f16x2 => 5 | .bf16x2 => 6 | .i16x2 => 7
  | .i8 => 8 | .n8 => 9 | .i16 => 10 | .n16 => 11 | .b32 => 12 | .b64 => 13

def Ty.all : List Ty := [.i32, .n32, .i64, .n64, .f32, .f16x2, .bf16x2, .i16x2, .i8, .n8, .i16, .n16, .b32, .b64]
def Ty.ofBits (x : BitVec 4) : Option Ty := Ty.all.find? (fun t => t.bits == x)

def Cond.bits : Cond → BitVec 4
  | .eq => 0 | .ne => 1 | .lt => 2 | .le => 3 | .gt => 4 | .ge => 5 | .ord => 6 | .uno => 7 | .ueq => 8 | .ult => 9
  | .ule => 10 | .ugt => 11 | .uge => 12

def Cond.all : List Cond := [.eq, .ne, .lt, .le, .gt, .ge, .ord, .uno, .ueq, .ult, .ule, .ugt, .uge]
def Cond.ofBits (x : BitVec 4) : Option Cond := Cond.all.find? (fun t => t.bits == x)

def Rnd.bits : Rnd → BitVec 2
  | .rne => 0 | .rtz => 1 | .rdn => 2 | .rup => 3

def Rnd.ofBits (x : BitVec 2) : Rnd := if x == 0 then .rne else if x == 1 then .rtz else if x == 2 then .rdn else .rup

def Size.bits : Size → BitVec 2
  | .s8 => 0 | .s16 => 1 | .s32 => 2 | .s64 => 3

def Size.ofBits (x : BitVec 2) : Size := if x == 0 then .s8 else if x == 1 then .s16 else if x == 2 then .s32 else .s64

def Kind.bits : Kind → BitVec 2
  | .now => 0 | .stb => 1 | .lag => 2

def Kind.ofBits (x : BitVec 2) : Option Kind :=
  if x == 0 then some .now else if x == 1 then some .stb else if x == 2 then some .lag else none

def Rule.bits : Rule → BitVec 2
  | .lo => 0 | .any => 1 | .sum => 2 | .flt => 3

def Rule.ofBits (x : BitVec 2) : Rule := if x == 0 then .lo else if x == 1 then .any else if x == 2 then .sum else .flt

def SumTy.bits : SumTy → BitVec 4
  | .n32 => 0 | .i64 => 1 | .f32 => 2 | .bf16x2 => 3 | .f16x2 => 4

def SumTy.all : List SumTy := [.n32, .i64, .f32, .bf16x2, .f16x2]
def SumTy.ofBits (x : BitVec 4) : Option SumTy := SumTy.all.find? (fun t => t.bits == x)

def RedOp.bits : RedOp → BitVec 4
  | .add => 0 | .min => 1 | .max => 2 | .and => 3 | .or => 4 | .xor => 5

def RedOp.all : List RedOp := [.add, .min, .max, .and, .or, .xor]
def RedOp.ofBits (x : BitVec 4) : Option RedOp := RedOp.all.find? (fun t => t.bits == x)

def Fmt.bits : Fmt → BitVec 4
  | .e4m3 => 0 | .e5m2 => 1 | .e3m2 => 2 | .e2m3 => 3 | .e2m1 => 4 | .bf16 => 5 | .fp16 => 6 | .int8 => 7 | .int4 => 8
  | .c8 => 9

def Fmt.all : List Fmt := [.e4m3, .e5m2, .e3m2, .e2m3, .e2m1, .bf16, .fp16, .int8, .int4, .c8]
def Fmt.ofBits (x : BitVec 4) : Option Fmt := Fmt.all.find? (fun t => t.bits == x)

def BlkLen.bits : BlkLen → BitVec 2
  | .none => 0 | .l16 => 1 | .l32 => 2 | .l64 => 3

def BlkLen.ofBits (x : BitVec 2) : BlkLen := if x == 0 then .none else if x == 1 then .l16 else if x == 2 then .l32 else .l64

def ScaleFmt.bits : ScaleFmt → BitVec 2
  | .e8m0 => 0 | .ue4m3 => 1

def ScaleFmt.ofBits (x : BitVec 2) : Option ScaleFmt := if x == 0 then some .e8m0 else if x == 1 then some .ue4m3 else none

def Dir.bits : Dir → BitVec 4
  | .g2l => 0 | .l2g => 1 | .l2l => 2 | .w2l => 3 | .g2g => 5 | .ferry => 6

def Dir.all : List Dir := [.g2l, .l2g, .l2l, .w2l, .g2g, .ferry]
def Dir.ofBits (x : BitVec 4) : Option Dir := Dir.all.find? (fun t => t.bits == x)

def Side.bits : Side → BitVec 4
  | .g => 0 | .l => 2 | .w => 3

def Side.ofBits (x : BitVec 4) : Option Side :=
  if x == 0 then some .g else if x == 2 then some .l else if x == 3 then some .w else none

def Scope.bits : Scope → BitVec 2
  | .va => 0 | .ctx => 1 | .gpa => 2 | .all => 3

def Scope.ofBits (x : BitVec 2) : Scope := if x == 0 then .va else if x == 1 then .ctx else if x == 2 then .gpa else .all

/-- Special register numbers (R40, R82, R106, R168, R174, R214, R218, R229, R281). -/
def Special.bits : Special → BitVec 11
  | .lane => 0x00 | .widlo => 0x01 | .widhi => 0x02 | .arg => 0x03 | .gwid => 0x08 | .fw => 0x09 | .lhdr => 0x0A
  | .live => 0x0B | .gstep => 0x0C | .lstep => 0x0D | .gcmt => 0x0E | .lag => 0x0F | .die => 0x10 | .core => 0x11
  | .grp => 0x12 | .time => 0x14 | .toff => 0x15 | .lfm => 0x18 | .nrs => 0x19 | .xcause => 0x20 | .xpc => 0x21
  | .xaddr => 0x22 | .xlanes => 0x23 | .xstep => 0x24 | .xprog => 0x25 | .xinfo => 0x26 | .xvec => 0x27 | .wbv => 0x28
  | .wbs => 0x29 | .spill => 0x2A | .ovf => 0x30 | .accst => 0x31 | .wsref => 0x32 | .part => 0x3E | .ctx => 0x3F

def Special.all : List Special :=
  [.lane, .widlo, .widhi, .arg, .gwid, .fw, .lhdr, .live, .gstep, .lstep, .gcmt, .lag, .die, .core, .grp, .time, .toff,
   .lfm, .nrs, .xcause, .xpc, .xaddr, .xlanes, .xstep, .xprog, .xinfo, .xvec, .wbv, .wbs, .spill, .ovf, .accst, .wsref,
   .part, .ctx]

def Special.ofBits (x : BitVec 11) : Option Special := Special.all.find? (fun t => t.bits == x)

/-! Modifier layouts by class (R287). -/

def tyHi (m : BitVec 8) : Dec Ty := orErr .modifier (Ty.ofBits (hi4 m))
def condLo (m : BitVec 8) : Dec Cond := orErr .modifier (Cond.ofBits (lo4 m))
def redLo (m : BitVec 8) : Dec RedOp := orErr .modifier (RedOp.ofBits (lo4 m))
def fmtHi (m : BitVec 8) : Dec Fmt := orErr .modifier (Fmt.ofBits (hi4 m))

def tyMod (m : BitVec 8) : Dec Ty := do
  zero4 (lo4 m)
  tyHi m

/-- Rounding in MOD [1:0], MOD [3:2] zero. -/
def rndLo (m : BitVec 8) : Dec Rnd := do
  need .modifier (m.extractLsb' 2 2 == 0)
  pure (Rnd.ofBits (m.extractLsb' 0 2))

def floatMod (m : BitVec 8) : Dec Rnd := do
  need .modifier (hi4 m == 4)
  rndLo m

def fcmpMod (m : BitVec 8) : Dec Cond := do
  need .modifier (hi4 m == 4)
  condLo m

/-- `.sat` in MOD [3], MOD [2] zero, rounding in MOD [1:0]. -/
def satRnd (m : BitVec 8) : Dec (Bool × Rnd) := do
  need .modifier (m.extractLsb' 2 1 == 0)
  pure (m.getLsbD 3, Rnd.ofBits (m.extractLsb' 0 2))

def loadMod (m : BitVec 8) : Dec Size := do
  need .modifier (m.extractLsb' 0 6 == 0)
  pure (Size.ofBits (m.extractLsb' 6 2))

def kindMod (m : BitVec 8) : Dec (Size × Kind) := do
  let k ← orErr .modifier (Kind.ofBits (m.extractLsb' 4 2))
  pure (Size.ofBits (m.extractLsb' 6 2), k)

def storeMod (m : BitVec 8) : Dec (Size × Rule × SumTy) := do
  let s ← orErr .modifier (SumTy.ofBits (lo4 m))
  pure (Size.ofBits (m.extractLsb' 6 2), Rule.ofBits (m.extractLsb' 4 2), s)

def accMod (m : BitVec 8) : Dec (Size × SumTy) := do
  need .modifier (m.extractLsb' 4 2 == 0)
  let s ← orErr .modifier (SumTy.ofBits (lo4 m))
  pure (Size.ofBits (m.extractLsb' 6 2), s)

def cpyMod (m : BitVec 8) : Dec (Dir × Rule × Kind) := do
  let d ← orErr .modifier (Dir.ofBits (lo4 m))
  let k ← orErr .modifier (Kind.ofBits (m.extractLsb' 6 2))
  pure (d, Rule.ofBits (m.extractLsb' 4 2), k)

def gthMod (m : BitVec 8) : Dec (Side × Rule × Kind) := do
  let d ← orErr .modifier (Side.ofBits (lo4 m))
  let k ← orErr .modifier (Kind.ofBits (m.extractLsb' 6 2))
  pure (d, Rule.ofBits (m.extractLsb' 4 2), k)

def sctMod (m : BitVec 8) : Dec (Side × Rule) := do
  need .modifier (m.extractLsb' 6 2 == 0)
  let d ← orErr .modifier (Side.ofBits (lo4 m))
  pure (d, Rule.ofBits (m.extractLsb' 4 2))

def cpywMod (m : BitVec 8) : Dec Bool := do
  zero4 (hi4 m)
  if lo4 m == 0 then pure true else if lo4 m == 2 then pure false else .error .modifier

def btstMod (m : BitVec 8) : Dec Rule := do
  need .modifier (m.extractLsb' 6 2 == 0)
  zero4 (lo4 m)
  pure (Rule.ofBits (m.extractLsb' 4 2))

def mmaMod (m : BitVec 8) : Dec Kind := do
  need .modifier (m.extractLsb' 0 6 == 0)
  orErr .modifier (Kind.ofBits (m.extractLsb' 6 2))

def bit0Mod (m : BitVec 8) : Dec Bool := do
  need .modifier (m.extractLsb' 1 7 == 0)
  pure (m.getLsbD 0)

def mdrnMod (m : BitVec 8) : Dec (Bool × Bool × Rnd) := do
  zero4 (hi4 m)
  pure (m.getLsbD 0, m.getLsbD 1, Rnd.ofBits (m.extractLsb' 2 2))

def tlbMod (m : BitVec 8) : Dec (Scope × Bool × BitVec 4) := do
  need .modifier (m.extractLsb' 2 1 == 0)
  pure (Scope.ofBits (m.extractLsb' 0 2), m.getLsbD 3, hi4 m)

/-! Operands (R280, R281). -/

def nullBits : BitVec 16 := 3#2 ++ 0#14
def null (x : BitVec 16) : Dec Unit := need .operand (x == nullBits)

/-- A register of a file: kind 00, the file code and the number. -/
def regBits (file : BitVec 3) (n : BitVec 11) : BitVec 16 := 0#2 ++ (file ++ n)

/-- An indexed operand: kind 01, file, index register, base. -/
def idxBits (file : BitVec 3) (x : BitVec 3) (base : BitVec 8) : BitVec 16 := 1#2 ++ (file ++ (x ++ base))

def immBits (i : BitVec 14) : BitVec 16 := 2#2 ++ i

def kindOf (x : BitVec 16) : BitVec 2 := x.extractLsb' 14 2
def fileOf (x : BitVec 16) : BitVec 3 := x.extractLsb' 11 3
def numOf (x : BitVec 16) : BitVec 11 := x.extractLsb' 0 11
def idxOf (x : BitVec 16) : BitVec 3 := x.extractLsb' 8 3
def baseOf (x : BitVec 16) : BitVec 8 := x.extractLsb' 0 8
def immOf (x : BitVec 16) : BitVec 14 := x.extractLsb' 0 14

def VReg.bits : VReg → BitVec 16
  | .dir n => regBits 0 (0#4 ++ n)
  | .idx x b => idxBits 0 x b

def SReg.bits : SReg → BitVec 16
  | .dir n => regBits 1 (0#5 ++ n)
  | .idx x b => idxBits 1 x b

def vreg (x : BitVec 16) : Dec VReg := do
  need .operand (fileOf x == 0)
  if kindOf x == 0 then
    need .number (x.extractLsb' 7 4 == 0)
    pure (.dir (x.extractLsb' 0 7))
  else do
    need .operand (kindOf x == 1)
    pure (.idx (idxOf x) (baseOf x))

def sreg (x : BitVec 16) : Dec SReg := do
  need .operand (fileOf x == 1)
  if kindOf x == 0 then
    need .number (x.extractLsb' 6 5 == 0)
    pure (.dir (x.extractLsb' 0 6))
  else do
    need .operand (kindOf x == 1)
    pure (.idx (idxOf x) (baseOf x))

def SSrc.bits : SSrc → BitVec 16
  | .reg r => r.bits
  | .imm i => immBits i

def ssrc (x : BitVec 16) : Dec SSrc :=
  if kindOf x == 2 then pure (.imm (immOf x)) else do
    let r ← sreg x
    pure (.reg r)

def VSI.bits : VSI → BitVec 16
  | .vec r => r.bits
  | .sca r => r.bits
  | .imm i => immBits i

def vsi (x : BitVec 16) : Dec VSI :=
  if kindOf x == 2 then pure (.imm (immOf x)) else
    if fileOf x == 0 then do
      let r ← vreg x
      pure (.vec r)
    else do
      let r ← sreg x
      pure (.sca r)

def VS.bits : VS → BitVec 16
  | .vec r => r.bits
  | .sca r => r.bits

def vs (x : BitVec 16) : Dec VS :=
  if fileOf x == 0 then do
    let r ← vreg x
    pure (.vec r)
  else do
    let r ← sreg x
    pure (.sca r)

def pregBits (p : BitVec 4) : BitVec 16 := regBits 2 (0#7 ++ p)
def aregBits (p : BitVec 4) : BitVec 16 := regBits 3 (0#7 ++ p)
def xregBits (p : BitVec 3) : BitVec 16 := regBits 4 (0#8 ++ p)
def sprBits (s : Special) : BitVec 16 := regBits 5 s.bits

/-- A register of the file `f` whose number has four bits. -/
def reg4 (f : BitVec 3) (x : BitVec 16) : Dec (BitVec 4) := do
  need .operand (kindOf x == 0 && fileOf x == f)
  need .number (x.extractLsb' 4 7 == 0)
  pure (x.extractLsb' 0 4)

def preg (x : BitVec 16) : Dec (BitVec 4) := reg4 2 x
def areg (x : BitVec 16) : Dec (BitVec 4) := reg4 3 x

def xreg (x : BitVec 16) : Dec (BitVec 3) := do
  need .operand (kindOf x == 0 && fileOf x == 4)
  need .number (x.extractLsb' 3 8 == 0)
  pure (x.extractLsb' 0 3)

def sprOp (x : BitVec 16) : Dec Special := do
  need .operand (kindOf x == 0 && fileOf x == 5)
  orErr .number (Special.ofBits (numOf x))

def immOp (x : BitVec 16) : Dec (BitVec 14) := do
  need .operand (kindOf x == 2)
  pure (immOf x)

def SMovDst.bits : SMovDst → BitVec 16
  | .sca r => r.bits
  | .idx x => xregBits x

def smovDst (x : BitVec 16) : Dec SMovDst :=
  if kindOf x == 0 && fileOf x == 4 then do
    let r ← xreg x
    pure (.idx r)
  else do
    let r ← sreg x
    pure (.sca r)

def SMovSrc.bits : SMovSrc → BitVec 16
  | .sca r => r.bits
  | .idx x => xregBits x
  | .spr s => sprBits s

def smovSrc (x : BitVec 16) : Dec SMovSrc :=
  if kindOf x == 0 && fileOf x == 4 then do
    let r ← xreg x
    pure (.idx r)
  else if kindOf x == 0 && fileOf x == 5 then do
    let r ← sprOp x
    pure (.spr r)
  else do
    let r ← sreg x
    pure (.sca r)

def PSrc.bits : PSrc → BitVec 16
  | .pred p => pregBits p
  | .sca r => r.bits

def psrc (x : BitVec 16) : Dec PSrc :=
  if kindOf x == 0 && fileOf x == 2 then do
    let r ← preg x
    pure (.pred r)
  else do
    let r ← sreg x
    pure (.sca r)

def VMovSrc.bits : VMovSrc → BitVec 16
  | .vec r => r.bits
  | .sca r => r.bits
  | .spr s => sprBits s
  | .imm i => immBits i

def vmovSrc (x : BitVec 16) : Dec VMovSrc :=
  if kindOf x == 2 then pure (.imm (immOf x)) else
    if kindOf x == 0 && fileOf x == 5 then do
      let r ← sprOp x
      pure (.spr r)
    else if fileOf x == 0 then do
      let r ← vreg x
      pure (.vec r)
    else do
      let r ← sreg x
      pure (.sca r)

/-- A scalar base or null (R284). -/
def baseBits : Option SReg → BitVec 16
  | some r => r.bits
  | none => nullBits

def baseOp (x : BitVec 16) : Dec (Option SReg) :=
  if x == nullBits then pure none else do
    let r ← sreg x
    pure (some r)

def vmem (a b : BitVec 16) : Dec VMem := do
  let x ← baseOp a
  let y ← vsi b
  pure ⟨x, y⟩

def smem (a b : BitVec 16) : Dec SMem := do
  let x ← baseOp a
  let y ← ssrc b
  pure ⟨x, y⟩

def immHi (i : BitVec 32) : BitVec 16 := i.extractLsb' 16 16
def immLo (i : BitVec 32) : BitVec 16 := i.extractLsb' 0 16

/-! The source description of a conversion, an immediate in B (R287, R333, R375). -/

def cvtSrc (x : BitVec 16) : Dec Ty := do
  let i ← immOp x
  need .modifier (i.extractLsb' 4 10 == 0)
  orErr .modifier (Ty.ofBits (i.extractLsb' 0 4))

def dqSrc (x : BitVec 16) : Dec (Fmt × BitVec 2 × BlkLen) := do
  let i ← immOp x
  need .modifier (i.extractLsb' 8 6 == 0)
  let f ← orErr .modifier (Fmt.ofBits (i.extractLsb' 0 4))
  pure (f, i.extractLsb' 4 2, BlkLen.ofBits (i.extractLsb' 6 2))

def qSrc (x : BitVec 16) : Dec (ScaleFmt × BlkLen) := do
  let i ← immOp x
  need .modifier (i.extractLsb' 8 6 == 0)
  need .modifier (i.extractLsb' 0 4 == 4)
  let f ← orErr .modifier (ScaleFmt.ofBits (i.extractLsb' 4 2))
  pure (f, BlkLen.ofBits (i.extractLsb' 6 2))

def qcmpSrc (m : BitVec 8) (x : BitVec 16) : Dec (BitVec 2) := do
  need .modifier (m == 0x90)
  let i ← immOp x
  need .modifier (i.extractLsb' 6 8 == 0)
  need .modifier (i.extractLsb' 0 4 == 4)
  pure (i.extractLsb' 4 2)

/-- The 135 instructions by mnemonic, in the order of the opcode map (R290). -/
inductive Op where
  | nop | bra | brz | brnz | brx | call | callx | ret | exit
  | pass | detach | brk | trap | rett | sadd | ssub | smul | smulh
  | sdiv | srem | sand | sor | sxor | sshl | sshr | ssar | smin
  | smax | scmp | ssel | smov | smovi | smovh | spopc | sclz | sffs
  | sbfx | sbfi | slea | pand | por | pxor | pandn | pmov | vadd
  | vsub | vmul | vmulh | vmad | vmin | vmax | vabs | vand | vor
  | vxor | vshl | vshr | vsar | vpopc | vclz | vbfx | vbfi | vsel
  | vsadd | vcmp | vmov | vmovi | fadd | fsub | fmul | ffma | fmin
  | fmax | fdiv | fsqrt | frcp | frsq | fex2 | flg2 | fsin | fcos
  | frnd | fcmp | hadd | hmul | hfma | cvt | cvtp | qscl | qcvt
  | qcmp | dqcvt | vperm | vbcast | vred | vscan | ldl | stl | stla
  | sldl | sstl | ldg | stg | stga | sldg | sstg | ldw | pfg
  | pgreq | cpy | cpym | land | gth | sct | cpyw | btst | btdem
  | btpro | mma | mmq | mzero | mlda | mdrn | ctld | spawn | lnch
  | mbxrd | mbxwr | rdsr | wrsr | rdcnt | qtopo | tlbinv | ctxsv | ctxld
  deriving DecidableEq, Repr

/-- OPC of each instruction (R290). -/
def Op.code : Op → BitVec 10
  | .nop => 0x001#10
  | .bra => 0x002#10
  | .brz => 0x003#10
  | .brnz => 0x004#10
  | .brx => 0x005#10
  | .call => 0x006#10
  | .callx => 0x007#10
  | .ret => 0x008#10
  | .exit => 0x009#10
  | .pass => 0x00A#10
  | .detach => 0x00B#10
  | .brk => 0x00C#10
  | .trap => 0x00D#10
  | .rett => 0x00E#10
  | .sadd => 0x040#10
  | .ssub => 0x041#10
  | .smul => 0x042#10
  | .smulh => 0x043#10
  | .sdiv => 0x044#10
  | .srem => 0x045#10
  | .sand => 0x046#10
  | .sor => 0x047#10
  | .sxor => 0x048#10
  | .sshl => 0x049#10
  | .sshr => 0x04A#10
  | .ssar => 0x04B#10
  | .smin => 0x04C#10
  | .smax => 0x04D#10
  | .scmp => 0x04E#10
  | .ssel => 0x04F#10
  | .smov => 0x050#10
  | .smovi => 0x051#10
  | .smovh => 0x052#10
  | .spopc => 0x053#10
  | .sclz => 0x054#10
  | .sffs => 0x055#10
  | .sbfx => 0x056#10
  | .sbfi => 0x057#10
  | .slea => 0x058#10
  | .pand => 0x080#10
  | .por => 0x081#10
  | .pxor => 0x082#10
  | .pandn => 0x083#10
  | .pmov => 0x084#10
  | .vadd => 0x0A0#10
  | .vsub => 0x0A1#10
  | .vmul => 0x0A2#10
  | .vmulh => 0x0A3#10
  | .vmad => 0x0A4#10
  | .vmin => 0x0A5#10
  | .vmax => 0x0A6#10
  | .vabs => 0x0A7#10
  | .vand => 0x0A8#10
  | .vor => 0x0A9#10
  | .vxor => 0x0AA#10
  | .vshl => 0x0AB#10
  | .vshr => 0x0AC#10
  | .vsar => 0x0AD#10
  | .vpopc => 0x0AE#10
  | .vclz => 0x0AF#10
  | .vbfx => 0x0B0#10
  | .vbfi => 0x0B1#10
  | .vsel => 0x0B2#10
  | .vsadd => 0x0B3#10
  | .vcmp => 0x0B4#10
  | .vmov => 0x0B5#10
  | .vmovi => 0x0B6#10
  | .fadd => 0x100#10
  | .fsub => 0x101#10
  | .fmul => 0x102#10
  | .ffma => 0x103#10
  | .fmin => 0x104#10
  | .fmax => 0x105#10
  | .fdiv => 0x106#10
  | .fsqrt => 0x107#10
  | .frcp => 0x108#10
  | .frsq => 0x109#10
  | .fex2 => 0x10A#10
  | .flg2 => 0x10B#10
  | .fsin => 0x10C#10
  | .fcos => 0x10D#10
  | .frnd => 0x10E#10
  | .fcmp => 0x10F#10
  | .hadd => 0x110#10
  | .hmul => 0x111#10
  | .hfma => 0x112#10
  | .cvt => 0x180#10
  | .cvtp => 0x181#10
  | .qscl => 0x182#10
  | .qcvt => 0x183#10
  | .qcmp => 0x184#10
  | .dqcvt => 0x185#10
  | .vperm => 0x1C0#10
  | .vbcast => 0x1C1#10
  | .vred => 0x1C2#10
  | .vscan => 0x1C3#10
  | .ldl => 0x1E0#10
  | .stl => 0x1E1#10
  | .stla => 0x1E2#10
  | .sldl => 0x1E3#10
  | .sstl => 0x1E4#10
  | .ldg => 0x1E8#10
  | .stg => 0x1E9#10
  | .stga => 0x1EA#10
  | .sldg => 0x1EB#10
  | .sstg => 0x1EC#10
  | .ldw => 0x1F0#10
  | .pfg => 0x1F1#10
  | .pgreq => 0x1F2#10
  | .cpy => 0x220#10
  | .cpym => 0x221#10
  | .land => 0x222#10
  | .gth => 0x223#10
  | .sct => 0x224#10
  | .cpyw => 0x225#10
  | .btst => 0x228#10
  | .btdem => 0x229#10
  | .btpro => 0x22A#10
  | .mma => 0x260#10
  | .mmq => 0x261#10
  | .mzero => 0x262#10
  | .mlda => 0x263#10
  | .mdrn => 0x264#10
  | .ctld => 0x265#10
  | .spawn => 0x2A0#10
  | .lnch => 0x2A1#10
  | .mbxrd => 0x2A2#10
  | .mbxwr => 0x2A3#10
  | .rdsr => 0x2C0#10
  | .wrsr => 0x2C1#10
  | .rdcnt => 0x2C2#10
  | .qtopo => 0x2C3#10
  | .tlbinv => 0x2C4#10
  | .ctxsv => 0x2C5#10
  | .ctxld => 0x2C6#10

/-- Part of the opcode map (R290). -/
def Op.part0 : List Op :=
  [.nop, .bra, .brz, .brnz, .brx, .call, .callx, .ret, .exit, .pass, .detach, .brk, .trap, .rett, .sadd, .ssub, .smul, .smulh, .sdiv, .srem, .sand, .sor, .sxor, .sshl, .sshr, .ssar, .smin]

/-- Part of the opcode map (R290). -/
def Op.part1 : List Op :=
  [.smax, .scmp, .ssel, .smov, .smovi, .smovh, .spopc, .sclz, .sffs, .sbfx, .sbfi, .slea, .pand, .por, .pxor, .pandn, .pmov, .vadd, .vsub, .vmul, .vmulh, .vmad, .vmin, .vmax, .vabs, .vand, .vor]

/-- Part of the opcode map (R290). -/
def Op.part2 : List Op :=
  [.vxor, .vshl, .vshr, .vsar, .vpopc, .vclz, .vbfx, .vbfi, .vsel, .vsadd, .vcmp, .vmov, .vmovi, .fadd, .fsub, .fmul, .ffma, .fmin, .fmax, .fdiv, .fsqrt, .frcp, .frsq, .fex2, .flg2, .fsin, .fcos]

/-- Part of the opcode map (R290). -/
def Op.part3 : List Op :=
  [.frnd, .fcmp, .hadd, .hmul, .hfma, .cvt, .cvtp, .qscl, .qcvt, .qcmp, .dqcvt, .vperm, .vbcast, .vred, .vscan, .ldl, .stl, .stla, .sldl, .sstl, .ldg, .stg, .stga, .sldg, .sstg, .ldw, .pfg]

/-- Part of the opcode map (R290). -/
def Op.part4 : List Op :=
  [.pgreq, .cpy, .cpym, .land, .gth, .sct, .cpyw, .btst, .btdem, .btpro, .mma, .mmq, .mzero, .mlda, .mdrn, .ctld, .spawn, .lnch, .mbxrd, .mbxwr, .rdsr, .wrsr, .rdcnt, .qtopo, .tlbinv, .ctxsv, .ctxld]

/-- Every instruction of the opcode map. -/
def Op.all : List Op := Op.part0 ++ Op.part1 ++ Op.part2 ++ Op.part3 ++ Op.part4

/-- The instruction an OPC value names; none for an unassigned value (R290). -/
def Op.ofCode (x : BitVec 10) : Option Op := Op.all.find? (fun o => o.code == x)

/-- Reads the modifier and the operands of an instruction (R283, R287, each entry). -/
def parse (o : Op) (r : Raw) : Dec Instr :=
  let m := r.mod
  match o with
  | .nop => do
    zeroMod m; null r.fd; null r.fa; null r.fb
    pure (.nop r.c)
  | .bra => do
    zeroMod m; null r.fd; let imm := r.fa ++ r.fb
    pure (.bra r.c imm)
  | .brz => do
    zeroMod m; let d ← sreg r.fd; let imm := r.fa ++ r.fb
    pure (.brz r.c d imm)
  | .brnz => do
    zeroMod m; let d ← sreg r.fd; let imm := r.fa ++ r.fb
    pure (.brnz r.c d imm)
  | .brx => do
    zeroMod m; null r.fd; let a ← sreg r.fa; null r.fb
    pure (.brx r.c a)
  | .call => do
    let (nv, ns) := (hi4 m, lo4 m); null r.fd; let imm := r.fa ++ r.fb
    pure (.call r.c nv ns imm)
  | .callx => do
    let (nv, ns) := (hi4 m, lo4 m); null r.fd; let a ← sreg r.fa; null r.fb
    pure (.callx r.c nv ns a)
  | .ret => do
    zeroMod m; null r.fd; null r.fa; null r.fb
    pure (.ret r.c)
  | .exit => do
    zeroMod m; null r.fd; null r.fa; null r.fb
    pure (.exit r.c)
  | .pass => do
    zeroMod m; null r.fd; let a ← ssrc r.fa; null r.fb
    pure (.pass r.c a)
  | .detach => do
    zeroMod m; null r.fd; null r.fa; null r.fb
    pure (.detach r.c)
  | .brk => do
    zeroMod m; null r.fd; null r.fa; null r.fb
    pure (.brk r.c)
  | .trap => do
    zeroMod m; null r.fd; let i ← immOp r.fa; null r.fb
    pure (.trap r.c i)
  | .rett => do
    zeroMod m; null r.fd; null r.fa; null r.fb
    pure (.rett r.c)
  | .sadd => do
    let ty ← tyMod m; let d ← sreg r.fd; let a ← sreg r.fa; let b ← ssrc r.fb
    pure (.sadd r.c ty d a b)
  | .ssub => do
    let ty ← tyMod m; let d ← sreg r.fd; let a ← sreg r.fa; let b ← ssrc r.fb
    pure (.ssub r.c ty d a b)
  | .smul => do
    let ty ← tyMod m; let d ← sreg r.fd; let a ← sreg r.fa; let b ← ssrc r.fb
    pure (.smul r.c ty d a b)
  | .smulh => do
    let ty ← tyMod m; let d ← sreg r.fd; let a ← sreg r.fa; let b ← ssrc r.fb
    pure (.smulh r.c ty d a b)
  | .sdiv => do
    let ty ← tyMod m; let d ← sreg r.fd; let a ← sreg r.fa; let b ← ssrc r.fb
    pure (.sdiv r.c ty d a b)
  | .srem => do
    let ty ← tyMod m; let d ← sreg r.fd; let a ← sreg r.fa; let b ← ssrc r.fb
    pure (.srem r.c ty d a b)
  | .sand => do
    let ty ← tyMod m; let d ← sreg r.fd; let a ← sreg r.fa; let b ← ssrc r.fb
    pure (.sand r.c ty d a b)
  | .sor => do
    let ty ← tyMod m; let d ← sreg r.fd; let a ← sreg r.fa; let b ← ssrc r.fb
    pure (.sor r.c ty d a b)
  | .sxor => do
    let ty ← tyMod m; let d ← sreg r.fd; let a ← sreg r.fa; let b ← ssrc r.fb
    pure (.sxor r.c ty d a b)
  | .sshl => do
    let ty ← tyMod m; let d ← sreg r.fd; let a ← sreg r.fa; let b ← ssrc r.fb
    pure (.sshl r.c ty d a b)
  | .sshr => do
    let ty ← tyMod m; let d ← sreg r.fd; let a ← sreg r.fa; let b ← ssrc r.fb
    pure (.sshr r.c ty d a b)
  | .ssar => do
    let ty ← tyMod m; let d ← sreg r.fd; let a ← sreg r.fa; let b ← ssrc r.fb
    pure (.ssar r.c ty d a b)
  | .smin => do
    let ty ← tyMod m; let d ← sreg r.fd; let a ← sreg r.fa; let b ← ssrc r.fb
    pure (.smin r.c ty d a b)
  | .smax => do
    let ty ← tyMod m; let d ← sreg r.fd; let a ← sreg r.fa; let b ← ssrc r.fb
    pure (.smax r.c ty d a b)
  | .scmp => do
    let ty ← tyHi m; let cond ← condLo m; let d ← sreg r.fd; let a ← sreg r.fa; let b ← ssrc r.fb
    pure (.scmp r.c ty cond d a b)
  | .ssel => do
    let ty ← tyHi m; let sel := lo4 m; let d ← sreg r.fd; let a ← sreg r.fa; let b ← ssrc r.fb
    pure (.ssel r.c ty sel d a b)
  | .smov => do
    let ty ← tyMod m; let d ← smovDst r.fd; let a ← smovSrc r.fa; null r.fb
    pure (.smov r.c ty d a)
  | .smovi => do
    let ty ← tyMod m; let d ← sreg r.fd; let imm := r.fa ++ r.fb
    pure (.smovi r.c ty d imm)
  | .smovh => do
    let ty ← tyMod m; let d ← sreg r.fd; let imm := r.fa ++ r.fb
    pure (.smovh r.c ty d imm)
  | .spopc => do
    let ty ← tyMod m; let d ← sreg r.fd; let a ← sreg r.fa; null r.fb
    pure (.spopc r.c ty d a)
  | .sclz => do
    let ty ← tyMod m; let d ← sreg r.fd; let a ← sreg r.fa; null r.fb
    pure (.sclz r.c ty d a)
  | .sffs => do
    let ty ← tyMod m; let d ← sreg r.fd; let a ← sreg r.fa; null r.fb
    pure (.sffs r.c ty d a)
  | .sbfx => do
    let ty ← tyMod m; let d ← sreg r.fd; let a ← sreg r.fa; let b ← ssrc r.fb
    pure (.sbfx r.c ty d a b)
  | .sbfi => do
    let ty ← tyMod m; let d ← sreg r.fd; let a ← sreg r.fa; let b ← ssrc r.fb
    pure (.sbfi r.c ty d a b)
  | .slea => do
    let ty ← tyMod m; let d ← sreg r.fd; let a ← sreg r.fa; let b ← ssrc r.fb
    pure (.slea r.c ty d a b)
  | .pand => do
    zeroMod m; let d ← preg r.fd; let a ← preg r.fa; let b ← preg r.fb
    pure (.pand r.c d a b)
  | .por => do
    zeroMod m; let d ← preg r.fd; let a ← preg r.fa; let b ← preg r.fb
    pure (.por r.c d a b)
  | .pxor => do
    zeroMod m; let d ← preg r.fd; let a ← preg r.fa; let b ← preg r.fb
    pure (.pxor r.c d a b)
  | .pandn => do
    zeroMod m; let d ← preg r.fd; let a ← preg r.fa; let b ← preg r.fb
    pure (.pandn r.c d a b)
  | .pmov => do
    zeroMod m; let d ← preg r.fd; let a ← psrc r.fa; null r.fb
    pure (.pmov r.c d a)
  | .vadd => do
    let ty ← tyMod m; let d ← vreg r.fd; let a ← vreg r.fa; let b ← vsi r.fb
    pure (.vadd r.c ty d a b)
  | .vsub => do
    let ty ← tyMod m; let d ← vreg r.fd; let a ← vreg r.fa; let b ← vsi r.fb
    pure (.vsub r.c ty d a b)
  | .vmul => do
    let ty ← tyMod m; let d ← vreg r.fd; let a ← vreg r.fa; let b ← vsi r.fb
    pure (.vmul r.c ty d a b)
  | .vmulh => do
    let ty ← tyMod m; let d ← vreg r.fd; let a ← vreg r.fa; let b ← vsi r.fb
    pure (.vmulh r.c ty d a b)
  | .vmad => do
    let ty ← tyMod m; let d ← vreg r.fd; let a ← vreg r.fa; let b ← vsi r.fb
    pure (.vmad r.c ty d a b)
  | .vmin => do
    let ty ← tyMod m; let d ← vreg r.fd; let a ← vreg r.fa; let b ← vsi r.fb
    pure (.vmin r.c ty d a b)
  | .vmax => do
    let ty ← tyMod m; let d ← vreg r.fd; let a ← vreg r.fa; let b ← vsi r.fb
    pure (.vmax r.c ty d a b)
  | .vabs => do
    let ty ← tyMod m; let d ← vreg r.fd; let a ← vreg r.fa; null r.fb
    pure (.vabs r.c ty d a)
  | .vand => do
    let ty ← tyMod m; let d ← vreg r.fd; let a ← vreg r.fa; let b ← vsi r.fb
    pure (.vand r.c ty d a b)
  | .vor => do
    let ty ← tyMod m; let d ← vreg r.fd; let a ← vreg r.fa; let b ← vsi r.fb
    pure (.vor r.c ty d a b)
  | .vxor => do
    let ty ← tyMod m; let d ← vreg r.fd; let a ← vreg r.fa; let b ← vsi r.fb
    pure (.vxor r.c ty d a b)
  | .vshl => do
    let ty ← tyMod m; let d ← vreg r.fd; let a ← vreg r.fa; let b ← vsi r.fb
    pure (.vshl r.c ty d a b)
  | .vshr => do
    let ty ← tyMod m; let d ← vreg r.fd; let a ← vreg r.fa; let b ← vsi r.fb
    pure (.vshr r.c ty d a b)
  | .vsar => do
    let ty ← tyMod m; let d ← vreg r.fd; let a ← vreg r.fa; let b ← vsi r.fb
    pure (.vsar r.c ty d a b)
  | .vsadd => do
    let ty ← tyMod m; let d ← vreg r.fd; let a ← vreg r.fa; let b ← vsi r.fb
    pure (.vsadd r.c ty d a b)
  | .vpopc => do
    let ty ← tyMod m; let d ← vreg r.fd; let a ← vreg r.fa; null r.fb
    pure (.vpopc r.c ty d a)
  | .vclz => do
    let ty ← tyMod m; let d ← vreg r.fd; let a ← vreg r.fa; null r.fb
    pure (.vclz r.c ty d a)
  | .vbfx => do
    let ty ← tyMod m; let d ← vreg r.fd; let a ← vreg r.fa; let b ← vsi r.fb
    pure (.vbfx r.c ty d a b)
  | .vbfi => do
    let ty ← tyMod m; let d ← vreg r.fd; let a ← vreg r.fa; let b ← vsi r.fb
    pure (.vbfi r.c ty d a b)
  | .vsel => do
    let ty ← tyHi m; let sel := lo4 m; let d ← vreg r.fd; let a ← vreg r.fa; let b ← vsi r.fb
    pure (.vsel r.c ty sel d a b)
  | .vcmp => do
    let ty ← tyHi m; let cond ← condLo m; let d ← preg r.fd; let a ← vreg r.fa; let b ← vsi r.fb
    pure (.vcmp r.c ty cond d a b)
  | .vmov => do
    let ty ← tyMod m; let d ← vreg r.fd; let a ← vmovSrc r.fa; null r.fb
    pure (.vmov r.c ty d a)
  | .vmovi => do
    let ty ← tyMod m; let d ← vreg r.fd; let imm := r.fa ++ r.fb
    pure (.vmovi r.c ty d imm)
  | .fadd => do
    let rnd ← floatMod m; let d ← vreg r.fd; let a ← vreg r.fa; let b ← vs r.fb
    pure (.fadd r.c rnd d a b)
  | .fsub => do
    let rnd ← floatMod m; let d ← vreg r.fd; let a ← vreg r.fa; let b ← vs r.fb
    pure (.fsub r.c rnd d a b)
  | .fmul => do
    let rnd ← floatMod m; let d ← vreg r.fd; let a ← vreg r.fa; let b ← vs r.fb
    pure (.fmul r.c rnd d a b)
  | .ffma => do
    let rnd ← floatMod m; let d ← vreg r.fd; let a ← vreg r.fa; let b ← vs r.fb
    pure (.ffma r.c rnd d a b)
  | .fmin => do
    let rnd ← floatMod m; let d ← vreg r.fd; let a ← vreg r.fa; let b ← vs r.fb
    pure (.fmin r.c rnd d a b)
  | .fmax => do
    let rnd ← floatMod m; let d ← vreg r.fd; let a ← vreg r.fa; let b ← vs r.fb
    pure (.fmax r.c rnd d a b)
  | .fdiv => do
    let rnd ← floatMod m; let d ← vreg r.fd; let a ← vreg r.fa; let b ← vs r.fb
    pure (.fdiv r.c rnd d a b)
  | .fsqrt => do
    let rnd ← floatMod m; let d ← vreg r.fd; let a ← vreg r.fa; null r.fb
    pure (.fsqrt r.c rnd d a)
  | .frcp => do
    let rnd ← floatMod m; let d ← vreg r.fd; let a ← vreg r.fa; null r.fb
    pure (.frcp r.c rnd d a)
  | .frsq => do
    let rnd ← floatMod m; let d ← vreg r.fd; let a ← vreg r.fa; null r.fb
    pure (.frsq r.c rnd d a)
  | .fex2 => do
    let rnd ← floatMod m; let d ← vreg r.fd; let a ← vreg r.fa; null r.fb
    pure (.fex2 r.c rnd d a)
  | .flg2 => do
    let rnd ← floatMod m; let d ← vreg r.fd; let a ← vreg r.fa; null r.fb
    pure (.flg2 r.c rnd d a)
  | .fsin => do
    let rnd ← floatMod m; let d ← vreg r.fd; let a ← vreg r.fa; null r.fb
    pure (.fsin r.c rnd d a)
  | .fcos => do
    let rnd ← floatMod m; let d ← vreg r.fd; let a ← vreg r.fa; null r.fb
    pure (.fcos r.c rnd d a)
  | .frnd => do
    let rnd ← floatMod m; let d ← vreg r.fd; let a ← vreg r.fa; null r.fb
    pure (.frnd r.c rnd d a)
  | .fcmp => do
    let cond ← fcmpMod m; let d ← preg r.fd; let a ← vreg r.fa; let b ← vs r.fb
    pure (.fcmp r.c cond d a b)
  | .hadd => do
    let ty ← tyHi m; let rnd ← rndLo m; let d ← vreg r.fd; let a ← vreg r.fa; let b ← vs r.fb
    pure (.hadd r.c ty rnd d a b)
  | .hmul => do
    let ty ← tyHi m; let rnd ← rndLo m; let d ← vreg r.fd; let a ← vreg r.fa; let b ← vs r.fb
    pure (.hmul r.c ty rnd d a b)
  | .hfma => do
    let ty ← tyHi m; let rnd ← rndLo m; let d ← vreg r.fd; let a ← vreg r.fa; let b ← vs r.fb
    pure (.hfma r.c ty rnd d a b)
  | .cvt => do
    let dty ← tyHi m; let (sat, rnd) ← satRnd m; let sty ← cvtSrc r.fb; let d ← vreg r.fd; let a ← vreg r.fa
    pure (.cvt r.c dty sty sat rnd d a)
  | .cvtp => do
    let dst ← fmtHi m; let (sat, rnd) ← satRnd m; let sty ← cvtSrc r.fb; let d ← vreg r.fd; let a ← vreg r.fa
    pure (.cvtp r.c dst sty sat rnd d a)
  | .dqcvt => do
    let dty ← tyHi m; let (sat, rnd) ← satRnd m; let (src, tab, len) ← dqSrc r.fb; let d ← vreg r.fd; let a ← vreg r.fa
    pure (.dqcvt r.c dty src tab len sat rnd d a)
  | .qscl => do
    let dst ← fmtHi m; zero4 (lo4 m); let (sf, len) ← qSrc r.fb; let d ← vreg r.fd; let a ← vreg r.fa
    pure (.qscl r.c dst sf len d a)
  | .qcvt => do
    let dst ← fmtHi m; let rnd ← rndLo m; let (sf, len) ← qSrc r.fb; let d ← vreg r.fd; let a ← vreg r.fa
    pure (.qcvt r.c dst sf len rnd d a)
  | .qcmp => do
    let tab ← qcmpSrc m r.fb; let d ← vreg r.fd; let a ← vreg r.fa
    pure (.qcmp r.c tab d a)
  | .vperm => do
    let ty ← tyMod m; let d ← vreg r.fd; let a ← vreg r.fa; let b ← vsi r.fb
    pure (.vperm r.c ty d a b)
  | .vbcast => do
    let ty ← tyMod m; let d ← vreg r.fd; let a ← vreg r.fa; let b ← vsi r.fb
    pure (.vbcast r.c ty d a b)
  | .vred => do
    let ty ← tyHi m; let op ← redLo m; let d ← vreg r.fd; let a ← vreg r.fa; null r.fb
    pure (.vred r.c ty op d a)
  | .vscan => do
    let ty ← tyHi m; let op ← redLo m; let d ← vreg r.fd; let a ← vreg r.fa; null r.fb
    pure (.vscan r.c ty op d a)
  | .ldl => do
    let sz ← loadMod m; let d ← vreg r.fd; let m ← vmem r.fa r.fb
    pure (.ldl r.c sz d m)
  | .stl => do
    let (sz, rule, sum) ← storeMod m; let d ← vreg r.fd; let m ← vmem r.fa r.fb
    pure (.stl r.c sz rule sum d m)
  | .stla => do
    let (sz, sum) ← accMod m; let d ← vreg r.fd; let m ← vmem r.fa r.fb
    pure (.stla r.c sz sum d m)
  | .sldl => do
    let sz ← loadMod m; let d ← sreg r.fd; let m ← smem r.fa r.fb
    pure (.sldl r.c sz d m)
  | .sstl => do
    let (sz, rule, sum) ← storeMod m; let d ← sreg r.fd; let m ← smem r.fa r.fb
    pure (.sstl r.c sz rule sum d m)
  | .ldg => do
    let (sz, kind) ← kindMod m; let res := lo4 m; let d ← vreg r.fd; let m ← vmem r.fa r.fb
    pure (.ldg r.c sz kind res d m)
  | .stg => do
    let (sz, rule, sum) ← storeMod m; let d ← vreg r.fd; let m ← vmem r.fa r.fb
    pure (.stg r.c sz rule sum d m)
  | .stga => do
    let (sz, sum) ← accMod m; let d ← vreg r.fd; let m ← vmem r.fa r.fb
    pure (.stga r.c sz sum d m)
  | .sldg => do
    let (sz, kind) ← kindMod m; let res := lo4 m; let d ← sreg r.fd; let m ← smem r.fa r.fb
    pure (.sldg r.c sz kind res d m)
  | .sstg => do
    let (sz, rule, sum) ← storeMod m; let d ← sreg r.fd; let m ← smem r.fa r.fb
    pure (.sstg r.c sz rule sum d m)
  | .ldw => do
    let sz ← loadMod m; let d ← vreg r.fd; let m ← vmem r.fa r.fb
    pure (.ldw r.c sz d m)
  | .pfg => do
    zeroMod m; null r.fd; let m ← vmem r.fa r.fb
    pure (.pfg r.c m)
  | .pgreq => do
    zeroMod m; null r.fd; let m ← vmem r.fa r.fb
    pure (.pgreq r.c m)
  | .cpy => do
    let (dir, rule, kind) ← cpyMod m; let d ← sreg r.fd; null r.fa; null r.fb
    pure (.cpy r.c dir rule kind d)
  | .cpym => do
    let (dir, rule, kind) ← cpyMod m; let d ← sreg r.fd; null r.fa; null r.fb
    pure (.cpym r.c dir rule kind d)
  | .land => do
    zeroMod m; let d ← ssrc r.fd; let a ← ssrc r.fa; let b ← ssrc r.fb
    pure (.land r.c d a b)
  | .gth => do
    let (side, rule, kind) ← gthMod m; let d ← sreg r.fd; null r.fa; null r.fb
    pure (.gth r.c side rule kind d)
  | .sct => do
    let (side, rule) ← sctMod m; let d ← sreg r.fd; null r.fa; null r.fb
    pure (.sct r.c side rule d)
  | .cpyw => do
    let glob ← cpywMod m; let d ← sreg r.fd; null r.fa; null r.fb
    pure (.cpyw r.c glob d)
  | .btst => do
    let rule ← btstMod m; let d ← sreg r.fd; null r.fa; null r.fb
    pure (.btst r.c rule d)
  | .btdem => do
    zeroMod m; let d ← sreg r.fd; null r.fa; null r.fb
    pure (.btdem r.c d)
  | .btpro => do
    zeroMod m; let d ← sreg r.fd; null r.fa; null r.fb
    pure (.btpro r.c d)
  | .mma => do
    let kind ← mmaMod m; let d ← areg r.fd; let a ← sreg r.fa; let b ← ssrc r.fb
    pure (.mma r.c kind d a b)
  | .mmq => do
    let kind ← mmaMod m; let d ← areg r.fd; let a ← vreg r.fa; let b ← sreg r.fb
    pure (.mmq r.c kind d a b)
  | .mzero => do
    let flt ← bit0Mod m; let d ← areg r.fd; null r.fa; null r.fb
    pure (.mzero r.c flt d)
  | .mlda => do
    let flt ← bit0Mod m; let d ← areg r.fd; let a ← sreg r.fa; null r.fb
    pure (.mlda r.c flt d a)
  | .mdrn => do
    let (clr, flt, rnd) ← mdrnMod m; let d ← areg r.fd; let a ← sreg r.fa; null r.fb
    pure (.mdrn r.c clr flt rnd d a)
  | .ctld => do
    zeroMod m; let d ← ssrc r.fd; let a ← sreg r.fa; null r.fb
    pure (.ctld r.c d a)
  | .spawn => do
    let fwd ← bit0Mod m; let d ← preg r.fd; let a ← sreg r.fa; let b ← vreg r.fb
    pure (.spawn r.c fwd d a b)
  | .lnch => do
    zeroMod m; null r.fd; let a ← sreg r.fa; null r.fb
    pure (.lnch r.c a)
  | .mbxrd => do
    zeroMod m; let d ← sreg r.fd; let a ← ssrc r.fa; null r.fb
    pure (.mbxrd r.c d a)
  | .mbxwr => do
    zeroMod m; null r.fd; let a ← sreg r.fa; let b ← sreg r.fb
    pure (.mbxwr r.c a b)
  | .rdsr => do
    zeroMod m; let d ← sreg r.fd; let a ← sprOp r.fa; null r.fb
    pure (.rdsr r.c d a)
  | .wrsr => do
    zeroMod m; let d ← sprOp r.fd; let a ← ssrc r.fa; null r.fb
    pure (.wrsr r.c d a)
  | .rdcnt => do
    zeroMod m; let d ← sreg r.fd; let a ← ssrc r.fa; null r.fb
    pure (.rdcnt r.c d a)
  | .qtopo => do
    zeroMod m; let d ← sreg r.fd; let sel ← immOp r.fa; let b ← ssrc r.fb
    pure (.qtopo r.c d sel b)
  | .tlbinv => do
    let (scope, host, gctx) ← tlbMod m; null r.fd; let a ← sreg r.fa; let b ← ssrc r.fb
    pure (.tlbinv r.c scope host gctx a b)
  | .ctxsv => do
    zeroMod m; null r.fd; let a ← sreg r.fa; null r.fb
    pure (.ctxsv r.c a)
  | .ctxld => do
    zeroMod m; null r.fd; let a ← sreg r.fa; null r.fb
    pure (.ctxld r.c a)

/-- The fields of an instruction's word; none for an event, which has no word (R277, R283, R287). -/
def Instr.raw : Instr → Option Raw
  | .nop c => some ⟨Op.code .nop, 0#8, nullBits, nullBits, nullBits, c, 0⟩
  | .bra c imm => some ⟨Op.code .bra, 0#8, nullBits, (immHi imm), (immLo imm), c, 0⟩
  | .brz c d imm => some ⟨Op.code .brz, 0#8, (SReg.bits d), (immHi imm), (immLo imm), c, 0⟩
  | .brnz c d imm => some ⟨Op.code .brnz, 0#8, (SReg.bits d), (immHi imm), (immLo imm), c, 0⟩
  | .brx c a => some ⟨Op.code .brx, 0#8, nullBits, (SReg.bits a), nullBits, c, 0⟩
  | .call c nv ns imm => some ⟨Op.code .call, nv ++ ns, nullBits, (immHi imm), (immLo imm), c, 0⟩
  | .callx c nv ns a => some ⟨Op.code .callx, nv ++ ns, nullBits, (SReg.bits a), nullBits, c, 0⟩
  | .ret c => some ⟨Op.code .ret, 0#8, nullBits, nullBits, nullBits, c, 0⟩
  | .exit c => some ⟨Op.code .exit, 0#8, nullBits, nullBits, nullBits, c, 0⟩
  | .pass c a => some ⟨Op.code .pass, 0#8, nullBits, (SSrc.bits a), nullBits, c, 0⟩
  | .detach c => some ⟨Op.code .detach, 0#8, nullBits, nullBits, nullBits, c, 0⟩
  | .brk c => some ⟨Op.code .brk, 0#8, nullBits, nullBits, nullBits, c, 0⟩
  | .trap c i => some ⟨Op.code .trap, 0#8, nullBits, (immBits i), nullBits, c, 0⟩
  | .rett c => some ⟨Op.code .rett, 0#8, nullBits, nullBits, nullBits, c, 0⟩
  | .sadd c ty d a b => some ⟨Op.code .sadd, Ty.bits ty ++ 0#4, (SReg.bits d), (SReg.bits a), (SSrc.bits b), c, 0⟩
  | .ssub c ty d a b => some ⟨Op.code .ssub, Ty.bits ty ++ 0#4, (SReg.bits d), (SReg.bits a), (SSrc.bits b), c, 0⟩
  | .smul c ty d a b => some ⟨Op.code .smul, Ty.bits ty ++ 0#4, (SReg.bits d), (SReg.bits a), (SSrc.bits b), c, 0⟩
  | .smulh c ty d a b => some ⟨Op.code .smulh, Ty.bits ty ++ 0#4, (SReg.bits d), (SReg.bits a), (SSrc.bits b), c, 0⟩
  | .sdiv c ty d a b => some ⟨Op.code .sdiv, Ty.bits ty ++ 0#4, (SReg.bits d), (SReg.bits a), (SSrc.bits b), c, 0⟩
  | .srem c ty d a b => some ⟨Op.code .srem, Ty.bits ty ++ 0#4, (SReg.bits d), (SReg.bits a), (SSrc.bits b), c, 0⟩
  | .sand c ty d a b => some ⟨Op.code .sand, Ty.bits ty ++ 0#4, (SReg.bits d), (SReg.bits a), (SSrc.bits b), c, 0⟩
  | .sor c ty d a b => some ⟨Op.code .sor, Ty.bits ty ++ 0#4, (SReg.bits d), (SReg.bits a), (SSrc.bits b), c, 0⟩
  | .sxor c ty d a b => some ⟨Op.code .sxor, Ty.bits ty ++ 0#4, (SReg.bits d), (SReg.bits a), (SSrc.bits b), c, 0⟩
  | .sshl c ty d a b => some ⟨Op.code .sshl, Ty.bits ty ++ 0#4, (SReg.bits d), (SReg.bits a), (SSrc.bits b), c, 0⟩
  | .sshr c ty d a b => some ⟨Op.code .sshr, Ty.bits ty ++ 0#4, (SReg.bits d), (SReg.bits a), (SSrc.bits b), c, 0⟩
  | .ssar c ty d a b => some ⟨Op.code .ssar, Ty.bits ty ++ 0#4, (SReg.bits d), (SReg.bits a), (SSrc.bits b), c, 0⟩
  | .smin c ty d a b => some ⟨Op.code .smin, Ty.bits ty ++ 0#4, (SReg.bits d), (SReg.bits a), (SSrc.bits b), c, 0⟩
  | .smax c ty d a b => some ⟨Op.code .smax, Ty.bits ty ++ 0#4, (SReg.bits d), (SReg.bits a), (SSrc.bits b), c, 0⟩
  | .scmp c ty cond d a b => some ⟨Op.code .scmp, Ty.bits ty ++ Cond.bits cond, (SReg.bits d), (SReg.bits a), (SSrc.bits b), c, 0⟩
  | .ssel c ty sel d a b => some ⟨Op.code .ssel, Ty.bits ty ++ sel, (SReg.bits d), (SReg.bits a), (SSrc.bits b), c, 0⟩
  | .smov c ty d a => some ⟨Op.code .smov, Ty.bits ty ++ 0#4, (SMovDst.bits d), (SMovSrc.bits a), nullBits, c, 0⟩
  | .smovi c ty d imm => some ⟨Op.code .smovi, Ty.bits ty ++ 0#4, (SReg.bits d), (immHi imm), (immLo imm), c, 0⟩
  | .smovh c ty d imm => some ⟨Op.code .smovh, Ty.bits ty ++ 0#4, (SReg.bits d), (immHi imm), (immLo imm), c, 0⟩
  | .spopc c ty d a => some ⟨Op.code .spopc, Ty.bits ty ++ 0#4, (SReg.bits d), (SReg.bits a), nullBits, c, 0⟩
  | .sclz c ty d a => some ⟨Op.code .sclz, Ty.bits ty ++ 0#4, (SReg.bits d), (SReg.bits a), nullBits, c, 0⟩
  | .sffs c ty d a => some ⟨Op.code .sffs, Ty.bits ty ++ 0#4, (SReg.bits d), (SReg.bits a), nullBits, c, 0⟩
  | .sbfx c ty d a b => some ⟨Op.code .sbfx, Ty.bits ty ++ 0#4, (SReg.bits d), (SReg.bits a), (SSrc.bits b), c, 0⟩
  | .sbfi c ty d a b => some ⟨Op.code .sbfi, Ty.bits ty ++ 0#4, (SReg.bits d), (SReg.bits a), (SSrc.bits b), c, 0⟩
  | .slea c ty d a b => some ⟨Op.code .slea, Ty.bits ty ++ 0#4, (SReg.bits d), (SReg.bits a), (SSrc.bits b), c, 0⟩
  | .pand c d a b => some ⟨Op.code .pand, 0#8, (pregBits d), (pregBits a), (pregBits b), c, 0⟩
  | .por c d a b => some ⟨Op.code .por, 0#8, (pregBits d), (pregBits a), (pregBits b), c, 0⟩
  | .pxor c d a b => some ⟨Op.code .pxor, 0#8, (pregBits d), (pregBits a), (pregBits b), c, 0⟩
  | .pandn c d a b => some ⟨Op.code .pandn, 0#8, (pregBits d), (pregBits a), (pregBits b), c, 0⟩
  | .pmov c d a => some ⟨Op.code .pmov, 0#8, (pregBits d), (PSrc.bits a), nullBits, c, 0⟩
  | .vadd c ty d a b => some ⟨Op.code .vadd, Ty.bits ty ++ 0#4, (VReg.bits d), (VReg.bits a), (VSI.bits b), c, 0⟩
  | .vsub c ty d a b => some ⟨Op.code .vsub, Ty.bits ty ++ 0#4, (VReg.bits d), (VReg.bits a), (VSI.bits b), c, 0⟩
  | .vmul c ty d a b => some ⟨Op.code .vmul, Ty.bits ty ++ 0#4, (VReg.bits d), (VReg.bits a), (VSI.bits b), c, 0⟩
  | .vmulh c ty d a b => some ⟨Op.code .vmulh, Ty.bits ty ++ 0#4, (VReg.bits d), (VReg.bits a), (VSI.bits b), c, 0⟩
  | .vmad c ty d a b => some ⟨Op.code .vmad, Ty.bits ty ++ 0#4, (VReg.bits d), (VReg.bits a), (VSI.bits b), c, 0⟩
  | .vmin c ty d a b => some ⟨Op.code .vmin, Ty.bits ty ++ 0#4, (VReg.bits d), (VReg.bits a), (VSI.bits b), c, 0⟩
  | .vmax c ty d a b => some ⟨Op.code .vmax, Ty.bits ty ++ 0#4, (VReg.bits d), (VReg.bits a), (VSI.bits b), c, 0⟩
  | .vabs c ty d a => some ⟨Op.code .vabs, Ty.bits ty ++ 0#4, (VReg.bits d), (VReg.bits a), nullBits, c, 0⟩
  | .vand c ty d a b => some ⟨Op.code .vand, Ty.bits ty ++ 0#4, (VReg.bits d), (VReg.bits a), (VSI.bits b), c, 0⟩
  | .vor c ty d a b => some ⟨Op.code .vor, Ty.bits ty ++ 0#4, (VReg.bits d), (VReg.bits a), (VSI.bits b), c, 0⟩
  | .vxor c ty d a b => some ⟨Op.code .vxor, Ty.bits ty ++ 0#4, (VReg.bits d), (VReg.bits a), (VSI.bits b), c, 0⟩
  | .vshl c ty d a b => some ⟨Op.code .vshl, Ty.bits ty ++ 0#4, (VReg.bits d), (VReg.bits a), (VSI.bits b), c, 0⟩
  | .vshr c ty d a b => some ⟨Op.code .vshr, Ty.bits ty ++ 0#4, (VReg.bits d), (VReg.bits a), (VSI.bits b), c, 0⟩
  | .vsar c ty d a b => some ⟨Op.code .vsar, Ty.bits ty ++ 0#4, (VReg.bits d), (VReg.bits a), (VSI.bits b), c, 0⟩
  | .vsadd c ty d a b => some ⟨Op.code .vsadd, Ty.bits ty ++ 0#4, (VReg.bits d), (VReg.bits a), (VSI.bits b), c, 0⟩
  | .vpopc c ty d a => some ⟨Op.code .vpopc, Ty.bits ty ++ 0#4, (VReg.bits d), (VReg.bits a), nullBits, c, 0⟩
  | .vclz c ty d a => some ⟨Op.code .vclz, Ty.bits ty ++ 0#4, (VReg.bits d), (VReg.bits a), nullBits, c, 0⟩
  | .vbfx c ty d a b => some ⟨Op.code .vbfx, Ty.bits ty ++ 0#4, (VReg.bits d), (VReg.bits a), (VSI.bits b), c, 0⟩
  | .vbfi c ty d a b => some ⟨Op.code .vbfi, Ty.bits ty ++ 0#4, (VReg.bits d), (VReg.bits a), (VSI.bits b), c, 0⟩
  | .vsel c ty sel d a b => some ⟨Op.code .vsel, Ty.bits ty ++ sel, (VReg.bits d), (VReg.bits a), (VSI.bits b), c, 0⟩
  | .vcmp c ty cond d a b => some ⟨Op.code .vcmp, Ty.bits ty ++ Cond.bits cond, (pregBits d), (VReg.bits a), (VSI.bits b), c, 0⟩
  | .vmov c ty d a => some ⟨Op.code .vmov, Ty.bits ty ++ 0#4, (VReg.bits d), (VMovSrc.bits a), nullBits, c, 0⟩
  | .vmovi c ty d imm => some ⟨Op.code .vmovi, Ty.bits ty ++ 0#4, (VReg.bits d), (immHi imm), (immLo imm), c, 0⟩
  | .fadd c rnd d a b => some ⟨Op.code .fadd, 4#4 ++ (0#2 ++ Rnd.bits rnd), (VReg.bits d), (VReg.bits a), (VS.bits b), c, 0⟩
  | .fsub c rnd d a b => some ⟨Op.code .fsub, 4#4 ++ (0#2 ++ Rnd.bits rnd), (VReg.bits d), (VReg.bits a), (VS.bits b), c, 0⟩
  | .fmul c rnd d a b => some ⟨Op.code .fmul, 4#4 ++ (0#2 ++ Rnd.bits rnd), (VReg.bits d), (VReg.bits a), (VS.bits b), c, 0⟩
  | .ffma c rnd d a b => some ⟨Op.code .ffma, 4#4 ++ (0#2 ++ Rnd.bits rnd), (VReg.bits d), (VReg.bits a), (VS.bits b), c, 0⟩
  | .fmin c rnd d a b => some ⟨Op.code .fmin, 4#4 ++ (0#2 ++ Rnd.bits rnd), (VReg.bits d), (VReg.bits a), (VS.bits b), c, 0⟩
  | .fmax c rnd d a b => some ⟨Op.code .fmax, 4#4 ++ (0#2 ++ Rnd.bits rnd), (VReg.bits d), (VReg.bits a), (VS.bits b), c, 0⟩
  | .fdiv c rnd d a b => some ⟨Op.code .fdiv, 4#4 ++ (0#2 ++ Rnd.bits rnd), (VReg.bits d), (VReg.bits a), (VS.bits b), c, 0⟩
  | .fsqrt c rnd d a => some ⟨Op.code .fsqrt, 4#4 ++ (0#2 ++ Rnd.bits rnd), (VReg.bits d), (VReg.bits a), nullBits, c, 0⟩
  | .frcp c rnd d a => some ⟨Op.code .frcp, 4#4 ++ (0#2 ++ Rnd.bits rnd), (VReg.bits d), (VReg.bits a), nullBits, c, 0⟩
  | .frsq c rnd d a => some ⟨Op.code .frsq, 4#4 ++ (0#2 ++ Rnd.bits rnd), (VReg.bits d), (VReg.bits a), nullBits, c, 0⟩
  | .fex2 c rnd d a => some ⟨Op.code .fex2, 4#4 ++ (0#2 ++ Rnd.bits rnd), (VReg.bits d), (VReg.bits a), nullBits, c, 0⟩
  | .flg2 c rnd d a => some ⟨Op.code .flg2, 4#4 ++ (0#2 ++ Rnd.bits rnd), (VReg.bits d), (VReg.bits a), nullBits, c, 0⟩
  | .fsin c rnd d a => some ⟨Op.code .fsin, 4#4 ++ (0#2 ++ Rnd.bits rnd), (VReg.bits d), (VReg.bits a), nullBits, c, 0⟩
  | .fcos c rnd d a => some ⟨Op.code .fcos, 4#4 ++ (0#2 ++ Rnd.bits rnd), (VReg.bits d), (VReg.bits a), nullBits, c, 0⟩
  | .frnd c rnd d a => some ⟨Op.code .frnd, 4#4 ++ (0#2 ++ Rnd.bits rnd), (VReg.bits d), (VReg.bits a), nullBits, c, 0⟩
  | .fcmp c cond d a b => some ⟨Op.code .fcmp, 4#4 ++ Cond.bits cond, (pregBits d), (VReg.bits a), (VS.bits b), c, 0⟩
  | .hadd c ty rnd d a b => some ⟨Op.code .hadd, Ty.bits ty ++ (0#2 ++ Rnd.bits rnd), (VReg.bits d), (VReg.bits a), (VS.bits b), c, 0⟩
  | .hmul c ty rnd d a b => some ⟨Op.code .hmul, Ty.bits ty ++ (0#2 ++ Rnd.bits rnd), (VReg.bits d), (VReg.bits a), (VS.bits b), c, 0⟩
  | .hfma c ty rnd d a b => some ⟨Op.code .hfma, Ty.bits ty ++ (0#2 ++ Rnd.bits rnd), (VReg.bits d), (VReg.bits a), (VS.bits b), c, 0⟩
  | .cvt c dty sty sat rnd d a => some ⟨Op.code .cvt, Ty.bits dty ++ (BitVec.ofBool sat ++ (0#1 ++ Rnd.bits rnd)), (VReg.bits d), (VReg.bits a), (immBits (0#10 ++ Ty.bits sty)), c, 0⟩
  | .cvtp c dst sty sat rnd d a => some ⟨Op.code .cvtp, Fmt.bits dst ++ (BitVec.ofBool sat ++ (0#1 ++ Rnd.bits rnd)), (VReg.bits d), (VReg.bits a), (immBits (0#10 ++ Ty.bits sty)), c, 0⟩
  | .dqcvt c dty src tab len sat rnd d a => some ⟨Op.code .dqcvt, Ty.bits dty ++ (BitVec.ofBool sat ++ (0#1 ++ Rnd.bits rnd)), (VReg.bits d), (VReg.bits a), (immBits (0#6 ++ (BlkLen.bits len ++ (tab ++ Fmt.bits src)))), c, 0⟩
  | .qscl c dst sf len d a => some ⟨Op.code .qscl, Fmt.bits dst ++ 0#4, (VReg.bits d), (VReg.bits a), (immBits (0#6 ++ (BlkLen.bits len ++ (ScaleFmt.bits sf ++ 4#4)))), c, 0⟩
  | .qcvt c dst sf len rnd d a => some ⟨Op.code .qcvt, Fmt.bits dst ++ (0#2 ++ Rnd.bits rnd), (VReg.bits d), (VReg.bits a), (immBits (0#6 ++ (BlkLen.bits len ++ (ScaleFmt.bits sf ++ 4#4)))), c, 0⟩
  | .qcmp c tab d a => some ⟨Op.code .qcmp, 0x90#8, (VReg.bits d), (VReg.bits a), (immBits (0#6 ++ (0#2 ++ (tab ++ 4#4)))), c, 0⟩
  | .vperm c ty d a b => some ⟨Op.code .vperm, Ty.bits ty ++ 0#4, (VReg.bits d), (VReg.bits a), (VSI.bits b), c, 0⟩
  | .vbcast c ty d a b => some ⟨Op.code .vbcast, Ty.bits ty ++ 0#4, (VReg.bits d), (VReg.bits a), (VSI.bits b), c, 0⟩
  | .vred c ty op d a => some ⟨Op.code .vred, Ty.bits ty ++ RedOp.bits op, (VReg.bits d), (VReg.bits a), nullBits, c, 0⟩
  | .vscan c ty op d a => some ⟨Op.code .vscan, Ty.bits ty ++ RedOp.bits op, (VReg.bits d), (VReg.bits a), nullBits, c, 0⟩
  | .ldl c sz d m => some ⟨Op.code .ldl, Size.bits sz ++ (0#2 ++ 0#4), (VReg.bits d), (baseBits m.a), (VSI.bits m.b), c, 0⟩
  | .stl c sz rule sum d m => some ⟨Op.code .stl, Size.bits sz ++ (Rule.bits rule ++ SumTy.bits sum), (VReg.bits d), (baseBits m.a), (VSI.bits m.b), c, 0⟩
  | .stla c sz sum d m => some ⟨Op.code .stla, Size.bits sz ++ (0#2 ++ SumTy.bits sum), (VReg.bits d), (baseBits m.a), (VSI.bits m.b), c, 0⟩
  | .sldl c sz d m => some ⟨Op.code .sldl, Size.bits sz ++ (0#2 ++ 0#4), (SReg.bits d), (baseBits m.a), (SSrc.bits m.b), c, 0⟩
  | .sstl c sz rule sum d m => some ⟨Op.code .sstl, Size.bits sz ++ (Rule.bits rule ++ SumTy.bits sum), (SReg.bits d), (baseBits m.a), (SSrc.bits m.b), c, 0⟩
  | .ldg c sz kind res d m => some ⟨Op.code .ldg, Size.bits sz ++ (Kind.bits kind ++ res), (VReg.bits d), (baseBits m.a), (VSI.bits m.b), c, 0⟩
  | .stg c sz rule sum d m => some ⟨Op.code .stg, Size.bits sz ++ (Rule.bits rule ++ SumTy.bits sum), (VReg.bits d), (baseBits m.a), (VSI.bits m.b), c, 0⟩
  | .stga c sz sum d m => some ⟨Op.code .stga, Size.bits sz ++ (0#2 ++ SumTy.bits sum), (VReg.bits d), (baseBits m.a), (VSI.bits m.b), c, 0⟩
  | .sldg c sz kind res d m => some ⟨Op.code .sldg, Size.bits sz ++ (Kind.bits kind ++ res), (SReg.bits d), (baseBits m.a), (SSrc.bits m.b), c, 0⟩
  | .sstg c sz rule sum d m => some ⟨Op.code .sstg, Size.bits sz ++ (Rule.bits rule ++ SumTy.bits sum), (SReg.bits d), (baseBits m.a), (SSrc.bits m.b), c, 0⟩
  | .ldw c sz d m => some ⟨Op.code .ldw, Size.bits sz ++ (0#2 ++ 0#4), (VReg.bits d), (baseBits m.a), (VSI.bits m.b), c, 0⟩
  | .pfg c m => some ⟨Op.code .pfg, 0#8, nullBits, (baseBits m.a), (VSI.bits m.b), c, 0⟩
  | .pgreq c m => some ⟨Op.code .pgreq, 0#8, nullBits, (baseBits m.a), (VSI.bits m.b), c, 0⟩
  | .cpy c dir rule kind d => some ⟨Op.code .cpy, Kind.bits kind ++ (Rule.bits rule ++ Dir.bits dir), (SReg.bits d), nullBits, nullBits, c, 0⟩
  | .cpym c dir rule kind d => some ⟨Op.code .cpym, Kind.bits kind ++ (Rule.bits rule ++ Dir.bits dir), (SReg.bits d), nullBits, nullBits, c, 0⟩
  | .land c d a b => some ⟨Op.code .land, 0#8, (SSrc.bits d), (SSrc.bits a), (SSrc.bits b), c, 0⟩
  | .gth c side rule kind d => some ⟨Op.code .gth, Kind.bits kind ++ (Rule.bits rule ++ Side.bits side), (SReg.bits d), nullBits, nullBits, c, 0⟩
  | .sct c side rule d => some ⟨Op.code .sct, 0#2 ++ (Rule.bits rule ++ Side.bits side), (SReg.bits d), nullBits, nullBits, c, 0⟩
  | .cpyw c glob d => some ⟨Op.code .cpyw, 0#4 ++ (if glob then 0#4 else 2#4), (SReg.bits d), nullBits, nullBits, c, 0⟩
  | .btst c rule d => some ⟨Op.code .btst, 0#2 ++ (Rule.bits rule ++ 0#4), (SReg.bits d), nullBits, nullBits, c, 0⟩
  | .btdem c d => some ⟨Op.code .btdem, 0#8, (SReg.bits d), nullBits, nullBits, c, 0⟩
  | .btpro c d => some ⟨Op.code .btpro, 0#8, (SReg.bits d), nullBits, nullBits, c, 0⟩
  | .mma c kind d a b => some ⟨Op.code .mma, Kind.bits kind ++ 0#6, (aregBits d), (SReg.bits a), (SSrc.bits b), c, 0⟩
  | .mmq c kind d a b => some ⟨Op.code .mmq, Kind.bits kind ++ 0#6, (aregBits d), (VReg.bits a), (SReg.bits b), c, 0⟩
  | .mzero c flt d => some ⟨Op.code .mzero, 0#7 ++ BitVec.ofBool flt, (aregBits d), nullBits, nullBits, c, 0⟩
  | .mlda c flt d a => some ⟨Op.code .mlda, 0#7 ++ BitVec.ofBool flt, (aregBits d), (SReg.bits a), nullBits, c, 0⟩
  | .mdrn c clr flt rnd d a => some ⟨Op.code .mdrn, 0#4 ++ (Rnd.bits rnd ++ (BitVec.ofBool flt ++ BitVec.ofBool clr)), (aregBits d), (SReg.bits a), nullBits, c, 0⟩
  | .ctld c d a => some ⟨Op.code .ctld, 0#8, (SSrc.bits d), (SReg.bits a), nullBits, c, 0⟩
  | .spawn c fwd d a b => some ⟨Op.code .spawn, 0#7 ++ BitVec.ofBool fwd, (pregBits d), (SReg.bits a), (VReg.bits b), c, 0⟩
  | .lnch c a => some ⟨Op.code .lnch, 0#8, nullBits, (SReg.bits a), nullBits, c, 0⟩
  | .mbxrd c d a => some ⟨Op.code .mbxrd, 0#8, (SReg.bits d), (SSrc.bits a), nullBits, c, 0⟩
  | .mbxwr c a b => some ⟨Op.code .mbxwr, 0#8, nullBits, (SReg.bits a), (SReg.bits b), c, 0⟩
  | .rdsr c d a => some ⟨Op.code .rdsr, 0#8, (SReg.bits d), (sprBits a), nullBits, c, 0⟩
  | .wrsr c d a => some ⟨Op.code .wrsr, 0#8, (sprBits d), (SSrc.bits a), nullBits, c, 0⟩
  | .rdcnt c d a => some ⟨Op.code .rdcnt, 0#8, (SReg.bits d), (SSrc.bits a), nullBits, c, 0⟩
  | .qtopo c d sel b => some ⟨Op.code .qtopo, 0#8, (SReg.bits d), (immBits sel), (SSrc.bits b), c, 0⟩
  | .tlbinv c scope host gctx a b => some ⟨Op.code .tlbinv, gctx ++ (BitVec.ofBool host ++ (0#1 ++ Scope.bits scope)), nullBits, (SReg.bits a), (SSrc.bits b), c, 0⟩
  | .ctxsv c a => some ⟨Op.code .ctxsv, 0#8, nullBits, (SReg.bits a), nullBits, c, 0⟩
  | .ctxld c a => some ⟨Op.code .ctxld, 0#8, nullBits, (SReg.bits a), nullBits, c, 0⟩
  | .launchPacketPost _ _ _ => none
  | .launchBroadcast _ => none
  | .launchUnitPlace _ => none
  | .launchStart _ => none
  | .launchComplete _ => none
  | .runGrant _ _ => none
  | .deferredTrapTake _ => none
  | .writeHoldExpiry _ => none
  | .writeArrival _ _ => none
  | .readServe _ _ _ => none
  | .loadFill _ => none
  | .commitDeclare _ => none
  | .commitApply _ _ _ => none
  | .commitVisible _ _ => none
  | .localClose _ _ => none
  | .stepOverrun _ => none
  | .spawnItemArrival _ _ => none
  | .groupPlace _ => none
  | .asyncComplete _ => none
  | .matrixKstep _ => none
  | .landingArrival _ _ => none
  | .mailboxDeliver _ => none
  | .pageWalk _ _ _ => none
  | .tlbinvBegin _ => none
  | .tlbinvComplete _ => none
  | .tierCopyComplete _ => none
  | .ferrySend _ _ => none
  | .ferryArrival _ _ _ => none
  | .hostWrite _ _ _ => none
  | .hostRead _ _ _ => none
  | .saveSequence _ _ => none
  | .saveImageAssemble _ => none
  | .restoreDieReady _ _ => none
  | .restoreResume _ => none
  | .timeSliceExpiry _ _ => none
  | .preempt _ => none
  | .restore _ => none
  | .terminate _ => none
  | .layoutChange _ => none
  | .layoutChangeForce _ => none
  | .applyStaged _ => none
  | .partitionReset _ => none
  | .releaseFault _ => none
  | .releaseDiscard _ => none
  | .attestationReport _ => none
  | .debugStop _ _ => none
  | .counterReadLow _ _ _ => none
  | .registerWrite _ _ _ _ => none
  | .strikeAlarm _ => none
  | .waystationAlarm _ => none
  | .eccCorrected _ _ _ _ => none
  | .coreRetire _ => none
  | .blockMigrate _ => none
  | .poisonMark _ _ _ => none
  | .fecCorrection _ _ => none
  | .linkIntegrityFailure _ _ _ => none
  | .dieFatalError _ _ _ => none
  | .horizonTreeFailure _ _ _ => none
  | .clockCapChange _ _ => none
  | .bringUp _ => none
  | .weightRefreshEnd _ _ => none
  | .ideStreamEstablished _ _ => none
  | .migrationComplete _ => none
  | .laneCycleCount => none
  | .unassignedOpcode word => some (split word)
  | .corePowerGating _ _ => none
  | .linkRetraining _ => none

/-- The instruction that a word holds (R277 to R290). An unassigned OPC gives its own row; a word that breaks a check of
order 3 of R279 is rejected with the reason. -/
def decode (w : IWord) : Dec Instr :=
  let r := split w
  match Op.ofCode r.opc with
  | none => .ok (.unassignedOpcode w)
  | some o => do
    need .reserved (r.res == 0)
    let i ← parse o r
    match i.illFormed with
    | some e => .error (.illFormed e)
    | none => .ok i

/-- The word of an instruction; none for an event. -/
def encode (i : Instr) : Option IWord := i.raw.map join

/-- The word that twelve bytes hold, the first byte least significant (R4, R278); none when fewer are given. -/
def wordOfBytes (bs : List Byte) : Option IWord :=
  if bs.length < 12 then none
  else some ((bs.take 12).foldr (fun (b : Byte) (acc : IWord) => (acc <<< 8) ||| b.zeroExtend 96) 0)

/-- The twelve bytes of a word as memory holds them: three little-endian 32-bit words, least significant first (R278). -/
def bytesOfWord (w : IWord) : List Byte := (List.range 12).map (fun k => w.extractLsb' (8 * k) 8)

/-- Decodes the first instruction of a list of bytes and gives the rest. -/
def decodeBytes (bs : List Byte) : Option (Dec Instr × List Byte) :=
  (wordOfBytes bs).map (fun w => (decode w, bs.drop 12))

/-- The instruction the decoder reads from an instruction whose bits are `w`, bit 0 the least significant bit of the
first word; every bit above `nbits` is zero. -/
def decodeTableWord (nbits w : Nat) : Option Instr :=
  match decodeBytes (bytesOfWord (BitVec.ofNat 96 (w % 2 ^ nbits))) with
  | some (.ok i, _) => some i
  | _ => none

end Sys2Proof
end

