-- ==== Sys2Proof/Config.lean ====
section
/-! DEFINITION. What an implementation fixes, and the values the manual leaves free. The free values have no body: no proof
can see what they are. -/

namespace Sys2Proof.Config

/-- The free lane word number `n`: a candidate for a result that the manual bounds and does not fix (R8, R145, R162). -/
opaque freeWord : Nat → BitVec 32

/-- The free natural number `n`: an order or a choice among several allowed results (R8). -/
opaque freeNat : Nat → Nat

/-- The choice of results of sums formed in any order: evaluation `i` of a sum in a format of `p` bits whose least step is 2^`q`, by
its start value and its terms. Two evaluations of one sum may differ; where one value of the second is larger and none is smaller, its
result is not less, whatever order each took (R163). Where the values are multiples of a step that the format has, and so few that every
partial sum is one of its numbers, every addition is exact under `.rne` in every order, and so is the result (R89, R422). -/
structure SumPick where
  pick : (p : Nat) → (q : ℤ) → (i : Nat) → List ℚ → ℚ := fun _ _ _ xs => xs.sum
  mono : ∀ (p : Nat) (q : ℤ) (i j : Nat) (xs ys : List ℚ), List.Forall₂ (· ≤ ·) xs ys → (xs ≠ ys ∨ i = j) →
      pick p q i xs ≤ pick p q j ys := by
    intro _ _ _ _ _ _ h _; exact h.sum_le_sum
  exact : ∀ (p : Nat) (q g : ℤ) (i : Nat) (xs : List ℚ), q ≤ g → (∀ x ∈ xs, ∃ k : ℤ, x = k * 2 ^ g) →
      (xs.map (fun x => |x|)).sum ≤ 2 ^ (g + p) → pick p q i xs = xs.sum := by
    intros; rfl
  deriving Inhabited

/-- The free choice of sums (R162, R163). -/
opaque sumPick : SumPick

/-- What firmware calibrates as the time offset of the die at physical order `p`; `toff` brings it within ±2^24 (R25, entry 9). -/
opaque timeOffset : Nat → Nat

/-- Panel time when bring-up ends, beyond 2^24: the manual gives its absolute value no meaning (R25, entry 9). -/
opaque panelStart : Nat → Nat

/-- A free number for spare `k` of the die at physical order `p`, by which yield grading picks it among the physical cores that are
left (R19). -/
opaque sparePhysical : Nat → Nat → Nat

/-- The SM3 digest of a list of bytes (R269): the manual names the function and does not define it. -/
opaque sm3 : List (BitVec 8) → BitVec 256

/-- The SM3 digest of the firmware image that bring-up runs (R269). -/
opaque firmwareDigest : BitVec 256

/-- The SM2 signature under the panel's identity key (R269). -/
opaque sm2Sign : List (BitVec 8) → BitVec 512

/-- The save-plus-restore time in microseconds that the panel goes by before it has measured one (R67). -/
opaque measuredBefore : Nat

/-- The bytes of a debug stop record (R270): the manual names its fields and gives no layout. -/
opaque stopBytes : List Nat → List (BitVec 8)

/-- The bytes of a block record of a save image, of the values that it holds (R237): the manual names them and gives no layout. -/
opaque recordBytes : List Nat → List (BitVec 8)

/-- What a byte of device memory that nothing has written reads as. The manual gives none for RAM after power-on:
DESIGN CHOICE zero (entry 4). A new block's local store reads zero by R38. -/
def unwritten : BitVec 8 := 0

/-- The hold window in cycles (R69, R239). -/
def hold : Nat := 128

/-- The time within which a sensor reports a strike (R239, R240). -/
def strikeReport : Nat := 96

/-- Usable cores of a die (R18). -/
def coresPerDie : Nat := 448

/-- Spare cores of a die (R18). -/
def spareCores : Nat := 16

/-- Bytes of one die's weight store (R217). -/
def weightBytes : Nat := 536870912

/-- Placeable frames of one waystation before the pinned reservation (R206). -/
def placeableFrames : Nat := 103833

/-- Places of one coach house (R406). -/
def coachPlaces : Nat := 65536

/-- Entries of one core's overflow buffer (R170). -/
def overflowEntries : Nat := 128

/-- Instructions that one core's matrix queue holds (R363). -/
def matrixQueue : Nat := 16

/-- Scoreboard entries of one core (R109). -/
def scoreEntries : Nat := 32

/-- Bytes of one core's landing buffer (R132). -/
def landingBytes : Nat := 65536

/-- Items that one die mailbox holds (R360). -/
def mailboxItems : Nat := 16

end Sys2Proof.Config
end

