-- ==== Sys2Proof/Machine/State.lean ====
section
/-! DEFINITION. The state of the whole panel as plain data: groups, blocks, cores, dies, launches, partitions, memory and all
that is in flight, with the reasons a step can stop and the state right after bring-up (R271). Sparse tables list only what
differs from the reset value of a unit. -/

namespace Sys2Proof.Machine

/-- Why the machine stops with a fault. -/
inductive Fault where
  /-- An instruction is issued while the state names no group that could issue it. Raised by every instruction's meaning
  in a state that no agenda of the panel reaches. Safe: the panel issues instructions of its groups only. -/
  | noGroup
  deriving DecidableEq, Repr

/-- Why an instruction is refused. -/
inductive Refusal where
  /-- The instruction has no meaning yet. Raised by Dispatch alone. Safe: no claim is made about it. -/
  | notModelled (mnemonic : String)
  deriving DecidableEq, Repr

/-! ## Writes -/

/-- The rule of a write with its sum type (R88, R89). -/
inductive WRule where
  | lo
  | any
  | sum (ty : SumTy)
  | flt
  | acc (ty : SumTy)
  deriving DecidableEq, Repr

/-- One write of a word, or of a 64-bit unit (R84), to local or global memory. -/
structure Write where
  /-- The byte key of the word: a local address, or a key of device memory. -/
  key : Nat
  /-- The address that a report names: virtual for global memory (R92). -/
  va : Word
  /-- A unit of 64 bits (R84). -/
  wide : Bool
  mask : BitVec 8
  val : BitVec 64
  rule : WRule
  /-- The writer's identity (R85). -/
  wid : Word
  ord : Nat
  /-- The group that issued it, for traps (R92) and rollback (R240). -/
  grp : Nat
  engine : Bool
  /-- Issue ordinal: the program order of R86. -/
  seq : Nat
  deriving DecidableEq, Repr

/-- A pending local write (R70, R84, R116, R118). -/
structure LWrite where
  w : Write
  /-- The local step in which it was issued. -/
  step : Nat
  /-- The operations that deferred it, or the one operation that makes it (R116, R118). -/
  by_ : List Nat
  /-- It belongs to the operation in `by_` (R118). -/
  ofOp : Bool
  deriving DecidableEq, Repr

/-- Where a global write is on its way (R77, R239). -/
inductive Stage where
  /-- In its core until the cycle named plus the hold window. -/
  | held (cycle : Nat)
  | flight
  | parked
  /-- Applied at a commit whose later phases are still to come (R222). -/
  | applied
  deriving DecidableEq, Repr

/-- A global write of a launch (R77). -/
structure GWrite where
  id : Nat
  w : Write
  step : Nat
  /-- The core that issued it. -/
  core : Nat
  /-- Cycle of issue on its die (R240); for a declared write, the tick of its declaration (R239). -/
  cycle : Nat
  stage : Stage
  deriving DecidableEq, Repr

/-! ## Groups -/

/-- A unit of 8 registers that a call or a trap spilled, with its place in the spill area (R60). -/
structure SpillUnit where
  vec : Bool
  /-- First physical register of the unit. -/
  first : Nat
  /-- Local byte address at which it was written. -/
  at_ : Nat
  /-- The registers of the unit that were empty when a trap spilled it (R226). -/
  empty : List Nat
  deriving DecidableEq, Repr

/-- What a trap's step 3 leaves for RETT (R226). -/
structure TrapFrame where
  wbv : Nat
  wbs : Nat
  /-- `%spill` after the trap's own spill. -/
  spill : Word
  units : List SpillUnit
  vDepth : Nat
  sDepth : Nat
  /-- Lanes that the interrupted instruction was still to replay (R211). -/
  replay : Option Mask
  /-- The stopped matrix instruction that the trap reports (R187, R188). -/
  mop : Option Nat
  deriving DecidableEq, Repr

/-- Everything of a group that rollback restores (R240), with its special registers. -/
structure Regs where
  pc : Word
  /-- System level (R225). -/
  sys : Bool
  live : Mask
  gstep : Nat
  lstep : Nat
  /-- Vector registers by 32 · physical number + lane (R37). -/
  v : Table Lane
  /-- Scalar registers by physical number. -/
  s : Table Word
  /-- The empty vector and scalar registers (R48). -/
  ve : List Nat
  se : List Nat
  p : Table Mask
  x : Table (BitVec 16)
  wbv : Nat
  wbs : Nat
  spill : Word
  lag : BitVec 3
  lfm : Mask
  nrs : Mask
  xcause : BitVec 9
  xpc : Word
  xaddr : Word
  xlanes : Mask
  xstep : Word
  xprog : Word
  xinfo : Word
  xvec : Word
  /-- The run-head record of the trap state (R45). -/
  xhead : Bool
  /-- The lanes that the instruction at the resume point replays (R211). -/
  replay : Option Mask
  /-- The instruction at pc is a run head (R43, R45). -/
  head : Bool
  frame : Option TrapFrame
  /-- Registers below the window that older frames still hold (R60). -/
  vDepth : Nat
  sDepth : Nat
  detached : Bool
  /-- Plane modes as the group's issued MZERO and MLDA leave them (R167), by the group's plane. -/
  modeQ : BitVec 16
  wov : BitVec 16
  ovfMode : Bool
  deriving DecidableEq, Repr

/-- When a pending trap is taken (R230). -/
inductive NoticeKind where
  | deferred
  | overrun
  | debug
  deriving DecidableEq, Repr

/-- A trap pending for a group (R230 to R232). -/
structure Notice where
  kind : NoticeKind
  cause : Nat
  /-- The step that it reports; none for the group's own step at the trap (R229). -/
  step : Option Word
  addr : Word
  prog : Word
  info : Word
  /-- The stopped matrix instruction (R187). -/
  mop : Option Nat
  deriving DecidableEq, Repr

/-- A PASS whose count and activity are held from grant (R370). -/
structure PassInfo where
  active : Bool
  count : Word
  deriving DecidableEq, Repr

/-- A run in progress (R44 to R53). -/
structure Run where
  /-- Instructions issued so far. -/
  count : Nat
  slot : Nat
  /-- Index registers at grant (R49). -/
  xs : Table (BitVec 16)
  /-- Registers that instructions of the run make empty, active or not (R50). -/
  mkv : List Nat
  mks : List Nat
  /-- Index registers that the run wrote (R50, R404). -/
  mkx : List Nat
  /-- Scoreboard entries still reserved (R112). -/
  reserved : Nat
  /-- Places of the matrix queue that its instructions are still to take (R363). -/
  matrix : Nat
  /-- Lanes inside the run guard (R46, R257). -/
  rg : Mask
  pass : Option PassInfo
  deriving DecidableEq, Repr

/-- An overflow entry (R170). -/
structure OvfEntry where
  plane : Nat
  row : Nat
  col : Nat
  h : Int
  deriving DecidableEq, Repr

/-- The shadow of a group at a local boundary (R240). -/
structure Shadow where
  cycle : Nat
  r : Regs
  cells : Table (BitVec 20)
  fmode : BitVec 16
  ovf : List OvfEntry
  area : Table Byte
  /-- Issue ordinal at the boundary: what was issued later belongs to the span after it. -/
  seq : Nat
  deriving DecidableEq, Repr

/-- A TLBINV that waits (R414, R415). -/
structure TlbInv where
  scope : Scope
  host : Bool
  gctx : Nat
  va : Word
  pages : Nat
  step : Nat
  /-- Issue ordinal (R240). -/
  seq : Nat
  begun : Bool
  /-- The boundary that its run still has to cross once it completes, and whether that is a global one (R416). -/
  cross : Option Bool
  deriving DecidableEq, Repr

/-- The receivers that have accepted the rows of a CPYM (R130): its issue ordinal, its address, and the receivers. A rollback of the
sender keeps what they hold, and the CPYM that the group reissues does not send to them again (R240, R348). -/
structure SentRows where
  seq : Nat
  iaddr : Word
  recv : List Nat
  deriving DecidableEq, Repr

/-- A group (R37). -/
structure Group where
  r : Regs
  blk : Nat
  /-- None for a die dispatcher (R34). -/
  launch : Option Nat
  grp : Nat
  gwid : Word
  /-- Lanes at start: 0 to lanes − 1. -/
  args : Table Lane
  fw : Word
  lhdr : Word
  /-- Vector and scalar allotments (R58). -/
  va : Nat
  sa : Nat
  /-- Physical planes of the group (R166). -/
  planes : List Nat
  spillBase : Nat
  spillEnd : Nat
  run : Option Run
  notices : List Notice
  /-- Deferred traps taken since the oldest shadow, with the issue ordinal at which each was taken (R240). -/
  taken : List (Nat × Notice)
  /-- The CPYMs issued since the oldest shadow whose rows have been accepted, and those that a rollback has cancelled and the group is
  still to reissue, oldest first (R240). -/
  sent : List SentRows
  again : List SentRows
  /-- Global boundaries whose crossing the horizon has seen: the group holds every step from here on. -/
  reported : Nat
  /-- Global crossings held in the core: the boundary and its cycle (R239). -/
  heldX : List (Nat × Nat)
  shadows : List Shadow
  retired : Bool
  /-- It has retired and its last matrix instruction has left the queue: its planes and their overflow entries are free (R42). -/
  freed : Bool
  tlbi : Option TlbInv
  deriving DecidableEq, Repr

/-! ## Blocks -/

/-- A scoreboard entry (R109, R110, R114). -/
structure Entry where
  op : Nat
  seq : Nat
  /-- The group that issued it, for rollback (R240). -/
  grp : Nat
  reads : List (Nat × Nat)
  write : Option (Nat × Nat)
  /-- The local step in which it issued. -/
  step : Nat
  /-- The retirement step, once the operation has completed (R114). -/
  ret : Option Nat
  deriving DecidableEq, Repr

/-- An arrival of a CPYM at a receiver (R132). -/
structure Arrival where
  win : Nat
  rule : WRule
  rowBytes : Nat
  rows : Nat
  dstride : Nat
  off : Nat
  wid : Word
  data : List Byte
  launch : Nat
  grp : Nat
  seq : Nat
  /-- It reached beyond a window whose LAND a rollback has cancelled, and the notice stands (R133, R348). -/
  told : Bool
  deriving DecidableEq, Repr

/-- An open landing window (R131, R132). -/
structure Window where
  win : Nat
  base : Nat
  len : Nat
  op : Nat
  grp : Nat
  /-- The local step in which LAND issued. -/
  step : Nat
  filled : Option Arrival
  /-- An arrival reached beyond it (R133). -/
  beyond : Bool
  deriving DecidableEq, Repr

/-- A block (R37, R103). -/
structure Block where
  core : Nat
  slot : Nat
  launch : Option Nat
  /-- The core's launch context (R34). -/
  ctx : Nat
  bytes : Nat
  spill : Nat
  groups : List Nat
  /-- Lc + 1: the lowest local step not yet closed (R70). -/
  closed : Nat
  mem : Table Byte
  pend : List LWrite
  entries : List Entry
  windows : List Window
  /-- Cycle of the last crossing or retirement in each local step not yet closed (R69). -/
  crossT : Table Nat
  poison : List Nat
  /-- Its core is being retired and the close at which it moves has happened: no group is granted a run (R243, R304). -/
  moving : Bool
  /-- Its state stands on the spare (R243). -/
  moved : Bool
  deriving DecidableEq, Repr

/-! ## Cores -/

/-- A TLB entry (R203): the leaf that a walk gave, tagged by guest context or the host. -/
structure TlbEntry where
  /-- Guest context, or none for the host's own tag. -/
  tag : Option Nat
  page : Nat
  /-- Key of device memory of the page's first byte. -/
  key : Nat
  w : Bool
  x : Bool
  s : Bool
  p : Bool
  ext : Bool
  cp : BitVec 2
  /-- Level of the guest or only leaf, and of the host leaf (R210). -/
  lvl : Nat
  hlvl : Nat
  /-- The host stage alone denies W, X; the placement is a nested walk's host leaf's (R210). -/
  hostW : Bool
  hostX : Bool
  hostE : Bool
  /-- Guest-physical page, for TLBINV by guest-physical address (R414). -/
  gpa : Nat
  deriving DecidableEq, Repr

/-- An issue slot (R51, R53). -/
structure Slot where
  group : Option Nat
  /-- The die cycle from which the slot may act again. -/
  free : Nat
  /-- The cycles up to `free` belong to a skipped run. -/
  skip : Bool
  /-- Lanes active in the last instruction, inside its run guard and live (R257). -/
  act : Mask
  rg : Mask
  live : Mask
  last : Option Nat
  /-- Address of the last instruction, for the bin (R257). -/
  pc : Word
  /-- The die cycle after that of its last issue (R113). -/
  issued : Nat
  deriving DecidableEq, Repr

/-- A core (R20). -/
structure Core where
  /-- Launch contexts in use: context number and launch, or none for the dispatcher's (R34). -/
  ctxs : Table (Option Nat)
  /-- Per context: the group last granted (R52). -/
  rr : Table Nat
  /-- Groups placed last in the order by a Y flag (R52). -/
  yields : List Nat
  slot0 : Slot
  slot1 : Slot
  tlb : List TlbEntry
  /-- Accumulator cells by 1024 · plane + 32 · row + column (R166). -/
  cells : Table (BitVec 20)
  /-- Planes in float mode (R167). -/
  fmode : BitVec 16
  ovf : List OvfEntry
  /-- The matrix queue (R183). -/
  queue : List Nat
  /-- The guest of an instruction that the overflow buffer stalls (R171, R256). -/
  stalled : Option Nat
  /-- Companding tables by 16 · table + segment: SHIFT and BASE (R155). -/
  ctab : Table (BitVec 3 × BitVec 9)
  landing : List Arrival
  /-- Counters by 8192 · guest + number (R256). -/
  counters : Table Word
  /-- Cycles of alarms (R243). -/
  alarms : List Nat
  /-- Bank and cycle of corrected local-store errors (R243). -/
  eccs : List (Nat × Nat)
  fenced : Bool
  retiring : Bool
  /-- Its retirement stands in the black box (R247). -/
  noted : Bool
  gated : Bool
  deriving DecidableEq, Repr

/-! ## Dies -/

/-- A black-box record (R246). -/
structure BBox where
  a : Word
  b : BitVec 32
  core : BitVec 16
  kind : Byte
  aer : Byte
  deriving DecidableEq, Repr

/-- A request of MBXRD that waits (R359). -/
structure MboxWait where
  group : Nat
  load : Nat
  deriving DecidableEq, Repr

/-- An item of a die mailbox (R360): launch packet, save or restore packet. -/
structure MboxItem where
  kind : Nat
  launch : Nat
  data : Word
  /-- Byte 12 of a completion packet. -/
  res : Nat
  deriving DecidableEq, Repr

/-- A mailbox item that a group's request has taken, kept as long as a rollback may discard the result (R362): the request's issue
ordinal, the channel (0 the die mailbox, 1 the in-ring), and the 64 bytes. -/
structure Taken where
  seq : Nat
  group : Nat
  chan : Nat
  bs : List Byte
  deriving DecidableEq, Repr

/-- A group formed by a coach house that waits for a core (R62, R63). -/
structure Proto where
  launch : Nat
  entry : Word
  step : Nat
  args : List Lane
  /-- WIDs of the lanes that spawned them, for the save image (R237). -/
  parents : List Word
  notices : List Notice
  deriving DecidableEq, Repr

/-- What LNCH hands to the launch unit: bytes 0 to 7 and 8 to 15 of a packet (R355). -/
structure Packet where
  hdr : Word
  word : Word
  /-- The launch header, once the launch unit has read it (R356). -/
  read : Option (List Byte)
  deriving DecidableEq, Repr

/-- A compute die (R18). -/
structure Die where
  /-- Clock cap in units of 50 MHz, with the cycle count and panel tick at which it was set (R23, R272). -/
  cap : Nat
  cycle0 : Nat
  tick0 : Nat
  tlb : List TlbEntry
  nested : List TlbEntry
  mbox : List MboxItem
  /-- Items that the partition mailbox holds for the die while its mailbox is full (R360). -/
  inbound : List MboxItem
  waits : List MboxWait
  taken : List Taken
  /-- Items that a rollback has returned, oldest first: they stand before the mailbox for the group that takes them again (R362). -/
  kept : List Taken
  /-- Packets of LNCH that the launch unit has not placed yet (R356). -/
  launchq : List Packet
  protos : List Proto
  bbox : Table BBox
  bbIdx : Nat
  spares : Nat
  /-- Physical number of a core index that a spare took over (R19). -/
  phys : Table Nat
  /-- CTXSV and CTXLD in progress (R329, R330). -/
  save : Option Nat
  load : Option Nat
  /-- The copy engines in use between two events, by number 0 to 3: the operation that each one carries (R18, R123). -/
  engines : Table Nat
  deriving DecidableEq, Repr

/-! ## Launches -/

/-- The phases of a launch (R33, R261). -/
inductive Phase where
  /-- Held by the partition mailbox. -/
  | posted
  /-- Broadcast to the dies and not yet started. -/
  | broadcast
  | stepping
  /-- Commanded to pre-empt and saving (R234). -/
  | preempting
  | saved
  /-- Read back by CTXLD and waiting for its dies (R330). -/
  | restoring
  | completed
  | rejected
  | terminated
  deriving DecidableEq, Repr

/-- A spawned item (R61, R406). -/
structure Item where
  id : Nat
  entry : Word
  arg : Lane
  parent : Word
  step : Nat
  /-- The die of its coach house, and the die that holds its place (R406). -/
  die : Nat
  src : Nat
  /-- It has reached its coach house. -/
  arrived : Bool
  grp : Nat
  seq : Nat
  cycle : Nat
  deriving DecidableEq, Repr

/-- A collision's log entry that waits for a commit (R94, R95). -/
structure LogRec where
  addr : Word
  step : Nat
  count : Nat
  loc : Bool
  mixed : Bool
  engine : Bool
  die : BitVec 16
  core : BitVec 16
  loWid : Word
  loOrd : Nat
  hiWid : Word
  hiOrd : Nat
  /-- The groups that wrote the word (R92). -/
  grps : List Nat
  deriving DecidableEq, Repr

/-- One row of a BTST, sent to the waystation of its table entry (R222, R316 to R318). -/
structure Btst where
  grp : Nat
  step : Nat
  /-- Virtual address of the table entry. -/
  entry : Word
  /-- Row of the block, 0 to 15. -/
  row : Nat
  rule : WRule
  wid : Word
  /-- Ordinal of the row's first word (R318). -/
  ord : Nat
  seq : Nat
  data : List Byte
  deriving DecidableEq, Repr

/-- How far a tier move has come (R224, R314). -/
inductive MovePhase where
  /-- It waits for the commit of its issue step. -/
  | issued
  /-- The entry's tier is 2, and the engine copies. -/
  | copying
  /-- The copy has completed; the switch waits for a commit. -/
  | copied
  /-- The copy stopped; the old tier waits for a commit. -/
  | stopped
  /-- The copy met an address outside its partition, in a read or a write and after some rows, and its engine is frozen (R244). -/
  | frozen (addr : Word) (write : Bool) (rows : Nat)
  deriving DecidableEq, Repr

/-- A tier move (R224, R311 to R315). -/
structure Move where
  op : Nat
  grp : Nat
  step : Nat
  wid : Word
  seq : Nat
  core : Nat
  sys : Bool
  /-- Virtual addresses of the directory entry and the destination block. -/
  dir : Word
  dest : Word
  /-- True for BTDEM. -/
  demote : Bool
  phase : MovePhase
  /-- The tier that the entry held before. -/
  tier : Nat
  /-- The commit at which its switch is due (R224). -/
  due : Option Nat
  /-- The whole block has been copied once; rows that a BTST changed since are copied again (R224). -/
  whole : Bool
  redo : List Nat
  deriving DecidableEq, Repr

/-- A ferry row held until the commit of its issue step (R128). -/
structure Ferry where
  id : Nat
  link : Nat
  off : Nat
  step : Nat
  data : List Byte
  grp : Nat
  seq : Nat
  deriving DecidableEq, Repr

/-- A launch (R27, R32). -/
structure Launch where
  ident : BitVec 32
  /-- Its place in the order of posting (R33, R262). -/
  order : Nat
  /-- Saved at the end of its time slice and posted again (R262). -/
  queued : Bool
  part : Nat
  guest : Nat
  hdrVa : Word
  /-- The header as LNCH read it; empty before. -/
  hdr : List Byte
  prio : Nat
  preds : List (BitVec 32)
  phase : Phase
  /-- Dies that have reported to the mailbox, with the rejecting byte if any (R357). -/
  reports : List (Nat × Option Nat)
  /-- C + 1 (R73). -/
  c : Nat
  /-- Commits visible at a place, by the place's number; unlisted places have seen none (R74). -/
  seen : Table Nat
  gw : List GWrite
  /-- Writes of declared commits not applied yet (R75). -/
  applying : List GWrite
  /-- Old bytes that each applied commit replaced, newest commit first: the commit, the key, the byte (R81). -/
  undo : List (Nat × Nat × Byte)
  logs : List LogRec
  /-- Collisions of closes whose entries a declared commit writes, with that commit (R94). -/
  dueLogs : List (Nat × LogRec)
  /-- Collisions of the commit that is being applied: a group takes one trap for those of one step and kind (R92, R299). -/
  hits : List LogRec
  /-- The panel tick at which each commit that is not applied whole was declared (R239). -/
  declared : Table Nat
  btst : List Btst
  moves : List Move
  ferry : List Ferry
  items : List Item
  children : Nat
  /-- Highest step held at a retirement or detachment (R36). -/
  final : Nat
  /-- Panel tick from which the step limit counts, per die the cycle (R78). -/
  since : List (Nat × Nat)
  sinceTick : Nat
  /-- Panel tick at which it started, and whether it has committed since a restore (R67, R262). -/
  startTick : Nat
  mustCommit : Bool
  image : Word
  force : Bool
  /-- The panel tick at which its save or restore was commanded, and the ticks that its save took (R67). -/
  cmdTick : Nat
  saveTook : Nat
  deriving DecidableEq, Repr

/-! ## Loads and operations in flight -/

/-- Where a load reads (R71, R79, R217, R359, R381). -/
inductive LoadSrc where
  /-- Local store as at the close before local step `need`, after the operations `deps` (R71, R115). -/
  | loc (need : Nat) (deps : List Nat)
  | glob
  | weight
  | mailbox (chan : Nat)
  | value
  deriving DecidableEq, Repr

/-- What a load writes. -/
inductive LoadDst where
  | vec (reg : Nat) (pair : Option Nat)
  /-- Physical scalar registers from this one on: read `i` fills register `i` after it. -/
  | sca (reg : Nat)
  deriving DecidableEq, Repr

/-- One lane's read, or the one read of a scalar load. -/
structure LaneRead where
  lane : Nat
  key : Nat
  va : Word
  /-- The kind it is read under: .stb only on a stable page (R80). -/
  kind : Kind
  /-- The value once served. -/
  val : Option (BitVec 64)
  deriving DecidableEq, Repr

/-- A load in flight (R48). -/
structure LoadOp where
  gid : Nat
  dst : LoadDst
  size : Size
  src : LoadSrc
  tag : Nat
  lag : Nat
  reads : List LaneRead
  seq : Nat
  /-- The die cycle of issue. -/
  cycle : Nat
  deriving DecidableEq, Repr

/-- The state of an asynchronous operation. -/
inductive OpState where
  | running
  /-- Stopped with a notice sent (R186, R188). -/
  | stopped
  /-- Frozen by an access outside its partition (R244). -/
  | frozen (addr : Word)
  /-- Released from there to be faulted: it stops at that access (R244). -/
  | denied
  deriving DecidableEq, Repr

/-- What an asynchronous operation is, with the parameters it captured at issue. -/
inductive OpKind where
  | cpy (dir : Dir) (rule : WRule) (kind : Kind)
  | cpym (dir : Dir) (rule : WRule) (kind : Kind) (recv : List Nat)
  | land
  | gth (side : Side) (rule : WRule) (kind : Kind)
  | sct (side : Side) (rule : WRule)
  | cpyw (glob : Bool)
  | btst (rule : WRule)
  | move (demote : Bool)
  | ctld (tab : Nat)
  | mma (kind : Kind) (tile : Nat)
  | mmq (kind : Kind) (tile : Nat) (quarters : List Nat)
  | mzero (flt : Bool) (tile : Nat)
  | mlda (flt : Bool) (tile : Nat)
  | mdrn (clr flt : Bool) (rnd : Rnd) (tile : Nat)
  deriving DecidableEq, Repr

/-- A dyadic number m · 2^e. -/
structure Dy where
  m : Int
  e : Int
  deriving DecidableEq, Repr

/-- A float sum as far as it has come (R162, R164): the exact sum, the sum of the magnitudes, what special values have
occurred, and the code last written for it. -/
structure FSum where
  last : Nat
  exact : Dy
  size : Dy
  nan : Bool
  pinf : Bool
  ninf : Bool
  /-- Every value is a zero, and every one is −0. -/
  zeros : Bool
  negs : Bool
  /-- The start value and the terms so far (R163). -/
  terms : List Dy
  deriving DecidableEq, Repr

/-- A parameter or format block that an earlier operation still has to write (R117). -/
structure LateBlock where
  at_ : Nat
  size : Nat
  /-- The group had detached when the operation was issued (R65). -/
  detached : Bool
  deriving DecidableEq, Repr

/-- An asynchronous operation (R96, R109 to R119). -/
structure AsyncOp where
  kind : OpKind
  gid : Nat
  blk : Nat
  core : Nat
  gstep : Nat
  lstep : Nat
  lag : Nat
  /-- WID of the issuing group's lane 0 (R85). -/
  wid : Word
  seq : Nat
  iaddr : Word
  /-- Captured parameter or format block, and captured register values. -/
  pb : List Byte
  args : List Word
  /-- The block's local store as the operation reads it (R96, R117). -/
  snap : Table Byte
  /-- The poisoned words of that local store (R119, R242). -/
  bad : List Nat
  /-- Its parameter block, as long as an earlier operation still has to write it (R117). -/
  late : Option LateBlock
  /-- Earlier operations that must retire before the sources are read (R117). -/
  deps : List Nat
  prog : Nat
  st : OpState
  /-- It was issued at system level (R188). -/
  sys : Bool
  /-- Receivers of a CPYM that have accepted (R130). -/
  accepted : List Nat
  /-- Bytes read already and held: pinned lines by address, weight-store offsets from 2^64 on (R185, R186); the rows of a
  CPYM or an MDRN from 0 on. -/
  pins : Table Byte
  /-- Numbers of the lines of 64 bytes that are pinned (R185). -/
  lines : List Nat
  /-- MLDA has begun on its tile (R193); MDRN runs ahead of a stalled instruction (R171). -/
  begun : Bool
  /-- The sums of an MMA or MMQ in progress, by 32 · row + column (R162). -/
  sums : Table FSum
  /-- The companding tables as they were when a CTLD behind it in the queue took effect (R326). -/
  tables : Option (Table (BitVec 3 × BitVec 9))
  deriving DecidableEq, Repr

/-! ## Partitions -/

/-- A guest's settings (R253, R264). -/
structure GuestCfg where
  root : Word
  hroot : Word
  ways : BitVec 20
  enabled : Bool
  deriving DecidableEq, Repr

/-- The calendars of a partition, one byte an entry (R253, R264). -/
structure Cals where
  iss : List Byte
  link : List Byte
  port : List Byte
  deriving DecidableEq, Repr

/-- A write to a staged register that waits for a command (R264). -/
structure Staged where
  off : Nat
  data : Word
  deriving DecidableEq, Repr

/-- One layout slot (R264). -/
structure Layout where
  y0 : Nat
  y1 : Nat
  port : Nat
  used : Bool
  links : BitVec 32
  deriving DecidableEq, Repr

/-- A requester frozen by an access outside its partition (R244). -/
inductive FrozenBy where
  | host (write : Bool) (addr : Word)
  | engine (op : Nat)
  /-- A tier move's copy. -/
  | move (op : Nat)
  deriving DecidableEq, Repr

structure Frozen where
  die : Nat
  engine : Nat
  by_ : FrozenBy
  deriving DecidableEq, Repr

/-- The bytes of one die's records in an image: core records, block records, spawn items (R237, R329). -/
structure Section where
  cores : Nat
  blocks : Nat
  items : Nat
  deriving DecidableEq, Repr

/-- A saved context (R234 to R237): the image's address and shape, with the blocks, groups and operations that its records
hold. -/
structure Saved where
  launch : Nat
  image : Word
  /-- Shape of the partition (R252), and the band and port that its keys belong to. -/
  shape : List Nat
  y0 : Nat
  y1 : Nat
  port : Nat
  blocks : Table Block
  groups : Table Group
  ops : Table AsyncOp
  loads : Table LoadOp
  /-- Per core key: planes, modes, overflow entries, companding tables and arrivals. -/
  cores : Table Core
  /-- Groups that waited at the coach houses, with the physical order of the die. -/
  protos : List (Nat × Proto)
  /-- The parked writes stand in the image (R235). -/
  inImage : Bool
  /-- The image as it was written, the sections of its dies in logical order, and the writes behind each parked-write record. -/
  bytes : List Byte
  sections : List Section
  parked : List (List GWrite)
  /-- The image as a restore has read it; empty before. -/
  got : List Byte
  deriving DecidableEq, Repr

/-- A part that has failed (R245, R273). -/
inductive FailedPart where
  | link (n : Word)
  | die (p : Nat)
  | stack (w : Nat)
  | tree (segment : Word)
  deriving DecidableEq, Repr

/-- A partition (R248, R260, R264). -/
structure Part where
  y0 : Nat
  y1 : Nat
  port : Nat
  links : BitVec 32
  q : Nat
  ferryRej : BitVec 16
  fatal : Bool
  /-- The failed parts that are neither fenced nor retrained as far as is known (R273). -/
  failures : List FailedPart
  cfgErr : Bool
  sliceRaised : Bool
  ideUp : Bool
  mode : BitVec 2
  cmd : Word
  cmdarg : Word
  /-- CMDARG as it stood when the command in progress was written. -/
  arg : Word
  /-- Pre-empts that wait under R67 behind later commands, oldest first: launch identifier and image address. -/
  waiting : List (BitVec 32 × Word)
  tslice : Word
  /-- The greatest save-plus-restore time measured, in microseconds (R67). -/
  measured : Nat
  lpkt : Table Byte
  /-- The launch packet staging of each virtual function, by 64 · guest + byte (R266). -/
  vlpkt : Table Byte
  lrring : Word
  prring : Word
  dbstop : Word
  dbmsg : Word
  dbin : Word
  ferryBase : Word
  ferryLen : Word
  hostRoot : Word
  guests : Table GuestCfg
  bins : Table (Word × Word)
  cals : Cals
  staged : List Staged
  csel : Table Word
  latch : Table (BitVec 32)
  saved : List Saved
  frozen : List Frozen
  /-- What a command in progress still waits for: the launch of a pre-emption or restore. -/
  busy : Option Nat
  /-- Where the next image of a forced layout change goes, once the change has begun (R265). -/
  forceAt : Option Word
  deriving DecidableEq, Repr

/-- A host write held at its waystations (R98): key, byte, and the launches that still hold it back. -/
structure HostW where
  key : Nat
  data : List Byte
  /-- Launches that map the page, with their commit count at arrival. -/
  maps : List (Nat × Nat)
  deriving DecidableEq, Repr

/-- The completion of a host request: data, Completer Abort (R244, R437) or Unsupported Request (R217, R250). -/
inductive HostAns where
  | data (bs : List Byte)
  | abort
  | unsupported
  deriving DecidableEq, Repr

/-- A completion sent to a host. -/
structure HostR where
  part : Nat
  src : HostSrc
  ans : HostAns
  deriving DecidableEq, Repr

/-- A line of 64 bytes in a waystation's slice of the last-level cache (R21, R254). -/
structure LlcLine where
  line : Nat
  /-- The guest whose fill allocated it (R254). -/
  guest : Nat
  /-- The core whose PFG fetched it, while no load has read it (R258). -/
  pfg : Option Nat
  /-- The panel tick at which it arrives. -/
  due : Nat
  deriving DecidableEq, Repr

/-- A ferry row sent to a peer panel (R128). -/
structure Sent where
  link : Nat
  off : Nat
  data : List Byte
  deriving DecidableEq, Repr

/-- AER classes (R245). -/
inductive Aer where
  | correctable
  | nonFatal
  | fatal
  deriving DecidableEq, Repr

/-- An error reported to the host: its class, the unit that reports it, and whether a Completer Abort is logged with it (R437). -/
structure AerRec where
  cls : Aer
  what : Nat
  abort : Bool
  deriving DecidableEq, Repr

/-- What moves next: a group's next instruction, one event of the opcode table, or an instruction of a dispatcher's
program, which firmware holds and the manual does not give (R34). -/
inductive Turn where
  | issue (group : Nat)
  | event (i : Instr)
  | firmware (die : Nat) (i : Instr)
  deriving DecidableEq, Repr

/-- The panel. -/
structure State where
  /-- Bring-up has run (R271). -/
  up : Bool
  /-- The physical orders of disabled compute dies, ascending: none on a W9-900, 50 on a W9-850 (R1, R14). -/
  disabled : List Nat
  /-- Cycles of the panel's 1.2 GHz clock since bring-up (R6, R25). -/
  tick : Nat
  groups : Table Group
  blocks : Table Block
  cores : Table Core
  dies : Table Die
  launches : Table Launch
  parts : Table Part
  loads : Table LoadOp
  ops : Table AsyncOp
  /-- All device memory (R12, R205, R206, R217). -/
  mem : Table Byte
  /-- Poisoned words of device memory, by key (R242). -/
  poison : List Nat
  /-- Waystations whose stack is lost (R207). -/
  lost : List Nat
  /-- The last-level cache: the lines of each waystation's slice (R21). It never changes a value (R83). -/
  llc : Table (List LlcLine)
  /-- The tier that a directory entry held before the move that set it to 2, by the entry's key (R314, R318). -/
  tiers : Table Nat
  aer : List AerRec
  msix : Nat
  /-- The measurement log (R269). -/
  mlog : List (BitVec 256)
  layouts : Table Layout
  pinq : Nat
  hostw : List HostW
  hostr : List HostR
  sent : List Sent
  /-- The group whose instruction the step executes: the model's own. -/
  cur : Option Nat
  fresh : Nat
  seq : Nat
  /-- Counts the free values taken: the model's own. -/
  free : Nat
  agenda : List Turn
  deriving DecidableEq, Repr

/-- The issue calendar of bring-up: entry e names launch context e mod 4 (R271). -/
def Cals.reset : Cals where
  iss := (List.range 128).map (fun e => BitVec.ofNat 8 (e % 4))
  link := (List.range 256).map (fun e => if e % 4 = 0 then 0x10 else if e % 4 = 1 then 0x20 else 0)
  port := (List.range 256).map (fun e => if e % 4 = 0 then 0x10 else if e % 4 = 1 then 0x20 else 0)

/-- A partition with nothing set by the host beyond its band and port. -/
def Part.fresh (y0 y1 port : Nat) (links : BitVec 32) (q : Nat) : Part where
  y0 := y0
  y1 := y1
  port := port
  links := links
  q := q
  ferryRej := 0
  fatal := false
  failures := []
  cfgErr := false
  sliceRaised := false
  ideUp := false
  mode := 0
  cmd := 0
  cmdarg := 0
  arg := 0
  waiting := []
  tslice := 0
  measured := 0
  lpkt := []
  vlpkt := []
  lrring := 0
  prring := 0
  dbstop := 0
  dbmsg := 0
  dbin := 0
  ferryBase := 0
  ferryLen := 0
  hostRoot := 0
  guests := []
  bins := []
  cals := Cals.reset
  staged := []
  csel := []
  latch := []
  saved := []
  frozen := []
  busy := none
  forceAt := none

/-- The panel as bring-up leaves it (R271): one whole-panel partition bound to the port at north edge die 3, nothing
running, and nothing in memory. -/
def State.reset : State where
  up := true
  disabled := []
  tick := 0
  groups := []
  blocks := []
  cores := []
  dies := []
  launches := []
  parts := [(0, Part.fresh 0 29 0 0 0)]
  loads := []
  ops := []
  mem := []
  poison := []
  lost := []
  llc := []
  tiers := []
  aer := []
  msix := 0
  mlog := [Config.firmwareDigest]
  layouts := [(0, ⟨0, 29, 0, true, 0⟩)]
  pinq := 0
  hostw := []
  hostr := []
  sent := []
  cur := none
  fresh := 1000
  seq := 0
  free := 0
  agenda := []

end Sys2Proof.Machine
end

