-- ==== Sys2Proof/Machine/Store.lean ====
section
/-! DEFINITION. Sparse tables and the bytes of memories: the one place that keeps their canonical form and decides byte order
(R4), and the small list and number helpers that the rest of the machine uses. -/

namespace Sys2Proof.Machine

variable {α : Type}

/-- The entry of a key. -/
def tfind : Table α → Nat → Option α
  | [], _ => none
  | (j, v) :: r, k => if j = k then some v else tfind r k

/-- The value of a key, `d` when it is not listed. -/
def tget (d : α) (t : Table α) (k : Nat) : α := (tfind t k).getD d

/-- Removes a key. -/
def tdel : Table α → Nat → Table α
  | [], _ => []
  | (j, v) :: r, k => if j = k then tdel r k else (j, v) :: tdel r k

/-- Lists a value under a key, in the place that keeps the keys rising. -/
def tset : Table α → Nat → α → Table α
  | [], k, v => [(k, v)]
  | (j, u) :: r, k, v => if j = k then (k, v) :: r else if k < j then (k, v) :: (j, u) :: r else (j, u) :: tset r k v

/-- Gives a key its value; the value `d` of unlisted keys is never listed. -/
def tput [DecidableEq α] (d : α) (t : Table α) (k : Nat) (v : α) : Table α := if v = d then tdel t k else tset t k v

/-- Changes the entry of a key that is listed. -/
def tmod (t : Table α) (k : Nat) (f : α → α) : Table α :=
  match tfind t k with
  | some v => tset t k (f v)
  | none => t

/-- The listed values that satisfy a test, with their keys. -/
def tsel (t : Table α) (f : α → Bool) : List Nat := (t.filter (fun e => f e.2)).map Prod.fst

/-- Keys strictly rising from `lo` upward, and no entry equal to `d`. -/
def twfFrom [DecidableEq α] (d : α) : Nat → Table α → Bool
  | _, [] => true
  | lo, (j, v) :: r => decide (lo ≤ j) && decide (v ≠ d) && twfFrom d (j + 1) r

/-- The canonical form of a table. -/
def twf [DecidableEq α] (d : α) (t : Table α) : Bool := twfFrom d 0 t

/-- The entries of a range of keys. -/
def tslice (t : Table α) (lo hi : Nat) : Table α := t.filter (fun e => decide (lo ≤ e.1) && decide (e.1 < hi))

/-- A table without a range of keys. -/
def tcut (t : Table α) (lo hi : Nat) : Table α := t.filter (fun e => !(decide (lo ≤ e.1) && decide (e.1 < hi)))

/-- Replaces a range of keys by the entries of another table in that range. -/
def tpaste (t u : Table α) (lo hi : Nat) : Table α :=
  (tslice u lo hi).foldl (fun acc e => tset acc e.1 e.2) (tcut t lo hi)

/-! ## Bytes -/

/-- The canonical form of a memory: what an unlisted byte reads as is `Config.unwritten`. -/
def Memory.wf (m : Table Byte) : Bool := twf Config.unwritten m

/-- One byte. -/
def rd8 (m : Table Byte) (k : Nat) : Byte := tget Config.unwritten m k

/-- Writes one byte. -/
def wr8 (m : Table Byte) (k : Nat) (b : Byte) : Table Byte := tput Config.unwritten m k b

/-- `n` bytes as a number, the lowest address least significant (R4). -/
def rdN (m : Table Byte) (k : Nat) : Nat → Nat
  | 0 => 0
  | n + 1 => (rd8 m k).toNat + 256 * rdN m (k + 1) n

/-- Stores the low `n` bytes of a number (R4). -/
def wrN (m : Table Byte) (k : Nat) : Nat → Nat → Table Byte
  | 0, _ => m
  | n + 1, x => wrN (wr8 m k (BitVec.ofNat 8 x)) (k + 1) n (x / 256)

def rd32 (m : Table Byte) (k : Nat) : Lane := BitVec.ofNat 32 (rdN m k 4)
def rd64 (m : Table Byte) (k : Nat) : Word := BitVec.ofNat 64 (rdN m k 8)
def wr32 (m : Table Byte) (k : Nat) (x : Lane) : Table Byte := wrN m k 4 x.toNat
def wr64 (m : Table Byte) (k : Nat) (x : Word) : Table Byte := wrN m k 8 x.toNat

/-- `n` bytes in address order. -/
def rdL (m : Table Byte) (k n : Nat) : List Byte := (List.range n).map (fun i => rd8 m (k + i))

/-- Stores a list of bytes. -/
def wrL (m : Table Byte) (k : Nat) : List Byte → Table Byte
  | [] => m
  | b :: bs => wrL (wr8 m k b) (k + 1) bs

/-- A list of bytes as a number (R4). -/
def leNat : List Byte → Nat
  | [] => 0
  | b :: bs => b.toNat + 256 * leNat bs

/-- The low `n` bytes of a number, least significant first (R4). -/
def leBytes : Nat → Nat → List Byte
  | 0, _ => []
  | n + 1, x => BitVec.ofNat 8 x :: leBytes n (x / 256)

/-- A field of `n` bytes at offset `k` of a list. -/
def fieldN (bs : List Byte) (k n : Nat) : Nat := leNat ((bs.drop k).take n)

/-! ## Lists and numbers -/

/-- Inserts by a key, before the first element with a larger key. -/
def insertBy (key : α → Nat) (x : α) : List α → List α
  | [] => [x]
  | y :: ys => if key x < key y then x :: y :: ys else y :: insertBy key x ys

/-- Sorts by a key, keeping the order of equal keys. -/
def sortBy (key : α → Nat) (l : List α) : List α := l.foldl (fun acc x => insertBy key x acc) []

/-- Adds to a set held as a rising list. -/
def addTo (x : Nat) : List Nat → List Nat
  | [] => [x]
  | y :: ys => if x = y then y :: ys else if x < y then x :: y :: ys else y :: addTo x ys

/-- Every element once. -/
def distinct (l : List Nat) : List Nat := l.foldl (fun acc x => addTo x acc) []

/-- Half-open intervals that share a byte (R111). -/
def overlaps (a b : Nat × Nat) : Bool := decide (max a.1 b.1 < min a.2 b.2)

/-- The smallest interval that holds a list of intervals (R111). -/
def bounding : List (Nat × Nat) → Option (Nat × Nat)
  | [] => none
  | (lo, hi) :: r =>
    match bounding r with
    | none => some (lo, hi)
    | some (lo', hi') => some (min lo lo', max hi hi')

/-- Bit `n` of a mask. -/
def bitOf (m : Mask) (n : Nat) : Bool := m.getLsbD n

/-- The mask of the lanes that satisfy a test. -/
def maskOf (f : Nat → Bool) : Mask :=
  lanes.foldr (fun n (acc : Mask) => if f n then acc ||| (1#32 <<< n) else acc) 0

/-- The lanes of a mask, ascending. -/
def lanesOf (m : Mask) : List Nat := lanes.filter (fun n => bitOf m n)

/-- The first value of a list of candidates that a test accepts. -/
def firstSome {β : Type} (f : α → Option β) : List α → Option β
  | [] => none
  | x :: xs =>
    match f x with
    | some y => some y
    | none => firstSome f xs

end Sys2Proof.Machine
end

