-- ==== Sys2Proof/Machine/Walk.lean ====
section
/-! DEFINITION. Addresses: the keys of device memory (R205, R206, R217), the page-table walk in one and two stages
(R197 to R202), and the TLBs (R203). -/

namespace Sys2Proof.Machine

/-! ## Keys of device memory -/

/-- Interleaved space of the band of rows `y0` to `y1` (R205). -/
def keyInter (y0 y1 pa : Nat) : Nat := (y0 * 32 + y1) * 2 ^ 52 + pa

/-- Pinned frames of a waystation (R206). -/
def keyPinned (w frame : Nat) : Nat := 2 ^ 64 + w * 2 ^ 40 + frame * 65536

/-- Cold tier of an edge die (R206). -/
def keyCold (e off : Nat) : Nat := 2 * 2 ^ 64 + e * 2 ^ 36 + off

/-- Host memory behind a port (R99). -/
def keyHost (port pa : Nat) : Nat := 3 * 2 ^ 64 + port * 2 ^ 52 + pa

/-- Weight store of a die (R217). -/
def keyWeight (p off : Nat) : Nat := 4 * 2 ^ 64 + p * 2 ^ 29 + off

/-- Waystations of a partition (R205). -/
def Part.ways (P : Part) : Nat := 30 * (P.y1 + 1 - P.y0)

/-- Bits [63:55] equal bit 54 (R196). -/
def canonical (a : Word) : Bool :=
  a.extractLsb' 55 9 == (if a.getLsbD 54 then 0x1FF#9 else 0#9)

/-- Every byte of `n` from `a` is canonical; an interval never wraps (R196). -/
def canonicalSpan (a n : Nat) : Bool :=
  if n = 0 then true
  else (decide (a + n ≤ 2 ^ 54)) || (decide (2 ^ 64 - 2 ^ 54 ≤ a) && decide (a + n ≤ 2 ^ 64))

/-! ## Page-table entries (R198) -/

def pteV (e : Word) : Bool := e.getLsbD 0
def pteT (e : Word) : Bool := e.getLsbD 1
def pteW (e : Word) : Bool := e.getLsbD 2
def pteS (e : Word) : Bool := e.getLsbD 3
def pteX (e : Word) : Bool := e.getLsbD 4
def pteP (e : Word) : Bool := e.getLsbD 5
def pteR (e : Word) : Bool := e.getLsbD 6
def pteA (e : Word) : Bool := e.getLsbD 7
def ptePL (e : Word) : BitVec 2 := e.extractLsb' 8 2
def pteCP (e : Word) : BitVec 2 := e.extractLsb' 10 2
def pteFrame (e : Word) : Nat := (e.extractLsb' 16 36).toNat
def ptePWS (e : Word) : Nat := (e.extractLsb' 52 10).toNat

/-- The fields that must be zero in every valid entry (R198). -/
def pteReserved (e : Word) : Bool := e.extractLsb' 62 2 == 0 && e.extractLsb' 12 4 == 0

/-- A leaf's own fields are well made, apart from its placement (R198). -/
def pteLeafOk (e : Word) : Bool :=
  pteReserved e && pteCP e != 3 && (ptePL e == 1 || ptePWS e == 0)

/-- What a walk leaves behind: the leaf entries whose A bit it sets (R200), and the entries it read (R207). -/
structure Trail where
  touch : List Nat := []
  reads : List Nat := []
  deriving DecidableEq, Repr

def Trail.append (a b : Trail) : Trail := ⟨a.touch ++ b.touch, a.reads ++ b.reads⟩

/-- Why a walk ends without a leaf: level, malformed, host stage, and whether V was 0 (R199, R210, R215). `away` marks the one end
that is no fault: a guest table's page is not resident in the host stage (R199, R212). -/
structure WalkFault where
  lvl : Nat
  mal : Bool
  nst : Bool
  v0 : Bool
  away : Bool := false
  trail : Trail := {}
  deriving DecidableEq, Repr

/-- A fault met after a trail. -/
def WalkFault.after (t : Trail) (f : WalkFault) : WalkFault := { f with trail := t.append f.trail }

/-- A leaf that one stage of a walk reached. -/
structure StageLeaf where
  pte : Word
  lvl : Nat
  /-- Page number that the leaf gives for the address walked: physical or guest-physical. -/
  page : Nat
  trail : Trail
  deriving DecidableEq, Repr

/-- One level of a walk, after a trail: the key and the entry at `tab`, index `ix`; `loc` gives the key of a table address. -/
def readPte (mem : Table Byte) (loc : Nat → Except WalkFault (Nat × Trail)) (t : Trail) (tab ix : Nat) :
    Except WalkFault (Nat × Word × Trail) :=
  match loc (tab * 65536 + 8 * ix) with
  | .error f => .error (f.after t)
  | .ok (k, u) => .ok (k, rd64 mem k, (t.append u).append ⟨[], [k]⟩)

/-- The trail of a walk that ends at a leaf entry: its A bit is set if it is 0 (R200). -/
def leafTrail (t : Trail) (key : Nat) (e : Word) : Trail := t.append ⟨if pteA e then [] else [key], []⟩

/-- A walk of one stage from the root table at page number `root` (R199). -/
def walkStage (mem : Table Byte) (loc : Nat → Except WalkFault (Nat × Trail)) (nst : Bool) (root : Nat) (page : Nat) :
    Except WalkFault StageLeaf := do
  let bad (t : Trail) (l : Nat) (mal v0 : Bool) : Except WalkFault StageLeaf := .error ⟨l, mal, nst, v0, false, t⟩
  let i3 := page / 2 ^ 26 % 8192
  let i2 := page / 2 ^ 13 % 8192
  let i1 := page % 8192
  let (_, e3, t3) ← readPte mem loc {} root i3
  if !pteV e3 then bad t3 3 false true
  else if !pteReserved e3 then bad t3 3 true false
  else if !pteT e3 then bad t3 3 false false
  else
    let (k2, e2, t2) ← readPte mem loc t3 (pteFrame e3) i2
    if !pteV e2 then bad t2 2 false true
    else if !pteReserved e2 then bad t2 2 true false
    else if !pteT e2 then
      if !pteLeafOk e2 || pteFrame e2 % 8192 != 0 then bad t2 2 true false
      else .ok ⟨e2, 2, pteFrame e2 + i1, leafTrail t2 k2 e2⟩
    else
      let (k1, e1, t1) ← readPte mem loc t2 (pteFrame e2) i1
      if !pteV e1 then bad t1 1 false true
      else if !pteReserved e1 then bad t1 1 true false
      else if pteT e1 then bad t1 1 false false
      else if !pteLeafOk e1 then bad t1 1 true false
      else .ok ⟨e1, 1, pteFrame e1, leafTrail t1 k1 e1⟩

/-- The edge die `e` borders the partition: north ones row 0, south ones row 29 (R206). -/
def Part.borders (P : Part) (e : Nat) : Bool :=
  if e < 30 then P.y0 == 0 else decide (e < 60) && P.y1 == 29

/-- Where a leaf puts a page: the key of its first byte and whether it is external; none for a malformed leaf (R206). -/
def Part.place (P : Part) (l : StageLeaf) : Option (Nat × Bool) :=
  let pa := l.page * 65536
  let pl := ptePL l.pte
  if pl == 0 then
    if P.ways * (Config.placeableFrames - P.q) * 65536 ≤ pa then none else some (keyInter P.y0 P.y1 pa, false)
  else if pl == 1 then
    if P.ways ≤ ptePWS l.pte || P.q ≤ l.page then none
    else some (keyPinned (30 * P.y0 + ptePWS l.pte) l.page, false)
  else if pl == 2 then
    let e := pa / 2 ^ 36 % 64
    if 60 ≤ e || !P.borders e || pa / 2 ^ 42 != 0 then none else some (keyCold e (pa % 2 ^ 36), false)
  else some (keyHost P.port pa, true)

/-- Table addresses are physical addresses of the partition's interleaved space. -/
def Part.tableKey (P : Part) (pa : Nat) : Except WalkFault (Nat × Trail) := .ok (keyInter P.y0 P.y1 pa, {})

/-- The host stage for one page (R199, R201). -/
def hostStage (mem : Table Byte) (P : Part) (root : Word) (nst : Bool) (page : Nat) :
    Except WalkFault (StageLeaf × Nat × Bool) := do
  let l ← walkStage mem P.tableKey nst (root.toNat / 65536) page
  match P.place l with
  | none => .error ⟨l.lvl, true, nst, false, false, ⟨[], l.trail.reads⟩⟩
  | some (k, ext) => .ok (l, k, ext)

/-- What a translation gives: the TLB entry of the page, whether it is resident in all stages, whether only the host stage says
that it is not, and the walk's trail. -/
structure Trans where
  e : TlbEntry
  res : Bool
  /-- The stage whose leaf has R = 0 is the host stage of a nested walk (R210). -/
  hostR : Bool
  trail : Trail
  /-- The nested entry of the page, for the nested TLB (R203). -/
  nest : Option TlbEntry
  deriving DecidableEq, Repr

/-- A one-stage translation (R199). -/
def transHost (mem : Table Byte) (P : Part) (tag : Option Nat) (root : Word) (page : Nat) : Except WalkFault Trans := do
  let (l, k, ext) ← hostStage mem P root false page
  let e : TlbEntry :=
    { tag := tag, page := page, key := k, w := pteW l.pte, x := pteX l.pte, s := pteS l.pte, p := pteP l.pte, ext := ext,
      cp := pteCP l.pte, lvl := l.lvl, hlvl := l.lvl, hostW := false, hostX := false, hostE := false, gpa := page }
  pure ⟨e, pteR l.pte, false, l.trail, none⟩

/-- A host-stage translation of a guest-physical page through the nested TLB (R201, R203). -/
def nestedPage (mem : Table Byte) (P : Part) (nested : List TlbEntry) (g : Nat) (hroot : Word) (page : Nat) :
    Except WalkFault Trans :=
  match nested.find? (fun e => e.tag == some g && e.page == page) with
  | some e => .ok ⟨e, true, false, {}, none⟩
  | none =>
    match transHost mem P (some g) hroot page with
    | .ok t => .ok t
    | .error f => .error { f with nst := true }

/-- A page that a guest table's missing page hides: its own attributes are unknown, and it is not resident (R199, R212). -/
def hiddenPage (g page : Nat) (f : WalkFault) : Trans :=
  ⟨{ tag := some g, page := page, key := 0, w := true, x := true, s := false, p := false, ext := false, cp := 0, lvl := f.lvl,
     hlvl := f.lvl, hostW := false, hostX := false, hostE := false, gpa := 0 }, false, true, f.trail, none⟩

/-- A two-stage translation (R201, R202). -/
def transGuest (mem : Table Byte) (P : Part) (nested : List TlbEntry) (g : Nat) (c : GuestCfg) (page : Nat) :
    Except WalkFault Trans :=
  let loc (gpa : Nat) : Except WalkFault (Nat × Trail) :=
    match nestedPage mem P nested g c.hroot (gpa / 65536) with
    | .error f => .error f
    | .ok t => if t.res then .ok (t.e.key + gpa % 65536, t.trail) else .error ⟨t.e.lvl, false, true, false, true, t.trail⟩
  match walkStage mem loc false (c.root.toNat / 65536) page with
  | .error f => if f.away then .ok (hiddenPage g page f) else .error f
  | .ok l =>
    match nestedPage mem P nested g c.hroot l.page with
    | .error f => .error (f.after l.trail)
    | .ok h =>
      let gw := pteW l.pte
      let gx := pteX l.pte
      let e : TlbEntry :=
        { tag := some g, page := page, key := h.e.key, w := gw && h.e.w, x := gx && h.e.x, s := pteS l.pte && h.e.s,
          p := pteP l.pte, ext := h.e.ext, cp := h.e.cp, lvl := l.lvl, hlvl := h.e.lvl, hostW := gw && !h.e.w,
          hostX := gx && !h.e.x, hostE := true, gpa := l.page }
      .ok ⟨e, pteR l.pte && h.res, pteR l.pte && !h.res, l.trail.append h.trail, if h.res then some h.e else none⟩

/-- The settings of a guest context (R253). -/
def Part.guest (P : Part) (g : Nat) : GuestCfg := tget ⟨0, 0, 0, false⟩ P.guests g

/-- A walk for a guest context, or for the host's own tables when `g` is none (R201). -/
def walk (mem : Table Byte) (P : Part) (nested : List TlbEntry) (g : Option Nat) (page : Nat) : Except WalkFault Trans :=
  match g with
  | none => transHost mem P none P.hostRoot page
  | some g =>
    let c := P.guest g
    if c.enabled then transGuest mem P nested g c page else transHost mem P (some g) c.hroot page

/-- The lookup of a page: core TLB, die TLB, then the walk (R203). -/
def lookup (mem : Table Byte) (P : Part) (core die nested : List TlbEntry) (g : Option Nat) (page : Nat) :
    Except WalkFault Trans :=
  match (core ++ die).find? (fun e => e.tag == g && e.page == page) with
  | some e => .ok ⟨e, true, false, {}, none⟩
  | none => walk mem P nested g page

/-- The waystation of a key in physical order: the cold tier is reached through the one that its edge die links to (R11, R12, R13,
R435); none for host memory and the weight store (R205, R206). -/
def wayOfKey (key : Nat) : Option Nat :=
  if key < 2 ^ 64 then
    let y0 := key / 2 ^ 52 / 32
    let y1 := key / 2 ^ 52 % 32
    let u := key % 2 ^ 52 / 4096
    some (30 * y0 + (u ^^^ (u / 2 ^ 10) ^^^ (u / 2 ^ 20)) % (30 * (y1 + 1 - y0)))
  else if key < 2 * 2 ^ 64 then some ((key - 2 ^ 64) / 2 ^ 40)
  else if key < 3 * 2 ^ 64 then
    let e := (key - 2 * 2 ^ 64) / 2 ^ 36
    some (if e < 30 then e else 840 + e)
  else none

/-- The key lies in the cold tier, which parity does not cover (R207). -/
def isCold (key : Nat) : Bool := decide (2 * 2 ^ 64 ≤ key) && decide (key < 3 * 2 ^ 64)

/-- The physical address that a key stands for (R205, R206). -/
def physAddr (key : Nat) : Nat :=
  if key < 2 ^ 64 then key % 2 ^ 52 else if key < 2 * 2 ^ 64 then key % 2 ^ 40 else if key < 3 * 2 ^ 64 then key % 2 ^ 42 else key % 2 ^ 52

/-- Adds an entry to a TLB of `n` entries, the oldest leaving first (R203). -/
def tlbFill (n : Nat) (tlb : List TlbEntry) (e : TlbEntry) : List TlbEntry :=
  if tlb.contains e then tlb else (e :: tlb).take n

/-- Sets the A bits that a walk asks for, directly and outside every step (R200). -/
def setA (mem : Table Byte) (touch : List Nat) : Table Byte :=
  touch.foldl (fun m k => wr8 m k (rd8 m k ||| 0x80#8)) mem

end Sys2Proof.Machine
end

