-- ==== Sys2Proof/Machine/Units.lean ====
section
/-! DEFINITION. The units of the panel: dies, cores, blocks, groups and launches as they stand when nothing is listed for them;
their clocks, counters, black boxes and rings; what a group frees when it retires (R41, R42, R107), and the end of a launch by
rejection (R29) or termination (R238). -/

namespace Sys2Proof.Machine

/-! ## Units that nothing is listed for -/

/-- The number of a core: die in physical order, and core index. -/
def coreKey (p i : Nat) : Nat := p * 512 + i
def coreDie (k : Nat) : Nat := k / 512
def coreIdx (k : Nat) : Nat := k % 512

/-- The places of R74 as numbers. -/
def placeNo : Place → Nat
  | .core c => c
  | .die p => 2 ^ 20 + p
  | .way w => 2 ^ 21 + w

def Slot.fresh : Slot := ⟨none, 0, false, 0, 0, 0, none, 0, 0⟩

/-- A core with nothing placed. The companding tables hold base 8j (R155); every plane is clear (R38). -/
def Core.fresh : Core where
  ctxs := []
  rr := []
  yields := []
  slot0 := Slot.fresh
  slot1 := Slot.fresh
  tlb := []
  cells := []
  fmode := 0
  ovf := []
  queue := []
  stalled := none
  ctab := []
  landing := []
  counters := []
  alarms := []
  eccs := []
  fenced := false
  retiring := false
  noted := false
  gated := false

/-- A die at bring-up: its clock at 1.2 GHz. -/
def Die.fresh : Die where
  cap := 24
  cycle0 := 0
  tick0 := 0
  tlb := []
  nested := []
  mbox := []
  inbound := []
  waits := []
  taken := []
  kept := []
  launchq := []
  protos := []
  bbox := []
  bbIdx := 0
  spares := 0
  phys := []
  save := none
  load := none
  engines := []

/-- A group's registers at its start (R38, R40). -/
def Regs.start (pc : Word) (lanesN : Nat) (gstep : Nat) (s0 : Word) (spill : Nat) (vec : Word) (sys : Bool) : Regs where
  pc := pc
  sys := sys
  live := maskOf (fun n => decide (n < lanesN))
  gstep := gstep
  lstep := 0
  v := []
  s := tput 0 [] 0 s0
  ve := []
  se := []
  p := []
  x := []
  wbv := 0
  wbs := 0
  spill := BitVec.ofNat 64 spill
  lag := 0
  lfm := 0
  nrs := 0
  xcause := 0
  xpc := 0
  xaddr := 0
  xlanes := 0
  xstep := 0
  xprog := 0
  xinfo := 0
  xvec := vec
  xhead := false
  replay := none
  head := true
  frame := none
  vDepth := 0
  sDepth := 0
  detached := false
  modeQ := 0
  wov := 0
  ovfMode := false

/-- The dispatcher of die `p`: a system-level group of 32 vector and 16 scalar registers with a spill area of 2,048 bytes,
alone in its block on core 0 (R34). Its group and its block carry the number `p`. -/
def dispatcher (p : Nat) : Group where
  r := Regs.start 0 32 0 0 0 0 true
  blk := p
  launch := none
  grp := 0
  gwid := 0
  args := []
  fw := 0
  lhdr := 0
  va := 32
  sa := 16
  planes := []
  spillBase := 0
  spillEnd := 2048
  run := none
  notices := []
  taken := []
  sent := []
  again := []
  reported := 0
  heldX := []
  shadows := []
  retired := false
  freed := false
  tlbi := none

/-- The dispatcher's block (R34). -/
def dispatcherBlock (p : Nat) : Block where
  core := coreKey p 0
  slot := 0
  launch := none
  ctx := 0
  bytes := 0
  spill := 2048
  groups := [p]
  closed := 0
  mem := []
  pend := []
  entries := []
  windows := []
  crossT := []
  poison := []
  moving := false
  moved := false

/-- Takes `n` elements of a list, each once, as a number for each names them. -/
def pick (f : Nat → Nat) : Nat → List Nat → List Nat
  | 0, _ => []
  | n + 1, l =>
    let x := l.getD (f n % l.length) 0
    x :: pick f n (l.filter (· != x))

/-- The physical numbers of a die's spares, as yield grading fixed them: each from 0 to 463, no two alike (R19). -/
def spareNumbers (p : Nat) : List Nat := pick (Config.sparePhysical p) Config.spareCores (List.range (Config.coresPerDie + Config.spareCores))

/-- What a block asks of a core (R28, R35). -/
structure Need where
  launch : Nat
  groups : Nat
  va : Nat
  sa : Nat
  tiles : Nat
  bytes : Nat

/-- A launch has started and has neither completed nor been terminated: it holds back the host's writes (R98, R235) and counts as
running (R101). -/
def Launch.holds (l : Launch) : Bool :=
  l.phase == .stepping || l.phase == .preempting || l.phase == .saved || l.phase == .restoring

/-- A launch that waits to start. -/
def Launch.waiting (l : Launch) : Bool := l.phase == .posted || l.phase == .broadcast || (l.phase == .saved && l.queued)

namespace State

def die (s : State) (p : Nat) : Die := (tfind s.dies p).getD Die.fresh
def setDie (s : State) (p : Nat) (d : Die) : State := { s with dies := tset s.dies p d }
def modDie (s : State) (p : Nat) (f : Die → Die) : State := s.setDie p (f (s.die p))

def core (s : State) (k : Nat) : Core := (tfind s.cores k).getD Core.fresh
def setCore (s : State) (k : Nat) (c : Core) : State := { s with cores := tset s.cores k c }
def modCore (s : State) (k : Nat) (f : Core → Core) : State := s.setCore k (f (s.core k))

/-- A group; the dispatchers of enabled dies exist without being listed (R34). -/
def group? (s : State) (g : Nat) : Option Group :=
  match tfind s.groups g with
  | some x => some x
  | none => if g < 900 && !s.disabled.contains g then some (dispatcher g) else none

def setGroup (s : State) (g : Nat) (x : Group) : State := { s with groups := tset s.groups g x }

def modGroup (s : State) (g : Nat) (f : Group → Group) : State :=
  match s.group? g with
  | some x => s.setGroup g (f x)
  | none => s

/-- Changes a group where it stands: on its core, or in a saved context (R234). -/
def modAnyGroup (s : State) (g : Nat) (f : Group → Group) : State :=
  match s.group? g with
  | some x => s.setGroup g (f x)
  | none =>
    { s with parts := s.parts.map (fun e =>
        (e.1, { e.2 with saved := e.2.saved.map (fun v => { v with groups := tmod v.groups g f }) })) }

def block? (s : State) (b : Nat) : Option Block :=
  match tfind s.blocks b with
  | some x => some x
  | none => if b < 900 && !s.disabled.contains b then some (dispatcherBlock b) else none

def setBlock (s : State) (b : Nat) (x : Block) : State := { s with blocks := tset s.blocks b x }

def modBlock (s : State) (b : Nat) (f : Block → Block) : State :=
  match s.block? b with
  | some x => s.setBlock b (f x)
  | none => s

/-- The block of a group; a group always has one. -/
def blockOf (s : State) (g : Group) : Block := (s.block? g.blk).getD (dispatcherBlock g.blk)

def launch? (s : State) (l : Nat) : Option Launch := tfind s.launches l
def modLaunch (s : State) (l : Nat) (f : Launch → Launch) : State := { s with launches := tmod s.launches l f }
def part? (s : State) (p : Nat) : Option Part := tfind s.parts p
def modPart (s : State) (p : Nat) (f : Part → Part) : State := { s with parts := tmod s.parts p f }

/-- Takes a fresh identifier. -/
def take (s : State) : Nat × State := (s.fresh, { s with fresh := s.fresh + 1 })

/-- The next issue ordinal (R113). -/
def tickSeq (s : State) : State := { s with seq := s.seq + 1 }

/-- The cycle count of a die: its clock runs at `cap` twenty-fourths of 1.2 GHz since it was last capped (R5, R23). -/
def cycle (s : State) (p : Nat) : Nat :=
  let d := s.die p
  d.cycle0 + (s.tick - d.tick0) * d.cap / 24

/-- Panel time: 100 MHz, a twelfth of the panel clock, the same on every die (R25). -/
def panelTime (s : State) : Nat := s.tick / 12 + 2 ^ 24 + Config.panelStart 0

/-- `%toff` of a die, between −2^24 and 2^24 (R25). -/
def toff (p : Nat) : Word := BitVec.ofInt 64 ((Config.timeOffset p % (2 ^ 25 + 1) : Nat) - 2 ^ 24)

/-- `%time` of a die: panel time equals `%time` + `%toff` (R25). -/
def time (s : State) (p : Nat) : Word := BitVec.ofNat 64 s.panelTime - toff p

/-! ## Partitions and dies -/

/-- The partition whose band holds physical row `y` (R248). -/
def partOfRow (s : State) (y : Nat) : Option Nat :=
  (s.parts.find? (fun e => decide (e.2.y0 ≤ y) && decide (y ≤ e.2.y1))).map Prod.fst

/-- The partition of a die. -/
def partOfDie (s : State) (p : Nat) : Option Nat := s.partOfRow (p / 30)

/-- The enabled dies of a partition in ascending physical order: their positions are the logical indices (R14, R248). -/
def dieList (s : State) (P : Part) : List Nat :=
  ((List.range P.ways).map (30 * P.y0 + ·)).filter (fun p => !s.disabled.contains p)

/-- Dies of a partition (R16). -/
def dieCount (s : State) (P : Part) : Nat :=
  P.ways - (s.disabled.filter (fun p => decide (30 * P.y0 ≤ p) && decide (p < 30 * (P.y1 + 1)))).length

/-- The physical order of logical die `i` (R14). -/
def physDie? (s : State) (P : Part) (i : Nat) : Option Nat :=
  if s.disabled.isEmpty then (if i < P.ways then some (30 * P.y0 + i) else none) else (s.dieList P)[i]?

/-- The logical index of the die at physical order `p` (R14). -/
def logDie (s : State) (P : Part) (p : Nat) : Nat :=
  p - 30 * P.y0 - (s.disabled.filter (fun q => decide (30 * P.y0 ≤ q) && decide (q < p))).length

/-! ## Black boxes, errors, counters -/

/-- Appends a record to a die's black box (R246). -/
def bboxAdd (s : State) (p : Nat) (r : BBox) : State :=
  s.modDie p (fun d => { d with bbox := tset d.bbox (d.bbIdx % 4096) r, bbIdx := (d.bbIdx + 1) % 65536 })

/-- The guest in whose counters a group's events count; a dispatcher belongs to none (R256). -/
def guestOf (s : State) (g : Group) : Option Nat := (g.launch.bind s.launch?).map (fun l => l.guest)

/-- Adds to a counter of a guest on a core, modulo 2^64 (R256). -/
def count (s : State) (k : Nat) (guest : Option Nat) (n amount : Nat) : State :=
  match guest with
  | none => s
  | some u =>
    s.modCore k (fun c =>
      { c with
        counters := tput 0 c.counters (8192 * u + n) (tget 0 c.counters (8192 * u + n) + BitVec.ofNat 64 amount) })

/-- Reports an error to the host by its AER class (R245). -/
def report (s : State) (e : Aer) (what : Nat) : State := { s with aer := s.aer ++ [⟨e, what, false⟩] }

/-- Reports a refused host request, with its Completer Abort (R437). -/
def reportAbort (s : State) (what : Nat) : State := { s with aer := s.aer ++ [⟨.nonFatal, what, true⟩] }

end State

/-- Completes a host request. -/
def answer (s : State) (p : Nat) (src : HostSrc) (a : HostAns) : State := { s with hostr := s.hostr ++ [⟨p, src, a⟩] }

/-- A rebuild by parity is recorded on the die that shares the waystation's index, and reported as a correctable error (R207). -/
def parity (s : State) (key : Nat) : State :=
  match wayOfKey key with
  | some w =>
    if s.lost.contains w && !isCold key then
      (s.bboxAdd w ⟨BitVec.ofNat 64 (physAddr key), BitVec.ofNat 32 w, 0xFFFF, 0x03, 1⟩).report .correctable w
    else s
  | none => s

namespace State

/-- The rebuilds of reads at a list of keys (R207). -/
def rebuilds (s : State) (keys : List Nat) : State := if s.lost.isEmpty then s else keys.foldl parity s

/-- What a walk leaves behind: A bits (R200) and rebuilds (R207). -/
def trailed (s : State) (t : Trail) : State := ({ s with mem := setA s.mem t.touch } : State).rebuilds t.reads

/-! ## Memory of the panel through the host's own tables -/

/-- The trail of the walk of one page through a context's tables. -/
def trailFor (s : State) (P : Part) (g : Option Nat) (va : Word) : Trail :=
  if !canonical va then {}
  else
    match walk s.mem P [] g (va.toNat % 2 ^ 55 / 65536) with
    | .ok t => t.trail
    | .error f => f.trail

/-- The walks for `n` bytes through a context's tables set their A bits, one walk for each page (R200). -/
def walked (s : State) (P : Part) (g : Option Nat) (va : Word) (n : Nat) : State :=
  ((List.range (n / 65536 + 2)).map (fun i => if i = 0 then va else BitVec.ofNat 64 ((va.toNat / 65536 + i) * 65536))).foldl
    (fun s a => if n = 0 ∨ va.toNat + n ≤ a.toNat then s else s.trailed (s.trailFor P g a)) s

/-- The key of a virtual address for the host or a guest context, for a read or a write outside every step; none when it
cannot be translated (R102, R437). -/
def keyFor (s : State) (P : Part) (g : Option Nat) (va : Word) (write : Bool) : Option Nat :=
  if !canonical va then none
  else
    match walk s.mem P [] g (va.toNat % 2 ^ 55 / 65536) with
    | .ok t => if t.res && (!write || t.e.w) then some (t.e.key + va.toNat % 65536) else none
    | .error _ => none

/-- Bytes read through a context's tables; none when one of them cannot be translated. -/
def readVa (s : State) (P : Part) (g : Option Nat) (va : Word) : Nat → Option (List Byte)
  | 0 => some []
  | n + 1 =>
    match s.keyFor P g va false, s.readVa P g (va + 1) n with
    | some k, some bs => some (rd8 s.mem k :: bs)
    | _, _ => none

/-- Bytes written through a context's tables, directly; a byte that cannot be translated is not written. -/
def writeVa (s : State) (P : Part) (g : Option Nat) (va : Word) : List Byte → State
  | [] => s
  | b :: bs =>
    let s1 := match s.keyFor P g va true with
      | some k => { s with mem := wr8 s.mem k b }
      | none => s
    s1.writeVa P g (va + 1) bs

/-- Appends a 16-byte record to a ring with the header of R215: producer, consumer, capacity and dropped count. -/
def ringAdd (s : State) (P : Part) (base : Word) (rec : List Byte) : State :=
  match s.readVa P none base 32 with
  | none => s.walked P none base 32
  | some h =>
    let s := s.walked P none base 32
    let prod := fieldN h 0 8
    let cons := fieldN h 8 8
    let cap := fieldN h 16 8
    if cap = 0 || cap ≤ (prod + 2 ^ 64 - cons) % 2 ^ 64 then
      s.writeVa P none (base + 24) (leBytes 8 (fieldN h 24 8 + 1))
    else
      let at_ := base + 64 + BitVec.ofNat 64 (rec.length * (prod % cap))
      let s1 := (s.walked P none at_ rec.length).writeVa P none at_ rec
      s1.writeVa P none base (leBytes 8 (prod + 1))

/-! ## Launch records, rejection -/

/-- C as the records show it: −1 before the first commit (R73). -/
def cWord (l : Launch) : Word := BitVec.ofInt 64 ((l.c : Int) - 1)

/-- Appends a launch record (R261). -/
def record (s : State) (lid state reason byte : Nat) : State :=
  match s.launch? lid with
  | none => s
  | some l =>
    match s.part? l.part with
    | none => s
    | some P =>
      s.ringAdd P P.lrring (leBytes 4 l.ident.toNat ++ leBytes 1 state ++ leBytes 1 reason ++ leBytes 2 byte ++
        leBytes 8 (cWord l).toNat)

/-- The launch that an identifier names in a partition: the latest posted (R33). -/
def byIdent (s : State) (p : Nat) (id : BitVec 32) : Option Nat :=
  (tsel s.launches (fun l => l.part == p && l.ident == id)).getLast?

/-- Position of a value in a list. -/
def indexIn (id : BitVec 32) : List (BitVec 32) → Option Nat
  | [] => none
  | x :: xs => if x = id then some 0 else (indexIn id xs).map (· + 1)

/-- The lowest predecessor entry of a waiting launch that names a launch rejected or terminated (R29). -/
def badPred (s : State) (l : Launch) : Option Nat :=
  firstSome (fun id =>
    match s.byIdent l.part id with
    | some m =>
      match s.launch? m with
      | some ml => if ml.phase = .rejected ∨ ml.phase = .terminated then indexIn id l.preds else none
      | none => none
    | none => none) l.preds

/-- Records a launch as rejected (R29, R261). -/
def rejectOne (s : State) (lid reason byte : Nat) : State :=
  (s.modLaunch lid (fun l => { l with phase := .rejected })).record lid 2 reason byte

/-- Rejects, in turn, every waiting launch that names a rejected or terminated launch (R29). -/
def rejectFollowers : Nat → State → State
  | 0, s => s
  | fuel + 1, s =>
    match firstSome (fun lid =>
        match s.launch? lid with
        | some l => if l.phase = .posted then (s.badPred l).map (fun i => (lid, i)) else none
        | none => none) (s.launches.map (fun e => e.1)) with
    | none => s
    | some (lid, i) => rejectFollowers fuel (s.rejectOne lid 6 (88 + 4 * i))

/-- Rejects a launch and, in turn, its successors (R29). -/
def reject (s : State) (lid reason byte : Nat) : State :=
  let s1 := s.rejectOne lid reason byte
  rejectFollowers s1.launches.length s1

/-! ## Resources of a core -/

/-- The blocks on a core; the dispatcher's block counts on core 0 of every enabled die (R34). -/
def blocksOn (s : State) (k : Nat) : List (Nat × Block) :=
  let l := s.blocks.filter (fun e => e.2.core == k)
  if coreIdx k = 0 && (tfind s.blocks (coreDie k)).isNone then (coreDie k, dispatcherBlock (coreDie k)) :: l else l

/-- The groups of a block that stand in the state, with their numbers. -/
def groupsIn (s : State) (b : Block) : List (Nat × Group) :=
  b.groups.filterMap (fun g => (s.group? g).map (fun x => (g, x)))

/-- The groups on a core that have not retired. -/
def groupsOn (s : State) (k : Nat) : List (Nat × Group) :=
  ((s.blocksOn k).flatMap (fun e => s.groupsIn e.2)).filter (fun e => !e.2.retired)

/-- The planes that a group holds (R42). -/
def Group.held (g : Group) : List Nat := if g.freed then [] else g.planes

/-- The planes in use on a core: those of groups, and of retired groups with matrix work in the queue (R42). -/
def planesOn (s : State) (k : Nat) : List Nat :=
  ((s.blocksOn k).flatMap (fun e => s.groupsIn e.2)).flatMap (fun e => Group.held e.2)

/-- The core holds the launch already or has a free launch context (R34, R35). -/
def ctxFor (s : State) (k lid : Nat) : Option Nat :=
  let c := s.core k
  let used (n : Nat) : Bool := (tfind c.ctxs n).isSome || (n == 0 && coreIdx k == 0)
  match c.ctxs.find? (fun e => e.2 == some lid) with
  | some (n, _) => some n
  | none => (List.range 4).find? (fun n => !used n)

/-- A core can take a block whole (R35). -/
def canTake (s : State) (k : Nat) (n : Need) : Bool :=
  let c := s.core k
  let gs := s.groupsOn k
  let bs := s.blocksOn k
  !c.fenced && !c.retiring && (s.ctxFor k n.launch).isSome && decide (bs.length < 4) &&
    decide (gs.length + n.groups ≤ 24) &&
    decide ((gs.map (fun e => e.2.va)).sum + n.groups * n.va ≤ 1024) &&
    decide ((gs.map (fun e => e.2.sa)).sum + n.groups * n.sa ≤ 768) &&
    decide ((s.planesOn k).length + n.groups * n.tiles ≤ 16) &&
    decide ((bs.map (fun e => e.2.bytes + e.2.groups.length * e.2.spill)).sum + n.bytes ≤ 196608)

/-- The lowest-indexed core of a die that can take a block (R35, R63). -/
def coreFor (s : State) (p : Nat) (n : Need) : Option Nat :=
  ((List.range Config.coresPerDie).map (coreKey p)).find? (fun k => s.canTake k n)

/-! ## Retirement of groups and blocks -/

/-- Frees the slot that a group's run holds. -/
def freeSlot (s : State) (k g : Nat) : State :=
  s.modCore k (fun c =>
    { c with
      slot0 := if c.slot0.group = some g then { c.slot0 with group := none } else c.slot0
      slot1 := if c.slot1.group = some g then { c.slot1 with group := none } else c.slot1 })

/-- Notes a crossing or a retirement in a block's local step (R69). -/
def noteCross (s : State) (b step : Nat) : State :=
  s.modBlock b (fun x => { x with crossT := tset x.crossT step (s.cycle (coreDie x.core)) })

/-- The black-box record of a group that retires with lanes switched off (R107). -/
def faultRecord (s : State) (g : Group) : State :=
  if g.r.lfm = 0 then s
  else
    let k := (s.blockOf g).core
    s.bboxAdd (coreDie k) ⟨g.gwid, g.r.lfm, BitVec.ofNat 16 (coreIdx k), 0x0C, 0⟩

/-- The launch's final step takes in the step that a group holds (R36). -/
def noteFinal (s : State) (g : Group) : State :=
  match g.launch with
  | some l => if g.r.detached then s else s.modLaunch l (fun x => { x with final := max x.final g.r.gstep })
  | none => s

/-! ## What waits for a local close or for an operation (R71, R96, R115, R117) -/

/-- An operation's scoreboard entry is held. -/
def heldEntry (b : Block) (o : Nat) : Bool := b.entries.any (fun e => e.op == o)

/-- A load's local reads are filled from the block's store as the last close left it, once its own close has happened and
every entry that it waits for has gone (R71, R115). -/
def settleLoad (b : Block) (op : LoadOp) : LoadOp :=
  match op.src with
  | .loc need deps =>
    if need ≤ b.closed ∧ !deps.any (heldEntry b) then
      { op with reads := op.reads.map (fun r =>
          if r.val.isSome then r else { r with val := some (BitVec.ofNat 64 (rdN b.mem r.key op.size.bytes)) }) }
    else op
  | _ => op

/-- A word at `w` touches a range. -/
def wordIn (r : Nat × Nat) (w : Nat) : Bool := decide (w < r.2) && decide (r.1 < w + 4)

/-- The poison marks of a captured store once a range of it is read again (R119). -/
def pastePoison (marks now : List Nat) (r : Nat × Nat) : List Nat :=
  marks.filter (fun w => !wordIn r w) ++ now.filter (wordIn r)

/-- An operation reads again, as the last close left them, the sources that overlap what entries that have gone wrote (R96,
R117). -/
def settleOp (b : Block) (gone : List Entry) (oid : Nat) (op : AsyncOp) : AsyncOp :=
  let hit := gone.filter (fun e => op.deps.contains e.op)
  if hit.isEmpty then op
  else
    let reads := ((b.entries.find? (fun e => e.op == oid)).map (fun e => e.reads)).getD []
    let again := reads.filter (fun r => hit.any (fun e => (e.write.map (overlaps r)).getD false))
    { op with
      deps := op.deps.filter (fun o => !hit.any (fun e => e.op == o))
      snap := again.foldl (fun m r => tpaste m b.mem r.1 r.2) op.snap
      bad := again.foldl (fun l r => pastePoison l b.poison r) op.bad }

/-- Fills what waited for a block's last close, or for entries that have gone. -/
def settle (s : State) (bid : Nat) (gone : List Entry) : State :=
  match s.block? bid with
  | none => s
  | some b =>
    { s with
      loads := s.loads.map (fun e => (e.1, if b.groups.contains e.2.gid then settleLoad b e.2 else e.2))
      ops := s.ops.map (fun e => (e.1, if e.2.blk = bid then settleOp b gone e.1 e.2 else e.2)) }

/-- Removes matrix operations from their core's queue with their scoreboard entries (R364). -/
def dropOps (s : State) (bid : Nat) (ids : List Nat) : State :=
  match s.block? bid with
  | none => s
  | some b =>
    let s1 : State := { s with ops := s.ops.filter (fun e => !ids.contains e.1) }
    let s2 := s1.modBlock bid (fun b => { b with entries := b.entries.filter (fun e => !ids.contains e.op) })
    let s3 := s2.modCore b.core (fun c => { c with queue := c.queue.filter (fun o => !ids.contains o) })
    s3.settle bid (b.entries.filter (fun e => ids.contains e.op))

/-- The entries of a queue that a retired group abandons: its stopped ones, and its later ones that they hold (R188, R364). -/
def abandoned (s : State) (gid : Nat) : Bool → List Nat → List Nat
  | _, [] => []
  | seen, o :: os =>
    match tfind s.ops o with
    | none => abandoned s gid seen os
    | some op =>
      if op.gid = gid ∧ (op.st = .stopped ∨ (seen ∧ !op.sys)) then o :: abandoned s gid (seen || op.st == .stopped) os
      else abandoned s gid seen os

/-- A retired group's stopped matrix instruction is abandoned with what it holds (R364). -/
def abandon (s : State) (gid bid : Nat) : State :=
  match abandoned s gid false (s.core (((s.block? bid).map (fun b => b.core)).getD 0)).queue with
  | [] => s
  | ids => s.dropOps bid ids

/-- A retired group whose last matrix instruction has left the queue frees its planes and their overflow entries (R42, R364). -/
def freePlanes (s : State) (gid : Nat) : State :=
  match s.group? gid with
  | none => s
  | some g =>
    let k := (s.blockOf g).core
    if !g.retired || g.freed || (s.core k).queue.any (fun o => ((tfind s.ops o).map (fun op => op.gid == gid)).getD false) then s
    else
      (s.modCore k (fun c => { c with ovf := c.ovf.filter (fun e => !g.planes.contains e.plane) })).setGroup gid
        { g with freed := true }

/-- A group retires (R41, R42): it leaves the horizon, its run and slot end, its pending traps are not taken. -/
def retire (s : State) (gid : Nat) : State :=
  match s.group? gid with
  | none => s
  | some g =>
    let s1 := (s.faultRecord g).noteFinal g
    let s2 := (s1.noteCross g.blk g.r.lstep).freeSlot (s.blockOf g).core gid
    (s2.setGroup gid { g with retired := true, run := none, notices := [], tlbi := none, heldX := [] }).abandon gid g.blk |>.freePlanes gid

/-- Frees the launch context of a core once its last block of the launch is gone (R34). -/
def freeCtx (s : State) (k lid : Nat) : State :=
  if s.blocks.any (fun e => e.2.core == k && e.2.launch == some lid) then s
  else s.modCore k (fun c => { c with ctxs := c.ctxs.filter (fun e => e.2 != some lid) })

/-- Removes a block with its groups, loads and operations, and frees its place on the core. -/
def dropBlock (s : State) (bid : Nat) : State :=
  match tfind s.blocks bid with
  | none => s
  | some b =>
    let gone (g : Nat) : Bool := b.groups.contains g
    let ps := (s.groupsIn b).flatMap (fun e => Group.held e.2)
    let s1 : State :=
      { s with
        blocks := tdel s.blocks bid
        groups := s.groups.filter (fun e => !gone e.1)
        loads := s.loads.filter (fun e => !gone e.2.gid)
        ops := s.ops.filter (fun e => !gone e.2.gid) }
    let s2 := s1.modCore b.core (fun c =>
      { c with
        queue := c.queue.filter (fun o => (tfind s1.ops o).isSome)
        ovf := c.ovf.filter (fun e => !ps.contains e.plane)
        slot0 := if (c.slot0.group.map gone).getD false then { c.slot0 with group := none } else c.slot0
        slot1 := if (c.slot1.group.map gone).getD false then { c.slot1 with group := none } else c.slot1 })
    let s3 := s2.modDie (coreDie b.core) (fun d => { d with waits := d.waits.filter (fun w => !gone w.group) })
    match b.launch with
    | some l => s3.freeCtx b.core l
    | none => s3

/-- A block is freed once its groups have retired, its last local step has closed and its entries have retired (R42). -/
def tryFree (s : State) (bid : Nat) : State :=
  match tfind s.blocks bid with
  | none => s
  | some b =>
    let gs := s.groupsIn b
    let last := (gs.map (fun e => e.2.r.lstep)).foldl max 0
    if b.launch.isSome && gs.all (fun e => e.2.retired) && decide (last < b.closed) && b.entries.isEmpty &&
        b.windows.isEmpty then s.dropBlock bid
    else s

/-! ## Termination -/

/-- The blocks of a launch. -/
def blocksOf (s : State) (lid : Nat) : List Nat := tsel s.blocks (fun b => b.launch == some lid)

/-- The dies that hold a block of a launch, or else the partition's first die. -/
def diesOf (s : State) (lid : Nat) (l : Launch) : List Nat :=
  match distinct ((s.blocksOf lid).filterMap (fun b => (tfind s.blocks b).map (fun x => coreDie x.core))) with
  | [] => ((s.part? l.part).bind (fun P => s.physDie? P 0)).toList
  | ps => ps

/-- Records a termination in the black box of every die that holds a block of the launch, and for a launch without one in that of
its partition's first die (R247). An uncorrectable error (reason 3) is reported as such (R245). -/
def termRecords (s : State) (lid : Nat) (l : Launch) (reason : Nat) : State :=
  let ps := s.diesOf lid l
  let s1 := ps.foldl (fun s p => s.bboxAdd p ⟨cWord l, l.ident, 0xFFFF, 0x0A, if reason = 3 then 2 else 0⟩) s
  if reason = 3 then s1.report .nonFatal (ps.head?.getD 0) else s1

/-- What a termination leaves of a tier move: the tier write or the switch of a declared commit (R224, R238). -/
def moveKept (c : Nat) (m : Move) : Bool :=
  (m.phase == .issued && decide (m.step < c)) || (m.due.map (fun d => decide (d < c))).getD false

/-- Terminates a launch (R238): its groups stop, everything of uncommitted steps is discarded, its cores are freed, its
record is written, and its successors are rejected. Writes of declared commits are still applied. -/
def terminate (s : State) (lid reason : Nat) : State :=
  match s.launch? lid with
  | none => s
  | some l =>
    if l.phase = .completed ∨ l.phase = .rejected ∨ l.phase = .terminated then s
    else
      let s1 := s.termRecords lid l reason
      let s2 := (s1.blocksOf lid).foldl (fun s b => s.dropBlock b) s1
      let s3 := s2.modLaunch lid (fun l =>
        { l with phase := .terminated, gw := [], logs := [], btst := l.btst.filter (fun b => decide (b.step < l.c)),
                 moves := l.moves.filter (moveKept l.c), ferry := [], items := [] })
      let s4 : State :=
        { s3 with
          dies := s3.dies.map (fun e =>
            (e.1, { e.2 with
              protos := e.2.protos.filter (fun q => q.launch != lid)
              launchq := e.2.launchq.filter (fun q => q.word.extractLsb' 0 32 != l.ident || s3.partOfDie e.1 != some l.part)
              mbox := e.2.mbox.filter (fun m => m.launch != lid)
              inbound := e.2.inbound.filter (fun m => m.launch != lid)
              save := if e.2.save = some lid then none else e.2.save
              load := if e.2.load = some lid then none else e.2.load }))
          hostw := s3.hostw.map (fun h => { h with maps := h.maps.filter (fun m => m.1 != lid) })
          cores := s3.cores.map (fun e =>
            (e.1, { e.2 with landing := e.2.landing.filter (fun a => a.launch != lid) })) }
      let s5 : State :=
        { s4 with parts := s4.parts.map (fun e =>
            (e.1, { e.2 with
              saved := e.2.saved.filter (fun v => v.launch != lid)
              frozen := e.2.frozen.filter (fun f =>
                match f.by_ with
                | .engine o => (tfind s4.ops o).isSome
                | .move o => s4.launches.any (fun e => e.2.moves.any (fun m => m.op == o))
                | .host _ _ => true)
              busy := if e.2.busy = some lid then none else e.2.busy
              mode := if e.2.busy = some lid then 0 else e.2.mode })) }
      let s6 := s5.record lid 3 reason 0xFFFF
      rejectFollowers s6.launches.length s6

end State

end Sys2Proof.Machine
end

