-- ==== Sys2Proof/Machine/Operands.lean ====
section
/-! DEFINITION. Operands: the windows (R58), the registers that an operand names (R280 to R284), what each instruction reads
and writes of the vector and scalar registers (R48 to R50), and the reading and writing of registers. -/

namespace Sys2Proof.Machine

/-! ## Windows -/

/-- Names of the vector window: v0 to v(min(A, 128) − 1) (R58). -/
def Group.winV (g : Group) : Nat := min g.va 128

/-- Names of the scalar window (R58). -/
def Group.winS (g : Group) : Nat := g.sa

/-- Physical vector register of a name (R58). -/
def Group.physV (g : Group) (n : Nat) : Nat := (g.r.wbv + n) % g.va

/-- Physical scalar register of a name (R58). -/
def Group.physS (g : Group) (n : Nat) : Nat := (g.r.wbs + n) % g.sa

/-- The number that an indexed operand names; none when it is negative (R282). -/
def indexed (xs : Table (BitVec 16)) (x : BitVec 3) (base : BitVec 8) : Option Nat :=
  let n := (base.toNat : Int) + (tget 0 xs x.toNat).toInt
  if n < 0 then none else some n.toNat

/-- The register name of an operand under the index values held at grant (R49, R282). -/
def vnum (xs : Table (BitVec 16)) : VReg → Option Nat
  | .dir n => some n.toNat
  | .idx x b => indexed xs x b

def snum (xs : Table (BitVec 16)) : SReg → Option Nat
  | .dir n => some n.toNat
  | .idx x b => indexed xs x b

def vix : VReg → Option Nat
  | .dir _ => none
  | .idx x _ => some x.toNat

def six : SReg → Option Nat
  | .dir _ => none
  | .idx x _ => some x.toNat

/-! ## What an instruction reads and writes -/

/-- One register that an operand names. -/
structure Use where
  /-- 0 for D, 1 for A, 2 for B (R231). -/
  pos : Nat
  vec : Bool
  /-- The register name; none for a negative one. -/
  num : Option Nat
  /-- Read as a source. -/
  rd : Bool
  /-- Written. -/
  wr : Bool
  /-- Made empty at issue (R48). -/
  emp : Bool
  /-- It must be even: the first of a pair. -/
  even : Bool
  /-- The index register that names it. -/
  x : Option Nat
  deriving DecidableEq, Repr

/-- How an operand uses its registers. -/
inductive How where
  | src
  | dst
  | upd
  | load
  deriving DecidableEq, Repr

def useAt (pos : Nat) (vec : Bool) (num x : Option Nat) (h : How) (even : Bool) (k : Nat) : Use where
  pos := pos
  vec := vec
  num := num.map (· + k)
  rd := h == .src || h == .upd
  wr := h != .src
  emp := h == .load
  even := even && k == 0
  x := x

/-- `n` vector registers from an operand on. -/
def useV (xs : Table (BitVec 16)) (pos : Nat) (r : VReg) (h : How) (n : Nat := 1) (even : Bool := false) : List Use :=
  (List.range n).map (useAt pos true (vnum xs r) (vix r) h even)

/-- `n` scalar registers from an operand on. -/
def useS (xs : Table (BitVec 16)) (pos : Nat) (r : SReg) (h : How) (n : Nat := 1) : List Use :=
  (List.range n).map (useAt pos false (snum xs r) (six r) h false)

def useSS (xs : Table (BitVec 16)) (pos : Nat) : SSrc → List Use
  | .reg r => useS xs pos r .src
  | .imm _ => []

def useVS (xs : Table (BitVec 16)) (pos : Nat) : VS → List Use
  | .vec r => useV xs pos r .src
  | .sca r => useS xs pos r .src

/-- B of a vector instruction; a vector B is a pair under a 64-bit type (R419). -/
def useVSI (xs : Table (BitVec 16)) (pos : Nat) (n : Nat) (even : Bool) : VSI → List Use
  | .vec r => useV xs pos r .src n even
  | .sca r => useS xs pos r .src
  | .imm _ => []

def useBase (xs : Table (BitVec 16)) : Option SReg → List Use
  | some r => useS xs 1 r .src
  | none => []

/-- A and B of a vector memory access: the wide form of a global access names a pair (R284). -/
def useMem (xs : Table (BitVec 16)) (glob : Bool) (m : VMem) : List Use :=
  let wide := glob && m.a.isNone
  useBase xs m.a ++ useVSI xs 2 (if wide then 2 else 1) wide m.b

def useSMem (xs : Table (BitVec 16)) (m : SMem) : List Use := useBase xs m.a ++ useSS xs 2 m.b

def scalar3 (xs : Table (BitVec 16)) (d a : SReg) (b : SSrc) : List Use :=
  useS xs 0 d .dst ++ useS xs 1 a .src ++ useSS xs 2 b

/-- D, A and B of a typed vector instruction. -/
def vector3 (xs : Table (BitVec 16)) (ty : Ty) (h : How) (d a : VReg) (b : VSI) : List Use :=
  let n := if ty.is64 then 2 else 1
  useV xs 0 d h n ty.is64 ++ useV xs 1 a .src n ty.is64 ++ useVSI xs 2 n ty.is64 b

def vector2 (xs : Table (BitVec 16)) (ty : Ty) (d a : VReg) : List Use :=
  let n := if ty.is64 then 2 else 1
  useV xs 0 d .dst n ty.is64 ++ useV xs 1 a .src n ty.is64

def float3 (xs : Table (BitVec 16)) (h : How) (d a : VReg) (b : VS) : List Use :=
  useV xs 0 d h ++ useV xs 1 a .src ++ useVS xs 2 b

def float2 (xs : Table (BitVec 16)) (d a : VReg) : List Use := useV xs 0 d .dst ++ useV xs 1 a .src

def dataV (xs : Table (BitVec 16)) (sz : Size) (h : How) (d : VReg) : List Use :=
  useV xs 0 d h (if sz = .s64 then 2 else 1) (sz = .s64)

/-- Registers of a type's value. -/
def tyRegs (ty : Ty) : Nat := if ty.is64 then 2 else 1

/-- The vector and scalar registers that an instruction reads and writes, named under the index values `xs`; the rows
not listed name none. -/
def usesOf (xs : Table (BitVec 16)) : Instr → List Use
  | .brz _ d _ | .brnz _ d _ => useS xs 0 d .src
  | .brx _ a | .callx _ _ _ a => useS xs 1 a .src
  | .pass _ a => useSS xs 1 a
  | .sadd _ _ d a b | .ssub _ _ d a b | .smul _ _ d a b | .smulh _ _ d a b | .sdiv _ _ d a b | .srem _ _ d a b
  | .sand _ _ d a b | .sor _ _ d a b | .sxor _ _ d a b | .sshl _ _ d a b | .sshr _ _ d a b | .ssar _ _ d a b
  | .smin _ _ d a b | .smax _ _ d a b | .scmp _ _ _ d a b | .ssel _ _ _ d a b | .sbfx _ _ d a b
  | .slea _ _ d a b => scalar3 xs d a b
  | .sbfi _ _ d a b => useS xs 0 d .upd ++ useS xs 1 a .src ++ useSS xs 2 b
  | .smov _ _ d a =>
    (match d with | .sca r => useS xs 0 r .dst | .idx _ => []) ++ (match a with | .sca r => useS xs 1 r .src | _ => [])
  | .smovi _ _ d _ => useS xs 0 d .dst
  | .smovh _ _ d _ => useS xs 0 d .upd
  | .spopc _ _ d a | .sclz _ _ d a | .sffs _ _ d a => useS xs 0 d .dst ++ useS xs 1 a .src
  | .pmov _ _ a => match a with | .sca r => useS xs 1 r .src | .pred _ => []
  | .vadd _ ty d a b | .vsub _ ty d a b | .vmul _ ty d a b | .vmulh _ ty d a b | .vmin _ ty d a b | .vmax _ ty d a b
  | .vand _ ty d a b | .vor _ ty d a b | .vxor _ ty d a b | .vshl _ ty d a b | .vshr _ ty d a b | .vsar _ ty d a b
  | .vsadd _ ty d a b | .vbfx _ ty d a b | .vsel _ ty _ d a b => vector3 xs ty .dst d a b
  | .vmad _ ty d a b | .vbfi _ ty d a b => vector3 xs ty .upd d a b
  | .vabs _ ty d a | .vpopc _ ty d a | .vclz _ ty d a | .vred _ ty _ d a | .vscan _ ty _ d a => vector2 xs ty d a
  | .vcmp _ ty _ _ a b => useV xs 1 a .src (tyRegs ty) ty.is64 ++ useVSI xs 2 (tyRegs ty) ty.is64 b
  | .vmov _ ty d a =>
    useV xs 0 d .dst (tyRegs ty) ty.is64 ++
      (match a with
        | .vec r => useV xs 1 r .src (tyRegs ty) ty.is64
        | .sca r => useS xs 1 r .src
        | .spr _ | .imm _ => [])
  | .vmovi _ ty d _ => useV xs 0 d .dst (tyRegs ty) ty.is64
  | .fadd _ _ d a b | .fsub _ _ d a b | .fmul _ _ d a b | .fmin _ _ d a b | .fmax _ _ d a b | .fdiv _ _ d a b
  | .hadd _ _ _ d a b | .hmul _ _ _ d a b => float3 xs .dst d a b
  | .ffma _ _ d a b | .hfma _ _ _ d a b => float3 xs .upd d a b
  | .fsqrt _ _ d a | .frcp _ _ d a | .frsq _ _ d a | .fex2 _ _ d a | .flg2 _ _ d a | .fsin _ _ d a | .fcos _ _ d a
  | .frnd _ _ d a => float2 xs d a
  | .fcmp _ _ _ a b => useV xs 1 a .src ++ useVS xs 2 b
  | .cvt _ dty sty _ _ d a =>
    useV xs 0 d .dst (tyRegs dty) dty.is64 ++ useV xs 1 a .src (tyRegs sty) sty.is64
  | .cvtp _ dst _ _ _ d a => useV xs 0 d .dst ++ useV xs 1 a .src dst.perWord
  | .dqcvt _ _ src _ len _ _ d a =>
    useV xs 0 d .dst src.perWord ++ useV xs 1 a .src (if len = .none then 1 else 2)
  | .qscl _ dst _ _ d a => useV xs 0 d .dst ++ useV xs 1 a .src dst.perWord
  | .qcvt _ dst _ _ _ d a => useV xs 0 d .dst ++ useV xs 1 a .src (dst.perWord + 1)
  | .qcmp _ _ d a => useV xs 0 d .dst ++ useV xs 1 a .src 4
  | .vperm _ ty d a b | .vbcast _ ty d a b => vector2 xs ty d a ++ useVSI xs 2 1 false b
  | .ldl _ sz d m | .ldw _ sz d m => dataV xs sz .load d ++ useMem xs false m
  | .ldg _ sz _ _ d m => dataV xs sz .load d ++ useMem xs true m
  | .stl _ sz _ _ d m | .stla _ sz _ d m => dataV xs sz .src d ++ useMem xs false m
  | .stg _ sz _ _ d m | .stga _ sz _ d m => dataV xs sz .src d ++ useMem xs true m
  | .sldl _ _ d m | .sldg _ _ _ _ d m => useS xs 0 d .load ++ useSMem xs m
  | .sstl _ _ _ _ d m | .sstg _ _ _ _ d m => useS xs 0 d .src ++ useSMem xs m
  | .pfg _ m | .pgreq _ m => useMem xs true m
  | .cpy _ _ _ _ d | .cpym _ _ _ _ d | .gth _ _ _ _ d | .sct _ _ _ d | .cpyw _ _ d | .btst _ _ d | .btdem _ d
  | .btpro _ d => useS xs 0 d .src
  | .land _ d a b => useSS xs 0 d ++ useSS xs 1 a ++ useSS xs 2 b
  | .mma _ _ _ a b => useS xs 1 a .src 3 ++ useSS xs 2 b
  | .mmq _ _ _ a b => useV xs 1 a .src 4 true ++ useS xs 2 b .src 2
  | .mlda _ _ _ a | .mdrn _ _ _ _ _ a => useS xs 1 a .src
  | .ctld _ d a => useSS xs 0 d ++ useS xs 1 a .src
  | .spawn _ fwd _ a b => useS xs 1 a .src ++ useV xs 2 b .src (if fwd then 2 else 1) fwd
  | .lnch _ a => useS xs 1 a .src 2
  | .mbxrd _ d a => useS xs 0 d .load 8 ++ useSS xs 1 a
  | .mbxwr _ a b => useS xs 1 a .src 8 ++ useS xs 2 b .src
  | .rdsr _ d _ => useS xs 0 d .dst
  | .wrsr _ _ a => useSS xs 1 a
  | .rdcnt _ d a => useS xs 0 d .dst ++ useSS xs 1 a
  | .qtopo _ d _ b => useS xs 0 d .load ++ useSS xs 2 b
  | .tlbinv _ _ _ _ a b => useS xs 1 a .src ++ useSS xs 2 b
  | .ctxsv _ a | .ctxld _ a => useS xs 1 a .src
  | _ => []

/-- An instruction that takes a scoreboard entry (R110, R112). -/
def isAsync : Instr → Bool
  | .cpy _ _ _ _ _ | .cpym _ _ _ _ _ | .land _ _ _ _ | .gth _ _ _ _ _ | .sct _ _ _ _ | .cpyw _ _ _ | .btst _ _ _
  | .btdem _ _ | .btpro _ _ | .mma _ _ _ _ _ | .mmq _ _ _ _ _ | .mlda _ _ _ _ | .mdrn _ _ _ _ _ _ | .ctld _ _ _ => true
  | _ => false

/-- An operation with a local read range (R110, R112, R313, R323, R326). -/
def readsLocal : Instr → Bool
  | .land _ _ _ _ | .mdrn _ _ _ _ _ _ => false
  | i => isAsync i

/-- An instruction that enters the matrix queue (R183, R326, R363). -/
def isMatrix : Instr → Bool
  | .mma _ _ _ _ _ | .mmq _ _ _ _ _ | .mzero _ _ _ | .mlda _ _ _ _ | .mdrn _ _ _ _ _ _ | .ctld _ _ _ => true
  | _ => false

/-- The name stands in its window (R58, R282). -/
def Group.inWindow (g : Group) (u : Use) : Bool :=
  match u.num with
  | none => false
  | some n => if u.vec then decide (n < g.winV) else decide (n < g.winS)

/-- The physical register of a use; only asked of names in the window. -/
def Group.physOf (g : Group) (u : Use) : Nat :=
  let n := u.num.getD 0
  if u.vec then g.physV n else g.physS n

/-- The register of a use is empty (R48). -/
def Group.isEmpty (g : Group) (u : Use) : Bool :=
  if u.vec then g.r.ve.contains (g.physOf u) else g.r.se.contains (g.physOf u)

/-! ## Reading and writing registers -/

/-- A lane of a named vector register (R37, R58). -/
def Group.getV (g : Group) (n lane : Nat) : Lane := tget 0 g.r.v (32 * g.physV n + lane)

/-- Writes a lane of a named vector register. -/
def Group.setV (g : Group) (n lane : Nat) (x : Lane) : Group :=
  { g with r := { g.r with v := tput 0 g.r.v (32 * g.physV n + lane) x } }

/-- A named scalar register. -/
def Group.getS (g : Group) (n : Nat) : Word := tget 0 g.r.s (g.physS n)

/-- Writes a named scalar register. -/
def Group.setS (g : Group) (n : Nat) (x : Word) : Group :=
  { g with r := { g.r with s := tput 0 g.r.s (g.physS n) x } }

/-- A predicate register; p0 reads as all ones (R40, R281). -/
def Group.getP (g : Group) (n : Nat) : Mask := if n = 0 then 0xFFFFFFFF else tget 0 g.r.p n

/-- Writes a predicate register; a write to p0 is discarded (R281). -/
def Group.setP (g : Group) (n : Nat) (x : Mask) : Group :=
  if n = 0 then g else { g with r := { g.r with p := tput 0 g.r.p n x } }

/-- An index register (R37). -/
def Group.getX (g : Group) (n : Nat) : BitVec 16 := tget 0 g.r.x n

def Group.setX (g : Group) (n : Nat) (x : BitVec 16) : Group :=
  { g with r := { g.r with x := tput 0 g.r.x n x } }

/-- A pair as one 64-bit value, the low half first (R284, R286). -/
def Group.getV64 (g : Group) (n lane : Nat) : Word := g.getV (n + 1) lane ++ g.getV n lane

def Group.setV64 (g : Group) (n lane : Nat) (x : Word) : Group :=
  (g.setV n lane (x.extractLsb' 0 32)).setV (n + 1) lane (x.extractLsb' 32 32)

/-- Writes a value in each lane of a mask, every lane computed from the state before (R341, R420). -/
def Group.writeLanes (g : Group) (n : Nat) (act : Mask) (f : Nat → Lane) : Group :=
  (lanesOf act).foldl (fun g' l => g'.setV n l (f l)) g

def Group.writeLanes64 (g : Group) (n : Nat) (act : Mask) (f : Nat → Word) : Group :=
  (lanesOf act).foldl (fun g' l => g'.setV64 n l (f l)) g

/-- The guard value: pN, its complement, or all ones (R39). -/
def Group.guard (g : Group) (c : Ctl) : Mask :=
  let p := g.getP c.gpred.toNat
  if c.ginv then ~~~p else p

/-- The active lanes of an instruction (R39, R211). -/
def Group.active (g : Group) (c : Ctl) : Mask :=
  g.guard c &&& g.r.live &&& g.r.replay.getD 0xFFFFFFFF

/-- The WID of a lane (R30, R63): the group's lane-0 WID plus the lane number. -/
def Group.widOf (g : Group) (l : Nat) : Word := g.gwid + BitVec.ofNat 64 l

/-- An immediate, sign-extended. -/
def immW (i : BitVec 14) : Word := i.signExtend 64

end Sys2Proof.Machine
end

