-- ==== Sys2Proof/Machine/Flags.lean ====
section
/-! DEFINITION. What the machine has for flags: compare conditions (R288) and the predicates that compares, loads and SPAWN
write (R39, R212, R407). -/

namespace Sys2Proof.Machine

/-- How two values compare. -/
inductive Cmp where
  | lt
  | eq
  | gt
  | unordered
  deriving DecidableEq, Repr

/-- Signed or unsigned comparison. -/
def cmpInt (x y : Int) : Cmp := if x < y then .lt else if x = y then .eq else .gt

/-- A condition holds of a comparison (R288). Conditions 0 to 5 are false on an unordered pair but for NE. -/
def condHolds (c : Cond) (r : Cmp) : Bool :=
  match c with
  | .eq => r == .eq
  | .ne => r != .eq
  | .lt => r == .lt
  | .le => r == .lt || r == .eq
  | .gt => r == .gt
  | .ge => r == .gt || r == .eq
  | .ord => r != .unordered
  | .uno => r == .unordered
  | .ueq => r == .eq || r == .unordered
  | .ult => r == .lt || r == .unordered
  | .ule => r != .gt
  | .ugt => r == .gt || r == .unordered
  | .uge => r != .lt

/-- The type is signed (R286). -/
def tySigned : Ty → Bool
  | .i32 | .i64 | .i16x2 | .i8 | .i16 => true
  | _ => false

/-- A 64-bit word's low 32 or all 64 bits as a number, signed or unsigned by type. -/
def tyInt (ty : Ty) (x : Word) : Int :=
  if ty.is64 then (if tySigned ty then x.toInt else (x.toNat : Int))
  else
    let y := x.extractLsb' 0 32
    if tySigned ty then y.toInt else (y.toNat : Int)

/-- A compare writes all 32 bits: one in each active lane where the condition holds, zero elsewhere (R39). -/
def compareMask (act : Mask) (f : Nat → Bool) : Mask := maskOf (fun l => bitOf act l && f l)

/-- The residency flag of a vector load: active lanes are written, inactive lanes keep their bits (R212). -/
def residencyMask (old act : Mask) (missing : Nat → Bool) : Mask := (old &&& ~~~act) ||| compareMask act missing

end Sys2Proof.Machine
end

