-- ==== Sys2Proof/Machine/Ops.lean ====
section
/-! DEFINITION. The operations every instruction shares: spilling and refilling (R60), taking a trap (R226 to R232) and
returning from one (R386), the end of a run with its crossings (R41, R54, R239), and the issue of an instruction with its checks
in the order of R279. -/

namespace Sys2Proof.Machine

abbrev Out := Host.Outcome State Fault Refusal

/-! ## Spill and refill (R60, R226, R305, R320, R385) -/

/-- Physical registers that enter the window when it slides by `n`: the last `n` names of the new window. `a` is the
allotment, `w` the window's names, `b` the base before the slide. -/
def entering (a w b n : Nat) : List Nat := (List.range (min n a)).map (fun k => (b + w + k) % a)

/-- A physical register belongs to a frame older than the callee: within `depth` registers below the base or in the slide. -/
def older (a b n depth r : Nat) : Bool := decide ((r + 2 * a - (b + 2 * a - min depth a) % a) % a < min depth a + n)

/-- The units that a slide spills, by their first register, ascending from the unit of the base (R60, R385). -/
def spillSet (a w b n depth : Nat) : List Nat :=
  let es := (entering a w b n).filter (older a b n depth)
  ((List.range (a / 8)).map (fun j => 8 * ((b / 8 + j) % (a / 8)))).filter (fun u => es.any (fun r => r / 8 * 8 == u))

/-- The units a slide of the group's windows spills: vector and scalar. -/
def Group.spillSets (g : Group) (nv ns : Nat) : List Nat × List Nat :=
  (spillSet g.va g.winV g.r.wbv nv g.r.vDepth, spillSet g.sa g.winS g.r.wbs ns g.r.sDepth)

/-- Bytes of a list of vector units and a list of scalar units (R60). -/
def spillBytes (us : List Nat × List Nat) : Nat := 1024 * us.1.length + 64 * us.2.length

/-- Writes a vector unit at `at_`: register by register, each lane by lane. -/
def putVUnit (mem : Table Byte) (v : Table Lane) (u at_ : Nat) : Table Byte :=
  (tslice v (32 * u) (32 * (u + 8))).reverse.foldl (fun m e => wr32 m (at_ + 4 * (e.1 - 32 * u)) e.2) (tcut mem at_ (at_ + 1024))

/-- Writes a scalar unit at `at_`. -/
def putSUnit (mem : Table Byte) (x : Table Word) (u at_ : Nat) : Table Byte :=
  (tslice x u (u + 8)).reverse.foldl (fun m e => wr64 m (at_ + 8 * (e.1 - u)) e.2) (tcut mem at_ (at_ + 64))

/-- Writes the units of a slide one after another from `at_`, vector units first (R385). -/
def putUnits (mem : Table Byte) (r : Regs) (us : List Nat × List Nat) (at_ : Nat) : Table Byte :=
  let m1 := us.1.zipIdx.foldl (fun m e => putVUnit m r.v e.1 (at_ + 1024 * e.2)) mem
  us.2.zipIdx.foldl (fun m e => putSUnit m r.s e.1 (at_ + 1024 * us.1.length + 64 * e.2)) m1

/-- Reads one vector register of a unit back. -/
def getVReg (mem : Table Byte) (v : Table Lane) (reg at_ : Nat) : Table Lane :=
  lanes.foldl (fun v l => tput 0 v (32 * reg + l) (rd32 mem (at_ + 4 * l))) v

/-- Which unit of a refill holds physical register `r`: aligned units ascend, modulo the allotment, from the one that holds `b` (R385). -/
def unitOf (a b r : Nat) : Nat := (r / 8 + a / 8 - b / 8) % (a / 8)

/-- The physical registers that a refill of `k` units writes among `b` to `b + n − 1`, modulo the allotment (R385). -/
def refilled (a b n k : Nat) : List Nat :=
  ((List.range (min n a)).map (fun i => (b + i) % a)).filter (fun r => decide (unitOf a b r < k))

/-- Refills the vector registers `b` to `b + n − 1` from `k` units at `at_` (R385). -/
def refillV (mem : Table Byte) (v : Table Lane) (a b n k at_ : Nat) : Table Lane :=
  (refilled a b n k).foldl (fun v r => getVReg mem v r (at_ + 1024 * unitOf a b r + 128 * (r % 8))) v

/-- Refills the scalar registers `b` to `b + n − 1` from `k` units at `at_` (R385). -/
def refillS (mem : Table Byte) (x : Table Word) (a b n k at_ : Nat) : Table Word :=
  (refilled a b n k).foldl (fun x r => tput 0 x r (rd64 mem (at_ + 64 * unitOf a b r + 8 * (r % 8)))) x

/-- Slides the windows up (R59). -/
def Group.slide (g : Group) (nv ns : Nat) : Group :=
  { g with
    r := { g.r with
      wbv := (g.r.wbv + nv) % g.va
      wbs := (g.r.wbs + ns) % g.sa
      vDepth := g.r.vDepth + nv
      sDepth := g.r.sDepth + ns } }

/-! ## Taking a trap -/

/-- What a trap reports (R229, R231). -/
structure TrapInfo where
  cause : Nat
  addr : Word := 0
  lanes : Mask := 0
  /-- `%xstep`; the group's global step when none is given (R229). -/
  step : Option Word := none
  prog : Word := 0
  info : Word := 0
  /-- TRAP resumes after itself (R417). -/
  past : Bool := false
  deferred : Bool := false
  mop : Option Nat := none
  deriving DecidableEq, Repr

namespace State

/-- The trap vector of the launch's header is not zero (R228). -/
def hasHandler (s : State) (g : Group) : Bool :=
  match g.launch with
  | none => true
  | some l =>
    match s.launch? l with
    | none => true
    | some x => fieldN x.hdr 24 8 != 0

/-- A double trap, or a trap without a handler: no handler runs, the black box records it and the launch is terminated
(R227, R228). A dispatcher has no launch: its run ends. -/
def fatalTrap (s : State) (gid : Nat) (g : Group) (pc : Word) (cause reason : Nat) : State :=
  let k := (s.blockOf g).core
  let s1 := s.bboxAdd (coreDie k) ⟨pc, BitVec.ofNat 32 cause, BitVec.ofNat 16 (coreIdx k), 0x0B, 0⟩
  match g.launch with
  | some l => s1.terminate l reason
  | none => (s1.freeSlot k gid).setGroup gid { g with run := none }

/-- The registers of step 2 of R226. -/
def Regs.report (r : Regs) (t : TrapInfo) (pc : Word) (head : Bool) : Regs :=
  { r with
    xcause := BitVec.ofNat 9 (t.cause + if t.deferred then 256 else 0)
    xpc := pc
    xaddr := t.addr
    xlanes := t.lanes
    xstep := t.step.getD (BitVec.ofNat 64 r.gstep)
    xprog := t.prog
    xinfo := t.info
    xhead := head }

/-- Consumed poison is recorded and reported (R245, R247). -/
def poisonUsed (s : State) (g : Group) (addr : Word) : State :=
  let k := (s.blockOf g).core
  let id : BitVec 32 := ((g.launch.bind s.launch?).map (fun l => l.ident)).getD 0
  (s.bboxAdd (coreDie k) ⟨addr, id, BitVec.ofNat 16 (coreIdx k), 0x05, 2⟩).report .nonFatal (coreDie k)

/-- Taking a trap (R226): the run is abandoned, the trap registers are written, the windows slide by 8 and 8 with units
spilled, and the group continues at system level at `%xvec`, a run head. A group at system level, or one whose spill area
would overflow, takes a double trap (R227); without a handler the launch ends (R228). `head` is the record of R45. -/
def enterTrap (s0 : State) (gid : Nat) (g : Group) (t : TrapInfo) (pc : Word) (head : Bool) : State :=
  let s := if t.cause = 0x14 ∧ !t.deferred then s0.poisonUsed g t.addr else s0
  if g.r.sys && !t.deferred then s.fatalTrap gid g pc t.cause 1
  else if !s.hasHandler g then s.fatalTrap gid g pc t.cause 2
  else
    let us := g.spillSets 8 8
    let base := g.r.spill.toNat
    if g.spillEnd < base + spillBytes us then s.fatalTrap gid g pc t.cause 1
    else
      let ev := entering g.va g.winV g.r.wbv 8
      let es := entering g.sa g.winS g.r.wbs 8
      let vUnits := us.1.zipIdx.map (fun e => SpillUnit.mk true e.1 (base + 1024 * e.2)
        ((g.r.ve.filter (fun r => r / 8 * 8 == e.1)).filter ev.contains))
      let sUnits := us.2.zipIdx.map (fun e => SpillUnit.mk false e.1 (base + 1024 * us.1.length + 64 * e.2)
        ((g.r.se.filter (fun r => r / 8 * 8 == e.1)).filter es.contains))
      let units := vUnits ++ sUnits
      let goneV := vUnits.flatMap (fun u => u.empty)
      let goneS := sUnits.flatMap (fun u => u.empty)
      let sp := BitVec.ofNat 64 (base + spillBytes us)
      let r1 := Regs.report g.r t pc head
      let fr : TrapFrame :=
        { wbv := g.r.wbv, wbs := g.r.wbs, spill := sp, units := units, vDepth := g.r.vDepth, sDepth := g.r.sDepth,
          replay := g.r.replay, mop := t.mop }
      let r2 : Regs :=
        { r1 with
          ve := g.r.ve.filter (fun r => !goneV.contains r)
          se := g.r.se.filter (fun r => !goneS.contains r)
          spill := sp
          sys := true
          pc := g.r.xvec
          head := true
          replay := none
          frame := some fr }
      let s1 := s.modBlock g.blk (fun b => { b with mem := putUnits b.mem g.r us base })
      let s2 := s1.freeSlot (s.blockOf g).core gid
      s2.setGroup gid (({ g with r := r2, run := none } : Group).slide 8 8)

/-- A synchronous trap of the instruction at the group's pc (R230). With no live lane none is raised, and the group retires
at that instruction (R41). -/
def syncTrap (s : State) (gid : Nat) (t : TrapInfo) : State :=
  match s.group? gid with
  | none => s
  | some g =>
    if g.r.live = 0 then s.retire gid
    else
      let first := ((g.run.map (fun r => r.count)).getD 0 == 0) && !t.past
      s.enterTrap gid g t (if t.past then g.r.pc + 12 else g.r.pc) first

/-- Puts a trap where a group will take it (R230, R232). -/
def notify (s : State) (gid : Nat) (n : Notice) : State :=
  let s1 := match s.group? gid with
    | some g => if n.cause = 0x14 then s.poisonUsed g n.addr else s
    | none => s
  s1.modAnyGroup gid (fun g => if g.retired then g else { g with notices := g.notices ++ [n] })

/-- The notice that comes first: lowest cause code, then lowest step (R232); `now` is the step of a notice that names none. -/
def firstNotice (now : Word) (l : List Notice) : Option Notice :=
  l.foldl (fun acc n =>
    match acc with
    | none => some n
    | some m => if n.cause < m.cause ∨ (n.cause = m.cause ∧ (n.step.getD now).toNat < (m.step.getD now).toNat) then some n else some m) none

/-- The notices that a group can take now: none at system level, all of them at a run boundary, step overruns and debug
stops at any instruction boundary (R230, R232). -/
def takeable (g : Group) : List Notice :=
  if g.r.sys || g.retired then []
  else if g.run.isNone then g.notices
  else g.notices.filter (fun n => n.kind != .deferred)

/-- Takes the notice that comes first (R230, R232). The record of R45 is set when the group waits for a grant. -/
def takeNotice (s : State) (gid : Nat) (g : Group) : State :=
  match firstNotice (BitVec.ofNat 64 g.r.gstep) (takeable g) with
  | none => s
  | some n =>
    let g1 : Group := { g with notices := g.notices.erase n, taken := (s.seq, n) :: g.taken }
    s.enterTrap gid g1
      { cause := n.cause, addr := n.addr, step := n.step, prog := n.prog, info := n.info,
        deferred := n.kind == .deferred, mop := n.mop } g.r.pc g.run.isNone

/-! ## Returning from a trap -/

/-- The registers that a trap's units give back (R226): values from the spill area, bits from the trap state. -/
def refillUnit (mem : Table Byte) (own : List Nat) (r : Regs) (u : SpillUnit) : Regs :=
  (List.range 8).foldl (fun r i =>
    let n := u.first + i
    if !own.contains n then r
    else if u.vec then
      { r with
        v := getVReg mem r.v n (u.at_ + 128 * i)
        ve := if u.empty.contains n then addTo n r.ve else r.ve.filter (· != n) }
    else
      { r with
        s := tput 0 r.s n (rd64 mem (u.at_ + 8 * i))
        se := if u.empty.contains n then addTo n r.se else r.se.filter (· != n) }) r

/-- A stopped matrix instruction that the trap reported continues from `%xprog`, its later fetches tagged with the group's
step (R186, R188). -/
def resumeMatrix (s : State) (r : Regs) (mop : Option Nat) : State :=
  match mop with
  | none => s
  | some o => { s with ops := tmod s.ops o (fun op =>
      if op.st = .stopped then { op with st := .running, prog := r.xprog.toNat, gstep := r.gstep, lag := r.lag.toNat }
      else op) }

/-- Returning from a trap (R386): windows, `%spill` and the spilled units as they were, program level, and `%xpc` as the
resume point under R45, where the lanes of `%xlanes` are replayed (R211). -/
def returnTrap (s : State) (gid : Nat) (g : Group) : State :=
  let mem := (s.blockOf g).mem
  let r0 : Regs :=
    match g.r.frame with
    | none => g.r
    | some f =>
      let own (vec : Bool) : List Nat :=
        if vec then entering g.va g.winV f.wbv 8 else entering g.sa g.winS f.wbs 8
      let r1 := f.units.foldl (fun r u => refillUnit mem (own u.vec) r u) g.r
      { r1 with
        wbv := f.wbv
        wbs := f.wbs
        vDepth := f.vDepth
        sDepth := f.sDepth
        spill := f.spill - BitVec.ofNat 64
          (1024 * (f.units.filter (fun u => u.vec)).length + 64 * (f.units.filter (fun u => !u.vec)).length)
        frame := none }
  let r2 : Regs :=
    { r0 with
      sys := false
      pc := g.r.xpc
      head := g.r.xhead
      replay := if g.r.xlanes = 0 then (g.r.frame.bind (fun f => f.replay)) else some g.r.xlanes }
  (s.setGroup gid { g with r := r2 }).resumeMatrix g.r (g.r.frame.bind (fun f => f.mop))

/-! ## The end of a run -/

/-- Crosses one boundary (R54): the block notes it, and the horizon learns of a global one after the hold window (R239). -/
def crossOne (s : State) (gid : Nat) (glob : Bool) : State :=
  match s.group? gid with
  | none => s
  | some g =>
    let now := s.cycle (coreDie (s.blockOf g).core)
    let r := { g.r with lstep := g.r.lstep + 1, gstep := if glob then g.r.gstep + 1 else g.r.gstep }
    let g1 := { g with r := r, heldX := if glob then g.heldX ++ [(g.r.gstep, now)] else g.heldX }
    (s.noteCross g.blk g.r.lstep).setGroup gid g1

def crossN (s : State) (gid : Nat) (glob : Bool) : Nat → State
  | 0 => s
  | n + 1 => (s.crossOne gid glob).crossN gid glob n

/-- The shadow of a group as it stands (R240). -/
def shadowOf (s : State) (g : Group) : Shadow :=
  let b := s.blockOf g
  let c := s.core b.core
  { cycle := s.cycle (coreDie b.core)
    r := g.r
    cells := g.planes.flatMap (fun p => tslice c.cells (1024 * p) (1024 * (p + 1)))
    fmode := c.fmode
    ovf := c.ovf.filter (fun e => g.planes.contains e.plane)
    area := tslice b.mem g.spillBase g.spillEnd
    seq := s.seq }

/-- Keeps every shadow that an alarm can still ask for: those of the last 96 cycles and the latest before them (R240). -/
def keepShadows (now : Nat) : List Shadow → List Shadow
  | [] => []
  | x :: xs => if x.cycle + Config.strikeReport ≤ now then [x] else x :: keepShadows now xs

/-- Takes a shadow at a local boundary; the latest stands first (R240). -/
def pushShadow (s : State) (gid : Nat) : State :=
  match s.group? gid with
  | none => s
  | some g =>
    let x := s.shadowOf g
    let kept := keepShadows x.cycle g.shadows
    let first := ((kept.getLast?).map (fun h => h.seq)).getD x.seq
    s.setGroup gid { g with
      shadows := x :: kept
      taken := g.taken.filter (fun e => decide (first ≤ e.1))
      sent := g.sent.filter (fun e => decide (first < e.seq)) }

/-- Leaves the launch's horizon for good (R65, R338); a detached group's DETACH does nothing. -/
def leaveHorizon (s : State) (gid : Nat) : State :=
  match s.group? gid with
  | none => s
  | some g => if g.r.detached then s else (s.noteFinal g).modGroup gid (fun g => { g with r := { g.r with detached := true } })

end State

/-- Where a group goes after an instruction. -/
inductive Next where
  | seq
  | jump (pc : Word)
  | rett
  | detach
  /-- PASS with an active lane crosses this many boundaries (R370). -/
  | pass (n : Nat)
  /-- TLBINV's run crosses its boundary when the invalidation has completed (R416). -/
  | later
  deriving DecidableEq, Repr

namespace State

/-- The yield mark of R52. -/
def markYield (s : State) (k gid : Nat) (y : Bool) : State :=
  s.modCore k (fun c => { c with yields := if y then addTo gid c.yields else c.yields.filter (· != gid) })

/-- The end of a run (R41, R43, R53, R54): boundaries are crossed, then the group retires, detaches or returns from its
trap; the slot is free, and the next instruction is a run head. -/
def endRun (s : State) (gid : Nat) (c : Ctl) (n : Next) : State :=
  match s.group? gid with
  | none => s
  | some g =>
    let k := (s.blockOf g).core
    let g1 : Group := { g with run := none, r := { g.r with head := true } }
    let s1 := ((s.setGroup gid g1).freeSlot k gid).markYield k gid c.y
    let crossings := match n with | .pass m => m | .later => 0 | _ => if c.l then 1 else 0
    let s2 := s1.crossN gid c.g crossings
    match s2.group? gid with
    | none => s2
    | some g2 =>
      if g2.r.live = 0 then s2.retire gid
      else
        let s3 := match n with
          | .rett => s2.returnTrap gid g2
          | .detach => s2.leaveHorizon gid
          | _ => s2
        match n with
        | .later => s3
        | _ => if c.l then s3.pushShadow gid else s3

end State

/-! ## Issue -/

/-- What a meaning works on. -/
structure Ctx where
  s : State
  gid : Nat
  g : Group
  run : Run
  c : Ctl
  act : Mask

/-- What a meaning answers: the state with its effect, where the group goes and the cycles its slot is held beyond those of its
entry; a trap, with the state that the effect of good lanes leaves (R209); or a wait in its slot, with nothing done (R436). -/
inductive Res where
  | ok (s : State) (n : Next) (extra : Nat)
  | trap (s : State) (t : TrapInfo)
  | wait

/-- An effect on the group alone. -/
def Ctx.done (x : Ctx) (g : Group) : Res := .ok (x.s.setGroup x.gid g) .seq 0

/-- A trap that leaves everything as it was. -/
def Ctx.fail (x : Ctx) (t : TrapInfo) : Res := .trap x.s t

/-- A run that has just been granted with nothing reserved. -/
def Run.fresh (xs : Table (BitVec 16)) : Run := ⟨0, 0, xs, [], [], [], 0, 0, 0xFFFFFFFF, none⟩

/-- The run that an instruction belongs to. -/
def Group.runNow (g : Group) : Run := g.run.getD (Run.fresh g.r.x)

/-- Special registers that WRSR writes at program level and at system level (R427). -/
def Special.writable (sys : Bool) : Special → Bool
  | .lag => true
  | .lfm | .nrs | .xcause | .xpc | .xaddr | .xlanes | .xstep | .xprog | .xinfo | .xvec | .wbv | .wbs | .spill
  | .accst => sys
  | _ => false

/-- An instruction that the level does not allow (R225, R427). -/
def forbidden (sys : Bool) : Instr → Bool
  | .rett _ | .cpyw _ _ _ | .lnch _ _ | .mbxrd _ _ _ | .tlbinv _ _ _ _ _ _ | .ctxsv _ _ | .ctxld _ _ => !sys
  | .wrsr _ d _ => !Special.writable sys d
  | _ => false

/-- The empty policy of an operand's field: true is trapping (R49). -/
def Ctl.trapping (c : Ctl) (pos : Nat) : Bool := if pos = 0 then c.ed else if pos = 1 then c.ea else c.eb

/-- An operand whose register an earlier instruction of the run made empty, or whose index it wrote (R50, R404). -/
def hazard (g : Group) (run : Run) (c : Ctl) (u : Use) : Bool :=
  let mk := if u.vec then run.mkv.contains (g.physOf u) else run.mks.contains (g.physOf u)
  (mk && (u.wr || !Ctl.trapping c u.pos)) || (u.x.map run.mkx.contains).getD false

/-- A register of a quantisation's run lies outside 0 to 127 (R375). -/
def runOut (i : Instr) (us : List Use) : Bool :=
  match i with
  | .qscl _ _ _ _ _ _ | .qcvt _ _ _ _ _ _ _ | .qcmp _ _ _ _ =>
    us.any (fun u => u.pos == 1 && (u.num.map (fun n => decide (127 < n))).getD true)
  | _ => false

/-- Checks 3 to 7 of R279 that need the state, and the check of R65 on a detached group's G flag. -/
def checkIssue (g : Group) (run : Run) (c : Ctl) (i : Instr) : Option TrapInfo :=
  let us := usesOf run.xs i
  if us.any (fun u => u.even && (u.num.map (fun n => n % 2 == 1)).getD false) || runOut i us then some { cause := 0x02 }
  else if forbidden g.r.sys i then some { cause := 0x07 }
  else
    match us.find? (fun u => !g.inWindow u) with
    | some u => some { cause := 0x03, info := BitVec.ofNat 64 u.pos }
    | none =>
      match us.find? (hazard g run c) with
      | some u => some { cause := 0x05, info := BitVec.ofNat 64 u.pos }
      | none =>
        match us.find? (fun u => u.rd && !u.wr && Ctl.trapping c u.pos && g.isEmpty u) with
        | some u => some { cause := 0x06, info := BitVec.ofNat 64 u.pos }
        | none => if c.g && g.r.detached then some { cause := 0x12, info := 1 } else none

/-- A register that the run's grant should have found full is empty: the instruction waits in its slot. -/
def mustWait (g : Group) (run : Run) (i : Instr) (c : Ctl) : Bool :=
  (usesOf run.xs i).any (fun u => g.isEmpty u && (u.wr || (u.rd && !Ctl.trapping c u.pos)))

/-- The index register that an instruction writes (R404). -/
def writesX : Instr → List Nat
  | .smov _ _ (.idx x) _ => [x.toNat]
  | _ => []

/-- Cycles for a type: `n` for 32-bit types, `m` for 64-bit types. -/
def cyc (ty : Ty) (n m : Nat) : Nat := if ty.is64 then m else n

/-- The cycles for which an instruction occupies its slot (R436 and the entries). -/
def slotCycles : Instr → Nat
  | .smul _ _ _ _ _ | .smulh _ _ _ _ _ => 2
  | .sdiv _ ty _ _ _ | .srem _ ty _ _ _ => cyc ty 12 20
  | .vadd _ ty _ _ _ | .vsub _ ty _ _ _ | .vmin _ ty _ _ _ | .vmax _ ty _ _ _ | .vabs _ ty _ _ | .vand _ ty _ _ _
  | .vor _ ty _ _ _ | .vxor _ ty _ _ _ | .vshl _ ty _ _ _ | .vshr _ ty _ _ _ | .vsar _ ty _ _ _ | .vsadd _ ty _ _ _
  | .vbfx _ ty _ _ _ | .vbfi _ ty _ _ _ | .vsel _ ty _ _ _ _ | .vcmp _ ty _ _ _ _ | .vpopc _ ty _ _
  | .vclz _ ty _ _ | .vmov _ ty _ _ | .vmovi _ ty _ _ => cyc ty 1 2
  | .vmul _ ty _ _ _ => cyc ty 1 4
  | .vmulh _ ty _ _ _ | .vmad _ ty _ _ _ => cyc ty 2 4
  | .vperm _ _ _ _ _ | .vbcast _ _ _ _ _ => 2
  | .vred _ ty _ _ _ | .vscan _ ty _ _ _ => if ty.float then 6 else 4
  | .qscl _ _ _ _ _ _ | .qcvt _ _ _ _ _ _ _ | .qcmp _ _ _ _ => 2
  | .fdiv _ _ _ _ _ | .fsqrt _ _ _ _ | .frcp _ _ _ _ | .frsq _ _ _ _ | .fex2 _ _ _ _ | .flg2 _ _ _ _ | .fsin _ _ _ _
  | .fcos _ _ _ _ => 4
  | .spawn _ _ _ _ _ => 4
  | _ => 1

/-- What an issued instruction leaves in its slot, its run and the group's pc, and the end of its run (R43, R50, R53). -/
def finish (s : State) (gid : Nat) (i : Instr) (c : Ctl) (act : Mask) (n : Next) (extra : Nat) : State :=
  match s.group? gid with
  | none => s
  | some g =>
    let k := (s.blockOf g).core
    let run := g.runNow
    let us := (usesOf run.xs i).filter (fun u => u.emp && g.inWindow u)
    let mkv := (us.filter (fun u => u.vec)).map g.physOf
    let mks := (us.filter (fun u => !u.vec)).map g.physOf
    let run1 : Run :=
      { run with
        count := run.count + 1, mkv := run.mkv ++ mkv, mks := run.mks ++ mks, mkx := run.mkx ++ writesX i,
        reserved := if isAsync i then run.reserved - 1 else run.reserved
        matrix := if isMatrix i then run.matrix - 1 else run.matrix }
    let pc := match n with | .jump t => t | _ => g.r.pc + 12
    let g1 : Group := { g with run := some run1, r := { g.r with pc := pc, head := false, replay := none } }
    let now := s.cycle (coreDie k)
    let upd (x : Slot) : Slot :=
      if x.group = some gid then
        { x with free := max now x.free + slotCycles i + extra, skip := false, act := act, rg := run.rg, live := g.r.live, last := some gid,
                 pc := g.r.pc, issued := now + 1 }
      else x
    let s1 := s.modCore k (fun q => { q with slot0 := upd q.slot0, slot1 := upd q.slot1 })
    let s2 := s1.setGroup gid g1
    if c.b then s2.endRun gid c n else s2

/-- Issues an instruction: the checks of R279 in their order, then, with an active lane or when its entry acts without one
(`always`), its body, then the end of the instruction. -/
def issue (i : Instr) (c : Ctl) (always : Bool) (body : Ctx → Res) (s : State) : Out :=
  match s.cur with
  | none => .fault .noGroup
  | some gid =>
    match s.group? gid with
    | none => .fault .noGroup
    | some g =>
      if g.retired then .fault .noGroup
      else
        let run := g.runNow
        match checkIssue g run c i with
        | some t => .next (s.syncTrap gid t)
        | none =>
          if mustWait g run i c then .next s
          else
            let act := g.active c
            let s0 := s.tickSeq
            if act = 0 ∧ !always then .next (finish s0 gid i c act .seq 0)
            else
              match body ⟨s0, gid, g, run, c, act⟩ with
              | .ok s1 n extra => .next (finish s1 gid i c act n extra)
              | .trap s1 t => .next (s1.syncTrap gid t)
              | .wait => .next s

end Sys2Proof.Machine
end

