-- ==== Sys2Proof/Machine/Access.lean ====
section
/-! DEFINITION. Global accesses: translation through the TLBs (R203, R204), the checks of R209 with the fields of R210, and the
fetch of an instruction's bytes (R209, R278). -/

namespace Sys2Proof.Machine

/-- The fields of %xinfo for causes 0x10 to 0x13 (R210). -/
structure Info where
  det : Bool := false
  wr : Bool := false
  stb : Bool := false
  ext : Bool := false
  bnd : Bool := false
  eng : Bool := false
  fet : Bool := false
  prv : Bool := false
  mal : Bool := false
  lvl : Nat := 0
  nst : Bool := false
  deriving DecidableEq, Repr

def Info.word (i : Info) : Word :=
  BitVec.ofNat 64 (i.det.toNat + 2 * i.wr.toNat + 4 * i.stb.toNat + 8 * i.ext.toNat + 16 * i.bnd.toNat + 32 * i.eng.toNat +
    64 * i.fet.toNat + 128 * i.prv.toNat + 256 * i.mal.toNat + 512 * (i.lvl % 4) + 2048 * i.nst.toNat)

/-- The page number of a canonical address (R197). -/
def pageOf (va : Word) : Nat := va.toNat % 2 ^ 55 / 65536

namespace State

/-- The guest context that a group's accesses carry; a dispatcher's carry the host's own tag (R203). -/
def tagOf (s : State) (g : Group) : Option Nat := (g.launch.bind s.launch?).map (fun l => l.guest)

/-- The partition of a core. -/
def partAt (s : State) (k : Nat) : Part := ((s.partOfDie (coreDie k)).bind s.part?).getD (Part.fresh 0 29 0 0 0)

/-- Looks a page up for a core: its TLB, its die's TLB, then a walk, which sets the A bit of every leaf it reaches, whether or not it
ends in a fault, and fills the TLBs (R200, R203). -/
def translate (s : State) (k : Nat) (tag : Option Nat) (page : Nat) : Except WalkFault Trans × State :=
  let c := s.core k
  let d := s.die (coreDie k)
  let r := lookup s.mem (s.partAt k) c.tlb d.tlb d.nested tag page
  match r with
  | .error f => (r, s.trailed f.trail)
  | .ok t =>
    let s1 := s.trailed t.trail
    if !t.res then (r, s1)
    else
      let s2 := if c.gated then s1 else s1.modCore k (fun c => { c with tlb := tlbFill 64 c.tlb t.e })
      let s3 := s2.modDie (coreDie k) (fun d =>
        { d with tlb := tlbFill 4096 d.tlb t.e,
                 nested := match t.nest with | some e => tlbFill 1024 d.nested e | none => d.nested })
      (r, s3)

/-- Any of the words that `n` bytes at a key touch is poisoned (R242). -/
def poisoned (s : State) (key n : Nat) : Bool := s.poison.any (fun w => decide (key < w + 4) && decide (w < key + n))

end State

/-- How memory is accessed. -/
structure Want where
  size : Nat
  write : Bool := false
  acc : Bool := false
  fetch : Bool := false
  sys : Bool := false
  det : Bool := false
  eng : Bool := false
  deriving DecidableEq, Repr

/-- The outcome of the checks for one address. -/
inductive Seen where
  /-- It may be made, at this key. -/
  | good (key : Nat) (t : Trans)
  /-- Its page is not resident (R212, R213). -/
  | missing (t : Trans)
  | bad (cause : Nat) (info : Info)
  deriving DecidableEq, Repr

/-- The level that R210 gives for a denial by a page's bits. -/
def denyLvl (t : Trans) (host : Bool) : Nat × Bool :=
  if host then (t.e.hlvl, true) else (t.e.lvl, false)

/-- The level that R210 gives for a page whose R is 0: the leaf of the stage that says so, the guest's when both do. -/
def awayLvl (t : Trans) : Nat × Bool := denyLvl t t.hostR

/-- The denial by a page's own bits (R209, R210), with the leaf of the stage that denies: the guest's when both do. None when the
access is allowed. -/
def pageDenies (t : Trans) (w : Want) (i : Info) : Option Info :=
  let noW := w.write && !t.e.w
  let noX := w.fetch && !t.e.x
  let prv := !w.sys && t.e.p
  let stb := w.write && t.e.s
  let ext := w.acc && t.e.ext
  if !(noW || noX || prv || stb || ext) then none
  else
    let guest := (noW && !t.e.hostW) || (noX && !t.e.hostX) || prv || stb || (ext && !t.e.hostE)
    let (l, h) := denyLvl t (!guest)
    some { i with prv := prv, stb := stb, ext := ext, lvl := l, nst := h }

/-- Protection (R209): a denial by the page, or any access of a detached group (R65), for which the level is 0 (R210). -/
def protect (t : Trans) (w : Want) (i : Info) : Option Info :=
  if w.det then some { (pageDenies t w i).getD i with det := true, lvl := 0, nst := false } else pageDenies t w i

namespace State

/-- The checks of one address in the order of R209: canonical, translation, protection. DESIGN CHOICE (entry 106): a fetch from a page
with X = 0 and R = 0 meets two causes that the rule does not order; it reports protection. -/
def check (s : State) (k : Nat) (tag : Option Nat) (va : Word) (w : Want) : Seen × State :=
  let i : Info := { wr := w.write, fet := w.fetch, eng := w.eng }
  if !canonicalSpan va.toNat w.size then (.bad 0x11 i, s)
  else
    match s.translate k tag (pageOf va) with
    | (.error f, s1) => (.bad 0x13 { i with mal := f.mal, lvl := f.lvl, nst := f.nst }, s1)
    | (.ok t, s1) =>
      match protect t w i with
      | some j => (.bad 0x12 j, s1)
      | none => if t.res then (.good (t.e.key + va.toNat % 65536) t, s1) else (.missing t, s1)

/-- Reads the word of an instruction at `va`; the fault of R209 otherwise. -/
def fetchWord (s : State) (k : Nat) (tag : Option Nat) (sys : Bool) (va : Word) : Except TrapInfo (List Byte) × State :=
  match s.check k tag va { size := 4, fetch := true, sys := sys } with
  | (.bad c i, s1) => (.error { cause := c, addr := va, info := i.word }, s1)
  | (.missing t, s1) =>
    (.error { cause := 0x13, addr := va, info := Info.word { fet := true, lvl := (awayLvl t).1, nst := (awayLvl t).2 } }, s1)
  | (.good key _, s1) =>
    if s1.poisoned key 4 then (.error { cause := 0x14, addr := va }, s1) else (.ok (rdL s1.mem key 4), s1.rebuilds [key])

/-- Fetches the twelve bytes of the instruction at `pc`, word by word (R278). -/
def fetchAt (s : State) (k : Nat) (tag : Option Nat) (sys : Bool) (pc : Word) : Except TrapInfo (List Byte) × State :=
  if pc.toNat % 4 != 0 then (.error { cause := 0x10, addr := pc, info := Info.word { fet := true } }, s)
  else
  match s.fetchWord k tag sys pc with
  | (.error t, s1) => (.error t, s1)
  | (.ok a, s1) =>
    match s1.fetchWord k tag sys (pc + 4) with
    | (.error t, s2) => (.error t, s2)
    | (.ok b, s2) =>
      match s2.fetchWord k tag sys (pc + 8) with
      | (.error t, s3) => (.error t, s3)
      | (.ok c, s3) => (.ok (a ++ b ++ c), s3)

/-- Fetches for a group at an address. -/
def fetchFor (s : State) (g : Group) (pc : Word) : Except TrapInfo (List Byte) × State :=
  s.fetchAt (s.blockOf g).core (s.tagOf g) g.r.sys pc

/-- The fetched bytes and the instruction they hold, or the trap of check 2 or 3 of R279. -/
def fetchInstr (s : State) (g : Group) (pc : Word) : Except TrapInfo Instr × State :=
  match s.fetchFor g pc with
  | (.error t, s1) => (.error t, s1)
  | (.ok bs, s1) =>
    match decodeBytes bs with
    | some (.ok i, _) => (.ok i, s1)
    | some (.error _, _) => (.error { cause := 0x02 }, s1)
    | none => (.error { cause := 0x02 }, s1)

end State

end Sys2Proof.Machine
end

