-- ==== Sys2Proof/Machine/Control.lean ====
section
/-! DEFINITION. The control family: branches (R307 to R309), calls and returns (R319, R320, R385), EXIT, PASS, DETACH, BRK, TRAP,
RETT and NOP, and a word whose OPC is unassigned (R290). -/

namespace Sys2Proof.Machine

/-- The value of a scalar operand. -/
def Ctx.sreg (x : Ctx) (r : SReg) (k : Nat := 0) : Word := x.g.getS ((snum x.run.xs r).getD 0 + k)

/-- The value of a scalar operand or a sign-extended immediate. -/
def Ctx.ssrc (x : Ctx) : SSrc → Word
  | .reg r => x.sreg r
  | .imm i => immW i

/-- The target of a format J branch (R285). -/
def jTarget (pc : Word) (imm : BitVec 32) : Word := pc + 12 * imm.signExtend 64

/-- The check of a target: canonical, and for a register target a multiple of 4 (R309). -/
def badTarget (reg : Bool) (t : Word) : Option TrapInfo :=
  if !canonical t then some { cause := 0x11, addr := t }
  else if reg && t.toNat % 4 != 0 then some { cause := 0x10, addr := t }
  else none

/-- A taken branch (R308, R309). -/
def Ctx.branch (x : Ctx) (reg : Bool) (t : Word) : Res :=
  match badTarget reg t with
  | some e => x.fail e
  | none => .ok x.s (.jump t) 0

/-- A trap that a word raises before it can execute (R279, R290). -/
def raiseWord (t : TrapInfo) (s : State) : Out :=
  match s.cur with
  | none => .fault .noGroup
  | some gid => if (s.group? gid).isNone then .fault .noGroup else .next (s.syncTrap gid t)

/-- NOP (R366). -/
def execNop (c : Ctl) (s : State) : Out := issue (.nop c) c false (fun x => x.done x.g) s

/-- BRA (R307, R308). -/
def execBra (c : Ctl) (imm : BitVec 32) (s : State) : Out :=
  issue (.bra c imm) c false (fun x => x.branch false (jTarget x.g.r.pc imm)) s

/-- BRZ (R307, R308). -/
def execBrz (c : Ctl) (d : SReg) (imm : BitVec 32) (s : State) : Out :=
  issue (.brz c d imm) c false
    (fun x => if x.sreg d = 0 then x.branch false (jTarget x.g.r.pc imm) else x.done x.g) s

/-- BRNZ (R307, R308). -/
def execBrnz (c : Ctl) (d : SReg) (imm : BitVec 32) (s : State) : Out :=
  issue (.brnz c d imm) c false
    (fun x => if x.sreg d = 0 then x.done x.g else x.branch false (jTarget x.g.r.pc imm)) s

/-- BRX (R307 to R309). -/
def execBrx (c : Ctl) (a : SReg) (s : State) : Out :=
  issue (.brx c a) c false (fun x => x.branch true (x.sreg a)) s

/-- The call record (R305). -/
def callRecord (ret : Word) (nv ns : BitVec 4) (nvu nsu : Nat) : List Byte :=
  leBytes 8 ret.toNat ++ [nv.zeroExtend 8, ns.zeroExtend 8, BitVec.ofNat 8 nvu, BitVec.ofNat 8 nsu, 0, 0, 0, 0]

/-- A call with an active lane (R59, R60, R305, R320): target, spill area, units, record, slide. -/
def Ctx.call (x : Ctx) (nv ns : BitVec 4) (reg : Bool) (t : Word) : Res :=
  match badTarget reg t with
  | some e => x.fail e
  | none =>
    let us := x.g.spillSets (8 * nv.toNat) (4 * ns.toNat)
    let base := x.g.r.spill.toNat
    let n := spillBytes us
    if x.g.spillEnd < base + n + 16 then x.fail { cause := 0x40 }
    else
      let rec_ := callRecord (x.g.r.pc + 12) nv ns us.1.length us.2.length
      let s1 := x.s.modBlock x.g.blk (fun b => { b with mem := wrL (putUnits b.mem x.g.r us base) (base + n) rec_ })
      let g1 := x.g.slide (8 * nv.toNat) (4 * ns.toNat)
      let g2 : Group := { g1 with r := { g1.r with spill := BitVec.ofNat 64 (base + n + 16) } }
      .ok (s1.setGroup x.gid g2) (.jump t) (8 * us.1.length + us.2.length)

/-- CALL (R319, R320). -/
def execCall (c : Ctl) (nv ns : BitVec 4) (imm : BitVec 32) (s : State) : Out :=
  issue (.call c nv ns imm) c false (fun x => x.call nv ns false (jTarget x.g.r.pc imm)) s

/-- CALLX (R319, R320). -/
def execCallx (c : Ctl) (nv ns : BitVec 4) (a : SReg) (s : State) : Out :=
  issue (.callx c nv ns a) c false (fun x => x.call nv ns true (x.sreg a)) s

/-- frame_base() of R385: at system level the value of %spill after the trap's own spill. -/
def frameBase (g : Group) : Word :=
  if g.r.sys then (g.r.frame.map (fun f => f.spill)).getD (BitVec.ofNat 64 g.spillBase) else BitVec.ofNat 64 g.spillBase

/-- RET with an active lane (R305, R385): the record, the slide back, the refill, the return address. -/
def Ctx.ret (x : Ctx) : Res :=
  if x.g.r.spill = frameBase x.g then x.fail { cause := 0x40, info := 1 }
  else
    let mem := (x.s.blockOf x.g).mem
    let at_ := (x.g.r.spill - 16).toNat
    let nv := 8 * (rd8 mem (at_ + 8)).toNat
    let ns := 4 * (rd8 mem (at_ + 9)).toNat
    let nvu := (rd8 mem (at_ + 10)).toNat
    let nsu := (rd8 mem (at_ + 11)).toNat
    let base := at_ - (1024 * nvu + 64 * nsu)
    let wbv := (x.g.r.wbv + x.g.va * 256 - nv) % x.g.va
    let wbs := (x.g.r.wbs + x.g.sa * 256 - ns) % x.g.sa
    let r1 : Regs :=
      { x.g.r with
        wbv := wbv
        wbs := wbs
        vDepth := x.g.r.vDepth - nv
        sDepth := x.g.r.sDepth - ns
        v := refillV mem x.g.r.v x.g.va wbv nv nvu base
        s := refillS mem x.g.r.s x.g.sa wbs ns nsu (base + 1024 * nvu)
        spill := x.g.r.spill - BitVec.ofNat 64 (16 + 1024 * nvu + 64 * nsu) }
    .ok (x.s.setGroup x.gid { x.g with r := r1 }) (.jump (rd64 mem at_)) (8 * nvu + nsu)

/-- RET (R385). -/
def execRet (c : Ctl) (s : State) : Out := issue (.ret c) c false (fun x => x.ret) s

/-- EXIT (R41, R339). -/
def execExit (c : Ctl) (s : State) : Out :=
  issue (.exit c) c false (fun x => x.done { x.g with r := { x.g.r with live := x.g.r.live &&& ~~~x.act } }) s

/-- PASS (R369 to R371): its activity and count must be those that its run's grant used. -/
def execPass (c : Ctl) (a : SSrc) (s : State) : Out :=
  issue (.pass c a) c true
    (fun x =>
      let active := x.act != 0
      let n := x.ssrc a
      let changed := match x.run.pass with
        | none => false
        | some q => q.active != active || (active && q.count != n)
      if changed then x.fail { cause := 0x05, info := 1 }
      else if !active then x.done x.g
      else if 1 ≤ n.toNat ∧ n.toNat ≤ 3 then .ok x.s (.pass n.toNat) 0
      else x.fail { cause := 0x38, info := n }) s

/-- DETACH (R65, R338). -/
def execDetach (c : Ctl) (s : State) : Out := issue (.detach c) c false (fun x => .ok x.s .detach 0) s

/-- BRK (R310). -/
def execBrk (c : Ctl) (s : State) : Out := issue (.brk c) c false (fun x => x.fail { cause := 0x52 }) s

/-- TRAP (R417). -/
def execTrap (c : Ctl) (i : BitVec 14) (s : State) : Out :=
  issue (.trap c i) c false (fun x => x.fail { cause := 0x53, info := immW i, past := true }) s

/-- RETT (R386). -/
def execRett (c : Ctl) (s : State) : Out :=
  issue (.rett c) c false
    (fun x =>
      if !canonical x.g.r.xpc then x.fail { cause := 0x11, addr := x.g.r.xpc }
      else
        let us := (x.g.r.frame.map (fun f => f.units)).getD []
        .ok x.s .rett (us.map (fun u => if u.vec then 8 else 1)).sum) s

/-- A word whose OPC is unassigned raises trap 0x01 (R279, R290). -/
def execUnassignedOpcode (_word : IWord) (s : State) : Out := raiseWord { cause := 0x01 } s

end Sys2Proof.Machine
end

