-- ==== Sys2Proof/Machine/Scalar.lean ====
section
/-! DEFINITION. The scalar family: arithmetic and logic (R388 to R390), division (R396, R397), compare and select (R394, R395), moves
(R403, R404), counts (R393), bit fields (R391, R392), address formation (R402), and the predicate family (R367, R368). -/

namespace Sys2Proof.Machine

/-- The width of a scalar type (R389). -/
def tyWidth (ty : Ty) : Nat := if ty.is64 then 64 else 32

/-- The operand in the type's width, zero above it (R389). -/
def narrow (ty : Ty) (x : Word) : Word := if ty.is64 then x else (x.extractLsb' 0 32).zeroExtend 64

/-- The result as it is written to a scalar register (R389). -/
def extend (ty : Ty) (x : Word) : Word :=
  if ty.is64 then x
  else if ty = .i32 then (x.extractLsb' 0 32).signExtend 64
  else (x.extractLsb' 0 32).zeroExtend 64

/-- The w-bit operand read as signed, whatever the type's signedness. -/
def signedOf (ty : Ty) (x : Word) : Int := if ty.is64 then x.toInt else (x.extractLsb' 0 32).toInt

/-- Bits [2w−1:w] of the exact product (R388). -/
def mulHigh (ty : Ty) (a b : Word) : Word := BitVec.ofInt 64 (tyInt ty a * tyInt ty b / 2 ^ tyWidth ty)

/-- The quotient towards zero; every bit set for a zero divisor (R397). -/
def divide (ty : Ty) (a b : Word) : Word :=
  if tyInt ty b = 0 then BitVec.ofInt 64 (-1) else BitVec.ofInt 64 ((tyInt ty a).tdiv (tyInt ty b))

/-- The remainder, with the sign of a; a itself for a zero divisor (R397). -/
def remainder (ty : Ty) (a b : Word) : Word :=
  if tyInt ty b = 0 then a else BitVec.ofInt 64 ((tyInt ty a).tmod (tyInt ty b))

/-- Left shift; 0 when the count is at least w (R388). -/
def shiftLeft (w : Nat) (a b : Word) : Word := if w ≤ b.toNat then 0 else a <<< b.toNat

/-- Right shift, zero-filled; 0 when the count is at least w (R388). -/
def shiftRight (w : Nat) (a b : Word) : Word := if w ≤ b.toNat then 0 else a >>> b.toNat

/-- Right shift filled with bit w−1 (R388). -/
def shiftArith (ty : Ty) (a b : Word) : Word :=
  BitVec.ofInt 64 (signedOf ty a / 2 ^ min b.toNat (tyWidth ty))

/-- Writes a scalar destination. -/
def Ctx.toS (x : Ctx) (d : SReg) (v : Word) : Res := x.done (x.g.setS ((snum x.run.xs d).getD 0) v)

/-- A scalar operation on A and B in the type's width, its result extended (R389, R390). -/
def Ctx.salu (x : Ctx) (ty : Ty) (d a : SReg) (b : SSrc) (f : Word → Word → Word) : Res :=
  x.toS d (extend ty (f (narrow ty (x.sreg a)) (narrow ty (x.ssrc b))))

/-- SADD (R388 to R390). -/
def execSadd (c : Ctl) (ty : Ty) (d a : SReg) (b : SSrc) (s : State) : Out :=
  issue (.sadd c ty d a b) c false (fun x => x.salu ty d a b (fun a b => a + b)) s

/-- SSUB (R388 to R390). -/
def execSsub (c : Ctl) (ty : Ty) (d a : SReg) (b : SSrc) (s : State) : Out :=
  issue (.ssub c ty d a b) c false (fun x => x.salu ty d a b (fun a b => a - b)) s

/-- SMUL (R388 to R390). -/
def execSmul (c : Ctl) (ty : Ty) (d a : SReg) (b : SSrc) (s : State) : Out :=
  issue (.smul c ty d a b) c false (fun x => x.salu ty d a b (fun a b => a * b)) s

/-- SMULH (R388 to R390). -/
def execSmulh (c : Ctl) (ty : Ty) (d a : SReg) (b : SSrc) (s : State) : Out :=
  issue (.smulh c ty d a b) c false (fun x => x.salu ty d a b (fun a b => mulHigh ty a b)) s

/-- SDIV (R396, R397). -/
def execSdiv (c : Ctl) (ty : Ty) (d a : SReg) (b : SSrc) (s : State) : Out :=
  issue (.sdiv c ty d a b) c false (fun x => x.salu ty d a b (fun a b => divide ty a b)) s

/-- SREM (R396, R397). -/
def execSrem (c : Ctl) (ty : Ty) (d a : SReg) (b : SSrc) (s : State) : Out :=
  issue (.srem c ty d a b) c false (fun x => x.salu ty d a b (fun a b => remainder ty a b)) s

/-- SAND (R388 to R390). -/
def execSand (c : Ctl) (ty : Ty) (d a : SReg) (b : SSrc) (s : State) : Out :=
  issue (.sand c ty d a b) c false (fun x => x.salu ty d a b (fun a b => a &&& b)) s

/-- SOR (R388 to R390). -/
def execSor (c : Ctl) (ty : Ty) (d a : SReg) (b : SSrc) (s : State) : Out :=
  issue (.sor c ty d a b) c false (fun x => x.salu ty d a b (fun a b => a ||| b)) s

/-- SXOR (R388 to R390). -/
def execSxor (c : Ctl) (ty : Ty) (d a : SReg) (b : SSrc) (s : State) : Out :=
  issue (.sxor c ty d a b) c false (fun x => x.salu ty d a b (fun a b => a ^^^ b)) s

/-- SSHL (R388 to R390). -/
def execSshl (c : Ctl) (ty : Ty) (d a : SReg) (b : SSrc) (s : State) : Out :=
  issue (.sshl c ty d a b) c false (fun x => x.salu ty d a b (fun a b => shiftLeft (tyWidth ty) a b)) s

/-- SSHR (R388 to R390). -/
def execSshr (c : Ctl) (ty : Ty) (d a : SReg) (b : SSrc) (s : State) : Out :=
  issue (.sshr c ty d a b) c false (fun x => x.salu ty d a b (fun a b => shiftRight (tyWidth ty) a b)) s

/-- SSAR (R388 to R390). -/
def execSsar (c : Ctl) (ty : Ty) (d a : SReg) (b : SSrc) (s : State) : Out :=
  issue (.ssar c ty d a b) c false (fun x => x.salu ty d a b (fun a b => shiftArith ty a b)) s

/-- SMIN (R388 to R390). -/
def execSmin (c : Ctl) (ty : Ty) (d a : SReg) (b : SSrc) (s : State) : Out :=
  issue (.smin c ty d a b) c false (fun x => x.salu ty d a b (fun a b => if tyInt ty b < tyInt ty a then b else a)) s

/-- SMAX (R388 to R390). -/
def execSmax (c : Ctl) (ty : Ty) (d a : SReg) (b : SSrc) (s : State) : Out :=
  issue (.smax c ty d a b) c false (fun x => x.salu ty d a b (fun a b => if tyInt ty a < tyInt ty b then b else a)) s

/-- SCMP (R394, R395). -/
def execScmp (c : Ctl) (ty : Ty) (cond : Cond) (d a : SReg) (b : SSrc) (s : State) : Out :=
  issue (.scmp c ty cond d a b) c false
    (fun x => x.toS d (if condHolds cond (cmpInt (tyInt ty (x.sreg a)) (tyInt ty (x.ssrc b))) then 1 else 0)) s

/-- SSEL (R394, R395). -/
def execSsel (c : Ctl) (ty : Ty) (sel : BitVec 4) (d a : SReg) (b : SSrc) (s : State) : Out :=
  issue (.ssel c ty sel d a b) c false
    (fun x => x.toS d (extend ty (if x.g.getP sel.toNat &&& x.g.r.live = 0 then x.ssrc b else x.sreg a))) s

/-- The number of one bits. -/
def popCount (w : Nat) (x : Word) : Nat := ((List.range w).filter (fun n => x.getLsbD n)).length

/-- The number of zero bits above the highest one bit, w for 0. -/
def leadingZeros (w : Nat) (x : Word) : Nat := if x.toNat = 0 then w else w - 1 - x.toNat.log2

/-- The index of the lowest one bit, −1 for 0. -/
def firstOne (w : Nat) (x : Word) : Word :=
  match (List.range w).find? (fun n => x.getLsbD n) with
  | some n => BitVec.ofNat 64 n
  | none => BitVec.ofInt 64 (-1)

/-- SPOPC (R393). -/
def execSpopc (c : Ctl) (ty : Ty) (d a : SReg) (s : State) : Out :=
  issue (.spopc c ty d a) c false
    (fun x => x.toS d (BitVec.ofNat 64 (popCount (tyWidth ty) (narrow ty (x.sreg a))))) s

/-- SCLZ (R393). -/
def execSclz (c : Ctl) (ty : Ty) (d a : SReg) (s : State) : Out :=
  issue (.sclz c ty d a) c false
    (fun x => x.toS d (BitVec.ofNat 64 (leadingZeros (tyWidth ty) (narrow ty (x.sreg a))))) s

/-- SFFS (R393). -/
def execSffs (c : Ctl) (ty : Ty) (d a : SReg) (s : State) : Out :=
  issue (.sffs c ty d a) c false (fun x => x.toS d (firstOne (tyWidth ty) (narrow ty (x.sreg a)))) s

/-- The position and the length of a field specification (R391). -/
def fieldSpec (w : Nat) (b : Word) : Nat × Nat := ((b.extractLsb' 0 6).toNat, min (b.extractLsb' 6 7).toNat w)

/-- The field of SBFX and VBFX in w bits (R392). -/
def fieldExtract (ty : Ty) (w : Nat) (a b : Word) : Word :=
  let (p, n) := fieldSpec w b
  let f := (a >>> p).toNat % 2 ^ n
  if (ty = .i32 ∨ ty = .i64) ∧ 0 < n ∧ 2 ^ (n - 1) ≤ f then BitVec.ofInt 64 ((f : Int) - 2 ^ n) else BitVec.ofNat 64 f

/-- The insertion of SBFI and VBFI in w bits (R392). -/
def fieldInsert (w : Nat) (d a b : Word) : Word :=
  let (p, n) := fieldSpec w b
  let m := BitVec.ofNat 64 ((2 ^ n - 1) * 2 ^ p % 2 ^ w)
  (d &&& ~~~m) ||| ((a <<< p) &&& m)

/-- SBFX (R391, R392). -/
def execSbfx (c : Ctl) (ty : Ty) (d a : SReg) (b : SSrc) (s : State) : Out :=
  issue (.sbfx c ty d a b) c false (fun x => x.salu ty d a b (fieldExtract ty (tyWidth ty))) s

/-- SBFI (R391, R392). -/
def execSbfi (c : Ctl) (ty : Ty) (d a : SReg) (b : SSrc) (s : State) : Out :=
  issue (.sbfi c ty d a b) c false (fun x => x.salu ty d a b (fieldInsert (tyWidth ty) (narrow ty (x.sreg d)))) s

/-- SLEA (R402): a non-canonical address traps. -/
def execSlea (c : Ctl) (ty : Ty) (d a : SReg) (b : SSrc) (s : State) : Out :=
  issue (.slea c ty d a b) c false
    (fun x =>
      let ix : Word :=
        if ty = .i32 then ((x.ssrc b).extractLsb' 0 32).signExtend 64
        else if ty = .n32 then ((x.ssrc b).extractLsb' 0 32).zeroExtend 64
        else x.ssrc b
      let t := x.sreg a + ix
      if canonical t then x.toS d t else x.fail { cause := 0x11, addr := t }) s

/-! ## Special registers (R40, R384) -/

/-- %ovf: the overflow mode of the group's last MMA or MMQ, and the entries in use (R174). -/
def ovfWord (s : State) (g : Group) : Word :=
  let c := s.core (s.blockOf g).core
  let own := (c.ovf.filter (fun e => g.planes.contains e.plane)).length
  BitVec.ofNat 64 (65536 * g.r.ovfMode.toNat + 256 * own + c.ovf.length)

/-- The group's planes that are in float mode, plane N at bit N (R168). -/
def modeBits (s : State) (g : Group) : Nat :=
  let m := (s.core (s.blockOf g).core).fmode
  (g.planes.zipIdx.map (fun e => if m.getLsbD e.1 then 2 ^ e.2 else 0)).sum

/-- %accst: allotment, modes and WOV bits (R168). -/
def accstWord (s : State) (g : Group) : Word :=
  BitVec.ofNat 64 (2 ^ 32 * g.planes.length + 65536 * modeBits s g + g.r.wov.toNat)

/-- %wsref: the phase and the banks that refresh (R218). -/
def wsrefWord (s : State) (p : Nat) : Word :=
  let t := s.cycle p % 65536
  let busy := ((List.range 16).map (fun b => if 4096 * b ≤ t ∧ t < 4096 * b + 256 then 2 ^ b else 0)).sum
  BitVec.ofNat 64 (2 ^ 32 * t + busy)

/-- The value that RDSR returns for a register of one value for the group (R40, R281, R384). The per-lane registers stand
only in VMOV. -/
def special (s : State) (g : Group) (r : Special) : Word :=
  let b := s.blockOf g
  let p := coreDie b.core
  let m (x : Mask) : Word := x.zeroExtend 64
  match r with
  | .lane | .widlo | .widhi | .arg => 0
  | .gwid => g.gwid
  | .fw => g.fw
  | .lhdr => g.lhdr
  | .live => m g.r.live
  | .gstep => BitVec.ofNat 64 g.r.gstep
  | .lstep => BitVec.ofNat 64 g.r.lstep
  | .gcmt =>
    let n : Nat := ((g.launch.bind s.launch?).map (fun l => tget 0 l.seen b.core)).getD 0
    BitVec.ofInt 64 ((n : Int) - 1)
  | .lag => g.r.lag.zeroExtend 64
  | .die => BitVec.ofNat 64 (s.logDie (s.partAt b.core) p)
  | .core => BitVec.ofNat 64 (coreIdx b.core)
  | .grp => BitVec.ofNat 64 g.grp
  | .time => s.time p
  | .toff => State.toff p
  | .lfm => m g.r.lfm
  | .nrs => m g.r.nrs
  | .xcause => g.r.xcause.zeroExtend 64
  | .xpc => g.r.xpc
  | .xaddr => g.r.xaddr
  | .xlanes => m g.r.xlanes
  | .xstep => g.r.xstep
  | .xprog => g.r.xprog
  | .xinfo => g.r.xinfo
  | .xvec => g.r.xvec
  | .wbv => BitVec.ofNat 64 g.r.wbv
  | .wbs => BitVec.ofNat 64 g.r.wbs
  | .spill => g.r.spill
  | .ovf => ovfWord s g
  | .accst => accstWord s g
  | .wsref => wsrefWord s p
  | .part => BitVec.ofNat 64 ((s.partOfDie p).getD 0)
  | .ctx => BitVec.ofNat 64 b.ctx

/-- A special register in one lane, as VMOV reads it (R281, R426). -/
def specialLane (s : State) (g : Group) (r : Special) (l : Nat) : Word :=
  match r with
  | .lane => BitVec.ofNat 64 l
  | .widlo => ((g.widOf l).extractLsb' 0 32).zeroExtend 64
  | .widhi => ((g.widOf l).extractLsb' 32 32).zeroExtend 64
  | .arg => (tget 0 g.args l).zeroExtend 64
  | r => special s g r

/-- SMOV (R403, R404). -/
def execSmov (c : Ctl) (ty : Ty) (d : SMovDst) (a : SMovSrc) (s : State) : Out :=
  issue (.smov c ty d a) c false
    (fun x =>
      let v : Word := match a with
        | .sca r => x.sreg r
        | .idx n => (x.g.getX n.toNat).signExtend 64
        | .spr r => special x.s x.g r
      match d with
      | .sca r => x.toS r (extend ty v)
      | .idx n => x.done (x.g.setX n.toNat (v.extractLsb' 0 16))) s

/-- SMOVI (R404). -/
def execSmovi (c : Ctl) (ty : Ty) (d : SReg) (imm : BitVec 32) (s : State) : Out :=
  issue (.smovi c ty d imm) c false
    (fun x => x.toS d (if ty = .i32 ∨ ty = .i64 then imm.signExtend 64 else imm.zeroExtend 64)) s

/-- SMOVH (R404). -/
def execSmovh (c : Ctl) (ty : Ty) (d : SReg) (imm : BitVec 32) (s : State) : Out :=
  issue (.smovh c ty d imm) c false (fun x => x.toS d (imm ++ (x.sreg d).extractLsb' 0 32)) s

/-- RDSR (R384). -/
def execRdsr (c : Ctl) (d : SReg) (a : Special) (s : State) : Out :=
  issue (.rdsr c d a) c false (fun x => x.toS d (special x.s x.g a)) s

/-- The registers after WRSR writes a value (R427); a write to %xpc clears the run-head record (R229). -/
def writeSpecial (g : Group) (d : Special) (v : Word) : Group :=
  let r := g.r
  let lo : BitVec 32 := v.extractLsb' 0 32
  let r1 : Regs := match d with
    | .lag => { r with lag := v.extractLsb' 0 3 }
    | .lfm => { r with lfm := r.lfm &&& ~~~lo }
    | .nrs => { r with nrs := r.nrs &&& ~~~lo }
    | .xcause => { r with xcause := v.extractLsb' 0 9 }
    | .xpc => { r with xpc := v, xhead := false }
    | .xaddr => { r with xaddr := v }
    | .xlanes => { r with xlanes := lo }
    | .xstep => { r with xstep := v }
    | .xprog => { r with xprog := v }
    | .xinfo => { r with xinfo := v }
    | .xvec => { r with xvec := v }
    | .wbv => { r with wbv := lo.toNat % g.va }
    | .wbs => { r with wbs := lo.toNat % g.sa }
    | .spill => { r with spill := v }
    | .accst => { r with wov := r.wov &&& ~~~(v.extractLsb' 0 16) }
    | _ => r
  { g with r := r1 }

/-- WRSR (R427, R428). -/
def execWrsr (c : Ctl) (d : Special) (a : SSrc) (s : State) : Out :=
  issue (.wrsr c d a) c false (fun x => x.done (writeSpecial x.g d (x.ssrc a))) s

/-! ## The predicate family (R367, R368) -/

/-- PAND (R367, R368). -/
def execPand (c : Ctl) (d a b : BitVec 4) (s : State) : Out :=
  issue (.pand c d a b) c false (fun x => x.done (x.g.setP d.toNat (x.g.getP a.toNat &&& x.g.getP b.toNat))) s

/-- POR (R367, R368). -/
def execPor (c : Ctl) (d a b : BitVec 4) (s : State) : Out :=
  issue (.por c d a b) c false (fun x => x.done (x.g.setP d.toNat (x.g.getP a.toNat ||| x.g.getP b.toNat))) s

/-- PXOR (R367, R368). -/
def execPxor (c : Ctl) (d a b : BitVec 4) (s : State) : Out :=
  issue (.pxor c d a b) c false (fun x => x.done (x.g.setP d.toNat (x.g.getP a.toNat ^^^ x.g.getP b.toNat))) s

/-- PANDN (R367, R368). -/
def execPandn (c : Ctl) (d a b : BitVec 4) (s : State) : Out :=
  issue (.pandn c d a b) c false (fun x => x.done (x.g.setP d.toNat (x.g.getP a.toNat &&& ~~~(x.g.getP b.toNat)))) s

/-- PMOV (R367, R368). -/
def execPmov (c : Ctl) (d : BitVec 4) (a : PSrc) (s : State) : Out :=
  issue (.pmov c d a) c false
    (fun x => x.done (x.g.setP d.toNat (match a with
      | .pred p => x.g.getP p.toNat
      | .sca r => (x.sreg r).extractLsb' 0 32))) s

end Sys2Proof.Machine
end

