-- ==== Sys2Proof/Machine/VectorInt.lean ====
section
/-! DEFINITION. The vector integer family: arithmetic and logic (R418 to R420), counts (R424), bit fields (R423), compare and select
(R425), moves (R426), and the exchanges VPERM and VBCAST (R421, R422). -/

namespace Sys2Proof.Machine

/-- The element width of a vector type (R137, R286, R419). -/
def elemWidth (ty : Ty) : Nat :=
  match ty with
  | .i16x2 | .i16 | .n16 | .f16x2 | .bf16x2 => 16
  | .i8 | .n8 => 8
  | .i64 | .n64 | .b64 => 64
  | _ => 32

/-- Elements of a lane's word or pair (R419). -/
def elemCount (ty : Ty) : Nat := if ty.is64 then 1 else 32 / elemWidth ty

/-- Element `i` of a word (R137). -/
def elemAt (w : Nat) (x : Word) (i : Nat) : Nat := x.toNat / 2 ^ (w * i) % 2 ^ w

/-- The word that holds a list of elements, the first lowest; each is taken modulo 2^w (R137). -/
def packElems (w : Nat) : List Int → Nat
  | [] => 0
  | e :: es => (e % 2 ^ w).toNat + 2 ^ w * packElems w es

/-- An element's value, signed or unsigned. -/
def elemVal (w : Nat) (signed : Bool) (a : Nat) : Int := if signed && decide (2 ^ (w - 1) ≤ a) then (a : Int) - 2 ^ w else a

/-- The value clamped to a type's range (R418). -/
def clampTo (w : Nat) (signed : Bool) (v : Int) : Int :=
  if signed then max (-2 ^ (w - 1)) (min (2 ^ (w - 1) - 1) v) else max 0 (min (2 ^ w - 1) v)

/-- A lane's word, or its pair under a 64-bit type, zero-extended to 64 bits. -/
def Ctx.vval (x : Ctx) (ty : Ty) (r : VReg) (l : Nat) : Word :=
  let n := (vnum x.run.xs r).getD 0
  if ty.is64 then x.g.getV64 n l else (x.g.getV n l).zeroExtend 64

/-- The immediate, sign-extended to the element and placed in every element (R419). -/
def immElems (ty : Ty) (i : BitVec 14) : Word :=
  BitVec.ofNat 64 (packElems (elemWidth ty) (List.replicate (elemCount ty) i.toInt))

/-- The B operand of a lane (R419). -/
def Ctx.bval (x : Ctx) (ty : Ty) (b : VSI) (l : Nat) : Word :=
  match b with
  | .vec r => x.vval ty r l
  | .sca r => if ty.is64 then x.sreg r else ((x.sreg r).extractLsb' 0 32).zeroExtend 64
  | .imm i => immElems ty i

/-- Writes a value in each active lane: the word, or the pair under a 64-bit type. -/
def Ctx.toV (x : Ctx) (ty : Ty) (d : VReg) (f : Nat → Word) : Res :=
  let n := (vnum x.run.xs d).getD 0
  x.done (if ty.is64 then x.g.writeLanes64 n x.act f else x.g.writeLanes n x.act (fun l => (f l).extractLsb' 0 32))

/-- An operation on the elements of A, B and D (R420). -/
def elemOp (ty : Ty) (f : Nat → Bool → Nat → Nat → Nat → Int) (a b d : Word) : Word :=
  let w := elemWidth ty
  BitVec.ofNat 64 (packElems w ((List.range (elemCount ty)).map (fun i =>
    f w (tySigned ty) (elemAt w a i) (elemAt w b i) (elemAt w d i))))

/-- A vector operation on D, A and B (R420). -/
def Ctx.vint (x : Ctx) (ty : Ty) (d a : VReg) (b : VSI) (f : Nat → Bool → Nat → Nat → Nat → Int) : Res :=
  x.toV ty d (fun l => elemOp ty f (x.vval ty a l) (x.bval ty b l) (x.vval ty d l))

/-- VADD (R418 to R420). -/
def execVadd (c : Ctl) (ty : Ty) (d a : VReg) (b : VSI) (s : State) : Out :=
  issue (.vadd c ty d a b) c false (fun x => x.vint ty d a b (fun _ _ a b _ => (a : Int) + b)) s

/-- VSUB (R418 to R420). -/
def execVsub (c : Ctl) (ty : Ty) (d a : VReg) (b : VSI) (s : State) : Out :=
  issue (.vsub c ty d a b) c false (fun x => x.vint ty d a b (fun _ _ a b _ => (a : Int) - b)) s

/-- VMUL (R418 to R420). -/
def execVmul (c : Ctl) (ty : Ty) (d a : VReg) (b : VSI) (s : State) : Out :=
  issue (.vmul c ty d a b) c false (fun x => x.vint ty d a b (fun _ _ a b _ => (a : Int) * b)) s

/-- VMULH (R418 to R420). -/
def execVmulh (c : Ctl) (ty : Ty) (d a : VReg) (b : VSI) (s : State) : Out :=
  issue (.vmulh c ty d a b) c false (fun x => x.vint ty d a b (fun w sg a b _ => elemVal w sg a * elemVal w sg b / 2 ^ w)) s

/-- VMAD (R418 to R420). -/
def execVmad (c : Ctl) (ty : Ty) (d a : VReg) (b : VSI) (s : State) : Out :=
  issue (.vmad c ty d a b) c false (fun x => x.vint ty d a b (fun _ _ a b d => (a : Int) * b + d)) s

/-- VMIN (R418 to R420). -/
def execVmin (c : Ctl) (ty : Ty) (d a : VReg) (b : VSI) (s : State) : Out :=
  issue (.vmin c ty d a b) c false (fun x => x.vint ty d a b (fun w sg a b _ => min (elemVal w sg a) (elemVal w sg b))) s

/-- VMAX (R418 to R420). -/
def execVmax (c : Ctl) (ty : Ty) (d a : VReg) (b : VSI) (s : State) : Out :=
  issue (.vmax c ty d a b) c false (fun x => x.vint ty d a b (fun w sg a b _ => max (elemVal w sg a) (elemVal w sg b))) s

/-- VAND (R418 to R420). -/
def execVand (c : Ctl) (ty : Ty) (d a : VReg) (b : VSI) (s : State) : Out :=
  issue (.vand c ty d a b) c false (fun x => x.vint ty d a b (fun _ _ a b _ => (a &&& b : Nat))) s

/-- VOR (R418 to R420). -/
def execVor (c : Ctl) (ty : Ty) (d a : VReg) (b : VSI) (s : State) : Out :=
  issue (.vor c ty d a b) c false (fun x => x.vint ty d a b (fun _ _ a b _ => (a ||| b : Nat))) s

/-- VXOR (R418 to R420). -/
def execVxor (c : Ctl) (ty : Ty) (d a : VReg) (b : VSI) (s : State) : Out :=
  issue (.vxor c ty d a b) c false (fun x => x.vint ty d a b (fun _ _ a b _ => (a ^^^ b : Nat))) s

/-- VSHL (R418 to R420). -/
def execVshl (c : Ctl) (ty : Ty) (d a : VReg) (b : VSI) (s : State) : Out :=
  issue (.vshl c ty d a b) c false (fun x => x.vint ty d a b (fun w _ a b _ => if w ≤ b then 0 else (a * 2 ^ b : Nat))) s

/-- VSHR (R418 to R420). -/
def execVshr (c : Ctl) (ty : Ty) (d a : VReg) (b : VSI) (s : State) : Out :=
  issue (.vshr c ty d a b) c false (fun x => x.vint ty d a b (fun w _ a b _ => if w ≤ b then 0 else (a / 2 ^ b : Nat))) s

/-- VSAR (R418 to R420). -/
def execVsar (c : Ctl) (ty : Ty) (d a : VReg) (b : VSI) (s : State) : Out :=
  issue (.vsar c ty d a b) c false (fun x => x.vint ty d a b (fun w _ a b _ => elemVal w true a / 2 ^ min b w)) s

/-- VSADD (R418 to R420). -/
def execVsadd (c : Ctl) (ty : Ty) (d a : VReg) (b : VSI) (s : State) : Out :=
  issue (.vsadd c ty d a b) c false (fun x => x.vint ty d a b (fun w sg a b _ => clampTo w sg (elemVal w sg a + elemVal w sg b))) s

/-- VABS (R418 to R420). -/
def execVabs (c : Ctl) (ty : Ty) (d a : VReg) (s : State) : Out :=
  issue (.vabs c ty d a) c false
    (fun x => x.vint ty d a (.imm 0) (fun w _ a _ _ => ((elemVal w true a).natAbs : Int))) s

/-- VPOPC (R424). -/
def execVpopc (c : Ctl) (ty : Ty) (d a : VReg) (s : State) : Out :=
  issue (.vpopc c ty d a) c false
    (fun x => x.vint ty d a (.imm 0) (fun w _ a _ _ => (popCount w (BitVec.ofNat 64 a) : Int))) s

/-- VCLZ (R424). -/
def execVclz (c : Ctl) (ty : Ty) (d a : VReg) (s : State) : Out :=
  issue (.vclz c ty d a) c false
    (fun x => x.vint ty d a (.imm 0) (fun w _ a _ _ => (leadingZeros w (BitVec.ofNat 64 a) : Int))) s

/-- VBFX (R423). -/
def execVbfx (c : Ctl) (ty : Ty) (d a : VReg) (b : VSI) (s : State) : Out :=
  issue (.vbfx c ty d a b) c false
    (fun x => x.toV ty d (fun l => fieldExtract ty (tyWidth ty) (x.vval ty a l) (x.bval ty b l))) s

/-- VBFI (R423). -/
def execVbfi (c : Ctl) (ty : Ty) (d a : VReg) (b : VSI) (s : State) : Out :=
  issue (.vbfi c ty d a b) c false
    (fun x => x.toV ty d (fun l => fieldInsert (tyWidth ty) (x.vval ty d l) (x.vval ty a l) (x.bval ty b l))) s

/-- VSEL (R425). -/
def execVsel (c : Ctl) (ty : Ty) (sel : BitVec 4) (d a : VReg) (b : VSI) (s : State) : Out :=
  issue (.vsel c ty sel d a b) c false
    (fun x => x.toV ty d (fun l => if bitOf (x.g.getP sel.toNat) l then x.vval ty a l else x.bval ty b l)) s

/-- VCMP (R425): all 32 bits of pD are written, also without an active lane. -/
def execVcmp (c : Ctl) (ty : Ty) (cond : Cond) (d : BitVec 4) (a : VReg) (b : VSI) (s : State) : Out :=
  issue (.vcmp c ty cond d a b) c true
    (fun x => x.done (x.g.setP d.toNat (compareMask x.act (fun l =>
      condHolds cond (cmpInt (tyInt ty (x.vval ty a l)) (tyInt ty (x.bval ty b l))))))) s

/-- What VMOV moves in a lane (R426). -/
def Ctx.vmovVal (x : Ctx) (ty : Ty) (a : VMovSrc) (l : Nat) : Word :=
  match a with
  | .vec r => x.vval ty r l
  | .sca r => x.bval ty (.sca r) l
  | .spr r => if ty.is64 then specialLane x.s x.g r l else ((specialLane x.s x.g r l).extractLsb' 0 32).zeroExtend 64
  | .imm i => immElems ty i

/-- VMOV (R426). -/
def execVmov (c : Ctl) (ty : Ty) (d : VReg) (a : VMovSrc) (s : State) : Out :=
  issue (.vmov c ty d a) c false (fun x => x.toV ty d (x.vmovVal ty a)) s

/-- VMOVI (R426). -/
def execVmovi (c : Ctl) (ty : Ty) (d : VReg) (imm : BitVec 32) (s : State) : Out :=
  issue (.vmovi c ty d imm) c false
    (fun x => x.toV ty d (fun _ => if ty = .i64 then imm.signExtend 64 else imm.zeroExtend 64)) s

/-- The selector of VPERM and VBCAST that does not come from a lane (R422). -/
def Ctx.selector (x : Ctx) (b : VSI) (l : Nat) : Nat :=
  match b with
  | .vec r => (x.g.getV ((vnum x.run.xs r).getD 0) l).toNat % 32
  | .sca r => (x.sreg r).toNat % 32
  | .imm i => (immW i).toNat % 32

/-- VPERM (R421, R422). -/
def execVperm (c : Ctl) (ty : Ty) (d a : VReg) (b : VSI) (s : State) : Out :=
  issue (.vperm c ty d a b) c false
    (fun x => x.toV ty d (fun l =>
      x.vval ty a (match b with | .vec _ => x.selector b l | _ => l ^^^ x.selector b l))) s

/-- VBCAST (R421, R422). -/
def execVbcast (c : Ctl) (ty : Ty) (d a : VReg) (b : VSI) (s : State) : Out :=
  issue (.vbcast c ty d a b) c false
    (fun x => x.toV ty d (fun _ => x.vval ty a (x.selector b ((lanesOf x.act).head?.getD 0)))) s

end Sys2Proof.Machine
end

