-- ==== Sys2Proof/Machine/Num.lean ====
section
/-! DEFINITION. Number formats and arithmetic (R137 to R164): values, the float formats, rounding, exact operations, conversions
into and out of a format, sums within their bounds, block scales and C8. -/

namespace Sys2Proof.Machine

/-! ## Values -/

/-- The mantissa of a dyadic number at a lower exponent. -/
def Dy.at_ (x : Dy) (e : Int) : Int := x.m * 2 ^ (x.e - e).toNat

def Dy.add (x y : Dy) : Dy :=
  let e := min x.e y.e
  ⟨x.at_ e + y.at_ e, e⟩

def Dy.mul (x y : Dy) : Dy := ⟨x.m * y.m, x.e + y.e⟩
def Dy.neg (x : Dy) : Dy := ⟨-x.m, x.e⟩
def Dy.abs (x : Dy) : Dy := ⟨x.m.natAbs, x.e⟩

def Dy.cmp (x y : Dy) : Cmp :=
  let e := min x.e y.e
  cmpInt (x.at_ e) (y.at_ e)

def Dy.le (x y : Dy) : Bool := x.cmp y != .gt

/-- A float value: not a number, an infinity, or a signed finite number; the sign of a zero counts (R138, R158). -/
inductive FVal where
  | nan
  | inf (neg : Bool)
  | fin (neg : Bool) (m : Nat) (e : Int)
  deriving DecidableEq, Repr

/-- The number of a finite value. -/
def FVal.dy : FVal → Dy
  | .fin neg m e => ⟨if neg then -(m : Int) else m, e⟩
  | _ => ⟨0, 0⟩

def FVal.neg? : FVal → Bool
  | .fin n _ _ => n
  | .inf n => n
  | .nan => false

def FVal.isZero : FVal → Bool
  | .fin _ m _ => m == 0
  | _ => false

def FVal.negate : FVal → FVal
  | .nan => .nan
  | .inf n => .inf (!n)
  | .fin n m e => .fin (!n) m e

/-! ## Formats (R138, R147, R158) -/

/-- A float format: exponent and fraction bits, bias, the largest finite magnitude's code, the code of infinity if it has one,
and the canonical NaN's code (R140). -/
structure FloatFmt where
  eb : Nat
  fb : Nat
  bias : Nat
  maxCode : Nat
  inf : Option Nat
  nan : Option Nat
  deriving DecidableEq, Repr

def fp32 : FloatFmt := ⟨8, 23, 127, 0x7F7FFFFF, some 0x7F800000, some 0x7FC00000⟩
def fp16 : FloatFmt := ⟨5, 10, 15, 0x7BFF, some 0x7C00, some 0x7E00⟩
def bf16 : FloatFmt := ⟨8, 7, 127, 0x7F7F, some 0x7F80, some 0x7FC0⟩
def e4m3 : FloatFmt := ⟨4, 3, 7, 0x7E, none, some 0x7F⟩
def e5m2 : FloatFmt := ⟨5, 2, 15, 0x7B, some 0x7C, some 0x7E⟩
def e3m2 : FloatFmt := ⟨3, 2, 3, 0x1F, none, none⟩
def e2m3 : FloatFmt := ⟨2, 3, 1, 0x1F, none, none⟩
def e2m1 : FloatFmt := ⟨2, 1, 1, 0x7, none, none⟩

/-- FP32X (R158): no subnormals arise (R159). -/
def fp32x : FloatFmt := ⟨10, 23, 511, 0x1FF7FFFFF, some 0x1FF800000, some 0x1FFC00000⟩

/-- Bits of a format, the sign included. -/
def FloatFmt.width (f : FloatFmt) : Nat := f.eb + f.fb + 1

/-- The value of a code (R138, R147). -/
def FloatFmt.val (f : FloatFmt) (code : Nat) : FVal :=
  let mag := code % 2 ^ (f.eb + f.fb)
  let neg := decide (2 ^ (f.eb + f.fb) ≤ code % 2 ^ f.width)
  let ex := mag / 2 ^ f.fb
  let fr := mag % 2 ^ f.fb
  if mag ≤ f.maxCode then
    if ex = 0 then .fin neg fr (1 - (f.bias : Int) - f.fb) else .fin neg (2 ^ f.fb + fr) ((ex : Int) - f.bias - f.fb)
  else if f.inf = some mag then .inf neg
  else .nan

/-- The value of an FP32X code: exponent 0 is zero, whatever the fraction holds (R158). -/
def fp32xVal (code : Nat) : FVal :=
  if code / 2 ^ 23 % 1024 = 0 then .fin (decide (2 ^ 33 ≤ code)) 0 0 else fp32x.val code

/-- A sign on a magnitude's code. -/
def FloatFmt.signed (f : FloatFmt) (neg : Bool) (mag : Nat) : Nat := mag + if neg then 2 ^ (f.eb + f.fb) else 0

/-! ## Rounding (R142, R143, R151) -/

/-- Whether the magnitude is raised: `cmp` compares what is cut off with half a unit, `exact` says nothing is cut off. -/
def roundUp (r : Rnd) (neg odd exact : Bool) (half : Cmp) : Bool :=
  if exact then false
  else
    match r with
    | .rne => half == .gt || (half == .eq && odd)
    | .rtz => false
    | .rdn => neg
    | .rup => !neg

/-- The code of the magnitude m · 2^e, plus something below one unit when `sticky`, rounded as if the exponent had no upper
limit. With `sticky`, m must have more bits than the format keeps. -/
def FloatFmt.roundMag (f : FloatFmt) (r : Rnd) (neg : Bool) (m : Nat) (e : Int) (sticky : Bool) : Nat :=
  if m = 0 then (if roundUp r neg false (!sticky) .lt then 1 else 0)
  else
    let emin : Int := 1 - (f.bias : Int) - f.fb
    let q : Int := max (e + m.log2 - f.fb) emin
    let base := (q - emin).toNat * 2 ^ f.fb
    if q ≤ e then base + m * 2 ^ (e - q).toNat
    else
      let d := (q - e).toNat
      let k := m / 2 ^ d
      let rem := m % 2 ^ d
      let half : Cmp := match cmpInt (2 * rem) (2 ^ d) with | .eq => if sticky then .gt else .eq | c => c
      base + k + if roundUp r neg (k % 2 == 1) (rem == 0 && !sticky) half then 1 else 0

/-- The code for a rounded magnitude beyond the largest finite (R143, R151). -/
def FloatFmt.overflow (f : FloatFmt) (r : Rnd) (sat neg : Bool) : Nat :=
  if sat then f.maxCode
  else
    match f.inf with
    | some i => if roundUp r neg false false .gt then i else f.maxCode
    | none => f.nan.getD f.maxCode

/-- A finite value rounded once into a format (R143, R151). -/
def FloatFmt.round (f : FloatFmt) (r : Rnd) (sat neg : Bool) (m : Nat) (e : Int) (sticky : Bool) : Nat :=
  let c := f.roundMag r neg m e sticky
  if c ≤ f.maxCode then f.signed neg c
  else if f.inf.isNone && !sat && f.nan.isSome then f.overflow r sat neg
  else f.signed neg (f.overflow r sat neg)

/-- The code of a NaN in a format: +0 where it has none (R140, R151). -/
def FloatFmt.nanCode (f : FloatFmt) : Nat := f.nan.getD 0

/-- An infinity converted into a format (R151). -/
def FloatFmt.infCode (f : FloatFmt) (sat neg : Bool) : Nat :=
  if sat then f.signed neg f.maxCode
  else
    match f.inf with
    | some i => f.signed neg i
    | none => if f.nan.isSome then f.nanCode else f.signed neg f.maxCode

/-- A value converted into a format (R151). -/
def FloatFmt.conv (f : FloatFmt) (r : Rnd) (sat : Bool) : FVal → Nat
  | .nan => f.nanCode
  | .inf neg => f.infCode sat neg
  | .fin neg m e => f.round r sat neg m e false

/-- A dyadic number rounded into a format; `zneg` is the sign of an exact zero. -/
def FloatFmt.ofDy (f : FloatFmt) (r : Rnd) (zneg : Bool) (x : Dy) : Nat :=
  if x.m = 0 then f.signed zneg 0 else f.round r false (decide (x.m < 0)) x.m.natAbs x.e false

/-! ## Exact operations (R143, R144, R146) -/

/-- a + b rounded once. -/
def FloatFmt.add (f : FloatFmt) (r : Rnd) (a b : FVal) : Nat :=
  match a, b with
  | .nan, _ | _, .nan => f.nanCode
  | .inf x, .inf y => if x = y then f.infCode false x else f.nanCode
  | .inf x, _ => f.infCode false x
  | _, .inf y => f.infCode false y
  | .fin x m _, .fin y n _ =>
    let zneg := if m = 0 ∧ n = 0 ∧ x = y then x else r == .rdn
    f.ofDy r zneg (a.dy.add b.dy)

/-- The exact product as a value. -/
def FVal.mul (a b : FVal) : FVal :=
  match a, b with
  | .nan, _ | _, .nan => .nan
  | .inf x, .inf y => .inf (x != y)
  | .inf x, .fin y n _ => if n = 0 then .nan else .inf (x != y)
  | .fin x m _, .inf y => if m = 0 then .nan else .inf (x != y)
  | .fin x m e, .fin y n g => .fin (x != y) (m * n) (e + g)

/-- a × b rounded once. -/
def FloatFmt.mul (f : FloatFmt) (r : Rnd) (a b : FVal) : Nat := f.conv r false (a.mul b)

/-- a × b + d, the product not rounded. -/
def FloatFmt.fma (f : FloatFmt) (r : Rnd) (a b d : FVal) : Nat := f.add r (a.mul b) d

/-- a / b rounded once. -/
def FloatFmt.div (f : FloatFmt) (r : Rnd) (a b : FVal) : Nat :=
  match a, b with
  | .nan, _ | _, .nan => f.nanCode
  | .inf _, .inf _ => f.nanCode
  | .inf x, .fin y _ _ => f.infCode false (x != y)
  | .fin x _ _, .inf y => f.signed (x != y) 0
  | .fin x m e, .fin y n g =>
    if n = 0 then (if m = 0 then f.nanCode else f.infCode false (x != y))
    else if m = 0 then f.signed (x != y) 0
    else
      let k := 64 + n.log2 - m.log2
      let q := m * 2 ^ k / n
      f.round r false (x != y) q (e - g - k) (m * 2 ^ k % n != 0)

/-- The integer square root, bit by bit from bit `n − 1`. -/
def isqrt (x : Nat) (n : Nat) : Nat :=
  ((List.range n).reverse).foldl (fun r b => let t := r + 2 ^ b; if t * t ≤ x then t else r) 0

/-- √a rounded once (R144). -/
def FloatFmt.sqrt (f : FloatFmt) (r : Rnd) (a : FVal) : Nat :=
  match a with
  | .nan => f.nanCode
  | .inf neg => if neg then f.nanCode else f.infCode false false
  | .fin neg m e =>
    if m = 0 then f.signed neg 0
    else if neg then f.nanCode
    else
      let k : Nat := 128 + (if e % 2 = 0 then 0 else 1)
      let x := m * 2 ^ k
      let q := isqrt x (x.log2 / 2 + 1)
      f.round r false false q ((e - k) / 2) (q * q != x)

/-- An integral value selected by the rounding code; the sign of a stays (R341). -/
def FloatFmt.toIntegral (f : FloatFmt) (r : Rnd) (a : FVal) : Nat :=
  match a with
  | .nan => f.nanCode
  | .inf neg => f.infCode false neg
  | .fin neg m e =>
    if 0 ≤ e then f.round r false neg m e false
    else
      let d := (-e).toNat
      let k := m / 2 ^ d
      let rem := m % 2 ^ d
      let up := roundUp r neg (k % 2 == 1) (rem == 0) (cmpInt (2 * rem) (2 ^ d))
      f.round r false neg (k + up.toNat) 0 false

/-- How two values compare (R146). -/
def FVal.cmp (a b : FVal) : Cmp :=
  match a, b with
  | .nan, _ | _, .nan => .unordered
  | .inf x, .inf y => if x = y then .eq else if x then .lt else .gt
  | .inf x, _ => if x then .lt else .gt
  | _, .inf y => if y then .gt else .lt
  | _, _ => a.dy.cmp b.dy

/-- The smaller of two codes with −0 below +0; a NaN gives way (R146). -/
def FloatFmt.minNum (f : FloatFmt) (x y : Nat) : Nat :=
  match (f.val x).cmp (f.val y) with
  | .lt => x
  | .gt => y
  | .eq => if (f.val x).neg? then x else y
  | .unordered => if f.val x = .nan then (if f.val y = .nan then f.nanCode else y) else x

/-- The larger of two codes with −0 below +0; a NaN gives way (R146). -/
def FloatFmt.maxNum (f : FloatFmt) (x y : Nat) : Nat :=
  match (f.val x).cmp (f.val y) with
  | .gt => x
  | .lt => y
  | .eq => if (f.val x).neg? then y else x
  | .unordered => if f.val x = .nan then (if f.val y = .nan then f.nanCode else y) else x

/-! ## Integers and floats (R152 to R154) -/

/-- A value rounded to an integer under the code (R152); only asked of finite values. -/
def FVal.toInt (r : Rnd) : FVal → Int
  | .fin neg m e =>
    let v : Nat :=
      if 0 ≤ e then m * 2 ^ Int.toNat e
      else
        let d := (-e).toNat
        let k := m / 2 ^ d
        let rem := m % 2 ^ d
        k + (roundUp r neg (k % 2 == 1) (rem == 0) (cmpInt (2 * rem) (2 ^ d))).toNat
    if neg then -(v : Int) else v
  | _ => 0

/-- Float to integer: the nearest end of the range outside it, 0 for a NaN (R152). -/
def floatToInt (r : Rnd) (w : Nat) (signed : Bool) (a : FVal) : Int :=
  match a with
  | .nan => 0
  | .inf neg => clampTo w signed (if neg then -2 ^ 70 else 2 ^ 70)
  | a => clampTo w signed (a.toInt r)

/-- Integer to float, rounded once (R154). -/
def FloatFmt.ofInt (f : FloatFmt) (r : Rnd) (sat : Bool) (v : Int) : Nat :=
  f.round r sat (decide (v < 0)) v.natAbs 0 false

/-- Integer to integer (R153): `sat` clamps a narrowing conversion; the result is taken modulo the destination's width. -/
def intToInt (sat : Bool) (sw : Nat) (ss : Bool) (dw : Nat) (ds : Bool) (v : Int) : Int :=
  let narrows := dw < sw ∨ (dw = sw ∧ ss ≠ ds)
  if sat = true ∧ narrows then clampTo dw ds v else v

/-! ## Sums (R162 to R164) -/

/-- A sum of one value. -/
def FSum.start (code : Nat) (v : FVal) : FSum where
  last := code
  exact := v.dy
  size := v.dy.abs
  nan := v == .nan
  pinf := v == .inf false
  ninf := v == .inf true
  zeros := v.isZero
  negs := v.isZero && v.neg?
  terms := [v.dy]

/-- A sum with one more value. -/
def FSum.add (x : FSum) (v : FVal) : FSum where
  last := x.last
  exact := x.exact.add v.dy
  size := x.size.add v.dy.abs
  nan := x.nan || v == .nan
  pinf := x.pinf || v == .inf false
  ninf := x.ninf || v == .inf true
  zeros := x.zeros && v.isZero
  negs := x.negs && v.isZero && v.neg?
  terms := x.terms ++ [v.dy]

/-- The rational value of a dyadic number. -/
def Dy.rat (x : Dy) : ℚ := x.m * (2 : ℚ) ^ x.e

/-- A code's place in the order of its format, −0 below +0. -/
def FloatFmt.place (f : FloatFmt) (code : Nat) : Int :=
  let mag := code % 2 ^ (f.eb + f.fb)
  if 2 ^ (f.eb + f.fb) ≤ code % 2 ^ f.width then -(mag : Int) - 1 else mag

/-- The code at a place. -/
def FloatFmt.atPlace (f : FloatFmt) (i : Int) : Nat := if i < 0 then f.signed true (-i - 1).toNat else i.toNat

/-- The bound of R162 for one value of a sum of `n` terms in a format with unit 2^−u, upward or downward. The sum of these is the
bound on the sum as R163 leaves it: for (n + 1)·u up to 1 it is exact ± (n + 1)·u·size; beyond that, a value that R162 alone would
let the result fall below must not do so, since the sum with that value lowered to 0 may not. -/
def boundOf (u n : Nat) (up : Bool) (x : Dy) : Dy :=
  let away := if up then decide (0 < x.m) else decide (x.m < 0)
  ⟨x.m * ((if away then 2 ^ u + n + 1 else 2 ^ u - (n + 1) : Nat) : Int), x.e - u⟩

/-- The sum of the bounds of a list of values. -/
def boundSum (u n : Nat) (up : Bool) (l : List Dy) : Dy := l.foldl (fun a x => a.add (boundOf u n up x)) ⟨0, 0⟩

/-- The exact sum is so large that R164 lets the result be an infinity of its sign. -/
def FloatFmt.mayOverflow (f : FloatFmt) (u n : Nat) (x : FSum) : Bool :=
  (f.val f.maxCode).dy.cmp (x.exact.abs.mul ⟨2 ^ u + n + 1, -(u : Int)⟩) == .lt

/-- The lowest place that R162 to R164 allow the result of a finite sum. -/
def FloatFmt.lowest (f : FloatFmt) (u n : Nat) (x : FSum) : Int :=
  if f.mayOverflow u n x && decide (x.exact.m < 0) then f.place (f.infCode false true)
  else f.place (f.ofDy .rup true (boundSum u n false x.terms))

/-- The highest place that R162 to R164 allow the result of a finite sum. -/
def FloatFmt.highest (f : FloatFmt) (u n : Nat) (x : FSum) : Int :=
  if f.mayOverflow u n x && decide (0 < x.exact.m) then f.place (f.infCode false false)
  else f.place (f.ofDy .rdn false (boundSum u n true x.terms))

/-- The place of a rational number that stands on a grid finer than any format's. -/
def FloatFmt.placeOf (f : FloatFmt) (x : ℚ) : Int := f.place (f.ofDy .rup true ⟨⌊x * 2 ^ 1024⌋, -1024⟩)

/-- The result of evaluation `i` of a sum formed in any order (R162 to R164): any place within the bounds, as the free choice
says; an exactly zero sum that comes out as zero is +0 (R143). -/
def FloatFmt.sumOf (f : FloatFmt) (u n : Nat) (x : FSum) (i : Nat) : Nat :=
  if x.nan || (x.pinf && x.ninf) then f.nanCode
  else if x.pinf || x.ninf then f.infCode false x.ninf
  else if x.zeros then f.signed x.negs 0
  else
    let y := Config.sumPick.pick (f.fb + 1) (1 - (f.bias : Int) - f.fb) i (x.terms.map Dy.rat)
    let r := f.atPlace (max (f.lowest u n x) (min (f.highest u n x) (f.placeOf y)))
    if x.exact.m = 0 ∧ (f.val r).isZero then 0 else r

/-- Evaluation `i` of the sum of an accumulator and terms (R162 to R164). -/
def FloatFmt.sumFree (f : FloatFmt) (u : Nat) (n : Nat) (acc : FVal) (terms : List FVal) (i : Nat) : Nat :=
  f.sumOf u n (terms.foldl FSum.add (FSum.start 0 acc)) i

/-- `u` of R162 for a format. -/
def sumUnit (f : FloatFmt) : Nat := if f.fb = 10 then 11 else if f.fb = 7 then 8 else 24

/-! ## Element formats and scales (R147 to R150, R155, R157) -/

/-- The float format of an element format. -/
def Fmt.float : Fmt → FloatFmt
  | .e4m3 => Machine.e4m3
  | .e5m2 => Machine.e5m2
  | .e3m2 => Machine.e3m2
  | .e2m3 => Machine.e2m3
  | .e2m1 => Machine.e2m1
  | .bf16 => Machine.bf16
  | .fp16 => Machine.fp16
  | .int8 | .int4 | .c8 => fp32

/-- Bits of an element (R137, R175). -/
def fmtBits : Fmt → Nat
  | .e4m3 | .e5m2 | .int8 | .c8 => 8
  | .e3m2 | .e2m3 => 6
  | .e2m1 | .int4 => 4
  | .bf16 | .fp16 => 16

/-- The value of a scale byte (R148). -/
def scaleVal (sf : ScaleFmt) (b : Byte) : FVal :=
  match sf with
  | .e8m0 => if b = 0xFF then .nan else .fin false 1 ((b.toNat : Int) - 127)
  | .ue4m3 => if b.getLsbD 7 || b == 0x7F then .nan else e4m3.val b.toNat

/-- emax of R150. -/
def emaxOf : Fmt → Int
  | .e4m3 => 8
  | .e5m2 => 15
  | .e3m2 => 4
  | _ => 2

/-- The scale byte chosen for a run whose largest magnitude is m · 2^e, given as a value (R150). -/
def chooseScale (fmt : Fmt) (sf : ScaleFmt) (amax : FVal) : Byte :=
  match amax with
  | .fin _ m e =>
    if m = 0 then 0
    else
      match sf with
      | .e8m0 => BitVec.ofInt 8 (max (-127) (min 127 (e + m.log2 - emaxOf fmt)) + 127)
      | .ue4m3 =>
        let f := (Fmt.float fmt)
        match f.val f.maxCode with
        | .fin _ n g =>
          let k := 64 + n.log2 - m.log2
          let c := e4m3.roundMag .rup false (m * 2 ^ k / n) (e - g - k) (m * 2 ^ k % n != 0)
          BitVec.ofNat 8 (min c 0x7E)
        | _ => 0
  | _ => if sf = .e8m0 then 0xFF else 0x7F

/-- x / s rounded once into an element format with saturation (R150): +0 under a NaN or zero scale. -/
def quantise (fmt : Fmt) (r : Rnd) (s x : FVal) : Nat :=
  let f := (Fmt.float fmt)
  match s with
  | .fin _ n g =>
    if n = 0 then 0
    else
      match x with
      | .fin neg m e =>
        if m = 0 then f.signed neg 0
        else
          let k := 64 + n.log2 - m.log2
          f.round r true neg (m * 2 ^ k / n) (e - g - k) (m * 2 ^ k % n != 0)
      | v => f.conv r true v
  | _ => 0

/-- A segment of a companding table (R155). -/
def segment (t : Table (BitVec 3 × BitVec 9)) (tab j : Nat) : BitVec 3 × BitVec 9 :=
  tget (0, BitVec.ofNat 9 (8 * j)) t (16 * tab + j)

/-- The magnitude of an index (R156). -/
def c8Mag (t : Table (BitVec 3 × BitVec 9)) (tab m : Nat) : Nat :=
  let (sh, base) := segment t tab (m / 8)
  base.toNat + m % 8 * 2 ^ sh.toNat

/-- c8_expand (R156). -/
def c8Expand (t : Table (BitVec 3 × BitVec 9)) (tab : Nat) (code : Nat) : Int :=
  let mag := c8Mag t tab (code % 128)
  if code / 128 % 2 = 1 then -(mag : Int) else mag

/-- The index nearest to a magnitude, the even one of two equally near (R157). -/
def c8Nearest (t : Table (BitVec 3 × BitVec 9)) (tab : Nat) (x : Dy) : Nat :=
  let dist (m : Nat) : Dy := (x.add ⟨-(c8Mag t tab m : Int), 0⟩).abs
  (List.range 128).foldl (fun best m =>
    match (dist m).cmp (dist best) with
    | .lt => m
    | .eq => if m % 2 = 0 ∧ m ≠ best then m else best
    | _ => best) 0

/-- QCMP's code for a value (R157). -/
def c8Quantise (t : Table (BitVec 3 × BitVec 9)) (tab : Nat) (x : FVal) : Nat :=
  let code (neg : Bool) (m : Nat) : Nat := if m = 0 then 0 else m + if neg then 128 else 0
  match x with
  | .nan => 0
  | .inf neg => code neg 127
  | .fin neg m e => code neg (c8Nearest t tab ⟨m, e⟩)

end Sys2Proof.Machine
end

