-- ==== Sys2Proof/Machine/Approx.lean ====
section
/-! DEFINITION. The six functions that R145 bounds and does not fix: FRCP, FRSQ, FEX2, FLG2, FSIN and FCOS. Each result is a free
candidate when that lies within the bound, and otherwise the exact result rounded to nearest. Irrational results are enclosed
in fixed point, and a candidate is accepted only where the enclosure's error leaves no doubt that it keeps the bound (entry 32). -/

namespace Sys2Proof.Machine

/-- A candidate code as a number; an infinity stands at 2^128, where the next value would be. -/
def candidate (c : Lane) : Option Dy :=
  match fp32.val c.toNat with
  | .nan => none
  | .inf neg => some ⟨if neg then -1 else 1, 128⟩
  | v => some v.dy

/-- One unit in the last place of FP32 at a result in [2^k, 2^(k+1)) (R145). -/
def ulpAt (k : Int) : Dy := ⟨1, max k (-126) - 23⟩

/-- |x − y| ≤ u. -/
def Dy.within (x y u : Dy) : Bool := (x.add y.neg).abs.le u

/-- floor(log2 |x|) of a number that is not zero. -/
def Dy.expo (x : Dy) : Int := x.e + x.m.natAbs.log2

/-- The candidate when the test accepts it, else the reference. -/
def chooseApprox (cand : Lane) (ok : Dy → Bool) (ref : Nat) : Nat :=
  match candidate cand with
  | some v => if ok v then cand.toNat else ref
  | none => ref

/-- FRCP (R145): the test multiplies by a, and so is exact. -/
def approxRcp (cand : Lane) (a : FVal) : Nat :=
  match a with
  | .nan => fp32.nanCode
  | .inf neg => fp32.signed neg 0
  | .fin neg m e =>
    if m = 0 then fp32.infCode false neg
    else
      let k : Int := -(e + m.log2) - (if m = 2 ^ m.log2 then 0 else 1)
      let u := (ulpAt k).mul (Dy.abs a.dy)
      chooseApprox cand (fun v => (v.mul a.dy).within ⟨1, 0⟩ u) (fp32.div .rne (.fin false 1 0) a)

/-- 1/√a rounded to nearest. -/
def rsqrtRef (m : Nat) (e : Int) : Nat :=
  let m1 := if e % 2 = 0 then m else 2 * m
  let e1 := if e % 2 = 0 then e else e - 1
  let q := isqrt (2 ^ 160 / m1) 81
  fp32.round .rne false false q (-(e1 / 2) - 80) (q * q * m1 != 2 ^ 160)

/-- FRSQ (R145): the test squares v ± 2 ulp, and so is exact. -/
def approxRsq (cand : Lane) (a : FVal) : Nat :=
  match a with
  | .nan => fp32.nanCode
  | .inf neg => if neg then fp32.nanCode else 0
  | .fin neg m e =>
    if m = 0 then fp32.infCode false neg
    else if neg then fp32.nanCode
    else
      let l := e + m.log2
      let k : Int := if m = 2 ^ m.log2 then (-l) / 2 else (-(l + 1)) / 2
      let u2 := (ulpAt k).mul ⟨2, 0⟩
      let one : Dy := ⟨1, 0⟩
      let sq (v : Dy) : Dy := (v.mul v).mul a.dy
      chooseApprox cand (fun v =>
        let lo := v.add u2.neg
        let hi := v.add u2
        decide (0 < hi.m) && one.le (sq hi) && (decide (lo.m ≤ 0) || (sq lo).le one)) (rsqrtRef m e)

/-- Fixed-point fraction bits of the enclosures. -/
def fixBits : Nat := 128

/-- `n` numbers 2^(2^-i) for i = 1, 2, …, in fixed point: each the square root of the one before. -/
def rootsOf2 : Nat → Nat → List Nat
  | 0, _ => []
  | n + 1, r =>
    let q := isqrt (r * 2 ^ fixBits) (fixBits + 2)
    q :: rootsOf2 n q

/-- 2^(2^-i) for i = 1 to 128. -/
def roots : List Nat := rootsOf2 fixBits (2 * 2 ^ fixBits)

/-- 2^f for a fraction f of 128 bits, in fixed point: the product of the roots that its bits name. -/
def pow2Frac (f : Nat) : Nat :=
  (roots.zipIdx).foldl (fun acc e => if f / 2 ^ (fixBits - 1 - e.2) % 2 = 1 then acc * e.1 / 2 ^ fixBits else acc)
    (2 ^ fixBits)

/-- A bound less the error of an enclosure. -/
def Dy.less (u err : Dy) : Dy := u.add err.neg

/-- The error of the enclosure of a power in [2^k, 2^(k+1)): below 2^-111 of it. -/
def powError (k : Int) : Dy := ⟨1, k - 111⟩

/-- FEX2 (R145). -/
def approxEx2 (cand : Lane) (a : FVal) : Nat :=
  match a with
  | .nan => fp32.nanCode
  | .inf neg => if neg then 0 else fp32.infCode false false
  | .fin _ _ e =>
    let x := a.dy
    if Dy.le ⟨128, 0⟩ x then fp32.infCode false false
    else if x.cmp ⟨-150, 0⟩ == .lt then 0
    else
      let t : Int := if 0 ≤ e + fixBits then x.m * 2 ^ Int.toNat (e + fixBits) else x.m / 2 ^ Int.toNat (-(e + fixBits))
      let n := t / 2 ^ fixBits
      let f := (t % 2 ^ fixBits).toNat
      let y := pow2Frac f
      let yd : Dy := ⟨y, n - fixBits⟩
      let exact := decide (f = 0) && decide (0 ≤ e + fixBits)
      let u := ((ulpAt n).mul ⟨2, 0⟩).less (if exact then ⟨0, 0⟩ else powError n)
      chooseApprox cand (fun v => v.within yd u) (fp32.round .rne false false y (n - fixBits) (!exact))

/-- One division through a root: the quotient when the root divides, and the bit that this gives. -/
def logStep (s : Nat × Nat) (r : Nat) : Nat × Nat := if r ≤ s.1 then (s.1 * 2 ^ fixBits / r, 2 * s.2 + 1) else (s.1, 2 * s.2)

/-- The fraction of log2 of a mantissa in [1, 2), 128 bits, by division through the roots. -/
def log2Frac (t : Nat) : Nat := (roots.foldl logStep (t, 0)).2

/-- FLG2 (R145). -/
def approxLg2 (cand : Lane) (a : FVal) : Nat :=
  match a with
  | .nan => fp32.nanCode
  | .inf neg => if neg then fp32.nanCode else fp32.infCode false false
  | .fin neg m e =>
    if m = 0 then fp32.infCode false true
    else if neg then fp32.nanCode
    else
      let l : Int := e + m.log2
      let f := if m = 2 ^ m.log2 then 0 else log2Frac (m * 2 ^ fixBits / 2 ^ m.log2)
      let y : Dy := ⟨l * 2 ^ fixBits + f, -(fixBits : Int)⟩
      if m = 2 ^ m.log2 ∧ l = 0 then 0
      else
        let err : Dy := if m = 2 ^ m.log2 then ⟨0, 0⟩ else ⟨1, -112⟩
        let u2 := (ulpAt y.expo).mul ⟨2, 0⟩
        let near := Dy.le ⟨1, -1⟩ a.dy && a.dy.le ⟨2, 0⟩
        let b0 := if near && u2.le ⟨1, -22⟩ then (⟨1, -22⟩ : Dy) else u2
        chooseApprox cand (fun v => v.within y (b0.less err)) (fp32.ofDy .rne false y)

/-- 2π · 2^128. -/
def twoPi : Nat := 0x6487ED5110B4611A62633145C06E0E688

/-- Fraction bits of the series for sine and cosine. -/
def trigBits : Nat := 96

/-- The terms x^n / n! of a fixed-point x, from `n` on. -/
def powers (x : Int) : Nat → Nat → Int → List Int
  | 0, _, _ => []
  | k + 1, n, t => t :: powers x k (n + 1) (t * x / 2 ^ trigBits / ((n : Int) + 1))

/-- Sine or cosine of an angle in [0, 2π) in fixed point, by the series to the 60th power. -/
def trigSeries (cosine : Bool) (x : Int) : Int :=
  ((powers x 60 0 (2 ^ trigBits)).zipIdx).foldl (fun acc e =>
    if e.2 % 2 = (if cosine then 0 else 1) then (if e.2 / 2 % 2 = 0 then acc + e.1 else acc - e.1) else acc) 0

/-- FSIN and FCOS (R145). -/
def approxTrig (cosine : Bool) (cand : Lane) (a : FVal) : Nat :=
  match a with
  | .nan => fp32.nanCode
  | .inf _ => fp32.nanCode
  | .fin neg m e =>
    if m = 0 then (if cosine then fp32.round .rne false false 1 0 false else fp32.signed neg 0)
    else
      let x := a.dy
      if Dy.le x.abs ⟨1, 20⟩ then
        let t : Int := if 0 ≤ e + trigBits then x.m * 2 ^ Int.toNat (e + trigBits) else x.m / 2 ^ Int.toNat (-(e + trigBits))
        let r := t * 2 ^ 32 % (twoPi : Int) / 2 ^ 32
        let y : Dy := ⟨trigSeries cosine r, -(trigBits : Int)⟩
        chooseApprox cand (fun v => v.within y (Dy.less ⟨1, -21⟩ ⟨1, -80⟩)) (fp32.ofDy .rne false y)
      else chooseApprox cand (fun v => v.abs.le ⟨1, 0⟩) 0

end Sys2Proof.Machine
end

