-- ==== Sys2Proof/Machine/VectorFloat.lean ====
section
/-! DEFINITION. The vector float family: FP32 arithmetic (R340 to R343), FCMP (R344), and the half-precision pairs (R346). -/

namespace Sys2Proof.Machine

/-- A lane of A. -/
def Ctx.lane (x : Ctx) (r : VReg) (l : Nat) : Lane := x.g.getV ((vnum x.run.xs r).getD 0) l

/-- A lane of B: a scalar supplies its bits [31:0] to every lane (R301). -/
def Ctx.vsLane (x : Ctx) (b : VS) (l : Nat) : Lane :=
  match b with
  | .vec r => x.lane r l
  | .sca r => (x.sreg r).extractLsb' 0 32

/-- Writes a code in each active lane. -/
def Ctx.toLanes (x : Ctx) (d : VReg) (f : Nat → Nat) : Res :=
  x.done (x.g.writeLanes ((vnum x.run.xs d).getD 0) x.act (fun l => BitVec.ofNat 32 (f l)))

/-- A binary FP32 operation, on the codes of A, B and the old D (R341). -/
def Ctx.float3 (x : Ctx) (d a : VReg) (b : VS) (f : Nat → Nat → Nat → Nat) : Res :=
  x.toLanes d (fun l => f (x.lane a l).toNat (x.vsLane b l).toNat (x.lane d l).toNat)

/-- A function that R145 bounds; each lane has a free candidate of its own (R145). -/
def Ctx.float2 (x : Ctx) (d a : VReg) (f : FVal → Lane → Nat) : Res :=
  let x1 : Ctx := { x with s := { x.s with free := x.s.free + 32 } }
  x1.toLanes d (fun l => f (fp32.val (x.lane a l).toNat) (Config.freeWord (x.s.free + l)))

/-- FADD (R340, R341). -/
def execFadd (c : Ctl) (rnd : Rnd) (d a : VReg) (b : VS) (s : State) : Out :=
  issue (.fadd c rnd d a b) c false (fun x => x.float3 d a b (fun a b _ => fp32.add rnd (fp32.val a) (fp32.val b))) s

/-- FSUB (R340, R341). -/
def execFsub (c : Ctl) (rnd : Rnd) (d a : VReg) (b : VS) (s : State) : Out :=
  issue (.fsub c rnd d a b) c false (fun x => x.float3 d a b (fun a b _ => fp32.add rnd (fp32.val a) (fp32.val b).negate)) s

/-- FMUL (R340, R341). -/
def execFmul (c : Ctl) (rnd : Rnd) (d a : VReg) (b : VS) (s : State) : Out :=
  issue (.fmul c rnd d a b) c false (fun x => x.float3 d a b (fun a b _ => fp32.mul rnd (fp32.val a) (fp32.val b))) s

/-- FFMA (R340, R341). -/
def execFfma (c : Ctl) (rnd : Rnd) (d a : VReg) (b : VS) (s : State) : Out :=
  issue (.ffma c rnd d a b) c false (fun x => x.float3 d a b (fun a b d => fp32.fma rnd (fp32.val a) (fp32.val b) (fp32.val d))) s

/-- FMIN (R340, R341). -/
def execFmin (c : Ctl) (rnd : Rnd) (d a : VReg) (b : VS) (s : State) : Out :=
  issue (.fmin c rnd d a b) c false (fun x => x.float3 d a b (fun a b _ => fp32.minNum a b)) s

/-- FMAX (R340, R341). -/
def execFmax (c : Ctl) (rnd : Rnd) (d a : VReg) (b : VS) (s : State) : Out :=
  issue (.fmax c rnd d a b) c false (fun x => x.float3 d a b (fun a b _ => fp32.maxNum a b)) s

/-- FDIV (R340, R341). -/
def execFdiv (c : Ctl) (rnd : Rnd) (d a : VReg) (b : VS) (s : State) : Out :=
  issue (.fdiv c rnd d a b) c false (fun x => x.float3 d a b (fun a b _ => fp32.div rnd (fp32.val a) (fp32.val b))) s

/-- FSQRT (R340, R341). -/
def execFsqrt (c : Ctl) (rnd : Rnd) (d a : VReg) (s : State) : Out :=
  issue (.fsqrt c rnd d a) c false (fun x => x.toLanes d (fun l => fp32.sqrt rnd (fp32.val (x.lane a l).toNat))) s

/-- FRCP (R340, R341, R145). -/
def execFrcp (c : Ctl) (rnd : Rnd) (d a : VReg) (s : State) : Out :=
  issue (.frcp c rnd d a) c false (fun x => x.float2 d a (fun a c => approxRcp c a)) s

/-- FRSQ (R340, R341, R145). -/
def execFrsq (c : Ctl) (rnd : Rnd) (d a : VReg) (s : State) : Out :=
  issue (.frsq c rnd d a) c false (fun x => x.float2 d a (fun a c => approxRsq c a)) s

/-- FEX2 (R340, R341, R145). -/
def execFex2 (c : Ctl) (rnd : Rnd) (d a : VReg) (s : State) : Out :=
  issue (.fex2 c rnd d a) c false (fun x => x.float2 d a (fun a c => approxEx2 c a)) s

/-- FLG2 (R340, R341, R145). -/
def execFlg2 (c : Ctl) (rnd : Rnd) (d a : VReg) (s : State) : Out :=
  issue (.flg2 c rnd d a) c false (fun x => x.float2 d a (fun a c => approxLg2 c a)) s

/-- FSIN (R340, R341, R145). -/
def execFsin (c : Ctl) (rnd : Rnd) (d a : VReg) (s : State) : Out :=
  issue (.fsin c rnd d a) c false (fun x => x.float2 d a (fun a c => approxTrig false c a)) s

/-- FCOS (R340, R341, R145). -/
def execFcos (c : Ctl) (rnd : Rnd) (d a : VReg) (s : State) : Out :=
  issue (.fcos c rnd d a) c false (fun x => x.float2 d a (fun a c => approxTrig true c a)) s

/-- FRND (R340, R341). -/
def execFrnd (c : Ctl) (rnd : Rnd) (d a : VReg) (s : State) : Out :=
  issue (.frnd c rnd d a) c false (fun x => x.toLanes d (fun l => fp32.toIntegral rnd (fp32.val (x.lane a l).toNat))) s

/-- FCMP (R344): all 32 bits of pD are written, also without an active lane. -/
def execFcmp (c : Ctl) (cond : Cond) (d : BitVec 4) (a : VReg) (b : VS) (s : State) : Out :=
  issue (.fcmp c cond d a b) c true
    (fun x => x.done (x.g.setP d.toNat (compareMask x.act (fun l =>
      condHolds cond ((fp32.val (x.lane a l).toNat).cmp (fp32.val (x.vsLane b l).toNat)))))) s

/-- The format of each half (R346). -/
def halfFmt (ty : Ty) : FloatFmt := if ty = .bf16x2 then bf16 else fp16

/-- A half-precision operation on both halves of each active lane (R346). -/
def Ctx.half3 (x : Ctx) (ty : Ty) (d a : VReg) (b : VS) (f : FloatFmt → FVal → FVal → FVal → Nat) : Res :=
  let q := halfFmt ty
  let part (w : Lane) (h : Nat) : FVal := q.val (w.toNat / 2 ^ (16 * h) % 65536)
  x.toLanes d (fun l =>
    let r (h : Nat) : Nat := f q (part (x.lane a l) h) (part (x.vsLane b l) h) (part (x.lane d l) h)
    r 0 + 65536 * r 1)

/-- HADD (R346). -/
def execHadd (c : Ctl) (ty : Ty) (rnd : Rnd) (d a : VReg) (b : VS) (s : State) : Out :=
  issue (.hadd c ty rnd d a b) c false (fun x => x.half3 ty d a b (fun q a b _ => q.add rnd a b)) s

/-- HMUL (R346). -/
def execHmul (c : Ctl) (ty : Ty) (rnd : Rnd) (d a : VReg) (b : VS) (s : State) : Out :=
  issue (.hmul c ty rnd d a b) c false (fun x => x.half3 ty d a b (fun q a b _ => q.mul rnd a b)) s

/-- HFMA (R346). -/
def execHfma (c : Ctl) (ty : Ty) (rnd : Rnd) (d a : VReg) (b : VS) (s : State) : Out :=
  issue (.hfma c ty rnd d a b) c false (fun x => x.half3 ty d a b (fun q a b d => q.fma rnd a b d)) s

end Sys2Proof.Machine
end

