-- ==== Sys2Proof/Machine/Convert.lean ====
section
/-! DEFINITION. The conversion family: CVT, CVTP and DQCVT (R332 to R337), QSCL, QCVT and QCMP (R375 to R378). -/

namespace Sys2Proof.Machine

/-- The float format of a type (R286). -/
def tyFloat : Ty → Option FloatFmt
  | .f32 => some fp32
  | .f16x2 => some fp16
  | .bf16x2 => some bf16
  | _ => none

/-- One element converted by CVT (R334). DESIGN CHOICE (entry 119): between f16x2 and bf16x2, formats of one width, it rounds as R151
does for a narrower format. -/
def cvtElem (dty sty : Ty) (sat : Bool) (rnd : Rnd) (a : Nat) : Nat :=
  let sw := elemWidth sty
  let dw := elemWidth dty
  match tyFloat sty, tyFloat dty with
  | some f, some g => if sty = dty then g.conv rnd false (f.val a) else g.conv rnd sat (f.val a)
  | some f, none => packElems dw [floatToInt rnd dw (tySigned dty) (f.val a)]
  | none, some g => g.ofInt rnd sat (elemVal sw (tySigned sty) a)
  | none, none => packElems dw [intToInt sat sw (tySigned sty) dw (tySigned dty) (elemVal sw (tySigned sty) a)]

/-- CVT (R332 to R334). -/
def execCvt (c : Ctl) (dty sty : Ty) (sat : Bool) (rnd : Rnd) (d a : VReg) (s : State) : Out :=
  issue (.cvt c dty sty sat rnd d a) c false
    (fun x => x.toV dty d (fun l =>
      let w := x.vval sty a l
      BitVec.ofNat 64 (packElems (elemWidth dty) ((List.range (elemCount sty)).map (fun i =>
        (cvtElem dty sty sat rnd (elemAt (elemWidth sty) w i) : Int)))))) s

/-- Element `i` of a run of vector registers in a lane (R335). -/
def Ctx.runLane (x : Ctx) (r : VReg) (i l : Nat) : Lane := x.g.getV ((vnum x.run.xs r).getD 0 + i) l

/-- One element encoded by CVTP from f32 or i32 (R335). -/
def cvtpElem (dst : Fmt) (sty : Ty) (sat : Bool) (rnd : Rnd) (a : Lane) : Nat :=
  match dst with
  | .int8 | .int4 =>
    let w := fmtBits dst
    packElems w [if sty = .f32 then floatToInt rnd w true (fp32.val a.toNat) else intToInt sat 32 true w true a.toInt]
  | _ => (Fmt.float dst).conv rnd sat (fp32.val a.toNat)

/-- Packs the m elements of a word (R335, R377, R378). -/
def packWord (dst : Fmt) (f : Nat → Nat) : Nat :=
  packElems (fmtBits dst) ((List.range dst.perWord).map (fun i => (f i : Int)))

/-- CVTP (R335). -/
def execCvtp (c : Ctl) (dst : Fmt) (sty : Ty) (sat : Bool) (rnd : Rnd) (d a : VReg) (s : State) : Out :=
  issue (.cvtp c dst sty sat rnd d a) c false
    (fun x => x.toLanes d (fun l => packWord dst (fun i => cvtpElem dst sty sat rnd (x.runLane a i l)))) s

/-- Elements of a scaled block (R148). -/
def blkLen : BlkLen → Nat
  | .none => 0
  | .l16 => 16
  | .l32 => 32
  | .l64 => 64

/-- The block scale of a lane's elements: 1 when unscaled, else from the byte in lane ⌊l·m/L⌋ of a register, read whether
that lane is active or not (R336, R377). -/
def Ctx.scaleOf (x : Ctx) (fmt : Fmt) (sf : ScaleFmt) (len : BlkLen) (a : VReg) (k l : Nat) : FVal :=
  if len = .none then .fin false 1 0
  else scaleVal sf ((x.runLane a k (l * fmt.perWord / blkLen len)).extractLsb' 0 8)

/-- The integer of an INT8, INT4 or C8 element (R156, R336). -/
def intElem (ct : Table (BitVec 3 × BitVec 9)) (tab : Nat) (src : Fmt) (a : Nat) : Int :=
  match src with
  | .c8 => c8Expand ct tab a
  | _ => elemVal (fmtBits src) true a

/-- A signed integer as a value. -/
def intVal (v : Int) : FVal := .fin (decide (v < 0)) v.natAbs 0

/-- One element of DQCVT (R336): a finite product beyond FP32 is saturated under `.sat` (R333). -/
def dqElem (ct : Table (BitVec 3 × BitVec 9)) (tab : Nat) (src : Fmt) (dty : Ty) (sat : Bool) (rnd : Rnd) (sc : FVal)
    (a : Nat) : Nat :=
  match src with
  | .int8 | .int4 | .c8 =>
    let v := intElem ct tab src a
    if dty = .f32 then fp32.conv rnd false (intVal v) else packElems 32 [v]
  | _ =>
    match sc.mul ((Fmt.float src).val a) with
    | .fin neg m e => fp32.conv rnd sat (.fin neg m e)
    | v => fp32.conv rnd false v

/-- An earlier CTLD stands in the core's queue (R326). -/
def ctldAhead (s : State) (k : Nat) : Bool :=
  (s.core k).queue.any (fun o =>
    match tfind s.ops o with
    | some op => (match op.kind with | .ctld _ => true | _ => false)
    | none => false)

/-- Writes a run of registers in the active lanes. -/
def Group.writeRun (g : Group) (n m : Nat) (act : Mask) (f : Nat → Nat → Lane) : Group :=
  (List.range m).foldl (fun g' i => g'.writeLanes (n + i) act (f i)) g

/-- DQCVT (R336): a C8 source waits for an earlier CTLD of the core (R326). -/
def execDqcvt (c : Ctl) (dty : Ty) (src : Fmt) (tab : BitVec 2) (len : BlkLen) (sat : Bool) (rnd : Rnd) (d a : VReg)
    (s : State) : Out :=
  issue (.dqcvt c dty src tab len sat rnd d a) c false
    (fun x =>
      let k := (x.s.blockOf x.g).core
      if src = .c8 ∧ ctldAhead x.s k then .wait
      else
        let ct := (x.s.core k).ctab
        let sf : ScaleFmt := if tab = 0 then .e8m0 else .ue4m3
        x.done (x.g.writeRun ((vnum x.run.xs d).getD 0) src.perWord x.act (fun i l =>
          BitVec.ofNat 32 (dqElem ct tab.toNat src dty sat rnd (x.scaleOf src sf len a 1 l)
            (elemAt (fmtBits src) ((x.lane a l).zeroExtend 64) i))))) s

/-- The largest magnitude of a list of values: a NaN or an infinity stands for itself (R150). -/
def largest (l : List FVal) : FVal :=
  if l.any (fun v => v == .nan) then .nan
  else
    l.foldl (fun acc v =>
      match acc, v with
      | .inf _, _ => acc
      | _, .inf _ => .inf false
      | _, _ => if acc.dy.abs.cmp v.dy.abs == .lt then v else acc) (.fin false 0 0)

/-- QSCL (R376): lane b of D is written when block b holds an active lane. -/
def execQscl (c : Ctl) (dst : Fmt) (sf : ScaleFmt) (len : BlkLen) (d a : VReg) (s : State) : Out :=
  issue (.qscl c dst sf len d a) c false
    (fun x =>
      let m := dst.perWord
      let span := blkLen len / m
      let n := (vnum x.run.xs d).getD 0
      let blockLanes (b : Nat) : List Nat := (lanesOf x.act).filter (fun l => l / span == b)
      let scale (b : Nat) : Byte := chooseScale dst sf (largest
        ((blockLanes b).flatMap (fun l => (List.range m).map (fun i => fp32.val (x.runLane a i l).toNat))))
      x.done ((List.range (32 / span)).foldl (fun g' b =>
        if (blockLanes b).isEmpty then g' else g'.setV n b ((scale b).zeroExtend 32)) x.g)) s

/-- QCVT (R377). -/
def execQcvt (c : Ctl) (dst : Fmt) (sf : ScaleFmt) (len : BlkLen) (rnd : Rnd) (d a : VReg) (s : State) : Out :=
  issue (.qcvt c dst sf len rnd d a) c false
    (fun x => x.toLanes d (fun l => packWord dst (fun i =>
      quantise dst rnd (x.scaleOf dst sf len a dst.perWord l) (fp32.val (x.runLane a i l).toNat)))) s

/-- QCMP (R378): it waits for an earlier CTLD of the core (R326). -/
def execQcmp (c : Ctl) (tab : BitVec 2) (d a : VReg) (s : State) : Out :=
  issue (.qcmp c tab d a) c false
    (fun x =>
      let k := (x.s.blockOf x.g).core
      if ctldAhead x.s k then .wait
      else
        let ct := (x.s.core k).ctab
        x.toLanes d (fun l => packWord .c8 (fun i => c8Quantise ct tab.toNat (fp32.val (x.runLane a i l).toNat)))) s

end Sys2Proof.Machine
end

