-- ==== Sys2Proof/Machine/Lane.lean ====
section
/-! DEFINITION. VRED and VSCAN (R302, R421, R422). -/

namespace Sys2Proof.Machine

/-- Two integer elements combined (R302, R422). -/
def redInt (op : RedOp) (w : Nat) (signed : Bool) (a b : Nat) : Nat :=
  match op with
  | .add => (a + b) % 2 ^ w
  | .min => if elemVal w signed b < elemVal w signed a then b else a
  | .max => if elemVal w signed a < elemVal w signed b then b else a
  | .and => a &&& b
  | .or => a ||| b
  | .xor => a ^^^ b

/-- The identity of an operation on an element of a type (R302, R422). -/
def redIdentity (op : RedOp) (ty : Ty) : Nat :=
  let w := elemWidth ty
  match tyFloat ty with
  | some f =>
    (match op with
      | .min => f.infCode false false
      | .max => f.infCode false true
      | _ => 0)
  | none =>
    match op with
    | .add | .or | .xor => 0
    | .and => 2 ^ w - 1
    | .min => if tySigned ty then 2 ^ (w - 1) - 1 else 2 ^ w - 1
    | .max => if tySigned ty then 2 ^ (w - 1) else 0

/-- A list of elements combined: the identity for none. A float sum adds the elements to +0 in any order (R162 to R164), as
evaluation `free`. -/
def redElems (op : RedOp) (ty : Ty) (free : Nat) (l : List Nat) : Nat :=
  match tyFloat ty with
  | some f =>
    (match op with
      | .min => l.foldl f.minNum (l.head?.getD (redIdentity op ty))
      | .max => l.foldl f.maxNum (l.head?.getD (redIdentity op ty))
      | _ => if l.isEmpty then 0 else f.sumFree (sumUnit f) l.length (.fin false 0 0) (l.map f.val) free)
  | none => l.foldl (redInt op (elemWidth ty) (tySigned ty)) (redIdentity op ty)

/-- Operand A combined over a list of lanes, for each element position (R422). -/
def Ctx.redLanes (x : Ctx) (op : RedOp) (ty : Ty) (a : VReg) (ls : List Nat) (free : Nat) : Word :=
  let w := elemWidth ty
  BitVec.ofNat 64 (packElems w ((List.range (elemCount ty)).map (fun i =>
    (redElems op ty (free + i) (ls.map (fun l => elemAt w (x.vval ty a l) i)) : Int))))

/-- Takes the evaluations of a reduction's sums. -/
def Ctx.takeFree (x : Ctx) (n : Nat) : Ctx := { x with s := { x.s with free := x.s.free + n } }

/-- VRED (R302, R421, R422): the combination over all active lanes, in every active lane. -/
def execVred (c : Ctl) (ty : Ty) (op : RedOp) (d a : VReg) (s : State) : Out :=
  issue (.vred c ty op d a) c false
    (fun x =>
      let v := x.redLanes op ty a (lanesOf x.act) x.s.free
      (if ty.float then x.takeFree 2 else x).toV ty d (fun _ => v)) s

/-- VSCAN (R302, R421, R422): the combination over the active lanes below. -/
def execVscan (c : Ctl) (ty : Ty) (op : RedOp) (d a : VReg) (s : State) : Out :=
  issue (.vscan c ty op d a) c false
    (fun x => (if ty.float then x.takeFree 64 else x).toV ty d (fun l =>
      x.redLanes op ty a ((lanesOf x.act).filter (fun m => decide (m < l))) (x.s.free + 2 * l))) s

end Sys2Proof.Machine
end

