-- ==== Sys2Proof/Machine/Resolve.lean ====
section
/-! DEFINITION. The resolution of the writes that meet in one word or 64-bit unit in one step (R84 to R90), for local closes and
for commits alike, and the writes that one access makes. -/

namespace Sys2Proof.Machine

/-! ## The writes of one access -/

/-- The rule of a store (R88, R89). -/
def wrule (r : Rule) (sum : SumTy) : WRule :=
  match r with
  | .lo => .lo
  | .any => .any
  | .sum => .sum sum
  | .flt => .flt

/-- Sums of 64-bit integers resolve as one unit (R84). -/
def WRule.unit64 : WRule → Bool
  | .sum .i64 | .acc .i64 => true
  | _ => false

/-- A rule under which R86 replaces earlier stores of a writer. -/
def WRule.plain : WRule → Bool
  | .acc _ => false
  | _ => true

/-- The writes of `n` bytes at a key, word by word with byte masks, or as one 64-bit unit (R84). `w` gives what they share. -/
def splitWrite (w : Write) (key : Nat) (va : Word) (n : Nat) (x : Word) : List Write :=
  if w.rule.unit64 then [{ w with key := key, va := va, wide := true, mask := 0xFF, val := x }]
  else if n = 8 then
    [{ w with key := key, va := va, wide := false, mask := 0x0F, val := (x.extractLsb' 0 32).zeroExtend 64 },
     { w with key := key + 4, va := va + 4, wide := false, mask := 0x0F, val := (x.extractLsb' 32 32).zeroExtend 64 }]
  else
    let o := key % 4
    [{ w with
        key := key - o, va := va - BitVec.ofNat 64 o, wide := false, mask := BitVec.ofNat 8 ((2 ^ n - 1) * 2 ^ o),
        val := BitVec.ofNat 64 (x.toNat % 2 ^ (8 * n) * 2 ^ (8 * o)) }]

/-! ## Units -/

def Write.sameWriter (a b : Write) : Bool := a.wid == b.wid && a.ord == b.ord

/-- The bytes of a write that another one covers. -/
def Write.covered (w v : Write) : BitVec 8 := if w.key ≤ v.key then v.mask <<< (v.key - w.key) else v.mask >>> (w.key - v.key)

/-- The bytes of a lane's plain store that a later plain store of the same writer does not replace (R86). -/
def keptMask (ws : List Write) (w : Write) : BitVec 8 :=
  if w.engine || !w.rule.plain then w.mask
  else
    ws.foldl (fun m v =>
      if !v.engine && v.rule.plain && v.sameWriter w && decide (w.seq < v.seq) then m &&& ~~~(w.covered v) else m) w.mask

/-- The writes that take part in resolution (R86). -/
def takePart (ws : List Write) : List Write :=
  (ws.map (fun w => { w with mask := keptMask ws w })).filter (fun w => w.mask != 0)

/-- The doublewords that a list of writes writes as 64-bit units. -/
def wideKeys (ws : List Write) : List Nat := distinct ((ws.filter (fun w => w.wide)).map (fun w => w.key))

/-- The unit of the word at a key: the aligned doubleword when a 64-bit unit of it is written, else the word. -/
def unitAt (wd : List Nat) (key : Nat) : Nat × Bool := if wd.contains (key / 8 * 8) then (key / 8 * 8, true) else (key, false)

/-- The units that the writes of a list which take part touch, ascending. -/
def unitsOf (ws0 : List Write) : List (Nat × Bool) :=
  let ws := takePart ws0
  let wd := wideKeys ws
  (distinct (ws.map (fun w => 2 * (unitAt wd w.key).1 + (unitAt wd w.key).2.toNat))).map (fun n => (n / 2, n % 2 == 1))

/-- A write as it stands within a unit: mask and value moved to the unit's bytes. -/
def Write.within (w : Write) (base : Nat) : Write :=
  let o := w.key - base
  { w with key := base, va := w.va - BitVec.ofNat 64 o, mask := w.mask <<< o, val := w.val <<< (8 * o) }

/-- The writes of a unit that take part, each moved to it. -/
def inUnit (ws0 : List Write) (u : Nat × Bool) : List Write :=
  let ws := takePart ws0
  let wd := wideKeys ws
  (ws.filter (fun w => unitAt wd w.key == u)).map (fun w => w.within u.1)

/-! ## Resolution -/

/-- The permutation of a list that a number names. -/
def permute {α : Type} : Nat → List α → List α
  | _, [] => []
  | n, x :: xs =>
    let l := permute (n / (xs.length + 1)) xs
    l.take (n % (xs.length + 1)) ++ x :: l.drop (n % (xs.length + 1))

/-- A writer's identity as a number that orders identities (R85). -/
def Write.ident (w : Write) : Nat := w.wid.toNat * 2 ^ 64 + w.ord

/-- Puts the masked bytes of a write over a value. -/
def putBytes (old : Word) (mask : BitVec 8) (x : Word) : Word :=
  (List.range 8).foldl (fun acc i =>
    if mask.getLsbD i then (acc &&& ~~~(0xFF#64 <<< (8 * i))) ||| (x &&& (0xFF#64 <<< (8 * i))) else acc) old

/-- Two of the writes have a byte in common (R88). -/
def clash : List Write → Bool
  | [] => false
  | w :: ws => ws.any (fun v => v.mask &&& w.mask != 0) || clash ws

/-- The float format of a sum type's elements. -/
def sumFloat : SumTy → Option FloatFmt
  | .f32 => some fp32
  | .bf16x2 => some bf16
  | .f16x2 => some fp16
  | _ => none

/-- The bits of an element of a sum type (R89). -/
def sumWidth : SumTy → Nat
  | .n32 | .f32 => 32
  | .i64 => 64
  | .bf16x2 | .f16x2 => 16

/-- One element summed (R88, R89, R162 to R164). `acc` is the old value of an accumulating store; a single .sum writer gives its
own value, a NaN in canonical form and a zero as +0, since the start value is 0. -/
def sumElem (ty : SumTy) (acc : Option Nat) (xs : List Nat) (free : Nat) : Nat :=
  match sumFloat ty with
  | none => (xs.sum + acc.getD 0) % 2 ^ sumWidth ty
  | some f =>
    match acc, xs with
    | none, [x] => if f.val x = .nan then f.nanCode else if (f.val x).isZero then 0 else x
    | none, xs => f.sumFree (sumUnit f) xs.length (.fin false 0 0) (xs.map f.val) free
    | some a, xs => f.sumFree (sumUnit f) xs.length (f.val a) (xs.map f.val) free

/-- A word or unit summed, element by element; `free` numbers its evaluations. -/
def sumWord (ty : SumTy) (acc : Option Word) (xs : List Word) (free : Nat) : Word :=
  let w := sumWidth ty
  BitVec.ofNat 64 (packElems w ((List.range (if ty = .i64 then 1 else 32 / w)).map (fun i =>
    (sumElem ty (acc.map (fun a => elemAt w a i)) (xs.map (fun x => elemAt w x i)) (free + i) : Int))))

/-- What a unit becomes. -/
structure Resolved where
  val : Word
  /-- Resolved as a .flt collision (R88, R90). -/
  hit : Bool
  mixed : Bool
  deriving DecidableEq, Repr

/-- The writes of one rule resolved over an old value; none for a collision (R88). -/
def resolveRule (rule : WRule) (old : Word) (ws : List Write) (order free : Nat) : Option Word :=
  let put (l : List Write) : Word := l.foldl (fun x w => putBytes x w.mask w.val) old
  let byId := (sortBy Write.ident (permute order ws)).reverse
  match rule with
  | .lo => some (put byId)
  | .any => some (put (permute order ws))
  | .flt => if clash ws then none else some (put ws)
  | .sum ty => some (sumWord ty none (ws.map (fun w => w.val)) free)
  | .acc ty => some (sumWord ty (some old) (ws.map (fun w => w.val)) free)

/-- The writes that meet in a unit, resolved over its old value (R86, R88, R90). `order` names the order that .any takes. -/
def resolve (old : Word) (ws0 : List Write) (order free : Nat) : Resolved :=
  let ws := takePart ws0
  match ws with
  | [] => ⟨old, false, false⟩
  | w :: rest =>
    if rest.all (fun v => v.rule == w.rule && v.wide == w.wide) then
      match resolveRule w.rule old ws order free with
      | some x => ⟨x, false, false⟩
      | none => ⟨old, true, false⟩
    else ⟨old, true, true⟩

/-- One of the writes stores all four bytes of a word of the unit under a plain rule other than .sum (R242). -/
def clearsPoison (ws : List Write) (o : Nat) : Bool :=
  (takePart ws).any (fun w =>
    (match w.rule with | .lo | .any | .flt => true | _ => false) && (w.mask >>> o) &&& 0xF#8 == 0xF#8)

/-- Bytes of a unit. -/
def unitBytes (u : Nat × Bool) : Nat := if u.2 then 8 else 4

/-- The value of a unit in a memory. -/
def unitOld (m : Table Byte) (u : Nat × Bool) : Word := BitVec.ofNat 64 (rdN m u.1 (unitBytes u))

/-- Stores the value of a unit. -/
def unitPut (m : Table Byte) (u : Nat × Bool) (x : Word) : Table Byte := wrN m u.1 (unitBytes u) x.toNat

/-- The poison marks that remain once a unit is resolved without a collision (R242). -/
def unpoison (marks : List Nat) (u : Nat × Bool) (ws : List Write) : List Nat :=
  marks.filter (fun k =>
    !(decide (u.1 ≤ k) && decide (k < u.1 + unitBytes u) && clearsPoison ws (k - u.1)))

/-- The record of a collision (R92 to R95). -/
def collisionRec (u : Nat × Bool) (ws0 : List Write) (r : Resolved) (step : Nat) (loc : Bool) (die core : BitVec 16) : LogRec :=
  let ws := takePart ws0
  let ids := ws.map Write.ident
  let lo := ids.foldl min (ids.head?.getD 0)
  let hi := ids.foldl max 0
  { addr := (ws.head?.map (fun w => w.va)).getD (BitVec.ofNat 64 u.1)
    step := step, count := (distinct ids).length, loc := loc, mixed := r.mixed, engine := ws.any (fun w => w.engine),
    die := die, core := core,
    loWid := BitVec.ofNat 64 (lo / 2 ^ 64), loOrd := lo % 2 ^ 64, hiWid := BitVec.ofNat 64 (hi / 2 ^ 64),
    hiOrd := hi % 2 ^ 64, grps := distinct (ws.map (fun w => w.grp)) }

end Sys2Proof.Machine
end

