-- ==== Sys2Proof/Machine/Memory.lean ====
section
/-! DEFINITION. The memory family: vector loads (R349 to R354), vector stores (R410 to R413), scalar loads and stores (R398 to R401),
PFG (R372, R373) and PGREQ (R374, R215). -/

namespace Sys2Proof.Machine

/-! ## Addresses (R284) -/

/-- The address of a lane; the wide form of a global access takes it from a pair. -/
def Ctx.vaddr (x : Ctx) (glob : Bool) (m : VMem) (l : Nat) : Word :=
  match m.a with
  | some a =>
    x.sreg a + (match m.b with
      | .vec r => (x.lane r l).signExtend 64
      | .sca r => x.sreg r
      | .imm i => immW i)
  | none =>
    match m.b with
    | .vec r => if glob then x.g.getV64 ((vnum x.run.xs r).getD 0) l else (x.lane r l).zeroExtend 64
    | .sca r => x.sreg r
    | .imm i => immW i

/-- The address of a scalar access. -/
def Ctx.saddr (x : Ctx) (m : SMem) : Word :=
  match m.a with
  | some a => x.sreg a + x.ssrc m.b
  | none => x.ssrc m.b

/-- Bytes of local store that a level may address (R103, R352). -/
def localLimit (b : Block) (sys : Bool) : Nat := if sys then b.bytes + b.groups.length * b.spill else b.bytes

/-- A poisoned word of a block's local store within `n` bytes at `a` (R242). -/
def Block.poisoned (b : Block) (a n : Nat) : Bool := b.poison.any (fun w => decide (a < w + 4) && decide (w < a + n))

/-- The lowest of the addresses of a list of lanes. -/
def lowestAddr (addr : Nat → Word) (ls : List Nat) : Word :=
  match ls with
  | [] => 0
  | l :: r => r.foldl (fun a m => if (addr m).toNat < a.toNat then addr m else a) (addr l)

/-! ## Faults of lanes (R209) -/

/-- A lane that failed a check. -/
structure BadLane where
  lane : Nat
  va : Word
  cause : Nat
  info : Info
  deriving DecidableEq, Repr

/-- The order in which causes are reported (R209). -/
def causeRank (c : Nat) : Nat := if c = 0x11 then 0 else if c = 0x13 then 1 else if c = 0x12 then 2 else 3

/-- The trap of lanes that failed their checks: the first cause, every lane, the lowest address with that cause (R209). -/
def laneTrap (bad : List BadLane) : Option TrapInfo :=
  (bad.foldl (fun (acc : Option BadLane) b =>
    match acc with
    | none => some b
    | some a =>
      if causeRank b.cause < causeRank a.cause ∨ (causeRank b.cause = causeRank a.cause ∧ b.va.toNat < a.va.toNat)
      then some b else acc) none).map (fun b =>
    { cause := b.cause, addr := b.va, info := if b.cause = 0x14 then 0 else b.info.word,
      lanes := maskOf (fun l => bad.any (fun x => x.lane == l)) })

/-- The whole instruction's alignment check (R104, R209). -/
def Ctx.misaligned (x : Ctx) (addr : Nat → Word) (n : Nat) (write : Bool) : Option TrapInfo :=
  let mis := compareMask x.act (fun l => (addr l).toNat % n != 0)
  if mis = 0 then none
  else some { cause := 0x10, addr := lowestAddr addr (lanesOf mis), lanes := mis, info := Info.word { wr := write } }

/-! ## Local lanes (R104, R105) -/

/-- The group with its out-of-bounds lanes switched off, and the lanes that remain (R105). -/
def Ctx.inBounds (x : Ctx) (addr : Nat → Word) (n : Nat) : Group × Mask :=
  let lim := localLimit (x.s.blockOf x.g) x.g.r.sys
  let off := compareMask x.act (fun l => decide (lim < (addr l).toNat + n))
  ({ x.g with r := { x.g.r with live := x.g.r.live &&& ~~~off, lfm := x.g.r.lfm ||| off } }, x.act &&& ~~~off)

/-- The bytes that lanes access, as one interval (R111). -/
def laneRange (addr : Nat → Word) (n : Nat) (act : Mask) : Option (Nat × Nat) :=
  bounding ((lanesOf act).map (fun l => ((addr l).toNat, (addr l).toNat + n)))

/-- The held operations whose write range an access overlaps (R115). -/
def writesOver (b : Block) (r : Option (Nat × Nat)) : List Nat :=
  match r with
  | none => []
  | some r => (b.entries.filter (fun e => match e.write with | some w => overlaps w r | none => false)).map (fun e => e.op)

/-- The held operations any of whose ranges an access overlaps (R116). -/
def rangesOver (b : Block) (r : Option (Nat × Nat)) : List Nat :=
  match r with
  | none => []
  | some r =>
    (b.entries.filter (fun e =>
      e.reads.any (fun q => overlaps q r) || (match e.write with | some w => overlaps w r | none => false))).map (fun e => e.op)

/-! ## Issuing loads and stores -/

/-- Starts a load: its registers become empty, and it stays in flight until LOAD_FILL (R48, R351). A load that reads nothing
leaves its registers full. -/
def startLoad (s : State) (gid : Nat) (g : Group) (dst : LoadDst) (sz : Size) (src : LoadSrc)
    (reads : List LaneRead) : State :=
  if reads.isEmpty then s.setGroup gid g
  else
    let (id, s1) := s.take
    let r : Regs :=
      match dst with
      | .vec a p => { g.r with ve := (p.toList).foldl (fun l n => addTo n l) (addTo a g.r.ve) }
      | .sca a => { g.r with se := reads.foldl (fun l e => addTo ((a + e.lane) % g.sa) l) g.r.se }
    let op : LoadOp :=
      { gid := gid, dst := dst, size := sz, src := src, tag := g.r.gstep, lag := g.r.lag.toNat, reads := reads,
        seq := s.seq, cycle := s.cycle (coreDie (s.blockOf g).core) }
    { s1 with loads := tset s1.loads id op }.setGroup gid { g with r := r }

/-- The physical destination of a vector load: a register, or a pair for 64 bits. -/
def Ctx.vdst (x : Ctx) (sz : Size) (d : VReg) : LoadDst :=
  let n := (vnum x.run.xs d).getD 0
  .vec (x.g.physV n) (if sz = .s64 then some (x.g.physV (n + 1)) else none)

/-- The physical destination of a scalar load. -/
def Ctx.sdst (x : Ctx) (d : SReg) : LoadDst := .sca (x.g.physS ((snum x.run.xs d).getD 0))

/-- What the data register of a vector store holds for a lane (R411). -/
def Ctx.vdata (x : Ctx) (sz : Size) (d : VReg) (l : Nat) : Word :=
  let n := (vnum x.run.xs d).getD 0
  if sz = .s64 then x.g.getV64 n l else (x.g.getV n l).zeroExtend 64

/-- What all writes of a lane store share. -/
def Ctx.laneWrite (x : Ctx) (rule : WRule) (wid : Word) : Write :=
  { key := 0, va := 0, wide := false, mask := 0, val := 0, rule := rule, wid := wid, ord := 0, grp := x.gid, engine := false,
    seq := x.s.seq }

/-- Applies writes at once to device memory, outside every step: the stores of a group without a launch. Each unit takes a free order
for `.any` (R8, R88). -/
def applyNow (s : State) (ws : List Write) : State :=
  (unitsOf ws).foldl (fun s u =>
    let us := inUnit ws u
    let r := resolve (unitOld s.mem u) us (Config.freeNat s.free) s.free
    { s with mem := unitPut s.mem u r.val, free := s.free + 2,
             poison := if r.hit then s.poison else unpoison s.poison u us }) s

/-- Sends global writes into their core's hold window, tagged with the group's step (R72, R239). -/
def sendGlobal (s : State) (g : Group) (ws : List Write) : State :=
  match g.launch with
  | none => applyNow s ws
  | some l =>
    let k := (s.blockOf g).core
    let now := s.cycle (coreDie k)
    let gw : List GWrite := ws.zipIdx.map (fun e =>
      { id := s.fresh + e.2, w := e.1, step := g.r.gstep, core := k, cycle := now, stage := .held now })
    { s with fresh := s.fresh + ws.length }.modLaunch l (fun x => { x with gw := x.gw ++ gw })

/-- Adds local writes to a block's local step (R70, R116). -/
def sendLocal (s : State) (g : Group) (deps : List Nat) (ws : List Write) : State :=
  s.modBlock g.blk (fun b => { b with
    pend := b.pend ++ ws.map (fun w => { w := w, step := g.r.lstep, by_ := deps, ofOp := false }) })

/-! ## The last-level cache (R21, R83, R208, R254, R258)

It decides where a value is held and never which value a read returns; what a program can see of it are the counters of PFG. -/

/-- A page whose lines no slice holds: uncached, external, or under the bypass hint (R208, R373). -/
def notFetched (t : Trans) (hint : BitVec 2) : Bool := t.e.cp == 2 || t.e.ext || hint == 3

/-- Lines that a guest may hold in one slice: 1,024 KiB, a twentieth of 20 MiB, for each way of its mask (R254). -/
def llcLimit (P : Part) (guest : Nat) : Nat :=
  16384 * ((List.range 20).filter (fun i => (P.guest guest).ways.getLsbD i)).length

namespace State

/-- A line leaves its slice; one that PFG fetched and no load has read is counted as useless (R258). -/
def llcEvict (s : State) (w : Nat) (x : LlcLine) : State :=
  let s1 : State := { s with llc := tput [] s.llc w ((tget [] s.llc w).erase x) }
  match x.pfg with
  | some k => s1.count k (some x.guest) 0x083 1
  | none => s1

/-- Makes room for a line: only lines of its own guest leave (R254), one at least when the guest's ways are full. Which ones is the
cache's choice, for which the manual gives no rule: a free one. -/
def llcRoom (s : State) (w limit guest : Nat) : State :=
  let mine := (tget [] s.llc w).filter (fun x => x.guest == guest)
  let n := Config.freeNat s.free
  let s1 : State := { s with free := s.free + 1 }
  if mine.isEmpty || (decide (mine.length < limit) && n % 2 == 0) then s1
  else
    match mine[n / 2 % mine.length]? with
    | some x => s1.llcEvict w x
    | none => s1

/-- Brings a line into the slice of its waystation for a guest: nothing happens when the slice holds it, or the guest has no way
there (R254). `pfg` is the core whose PFG asks for it. When it arrives is free. -/
def llcFill (s : State) (P : Part) (guest line : Nat) (pfg : Option Nat) : State :=
  match wayOfKey (64 * line) with
  | none => s
  | some w =>
    if (tget [] s.llc w).any (fun x => x.line == line) || llcLimit P guest = 0 then s
    else
      let s1 := s.llcRoom w (llcLimit P guest) guest
      let x : LlcLine := ⟨line, guest, pfg, s1.tick + Config.freeNat s1.free⟩
      { s1 with free := s1.free + 1, llc := tset s1.llc w (x :: tget [] s1.llc w) }

/-- A load reads a line that PFG fetched: useful once it has arrived, late before (R258). Each line counts once. -/
def llcRead (s : State) (line : Nat) : State :=
  match wayOfKey (64 * line) with
  | none => s
  | some w =>
    match (tget [] s.llc w).find? (fun x => x.line == line && x.pfg.isSome) with
    | some x =>
      let s1 : State := { s with llc := tset s.llc w ((tget [] s.llc w).map (fun y => if y = x then { y with pfg := none } else y)) }
      (match x.pfg with
        | some k => s1.count k (some x.guest) (if x.due ≤ s.tick then 0x081 else 0x082) 1
        | none => s1)
    | none => s

/-- A load of a group reads lines: each counts for PFG, and one that may be held is filled (R208). -/
def llcReads (s : State) (gid : Nat) (hint : BitVec 2) (lines : List (Nat × Trans)) : State :=
  match s.group? gid with
  | none => s
  | some g =>
    match s.guestOf g with
    | none => s
    | some u =>
      let P := s.partAt (s.blockOf g).core
      lines.foldl (fun s e => let s1 := s.llcRead e.1; if notFetched e.2 hint then s1 else s1.llcFill P u e.1 none) s

end State

/-! ## Local accesses -/

/-- LDL (R351, R352): alignment, bounds, poison, then the load under R71 and R115. -/
def Ctx.loadLocal (x : Ctx) (sz : Size) (d : VReg) (m : VMem) : Res :=
  let n := sz.bytes
  let addr := x.vaddr false m
  match x.misaligned addr n false with
  | some t => x.fail t
  | none =>
    let (g1, rest) := x.inBounds addr n
    let b := x.s.blockOf x.g
    let bad := ((lanesOf rest).filter (fun l => b.poisoned (addr l).toNat n)).map (fun l => BadLane.mk l (addr l) 0x14 {})
    let good := (lanesOf rest).filter (fun l => !b.poisoned (addr l).toNat n)
    let deps := writesOver b (laneRange addr n rest)
    let ready := deps.isEmpty && b.closed == x.g.r.lstep
    let reads := good.map (fun l => LaneRead.mk l (addr l).toNat (addr l) .now
      (if ready then some (BitVec.ofNat 64 (rdN b.mem (addr l).toNat n)) else none))
    let s1 := startLoad x.s x.gid g1 (x.vdst sz d) sz (.loc x.g.r.lstep deps) reads
    match laneTrap bad with
    | some t => .trap s1 t
    | none => .ok s1 .seq 0

/-- STL and STLA (R411, R412). -/
def Ctx.storeLocal (x : Ctx) (sz : Size) (rule : WRule) (d : VReg) (m : VMem) : Res :=
  let n := sz.bytes
  let addr := x.vaddr false m
  match x.misaligned addr n true with
  | some t => x.fail t
  | none =>
    let (g1, rest) := x.inBounds addr n
    let b := x.s.blockOf x.g
    let deps := rangesOver b (laneRange addr n rest)
    let ws := (lanesOf rest).flatMap (fun l =>
      splitWrite (x.laneWrite rule (x.g.widOf l)) (addr l).toNat (addr l) n (x.vdata sz d l))
    .ok (sendLocal (x.s.setGroup x.gid g1) g1 deps ws) .seq 0

/-- The checks of a scalar local access (R400). -/
def Ctx.checkLocal (x : Ctx) (a : Word) (n : Nat) (write : Bool) : Option TrapInfo :=
  let b := x.s.blockOf x.g
  if a.toNat % n != 0 then some { cause := 0x10, addr := a, info := Info.word { wr := write } }
  else if localLimit b x.g.r.sys < a.toNat + n then
    some { cause := 0x12, addr := a, info := Info.word { wr := write, bnd := true } }
  else if !write && b.poisoned a.toNat n then some { cause := 0x14, addr := a }
  else none

/-- SLDL (R399 to R401). -/
def Ctx.sloadLocal (x : Ctx) (sz : Size) (d : SReg) (m : SMem) : Res :=
  let n := sz.bytes
  let a := x.saddr m
  match x.checkLocal a n false with
  | some t => x.fail t
  | none =>
    let b := x.s.blockOf x.g
    let deps := writesOver b (some (a.toNat, a.toNat + n))
    let ready := deps.isEmpty && b.closed == x.g.r.lstep
    let rd : LaneRead := ⟨0, a.toNat, a, .now, if ready then some (BitVec.ofNat 64 (rdN b.mem a.toNat n)) else none⟩
    .ok (startLoad x.s x.gid x.g (x.sdst d) sz (.loc x.g.r.lstep deps) [rd]) .seq 0

/-- SSTL (R399 to R401, R303). -/
def Ctx.sstoreLocal (x : Ctx) (sz : Size) (rule : WRule) (d : SReg) (m : SMem) : Res :=
  let n := sz.bytes
  let a := x.saddr m
  match x.checkLocal a n true with
  | some t => x.fail t
  | none =>
    let deps := rangesOver (x.s.blockOf x.g) (some (a.toNat, a.toNat + n))
    .ok (sendLocal x.s x.g deps (splitWrite (x.laneWrite rule x.g.gwid) a.toNat a n (x.sreg d))) .seq 0

/-! ## Global accesses -/

/-- What the checks of a vector global access found. -/
structure Lanes where
  s : State
  /-- Lane, address, key and stability of each lane that may be served. -/
  good : List (Nat × Word × Nat × Bool)
  /-- Lanes whose page is not resident. -/
  missing : List Nat
  bad : List BadLane
  /-- The lines of 64 bytes that the lanes of `good` name, with their pages. -/
  lines : List (Nat × Trans)

/-- The kind that a read is made under: .stb of a page that is not stable is .now (R80). -/
def kindOn (kind : Kind) (stable : Bool) : Kind := if kind = .stb ∧ !stable then .now else kind

/-- The cycles for which walks hold the slot, once the pages of a memory instruction's addresses are translated: none when the TLBs
held them all, and otherwise a free number, for which the manual gives no figure (R200, R204, R436). -/
def Ctx.walkHold (x : Ctx) (vas : List Word) (s1 : State) : Nat × State :=
  let k := (x.s.blockOf x.g).core
  let tlb := (x.s.core k).tlb ++ (x.s.die (coreDie k)).tlb
  let tag := x.s.tagOf x.g
  if vas.all (fun va => !canonical va || tlb.any (fun e => e.tag == tag && e.page == pageOf va)) then (0, s1)
  else (Config.freeNat s1.free, { s1 with free := s1.free + 1 })

/-- The addresses of the active lanes. -/
def Ctx.lanesAt (x : Ctx) (addr : Nat → Word) : List Word := (lanesOf x.act).map addr

/-- How a group accesses global memory. -/
def Ctx.want (x : Ctx) (n : Nat) (write acc : Bool) : Want :=
  { size := n, write := write, acc := acc, sys := x.g.r.sys, det := x.g.r.detached }

/-- The checks of R209 for each active lane, lane 0 first; loads check poison too. -/
def Ctx.checkLanes (x : Ctx) (addr : Nat → Word) (n : Nat) (write acc : Bool) : Lanes :=
  let k := (x.s.blockOf x.g).core
  (lanesOf x.act).foldl (fun r l =>
    match r.s.check k (r.s.tagOf x.g) (addr l) (x.want n write acc) with
    | (.bad c i, s1) => { r with s := s1, bad := r.bad ++ [⟨l, addr l, c, i⟩] }
    | (.missing _, s1) => { r with s := s1, missing := r.missing ++ [l] }
    | (.good key t, s1) =>
      if !write && s1.poisoned key n then { r with s := s1, bad := r.bad ++ [⟨l, addr l, 0x14, {}⟩] }
      else { r with s := s1, good := r.good ++ [(l, addr l, key, t.e.s)], lines := r.lines ++ [(key / 64, t)] }) ⟨x.s, [], [], [], []⟩

/-- Zero in the lanes of a vector load's destination, which are all of pages that are not resident (R212). -/
def Ctx.zeroLanes (x : Ctx) (g : Group) (sz : Size) (d : VReg) (ls : List Nat) : Group :=
  let n := (vnum x.run.xs d).getD 0
  let m := maskOf (fun l => ls.contains l)
  let g1 := g.writeLanes n m (fun _ => 0)
  if sz = .s64 then g1.writeLanes (n + 1) m (fun _ => 0) else g1

/-- LDG (R351, R352): lanes of pages that are not resident read 0 and set the residency predicate; their zeros need no trip, so a load
of such lanes alone fills at once (R212). -/
def Ctx.loadGlobal (x : Ctx) (sz : Size) (kind : Kind) (res : BitVec 4) (d : VReg) (m : VMem) : Res :=
  let n := sz.bytes
  let addr := x.vaddr true m
  match x.misaligned addr n false with
  | some t => x.fail t
  | none =>
    let r := x.checkLanes addr n false false
    let g1 := x.g.setP res.toNat (residencyMask (x.g.getP res.toNat) x.act (fun l => r.missing.contains l))
    let reads := r.good.map (fun e => LaneRead.mk e.1 e.2.2.1 e.2.1 (kindOn kind e.2.2.2) none) ++
      r.missing.map (fun l => LaneRead.mk l 0 (addr l) kind (some 0))
    let s1 :=
      if r.good.isEmpty then r.s.setGroup x.gid (x.zeroLanes g1 sz d r.missing)
      else (startLoad r.s x.gid g1 (x.vdst sz d) sz .glob reads).llcReads x.gid x.c.cph r.lines
    match laneTrap r.bad with
    | some t => .trap s1 t
    | none => let w := x.walkHold (x.lanesAt addr) s1; .ok w.2 .seq w.1

/-- STG and STGA (R411, R412): a lane of a page that is not resident is dropped and noted in %nrs (R213). -/
def Ctx.storeGlobal (x : Ctx) (sz : Size) (rule : WRule) (d : VReg) (m : VMem) : Res :=
  let n := sz.bytes
  let addr := x.vaddr true m
  match x.misaligned addr n true with
  | some t => x.fail t
  | none =>
    let r := x.checkLanes addr n true (!rule.plain)
    let g1 : Group := { x.g with r := { x.g.r with nrs := x.g.r.nrs ||| maskOf (fun l => r.missing.contains l) } }
    let ws := r.good.flatMap (fun e =>
      splitWrite (x.laneWrite rule (x.g.widOf e.1)) e.2.2.1 e.2.1 n (x.vdata sz d e.1))
    let s1 := sendGlobal (r.s.setGroup x.gid g1) g1 ws
    match laneTrap r.bad with
    | some t => .trap s1 t
    | none => let w := x.walkHold (x.lanesAt addr) s1; .ok w.2 .seq w.1

/-- The checks of a scalar global access (R400): the key, or a page that is not resident. -/
def Ctx.checkScalar (x : Ctx) (a : Word) (n : Nat) (write : Bool) : Except TrapInfo (Option (Nat × Trans)) × State :=
  if a.toNat % n != 0 then (.error { cause := 0x10, addr := a, info := Info.word { wr := write } }, x.s)
  else
    match x.s.check (x.s.blockOf x.g).core (x.s.tagOf x.g) a (x.want n write false) with
    | (.bad c i, s1) => (.error { cause := c, addr := a, info := i.word }, s1)
    | (.missing _, s1) => (.ok none, s1)
    | (.good key t, s1) =>
      if !write && s1.poisoned key n then (.error { cause := 0x14, addr := a }, s1) else (.ok (some (key, t)), s1)

/-- SLDG (R399 to R401): all 32 bits of the residency predicate are written; a page that is not resident fills sD with 0 at once
(R212). -/
def Ctx.sloadGlobal (x : Ctx) (sz : Size) (kind : Kind) (res : BitVec 4) (d : SReg) (m : SMem) : Res :=
  let a := x.saddr m
  match x.checkScalar a sz.bytes false with
  | (.error t, s1) => .trap s1 t
  | (.ok none, s1) =>
    let w := x.walkHold [a] (s1.setGroup x.gid ((x.g.setP res.toNat 0xFFFFFFFF).setS ((snum x.run.xs d).getD 0) 0))
    .ok w.2 .seq w.1
  | (.ok (some (key, t)), s1) =>
    let s2 := startLoad s1 x.gid (x.g.setP res.toNat 0) (x.sdst d) sz .glob [⟨0, key, a, kindOn kind t.e.s, none⟩]
    let w := x.walkHold [a] (s2.llcReads x.gid x.c.cph [(key / 64, t)])
    .ok w.2 .seq w.1

/-- SSTG (R399 to R401, R303). -/
def Ctx.sstoreGlobal (x : Ctx) (sz : Size) (rule : WRule) (d : SReg) (m : SMem) : Res :=
  let a := x.saddr m
  match x.checkScalar a sz.bytes true with
  | (.error t, s1) => .trap s1 t
  | (.ok none, s1) =>
    let w := x.walkHold [a] (s1.setGroup x.gid { x.g with r := { x.g.r with nrs := x.g.r.nrs ||| x.act } })
    .ok w.2 .seq w.1
  | (.ok (some (key, _)), s1) =>
    let w := x.walkHold [a] (sendGlobal s1 x.g (splitWrite (x.laneWrite rule x.g.gwid) key a sz.bytes (x.sreg d)))
    .ok w.2 .seq w.1

/-- LDW (R217, R352): an offset in the die's weight store. -/
def Ctx.loadWeight (x : Ctx) (sz : Size) (d : VReg) (m : VMem) : Res :=
  let n := sz.bytes
  let addr := x.vaddr false m
  match x.misaligned addr n false with
  | some t => x.fail t
  | none =>
    let p := coreDie (x.s.blockOf x.g).core
    let state (l : Nat) : Option Nat :=
      if Config.weightBytes < (addr l).toNat + n then some 0x12
      else if x.s.poisoned (keyWeight p (addr l).toNat) n then some 0x14 else none
    let bad := (lanesOf x.act).filterMap (fun l => (state l).map (fun c => BadLane.mk l (addr l) c { bnd := true }))
    let reads := ((lanesOf x.act).filter (fun l => (state l).isNone)).map (fun l =>
      LaneRead.mk l (keyWeight p (addr l).toNat) (addr l) .now none)
    let s1 := startLoad x.s x.gid x.g (x.vdst sz d) sz .weight reads
    match laneTrap bad with
    | some t => .trap s1 t
    | none => .ok s1 .seq 0

/-! ## PFG and PGREQ -/

/-- The lines that PFG fetches: those of lanes with no flaw, each once (R373). -/
def Ctx.prefetch (x : Ctx) (m : VMem) : List Nat × State :=
  let k := (x.s.blockOf x.g).core
  (lanesOf x.act).foldl (fun (acc : List Nat × State) l =>
    match acc.2.check k (acc.2.tagOf x.g) (x.vaddr true m l) (x.want 1 false false) with
    | (.good key t, s1) => if notFetched t x.c.cph then (acc.1, s1) else (addTo (key / 64) acc.1, s1)
    | (_, s1) => (acc.1, s1)) ([], x.s)

/-- DET for PFG and PGREQ: lanes and address 0 (R373, R374). -/
def detTrap : TrapInfo := { cause := 0x12, info := Info.word { det := true } }

/-- The page-request record of a lane's page (R215). -/
def requestRec (s : State) (k : Nat) (g : Group) (va : Word) (v0 host : Bool) : List Byte :=
  let l := (g.launch.bind s.launch?)
  let die := s.logDie (s.partAt k) (coreDie k)
  leBytes 8 (va.toNat / 65536 * 65536) ++ leBytes 1 ((l.map (fun x => x.guest)).getD 0) ++
    leBytes 1 (v0.toNat + 2 * host.toNat) ++ leBytes 2 die ++ leBytes 4 ((l.map (fun x => x.ident.toNat)).getD 0)

/-- PGREQ's records (R215, R374): one for each distinct page that is not resident, whether its leaf has V = 0 or R = 0; a walk that
ends for another reason names no such page. DESIGN CHOICE (entry 107): when both stages' leaves have R = 0, byte 9 names the guest
stage, whose leaf the walk meets first. -/
def Ctx.requests (x : Ctx) (m : VMem) : List Nat × List BadLane × State :=
  let k := (x.s.blockOf x.g).core
  (lanesOf x.act).foldl (fun (acc : List Nat × List BadLane × State) l =>
    let (pages, bad, s) := acc
    let va := x.vaddr true m l
    if !canonical va then (pages, bad ++ [⟨l, va, 0x11, {}⟩], s)
    else if pages.contains (pageOf va) then acc
    else
      let log (s1 : State) (v0 host : Bool) : List Nat × List BadLane × State :=
        let P := s1.partAt k
        let s2 := s1.ringAdd P P.prring (requestRec s1 k x.g va v0 host)
        (addTo (pageOf va) pages, bad, s2)
      match s.translate k (s.tagOf x.g) (pageOf va) with
      | (.error f, s1) => if f.v0 then log s1 true f.nst else (pages, bad, s1)
      | (.ok t, s1) => if t.res then (pages, bad, s1) else log s1 false t.hostR) ([], [], x.s)

/-! ## The instructions -/

/-- LDL (R349 to R354). -/
def execLdl (c : Ctl) (sz : Size) (d : VReg) (m : VMem) (s : State) : Out :=
  issue (.ldl c sz d m) c false (fun x => x.loadLocal sz d m) s

/-- STL (R410 to R413). -/
def execStl (c : Ctl) (sz : Size) (rule : Rule) (sum : SumTy) (d : VReg) (m : VMem) (s : State) : Out :=
  issue (.stl c sz rule sum d m) c false (fun x => x.storeLocal sz (wrule rule sum) d m) s

/-- STLA (R410 to R413). -/
def execStla (c : Ctl) (sz : Size) (sum : SumTy) (d : VReg) (m : VMem) (s : State) : Out :=
  issue (.stla c sz sum d m) c false (fun x => x.storeLocal sz (.acc sum) d m) s

/-- SLDL (R398 to R401). -/
def execSldl (c : Ctl) (sz : Size) (d : SReg) (m : SMem) (s : State) : Out :=
  issue (.sldl c sz d m) c false (fun x => x.sloadLocal sz d m) s

/-- SSTL (R398 to R401). -/
def execSstl (c : Ctl) (sz : Size) (rule : Rule) (sum : SumTy) (d : SReg) (m : SMem) (s : State) : Out :=
  issue (.sstl c sz rule sum d m) c false (fun x => x.sstoreLocal sz (wrule rule sum) d m) s

/-- LDG (R349 to R354). -/
def execLdg (c : Ctl) (sz : Size) (kind : Kind) (res : BitVec 4) (d : VReg) (m : VMem) (s : State) : Out :=
  issue (.ldg c sz kind res d m) c false (fun x => x.loadGlobal sz kind res d m) s

/-- STG (R410 to R413). -/
def execStg (c : Ctl) (sz : Size) (rule : Rule) (sum : SumTy) (d : VReg) (m : VMem) (s : State) : Out :=
  issue (.stg c sz rule sum d m) c false (fun x => x.storeGlobal sz (wrule rule sum) d m) s

/-- STGA (R410 to R413). -/
def execStga (c : Ctl) (sz : Size) (sum : SumTy) (d : VReg) (m : VMem) (s : State) : Out :=
  issue (.stga c sz sum d m) c false (fun x => x.storeGlobal sz (.acc sum) d m) s

/-- SLDG (R398 to R401). -/
def execSldg (c : Ctl) (sz : Size) (kind : Kind) (res : BitVec 4) (d : SReg) (m : SMem) (s : State) : Out :=
  issue (.sldg c sz kind res d m) c false (fun x => x.sloadGlobal sz kind res d m) s

/-- SSTG (R398 to R401). -/
def execSstg (c : Ctl) (sz : Size) (rule : Rule) (sum : SumTy) (d : SReg) (m : SMem) (s : State) : Out :=
  issue (.sstg c sz rule sum d m) c false (fun x => x.sstoreGlobal sz (wrule rule sum) d m) s

/-- LDW (R349 to R354, R217). -/
def execLdw (c : Ctl) (sz : Size) (d : VReg) (m : VMem) (s : State) : Out :=
  issue (.ldw c sz d m) c false (fun x => x.loadWeight sz d m) s

/-- PFG (R372, R373): it brings lines into the last-level cache, counts them (R256, R258) and changes no value. -/
def execPfg (c : Ctl) (m : VMem) (s : State) : Out :=
  issue (.pfg c m) c false
    (fun x =>
      if x.g.r.detached then x.fail detTrap
      else
        let (lines, s1) := x.prefetch m
        let k := (s1.blockOf x.g).core
        let w := x.walkHold (x.lanesAt (x.vaddr true m)) (s1.count k (s1.guestOf x.g) 0x080 lines.length)
        .ok (lines.foldl (fun s l => s.llcFill (s.partAt k) ((s.guestOf x.g).getD 0) l (some k)) w.2) .seq w.1) s

/-- PGREQ (R374, R215): the records of the pages that it logs, then one signal by MSI-X. -/
def execPgreq (c : Ctl) (m : VMem) (s : State) : Out :=
  issue (.pgreq c m) c false
    (fun x =>
      if x.g.r.detached then x.fail detTrap
      else
        let (pages, bad, s0) := x.requests m
        let s1 : State := if pages.isEmpty then s0 else { s0 with msix := s0.msix + 1 }
        match laneTrap bad with
        | some t => .trap s1 t
        | none => let w := x.walkHold (x.lanesAt (x.vaddr true m)) s1; .ok w.2 .seq w.1) s

end Sys2Proof.Machine
end

