-- ==== Sys2Proof/Machine/Serve.lean ====
section
/-! DEFINITION. Serving reads: what a read of a step returns (R76, R79 to R81, R99, R100), READ_SERVE, LOAD_FILL (R48, R351), and
PAGE_WALK (R197 to R204). -/

namespace Sys2Proof.Machine

/-! ## The state that a read sees -/

/-- One byte as committed through the first `j` commits of a launch: what the earliest later commit that wrote its word replaced, if any.
Commits keep whole words, so the bytes of a word stand as of one moment (R81, R100). -/
def byteAsOf (l : Launch) (mem : Table Byte) (j key : Nat) : Byte :=
  match (l.undo.filter (fun e => e.2.1 == key && decide (j ≤ e.1))).getLast? with
  | some e => e.2.2
  | none => rd8 mem key

/-- `n` bytes as committed through the first `j` commits. -/
def asOf (l : Launch) (mem : Table Byte) (j key : Nat) : Nat → Nat
  | 0 => 0
  | n + 1 => (byteAsOf l mem j key).toNat + 256 * asOf l mem j (key + 1) n

/-- A word of `n` bytes at a key has writes of the first `j` commits that still wait to be applied (R75, R76). BTST rows,
tier switches and log entries name their words only when they are applied; until then the presence filter records every word for them,
as R75 lets it. -/
def Launch.outstanding (l : Launch) (j key n : Nat) : Bool :=
  l.applying.any (fun w => decide (w.step < j) && w.stage != .applied && decide (w.w.key < key + n) &&
      decide (key < w.w.key + (if w.w.wide then 8 else 4))) ||
    l.btst.any (fun b => decide (b.step < j)) || l.dueLogs.any (fun d => decide (d.1 < j)) ||
    l.moves.any (fun m => (m.phase == .issued && decide (m.step < j)) || (m.due.map (fun d => decide (d < j))).getD false)

/-- A host write to these bytes is due: a commit of the launch has been declared since it arrived (R98). -/
def hostDue (s : State) (lid : Nat) (l : Launch) (key n : Nat) : Bool :=
  s.hostw.any (fun h => decide (h.key < key + n) && decide (key < h.key + h.data.length) &&
    h.maps.any (fun m => m.1 == lid && decide (m.2 < l.c)))

/-- Host memory of an external page (R99). -/
def externalKey (key : Nat) : Bool := decide (3 * 2 ^ 64 ≤ key) && decide (key < 4 * 2 ^ 64)

/-- A read of `n` bytes tagged `tag` under an effective kind, `back` steps behind for .lag; none while it waits (R76, R79 to R81,
R99): it waits for the commits that it may not miss, and for their writes to its own words. -/
def readGlobal (s : State) (lid : Option Nat) (kind : Kind) (tag back key n : Nat) : Option Nat :=
  match lid, lid.bind s.launch? with
  | some i, some l =>
    if externalKey key || kind == .stb then some (rdN s.mem key n)
    else
      let j := if kind = .lag then tag - back else tag
      if j ≤ l.c ∧ !l.outstanding j key n ∧ !hostDue s i l key n then some (asOf l s.mem j key n) else none
  | _, _ => some (rdN s.mem key n)

/-- The key lies outside a partition (R244). -/
def outside (P : Part) (key : Nat) : Bool :=
  if key < 2 ^ 64 then key / 2 ^ 52 != P.y0 * 32 + P.y1
  else if key < 2 * 2 ^ 64 then
    let w := (key - 2 ^ 64) / 2 ^ 40
    decide (w < 30 * P.y0) || decide (30 * (P.y1 + 1) ≤ w)
  else if key < 3 * 2 ^ 64 then !P.borders ((key - 2 * 2 ^ 64) / 2 ^ 36)
  else if key < 4 * 2 ^ 64 then (key - 3 * 2 ^ 64) / 2 ^ 52 != P.port
  else false

/-- The bank of a weight-store offset refreshes now (R218). -/
def refreshing (s : State) (p off : Nat) : Bool :=
  let t := s.cycle p % 65536
  let b := off / 4096 % 16
  decide (4096 * b ≤ t) && decide (t < 4096 * b + 256)

def isCpyw : OpKind → Bool
  | .cpyw _ => true
  | _ => false

/-- A CPYW that its block issued earlier has not completed (R323). -/
def cpywAhead (s : State) (blk seq : Nat) : Bool :=
  s.ops.any (fun e => e.2.blk == blk && decide (e.2.seq < seq) && isCpyw e.2.kind)

/-! ## READ_SERVE and LOAD_FILL -/

/-- What a read returns now, if it need not wait. -/
def serveValue (s : State) (op : LoadOp) (g : Group) (r : LaneRead) (back : Nat) : Option Nat :=
  let n := op.size.bytes
  match op.src with
  | .glob => if back ≤ op.lag then readGlobal s g.launch r.kind op.tag back r.key n else none
  | .weight =>
    let p := coreDie (s.blockOf g).core
    if refreshing s p (r.key % 2 ^ 29) || cpywAhead s g.blk op.seq then none else some (rdN s.mem r.key n)
  | .loc _ _ | .mailbox _ | .value => none

/-- READ_SERVE (R76, R79 to R81, R207): one lane's read is served, a .lag read as of `back` steps before the latest that it may
see. -/
def execReadServe (load lane back : Nat) (s : State) : Out :=
  match tfind s.loads load with
  | none => .next s
  | some op =>
    match op.reads.find? (fun r => r.lane == lane && r.val.isNone), s.group? op.gid with
    | some r, some g =>
      (match serveValue s op g r back with
      | none => .next s
      | some v =>
        let reads := op.reads.map (fun q => if q.lane = lane ∧ q.val.isNone then { q with val := some (BitVec.ofNat 64 v) } else q)
        let s1 : State := { s with loads := tset s.loads load { op with reads := reads } }
        .next (s1.rebuilds [r.key]))
    | _, _ => .next s

/-- The load's earlier rivals for a physical register: loads of the group issued before it. -/
def olderLoad (s : State) (op : LoadOp) (vec : Bool) (reg sa : Nat) : Bool :=
  s.loads.any (fun e => e.2.gid == op.gid && decide (e.2.seq < op.seq) &&
    (match e.2.dst with
      | .vec a p => vec && (a == reg || p == some reg)
      | .sca a => !vec && e.2.reads.any (fun r => (a + r.lane) % sa == reg)))

/-- The trap frame's unit that holds a register which was empty when the trap spilled it (R226). -/
def spilledUnit (r : Regs) (vec : Bool) (reg : Nat) : Option SpillUnit :=
  match r.frame with
  | none => none
  | some f => f.units.find? (fun u => u.vec == vec && u.empty.contains reg)

/-- The frame once a spilled register has its value. -/
def settled (r : Regs) (vec : Bool) (reg : Nat) : Option TrapFrame :=
  r.frame.map (fun f =>
    { f with units := f.units.map (fun u => if u.vec = vec then { u with empty := u.empty.filter (· != reg) } else u) })

/-- A lane takes the value of a load: not once it has exited (R339); a lane that R105 switched off is no such lane. -/
def takes (r : Regs) (lane : Nat) : Bool := bitOf (r.live ||| r.lfm) lane

/-- Fills a vector register with the lanes that were read, in the register or in its place in the spill area (R48, R226). -/
def fillV (s : State) (op : LoadOp) (sa reg shift : Nat) (x : Regs × Table Byte) : Regs × Table Byte :=
  let word (r : LaneRead) : Word := r.val.getD 0
  let lanes := (op.reads.filter (fun r => takes x.1 r.lane)).map (fun r => (r.lane, (word r).extractLsb' shift 32))
  match (if olderLoad s op true reg sa then none else spilledUnit x.1 true reg) with
  | some u =>
    ({ x.1 with frame := settled x.1 true reg },
      lanes.foldl (fun m e => wr32 m (u.at_ + 128 * (reg - u.first) + 4 * e.1) e.2) x.2)
  | none =>
    ({ x.1 with v := lanes.foldl (fun v e => tput 0 v (32 * reg + e.1) e.2) x.1.v, ve := x.1.ve.filter (· != reg) }, x.2)

/-- Fills one scalar register. -/
def fillS (s : State) (op : LoadOp) (sa reg : Nat) (w : Word) (x : Regs × Table Byte) : Regs × Table Byte :=
  match (if olderLoad s op false reg sa then none else spilledUnit x.1 false reg) with
  | some u => ({ x.1 with frame := settled x.1 false reg }, wr64 x.2 (u.at_ + 8 * (reg - u.first)) w)
  | none => ({ x.1 with s := tput 0 x.1.s reg w, se := x.1.se.filter (· != reg) }, x.2)

/-- Fills a load's destination in a group's registers, or in its spill area. -/
def fillRegs (s : State) (op : LoadOp) (sa : Nat) (x : Regs × Table Byte) : Regs × Table Byte :=
  match op.dst with
  | .vec a none => fillV s op sa a 0 x
  | .vec a (some b) => fillV s op sa b 32 (fillV s op sa a 0 x)
  | .sca a => op.reads.foldl (fun x r => fillS s op sa ((a + r.lane) % sa) (r.val.getD 0) x) x

/-- The value of a load that was issued before a shadow's boundary also fills the shadow (R240). -/
def fillShadow (s : State) (op : LoadOp) (sa : Nat) (h : Shadow) : Shadow :=
  if h.seq < op.seq then h
  else
    let y := fillRegs s op sa (h.r, h.area)
    { h with r := y.1, area := y.2 }

/-- Fills a load's destination. -/
def fillLoad (s : State) (op : LoadOp) : State :=
  match s.group? op.gid with
  | none => s
  | some g =>
    let y := fillRegs s op g.sa (g.r, (s.blockOf g).mem)
    (s.modBlock g.blk (fun b => { b with mem := y.2 })).setGroup op.gid
      { g with r := y.1, shadows := g.shadows.map (fillShadow s op g.sa) }

/-- LOAD_FILL (R48, R351): every value has arrived, and the destination fills as a whole. -/
def execLoadFill (load : Nat) (s : State) : Out :=
  match tfind s.loads load with
  | none => .next s
  | some op =>
    if op.reads.all (fun r => r.val.isSome) then
      let s1 := fillLoad s op
      .next { s1 with loads := tdel s1.loads load }
    else .next s

/-- PAGE_WALK (R197 to R204): a lookup of a page for a core, which fills the TLBs and sets A bits. -/
def execPageWalk (core : Nat) (gctx : Option (BitVec 3)) (va : BitVec 64) (s : State) : Out :=
  if canonical va ∧ core < 900 * 512 then .next (s.translate core (gctx.map (fun g => g.toNat)) (pageOf va)).2 else .next s

end Sys2Proof.Machine
end

