-- ==== Sys2Proof/Machine/Engines.lean ====
section
/-! DEFINITION. Issuing the engine family: the checks of parameter blocks and intervals, the scoreboard entry and what the operation
captures. CPY (R122 to R124), CPYM (R129, R130), LAND (R131), GTH and SCT (R135, R136), CPYW (R322 to R324), BTST (R316, R317),
BTDEM and BTPRO (R311 to R313). -/

namespace Sys2Proof.Machine

/-! ## Parameter blocks -/

/-- Trap 0x38 with the byte offset of the first bad field. -/
def badField (off : Nat) : TrapInfo := { cause := 0x38, info := BitVec.ofNat 64 off }

/-- The offset of the first field that breaks its limits. -/
def firstField : List (Nat × Bool) → Option Nat
  | [] => none
  | (off, ok) :: r => if ok then firstField r else some off

/-- The first trap of a list of conditions in their order. -/
def firstTrap : List (Bool × TrapInfo) → Option TrapInfo
  | [] => none
  | (ok, t) :: r => if ok then firstTrap r else some t

/-- A copy's rows (R122). -/
structure Shape where
  src : Nat
  dst : Nat
  rowBytes : Nat
  rows : Nat
  sstride : Nat
  dstride : Nat
  deriving DecidableEq, Repr

def shapeOf (pb : List Byte) : Shape :=
  ⟨fieldN pb 0 8, fieldN pb 8 8, fieldN pb 16 4, fieldN pb 20 2, fieldN pb 24 4, fieldN pb 28 4⟩

/-- The bounding interval of `n` rows of `w` bytes (R111). -/
def rowSpan (b n w st : Nat) : Nat × Nat := (b, b + (n - 1) * st + w)

def Shape.srcSpan (q : Shape) : Nat × Nat := rowSpan q.src q.rows q.rowBytes q.sstride
def Shape.dstSpan (q : Shape) : Nat × Nat := rowSpan q.dst q.rows q.rowBytes q.dstride

/-- The limits of R122, in byte order; `mid` checks bytes 22 and 23, which CPYM uses otherwise (R129). -/
def copyFields (pb : List Byte) (mid : List (Nat × Bool)) : List (Nat × Bool) :=
  let q := shapeOf pb
  [(0, q.src % 4 == 0), (8, q.dst % 4 == 0),
    (16, q.rowBytes % 4 == 0 && decide (4 ≤ q.rowBytes) && decide (q.rowBytes ≤ 1048576)), (20, decide (1 ≤ q.rows))] ++
  mid ++ [(24, q.sstride % 4 == 0), (28, q.dstride % 4 == 0 && (decide (q.rows ≤ 1) || decide (q.rowBytes ≤ q.dstride)))]

/-- The receivers of a CPYM: the entries before the first unused one (R129). -/
def receivers (pb : List Byte) : List Nat :=
  ((List.range 12).map (fun i => fieldN pb (32 + 2 * i) 2)).takeWhile (fun r => r != 0xFFFF)

/-- The limits of R129 on the receivers: a core index, none twice, at least one. -/
def recvFields (pb : List Byte) : List (Nat × Bool) :=
  let rs := receivers pb
  (32, !rs.isEmpty) :: rs.zipIdx.map (fun e =>
    (32 + 2 * e.2, decide (e.1 < Config.coresPerDie) && !(rs.take e.2).contains e.1))

/-- An interval stands in the block's own store (R124). -/
def inStore (b : Block) (r : Nat × Nat) : Bool := decide (r.2 ≤ b.bytes)

/-- Every byte of an interval of global addresses is canonical (R124). -/
def spanCanonical (r : Nat × Nat) : Bool := canonicalSpan r.1 (r.2 - r.1)

/-- The trap of an operation with a global side after DETACH (R65). -/
def detached (g : Group) (glob : Bool) : Bool × TrapInfo := (!(glob && g.r.detached), { cause := 0x12, info := 1 })

/-! ## Starting an operation -/

/-- The range of a parameter block. -/
def pbRange (a n : Nat) : Nat × Nat := (a, a + n)

/-- What an earlier execution of a CPYM, which a rollback has cancelled, left with its receivers (R240, R348). -/
def reissued (g : Group) : OpKind → Option SentRows
  | .cpym _ _ _ _ => g.again.find? (fun r => r.iaddr == g.r.pc)
  | _ => none

/-- Puts an asynchronous operation in flight (R96, R110, R117): its local sources are captured as of the close before its issue,
or later when an earlier operation still has to write them; so is its parameter block, at `late`. A CPYM that its group reissues after
a rollback counts the receivers that hold its rows (R240, R348). -/
def Ctx.startOp (x : Ctx) (kind : OpKind) (pb : List Byte) (args : List Word) (reads : List (Nat × Nat))
    (write : Option (Nat × Nat)) (entry : Bool) (late : Option (Nat × Nat) := none) : Nat × State :=
  let b := x.s.blockOf x.g
  let (id, s1) := x.s.take
  let old := reissued x.g kind
  let got := (old.map (fun r => r.recv)).getD []
  let op : AsyncOp :=
    { kind := kind, gid := x.gid, blk := x.g.blk, core := b.core, gstep := x.g.r.gstep, lstep := x.g.r.lstep,
      lag := x.g.r.lag.toNat, wid := x.g.gwid, seq := x.s.seq, iaddr := x.g.r.pc, pb := pb, args := args, snap := b.mem,
      bad := b.poison, late := late.map (fun r => ⟨r.1, r.2, x.g.r.detached⟩),
      deps := distinct (reads.flatMap (fun r => writesOver b (some r))), prog := 0, st := .running, sys := x.g.r.sys,
      accepted := got, pins := [], lines := [], begun := false, sums := [], tables := none }
  let e : Entry := { op := id, seq := x.s.seq, grp := x.gid, reads := reads, write := write, step := x.g.r.lstep, ret := none }
  let s2 : State := match old with
    | some r => ({ s1 with ops := tset s1.ops id op } : State).modGroup x.gid (fun g =>
        { g with again := g.again.erase r, sent := ⟨x.s.seq, r.iaddr, got⟩ :: g.sent })
    | none => { s1 with ops := tset s1.ops id op }
  (id, if entry then s2.modBlock x.g.blk (fun b => { b with entries := b.entries ++ [e] }) else s2)

/-! ## Copies -/

def dirSrcGlob : Dir → Bool | .g2l | .g2g => true | _ => false
def dirSrcLoc : Dir → Bool | .l2g | .l2l | .ferry => true | _ => false
def dirSrcWeight : Dir → Bool | .w2l => true | _ => false
def dirDstGlob : Dir → Bool | .l2g | .g2g => true | _ => false
def dirDstLoc : Dir → Bool | .g2l | .l2l | .w2l => true | _ => false
def dirIsFerry : Dir → Bool | .ferry => true | _ => false

/-- The checks of a source interval (R124). -/
def srcChecks (b : Block) (dir : Dir) (r : Nat × Nat) : List (Bool × TrapInfo) :=
  [(!dirSrcLoc dir || inStore b r, badField 0), (!dirSrcWeight dir || decide (r.2 ≤ Config.weightBytes), badField 0)]

/-- A ferry address: bits [63:53] zero and a link of the partition (R268). -/
def ferryOk (s : State) (k dst : Nat) : Bool :=
  decide (dst / 2 ^ 53 = 0) && decide (dst / 2 ^ 48 < 32) && (s.partAt k).links.getLsbD (dst / 2 ^ 48)

/-- The checks of a copy, in the order of R124. -/
def copyCheck (s : State) (g : Group) (dir : Dir) (pb : List Byte) : Option TrapInfo :=
  let b := s.blockOf g
  let q := shapeOf pb
  match firstField (copyFields pb [(22, fieldN pb 22 2 == 0)]) with
  | some off => some (badField off)
  | none =>
    firstTrap (srcChecks b dir q.srcSpan ++
      [(!dirDstLoc dir || inStore b q.dstSpan, badField 0),
       (!dirIsFerry dir || ferryOk s b.core q.dst, badField 8),
       (!dirSrcGlob dir || spanCanonical q.srcSpan, { cause := 0x11, addr := BitVec.ofNat 64 q.src }),
       (!dirDstGlob dir || spanCanonical q.dstSpan, { cause := 0x11, addr := BitVec.ofNat 64 q.dst }),
       detached g (dirSrcGlob dir || dirDstGlob dir || dirIsFerry dir)])

/-- The checks of a CPYM (R129, R130). -/
def multiCheck (s : State) (g : Group) (dir : Dir) (pb : List Byte) : Option TrapInfo :=
  let q := shapeOf pb
  match firstField (copyFields pb [(22, decide (fieldN pb 22 1 < 8)), (23, fieldN pb 23 1 == 0)] ++ recvFields pb) with
  | some off => some (badField off)
  | none =>
    firstTrap (srcChecks (s.blockOf g) dir q.srcSpan ++
      [(!dirSrcGlob dir || spanCanonical q.srcSpan, { cause := 0x11, addr := BitVec.ofNat 64 q.src }), detached g (dirSrcGlob dir)])

/-! ## Landing windows -/

/-- The blocks of a core hold an open window of this identifier (R131). DESIGN CHOICE (entry 108): a window that has been filled counts
as open until the close that applies it. -/
def windowOpen (s : State) (k id : Nat) : Bool := (s.blocksOn k).any (fun e => e.2.windows.any (fun w => w.win == id))

/-- Entries of a block that were issued before an operation and that it must follow (R117): ranges of which overlap what it
writes, or which write what it reads. -/
def mustFollow (b : Block) (oid : Nat) : List Entry :=
  match b.entries.find? (fun e => e.op == oid) with
  | none => []
  | some e =>
    b.entries.filter (fun f => decide (f.seq < e.seq) &&
      ((match e.write with
        | some w => f.reads.any (fun r => overlaps r w) || (match f.write with | some v => overlaps v w | none => false)
        | none => false) ||
       (match f.write with | some v => e.reads.any (fun r => overlaps r v) | none => false)))

/-- What an operation must follow has completed (R117). -/
def inOrder (b : Block) (oid : Nat) : Bool := (mustFollow b oid).all (fun e => e.ret.isSome)

/-- The retirement step of an operation that completes now (R114): not before that of an operation that it must follow, after whose
writes its own are ordered (R117). -/
def retireStep (b : Block) (e : Entry) : Nat :=
  (mustFollow b e.op).foldl (fun m f => max m (f.ret.getD 0)) (max e.step b.closed)

/-- An operation completes (R114): its retirement step is fixed, its local writes wait for that close, and it leaves the
operations in flight. -/
def completeOp (s : State) (oid : Nat) (blk : Nat) (ws : List Write) : State :=
  let s1 := s.modBlock blk (fun b =>
    { b with
      entries := b.entries.map (fun e => if e.op = oid then { e with ret := some (retireStep b e) } else e)
      pend := b.pend ++ ws.map (fun w =>
        { w := w, step := ((b.entries.find? (fun e => e.op == oid)).map (retireStep b)).getD b.closed, by_ := [oid], ofOp := true }) })
  { s1 with ops := tdel s1.ops oid }

/-- The extent of an arrival (R133). -/
def Arrival.extent (a : Arrival) : Nat := a.off + (a.rows - 1) * a.dstride + a.rowBytes

/-- The writes of an arrival in a window (R130, R132). -/
def arrivalWrites (a : Arrival) (base : Nat) : List Write :=
  let q := a.rowBytes / 4
  (List.range (a.rows * q)).map (fun i =>
    let at_ := base + a.off + i / q * a.dstride + 4 * (i % q)
    { key := at_, va := BitVec.ofNat 64 at_, wide := false, mask := 0x0F, val := BitVec.ofNat 64 (fieldN a.data (4 * i) 4),
      rule := a.rule, wid := a.wid, ord := 1 + i, grp := a.grp, engine := true, seq := a.seq })

/-- Fills an open window, or closes it when the arrival reaches beyond it (R132, R133). -/
def fillWindow (s : State) (bid : Nat) (w : Window) (a : Arrival) : State :=
  let far := decide (w.len < a.extent)
  let s1 := completeOp s w.op bid (if far then [] else arrivalWrites a w.base)
  let s2 := s1.modBlock bid (fun b =>
    { b with windows := b.windows.map (fun v => if v.op = w.op then { v with filled := some a, beyond := far } else v) })
  if far && !a.told then
    s2.notify w.grp { kind := .deferred, cause := 0x39, step := none, addr := BitVec.ofNat 64 w.base, prog := 0,
                      info := BitVec.ofNat 64 (a.extent % 2 ^ 32 + 2 ^ 32 * w.win), mop := none }
  else s2

/-- A window takes the earliest buffered arrival for its identifier, once what LAND must follow has completed (R117, R132). -/
def takeArrival (s : State) (bid : Nat) (w : Window) : State :=
  match s.block? bid with
  | none => s
  | some b =>
    match (s.core b.core).landing.find? (fun a => a.win == w.win) with
    | none => s
    | some arr =>
      if w.filled.isSome || !inOrder b w.op then s
      else fillWindow (s.modCore b.core (fun c => { c with landing := c.landing.erase arr })) bid w arr

/-- LAND (R131, R132): the earliest buffered arrival for the identifier fills the window at once. -/
def Ctx.land (x : Ctx) (d a b : SSrc) : Res :=
  let id := (x.ssrc d).toNat
  let base := (x.ssrc a).toNat
  let len := (x.ssrc b).toNat
  let blk := x.s.blockOf x.g
  if 8 ≤ id || base % 4 != 0 || len % 4 != 0 || decide (len < 4) || decide (blk.bytes < base + len) ||
      windowOpen x.s blk.core id then x.fail { cause := 0x38 }
  else
    let (oid, s1) := x.startOp .land [] [] [] (some (base, base + len)) true
    let w : Window := ⟨id, base, len, oid, x.gid, x.g.r.lstep, none, false⟩
    .ok (takeArrival (s1.modBlock x.g.blk (fun b => { b with windows := b.windows ++ [w] })) x.g.blk w) .seq 0

/-- LAND (R131). -/
def execLand (c : Ctl) (d a b : SSrc) (s : State) : Out :=
  issue (.land c d a b) c false (fun x => x.land d a b) s

/-! ## Gather and scatter -/

/-- The parameter block of GTH and SCT (R135). -/
structure GShape where
  ibase : Nat
  pbase : Nat
  rowBytes : Nat
  count : Nat
  iw : Nat
  istride : Nat
  ilist : Nat
  deriving DecidableEq, Repr

def gshapeOf (pb : List Byte) : GShape :=
  ⟨fieldN pb 0 8, fieldN pb 8 8, fieldN pb 16 4, fieldN pb 20 2, if fieldN pb 22 1 = 0 then 2 else 4, fieldN pb 24 4, fieldN pb 28 4⟩

def GShape.listSpan (q : GShape) : Nat × Nat := (q.ilist, q.ilist + q.count * q.iw)
def GShape.packSpan (q : GShape) : Nat × Nat := (q.pbase, q.pbase + q.count * q.rowBytes)

/-- The limits of R135. -/
def gatherFields (pb : List Byte) : List (Nat × Bool) :=
  let q := gshapeOf pb
  [(0, q.ibase % 4 == 0), (8, q.pbase % 4 == 0),
    (16, q.rowBytes % 4 == 0 && decide (4 ≤ q.rowBytes) && decide (q.rowBytes ≤ 65536)), (20, decide (1 ≤ q.count)),
    (22, decide (fieldN pb 22 1 < 2)), (23, fieldN pb 23 1 == 0), (24, q.istride % 4 == 0), (28, q.ilist % q.iw == 0)]

/-- The checks of a gather or scatter (R124, R136). -/
def gatherCheck (s : State) (g : Group) (glob : Bool) (pb : List Byte) : Option TrapInfo :=
  let b := s.blockOf g
  let q := gshapeOf pb
  match firstField (gatherFields pb) with
  | some off => some (badField off)
  | none => firstTrap [(inStore b q.listSpan, badField 0), (inStore b q.packSpan, badField 0), detached g glob]

/-! ## CPYW -/

/-- A launch of the partition has started and has neither completed nor been terminated (R324). -/
def launchRuns (s : State) (p : Nat) : Bool :=
  s.launches.any (fun e => e.2.part == p && e.2.holds)

/-- The checks of CPYW after its first (R324). -/
def weightCheck (s : State) (g : Group) (glob : Bool) (pb : List Byte) : Option TrapInfo :=
  let b := s.blockOf g
  let q := shapeOf pb
  match firstField (copyFields pb [(22, fieldN pb 22 2 == 0)]) with
  | some off => some (badField off)
  | none =>
    firstTrap [(glob || inStore b q.srcSpan, badField 0), (decide (q.dstSpan.2 ≤ Config.weightBytes), badField 0),
      (!glob || spanCanonical q.srcSpan, { cause := 0x11, addr := BitVec.ofNat 64 q.src }), detached g glob]

/-! ## The KV block store -/

/-- The parameter block of BTST (R317). -/
structure TShape where
  view : Nat
  src : Nat
  sstride : Nat
  row0 : Nat
  rows : Nat
  rowBytes : Nat
  deriving DecidableEq, Repr

def tshapeOf (pb : List Byte) : TShape :=
  ⟨fieldN pb 0 8, fieldN pb 8 4, fieldN pb 12 4, fieldN pb 16 4, fieldN pb 20 4, fieldN pb 24 4⟩

def TShape.srcSpan (q : TShape) : Nat × Nat := rowSpan q.src q.rows q.rowBytes q.sstride

/-- The limits of R317. -/
def btstFields (pb : List Byte) : List (Nat × Bool) :=
  let q := tshapeOf pb
  [(0, q.view % 32 == 0), (8, q.src % 4 == 0),
    (12, q.sstride % 4 == 0 && (decide (q.rows ≤ 1) || decide (q.rowBytes ≤ q.sstride))),
    (20, decide (1 ≤ q.rows) && decide (q.rows ≤ 65535)),
    (24, q.rowBytes % 4 == 0 && decide (4 ≤ q.rowBytes) && decide (q.rowBytes ≤ 65536)), (28, fieldN pb 28 4 == 0)]

/-- The checks of BTST (R313). -/
def btstCheck (s : State) (g : Group) (pb : List Byte) : Option TrapInfo :=
  let q := tshapeOf pb
  match firstField (btstFields pb) with
  | some off => some (badField off)
  | none =>
    firstTrap [(inStore (s.blockOf g) q.srcSpan, badField 0),
      (canonicalSpan q.view 32, { cause := 0x11, addr := BitVec.ofNat 64 q.view }), detached g true]

/-- The checks of a move (R312, R313). -/
def moveCheck (g : Group) (pb : List Byte) : Option TrapInfo :=
  let dir := fieldN pb 0 8
  let dest := fieldN pb 8 8
  match firstField [(0, dir % 16 == 0), (8, dest % 64 == 0), (16, fieldN pb 16 16 == 0)] with
  | some off => some (badField off)
  | none =>
    firstTrap [(canonicalSpan dir 16, { cause := 0x11, addr := BitVec.ofNat 64 dir }),
      (canonicalSpan dest 64, { cause := 0x11, addr := BitVec.ofNat 64 dest }), detached g true]

/-! ## An operation with a parameter block -/

/-- The kind of an operation once its parameter block is known: a CPYM's receivers stand in it (R129). -/
def withBlock (pb : List Byte) : OpKind → OpKind
  | .cpym dir rule kind _ => .cpym dir rule kind (receivers pb)
  | k => k

/-- Alignment and size of an operation's parameter block (R122, R129, R135, R312, R317). -/
def blockForm : OpKind → Nat × Nat
  | .cpym _ _ _ _ => (8, 56)
  | _ => (32, 32)

/-- The checks of a parameter block at issue (R124, R129, R135, R313, R317, R324). -/
def blockCheck (s : State) (g : Group) (pb : List Byte) : OpKind → Option TrapInfo
  | .cpy dir _ _ => copyCheck s g dir pb
  | .cpym dir _ _ _ => multiCheck s g dir pb
  | .gth side _ _ => gatherCheck s g (side == .g) pb
  | .sct side _ => gatherCheck s g (side == .g) pb
  | .cpyw glob => weightCheck s g glob pb
  | .btst _ => btstCheck s g pb
  | .move _ => moveCheck g pb
  | .land | .ctld _ | .mma _ _ | .mmq _ _ _ | .mzero _ _ | .mlda _ _ | .mdrn _ _ _ _ => none

/-- The local source ranges of an operation beside its parameter block, in a block of `a` bytes (R110, R313, R323). -/
def sourceRanges (a : Nat) (pb : List Byte) : OpKind → List (Nat × Nat)
  | .cpy dir _ _ | .cpym dir _ _ _ => if dirSrcLoc dir then [(shapeOf pb).srcSpan] else []
  | .gth side _ _ => (gshapeOf pb).listSpan :: (if side = .l then [(0, a)] else [])
  | .sct _ _ => [(gshapeOf pb).listSpan, (gshapeOf pb).packSpan]
  | .cpyw glob => if glob then [] else [(shapeOf pb).srcSpan]
  | .btst _ => [(tshapeOf pb).srcSpan]
  | .move _ | .land | .ctld _ | .mma _ _ | .mmq _ _ _ | .mzero _ _ | .mlda _ _ | .mdrn _ _ _ _ => []

/-- The local write range of an operation (R110). -/
def destRange (a : Nat) (pb : List Byte) : OpKind → Option (Nat × Nat)
  | .cpy dir _ _ => if dirDstLoc dir then some (shapeOf pb).dstSpan else none
  | .gth _ _ _ => some (gshapeOf pb).packSpan
  | .sct side _ => if side = .l then some (0, a) else none
  | .cpym _ _ _ _ | .cpyw _ | .btst _ | .move _ | .land | .ctld _ | .mma _ _ | .mmq _ _ _ | .mzero _ _ | .mlda _ _
  | .mdrn _ _ _ _ => none

/-- The trap of a parameter block that is read: poison in it, or a field that its checks refuse (R124, R242). -/
def blockTrap (s : State) (g : Group) (poison : List Nat) (a n : Nat) (pb : List Byte) (k : OpKind) : Option TrapInfo :=
  if poison.any (State.wordIn (pbRange a n)) then some { cause := 0x14, addr := BitVec.ofNat 64 a } else blockCheck s g pb k

/-- An operation with a parameter block: the address check, the block as of the close before issue with its own checks, then the
start (R96, R110, R124). While an earlier operation that writes the block is held, the block is a source that R117 reads later, and
no run waits for it (R112): the operation starts without it, its ranges are then the whole allocation on each local side that its
kind may have, and its checks come with the reading (entry 55). -/
def Ctx.engine (x : Ctx) (d : SReg) (kind : OpKind) : Res :=
  let a := (x.sreg d).toNat
  let n := (blockForm kind).2
  let b := x.s.blockOf x.g
  if a % (blockForm kind).1 != 0 || decide (b.bytes < a + n) then x.fail { cause := 0x38 }
  else if !(writesOver b (some (pbRange a n))).isEmpty then
    let whole : List (Nat × Nat) := [(0, b.bytes)]
    .ok (x.startOp kind [] [] (pbRange a n :: if (sourceRanges b.bytes [] kind).isEmpty then [] else whole)
      ((destRange b.bytes [] kind).map (fun _ => (0, b.bytes))) true (some (a, n))).2 .seq 0
  else
    let pb := rdL b.mem a n
    match blockTrap x.s x.g b.poison a n pb kind with
    | some t => x.fail t
    | none =>
      let k := withBlock pb kind
      .ok (x.startOp k pb [] (pbRange a n :: sourceRanges b.bytes pb k) (destRange b.bytes pb k) true).2 .seq 0

/-! ## The instructions -/

/-- CPY (R122 to R124). A .sum copy sums as n32 (R123). -/
def execCpy (c : Ctl) (dir : Dir) (rule : Rule) (kind : Kind) (d : SReg) (s : State) : Out :=
  issue (.cpy c dir rule kind d) c false (fun x => x.engine d (.cpy dir (wrule rule .n32) kind)) s

/-- CPYM (R129, R130). -/
def execCpym (c : Ctl) (dir : Dir) (rule : Rule) (kind : Kind) (d : SReg) (s : State) : Out :=
  issue (.cpym c dir rule kind d) c false (fun x => x.engine d (.cpym dir (wrule rule .n32) kind [])) s

/-- GTH (R135, R136, R345). -/
def execGth (c : Ctl) (side : Side) (rule : Rule) (kind : Kind) (d : SReg) (s : State) : Out :=
  issue (.gth c side rule kind d) c false (fun x => x.engine d (.gth side (wrule rule .n32) kind)) s

/-- SCT (R135, R136, R345). -/
def execSct (c : Ctl) (side : Side) (rule : Rule) (d : SReg) (s : State) : Out :=
  issue (.sct c side rule d) c false (fun x => x.engine d (.sct side (wrule rule .n32))) s

/-- CPYW (R322 to R324): refused while a launch of the partition runs (R217). -/
def execCpyw (c : Ctl) (glob : Bool) (d : SReg) (s : State) : Out :=
  issue (.cpyw c glob d) c false
    (fun x =>
      if ((x.s.partOfDie (coreDie (x.s.blockOf x.g).core)).map (launchRuns x.s)).getD false then x.fail { cause := 0x17 }
      else x.engine d (.cpyw glob)) s

/-- BTST (R313, R316, R317). -/
def execBtst (c : Ctl) (rule : Rule) (d : SReg) (s : State) : Out :=
  issue (.btst c rule d) c false (fun x => x.engine d (.btst (wrule rule .n32))) s

/-- BTDEM (R311 to R313). -/
def execBtdem (c : Ctl) (d : SReg) (s : State) : Out :=
  issue (.btdem c d) c false (fun x => x.engine d (.move true)) s

/-- BTPRO (R311 to R313). -/
def execBtpro (c : Ctl) (d : SReg) (s : State) : Out :=
  issue (.btpro c d) c false (fun x => x.engine d (.move false)) s

end Sys2Proof.Machine
end

