-- ==== Sys2Proof/Machine/Async.lean ====
section
/-! DEFINITION. How engine operations run and complete: ASYNC_COMPLETE (R114, R123 to R126, R135, R136, R318, R323, R345),
LANDING_ARRIVAL (R130, R132, R133), FERRY_SEND (R128). An operation makes its accesses in one event, row by row. -/

namespace Sys2Proof.Machine

/-! ## One word -/

/-- Why an operation does not go on. -/
inductive Halt where
  /-- It stops under R126. -/
  | stop (t : TrapInfo)
  /-- It addresses memory outside its partition (R244). -/
  | freeze (addr : Word)
  /-- A word is not available yet. -/
  | later
  deriving DecidableEq, Repr

/-- The notice fields of an engine fault (R126, R231). -/
def engFault (cause : Nat) (va : Word) (i : Info) : Halt :=
  .stop { cause := cause, addr := va, info := Info.word { i with eng := true } }

/-- Where a word stands. -/
inductive Loc where
  | glob (va : Word)
  | loc (a : Nat)
  | weight (off : Nat)
  deriving DecidableEq, Repr

/-- The launch of an operation's group. -/
def opLid (s : State) (op : AsyncOp) : Option Nat := (s.group? op.gid).bind (fun g => g.launch)
def opLaunch (s : State) (op : AsyncOp) : Option Launch := (opLid s op).bind s.launch?

/-- The context whose tables an operation uses. -/
def opTag (s : State) (op : AsyncOp) : Option Nat := (s.group? op.gid).bind s.tagOf

/-- How far behind a .lag read goes: a free choice among the states that the lag allows and that are committed (R81). When even the
oldest that it allows is not committed, it is that one, for which the read waits. -/
def lagChoice (l : Option Launch) (op : AsyncOp) (free : Nat) : Nat :=
  match l with
  | some l => min op.lag (op.gstep - l.c + Config.freeNat free % (op.lag + 1 - (op.gstep - l.c)))
  | none => 0

/-- An access outside the partition freezes the operation, or stops it once it has been released to be faulted (R244). -/
def beyond (op : AsyncOp) (va : Word) (i : Info) : Halt := if op.st = .denied then engFault 0x12 va i else .freeze va

/-- Reads a global word for an operation (R96, R123, R126). `direct` reads as a host read does (R323). -/
def engineRead (s : State) (op : AsyncOp) (kind : Kind) (direct : Bool) (va : Word) (n : Nat) : Except Halt Nat × State :=
  match s.check op.core (opTag s op) va { size := 4, sys := op.sys, eng := true } with
  | (.bad c i, s1) => (.error (engFault c va i), s1)
  | (.missing _, s1) => (.error (engFault 0x15 va {}), s1)
  | (.good key t, s1) =>
    if outside (s1.partAt op.core) key then (.error (beyond op va {}), s1)
    else if s1.poisoned key 4 then (.error (engFault 0x14 va {}), s1)
    else
      let l := opLaunch s1 op
      match readGlobal s1 (if direct then none else opLid s1 op) (kindOn kind t.e.s) op.gstep (lagChoice l op (s1.free + n)) key 4 with
      | none => (.error .later, s1)
      | some x => (.ok x, s1.rebuilds [key])

/-- Reads one word (R123, R126, R136). -/
def readLoc (s : State) (op : AsyncOp) (kind : Kind) (direct : Bool) (a : Loc) (n : Nat) : Except Halt Nat × State :=
  match a with
  | .glob va => engineRead s op kind direct va n
  | .loc a =>
    let b := (s.block? op.blk).getD (dispatcherBlock op.blk)
    if decide (b.bytes < a + 4) then (.error (engFault 0x12 (BitVec.ofNat 64 a) { bnd := true }), s)
    else if op.bad.any (State.wordIn (a, a + 4)) then (.error (engFault 0x14 (BitVec.ofNat 64 a) {}), s)
    else (.ok (rdN op.snap a 4), s)
  | .weight off =>
    let p := coreDie op.core
    if Config.weightBytes < off + 4 then (.error (engFault 0x12 (BitVec.ofNat 64 off) { bnd := true }), s)
    else if s.poisoned (keyWeight p off) 4 then (.error (engFault 0x14 (BitVec.ofNat 64 off) {}), s)
    else if refreshing s p off || cpywAhead s op.blk op.seq then (.error .later, s)
    else (.ok (rdN s.mem (keyWeight p off) 4), s)

/-- The write of one word under the operation's rule and identity (R85, R123). -/
def writeLoc (s : State) (op : AsyncOp) (rule : WRule) (a : Loc) (x n : Nat) : Except Halt Write × State :=
  let w : Write :=
    { key := 0, va := 0, wide := false, mask := 0x0F, val := BitVec.ofNat 64 x, rule := rule, wid := op.wid, ord := n,
      grp := op.gid, engine := true, seq := op.seq }
  match a with
  | .glob va =>
    (match s.check op.core (opTag s op) va { size := 4, write := true, sys := op.sys, eng := true } with
    | (.bad c i, s1) => (.error (engFault c va i), s1)
    | (.missing _, s1) => (.error (engFault 0x15 va {}), s1)
    | (.good key _, s1) =>
      if outside (s1.partAt op.core) key then (.error (beyond op va { wr := true }), s1) else (.ok { w with key := key, va := va }, s1))
  | .loc a =>
    let b := (s.block? op.blk).getD (dispatcherBlock op.blk)
    if decide (b.bytes < a + 4) then (.error (engFault 0x12 (BitVec.ofNat 64 a) { wr := true, bnd := true }), s)
    else (.ok { w with key := a, va := BitVec.ofNat 64 a }, s)
  | .weight off =>
    let p := coreDie op.core
    if refreshing s p off then (.error .later, s)
    else (.ok { w with key := keyWeight p off, va := BitVec.ofNat 64 off }, s)

/-! ## Rows -/

/-- One word to move: its source, its destination and its ordinal. -/
structure WordMove where
  src : Loc
  dst : Loc
  ord : Nat
  deriving DecidableEq, Repr

/-- What a run of rows has done. -/
structure Ran where
  s : State
  ws : List Write
  rows : Nat
  halt : Option Halt

/-- The words of one row: all of its writes, or what stops it. -/
def runWords (op : AsyncOp) (rule : WRule) (kind : Kind) (direct : Bool) :
    List WordMove → List Write → State → Except Halt (List Write) × State
  | [], acc, s => (.ok acc.reverse, s)
  | m :: ms, acc, s =>
    match readLoc s op kind direct m.src m.ord with
    | (.error h, s1) => (.error h, s1)
    | (.ok x, s1) =>
      match writeLoc s1 op rule m.dst x m.ord with
      | (.error h, s2) => (.error h, s2)
      | (.ok w, s2) => runWords op rule kind direct ms (w :: acc) s2

/-- Row after row until one cannot complete (R126). -/
def runRows (op : AsyncOp) (rule : WRule) (kind : Kind) (direct : Bool) : List (List WordMove) → Ran → Ran
  | [], r => r
  | row :: rest, r =>
    match runWords op rule kind direct row [] r.s with
    | (.error h, s1) => { r with s := s1, halt := some h }
    | (.ok ws, s1) => runRows op rule kind direct rest { r with s := s1, ws := r.ws ++ ws, rows := r.rows + 1 }

/-- The moves of a copy (R124). -/
def copyMoves (q : Shape) (src dst : Nat → Loc) : List (List WordMove) :=
  let n := q.rowBytes / 4
  (List.range q.rows).map (fun row => (List.range n).map (fun w =>
    ⟨src (q.src + row * q.sstride + 4 * w), dst (q.dst + row * q.dstride + 4 * w), 1 + row * n + w⟩))

def globAt (a : Nat) : Loc := .glob (BitVec.ofNat 64 a)

def dirSrc (d : Dir) : Nat → Loc := if dirSrcGlob d then globAt else if dirSrcWeight d then .weight else .loc
def dirDst (d : Dir) : Nat → Loc := if dirDstGlob d then globAt else .loc

/-- Where the indexed side of a gather or scatter stands. -/
def sideLoc (side : Side) : Nat → Loc :=
  match side with
  | .g => globAt
  | .l => .loc
  | .w => .weight

/-- The index of element `e` (R136). -/
def indexAt (op : AsyncOp) (q : GShape) (e : Nat) : Nat := rdN op.snap (q.ilist + e * q.iw) q.iw

/-- The moves of a gather (R136). -/
def gatherMoves (op : AsyncOp) (side : Side) (q : GShape) : List (List WordMove) :=
  let n := q.rowBytes / 4
  (List.range q.count).map (fun e => (List.range n).map (fun w =>
    ⟨sideLoc side (q.ibase + indexAt op q e * q.istride + 4 * w), .loc (q.pbase + e * q.rowBytes + 4 * w), 1 + e * n + w⟩))

/-- The moves of a scatter (R136). -/
def scatterMoves (op : AsyncOp) (side : Side) (q : GShape) : List (List WordMove) :=
  let n := q.rowBytes / 4
  (List.range q.count).map (fun e => (List.range n).map (fun w =>
    ⟨.loc (q.pbase + e * q.rowBytes + 4 * w), sideLoc side (q.ibase + indexAt op q e * q.istride + 4 * w), 1 + e * n + w⟩))

/-! ## When an operation may run -/

/-- The copy engines of a die carry .g2g and ferry copies and CPYM; a core's own copy port carries the rest (R123, R130). -/
def byEngine : OpKind → Bool
  | .cpy dir _ _ => dir == .g2g || dir == .ferry
  | .cpym _ _ _ _ => true
  | _ => false

/-- A frozen operation or tier move still holds its copy engine. -/
def holdsEngine (s : State) (o : Nat) : Bool :=
  (tfind s.ops o).isSome || s.launches.any (fun e => e.2.moves.any (fun m => m.op == o))

/-- The copy engines of a die that nothing frozen holds (R18, R244). -/
def freeEngines (s : State) (p : Nat) : List Nat :=
  (List.range 4).filter (fun e => !((tfind (s.die p).engines e).map (holdsEngine s)).getD false)

/-- An operation may run: its block and its sources are captured, what it must follow has completed, and an engine is free for it or
is its own. -/
def mayRun (s : State) (oid : Nat) (op : AsyncOp) : Bool :=
  let b := (s.block? op.blk).getD (dispatcherBlock op.blk)
  (op.st == .running || op.st == .denied) && op.late.isNone && op.deps.isEmpty && inOrder b oid &&
    (!byEngine op.kind || op.st == .denied || !(freeEngines s (coreDie op.core)).isEmpty)

/-- The notice of an operation that stopped at a row (R126). -/
def stopNotice (op : AsyncOp) (t : TrapInfo) (rows : Nat) : Notice :=
  { kind := .deferred, cause := t.cause, step := some (BitVec.ofNat 64 op.gstep), addr := t.addr, prog := BitVec.ofNat 64 rows,
    info := t.info, mop := none }

/-- Delivers an operation's global writes, tagged with its issue step (R96); they leave after the hold window (R239). -/
def deliver (s : State) (op : AsyncOp) (ws : List Write) : State :=
  match (s.group? op.gid).bind (fun g => g.launch) with
  | none => applyNow s ws
  | some l =>
    let now := s.cycle (coreDie op.core)
    let gw : List GWrite := ws.zipIdx.map (fun e =>
      { id := s.fresh + e.2, w := e.1, step := op.gstep, core := op.core, cycle := now, stage := .held now })
    { s with fresh := s.fresh + ws.length }.modLaunch l (fun x => { x with gw := x.gw ++ gw })

/-- Ends an operation whose rows ran: its writes are delivered, its entry takes its retirement step, a stop is noticed. -/
def endRows (r : Ran) (oid : Nat) (op : AsyncOp) (glob : Bool) (words : Nat) : State :=
  let s1 : State := { r.s with free := r.s.free + words + 1 }
  let s2 := if glob then deliver s1 op r.ws else s1
  let s3 := completeOp s2 oid op.blk (if glob then [] else r.ws)
  match r.halt with
  | some (.stop t) => s3.notify op.gid (stopNotice op t r.rows)
  | _ => s3

/-- The engine number of an operation that freezes: a die's copy engine that is free, or for a core's copy port, which the manual does
not number, one from 4 to 254 that no frozen requester of the die has (R18, R244, R265; entry 109). -/
def engineFor (s : State) (p : Nat) (die : Bool) (used : List Nat) : Nat :=
  let l := if die then freeEngines s p else ((List.range 251).map (· + 4)).filter (fun e => !used.contains e)
  (l[Config.freeNat s.free % l.length]?).getD 254

/-- Freezes the engine of die `p` that operation or move `oid` uses: one of the die's copy engines when `die` says so (R244). -/
def freezeEngine (s : State) (p oid : Nat) (die : Bool) (by_ : FrozenBy) (a : Word) : State :=
  let used := s.parts.flatMap (fun q => (q.2.frozen.filter (fun f => f.die == p)).map (fun f => f.engine))
  let e := engineFor s p die used
  let s0 := if die then s.modDie p (fun d => { d with engines := tset d.engines e oid }) else s
  let s1 : State := { s0 with free := s0.free + 1 }
  let f : Frozen := { die := p, engine := e, by_ := by_ }
  let s2 := match s1.partOfDie p with
    | some P => s1.modPart P (fun x => { x with frozen := x.frozen ++ [f] })
    | none => s1
  (s2.bboxAdd p ⟨a, BitVec.ofNat 32 e, 0xFFFF, 0x07, 2⟩).report .nonFatal p

/-- Freezes an operation that met an address outside its partition (R244). -/
def freezeOp (s : State) (oid : Nat) (op : AsyncOp) (a : Word) : State :=
  let s1 := freezeEngine s (coreDie op.core) oid (byEngine op.kind) (.engine oid) a
  { s1 with ops := tmod s1.ops oid (fun o => { o with st := .frozen a }) }

/-- Runs rows and ends the operation; nothing happens while a word is not available. -/
def finishRows (s : State) (oid : Nat) (op : AsyncOp) (rule : WRule) (kind : Kind) (glob : Bool)
    (rows : List (List WordMove)) : State :=
  let r := runRows op rule kind false rows ⟨s, [], 0, none⟩
  match r.halt with
  | some .later => s
  | some (.freeze a) => freezeOp s oid op a
  | _ => endRows r oid op glob (rows.map List.length).sum

/-- The first poisoned word within `n` bytes at `a` (R242). -/
def firstPoison (marks : List Nat) (a n : Nat) : Option Nat := (sortBy id marks).find? (State.wordIn (a, a + n))

/-- A ferry copy holds its rows until the commit of its issue step (R128). -/
def finishFerry (s : State) (oid : Nat) (op : AsyncOp) : State :=
  let q := shapeOf op.pb
  let poison (r : Nat) : Option Nat := firstPoison op.bad (q.src + r * q.sstride) q.rowBytes
  let good := (List.range q.rows).takeWhile (fun r => (poison r).isNone)
  let rows : List Ferry := good.map (fun r =>
    { id := s.fresh + r, link := q.dst / 2 ^ 48, off := q.dst % 2 ^ 48 + r * q.dstride, step := op.gstep,
      data := rdL op.snap (q.src + r * q.sstride) q.rowBytes, grp := op.gid, seq := op.seq })
  let s1 : State := { s with fresh := s.fresh + q.rows }
  let s2 := match (s.group? op.gid).bind (fun g => g.launch) with
    | some l => s1.modLaunch l (fun x => { x with ferry := x.ferry ++ rows })
    | none => { s1 with sent := s1.sent ++ rows.map (fun f => ⟨f.link, f.off, f.data⟩) }
  let s3 := completeOp s2 oid op.blk []
  if good.length < q.rows then
    let a := BitVec.ofNat 64 ((poison good.length).getD 0)
    s3.notify op.gid (stopNotice op { cause := 0x14, addr := a, info := Info.word { eng := true } } good.length)
  else s3

/-- CPYW (R323): rows are applied directly, outside every step, after those of the group's earlier ones (R430). -/
def finishCpyw (s : State) (oid : Nat) (op : AsyncOp) (glob : Bool) : State :=
  if s.ops.any (fun e => e.2.gid == op.gid && decide (e.2.seq < op.seq) && isCpyw e.2.kind) then s else
  let rows := copyMoves (shapeOf op.pb) (if glob then globAt else .loc) .weight
  let r := runRows op .lo .now true rows ⟨s, [], 0, none⟩
  match r.halt with
  | some .later => s
  | some (.freeze a) => freezeOp s oid op a
  | _ =>
    let s1 : State :=
      { r.s with
        mem := r.ws.foldl (fun m w => wrN m w.key 4 w.val.toNat) r.s.mem
        poison := r.s.poison.filter (fun k => !r.ws.any (fun w => w.key == k)) }
    endRows { r with s := s1, ws := [] } oid op false 0

/-! ## BTST -/

/-- A block-mapped view (R181). -/
structure View where
  table : Word
  rowBytes : Nat
  start : Nat
  count : Nat
  deriving DecidableEq, Repr

def viewOf (v : List Byte) : View := ⟨BitVec.ofNat 64 (fieldN v 0 8), fieldN v 12 4, fieldN v 16 4, fieldN v 20 4⟩

/-- A view keeps the limits of R181; its format is checked for matrix operands only. -/
def viewOk (v : List Byte) (fmt : Option Nat) : Bool :=
  canonical (viewOf v).table && (viewOf v).table.toNat % 16 == 0 && fieldN v 8 2 == 16 && fieldN v 10 2 == 0 &&
    fieldN v 12 4 % 4 == 0 && fieldN v 25 7 == 0 && (match fmt with | some f => fieldN v 24 1 == f | none => true)

/-- Reads `n` words of global memory in turn. -/
def readWords (s : State) (op : AsyncOp) (kind : Kind) : Nat → Word → Except Halt (List Byte) × State
  | 0, _ => (.ok [], s)
  | n + 1, va =>
    match engineRead s op kind false va n with
    | (.error h, s1) => (.error h, s1)
    | (.ok x, s1) =>
      match readWords s1 op kind n (va + 4) with
      | (.error h, s2) => (.error h, s2)
      | (.ok bs, s2) => (.ok (leBytes 4 x ++ bs), s2)

/-- The rows of a BTST before the first that cannot be sent, and what stopped it (R318). -/
def btstRows (op : AsyncOp) (rule : WRule) (q : TShape) (v : View) : List Btst × Option TrapInfo :=
  let bad (cause : Nat) (a : Word) : TrapInfo := { cause := cause, addr := a, info := Info.word { eng := true } }
  let fault (m : Nat) : Option TrapInfo :=
    if v.count ≤ q.row0 + m then some (bad 0x38 (BitVec.ofNat 64 q.view))
    else (firstPoison op.bad (q.src + m * q.sstride) q.rowBytes).map (fun w => bad 0x14 (BitVec.ofNat 64 w))
  let good := (List.range q.rows).takeWhile (fun m => (fault m).isNone)
  let words := q.rowBytes / 4
  (good.map (fun m =>
      let r := v.start + q.row0 + m
      { grp := op.gid, step := op.gstep, entry := v.table + BitVec.ofNat 64 (16 * (r / 16)), row := r % 16, rule := rule,
        wid := op.wid, ord := 1 + m * words, seq := op.seq, data := rdL op.snap (q.src + m * q.sstride) q.rowBytes }),
    if good.length < q.rows then fault good.length else none)

/-- BTST (R318): the view is read, and the rows travel tagged with the issue step. -/
def finishBtst (s : State) (oid : Nat) (op : AsyncOp) (rule : WRule) : State :=
  let q := tshapeOf op.pb
  match readWords s op .now 8 (BitVec.ofNat 64 q.view) with
  | (.error .later, _) => s
  | (.error (.freeze a), _) => freezeOp s oid op a
  | (.error (.stop t), s1) => (completeOp s1 oid op.blk []).notify op.gid (stopNotice op t 0)
  | (.ok bs, s1) =>
    if !viewOk bs none || (viewOf bs).rowBytes != q.rowBytes then
      (completeOp s1 oid op.blk []).notify op.gid
        (stopNotice op { cause := 0x38, addr := BitVec.ofNat 64 q.view, info := Info.word { eng := true } } 0)
    else
      let (rows, t) := btstRows op rule q (viewOf bs)
      let s2 := match (s1.group? op.gid).bind (fun g => g.launch) with
        | some l => s1.modLaunch l (fun x => { x with btst := x.btst ++ rows })
        | none => s1
      let s3 := completeOp s2 oid op.blk []
      match t with
      | some t => s3.notify op.gid (stopNotice op t rows.length)
      | none => s3

/-- A move's engine has its parameter block; the commit of its issue step judges it (R313, R314). -/
def finishMove (s : State) (oid : Nat) (op : AsyncOp) (demote : Bool) : State :=
  let m : Move :=
    { op := oid, grp := op.gid, step := op.gstep, wid := op.wid, seq := op.seq, core := op.core, sys := op.sys,
      dir := BitVec.ofNat 64 (fieldN op.pb 0 8), dest := BitVec.ofNat 64 (fieldN op.pb 8 8), demote := demote,
      phase := .issued, tier := 0, due := none, whole := false, redo := [] }
  let s1 := match (s.group? op.gid).bind (fun g => g.launch) with
    | some l => s.modLaunch l (fun x => { x with moves := x.moves ++ [m] })
    | none => s
  completeOp s1 oid op.blk []

/-! ## CPYM -/

/-- The rows that a CPYM reads once (R130): their bytes are held, with the fault that stopped them. The word writes of
`runRows` go nowhere: only their values are kept. -/
def readMulti (s : State) (oid : Nat) (op : AsyncOp) (dir : Dir) (kind : Kind) : Option State :=
  let q := shapeOf op.pb
  let n := q.rowBytes / 4
  let reads : List (List WordMove) := (List.range q.rows).map (fun row => (List.range n).map (fun w =>
    ⟨dirSrc dir (q.src + row * q.sstride + 4 * w), .loc 0, 1 + row * n + w⟩))
  let r := runRows op .lo kind false reads ⟨s, [], 0, none⟩
  match r.halt with
  | some .later => none
  | some (.freeze a) => some (freezeOp s oid op a)
  | h =>
    let fault : List Word := match h with
      | some (.stop t) => [1, BitVec.ofNat 64 t.cause, t.addr, t.info]
      | _ => [1, 0, 0, 0]
    some { r.s with
      free := r.s.free + q.rows * n + 1
      ops := tmod r.s.ops oid (fun o =>
        { o with prog := r.rows, args := fault, pins := wrL [] 0 (r.ws.flatMap (fun w => leBytes 4 w.val.toNat)) }) }

/-- Every receiver has accepted what was read (R130). -/
def multiDone (op : AsyncOp) (recv : List Nat) : Bool :=
  recv.all (fun r => op.accepted.contains r) || (!op.args.isEmpty && op.prog == 0)

/-- A CPYM whose receivers have accepted completes (R126, R130). -/
def finishMulti (s : State) (oid : Nat) (op : AsyncOp) (recv : List Nat) : State :=
  if !multiDone op recv then s
  else
    let s1 := completeOp s oid op.blk []
    let w (i : Nat) : Word := (op.args[i]?).getD 0
    if w 1 = 0 then s1
    else s1.notify op.gid (stopNotice op { cause := (w 1).toNat, addr := w 2, info := w 3 } op.prog)

/-- What a CPYM sends to each receiver (R130). -/
def arrivalOf (s : State) (op : AsyncOp) (rule : WRule) : Arrival :=
  let q := shapeOf op.pb
  { win := fieldN op.pb 22 1, rule := rule, rowBytes := q.rowBytes, rows := op.prog, dstride := q.dstride, off := q.dst,
    wid := op.wid, data := rdL op.pins 0 (op.prog * q.rowBytes),
    launch := ((s.group? op.gid).bind (fun g => g.launch)).getD 0, grp := op.gid, seq := op.seq, told := false }

/-- An arrival reaches a core: it fills the open window of its identifier, or waits in the landing buffer; none when the
buffer has no room (R132). An open window whose LAND must still follow another operation, or for which an earlier arrival waits, is
filled from the buffer. -/
def arrive (s : State) (k : Nat) (a : Arrival) : Option State :=
  let hit := firstSome (fun (e : Nat × Block) =>
    (e.2.windows.find? (fun w => w.win == a.win && w.filled.isNone)).map (fun w => (e.1, w))) (s.blocksOn k)
  let c := s.core k
  let next := hit.bind (fun e =>
    if ((s.block? e.1).map (fun b => inOrder b e.2.op)).getD false && !c.landing.any (fun b => b.win == a.win) then some e else none)
  match next with
  | some (bid, w) => some (fillWindow s bid w a)
  | none =>
    if Config.landingBytes < (c.landing.map (fun b => b.data.length)).sum + a.data.length then none
    else some (s.modCore k (fun c => { c with landing := c.landing ++ [a] }))

/-- Notes that a receiver has accepted a CPYM's rows (R240). -/
def noteSent (op : AsyncOp) (recv : Nat) (g : Group) : Group :=
  if g.sent.any (fun r => r.seq == op.seq) then
    { g with sent := g.sent.map (fun r => if r.seq = op.seq then { r with recv := r.recv ++ [recv] } else r) }
  else { g with sent := ⟨op.seq, op.iaddr, [recv]⟩ :: g.sent }

/-- LANDING_ARRIVAL (R130, R132, R133): a CPYM's rows reach one receiver. The first arrival reads the source. -/
def execLandingArrival (oid recv : Nat) (s : State) : Out :=
  match tfind s.ops oid with
  | none => .next s
  | some op =>
    match op.kind with
    | .cpym dir rule kind rs =>
      if !mayRun s oid op || !rs.contains recv || op.accepted.contains recv then .next s
      else
        (match (if op.args.isEmpty then readMulti s oid op dir kind else some s) with
        | none => .next s
        | some s1 =>
          match tfind s1.ops oid with
          | none => .next s1
          | some op1 =>
            if (op1.st != .running && op1.st != .denied) || op1.prog == 0 then .next s1
            else
              match arrive s1 (coreKey (coreDie op.core) recv) (arrivalOf s1 op1 rule) with
              | none => .next s1
              | some s2 =>
                .next (({ s2 with ops := tmod s2.ops oid (fun o => { o with accepted := o.accepted ++ [recv] }) } : State).modGroup op.gid
                  (noteSent op recv)))
    | _ => .next s

/-! ## ASYNC_COMPLETE -/

/-- Runs an operation to its end. -/
def runOp (s : State) (oid : Nat) (op : AsyncOp) : State :=
  match op.kind with
  | .cpy dir rule kind =>
    if dirIsFerry dir then finishFerry s oid op
    else finishRows s oid op rule kind (dirDstGlob dir) (copyMoves (shapeOf op.pb) (dirSrc dir) (dirDst dir))
  | .cpym _ _ _ recv => finishMulti s oid op recv
  | .gth side rule kind => finishRows s oid op rule kind false (gatherMoves op side (gshapeOf op.pb))
  | .sct side rule => finishRows s oid op rule .now (side == .g) (scatterMoves op side (gshapeOf op.pb))
  | .cpyw glob => finishCpyw s oid op glob
  | .btst rule => finishBtst s oid op rule
  | .move demote => finishMove s oid op demote
  | .land =>
    (match ((s.block? op.blk).map (fun b => b.windows)).getD [] |>.find? (fun w => w.op == oid) with
    | some w => takeArrival s op.blk w
    | none => s)
  | .ctld _ | .mma _ _ | .mmq _ _ _ | .mzero _ _ | .mlda _ _ | .mdrn _ _ _ _ => s

/-- An operation whose parameter block an earlier operation wrote reads it once that one has retired (R117), with the checks of its
issue: a flaw stops it before its first row. -/
def latch (s : State) (oid : Nat) (op : AsyncOp) (q : LateBlock) : State :=
  match s.group? op.gid with
  | none => s
  | some g =>
    let pb := rdL op.snap q.at_ q.size
    match blockTrap s { g with r := { g.r with detached := q.detached } } op.bad q.at_ q.size pb op.kind with
    | some t => (completeOp s oid op.blk []).notify op.gid (stopNotice op t 0)
    | none =>
      let k := withBlock pb op.kind
      let size := (s.blockOf g).bytes
      let s1 : State := { s with ops := tset s.ops oid { op with pb := pb, kind := k, late := none } }
      s1.modBlock op.blk (fun b =>
        { b with entries := b.entries.map (fun e =>
            if e.op = oid then { e with reads := pbRange q.at_ q.size :: sourceRanges size pb k, write := destRange size pb k } else e) })

/-- An operation of the matrix queue. -/
def ofQueue : OpKind → Bool
  | .ctld _ | .mma _ _ | .mmq _ _ _ | .mzero _ _ | .mlda _ _ | .mdrn _ _ _ _ => true
  | .cpy _ _ _ | .cpym _ _ _ _ | .land | .gth _ _ _ | .sct _ _ | .cpyw _ | .btst _ | .move _ => false

/-- ASYNC_COMPLETE (R114, R126): an engine operation reads its sources, delivers its writes and completes. -/
def execAsyncComplete (oid : Nat) (s : State) : Out :=
  match tfind s.ops oid with
  | none => .next s
  | some op =>
    match op.late with
    | some q => if op.st = .running ∧ op.deps = [] ∧ ofQueue op.kind = false then .next (latch s oid op q) else .next s
    | none => if mayRun s oid op then .next (runOp s oid op) else .next s

/-- FERRY_SEND (R128): a held row leaves for the peer once its step has committed. -/
def execFerrySend (lid id : Nat) (s : State) : Out :=
  match s.launch? lid with
  | none => .next s
  | some l =>
    match l.ferry.find? (fun f => f.id == id) with
    | none => .next s
    | some f =>
      if f.step < l.c then
        .next { s.modLaunch lid (fun x => { x with ferry := x.ferry.filter (fun q => q.id != id) }) with
                sent := s.sent ++ [⟨f.link, f.off, f.data⟩] }
      else .next s

end Sys2Proof.Machine
end

