-- ==== Sys2Proof/Machine/Grant.lean ====
section
/-! DEFINITION. The grant of runs (R46, R47, R49, R51, R52, R56, R57, R109, R112, R363, R370, R385), skipped runs, and the
delivery of pending traps at a boundary (R230, R232). -/

namespace Sys2Proof.Machine

/-! ## The words of a run -/

/-- The issue delay that an instruction carries (R53). -/
def delayOf (i : Instr) : Nat := ((Instr.raw i).map (fun r => r.c.dly.toNat)).getD 0

/-- The OPC values that R43 names: an instruction of theirs carries B. -/
def mustCarryB (r : Raw) : Bool :=
  let n := r.opc.toNat
  (2 ≤ n && n ≤ 0xB) || n == 0xE || n == 0x2C4 || (n == 0x2C1 && (r.fd == 0x2828 || r.fd == 0x2829))

/-- The B, L and G checks of R277, R43 and R369, the only ones of check 3 made in a skipped run (R47). -/
def flagsBad (r : Raw) : Bool :=
  (r.c.l && !r.c.b) || (r.c.g && !r.c.l) || (mustCarryB r && !r.c.b) || (r.opc == 0x00A && !r.c.l)

/-- The words of a run from its head, up to and including the first that carries B, at most `n`. The scan ends early at a
word that cannot be fetched. -/
def scanRun (s : State) (g : Group) (pc : Word) : Nat → List IWord
  | 0 => []
  | n + 1 =>
    match (s.fetchFor g pc).1 with
    | .error _ => []
    | .ok bs =>
      match wordOfBytes bs with
      | none => []
      | some w => if (split w).c.b then [w] else w :: scanRun s g (pc + 12) n

/-- The run guard of a run head (R46): the lanes inside it. -/
def runGuard (g : Group) (c : Ctl) : Mask :=
  if c.rg = 0 then g.r.live
  else
    let p := g.getP (c.rg.extractLsb' 0 4).toNat
    (if c.rg.getLsbD 4 then ~~~p else p) &&& g.r.live

/-- The instructions of a run's words, up to the first that a trap of checks 1 to 3 will stop. -/
def decodeRun (g : Group) : List IWord → List Instr
  | [] => []
  | w :: ws => match decode w with | .ok i => i :: decodeRun g ws | .error _ => []

/-! ## Eligibility -/

/-- The registers that a control transfer at the end of a run would spill or refill are full (R49, R385). -/
def transferFull (s : State) (g : Group) (i : Instr) : Bool :=
  let full (us : List Nat × List Nat) : Bool :=
    !(g.r.ve.any (fun r => us.1.contains (r / 8 * 8))) && !(g.r.se.any (fun r => us.2.contains (r / 8 * 8)))
  match i with
  | .call _ nv ns _ | .callx _ nv ns _ => full (g.spillSets (8 * nv.toNat) (4 * ns.toNat))
  | .ret _ =>
    let mem := (s.blockOf g).mem
    let at_ := (g.r.spill - 16).toNat
    let nv := 8 * (rd8 mem (at_ + 8)).toNat
    let ns := 4 * (rd8 mem (at_ + 9)).toNat
    let bv := (g.r.wbv + g.va * 256 - nv) % g.va
    let bs := (g.r.wbs + g.sa * 256 - ns) % g.sa
    !((refilled g.va bv nv (rd8 mem (at_ + 10)).toNat).any g.r.ve.contains) &&
      !((refilled g.sa bs ns (rd8 mem (at_ + 11)).toNat).any g.r.se.contains)
  | .rett _ =>
    match g.r.frame with
    | none => true
    | some f =>
      let ev := entering g.va g.winV f.wbv 8
      let es := entering g.sa g.winS f.wbs 8
      f.units.all (fun u =>
        if u.vec then !(g.r.ve.any (fun r => r / 8 * 8 == u.first && ev.contains r))
        else !(g.r.se.any (fun r => r / 8 * 8 == u.first && es.contains r)))
  | _ => true

/-- Every register that an instruction reads under blocking policy or writes is full (R49). -/
def usesFull (g : Group) (i : Instr) (c : Ctl) : Bool :=
  (usesOf g.r.x i).all (fun u =>
    !g.inWindow u || !(u.wr || (u.rd && !Ctl.trapping c u.pos)) || !g.isEmpty u)

/-- Entries that a block holds or has reserved (R109, R112). -/
def entriesOf (s : State) (b : Block) : Nat :=
  b.entries.length + ((s.groupsIn b).map (fun e => (e.2.run.map (fun r => r.reserved)).getD 0)).sum

/-- A block may take `n` more entries (R109). -/
def entriesFree (s : State) (bid : Nat) (b : Block) (n : Nat) : Bool :=
  let bs := s.blocksOn b.core
  let held := (bs.map (fun e => entriesOf s e.2)).sum
  let owed := ((bs.filter (fun e => e.1 != bid && e.2.launch.isSome)).map (fun e => 8 - entriesOf s e.2)).sum
  decide (held + n + owed ≤ Config.scoreEntries)

/-- Instructions that a core's matrix queue holds, and those that granted runs are still to enter into it (R363). -/
def State.queued (s : State) (k : Nat) : Nat :=
  (s.core k).queue.length + ((s.groupsOn k).map (fun e => (e.2.run.map (fun r => r.matrix)).getD 0)).sum

/-- What a PASS at the end of a run finds at grant (R370). The lanes that a resumed instruction replays bear on that one instruction
(R211): on the PASS only when it is the run's `lone` instruction. -/
def passAt (g : Group) (lone : Bool) (i : Instr) (c : Ctl) : Option PassInfo :=
  match i with
  | .pass _ a =>
    let n : Word := match a with
      | .imm i => immW i
      | .reg r => g.getS ((snum g.r.x r).getD 0)
    some ⟨({ g with r := { g.r with replay := if lone then g.r.replay else none } } : Group).active c != 0, n⟩
  | _ => none

/-- The boundaries that a PASS counts for in the test of its grant (R370). -/
def passCount : Option PassInfo → Nat
  | some q => if q.active && decide (1 ≤ q.count.toNat) && decide (q.count.toNat ≤ 3) then q.count.toNat else 1
  | none => 1

/-- What a grant finds. -/
structure GrantInfo where
  skip : Bool
  words : List IWord
  reserved : Nat
  /-- Places of the matrix queue that the run's instructions are to take (R363). -/
  matrix : Nat
  rg : Mask
  pass : Option PassInfo

/-- Commits that a core has seen of the group's launch, C + 1 (R57, R74). -/
def seenBy (s : State) (g : Group) (k : Nat) : Nat :=
  ((g.launch.bind s.launch?).map (fun l => tget 0 l.seen k)).getD 0

/-- The limits on running ahead for a run that ends with `l` and `gl` and crosses `n` boundaries (R56, R57, R370). -/
def aheadOk (s : State) (g : Group) (b : Block) (gl : Bool) (n : Nat) : Bool :=
  decide (g.r.lstep + (n - 1) < b.closed + 4) &&
    (!gl || g.launch.isNone || decide (g.r.gstep + n ≤ seenBy s g b.core + 7))

/-- The group's next run as the grant sees it; none when the run is not eligible or the group is held by a limit (R49, R52,
R56, R57, R112, R363). -/
def nextRun (s : State) (g : Group) : Option GrantInfo :=
  let b := s.blockOf g
  let ws := scanRun s g g.r.pc 24
  let head := (ws.head?.map (fun w => (split w).c))
  let rg := match head with
    | some c => if g.r.head then runGuard g c else g.r.live
    | none => g.r.live
  if g.r.head && rg == 0 then
    let gl := (ws.getLast?.map (fun w => (split w).c.g && !g.r.detached)).getD false
    if aheadOk s g b gl 1 then some ⟨true, ws, 0, 0, rg, none⟩ else none
  else
    let is := decodeRun g ws
    let cs := ws.map (fun w => (split w).c)
    let n := (is.filter isAsync).length
    let last := is.getLast?
    let lastC := (cs[is.length - 1]?).getD (splitCtl 0)
    let pass := (last.bind (fun i => passAt g (is.length == 1) i lastC))
    let gl := is.length == ws.length && lastC.g && !g.r.detached
    let ok := (is.zip cs).all (fun e => usesFull g e.1 e.2) && (last.map (transferFull s g)).getD true &&
      aheadOk s g b gl (passCount pass) && (n == 0 || entriesFree s g.blk b n) &&
      (!(is.any readsLocal) || decide (g.r.lstep ≤ b.closed)) &&
      (!(is.any isMatrix) || decide (s.queued b.core + min (is.filter isMatrix).length Config.matrixQueue ≤ Config.matrixQueue))
    if ok then some ⟨false, ws, n, (is.filter isMatrix).length, rg, pass⟩ else none

/-- The launch of a group runs: it is stepping, or the group is a dispatcher (R33, R34, R234). -/
def running (s : State) (g : Group) : Bool :=
  match g.launch with
  | none => true
  | some l => ((s.launch? l).map (fun x => x.phase == .stepping)).getD false

/-- The group is ready (R52): no run, no pending trap that it takes first, no TLBINV, and an eligible next run. -/
def ready (s : State) (g : Group) : Option GrantInfo :=
  if g.retired || g.run.isSome || g.tlbi.isSome || !running s g || (s.blockOf g).moving || !(State.takeable g).isEmpty
  then none
  else nextRun s g

/-- The groups of a context of a core in round-robin order after the one last granted, those with a yield mark last (R52). -/
def rrOrder (s : State) (k ctx : Nat) : List (Nat × Group) :=
  let c := s.core k
  let gs := (s.groupsOn k).filter (fun e => (s.blockOf e.2).ctx == ctx)
  let sorted : List (Nat × Group) := sortBy (fun e => e.1) gs
  let rot := match tfind c.rr ctx with
    | none => sorted
    | some l => sorted.filter (fun (e : Nat × Group) => decide (l < e.1)) ++
        sorted.filter (fun (e : Nat × Group) => decide (e.1 ≤ l))
  rot.filter (fun e => !c.yields.contains e.1) ++ rot.filter (fun e => c.yields.contains e.1)

/-- The context that a slot's calendar names in a cycle (R51). -/
def calendarCtx (s : State) (k slot : Nat) : Option Nat :=
  let e := ((s.partAt k).cals.iss[64 * slot + s.cycle (coreDie k) % 64]?).getD 0xFF
  if e.toNat < 4 then some e.toNat else none

def slotOf (c : Core) (slot : Nat) : Slot := if slot = 0 then c.slot0 else c.slot1

def setSlot (c : Core) (slot : Nat) (x : Slot) : Core := if slot = 0 then { c with slot0 := x } else { c with slot1 := x }

/-- No slot is still occupied by the last run of a group (R51, R53, R436). -/
def rested (s : State) (k gid : Nat) : Bool :=
  let c := s.core k
  [c.slot0, c.slot1].all (fun x => x.last != some gid || decide (x.free ≤ s.cycle (coreDie k)))

/-- The group that a slot grants now, with its run (R51, R52). -/
def granted (s : State) (k slot : Nat) : Option (Nat × Group × GrantInfo) :=
  let x := slotOf (s.core k) slot
  if slot < 2 && x.group.isNone && decide (x.free ≤ s.cycle (coreDie k)) then
    match calendarCtx s k slot with
    | none => none
    | some ctx => firstSome (fun (e : Nat × Group) => if rested s k e.1 then (ready s e.2).map (fun i => (e.1, e.2, i)) else none)
        (rrOrder s k ctx)
  else none

/-- The first flaw of a skipped run (R47): its trap, the index of its instruction. -/
def skipFlaw (g : Group) (ws : List IWord) : Option (TrapInfo × Nat) :=
  firstSome (fun (e : IWord × Nat) =>
    let r := split e.1
    if flagsBad r then some (({ cause := 0x02 } : TrapInfo), e.2)
    else if r.c.g && g.r.detached then some (({ cause := 0x12, info := 1 } : TrapInfo), e.2)
    else none) ws.zipIdx

/-- A skipped run (R47): control goes on after it and only the flags of its last instruction take effect. The lanes that a resumed
instruction was to replay are then past (R211). -/
def skipRun (s : State) (gid : Nat) (g : Group) (k slot : Nat) (ws : List IWord) : State :=
  let at_ (n : Nat) : Word := g.r.pc + BitVec.ofNat 64 (12 * n)
  let ended := (ws.getLast?.map (fun w => (split w).c.b)).getD false
  match skipFlaw g ws with
  | some (t, n) => s.enterTrap gid g t (at_ n) (n == 0)
  | none =>
    if !ended then
      if ws.length = 24 then s.enterTrap gid g { cause := 0x04 } (at_ 24) false
      else
        match (s.fetchFor g (at_ ws.length)).1 with
        | .error t => s.enterTrap gid g t g.r.pc true
        | .ok _ => s
    else
      let c := (ws.getLast?.map (fun w => (split w).c)).getD (splitCtl 0)
      let now := s.cycle (coreDie k)
      let s1 := s.modCore k (fun q => setSlot q slot
        { slotOf q slot with
          free := now + (ws.length + 3) / 4, skip := true, act := 0, rg := 0, live := g.r.live, last := some gid, pc := g.r.pc })
      let s2 := s1.setGroup gid { g with r := { g.r with pc := at_ ws.length, replay := none } }
      s2.endRun gid c .seq

/-- The grant of a run: its slot, its index values, its entries (R49, R51, R53, R112). -/
def startRun (s : State) (gid : Nat) (g : Group) (k slot : Nat) (i : GrantInfo) : State :=
  let run : Run := { Run.fresh g.r.x with slot := slot, reserved := i.reserved, matrix := i.matrix, rg := i.rg, pass := i.pass }
  let now := s.cycle (coreDie k)
  let s1 := s.modCore k (fun q => setSlot q slot
    { slotOf q slot with group := some gid, free := max now (slotOf q slot).free, skip := false })
  s1.setGroup gid { g with run := some run }

/-- RUN_GRANT (R51): the slot grants the named group when it is the one that the calendar and the order give; a run whose
guard is false is skipped (R46, R47). -/
def execRunGrant (group slot : Nat) (s : State) : Out :=
  match s.group? group with
  | none => .next s
  | some g0 =>
    let k := (s.blockOf g0).core
    match granted s k slot with
    | none => .next s
    | some (gid, g, i) =>
      if gid ≠ group then .next s
      else
        let ctx := (s.blockOf g).ctx
        let mine := (rrOrder s k ctx).map (fun e => e.1)
        let s1 := s.modCore k (fun c =>
          { c with rr := tset c.rr ctx gid, yields := c.yields.filter (fun y => !mine.contains y) })
        let s2 := s1.count k (s.guestOf g) (if i.skip then 0x085 else 0x084) 1
        .next (if i.skip then skipRun s2 gid g k slot i.words else startRun s2 gid g k slot i)

/-- DEFERRED_TRAP_TAKE (R230, R232): a deferred trap is taken at a run boundary once the handler's first run can be granted. -/
def execDeferredTrapTake (group : Nat) (s : State) : Out :=
  match s.group? group with
  | none => .next s
  | some g =>
    if (State.takeable g).isEmpty || g.tlbi.isSome || !running s g || (s.blockOf g).moving then .next s
    else
      let s1 := s.takeNotice group g
      match firstNotice? g with
      | some n =>
        if n.kind != .deferred then .next s1
        else
          match s1.group? group with
          | some g1 => if g1.r.sys && (nextRun s1 g1).isNone then .next s else .next s1
          | none => .next s1
      | none => .next s1
where
  firstNotice? (g : Group) : Option Notice := State.firstNotice (BitVec.ofNat 64 g.r.gstep) (State.takeable g)

end Sys2Proof.Machine
end

