-- ==== Sys2Proof/Machine/Matrix.lean ====
section
/-! DEFINITION. The matrix unit (R165 to R195): the format block and the tile handles, the issue of MMA, MMQ, MZERO, MLDA, MDRN and CTLD
(R189 to R194, R325 to R327, R363), and MATRIX_KSTEP, which moves the front of a core's queue by one K-step or row. -/

namespace Sys2Proof.Machine

/-! ## The format block (R175, R176) -/

/-- A format block. Formats are the codes of R175; block lengths are in elements, 0 for an unscaled operand. -/
structure FBlock where
  fa : Nat
  fb : Nat
  la : Nat
  lb : Nat
  sf : Nat
  zsem : Bool
  trap : Bool
  sa : Nat
  sb : Nat
  ta : Nat
  tb : Nat
  deriving DecidableEq, Repr

/-- The block length of a code. -/
def lenOf (c : Nat) : Nat := if c % 4 = 0 then 0 else 8 * 2 ^ (c % 4)

def fblockOf (pb : List Byte) : FBlock :=
  let b0 := fieldN pb 0 1
  let b1 := fieldN pb 1 1
  let b12 := fieldN pb 12 1
  ⟨b0 % 16, b0 / 16, lenOf b1, lenOf (b1 / 4), b1 / 16 % 4, b1 / 64 % 2 == 1, b1 / 128 == 1, fieldN pb 4 4, fieldN pb 8 4,
    b12 % 4, b12 / 4 % 4⟩

/-- The element format of a code (R175). -/
def fmtOfCode : Nat → Fmt
  | 0 => .e4m3
  | 1 => .e5m2
  | 2 => .e3m2
  | 3 => .e2m3
  | 4 => .e2m1
  | 5 => .bf16
  | 6 => .fp16
  | 7 => .int8
  | 8 => .int4
  | _ => .c8

/-- The width of a code's elements. -/
def codeBits (c : Nat) : Nat := fmtBits (fmtOfCode c)

/-- Both formats are float formats: the products need a float tile (R166, R167). -/
def FBlock.float (f : FBlock) : Bool := decide (f.fa ≤ 6) && decide (f.fb ≤ 6)

/-- A pair of formats that may be multiplied (R176). -/
def FBlock.pairOk (f : FBlock) : Bool :=
  f.float || (decide (7 ≤ f.fa) && decide (f.fa ≤ 9) && decide (7 ≤ f.fb) && decide (f.fb ≤ 9))

/-- The base chunk of K (R165). -/
def FBlock.chunk (f : FBlock) : Nat :=
  let w := max (codeBits f.fa) (codeBits f.fb)
  if w = 16 then 16 else if w = 4 then 64 else 32

/-- K is a multiple of a block length in use. -/
def lenDivides (l k : Nat) : Bool := l == 0 || k % l == 0

/-- The lowest offset of a condition that makes a format block invalid (R176). -/
def fblockBad (pb : List Byte) (k : Nat) : Option Nat :=
  let f := fblockOf pb
  let zero (o : Nat) : Nat × Bool := (o, fieldN pb o 1 == 0)
  firstField [(0, f.pairOk),
    (1, (f.la == 0 || decide (f.fa ≤ 4)) && (f.lb == 0 || decide (f.fb ≤ 4)) && decide (f.sf < 2) && lenDivides f.la k &&
      lenDivides f.lb k),
    zero 2, zero 3, (4, f.sa == 0 || f.la != 0), (8, f.sb == 0 || f.lb != 0), (12, fieldN pb 12 1 / 16 == 0),
    zero 13, zero 14, zero 15]

/-! ## Tile handles (R178) -/

def handleKind (h : Word) : Nat := h.toNat / 2 ^ 60

/-- The address of a handle: bits [31:0], or for kinds 1 and 3 the sign-extended bits [54:0]. -/
def handleAddr (h : Word) : Word :=
  if handleKind h % 2 = 0 then (h.extractLsb' 0 32).zeroExtend 64 else (h.extractLsb' 0 55).signExtend 64

/-- A handle is well formed. -/
def handleOk (h : Word) : Bool :=
  let zero := h.extractLsb' 32 28 == 0#28
  let sign := h.extractLsb' 55 5 == (if h.getLsbD 54 then 0x1F#5 else 0#5)
  let a := (handleAddr h).toNat
  match handleKind h with
  | 0 => zero && a % 4 == 0
  | 1 | 3 => sign && a % 32 == 0
  | 2 => zero && a % 32 == 0
  | _ => false

/-- The bytes of `rows` rows of K elements (R179). -/
def tileBytes (code k rows : Nat) : Nat := rows * (k * codeBits code / 8)

/-- The part of a tile that one pair of handles multiplies: `row0` is its first accumulator row (R189, R190). -/
structure Part4 where
  row0 : Nat
  rows : Nat
  ha : Word
  hb : Word
  /-- What %xinfo holds for a bad A handle; one more for B. -/
  info : Nat
  deriving DecidableEq, Repr

/-- The check of one handle (R178); the extent of a local tile is judged when its format code is valid. DEDUCED (entry 110): the tile
of an MMQ quarter spans the `rows` = 8 rows that R190 has it read. -/
def handleTrap (bytes : Nat) (h : Word) (code k rows info : Nat) : Option TrapInfo :=
  if !handleOk h then some { cause := 0x32, info := BitVec.ofNat 64 info }
  else if handleKind h = 0 ∧ bytes < (handleAddr h).toNat + (if code ≤ 9 then tileBytes code k rows else 0) then
    some { cause := 0x38, info := BitVec.ofNat 64 info }
  else none

/-- The trap of the lowest bad handle (R178). -/
def handlesTrap (bytes : Nat) (f : FBlock) (k : Nat) (ps : List Part4) : Option TrapInfo :=
  firstSome (fun p =>
    match handleTrap bytes p.ha f.fa k p.rows p.info with
    | some t => some t
    | none => handleTrap bytes p.hb f.fb k 32 (p.info + 1)) ps

/-- The local range of a tile with a local handle, of the rows that are read. -/
def tileRange (h : Word) (code k rows : Nat) : List (Nat × Nat) :=
  if handleKind h = 0 then [((handleAddr h).toNat, (handleAddr h).toNat + tileBytes code k rows)] else []

/-- The range of a local scale table (R177). -/
def scaleRange (a len k : Nat) : List (Nat × Nat) := if a = 0 ∨ len = 0 then [] else [(a, a + 32 * (k / len))]

/-! ## Tiles (R166, R167) -/

/-- The group's planes that a tile name means. -/
def tilePlanes (flt : Bool) (n : Nat) : List Nat := if flt then [2 * n, 2 * n + 1] else [n]

/-- The name of a tile stands within the group's planes (R166). -/
def tileOk (g : Group) (flt : Bool) (n : Nat) : Bool := (tilePlanes flt n).all (fun p => decide (p < g.planes.length))

/-- Sets or clears a bit for each of a list of planes. -/
def planeBits (x : BitVec 16) (ps : List Nat) (on : Bool) : BitVec 16 :=
  ps.foldl (fun x p => if on then x ||| (1#16 <<< p) else x &&& ~~~(1#16 <<< p)) x

/-- The planes are in the mode that an instruction needs (R167). -/
def modeOk (g : Group) (flt : Bool) (n : Nat) : Bool := (tilePlanes flt n).all (fun p => g.r.modeQ.getLsbD p == flt)

/-- The physical plane of a group's plane. -/
def planeOf (g : Group) (p : Nat) : Nat := (g.planes[p]?).getD 0

def badTile : TrapInfo := { cause := 0x31, info := 1 }
def badMode : TrapInfo := { cause := 0x31, info := 2 }

/-! ## Issue -/

/-- Puts a matrix instruction into its core's queue (R183, R363). The queue is full only for a run of more than 16 matrix
instructions, which then waits for a place (entry 111). -/
def Ctx.enqueue (x : Ctx) (kind : OpKind) (pb : List Byte) (args : List Word) (reads : List (Nat × Nat))
    (write : Option (Nat × Nat)) (entry : Bool) (g : Group) (late : Option (Nat × Nat) := none) : Res :=
  if Config.matrixQueue ≤ (x.s.core (x.s.blockOf x.g).core).queue.length then .wait
  else
    let (id, s1) := x.startOp kind pb args reads write entry late
    let s2 := s1.modCore (x.s.blockOf x.g).core (fun c => { c with queue := c.queue ++ [id] })
    .ok (s2.setGroup x.gid g) .seq 0

/-- The checks of R189 in their order, on the format block once it is read; without it, those that do not need it. The tile name is
judged as a float tile's only when the block was read and names two float formats: DESIGN CHOICE (entry 112) where check 4 fails. -/
def multiplyTrap (b : Block) (bad : List Nat) (g : Group) (tile fb k : Nat) (ps : List Part4) (pb : Option (List Byte)) :
    Option TrapInfo :=
  let f := fblockOf (pb.getD [0xFF])
  if !tileOk g f.float tile then some badTile
  else
    match handlesTrap b.bytes f k ps with
    | some t => some t
    | none =>
      if g.r.detached && ps.any (fun p => handleKind p.ha % 2 == 1 || handleKind p.hb % 2 == 1) then
        some { cause := 0x12, info := 1 }
      else
        match pb with
        | none => none
        | some pb =>
          if bad.any (State.wordIn (fb, fb + 16)) then some { cause := 0x14, addr := BitVec.ofNat 64 fb }
          else
            match fblockBad pb k with
            | some off => some { cause := 0x32, info := BitVec.ofNat 64 off }
            | none =>
              if !(scaleRange f.sa f.la k ++ scaleRange f.sb f.lb k).all (inStore b) then some { cause := 0x38 }
              else if !modeOk g f.float tile then some badMode
              else if k = 0 ∨ 8192 < k ∨ k % f.chunk ≠ 0 then some { cause := 0x32, info := 0x100 }
              else none

/-- The local ranges of an MMA or MMQ (R110, R111): the format block, the tiles of A and of B, each as one interval, and the scale
tables. -/
def multiplyRanges (f : FBlock) (fb k : Nat) (ps : List Part4) : List (Nat × Nat) :=
  (fb, fb + 16) :: ((bounding (ps.flatMap (fun p => tileRange p.ha f.fa k p.rows))).toList ++
    (bounding (ps.flatMap (fun p => tileRange p.hb f.fb k 32))).toList ++ scaleRange f.sa f.la k ++ scaleRange f.sb f.lb k)

/-- The issue of MMA and MMQ (R189). While an earlier operation that writes the format block is held, the block is read later, as R184
and R117 say, and no run waits for it (R112): its checks come with the reading (entry 55). -/
def Ctx.multiply (x : Ctx) (kind : OpKind) (tile fb k : Nat) (ps : List Part4) : Res :=
  let b := x.s.blockOf x.g
  let there := fb % 16 == 0 && decide (fb + 16 ≤ b.bytes)
  let args := BitVec.ofNat 64 k :: ps.flatMap (fun p => [p.ha, p.hb])
  let late := !(writesOver b (some (fb, fb + 16))).isEmpty
  let pb := rdL b.mem fb 16
  match multiplyTrap b b.poison x.g tile fb k ps (if there && !late then some pb else none) with
  | some t => x.fail t
  | none =>
    if !there then x.fail { cause := 0x38 }
    else if late then x.enqueue kind [] args [(fb, fb + 16), (0, b.bytes)] none true x.g (some (fb, 16))
    else
      x.enqueue kind pb args (multiplyRanges (fblockOf pb) fb k ps) none true
        { x.g with r := { x.g.r with ovfMode := (fblockOf pb).trap } }

/-- MMA (R189). -/
def execMma (c : Ctl) (kind : Kind) (d : BitVec 4) (a : SReg) (b : SSrc) (s : State) : Out :=
  issue (.mma c kind d a b) c false
    (fun x => x.multiply (.mma kind d.toNat) d.toNat (x.sreg a 2).toNat (x.ssrc b).toNat
      [⟨0, 32, x.sreg a 0, x.sreg a 1, 0x200⟩]) s

/-- The quarters of an MMQ that are active (R190). -/
def quarters (act : Mask) : List Nat := (List.range 4).filter (fun q => bitOf act (8 * q))

/-- MMQ (R190, R191). -/
def execMmq (c : Ctl) (kind : Kind) (d : BitVec 4) (a : VReg) (b : SReg) (s : State) : Out :=
  issue (.mmq c kind d a b) c false
    (fun x =>
      let n := (vnum x.run.xs a).getD 0
      let qs := quarters x.act
      x.multiply (.mmq kind d.toNat qs) d.toNat (x.sreg b 0).toNat (x.sreg b 1).toNat
        (qs.map (fun q => ⟨8 * q, 8, x.g.getV64 n (8 * q), x.g.getV64 (n + 2) (8 * q), 0x200 + 2 * q⟩))) s

/-- MZERO (R192): the mode is set at issue for later checks, and the tile is cleared in queue order. -/
def execMzero (c : Ctl) (flt : Bool) (d : BitVec 4) (s : State) : Out :=
  issue (.mzero c flt d) c false
    (fun x =>
      if !tileOk x.g flt d.toNat then x.fail badTile
      else
        x.enqueue (.mzero flt d.toNat) [] [] [] none false
          { x.g with r := { x.g.r with modeQ := planeBits x.g.r.modeQ (tilePlanes flt d.toNat) flt } }) s

/-- The address check of MLDA and MDRN (R193, R194). -/
def Ctx.tileAddr (x : Ctx) (a : Nat) : Bool := a % 16 == 0 && inStore (x.s.blockOf x.g) (a, a + 4096)

/-- MLDA (R193). -/
def execMlda (c : Ctl) (flt : Bool) (d : BitVec 4) (a : SReg) (s : State) : Out :=
  issue (.mlda c flt d a) c false
    (fun x =>
      let at_ := (x.sreg a).toNat
      if !tileOk x.g flt d.toNat then x.fail badTile
      else if !x.tileAddr at_ then x.fail { cause := 0x38 }
      else
        x.enqueue (.mlda flt d.toNat) [] [x.sreg a] [(at_, at_ + 4096)] none true
          { x.g with r := { x.g.r with modeQ := planeBits x.g.r.modeQ (tilePlanes flt d.toNat) flt } }) s

/-- MDRN (R194). -/
def execMdrn (c : Ctl) (clr flt : Bool) (rnd : Rnd) (d : BitVec 4) (a : SReg) (s : State) : Out :=
  issue (.mdrn c clr flt rnd d a) c false
    (fun x =>
      let at_ := (x.sreg a).toNat
      if !tileOk x.g flt d.toNat then x.fail badTile
      else if !modeOk x.g flt d.toNat then x.fail badMode
      else if !x.tileAddr at_ then x.fail { cause := 0x38 }
      else x.enqueue (.mdrn clr flt rnd d.toNat) [] [x.sreg a] [] (some (at_, at_ + 4096)) true x.g) s

/-- CTLD (R325 to R327). -/
def execCtld (c : Ctl) (d : SSrc) (a : SReg) (s : State) : Out :=
  issue (.ctld c d a) c false
    (fun x =>
      let t := (x.ssrc d).toNat
      let at_ := (x.sreg a).toNat
      if 3 < t then x.fail { cause := 0x38 }
      else if at_ % 32 != 0 || !inStore (x.s.blockOf x.g) (at_, at_ + 32) then x.fail { cause := 0x38 }
      else x.enqueue (.ctld t) [] [x.sreg a] [(at_, at_ + 32)] none true x.g) s

/-! ## Fetching operands (R180 to R182, R184 to R186) -/

/-- Why a matrix instruction does not make its next K-step. -/
inductive MHalt where
  | later
  | stop (cause : Nat) (addr : Word) (sub : Nat)
  deriving DecidableEq, Repr

/-- Work on an operation and the state: what was asked for, or what stops it. -/
abbrev Fetch (α : Type) := State → AsyncOp → Except MHalt α × State × AsyncOp

/-- Fetches for each of a list in turn, up to the first that fails. -/
def fetchEach {α β : Type} (f : α → Fetch β) : List α → Fetch (List β)
  | [], s, op => (.ok [], s, op)
  | x :: xs, s, op =>
    match f x s op with
    | (.error h, s1, op1) => (.error h, s1, op1)
    | (.ok y, s1, op1) =>
      match fetchEach f xs s1 op1 with
      | (.error h, s2, op2) => (.error h, s2, op2)
      | (.ok ys, s2, op2) => (.ok (y :: ys), s2, op2)

/-- The key of a place under which its byte is pinned. -/
def pinKey : Loc → Nat
  | .glob va => va.toNat
  | .weight off => 2 ^ 64 + off
  | .loc a => a

/-- Pins a line of 64 bytes (R185). -/
def pinLine (op : AsyncOp) (k : Nat) (bs : List Byte) : AsyncOp :=
  { op with lines := addTo (k / 64) op.lines, pins := wrL op.pins (k / 64 * 64) bs }

/-- Forgets a line, which is fetched again after the instruction continues (R186). -/
def unpinLine (op : AsyncOp) (k : Nat) : AsyncOp := { op with lines := op.lines.filter (· != k / 64) }

/-- The 64 bytes of a line, each word read on its own: under .lag with a step of its own, but for an aligned doubleword that is read as
one, which takes one step for both halves (R81; entry 13). -/
def readLine (s : State) (op : AsyncOp) (kind : Kind) (pairs : Bool) (line : Nat) : Option (List Byte) :=
  let words := (List.range 16).map (fun i =>
    readGlobal s (opLid s op) kind op.gstep (lagChoice (opLaunch s op) op (s.free + if pairs then i / 2 else i)) (line + 4 * i) 4)
  if words.all Option.isSome then some (words.flatMap (fun w => leBytes 4 (w.getD 0))) else none

/-- Fetches the line of a global byte (R184, R186, R242). -/
def fetchLine (kind : Kind) (pairs : Bool) (va : Word) : Fetch Unit := fun s op =>
  match s.check op.core (opTag s op) va { size := 1, sys := op.sys } with
  | (.bad c _, s1) =>
    (.error (if c = 0x11 then .stop 0x11 va 0 else .stop 0x15 va (if c = 0x13 then 1 else 2)), s1, op)
  | (.missing _, s1) => (.error (.stop 0x15 va 0), s1, op)
  | (.good key t, s1) =>
    let line := key / 64 * 64
    match firstPoison s1.poison line 64 with
    | some w => (.error (.stop 0x14 (va - BitVec.ofNat 64 key + BitVec.ofNat 64 w) 0), s1, op)
    | none =>
      match readLine s1 op (kindOn kind t.e.s) pairs line with
      | none => (.error .later, s1, op)
      | some bs => (.ok (), ({ s1 with free := s1.free + 16 } : State).rebuilds [line], pinLine op va.toNat bs)

/-- Makes sure that the byte of a place has been read (R184, R217, R323). -/
def fetchByte (kind : Kind) (pairs : Bool) (a : Loc) : Fetch Unit := fun s op =>
  match a with
  | .loc a =>
    match firstPoison op.bad a 1 with
    | some w => (.error (.stop 0x14 (BitVec.ofNat 64 w) 0), s, op)
    | none => (.ok (), s, op)
  | .glob va => if op.lines.contains (va.toNat / 64) then (.ok (), s, op) else fetchLine kind pairs va s op
  | .weight off =>
    let p := coreDie op.core
    if Config.weightBytes ≤ off then (.error (.stop 0x12 (BitVec.ofNat 64 off) 0), s, op)
    else if op.lines.contains ((2 ^ 64 + off) / 64) then (.ok (), s, op)
    else if refreshing s p off || cpywAhead s op.blk op.seq then (.error .later, s, op)
    else
      let line := keyWeight p (off / 64 * 64)
      match firstPoison s.poison line 64 with
      | some w => (.error (.stop 0x14 (BitVec.ofNat 64 (w % 2 ^ 29)) 0), s, op)
      | none => (.ok (), s, pinLine op (2 ^ 64 + off) (rdL s.mem line 64))

/-- The byte of a place that has been fetched. -/
def heldByte (op : AsyncOp) (a : Loc) : Byte :=
  match a with
  | .loc a => rd8 op.snap a
  | a => rd8 op.pins (pinKey a)

/-- A place some bytes further on. -/
def Loc.plus (a : Loc) (n : Nat) : Loc :=
  match a with
  | .loc a => .loc (a + n)
  | .glob va => .glob (va + BitVec.ofNat 64 n)
  | .weight off => .weight (off + n)

/-- Reads `n` bytes from a place. -/
def fetchBytes (kind : Kind) (pairs : Bool) (a : Loc) (n : Nat) : Fetch (List Byte) := fun s op =>
  match fetchEach (fun i => fetchByte kind pairs (a.plus i)) (List.range n) s op with
  | (.error h, s1, op1) => (.error h, s1, op1)
  | (.ok _, s1, op1) => (.ok ((List.range n).map (fun i => heldByte op1 (a.plus i))), s1, op1)

/-- A tile descriptor keeps the limits of R180. -/
def descOk (glob : Bool) (code : Nat) (d : List Byte) : Bool :=
  (!glob || canonical (BitVec.ofNat 64 (fieldN d 0 8))) && fieldN d 8 8 % 4 == 0 && decide (1 ≤ fieldN d 16 4) &&
    decide (fieldN d 16 4 ≤ 65535) && fieldN d 20 4 * codeBits code % 8 == 0 &&
    (code != 2 && code != 3 || fieldN d 20 4 % 4 == 0) && fieldN d 24 8 == 0

/-- Fetches a descriptor or view and checks it; a bad one is fetched again after the instruction continues (R182). -/
def fetchDesc (kind : Kind) (a : Loc) (addr : Word) (ok : List Byte → Bool) : Fetch (List Byte) := fun s op =>
  match fetchBytes kind true a 32 s op with
  | (.error h, s1, op1) => (.error h, s1, op1)
  | (.ok d, s1, op1) =>
    if ok d then (.ok d, s1, op1) else (.error (.stop 0x38 addr 0), s1, unpinLine op1 (pinKey a))

/-- Where a row of a view lies: none when its table entry is not valid (R181, R219 to R221). -/
def fetchViewRow (kind : Kind) (v : View) (i : Nat) : Fetch (Option Loc) := fun s op =>
  let r := v.start + i
  match fetchBytes kind true (.glob (v.table + BitVec.ofNat 64 (16 * (r / 16)))) 9 s op with
  | (.error h, s1, op1) => (.error h, s1, op1)
  | (.ok e, s1, op1) =>
    if fieldN e 8 1 % 2 = 0 then (.ok none, s1, op1)
    else
      match fetchBytes kind true (.glob (BitVec.ofNat 64 (fieldN e 0 8))) 8 s1 op1 with
      | (.error h, s2, op2) => (.error h, s2, op2)
      | (.ok d, s2, op2) => (.ok (some (.glob (BitVec.ofNat 64 (fieldN d 0 8 + r % 16 * v.rowBytes)))), s2, op2)

/-- Where tile row `i` of an operand lies; none when element `k` of it reads as zero with no access (R179 to R181). -/
def fetchRow (kind : Kind) (h : Word) (code n i k : Nat) : Fetch (Option Loc) := fun s op =>
  let a := handleAddr h
  if handleKind h = 0 then (.ok (some (.loc (a.toNat + i * (n * codeBits code / 8)))), s, op)
  else if handleKind h = 3 then
    match fetchDesc kind (.glob a) a (fun d => viewOk d (some code)) s op with
    | (.error x, s1, op1) => (.error x, s1, op1)
    | (.ok d, s1, op1) => if (viewOf d).count ≤ i then (.ok none, s1, op1) else fetchViewRow kind (viewOf d) i s1 op1
  else
    let glob := handleKind h == 1
    match fetchDesc kind (if glob then .glob a else .weight a.toNat) a (descOk glob code) s op with
    | (.error x, s1, op1) => (.error x, s1, op1)
    | (.ok d, s1, op1) =>
      if fieldN d 16 4 ≤ i ∨ fieldN d 20 4 ≤ k then (.ok none, s1, op1)
      else
        let at_ := fieldN d 0 8 + i * fieldN d 8 8
        (.ok (some (if glob then .glob (BitVec.ofNat 64 at_) else .weight at_)), s1, op1)

/-- The code of element (i, k) of an operand (R137, R179 to R181). -/
def fetchElem (kind : Kind) (h : Word) (code n k i : Nat) : Fetch Nat := fun s op =>
  let w := codeBits code
  match fetchRow kind h code n i k s op with
  | (.error x, s1, op1) => (.error x, s1, op1)
  | (.ok none, s1, op1) => (.ok 0, s1, op1)
  | (.ok (some row), s1, op1) =>
    match fetchBytes kind false (row.plus (k * w / 8)) ((k * w % 8 + w + 7) / 8) s1 op1 with
    | (.error x, s2, op2) => (.error x, s2, op2)
    | (.ok bs, s2, op2) => (.ok (leNat bs / 2 ^ (k * w % 8) % 2 ^ w), s2, op2)

/-- The scale of a row (R177); 1 for an operand without a scale table. -/
def fetchScale (f : FBlock) (a len n k row : Nat) : Fetch FVal := fun s op =>
  if a = 0 ∨ len = 0 then (.ok (.fin false 1 0), s, op)
  else
    match fetchBytes .now false (.loc (a + row * (n / len) + k / len)) 1 s op with
    | (.error x, s1, op1) => (.error x, s1, op1)
    | (.ok bs, s1, op1) => (.ok (scaleVal (if f.sf = 0 then .e8m0 else .ue4m3) (bs.headD 0)), s1, op1)

/-- What one K-step of a part multiplies. -/
structure Slice where
  a : List Nat
  b : List Nat
  sa : List FVal
  sb : List FVal

/-- The operand that a fetch stopped at is noted with the halt (R187). -/
abbrev Faulty := MHalt × Nat

def noteOpnd {α : Type} (n : Nat) (r : Except MHalt α × State × AsyncOp) : Except Faulty α × State × AsyncOp :=
  match r with
  | (.error h, s, op) => (.error (h, n), s, op)
  | (.ok x, s, op) => (.ok x, s, op)

/-- Fetches what a K-step of a part needs: A, B, then their scales. -/
def fetchSlice (kind : Kind) (f : FBlock) (n k : Nat) (p : Part4) (s : State) (op : AsyncOp) :
    Except Faulty Slice × State × AsyncOp :=
  let is := List.range p.rows
  match noteOpnd 0 (fetchEach (fetchElem kind p.ha f.fa n k) is s op) with
  | (.error h, s1, op1) => (.error h, s1, op1)
  | (.ok a, s1, op1) =>
    match noteOpnd 1 (fetchEach (fetchElem kind p.hb f.fb n k) (List.range 32) s1 op1) with
    | (.error h, s2, op2) => (.error h, s2, op2)
    | (.ok b, s2, op2) =>
      match noteOpnd 2 (fetchEach (fun i => fetchScale f f.sa f.la n k (p.row0 + i)) is s2 op2) with
      | (.error h, s3, op3) => (.error h, s3, op3)
      | (.ok sa, s3, op3) =>
        match noteOpnd 3 (fetchEach (fetchScale f f.sb f.lb n k) (List.range 32) s3 op3) with
        | (.error h, s4, op4) => (.error h, s4, op4)
        | (.ok sb, s4, op4) => (.ok ⟨a, b, sa, sb⟩, s4, op4)

/-- Fetches what a K-step of every part needs. -/
def fetchSlices (kind : Kind) (f : FBlock) (n k : Nat) :
    List Part4 → State → AsyncOp → Except Faulty (List (Part4 × Slice)) × State × AsyncOp
  | [], s, op => (.ok [], s, op)
  | p :: ps, s, op =>
    match fetchSlice kind f n k p s op with
    | (.error h, s1, op1) => (.error h, s1, op1)
    | (.ok x, s1, op1) =>
      match fetchSlices kind f n k ps s1 op1 with
      | (.error h, s2, op2) => (.error h, s2, op2)
      | (.ok xs, s2, op2) => (.ok ((p, x) :: xs), s2, op2)

/-! ## Products (R149, R156, R161) -/

/-- The zero semantics in force are IEEE 754's (R161). -/
def FBlock.ieee (f : FBlock) : Bool := (decide (5 ≤ f.fa) && decide (5 ≤ f.fb)) != f.zsem

/-- A product under the zero semantics (R161). -/
def mulZ (ieee : Bool) (a b : FVal) : FVal := if !ieee && (a.isZero || b.isZero) then .fin false 0 0 else a.mul b

/-- A scaled product: a NaN scale gives NaN under either semantics (R149). -/
def floatTerm (f : FBlock) (a b : Nat) (sa sb : FVal) : FVal :=
  if sa = .nan ∨ sb = .nan then .nan
  else
    mulZ f.ieee (sa.mul sb) (mulZ f.ieee ((Fmt.float (fmtOfCode f.fa)).val a) ((Fmt.float (fmtOfCode f.fb)).val b))

/-- The integer product of two elements (R156). -/
def intTerm (ct : Table (BitVec 3 × BitVec 9)) (f : FBlock) (a b : Nat) : Int :=
  intElem ct f.ta (fmtOfCode f.fa) a * intElem ct f.tb (fmtOfCode f.fb) b

/-! ## Integer tiles (R169 to R172) -/

/-- The key of a cell. -/
def cellKey (plane row col : Nat) : Nat := 1024 * plane + 32 * row + col

def getCell (c : Core) (plane row col : Nat) : BitVec 20 := tget 0 c.cells (cellKey plane row col)

def setCell (c : Core) (plane row col : Nat) (x : BitVec 20) : Core :=
  { c with cells := tput 0 c.cells (cellKey plane row col) x }

/-- An entry of a cell. -/
def OvfEntry.isAt (e : OvfEntry) (plane row col : Nat) : Bool := e.plane == plane && e.row == row && e.col == col

/-- The high count of a cell (R169). -/
def highOf (c : Core) (plane row col : Nat) : Option Int := (c.ovf.find? (fun e => e.isAt plane row col)).map (fun e => e.h)

/-- Gives a cell its high count: a count of 0 frees the entry (R170). -/
def setHigh (c : Core) (plane row col : Nat) (h : Int) : Core :=
  let rest := c.ovf.filter (fun e => !e.isAt plane row col)
  { c with ovf := if h = 0 then rest else rest ++ [⟨plane, row, col, h⟩] }

/-- The sum of a cell and a product: the cell after it and the carry or borrow (R169). -/
def carry (x : BitVec 20) (p : Int) : BitVec 20 × Int :=
  let t := x.toInt + p
  if 2 ^ 19 - 1 < t then (BitVec.ofInt 20 (t - 2 ^ 20), 1)
  else if t < -2 ^ 19 then (BitVec.ofInt 20 (t + 2 ^ 20), -1)
  else (BitVec.ofInt 20 t, 0)

/-- One cell's product. -/
structure Term where
  row : Nat
  col : Nat
  p : Int
  deriving DecidableEq, Repr

/-- The cells of a K-step that need a new entry (R171). -/
def newEntries (c : Core) (plane : Nat) (ts : List Term) : Nat :=
  (ts.filter (fun t =>
    (carry (getCell c plane t.row t.col) t.p).2 != 0 && (highOf c plane t.row t.col).isNone)).length

def freeEntries (c : Core) : Nat := Config.overflowEntries - c.ovf.length

/-- Applies one product; true when a high count saturated (R169, R172). -/
def addTerm (plane : Nat) (r : Core × Bool) (t : Term) : Core × Bool :=
  let (x, d) := carry (getCell r.1 plane t.row t.col) t.p
  let c := setCell r.1 plane t.row t.col x
  if d = 0 then (c, r.2)
  else
    let h := (highOf c plane t.row t.col).getD 0 + d
    (setHigh c plane t.row t.col (max (-2048) (min 2047 h)), r.2 || decide (h < -2048) || decide (2047 < h))

/-- The products of a K-step on an integer tile. -/
def intTerms (ct : Table (BitVec 3 × BitVec 9)) (f : FBlock) (xs : List (Part4 × Slice)) : List Term :=
  xs.flatMap (fun e => e.2.a.zipIdx.flatMap (fun u => e.2.b.zipIdx.map (fun v =>
    ⟨e.1.row0 + u.2, v.2, intTerm ct f u.1 v.1⟩)))

/-! ## Float tiles (R158 to R164) -/

/-- The FP32X code that two slices hold (R158). -/
def getCode (c : Core) (hi lo row col : Nat) : Nat :=
  (getCell c hi row col).toNat % 2 ^ 14 * 2 ^ 20 + (getCell c lo row col).toNat

def setCode (c : Core) (hi lo row col code : Nat) : Core :=
  setCell (setCell c hi row col (BitVec.ofNat 20 (code / 2 ^ 20))) lo row col (BitVec.ofNat 20 code)

/-- A scaled product of a cell. -/
structure FTerm where
  row : Nat
  col : Nat
  v : FVal

def floatTerms (f : FBlock) (xs : List (Part4 × Slice)) : List FTerm :=
  xs.flatMap (fun e => (e.2.a.zip e.2.sa).zipIdx.flatMap (fun u => (e.2.b.zip e.2.sb).zipIdx.map (fun v =>
    ⟨e.1.row0 + u.2, v.2, floatTerm f u.1.1 v.1.1 u.1.2 v.1.2⟩)))

/-- The sum of a cell as it stands: the one in progress, or a new one when something else wrote the cell since. -/
def sumAt (sums : Table FSum) (k code : Nat) : FSum :=
  match tfind sums k with
  | some x => if x.last = code then x else FSum.start code (fp32xVal code)
  | none => FSum.start code (fp32xVal code)

/-- A code below the normal range stands for zero (R158, R159). -/
def normalX (exact : Dy) (code : Nat) : Nat := if code % 2 ^ 33 < 2 ^ 23 then (if exact.m < 0 then 2 ^ 33 else 0) else code

/-- Adds one term to its cell: any value that R162 to R164 allow for the terms so far, `n` being K. -/
def addFloat (hi lo n free : Nat) (r : Core × Table FSum) (t : FTerm) : Core × Table FSum :=
  let k := 32 * t.row + t.col
  let x := (sumAt r.2 k (getCode r.1 hi lo t.row t.col)).add t.v
  let code := if x.zeros then fp32x.sumOf 24 n x (free + k) else normalX x.exact (fp32x.sumOf 24 n x (free + k))
  (setCode r.1 hi lo t.row t.col code, tset r.2 k { x with last := code })

/-! ## Stopping and completing (R186 to R188, R364) -/

/-- %xinfo of a stop (R187). A weight-store offset beyond the store has the BND of R210 instead (R217; entry 113). -/
def stopInfo (op : AsyncOp) (tile cause opnd sub : Nat) : Word :=
  if cause = 0x12 then Info.word { bnd := true }
  else BitVec.ofNat 64 (opnd * 2 ^ 62 + sub * 2 ^ 59 + tile * 2 ^ 55 + op.iaddr.toNat % 2 ^ 55)

/-- Stops an instruction at a K-step or row boundary: a deferred trap, or its end when its group has retired. -/
def stopMatrix (s : State) (oid : Nat) (op : AsyncOp) (tile cause : Nat) (addr : Word) (opnd sub : Nat) : State :=
  let s1 : State := { s with ops := tset s.ops oid { op with st := .stopped } }
  if ((s1.group? op.gid).map (fun g => g.retired)).getD true then
    ((s1.abandon op.gid op.blk).freePlanes op.gid).tryFree op.blk
  else
    s1.notify op.gid { kind := .deferred, cause := cause, step := none, addr := addr, prog := BitVec.ofNat 64 op.prog,
                       info := stopInfo op tile cause opnd sub, mop := some oid }

/-- An instruction leaves the queue (R114, R183); with the last one of a retired group its planes are free (R364). -/
def leaveQueue (s : State) (oid : Nat) (op : AsyncOp) (ws : List Write) : State :=
  ((completeOp s oid op.blk ws).modCore op.core (fun c => { c with queue := c.queue.filter (· != oid) })).freePlanes op.gid

/-- Puts an operation's progress back. -/
def putOp (s : State) (oid : Nat) (op : AsyncOp) : State := { s with ops := tset s.ops oid op }

/-- Sets or clears WOV bits of a group. -/
def setWov (s : State) (gid : Nat) (ps : List Nat) (on : Bool) : State :=
  s.modGroup gid (fun g => { g with r := { g.r with wov := planeBits g.r.wov ps on } })

/-- A core with planes' entries freed and their mode set (R193). -/
def openPlanes (c : Core) (ps : List Nat) (flt : Bool) : Core :=
  { c with
    ovf := c.ovf.filter (fun e => !ps.contains e.plane)
    fmode := planeBits c.fmode ps flt }

/-- A core with planes cleared, their entries freed and their mode set (R192). -/
def clearPlanes (c : Core) (ps : List Nat) (flt : Bool) : Core :=
  openPlanes { c with cells := ps.foldl (fun t p => tcut t (1024 * p) (1024 * (p + 1))) c.cells } ps flt

/-- Frees the entries of a group's tile, sets its mode and clears its WOV bits (R193). -/
def openTile (s : State) (op : AsyncOp) (g : Group) (flt : Bool) (tile : Nat) : State :=
  let ps := tilePlanes flt tile
  setWov (s.modCore op.core (fun c => openPlanes c (ps.map (planeOf g)) flt)) op.gid ps false

/-- Clears a tile of a group and sets its mode (R192). -/
def clearTile (s : State) (op : AsyncOp) (g : Group) (flt : Bool) (tile : Nat) : State :=
  let ps := tilePlanes flt tile
  setWov (s.modCore op.core (fun c => clearPlanes c (ps.map (planeOf g)) flt)) op.gid ps false

/-! ## One K-step or row -/

/-- The planes' parts of an MMA or MMQ, from its captured handles. -/
def partsOf (op : AsyncOp) : List Part4 :=
  let w (i : Nat) : Word := (op.args[i]?).getD 0
  match op.kind with
  | .mma _ _ => [⟨0, 32, w 1, w 2, 0x200⟩]
  | .mmq _ _ qs => qs.zipIdx.map (fun e => ⟨8 * e.1, 8, w (1 + 2 * e.2), w (2 + 2 * e.2), 0x200 + 2 * e.1⟩)
  | _ => []

/-- The K of an MMA or MMQ. -/
def kOf (op : AsyncOp) : Nat := ((op.args[0]?).getD 0).toNat

/-- One more K-step done; the last one completes the instruction. -/
def advance (s : State) (oid : Nat) (op : AsyncOp) (total : Nat) (ws : List Write) : State :=
  if total ≤ op.prog + 1 then leaveQueue s oid op ws else putOp s oid { op with prog := op.prog + 1 }

/-- What an overflow asks for. -/
inductive Overflow where
  | none
  | full
  deriving DecidableEq, Repr

/-- One K-step of an MMA or MMQ, with its operands fetched (R169 to R172, R189); `full` when its new entries do not fit. -/
def applyKstep (s : State) (oid : Nat) (op : AsyncOp) (g : Group) (tile : Nat) (xs : List (Part4 × Slice)) :
    Overflow × State :=
  let f := fblockOf op.pb
  let c := s.core op.core
  if f.float then
    let hi := planeOf g (2 * tile)
    let lo := planeOf g (2 * tile + 1)
    let r := (floatTerms f xs).foldl (addFloat hi lo (kOf op) s.free) (c, op.sums)
    let s1 := { s with free := s.free + 4096 }.setCore op.core r.1
    (.none, advance s1 oid { op with sums := r.2 } (kOf op) [])
  else
    let plane := planeOf g tile
    let ts := intTerms (op.tables.getD c.ctab) f xs
    if freeEntries c < newEntries c plane ts then (.full, s)
    else
      let r := ts.foldl (addTerm plane) (c, false)
      let s1 := { s with free := s.free + 4096 }.setCore op.core r.1
      (.none, advance (if r.2 then setWov s1 op.gid [tile] true else s1) oid op (kOf op) [])

/-- The words of a row of a tile as MDRN writes them (R194). -/
def drainRow (c : Core) (g : Group) (flt : Bool) (rnd : Rnd) (tile row : Nat) : List Lane :=
  (List.range 32).map (fun col =>
    if flt then
      BitVec.ofNat 32 (fp32.conv rnd false (fp32xVal (getCode c (planeOf g (2 * tile)) (planeOf g (2 * tile + 1)) row col)))
    else
      let p := planeOf g tile
      BitVec.ofInt 32 ((getCell c p row col).toInt + (highOf c p row col).getD 0 * 2 ^ 20))

/-- Clears one row of planes (R194). -/
def clearRow (c : Core) (ps : List Nat) (row : Nat) : Core :=
  { c with
    cells := ps.foldl (fun t p => tcut t (cellKey p row 0) (cellKey p row 32)) c.cells
    ovf := c.ovf.filter (fun e => !(ps.contains e.plane && e.row == row)) }

/-- The writes of an MDRN (R194). -/
def drainWrites (op : AsyncOp) (base : Nat) : List Write :=
  (List.range 1024).map (fun i =>
    { key := base + 4 * i, va := BitVec.ofNat 64 (base + 4 * i), wide := false, mask := 0x0F,
      val := BitVec.ofNat 64 (rdN op.pins (4 * i) 4), rule := .lo, wid := op.wid, ord := 1 + i, grp := op.gid, engine := true,
      seq := op.seq })

/-- One row of an MDRN (R194). -/
def drainStep (s : State) (oid : Nat) (op : AsyncOp) (g : Group) (clr flt : Bool) (rnd : Rnd) (tile : Nat) : State :=
  let base := ((op.args[0]?).getD 0).toNat
  if 32 ≤ op.prog then leaveQueue s oid op (drainWrites op base)
  else
    let ps := tilePlanes flt tile
    let row := drainRow (s.core op.core) g flt rnd tile op.prog
    let op1 : AsyncOp := { op with pins := wrL op.pins (128 * op.prog) (row.flatMap (fun w => leBytes 4 w.toNat)) }
    let s1 := if clr then s.modCore op.core (fun c => clearRow c (ps.map (planeOf g)) op.prog) else s
    let s2 := if clr && op.prog == 31 then setWov s1 op.gid ps false else s1
    advance s2 oid op1 32 (drainWrites op1 base)

/-- The cell and high count that MLDA loads from a word (R193). -/
def loadInt (v : Lane) : BitVec 20 × Int :=
  let c : BitVec 20 := BitVec.ofInt 20 v.toInt
  let h := (v.toInt - c.toInt) / 2 ^ 20
  (c, if h = 2048 then -2048 else h)

/-- Loads one row of an integer tile. -/
def loadIntRow (c : Core) (plane row : Nat) (ws : List Lane) : Core :=
  ws.zipIdx.foldl (fun c e =>
    setHigh (setCell c plane row e.2 (loadInt e.1).1) plane row e.2 (loadInt e.1).2) c

/-- Loads one row of a float tile: each word is exact in FP32X (R159). -/
def loadFloatRow (c : Core) (hi lo row : Nat) (ws : List Lane) : Core :=
  ws.zipIdx.foldl (fun c e => setCode c hi lo row e.2 (fp32x.conv .rne false (fp32.val e.1.toNat))) c

/-- One row of an MLDA (R193). -/
def loadStep (s : State) (oid : Nat) (op : AsyncOp) (g : Group) (flt : Bool) (tile : Nat) : State :=
  let base := ((op.args[0]?).getD 0).toNat
  if 32 ≤ op.prog then leaveQueue s oid op []
  else
    let s0 := if op.begun then s else openTile s op g flt tile
    let op1 : AsyncOp := { op with begun := true }
    let at_ := base + 128 * op.prog
    let ws := (List.range 32).map (fun j => rd32 op.snap (at_ + 4 * j))
    let c := s0.core op.core
    match firstPoison op.bad at_ 128 with
    | some w => stopMatrix s0 oid op1 tile 0x14 (BitVec.ofNat 64 w) 0 0
    | none =>
      if flt then
        advance (s0.setCore op.core (loadFloatRow c (planeOf g (2 * tile)) (planeOf g (2 * tile + 1)) op.prog ws)) oid op1 32 []
      else if freeEntries c < (ws.filter (fun w => (loadInt w).2 != 0)).length then stopMatrix s0 oid op1 tile 0x30 0 0 0
      else advance (s0.setCore op.core (loadIntRow c (planeOf g tile) op.prog ws)) oid op1 32 []

/-! ## CTLD -/

/-- The lowest offset at which a table image is invalid (R155, R327). -/
def tableBad (img : List Byte) : Option Nat :=
  let seg (j : Nat) : Nat := fieldN img (2 * j) 2
  let mag (m : Nat) : Nat := seg (m / 8) % 512 + m % 8 * 2 ^ (seg (m / 8) / 512 % 8)
  let bad (m : Nat) : Bool :=
    if m = 0 then mag 0 != 0 else decide (mag m ≤ mag (m - 1)) || (m == 127 && decide (511 < mag 127))
  let high := ((List.range 16).find? (fun j => decide (4096 ≤ seg j) || decide (5 < seg j / 512 % 8))).map (fun j => 2 * j + 1)
  let low := ((List.range 128).find? bad).map (fun m => 2 * (m / 8))
  match high, low with
  | some a, some b => some (min a b)
  | some a, none => some a
  | none, b => b

/-- A table replaced whole (R326). -/
def loadTable (t : Table (BitVec 3 × BitVec 9)) (tab : Nat) (img : List Byte) : Table (BitVec 3 × BitVec 9) :=
  (List.range 16).foldl (fun t j =>
    let v := fieldN img (2 * j) 2
    tset t (16 * tab + j) (BitVec.ofNat 3 (v / 512), BitVec.ofNat 9 v)) t

/-- The entries of a queue ahead of one. -/
def aheadOf (oid : Nat) (q : List Nat) : List Nat := q.takeWhile (· != oid)

/-- Matrix instructions that stand stopped or held ahead of a CTLD form all their products with the tables before it (R326). -/
def keepTables (s : State) (ids : List Nat) (t : Table (BitVec 3 × BitVec 9)) : State :=
  { s with ops := s.ops.map (fun e => if ids.contains e.1 ∧ e.2.tables.isNone then (e.1, { e.2 with tables := some t }) else e) }

/-- CTLD leaves the queue (R326, R327). -/
def tableStep (s : State) (oid : Nat) (op : AsyncOp) (tab : Nat) : State :=
  let at_ := ((op.args[0]?).getD 0).toNat
  let img := rdL op.snap at_ 32
  let s1 := leaveQueue s oid op []
  let tell (cause info : Nat) : State :=
    s1.notify op.gid { kind := .deferred, cause := cause, step := none, addr := BitVec.ofNat 64 at_, prog := 0,
                       info := BitVec.ofNat 64 info, mop := none }
  if op.bad.any (State.wordIn (at_, at_ + 32)) then tell 0x14 0
  else
    match tableBad img with
    | some off => tell 0x38 off
    | none => (keepTables s1 (aheadOf oid (s.core op.core).queue) (s.core op.core).ctab).modCore op.core
        (fun c => { c with ctab := loadTable c.ctab tab img })

/-! ## The queue (R171, R183, R188) -/

/-- The group's planes that an instruction of the queue names; those of both modes while a format block is not read yet. -/
def namedPlanes (op : AsyncOp) : List Nat :=
  match op.kind with
  | .mma _ t | .mmq _ t _ => if op.late.isSome then tilePlanes false t ++ tilePlanes true t else tilePlanes (fblockOf op.pb).float t
  | .mzero f t | .mlda f t | .mdrn _ f _ t => tilePlanes f t
  | _ => []

/-- The physical planes of an instruction. -/
def physPlanes (s : State) (op : AsyncOp) : List Nat :=
  match s.group? op.gid with
  | some g => (namedPlanes op).filterMap (fun p => g.planes[p]?)
  | none => []

/-- Two instructions of the queue name a plane in common (R183, R188). -/
def sharePlane (s : State) (x op : AsyncOp) : Bool := (physPlanes s x).any (fun p => (physPlanes s op).contains p)

/-- A stopped instruction ahead in the queue holds an entry (R188). -/
def heldBy (s : State) (x op : AsyncOp) : Bool := x.st != .running && !op.sys && (x.gid == op.gid || sharePlane s x op)

/-- The launch of an operation's group is stepping, or the group has none (R195, R234). -/
def opRuns (s : State) (op : AsyncOp) : Bool :=
  match (s.group? op.gid).bind (fun g => g.launch) with
  | some l => ((s.launch? l).map (fun x => x.phase == .stepping)).getD false
  | none => true

/-- An MMA or MMQ whose products take elements from a companding table, or may do so while its format block is not read yet. -/
def readsTable (op : AsyncOp) : Bool :=
  match op.kind with
  | .mma _ _ | .mmq _ _ _ => op.late.isSome || (fblockOf op.pb).fa == 9 || (fblockOf op.pb).fb == 9
  | _ => false

def isCtld : OpKind → Bool
  | .ctld _ => true
  | _ => false

/-- An instruction behind a CTLD uses the new table (R326): it does not overtake one that is held (R188). -/
def needsTable (x op : AsyncOp) : Bool := isCtld x.kind && readsTable op

/-- The first entry of a queue that is neither stopped nor held. -/
def frontOf (s : State) : List AsyncOp → List Nat → Option (Nat × AsyncOp)
  | _, [] => none
  | ahead, o :: os =>
    match tfind s.ops o with
    | none => frontOf s ahead os
    | some op =>
      if op.st == .running && opRuns s op && !ahead.any (fun x => heldBy s x op || needsTable x op) then some (o, op)
      else frontOf s (ahead ++ [op]) os

def isMdrn : OpKind → Bool
  | .mdrn _ _ _ _ => true
  | _ => false

/-- An entry keeps a later MDRN from running ahead of a stalled instruction: it holds it (R188), or both act on one tile or drain to
common bytes, unless a trap handler's MDRN passes what its group's stopped instruction holds (R183, R188). -/
def bars (s : State) (ahead : List AsyncOp) (y x : AsyncOp) : Bool :=
  heldBy s y x ||
    ((sharePlane s y x || (isMdrn y.kind && y.blk == x.blk)) && !(x.sys && (y.st != .running || ahead.any (fun z => heldBy s z y))))

/-- An MDRN of the queue that names another plane with entries, for which the stalled instruction `front` waits (R171). One that would
overtake an earlier instruction on its own tile is none (R183; entry 114). -/
def reliefOf (s : State) (c : Core) (front : Nat) (op : AsyncOp) : List AsyncOp → List Nat → Option (Nat × AsyncOp)
  | _, [] => none
  | ahead, o :: os =>
    match tfind s.ops o with
    | none => reliefOf s c front op ahead os
    | some x =>
      if isMdrn x.kind && x.st == .running && opRuns s x && !ahead.any (fun y => bars s ahead y x) &&
          (physPlanes s x).any (fun p => !(physPlanes s op).contains p && c.ovf.any (fun e => e.plane == p)) then some (o, x)
      else reliefOf s c front op (if o = front then ahead else ahead ++ [x]) os

/-- The MDRN of a queue that runs ahead of a stalled instruction and has not finished. -/
def draining (s : State) (q : List Nat) : Option (Nat × AsyncOp) :=
  firstSome (fun o =>
    match tfind s.ops o with
    | some x => if isMdrn x.kind && x.begun && x.st == .running && opRuns s x then some (o, x) else none
    | none => none) q

/-- What an instruction did to its planes also stands in the shadows of later boundaries: a rollback cancels only what was issued
after its boundary (R240). -/
def patchShadows (s : State) (op : AsyncOp) : State :=
  let ps := physPlanes s op
  let c := s.core op.core
  let bits (new old : BitVec 16) (l : List Nat) : BitVec 16 :=
    l.foldl (fun x p => planeBits x [p] (new.getLsbD p)) old
  s.modGroup op.gid (fun g =>
    { g with shadows := g.shadows.map (fun h =>
        if h.seq < op.seq then h
        else
          { h with
            cells := ps.foldl (fun t p => tpaste t c.cells (1024 * p) (1024 * (p + 1))) h.cells
            fmode := bits c.fmode h.fmode ps
            ovf := h.ovf.filter (fun e => !ps.contains e.plane) ++ c.ovf.filter (fun e => ps.contains e.plane)
            r := { h.r with wov := bits g.r.wov h.r.wov (namedPlanes op) } }) })

/-- A row of an MDRN that runs ahead of a stalled instruction. The engine writes that it must follow have completed; what reads its
destination has its sources already (R117). -/
def relieve (s : State) (oid : Nat) (x : AsyncOp) : State :=
  match x.kind, s.group? x.gid with
  | .mdrn clr flt rnd t, some g =>
    let b := (s.block? x.blk).getD (dispatcherBlock x.blk)
    if (mustFollow b oid).all (fun e => e.ret.isSome || e.write.isNone) then
      patchShadows (drainStep s oid { x with begun := true } g clr flt rnd t) x
    else s
  | _, _ => s

/-- The plane modes of a group as the queue has left them, by the group's plane (R167). -/
def queueModes (c : Core) (g : Group) : BitVec 16 :=
  g.planes.zipIdx.foldl (fun m e => planeBits m [e.2] (c.fmode.getLsbD e.1)) 0

/-- An MMA or MMQ whose format block an earlier operation wrote reads it once that one has retired (R117, R184), with the checks of its
issue: a flaw ends it with a deferred trap. -/
def latchBlock (s : State) (oid : Nat) (op : AsyncOp) (g : Group) (tile : Nat) (q : LateBlock) : State :=
  let pb := rdL op.snap q.at_ q.size
  let g1 : Group := { g with r := { g.r with detached := q.detached, modeQ := queueModes (s.core op.core) g } }
  match multiplyTrap (s.blockOf g) op.bad g1 tile q.at_ (kOf op) (partsOf op) (some pb) with
  | some t =>
    (leaveQueue s oid op []).notify op.gid
      { kind := .deferred, cause := t.cause, step := none, addr := t.addr, prog := 0, info := t.info, mop := none }
  | none =>
    let f := fblockOf pb
    let s1 := (putOp s oid { op with pb := pb, late := none }).setGroup op.gid { g with r := { g.r with ovfMode := f.trap } }
    s1.modBlock op.blk (fun b =>
      { b with entries := b.entries.map (fun e =>
          if e.op = oid then { e with reads := multiplyRanges f q.at_ (kOf op) (partsOf op) } else e) })

/-- One K-step of an MMA or MMQ (R171, R182, R186, R189). A stalled one counts its new entries again after each whole drain. -/
def multiplyStep (s : State) (oid : Nat) (op : AsyncOp) (g : Group) (kind : Kind) (tile : Nat) : State :=
  let f := fblockOf op.pb
  let stall (s : State) : State := let u := s.guestOf g; s.modCore op.core (fun c => { c with stalled := u })
  match op.late, draining s (s.core op.core).queue with
  | some q, _ => latchBlock s oid op g tile q
  | none, some (o, x) => stall (relieve s o x)
  | none, none =>
    if kOf op ≤ op.prog then leaveQueue s oid op []
    else
      match fetchSlices kind f (kOf op) op.prog (partsOf op) s op with
      | (.error (.later, _), _, _) => s
      | (.error (.stop cause addr sub, opnd), s1, op1) => stopMatrix s1 oid op1 tile cause addr opnd sub
      | (.ok xs, s1, op1) =>
        match applyKstep s1 oid op1 g tile xs with
        | (.none, s2) => s2
        | (.full, _) =>
          let s2 := putOp s1 oid op1
          let c := s2.core op1.core
          match (if f.trap then none else reliefOf s2 c oid op1 [] c.queue) with
          | some (o, x) => stall (relieve s2 o x)
          | none => stopMatrix s2 oid op1 tile 0x30 0 0 0

/-- Moves an instruction at the front of the queue by one K-step or row. -/
def frontStep (s : State) (oid : Nat) (op : AsyncOp) (g : Group) : State :=
  match op.kind with
  | .mma kind t => multiplyStep s oid op g kind t
  | .mmq kind t _ => multiplyStep s oid op g kind t
  | .mzero flt t => leaveQueue (clearTile s op g flt t) oid op []
  | .mlda flt t => loadStep s oid op g flt t
  | .mdrn clr flt rnd t => drainStep s oid op g clr flt rnd t
  | .ctld t => tableStep s oid op t
  | _ => s

/-- The front of a queue may move: a format block to come has been written, or the sources are there and what it must follow has
completed (R117). -/
def queueReady (s : State) (oid : Nat) (op : AsyncOp) : Bool := if op.late.isSome then op.deps.isEmpty else mayRun s oid op

/-- MATRIX_KSTEP (R165, R169 to R172, R183, R186, R188): the front of a core's queue makes one K-step or row. -/
def execMatrixKstep (core : Nat) (s : State) : Out :=
  match frontOf s [] (s.core core).queue with
  | none => .next s
  | some (oid, op) =>
    match s.group? op.gid with
    | some g =>
      if queueReady s oid op then
        .next (patchShadows (frontStep (s.modCore core (fun c => { c with stalled := none })) oid op g) op)
      else .next s
    | none => .next s

end Sys2Proof.Machine
end

