-- ==== Sys2Proof/Machine/Work.lean ====
section
/-! DEFINITION. The work family: SPAWN (R405 to R409), LNCH (R355, R356), MBXRD and MBXWR (R358 to R361), RDCNT (R383), QTOPO (R380
to R382), TLBINV (R414 to R416), CTXSV and CTXLD (R328, R329). -/

namespace Sys2Proof.Machine

/-! ## SPAWN -/

/-- Places that a die's coach house has free (R406). -/
def coachFree (s : State) (p : Nat) : Nat :=
  Config.coachPlaces - (s.launches.map (fun e => (e.2.items.filter (fun i => i.src == p)).length)).sum

/-- The die of a lane's item: the issuing die, or the logical die that B+1 names (R407). -/
def Ctx.spawnDie (x : Ctx) (fwd : Bool) (n l : Nat) : Option Nat :=
  let k := (x.s.blockOf x.g).core
  if fwd then x.s.physDie? (x.s.partAt k) (x.g.getV (n + 1) l).toNat else some (coreDie k)

/-- The items of the lanes that find a place, the lowest lanes first (R407). -/
def Ctx.spawnItems (x : Ctx) (fwd : Bool) (entry : Word) (n : Nat) (ls : List Nat) : List Item :=
  let p := coreDie (x.s.blockOf x.g).core
  ls.zipIdx.map (fun e =>
    let die := (x.spawnDie fwd n e.1).getD p
    { id := x.s.fresh + e.2, entry := entry, arg := x.g.getV n e.1, parent := x.g.widOf e.1, step := x.g.r.gstep, die := die,
      src := p, arrived := die == p, grp := x.gid, seq := x.s.seq, cycle := x.s.cycle p })

/-- SPAWN with an active lane (R407, R408). -/
def Ctx.spawn (x : Ctx) (fwd : Bool) (d : BitVec 4) (a : SReg) (b : VReg) : Res :=
  let entry := x.sreg a
  let n := (vnum x.run.xs b).getD 0
  let ls := lanesOf x.act
  if !canonical entry then x.fail { cause := 0x11, addr := entry }
  else if entry.toNat % 4 != 0 then x.fail { cause := 0x10, addr := entry }
  else
    match ls.find? (fun l => (x.spawnDie fwd n l).isNone) with
    | some l => x.fail { cause := 0x38, info := BitVec.ofNat 64 l }
    | none =>
      if x.g.r.detached then x.fail detTrap
      else
        let room := coachFree x.s (coreDie (x.s.blockOf x.g).core)
        let items := x.spawnItems fwd entry n (ls.take room)
        let failed := maskOf (fun l => (ls.drop room).contains l)
        let s1 := match x.g.launch with
          | some l =>
            { x.s with fresh := x.s.fresh + items.length }.modLaunch l (fun q => { q with items := q.items ++ items })
          | none => x.s
        .ok (s1.setGroup x.gid (x.g.setP d.toNat failed)) .seq 0

/-- SPAWN (R405 to R408). -/
def execSpawn (c : Ctl) (fwd : Bool) (d : BitVec 4) (a : SReg) (b : VReg) (s : State) : Out :=
  issue (.spawn c fwd d a b) c true
    (fun x => if x.act = 0 then x.done (x.g.setP d.toNat 0) else x.spawn fwd d a b) s

/-! ## LNCH and the mailboxes -/

/-- LNCH (R355, R356): the packet goes to the die's launch unit. -/
def execLnch (c : Ctl) (a : SReg) (s : State) : Out :=
  issue (.lnch c a) c false
    (fun x =>
      .ok (x.s.modDie (coreDie (x.s.blockOf x.g).core) (fun d =>
        { d with launchq := d.launchq ++ [⟨x.sreg a 0, x.sreg a 1, none⟩] })) .seq 0) s

/-- MBXRD (R358, R359): a request for one item, whose eight words fill the bundle together. -/
def execMbxrd (c : Ctl) (d : SReg) (a : SSrc) (s : State) : Out :=
  issue (.mbxrd c d a) c false
    (fun x =>
      let sel := (x.ssrc a).toNat
      if 1 < sel then x.fail { cause := 0x38 }
      else
        let reads := (List.range 8).map (fun j => LaneRead.mk j (8 * j) 0 .now none)
        let s1 := startLoad x.s x.gid x.g (x.sdst d) .s64 (.mailbox sel) reads
        .ok (s1.modDie (coreDie (x.s.blockOf x.g).core) (fun d => { d with waits := d.waits ++ [⟨x.gid, x.s.fresh⟩] })) .seq 0) s

/-- The eight registers of a bundle, the first at the lowest address (R361). -/
def Ctx.bundle (x : Ctx) (a : SReg) : List Byte := (List.range 8).flatMap (fun j => leBytes 8 (x.sreg a j).toNat)

/-- MBXWR (R358, R361): one record of the partition's message ring, written directly. -/
def execMbxwr (c : Ctl) (a b : SReg) (s : State) : Out :=
  issue (.mbxwr c a b) c false
    (fun x =>
      if x.sreg b ≠ 0 then x.fail { cause := 0x38 }
      else
        let P := x.s.partAt (x.s.blockOf x.g).core
        let s1 := x.s.ringAdd P P.dbmsg (x.bundle a)
        .ok { s1 with msix := s1.msix + 1 } .seq 0) s

/-! ## RDCNT -/

/-- A counter as RDCNT reads it (R256); a dispatcher belongs to no guest. -/
def counterValue (s : State) (k : Nat) (guest : Option Nat) (n : Nat) : Word :=
  match guest with
  | none => 0
  | some u =>
    if 0x86 < n then 0 else tget 0 (s.core k).counters (8192 * u + n)

/-- RDCNT (R383). -/
def execRdcnt (c : Ctl) (d : SReg) (a : SSrc) (s : State) : Out :=
  issue (.rdcnt c d a) c false
    (fun x =>
      let v := counterValue x.s (x.s.blockOf x.g).core (x.s.guestOf x.g) (x.ssrc a).toNat
      x.done (x.g.setS ((snum x.run.xs d).getD 0) v)) s

/-! ## QTOPO -/

/-- The site of the die at physical order `p`, and of waystation `w` (R13). -/
def dieSite (p : Nat) : Nat × Nat := (2 * (p % 30) + p / 30 % 2, p / 30)
def waySite (w : Nat) : Nat × Nat := (2 * (w % 30) + (w / 30 + 1) % 2, w / 30)

/-- Hops between two sites (R24). -/
def hops (a b : Nat × Nat) : Nat := max a.1 b.1 - min a.1 b.1 + (max a.2 b.2 - min a.2 b.2)

/-- The band of a path (R24). -/
def bandOf (h : Nat) : Nat := if h = 0 then 0 else Nat.log2 h

/-- The lowest waystation of a partition, by partition index, that neighbours both dies (R17). -/
def sharedWay (P : Part) (p q : Nat) : Option Nat :=
  (List.range P.ways).find? (fun n =>
    hops (dieSite p) (waySite (30 * P.y0 + n)) == 1 && hops (dieSite q) (waySite (30 * P.y0 + n)) == 1)

/-- Bits of B that a selector uses (R300, R380). -/
def topoUses (sel : Nat) : Nat :=
  if sel = 5 then 16 else if sel = 6 ∨ sel = 7 then 32 else if sel = 8 then 64 else 0

/-- The value of a selector (R381). -/
def topoValue (s : State) (P : Part) (p sel : Nat) (b : Word) : Int :=
  let n : Int := s.dieCount P
  let rows : Int := (n + 29) / 30
  let lo := b.toNat % 65536
  let hi := b.toNat / 65536
  match sel with
  | 0 => if s.disabled.isEmpty then 900 else 850
  | 1 => n
  | 2 => 30
  | 3 => rows
  | 4 => s.logDie P p
  | 5 =>
    match s.physDie? P lo with
    | some q => (dieSite q).1 + 65536 * ((dieSite q).2 - P.y0)
    | none => -1
  | 6 =>
    match s.physDie? P lo, s.physDie? P hi with
    | some q, some r => ((sharedWay P q r).map (fun w => (w : Int))).getD (-1)
    | _, _ => -1
  | 7 =>
    match s.physDie? P lo with
    | some q => if hi < P.ways then bandOf (hops (dieSite q) (waySite (30 * P.y0 + hi))) else -1
    | none => -1
  | 8 => if b.toNat ≤ 6 then 48 * 2 ^ b.toNat else -1
  | 9 => 448
  | 10 => n - 30 * (rows - 1)
  | 11 => 536870912
  | _ => -1

/-- QTOPO (R380 to R382): the register is empty until the value arrives. -/
def execQtopo (c : Ctl) (d : SReg) (sel : BitVec 14) (b : SSrc) (s : State) : Out :=
  issue (.qtopo c d sel b) c false
    (fun x =>
      let v := x.ssrc b
      let k := (x.s.blockOf x.g).core
      if v.toNat / 2 ^ topoUses sel.toNat ≠ 0 then x.fail { cause := 0x38 }
      else
        let r := BitVec.ofInt 64 (topoValue x.s (x.s.partAt k) (coreDie k) sel.toNat v)
        .ok (startLoad x.s x.gid x.g (x.sdst d) .s64 .value [⟨0, 0, 0, .now, some r⟩]) .seq 0) s

/-! ## TLBINV -/

/-- The check of TLBINV's operands (R414). -/
def tlbinvBad (scope : Scope) (a b : Word) : Option TrapInfo :=
  let first : Option TrapInfo := some { cause := 0x38, info := 1 }
  let second : Option TrapInfo := some { cause := 0x38, info := 2 }
  let pages := decide (1 ≤ b.toNat) && decide (b.toNat ≤ 2 ^ 20)
  match scope with
  | .va =>
    if !canonical a then some { cause := 0x11, addr := a }
    else if a.toNat % 65536 != 0 then first else if pages then none else second
  | .gpa => if a.toNat % 65536 != 0 || decide (2 ^ 52 ≤ a.toNat) then first else if pages then none else second
  | .ctx | .all => if a != 0 then first else if b != 0 then second else none

/-- TLBINV (R414 to R416): the group waits for the invalidation, which TLBINV_BEGIN and TLBINV_COMPLETE carry out, and crosses the
boundary at the run's end after it. -/
def execTlbinv (c : Ctl) (scope : Scope) (host : Bool) (gctx : BitVec 4) (a : SReg) (b : SSrc) (s : State) : Out :=
  issue (.tlbinv c scope host gctx a b) c false
    (fun x =>
      let va := x.sreg a
      let n := x.ssrc b
      match tlbinvBad scope va n with
      | some t => x.fail t
      | none =>
        let t : TlbInv := ⟨scope, host, gctx.toNat, va, n.toNat, x.g.r.gstep, x.s.seq, false, if c.l then some c.g else none⟩
        .ok (x.s.setGroup x.gid { x.g with tlbi := some t }) .later 0) s

/-! ## CTXSV and CTXLD -/

/-- The check of an image address (R328). -/
def imageBad (a : Word) : Option TrapInfo :=
  if !canonical a then some { cause := 0x11, addr := a } else if a.toNat % 128 != 0 then some { cause := 0x38 } else none

/-- The launch of a partition that waits in a phase for its dies, with the image that a command named. -/
def commanded (s : State) (p : Nat) (ph : Phase) (image : Word) : Option Nat :=
  (tsel s.launches (fun l => l.part == p && l.phase == ph && l.image == image)).head?

/-- CTXSV and CTXLD start the die's sequencer when the command's address is theirs; otherwise they do nothing and MODE reads 2
(R329). -/
def Ctx.sequence (x : Ctx) (ph : Phase) (a : Word) (f : Nat → Die → Die) : Res :=
  match imageBad a with
  | some t => x.fail t
  | none =>
    let p := coreDie (x.s.blockOf x.g).core
    match x.s.partOfDie p with
    | none => x.done x.g
    | some P =>
      match commanded x.s P ph a with
      | some l => .ok (x.s.modDie p (f l)) .seq 0
      | none => .ok (x.s.modPart P (fun q => { q with mode := 2 })) .seq 0

/-- CTXSV (R328, R329). -/
def execCtxsv (c : Ctl) (a : SReg) (s : State) : Out :=
  issue (.ctxsv c a) c false (fun x => x.sequence .preempting (x.sreg a) (fun l d => { d with save := some l })) s

/-- CTXLD (R328, R330). -/
def execCtxld (c : Ctl) (a : SReg) (s : State) : Out :=
  issue (.ctxld c a) c false (fun x => x.sequence .restoring (x.sreg a) (fun l d => { d with load := some l })) s

end Sys2Proof.Machine
end

