-- ==== Sys2Proof/Machine/Launch.lean ====
section
/-! DEFINITION. Launches: posting (R32, R33), broadcast (R33, R360), the launch unit with the checks of the header (R27 to R29, R356)
and the placement of root blocks (R30, R31, R34, R35, R38), the start (R357), completion (R36), and the placement of spawned
groups (R62 to R64). -/

namespace Sys2Proof.Machine

/-! ## Posting (R32, R33) -/

/-- A launch that has just been posted. -/
def Launch.fresh (ident : BitVec 32) (part guest : Nat) (hdrVa : Word) (prio : Nat) (preds : List (BitVec 32)) : Launch where
  ident := ident
  order := 0
  queued := false
  part := part
  guest := guest
  hdrVa := hdrVa
  hdr := []
  prio := prio
  preds := preds
  phase := .posted
  reports := []
  c := 0
  seen := []
  gw := []
  applying := []
  undo := []
  logs := []
  dueLogs := []
  hits := []
  declared := []
  btst := []
  moves := []
  ferry := []
  items := []
  children := 0
  final := 0
  since := []
  sinceTick := 0
  startTick := 0
  mustCommit := false
  image := 0
  force := false
  cmdTick := 0
  saveTook := 0

/-- A launch that a partition has started, holds or waits to start: one that has neither completed nor been rejected nor been
terminated. -/
def Launch.open_ (l : Launch) : Bool := l.phase != .completed && l.phase != .rejected && l.phase != .terminated

/-- The 64 staged bytes of a launch packet with its last doubleword (R264, R266); a guest's packet carries its number. -/
def packetBytes (P : Part) (guest : Option (BitVec 3)) (data : Word) : List Byte :=
  let (t, base) := match guest with
    | none => (P.lpkt, 0)
    | some g => (P.vlpkt, 64 * g.toNat)
  let bs := (List.range 56).map (fun i => tget 0 t (base + i)) ++ leBytes 8 data.toNat
  match guest with
  | none => bs
  | some g => bs.take 12 ++ [g.zeroExtend 8] ++ bs.drop 13

/-- The first byte of a packet that breaks R32 or R360. -/
def packetBad (bs : List Byte) : Option Nat :=
  if 8 ≤ fieldN bs 12 1 then some 12 else (List.range 51).map (· + 13) |>.find? (fun i => fieldN bs i 1 != 0)

/-- The bytes of the header that the mailbox reads at posting (R27): priority, predecessor count, predecessors. -/
def readPosting (s : State) (P : Part) (g : Nat) (va : Word) : Option (List Byte) :=
  match s.readVa P (some g) (va + 73) 2, s.readVa P (some g) (va + 88) 16 with
  | some a, some b => some (a ++ b)
  | _, _ => none

/-- Adds a launch to the state. -/
def addLaunch (s : State) (l : Launch) : Nat × State :=
  let (id, s1) := s.take
  (id, { s1 with launches := tset s1.launches id { l with order := id } })

/-- A launch record for a packet that never became a launch (R357). -/
def recordPacket (s : State) (p : Nat) (ident : BitVec 32) (byte : Nat) : State :=
  match s.part? p with
  | none => s
  | some P =>
    s.ringAdd P P.lrring (leBytes 4 ident.toNat ++ [2#8, 0#8] ++ leBytes 2 byte ++ leBytes 8 (2 ^ 64 - 1))

/-- A packet posted to a partition's mailbox (R33, R357, R360): held, or recorded as rejected with its first offending byte. -/
def postPacket (s : State) (p : Nat) (P : Part) (bs : List Byte) : State :=
  let ident := BitVec.ofNat 32 (fieldN bs 8 4)
  let guest := fieldN bs 12 1
  let va := BitVec.ofNat 64 (fieldN bs 0 8)
  let reject (s : State) (byte : Nat) : State :=
    let (id, s1) := addLaunch s (Launch.fresh ident p guest va 0 [])
    s1.reject id 0 byte
  if s.launches.any (fun e => e.2.part == p && e.2.ident == ident && e.2.open_) then recordPacket s p ident 8
  else
    match packetBad bs with
    | some i => reject s i
    | none =>
      let s := (s.walked P (some guest) (va + 73) 2).walked P (some guest) (va + 88) 16
      match readPosting s P guest va with
      | none => reject s 0
      | some h =>
        let prio := fieldN h 0 1
        let n := fieldN h 1 1
        if 4 ≤ prio then reject s 73
        else if 5 ≤ n then reject s 74
        else
          let preds := (List.range n).map (fun i => BitVec.ofNat 32 (fieldN h (2 + 4 * i) 4))
          let (_, s1) := addLaunch s (Launch.fresh ident p guest va prio preds)
          State.rejectFollowers s1.launches.length s1

/-- LAUNCH_PACKET_POST (R32, R33, R264, R266): a write of the staging area's last doubleword, inside an IDE stream (R250). -/
def execLaunchPacketPost (part : Nat) (guest : Option (BitVec 3)) (data : BitVec 64) (s : State) : Out :=
  match s.part? part with
  | none => .next s
  | some P =>
    if !P.ideUp then .next (answer s part (.bar guest 0x78) .unsupported) else
    let last := (List.range 8).zip (leBytes 8 data.toNat)
    let s1 := s.modPart part (fun P =>
      match guest with
      | none => { P with lpkt := last.foldl (fun t e => tput 0 t (56 + e.1) e.2) P.lpkt }
      | some g => { P with vlpkt := last.foldl (fun t e => tput 0 t (64 * g.toNat + 56 + e.1) e.2) P.vlpkt })
    if P.fatal then .next s1 else .next (postPacket s1 part P (packetBytes P guest data))

/-! ## Broadcast (R33, R360) -/

/-- A predecessor has completed, or names no launch known to the partition (R33). -/
def predDone (s : State) (p : Nat) (id : BitVec 32) : Bool :=
  match (s.byIdent p id).bind s.launch? with
  | some m => m.phase == .completed
  | none => true

/-- A launch is ready under condition 1 of R33. -/
def launchReady (s : State) (l : Launch) : Bool := l.preds.all (predDone s l.part)

/-- Stepping launches of a partition (R33): a launch steps until it completes, is terminated or is saved, and again from the
moment its restore begins. -/
def stepping (s : State) (p : Nat) : Nat :=
  (tsel s.launches (fun l => l.part == p && (l.phase == .stepping || l.phase == .preempting || l.phase == .restoring))).length

/-- Launches that are stepping, or broadcast and not yet started (R33). -/
def steppingOrSent (s : State) (p : Nat) : Nat :=
  stepping s p + (tsel s.launches (fun l => l.part == p && l.phase == .broadcast)).length

/-- The conditions of R33 for starting a launch. -/
def mayStart (s : State) (lid : Nat) (l : Launch) : Bool :=
  (l.phase == .posted || (l.phase == .saved && l.queued)) && launchReady s l && decide (steppingOrSent s l.part < 16) &&
    s.launches.all (fun e =>
      e.1 == lid || !(e.2.part == l.part && e.2.waiting && launchReady s e.2) ||
        (decide (e.2.prio ≤ l.prio) && !(e.2.prio == l.prio && decide (e.2.order < l.order))))

/-- A die's mailbox takes what the partition mailbox holds for it, as far as it has room (R360). -/
def Die.letIn (d : Die) : Die :=
  let n := Config.mailboxItems - d.mbox.length
  { d with mbox := d.mbox ++ d.inbound.take n, inbound := d.inbound.drop n }

/-- Sends an item to a die's mailbox: the partition mailbox holds it while that is full (R360). -/
def mailTo (s : State) (p : Nat) (m : MboxItem) : State := s.modDie p (fun d => Die.letIn { d with inbound := d.inbound ++ [m] })

/-- Sends an item to every die of a partition. -/
def mailAll (s : State) (P : Part) (m : MboxItem) : State := (s.dieList P).foldl (fun s p => mailTo s p m) s

/-- A restore begins: the launch steps again, and every die is told (R33, R330). -/
def beginRestore (s : State) (lid p : Nat) (P : Part) (image : Word) : State :=
  mailAll (s.modLaunch lid (fun l => { l with phase := .restoring, queued := false, reports := [], part := p, image := image, cmdTick := s.tick })) P ⟨2, lid, image, 0⟩

/-- LAUNCH_BROADCAST (R33, R262): a held packet goes to every die mailbox; a launch that its time slice pre-empted is restored. -/
def execLaunchBroadcast (launch : Nat) (s : State) : Out :=
  match s.launch? launch with
  | none => .next s
  | some l =>
    match s.part? l.part with
    | none => .next s
    | some P =>
      if !mayStart s launch l then .next s
      else if l.phase == .saved then .next (beginRestore s launch l.part P l.image)
      else
        .next (mailAll (s.modLaunch launch (fun l => { l with phase := .broadcast })) P ⟨0, launch, l.hdrVa, 0⟩)

/-! ## The header (R27 to R30) -/

/-- The fields of a launch header. -/
structure Hdr where
  bs : List Byte

namespace Hdr

def entry (h : Hdr) : Word := BitVec.ofNat 64 (fieldN h.bs 0 8)
def child (h : Hdr) : Word := BitVec.ofNat 64 (fieldN h.bs 8 8)
def param (h : Hdr) : Word := BitVec.ofNat 64 (fieldN h.bs 16 8)
def vector (h : Hdr) : Word := BitVec.ofNat 64 (fieldN h.bs 24 8)
def log (h : Hdr) : Word := BitVec.ofNat 64 (fieldN h.bs 32 8)

/-- The step time limit: 0 means 2^30 (R27). -/
def limit (h : Hdr) : Nat := if fieldN h.bs 40 4 = 0 then 2 ^ 30 else fieldN h.bs 40 4

/-- The width of field `f`. -/
def width (h : Hdr) (f : Nat) : Nat := fieldN h.bs (64 + f) 1

/-- The extent that the header gives field `f`, 1 to 5. -/
def extentAt (h : Hdr) (f : Nat) : Nat := fieldN h.bs (40 + 4 * f) 4

/-- The extent of field `f`: 1 for a field of width 0 (R28). -/
def extent (h : Hdr) (f : Nat) : Nat := if h.width f = 0 then 1 else h.extentAt f

/-- The first bit of field `f` in a WID (R30). -/
def start (h : Hdr) (f : Nat) : Nat := ((List.range f).map h.width).sum

def blockLevel (h : Hdr) : Nat := fieldN h.bs 70 1
def dieLevel (h : Hdr) : Nat := fieldN h.bs 71 1
def laneExtent (h : Hdr) : Nat := fieldN h.bs 72 1
def tiles (h : Hdr) : Nat := fieldN h.bs 75 1
def vregs (h : Hdr) : Nat := fieldN h.bs 76 2
def sregs (h : Hdr) : Nat := fieldN h.bs 78 1
def bytes (h : Hdr) : Nat := fieldN h.bs 80 4
def spill (h : Hdr) : Nat := fieldN h.bs 84 4

/-- G: the groups of a root block (R28). -/
def groups (h : Hdr) : Nat := (((List.range 6).filter (fun f => decide (1 ≤ f) && decide (f < h.blockLevel))).map h.extent).prod

/-- %fw (R40). -/
def fw (h : Hdr) : Word := BitVec.ofNat 64 (fieldN h.bs 64 6)

/-- The extent of a field keeps its limits (R27, R28). -/
def extentOk (h : Hdr) (f : Nat) : Bool := decide (1 ≤ h.extentAt f) && decide (h.extentAt f ≤ 2 ^ h.width f)

/-- The width byte at which the running sum first passes 64 (R29). -/
def wideAt (h : Hdr) : Option Nat := (List.range 6).find? (fun f => decide (64 < h.start (f + 1)))

/-- The limits of R27 and R28, each with the byte that it names, in byte order (R29); `x` says that the entry address lies on
an executable page. -/
def limits (h : Hdr) (x : Bool) : List (Nat × Bool) :=
  [(0, canonical h.entry && h.entry.toNat % 4 == 0 && x), (8, h.child.toNat % 32 == 0),
    (24, canonical h.vector && h.vector.toNat % 4 == 0), (32, canonical h.log && h.log.toNat % 64 == 0),
    (44, h.extentOk 1), (48, h.extentOk 2), (52, h.extentOk 3), (56, h.extentOk 4), (60, h.extentOk 5)] ++
  [(64, h.width 0 == 5 && h.wideAt != some 0), (65, h.wideAt != some 1), (66, h.wideAt != some 2), (67, h.wideAt != some 3),
    (68, h.wideAt != some 4), (69, h.wideAt != some 5)] ++
  [(70, decide (1 ≤ h.blockLevel) && decide (h.blockLevel ≤ 5) && decide (1 ≤ h.groups) && decide (h.groups ≤ 16)),
    (71, decide (h.blockLevel ≤ h.dieLevel) && decide (h.dieLevel ≤ 5)),
    (72, decide (1 ≤ h.laneExtent) && decide (h.laneExtent ≤ 32)), (73, decide (fieldN h.bs 73 1 < 4)),
    (74, decide (fieldN h.bs 74 1 < 5)), (75, decide (h.tiles ≤ 16) && decide (h.groups * h.tiles ≤ 16)),
    (76, decide (32 ≤ h.vregs) && decide (h.vregs ≤ 256) && h.vregs % 32 == 0 && decide (h.groups * h.vregs ≤ 1024)),
    (78, decide (16 ≤ h.sregs) && decide (h.sregs ≤ 64) && h.sregs % 16 == 0 && decide (h.groups * h.sregs ≤ 768)),
    (79, fieldN h.bs 79 1 == 0), (80, h.bytes % 256 == 0 && decide (h.bytes + h.groups * h.spill ≤ 196608)),
    (84, h.spill % 1024 == 0 && decide (h.spill ≤ 65536)), (104, fieldN h.bs 104 24 == 0)]

/-- What one root block asks of a core (R28, R35). -/
def need (h : Hdr) (lid : Nat) : Need := ⟨lid, h.groups, h.vregs, h.sregs, h.tiles, h.bytes + h.groups * h.spill⟩

/-- What a spawned group asks of a core (R63). -/
def childNeed (h : Hdr) (lid : Nat) : Need := ⟨lid, 1, h.vregs, h.sregs, h.tiles, h.bytes + h.spill⟩

/-- The fields b to 5, in ascending order. -/
def blockFields (h : Hdr) : List Nat := (List.range 6).filter (fun f => decide (h.blockLevel ≤ f))

/-- How many values of field `f` occur on logical die `i` of `n` (R31). -/
def onDie (h : Hdr) (i n f : Nat) : Nat := if f = h.dieLevel then (h.extent f + n - 1 - i) / n else h.extent f

/-- Root blocks of a logical die (R31). -/
def rootCount (h : Hdr) (i n : Nat) : Nat := (h.blockFields.map (h.onDie i n)).prod

/-- The WID bits of root block number `k` of a logical die: the fields b to 5, field b moving fastest (R30, R31, R35). -/
def rootBits (h : Hdr) (i n : Nat) : List Nat → Nat → Nat
  | [], _ => 0
  | f :: fs, k =>
    let m := h.onDie i n f
    let v := if f = h.dieLevel then i + n * (k % m) else k % m
    v * 2 ^ h.start f + rootBits h i n fs (k / m)

/-- The WID bits of group `g` of a block: fields 1 to b − 1, field 1 moving fastest (R37). -/
def groupBits (h : Hdr) : List Nat → Nat → Nat
  | [], _ => 0
  | f :: fs, g => g % h.extent f * 2 ^ h.start f + groupBits h fs (g / h.extent f)

/-- The fields 1 to b − 1. -/
def groupFields (h : Hdr) : List Nat := (List.range 6).filter (fun f => decide (1 ≤ f) && decide (f < h.blockLevel))

end Hdr

/-- The header of a launch. -/
def Launch.header (l : Launch) : Hdr := ⟨l.hdr⟩

/-! ## Placement (R34, R35, R37, R38, R63) -/

/-- Planes of a core that no group uses, lowest first. -/
def freePlanes (s : State) (k n : Nat) : List Nat :=
  ((List.range 16).filter (fun p => !(s.planesOn k).contains p)).take n

/-- The lowest free block position of a core. -/
def freeBlockSlot (s : State) (k : Nat) : Nat :=
  ((List.range 4).find? (fun n => !(s.blocksOn k).any (fun e => e.2.slot == n))).getD 0

/-- A group as it starts (R38, R40). -/
def newGroup (s : State) (k bid lid : Nat) (l : Launch) (grp live step : Nat) (entry gwid : Word) (args : Table Lane) (base : Nat)
    (planes : List Nat) (notices : List Notice) : Group :=
  let h := l.header
  { r := Regs.start entry live step h.param base h.vector false
    blk := bid, launch := some lid, grp := grp, gwid := gwid, args := args, fw := h.fw, lhdr := l.hdrVa, va := h.vregs,
    sa := h.sregs, planes := planes, spillBase := base, spillEnd := base + h.spill, run := none, notices := notices, taken := [], sent := [], again := [],
    reported := step, heldX := [], retired := false, freed := false, tlbi := none,
    shadows := [{ cycle := s.cycle (coreDie k), r := Regs.start entry live step h.param base h.vector false, cells := [], fmode := 0,
                  ovf := [], area := [], seq := s.seq }] }

/-- A core clears what a new block uses: its planes are in integer mode and zero (R38, R167). -/
def clearFor (s : State) (k : Nat) (ps : List Nat) : State := s.modCore k (fun c => clearPlanes c ps false)

/-- Puts a block of `gs` groups on a core: the launch keeps or takes a launch context, and the block takes the lowest free
position (R34, R37). `mk` makes group `i` from its planes. -/
def placeBlock (s : State) (k lid bytes spill n tiles : Nat) (mk : Nat → Nat → List Nat → Group) : State :=
  match s.ctxFor k lid with
  | none => s
  | some ctx =>
    let bid := s.fresh
    let gids := (List.range n).map (fun i => bid + 1 + i)
    let ps := freePlanes s k (n * tiles)
    let b : Block :=
      { core := k, slot := freeBlockSlot s k, launch := some lid, ctx := ctx, bytes := bytes, spill := spill, groups := gids,
        closed := 0, mem := [], pend := [], entries := [], windows := [], crossT := [], poison := [], moving := false, moved := false }
    let gs := (List.range n).map (fun i => (bid + 1 + i, mk bid i ((ps.drop (i * tiles)).take tiles)))
    let s1 := (clearFor s k ps).modCore k (fun c => { c with ctxs := tset c.ctxs ctx (some lid) })
    { s1 with
      fresh := s.fresh + n + 1
      blocks := tset s1.blocks bid b
      groups := gs.foldl (fun t e => tset t e.1 e.2) s1.groups }

/-- Places one root block on a core (R35, R37, R38). -/
def placeRoot (s : State) (k lid : Nat) (l : Launch) (bits : Nat) : State :=
  let h := l.header
  placeBlock s k lid h.bytes h.spill h.groups h.tiles (fun bid g ps =>
    newGroup s k bid lid l g h.laneExtent 0 h.entry (BitVec.ofNat 64 (bits + h.groupBits h.groupFields g)) []
      (h.bytes + g * h.spill) ps [])

/-- Places the root blocks `k` on from of a die, each on the lowest-indexed core that can take it whole; none when one finds no
core (R35). -/
def placeRoots (p lid : Nat) (l : Launch) (i n : Nat) : List Nat → State → Option State
  | [], s => some s
  | b :: bs, s =>
    match s.coreFor p (l.header.need lid) with
    | none => none
    | some k => placeRoots p lid l i n bs (placeRoot s k lid l (l.header.rootBits i n l.header.blockFields b))

/-- Root blocks that a core empty of launches takes (R34, R35). -/
def emptyRoom (h : Hdr) (disp : Bool) : Nat :=
  let d (x y : Nat) : Nat := if y = 0 then 4 else x / y
  let q := if disp then [3, d 23 h.groups, d 992 (h.groups * h.vregs), d 752 (h.groups * h.sregs), d 16 (h.groups * h.tiles),
      d 194560 (h.bytes + h.groups * h.spill)]
    else [4, d 24 h.groups, d 1024 (h.groups * h.vregs), d 768 (h.groups * h.sregs), d 16 (h.groups * h.tiles),
      d 196608 (h.bytes + h.groups * h.spill)]
  q.foldl min 4

/-- Root blocks that a die empty of launches takes. -/
def dieRoom (s : State) (p : Nat) (h : Hdr) : Nat :=
  ((List.range Config.coresPerDie).map (fun i =>
    if (s.core (coreKey p i)).fenced then 0 else emptyRoom h (i == 0))).sum

/-- A die reports to the mailbox (R356). -/
def reportDie (s : State) (p lid : Nat) (byte : Option Nat) : State :=
  (s.modLaunch lid (fun l => { l with reports := l.reports ++ [(p, byte)] })).modDie p (fun d => { d with launchq := d.launchq.drop 1 })

/-- The entry address lies on an executable page (R27). DESIGN CHOICE (entry 115): one that is not resident, whatever its X, is none. -/
def entryRuns (s : State) (P : Part) (g : Nat) (va : Word) : Bool :=
  match walk s.mem P [] (some g) (pageOf va) with
  | .ok t => t.res && t.e.x
  | .error _ => false

/-- The launch that a packet of a die stands for: broadcast, and not yet reported by the die. -/
def packetLaunch (s : State) (p part : Nat) (q : Packet) : Option Nat :=
  (tsel s.launches (fun l => l.part == part && l.phase == .broadcast && l.ident == q.word.extractLsb' 0 32 &&
    !l.reports.any (fun r => r.1 == p))).head?

/-- A CPYW of the die has not completed (R323). -/
def cpywOn (s : State) (p : Nat) : Bool :=
  s.ops.any (fun e => coreDie e.2.core == p && (match e.2.kind with | .cpyw _ => true | _ => false))

/-- The launch unit's checks of a packet and its header, which it reads once (R27 to R29, R356): the header, or the first offending
byte. -/
def unitCheck (s : State) (P : Part) (q : Packet) : Except Nat (List Byte) :=
  let g := (q.word.extractLsb' 32 8).toNat
  if 8 ≤ g then .error 12
  else if q.word.extractLsb' 40 24 != 0#24 then .error 13
  else if q.hdr.toNat % 128 != 0 || !canonical q.hdr then .error 0
  else
    match s.readVa P (some g) q.hdr 128 with
    | none => .error 0
    | some bs =>
      match firstField ((Hdr.mk bs).limits (entryRuns s P g (Hdr.mk bs).entry)) with
      | some off => .error off
      | none => .ok bs

/-- The walks of the launch unit set A bits (R200). -/
def unitWalks (s : State) (P : Part) (q : Packet) : State :=
  let g := (q.word.extractLsb' 32 8).toNat
  if 8 ≤ g || q.word.extractLsb' 40 24 != 0#24 || q.hdr.toNat % 128 != 0 then s
  else
    let s1 := s.walked P (some g) q.hdr 128
    match s1.readVa P (some g) q.hdr 8 with
    | some bs => s1.trailed (s1.trailFor P (some g) (BitVec.ofNat 64 (leNat bs)))
    | none => s1

/-- A die's launch unit keeps the header that it has read; the launch's is that of the die that read it first. -/
def keepHeader (s : State) (p lid : Nat) (q : Packet) (bs : List Byte) : State :=
  (s.modLaunch lid (fun l =>
      if l.hdr.isEmpty then { l with hdr := bs, hdrVa := q.hdr, guest := (q.word.extractLsb' 32 8).toNat } else l)).modDie p
    (fun d => { d with launchq := { q with read := some bs } :: d.launchq.drop 1 })

/-- The launch unit's work on a packet whose header it has read (R356): the wait, the placement and the report. -/
def unitRoots (s : State) (p lid : Nat) (P : Part) (l : Launch) (q : Packet) (bs : List Byte) : State :=
  let h : Hdr := ⟨bs⟩
  if cpywOn s p then s
  else
    let i := s.logDie P p
    let n := s.dieCount P
    let c := h.rootCount i n
    if dieRoom s p h < c then reportDie s p lid (some 44)
    else
      let l1 : Launch := { l with hdr := bs, hdrVa := q.hdr, guest := (q.word.extractLsb' 32 8).toNat }
      match placeRoots p lid l1 i n (List.range c) s with
      | none => s
      | some s1 => reportDie s1 p lid none

/-- The launch unit's work on one packet (R356): its checks with the one reading of the header, then the wait, the placement and the
report. -/
def unitPlace (s : State) (p lid : Nat) (P : Part) (l : Launch) (q : Packet) : State :=
  match q.read with
  | some bs => unitRoots s p lid P l q bs
  | none =>
    let s1 := unitWalks s P q
    match unitCheck s P q with
    | .error byte => reportDie s1 p lid (some byte)
    | .ok bs => unitRoots (keepHeader s1 p lid q bs) p lid P l q bs

/-- LAUNCH_UNIT_PLACE (R356): the first packet of a die's launch unit. A packet that stands for no broadcast launch is
dropped. -/
def execLaunchUnitPlace (die : Nat) (s : State) : Out :=
  match (s.die die).launchq, s.partOfDie die with
  | q :: _, some p =>
    (match packetLaunch s die p q, s.part? p with
    | some lid, some P =>
      (match s.launch? lid with
      | some l => .next (unitPlace s die lid P l q)
      | none => .next s)
    | _, _ => .next (s.modDie die (fun d => { d with launchq := d.launchq.drop 1 })))
  | _, _ => .next s

/-! ## Start and completion (R29, R36, R357) -/

/-- Every die of a launch's partition has reported. -/
def allReported (s : State) (P : Part) (l : Launch) : Bool :=
  (s.dieList P).all (fun p => l.reports.any (fun r => r.1 == p))

/-- The lowest offending byte that a die reported. -/
def reportedByte (l : Launch) : Option Nat :=
  (l.reports.filterMap (fun r => r.2)).foldl (fun acc b => match acc with | none => some b | some a => some (min a b)) none

/-- LAUNCH_START (R357): the launch starts, or every die frees what it placed and the launch is rejected. -/
def execLaunchStart (launch : Nat) (s : State) : Out :=
  match s.launch? launch with
  | none => .next s
  | some l =>
    match s.part? l.part with
    | none => .next s
    | some P =>
      if l.phase != .broadcast || !allReported s P l then .next s
      else
        match reportedByte l with
        | some byte => .next (((s.blocksOf launch).foldl (fun s b => s.dropBlock b) s).reject launch 0 byte)
        | none =>
          let s1 := s.modLaunch launch (fun l =>
            { l with phase := .stepping, sinceTick := s.tick, startTick := s.tick, since := [] })
          .next (s1.record launch 0 0xFF 0xFFFF)

/-- Groups of a launch. -/
def groupsOf (s : State) (lid : Nat) : List (Nat × Group) := s.groups.filter (fun e => e.2.launch == some lid)

/-- The horizon of a launch counts a group (R55). -/
def counted (g : Group) : Bool := !g.retired && !g.r.detached

/-- Nothing of a launch is left to do (R36, R224). -/
def allDone (s : State) (lid : Nat) (l : Launch) : Bool :=
  (groupsOf s lid).all (fun e => e.2.retired) && l.items.isEmpty &&
    s.dies.all (fun e => e.2.protos.all (fun q => q.launch != lid)) &&
    (s.blocksOf lid).all (fun b => ((tfind s.blocks b).map (fun x => x.entries.isEmpty)).getD true) &&
    s.ops.all (fun e => ((s.group? e.2.gid).map (fun g => g.launch != some lid)).getD true) && decide (l.final < l.c) &&
    l.applying.isEmpty && l.btst.isEmpty && l.moves.isEmpty && l.dueLogs.isEmpty && l.ferry.isEmpty

/-- LAUNCH_COMPLETE (R36). -/
def execLaunchComplete (launch : Nat) (s : State) : Out :=
  match s.launch? launch with
  | none => .next s
  | some l =>
    if l.phase == .stepping && allDone s launch l then
      let s1 := (s.blocksOf launch).foldl (fun s b => s.dropBlock b) s
      .next ((s1.modLaunch launch (fun l => { l with phase := .completed })).record launch 1 0xFF 0xFFFF)
    else .next s

/-! ## Spawned groups (R61 to R64) -/

/-- SPAWN_ITEM_ARRIVAL (R61, R406): a forwarded item reaches its coach house, or the staging area of a waystation beside it. -/
def execSpawnItemArrival (launch id : Nat) (s : State) : Out :=
  .next (s.modLaunch launch (fun l => { l with items := l.items.map (fun i => if i.id = id then { i with arrived := true } else i) }))

/-- Items in the order of R62: by entry address, then by parent WID. DESIGN CHOICE (entry 116): two of one entry and one parent stand in
the order of their issue. -/
def sortItems (is : List Item) : List Item := sortBy (fun (i : Item) => i.entry.toNat * 2 ^ 64 + i.parent.toNat) is

/-- Adds an item to the last group when it has room and the item's entry, and otherwise begins a group. -/
def packOne (gs : List (List Item)) (i : Item) : List (List Item) :=
  match gs.getLast? with
  | some g =>
    if (g.head?.map (fun j => j.entry == i.entry)).getD false && decide (g.length < 32) then gs.dropLast ++ [g ++ [i]]
    else gs ++ [[i]]
  | none => [[i]]

/-- Cuts sorted items into groups of 32 of one entry, with the remainder of each entry as a partial group (R62). -/
def packItems (is : List Item) : List (List Item) := is.foldl packOne []

/-- A die's coach house packs a launch's items of one step (R62, R406). -/
def packDie (s : State) (p lid step : Nat) : State :=
  match s.launch? lid with
  | none => s
  | some l =>
    let mine (i : Item) : Bool := i.die == p && i.step == step
    let protos := (packItems (sortItems (l.items.filter mine))).map (fun g =>
      { launch := lid, entry := (g.head?.map (fun i => i.entry)).getD 0, step := step + 1, args := g.map (fun i => i.arg),
        parents := g.map (fun i => i.parent), notices := [] : Proto })
    let s1 := s.modLaunch lid (fun l => { l with items := l.items.filter (fun i => !mine i) })
    if protos.isEmpty then s1 else s1.modDie p (fun d => { d with protos := d.protos ++ protos })

/-- Places one spawned group on a core, with the next value of the child counter (R63, R64). -/
def placeChild (s : State) (k lid : Nat) (l : Launch) (q : Proto) : State :=
  let h := l.header
  let gwid := h.child + BitVec.ofNat 64 (32 * l.children)
  let args : Table Lane := q.args.zipIdx.foldl (fun t e => tput 0 t e.2 e.1) []
  let s1 := s.modLaunch lid (fun l => { l with children := l.children + 1 })
  placeBlock s1 k lid h.bytes h.spill 1 h.tiles (fun bid _ ps =>
    newGroup s1 k bid lid l 0 q.args.length q.step q.entry gwid args h.bytes ps q.notices)

/-- The first waiting group of a die that stands first of its launch and finds a core (R63, R64). -/
def placeable (s : State) (p : Nat) : List Nat → List Proto → Option (Proto × Nat × Launch)
  | _, [] => none
  | seen, q :: qs =>
    let next := placeable s p (q.launch :: seen) qs
    if seen.contains q.launch then next
    else
      match s.launch? q.launch with
      | some l =>
        if l.phase != .stepping then next
        else
          match s.coreFor p (l.header.childNeed q.launch) with
          | some k => some (q, k, l)
          | none => next
      | none => next

/-- GROUP_PLACE (R63, R64): a coach house places a waiting group once a core has room. -/
def execGroupPlace (die : Nat) (s : State) : Out :=
  match placeable s die [] (s.die die).protos with
  | none => .next s
  | some (q, k, l) =>
    .next (placeChild (s.modDie die (fun d => { d with protos := d.protos.erase q })) k q.launch l q)

end Sys2Proof.Machine
end

