-- ==== Sys2Proof/Machine/Commit.lean ====
section
/-! DEFINITION. Steps and memory: the hold window (R239), arrival at a waystation (R77), commits (R72 to R75, R92 to R95, R98, R222 to
R224, R299, R311 to R318), their visibility (R57, R62, R74), local closes (R69, R70, R118, R119), and step overruns (R64, R78). -/

namespace Sys2Proof.Machine

/-! ## From the core to the waystation (R77, R239) -/

/-- Sets the stage of one write. -/
def setStage (s : State) (lid id : Nat) (f : Stage → Option Stage) : State :=
  s.modLaunch lid (fun l =>
    { l with gw := l.gw.map (fun w => if w.id = id then { w with stage := (f w.stage).getD w.stage } else w) })

/-- WRITE_HOLD_EXPIRY (R239): a held write leaves its core, or a crossing reaches the horizon, all those of one PASS together (R370). -/
def execWriteHoldExpiry (h : Held) (s : State) : Out :=
  match h with
  | .write lid id =>
    (match (s.launch? lid).bind (fun l => l.gw.find? (fun w => w.id == id)) with
    | none => .next s
    | some w =>
      .next (setStage s lid id (fun st =>
        match st with
        | .held c => if c + Config.hold ≤ s.cycle (coreDie w.core) then some .flight else none
        | _ => none)))
  | .crossing gid =>
    (match s.group? gid with
    | none => .next s
    | some g =>
      match g.heldX with
      | [] => .next s
      | (k, c) :: rest =>
        if c + Config.hold ≤ s.cycle (coreDie (s.blockOf g).core) then
          let more := rest.takeWhile (fun x => x.2 == c)
          .next (s.setGroup gid { g with heldX := rest.drop more.length, reported := (more.getLast?.getD (k, c)).1 + 1 })
        else .next s)

/-- WRITE_ARRIVAL (R77). -/
def execWriteArrival (launch id : Nat) (s : State) : Out :=
  .next (setStage s launch id (fun st => match st with | .flight => some .parked | _ => none))

/-! ## Memory written by commits (R81) -/

/-- The words that `n` bytes at a key touch. -/
def wordsAt (key n : Nat) : List Nat := (List.range ((key % 4 + n + 3) / 4)).map (fun i => key / 4 * 4 + 4 * i)

/-- Keeps a word whole, as commit `j` of a launch finds it, for reads of earlier steps (R81, R100). -/
def keepWord (lid j : Nat) (s : State) (w : Nat) : State :=
  s.modLaunch lid (fun l => { l with undo := (List.range 4).map (fun i => (j, w + i, rd8 s.mem (w + i))) ++ l.undo })

/-- Writes a list of bytes at a commit. -/
def putLU (s : State) (lid j key : Nat) (bs : List Byte) : State :=
  let s1 := (wordsAt key bs.length).foldl (keepWord lid j) s
  { s1 with mem := wrL s1.mem key bs }

/-- Writes `n` bytes of a number at a commit. -/
def putU (s : State) (lid j key n x : Nat) : State := putLU s lid j key (leBytes n x)

/-- The panel's own accesses to `n` bytes for a launch walk its tables, which sets A bits (R200). -/
def panelWalk (s : State) (l : Launch) (va : Word) (n : Nat) : State :=
  match s.part? l.part with
  | none => s
  | some P => s.walked P (some l.guest) va n

/-- The lines of 64 bytes that hold a list of keys: each is rebuilt once when its stack is lost (R207). -/
def linesOf (keys : List Nat) : List Nat := distinct (keys.map (fun k => k / 64 * 64))

/-- What the panel finds at a virtual address of a launch: the key, or the cause that R318 reports. -/
def panelKey (s : State) (l : Launch) (va : Word) (write : Bool) : Except (Nat × Word) Nat :=
  match s.part? l.part with
  | none => .error (0x13, 0)
  | some P =>
    if !canonical va then .error (0x13, 0)
    else
      match walk s.mem P [] (some l.guest) (pageOf va) with
      | .error _ => .error (0x13, 0)
      | .ok t =>
        if write && t.e.s then .error (0x12, Info.word { wr := true, stb := true, lvl := t.e.lvl })
        else if write && !t.e.w then .error (0x12, Info.word { wr := true, lvl := t.e.lvl })
        else if !t.res then .error (0x15, 0)
        else .ok (t.e.key + va.toNat % 65536)

/-! ## Collisions (R92 to R95, R299) -/

/-- %xinfo of a collision trap (R93); MORE is set when notices merge. -/
def collisionInfo (r : LogRec) (lost : Bool) : Word :=
  BitVec.ofNat 64 (r.hiWid.toNat % 2 ^ 20 * 2 ^ 44 + r.loWid.toNat % 2 ^ 20 * 2 ^ 24 + lost.toNat * 2 ^ 17 + min r.count 0xFFFF)

/-- Puts a collision notice among a group's: one for a step and kind, with the lowest address and MORE (R92). -/
def mergeNotice (n : Notice) : List Notice → List Notice
  | [] => [n]
  | m :: ms =>
    if m.cause = n.cause ∧ m.step = n.step ∧ m.kind = .deferred then
      (if n.addr.toNat < m.addr.toNat then { m with addr := n.addr, info := n.info ||| 0x10000 }
       else { m with info := m.info ||| 0x10000 }) :: ms
    else m :: mergeNotice n ms

/-- A group has been told of a collision of the commit that is being applied and has taken its trap, the one for all of them (R92). -/
def hasTaken (hits : List LogRec) (gid : Nat) (n : Notice) (g : Group) : Bool :=
  hits.any (fun h => h.grps.contains gid) && !g.notices.any (fun m => m.cause == n.cause && m.step == n.step && m.kind == .deferred)

/-- Sends a collision's notice to every group that took part and has not retired (R92, R299); `hits` are the collisions of its commit
before it. DESIGN CHOICE (entry 118): a notice that follows the trap for its step and kind is dropped. -/
def sendCollision (s : State) (hits : List LogRec) (r : LogRec) (lost : Bool) : State :=
  let n : Notice :=
    { kind := .deferred, cause := if r.loc then 0x21 else 0x20, step := some (BitVec.ofNat 64 r.step), addr := r.addr, prog := 0,
      info := collisionInfo r lost, mop := none }
  r.grps.foldl (fun s g =>
    s.modAnyGroup g (fun x => if x.retired || hasTaken hits g n x then x else { x with notices := mergeNotice n x.notices })) s

/-- A log entry (R95). -/
def logBytes (r : LogRec) : List Byte :=
  leBytes 8 r.addr.toNat ++ leBytes 8 r.step ++ leBytes 4 (min r.count 0xFFFFFFFF) ++
    [BitVec.ofNat 8 r.loc.toNat, BitVec.ofNat 8 (r.mixed.toNat + 2 * r.engine.toNat)] ++ leBytes 2 r.die.toNat ++
    leBytes 2 r.core.toNat ++ leBytes 6 0 ++ leBytes 8 r.loWid.toNat ++ leBytes 4 r.loOrd ++ leBytes 4 r.hiOrd ++
    leBytes 8 r.hiWid.toNat ++ leBytes 8 0

/-- Appends an entry to a launch's collision log at commit `j`; true when it was lost (R94). -/
def logAppend (s0 : State) (lid j : Nat) (l : Launch) (r : LogRec) : Bool × State :=
  let base := l.header.log
  if base = 0 then (false, s0)
  else
    let s := panelWalk s0 l base 16
    match panelKey s l base true with
    | .error _ => (true, s)
    | .ok k =>
      let n := rdN s.mem k 8
      let at_ := base + BitVec.ofNat 64 (64 * (n + 1))
      if n < rdN s.mem (k + 8) 8 then
        let s1 := panelWalk s l at_ 64
        match panelKey s1 l at_ true with
        | .error _ => (true, s1)
        | .ok e => (false, putLU (putU s1 lid j k 8 (n + 1)) lid j e (logBytes r))
      else (false, putU s lid j k 8 (n + 1))

/-- Logs a collision and sends its notices at once (R92, R94, R299). -/
def reportCollision (s : State) (lid j : Nat) (r : LogRec) : State :=
  match s.launch? lid with
  | none => s
  | some l =>
    let (lost, s1) := logAppend s lid j l r
    let s2 := sendCollision s1 (if r.loc then [] else l.hits) r lost
    if r.loc then s2 else s2.modLaunch lid (fun l => { l with hits := l.hits ++ [r] })

/-! ## Declaration (R72, R73) -/

/-- A tile handle of a matrix instruction reads global memory (R178). -/
def globalHandles (op : AsyncOp) : Bool :=
  (partsOf op).any (fun p => handleKind p.ha % 2 == 1 || handleKind p.hb % 2 == 1)

/-- An operation still has global reads or writes of its step to make (R72, R96). -/
def opHolds (op : AsyncOp) : Bool :=
  match op.kind with
  | .cpy dir _ _ => dirSrcGlob dir || dirDstGlob dir
  | .cpym dir _ _ _ => dirSrcGlob dir && op.args.isEmpty
  | .gth side _ _ => side == .g
  | .sct side _ => side == .g
  | .btst _ | .move _ => true
  | .mma _ _ | .mmq _ _ _ => op.st == .running && globalHandles op
  | _ => false

/-- The saved contexts of a launch: what dies that have saved it already hold (R234). -/
def savedParts (s : State) (lid : Nat) : List Saved :=
  s.parts.flatMap (fun e => e.2.saved.filter (fun v => v.launch == lid))

/-- The global reads of a launch that are tagged with a step have reached their waystations: each has been served, or waits there for
an earlier commit's writes to its word (R72, R76). -/
def readsArrived (s : State) (lid k : Nat) : Bool :=
  s.loads.all (fun e =>
    match s.group? e.2.gid with
    | some g =>
      g.launch != some lid || e.2.tag != k || e.2.src != .glob ||
        e.2.reads.all (fun r => r.val.isSome || (serveValue s e.2 g r 0).isNone)
    | none => true)

/-- The conditions of R72 for the next commit of a launch; once the horizon counts no group, only steps up to the final one
commit (R36). -/
def mayCommit (s : State) (lid : Nat) (l : Launch) : Bool :=
  let k := l.c
  let saved := savedParts s lid
  let gs := (groupsOf s lid ++ saved.flatMap (fun v => v.groups)).filter (fun e => counted e.2)
  let waits := s.dies.any (fun e => e.2.protos.any (fun q => q.launch == lid)) || saved.any (fun v => !v.protos.isEmpty)
  (l.phase == .stepping || l.phase == .preempting) && gs.all (fun e => decide (k < e.2.reported)) &&
    (!gs.isEmpty || waits || !l.items.isEmpty || decide (k ≤ l.final)) &&
    l.gw.all (fun w => w.step != k || w.stage == .parked) && readsArrived s lid k &&
    s.ops.all (fun e => e.2.gstep != k || !opHolds e.2 || ((s.group? e.2.gid).map (fun g => g.launch != some lid)).getD true) &&
    saved.all (fun v => v.ops.all (fun e => e.2.gstep != k || !opHolds e.2) && v.protos.all (fun q => q.2.step != k)) &&
    l.items.all (fun i => if i.step = k then i.arrived else decide (k < i.step)) &&
    s.dies.all (fun e => e.2.protos.all (fun q => q.launch != lid || q.step != k))

/-- COMMIT_DECLARE (R72, R73, R94): the launch's next step commits; it takes the local collisions so far. -/
def execCommitDeclare (launch : Nat) (s : State) : Out :=
  match s.launch? launch with
  | none => .next s
  | some l =>
    if mayCommit s launch l then
      let k := l.c
      let now := (l.gw.filter (fun w => w.step == k)).map (fun w => { w with cycle := s.tick })
      let due (m : Move) : Move :=
        if (m.phase = .copied ∨ m.phase = .stopped) ∧ m.due = none then { m with due := some k } else m
      .next (s.modLaunch launch (fun l =>
        { l with c := k + 1, gw := l.gw.filter (fun w => w.step != k), applying := l.applying ++ now, moves := l.moves.map due,
                 dueLogs := l.dueLogs ++ l.logs.map (fun r => (k, r)), logs := [], declared := tset l.declared k s.tick, since := [],
                 sinceTick := s.tick, mustCommit := false }))
    else .next s

/-! ## Phase 1: ordinary writes (R75, R222) -/

/-- The lower of a step and the lowest one so far. -/
def lower (acc : Option Nat) (k : Nat) : Option Nat := match acc with | none => some k | some a => some (min a k)

/-- The first commits of a launch after host writes that it holds back (R98). -/
def hostSteps (s : State) (lid : Nat) (l : Launch) : List Nat :=
  s.hostw.flatMap (fun h => (h.maps.filter (fun m => m.1 == lid && decide (m.2 < l.c))).map (fun m => m.2))

/-- The lowest step of a launch with declared work that waits to be applied. -/
def lowestStep (s : State) (lid : Nat) (l : Launch) : Option Nat :=
  (l.applying.map (fun w => w.step) ++
    (l.btst.filter (fun b => decide (b.step < l.c))).map (fun b => b.step) ++
    (l.moves.filter (fun m => m.phase == .issued && decide (m.step < l.c))).map (fun m => m.step) ++
    l.moves.filterMap (fun m => m.due) ++ l.dueLogs.map (fun d => d.1) ++ hostSteps s lid l).foldl lower none

/-- The record of a global collision. -/
def globalRec (u : Nat × Bool) (ws : List Write) (r : Resolved) (j : Nat) : LogRec := collisionRec u ws r j false 0xFFFF 0xFFFF

/-- Applies a unit's resolved writes at commit `j`. -/
def applyUnit (s : State) (lid j : Nat) (u : Nat × Bool) (ws : List Write) (order : Nat) : State :=
  let r := resolve (unitOld s.mem u) ws order s.free
  let s1 : State := { s with free := s.free + 2 }
  if r.hit then reportCollision s1 lid j (globalRec u ws r j)
  else { putU s1 lid j u.1 (unitBytes u) r.val.toNat with poison := unpoison s1.poison u ws }

/-- Applies the writes of step `j` that meet in the unit of a word; nothing when the word has none, or its hold has not passed
(R75, R239). -/
def applyWord (s : State) (lid j : Nat) (l : Launch) (word order : Nat) : State :=
  let ws := (l.applying.filter (fun w => w.step == j && w.stage != .applied)).map (fun w => w.w)
  let wd := wideKeys ws
  let u := unitAt wd (word / 4 * 4)
  let mine (w : GWrite) : Bool := w.step == j && w.stage != .applied && unitAt wd w.w.key == u
  let gws := l.applying.filter mine
  if gws.isEmpty || !gws.all (fun w => decide (w.cycle + Config.hold ≤ s.tick)) then s
  else
    let s1 := applyUnit s lid j u (inUnit ws u) order
    s1.modLaunch lid (fun l => { l with applying := l.applying.map (fun w => if mine w then { w with stage := .applied } else w) })

/-! ## Phase 2: BTST (R219, R220, R222, R223, R318) -/

/-- Sends a deferred trap of a BTST or a move to its group, with the rows that a copy has completed (R219, R223, R314, R318). DESIGN
CHOICE (entry 117): several of one group and step give one trap for each table entry. -/
def tellGroup (s : State) (g cause j : Nat) (addr : Word) (rows : Nat) (info : Word) : State :=
  s.notify g { kind := .deferred, cause := cause, step := some (BitVec.ofNat 64 j), addr := addr, prog := BitVec.ofNat 64 rows, info := info,
               mop := none }

/-- A directory entry as it stands. -/
structure DirEntry where
  key : Nat
  block : Word
  count : Nat
  tier : Nat
  cow : Bool
  index : Nat

/-- Reads the directory entry at a key (R220). -/
def dirAt (mem : Table Byte) (key : Nat) : DirEntry :=
  ⟨key, rd64 mem key, rdN mem (key + 8) 4, rdN mem (key + 12) 1 % 4, rdN mem (key + 12) 1 / 4 % 2 == 1, rdN mem (key + 13) 3⟩

/-- Why a table entry's rows are not applied: cause, address, %xinfo. -/
abbrev RowFault := Nat × Word × Word

/-- The key of an address, or the fault of R318. -/
def rowKey (s : State) (l : Launch) (va : Word) (write : Bool) : Except RowFault Nat :=
  match panelKey s l va write with
  | .ok k => .ok k
  | .error (c, i) => .error (c, va, i)

/-- The keys of `n` bytes from an address, page by page in words. -/
def spanKeys (s : State) (l : Launch) (va : Word) (write : Bool) : Nat → Except RowFault (List Nat)
  | 0 => .ok []
  | n + 1 =>
    match rowKey s l va write, spanKeys s l (va + 4) write n with
    | .ok k, .ok ks => .ok (k :: ks)
    | .error f, _ => .error f
    | _, .error f => .error f

/-- Poison travels with the words of a block that is copied (R242). -/
def copyPoison (marks : List Nat) (ks : List (Nat × Nat)) : List Nat :=
  ks.foldl (fun m e => if marks.contains e.1 then addTo e.2 m else m.filter (· != e.2)) marks

/-- Copy-on-write for one table entry (R222): the top spare takes a copy of the old block, with the tier that the entry has or, under a
move, had before it (R318), and the table entry names the spare. The answer is the directory entry that the rows then go through. -/
def copyOnWrite (lid j : Nat) (l : Launch) (te tk : Nat) (dirVa : Word) (d : DirEntry) (s : State) :
    Except RowFault (DirEntry × Word) × State :=
  let pool := dirVa - BitVec.ofNat 64 (64 + 16 * d.index)
  let s0 := panelWalk s l pool 24
  match rowKey s0 l pool true with
  | .error f => (.error f, s0)
  | .ok pk =>
    let n := rdN s0.mem (pk + 8) 4
    if n = 0 then (.error (0x3A, BitVec.ofNat 64 te, 0), s0)
    else
      let top := rd64 s0.mem pk + BitVec.ofNat 64 (4 * (n - 1))
      let s1 := panelWalk s0 l top 4
      match rowKey s1 l top false with
      | .error f => (.error f, s1)
      | .ok sk =>
        let va := pool + BitVec.ofNat 64 (64 + 16 * rdN s1.mem sk 4)
        let s2 := panelWalk s1 l va 16
        match rowKey s2 l va true with
        | .error f => (.error f, s2)
        | .ok nk =>
          let bytes := 16 * rdN s2.mem (pk + 20) 4
          let s3 := panelWalk (panelWalk s2 l d.block bytes) l (rd64 s2.mem nk) bytes
          match spanKeys s3 l d.block false (bytes / 4), spanKeys s3 l (rd64 s2.mem nk) true (bytes / 4) with
          | .error f, _ => (.error f, s3)
          | _, .error f => (.error f, s3)
          | .ok from_, .ok to_ =>
            let tier := if d.tier = 2 then tget 0 s.tiers d.key else d.tier
            let s4 := putU (s3.rebuilds (linesOf (pk :: sk :: nk :: from_))) lid j (pk + 8) 4 (n - 1)
            let s5 := (from_.zip to_).foldl (fun st e => putU st lid j e.2 4 (rdN s3.mem e.1 4)) s4
            let s6 := putU { s5 with poison := copyPoison s5.poison (from_.zip to_) } lid j (nk + 8) 4 1
            let s7 := putU s6 lid j (nk + 12) 1 (rdN s6.mem (nk + 12) 1 / 4 * 4 + tier)
            let s8 := putU s7 lid j tk 8 va.toNat
            let s9 := putU s8 lid j (d.key + 8) 4 (d.count - 1)
            (.ok (dirAt s9.mem nk, va), s9)

/-- What phase 2 has done so far: the state, the row writes, and what each unit held before them. -/
structure Rows where
  s : State
  ws : List Write
  olds : List ((Nat × Bool) × Word)

/-- The writes of a row, with the keys of its words (R318). -/
def rowWrites (b : Btst) (va : Word) (keys : List Nat) : List Write :=
  keys.zipIdx.map (fun e =>
    { key := e.1, va := va + BitVec.ofNat 64 (4 * e.2), wide := false, mask := 0x0F,
      val := BitVec.ofNat 64 (fieldN b.data (4 * e.2) 4), rule := b.rule, wid := b.wid, ord := b.ord + e.2, grp := b.grp, engine := true,
      seq := b.seq })

/-- The writes of all rows of a table entry, aimed at a block. -/
def entryWrites (s : State) (l : Launch) (block : Word) : List Btst → Except RowFault (List Write)
  | [] => .ok []
  | b :: bs =>
    let va := block + BitVec.ofNat 64 (b.row * b.data.length)
    match spanKeys s l va true (b.data.length / 4), entryWrites s l block bs with
    | .ok ks, .ok ws => .ok (rowWrites b va ks ++ ws)
    | .error f, _ => .error f
    | _, .error f => .error f

/-- Applies a unit of row writes: with the earlier rows of the step they resolve from what the unit held before them, and with an
ordinary write of the step they collide (R222). -/
def applyRowUnit (lid j order : Nat) (r : Rows) (u : Nat × Bool) : Rows :=
  let ws := inUnit r.ws u
  let old := ((r.olds.find? (fun e => e.1 == u)).map (fun e => e.2)).getD (unitOld r.s.mem u)
  let olds := if r.olds.any (fun e => e.1 == u) then r.olds else r.olds ++ [(u, old)]
  match r.s.launch? lid with
  | none => r
  | some l =>
    let first := (l.applying.filter (fun w => w.step == j && w.stage == .applied && decide (w.w.key < u.1 + 4) &&
      decide (u.1 < w.w.key + if w.w.wide then 8 else 4))).map (fun w => w.w)
    if first.isEmpty then
      let x := resolve old ws (order + Config.freeNat r.s.free) (r.s.free + 1)
      let s1 : State := { r.s with free := r.s.free + 3 }
      let s2 := if x.hit then reportCollision (putU s1 lid j u.1 4 old.toNat) lid j (globalRec u ws x j)
        else { putU s1 lid j u.1 4 x.val.toNat with poison := unpoison s1.poison u ws }
      { r with s := s2, olds := olds }
    else
      let before := asOf l r.s.mem j u.1 4
      let s1 := putU r.s lid j u.1 4 before
      { r with s := reportCollision s1 lid j (globalRec u (ws ++ first) ⟨0, true, true⟩ j), olds := olds }

/-- Rows that a BTST changed in a block whose entry moves, whatever launch moves it, are copied again before the switch (R224). -/
def redoRows (s : State) (dk : Nat) (rows : List Nat) : State :=
  { s with launches := s.launches.map (fun e =>
      (e.1, { e.2 with moves := e.2.moves.map (fun m =>
        if (m.phase = .copying ∨ m.phase = .copied) ∧ rowKey s e.2 m.dir false = .ok dk then
          { m with phase := .copying, due := none, redo := distinct (m.redo ++ rows) }
        else m) })) }

/-- A table entry's rows at a commit (R219, R222, R223, R318): all of them, or none with a deferred trap in each group. -/
def applyEntry (lid j order : Nat) (r : Rows) (bs : List Btst) : Rows :=
  match bs.head?, r.s.launch? lid with
  | some b, some l =>
    let fail (s : State) (f : RowFault) : Rows :=
      { r with s := (distinct (bs.map (fun x => x.grp))).foldl (fun s g => tellGroup s g f.1 j f.2.1 0 f.2.2) s }
    let s0 := panelWalk r.s l b.entry 16
    match rowKey s0 l b.entry false with
    | .error f => fail s0 f
    | .ok tk =>
      if rdN s0.mem (tk + 8) 1 % 2 = 0 then fail s0 (0x38, b.entry, 0)
      else
        let dirVa := rd64 s0.mem tk
        let s1 := panelWalk s0 l dirVa 16
        match rowKey s1 l dirVa false with
        | .error f => fail s1 f
        | .ok dk =>
          let d := dirAt s1.mem dk
          let s2 := s1.rebuilds (linesOf [tk, dk])
          match (if d.cow && decide (1 < d.count) then copyOnWrite lid j l b.entry.toNat tk dirVa d s2 else (.ok (d, dirVa), s2)) with
          | (.error f, s3) => fail s3 f
          | (.ok (d1, _), s3) =>
            let s4 := bs.foldl (fun s b => panelWalk s l (d1.block + BitVec.ofNat 64 (b.row * b.data.length)) b.data.length) s3
            match entryWrites s4 l d1.block bs with
            | .error f => fail s4 f
            | .ok ws =>
              let r1 : Rows := { r with s := s4, ws := r.ws ++ ws }
              let r2 := (unitsOf ws).foldl (applyRowUnit lid j order) r1
              { r2 with s := if d1.tier = 2 then redoRows r2.s d1.key (bs.map (fun x => x.row)) else r2.s }
  | _, _ => r

/-- Phase 2 of commit `j` (R222): table entries in ascending order of address, and rows of one entry in writer-identity order. -/
def applyBtst (s : State) (lid j : Nat) (l : Launch) (order : Nat) : State :=
  let mine := sortBy (fun (b : Btst) => b.wid.toNat * 2 ^ 64 + b.ord) (l.btst.filter (fun b => b.step == j))
  let entries := distinct (mine.map (fun b => b.entry.toNat))
  let r := (entries.map (fun e => mine.filter (fun b => b.entry.toNat == e))).foldl (applyEntry lid j order) ⟨s, [], []⟩
  r.s.modLaunch lid (fun l => { l with btst := l.btst.filter (fun b => b.step != j) })

/-! ## Phase 3: tier moves (R224, R314, R315) -/

/-- A move's write of one word of a directory entry: it collides with an ordinary write of the step (R315). -/
def moveWord (s : State) (lid j : Nat) (m : Move) (key : Nat) (va : Word) (x : Nat) : State :=
  match s.launch? lid with
  | none => s
  | some l =>
    let first := (l.applying.filter (fun w => w.step == j && w.stage == .applied && decide (w.w.key < key + 4) &&
      decide (key < w.w.key + if w.w.wide then 8 else 4))).map (fun w => w.w)
    if first.isEmpty then putU s lid j key 4 x
    else
      let mine : Write :=
        { key := key, va := va, wide := false, mask := 0x0F, val := BitVec.ofNat 64 x, rule := .lo, wid := m.wid, ord := 1, grp := m.grp,
          engine := true, seq := m.seq }
      reportCollision (putU s lid j key 4 (asOf l s.mem j key 4)) lid j (globalRec (key, false) (mine :: first) ⟨0, true, true⟩ j)

/-- The word of a directory entry that holds its tier, with another tier. -/
def tierWord (mem : Table Byte) (key tier : Nat) : Nat := rdN mem (key + 12) 4 / 4 * 4 + tier

/-- Takes a move off the launch. -/
def dropMove (s : State) (lid : Nat) (m : Move) : State :=
  s.modLaunch lid (fun l => { l with moves := l.moves.filter (fun x => x.op != m.op) })

/-- Puts a changed move back. -/
def putMove (s : State) (lid : Nat) (m : Move) : State :=
  s.modLaunch lid (fun l => { l with moves := l.moves.map (fun x => if x.op = m.op then m else x) })

/-- Phase 3 for a move issued in step `j` (R314): accepted, with the tier set to 2, or abandoned. A terminated launch's copy does not
run (R224). -/
def startMove (lid j : Nat) (s : State) (m : Move) : State :=
  match s.launch? lid with
  | none => s
  | some l =>
    let refuse (s : State) (cause : Nat) (addr info : Word) : State := tellGroup (dropMove s lid m) m.grp cause j addr 0 info
    let s := panelWalk s l m.dir 16
    match panelKey s l m.dir true with
    | .error (c, i) => refuse s c m.dir i
    | .ok k =>
      let d := dirAt s.mem k
      let first := l.moves.all (fun x => !(x.dir == m.dir && x.step == j &&
        decide (x.wid.toNat * 2 ^ 64 + x.seq < m.wid.toNat * 2 ^ 64 + m.seq)))
      if d.tier = (if m.demote then 0 else 1) ∧ first then
        let s1 := putU { s.rebuilds [k] with tiers := tset s.tiers k d.tier } lid j (k + 12) 1 (rdN s.mem (k + 12) 1 / 4 * 4 + 2)
        if l.phase = .terminated then dropMove s1 lid m else putMove s1 lid { m with phase := .copying, tier := d.tier }
      else refuse s 0x38 m.dir 0x100

/-- Phase 3 for a move whose copy has ended (R224, R314): the switch, or the old tier again. -/
def endMove (lid j : Nat) (s : State) (m : Move) : State :=
  match s.launch? lid with
  | none => s
  | some l =>
    let s := panelWalk s l m.dir 16
    match panelKey s l m.dir true with
    | .error (c, i) => tellGroup (dropMove s lid m) m.grp c j m.dir 0 i
    | .ok k =>
      let s := { s with tiers := tdel s.tiers k }
      if m.phase = .copied then
        let s1 := moveWord s lid j m k m.dir (m.dest.toNat % 2 ^ 32)
        let s2 := moveWord s1 lid j m (k + 4) (m.dir + 4) (m.dest.toNat / 2 ^ 32)
        dropMove (moveWord s2 lid j m (k + 12) (m.dir + 12) (tierWord s2.mem k (if m.demote then 1 else 0))) lid m
      else dropMove (moveWord s lid j m (k + 12) (m.dir + 12) (tierWord s.mem k m.tier)) lid m

/-- Phase 3 of commit `j` (R222). -/
def applyMoves (s : State) (lid j : Nat) (l : Launch) : State :=
  let byId (ms : List Move) : List Move := sortBy (fun (m : Move) => m.wid.toNat * 2 ^ 64 + m.seq) ms
  let s1 := (byId (l.moves.filter (fun m => m.due == some j))).foldl (endMove lid j) s
  -- Refused moves stay until all of the step are judged, so that a lower identity is still found.
  let issued := byId (l.moves.filter (fun m => m.phase == .issued && m.step == j))
  (issued.reverse).foldl (startMove lid j) s1

/-- The placement of a key: stacked (interleaved or pinned), cold, or neither (R206, R314). -/
def stacked (key : Nat) : Bool := decide (key < 2 * 2 ^ 64)
def coldKey (key : Nat) : Bool := decide (2 * 2 ^ 64 ≤ key) && decide (key < 3 * 2 ^ 64)

/-- Why a move's copy does not go on: a fault of R126 or R314, or an address outside the partition (R244). -/
inductive CopyHalt where
  | stop (f : RowFault)
  | freeze (addr : Word) (write : Bool)

/-- The key of a word that a move's copy reads or writes, with the checks of an engine access (R126, R314). -/
def copyKey (s : State) (l : Launch) (m : Move) (va : Word) (write : Bool) : Except CopyHalt Nat × State :=
  let bad (c : Nat) (i : Info) : CopyHalt := .stop (c, va, Info.word { i with eng := true })
  match s.check m.core (some l.guest) va { size := 4, write := write, sys := m.sys, eng := true } with
  | (.bad c i, s1) => (.error (bad c i), s1)
  | (.missing _, s1) => (.error (bad 0x15 { wr := write }), s1)
  | (.good key _, s1) => if outside (s1.partAt m.core) key then (.error (.freeze va write), s1) else (.ok key, s1)

/-- One word of a move's copy, or what stops it (R314). -/
def copyWord (l : Launch) (m : Move) (now : Bool) (s : State) (src dst : Word) : Except CopyHalt Unit × State :=
  match copyKey s l m src false with
  | (.error f, s1) => (.error f, s1)
  | (.ok a, s1) =>
    match copyKey s1 l m dst true with
    | (.error f, s2) => (.error f, s2)
    | (.ok b, s2) =>
      if !(if m.demote then coldKey b else stacked b) then (.error (.stop (0x38, dst, 8)), s2)
      else if s2.poisoned a 4 then (.error (.stop (0x14, src, Info.word { eng := true })), s2)
      else
        (.ok (), { s2.rebuilds [a] with
                   mem := wrN s2.mem b 4 (if now then rdN s2.mem a 4 else asOf l s2.mem m.step a 4),
                   poison := s2.poison.filter (· != b) })

/-- Words of a copy in turn: the state so far, the words copied and what stopped it. -/
def copyWords (l : Launch) (m : Move) (now : Bool) (old : Word) : List Nat → Nat → State → State × Nat × Option CopyHalt
  | [], n, s => (s, n, none)
  | o :: os, n, s =>
    match copyWord l m now s (old + BitVec.ofNat 64 o) (m.dest + BitVec.ofNat 64 o) with
    | (.error f, s1) => (s1, n, some f)
    | (.ok _, s1) => copyWords l m now old os (n + 1) s1

/-- The copy of a move (R224, R314): the whole block as the issue step's reads see it, then the rows that BTSTs changed since. The
answer has the rows completed and what stopped it. -/
def runCopy (s : State) (l : Launch) (m : Move) : State × Nat × Option CopyHalt :=
  match copyKey s l m m.dir false with
  | (.error f, s1) => (s1, 0, some f)
  | (.ok k, s1) =>
    let d := dirAt s1.mem k
    match copyKey s1 l m (m.dir - BitVec.ofNat 64 (64 + 16 * d.index)) false with
    | (.error f, s2) => (s2, 0, some f)
    | (.ok pk, s2) =>
      let row := rdN s2.mem (pk + 20) 4
      let all := if m.whole then [] else (List.range (16 * row / 4)).map (fun i => 4 * i)
      let again := m.redo.flatMap (fun r => (List.range (row / 4)).map (fun i => r * row + 4 * i))
      match copyWords l m false d.block all 0 s2 with
      | (s3, n, some f) => (s3, 4 * n / row, some f)
      | (s3, _, none) =>
        match copyWords l m true d.block again 0 s3 with
        | (s4, n, f) => (s4, 4 * n / row, f)

/-- TIER_COPY_COMPLETE (R224, R314): the engine's copy ends, once a copy engine of its die is free (R18); the switch, or the old tier,
follows at the next commit. -/
def execTierCopyComplete (op : Nat) (s : State) : Out :=
  match firstSome (fun (e : Nat × Launch) =>
      (e.2.moves.find? (fun m => m.op == op && m.phase == .copying)).map (fun m => (e.1, e.2, m))) s.launches with
  | none => .next s
  | some (lid, l, m) =>
    if (freeEngines s (coreDie m.core)).isEmpty then .next s
    else
      match runCopy s l m with
      | (s1, _, none) => .next (putMove s1 lid { m with phase := .copied, whole := true, redo := [] })
      | (s1, n, some (.stop (c, a, i))) => .next (tellGroup (putMove s1 lid { m with phase := .stopped }) m.grp c m.step a n i)
      | (s1, n, some (.freeze a w)) =>
        .next (freezeEngine (putMove s1 lid { m with phase := .frozen a w n }) (coreDie m.core) m.op true (.move m.op) a)

/-! ## Phase 4: host writes (R98) -/

/-- Applies a held host write. -/
def landHost (s : State) (h : HostW) : State :=
  { s with
    mem := wrL s.mem h.key h.data
    hostw := s.hostw.erase h
    poison := s.poison.filter (fun w => !(decide (h.key ≤ w) && decide (w + 4 ≤ h.key + h.data.length))) }

/-- The host writes that arrived before commit `j` of a launch that maps their page are applied with it, in the order of arrival. -/
def applyHost (s : State) (lid j : Nat) : State :=
  (s.hostw.filter (fun h => h.maps.any (fun m => m.1 == lid && decide (m.2 ≤ j)))).foldl landHost s

/-- A host write that no launch holds back any more is applied. -/
def applyOrphan (s : State) : State :=
  match s.hostw.find? (fun h => h.maps.all (fun m => !((s.launch? m.1).map Launch.holds).getD false)) with
  | none => s
  | some h => landHost s h

/-- The local collisions that commit `j` reports, with their entries (R94). -/
def applyLogs (s : State) (lid j : Nat) (l : Launch) : State :=
  let s1 := s.modLaunch lid (fun l => { l with dueLogs := l.dueLogs.filter (fun d => d.1 != j) })
  (l.dueLogs.filter (fun d => d.1 == j)).foldl (fun s d => reportCollision s lid j d.2) s1

/-- Phases 2 to 4 of commit `j`, with its local collisions (R94, R222); nothing before its hold has passed (R239). -/
def applyRest (s : State) (lid j : Nat) (l : Launch) (order : Nat) : State :=
  if s.tick < tget 0 l.declared j + Config.hold then s
  else
    let s1 := applyLogs (applyMoves (applyBtst s lid j l order) lid j l) lid j l
    (applyHost s1 lid j).modLaunch lid (fun l =>
      { l with applying := l.applying.filter (fun w => decide (j < w.step)), hits := [],
               declared := l.declared.filter (fun e => decide (j < e.1)) })

/-- COMMIT_APPLY (R75, R222): the waystations apply one piece of a launch's lowest declared step: a word of phase 1, in any order,
then the other phases. -/
def execCommitApply (launch word order : Nat) (s : State) : Out :=
  match s.launch? launch with
  | none => .next s
  | some l =>
    match lowestStep s launch l with
    | none => .next (applyOrphan s)
    | some j =>
      if l.applying.any (fun w => w.step == j && w.stage != .applied) then .next (applyWord s launch j l word order)
      else .next (applyRest s launch j l order)

/-! ## Visibility (R57, R62, R74) -/

/-- COMMIT_VISIBLE (R74): the next declared commit is seen at a place; a coach house then packs its items (R62). -/
def execCommitVisible (launch : Nat) (place : Place) (s : State) : Out :=
  match s.launch? launch with
  | none => .next s
  | some l =>
    let j := tget 0 l.seen (placeNo place)
    if l.c ≤ j then .next s
    else
      let s1 := s.modLaunch launch (fun l => { l with seen := tset l.seen (placeNo place) (j + 1) })
      match place with
      | .die p => .next (packDie s1 p launch j)
      | _ => .next s1

/-! ## Local closes (R69, R70, R118, R119) -/

/-- The entry of an operation, once it retires at a close of step `j` or did before. -/
def retiresBy (b : Block) (j o : Nat) : Bool :=
  match b.entries.find? (fun e => e.op == o) with
  | none => true
  | some e => (e.ret.map (fun r => decide (r ≤ j))).getD false

/-- A pending write lands at the close of step `j` (R70, R114, R116). -/
def lands (b : Block) (j : Nat) (w : LWrite) : Bool :=
  if w.ofOp then w.by_.all (retiresBy b j) else decide (w.step ≤ j) && w.by_.all (retiresBy b j)

/-- All the ranges of an entry. -/
def Entry.ranges (e : Entry) : List (Nat × Nat) := e.reads ++ e.write.toList

def Entry.meets (e f : Entry) : Bool := e.ranges.any (fun r => f.ranges.any (overlaps r))

/-- The layers of the operations that retire at a close, in issue order (R118). -/
def opLayers : List Entry → List (Entry × Nat) → List (Entry × Nat)
  | [], acc => acc
  | e :: es, acc =>
    let below := (acc.filter (fun f => e.meets f.1)).map (fun f => f.2 + 1)
    opLayers es (acc ++ [(e, below.foldl max 0)])

/-- The layer of a write at a close (R118). -/
def layerOf (ls : List (Entry × Nat)) (w : LWrite) : Nat :=
  let of_ := ls.filter (fun e => w.by_.contains e.1.op)
  if w.ofOp then (of_.map (fun e => e.2)).foldl max 0 else (of_.map (fun e => e.2 + 1)).foldl max 0

/-- What a close has done so far. -/
structure Closed where
  mem : Table Byte
  poison : List Nat
  hits : List LogRec
  free : Nat

/-- Resolves one unit of a layer (R118). -/
def closeUnit (j order : Nat) (die core : BitVec 16) (ws : List Write) (c : Closed) (u : Nat × Bool) : Closed :=
  let us := inUnit ws u
  let r := resolve (unitOld c.mem u) us (order + Config.freeNat c.free) (c.free + 1)
  if r.hit then { c with hits := c.hits ++ [collisionRec u us r j true die core], free := c.free + 3 }
  else { c with mem := unitPut c.mem u r.val, poison := unpoison c.poison u us, free := c.free + 3 }

/-- Applies the layers of a close in ascending order. -/
def closeLayers (j order : Nat) (die core : BitVec 16) (b : Block) (ws : List (LWrite × Nat)) (free : Nat) : Closed :=
  (distinct (ws.map (fun w => w.2))).foldl (fun c n =>
    let l := (ws.filter (fun w => w.2 == n)).map (fun w => w.1.w)
    (unitsOf l).foldl (closeUnit j order die core l) c) ⟨b.mem, b.poison, [], free⟩

/-- Something still takes part in a block's lowest open step: a group, or an operation that retires in it. A block whose groups have
retired closes the step in which the last one did, and then no step without such an operation (R69). -/
def stepInUse (s : State) (b : Block) : Bool :=
  (s.groupsIn b).any (fun e => !e.2.retired || decide (b.closed ≤ e.2.r.lstep)) ||
    b.entries.any (fun e => (e.ret.map (fun r => decide (r ≤ b.closed))).getD false)

/-- The conditions of R69 for the close of a block's lowest open step. -/
def mayClose (s : State) (b : Block) : Bool :=
  let j := b.closed
  !b.moving && stepInUse s b && (s.groupsIn b).all (fun e => e.2.retired || decide (j < e.2.r.lstep)) &&
    ((tfind b.crossT j).map (fun t => decide (t + Config.hold ≤ s.cycle (coreDie b.core)))).getD true

/-- A local collision's entry and notice (R94): at the next commit, or at the close when the launch keeps no log or has no group
that its horizon counts. -/
def localCollision (lid : Option Nat) (s : State) (r : LogRec) : State :=
  match lid, lid.bind s.launch? with
  | some i, some l =>
    if l.header.log = 0 then sendCollision s [] r false
    else if (groupsOf s i).any (fun e => counted e.2) then s.modLaunch i (fun l => { l with logs := l.logs ++ [r] })
    else reportCollision s i (l.c - 1) r
  | _, _ => sendCollision s [] r false

/-- At a close on core 0 of a die the dispatcher moves with it when the core is being retired (R304). -/
def moveDispatcher (s : State) (k : Nat) : State :=
  if coreIdx k = 0 ∧ (s.core k).retiring = true then s.modBlock (coreDie k) (fun b => if b.moved then b else { b with moving := true }) else s

/-- LOCAL_CLOSE (R69, R70, R118): the block's lowest open local step closes. -/
def execLocalClose (block order : Nat) (s : State) : Out :=
  match s.block? block with
  | none => .next s
  | some b =>
    if !mayClose s b then .next s
    else
      let j := b.closed
      let gone := b.entries.filter (fun e => (e.ret.map (fun r => decide (r ≤ j))).getD false)
      let ls := opLayers (sortBy (fun (e : Entry) => e.seq) gone) []
      let due := (b.pend.filter (lands b j)).map (fun w => (w, layerOf ls w))
      let p := coreDie b.core
      let c := closeLayers j order (BitVec.ofNat 16 (s.logDie (s.partAt b.core) p)) (BitVec.ofNat 16 (coreIdx b.core)) b due s.free
      let b1 : Block :=
        { b with
          mem := c.mem, poison := c.poison, closed := j + 1, pend := b.pend.filter (fun w => !lands b j w),
          entries := b.entries.filter (fun e => !gone.contains e),
          windows := b.windows.filter (fun w => !gone.any (fun e => e.op == w.op)),
          crossT := b.crossT.filter (fun e => decide (j < e.1))
          moving := b.moving || ((s.core b.core).retiring && !b.moved) }
      let s1 := moveDispatcher (({ s with free := c.free }.setBlock block b1).settle block gone) b.core
      .next ((c.hits.foldl (localCollision b.launch) s1).tryFree block)

/-! ## Step overruns (R64, R78) -/

/-- The cycle that a die had reached at a tick since its clock was last capped. -/
def cycleAt (s : State) (p t : Nat) : Nat := (s.die p).cycle0 + (t - (s.die p).tick0) * (s.die p).cap / 24

/-- The cycle from which the step limit counts on a die (R78). -/
def sinceOf (s : State) (l : Launch) (p : Nat) : Nat :=
  ((l.since.find? (fun e => e.1 == p)).map (fun e => e.2)).getD (cycleAt s p l.sinceTick)

/-- The limit has passed on a die. -/
def expired (s : State) (l : Launch) (p : Nat) : Bool := decide (sinceOf s l p + l.header.limit ≤ s.cycle p)

/-- A step-overrun trap (R78): a group that has one pending for the step gains no second. -/
def addOverrun (k : Nat) (ns : List Notice) : List Notice :=
  let n : Notice := { kind := .overrun, cause := 0x50, step := some (BitVec.ofNat 64 k), addr := 0, prog := 0, info := 0, mop := none }
  if ns.any (fun m => m.kind == .overrun && m.step == n.step) then ns else ns ++ [n]

/-- Groups in which an overrun of step `k` is raised, on dies where the limit has passed (R64, R78). -/
def overrunGroups (s : State) (lid : Nat) (l : Launch) (k : Nat) (coach : Bool) : List Nat :=
  ((groupsOf s lid).filter (fun e => counted e.2 && (coach || decide (e.2.r.gstep ≤ k)) &&
    expired s l (coreDie (s.blockOf e.2).core))).map (fun e => e.1)

/-- STEP_OVERRUN (R78): the limit has passed on some die for the step that the launch has not committed. -/
def execStepOverrun (launch : Nat) (s : State) : Out :=
  match s.launch? launch with
  | none => .next s
  | some l =>
    let k := l.c
    let coach := s.dies.any (fun e => e.2.protos.any (fun q => q.launch == launch && q.step == k))
    let gs := overrunGroups s launch l k coach
    let waiting := (s.dies.filter (fun e => e.2.protos.any (fun q => q.launch == launch && q.step == k) && expired s l e.1)).map
      (fun e => e.1)
    if l.phase != .stepping || (gs.isEmpty && waiting.isEmpty) then .next s
    else
      let dies := distinct (waiting ++ gs.filterMap (fun g => (s.group? g).map (fun x => coreDie (s.blockOf x).core)))
      let s1 := gs.foldl (fun s g => s.modGroup g (fun x => { x with notices := addOverrun k x.notices })) s
      let s2 : State :=
        { s1 with dies := s1.dies.map (fun e =>
            (e.1, { e.2 with protos := e.2.protos.map (fun q =>
              if q.launch = launch ∧ q.step = k then { q with notices := addOverrun k q.notices } else q) })) }
      .next (s2.modLaunch launch (fun l =>
        { l with mustCommit := false,
                 since := dies.map (fun p => (p, s.cycle p)) ++ l.since.filter (fun e => !dies.contains e.1) }))

end Sys2Proof.Machine
end

