-- ==== Sys2Proof/Machine/Host.lean ====
section
/-! DEFINITION. What reaches device memory and the dies from outside the groups: mailbox items (R358 to R362), shoot-downs (R216, R414,
R415), host reads and writes (R98, R102, R244, R250, R437), ferry rows (R128, R268), poison (R242), and power gating (R216). -/

namespace Sys2Proof.Machine

/-! ## Mailboxes (R359 to R361) -/

/-- The channel of a request: 0 the die mailbox, 1 the in-ring. -/
def waitChan (s : State) (w : MboxWait) : Option Nat :=
  (tfind s.loads w.load).bind (fun op => match op.src with | .mailbox c => some c | _ => none)

/-- The 64 bytes of an item (R360). -/
def itemBytes (s : State) (m : MboxItem) : List Byte :=
  let l := s.launch? m.launch
  let ident := (l.map (fun l => l.ident.toNat)).getD 0
  let b12 := if m.kind = 0 then (l.map (fun l => l.guest)).getD 0 else m.res
  leBytes 8 m.data.toNat ++ leBytes 4 ident ++ [BitVec.ofNat 8 b12, 0, 0, BitVec.ofNat 8 m.kind] ++ leBytes 48 0

/-- Gives a request's load the eight doublewords of an item, lane `j` the `j`-th. -/
def fillItem (bs : List Byte) (op : LoadOp) : LoadOp :=
  { op with reads := op.reads.map (fun r => { r with val := some (BitVec.ofNat 64 (fieldN bs (8 * r.lane) 8)) }) }

/-- Serves a request of a die. -/
def serveWait (s : State) (p : Nat) (w : MboxWait) (chan : Nat) (bs : List Byte) : State :=
  let seq := ((tfind s.loads w.load).map (fun op => op.seq)).getD 0
  { s with loads := tmod s.loads w.load (fillItem bs) }.modDie p (fun d =>
    { d with waits := d.waits.erase w, taken := ⟨seq, w.group, chan, bs⟩ :: d.taken })

/-- A group will not take a returned item again: it has retired, or stands neither on the panel nor in a saved context. -/
def lapsed (s : State) (gid : Nat) : Bool :=
  match s.group? gid with
  | some g => g.retired
  | none => !s.parts.any (fun e => e.2.saved.any (fun v => (tfind v.groups gid).isSome))

/-- The returned item that a group's request on a channel receives first (R362). -/
def keptFor (s : State) (p gid chan : Nat) : Option Taken :=
  (s.die p).kept.find? (fun t => t.chan == chan && (t.group == gid || lapsed s t.group))

/-- The in-ring's next record, at its consumer index, with the state once that has advanced (R361). -/
def ringTake (s : State) (p : Nat) : Option (List Byte × State) :=
  let P := s.partAt (coreKey p 0)
  let s0 := s.walked P none P.dbin 32
  match s.readVa P none P.dbin 32 with
  | none => none
  | some h =>
    let prod := fieldN h 0 8
    let cons := fieldN h 8 8
    let cap := fieldN h 16 8
    if prod = cons ∨ cap = 0 then none
    else
      let at_ := P.dbin + 64 + BitVec.ofNat 64 (64 * (cons % cap))
      match s.readVa P none at_ 64 with
      | none => none
      | some bs => some (bs, (s0.walked P none at_ 64).writeVa P none (P.dbin + 8) (leBytes 8 (cons + 1)))

/-- Serves one request, if an item stands ready for it: one that a rollback returned to its group, else, in the die's issue order, the
next of its channel (R359, R362). -/
def tryServe (s : State) (p : Nat) (w : MboxWait) : Option State :=
  let d := s.die p
  match waitChan s w with
  | none => none
  | some chan =>
    let first (g : Nat) : Option MboxWait := d.waits.find? (fun v => waitChan s v == some chan && v.group == g)
    match (if first w.group == some w then keptFor s p w.group chan else none) with
    | some t => some ((serveWait s p w chan t.bs).modDie p (fun d => { d with kept := d.kept.erase t }))
    | none =>
      if d.waits.find? (fun v => waitChan s v == some chan) != some w then none
      else if chan = 0 then
        match d.mbox with
        | [] => none
        | m :: rest => some ((serveWait s p w 0 (itemBytes s m)).modDie p (fun d => Die.letIn { d with mbox := rest }))
      else (ringTake s p).map (fun r => serveWait r.2 p w chan r.1)

/-- MAILBOX_DELIVER (R359, R361): the first request of a group for which an item stands ready receives it. -/
def execMailboxDeliver (group : Nat) (s : State) : Out :=
  match s.group? group with
  | none => .next s
  | some g =>
    let p := coreDie (s.blockOf g).core
    .next ((firstSome (tryServe s p) ((s.die p).waits.filter (fun w => w.group == group))).getD s)

/-! ## Shoot-downs (R216, R414 to R416) -/

/-- The context that a TLBINV names: a guest, or the host's own tag. -/
def TlbInv.tag (t : TlbInv) : Option Nat := if t.host then none else some t.gctx

/-- A core or die TLB entry that a TLBINV covers (R414). -/
def TlbInv.covers (t : TlbInv) (e : TlbEntry) : Bool :=
  let page := t.va.toNat % 2 ^ 55 / 65536
  match t.scope with
  | .va => e.tag == t.tag && decide (page ≤ e.page) && decide (e.page < page + t.pages)
  | .ctx | .gpa => e.tag == t.tag
  | .all => true

/-- A nested TLB entry that a TLBINV covers (R414). -/
def TlbInv.coversNested (t : TlbInv) (e : TlbEntry) : Bool :=
  let page := t.va.toNat / 65536
  match t.scope with
  | .va | .ctx => false
  | .gpa => e.tag == t.tag && decide (page ≤ e.page) && decide (e.page < page + t.pages)
  | .all => true

/-- A launch whose accesses a TLBINV may cover. -/
def TlbInv.hits (t : TlbInv) (l : Launch) : Bool :=
  match t.scope with
  | .all => true
  | _ => t.tag == some l.guest

/-- A page that a TLBINV names. -/
def TlbInv.onPage (t : TlbInv) (page : Nat) : Bool :=
  let first := t.va.toNat % 2 ^ 55 / 65536
  t.scope != .va || (decide (first ≤ page) && decide (page < first + t.pages))

/-- A write translated under a covered entry is on its way to its waystation (R216). -/
def TlbInv.inFlight (t : TlbInv) (l : Launch) : Bool :=
  t.hits l && l.gw.any (fun w => w.stage != .parked && t.onPage (pageOf w.w.va))

/-- A load translated under a covered entry has a read that has not reached its waystation: it waits there for no earlier commit (R76,
R216). -/
def TlbInv.reading (t : TlbInv) (s : State) (part : Option Nat) (op : LoadOp) : Bool :=
  match s.group? op.gid with
  | none => false
  | some g =>
    op.src == .glob && s.partOfDie (coreDie (s.blockOf g).core) == part && (t.scope == .all || s.tagOf g == t.tag) &&
      op.reads.any (fun r => r.val.isNone && t.onPage (pageOf r.va) && (serveValue s op g r 0).isSome)

/-- A launch that is stepping (R33). -/
def Launch.steps (l : Launch) : Bool := l.phase == .stepping || l.phase == .preempting || l.phase == .restoring

/-- TLBINV_BEGIN (R415): the commit before the issuing step has been applied everywhere, or the group belongs to no stepping
launch. -/
def execTlbinvBegin (group : Nat) (s : State) : Out :=
  match s.group? group with
  | none => .next s
  | some g =>
    match g.tlbi with
    | none => .next s
    | some t =>
      let free : Bool := match g.launch.bind (fun i => (s.launch? i).map (fun l => (i, l))) with
        | some (i, l) => !l.steps || (decide (t.step ≤ l.c) && ((lowestStep s i l).map (fun j => decide (t.step ≤ j))).getD true)
        | none => true
      if free then .next (s.setGroup group { g with tlbi := some { t with begun := true } }) else .next s

/-- What a TLBINV leaves of the TLBs of a partition (R414). -/
def shootDown (s : State) (part : Option Nat) (t : TlbInv) : State :=
  let here (p : Nat) : Bool := s.partOfDie p == part
  { s with
    cores := s.cores.map (fun e =>
      (e.1, if here (coreDie e.1) then { e.2 with tlb := e.2.tlb.filter (fun x => !t.covers x) } else e.2))
    dies := s.dies.map (fun e =>
      (e.1, if here e.1 then
        { e.2 with tlb := e.2.tlb.filter (fun x => !t.covers x), nested := e.2.nested.filter (fun x => !t.coversNested x) }
      else e.2)) }

/-- TLBINV_COMPLETE (R216, R416): every TLB of the partition has dropped the covered entries, and no access under one is on its way;
the group then crosses the boundary at which its run ended. -/
def execTlbinvComplete (group : Nat) (s : State) : Out :=
  match s.group? group with
  | none => .next s
  | some g =>
    match g.tlbi with
    | none => .next s
    | some t =>
      let part := s.partOfDie (coreDie (s.blockOf g).core)
      if !t.begun || s.launches.any (fun e => some e.2.part == part && t.inFlight e.2) ||
          s.loads.any (fun e => t.reading s part e.2) then .next s
      else
        let s1 := (shootDown s part t).setGroup group { g with tlbi := none }
        .next (match t.cross with
          | some glob => (s1.crossOne group glob).pushShadow group
          | none => s1)

/-- CORE_POWER_GATING (R216): a gated core holds no TLB entries. -/
def execCorePowerGating (core : Nat) (gated : Bool) (s : State) : Out :=
  .next (s.modCore core (fun c => { c with gated := gated, tlb := if gated then [] else c.tlb }))

/-! ## Which launches map a page (R98) -/

/-- Where a table address of a guest context lies, or of the host's own tables. -/
def tableLoc (s : State) (P : Part) (g : Option Nat) (a : Nat) : Option Nat :=
  match g with
  | none => some (keyInter P.y0 P.y1 a)
  | some u =>
    let c := P.guest u
    if !c.enabled then some (keyInter P.y0 P.y1 a)
    else
      match nestedPage s.mem P [] u c.hroot (a / 65536) with
      | .ok t => if t.res then some (t.e.key + a % 65536) else none
      | .error _ => none

/-- The entries of a table that are not zero, by index. -/
def tableEntries (s : State) (P : Part) (g : Option Nat) (tab : Nat) : List (Nat × Word) :=
  match tableLoc s P g (tab * 65536) with
  | none => []
  | some k =>
    (distinct ((tslice s.mem k (k + 65536)).map (fun e => (e.1 - k) / 8))).map (fun i => (i, rd64 s.mem (k + 8 * i)))

/-- The root table of a guest context. -/
def rootOf (P : Part) (g : Option Nat) : Nat :=
  match g with
  | none => P.hostRoot.toNat / 65536
  | some u => if (P.guest u).enabled then (P.guest u).root.toNat / 65536 else (P.guest u).hroot.toNat / 65536

/-- The virtual pages that a context's tables give a leaf. -/
def pagesMapped (s : State) (P : Part) (g : Option Nat) : List Nat :=
  (tableEntries s P g (rootOf P g)).flatMap (fun a =>
    if !(pteV a.2 && pteT a.2) then []
    else (tableEntries s P g (pteFrame a.2)).flatMap (fun b =>
      let base := a.1 * 2 ^ 26 + b.1 * 2 ^ 13
      if !pteV b.2 then []
      else if !pteT b.2 then (List.range 8192).map (base + ·)
      else (tableEntries s P g (pteFrame b.2)).map (fun c => base + c.1)))

/-- A launch's guest context maps the page that holds a key. -/
def mapsKey (s : State) (P : Part) (l : Launch) (key : Nat) : Bool :=
  (pagesMapped s P (some l.guest)).any (fun page =>
    match walk s.mem P [] (some l.guest) page with
    | .ok t => t.e.key == key / 65536 * 65536
    | .error _ => false)

/-- The running launches that map a page, with their commits so far; a pre-empted launch counts (R98, R235). -/
def mappers (s : State) (key : Nat) : List (Nat × Nat) :=
  (s.launches.filter (fun e => e.2.holds && ((s.part? e.2.part).map (fun P => mapsKey s P e.2 key)).getD false)).map
    (fun e => (e.1, e.2.c))

/-! ## Host accesses (R98, R102, R250, R437) -/

/-- The pieces of an access that each lie in one page: offset and length. -/
def pageCuts : Nat → Nat → Nat → Nat → List (Nat × Nat)
  | 0, _, _, _ => []
  | fuel + 1, a, off, n =>
    if n = 0 then []
    else
      let m := min n (65536 - a % 65536)
      (off, m) :: pageCuts fuel (a + m) (off + m) (n - m)

def cutsOf (va : Word) (n : Nat) : List (Nat × Nat) := pageCuts (n / 65536 + 2) va.toNat 0 n

/-- What an access through a context's tables meets. -/
inductive Reach where
  | at_ (key : Nat)
  /-- It cannot be translated (R437). -/
  | none_
  /-- It names memory outside the partition (R244). -/
  | beyond
  deriving DecidableEq, Repr

/-- Translates one piece of a host access; the walk sets A bits (R200) and may rebuild entries (R207). -/
def hostReach (s : State) (P : Part) (g : Option Nat) (va : Word) (write : Bool) : Reach × State :=
  if !canonical va then (.none_, s)
  else
    match walk s.mem P [] g (pageOf va) with
    | .error f => (.none_, s.trailed f.trail)
    | .ok t =>
      let s1 := s.trailed t.trail
      if !t.res || (write && !t.e.w) then (.none_, s1)
      else if outside P t.e.key then (.beyond, s1)
      else (.at_ (t.e.key + va.toNat % 65536), s1)

/-- A host write at a key: held for the launches that map the page, or applied on arrival (R98). -/
def landWrite (s : State) (key : Nat) (data : List Byte) : State :=
  match mappers s key with
  | [] =>
    { s with
      mem := wrL s.mem key data
      poison := s.poison.filter (fun w => !(decide (key ≤ w) && decide (w + 4 ≤ key + data.length))) }
  | maps => { s with hostw := s.hostw ++ [⟨key, data, maps⟩] }

/-- The host requester of a partition is frozen. -/
def hostFrozen (P : Part) : Bool := P.frozen.any (fun f => match f.by_ with | .host _ _ => true | .engine _ | .move _ => false)

/-- The first enabled die of a partition: it records the events of no die (logical die 0). -/
def firstDie (s : State) (P : Part) : Nat := (s.physDie? P 0).getD (30 * P.y0)

/-- Freezes the host requester (R244). -/
def freezeHost (s : State) (p : Nat) (P : Part) (write : Bool) (va : Word) : State :=
  let s1 := s.modPart p (fun P => { P with frozen := P.frozen ++ [⟨0, 0xFF, .host write va⟩] })
  (s1.bboxAdd (firstDie s P) ⟨va, 0xFFFF, 0xFFFF, 0x07, 2⟩).report .nonFatal p

/-- One piece of a host write (R98, R244, R437). -/
def hostWritePiece (p : Nat) (P : Part) (g : Option Nat) (s : State) (va : Word) (data : List Byte) : State :=
  match hostReach s P g va true with
  | (.at_ key, s1) => landWrite s1 key data
  | (.none_, s1) => s1.reportAbort p
  | (.beyond, s1) => freezeHost s1 p P true va

/-- The pieces of a write through a context's tables. -/
def hostWriteAll (s : State) (p : Nat) (P : Part) (g : Option Nat) (va : Word) (data : List Byte) : State :=
  (cutsOf va data.length).foldl (fun s c =>
    hostWritePiece p P g s (va + BitVec.ofNat 64 c.1) ((data.drop c.1).take c.2)) s

/-- Bytes of a die's weight store. -/
def inWeight (off n : Nat) : Bool := decide (off + n ≤ Config.weightBytes)

/-- A bank of a range of a weight store is being refreshed (R218). -/
def weightBusy (s : State) (p off n : Nat) : Bool :=
  (List.range ((off % 4096 + n + 4095) / 4096)).any (fun i => refreshing s p (off / 4096 * 4096 + 4096 * i))

/-- A host write to a weight store (R217): none while a launch runs on the partition. DESIGN CHOICE (entry 120): Unsupported Request
answers one beyond the store or the dies as well, and a refresh holds one up. -/
def hostWeight (s : State) (part : Nat) (P : Part) (die off : Nat) (data : List Byte) : State :=
  match s.physDie? P die with
  | none => answer s part (.at_ (.weight die off)) .unsupported
  | some p =>
    if launchRuns s part || !inWeight off data.length then answer s part (.at_ (.weight die off)) .unsupported
    else if weightBusy s p off data.length then s
    else
      let k := keyWeight p off
      { s with
        mem := wrL s.mem k data
        poison := s.poison.filter (fun w => !(decide (k ≤ w) && decide (w + 4 ≤ k + data.length))) }

/-- HOST_WRITE (R98, R217): answered with Unsupported Request outside an IDE stream (R250); a contained port (R245) and a frozen
requester make no request. -/
def execHostWrite (part : Nat) (at_ : HostAt) (data : List Byte) (s : State) : Out :=
  match s.part? part with
  | none => .next s
  | some P =>
    if P.fatal || hostFrozen P then .next s
    else if !P.ideUp then .next (answer s part (.at_ at_) .unsupported)
    else
      match at_ with
      | .mem va => .next (hostWriteAll s part P none va data)
      | .weight die off => .next (hostWeight s part P die off data)

/-- The lines of 64 bytes that hold `n` bytes at a key. -/
def lineKeys (key n : Nat) : List Nat := (List.range ((key % 64 + n + 63) / 64)).map (fun i => key / 64 * 64 + 64 * i)

/-- The bytes of a host read, or why it has none. -/
def hostReadAll (s : State) (P : Part) (va : Word) : List (Nat × Nat) → Except Reach (List Byte) × State
  | [] => (.ok [], s)
  | c :: cs =>
    match hostReach s P none (va + BitVec.ofNat 64 c.1) false with
    | (.at_ key, s1) =>
      (match hostReadAll (s1.rebuilds (lineKeys key c.2)) P va cs with
      | (.ok bs, s2) => (.ok (rdL s1.mem key c.2 ++ bs), s2)
      | r => r)
    | (r, s1) => (.error r, s1)

/-- A host read of memory (R102, R244, R437). -/
def hostReadMem (s : State) (part : Nat) (P : Part) (va : Word) (len : Nat) : State :=
  match hostReadAll s P va (cutsOf va len) with
  | (.ok bs, s1) => answer s1 part (.at_ (.mem va)) (.data bs)
  | (.error .beyond, s1) => freezeHost s1 part P false va
  | (.error _, s1) => (answer s1 part (.at_ (.mem va)) .abort).reportAbort part

/-- A host read of a weight store (entry 120). -/
def hostReadWeight (s : State) (part : Nat) (P : Part) (die off len : Nat) : State :=
  match s.physDie? P die with
  | none => answer s part (.at_ (.weight die off)) .unsupported
  | some p =>
    if !inWeight off len then answer s part (.at_ (.weight die off)) .unsupported
    else if weightBusy s p off len then s
    else answer s part (.at_ (.weight die off)) (.data (rdL s.mem (keyWeight p off) len))

/-! ## Ferry rows (R128, R268) -/

/-- FERRY_ARRIVAL (R268): a row inside the window lands as a host write; another is rejected whole and counted. -/
def execFerryArrival (part : Nat) (off : BitVec 48) (data : List Byte) (s : State) : Out :=
  match s.part? part with
  | none => .next s
  | some P =>
    if P.fatal then .next s
    else if P.ferryLen.toNat % 2 ^ 48 < off.toNat + data.length then
      .next (s.modPart part (fun P => { P with ferryRej := if P.ferryRej = 0xFFFF then 0xFFFF else P.ferryRej + 1 }))
    else .next (hostWriteAll s part P (some (P.ferryLen.extractLsb' 48 3).toNat) (P.ferryBase + off.zeroExtend 64) data)

/-! ## Poison (R242) -/

/-- POISON_MARK (R242, R247): the word is marked, and the die's black box records it. -/
def execPoisonMark (die : Nat) (store : BitVec 32) (at_ : PoisonAt) (s : State) : Out :=
  match at_ with
  | .dev key =>
    let w := key / 4 * 4
    .next ({ s with poison := addTo w s.poison }.bboxAdd die ⟨BitVec.ofNat 64 (physAddr w), store, 0xFFFF, 0x04, 0⟩)
  | .loc block addr =>
    match s.block? block with
    | none => .next s
    | some b =>
      let w := addr / 4 * 4
      .next ((s.setBlock block { b with poison := addTo w b.poison }).bboxAdd die
        ⟨BitVec.ofNat 64 w, store, BitVec.ofNat 16 (coreIdx b.core), 0x04, 0⟩)

end Sys2Proof.Machine
end

