-- ==== Sys2Proof/Machine/Context.lean ====
section
/-! DEFINITION. Pre-emption and restore: the save sequence (R234, R235, R329), the save image (R237), restore (R236, R330, R331), and the
time slice (R67, R262). The block records of an image have no layout in R237, so a saved context is also kept as data, and a
restore takes its blocks from there (entry 22). -/

namespace Sys2Proof.Machine

/-! ## Shapes and keys of another band (R252) -/

/-- What two partitions of one shape agree on (R252): dies, rows, the parity of the first row, the edges, and the disabled sites
counted from the first row. -/
def shapeList (s : State) (P : Part) : List Nat :=
  [s.dieCount P, P.y1 + 1 - P.y0, P.y0 % 2, (P.y0 == 0).toNat, (P.y1 == 29).toNat] ++
    (s.disabled.filter (fun p => decide (30 * P.y0 ≤ p) && decide (p < 30 * (P.y1 + 1)))).map (fun p => p - 30 * P.y0)

/-- Moves a physical order, of a die or of a waystation, from the saved band to a partition's. -/
def shiftDie (v : Saved) (P : Part) (p : Nat) : Nat := p - 30 * v.y0 + 30 * P.y0

/-- Moves a core. -/
def shiftCore (v : Saved) (P : Part) (k : Nat) : Nat := coreKey (shiftDie v P (coreDie k)) (coreIdx k)

/-- Moves a place of R74. -/
def shiftPlace (v : Saved) (P : Part) (n : Nat) : Nat :=
  if n < 2 ^ 20 then shiftCore v P n
  else if n < 2 ^ 21 then 2 ^ 20 + shiftDie v P (n - 2 ^ 20)
  else 2 ^ 21 + shiftDie v P (n - 2 ^ 21)

/-- Moves a key of device memory to where the same physical address lies in a partition (R205, R206, R235). -/
def rekey (v : Saved) (P : Part) (key : Nat) : Nat :=
  if key < 2 ^ 64 then (if key / 2 ^ 52 = v.y0 * 32 + v.y1 then keyInter P.y0 P.y1 (key % 2 ^ 52) else key)
  else if key < 2 * 2 ^ 64 then key - 30 * v.y0 * 2 ^ 40 + 30 * P.y0 * 2 ^ 40
  else if key < 3 * 2 ^ 64 then key
  else if key < 4 * 2 ^ 64 then keyHost P.port (key % 2 ^ 52)
  else key - 30 * v.y0 * 2 ^ 29 + 30 * P.y0 * 2 ^ 29

/-! ## The save image (R237) -/

/-- Bytes padded with zero to a multiple of 16. -/
def pad16 (bs : List Byte) : List Byte := bs ++ List.replicate ((16 - bs.length % 16) % 16) 0

/-- The code of a rule: MOD [5:4] of a CPYM, and 4 for an accumulating store. -/
def WRule.code : WRule → Nat
  | .lo => 0
  | .any => 1
  | .sum _ => 2
  | .flt => 3
  | .acc _ => 4

/-- The code of a sum type (R89). -/
def sumCode : SumTy → Nat
  | .n32 => 0
  | .i64 => 1
  | .f32 => 2
  | .bf16x2 => 3
  | .f16x2 => 4

def WRule.sumOf : WRule → Nat
  | .sum t | .acc t => sumCode t
  | _ => 0

/-- An arrival in a core record. -/
def arrivalImage (a : Arrival) : List Byte :=
  leBytes 1 a.win ++ leBytes 1 a.rule.code ++ leBytes 2 0 ++ leBytes 4 a.rowBytes ++ leBytes 4 a.rows ++ leBytes 4 a.dstride ++
    leBytes 8 a.off ++ leBytes 8 a.wid.toNat ++ pad16 a.data

/-- The four companding tables, 32 bytes each (R155). -/
def tablesImage (c : Core) : List Byte :=
  (List.range 64).flatMap (fun i =>
    let e := tget (0, BitVec.ofNat 9 (8 * (i % 16))) c.ctab i
    leBytes 2 (e.1.toNat * 512 + e.2.toNat))

/-- A core record: logical die, core index, size, arrivals. -/
def coreImage (die : Nat) (k lid : Nat) (c : Core) : List Byte :=
  let as := sortBy (fun (a : Arrival) => a.win) (c.landing.filter (fun a => a.launch == lid))
  let body := as.flatMap arrivalImage
  leBytes 2 die ++ leBytes 2 (coreIdx k) ++ leBytes 4 (144 + body.length) ++ leBytes 4 as.length ++ leBytes 4 0 ++ tablesImage c ++ body

/-- A pending spawn item. -/
def itemImage (entry parent : Word) (step : Nat) (arg : Lane) (die : Nat) : List Byte :=
  leBytes 8 entry.toNat ++ leBytes 8 parent.toNat ++ leBytes 8 step ++ leBytes 4 arg.toNat ++ leBytes 2 die ++ leBytes 2 0

/-- An identity slot of a parked write. -/
def slotImage (w : Option Write) : List Byte :=
  match w with
  | some w => leBytes 8 w.wid.toNat ++ leBytes 4 w.ord
  | none => leBytes 12 0

/-- Two writes are those of lanes of one instruction to one word under one rule: the group combiner merges them (R87). -/
def sameStore (a b : GWrite) : Bool :=
  !a.w.engine && !b.w.engine && a.w.grp == b.w.grp && a.w.seq == b.w.seq && a.w.key == b.w.key && a.w.wide == b.w.wide &&
    a.w.rule == b.w.rule && a.step == b.step

/-- Adds a write to the ones that it merges with. -/
def combineOne (gs : List (List GWrite)) (g : GWrite) : List (List GWrite) :=
  let mine (l : List GWrite) : Bool := (l.head?.map (sameStore g)).getD false
  if gs.any mine then gs.map (fun l => if mine l then l ++ [g] else l) else gs ++ [[g]]

/-- The writes behind each parked-write record: those that the group combiner has merged (R87, R237). -/
def combined (gs : List GWrite) : List (List GWrite) := gs.foldl combineOne []

/-- The value that the group combiner keeps of writes that it merges: the lowest identity's bytes, a sum, or the result of one
order (R87). -/
def mergedValue (ws : List Write) (free : Nat) : Word :=
  match ws with
  | [w] => w.val
  | _ =>
    match (ws.head?.map (fun w => w.rule)).getD .lo with
    | .sum ty | .acc ty => sumWord ty none (ws.map (fun w => w.val)) (free + 1)
    | .any => (resolveRule .any 0 ws (Config.freeNat free) 0).getD 0
    | _ => (resolveRule .lo 0 ws 0 0).getD 0

/-- Bytes of a parked-write record (R237). -/
def parkedBytes : Nat := 96

/-- A parked write as it stands after the group combiner (R237). -/
def parkedImage (gs : List GWrite) (free : Nat) : List Byte :=
  match gs with
  | [] => leBytes parkedBytes 0
  | g :: _ =>
    let ws := gs.map (fun g => g.w)
    let w := g.w
    let byId := sortBy Write.ident ws
    let slot (b : Nat) : Option Write :=
      match w.rule with
      | .lo => byId.find? (fun w => w.mask.getLsbD b)
      | .flt => if b = 0 then byId.head? else if b = 1 then byId.getLast? else none
      | .any => if b = 0 then (permute (Config.freeNat free) ws).getLast? else none
      | _ => if b = 0 then byId.head? else none
    leBytes 8 (physAddr w.key) ++ leBytes 8 g.step ++ leBytes 8 (mergedValue ws free).toNat ++
      leBytes 1 (ws.foldl (fun (m : BitVec 8) (w : Write) => m ||| w.mask) 0).toNat ++ leBytes 1 w.rule.code ++
      leBytes 1 w.rule.sumOf ++ leBytes 1 (if w.wide then 8 else 4) ++ leBytes 4 (if w.rule = .flt then ws.length else 1) ++
      (List.range 4).flatMap (fun b => slotImage (slot b)) ++ leBytes 16 0

/-- The numbers of an accumulator plane: its slices in the layout of R158, the mode, and its overflow entries. -/
def planeValues (c : Core) (p : Nat) : List Nat :=
  (List.range 1024).map (fun i => (tget 0 c.cells (1024 * p + i)).toNat) ++ [(c.fmode.getLsbD p).toNat] ++
    (c.ovf.filter (fun e => e.plane == p)).flatMap (fun e => [e.row, e.col, (e.h % 2 ^ 64).toNat])

/-- The numbers of a group record: what R237 lists. -/
def groupValues (v : Saved) (c : Core) (gid : Nat) (g : Group) : List Nat :=
  let r := g.r
  [g.grp, r.pc.toNat, r.sys.toNat, r.gstep, r.lstep] ++ (List.range (32 * g.va)).map (fun i => (tget 0 r.v i).toNat) ++
    (List.range g.sa).map (fun i => (tget 0 r.s i).toNat) ++ r.ve ++ r.se ++ (List.range 16).map (fun i => (tget 0 r.p i).toNat) ++
    (List.range 8).map (fun i => (tget 0 r.x i).toNat) ++
    [r.wbv, r.wbs, r.spill.toNat, r.lag.toNat, r.lfm.toNat, r.nrs.toNat, r.xcause.toNat, r.xpc.toNat, r.xaddr.toNat, r.xlanes.toNat,
      r.xstep.toNat, r.xprog.toNat, r.xinfo.toNat, r.xvec.toNat, r.live.toNat, r.modeQ.toNat, r.wov.toNat] ++
    (r.frame.map (fun f => f.units.flatMap (fun u => [u.first, u.at_] ++ u.empty))).getD [] ++
    (State.Group.held g).flatMap (planeValues c) ++
    (v.ops.filter (fun e => e.2.gid == gid)).flatMap (fun e => [e.2.prog, e.2.iaddr.toNat] ++ e.2.args.map (fun a => a.toNat))

/-- The numbers of a block record: what R237 lists. -/
def blockValues (v : Saved) (b : Block) : List Nat :=
  let c := (tfind v.cores b.core).getD Core.fresh
  [b.closed, b.bytes, b.spill] ++ (List.range (b.bytes + b.groups.length * b.spill)).map (fun a => rdN b.mem a 1) ++
    b.pend.flatMap (fun w => [w.step, w.w.key, w.w.mask.toNat, w.w.val.toNat, w.w.rule.code, w.w.rule.sumOf, w.w.ident] ++ w.by_) ++
    b.entries.flatMap (fun e => [e.op, e.step, e.ret.getD (2 ^ 64)] ++ (e.reads ++ e.write.toList).flatMap (fun r => [r.1, r.2])) ++
    b.windows.flatMap (fun w => [w.win, w.base, w.len, w.step]) ++
    b.groups.flatMap (fun g => ((tfind v.groups g).map (groupValues v c g)).getD [])

/-- A block record: the manual lists what it holds and gives it no layout (entry 22). -/
def blockImage (v : Saved) (b : Block) : List Byte := pad16 (Config.recordBytes (blockValues v b))

/-- The core records of a die (R237). -/
def coreSection (s : State) (P : Part) (lid : Nat) (v : Saved) (p : Nat) : List Byte :=
  (v.cores.filter (fun e => coreDie e.1 == p)).flatMap (fun e => coreImage (s.logDie P p) e.1 lid e.2)

/-- The block records of a die. -/
def blockSection (v : Saved) (p : Nat) : List Byte :=
  (v.blocks.filter (fun e => coreDie e.2.core == p)).flatMap (fun e => blockImage v e.2)

/-- The pending spawn items of a die: those that its coach house holds, and those that stand in groups not placed yet. -/
def itemSection (s : State) (P : Part) (l : Launch) (v : Saved) (p : Nat) : List Byte :=
  let d := s.logDie P p
  (v.protos.filter (fun e => e.1 == p)).flatMap (fun e =>
      (e.2.args.zip e.2.parents).flatMap (fun a => itemImage e.2.entry a.2 (e.2.step - 1) a.1 d)) ++
    (l.items.filter (fun i => i.die == p)).flatMap (fun i => itemImage i.entry i.parent i.step i.arg d)

/-- The bytes of each die's records, in logical order (R329). -/
def sectionsOf (s : State) (P : Part) (lid : Nat) (l : Launch) (v : Saved) : List Section :=
  (s.dieList P).map (fun p =>
    ⟨(coreSection s P lid v p).length, (blockSection v p).length, (itemSection s P l v p).length⟩)

/-- The header of an image. -/
def headerImage (s : State) (P : Part) (l : Launch) (v : Saved) (total : Nat) : List Byte :=
  let items := l.items.length + (v.protos.map (fun e => e.2.args.length)).sum
  leBytes 4 1 ++ leBytes 4 l.ident.toNat ++ leBytes 8 l.hdrVa.toNat ++ leBytes 8 (State.cWord l).toNat ++ leBytes 2 (s.dieCount P) ++
    leBytes 1 (P.y1 + 1 - P.y0) ++ leBytes 1 (if s.disabled.isEmpty then 0 else 1) ++ leBytes 4 v.blocks.length ++
    leBytes 4 v.cores.length ++ leBytes 4 items ++ leBytes 8 l.children ++ leBytes 8 v.parked.length ++ leBytes 8 total ++ leBytes 64 0

/-- A whole image (R237): the header, the records of each die, and the parked writes. -/
def imageBytes (s : State) (P : Part) (lid : Nat) (l : Launch) (v : Saved) : List Byte :=
  let body := (s.dieList P).flatMap (fun p => coreSection s P lid v p ++ blockSection v p ++ itemSection s P l v p) ++
    v.parked.zipIdx.flatMap (fun e => parkedImage e.1 (s.free + 4 * e.2))
  headerImage s P l v (128 + body.length) ++ body

/-! ## What a restore reads of an image (R237, R330)

Where an image still holds the bytes that the save wrote, the restore takes back what stood behind them; a record that the host has
changed is read as R237 lays it out. Block records have no layout, so the restore takes those that were saved (entry 22). -/

/-- Bytes `off` to `off` + `n` − 1 of a list. -/
def sub (bs : List Byte) (off n : Nat) : List Byte := (bs.drop off).take n

/-- Bytes of a section. -/
def Section.total (x : Section) : Nat := x.cores + x.blocks + x.items

/-- Where the records of logical die `i` begin. -/
def sectionStart (v : Saved) (i : Nat) : Nat := 128 + ((v.sections.take i).map Section.total).sum

/-- The sizes of logical die `i`'s records. -/
def sectionOf (v : Saved) (i : Nat) : Section := (v.sections[i]?).getD ⟨0, 0, 0⟩

/-- The group number of what stands in an image and names no group. -/
def noGroupNo : Nat := 2 ^ 64

/-- The rule of a record (R237). -/
def ruleOf (code sum : Nat) : WRule :=
  let ty : SumTy := if sum = 0 then .n32 else if sum = 1 then .i64 else if sum = 2 then .f32 else if sum = 3 then .bf16x2 else .f16x2
  match code with
  | 0 => .lo
  | 1 => .any
  | 2 => .sum ty
  | 3 => .flt
  | _ => .acc ty

/-- The arrivals of a core record. -/
def readArrivals (lid : Nat) : Nat → List Byte → List Arrival
  | 0, _ => []
  | n + 1, bs =>
    let rows := fieldN bs 8 4
    let rowBytes := fieldN bs 4 4
    let a : Arrival :=
      { win := fieldN bs 0 1 % 8, rule := ruleOf (fieldN bs 1 1) 0, rowBytes := rowBytes, rows := rows, dstride := fieldN bs 12 4,
        off := fieldN bs 16 8, wid := BitVec.ofNat 64 (fieldN bs 24 8), data := sub bs 32 (rows * rowBytes), launch := lid,
        grp := noGroupNo, seq := 0, told := false }
    a :: readArrivals lid n (bs.drop (32 + (rows * rowBytes + 15) / 16 * 16))

/-- What a core record gives a core: companding tables and arrivals. -/
def readCore (lid : Nat) (bs : List Byte) (c : Core) : Core :=
  let x (i : Nat) : Nat := fieldN bs (16 + 2 * i) 2
  { c with
    ctab := (List.range 64).foldl (fun t i =>
      tput (0, BitVec.ofNat 9 (8 * (i % 16))) t i (BitVec.ofNat 3 (x i / 512), BitVec.ofNat 9 (x i))) []
    landing := readArrivals lid (fieldN bs 8 4) (bs.drop 144) }

/-- The core records of a section by core index. -/
def readCores (lid : Nat) : Nat → List Byte → List (Nat × Core)
  | 0, _ => []
  | n + 1, bs =>
    if bs.length < 144 then []
    else (fieldN bs 2 2, readCore lid bs Core.fresh) :: readCores lid n (bs.drop (max 144 (fieldN bs 4 4)))

/-- The spawn items of a section, for the die at physical order `p`. -/
def readItems (p id : Nat) : Nat → List Byte → List Item
  | 0, _ => []
  | n + 1, bs =>
    { id := id, entry := BitVec.ofNat 64 (fieldN bs 0 8), arg := BitVec.ofNat 32 (fieldN bs 24 4),
      parent := BitVec.ofNat 64 (fieldN bs 8 8), step := fieldN bs 16 8, die := p, src := p, arrived := true, grp := noGroupNo, seq := 0,
      cycle := 0 } :: readItems p (id + 1) n (bs.drop 32)

/-- The writes of a parked-write record. -/
def readParked (P : Part) (now id core : Nat) (was : List GWrite) (bs : List Byte) : List GWrite :=
  let pa := fieldN bs 0 8
  let old := (was.head?.map (fun g => g.w.key)).getD 0
  let key := if physAddr old = pa then old else keyInter P.y0 P.y1 pa
  let rule := ruleOf (fieldN bs 25 1) (fieldN bs 26 1)
  let mask := BitVec.ofNat 8 (fieldN bs 24 1)
  let write (i b : Nat) (m : BitVec 8) : GWrite :=
    { id := id + i, step := fieldN bs 8 8, core := core, cycle := now, stage := .parked,
      w := { key := key, va := BitVec.ofNat 64 pa, wide := fieldN bs 27 1 == 8, mask := m, val := BitVec.ofNat 64 (fieldN bs 16 8),
             rule := rule, wid := BitVec.ofNat 64 (fieldN bs (32 + 12 * b) 8), ord := fieldN bs (40 + 12 * b) 4, grp := noGroupNo,
             engine := true, seq := 0 } }
  match rule with
  | .lo => ((List.range 4).filter (fun b => mask.getLsbD b)).map (fun b => write b b (1#8 <<< b))
  | .flt => (List.range (max 1 (fieldN bs 28 4))).map (fun i => write i (if i = 0 then 0 else 1) mask)
  | _ => [write 0 0 mask]

/-! ## Saving (R234, R329) -/

/-- The groups of a launch on a die. -/
def groupsHere (s : State) (lid p : Nat) : List (Nat × Group) :=
  (groupsOf s lid).filter (fun e => coreDie (s.blockOf e.2).core == p)

/-- An operation that a save leaves as it stands (R234). -/
def saveable (op : AsyncOp) : Bool :=
  match op.kind with
  | .mma _ _ | .mmq _ _ _ | .mzero _ _ | .mlda _ _ | .mdrn _ _ _ _ | .ctld _ | .land => true
  | _ => false

/-- Steps 1 to 4 of R234 are done on a die. -/
def drained (s : State) (lid p : Nat) (l : Launch) : Bool :=
  let gs := groupsHere s lid p
  let bs := (s.blocksOf lid).filterMap (fun b => tfind s.blocks b)
  gs.all (fun e => e.2.run.isNone && e.2.heldX.isEmpty) &&
    s.ops.all (fun e => !gs.any (fun g => g.1 == e.2.gid) || saveable e.2) &&
    l.gw.all (fun w => coreDie w.core != p || w.stage == .parked) && l.items.all (fun i => i.src != p || i.arrived) &&
    bs.all (fun b => coreDie b.core != p ||
      (!b.moving && b.crossT.all (fun e => decide (e.2 + Config.hold ≤ s.cycle p)))) &&
    !mayCommit s lid l

/-- Rounds the float tiles of a group to binary32, as a save does (R195). -/
def roundTiles (c : Core) (g : Group) : Core :=
  (List.range (g.planes.length / 2)).foldl (fun c t =>
    let hi := planeOf g (2 * t)
    let lo := planeOf g (2 * t + 1)
    if c.fmode.getLsbD hi && c.fmode.getLsbD lo then
      (List.range 32).foldl (fun c row => loadFloatRow c hi lo row (drainRow c g true .rne t row)) c
    else c) c

/-- The cores of a die that hold blocks or arrivals of a launch. -/
def coresHere (s : State) (lid p : Nat) : List Nat :=
  let a := (s.blocksOf lid).filterMap (fun b => (tfind s.blocks b).map (fun x => x.core))
  let b := (s.cores.filter (fun e => e.2.landing.any (fun x => x.launch == lid))).map (fun e => e.1)
  (distinct (a ++ b)).filter (fun k => coreDie k == p)

/-- A saved context with nothing in it yet. -/
def Saved.fresh (s : State) (P : Part) (lid : Nat) (image : Word) : Saved where
  launch := lid
  image := image
  shape := shapeList s P
  y0 := P.y0
  y1 := P.y1
  port := P.port
  blocks := []
  groups := []
  ops := []
  loads := []
  cores := []
  protos := []
  inImage := false
  bytes := []
  sections := []
  parked := []
  got := []

/-- The saved context of a launch in a list. -/
def savedOf (l : List Saved) (lid : Nat) : Option Saved := l.find? (fun v => v.launch == lid)

/-- Puts a saved context in the place of the launch's earlier one. -/
def putSaved (l : List Saved) (v : Saved) : List Saved := l.filter (fun w => w.launch != v.launch) ++ [v]

/-- A saved context with the records of one die added. -/
def saveDie (s : State) (lid p : Nat) (v : Saved) : Saved :=
  let gs := groupsHere s lid p
  let bs := s.blocks.filter (fun e => e.2.launch == some lid && coreDie e.2.core == p)
  let mine (g : Nat) : Bool := gs.any (fun e => e.1 == g)
  let ks := coresHere s lid p
  { v with
    blocks := bs.foldl (fun t e => tset t e.1 { e.2 with crossT := [] }) v.blocks
    groups := gs.foldl (fun t e => tset t e.1 e.2) v.groups
    ops := (s.ops.filter (fun e => mine e.2.gid)).foldl (fun t e => tset t e.1 e.2) v.ops
    loads := (s.loads.filter (fun e => mine e.2.gid)).foldl (fun t e => tset t e.1 e.2) v.loads
    cores := ks.foldl (fun t k =>
      tset t k ((gs.filter (fun e => (s.blockOf e.2).core == k)).foldl (fun c e => roundTiles c e.2) (s.core k))) v.cores
    protos := v.protos ++ ((s.die p).protos.filter (fun q => q.launch == lid)).map (fun q => (p, q)) }

/-- SAVE_SEQUENCE (R329): the die's records are taken, its cores are freed, and its mailbox receives a completion packet. -/
def execSaveSequence (part die : Nat) (s : State) : Out :=
  match (s.die die).save, s.part? part with
  | some lid, some P =>
    (match s.launch? lid with
    | none => .next s
    | some l =>
      if l.part != part || s.partOfDie die != some part || l.phase != .preempting || !drained s lid die l then .next s
      else
        let v := saveDie s lid die ((savedOf P.saved lid).getD (Saved.fresh s P lid l.image))
        let s1 := s.modPart part (fun P => { P with saved := putSaved P.saved v })
        let here := (s.blocksOf lid).filter (fun b => ((tfind s.blocks b).map (fun x => coreDie x.core == die)).getD false)
        let s2 := here.foldl (fun s b => s.dropBlock b) s1
        let s3 := (coresHere s lid die).foldl (fun s k =>
          s.modCore k (fun c => { c with landing := c.landing.filter (fun a => a.launch != lid) })) s2
        let s4 := s3.modDie die (fun d => { d with save := none, protos := d.protos.filter (fun q => q.launch != lid) })
        -- DESIGN CHOICE (entry 121): every die that saves records the pre-emption.
        let s5 := (s4.bboxAdd die ⟨l.image, l.ident, 0xFFFF, 0x08, 0⟩).modLaunch lid (fun l => { l with reports := l.reports ++ [(die, none)] })
        .next (mailTo s5 die ⟨3, lid, l.image, 0⟩))
  | _, _ => .next s

/-- The end of a command that waited for a launch. -/
def endCommand (s : State) (lid : Nat) (mode : BitVec 2) : State :=
  { s with parts := s.parts.map (fun e => (e.1, if e.2.busy = some lid then { e.2 with busy := none, mode := mode } else e.2)) }

/-- The launch of a partition in a phase for which every die has reported. -/
def reportedIn (s : State) (part : Nat) (P : Part) (ph : Phase) : Option (Nat × Launch) :=
  s.launches.find? (fun e => e.2.part == part && e.2.phase == ph && allReported s P e.2)

/-- Bytes from an address lie on pages that the partition's own tables let it write (R331). -/
def writable (s : State) (P : Part) (va : Word) (n : Nat) : Bool :=
  (cutsOf va n).all (fun c => (s.keyFor P none (va + BitVec.ofNat 64 c.1) true).isSome)

/-- The next image of a forced layout change follows this one, aligned to 128 (R265). -/
def advanceArea (s : State) (l : Launch) (n : Nat) : State :=
  if l.force then
    { s with parts := s.parts.map (fun e =>
        (e.1, if e.2.forceAt.isSome then { e.2 with forceAt := some (l.image + BitVec.ofNat 64 ((n + 127) / 128 * 128)) } else e.2)) }
  else s

/-- SAVE_IMAGE_ASSEMBLE (R329, R331, R262): the image is written, the launch is saved, and one whose time slice ran out is posted
again at the back of its priority level. -/
def execSaveImageAssemble (part : Nat) (s : State) : Out :=
  match s.part? part with
  | none => .next s
  | some P =>
    match reportedIn s part P .preempting with
    | none => .next s
    | some (lid, l) =>
      let v0 := (savedOf P.saved lid).getD (Saved.fresh s P lid l.image)
      let v1 : Saved := { v0 with parked := if l.force then combined (l.gw.filter (fun w => w.stage == .parked)) else [] }
      let bs := imageBytes s P lid l v1
      let v : Saved := { v1 with inImage := l.force, bytes := bs, sections := sectionsOf s P lid l v1 }
      let s0 : State := { s.walked P none l.image bs.length with free := s.free + 4 * v1.parked.length + 1 }
      if !writable s P l.image bs.length then .next ((endCommand s0 lid 2).terminate lid 3)
      else
        let s1 := s0.writeVa P none l.image bs
        let s2 := s1.modPart part (fun P => { P with saved := putSaved P.saved v })
        let s3 : State :=
          { s2.modLaunch lid (fun l =>
              { l with phase := .saved, reports := [], order := s.fresh, saveTook := s.tick - l.cmdTick,
                       gw := if l.force then l.gw.filter (fun w => w.stage != .parked) else l.gw }) with fresh := s.fresh + 1 }
        .next ((endCommand (advanceArea s3 l bs.length) lid 0).record lid 4 0xFF 0xFFFF)

/-! ## Restoring (R236, R330, R331) -/

/-- The saved context of a launch, with the partition that holds it. -/
def holderOf (s : State) (lid : Nat) : Option (Nat × Saved) :=
  firstSome (fun (e : Nat × Part) => (savedOf e.2.saved lid).map (fun v => (e.1, v))) s.parts

/-- The header of an image is one that R330 accepts for a launch in a partition. DEDUCED (entry 22): a header whose address, counts or
size are not those of the image that was saved breaks R237. -/
def headerOk (s : State) (P : Part) (l : Launch) (v : Saved) (h : List Byte) : Bool :=
  fieldN h 0 4 == 1 && fieldN h 4 4 == l.ident.toNat && fieldN h 8 8 == l.hdrVa.toNat && fieldN h 24 2 == s.dieCount P &&
    fieldN h 26 1 == P.y1 + 1 - P.y0 && fieldN h 27 1 == (if s.disabled.isEmpty then 0 else 1) &&
    fieldN h 28 12 == fieldN v.bytes 28 12 && fieldN h 48 16 == fieldN v.bytes 48 16 && fieldN h 64 64 == 0 && v.shape == shapeList s P

/-- A restore is rejected whole: what dies have placed is taken off again, and the launch stays saved (R330, R331). -/
def failRestore (s : State) (lid holder : Nat) : State :=
  let s1 := (s.blocksOf lid).foldl (fun s b => s.dropBlock b) s
  let s2 : State :=
    { s1 with
      dies := s1.dies.map (fun e => (e.1, { e.2 with
        load := if e.2.load = some lid then none else e.2.load
        protos := e.2.protos.filter (fun q => q.launch != lid)
        mbox := e.2.mbox.filter (fun m => m.launch != lid)
        inbound := e.2.inbound.filter (fun m => m.launch != lid) }))
      cores := s1.cores.map (fun e => (e.1, { e.2 with landing := e.2.landing.filter (fun a => a.launch != lid) })) }
  endCommand (s2.modLaunch lid (fun l => { l with phase := .saved, reports := [], part := holder })) lid 2

/-- The groups of a saved block. -/
def savedGroups (v : Saved) (b : Block) : List (Nat × Group) := b.groups.filterMap (fun g => (tfind v.groups g).map (fun x => (g, x)))

/-- What a block asks of its core when it is restored, for the groups that have not retired or still hold planes (R236). -/
def restoreNeed (h : Hdr) (lid : Nat) (v : Saved) (b : Block) : Need :=
  ⟨lid, ((savedGroups v b).filter (fun e => !e.2.retired || !(State.Group.held e.2).isEmpty)).length, h.vregs, h.sregs, h.tiles,
    b.bytes + b.groups.length * b.spill⟩

/-- A saved group on its new planes and die; its shadow is the state it resumes in (R240). -/
def restoreGroup (s : State) (g : Group) (planes : List Nat) : Group :=
  let g1 : Group := { g with planes := planes, run := none, taken := [], sent := [], tlbi := g.tlbi.map (fun t => { t with begun := false }) }
  { g1 with shadows := [s.shadowOf g1] }

/-- Moves the planes of a saved group to a core (R195, R236). -/
def restorePlanes (old : Core) (c : Core) (from_ to_ : List Nat) : Core :=
  (from_.zip to_).foldl (fun c e =>
    { c with
      cells := (tslice old.cells (1024 * e.1) (1024 * (e.1 + 1))).foldl (fun t x => tset t (x.1 - 1024 * e.1 + 1024 * e.2) x.2)
        (tcut c.cells (1024 * e.2) (1024 * (e.2 + 1)))
      fmode := planeBits c.fmode [e.2] (old.fmode.getLsbD e.1)
      ovf := c.ovf.filter (fun o => o.plane != e.2) ++
        (old.ovf.filter (fun o => o.plane == e.1)).map (fun o => { o with plane := e.2 }) }) c

/-- A load of a restored group: its keys where the partition has them, its request at the mailbox renewed. -/
def restoreLoad (v : Saved) (P : Part) (now : Nat) (op : LoadOp) : LoadOp :=
  match op.src with
  | .glob | .weight => { op with cycle := now, reads := op.reads.map (fun r => { r with key := rekey v P r.key }) }
  | _ => { op with cycle := now }

/-- Requests of restored groups at the die mailbox, in issue order. -/
def restoreWaits (loads : Table LoadOp) : List MboxWait :=
  (sortBy (fun (e : Nat × LoadOp) => e.2.seq) loads).filterMap (fun e =>
    match e.2.src with
    | .mailbox _ => if e.2.reads.all (fun r => r.val.isNone) then some ⟨e.2.gid, e.1⟩ else none
    | _ => none)

/-- A matrix instruction that a save stopped continues with its later fetches tagged by the group's step (R186, R195). -/
def continueOp (gs : List (Nat × Group)) (op : AsyncOp) : AsyncOp :=
  match gs.find? (fun e => e.1 == op.gid) with
  | some e =>
    if op.st == .running && op.kind != .land && (op.begun || op.prog != 0 || !op.lines.isEmpty || !op.pins.isEmpty) then
      { op with gstep := e.2.r.gstep, lag := e.2.r.lag.toNat }
    else op
  | none => op

/-- Puts a saved block back on the core index that it held (R34, R236). -/
def restoreBlock (s : State) (lid : Nat) (v : Saved) (P : Part) (bid : Nat) (b : Block) : State :=
  let k := shiftCore v P b.core
  let ctx := (s.ctxFor k lid).getD 0
  let old := (tfind v.cores b.core).getD Core.fresh
  let gs := savedGroups v b
  let many (g : Group) : Nat := (State.Group.held g).length
  let ps := freePlanes s k ((gs.map (fun e => many e.2)).sum)
  let plan := (gs.foldl (fun (acc : List (Nat × Group × List Nat) × List Nat) e =>
    (acc.1 ++ [(e.1, e.2, acc.2.take (many e.2))], acc.2.drop (many e.2))) ([], ps)).1
  let mine (g : Nat) : Bool := b.groups.contains g
  let ops := v.ops.filter (fun e => mine e.2.gid)
  let loads := v.loads.filter (fun e => mine e.2.gid)
  let queued := ((sortBy (fun (e : Nat × AsyncOp) => e.2.seq) ops).filter (fun e => saveable e.2 && e.2.kind != .land)).map (fun e => e.1)
  let now := s.cycle (coreDie k)
  let s1 := s.modCore k (fun c =>
    let c1 := plan.foldl (fun c e => restorePlanes old c (State.Group.held e.2.1) e.2.2) c
    { c1 with ctxs := tset c1.ctxs ctx (some lid), queue := c1.queue ++ queued })
  let s2 : State :=
    { s1 with
      blocks := tset s1.blocks bid { b with core := k, slot := freeBlockSlot s k, ctx := ctx, moving := false, moved := false }
      ops := ops.foldl (fun t e => tset t e.1 (continueOp gs { e.2 with core := shiftCore v P e.2.core })) s1.ops
      loads := loads.foldl (fun t e => tset t e.1 (restoreLoad v P now e.2)) s1.loads
      groups := plan.foldl (fun t e => tset t e.1 { e.2.1 with planes := e.2.2 }) s1.groups }
  let s3 := plan.foldl (fun s e => s.setGroup e.1 (restoreGroup s e.2.1 e.2.2)) s2
  s3.modDie (coreDie k) (fun d => { d with waits := d.waits ++ restoreWaits loads })

/-- Puts the saved blocks of a die back in turn; none when a core has no room yet (R236). -/
def restoreBlocks (lid : Nat) (l : Launch) (v : Saved) (P : Part) : List (Nat × Block) → State → Option State
  | [], s => some s
  | e :: es, s =>
    let k := shiftCore v P e.2.core
    let planes := (savedGroups v e.2).flatMap (fun g => State.Group.held g.2)
    let entries := (((tfind v.cores e.2.core).getD Core.fresh).ovf.filter (fun o => planes.contains o.plane)).length
    if s.canTake k (restoreNeed l.header lid v e.2) && decide ((s.core k).ovf.length + entries ≤ Config.overflowEntries) then
      restoreBlocks lid l v P es (restoreBlock s lid v P e.1 e.2)
    else none

/-- The cores of a saved context on the die that stands at `p` now, as the image gives them: by core index, with tables and arrivals. -/
def imageCores (lid : Nat) (v : Saved) (P : Part) (p i : Nat) : List (Nat × Core) :=
  let at_ := sectionStart v i
  let n := (sectionOf v i).cores
  let mine := v.cores.filter (fun e => shiftDie v P (coreDie e.1) == p)
  if sub v.got at_ n = sub v.bytes at_ n then mine.map (fun e => (coreIdx e.1, e.2)) else readCores lid mine.length (sub v.got at_ n)

/-- What a core takes back beside its blocks: companding tables and arrivals (R155, R237). -/
def restoreCores (s : State) (lid : Nat) (v : Saved) (P : Part) (p i : Nat) : State :=
  (imageCores lid v P p i).foldl (fun s e =>
    s.modCore (coreKey p e.1) (fun c =>
      { c with ctab := e.2.ctab, landing := c.landing ++ e.2.landing.filter (fun a => a.launch == lid) })) s

/-- What a die's coach house takes back (R237): the groups that waited there and, until the launch resumes, its items under the die's
old place; items that the image has changed are packed again where their step was visible (R62). -/
def restoreItems (s : State) (lid : Nat) (v : Saved) (P : Part) (p i : Nat) : State :=
  let at_ := sectionStart v i + (sectionOf v i).cores + (sectionOf v i).blocks
  let n := (sectionOf v i).items
  let old := p - 30 * P.y0 + 30 * v.y0
  if sub v.got at_ n = sub v.bytes at_ n then
    let ps := (v.protos.filter (fun e => shiftDie v P e.1 == p)).map (fun e => e.2)
    s.modDie p (fun d => { d with protos := d.protos ++ ps })
  else
    match s.launch? lid with
    | none => s
    | some l =>
      let is := readItems old s.fresh (n / 32) (sub v.got at_ n)
      let seen := tget 0 l.seen (placeNo (.die old))
      let packed := distinct ((is.filter (fun i => decide (i.step < seen))).map (fun i => i.step))
      let s1 : State := { s with fresh := s.fresh + is.length }
      let s2 := s1.modLaunch lid (fun l => { l with items := l.items.filter (fun i => i.die != old) ++ is })
      let s3 := packed.foldl (fun s j => packDie s old lid j) s2
      let mine := (s3.die old).protos.filter (fun q => q.launch == lid)
      (s3.modDie old (fun d => { d with protos := d.protos.filter (fun q => q.launch != lid) })).modDie p (fun d =>
        { d with protos := d.protos ++ mine })

/-- A restore that a die rejects, with the die's completion packet (R330, R360). -/
def rejectRestore (s : State) (lid holder die : Nat) (image : Word) : State := mailTo (failRestore s lid holder) die ⟨3, lid, image, 2⟩

/-- RESTORE_DIE_READY (R236, R330, R331): a die that executed CTXLD reads its records and places its blocks once its cores have room. -/
def execRestoreDieReady (part die : Nat) (s : State) : Out :=
  match (s.die die).load, s.part? part with
  | some lid, some P =>
    (match s.launch? lid, holderOf s lid with
    | some l, some (holder, v0) =>
      if l.part != part || s.partOfDie die != some part || l.phase != .restoring then .next s
      else
        let s0 := s.walked P none l.image v0.bytes.length
        (match s.readVa P none l.image v0.bytes.length with
        | none => .next (rejectRestore s0 lid holder die l.image)
        | some bs =>
          if !headerOk s P l v0 bs then .next (rejectRestore s0 lid holder die l.image)
          else
            let v : Saved := { v0 with got := bs }
            let i := s.logDie P die
            let mine := v.blocks.filter (fun e => shiftDie v P (coreDie e.2.core) == die)
            match restoreBlocks lid l v P mine s0 with
            | none => .next s
            | some s1 =>
              let s2 := restoreItems (restoreCores s1 lid v P die i) lid v P die i
              let s3 := (s2.modDie die (fun d => { d with load := none })).modPart holder (fun H => { H with saved := putSaved H.saved v })
              -- DESIGN CHOICE (entry 121): every die that restores records it.
              let s4 := (s3.bboxAdd die ⟨l.image, l.ident, 0xFFFF, 0x09, 0⟩).modLaunch lid (fun l =>
                { l with reports := l.reports ++ [(die, none)] })
              .next (mailTo s4 die ⟨3, lid, l.image, 0⟩))
    | _, _ => .next s)
  | _, _ => .next s

/-- The writes that a restore sends back to their waystations (R235, R330): those behind each record that the image still holds, and
the ones that a changed record gives. -/
def imageWrites (s : State) (v : Saved) (P : Part) : List GWrite :=
  let at_ := sectionStart v v.sections.length
  v.parked.zipIdx.flatMap (fun e =>
    let o := at_ + parkedBytes * e.2
    if sub v.got o parkedBytes = sub v.bytes o parkedBytes then e.1
    else readParked P s.tick (s.fresh + 2 ^ 33 * e.2) (coreKey (30 * v.y0) 0) e.1 (sub v.got o parkedBytes))

/-- A launch as it steps again in a partition: its last commit and child counter are the image's, its parked writes, its items and what
its places have seen are where the partition has them, and its step limit counts from now. -/
def resumed (s : State) (l : Launch) (v : Saved) (P : Part) : Launch :=
  let gw (w : GWrite) : GWrite := { w with core := shiftCore v P w.core, w := { w.w with key := rekey v P w.w.key } }
  { l with
    c := (fieldN v.got 16 8 + 1) % 2 ^ 64
    children := fieldN v.got 40 8
    phase := .stepping
    reports := []
    force := false
    mustCommit := true
    startTick := s.tick
    sinceTick := s.tick
    since := []
    gw := (l.gw ++ imageWrites s v P).map gw
    undo := l.undo.map (fun e => (e.1, rekey v P e.2.1, e.2.2))
    items := l.items.map (fun i => { i with die := shiftDie v P i.die, src := shiftDie v P i.src })
    seen := l.seen.foldl (fun t e => tset t (shiftPlace v P e.1) e.2) [] }

/-- The least time slice (R67): twice the save-plus-restore time measured, as far as TSLICE can hold it; before one is measured, the
time that the panel goes by is free. -/
def leastSlice (P : Part) : Nat := min (2 ^ 32 - 1) (2 * (if P.measured = 0 then Config.measuredBefore else P.measured))

/-- A time slice in microseconds, raised when it is shorter than the least (R67). -/
def raiseSlice (want : Nat) (P : Part) : Part :=
  if want ≠ 0 ∧ want < leastSlice P then { P with tslice := BitVec.ofNat 64 (leastSlice P), sliceRaised := true }
  else { P with tslice := BitVec.ofNat 64 want }

/-- A save and restore that took a number of panel ticks has been measured. DESIGN CHOICE (entry 122): the greatest time counts. -/
def measureSwitch (ticks : Nat) (P : Part) : Part :=
  raiseSlice P.tslice.toNat { P with measured := max P.measured (max 1 ((ticks + 1199) / 1200)) }

/-- RESTORE_RESUME (R67, R330): every die is ready, and the launch resumes. -/
def execRestoreResume (part : Nat) (s : State) : Out :=
  match s.part? part with
  | none => .next s
  | some P =>
    match reportedIn s part P .restoring with
    | none => .next s
    | some (lid, l) =>
      match holderOf s lid with
      | none => .next s
      | some (holder, v) =>
        let s1 := { s with fresh := s.fresh + 2 ^ 33 * v.parked.length }.modLaunch lid (fun _ => resumed s l v P)
        let s2 := s1.modPart holder (fun P => { P with saved := P.saved.filter (fun w => w.launch != lid) })
        let s3 := s2.modPart part (measureSwitch (l.saveTook + (s.tick - l.cmdTick)))
        .next ((endCommand s3 lid 0).record lid 5 0xFF 0xFFFF)

/-! ## Pre-emption begins (R234, R262, R329) -/

/-- Tells every die to save a launch (R329). -/
def beginPreempt (s : State) (lid p : Nat) (P : Part) (image : Word) (force queued : Bool) : State :=
  let s1 := s.modLaunch lid (fun l => 
    { l with phase := .preempting, image := image, reports := [], force := force, queued := queued, cmdTick := s.tick })
  mailAll (s1.modPart p (fun P => { P with saved := putSaved P.saved (Saved.fresh s P lid image) })) P ⟨1, lid, image, 0⟩

/-- The panel ticks of a time slice in microseconds (R6, R264). -/
def sliceTicks (P : Part) : Nat := 1200 * (P.tslice.toNat % 2 ^ 32)

/-- Another launch of the same priority waits and is ready (R262). -/
def rivalWaits (s : State) (lid : Nat) (l : Launch) : Bool :=
  s.launches.any (fun e => e.1 != lid && e.2.part == l.part && e.2.prio == l.prio && e.2.waiting && e.2.phase != .broadcast &&
    launchReady s e.2)

/-- TIME_SLICE_EXPIRY (R67, R262): a launch that has run for its slice while a rival waits is pre-empted to an image address that
the panel's firmware chooses; one that has been restored commits a step first. -/
def execTimeSliceExpiry (launch : Nat) (image : BitVec 64) (s : State) : Out :=
  match s.launch? launch with
  | none => .next s
  | some l =>
    match s.part? l.part with
    | none => .next s
    | some P =>
      if l.phase == .stepping && !l.mustCommit && sliceTicks P != 0 && decide (l.startTick + sliceTicks P ≤ s.tick) &&
          rivalWaits s launch l then .next (beginPreempt s launch l.part P image false true)
      else .next s

end Sys2Proof.Machine
end

