-- ==== Sys2Proof/Machine/Command.lean ====
section
/-! DEFINITION. The host interface of a partition: its registers (R259, R260, R264, R266), its commands (R251, R262, R265, R269, R273),
the debug stop (R270), and the port's IDE stream (R250). -/

namespace Sys2Proof.Machine

/-! ## Registers as the host reads them (R260, R264) -/

/-- The partition bound to the management port, the port at north edge die 3 (R264, R271). -/
def managed (P : Part) : Bool := P.port == 0

/-- Launches of a partition in a phase. -/
def countPhase (s : State) (p : Nat) (f : Phase → Bool) : Nat := (tsel s.launches (fun l => l.part == p && f l.phase)).length

/-- The partition status register (R260). -/
def statusWord (s : State) (p : Nat) (P : Part) : Word :=
  BitVec.ofNat 64 (stepping s p * 2 ^ 40 + countPhase s p (· == .saved) * 2 ^ 32 + P.ferryRej.toNat * 2 ^ 16 + P.fatal.toNat * 2 ^ 7 +
    P.cfgErr.toNat * 2 ^ 6 + P.sliceRaised.toNat * 2 ^ 5 + P.ideUp.toNat * 2 ^ 4 + P.mode.toNat)

/-- A layout register (R264). -/
def layoutWord (x : Layout) : Word :=
  BitVec.ofNat 64 (x.y0 + 2 ^ 5 * x.y1 + 2 ^ 10 * x.port + 2 ^ 13 * x.used.toNat + 2 ^ 32 * x.links.toNat)

def layoutOf (w : Word) : Layout :=
  ⟨(w.extractLsb' 0 5).toNat, (w.extractLsb' 5 5).toNat, (w.extractLsb' 10 3).toNat, w.getLsbD 13, w.extractLsb' 32 32⟩

/-- An unused layout slot. -/
def Layout.empty : Layout := ⟨0, 0, 0, false, 0⟩

/-- A doubleword of guest settings (R264). -/
def guestWord (c : GuestCfg) (off : Nat) : Word :=
  if off = 0 then c.root else if off = 8 then c.hroot else if off = 16 then c.ways.zeroExtend 64
  else if off = 24 then BitVec.ofNat 64 c.enabled.toNat else 0

/-- Eight bytes of a list as a doubleword. -/
def byteWord (bs : List Byte) (off : Nat) : Word := BitVec.ofNat 64 (fieldN bs off 8)

/-- A doubleword of the physical function's BAR 0 (R260, R263, R264); staged writes are not read back. -/
def hostRegister (s : State) (p : Nat) (P : Part) (off : Nat) : Word :=
  if off = 0x0000 then statusWord s p P
  else if off = 0x0008 then P.cmd
  else if off = 0x0010 then P.cmdarg
  else if off = 0x0018 then P.tslice
  else if off = 0x0080 then P.lrring
  else if off = 0x0088 then P.prring
  else if off = 0x0090 then P.dbstop
  else if off = 0x0098 then P.dbmsg
  else if off = 0x00A0 then P.dbin
  else if off = 0x00B0 then P.ferryBase
  else if off = 0x00B8 then P.ferryLen
  else if off = 0x00C0 then P.hostRoot
  else if off = 0x00C8 then BitVec.ofNat 64 s.mlog.length
  else if 0x0100 ≤ off ∧ off < 0x0140 then layoutWord ((tfind s.layouts ((off - 0x100) / 8)).getD Layout.empty)
  else if off = 0x0140 then BitVec.ofNat 64 s.pinq
  else if 0x0200 ≤ off ∧ off < 0x0400 then guestWord (P.guest ((off - 0x200) / 64)) (off % 64)
  else if 0x0400 ≤ off ∧ off < 0x04F0 then
    let e := tget (0, 0) P.bins ((off - 0x400) / 16)
    if off % 16 = 0 then e.1 else e.2
  else if 0x0800 ≤ off ∧ off < 0x0F08 then
    BitVec.ofNat 64 ((List.range 4).map (fun i =>
      (((s.physDie? P ((off - 0x800) / 2 + i)).map (fun q => (s.die q).bbIdx)).getD 0) * 2 ^ (16 * i))).sum
  else if 0x1000 ≤ off ∧ off < 0x1080 then byteWord P.cals.iss (off - 0x1000)
  else if 0x1100 ≤ off ∧ off < 0x1200 then byteWord P.cals.link (off - 0x1100)
  else if 0x1200 ≤ off ∧ off < 0x1300 then byteWord P.cals.port (off - 0x1200)
  else if 0x3A00000 ≤ off ∧ off < 0x3B00000 then
    match s.mlog[(off - 0x3A00000) / 32]? with
    | some d => BitVec.ofNat 64 (d.toNat / 2 ^ (8 * (off % 32)))
    | none => 0
  else if 0x100000 ≤ off then
    match s.physDie? P ((off - 0x100000) / 0x10000) with
    | some q =>
      (match tfind (s.die q).bbox (off % 0x10000 / 16) with
      | some r => if off % 16 = 0 then r.a else r.aer ++ r.kind ++ r.core ++ r.b
      | none => 0)
    | none => 0
  else 0

/-! ## Counters through a virtual function (R259, R266) -/

/-- A counter of a guest on the core that its CSEL selects. -/
def selectedCounter (s : State) (P : Part) (g n : Nat) : Word :=
  let sel := tget 0 P.csel g
  match s.physDie? P (sel.extractLsb' 0 16).toNat with
  | none => 0
  | some q =>
    let i := (sel.extractLsb' 16 16).toNat
    if Config.coresPerDie ≤ i then 0 else counterValue s (coreKey q i) (some g) n

/-- COUNTER_READ_LOW (R250, R259): the low half is answered and the high half latched. -/
def execCounterReadLow (part : Nat) (guest : BitVec 3) (n : Nat) (s : State) : Out :=
  match s.part? part with
  | none => .next s
  | some P =>
    if !P.ideUp then .next (answer s part (.bar (some guest) (0x1000 + 8 * n)) .unsupported) else
    let g := guest.toNat
    let v := selectedCounter s P g n
    let s1 := s.modPart part (fun P => { P with latch := tput 0 P.latch g (v.extractLsb' 32 32) })
    .next (answer s1 part (.bar (some guest) (0x1000 + 8 * n)) (.data (leBytes 4 (v.extractLsb' 0 32).toNat)))

/-! ## Debug stop (R270) -/

/-- The group has crossed the block's current local step, and the launch's current global step. -/
def crossedBits (b : Block) (l : Option Launch) (g : Group) : Nat :=
  (decide (b.closed < g.r.lstep)).toNat + 2 * ((l.map (fun l => decide (l.c < g.r.gstep))).getD false).toNat

/-- The fields of a stop record (R270). -/
def stopRecord (b : Block) (l : Option Launch) (die : Nat) (gs : List (Nat × Group)) : List Nat :=
  [die, coreIdx b.core, b.slot, b.closed, (l.map (fun l => l.c)).getD 0] ++
    gs.flatMap (fun e => [e.2.grp, e.2.r.gstep, e.2.r.lstep, crossedBits b l e.2])

/-- DEBUG_STOP (R232, R270): a stop record is appended, and each group of the block takes 0x51 at its next instruction boundary. -/
def execDebugStop (part : Nat) (data : BitVec 64) (s : State) : Out :=
  match s.part? part with
  | none => .next s
  | some P =>
    if !P.ideUp then .next (answer s part (.bar none 0xA8) .unsupported)
    else if Config.coresPerDie ≤ (data.extractLsb' 16 16).toNat then .next s else
    match s.physDie? P (data.extractLsb' 0 16).toNat with
    | none => .next s
    | some p =>
      let k := coreKey p (data.extractLsb' 16 16).toNat
      match (s.blocksOn k).find? (fun e => e.2.slot == (data.extractLsb' 32 2).toNat) with
      | none => .next s
      | some (_, b) =>
        let gs := (s.groupsIn b).filter (fun e => !e.2.retired)
        let s1 := s.ringAdd P P.dbstop (Config.stopBytes (stopRecord b (b.launch.bind s.launch?) (s.logDie P p) gs))
        let n : Notice := { kind := .debug, cause := 0x51, step := none, addr := 0, prog := 0, info := 0, mop := none }
        .next (gs.foldl (fun s e => s.notify e.1 n) s1)

/-! ## Register writes (R264, R266) -/

/-- Command codes of R265. -/
def commandCodes : List Nat := [0x01, 0x02, 0x03, 0x10, 0x11, 0x12, 0x20, 0x30, 0x31, 0x40]

/-- The code of the command register. -/
def Part.code (P : Part) : Nat := (P.cmd.extractLsb' 0 8).toNat

/-- The operand of the command register. -/
def Part.operand (P : Part) : BitVec 32 := P.cmd.extractLsb' 32 32

/-- The codes that no waiting Pre-empt holds back: termination, a forced layout change, a reset (R67). -/
def freeCodes : List Nat := [0x03, 0x11, 0x20]

/-- A write of CMD starts the command; an unlisted code ends at once with MODE = 2 (R264, R265). DESIGN CHOICE (entry 123): while a
command is in progress a write starts nothing; but behind one of R67's free codes a waiting Pre-empt goes on waiting. -/
def startCommand (P : Part) (data : Word) : Part :=
  let code := (data.extractLsb' 0 8).toNat
  let new : Part :=
    { P with cmd := data &&& 0xFFFFFFFF000000FF#64, arg := P.cmdarg, mode := if commandCodes.contains code then 3 else 2, busy := none,
             forceAt := none }
  if P.mode ≠ 3 then new
  else if P.code = 0x01 ∧ P.busy = none ∧ freeCodes.contains code then { new with waiting := P.waiting ++ [(P.operand, P.arg)] }
  else P

/-- A write of CMD: one that holds the code starts the command, and one of the upper half alone sets the operand (entry 124). -/
def writeCommand (d : RegData) (upper : Bool) (data : Word) (P : Part) : Part :=
  match d, upper with
  | .half _, true => if P.mode = 3 then P else { P with cmd := data &&& 0xFFFFFFFF000000FF#64 }
  | _, _ => startCommand P data

/-- A staged register's offset (R264). -/
def isStaged (P : Part) (off : Nat) : Bool :=
  (managed P && (decide (0x100 ≤ off) && decide (off ≤ 0x140))) || (decide (0x200 ≤ off) && decide (off < 0x400)) ||
    (decide (0x1000 ≤ off) && decide (off < 0x1080)) || (decide (0x1100 ≤ off) && decide (off < 0x1300))

/-- A write over a doubleword: all of it, or one of its halves (R264). -/
def writtenOver (d : RegData) (upper : Bool) (old : Word) : Word :=
  match d with
  | .whole x => x
  | .half x => if upper then x ++ old.extractLsb' 0 32 else old.extractLsb' 32 32 ++ x

/-- The bytes that a write carries, and the offset at which they begin. -/
def writtenBytes : RegData → List Byte
  | .whole x => leBytes 8 x.toNat
  | .half x => leBytes 4 x.toNat

/-- A write lands on an aligned doubleword, or on an aligned half (R264). -/
def writtenAligned (d : RegData) (off : Nat) : Bool :=
  match d with
  | .whole _ => off % 8 == 0
  | .half _ => off % 4 == 0

/-- A write touches the low half of its doubleword. -/
def writesLow (d : RegData) (upper : Bool) : Bool :=
  match d with
  | .whole _ => true
  | .half _ => !upper

/-- What a doubleword holds for a write of its half: a write that waits for a command, or the register (R264). -/
def heldWord (s : State) (p : Nat) (P : Part) (off : Nat) : Word :=
  ((P.staged.find? (fun w => w.off == off)).map (fun w => w.data)).getD (hostRegister s p P off)

/-- Puts bytes into a staging area (R264, R266). -/
def stageBytes (t : Table Byte) (at_ : Nat) (bs : List Byte) : Table Byte := bs.zipIdx.foldl (fun t e => tput 0 t (at_ + e.2) e.1) t

/-- A write of a doubleword of the physical function's map, or of its upper or lower half (R7, R264). -/
def writeRegister (s : State) (p : Nat) (P : Part) (off : Nat) (upper : Bool) (d : RegData) : State :=
  let put (f : Part → Part) : State := s.modPart p f
  let data := writtenOver d upper (heldWord s p P off)
  if off = 0x0000 then put (fun P =>
    let data := writtenOver d upper 0
    { P with
      ferryRej := P.ferryRej &&& ~~~(data.extractLsb' 16 16)
      cfgErr := P.cfgErr && !data.getLsbD 6
      sliceRaised := P.sliceRaised && !data.getLsbD 5 })
  else if off = 0x0008 then put (writeCommand d upper data)
  else if off = 0x0010 then put (fun P => { P with cmdarg := data })
  else if off = 0x0018 then put (fun P => if writesLow d upper then raiseSlice (data.toNat % 2 ^ 32) P else P)
  else if 0x0040 ≤ off ∧ off < 0x0080 then
    put (fun P => { P with lpkt := stageBytes P.lpkt (off - 0x40 + if upper then 4 else 0) (writtenBytes d) })
  else if off = 0x0080 then put (fun P => { P with lrring := data })
  else if off = 0x0088 then put (fun P => { P with prring := data })
  else if off = 0x0090 then put (fun P => { P with dbstop := data })
  else if off = 0x0098 then put (fun P => { P with dbmsg := data })
  else if off = 0x00A0 then put (fun P => { P with dbin := data })
  else if off = 0x00B0 then put (fun P => { P with ferryBase := data })
  else if off = 0x00B8 then put (fun P => { P with ferryLen := BitVec.ofNat 64 (data.toNat % 2 ^ 51) })
  else if off = 0x00C0 then put (fun P => { P with hostRoot := data })
  else if 0x0400 ≤ off ∧ off < 0x04F0 then
    put (fun P =>
      let b := (off - 0x400) / 16
      let e := tget (0, 0) P.bins b
      { P with bins := tput (0, 0) P.bins b (if off % 16 = 0 then (data, e.2) else (e.1, data)) })
  else if isStaged P off then put (fun P => { P with staged := P.staged.filter (fun w => w.off != off) ++ [⟨off, data⟩] })
  else s

/-- A write of a doubleword of a virtual function's map, or of its upper or lower half (R266). -/
def writeVirtual (s : State) (p g off : Nat) (upper : Bool) (d : RegData) : State :=
  if off = 0 then
    s.modPart p (fun P =>
      let data := writtenOver d upper (tget 0 P.csel g)
      { P with csel := tput 0 P.csel g (BitVec.ofNat 64 (data.toNat % 2 ^ 32)) })
  else if 0x0040 ≤ off ∧ off < 0x0080 then
    s.modPart p (fun P => { P with vlpkt := stageBytes P.vlpkt (64 * g + (off - 0x40) + if upper then 4 else 0) (writtenBytes d) })
  else s

/-- REGISTER_WRITE (R264, R266): an aligned doubleword or an aligned half, inside an IDE stream (R250). The writes of a whole doubleword
that post a packet or stop a block have rows of their own, and a half of one starts nothing (entry 124). -/
def execRegisterWrite (part : Nat) (guest : Option (BitVec 3)) (off : Nat) (data : RegData) (s : State) : Out :=
  match s.part? part with
  | none => .next s
  | some P =>
    if !P.ideUp then .next (answer s part (.bar guest off) .unsupported)
    else if !writtenAligned data off then .next s
    else
      match guest with
      | some g => .next (writeVirtual s part g.toNat (off / 8 * 8) (off % 8 == 4) data)
      | none => .next (writeRegister s part P (off / 8 * 8) (off % 8 == 4) data)

/-! ## Host reads (R102, R250, R259, R264, R266) -/

/-- A doubleword of a virtual function's map (R266). -/
def virtualRegister (s : State) (P : Part) (g off : Nat) : Word :=
  if off = 0 then tget 0 P.csel g
  else if 0x1000 ≤ off ∧ off < 0x10000 then selectedCounter s P g ((off - 0x1000) / 8)
  else 0

/-- A half of a doubleword. -/
def halfOf (x : Word) (upper : Bool) : List Byte := leBytes 4 (if upper then x.extractLsb' 32 32 else x.extractLsb' 0 32).toNat

/-- A read of a BAR 0 (R259, R264, R266): an aligned doubleword or half; the low half of a counter latches the high one, which a read of
the high half returns. -/
def barRead (s : State) (part : Nat) (P : Part) (guest : Option (BitVec 3)) (off len : Nat) : State :=
  let src : HostSrc := .bar guest off
  let base := off / 8 * 8
  let upper := off % 8 == 4
  if !((len = 8 ∧ off % 8 = 0) ∨ (len = 4 ∧ off % 4 = 0)) then answer s part src .unsupported
  else
    match guest with
    | none =>
      let x := hostRegister s part P base
      answer s part src (.data (if len = 8 then leBytes 8 x.toNat else halfOf x upper))
    | some g =>
      let x := virtualRegister s P g.toNat base
      if len = 8 then answer s part src (.data (leBytes 8 x.toNat))
      else if 0x1000 ≤ base ∧ base < 0x10000 then
        if upper then answer s part src (.data (leBytes 4 (tget 0 P.latch g.toNat).toNat))
        else
          answer (s.modPart part (fun P => { P with latch := tput 0 P.latch g.toNat (x.extractLsb' 32 32) })) part src (.data (halfOf x false))
      else answer s part src (.data (halfOf x upper))

/-- HOST_READ (R102, R217, R250, R264, R266, R437): answered with Unsupported Request outside an IDE stream; memory is not read through a
contained port (R245) or by a frozen requester (R244). -/
def execHostRead (part : Nat) (src : HostSrc) (len : Nat) (s : State) : Out :=
  match s.part? part with
  | none => .next s
  | some P =>
    match src with
    | .bar guest off =>
      if !P.ideUp then .next (answer s part src .unsupported) else .next (barRead s part P guest off len)
    | .at_ a =>
      if P.fatal || hostFrozen P then .next s
      else if !P.ideUp then .next (answer s part src .unsupported)
      else
        match a with
        | .mem va => .next (hostReadMem s part P va len)
        | .weight die off => .next (hostReadWeight s part P die off len)

/-- IDE_STREAM_ESTABLISHED (R250, R260). -/
def execIdeStreamEstablished (part : Nat) (up : Bool) (s : State) : Out := .next (s.modPart part (fun P => { P with ideUp := up }))

/-! ## Commands on launches (R262, R265) -/

/-- The partition whose command register holds a code in progress. -/
def inProgress (s : State) (part code : Nat) : Option Part :=
  (s.part? part).bind (fun P => if P.mode = 3 ∧ P.code = code then some P else none)

/-- Ends a partition's command. -/
def finishCommand (s : State) (part : Nat) (mode : BitVec 2) : State :=
  s.modPart part (fun P => { P with mode := mode, busy := none, forceAt := none })

/-- A phase in which a partition holds a launch as started, pre-empted or saved (R265). -/
def heldPhase : Phase → Bool
  | .stepping | .preempting | .saved | .restoring => true
  | _ => false

/-- What a Pre-empt of a named launch meets. -/
inductive PreemptNow where
  /-- The command ends with a MODE: the launch is not held, or is saved already. -/
  | ends (mode : BitVec 2)
  /-- It waits: a restored launch has not committed yet (R67). -/
  | waits
  /-- The launch is being saved. -/
  | joins (lid : Nat)
  | begins (lid : Nat)
  deriving DecidableEq, Repr

/-- A Pre-empt of the launch that an identifier names (R67, R265). -/
def preemptNow (s : State) (part : Nat) (id : BitVec 32) : PreemptNow :=
  match (s.byIdent part id).bind (fun i => (s.launch? i).map (fun l => (i, l))) with
  | none => .ends 2
  | some (lid, l) =>
    if !heldPhase l.phase then .ends 2
    else if l.phase = .saved then .ends 0
    else if l.phase = .preempting then .joins lid
    else if l.phase = .restoring || l.mustCommit then .waits
    else .begins lid

/-- Takes up a Pre-empt that waited behind later commands, once its launch may be saved (R67). -/
def takeWaiting (s : State) (part : Nat) (P : Part) (w : BitVec 32 × Word) : State :=
  let s1 := s.modPart part (fun P => { P with waiting := P.waiting.erase w })
  match preemptNow s part w.1 with
  | .begins lid => beginPreempt s1 lid part P w.2 false false
  | _ => s1

/-- PREEMPT (R67, R265): the named launch is saved to CMDARG; after a restore the command waits for a commit. -/
def execPreempt (part : Nat) (s : State) : Out :=
  match s.part? part with
  | none => .next s
  | some P =>
    match P.waiting.find? (fun w => preemptNow s part w.1 != .waits) with
    | some w => .next (takeWaiting s part P w)
    | none =>
      match inProgress s part 0x01 with
      | none => .next s
      | some P =>
        match preemptNow s part P.operand with
        | .ends m => .next (finishCommand s part m)
        | .waits => .next s
        | .joins lid => .next (s.modPart part (fun P => { P with busy := some lid }))
        | .begins lid => .next ((beginPreempt s lid part P P.arg false false).modPart part (fun P => { P with busy := some lid }))

/-- The saved launch of a partition that the header of the image at an address names (R265). -/
def savedAt (s : State) (part : Nat) (P : Part) (image : Word) : Option Nat :=
  match s.readVa P none image 8 with
  | none => none
  | some h =>
    (s.launches.find? (fun e => e.2.phase == .saved && e.2.part == part && e.2.ident.toNat == fieldN h 4 4)).map (fun e => e.1)

/-- RESTORE (R33, R236, R265, R330): the launch whose image stands at CMDARG begins to step again once fewer than 16 do. -/
def execRestore (part : Nat) (s : State) : Out :=
  match inProgress s part 0x02 with
  | none => .next s
  | some P =>
    if P.busy.isSome then .next s
    else
      match savedAt s part P P.arg with
      | none => .next (finishCommand (s.walked P none P.arg 8) part 2)
      | some lid =>
        if 16 ≤ steppingOrSent s part then .next s
        else .next ((beginRestore (s.walked P none P.arg 8) lid part P P.arg).modPart part (fun P => { P with busy := some lid }))

/-- TERMINATE (R238, R265). -/
def execTerminate (part : Nat) (s : State) : Out :=
  match inProgress s part 0x03 with
  | none => .next s
  | some P =>
    match (s.byIdent part P.operand).bind (fun i => (s.launch? i).map (fun l => (i, l))) with
    | none => .next (finishCommand s part 2)
    | some (lid, l) =>
      if heldPhase l.phase || l.phase = .posted || l.phase = .broadcast then .next (finishCommand (s.terminate lid 0) part 0)
      else .next (finishCommand s part 2)

/-! ## Layout and staged writes (R248, R250, R251, R254, R264, R265) -/

/-- The layout in force with the staged layout writes over it. -/
def stagedLayouts (s : State) (P : Part) : Table Layout :=
  (P.staged.filter (fun w => decide (0x100 ≤ w.off) && decide (w.off < 0x140))).foldl
    (fun t w => tput Layout.empty t ((w.off - 0x100) / 8) (layoutOf w.data)) s.layouts

/-- The pinned reservation that a layout command puts in force. -/
def stagedPinq (s : State) (P : Part) : Nat :=
  (P.staged.filter (fun w => w.off == 0x140)).foldl (fun _ w => w.data.toNat % 2 ^ 17) s.pinq

/-- The guest settings with the staged writes. -/
def stagedGuests (P : Part) : Table GuestCfg :=
  (P.staged.filter (fun w => decide (0x200 ≤ w.off) && decide (w.off < 0x400))).foldl (fun t w =>
    let g := (w.off - 0x200) / 64
    let c := tget ⟨0, 0, 0, false⟩ t g
    let c1 : GuestCfg :=
      match w.off % 64 with
      | 0 => { c with root := w.data }
      | 8 => { c with hroot := w.data }
      | 16 => { c with ways := w.data.extractLsb' 0 20 }
      | 24 => { c with enabled := w.data.getLsbD 0 }
      | _ => c
    tput ⟨0, 0, 0, false⟩ t g c1) P.guests

/-- A list with eight bytes replaced. -/
def putDouble (bs : List Byte) (at_ : Nat) (data : Word) : List Byte :=
  bs.take at_ ++ leBytes 8 data.toNat ++ bs.drop (at_ + 8)

/-- The calendars with the staged writes. -/
def stagedCals (P : Part) : Cals :=
  P.staged.foldl (fun c w =>
    if 0x1000 ≤ w.off ∧ w.off < 0x1080 then { c with iss := putDouble c.iss (w.off - 0x1000) w.data }
    else if 0x1100 ≤ w.off ∧ w.off < 0x1200 then { c with link := putDouble c.link (w.off - 0x1100) w.data }
    else if 0x1200 ≤ w.off ∧ w.off < 0x1300 then { c with port := putDouble c.port (w.off - 0x1200) w.data }
    else c) P.cals

/-- The LLC masks of different guests are disjoint (R254). -/
def masksOk (gs : Table GuestCfg) : Bool :=
  gs.all (fun e => gs.all (fun f => e.1 == f.1 || (e.2.ways &&& f.2.ways) == 0))

/-- The slots in use of a layout. -/
def usedSlots (t : Table Layout) : List (Nat × Layout) := t.filter (fun e => e.2.used)

/-- A layout is one that R248, R250 and R267 allow: bands of two rows or more that cover every row once, ports and links given to
one partition each. -/
def layoutOk (t : Table Layout) : Bool :=
  let us := usedSlots t
  !us.isEmpty && us.all (fun e => decide (e.2.y0 < e.2.y1) && decide (e.2.y1 < 30)) &&
    (List.range 30).all (fun y => (us.filter (fun e => decide (e.2.y0 ≤ y) && decide (y ≤ e.2.y1))).length == 1) &&
    us.all (fun e => us.all (fun f => e.1 == f.1 || (e.2.port != f.2.port && (e.2.links &&& f.2.links) == 0)))

/-- The part of a partition that a layout slot describes. -/
def sameSlot (P : Part) (x : Layout) : Bool := x.used && P.y0 == x.y0 && P.y1 == x.y1 && P.port == x.port && P.links == x.links

/-- The partitions that a layout affects (R251). -/
def affected (s : State) (t : Table Layout) : List Nat :=
  (s.parts.filter (fun e => !sameSlot e.2 ((tfind t e.1).getD Layout.empty))).map (fun e => e.1)

/-- A waiting launch packet of an affected partition is rejected with reason 5; what dies have placed for it is freed (R251). -/
def rejectWaiting (s : State) (lid : Nat) : State :=
  match s.launch? lid with
  | none => s
  | some l =>
    let s1 := (s.blocksOf lid).foldl (fun s b => s.dropBlock b) s
    let s2 : State :=
      { s1 with dies := s1.dies.map (fun e => (e.1, { e.2 with
          mbox := e.2.mbox.filter (fun m => m.launch != lid)
          launchq := e.2.launchq.filter (fun q => q.word.extractLsb' 0 32 != l.ident || s1.partOfDie e.1 != some l.part) })) }
    s2.reject lid 5 0xFFFF

/-- The launches of some partitions that have not started. -/
def notStarted (s : State) (ps : List Nat) : List Nat :=
  tsel s.launches (fun l => ps.contains l.part && (l.phase == .posted || l.phase == .broadcast))

/-- The partition of a slot under a new layout: what the host has set stays with the slot. -/
def rebuilt (s : State) (q : Nat) (e : Nat × Layout) : Nat × Part :=
  match s.part? e.1 with
  | some P => (e.1, if sameSlot P e.2 then P else { P with y0 := e.2.y0, y1 := e.2.y1, port := e.2.port, links := e.2.links, q := q })
  | none => (e.1, Part.fresh e.2.y0 e.2.y1 e.2.port e.2.links q)

/-- Contexts saved by partitions that a layout removes go to the partition that commands it. -/
def inherit (s : State) (t : Table Layout) (part : Nat) : State :=
  let gone := (s.parts.filter (fun e => !((tfind t e.1).getD Layout.empty).used)).map (fun e => e.1)
  let vs := (s.parts.filter (fun e => gone.contains e.1)).flatMap (fun e => e.2.saved)
  let s1 := s.modPart part (fun P => { P with saved := P.saved ++ vs })
  { s1 with launches := s1.launches.map (fun e =>
      (e.1, if gone.contains e.2.part && e.2.phase == .saved then { e.2 with part := part } else e.2)) }

/-- The bytes of a layout, as the measurement log digests them (R269). -/
def layoutBytes (t : Table Layout) : List Byte :=
  (List.range 8).flatMap (fun i => leBytes 8 (layoutWord ((tfind t i).getD Layout.empty)).toNat)

/-- Puts a partition's staged guest and calendar writes in force (R264). -/
def applyGuests (s : State) (part : Nat) : State :=
  s.modPart part (fun P =>
    { P with guests := stagedGuests P, cals := stagedCals P,
             staged := P.staged.filter (fun w => decide (w.off < 0x200)) })

/-- A command whose staged writes are refused: CFG_ERR is set and nothing changes (R254, R264). -/
def refuseConfig (s : State) (part : Nat) : State :=
  finishCommand (s.modPart part (fun P => { P with cfgErr := true })) part 2

/-- Counters of a guest start at zero when it is created (R256). -/
def clearGuestCounters (s : State) (part : Nat) (old new : Table GuestCfg) : State :=
  let born := (new.filter (fun e => e.2.enabled && !(tget ⟨0, 0, 0, false⟩ old e.1).enabled)).map (fun e => e.1)
  if born.isEmpty then s
  else
    { s with cores := s.cores.map (fun e =>
        (e.1, if s.partOfDie (coreDie e.1) = some part then
          { e.2 with counters := e.2.counters.filter (fun c => !born.contains (c.1 / 8192)) } else e.2)) }

/-- APPLY_STAGED (R265): staged guest and calendar writes take effect. -/
def execApplyStaged (part : Nat) (s : State) : Out :=
  match inProgress s part 0x12 with
  | none => .next s
  | some P =>
    if !masksOk (stagedGuests P) then .next (refuseConfig s part)
    else .next (finishCommand (clearGuestCounters (applyGuests s part) part P.guests (stagedGuests P)) part 0)

/-- Puts a layout in force (R251, R264, R269). -/
def applyLayout (s : State) (part : Nat) (P : Part) : State :=
  let t := stagedLayouts s P
  let q := stagedPinq s P
  let s1 := (notStarted s (affected s t)).foldl rejectWaiting s
  let s2 := clearGuestCounters (applyGuests s1 part) part P.guests (stagedGuests P)
  let s3 := (inherit s2 t part).modPart part (fun P => { P with staged := [] })
  let s4 := finishCommand s3 part 0
  { s4 with
    parts := (usedSlots t).map (rebuilt s4 q)
    layouts := t
    pinq := q
    mlog := s4.mlog ++ [Config.sm3 (layoutBytes t)] }

/-- The staged writes of a layout command are allowed. -/
def layoutAllowed (s : State) (P : Part) : Bool := layoutOk (stagedLayouts s P) && masksOk (stagedGuests P)

/-- LAYOUT_CHANGE (R251, R265): BUSY while an affected partition has a running launch. -/
def execLayoutChange (part : Nat) (s : State) : Out :=
  match inProgress s part 0x10 with
  | none => .next s
  | some P =>
    if !layoutAllowed s P then .next (refuseConfig s part)
    else if (affected s (stagedLayouts s P)).any (launchRuns s) then .next (finishCommand s part 1)
    else .next (applyLayout s part P)

/-- The image address of the next launch that a forced change saves. -/
def forceArea (P : Part) : Word := P.forceAt.getD P.arg

/-- LAYOUT_CHANGE_FORCE (R251, R265): the running launches of the affected partitions are saved one after another, then the layout
is put in force. -/
def execLayoutChangeForce (part : Nat) (s : State) : Out :=
  match inProgress s part 0x11 with
  | none => .next s
  | some P =>
    if !layoutAllowed s P then .next (refuseConfig s part)
    else
      let ps := affected s (stagedLayouts s P)
      let on (f : Phase → Bool) : List (Nat × Launch) := s.launches.filter (fun e => ps.contains e.2.part && f e.2.phase)
      if !(on (fun p => p == .preempting || p == .restoring)).isEmpty then .next s
      else
        match on (· == .stepping) with
        | (lid, l) :: _ =>
          (match s.part? l.part with
          | some Q =>
            .next ((beginPreempt s lid l.part Q (forceArea P) true false).modPart part (fun P => { P with forceAt := some (forceArea P) }))
          | none => .next s)
        | [] =>
          if s.launches.any (fun e => ps.contains e.2.part && e.2.phase == .saved && !e.2.applying.isEmpty) then .next s
          else .next (applyLayout s part P)

/-! ## Reset, release, attestation (R244, R265, R269, R273) -/

/-- The launches of a partition that termination reaches. -/
def openLaunches (s : State) (part : Nat) : List Nat := tsel s.launches (fun l => l.part == part && l.open_)

/-- A failed part has been fenced: a die whose cores all are (R273). A retrained part is no failed part any more. -/
def fencedPart (s : State) : FailedPart → Bool
  | .die p => (List.range Config.coresPerDie).all (fun i => (s.core (coreKey p i)).fenced)
  | .link _ | .stack _ | .tree _ => false

/-- The failed parts of a partition that are neither fenced nor retrained. -/
def failing (s : State) (P : Part) : List FailedPart := P.failures.filter (fun f => !fencedPart s f)

/-- PARTITION_RESET (R256, R273). -/
def execPartitionReset (part : Nat) (s : State) : Out :=
  match inProgress s part 0x20 with
  | none => .next s
  | some P0 =>
    let left := failing s P0
    let s1 := (openLaunches s part).foldl (fun s l => s.terminate l 0) s
    let s2 := s1.modPart part (fun P =>
      { P with saved := [], cals := Cals.reset, ferryRej := 0, cfgErr := false, sliceRaised := false, ideUp := false,
               fatal := P.fatal && !left.isEmpty, failures := left, waiting := [] })
    let s3 : State :=
      { s2 with cores := s2.cores.map (fun e =>
          (e.1, if s2.partOfDie (coreDie e.1) = some part then { e.2 with counters := [], ctab := [] } else e.2)) }
    .next (finishCommand s3 part 0)

/-- The frozen master that a release names: the first one of that die and engine, or the host requester (R265). -/
def namedFrozen (s : State) (P : Part) : Option Frozen :=
  let e := (P.operand.extractLsb' 16 8).toNat
  let die := s.physDie? P (P.operand.extractLsb' 0 16).toNat
  P.frozen.find? (fun f =>
    match f.by_ with
    | .host _ _ => e == 0xFF
    | .engine _ | .move _ => f.engine == e && some f.die == die)

/-- Takes a frozen master off the list. -/
def unfreeze (s : State) (part : Nat) (f : Frozen) : State := s.modPart part (fun P => { P with frozen := P.frozen.erase f })

/-- The launch of a tier move, and the move. -/
def moveOf (s : State) (o : Nat) : Option (Nat × Move) :=
  firstSome (fun (e : Nat × Launch) => (e.2.moves.find? (fun m => m.op == o)).map (fun m => (e.1, m))) s.launches

/-- A frozen tier move's copy stops at its access with cause 0x12 (R126, R244, R314). -/
def faultMove (s : State) (o : Nat) : State :=
  match moveOf s o with
  | some (lid, m) =>
    (match m.phase with
    | .frozen a w n => tellGroup (putMove (s.modDie (coreDie m.core) (fun d => { d with engines := d.engines.filter (fun e => e.2 != o) })) lid
        { m with phase := .stopped }) m.grp 0x12 m.step a n (Info.word { wr := w, eng := true })
    | _ => s)
  | none => s

/-- RELEASE_FAULT (R244, R265): an operation goes on until it stops at the access with cause 0x12; a host request completes with
Completer Abort. -/
def execReleaseFault (part : Nat) (s : State) : Out :=
  match inProgress s part 0x30 with
  | none => .next s
  | some P =>
    match namedFrozen s P with
    | none => .next (finishCommand s part 2)
    | some f =>
      let s1 := finishCommand (unfreeze s part f) part 0
      match f.by_ with
      | .host write a => .next (if write then s1 else answer s1 part (.at_ (.mem a)) .abort)
      | .move o => .next (faultMove s1 o)
      | .engine o => .next { s1 with ops := tmod s1.ops o (fun op => { op with st := .denied }) }

/-- RELEASE_DISCARD (R244, R265): the requester is reset, and the launch of an operation is terminated. -/
def execReleaseDiscard (part : Nat) (s : State) : Out :=
  match inProgress s part 0x31 with
  | none => .next s
  | some P =>
    match namedFrozen s P with
    | none => .next (finishCommand s part 2)
    | some f =>
      let s1 := finishCommand (unfreeze s part f) part 0
      match f.by_ with
      | .host _ _ => .next s1
      | .move o => .next (((moveOf s1 o).map (fun m => s1.terminate m.1 0)).getD s1)
      | .engine o =>
        match tfind s1.ops o with
        | none => .next s1
        | some op =>
          match opLid s1 op with
          | some lid => .next (s1.terminate lid 0)
          | none => .next (completeOp s1 o op.blk [])

/-- The grade map: a bit for each die site in physical order, padded to 128 bytes (R269). -/
def gradeMap (s : State) : List Byte :=
  (List.range 128).map (fun i => BitVec.ofNat 8 ((List.range 8).map (fun b =>
    if 8 * i + b < 900 ∧ !s.disabled.contains (8 * i + b) then 2 ^ b else 0)).sum)

/-- The measurement log as it is digested. -/
def logDigest (s : State) : List Byte := leBytes 32 (Config.sm3 (s.mlog.flatMap (fun d => leBytes 32 d.toNat))).toNat

/-- ATTESTATION_REPORT (R265, R269). -/
def execAttestationReport (part : Nat) (s : State) : Out :=
  match inProgress s part 0x40 with
  | none => .next s
  | some P =>
    let s0 := s.walked P none P.arg 32
    match s.readVa P none P.arg 32 with
    | none => .next (finishCommand s0 part 2)
    | some nonce =>
      let body := nonce ++ logDigest s ++ gradeMap s
      let report := body ++ leBytes 64 (Config.sm2Sign body).toNat
      let s1 := s0.walked P none (P.arg + 32) report.length
      if writable s P (P.arg + 32) report.length then
        .next (finishCommand (s1.writeVa P none (P.arg + 32) report) part 0)
      else .next (finishCommand s1 part 2)

end Sys2Proof.Machine
end

