-- ==== Sys2Proof/Machine/Recovery.lean ====
section
/-! DEFINITION. Recovery: rollback after a strike (R239 to R241, R348, R362), corrected errors and core retirement (R243, R304), and the
errors that contain a partition (R245, R267, R273). -/

namespace Sys2Proof.Machine

/-! ## Rollback (R240) -/

/-- The shadow of a dispatcher that has crossed no boundary since bring-up (R34). -/
def startShadow : Shadow where
  cycle := 0
  r := Regs.start 0 32 0 0 0 0 true
  cells := []
  fmode := 0
  ovf := []
  area := []
  seq := 0

/-- The shadow that an alarm at cycle `a` asks for: the latest boundary crossed at or before `a` − 96, else the group's start. -/
def shadowFor (g : Group) (a : Nat) : Shadow :=
  match g.shadows.find? (fun h => decide (h.cycle + Config.strikeReport ≤ a)) with
  | some h => h
  | none => if g.launch.isNone then startShadow else (g.shadows.getLast?).getD startShadow

/-- What a group issued after ordinal `q`: an operation of it. -/
def opAfter (gid q : Nat) (e : Nat × AsyncOp) : Bool := e.2.gid == gid && decide (q < e.2.seq)

/-- The operations of the span, completed ones too, by number (R240). -/
def cancelled (s : State) (gid q : Nat) (b : Block) : List Nat :=
  distinct ((s.ops.filter (opAfter gid q)).map (fun e => e.1) ++
    (b.entries.filter (fun e => e.grp == gid && decide (q < e.seq))).map (fun e => e.op))

/-- The arrivals of cancelled LANDs return to the head of the buffer (R348), one that reached beyond its window with its notice
standing (R133). -/
def returnArrivals (s : State) (b : Block) (ids : List Nat) : State :=
  let back := (b.windows.filter (fun w => ids.contains w.op)).filterMap (fun w =>
    w.filled.map (fun a => { a with told := a.told || w.beyond }))
  s.modCore b.core (fun c => { c with landing := back ++ c.landing })

/-- A block without the local writes and operations of a group's span. -/
def unwindBlock (gid q : Nat) (ids : List Nat) (b : Block) : Block :=
  { b with
    entries := b.entries.filter (fun e => !ids.contains e.op)
    windows := b.windows.filter (fun w => !ids.contains w.op)
    pend := (b.pend.filter (fun w =>
        if w.ofOp then !w.by_.any ids.contains else !(w.w.grp == gid && decide (q < w.w.seq)))).map
      (fun w => if w.ofOp then w else { w with by_ := w.by_.filter (fun o => !ids.contains o) }) }

/-- A launch without the global writes, items, rows, moves and ferry rows of a group's span (R240). -/
def unwindLaunch (gid q : Nat) (l : Launch) : Launch :=
  let mine (g seq : Nat) : Bool := g == gid && decide (q < seq)
  { l with
    gw := l.gw.filter (fun w => !mine w.w.grp w.w.seq)
    items := l.items.filter (fun i => !mine i.grp i.seq)
    btst := l.btst.filter (fun b => !mine b.grp b.seq)
    moves := l.moves.filter (fun m => !(m.phase == .issued && mine m.grp m.seq))
    ferry := l.ferry.filter (fun f => !mine f.grp f.seq) }

/-- Mailbox items that the span's MBXRDs received stand before their mailboxes for the group again, and its requests are dropped
(R362). -/
def returnItems (s : State) (p gid q : Nat) : State :=
  let mine (t : Taken) : Bool := t.group == gid && decide (q < t.seq)
  let gone := (s.loads.filter (fun e => e.2.gid == gid && decide (q < e.2.seq))).map (fun e => e.1)
  s.modDie p (fun d =>
    { d with
      kept := sortBy (fun (t : Taken) => t.seq) (d.taken.filter mine) ++ d.kept
      taken := d.taken.filter (fun t => !mine t)
      waits := d.waits.filter (fun w => !gone.contains w.load) })

/-- The core's planes of a group as its shadow holds them. -/
def restoreCells (x : Shadow) (ps : List Nat) (c : Core) : Core :=
  { c with
    cells := ps.foldl (fun t p => tpaste t x.cells (1024 * p) (1024 * (p + 1))) c.cells
    fmode := ps.foldl (fun m p => planeBits m [p] (x.fmode.getLsbD p)) c.fmode
    ovf := c.ovf.filter (fun e => !ps.contains e.plane) ++ x.ovf }

/-- A stopped matrix instruction that a trap of the span reported stands stopped again. -/
def stopAgain (ops : Table AsyncOp) (n : Notice) : Table AsyncOp :=
  match n.mop with
  | some o => tmod ops o (fun op => { op with st := .stopped, prog := n.prog.toNat })
  | none => ops

/-- A group at its shadow: its crossings that have not passed the hold are withdrawn, and the traps that it took in the span are
pending again (R240). -/
def rewind (g : Group) (x : Shadow) : Group :=
  let again := (g.taken.filter (fun e => decide (x.seq ≤ e.1))).map (fun e => e.2)
  { g with
    r := x.r
    run := none
    notices := again.reverse ++ g.notices
    taken := g.taken.filter (fun e => decide (e.1 < x.seq))
    sent := g.sent.filter (fun e => decide (e.seq ≤ x.seq))
    again := sortBy (fun (r : SentRows) => r.seq) (g.sent.filter (fun e => decide (x.seq < e.seq))) ++ g.again
    heldX := g.heldX.filter (fun e => decide (e.1 < x.r.gstep))
    shadows := g.shadows.filter (fun h => decide (h.seq ≤ x.seq))
    tlbi := g.tlbi.bind (fun t => if x.seq < t.seq then none else some t) }

/-- Rolls one group back (R240). -/
def rollback (a k : Nat) (s : State) (gid : Nat) : State :=
  match s.group? gid with
  | none => s
  | some g =>
    let x := shadowFor g a
    let q := x.seq
    let b := s.blockOf g
    let ids := cancelled s gid q b
    let gone := b.entries.filter (fun e => ids.contains e.op)
    let s1 := (returnArrivals s b ids).modBlock g.blk (fun b =>
      let b1 := unwindBlock gid q ids b
      { b1 with mem := tpaste b1.mem x.area g.spillBase g.spillEnd })
    let s2 : State :=
      { s1 with
        ops := s1.ops.filter (fun e => !ids.contains e.1)
        launches := s1.launches.map (fun e => (e.1, if g.launch = some e.1 then unwindLaunch gid q e.2 else e.2)) }
    let s3 := returnItems s2 (coreDie k) gid q
    let s4 : State := { s3 with loads := s3.loads.filter (fun e => !(e.2.gid == gid && decide (q < e.2.seq))) }
    let s5 := s4.modCore k (fun c => restoreCells x g.planes { c with queue := c.queue.filter (fun o => !ids.contains o) })
    let g1 := rewind g x
    let s6 : State := { s5 with ops := g1.notices.foldl stopAgain s5.ops }
    ((s6.freeSlot k gid).setGroup gid g1).settle g.blk gone

/-- Alarms and corrected errors that still count: those of the last 2^30 cycles (R243). -/
def recent (now c : Nat) : Bool := decide (now < c + 2 ^ 30)

/-- STRIKE_ALARM (R240, R247): every group of the core rolls back. -/
def execStrikeAlarm (core : Nat) (s : State) : Out :=
  let p := coreDie core
  let a := s.cycle p
  let gs := (s.groupsOn core).map (fun e => e.1)
  let s1 := gs.foldl (rollback a core) s
  let s2 := s1.modCore core (fun c => { c with alarms := a :: c.alarms.filter (recent a) })
  .next ((s2.bboxAdd p ⟨BitVec.ofNat 64 a, BitVec.ofNat 32 gs.length, BitVec.ofNat 16 (coreIdx core), 0x01, 1⟩).report .correctable p)

/-- WAYSTATION_ALARM (R239, R241): words resolved and not yet applied are resolved again from the pending entries, and held anew; so are
the later phases of declared commits (entry 46). -/
def execWaystationAlarm (way : Nat) (s : State) : Out :=
  let again (w : GWrite) : GWrite :=
    if w.stage != .applied && wayOfKey w.w.key == some way then { w with cycle := s.tick } else w
  .next { s with launches := s.launches.map (fun e =>
    (e.1, { e.2 with applying := e.2.applying.map again, declared := e.2.declared.map (fun d => (d.1, s.tick)) })) }

/-! ## Corrected errors and core retirement (R243, R304) -/

/-- The bank of a local address (R20, R103). -/
def bankOf (a : Nat) : Nat := a / 4 % 32

/-- ECC_CORRECTED (R20, R243, R245 to R247): recorded with its core for a local store (0) or a register file (1), and as an event of the
die for the LLC, the DRAM, the weight store and the cold tier (2 to 5); an error of a local-store bank counts towards the core's
retirement. -/
def execEccCorrected (die store core : Nat) (addr : BitVec 64) (s : State) : Out :=
  let now := s.cycle die
  let record (s : State) (c : BitVec 16) : State :=
    (s.bboxAdd die ⟨addr, BitVec.ofNat 32 store, c, 0x02, 1⟩).report .correctable die
  if store < 2 then
    if Config.coresPerDie ≤ core then .next s
    else
      let s1 := if store = 0 then
          s.modCore (coreKey die core) (fun c => { c with eccs := (bankOf addr.toNat, now) :: c.eccs.filter (fun e => recent now e.2) })
        else s
      .next (record s1 (BitVec.ofNat 16 core))
  else if store < 6 then .next (record s 0xFFFF)
  else .next s

/-- The core has had 16 alarms, or 4 corrected errors in one bank, within 2^30 cycles. -/
def worn (s : State) (k : Nat) : Bool :=
  let c := s.core k
  let now := s.cycle (coreDie k)
  let es := c.eccs.filter (fun e => recent now e.2)
  decide (16 ≤ (c.alarms.filter (recent now)).length) || es.any (fun e => decide (4 ≤ (es.filter (fun f => f.1 == e.1)).length))

/-- Records that a spare takes a core's index (R19, R247). -/
def noteRetirement (s : State) (k : Nat) : State :=
  if (s.core k).noted then s
  else
    let p := coreDie k
    let n := tget 0 (s.die p).phys (coreIdx k)
    let s1 := s.modCore k (fun c => { c with noted := true })
    (s1.bboxAdd p ⟨BitVec.ofNat 64 (((spareNumbers p)[n]?).getD 0), 0, BitVec.ofNat 16 (coreIdx k), 0x06, 1⟩).report .correctable p

/-- A retirement is over once no block of the index has still to move: the spare starts with no history and an empty TLB. -/
def settleCore (s : State) (k : Nat) : State :=
  let bs := s.blocksOn k
  if (s.core k).retiring && bs.all (fun e => e.2.moved && !e.2.moving) then
    let s1 := (noteRetirement s k).modCore k (fun c =>
      { c with retiring := false, noted := false, alarms := [], eccs := [], tlb := [], gated := false })
    bs.foldl (fun s e => s.modBlock e.1 (fun b => { b with moved := false })) s1
  else s

/-- Fences a core for which no spare is left: its launches are terminated (R243). -/
def fence (s : State) (k : Nat) : State :=
  let ls := distinct ((s.blocksOn k).filterMap (fun e => e.2.launch))
  let s1 := s.modCore k (fun c => { c with fenced := true })
  let s2 := s1.bboxAdd (coreDie k) ⟨0xFFFFFFFFFFFFFFFF, 1, BitVec.ofNat 16 (coreIdx k), 0x06, 2⟩
  ls.foldl (fun s l => s.terminate l 3) (s2.report .nonFatal (coreDie k))

/-- CORE_RETIRE (R243): a worn core is retired to a spare, or fenced when the die has none; a retirement that has nothing left to
move ends. DESIGN CHOICE (entry 126): a dispatcher alone on its core has no close to wait for and moves at once. -/
def execCoreRetire (core : Nat) (s : State) : Out :=
  let c := s.core core
  if c.fenced then .next s
  else if c.retiring then .next (settleCore s core)
  else if !worn s core then .next s
  else
    let p := coreDie core
    let n := (s.die p).spares
    if Config.spareCores ≤ n then .next (fence s core)
    else
      let s1 := s.modDie p (fun d => { d with spares := n + 1, phys := tset d.phys (coreIdx core) n })
      let s2 := s1.modCore core (fun c => { c with retiring := true })
      .next (settleCore (if (s.blocksOn core).all (fun e => e.2.launch.isNone) then moveDispatcher s2 core else s2) core)

/-- BLOCK_MIGRATE (R243, R304): a block whose close has come moves to the spare. -/
def execBlockMigrate (block : Nat) (s : State) : Out :=
  match s.block? block with
  | none => .next s
  | some b =>
    if b.moving && !b.moved then .next (noteRetirement (s.setBlock block { b with moved := true }) b.core) else .next s

/-- MIGRATION_COMPLETE (R304): the block's state stands complete on the spare. -/
def execMigrationComplete (block : Nat) (s : State) : Out :=
  match s.block? block with
  | none => .next s
  | some b =>
    if b.moving && b.moved then .next (settleCore (s.setBlock block { b with moving := false }) b.core) else .next s

/-! ## Containment (R245, R267, R273) -/

/-- A fatal error of a part contains the partition that owns it: the port signals it and every launch is terminated (R245). -/
def contain (s : State) (p : Nat) (f : FailedPart) : State :=
  let s1 := (s.modPart p (fun P => { P with fatal := true, failures := P.failures ++ [f] })).report .fatal p
  (openLaunches s1 p).foldl (fun s l => s.terminate l 4) s1

/-- A die of a partition that records an event which names no die: a free choice. -/
def someDie (s : State) (P : Part) : Nat := ((s.dieList P)[Config.freeNat s.free % max 1 (s.dieCount P)]?).getD (30 * P.y0)

/-- Records an event of a partition that names no die. -/
def recordSomewhere (s : State) (p : Nat) (r : BBox) : State :=
  match s.part? p with
  | some P => { s with free := s.free + 1 }.bboxAdd (someDie s P) r
  | none => s

/-- FEC_CORRECTION (R245, R267): the record stands on a die that the manual does not name. -/
def execFecCorrection (link : BitVec 64) (flits : BitVec 32) (s : State) : Out :=
  let p := Config.freeNat s.free % 900
  .next (({ s with free := s.free + 1 }.bboxAdd p ⟨link, flits, 0xFFFF, 0x0D, 1⟩).report .correctable p)

/-- LINK_INTEGRITY_FAILURE (R245, R267). -/
def execLinkIntegrityFailure (part : Nat) (link : BitVec 64) (flit : BitVec 32) (s : State) : Out :=
  .next (contain (recordSomewhere s part ⟨link, flit, 0xFFFF, 0x0E, 3⟩) part (.link link))

/-- Another member of a waystation's parity group is lost (R207). -/
def mateLost (s : State) (w : Nat) : Bool := s.lost.any (fun v => v != w && v / 5 == w / 5)

/-- DIE_FATAL_ERROR (R207, R245): a fatal error of a die, or the loss of a stack. The first stack that a parity group loses is rebuilt by
parity; the loss of a second is fatal. PRESUMED (entry 125): the die that shares the waystation's index records it. -/
def execDieFatalError (at_ : FatalAt) (cause : BitVec 64) (code : BitVec 32) (s : State) : Out :=
  let fatal (s : State) (p : Nat) (f : FailedPart) : State :=
    let s1 := s.bboxAdd p ⟨cause, code, 0xFFFF, 0x0F, 3⟩
    ((s.partOfDie p).map (fun q => contain s1 q f)).getD s1
  match at_ with
  | .die p => .next (fatal s p (.die p))
  | .stack w =>
    if 900 ≤ w ∨ s.lost.contains w then .next s
    else
      let s1 : State := { s with lost := addTo w s.lost }
      .next (if mateLost s w then fatal s1 w (.stack w) else s1)

/-- HORIZON_TREE_FAILURE (R245). -/
def execHorizonTreeFailure (part : Nat) (segment : BitVec 64) (id : BitVec 32) (s : State) : Out :=
  .next (contain (recordSomewhere s part ⟨segment, id, 0xFFFF, 0x10, 3⟩) part (.tree segment))

/-- A part that retraining a link brings back: the link, or the segment of the horizon tree that runs over it. -/
def byLink : FailedPart → Bool
  | .link _ | .tree _ => true
  | .die _ | .stack _ => false

/-- LINK_RETRAINING (R273): the partition's failed links are retrained, and a reset of the partition may clear FATAL (entry 127). -/
def execLinkRetraining (part : Nat) (s : State) : Out :=
  .next (s.modPart part (fun P => { P with failures := P.failures.filter (fun f => !byLink f) }))

end Sys2Proof.Machine
end

