-- ==== Sys2Proof/Machine/Clock.lean ====
section
/-! DEFINITION. Time and bring-up: the lane-cycle counters (R256, R257), clock caps (R23, R272), the refresh windows of the weight
stores (R218), and bring-up (R271). -/

namespace Sys2Proof.Machine

/-! ## Lane cycles (R257) -/

/-- A group with full registers where R115 has left them empty: those count as the scoreboard's (R121). -/
def withoutRetimed (s : State) (gid : Nat) (g : Group) : Group :=
  let ls := (s.loads.filter (fun e =>
    e.2.gid == gid && (match e.2.src with | .loc _ deps => !deps.isEmpty | _ => false))).map (fun e => e.2)
  let vs := ls.flatMap (fun op => match op.dst with | .vec a p => a :: p.toList | .sca _ => [])
  let ss := ls.flatMap (fun op => match op.dst with | .vec _ _ => [] | .sca a => op.reads.map (fun r => (a + r.lane) % g.sa))
  { g with r := { g.r with ve := g.r.ve.filter (fun r => !vs.contains r), se := g.r.se.filter (fun r => !ss.contains r) } }

/-- Why a group that waits is idle: 4 the horizon or a local close, 5 an empty register, one that a transfer spills or refills among them
(R49), 6 the scoreboard and the rest (R121, R415). -/
def idleReason (s : State) (gid : Nat) (g : Group) : Nat :=
  let b := s.blockOf g
  let ws := scanRun s g g.r.pc 24
  let is := decodeRun g ws
  let cs := ws.map (fun w => (split w).c)
  let lastC := (cs[is.length - 1]?).getD (splitCtl 0)
  let n := passCount (is.getLast?.bind (fun i => passAt g (is.length == 1) i lastC))
  let gl := is.length == ws.length && lastC.g && !g.r.detached
  if g.tlbi.isSome then 6
  else if !aheadOk s g b gl n || (is.any readsLocal && decide (b.closed < g.r.lstep)) then 4
  else if !(is.zip cs).all (fun e => usesFull (withoutRetimed s gid g) e.1 e.2) ||
      !(is.getLast?.map (transferFull s (withoutRetimed s gid g))).getD true then 5
  else 6

/-- The bin of an address: the first whose range holds it, else 15 (R257). -/
def binOf (P : Part) (pc : Word) : Nat :=
  ((List.range 15).find? (fun b =>
    let e := tget (0, 0) P.bins b
    decide (e.1.toNat ≤ pc.toNat) && decide (pc.toNat < e.2.toNat))).getD 15

/-- Lanes of a mask. -/
def popN (m : Mask) : Nat := (lanesOf m).length

/-- What a slot's cycle adds: the guest, the address, and the lanes of each class. -/
structure Tally where
  guest : Option Nat
  pc : Word
  classes : List (Nat × Nat)

/-- A cycle of a group that runs: active, divergent, predicated off, absent (R257). -/
def runTally (s : State) (x : Slot) : Option Tally :=
  match x.last.bind s.group? with
  | none => none
  | some g =>
    let guest := s.guestOf g
    if x.skip then some ⟨guest, x.pc, [(1, popN x.live), (3, 32 - popN x.live)]⟩
    else
      let inside := x.live &&& x.rg
      some ⟨guest, x.pc, [(0, popN (x.act &&& inside)), (1, popN (x.live &&& ~~~x.rg)), (2, popN (inside &&& ~~~x.act)),
        (3, 32 - popN x.live)]⟩

/-- A cycle in which a group is idle for a reason. -/
def idleTally (s : State) (g : Group) (reason : Nat) : Tally :=
  ⟨s.guestOf g, g.r.pc, [(reason, popN g.r.live), (3, 32 - popN g.r.live)]⟩

/-- The slot's run waits out the issue delay of its next instruction (R53). -/
def inDelay (s : State) (k : Nat) (x : Slot) : Bool :=
  match x.group.bind s.group? with
  | none => false
  | some g =>
    match (s.fetchFor g g.r.pc).1.toOption.bind wordOfBytes with
    | none => false
    | some w => decide (s.cycle (coreDie k) < x.free + (split w).c.dly.toNat)

/-- A cycle that a run of another context holds: idle for the calendar, for the next ready group of the context that the entry names
(R257). -/
def heldTally (s : State) (k ctx : Nat) (by_ : Option Nat) : Option Tally :=
  if ((by_.bind s.group?).map (fun g => (s.blockOf g).ctx != ctx)).getD false then
    ((rrOrder s k ctx).find? (fun e => (ready s e.2).isSome)).map (fun e => idleTally s e.2 7)
  else none

/-- What one issue slot counts in the cycle that begins (R257). -/
def slotTally (s : State) (k slot : Nat) : Option Tally :=
  let x := slotOf (s.core k) slot
  let now := s.cycle (coreDie k)
  let ctx := calendarCtx s k slot
  if x.issued = now + 1 ∨ inDelay s k x then runTally s x
  else if now < x.free then (ctx.bind (fun c => heldTally s k c x.last)).or (runTally s x)
  else
    ctx.bind (fun c =>
      (heldTally s k c x.group).or ((rrOrder s k c).head?.map (fun e => idleTally s e.2 (idleReason s e.1 e.2))))

/-- Adds a tally to a core's counters: bits [6:3] of the number give the bin, bits [2:0] the class (R256). -/
def addTally (k : Nat) (s : State) (t : Tally) : State :=
  let bin := binOf (s.partAt k) t.pc
  t.classes.foldl (fun s c => if c.2 = 0 then s else s.count k t.guest (8 * bin + c.1) c.2) s

/-- One cycle of a core: both slots, and a matrix unit that the overflow buffer stalls (R256). -/
def countCore (s : State) (k : Nat) : State :=
  let s1 := [slotTally s k 0, slotTally s k 1].foldl (fun st t => match t with | some t => addTally k st t | none => st) s
  match (s.core k).stalled with
  | some u => s1.count k (some u) 0x086 1
  | none => s1

/-- The cores that have groups. -/
def busyCores (s : State) : List Nat := distinct (s.blocks.map (fun e => e.2.core))

/-- LANE_CYCLE_COUNT (R257): one cycle of the panel's clock passes, and the cores whose die clock ticks in it count. -/
def execLaneCycleCount (s : State) : Out :=
  let t : State := { s with tick := s.tick + 1 }
  let ks := (busyCores s).filter (fun k => s.cycle (coreDie k) != t.cycle (coreDie k))
  .next { ks.foldl countCore s with tick := s.tick + 1 }

/-! ## Clock caps (R23, R272) -/

/-- CLOCK_CAP_CHANGE (R5, R272): a cap of 0.6 to 1.2 GHz in units of 50 MHz. The cycles that a step has used so far keep
counting. -/
def execClockCapChange (die cap : Nat) (s : State) : Out :=
  if cap < 12 ∨ 24 < cap then .next s
  else
    let now := s.cycle die
    let keep (l : Launch) : Launch :=
      if l.since.any (fun e => e.1 == die) then l else { l with since := (die, cycleAt s die l.sinceTick) :: l.since }
    let s1 : State := { s with launches := s.launches.map (fun e => (e.1, if e.2.open_ then keep e.2 else e.2)) }
    .next (s1.modDie die (fun d => { d with cap := cap, cycle0 := now, tick0 := s.tick }))

/-! ## The weight store (R218) -/

/-- Serves a load's waiting reads of a weight-store bank. -/
def serveBank (s : State) (die bank : Nat) (e : Nat × LoadOp) : Nat × LoadOp :=
  match e.2.src, s.group? e.2.gid with
  | .weight, some g =>
    if coreDie (s.blockOf g).core != die then e
    else
      (e.1, { e.2 with reads := e.2.reads.map (fun r =>
        if r.val.isSome || r.key % 2 ^ 29 / 4096 % 16 != bank then r
        else { r with val := (serveValue s e.2 g r 0).map (BitVec.ofNat 64) } ) })
  | _, _ => e

/-- WEIGHT_REFRESH_END (R218): the reads that waited for the bank's window proceed. -/
def execWeightRefreshEnd (die bank : Nat) (s : State) : Out :=
  .next { s with loads := s.loads.map (serveBank s die bank) }

/-! ## Bring-up (R1, R14, R271) -/

/-- A list of disabled dies that a grade allows: none, or 50, ascending. -/
def gradeOk : List Nat → Bool
  | [] => true
  | ps => ps.length == 50 && ps.all (fun p => decide (p < 900)) && (ps.zip (ps.drop 1)).all (fun e => decide (e.1 < e.2))

/-- BRING_UP (R271): the panel as firmware leaves it, with the dies that its grade disables. The count of free values goes on. -/
def execBringUp (disabled : List Nat) (s : State) : Out :=
  if gradeOk disabled then .next { State.reset with disabled := disabled, free := s.free, agenda := s.agenda } else .next s

end Sys2Proof.Machine
end

