-- ==== Sys2Proof/Machine/Dispatch.lean ====
section
/-! DEFINITION. One arm for each row of the opcode table: the meaning it calls. -/

namespace Sys2Proof.Machine

/-- The meaning of each instruction and event. -/
def exec (i : Instr) (s : State) : Host.Outcome State Fault Refusal :=
  match i with
  | .nop c => Sys2Proof.Machine.execNop c s
  | .bra c imm => Sys2Proof.Machine.execBra c imm s
  | .brz c d imm => Sys2Proof.Machine.execBrz c d imm s
  | .brnz c d imm => Sys2Proof.Machine.execBrnz c d imm s
  | .brx c a => Sys2Proof.Machine.execBrx c a s
  | .call c nv ns imm => Sys2Proof.Machine.execCall c nv ns imm s
  | .callx c nv ns a => Sys2Proof.Machine.execCallx c nv ns a s
  | .ret c => Sys2Proof.Machine.execRet c s
  | .exit c => Sys2Proof.Machine.execExit c s
  | .pass c a => Sys2Proof.Machine.execPass c a s
  | .detach c => Sys2Proof.Machine.execDetach c s
  | .brk c => Sys2Proof.Machine.execBrk c s
  | .trap c i0 => Sys2Proof.Machine.execTrap c i0 s
  | .rett c => Sys2Proof.Machine.execRett c s
  | .sadd c ty d a b => Sys2Proof.Machine.execSadd c ty d a b s
  | .ssub c ty d a b => Sys2Proof.Machine.execSsub c ty d a b s
  | .smul c ty d a b => Sys2Proof.Machine.execSmul c ty d a b s
  | .smulh c ty d a b => Sys2Proof.Machine.execSmulh c ty d a b s
  | .sdiv c ty d a b => Sys2Proof.Machine.execSdiv c ty d a b s
  | .srem c ty d a b => Sys2Proof.Machine.execSrem c ty d a b s
  | .sand c ty d a b => Sys2Proof.Machine.execSand c ty d a b s
  | .sor c ty d a b => Sys2Proof.Machine.execSor c ty d a b s
  | .sxor c ty d a b => Sys2Proof.Machine.execSxor c ty d a b s
  | .sshl c ty d a b => Sys2Proof.Machine.execSshl c ty d a b s
  | .sshr c ty d a b => Sys2Proof.Machine.execSshr c ty d a b s
  | .ssar c ty d a b => Sys2Proof.Machine.execSsar c ty d a b s
  | .smin c ty d a b => Sys2Proof.Machine.execSmin c ty d a b s
  | .smax c ty d a b => Sys2Proof.Machine.execSmax c ty d a b s
  | .scmp c ty cond d a b => Sys2Proof.Machine.execScmp c ty cond d a b s
  | .ssel c ty sel d a b => Sys2Proof.Machine.execSsel c ty sel d a b s
  | .smov c ty d a => Sys2Proof.Machine.execSmov c ty d a s
  | .smovi c ty d imm => Sys2Proof.Machine.execSmovi c ty d imm s
  | .smovh c ty d imm => Sys2Proof.Machine.execSmovh c ty d imm s
  | .spopc c ty d a => Sys2Proof.Machine.execSpopc c ty d a s
  | .sclz c ty d a => Sys2Proof.Machine.execSclz c ty d a s
  | .sffs c ty d a => Sys2Proof.Machine.execSffs c ty d a s
  | .sbfx c ty d a b => Sys2Proof.Machine.execSbfx c ty d a b s
  | .sbfi c ty d a b => Sys2Proof.Machine.execSbfi c ty d a b s
  | .slea c ty d a b => Sys2Proof.Machine.execSlea c ty d a b s
  | .pand c d a b => Sys2Proof.Machine.execPand c d a b s
  | .por c d a b => Sys2Proof.Machine.execPor c d a b s
  | .pxor c d a b => Sys2Proof.Machine.execPxor c d a b s
  | .pandn c d a b => Sys2Proof.Machine.execPandn c d a b s
  | .pmov c d a => Sys2Proof.Machine.execPmov c d a s
  | .vadd c ty d a b => Sys2Proof.Machine.execVadd c ty d a b s
  | .vsub c ty d a b => Sys2Proof.Machine.execVsub c ty d a b s
  | .vmul c ty d a b => Sys2Proof.Machine.execVmul c ty d a b s
  | .vmulh c ty d a b => Sys2Proof.Machine.execVmulh c ty d a b s
  | .vmad c ty d a b => Sys2Proof.Machine.execVmad c ty d a b s
  | .vmin c ty d a b => Sys2Proof.Machine.execVmin c ty d a b s
  | .vmax c ty d a b => Sys2Proof.Machine.execVmax c ty d a b s
  | .vabs c ty d a => Sys2Proof.Machine.execVabs c ty d a s
  | .vand c ty d a b => Sys2Proof.Machine.execVand c ty d a b s
  | .vor c ty d a b => Sys2Proof.Machine.execVor c ty d a b s
  | .vxor c ty d a b => Sys2Proof.Machine.execVxor c ty d a b s
  | .vshl c ty d a b => Sys2Proof.Machine.execVshl c ty d a b s
  | .vshr c ty d a b => Sys2Proof.Machine.execVshr c ty d a b s
  | .vsar c ty d a b => Sys2Proof.Machine.execVsar c ty d a b s
  | .vsadd c ty d a b => Sys2Proof.Machine.execVsadd c ty d a b s
  | .vpopc c ty d a => Sys2Proof.Machine.execVpopc c ty d a s
  | .vclz c ty d a => Sys2Proof.Machine.execVclz c ty d a s
  | .vbfx c ty d a b => Sys2Proof.Machine.execVbfx c ty d a b s
  | .vbfi c ty d a b => Sys2Proof.Machine.execVbfi c ty d a b s
  | .vsel c ty sel d a b => Sys2Proof.Machine.execVsel c ty sel d a b s
  | .vcmp c ty cond d a b => Sys2Proof.Machine.execVcmp c ty cond d a b s
  | .vmov c ty d a => Sys2Proof.Machine.execVmov c ty d a s
  | .vmovi c ty d imm => Sys2Proof.Machine.execVmovi c ty d imm s
  | .fadd c rnd d a b => Sys2Proof.Machine.execFadd c rnd d a b s
  | .fsub c rnd d a b => Sys2Proof.Machine.execFsub c rnd d a b s
  | .fmul c rnd d a b => Sys2Proof.Machine.execFmul c rnd d a b s
  | .ffma c rnd d a b => Sys2Proof.Machine.execFfma c rnd d a b s
  | .fmin c rnd d a b => Sys2Proof.Machine.execFmin c rnd d a b s
  | .fmax c rnd d a b => Sys2Proof.Machine.execFmax c rnd d a b s
  | .fdiv c rnd d a b => Sys2Proof.Machine.execFdiv c rnd d a b s
  | .fsqrt c rnd d a => Sys2Proof.Machine.execFsqrt c rnd d a s
  | .frcp c rnd d a => Sys2Proof.Machine.execFrcp c rnd d a s
  | .frsq c rnd d a => Sys2Proof.Machine.execFrsq c rnd d a s
  | .fex2 c rnd d a => Sys2Proof.Machine.execFex2 c rnd d a s
  | .flg2 c rnd d a => Sys2Proof.Machine.execFlg2 c rnd d a s
  | .fsin c rnd d a => Sys2Proof.Machine.execFsin c rnd d a s
  | .fcos c rnd d a => Sys2Proof.Machine.execFcos c rnd d a s
  | .frnd c rnd d a => Sys2Proof.Machine.execFrnd c rnd d a s
  | .fcmp c cond d a b => Sys2Proof.Machine.execFcmp c cond d a b s
  | .hadd c ty rnd d a b => Sys2Proof.Machine.execHadd c ty rnd d a b s
  | .hmul c ty rnd d a b => Sys2Proof.Machine.execHmul c ty rnd d a b s
  | .hfma c ty rnd d a b => Sys2Proof.Machine.execHfma c ty rnd d a b s
  | .cvt c dty sty sat rnd d a => Sys2Proof.Machine.execCvt c dty sty sat rnd d a s
  | .cvtp c dst sty sat rnd d a => Sys2Proof.Machine.execCvtp c dst sty sat rnd d a s
  | .dqcvt c dty src tab len sat rnd d a => Sys2Proof.Machine.execDqcvt c dty src tab len sat rnd d a s
  | .qscl c dst sf len d a => Sys2Proof.Machine.execQscl c dst sf len d a s
  | .qcvt c dst sf len rnd d a => Sys2Proof.Machine.execQcvt c dst sf len rnd d a s
  | .qcmp c tab d a => Sys2Proof.Machine.execQcmp c tab d a s
  | .vperm c ty d a b => Sys2Proof.Machine.execVperm c ty d a b s
  | .vbcast c ty d a b => Sys2Proof.Machine.execVbcast c ty d a b s
  | .vred c ty op d a => Sys2Proof.Machine.execVred c ty op d a s
  | .vscan c ty op d a => Sys2Proof.Machine.execVscan c ty op d a s
  | .ldl c sz d m => Sys2Proof.Machine.execLdl c sz d m s
  | .stl c sz rule sum d m => Sys2Proof.Machine.execStl c sz rule sum d m s
  | .stla c sz sum d m => Sys2Proof.Machine.execStla c sz sum d m s
  | .sldl c sz d m => Sys2Proof.Machine.execSldl c sz d m s
  | .sstl c sz rule sum d m => Sys2Proof.Machine.execSstl c sz rule sum d m s
  | .ldg c sz kind res d m => Sys2Proof.Machine.execLdg c sz kind res d m s
  | .stg c sz rule sum d m => Sys2Proof.Machine.execStg c sz rule sum d m s
  | .stga c sz sum d m => Sys2Proof.Machine.execStga c sz sum d m s
  | .sldg c sz kind res d m => Sys2Proof.Machine.execSldg c sz kind res d m s
  | .sstg c sz rule sum d m => Sys2Proof.Machine.execSstg c sz rule sum d m s
  | .ldw c sz d m => Sys2Proof.Machine.execLdw c sz d m s
  | .pfg c m => Sys2Proof.Machine.execPfg c m s
  | .pgreq c m => Sys2Proof.Machine.execPgreq c m s
  | .cpy c dir rule kind d => Sys2Proof.Machine.execCpy c dir rule kind d s
  | .cpym c dir rule kind d => Sys2Proof.Machine.execCpym c dir rule kind d s
  | .land c d a b => Sys2Proof.Machine.execLand c d a b s
  | .gth c side rule kind d => Sys2Proof.Machine.execGth c side rule kind d s
  | .sct c side rule d => Sys2Proof.Machine.execSct c side rule d s
  | .cpyw c glob d => Sys2Proof.Machine.execCpyw c glob d s
  | .btst c rule d => Sys2Proof.Machine.execBtst c rule d s
  | .btdem c d => Sys2Proof.Machine.execBtdem c d s
  | .btpro c d => Sys2Proof.Machine.execBtpro c d s
  | .mma c kind d a b => Sys2Proof.Machine.execMma c kind d a b s
  | .mmq c kind d a b => Sys2Proof.Machine.execMmq c kind d a b s
  | .mzero c flt d => Sys2Proof.Machine.execMzero c flt d s
  | .mlda c flt d a => Sys2Proof.Machine.execMlda c flt d a s
  | .mdrn c clr flt rnd d a => Sys2Proof.Machine.execMdrn c clr flt rnd d a s
  | .ctld c d a => Sys2Proof.Machine.execCtld c d a s
  | .spawn c fwd d a b => Sys2Proof.Machine.execSpawn c fwd d a b s
  | .lnch c a => Sys2Proof.Machine.execLnch c a s
  | .mbxrd c d a => Sys2Proof.Machine.execMbxrd c d a s
  | .mbxwr c a b => Sys2Proof.Machine.execMbxwr c a b s
  | .rdsr c d a => Sys2Proof.Machine.execRdsr c d a s
  | .wrsr c d a => Sys2Proof.Machine.execWrsr c d a s
  | .rdcnt c d a => Sys2Proof.Machine.execRdcnt c d a s
  | .qtopo c d sel b => Sys2Proof.Machine.execQtopo c d sel b s
  | .tlbinv c scope host gctx a b => Sys2Proof.Machine.execTlbinv c scope host gctx a b s
  | .ctxsv c a => Sys2Proof.Machine.execCtxsv c a s
  | .ctxld c a => Sys2Proof.Machine.execCtxld c a s
  | .launchPacketPost part guest data => Sys2Proof.Machine.execLaunchPacketPost part guest data s
  | .launchBroadcast launch => Sys2Proof.Machine.execLaunchBroadcast launch s
  | .launchUnitPlace die => Sys2Proof.Machine.execLaunchUnitPlace die s
  | .launchStart launch => Sys2Proof.Machine.execLaunchStart launch s
  | .launchComplete launch => Sys2Proof.Machine.execLaunchComplete launch s
  | .runGrant group slot => Sys2Proof.Machine.execRunGrant group slot s
  | .deferredTrapTake group => Sys2Proof.Machine.execDeferredTrapTake group s
  | .writeHoldExpiry h => Sys2Proof.Machine.execWriteHoldExpiry h s
  | .writeArrival launch id => Sys2Proof.Machine.execWriteArrival launch id s
  | .readServe load lane back => Sys2Proof.Machine.execReadServe load lane back s
  | .loadFill load => Sys2Proof.Machine.execLoadFill load s
  | .commitDeclare launch => Sys2Proof.Machine.execCommitDeclare launch s
  | .commitApply launch word order => Sys2Proof.Machine.execCommitApply launch word order s
  | .commitVisible launch place => Sys2Proof.Machine.execCommitVisible launch place s
  | .localClose block order => Sys2Proof.Machine.execLocalClose block order s
  | .stepOverrun launch => Sys2Proof.Machine.execStepOverrun launch s
  | .spawnItemArrival launch id => Sys2Proof.Machine.execSpawnItemArrival launch id s
  | .groupPlace die => Sys2Proof.Machine.execGroupPlace die s
  | .asyncComplete op => Sys2Proof.Machine.execAsyncComplete op s
  | .matrixKstep core => Sys2Proof.Machine.execMatrixKstep core s
  | .landingArrival op recv => Sys2Proof.Machine.execLandingArrival op recv s
  | .mailboxDeliver group => Sys2Proof.Machine.execMailboxDeliver group s
  | .pageWalk core gctx va => Sys2Proof.Machine.execPageWalk core gctx va s
  | .tlbinvBegin group => Sys2Proof.Machine.execTlbinvBegin group s
  | .tlbinvComplete group => Sys2Proof.Machine.execTlbinvComplete group s
  | .tierCopyComplete op => Sys2Proof.Machine.execTierCopyComplete op s
  | .ferrySend launch id => Sys2Proof.Machine.execFerrySend launch id s
  | .ferryArrival part off data => Sys2Proof.Machine.execFerryArrival part off data s
  | .hostWrite part va data => Sys2Proof.Machine.execHostWrite part va data s
  | .hostRead part va len => Sys2Proof.Machine.execHostRead part va len s
  | .saveSequence part die => Sys2Proof.Machine.execSaveSequence part die s
  | .saveImageAssemble part => Sys2Proof.Machine.execSaveImageAssemble part s
  | .restoreDieReady part die => Sys2Proof.Machine.execRestoreDieReady part die s
  | .restoreResume part => Sys2Proof.Machine.execRestoreResume part s
  | .timeSliceExpiry launch image => Sys2Proof.Machine.execTimeSliceExpiry launch image s
  | .preempt part => Sys2Proof.Machine.execPreempt part s
  | .restore part => Sys2Proof.Machine.execRestore part s
  | .terminate part => Sys2Proof.Machine.execTerminate part s
  | .layoutChange part => Sys2Proof.Machine.execLayoutChange part s
  | .layoutChangeForce part => Sys2Proof.Machine.execLayoutChangeForce part s
  | .applyStaged part => Sys2Proof.Machine.execApplyStaged part s
  | .partitionReset part => Sys2Proof.Machine.execPartitionReset part s
  | .releaseFault part => Sys2Proof.Machine.execReleaseFault part s
  | .releaseDiscard part => Sys2Proof.Machine.execReleaseDiscard part s
  | .attestationReport part => Sys2Proof.Machine.execAttestationReport part s
  | .debugStop part data => Sys2Proof.Machine.execDebugStop part data s
  | .counterReadLow part guest n => Sys2Proof.Machine.execCounterReadLow part guest n s
  | .registerWrite part guest off data => Sys2Proof.Machine.execRegisterWrite part guest off data s
  | .strikeAlarm core => Sys2Proof.Machine.execStrikeAlarm core s
  | .waystationAlarm way => Sys2Proof.Machine.execWaystationAlarm way s
  | .eccCorrected core store bank addr => Sys2Proof.Machine.execEccCorrected core store bank addr s
  | .coreRetire core => Sys2Proof.Machine.execCoreRetire core s
  | .blockMigrate block => Sys2Proof.Machine.execBlockMigrate block s
  | .poisonMark die store at_ => Sys2Proof.Machine.execPoisonMark die store at_ s
  | .fecCorrection link flits => Sys2Proof.Machine.execFecCorrection link flits s
  | .linkIntegrityFailure part link flit => Sys2Proof.Machine.execLinkIntegrityFailure part link flit s
  | .dieFatalError die cause code => Sys2Proof.Machine.execDieFatalError die cause code s
  | .horizonTreeFailure part segment id => Sys2Proof.Machine.execHorizonTreeFailure part segment id s
  | .clockCapChange die cap => Sys2Proof.Machine.execClockCapChange die cap s
  | .bringUp disabled => Sys2Proof.Machine.execBringUp disabled s
  | .weightRefreshEnd die bank => Sys2Proof.Machine.execWeightRefreshEnd die bank s
  | .ideStreamEstablished part up => Sys2Proof.Machine.execIdeStreamEstablished part up s
  | .migrationComplete block => Sys2Proof.Machine.execMigrationComplete block s
  | .laneCycleCount => Sys2Proof.Machine.execLaneCycleCount s
  | .unassignedOpcode word => Sys2Proof.Machine.execUnassignedOpcode word s
  | .corePowerGating core gated => Sys2Proof.Machine.execCorePowerGating core gated s
  | .linkRetraining part => Sys2Proof.Machine.execLinkRetraining part s

end Sys2Proof.Machine
end

