-- ==== Sys2Proof/Machine/Cycle.lean ====
section
/-! DEFINITION. One step: the turn that State.agenda names, or, with an empty agenda, the first of an autonomous order that changes something; the
fetch of a group's next instruction with checks 1 to 3 of R279; and how a program word is placed for the host. -/

namespace Sys2Proof.Machine

/-- The instruction that a group's run reaches next, or the trap of checks 1 to 3 of R279, or of its fetch (R209). -/
def reach (s : State) (g : Group) : Except TrapInfo Instr × State :=
  if 24 ≤ g.runNow.count then (.error { cause := 0x04 }, s) else fetchInstr? s g
where
  fetchInstr? (s : State) (g : Group) : Except TrapInfo Instr × State := s.fetchInstr g g.r.pc

/-- The slot in which a group's run issues is free for its next instruction, whose issue delay is `dly`, and slot 1 has not issued in
this cycle before slot 0 (R53, R113, R436). -/
def slotFree (s : State) (g : Group) (dly : Nat) : Bool :=
  let k := (s.blockOf g).core
  let now := s.cycle (coreDie k)
  decide ((slotOf (s.core k) g.runNow.slot).free + dly ≤ now) &&
    !(g.runNow.slot == 0 && decide ((s.core k).slot1.issued = now + 1))

/-- A group's next instruction (R43, R209, R230, R279), once its slot is free for it. Without a run it is granted one first, in the
first slot that is free; a pending step overrun or debug stop is taken before the instruction. -/
def issueTurn (gid : Nat) (s : State) : Out :=
  match s.group? gid with
  | none => .next s
  | some g =>
    if g.retired || g.tlbi.isSome then .next s
    else if g.run.isNone then
      let c := s.core (s.blockOf g).core
      exec (.runGrant gid (if c.slot0.group.isNone then 0 else 1)) s
    else if !(State.takeable g).isEmpty then .next (s.takeNotice gid g)
    else if !slotFree s g 0 then .next s
    else
      match reach s g with
      | (.error t, s1) => .next (s1.syncTrap gid t)
      | (.ok i, s1) => if slotFree s g (delayOf i) then exec i { s1 with cur := some gid } else .next s

/-- Performs one turn. -/
def turn (t : Turn) (s : State) : Out :=
  match t with
  | .issue gid => issueTurn gid { s with cur := some gid }
  | .event i => if i.isEvent then exec i s else .next s
  | .firmware p i => if i.isEvent then .next s else exec i { s with cur := some p }

/-! ## What the panel does on its own -/

/-- Instructions, traps and reads that may go on. -/
def runTurns (s : State) : List Turn :=
  ((s.groups.filter (fun e => e.2.run.isSome && !e.2.retired && e.2.runNow.slot == 0)) ++
      (s.groups.filter (fun e => e.2.run.isSome && !e.2.retired && e.2.runNow.slot != 0))).map (fun e => .issue e.1) ++
    (s.groups.filter (fun e => !e.2.notices.isEmpty)).map (fun e => .event (.deferredTrapTake e.1)) ++
    s.loads.map (fun e => .event (.loadFill e.1)) ++
    s.loads.flatMap (fun e => (e.2.reads.filter (fun r => r.val.isNone)).flatMap (fun r =>
      (List.range (if r.kind = .lag then e.2.lag + 1 else 1)).map (fun back => .event (.readServe e.1 r.lane back))))

/-- Operations in flight that may go on. -/
def opTurns (s : State) : List Turn :=
  s.ops.map (fun e => .event (.asyncComplete e.1)) ++
    s.ops.flatMap (fun e => match e.2.kind with
      | .cpym _ _ _ recv => recv.map (fun r => .event (.landingArrival e.1 r))
      | _ => []) ++
    (s.cores.filter (fun e => !e.2.queue.isEmpty)).map (fun e => .event (.matrixKstep e.1))

/-- The events of a launch on its way from the mailbox to its completion. -/
def launchTurns (e : Nat × Launch) : List Turn :=
  [.event (.launchBroadcast e.1), .event (.launchStart e.1), .event (.launchComplete e.1)]

/-- The events of a launch's steps: writes, commits, items, ferry rows, tier moves. -/
def stepTurns (s : State) (e : Nat × Launch) : List Turn :=
  let cores := (s.blocks.filter (fun b => b.2.launch == some e.1)).map (fun b => b.2.core)
  let words := (e.2.applying.filter (fun w => w.stage != .applied)).map (fun w => w.w.key)
  let held := e.2.gw.filter (fun w => w.stage != .flight && w.stage != .parked)
  let flying := e.2.gw.filter (fun w => w.stage == .flight)
  held.map (fun w => .event (.writeHoldExpiry (.write e.1 w.id))) ++ flying.map (fun w => .event (.writeArrival e.1 w.id)) ++
    e.2.items.map (fun i => .event (.spawnItemArrival e.1 i.id)) ++
    (words ++ [0]).map (fun w => .event (.commitApply e.1 w 0)) ++
    (distinct (cores.map coreDie ++ e.2.items.map (fun i => i.die))).map (fun p => .event (.commitVisible e.1 (.die p))) ++
    (distinct cores).map (fun k => .event (.commitVisible e.1 (.core k))) ++
    [.event (.commitDeclare e.1)] ++ e.2.ferry.map (fun f => .event (.ferrySend e.1 f.id)) ++
    e.2.moves.map (fun m => .event (.tierCopyComplete m.op)) ++ [.event (.stepOverrun e.1)]

/-- How a dispatcher's instructions are written: one run each, no guard, no step boundary. -/
def firmwareCtl : Ctl := ⟨false, 0, true, false, false, false, false, false, 0, 0, 0, false⟩

/-- The dispatcher's next instruction, as R34, R329 and R330 state what it does: it reads an item with MBXRD, and then executes
LNCH, CTXSV or CTXLD for the packet's kind (R360), and nothing for a completion packet. The two alternate with its pc. -/
def dispatcherNext (s : State) (p : Nat) (d : Die) : Option Instr :=
  match s.group? p with
  | none => none
  | some g =>
    if s.loads.any (fun l => l.2.gid == p) || (s.blockOf g).moving then none
    else if g.r.pc.toNat / 12 % 2 = 0 then
      if d.mbox.isEmpty then none else some (.mbxrd firmwareCtl (.dir 0) (.imm 0))
    else
      match (g.getS 1).toNat / 2 ^ 56 with
      | 0 => some (.lnch firmwareCtl (.dir 0))
      | 1 => some (.ctxsv firmwareCtl (.dir 0))
      | 2 => some (.ctxld firmwareCtl (.dir 0))
      | _ => some (.nop firmwareCtl)

/-- The dispatcher of a die runs its next instruction. -/
def dispatcherTurns (s : State) (e : Nat × Die) : List Turn :=
  ((dispatcherNext s e.1 e.2).map (Turn.firmware e.1)).toList

/-- The events of a die. -/
def dieTurns (e : Nat × Die) : List Turn :=
  [.event (.launchUnitPlace e.1), .event (.groupPlace e.1)] ++ e.2.waits.map (fun w => .event (.mailboxDeliver w.group))

/-- The events of a partition: dies that save or restore, and the command in progress. -/
def partTurns (s : State) (e : Nat × Part) : List Turn :=
  (s.dies.filter (fun d => d.2.save.isSome)).map (fun d => .event (.saveSequence e.1 d.1)) ++ [.event (.saveImageAssemble e.1)] ++
    (s.dies.filter (fun d => d.2.load.isSome)).map (fun d => .event (.restoreDieReady e.1 d.1)) ++ [.event (.restoreResume e.1)] ++
    [.event (.preempt e.1), .event (.restore e.1), .event (.terminate e.1), .event (.layoutChange e.1), .event (.layoutChangeForce e.1),
      .event (.applyStaged e.1), .event (.partitionReset e.1), .event (.releaseFault e.1), .event (.releaseDiscard e.1),
      .event (.attestationReport e.1)]

/-- The events of groups and blocks that wait: crossings, shoot-downs, closes, migrations, grants. -/
def groupTurns (s : State) : List Turn :=
  (s.groups.filter (fun e => !e.2.heldX.isEmpty)).map (fun e => .event (.writeHoldExpiry (.crossing e.1))) ++
    (s.groups.filter (fun e => e.2.tlbi.isSome)).flatMap (fun e => [.event (.tlbinvBegin e.1), .event (.tlbinvComplete e.1)]) ++
    s.blocks.map (fun e => .event (.localClose e.1 0)) ++
    (s.blocks.filter (fun e => e.2.moving)).flatMap (fun e => [.event (.blockMigrate e.1), .event (.migrationComplete e.1)]) ++
    s.cores.map (fun e => .event (.coreRetire e.1)) ++
    (s.groups.filter (fun e => e.2.run.isNone && !e.2.retired)).flatMap (fun e =>
      [.event (.runGrant e.1 0), .event (.runGrant e.1 1)])

/-- The turns that the panel may take on its own, in a fixed order. What reaches the panel from outside, and what a sensor or a
timer decides, stands on the agenda. -/
def autonomousTurns (s : State) : List Turn :=
  runTurns s ++ opTurns s ++ s.launches.flatMap (stepTurns s) ++ groupTurns s ++ s.launches.flatMap launchTurns ++
    s.dies.flatMap (dispatcherTurns s) ++ s.dies.flatMap dieTurns ++ s.parts.flatMap (partTurns s)

/-- A turn that changes something; the measurement log grows at commands only. -/
def moves (s : State) (t : Turn) : Bool :=
  match turn t s with
  | .next s1 => !decide (({ s1 with cur := s.cur, mlog := [] } : State) = { s with mlog := [] })
  | _ => false

/-- The turn that the panel takes on its own: the first one that changes something, or else a cycle passes. -/
def autonomous (s : State) : Turn := ((autonomousTurns s).find? (moves s)).getD (.event .laneCycleCount)

/-- One step: the first turn of the agenda, or an autonomous one. -/
def nextTurn (s : State) : Out :=
  match s.agenda with
  | t :: ts => turn t { s with agenda := ts }
  | [] => turn (autonomous s) s

/-! ## Placing an instruction for the host -/

/-- The header of the launch that a placed program belongs to: widths 5 and nothing else, one block of one group of 32 lanes
with 4 tiles, 128 vector and 32 scalar registers, 4,096 bytes of local store and 4,096 of spill area (R27, R28). -/
def placedHeader : List Byte :=
  leBytes 8 0x100000 ++ leBytes 8 0 ++ leBytes 8 0x200000 ++ leBytes 8 0x108000 ++ leBytes 8 0 ++ leBytes 4 0 ++
    (List.range 5).flatMap (fun _ => leBytes 4 1) ++ [5, 0, 0, 0, 0, 0] ++ [1, 1, 32, 0, 0, 4] ++ leBytes 2 128 ++ [32, 0] ++
    leBytes 4 4096 ++ leBytes 4 4096 ++ leBytes 16 0 ++ leBytes 24 0

/-- Page tables for the placed program: root at physical page 1, one table of each level, and the virtual pages 0x100000 and
0x200000 as leaves (R197 to R199). -/
def placedTables (mem : Table Byte) : Table Byte :=
  let k (page ix : Nat) : Nat := keyInter 0 29 (page * 65536 + 8 * ix)
  let m1 := wr64 mem (k 1 0) (0x20003#64)
  let m2 := wr64 m1 (k 2 0) (0x30003#64)
  let m3 := wr64 m2 (k 3 16) (0x1000D5#64)
  wr64 m3 (k 3 32) (0x2000C5#64)

/-- The group that runs a placed program: granted a run at the header's entry address. -/
def placedGroup : Group where
  r := { Regs.start 0x100000 32 0 0x200000 4096 0x108000 false with head := false }
  blk := 1000
  launch := some 1002
  grp := 0
  gwid := 0
  args := []
  fw := 5
  lhdr := 0x300000
  va := 128
  sa := 32
  planes := [0, 1, 2, 3]
  spillBase := 4096
  spillEnd := 8192
  run := some (Run.fresh [])
  notices := []
  taken := []
  sent := []
  again := []
  reported := 0
  heldX := []
  shadows := []
  retired := false
  freed := false
  tlbi := none

def placedBlock : Block where
  core := coreKey 0 1
  slot := 0
  launch := some 1002
  ctx := 0
  bytes := 4096
  spill := 4096
  groups := [1001]
  closed := 0
  mem := []
  pend := []
  entries := []
  windows := []
  crossT := []
  poison := []
  moving := false
  moved := false

def placedLaunch : Launch where
  ident := 1
  order := 1002
  queued := false
  part := 0
  guest := 0
  hdrVa := 0x300000
  hdr := placedHeader
  prio := 0
  preds := []
  phase := .stepping
  reports := []
  c := 0
  seen := []
  gw := []
  applying := []
  undo := []
  logs := []
  dueLogs := []
  hits := []
  declared := []
  btst := []
  moves := []
  ferry := []
  items := []
  children := 0
  final := 0
  since := []
  sinceTick := 0
  startTick := 0
  mustCommit := false
  image := 0
  force := false
  cmdTick := 0
  saveTook := 0

/-- A state with an instruction's bytes placed where the next step fetches: one launch with one block and one group, its
page tables, its run granted in slot 0 of core 1 of die 0, and the group's turn on the agenda. -/
def placeWord (s : State) (bs : List Byte) : State :=
  let m1 := placedTables s.mem
  let m2 := wrL m1 (keyInter 0 29 0x100000) bs
  let core : Core :=
    { Core.fresh with
      ctxs := [(0, some 1002)]
      slot0 := { Slot.fresh with group := some 1001 } }
  let parts := tmod s.parts 0 (fun P => { P with guests := tset P.guests 0 ⟨0, 0x10000, 0, false⟩ })
  { s with
    mem := m2
    parts := parts
    cores := tset s.cores (coreKey 0 1) core
    groups := tset s.groups 1001 placedGroup
    blocks := tset s.blocks 1000 placedBlock
    launches := tset s.launches 1002 placedLaunch
    fresh := max s.fresh 1003
    agenda := [.issue 1001] }

end Sys2Proof.Machine
end

