-- ==== Sys2Proof/Machine/Step.lean ====
section
/-! DEFINITION. The step of the machine, and how the host places one instruction for it. -/

namespace Sys2Proof.Machine

/-- One step of the panel. -/
def step (s : State) : Host.Outcome State Fault Refusal := nextTurn s

/-- The state with the instruction whose bits are `w`, every bit above `nbits` zero, where the next step fetches. -/
def State.withFetchWord (s : State) (nbits w : Nat) : State :=
  placeWord s (bytesOfWord (BitVec.ofNat 96 (w % 2 ^ nbits)))

end Sys2Proof.Machine
end

