-- ==== Sys2Proof/Laws/Encoding.lean ====
section
/-! SUPPORT. Laws of the encoding: the fields of a joined word, and each modifier and operand read back from its own bits. -/

namespace Sys2Proof

theorem extract_append_low {m n : Nat} (x : BitVec m) (y : BitVec n) : (x ++ y).extractLsb' 0 n = y := by
  ext i hi
  simp [BitVec.getLsbD_append, hi]

theorem extract_append_high {m n : Nat} (x : BitVec m) (y : BitVec n) : (x ++ y).extractLsb' n m = x := by
  ext i hi
  simp [BitVec.getLsbD_append, BitVec.getLsbD_eq_getElem hi]

theorem extract_append_below {m n : Nat} (x : BitVec m) (y : BitVec n) (k l : Nat) (h : k + l ≤ n) :
    (x ++ y).extractLsb' k l = y.extractLsb' k l := by
  ext i hi
  simp only [BitVec.getElem_extractLsb', BitVec.getLsbD_append]
  rw [if_pos (by omega)]

theorem bit_append_below {m n : Nat} (x : BitVec m) (y : BitVec n) (k : Nat) (h : k < n) :
    (x ++ y).getLsbD k = y.getLsbD k := by
  simp [BitVec.getLsbD_append, h]

theorem bit_append_top {n : Nat} (b : Bool) (y : BitVec n) : (BitVec.ofBool b ++ y).getLsbD n = b := by
  cases b <;> simp only [BitVec.getLsbD_append, Nat.lt_irrefl, if_false, Nat.sub_self] <;> rfl

theorem splitCtl_joinCtl (c : Ctl) (res : BitVec 7) : splitCtl (joinCtl c res) = c := by
  obtain ⟨ginv, gpred, b, l, g, ea, eb, ed, rg, dly, cph, y⟩ := c
  simp only [splitCtl, joinCtl, Ctl.mk.injEq]
  refine ⟨?_, ?_, ?_, ?_, ?_, ?_, ?_, ?_, ?_, ?_, ?_, ?_⟩ <;>
    first
    | (repeat rw [extract_append_below _ _ _ _ (by omega)]
       exact extract_append_high _ _)
    | (repeat rw [bit_append_below _ _ _ (by omega)]
       exact bit_append_top _ _)

theorem joinCtl_res (c : Ctl) (res : BitVec 7) : (joinCtl c res).extractLsb' 0 7 = res := by
  unfold joinCtl
  repeat rw [extract_append_below _ _ _ _ (by omega)]
  exact BitVec.extractLsb'_eq_self

/-- The fields of a joined word are the fields it was joined from. -/
theorem split_join (r : Raw) : split (join r) = r := by
  obtain ⟨opc, mod, fd, fa, fb, c, res⟩ := r
  simp only [split, join, Raw.mk.injEq]
  refine ⟨?_, ?_, ?_, ?_, ?_, ?_, ?_⟩
  · exact extract_append_high _ _
  · rw [extract_append_below _ _ _ _ (by omega)]
    exact extract_append_high _ _
  · repeat rw [extract_append_below _ _ _ _ (by omega)]
    exact extract_append_high _ _
  · repeat rw [extract_append_below _ _ _ _ (by omega)]
    exact extract_append_high _ _
  · repeat rw [extract_append_below _ _ _ _ (by omega)]
    exact extract_append_high _ _
  · repeat rw [extract_append_below _ _ _ _ (by omega)]
    rw [BitVec.extractLsb'_eq_self, splitCtl_joinCtl]
  · repeat rw [extract_append_below _ _ _ _ (by omega)]
    exact joinCtl_res c res

/-! ## Modifiers -/

@[simp] theorem lo4_append (x y : BitVec 4) : lo4 (x ++ y) = y := extract_append_low x y
@[simp] theorem hi4_append (x y : BitVec 4) : hi4 (x ++ y) = x := extract_append_high x y

@[simp] theorem Ty.ofBits_bits (t : Ty) : Ty.ofBits t.bits = some t := by cases t <;> rfl
@[simp] theorem Cond.ofBits_bits (t : Cond) : Cond.ofBits t.bits = some t := by cases t <;> rfl
@[simp] theorem Rnd.ofBits_bits (t : Rnd) : Rnd.ofBits t.bits = t := by cases t <;> rfl
@[simp] theorem Size.ofBits_bits (t : Size) : Size.ofBits t.bits = t := by cases t <;> rfl
@[simp] theorem Kind.ofBits_bits (t : Kind) : Kind.ofBits t.bits = some t := by cases t <;> rfl
@[simp] theorem Rule.ofBits_bits (t : Rule) : Rule.ofBits t.bits = t := by cases t <;> rfl
@[simp] theorem SumTy.ofBits_bits (t : SumTy) : SumTy.ofBits t.bits = some t := by cases t <;> rfl
@[simp] theorem RedOp.ofBits_bits (t : RedOp) : RedOp.ofBits t.bits = some t := by cases t <;> rfl
@[simp] theorem Fmt.ofBits_bits (t : Fmt) : Fmt.ofBits t.bits = some t := by cases t <;> rfl
@[simp] theorem BlkLen.ofBits_bits (t : BlkLen) : BlkLen.ofBits t.bits = t := by cases t <;> rfl
@[simp] theorem ScaleFmt.ofBits_bits (t : ScaleFmt) : ScaleFmt.ofBits t.bits = some t := by cases t <;> rfl
@[simp] theorem Dir.ofBits_bits (t : Dir) : Dir.ofBits t.bits = some t := by cases t <;> rfl
@[simp] theorem Side.ofBits_bits (t : Side) : Side.ofBits t.bits = some t := by cases t <;> rfl
@[simp] theorem Scope.ofBits_bits (t : Scope) : Scope.ofBits t.bits = t := by cases t <;> rfl
@[simp] theorem Special.ofBits_bits (t : Special) : Special.ofBits t.bits = some t := by cases t <;> rfl

@[simp] theorem tyHi_bits (t : Ty) (x : BitVec 4) : tyHi (t.bits ++ x) = .ok t := by simp [tyHi, orErr]
@[simp] theorem condLo_bits (x : BitVec 4) (t : Cond) : condLo (x ++ t.bits) = .ok t := by simp [condLo, orErr]
@[simp] theorem redLo_bits (x : BitVec 4) (t : RedOp) : redLo (x ++ t.bits) = .ok t := by simp [redLo, orErr]
@[simp] theorem fmtHi_bits (t : Fmt) (x : BitVec 4) : fmtHi (t.bits ++ x) = .ok t := by simp [fmtHi, orErr]
@[simp] theorem zero4_zero : zero4 0#4 = .ok () := rfl
@[simp] theorem zeroMod_zero : zeroMod 0#8 = .ok () := rfl
@[simp] theorem tyMod_bits (t : Ty) : tyMod (t.bits ++ 0#4) = .ok t := by cases t <;> rfl
@[simp] theorem rndLo_bits (x : BitVec 4) (t : Rnd) : rndLo (x ++ (0#2 ++ t.bits)) = .ok t := by
  revert x; cases t <;> decide
@[simp] theorem floatMod_bits (t : Rnd) : floatMod (4#4 ++ (0#2 ++ t.bits)) = .ok t := by cases t <;> rfl
@[simp] theorem fcmpMod_bits (t : Cond) : fcmpMod (4#4 ++ t.bits) = .ok t := by cases t <;> rfl
@[simp] theorem satRnd_bits (x : BitVec 4) (s : Bool) (t : Rnd) :
    satRnd (x ++ (BitVec.ofBool s ++ (0#1 ++ t.bits))) = .ok (s, t) := by
  revert x; cases s <;> cases t <;> decide
@[simp] theorem loadMod_bits (z : Size) : loadMod (z.bits ++ 0#6) = .ok z := by cases z <;> rfl
@[simp] theorem kindMod_bits (z : Size) (k : Kind) (x : BitVec 4) :
    kindMod (z.bits ++ (k.bits ++ x)) = .ok (z, k) := by
  revert x; cases z <;> cases k <;> decide
@[simp] theorem lo4_kind (z : BitVec 2) (k : BitVec 2) (x : BitVec 4) : lo4 (z ++ (k ++ x)) = x :=
  (extract_append_below z (k ++ x) 0 4 (by omega)).trans (extract_append_low k x)
@[simp] theorem storeMod_bits (z : Size) (r : Rule) (t : SumTy) :
    storeMod (z.bits ++ (r.bits ++ t.bits)) = .ok (z, r, t) := by
  cases z <;> cases r <;> cases t <;> rfl
@[simp] theorem accMod_bits (z : Size) (t : SumTy) : accMod (z.bits ++ (0#2 ++ t.bits)) = .ok (z, t) := by
  cases z <;> cases t <;> rfl
@[simp] theorem cpyMod_bits (k : Kind) (r : Rule) (d : Dir) :
    cpyMod (k.bits ++ (r.bits ++ d.bits)) = .ok (d, r, k) := by
  cases k <;> cases r <;> cases d <;> rfl
@[simp] theorem gthMod_bits (k : Kind) (r : Rule) (d : Side) :
    gthMod (k.bits ++ (r.bits ++ d.bits)) = .ok (d, r, k) := by
  cases k <;> cases r <;> cases d <;> rfl
@[simp] theorem sctMod_bits (r : Rule) (d : Side) : sctMod (0#2 ++ (r.bits ++ d.bits)) = .ok (d, r) := by
  cases r <;> cases d <;> rfl
@[simp] theorem cpywMod_bits (g : Bool) : cpywMod (0#4 ++ (if g = true then 0#4 else 2#4)) = .ok g := by cases g <;> rfl
@[simp] theorem btstMod_bits (r : Rule) : btstMod (0#2 ++ (r.bits ++ 0#4)) = .ok r := by cases r <;> rfl
@[simp] theorem mmaMod_bits (k : Kind) : mmaMod (k.bits ++ 0#6) = .ok k := by cases k <;> rfl
@[simp] theorem bit0Mod_bits (b : Bool) : bit0Mod (0#7 ++ BitVec.ofBool b) = .ok b := by cases b <;> rfl
@[simp] theorem mdrnMod_bits (r : Rnd) (f c : Bool) :
    mdrnMod (0#4 ++ (r.bits ++ (BitVec.ofBool f ++ BitVec.ofBool c))) = .ok (c, f, r) := by
  cases r <;> cases f <;> cases c <;> rfl
@[simp] theorem tlbMod_bits (x : BitVec 4) (h : Bool) (s : Scope) :
    tlbMod (x ++ (BitVec.ofBool h ++ (0#1 ++ s.bits))) = .ok (s, h, x) := by
  revert x; cases h <;> cases s <;> decide

/-! ## Operands -/

@[simp] theorem null_nullBits : null nullBits = .ok () := rfl
@[simp] theorem kindOf_regBits (f : BitVec 3) (n : BitVec 11) : kindOf (regBits f n) = 0 := extract_append_high _ _
@[simp] theorem kindOf_idxBits (f x : BitVec 3) (b : BitVec 8) : kindOf (idxBits f x b) = 1 := extract_append_high _ _
@[simp] theorem kindOf_immBits (i : BitVec 14) : kindOf (immBits i) = 2 := extract_append_high _ _
@[simp] theorem immOf_immBits (i : BitVec 14) : immOf (immBits i) = i := extract_append_low _ _
@[simp] theorem fileOf_regBits (f : BitVec 3) (n : BitVec 11) : fileOf (regBits f n) = f :=
  (extract_append_below _ _ 11 3 (by omega)).trans (extract_append_high f n)
@[simp] theorem numOf_regBits (f : BitVec 3) (n : BitVec 11) : numOf (regBits f n) = n :=
  (extract_append_below _ _ 0 11 (by omega)).trans (extract_append_low f n)
@[simp] theorem fileOf_idxBits (f x : BitVec 3) (b : BitVec 8) : fileOf (idxBits f x b) = f :=
  (extract_append_below _ _ 11 3 (by omega)).trans (extract_append_high f _)
@[simp] theorem idxOf_idxBits (f x : BitVec 3) (b : BitVec 8) : idxOf (idxBits f x b) = x :=
  (extract_append_below _ _ 8 3 (by omega)).trans
    ((extract_append_below _ _ 8 3 (by omega)).trans (extract_append_high x b))
@[simp] theorem baseOf_idxBits (f x : BitVec 3) (b : BitVec 8) : baseOf (idxBits f x b) = b :=
  (extract_append_below _ _ 0 8 (by omega)).trans
    ((extract_append_below _ _ 0 8 (by omega)).trans (extract_append_low x b))

@[simp] theorem regBits_low7 (f : BitVec 3) (n : BitVec 7) : (regBits f (0#4 ++ n)).extractLsb' 0 7 = n :=
  (extract_append_below 0#2 _ 0 7 (by omega)).trans
    ((extract_append_below f (0#4 ++ n) 0 7 (by omega)).trans (extract_append_low 0#4 n))
@[simp] theorem regBits_high7 (f : BitVec 3) (n : BitVec 7) : (regBits f (0#4 ++ n)).extractLsb' 7 4 = 0 :=
  (extract_append_below 0#2 _ 7 4 (by omega)).trans
    ((extract_append_below f (0#4 ++ n) 7 4 (by omega)).trans (extract_append_high 0#4 n))
@[simp] theorem regBits_low6 (f : BitVec 3) (n : BitVec 6) : (regBits f (0#5 ++ n)).extractLsb' 0 6 = n :=
  (extract_append_below 0#2 _ 0 6 (by omega)).trans
    ((extract_append_below f (0#5 ++ n) 0 6 (by omega)).trans (extract_append_low 0#5 n))
@[simp] theorem regBits_high6 (f : BitVec 3) (n : BitVec 6) : (regBits f (0#5 ++ n)).extractLsb' 6 5 = 0 :=
  (extract_append_below 0#2 _ 6 5 (by omega)).trans
    ((extract_append_below f (0#5 ++ n) 6 5 (by omega)).trans (extract_append_high 0#5 n))
@[simp] theorem regBits_low4 (f : BitVec 3) (n : BitVec 4) : (regBits f (0#7 ++ n)).extractLsb' 0 4 = n :=
  (extract_append_below 0#2 _ 0 4 (by omega)).trans
    ((extract_append_below f (0#7 ++ n) 0 4 (by omega)).trans (extract_append_low 0#7 n))
@[simp] theorem regBits_high4 (f : BitVec 3) (n : BitVec 4) : (regBits f (0#7 ++ n)).extractLsb' 4 7 = 0 :=
  (extract_append_below 0#2 _ 4 7 (by omega)).trans
    ((extract_append_below f (0#7 ++ n) 4 7 (by omega)).trans (extract_append_high 0#7 n))
@[simp] theorem regBits_low3 (f : BitVec 3) (n : BitVec 3) : (regBits f (0#8 ++ n)).extractLsb' 0 3 = n :=
  (extract_append_below 0#2 _ 0 3 (by omega)).trans
    ((extract_append_below f (0#8 ++ n) 0 3 (by omega)).trans (extract_append_low 0#8 n))
@[simp] theorem regBits_high3 (f : BitVec 3) (n : BitVec 3) : (regBits f (0#8 ++ n)).extractLsb' 3 8 = 0 :=
  (extract_append_below 0#2 _ 3 8 (by omega)).trans
    ((extract_append_below f (0#8 ++ n) 3 8 (by omega)).trans (extract_append_high 0#8 n))

@[simp] theorem need_true (e : DecodeErr) : need e true = .ok () := rfl
@[simp] theorem ok_bind {α β : Type} (x : α) (f : α → Dec β) : ((Except.ok x : Dec α) >>= f) = f x := rfl
/-- A bound step that answers `v` goes on with `v`. -/
theorem bind_of_ok {α β : Type} {x : Dec α} {v : α} {f : α → Dec β} {y : Dec β} (h : x = .ok v) (hf : f v = y) :
    (x >>= f) = y := by
  subst h; exact hf
@[simp] theorem pure_ok {α : Type} (x : α) : (pure x : Dec α) = .ok x := rfl

@[simp] theorem vreg_bits (r : VReg) : vreg r.bits = .ok r := by cases r <;> simp [vreg, VReg.bits]
@[simp] theorem sreg_bits (r : SReg) : sreg r.bits = .ok r := by cases r <;> simp [sreg, SReg.bits]

theorem SReg.kind_ne_imm (r : SReg) : kindOf r.bits ≠ 2#2 := by cases r <;> simp [SReg.bits]
theorem VReg.kind_ne_imm (r : VReg) : kindOf r.bits ≠ 2#2 := by cases r <;> simp [VReg.bits]
@[simp] theorem SReg.file (r : SReg) : fileOf r.bits = 1 := by cases r <;> simp [SReg.bits]
@[simp] theorem VReg.file (r : VReg) : fileOf r.bits = 0 := by cases r <;> simp [VReg.bits]

@[simp] theorem ssrc_bits (r : SSrc) : ssrc r.bits = .ok r := by
  cases r with
  | reg r => simp [ssrc, SSrc.bits, r.kind_ne_imm]
  | imm i => simp [ssrc, SSrc.bits]

@[simp] theorem vsi_bits (r : VSI) : vsi r.bits = .ok r := by
  cases r with
  | vec r => simp [vsi, VSI.bits, r.kind_ne_imm]
  | sca r => simp [vsi, VSI.bits, r.kind_ne_imm]
  | imm i => simp [vsi, VSI.bits]

@[simp] theorem vs_bits (r : VS) : vs r.bits = .ok r := by cases r <;> simp [vs, VS.bits]
@[simp] theorem preg_bits (p : BitVec 4) : preg (pregBits p) = .ok p := by simp [preg, reg4, pregBits]
@[simp] theorem areg_bits (p : BitVec 4) : areg (aregBits p) = .ok p := by simp [areg, reg4, aregBits]
@[simp] theorem xreg_bits (p : BitVec 3) : xreg (xregBits p) = .ok p := by simp [xreg, xregBits]
@[simp] theorem sprOp_bits (s : Special) : sprOp (sprBits s) = .ok s := by simp [sprOp, sprBits, orErr]
@[simp] theorem immOp_bits (i : BitVec 14) : immOp (immBits i) = .ok i := by simp [immOp]

theorem SReg.not_reg_file (r : SReg) (f : BitVec 3) (h : f ≠ 1) : (kindOf r.bits == 0 && fileOf r.bits == f) = false := by
  have h1 : ¬1#3 = f := Ne.symm h
  simp [h1]

theorem VReg.not_reg_file (r : VReg) (f : BitVec 3) (h : f ≠ 0) : (kindOf r.bits == 0 && fileOf r.bits == f) = false := by
  have h1 : ¬0#3 = f := Ne.symm h
  simp [h1]

theorem xregBits_file (x : BitVec 3) : (kindOf (xregBits x) == 0 && fileOf (xregBits x) == 4) = true := by simp [xregBits]
theorem sprBits_file (s : Special) : (kindOf (sprBits s) == 0 && fileOf (sprBits s) == 5) = true := by simp [sprBits]
theorem sprBits_not_index (s : Special) : (kindOf (sprBits s) == 0 && fileOf (sprBits s) == 4) = false := by
  simp [sprBits]
theorem sprBits_kind (s : Special) : (kindOf (sprBits s) == 2) = false := by simp [sprBits]
theorem pregBits_file (p : BitVec 4) : (kindOf (pregBits p) == 0 && fileOf (pregBits p) == 2) = true := by simp [pregBits]

@[simp] theorem smovDst_bits (r : SMovDst) : smovDst r.bits = .ok r := by
  cases r with
  | sca r => simp only [smovDst, SMovDst.bits, r.not_reg_file 4 (by decide)]; simp
  | idx x => simp only [smovDst, SMovDst.bits, xregBits_file]; simp

@[simp] theorem smovSrc_bits (r : SMovSrc) : smovSrc r.bits = .ok r := by
  cases r with
  | sca r => simp only [smovSrc, SMovSrc.bits, r.not_reg_file 4 (by decide), r.not_reg_file 5 (by decide)]; simp
  | idx x => simp only [smovSrc, SMovSrc.bits, xregBits_file]; simp
  | spr s => simp only [smovSrc, SMovSrc.bits, sprBits_file, sprBits_not_index]; simp

@[simp] theorem psrc_bits (r : PSrc) : psrc r.bits = .ok r := by
  cases r with
  | pred p => simp only [psrc, PSrc.bits, pregBits_file]; simp
  | sca r => simp only [psrc, PSrc.bits, r.not_reg_file 2 (by decide)]; simp

@[simp] theorem vmovSrc_bits (r : VMovSrc) : vmovSrc r.bits = .ok r := by
  cases r with
  | vec r => simp only [vmovSrc, VMovSrc.bits, r.not_reg_file 5 (by decide)]; simp [r.kind_ne_imm]
  | sca r => simp only [vmovSrc, VMovSrc.bits, r.not_reg_file 5 (by decide)]; simp [r.kind_ne_imm]
  | spr s => simp only [vmovSrc, VMovSrc.bits, sprBits_file, sprBits_kind]; simp
  | imm i => simp [vmovSrc, VMovSrc.bits]

theorem SReg.ne_null (r : SReg) : (r.bits == nullBits) = false := by
  have h : fileOf r.bits ≠ fileOf nullBits := by rw [r.file]; decide
  simpa using fun e => h (congrArg fileOf e)

@[simp] theorem baseOp_bits (r : Option SReg) : baseOp (baseBits r) = .ok r := by
  cases r with
  | none => rfl
  | some r => simp [baseOp, baseBits, r.ne_null]

@[simp] theorem vmem_bits (m : VMem) : vmem (baseBits m.a) m.b.bits = .ok m := by simp [vmem]
@[simp] theorem smem_bits (m : SMem) : smem (baseBits m.a) m.b.bits = .ok m := by simp [smem]

@[simp] theorem imm_halves (i : BitVec 32) : immHi i ++ immLo i = i := by
  unfold immHi immLo
  apply BitVec.eq_of_getLsbD_eq
  intro k hk
  rw [BitVec.getLsbD_append]
  by_cases h : k < 16
  · simp only [h, if_true, BitVec.getLsbD_extractLsb', decide_true, Bool.true_and, Nat.zero_add]
  · simp only [h, if_false, BitVec.getLsbD_extractLsb']
    rw [show 16 + (k - 16) = k by omega]
    simp [show k - 16 < 16 by omega]

@[simp] theorem cvtSrc_bits (t : Ty) : cvtSrc (immBits (0#10 ++ t.bits)) = .ok t := by
  rw [cvtSrc, immOp_bits, ok_bind]; cases t <;> rfl

@[simp] theorem dqSrc_bits (l : BlkLen) (x : BitVec 2) (f : Fmt) :
    dqSrc (immBits (0#6 ++ (l.bits ++ (x ++ f.bits)))) = .ok (f, x, l) := by
  rw [dqSrc, immOp_bits, ok_bind]; revert x; cases l <;> cases f <;> decide

@[simp] theorem qSrc_bits (l : BlkLen) (f : ScaleFmt) :
    qSrc (immBits (0#6 ++ (l.bits ++ (f.bits ++ 4#4)))) = .ok (f, l) := by
  rw [qSrc, immOp_bits, ok_bind]; cases l <;> cases f <;> rfl

@[simp] theorem qcmpSrc_bits (x : BitVec 2) : qcmpSrc 0x90#8 (immBits (0#6 ++ (0#2 ++ (x ++ 4#4)))) = .ok x := by
  rw [qcmpSrc, immOp_bits]; revert x; decide

/-! ## Operation codes -/

@[simp] theorem Op.ofCode_code (o : Op) : Op.ofCode o.code = some o := by cases o <;> rfl

theorem Op.code_assigned (o : Op) : assignedOpc o.code = true := by cases o <;> rfl

/-- A code that no row has names no instruction. -/
theorem Op.ofCode_unassigned {x : BitVec 10} (h : assignedOpc x = false) : Op.ofCode x = none := by
  cases ho : Op.ofCode x with
  | none => rfl
  | some o =>
    have hx := List.find?_some ho
    have := Op.code_assigned o
    rw [eq_of_beq hx, h] at this
    cases this

/-! ## Words -/

/-- A word whose fields parse to an instruction within its limits decodes to it. -/
theorem decode_join (o : Op) (r : Raw) (i : Instr) (ho : r.opc = o.code) (hr : r.res = 0) (hp : parse o r = .ok i)
    (hf : i.illFormed = none) : decode (join r) = .ok i := by
  simp [decode, split_join, ho, hr, hp, hf]

/-- Two neighbouring fields of a word, joined. -/
theorem extract_join {n : Nat} (w : BitVec n) (k a b : Nat) :
    w.extractLsb' (k + b) a ++ w.extractLsb' k b = w.extractLsb' k (a + b) := by
  apply BitVec.eq_of_getLsbD_eq
  intro i hi
  rw [BitVec.getLsbD_append]
  by_cases hb : i < b
  · simp [hb, hi]
  · simp [hb, hi, show i - b < a by omega, show k + b + (i - b) = k + i by omega]

theorem ofBool_bit {n : Nat} (w : BitVec n) (k : Nat) : BitVec.ofBool (w.getLsbD k) = w.extractLsb' k 1 := by
  apply BitVec.eq_of_getLsbD_eq
  intro i hi
  obtain rfl : i = 0 := by omega
  simp

theorem joinCtl_splitCtl (x : BitVec 30) : joinCtl (splitCtl x) (x.extractLsb' 0 7) = x := by
  simp only [joinCtl, splitCtl, ofBool_bit]
  rw [
    (extract_join x 0 1 7 : x.extractLsb' 7 1 ++ x.extractLsb' 0 7 = x.extractLsb' 0 (1 + 7)),
    (extract_join x 0 2 (1 + 7) : x.extractLsb' 8 2 ++ x.extractLsb' 0 (1 + 7) = x.extractLsb' 0 (2 + (1 + 7))),
    (extract_join x 0 4 (2 + (1 + 7)) : x.extractLsb' 10 4 ++ x.extractLsb' 0 (2 + (1 + 7)) = x.extractLsb' 0 (4 + (2 + (1 + 7)))),
    (extract_join x 0 5 (4 + (2 + (1 + 7))) : x.extractLsb' 14 5 ++ x.extractLsb' 0 (4 + (2 + (1 + 7))) = x.extractLsb' 0 (5 + (4 + (2 + (1 + 7))))),
    (extract_join x 0 1 (5 + (4 + (2 + (1 + 7)))) : x.extractLsb' 19 1 ++ x.extractLsb' 0 (5 + (4 + (2 + (1 + 7)))) = x.extractLsb' 0 (1 + (5 + (4 + (2 + (1 + 7)))))),
    (extract_join x 0 1 (1 + (5 + (4 + (2 + (1 + 7))))) : x.extractLsb' 20 1 ++ x.extractLsb' 0 (1 + (5 + (4 + (2 + (1 + 7))))) = x.extractLsb' 0 (1 + (1 + (5 + (4 + (2 + (1 + 7))))))),
    (extract_join x 0 1 (1 + (1 + (5 + (4 + (2 + (1 + 7)))))) : x.extractLsb' 21 1 ++ x.extractLsb' 0 (1 + (1 + (5 + (4 + (2 + (1 + 7)))))) = x.extractLsb' 0 (1 + (1 + (1 + (5 + (4 + (2 + (1 + 7)))))))),
    (extract_join x 0 1 (1 + (1 + (1 + (5 + (4 + (2 + (1 + 7))))))) : x.extractLsb' 22 1 ++ x.extractLsb' 0 (1 + (1 + (1 + (5 + (4 + (2 + (1 + 7))))))) = x.extractLsb' 0 (1 + (1 + (1 + (1 + (5 + (4 + (2 + (1 + 7))))))))),
    (extract_join x 0 1 (1 + (1 + (1 + (1 + (5 + (4 + (2 + (1 + 7)))))))) : x.extractLsb' 23 1 ++ x.extractLsb' 0 (1 + (1 + (1 + (1 + (5 + (4 + (2 + (1 + 7)))))))) = x.extractLsb' 0 (1 + (1 + (1 + (1 + (1 + (5 + (4 + (2 + (1 + 7)))))))))),
    (extract_join x 0 1 (1 + (1 + (1 + (1 + (1 + (5 + (4 + (2 + (1 + 7))))))))) : x.extractLsb' 24 1 ++ x.extractLsb' 0 (1 + (1 + (1 + (1 + (1 + (5 + (4 + (2 + (1 + 7))))))))) = x.extractLsb' 0 (1 + (1 + (1 + (1 + (1 + (1 + (5 + (4 + (2 + (1 + 7))))))))))),
    (extract_join x 0 4 (1 + (1 + (1 + (1 + (1 + (1 + (5 + (4 + (2 + (1 + 7)))))))))) : x.extractLsb' 25 4 ++ x.extractLsb' 0 (1 + (1 + (1 + (1 + (1 + (1 + (5 + (4 + (2 + (1 + 7)))))))))) = x.extractLsb' 0 (4 + (1 + (1 + (1 + (1 + (1 + (1 + (5 + (4 + (2 + (1 + 7)))))))))))),
    (extract_join x 0 1 (4 + (1 + (1 + (1 + (1 + (1 + (1 + (5 + (4 + (2 + (1 + 7))))))))))) : x.extractLsb' 29 1 ++ x.extractLsb' 0 (4 + (1 + (1 + (1 + (1 + (1 + (1 + (5 + (4 + (2 + (1 + 7))))))))))) = x.extractLsb' 0 (1 + (4 + (1 + (1 + (1 + (1 + (1 + (1 + (5 + (4 + (2 + (1 + 7)))))))))))))]
  exact BitVec.extractLsb'_eq_self

theorem join_split (w : IWord) : join (split w) = w := by
  have h : w.extractLsb' 0 7 = (w.extractLsb' 0 30).extractLsb' 0 7 := by
    ext i hi
    simp
  simp only [join, split]
  rw [h, joinCtl_splitCtl,
    (extract_join w 0 16 30 : w.extractLsb' 30 16 ++ w.extractLsb' 0 30 = w.extractLsb' 0 (16 + 30)),
    (extract_join w 0 16 (16 + 30) : w.extractLsb' 46 16 ++ w.extractLsb' 0 (16 + 30) = w.extractLsb' 0 (16 + (16 + 30))),
    (extract_join w 0 16 (16 + (16 + 30)) : w.extractLsb' 62 16 ++ w.extractLsb' 0 (16 + (16 + 30)) = w.extractLsb' 0 (16 + (16 + (16 + 30)))),
    (extract_join w 0 8 (16 + (16 + (16 + 30))) : w.extractLsb' 78 8 ++ w.extractLsb' 0 (16 + (16 + (16 + 30))) = w.extractLsb' 0 (8 + (16 + (16 + (16 + 30))))),
    (extract_join w 0 10 (8 + (16 + (16 + (16 + 30)))) : w.extractLsb' 86 10 ++ w.extractLsb' 0 (8 + (16 + (16 + (16 + 30)))) = w.extractLsb' 0 (10 + (8 + (16 + (16 + (16 + 30))))))]
  exact BitVec.extractLsb'_eq_self

end Sys2Proof
end

