-- ==== Sys2Proof/Laws/PerInstr.lean ====
section
/-! SUPPORT. The round trip of the encoding, instruction by instruction: the word of a well-formed instruction decodes to it. -/

namespace Sys2Proof

/-- The word of a well-formed instruction decodes to that instruction, with every operand. -/
def Laws.RoundTrip.Statement (i : Instr) : Prop := ∀ w, i.WellFormed → encode i = some w → decode w = .ok i

theorem Laws.RoundTrip.nop (c : Ctl) : Statement (Instr.nop c) := by
  intro w hf hw; cases hw; exact decode_join .nop _ _ rfl rfl (by delta parse; simp) hf

theorem Laws.RoundTrip.bra (c : Ctl) (imm : BitVec 32) : Statement (Instr.bra c imm) := by
  intro w hf hw; cases hw; exact decode_join .bra _ _ rfl rfl (by delta parse; simp) hf

theorem Laws.RoundTrip.brz (c : Ctl) (d : SReg) (imm : BitVec 32) : Statement (Instr.brz c d imm) := by
  intro w hf hw; cases hw; exact decode_join .brz _ _ rfl rfl (by delta parse; simp) hf

theorem Laws.RoundTrip.brnz (c : Ctl) (d : SReg) (imm : BitVec 32) : Statement (Instr.brnz c d imm) := by
  intro w hf hw; cases hw; exact decode_join .brnz _ _ rfl rfl (by delta parse; simp) hf

theorem Laws.RoundTrip.brx (c : Ctl) (a : SReg) : Statement (Instr.brx c a) := by
  intro w hf hw; cases hw; exact decode_join .brx _ _ rfl rfl (by delta parse; simp) hf

theorem Laws.RoundTrip.call (c : Ctl) (nv ns : BitVec 4) (imm : BitVec 32) : Statement (Instr.call c nv ns imm) := by
  intro w hf hw; cases hw; exact decode_join .call _ _ rfl rfl (by delta parse; simp) hf

theorem Laws.RoundTrip.callx (c : Ctl) (nv ns : BitVec 4) (a : SReg) : Statement (Instr.callx c nv ns a) := by
  intro w hf hw; cases hw; exact decode_join .callx _ _ rfl rfl (by delta parse; simp) hf

theorem Laws.RoundTrip.ret (c : Ctl) : Statement (Instr.ret c) := by
  intro w hf hw; cases hw; exact decode_join .ret _ _ rfl rfl (by delta parse; simp) hf

theorem Laws.RoundTrip.exit (c : Ctl) : Statement (Instr.exit c) := by
  intro w hf hw; cases hw; exact decode_join .exit _ _ rfl rfl (by delta parse; simp) hf

theorem Laws.RoundTrip.pass (c : Ctl) (a : SSrc) : Statement (Instr.pass c a) := by
  intro w hf hw; cases hw; exact decode_join .pass _ _ rfl rfl (by delta parse; simp) hf

theorem Laws.RoundTrip.detach (c : Ctl) : Statement (Instr.detach c) := by
  intro w hf hw; cases hw; exact decode_join .detach _ _ rfl rfl (by delta parse; simp) hf

theorem Laws.RoundTrip.brk (c : Ctl) : Statement (Instr.brk c) := by
  intro w hf hw; cases hw; exact decode_join .brk _ _ rfl rfl (by delta parse; simp) hf

theorem Laws.RoundTrip.trap (c : Ctl) (i : BitVec 14) : Statement (Instr.trap c i) := by
  intro w hf hw; cases hw; exact decode_join .trap _ _ rfl rfl (by delta parse; simp) hf

theorem Laws.RoundTrip.rett (c : Ctl) : Statement (Instr.rett c) := by
  intro w hf hw; cases hw; exact decode_join .rett _ _ rfl rfl (by delta parse; simp) hf

theorem Laws.RoundTrip.sadd (c : Ctl) (ty : Ty) (d a : SReg) (b : SSrc) : Statement (Instr.sadd c ty d a b) := by
  intro w hf hw; cases hw; exact decode_join .sadd _ _ rfl rfl (by delta parse; simp) hf

theorem Laws.RoundTrip.ssub (c : Ctl) (ty : Ty) (d a : SReg) (b : SSrc) : Statement (Instr.ssub c ty d a b) := by
  intro w hf hw; cases hw; exact decode_join .ssub _ _ rfl rfl (by delta parse; simp) hf

theorem Laws.RoundTrip.smul (c : Ctl) (ty : Ty) (d a : SReg) (b : SSrc) : Statement (Instr.smul c ty d a b) := by
  intro w hf hw; cases hw; exact decode_join .smul _ _ rfl rfl (by delta parse; simp) hf

theorem Laws.RoundTrip.smulh (c : Ctl) (ty : Ty) (d a : SReg) (b : SSrc) : Statement (Instr.smulh c ty d a b) := by
  intro w hf hw; cases hw; exact decode_join .smulh _ _ rfl rfl (by delta parse; simp) hf

theorem Laws.RoundTrip.sdiv (c : Ctl) (ty : Ty) (d a : SReg) (b : SSrc) : Statement (Instr.sdiv c ty d a b) := by
  intro w hf hw; cases hw; exact decode_join .sdiv _ _ rfl rfl (by delta parse; simp) hf

theorem Laws.RoundTrip.srem (c : Ctl) (ty : Ty) (d a : SReg) (b : SSrc) : Statement (Instr.srem c ty d a b) := by
  intro w hf hw; cases hw; exact decode_join .srem _ _ rfl rfl (by delta parse; simp) hf

theorem Laws.RoundTrip.sand (c : Ctl) (ty : Ty) (d a : SReg) (b : SSrc) : Statement (Instr.sand c ty d a b) := by
  intro w hf hw; cases hw; exact decode_join .sand _ _ rfl rfl (by delta parse; simp) hf

theorem Laws.RoundTrip.sor (c : Ctl) (ty : Ty) (d a : SReg) (b : SSrc) : Statement (Instr.sor c ty d a b) := by
  intro w hf hw; cases hw; exact decode_join .sor _ _ rfl rfl (by delta parse; simp) hf

theorem Laws.RoundTrip.sxor (c : Ctl) (ty : Ty) (d a : SReg) (b : SSrc) : Statement (Instr.sxor c ty d a b) := by
  intro w hf hw; cases hw; exact decode_join .sxor _ _ rfl rfl (by delta parse; simp) hf

theorem Laws.RoundTrip.sshl (c : Ctl) (ty : Ty) (d a : SReg) (b : SSrc) : Statement (Instr.sshl c ty d a b) := by
  intro w hf hw; cases hw; exact decode_join .sshl _ _ rfl rfl (by delta parse; simp) hf

theorem Laws.RoundTrip.sshr (c : Ctl) (ty : Ty) (d a : SReg) (b : SSrc) : Statement (Instr.sshr c ty d a b) := by
  intro w hf hw; cases hw; exact decode_join .sshr _ _ rfl rfl (by delta parse; simp) hf

theorem Laws.RoundTrip.ssar (c : Ctl) (ty : Ty) (d a : SReg) (b : SSrc) : Statement (Instr.ssar c ty d a b) := by
  intro w hf hw; cases hw; exact decode_join .ssar _ _ rfl rfl (by delta parse; simp) hf

theorem Laws.RoundTrip.smin (c : Ctl) (ty : Ty) (d a : SReg) (b : SSrc) : Statement (Instr.smin c ty d a b) := by
  intro w hf hw; cases hw; exact decode_join .smin _ _ rfl rfl (by delta parse; simp) hf

theorem Laws.RoundTrip.smax (c : Ctl) (ty : Ty) (d a : SReg) (b : SSrc) : Statement (Instr.smax c ty d a b) := by
  intro w hf hw; cases hw; exact decode_join .smax _ _ rfl rfl (by delta parse; simp) hf

theorem Laws.RoundTrip.scmp (c : Ctl) (ty : Ty) (cond : Cond) (d a : SReg) (b : SSrc) : Statement (Instr.scmp c ty cond d a b) := by
  intro w hf hw; cases hw; exact decode_join .scmp _ _ rfl rfl (by delta parse; simp) hf

theorem Laws.RoundTrip.ssel (c : Ctl) (ty : Ty) (sel : BitVec 4) (d a : SReg) (b : SSrc) : Statement (Instr.ssel c ty sel d a b) := by
  intro w hf hw; cases hw; exact decode_join .ssel _ _ rfl rfl (by delta parse; simp) hf

theorem Laws.RoundTrip.smov (c : Ctl) (ty : Ty) (d : SMovDst) (a : SMovSrc) : Statement (Instr.smov c ty d a) := by
  intro w hf hw; cases hw; exact decode_join .smov _ _ rfl rfl (by delta parse; simp) hf

theorem Laws.RoundTrip.smovi (c : Ctl) (ty : Ty) (d : SReg) (imm : BitVec 32) : Statement (Instr.smovi c ty d imm) := by
  intro w hf hw; cases hw; exact decode_join .smovi _ _ rfl rfl (by delta parse; simp) hf

theorem Laws.RoundTrip.smovh (c : Ctl) (ty : Ty) (d : SReg) (imm : BitVec 32) : Statement (Instr.smovh c ty d imm) := by
  intro w hf hw; cases hw; exact decode_join .smovh _ _ rfl rfl (by delta parse; simp) hf

theorem Laws.RoundTrip.spopc (c : Ctl) (ty : Ty) (d a : SReg) : Statement (Instr.spopc c ty d a) := by
  intro w hf hw; cases hw; exact decode_join .spopc _ _ rfl rfl (by delta parse; simp) hf

theorem Laws.RoundTrip.sclz (c : Ctl) (ty : Ty) (d a : SReg) : Statement (Instr.sclz c ty d a) := by
  intro w hf hw; cases hw; exact decode_join .sclz _ _ rfl rfl (by delta parse; simp) hf

theorem Laws.RoundTrip.sffs (c : Ctl) (ty : Ty) (d a : SReg) : Statement (Instr.sffs c ty d a) := by
  intro w hf hw; cases hw; exact decode_join .sffs _ _ rfl rfl (by delta parse; simp) hf

theorem Laws.RoundTrip.sbfx (c : Ctl) (ty : Ty) (d a : SReg) (b : SSrc) : Statement (Instr.sbfx c ty d a b) := by
  intro w hf hw; cases hw; exact decode_join .sbfx _ _ rfl rfl (by delta parse; simp) hf

theorem Laws.RoundTrip.sbfi (c : Ctl) (ty : Ty) (d a : SReg) (b : SSrc) : Statement (Instr.sbfi c ty d a b) := by
  intro w hf hw; cases hw; exact decode_join .sbfi _ _ rfl rfl (by delta parse; simp) hf

theorem Laws.RoundTrip.slea (c : Ctl) (ty : Ty) (d a : SReg) (b : SSrc) : Statement (Instr.slea c ty d a b) := by
  intro w hf hw; cases hw; exact decode_join .slea _ _ rfl rfl (by delta parse; simp) hf

theorem Laws.RoundTrip.pand (c : Ctl) (d a b : BitVec 4) : Statement (Instr.pand c d a b) := by
  intro w hf hw; cases hw; exact decode_join .pand _ _ rfl rfl (by delta parse; simp) hf

theorem Laws.RoundTrip.por (c : Ctl) (d a b : BitVec 4) : Statement (Instr.por c d a b) := by
  intro w hf hw; cases hw; exact decode_join .por _ _ rfl rfl (by delta parse; simp) hf

theorem Laws.RoundTrip.pxor (c : Ctl) (d a b : BitVec 4) : Statement (Instr.pxor c d a b) := by
  intro w hf hw; cases hw; exact decode_join .pxor _ _ rfl rfl (by delta parse; simp) hf

theorem Laws.RoundTrip.pandn (c : Ctl) (d a b : BitVec 4) : Statement (Instr.pandn c d a b) := by
  intro w hf hw; cases hw; exact decode_join .pandn _ _ rfl rfl (by delta parse; simp) hf

theorem Laws.RoundTrip.pmov (c : Ctl) (d : BitVec 4) (a : PSrc) : Statement (Instr.pmov c d a) := by
  intro w hf hw; cases hw; exact decode_join .pmov _ _ rfl rfl (by delta parse; simp) hf

theorem Laws.RoundTrip.vadd (c : Ctl) (ty : Ty) (d a : VReg) (b : VSI) : Statement (Instr.vadd c ty d a b) := by
  intro w hf hw; cases hw; exact decode_join .vadd _ _ rfl rfl (by delta parse; simp) hf

theorem Laws.RoundTrip.vsub (c : Ctl) (ty : Ty) (d a : VReg) (b : VSI) : Statement (Instr.vsub c ty d a b) := by
  intro w hf hw; cases hw; exact decode_join .vsub _ _ rfl rfl (by delta parse; simp) hf

theorem Laws.RoundTrip.vmul (c : Ctl) (ty : Ty) (d a : VReg) (b : VSI) : Statement (Instr.vmul c ty d a b) := by
  intro w hf hw; cases hw; exact decode_join .vmul _ _ rfl rfl (by delta parse; simp) hf

theorem Laws.RoundTrip.vmulh (c : Ctl) (ty : Ty) (d a : VReg) (b : VSI) : Statement (Instr.vmulh c ty d a b) := by
  intro w hf hw; cases hw; exact decode_join .vmulh _ _ rfl rfl (by delta parse; simp) hf

theorem Laws.RoundTrip.vmad (c : Ctl) (ty : Ty) (d a : VReg) (b : VSI) : Statement (Instr.vmad c ty d a b) := by
  intro w hf hw; cases hw; exact decode_join .vmad _ _ rfl rfl (by delta parse; simp) hf

theorem Laws.RoundTrip.vmin (c : Ctl) (ty : Ty) (d a : VReg) (b : VSI) : Statement (Instr.vmin c ty d a b) := by
  intro w hf hw; cases hw; exact decode_join .vmin _ _ rfl rfl (by delta parse; simp) hf

theorem Laws.RoundTrip.vmax (c : Ctl) (ty : Ty) (d a : VReg) (b : VSI) : Statement (Instr.vmax c ty d a b) := by
  intro w hf hw; cases hw; exact decode_join .vmax _ _ rfl rfl (by delta parse; simp) hf

theorem Laws.RoundTrip.vabs (c : Ctl) (ty : Ty) (d a : VReg) : Statement (Instr.vabs c ty d a) := by
  intro w hf hw; cases hw; exact decode_join .vabs _ _ rfl rfl (by delta parse; simp) hf

theorem Laws.RoundTrip.vand (c : Ctl) (ty : Ty) (d a : VReg) (b : VSI) : Statement (Instr.vand c ty d a b) := by
  intro w hf hw; cases hw; exact decode_join .vand _ _ rfl rfl (by delta parse; simp) hf

theorem Laws.RoundTrip.vor (c : Ctl) (ty : Ty) (d a : VReg) (b : VSI) : Statement (Instr.vor c ty d a b) := by
  intro w hf hw; cases hw; exact decode_join .vor _ _ rfl rfl (by delta parse; simp) hf

theorem Laws.RoundTrip.vxor (c : Ctl) (ty : Ty) (d a : VReg) (b : VSI) : Statement (Instr.vxor c ty d a b) := by
  intro w hf hw; cases hw; exact decode_join .vxor _ _ rfl rfl (by delta parse; simp) hf

theorem Laws.RoundTrip.vshl (c : Ctl) (ty : Ty) (d a : VReg) (b : VSI) : Statement (Instr.vshl c ty d a b) := by
  intro w hf hw; cases hw; exact decode_join .vshl _ _ rfl rfl (by delta parse; simp) hf

theorem Laws.RoundTrip.vshr (c : Ctl) (ty : Ty) (d a : VReg) (b : VSI) : Statement (Instr.vshr c ty d a b) := by
  intro w hf hw; cases hw; exact decode_join .vshr _ _ rfl rfl (by delta parse; simp) hf

theorem Laws.RoundTrip.vsar (c : Ctl) (ty : Ty) (d a : VReg) (b : VSI) : Statement (Instr.vsar c ty d a b) := by
  intro w hf hw; cases hw; exact decode_join .vsar _ _ rfl rfl (by delta parse; simp) hf

theorem Laws.RoundTrip.vsadd (c : Ctl) (ty : Ty) (d a : VReg) (b : VSI) : Statement (Instr.vsadd c ty d a b) := by
  intro w hf hw; cases hw; exact decode_join .vsadd _ _ rfl rfl (by delta parse; simp) hf

theorem Laws.RoundTrip.vpopc (c : Ctl) (ty : Ty) (d a : VReg) : Statement (Instr.vpopc c ty d a) := by
  intro w hf hw; cases hw; exact decode_join .vpopc _ _ rfl rfl (by delta parse; simp) hf

theorem Laws.RoundTrip.vclz (c : Ctl) (ty : Ty) (d a : VReg) : Statement (Instr.vclz c ty d a) := by
  intro w hf hw; cases hw; exact decode_join .vclz _ _ rfl rfl (by delta parse; simp) hf

theorem Laws.RoundTrip.vbfx (c : Ctl) (ty : Ty) (d a : VReg) (b : VSI) : Statement (Instr.vbfx c ty d a b) := by
  intro w hf hw; cases hw; exact decode_join .vbfx _ _ rfl rfl (by delta parse; simp) hf

theorem Laws.RoundTrip.vbfi (c : Ctl) (ty : Ty) (d a : VReg) (b : VSI) : Statement (Instr.vbfi c ty d a b) := by
  intro w hf hw; cases hw; exact decode_join .vbfi _ _ rfl rfl (by delta parse; simp) hf

theorem Laws.RoundTrip.vsel (c : Ctl) (ty : Ty) (sel : BitVec 4) (d a : VReg) (b : VSI) : Statement (Instr.vsel c ty sel d a b) := by
  intro w hf hw; cases hw; exact decode_join .vsel _ _ rfl rfl (by delta parse; simp) hf

theorem Laws.RoundTrip.vcmp (c : Ctl) (ty : Ty) (cond : Cond) (d : BitVec 4) (a : VReg) (b : VSI) : Statement (Instr.vcmp c ty cond d a b) := by
  intro w hf hw; cases hw; exact decode_join .vcmp _ _ rfl rfl (by delta parse; simp) hf

theorem Laws.RoundTrip.vmov (c : Ctl) (ty : Ty) (d : VReg) (a : VMovSrc) : Statement (Instr.vmov c ty d a) := by
  intro w hf hw; cases hw; exact decode_join .vmov _ _ rfl rfl (by delta parse; simp) hf

theorem Laws.RoundTrip.vmovi (c : Ctl) (ty : Ty) (d : VReg) (imm : BitVec 32) : Statement (Instr.vmovi c ty d imm) := by
  intro w hf hw; cases hw; exact decode_join .vmovi _ _ rfl rfl (by delta parse; simp) hf

theorem Laws.RoundTrip.fadd (c : Ctl) (rnd : Rnd) (d a : VReg) (b : VS) : Statement (Instr.fadd c rnd d a b) := by
  intro w hf hw; cases hw; exact decode_join .fadd _ _ rfl rfl
    (by delta parse; simp; exact bind_of_ok (floatMod_bits _) (by simp)) hf

theorem Laws.RoundTrip.fsub (c : Ctl) (rnd : Rnd) (d a : VReg) (b : VS) : Statement (Instr.fsub c rnd d a b) := by
  intro w hf hw; cases hw; exact decode_join .fsub _ _ rfl rfl
    (by delta parse; simp; exact bind_of_ok (floatMod_bits _) (by simp)) hf

theorem Laws.RoundTrip.fmul (c : Ctl) (rnd : Rnd) (d a : VReg) (b : VS) : Statement (Instr.fmul c rnd d a b) := by
  intro w hf hw; cases hw; exact decode_join .fmul _ _ rfl rfl
    (by delta parse; simp; exact bind_of_ok (floatMod_bits _) (by simp)) hf

theorem Laws.RoundTrip.ffma (c : Ctl) (rnd : Rnd) (d a : VReg) (b : VS) : Statement (Instr.ffma c rnd d a b) := by
  intro w hf hw; cases hw; exact decode_join .ffma _ _ rfl rfl
    (by delta parse; simp; exact bind_of_ok (floatMod_bits _) (by simp)) hf

theorem Laws.RoundTrip.fmin (c : Ctl) (rnd : Rnd) (d a : VReg) (b : VS) : Statement (Instr.fmin c rnd d a b) := by
  intro w hf hw; cases hw; exact decode_join .fmin _ _ rfl rfl
    (by delta parse; simp; exact bind_of_ok (floatMod_bits _) (by simp)) hf

theorem Laws.RoundTrip.fmax (c : Ctl) (rnd : Rnd) (d a : VReg) (b : VS) : Statement (Instr.fmax c rnd d a b) := by
  intro w hf hw; cases hw; exact decode_join .fmax _ _ rfl rfl
    (by delta parse; simp; exact bind_of_ok (floatMod_bits _) (by simp)) hf

theorem Laws.RoundTrip.fdiv (c : Ctl) (rnd : Rnd) (d a : VReg) (b : VS) : Statement (Instr.fdiv c rnd d a b) := by
  intro w hf hw; cases hw; exact decode_join .fdiv _ _ rfl rfl
    (by delta parse; simp; exact bind_of_ok (floatMod_bits _) (by simp)) hf

theorem Laws.RoundTrip.fsqrt (c : Ctl) (rnd : Rnd) (d a : VReg) : Statement (Instr.fsqrt c rnd d a) := by
  intro w hf hw; cases hw; exact decode_join .fsqrt _ _ rfl rfl
    (by delta parse; simp; exact bind_of_ok (floatMod_bits _) (by simp)) hf

theorem Laws.RoundTrip.frcp (c : Ctl) (rnd : Rnd) (d a : VReg) : Statement (Instr.frcp c rnd d a) := by
  intro w hf hw; cases hw; exact decode_join .frcp _ _ rfl rfl
    (by delta parse; simp; exact bind_of_ok (floatMod_bits _) (by simp)) hf

theorem Laws.RoundTrip.frsq (c : Ctl) (rnd : Rnd) (d a : VReg) : Statement (Instr.frsq c rnd d a) := by
  intro w hf hw; cases hw; exact decode_join .frsq _ _ rfl rfl
    (by delta parse; simp; exact bind_of_ok (floatMod_bits _) (by simp)) hf

theorem Laws.RoundTrip.fex2 (c : Ctl) (rnd : Rnd) (d a : VReg) : Statement (Instr.fex2 c rnd d a) := by
  intro w hf hw; cases hw; exact decode_join .fex2 _ _ rfl rfl
    (by delta parse; simp; exact bind_of_ok (floatMod_bits _) (by simp)) hf

theorem Laws.RoundTrip.flg2 (c : Ctl) (rnd : Rnd) (d a : VReg) : Statement (Instr.flg2 c rnd d a) := by
  intro w hf hw; cases hw; exact decode_join .flg2 _ _ rfl rfl
    (by delta parse; simp; exact bind_of_ok (floatMod_bits _) (by simp)) hf

theorem Laws.RoundTrip.fsin (c : Ctl) (rnd : Rnd) (d a : VReg) : Statement (Instr.fsin c rnd d a) := by
  intro w hf hw; cases hw; exact decode_join .fsin _ _ rfl rfl
    (by delta parse; simp; exact bind_of_ok (floatMod_bits _) (by simp)) hf

theorem Laws.RoundTrip.fcos (c : Ctl) (rnd : Rnd) (d a : VReg) : Statement (Instr.fcos c rnd d a) := by
  intro w hf hw; cases hw; exact decode_join .fcos _ _ rfl rfl
    (by delta parse; simp; exact bind_of_ok (floatMod_bits _) (by simp)) hf

theorem Laws.RoundTrip.frnd (c : Ctl) (rnd : Rnd) (d a : VReg) : Statement (Instr.frnd c rnd d a) := by
  intro w hf hw; cases hw; exact decode_join .frnd _ _ rfl rfl
    (by delta parse; simp; exact bind_of_ok (floatMod_bits _) (by simp)) hf

theorem Laws.RoundTrip.fcmp (c : Ctl) (cond : Cond) (d : BitVec 4) (a : VReg) (b : VS) : Statement (Instr.fcmp c cond d a b) := by
  intro w hf hw; cases hw; exact decode_join .fcmp _ _ rfl rfl (by delta parse; simp) hf

theorem Laws.RoundTrip.hadd (c : Ctl) (ty : Ty) (rnd : Rnd) (d a : VReg) (b : VS) : Statement (Instr.hadd c ty rnd d a b) := by
  intro w hf hw; cases hw; exact decode_join .hadd _ _ rfl rfl
    (by delta parse; simp; exact bind_of_ok (rndLo_bits _ _) (by simp)) hf

theorem Laws.RoundTrip.hmul (c : Ctl) (ty : Ty) (rnd : Rnd) (d a : VReg) (b : VS) : Statement (Instr.hmul c ty rnd d a b) := by
  intro w hf hw; cases hw; exact decode_join .hmul _ _ rfl rfl
    (by delta parse; simp; exact bind_of_ok (rndLo_bits _ _) (by simp)) hf

theorem Laws.RoundTrip.hfma (c : Ctl) (ty : Ty) (rnd : Rnd) (d a : VReg) (b : VS) : Statement (Instr.hfma c ty rnd d a b) := by
  intro w hf hw; cases hw; exact decode_join .hfma _ _ rfl rfl
    (by delta parse; simp; exact bind_of_ok (rndLo_bits _ _) (by simp)) hf

theorem Laws.RoundTrip.cvt (c : Ctl) (dty sty : Ty) (sat : Bool) (rnd : Rnd) (d a : VReg) : Statement (Instr.cvt c dty sty sat rnd d a) := by
  intro w hf hw; cases hw; exact decode_join .cvt _ _ rfl rfl
    (by delta parse; simp; exact bind_of_ok (satRnd_bits _ _ _) (by simp)) hf

theorem Laws.RoundTrip.cvtp (c : Ctl) (dst : Fmt) (sty : Ty) (sat : Bool) (rnd : Rnd) (d a : VReg) : Statement (Instr.cvtp c dst sty sat rnd d a) := by
  intro w hf hw; cases hw; exact decode_join .cvtp _ _ rfl rfl
    (by delta parse; simp; exact bind_of_ok (satRnd_bits _ _ _) (by simp)) hf

theorem Laws.RoundTrip.dqcvt (c : Ctl) (dty : Ty) (src : Fmt) (tab : BitVec 2) (len : BlkLen) (sat : Bool) (rnd : Rnd) (d a : VReg) : Statement (Instr.dqcvt c dty src tab len sat rnd d a) := by
  intro w hf hw; cases hw; exact decode_join .dqcvt _ _ rfl rfl
    (by delta parse; simp; exact bind_of_ok (satRnd_bits _ _ _) (by simp; exact bind_of_ok (dqSrc_bits _ _ _) (by simp))) hf

theorem Laws.RoundTrip.qscl (c : Ctl) (dst : Fmt) (sf : ScaleFmt) (len : BlkLen) (d a : VReg) : Statement (Instr.qscl c dst sf len d a) := by
  intro w hf hw; cases hw; exact decode_join .qscl _ _ rfl rfl
    (by delta parse; simp; exact bind_of_ok (qSrc_bits _ _) (by simp)) hf

theorem Laws.RoundTrip.qcvt (c : Ctl) (dst : Fmt) (sf : ScaleFmt) (len : BlkLen) (rnd : Rnd) (d a : VReg) : Statement (Instr.qcvt c dst sf len rnd d a) := by
  intro w hf hw; cases hw; exact decode_join .qcvt _ _ rfl rfl
    (by delta parse; simp; exact bind_of_ok (rndLo_bits _ _) (by simp; exact bind_of_ok (qSrc_bits _ _) (by simp))) hf

theorem Laws.RoundTrip.qcmp (c : Ctl) (tab : BitVec 2) (d a : VReg) : Statement (Instr.qcmp c tab d a) := by
  intro w hf hw; cases hw; exact decode_join .qcmp _ _ rfl rfl
    (by delta parse; simp; exact bind_of_ok (qcmpSrc_bits _) (by simp)) hf

theorem Laws.RoundTrip.vperm (c : Ctl) (ty : Ty) (d a : VReg) (b : VSI) : Statement (Instr.vperm c ty d a b) := by
  intro w hf hw; cases hw; exact decode_join .vperm _ _ rfl rfl (by delta parse; simp) hf

theorem Laws.RoundTrip.vbcast (c : Ctl) (ty : Ty) (d a : VReg) (b : VSI) : Statement (Instr.vbcast c ty d a b) := by
  intro w hf hw; cases hw; exact decode_join .vbcast _ _ rfl rfl (by delta parse; simp) hf

theorem Laws.RoundTrip.vred (c : Ctl) (ty : Ty) (op : RedOp) (d a : VReg) : Statement (Instr.vred c ty op d a) := by
  intro w hf hw; cases hw; exact decode_join .vred _ _ rfl rfl (by delta parse; simp) hf

theorem Laws.RoundTrip.vscan (c : Ctl) (ty : Ty) (op : RedOp) (d a : VReg) : Statement (Instr.vscan c ty op d a) := by
  intro w hf hw; cases hw; exact decode_join .vscan _ _ rfl rfl (by delta parse; simp) hf

theorem Laws.RoundTrip.ldl (c : Ctl) (sz : Size) (d : VReg) (m : VMem) : Statement (Instr.ldl c sz d m) := by
  intro w hf hw; cases hw; exact decode_join .ldl _ _ rfl rfl (by delta parse; simp) hf

theorem Laws.RoundTrip.stl (c : Ctl) (sz : Size) (rule : Rule) (sum : SumTy) (d : VReg) (m : VMem) : Statement (Instr.stl c sz rule sum d m) := by
  intro w hf hw; cases hw; exact decode_join .stl _ _ rfl rfl
    (by delta parse; simp; exact bind_of_ok (storeMod_bits _ _ _) (by simp)) hf

theorem Laws.RoundTrip.stla (c : Ctl) (sz : Size) (sum : SumTy) (d : VReg) (m : VMem) : Statement (Instr.stla c sz sum d m) := by
  intro w hf hw; cases hw; exact decode_join .stla _ _ rfl rfl
    (by delta parse; simp; exact bind_of_ok (accMod_bits _ _) (by simp)) hf

theorem Laws.RoundTrip.sldl (c : Ctl) (sz : Size) (d : SReg) (m : SMem) : Statement (Instr.sldl c sz d m) := by
  intro w hf hw; cases hw; exact decode_join .sldl _ _ rfl rfl (by delta parse; simp) hf

theorem Laws.RoundTrip.sstl (c : Ctl) (sz : Size) (rule : Rule) (sum : SumTy) (d : SReg) (m : SMem) : Statement (Instr.sstl c sz rule sum d m) := by
  intro w hf hw; cases hw; exact decode_join .sstl _ _ rfl rfl
    (by delta parse; simp; exact bind_of_ok (storeMod_bits _ _ _) (by simp)) hf

theorem Laws.RoundTrip.ldg (c : Ctl) (sz : Size) (kind : Kind) (res : BitVec 4) (d : VReg) (m : VMem) : Statement (Instr.ldg c sz kind res d m) := by
  intro w hf hw; cases hw; exact decode_join .ldg _ _ rfl rfl
    (by delta parse; simp; exact bind_of_ok (kindMod_bits _ _ _) (by simp; exact lo4_kind _ _ _)) hf

theorem Laws.RoundTrip.stg (c : Ctl) (sz : Size) (rule : Rule) (sum : SumTy) (d : VReg) (m : VMem) : Statement (Instr.stg c sz rule sum d m) := by
  intro w hf hw; cases hw; exact decode_join .stg _ _ rfl rfl
    (by delta parse; simp; exact bind_of_ok (storeMod_bits _ _ _) (by simp)) hf

theorem Laws.RoundTrip.stga (c : Ctl) (sz : Size) (sum : SumTy) (d : VReg) (m : VMem) : Statement (Instr.stga c sz sum d m) := by
  intro w hf hw; cases hw; exact decode_join .stga _ _ rfl rfl
    (by delta parse; simp; exact bind_of_ok (accMod_bits _ _) (by simp)) hf

theorem Laws.RoundTrip.sldg (c : Ctl) (sz : Size) (kind : Kind) (res : BitVec 4) (d : SReg) (m : SMem) : Statement (Instr.sldg c sz kind res d m) := by
  intro w hf hw; cases hw; exact decode_join .sldg _ _ rfl rfl
    (by delta parse; simp; exact bind_of_ok (kindMod_bits _ _ _) (by simp; exact lo4_kind _ _ _)) hf

theorem Laws.RoundTrip.sstg (c : Ctl) (sz : Size) (rule : Rule) (sum : SumTy) (d : SReg) (m : SMem) : Statement (Instr.sstg c sz rule sum d m) := by
  intro w hf hw; cases hw; exact decode_join .sstg _ _ rfl rfl
    (by delta parse; simp; exact bind_of_ok (storeMod_bits _ _ _) (by simp)) hf

theorem Laws.RoundTrip.ldw (c : Ctl) (sz : Size) (d : VReg) (m : VMem) : Statement (Instr.ldw c sz d m) := by
  intro w hf hw; cases hw; exact decode_join .ldw _ _ rfl rfl (by delta parse; simp) hf

theorem Laws.RoundTrip.pfg (c : Ctl) (m : VMem) : Statement (Instr.pfg c m) := by
  intro w hf hw; cases hw; exact decode_join .pfg _ _ rfl rfl (by delta parse; simp) hf

theorem Laws.RoundTrip.pgreq (c : Ctl) (m : VMem) : Statement (Instr.pgreq c m) := by
  intro w hf hw; cases hw; exact decode_join .pgreq _ _ rfl rfl (by delta parse; simp) hf

theorem Laws.RoundTrip.cpy (c : Ctl) (dir : Dir) (rule : Rule) (kind : Kind) (d : SReg) : Statement (Instr.cpy c dir rule kind d) := by
  intro w hf hw; cases hw; exact decode_join .cpy _ _ rfl rfl
    (by delta parse; simp; exact bind_of_ok (cpyMod_bits _ _ _) (by simp)) hf

theorem Laws.RoundTrip.cpym (c : Ctl) (dir : Dir) (rule : Rule) (kind : Kind) (d : SReg) : Statement (Instr.cpym c dir rule kind d) := by
  intro w hf hw; cases hw; exact decode_join .cpym _ _ rfl rfl
    (by delta parse; simp; exact bind_of_ok (cpyMod_bits _ _ _) (by simp)) hf

theorem Laws.RoundTrip.land (c : Ctl) (d a b : SSrc) : Statement (Instr.land c d a b) := by
  intro w hf hw; cases hw; exact decode_join .land _ _ rfl rfl (by delta parse; simp) hf

theorem Laws.RoundTrip.gth (c : Ctl) (side : Side) (rule : Rule) (kind : Kind) (d : SReg) : Statement (Instr.gth c side rule kind d) := by
  intro w hf hw; cases hw; exact decode_join .gth _ _ rfl rfl
    (by delta parse; simp; exact bind_of_ok (gthMod_bits _ _ _) (by simp)) hf

theorem Laws.RoundTrip.sct (c : Ctl) (side : Side) (rule : Rule) (d : SReg) : Statement (Instr.sct c side rule d) := by
  intro w hf hw; cases hw; exact decode_join .sct _ _ rfl rfl
    (by delta parse; simp; exact bind_of_ok (sctMod_bits _ _) (by simp)) hf

theorem Laws.RoundTrip.cpyw (c : Ctl) (glob : Bool) (d : SReg) : Statement (Instr.cpyw c glob d) := by
  intro w hf hw; cases hw; exact decode_join .cpyw _ _ rfl rfl (by delta parse; simp) hf

theorem Laws.RoundTrip.btst (c : Ctl) (rule : Rule) (d : SReg) : Statement (Instr.btst c rule d) := by
  intro w hf hw; cases hw; exact decode_join .btst _ _ rfl rfl
    (by delta parse; simp; exact bind_of_ok (btstMod_bits _) (by simp)) hf

theorem Laws.RoundTrip.btdem (c : Ctl) (d : SReg) : Statement (Instr.btdem c d) := by
  intro w hf hw; cases hw; exact decode_join .btdem _ _ rfl rfl (by delta parse; simp) hf

theorem Laws.RoundTrip.btpro (c : Ctl) (d : SReg) : Statement (Instr.btpro c d) := by
  intro w hf hw; cases hw; exact decode_join .btpro _ _ rfl rfl (by delta parse; simp) hf

theorem Laws.RoundTrip.mma (c : Ctl) (kind : Kind) (d : BitVec 4) (a : SReg) (b : SSrc) : Statement (Instr.mma c kind d a b) := by
  intro w hf hw; cases hw; exact decode_join .mma _ _ rfl rfl (by delta parse; simp) hf

theorem Laws.RoundTrip.mmq (c : Ctl) (kind : Kind) (d : BitVec 4) (a : VReg) (b : SReg) : Statement (Instr.mmq c kind d a b) := by
  intro w hf hw; cases hw; exact decode_join .mmq _ _ rfl rfl (by delta parse; simp) hf

theorem Laws.RoundTrip.mzero (c : Ctl) (flt : Bool) (d : BitVec 4) : Statement (Instr.mzero c flt d) := by
  intro w hf hw; cases hw; exact decode_join .mzero _ _ rfl rfl (by delta parse; simp) hf

theorem Laws.RoundTrip.mlda (c : Ctl) (flt : Bool) (d : BitVec 4) (a : SReg) : Statement (Instr.mlda c flt d a) := by
  intro w hf hw; cases hw; exact decode_join .mlda _ _ rfl rfl (by delta parse; simp) hf

theorem Laws.RoundTrip.mdrn (c : Ctl) (clr flt : Bool) (rnd : Rnd) (d : BitVec 4) (a : SReg) : Statement (Instr.mdrn c clr flt rnd d a) := by
  intro w hf hw; cases hw; exact decode_join .mdrn _ _ rfl rfl
    (by delta parse; simp; exact bind_of_ok (mdrnMod_bits _ _ _) (by simp)) hf

theorem Laws.RoundTrip.ctld (c : Ctl) (d : SSrc) (a : SReg) : Statement (Instr.ctld c d a) := by
  intro w hf hw; cases hw; exact decode_join .ctld _ _ rfl rfl (by delta parse; simp) hf

theorem Laws.RoundTrip.spawn (c : Ctl) (fwd : Bool) (d : BitVec 4) (a : SReg) (b : VReg) : Statement (Instr.spawn c fwd d a b) := by
  intro w hf hw; cases hw; exact decode_join .spawn _ _ rfl rfl (by delta parse; simp) hf

theorem Laws.RoundTrip.lnch (c : Ctl) (a : SReg) : Statement (Instr.lnch c a) := by
  intro w hf hw; cases hw; exact decode_join .lnch _ _ rfl rfl (by delta parse; simp) hf

theorem Laws.RoundTrip.mbxrd (c : Ctl) (d : SReg) (a : SSrc) : Statement (Instr.mbxrd c d a) := by
  intro w hf hw; cases hw; exact decode_join .mbxrd _ _ rfl rfl (by delta parse; simp) hf

theorem Laws.RoundTrip.mbxwr (c : Ctl) (a b : SReg) : Statement (Instr.mbxwr c a b) := by
  intro w hf hw; cases hw; exact decode_join .mbxwr _ _ rfl rfl (by delta parse; simp) hf

theorem Laws.RoundTrip.rdsr (c : Ctl) (d : SReg) (a : Special) : Statement (Instr.rdsr c d a) := by
  intro w hf hw; cases hw; exact decode_join .rdsr _ _ rfl rfl (by delta parse; simp) hf

theorem Laws.RoundTrip.wrsr (c : Ctl) (d : Special) (a : SSrc) : Statement (Instr.wrsr c d a) := by
  intro w hf hw; cases hw; exact decode_join .wrsr _ _ rfl rfl (by delta parse; simp) hf

theorem Laws.RoundTrip.rdcnt (c : Ctl) (d : SReg) (a : SSrc) : Statement (Instr.rdcnt c d a) := by
  intro w hf hw; cases hw; exact decode_join .rdcnt _ _ rfl rfl (by delta parse; simp) hf

theorem Laws.RoundTrip.qtopo (c : Ctl) (d : SReg) (sel : BitVec 14) (b : SSrc) : Statement (Instr.qtopo c d sel b) := by
  intro w hf hw; cases hw; exact decode_join .qtopo _ _ rfl rfl (by delta parse; simp) hf

theorem Laws.RoundTrip.tlbinv (c : Ctl) (scope : Scope) (host : Bool) (gctx : BitVec 4) (a : SReg) (b : SSrc) : Statement (Instr.tlbinv c scope host gctx a b) := by
  intro w hf hw; cases hw; exact decode_join .tlbinv _ _ rfl rfl
    (by delta parse; simp; exact bind_of_ok (tlbMod_bits _ _ _) (by simp)) hf

theorem Laws.RoundTrip.ctxsv (c : Ctl) (a : SReg) : Statement (Instr.ctxsv c a) := by
  intro w hf hw; cases hw; exact decode_join .ctxsv _ _ rfl rfl (by delta parse; simp) hf

theorem Laws.RoundTrip.ctxld (c : Ctl) (a : SReg) : Statement (Instr.ctxld c a) := by
  intro w hf hw; cases hw; exact decode_join .ctxld _ _ rfl rfl (by delta parse; simp) hf

theorem Laws.RoundTrip.launchPacketPost (part : Nat) (guest : Option (BitVec 3)) (data : BitVec 64) : Statement (Instr.launchPacketPost part guest data) := by
  intro w _ hw; cases hw

theorem Laws.RoundTrip.launchBroadcast (launch : Nat) : Statement (Instr.launchBroadcast launch) := by
  intro w _ hw; cases hw

theorem Laws.RoundTrip.launchUnitPlace (die : Nat) : Statement (Instr.launchUnitPlace die) := by
  intro w _ hw; cases hw

theorem Laws.RoundTrip.launchStart (launch : Nat) : Statement (Instr.launchStart launch) := by
  intro w _ hw; cases hw

theorem Laws.RoundTrip.launchComplete (launch : Nat) : Statement (Instr.launchComplete launch) := by
  intro w _ hw; cases hw

theorem Laws.RoundTrip.runGrant (group slot : Nat) : Statement (Instr.runGrant group slot) := by
  intro w _ hw; cases hw

theorem Laws.RoundTrip.deferredTrapTake (group : Nat) : Statement (Instr.deferredTrapTake group) := by
  intro w _ hw; cases hw

theorem Laws.RoundTrip.writeHoldExpiry (h : Held) : Statement (Instr.writeHoldExpiry h) := by
  intro w _ hw; cases hw

theorem Laws.RoundTrip.writeArrival (launch id : Nat) : Statement (Instr.writeArrival launch id) := by
  intro w _ hw; cases hw

theorem Laws.RoundTrip.readServe (load lane back : Nat) : Statement (Instr.readServe load lane back) := by
  intro w _ hw; cases hw

theorem Laws.RoundTrip.loadFill (load : Nat) : Statement (Instr.loadFill load) := by
  intro w _ hw; cases hw

theorem Laws.RoundTrip.commitDeclare (launch : Nat) : Statement (Instr.commitDeclare launch) := by
  intro w _ hw; cases hw

theorem Laws.RoundTrip.commitApply (launch word order : Nat) : Statement (Instr.commitApply launch word order) := by
  intro w _ hw; cases hw

theorem Laws.RoundTrip.commitVisible (launch : Nat) (place : Place) : Statement (Instr.commitVisible launch place) := by
  intro w _ hw; cases hw

theorem Laws.RoundTrip.localClose (block order : Nat) : Statement (Instr.localClose block order) := by
  intro w _ hw; cases hw

theorem Laws.RoundTrip.stepOverrun (launch : Nat) : Statement (Instr.stepOverrun launch) := by
  intro w _ hw; cases hw

theorem Laws.RoundTrip.spawnItemArrival (launch id : Nat) : Statement (Instr.spawnItemArrival launch id) := by
  intro w _ hw; cases hw

theorem Laws.RoundTrip.groupPlace (die : Nat) : Statement (Instr.groupPlace die) := by
  intro w _ hw; cases hw

theorem Laws.RoundTrip.asyncComplete (op : Nat) : Statement (Instr.asyncComplete op) := by
  intro w _ hw; cases hw

theorem Laws.RoundTrip.matrixKstep (core : Nat) : Statement (Instr.matrixKstep core) := by
  intro w _ hw; cases hw

theorem Laws.RoundTrip.landingArrival (op recv : Nat) : Statement (Instr.landingArrival op recv) := by
  intro w _ hw; cases hw

theorem Laws.RoundTrip.mailboxDeliver (group : Nat) : Statement (Instr.mailboxDeliver group) := by
  intro w _ hw; cases hw

theorem Laws.RoundTrip.pageWalk (core : Nat) (gctx : Option (BitVec 3)) (va : BitVec 64) : Statement (Instr.pageWalk core gctx va) := by
  intro w _ hw; cases hw

theorem Laws.RoundTrip.tlbinvBegin (group : Nat) : Statement (Instr.tlbinvBegin group) := by
  intro w _ hw; cases hw

theorem Laws.RoundTrip.tlbinvComplete (group : Nat) : Statement (Instr.tlbinvComplete group) := by
  intro w _ hw; cases hw

theorem Laws.RoundTrip.tierCopyComplete (op : Nat) : Statement (Instr.tierCopyComplete op) := by
  intro w _ hw; cases hw

theorem Laws.RoundTrip.ferrySend (launch id : Nat) : Statement (Instr.ferrySend launch id) := by
  intro w _ hw; cases hw

theorem Laws.RoundTrip.ferryArrival (part : Nat) (off : BitVec 48) (data : List Byte) : Statement (Instr.ferryArrival part off data) := by
  intro w _ hw; cases hw

theorem Laws.RoundTrip.hostWrite (part : Nat) (at_ : HostAt) (data : List Byte) : Statement (Instr.hostWrite part at_ data) := by
  intro w _ hw; cases hw

theorem Laws.RoundTrip.hostRead (part : Nat) (src : HostSrc) (len : Nat) : Statement (Instr.hostRead part src len) := by
  intro w _ hw; cases hw

theorem Laws.RoundTrip.saveSequence (part die : Nat) : Statement (Instr.saveSequence part die) := by
  intro w _ hw; cases hw

theorem Laws.RoundTrip.saveImageAssemble (part : Nat) : Statement (Instr.saveImageAssemble part) := by
  intro w _ hw; cases hw

theorem Laws.RoundTrip.restoreDieReady (part die : Nat) : Statement (Instr.restoreDieReady part die) := by
  intro w _ hw; cases hw

theorem Laws.RoundTrip.restoreResume (part : Nat) : Statement (Instr.restoreResume part) := by
  intro w _ hw; cases hw

theorem Laws.RoundTrip.timeSliceExpiry (launch : Nat) (image : BitVec 64) : Statement (Instr.timeSliceExpiry launch image) := by
  intro w _ hw; cases hw

theorem Laws.RoundTrip.preempt (part : Nat) : Statement (Instr.preempt part) := by
  intro w _ hw; cases hw

theorem Laws.RoundTrip.restore (part : Nat) : Statement (Instr.restore part) := by
  intro w _ hw; cases hw

theorem Laws.RoundTrip.terminate (part : Nat) : Statement (Instr.terminate part) := by
  intro w _ hw; cases hw

theorem Laws.RoundTrip.layoutChange (part : Nat) : Statement (Instr.layoutChange part) := by
  intro w _ hw; cases hw

theorem Laws.RoundTrip.layoutChangeForce (part : Nat) : Statement (Instr.layoutChangeForce part) := by
  intro w _ hw; cases hw

theorem Laws.RoundTrip.applyStaged (part : Nat) : Statement (Instr.applyStaged part) := by
  intro w _ hw; cases hw

theorem Laws.RoundTrip.partitionReset (part : Nat) : Statement (Instr.partitionReset part) := by
  intro w _ hw; cases hw

theorem Laws.RoundTrip.releaseFault (part : Nat) : Statement (Instr.releaseFault part) := by
  intro w _ hw; cases hw

theorem Laws.RoundTrip.releaseDiscard (part : Nat) : Statement (Instr.releaseDiscard part) := by
  intro w _ hw; cases hw

theorem Laws.RoundTrip.attestationReport (part : Nat) : Statement (Instr.attestationReport part) := by
  intro w _ hw; cases hw

theorem Laws.RoundTrip.debugStop (part : Nat) (data : BitVec 64) : Statement (Instr.debugStop part data) := by
  intro w _ hw; cases hw

theorem Laws.RoundTrip.counterReadLow (part : Nat) (guest : BitVec 3) (n : Nat) : Statement (Instr.counterReadLow part guest n) := by
  intro w _ hw; cases hw

theorem Laws.RoundTrip.registerWrite (part : Nat) (guest : Option (BitVec 3)) (off : Nat) (data : RegData) : Statement (Instr.registerWrite part guest off data) := by
  intro w _ hw; cases hw

theorem Laws.RoundTrip.strikeAlarm (core : Nat) : Statement (Instr.strikeAlarm core) := by
  intro w _ hw; cases hw

theorem Laws.RoundTrip.waystationAlarm (way : Nat) : Statement (Instr.waystationAlarm way) := by
  intro w _ hw; cases hw

theorem Laws.RoundTrip.eccCorrected (core store bank : Nat) (addr : BitVec 64) : Statement (Instr.eccCorrected core store bank addr) := by
  intro w _ hw; cases hw

theorem Laws.RoundTrip.coreRetire (core : Nat) : Statement (Instr.coreRetire core) := by
  intro w _ hw; cases hw

theorem Laws.RoundTrip.blockMigrate (block : Nat) : Statement (Instr.blockMigrate block) := by
  intro w _ hw; cases hw

theorem Laws.RoundTrip.poisonMark (die : Nat) (store : BitVec 32) (at_ : PoisonAt) : Statement (Instr.poisonMark die store at_) := by
  intro w _ hw; cases hw

theorem Laws.RoundTrip.fecCorrection (link : BitVec 64) (flits : BitVec 32) : Statement (Instr.fecCorrection link flits) := by
  intro w _ hw; cases hw

theorem Laws.RoundTrip.linkIntegrityFailure (part : Nat) (link : BitVec 64) (flit : BitVec 32) : Statement (Instr.linkIntegrityFailure part link flit) := by
  intro w _ hw; cases hw

theorem Laws.RoundTrip.dieFatalError (at_ : FatalAt) (cause : BitVec 64) (code : BitVec 32) : Statement (Instr.dieFatalError at_ cause code) := by
  intro w _ hw; cases hw

theorem Laws.RoundTrip.horizonTreeFailure (part : Nat) (segment : BitVec 64) (id : BitVec 32) : Statement (Instr.horizonTreeFailure part segment id) := by
  intro w _ hw; cases hw

theorem Laws.RoundTrip.clockCapChange (die cap : Nat) : Statement (Instr.clockCapChange die cap) := by
  intro w _ hw; cases hw

theorem Laws.RoundTrip.bringUp (disabled : List Nat) : Statement (Instr.bringUp disabled) := by
  intro w _ hw; cases hw

theorem Laws.RoundTrip.weightRefreshEnd (die bank : Nat) : Statement (Instr.weightRefreshEnd die bank) := by
  intro w _ hw; cases hw

theorem Laws.RoundTrip.ideStreamEstablished (part : Nat) (up : Bool) : Statement (Instr.ideStreamEstablished part up) := by
  intro w _ hw; cases hw

theorem Laws.RoundTrip.migrationComplete (block : Nat) : Statement (Instr.migrationComplete block) := by
  intro w _ hw; cases hw

theorem Laws.RoundTrip.laneCycleCount  : Statement Instr.laneCycleCount := by
  intro w _ hw; cases hw

theorem Laws.RoundTrip.unassignedOpcode (word : IWord) : Statement (Instr.unassignedOpcode word) := by
  intro w hf hw
  have hx : assignedOpc (word.extractLsb' 86 10) = false := by
    cases hb : assignedOpc (word.extractLsb' 86 10) with
    | false => rfl
    | true => simp [Instr.WellFormed, Instr.illFormed, firstBad, hb] at hf
  obtain rfl : join (split word) = w := by cases hw; rfl
  rw [join_split]
  have ho : Op.ofCode (split word).opc = none := Op.ofCode_unassigned hx
  simp [decode, ho]

theorem Laws.RoundTrip.corePowerGating (core : Nat) (gated : Bool) : Statement (Instr.corePowerGating core gated) := by
  intro w _ hw; cases hw

theorem Laws.RoundTrip.linkRetraining (part : Nat) : Statement (Instr.linkRetraining part) := by
  intro w _ hw; cases hw

end Sys2Proof
end

