-- ==== Sys2Proof/Safety.lean ====
section
/-! DEFINITION. What claims use: a safe step, the canonical form of every memory, when an instruction is ready to execute (R279),
the operands and the results of the manual's tables, each written from its own rule and not from the meaning that it judges. -/

namespace Sys2Proof.Machine

/-- A step that the machine completes. -/
def Safe (o : Out) : Prop := ∃ s, o = .next s

/-- Every memory of the state is in its canonical form: device memory and the local store of every block. -/
def State.canonicalMem (s : State) : Bool := Memory.wf s.mem && s.blocks.all (fun e => Memory.wf e.2.mem)

/-- The common fields of an instruction word; none for an event and for a word whose OPC is unassigned. -/
def ctlOf : Instr → Option Ctl
  | .nop c | .ret c | .exit c | .detach c | .brk c | .rett c => some c
  | .bra c _ | .brx c _ | .pass c _ | .trap c _ | .pfg c _ | .pgreq c _ | .btdem c _ | .btpro c _ | .lnch c _
  | .ctxsv c _ | .ctxld c _ => some c
  | .brz c _ _ | .brnz c _ _ | .pmov c _ _ | .cpyw c _ _ | .btst c _ _ | .mzero c _ _ | .ctld c _ _ | .mbxrd c _ _
  | .mbxwr c _ _ | .rdsr c _ _ | .wrsr c _ _ | .rdcnt c _ _ => some c
  | .call c _ _ _ | .callx c _ _ _ | .smov c _ _ _ | .smovi c _ _ _ | .smovh c _ _ _ | .spopc c _ _ _ | .sclz c _ _ _
  | .sffs c _ _ _ | .pand c _ _ _ | .por c _ _ _ | .pxor c _ _ _ | .pandn c _ _ _ | .vabs c _ _ _ | .vpopc c _ _ _
  | .vclz c _ _ _ | .vmov c _ _ _ | .vmovi c _ _ _ | .fsqrt c _ _ _ | .frcp c _ _ _ | .frsq c _ _ _ | .fex2 c _ _ _
  | .flg2 c _ _ _ | .fsin c _ _ _ | .fcos c _ _ _ | .frnd c _ _ _ | .qcmp c _ _ _ | .ldl c _ _ _ | .sldl c _ _ _
  | .ldw c _ _ _ | .land c _ _ _ | .sct c _ _ _ | .mlda c _ _ _ | .qtopo c _ _ _ => some c
  | .sadd c _ _ _ _ | .ssub c _ _ _ _ | .smul c _ _ _ _ | .smulh c _ _ _ _ | .sdiv c _ _ _ _ | .srem c _ _ _ _
  | .sand c _ _ _ _ | .sor c _ _ _ _ | .sxor c _ _ _ _ | .sshl c _ _ _ _ | .sshr c _ _ _ _ | .ssar c _ _ _ _
  | .smin c _ _ _ _ | .smax c _ _ _ _ | .sbfx c _ _ _ _ | .sbfi c _ _ _ _ | .slea c _ _ _ _ | .vadd c _ _ _ _
  | .vsub c _ _ _ _ | .vmul c _ _ _ _ | .vmulh c _ _ _ _ | .vmad c _ _ _ _ | .vmin c _ _ _ _ | .vmax c _ _ _ _
  | .vand c _ _ _ _ | .vor c _ _ _ _ | .vxor c _ _ _ _ | .vshl c _ _ _ _ | .vshr c _ _ _ _ | .vsar c _ _ _ _
  | .vsadd c _ _ _ _ | .vbfx c _ _ _ _ | .vbfi c _ _ _ _ | .fadd c _ _ _ _ | .fsub c _ _ _ _ | .fmul c _ _ _ _
  | .ffma c _ _ _ _ | .fmin c _ _ _ _ | .fmax c _ _ _ _ | .fdiv c _ _ _ _ | .fcmp c _ _ _ _ | .vperm c _ _ _ _
  | .vbcast c _ _ _ _ | .vred c _ _ _ _ | .vscan c _ _ _ _ | .stla c _ _ _ _ | .stga c _ _ _ _ | .cpy c _ _ _ _
  | .cpym c _ _ _ _ | .gth c _ _ _ _ | .mma c _ _ _ _ | .mmq c _ _ _ _ | .spawn c _ _ _ _ => some c
  | .scmp c _ _ _ _ _ | .ssel c _ _ _ _ _ | .vsel c _ _ _ _ _ | .vcmp c _ _ _ _ _ | .hadd c _ _ _ _ _
  | .hmul c _ _ _ _ _ | .hfma c _ _ _ _ _ | .qscl c _ _ _ _ _ | .stl c _ _ _ _ _ | .sstl c _ _ _ _ _
  | .ldg c _ _ _ _ _ | .stg c _ _ _ _ _ | .sldg c _ _ _ _ _ | .sstg c _ _ _ _ _ | .mdrn c _ _ _ _ _
  | .tlbinv c _ _ _ _ _ => some c
  | .cvt c _ _ _ _ _ _ | .cvtp c _ _ _ _ _ _ | .qcvt c _ _ _ _ _ _ => some c
  | .dqcvt c _ _ _ _ _ _ _ _ => some c
  | _ => none

/-- An instruction whose entry states an effect without an active lane. -/
def actsIdle : Instr → Bool
  | .vcmp _ _ _ _ _ _ | .fcmp _ _ _ _ _ | .pass _ _ | .spawn _ _ _ _ _ => true
  | _ => false

/-! ## An instruction that is ready -/

/-- Group `gid`, whose turn it is, stands at the well-formed instruction `i` with common fields `c`, and no check of R279 and
no empty register stops it: pairs are even, its level may run it (R225), its registers stand in their windows (R58), no
operand depends on an earlier load of its run (R50), its trapping operands and its destination are full (R48, R49), and a
detached group sets no G flag (R65). -/
structure Ready (s : State) (gid : Nat) (g : Group) (c : Ctl) (i : Instr) : Prop where
  wf : i.WellFormed
  cur : s.cur = some gid
  group : s.group? gid = some g
  alive : g.retired = false
  checked : checkIssue g g.runNow c i = none
  full : mustWait g g.runNow i c = false

/-- The instruction is ready and at least one lane is active (R39). -/
structure Active (s : State) (gid : Nat) (g : Group) (c : Ctl) (i : Instr) : Prop extends Ready s gid g c i where
  lane : g.active c ≠ 0

/-- What the meaning of a ready instruction works on. -/
def ctxOf (s : State) (gid : Nat) (g : Group) (c : Ctl) : Ctx := ⟨s.tickSeq, gid, g, g.runNow, c, g.active c⟩

/-- The machine answers the state `t`, after which the instruction ends: nothing else happens before its end. -/
def Ends (s : State) (gid : Nat) (g : Group) (c : Ctl) (i : Instr) (t : State) (n : Next) (extra : Nat) : Prop :=
  exec i s = .next (finish t gid i c (g.active c) n extra)

/-! ## Operands -/

/-- The name that a scalar operand gives under the run's index registers (R49, R280). -/
def Group.sname (g : Group) (r : SReg) : Nat := (snum g.runNow.xs r).getD 0

/-- The name that a vector operand gives. -/
def Group.vname (g : Group) (r : VReg) : Nat := (vnum g.runNow.xs r).getD 0

/-- The value of a scalar operand. -/
def Group.sval (g : Group) (r : SReg) : Word := g.getS (g.sname r)

/-- The value of a scalar operand or immediate, the immediate sign-extended (R280). -/
def Group.ssval (g : Group) : SSrc → Word
  | .reg r => g.sval r
  | .imm i => i.signExtend 64

/-- A lane of a vector operand. -/
def Group.vval (g : Group) (r : VReg) (l : Nat) : Lane := g.getV (g.vname r) l

/-- A lane of a vector pair, the low half first (R286). -/
def Group.vpair (g : Group) (r : VReg) (l : Nat) : Word := g.getV (g.vname r + 1) l ++ g.getV (g.vname r) l

/-- A lane of a vector operand under a type: the pair under a 64-bit type, else the word (R419). -/
def Group.tval (g : Group) (ty : Ty) (r : VReg) (l : Nat) : Word :=
  if ty.is64 then g.vpair r l else (g.vval r l).setWidth 64

/-- A lane of a vector float's B operand: a scalar gives its low word to every lane (R301). -/
def Group.vsval (g : Group) (b : VS) (l : Nat) : Lane :=
  match b with
  | .vec r => g.vval r l
  | .sca r => (g.sval r).setWidth 32

/-- The address of a lane (R284): base and offset, or without a base the offset alone, from a pair for a global access. -/
def Group.vaddr (g : Group) (glob : Bool) (m : VMem) (l : Nat) : Word :=
  match m.a, m.b with
  | some a, .vec r => g.sval a + (g.vval r l).signExtend 64
  | some a, .sca r => g.sval a + g.sval r
  | some a, .imm i => g.sval a + i.signExtend 64
  | none, .vec r => if glob then g.vpair r l else (g.vval r l).setWidth 64
  | none, .sca r => g.sval r
  | none, .imm i => i.signExtend 64

/-- The address of a scalar access (R284). -/
def Group.saddr (g : Group) (m : SMem) : Word :=
  match m.a with
  | some a => g.sval a + g.ssval m.b
  | none => g.ssval m.b

/-- What a lane stores (R411): its word, or the pair. -/
def Group.stored (g : Group) (sz : Size) (d : VReg) (l : Nat) : Word :=
  if sz = .s64 then g.vpair d l else (g.vval d l).setWidth 64

/-- What a lane store's writes share: its rule and the identity of its lane (R85). -/
def storeOf (s : State) (gid : Nat) (rule : WRule) (wid : Word) : Write where
  key := 0
  va := 0
  wide := false
  mask := 0
  val := 0
  rule := rule
  wid := wid
  ord := 0
  grp := gid
  engine := false
  seq := s.seq + 1

/-- The registers that a vector load fills. -/
def Group.loadDst (g : Group) (sz : Size) (d : VReg) : LoadDst :=
  .vec (g.physV (g.vname d)) (if sz = .s64 then some (g.physV (g.vname d + 1)) else none)

/-- The group with the lanes of `off` switched off by a local bounds fault (R105). -/
def Group.switchOff (g : Group) (off : Mask) : Group :=
  { g with r := { g.r with live := g.r.live &&& ~~~off, lfm := g.r.lfm ||| off } }

/-! ## Next states -/

/-- The state after an instruction that only changes its group, to `g'`. -/
def after (s : State) (gid : Nat) (g : Group) (c : Ctl) (i : Instr) (g' : Group) : State :=
  finish (s.tickSeq.setGroup gid g') gid i c (g.active c) .seq 0

/-- The state after an instruction that writes the scalar register of `d` and nothing else. -/
def afterS (s : State) (gid : Nat) (g : Group) (c : Ctl) (i : Instr) (d : SReg) (v : Word) : State :=
  after s gid g c i (g.setS (g.sname d) v)

/-- The instruction writes the scalar register of `d`, with the value `v` of the group as it was, and nothing else. -/
def WritesS (i : Instr) (c : Ctl) (d : SReg) (v : State → Group → Word) : Prop :=
  ∀ s gid g, Active s gid g c i → exec i s = .next (afterS s gid g c i d (v s g))

/-- The instruction changes its group alone, to `f` of the group as it was. -/
def Changes (i : Instr) (c : Ctl) (f : State → Group → Group) : Prop :=
  ∀ s gid g, Active s gid g c i → exec i s = .next (after s gid g c i (f s g))

/-- `g'` is `g` with the lanes of `act` changed in the vector register of `d`, or in its pair under a 64-bit type, to values that
satisfy `P`; every other lane, every other register and everything else of the group is what it was (R39, R420). -/
structure WroteV (g g' : Group) (ty : Ty) (d : VReg) (act : Mask) (P : Nat → Word → Prop) : Prop where
  rest : g' = { g with r := { g.r with v := g'.r.v } }
  active : ∀ l, l < 32 → bitOf act l = true → P l (g'.tval ty d l)
  inactive : ∀ l, l < 32 → bitOf act l = false → g'.tval ty d l = g.tval ty d l
  other : ∀ n, n ≠ g.physV (g.vname d) → (ty.is64 = true → n ≠ g.physV (g.vname d + 1)) →
    ∀ l, l < 32 → tget 0 g'.r.v (32 * n + l) = tget 0 g.r.v (32 * n + l)

/-- The instruction writes the vector destination `d` in its active lanes, with values that satisfy `P`, and nothing else. -/
def WritesV (i : Instr) (c : Ctl) (ty : Ty) (d : VReg) (P : State → Group → Nat → Word → Prop) : Prop :=
  ∀ s gid g, Active s gid g c i →
    ∃ g', exec i s = .next (after s gid g c i g') ∧ WroteV g g' ty d (g.active c) (P s g)

/-- As `WritesV`, for an instruction that also takes `n` of the free values (R145, R162): the count of those taken moves on. -/
def WritesFree (i : Instr) (c : Ctl) (n : Nat) (ty : Ty) (d : VReg) (P : State → Group → Nat → Word → Prop) : Prop :=
  ∀ s gid g, Active s gid g c i →
    ∃ g', exec i s = .next (after { s with free := s.free + n } gid g c i g') ∧ WroteV g g' ty d (g.active c) (P s g)

/-- An instruction with a parameter block of `n` bytes, aligned to `align`, at the local address in `d` (R124). With the block in the
block's store, written by no operation in flight, not poisoned and passing its checks, its operation starts with the block captured.
With a bad address it raises trap 0x38, with poison in the block trap 0x14, and with a block that fails its checks the trap that they
name. While an operation in flight still writes the block, the operation starts all the same and reads the block later (R112, R117). -/
def EngineStarts (s : State) (gid : Nat) (g : Group) (c : Ctl) (i : Instr) (d : SReg) (align n : Nat)
    (check : List Byte → Option TrapInfo) (kind : OpKind) (known : List Byte → OpKind) (reads : List Byte → List (Nat × Nat))
    (write : List Byte → Option (Nat × Nat)) : Prop :=
  let a := (g.sval d).toNat
  let b := s.blockOf g
  let pb := rdL b.mem a n
  let traps (t : TrapInfo) : Prop := exec i s = .next (s.tickSeq.syncTrap gid t)
  (a % align ≠ 0 ∨ b.bytes < a + n → traps { cause := 0x38 }) ∧
  (a % align = 0 → a + n ≤ b.bytes → writesOver b (some (a, a + n)) = [] →
    (b.poisoned a n = true → traps { cause := 0x14, addr := BitVec.ofNat 64 a }) ∧
    (b.poisoned a n = false → ∀ t, check pb = some t → traps t) ∧
    (b.poisoned a n = false → check pb = none →
      Ends s gid g c i ((ctxOf s gid g c).startOp (known pb) pb [] ((a, a + n) :: reads pb) (write pb) true).2 .seq 0)) ∧
  (a % align = 0 → a + n ≤ b.bytes → writesOver b (some (a, a + n)) ≠ [] → ∃ rs w,
    Ends s gid g c i ((ctxOf s gid g c).startOp kind [] [] ((a, a + n) :: rs) w true (some (a, n))).2 .seq 0)

/-- The state in which a matrix instruction has joined its core's queue (R183, R363). -/
def queued (x : Ctx) (kind : OpKind) (pb : List Byte) (args : List Word) (reads : List (Nat × Nat))
    (write : Option (Nat × Nat)) (entry : Bool) (g : Group) (late : Option (Nat × Nat) := none) : State :=
  let started := x.startOp kind pb args reads write entry late
  (started.2.modCore (x.s.blockOf x.g).core (fun c => { c with queue := c.queue ++ [started.1] })).setGroup x.gid g

/-- Of everything, only the last-level cache, what it counts of prefetches and the count of free values taken may differ (R83, R258). -/
structure CacheOnly (s u : State) : Prop where
  rest : u = { s with llc := u.llc, cores := u.cores, free := u.free }
  core : ∀ k, u.core k = { s.core k with counters := (u.core k).counters }
  counters : ∀ k j, j % 8192 ∉ [0x081, 0x082, 0x083] → tget 0 (u.core k).counters j = tget 0 (s.core k).counters j

/-! ## Results of the scalar tables (R388 to R397) -/

/-- A signed integer type (R286). -/
def intSigned : Ty → Bool
  | .i32 | .i64 => true
  | _ => false

/-- R389: the operation in w bits, its result extended to 64. -/
def scalarOf (ty : Ty) (f : (w : Nat) → BitVec w → BitVec w → BitVec w) (a b : Word) : Word :=
  match ty with
  | .i64 | .n64 | .b64 => f 64 a b
  | .i32 => (f 32 (a.setWidth 32) (b.setWidth 32)).signExtend 64
  | _ => (f 32 (a.setWidth 32) (b.setWidth 32)).setWidth 64

/-- Bits [2w−1:w] of the exact product (R388). -/
def mulHighOf (sg : Bool) (w : Nat) (a b : BitVec w) : BitVec w :=
  if sg then ((a.signExtend (2 * w)) * (b.signExtend (2 * w))).extractLsb' w w
  else ((a.setWidth (2 * w)) * (b.setWidth (2 * w))).extractLsb' w w

/-- Shifts, with their results for a count of w and more (R388). -/
def shlOf (w : Nat) (a b : BitVec w) : BitVec w := if w ≤ b.toNat then 0 else a <<< b.toNat
def shrOf (w : Nat) (a b : BitVec w) : BitVec w := if w ≤ b.toNat then 0 else a >>> b.toNat
def sarOf (w : Nat) (a b : BitVec w) : BitVec w :=
  if w ≤ b.toNat then (if a.msb then BitVec.allOnes w else 0) else a.sshiftRight b.toNat

/-- The smaller and the larger operand (R388). -/
def minOf (sg : Bool) (w : Nat) (a b : BitVec w) : BitVec w := if (if sg then b.slt a else b.ult a) then b else a
def maxOf (sg : Bool) (w : Nat) (a b : BitVec w) : BitVec w := if (if sg then a.slt b else a.ult b) then b else a

/-- The quotient and the remainder with their edge cases (R397). -/
def divOf (sg : Bool) (w : Nat) (a b : BitVec w) : BitVec w :=
  if b = 0 then BitVec.allOnes w else if sg then a.sdiv b else a / b
def remOf (sg : Bool) (w : Nat) (a b : BitVec w) : BitVec w :=
  if b = 0 then a else if sg then a.srem b else a % b

/-- Position and length of a field specification, the length at most w (R391, R392). -/
def fieldPos (spec : Word) : Nat := (spec.extractLsb' 0 6).toNat
def fieldLen (spec : Word) (w : Nat) : Nat := min (spec.extractLsb' 6 7).toNat w

/-- The field of `a` in w bits, sign-extended for signed types (R392). -/
def fieldOf (sg : Bool) (spec : Word) (w : Nat) (a _b : BitVec w) : BitVec w :=
  if sg then ((a >>> fieldPos spec).setWidth (fieldLen spec w)).signExtend w
  else ((a >>> fieldPos spec).setWidth (fieldLen spec w)).setWidth w

/-- The bits of a field in w bits (R392). -/
def fieldMask (spec : Word) (w : Nat) : BitVec w := ((BitVec.allOnes (fieldLen spec w)).setWidth w) <<< fieldPos spec

/-- `d` with the low bits of `a` in the field (R392). -/
def insertOf (spec : Word) (w : Nat) (d a : BitVec w) : BitVec w :=
  (d &&& ~~~(fieldMask spec w)) ||| ((a <<< fieldPos spec) &&& fieldMask spec w)

/-! ## Results of the vector tables (R418 to R426) -/

/-- The width of an element (R419). -/
def widthOf : Ty → Nat
  | .i16x2 | .i16 | .n16 | .f16x2 | .bf16x2 => 16
  | .i8 | .n8 => 8
  | .i64 | .n64 | .b64 => 64
  | _ => 32

/-- Elements in a lane (R419). -/
def countOf (ty : Ty) : Nat := if ty.is64 then 1 else 32 / widthOf ty

/-- Signed elements (R419). -/
def elemSigned : Ty → Bool
  | .i32 | .i64 | .i16x2 | .i16 | .i8 => true
  | _ => false

/-- Element `i` of a word (R137). -/
def elemOf (ty : Ty) (x : Word) (i : Nat) : BitVec (widthOf ty) := x.extractLsb' (widthOf ty * i) (widthOf ty)

/-- The lane's B operand (R419): its own elements, the scalar, or the immediate sign-extended to an element, in every element. -/
def Group.bopnd (g : Group) (ty : Ty) (b : VSI) (l : Nat) : Word :=
  match b with
  | .vec r => g.tval ty r l
  | .sca r => if ty.is64 then g.sval r else ((g.sval r).setWidth 32).setWidth 64
  | .imm i =>
    if widthOf ty = 64 then i.signExtend 64
    else if widthOf ty = 32 then (i.signExtend 32).setWidth 64
    else if widthOf ty = 16 then (i.signExtend 16 ++ i.signExtend 16).setWidth 64
    else (i.setWidth 8 ++ i.setWidth 8 ++ i.setWidth 8 ++ i.setWidth 8).setWidth 64

/-- Each element of the result is the operation on the elements of A, B and D in its place (R420). -/
def Elementwise (ty : Ty) (f : (w : Nat) → BitVec w → BitVec w → BitVec w → BitVec w) (a b d r : Word) : Prop :=
  ∀ i, i < countOf ty → elemOf ty r i = f (widthOf ty) (elemOf ty a i) (elemOf ty b i) (elemOf ty d i)

/-- A lane's operation in 32 or 64 bits (R423). -/
def laneOf (ty : Ty) (f : (w : Nat) → BitVec w → BitVec w → BitVec w) (a b : Word) : Word :=
  if ty.is64 then f 64 a b else (f 32 (a.setWidth 32) (b.setWidth 32)).setWidth 64

/-- A lane's value as an integer of 32 or 64 bits, signed or unsigned by type (R425). -/
def laneInt (ty : Ty) (x : Word) : Int :=
  match ty with
  | .i64 => x.toInt
  | .n64 | .b64 => x.toNat
  | .i32 => (x.setWidth 32).toInt
  | _ => (x.setWidth 32).toNat

/-- The sum clamped to the type's range (R418). -/
def addClampOf (sg : Bool) (w : Nat) (a b : BitVec w) : BitVec w :=
  if sg then
    if 2 ^ (w - 1) ≤ a.toInt + b.toInt then BitVec.intMax w
    else if a.toInt + b.toInt < -2 ^ (w - 1) then BitVec.intMin w else a + b
  else if 2 ^ w ≤ a.toNat + b.toNat then BitVec.allOnes w else a + b

/-- Two elements combined, and an operation's identity (R302). -/
def combineOf (op : RedOp) (sg : Bool) (w : Nat) (a b : BitVec w) : BitVec w :=
  match op with
  | .add => a + b
  | .min => minOf sg w a b
  | .max => maxOf sg w a b
  | .and => a &&& b
  | .or => a ||| b
  | .xor => a ^^^ b
def identityOf (op : RedOp) (sg : Bool) (w : Nat) : BitVec w :=
  match op with
  | .and => BitVec.allOnes w
  | .min => if sg then BitVec.intMax w else BitVec.allOnes w
  | .max => if sg then BitVec.intMin w else 0
  | _ => 0

/-- The magnitude; −2^(w−1) gives itself (R418). -/
def absOf (w : Nat) (a : BitVec w) : BitVec w := if a.msb then -a else a

/-- The number of one bits (R393, R424). -/
def onesOf (w : Nat) (a : BitVec w) : Nat := ((List.range w).filter (fun n => a.getLsbD n)).length

/-- The number of zero bits above the highest one bit, w for zero (R393, R424). -/
def zerosOf (w : Nat) (a : BitVec w) : Nat := if a = 0 then w else w - 1 - a.toNat.log2

/-- The index of the lowest one bit, all 64 bits set for zero (R393). -/
def lowestOf (w : Nat) (a : BitVec w) : Word :=
  match (List.range w).find? (fun n => a.getLsbD n) with
  | some n => BitVec.ofNat 64 n
  | none => BitVec.allOnes 64

/-! ## Float values and rounding, in real numbers (R138, R142, R143, R151) -/

/-- The number of a dyadic value. -/
noncomputable def Dy.real (x : Dy) : ℝ := x.m * (2 : ℝ) ^ x.e

/-- The number of a finite value. -/
noncomputable def FVal.real (v : FVal) : ℝ := v.dy.real

/-- The number of a magnitude's code, as if the exponent had no upper limit (R138). -/
noncomputable def FloatFmt.magVal (f : FloatFmt) (c : Nat) : ℝ :=
  if c / 2 ^ f.fb = 0 then c * (2 : ℝ) ^ (1 - (f.bias : Int) - f.fb)
  else (2 ^ f.fb + (c % 2 ^ f.fb : Nat)) * (2 : ℝ) ^ ((c / 2 ^ f.fb : Nat) - (f.bias : Int) - f.fb)

/-- `c` names the point of a rising grid that a magnitude x rounds to under a rounding code (R142); `neg` is the sign of the value. -/
def RoundsTo (grid : Nat → ℝ) (r : Rnd) (neg : Bool) (x : ℝ) (c : Nat) : Prop :=
  ∃ k, grid k ≤ x ∧ x < grid (k + 1) ∧ (x = grid k → c = k) ∧ (x ≠ grid k →
    match r with
    | .rtz => c = k
    | .rdn => c = if neg then k + 1 else k
    | .rup => c = if neg then k else k + 1
    | .rne => (2 * x < grid k + grid (k + 1) → c = k) ∧ (grid k + grid (k + 1) < 2 * x → c = k + 1) ∧
        (2 * x = grid k + grid (k + 1) → c % 2 = 0 ∧ (c = k ∨ c = k + 1)))

/-- The code of a rounded magnitude beyond the largest finite (R143, R151). -/
def FloatFmt.Beyond (f : FloatFmt) (r : Rnd) (sat neg : Bool) (code : Nat) : Prop :=
  match sat, f.inf, f.nan with
  | true, _, _ => code = f.signed neg f.maxCode
  | false, some i, _ => code = f.signed neg
      (match r with | .rne => i | .rtz => f.maxCode | .rdn => if neg then i else f.maxCode | .rup => if neg then f.maxCode else i)
  | false, none, some n => code = n
  | false, none, none => code = f.signed neg f.maxCode

/-- `code` is the value of magnitude x and sign `neg` rounded once into a format (R142, R143, R151). -/
def FloatFmt.Rounded (f : FloatFmt) (r : Rnd) (sat neg : Bool) (x : ℝ) (code : Nat) : Prop :=
  ∃ c, RoundsTo f.magVal r neg x c ∧ if c ≤ f.maxCode then code = f.signed neg c else f.Beyond r sat neg code

/-- A number rounded once into a format; `zneg` is the sign of an exact zero (R143). -/
def FloatFmt.RoundedTo (f : FloatFmt) (r : Rnd) (sat zneg : Bool) (t : ℝ) (code : Nat) : Prop :=
  (t = 0 → code = f.signed zneg 0) ∧ (t ≠ 0 → f.Rounded r sat (decide (t < 0)) |t| code)

/-- A value converted into a format (R140, R151). -/
def FloatFmt.Converted (f : FloatFmt) (r : Rnd) (sat : Bool) (v : FVal) (code : Nat) : Prop :=
  match v with
  | .nan => code = f.nan.getD 0
  | .inf neg => f.Beyond .rne sat neg code
  | .fin neg m e => f.RoundedTo r sat neg (FVal.fin neg m e).real code

/-- `i` is a number rounded to an integer under a rounding code (R142, R152). -/
def RoundedInt (r : Rnd) (t : ℝ) (i : Int) : Prop :=
  ∃ k : Nat, RoundsTo (fun k => (k : ℝ)) r (decide (t < 0)) |t| k ∧ i = if t < 0 then -(k : Int) else k

/-- The format of a float type's elements (R137, R138). -/
def floatOf : Ty → Option FloatFmt
  | .f32 => some fp32
  | .f16x2 => some fp16
  | .bf16x2 => some bf16
  | _ => none

/-- The nearest number that an integer type of `w` bits holds. -/
def nearestIn (w : Nat) (sg : Bool) (i : Int) : Int :=
  max (if sg then -2 ^ (w - 1) else 0) (min (if sg then 2 ^ (w - 1) - 1 else 2 ^ w - 1) i)

/-- A value converted to an integer type (R152). -/
def IntOf (r : Rnd) (w : Nat) (sg : Bool) (v : FVal) (i : Int) : Prop :=
  match v with
  | .nan => i = 0
  | .inf neg => i = if neg then (if sg then -2 ^ (w - 1) else 0) else if sg then 2 ^ (w - 1) - 1 else 2 ^ w - 1
  | .fin neg m e => ∃ k, RoundedInt r (FVal.fin neg m e).real k ∧ i = nearestIn w sg k

/-- One unit in the last place of FP32 at an exact result (R145). -/
noncomputable def ulp32 (t : ℝ) : ℝ := 2 ^ (max (Int.log 2 |t|) (-126) - 23)

/-- A code whose number lies within `u` of `t`; an infinity counts as 2^128, where the next value would be (entry 32). -/
def Near (code : Nat) (t u : ℝ) : Prop :=
  match fp32.val code with
  | .nan => False
  | .inf neg => |(if neg then -1 else 1) * (2 : ℝ) ^ 128 - t| ≤ u
  | .fin neg m e => |(FVal.fin neg m e).real - t| ≤ u

/-- The order of values, −0 and +0 alike. -/
def FVal.AtMost (v w : FVal) : Prop := v = .inf true ∨ w = .inf false ∨ ∃ x m e y n g, v = .fin x m e ∧ w = .fin y n g ∧ v.real ≤ w.real

end Sys2Proof.Machine
end

