-- ==== Sys2Proof/Certificates/Slice0/Obligations.lean ====
section
/-! DEFINITION. The statements for the provers: what the rules of the manual say that the machine and each instruction do. -/

open Sys2Proof Sys2Proof.Machine

/-- R388, R389, R390 and R397: the fourteen scalar instructions on A and B, in w bits, with their results extended; division by
zero and the overflowing quotient included.
R391 to R395 and R402: SCMP, SSEL, SPOPC, SCLZ, SFFS, SBFX, SBFI, and SLEA whose sum is canonical. -/
def Obligations.ScalarResults : Prop :=
  (∀ (c : Ctl) (ty : Ty) (d a : SReg) (b : SSrc),
     let r (f : (w : Nat) → BitVec w → BitVec w → BitVec w) : State → Group → Word := fun _ g => scalarOf ty f (g.sval a) (g.ssval b)
     WritesS (.sadd c ty d a b) c d (r (fun _ a b => a + b)) ∧
     WritesS (.ssub c ty d a b) c d (r (fun _ a b => a - b)) ∧
     WritesS (.smul c ty d a b) c d (r (fun _ a b => a * b)) ∧
     WritesS (.smulh c ty d a b) c d (r (mulHighOf (intSigned ty))) ∧
     WritesS (.sdiv c ty d a b) c d (r (divOf (intSigned ty))) ∧
     WritesS (.srem c ty d a b) c d (r (remOf (intSigned ty))) ∧
     WritesS (.sand c ty d a b) c d (r (fun _ a b => a &&& b)) ∧
     WritesS (.sor c ty d a b) c d (r (fun _ a b => a ||| b)) ∧
     WritesS (.sxor c ty d a b) c d (r (fun _ a b => a ^^^ b)) ∧
     WritesS (.sshl c ty d a b) c d (r shlOf) ∧
     WritesS (.sshr c ty d a b) c d (r shrOf) ∧
     WritesS (.ssar c ty d a b) c d (r sarOf) ∧
     WritesS (.smin c ty d a b) c d (r (minOf (intSigned ty))) ∧
     WritesS (.smax c ty d a b) c d (r (maxOf (intSigned ty)))) ∧
  (∀ (c : Ctl) (ty : Ty) (d a : SReg) (b : SSrc) (cond : Cond) (sel : BitVec 4),
     WritesS (.scmp c ty cond d a b) c d (fun _ g =>
       if condHolds cond (cmpInt (if intSigned ty then (scalarOf ty (fun _ a _ => a) (g.sval a) 0).toInt
             else ((scalarOf ty (fun _ a _ => a) (g.sval a) 0).toNat : Int))
           (if intSigned ty then (scalarOf ty (fun _ a _ => a) (g.ssval b) 0).toInt
             else ((scalarOf ty (fun _ a _ => a) (g.ssval b) 0).toNat : Int)))
       then 1 else 0) ∧
     WritesS (.ssel c ty sel d a b) c d (fun _ g =>
       scalarOf ty (fun _ a _ => a) (if g.getP sel.toNat &&& g.r.live = 0 then g.ssval b else g.sval a) 0) ∧
     WritesS (.spopc c ty d a) c d (fun _ g =>
       BitVec.ofNat 64 (if ty.is64 then onesOf 64 (g.sval a) else onesOf 32 ((g.sval a).setWidth 32))) ∧
     WritesS (.sclz c ty d a) c d (fun _ g =>
       BitVec.ofNat 64 (if ty.is64 then zerosOf 64 (g.sval a) else zerosOf 32 ((g.sval a).setWidth 32))) ∧
     WritesS (.sffs c ty d a) c d (fun _ g =>
       if ty.is64 then lowestOf 64 (g.sval a) else lowestOf 32 ((g.sval a).setWidth 32)) ∧
     WritesS (.sbfx c ty d a b) c d (fun _ g => scalarOf ty (fieldOf (intSigned ty) (g.ssval b)) (g.sval a) 0) ∧
     WritesS (.sbfi c ty d a b) c d (fun _ g => scalarOf ty (insertOf (g.ssval b)) (g.sval d) (g.sval a)) ∧
     ∀ s gid g, Active s gid g c (.slea c ty d a b) →
       let t := g.sval a + (match ty with
         | .i32 => ((g.ssval b).setWidth 32).signExtend 64
         | .n32 => ((g.ssval b).setWidth 32).setWidth 64
         | _ => g.ssval b)
       (canonical t = true → exec (.slea c ty d a b) s = .next (afterS s gid g c (.slea c ty d a b) d t)) ∧
       (canonical t = false → exec (.slea c ty d a b) s = .next (s.tickSeq.syncTrap gid ⟨0x11, t, 0, none, 0, 0, false, false, none⟩)))

/-- R403 and R404: the three scalar moves, each form of source and destination.
R40, R229 and R384: what RDSR copies, for the registers that a group holds itself; for the others it is the value that SMOV reads.
R229, R427 and R428: the effect of WRSR on each register that it may write. -/
def Obligations.ScalarMovesAndSpecials : Prop :=
  (∀ (c : Ctl) (ty : Ty) (d a : SReg) (x y : BitVec 3) (r : Special) (imm : BitVec 32),
     WritesS (.smov c ty (.sca d) (.sca a)) c d (fun _ g => scalarOf ty (fun _ v _ => v) (g.sval a) 0) ∧
     WritesS (.smov c ty (.sca d) (.idx x)) c d (fun _ g => scalarOf ty (fun _ v _ => v) ((g.getX x.toNat).signExtend 64) 0) ∧
     WritesS (.smov c ty (.sca d) (.spr r)) c d (fun s g => scalarOf ty (fun _ v _ => v) (special s g r) 0) ∧
     Changes (.smov c ty (.idx y) (.sca a)) c (fun _ g => g.setX y.toNat ((g.sval a).setWidth 16)) ∧
     Changes (.smov c ty (.idx y) (.idx x)) c (fun _ g => g.setX y.toNat (g.getX x.toNat)) ∧
     Changes (.smov c ty (.idx y) (.spr r)) c (fun s g => g.setX y.toNat ((special s g r).setWidth 16)) ∧
     WritesS (.smovi c ty d imm) c d (fun _ _ => if intSigned ty then imm.signExtend 64 else imm.setWidth 64) ∧
     WritesS (.smovh c ty d imm) c d (fun _ g => (imm.setWidth 64 <<< 32) ||| (g.sval d &&& 0xFFFFFFFF))) ∧
  (∀ (c : Ctl) (d : SReg) (r : Special),
     WritesS (.rdsr c d r) c d (fun s g =>
       match r with
       | .gwid => g.gwid
       | .fw => g.fw
       | .lhdr => g.lhdr
       | .live => g.r.live.setWidth 64
       | .gstep => BitVec.ofNat 64 g.r.gstep
       | .lstep => BitVec.ofNat 64 g.r.lstep
       | .lag => g.r.lag.setWidth 64
       | .core => BitVec.ofNat 64 ((s.blockOf g).core % 512)
       | .grp => BitVec.ofNat 64 g.grp
       | .lfm => g.r.lfm.setWidth 64
       | .nrs => g.r.nrs.setWidth 64
       | .xcause => g.r.xcause.setWidth 64
       | .xpc => g.r.xpc
       | .xaddr => g.r.xaddr
       | .xlanes => g.r.xlanes.setWidth 64
       | .xstep => g.r.xstep
       | .xprog => g.r.xprog
       | .xinfo => g.r.xinfo
       | .xvec => g.r.xvec
       | .wbv => BitVec.ofNat 64 g.r.wbv
       | .wbs => BitVec.ofNat 64 g.r.wbs
       | .spill => g.r.spill
       | .ctx => BitVec.ofNat 64 (s.blockOf g).ctx
       | r => special s g r)) ∧
  (∀ (c : Ctl) (a : SSrc),
     Changes (.wrsr c .lag a) c (fun _ g => { g with r := { g.r with lag := (g.ssval a).setWidth 3 } }) ∧
     Changes (.wrsr c .lfm a) c (fun _ g => { g with r := { g.r with lfm := g.r.lfm &&& ~~~((g.ssval a).setWidth 32) } }) ∧
     Changes (.wrsr c .nrs a) c (fun _ g => { g with r := { g.r with nrs := g.r.nrs &&& ~~~((g.ssval a).setWidth 32) } }) ∧
     Changes (.wrsr c .xcause a) c (fun _ g => { g with r := { g.r with xcause := (g.ssval a).setWidth 9 } }) ∧
     Changes (.wrsr c .xpc a) c (fun _ g => { g with r := { g.r with xpc := g.ssval a, xhead := false } }) ∧
     Changes (.wrsr c .xaddr a) c (fun _ g => { g with r := { g.r with xaddr := g.ssval a } }) ∧
     Changes (.wrsr c .xlanes a) c (fun _ g => { g with r := { g.r with xlanes := (g.ssval a).setWidth 32 } }) ∧
     Changes (.wrsr c .xstep a) c (fun _ g => { g with r := { g.r with xstep := g.ssval a } }) ∧
     Changes (.wrsr c .xprog a) c (fun _ g => { g with r := { g.r with xprog := g.ssval a } }) ∧
     Changes (.wrsr c .xinfo a) c (fun _ g => { g with r := { g.r with xinfo := g.ssval a } }) ∧
     Changes (.wrsr c .xvec a) c (fun _ g => { g with r := { g.r with xvec := g.ssval a } }) ∧
     Changes (.wrsr c .wbv a) c (fun _ g => { g with r := { g.r with wbv := ((g.ssval a).setWidth 32).toNat % g.va } }) ∧
     Changes (.wrsr c .wbs a) c (fun _ g => { g with r := { g.r with wbs := ((g.ssval a).setWidth 32).toNat % g.sa } }) ∧
     Changes (.wrsr c .spill a) c (fun _ g => { g with r := { g.r with spill := g.ssval a } }) ∧
     Changes (.wrsr c .accst a) c (fun _ g => { g with r := { g.r with wov := g.r.wov &&& ~~~((g.ssval a).setWidth 16) } }))

/-- R368 with the results of R367: the predicate family with an active lane, and without one. -/
def Obligations.PredicateOperations : Prop :=
  (∀ (c : Ctl) (d a b : BitVec 4) (r : SReg),
    Changes (.pand c d a b) c (fun _ g => g.setP d.toNat (g.getP a.toNat &&& g.getP b.toNat)) ∧
    Changes (.por c d a b) c (fun _ g => g.setP d.toNat (g.getP a.toNat ||| g.getP b.toNat)) ∧
    Changes (.pxor c d a b) c (fun _ g => g.setP d.toNat (g.getP a.toNat ^^^ g.getP b.toNat)) ∧
    Changes (.pandn c d a b) c (fun _ g => g.setP d.toNat (g.getP a.toNat &&& ~~~(g.getP b.toNat))) ∧
    Changes (.pmov c d (.pred a)) c (fun _ g => g.setP d.toNat (g.getP a.toNat)) ∧
    Changes (.pmov c d (.sca r)) c (fun _ g => g.setP d.toNat ((g.sval r).setWidth 32))) ∧
  (∀ (c : Ctl) (i : Instr), (∃ d a b, i = .pand c d a b ∨ i = .por c d a b ∨ i = .pxor c d a b ∨ i = .pandn c d a b) ∨
      (∃ d a, i = .pmov c d a) →
    (∀ s gid g, Ready s gid g c i → g.active c = 0 → exec i s = .next (finish s.tickSeq gid i c 0 .seq 0)) ∧ slotCycles i = 1) ∧
  ∀ (g : Group) (m n : Nat) (x : Mask),
    g.getP 0 = BitVec.allOnes 32 ∧ g.setP 0 x = g ∧ (m ≠ 0 → (g.setP m x).getP n = if n = m then x else g.getP n)

/-- R418, R419, R420 and R424: the vector integer instructions, element by element, each B operand, pairs under 64-bit types, saturation and −2^(w−1) included. -/
def Obligations.VectorArithmetic : Prop :=
  ∀ (c : Ctl) (ty : Ty) (d a : VReg) (b : VSI),
    let r (f : (w : Nat) → BitVec w → BitVec w → BitVec w → BitVec w) (_ : State) (g : Group) (l : Nat) (r : Word) : Prop :=
      Elementwise ty f (g.tval ty a l) (g.bopnd ty b l) (g.tval ty d l) r
    let r1 (f : (w : Nat) → BitVec w → BitVec w → BitVec w → BitVec w) (_ : State) (g : Group) (l : Nat) (r : Word) : Prop :=
      Elementwise ty f (g.tval ty a l) (g.bopnd ty (.imm 0) l) (g.tval ty d l) r
    WritesV (.vadd c ty d a b) c ty d (r (fun _ a b _ => a + b)) ∧
    WritesV (.vsub c ty d a b) c ty d (r (fun _ a b _ => a - b)) ∧
    WritesV (.vmul c ty d a b) c ty d (r (fun _ a b _ => a * b)) ∧
    WritesV (.vmulh c ty d a b) c ty d (r (fun w a b _ => mulHighOf (elemSigned ty) w a b)) ∧
    WritesV (.vmad c ty d a b) c ty d (r (fun _ a b d => a * b + d)) ∧
    WritesV (.vmin c ty d a b) c ty d (r (fun w a b _ => minOf (elemSigned ty) w a b)) ∧
    WritesV (.vmax c ty d a b) c ty d (r (fun w a b _ => maxOf (elemSigned ty) w a b)) ∧
    WritesV (.vand c ty d a b) c ty d (r (fun _ a b _ => a &&& b)) ∧
    WritesV (.vor c ty d a b) c ty d (r (fun _ a b _ => a ||| b)) ∧
    WritesV (.vxor c ty d a b) c ty d (r (fun _ a b _ => a ^^^ b)) ∧
    WritesV (.vshl c ty d a b) c ty d (r (fun w a b _ => shlOf w a b)) ∧
    WritesV (.vshr c ty d a b) c ty d (r (fun w a b _ => shrOf w a b)) ∧
    WritesV (.vsar c ty d a b) c ty d (r (fun w a b _ => sarOf w a b)) ∧
    WritesV (.vsadd c ty d a b) c ty d (r (fun w a b _ => addClampOf (elemSigned ty) w a b)) ∧
    WritesV (.vabs c ty d a) c ty d (r1 (fun w a _ _ => absOf w a)) ∧
    WritesV (.vpopc c ty d a) c ty d (r1 (fun w a _ _ => BitVec.ofNat w (onesOf w a))) ∧
    WritesV (.vclz c ty d a) c ty d (r1 (fun w a _ _ => BitVec.ofNat w (zerosOf w a)))

/-- R423, R425 and R426: vector bit fields, select and moves, with every source form.
R421 and R422: the exchanges between lanes, read from every lane of A, active or not. -/
def Obligations.VectorSelectMoveExchange : Prop :=
  (∀ (c : Ctl) (ty : Ty) (d a : VReg) (b : VSI) (sel : BitVec 4) (ra : SReg) (sp : Special) (i : BitVec 14) (imm : BitVec 32),
     WritesV (.vbfx c ty d a b) c ty d (fun _ g l r =>
       r = laneOf ty (fieldOf (intSigned ty) (g.bopnd ty b l)) (g.tval ty a l) 0) ∧
     WritesV (.vbfi c ty d a b) c ty d (fun _ g l r =>
       r = laneOf ty (insertOf (g.bopnd ty b l)) (g.tval ty d l) (g.tval ty a l)) ∧
     WritesV (.vsel c ty sel d a b) c ty d (fun _ g l r =>
       r = if bitOf (g.getP sel.toNat) l then g.tval ty a l else g.bopnd ty b l) ∧
     WritesV (.vmov c ty d (.vec a)) c ty d (fun _ g l r => r = g.tval ty a l) ∧
     WritesV (.vmov c ty d (.sca ra)) c ty d (fun _ g l r => r = g.bopnd ty (.sca ra) l) ∧
     WritesV (.vmov c ty d (.spr sp)) c ty d (fun s g l r => r = laneOf ty (fun _ v _ => v)
       (match sp with
         | .lane => BitVec.ofNat 64 l
         | .widlo => ((g.gwid + BitVec.ofNat 64 l).setWidth 32).setWidth 64
         | .widhi => ((g.gwid + BitVec.ofNat 64 l) >>> 32)
         | .arg => (tget 0 g.args l).setWidth 64
         | sp => special s g sp) 0) ∧
     WritesV (.vmov c ty d (.imm i)) c ty d (fun _ g l r => r = g.bopnd ty (.imm i) l) ∧
     WritesV (.vmovi c ty d imm) c ty d (fun _ _ _ r => r = if ty = .i64 then imm.signExtend 64 else imm.setWidth 64)) ∧
  (∀ (c : Ctl) (ty : Ty) (d a : VReg) (b : VSI),
     WritesV (.vperm c ty d a b) c ty d (fun _ g l r => r = g.tval ty a
       (match b with
         | .vec q => (g.vval q l).toNat % 32
         | .sca q => l ^^^ (g.sval q).toNat % 32
         | .imm i => l ^^^ (i.signExtend 64 : Word).toNat % 32)) ∧
     WritesV (.vbcast c ty d a b) c ty d (fun _ g _ r => r = g.tval ty a
       (match b with
         | .vec q => (g.vval q ((lanesOf (g.active c)).head?.getD 0)).toNat % 32
         | .sca q => (g.sval q).toNat % 32
         | .imm i => (i.signExtend 64 : Word).toNat % 32)))

/-- R340 to R342: the FP32 instructions whose results are fixed, lane by lane; R138 to R144 and R146: what their results are, in all three formats. The sign of an exact zero of a sum, a product, a quotient and a root is that of IEEE 754, which R143 and R144 cite. -/
def Obligations.FloatArithmetic : Prop :=
  (∀ (c : Ctl) (rnd : Rnd) (d a : VReg) (b : VS),
     let r (f : Nat → Nat → Nat → Nat) (_ : State) (g : Group) (l : Nat) (r : Word) : Prop :=
       r = (BitVec.ofNat 32 (f (g.vval a l).toNat (g.vsval b l).toNat (g.vval d l).toNat)).setWidth 64
     WritesV (.fadd c rnd d a b) c .f32 d (r (fun a b _ => fp32.add rnd (fp32.val a) (fp32.val b))) ∧
     WritesV (.fsub c rnd d a b) c .f32 d (r (fun a b _ => fp32.add rnd (fp32.val a) (fp32.val b).negate)) ∧
     WritesV (.fmul c rnd d a b) c .f32 d (r (fun a b _ => fp32.mul rnd (fp32.val a) (fp32.val b))) ∧
     WritesV (.ffma c rnd d a b) c .f32 d (r (fun a b d => fp32.fma rnd (fp32.val a) (fp32.val b) (fp32.val d))) ∧
     WritesV (.fmin c rnd d a b) c .f32 d (r (fun a b _ => fp32.minNum a b)) ∧
     WritesV (.fmax c rnd d a b) c .f32 d (r (fun a b _ => fp32.maxNum a b)) ∧
     WritesV (.fdiv c rnd d a b) c .f32 d (r (fun a b _ => fp32.div rnd (fp32.val a) (fp32.val b))) ∧
     WritesV (.fsqrt c rnd d a) c .f32 d (fun _ g l r => r = (BitVec.ofNat 32 (let a := (g.vval a l).toNat; fp32.sqrt rnd (fp32.val a))).setWidth 64) ∧
     WritesV (.frnd c rnd d a) c .f32 d (fun _ g l r => r = (BitVec.ofNat 32 (let a := (g.vval a l).toNat; fp32.toIntegral rnd (fp32.val a))).setWidth 64)) ∧
  (∀ f ∈ [fp32, fp16, bf16],
    let code (neg : Bool) (ex fr : Nat) : Nat := (if neg then 2 ^ (f.width - 1) else 0) + ex * 2 ^ f.fb + fr
    let ones : Nat := 2 ^ f.eb - 1
    (∀ neg ex fr, ex ≤ ones → fr < 2 ^ f.fb →
      (ex = ones → f.val (code neg ex fr) = if fr = 0 then .inf neg else .nan) ∧
      (ex < ones → ∃ m e, f.val (code neg ex fr) = .fin neg m e ∧
        (FVal.fin false m e).real = if ex = 0 then fr * (2 : ℝ) ^ (1 - (f.bias : Int) - f.fb) else (1 + fr / 2 ^ f.fb) * (2 : ℝ) ^ ((ex : Int) - f.bias))) ∧
    f.maxCode = code false ones 0 - 1 ∧ f.inf = some (code false ones 0) ∧ f.nanCode = code false ones (2 ^ (f.fb - 1))) ∧
  (fp32.eb, fp32.fb, fp32.bias) = (8, 23, 127) ∧ (fp16.eb, fp16.fb, fp16.bias) = (5, 10, 15) ∧ (bf16.eb, bf16.fb, bf16.bias) = (8, 7, 127) ∧
  (∀ f ∈ [fp32, fp16, bf16], ∀ (r : Rnd) (x y z : Bool) (m n p : Nat) (e g h : Int),
    let a : FVal := .fin x m e
    let b : FVal := .fin y n g
    let d : FVal := .fin z p h
    f.RoundedTo r false (if m = 0 ∧ n = 0 ∧ x = y then x else r == .rdn) (a.real + b.real) (f.add r a b) ∧
    f.RoundedTo r false (x != y) (a.real * b.real) (f.mul r a b) ∧
    f.RoundedTo r false (if m * n = 0 ∧ p = 0 ∧ (x != y) = z then z else r == .rdn) (a.real * b.real + d.real) (f.fma r a b d) ∧
    (n ≠ 0 → f.RoundedTo r false (x != y) (a.real / b.real) (f.div r a b)) ∧
    (m = 0 ∨ x = false → f.RoundedTo r false x (Real.sqrt a.real) (f.sqrt r a)) ∧
    ∃ k : Nat, RoundsTo (fun k => (k : ℝ)) r x |a.real| k ∧ f.RoundedTo r false x (FVal.fin x k 0).real (f.toIntegral r a)) ∧
  (∀ f ∈ [fp32, fp16, bf16], ∀ (r : Rnd) (x y : Bool) (m : Nat) (e : Int) (a d : FVal),
    let nan := f.nanCode
    let inf (s : Bool) : Nat := f.signed s (f.inf.getD 0)
    let b : FVal := .fin y m e
    (∀ c ∈ [f.add r .nan a, f.add r a .nan, f.mul r .nan a, f.mul r a .nan, f.div r .nan a, f.div r a .nan, f.fma r .nan a d, f.fma r a .nan d,
      f.fma r a d .nan, f.sqrt r .nan, f.toIntegral r .nan], c = nan) ∧
    f.add r (.inf x) b = inf x ∧ f.add r b (.inf x) = inf x ∧ f.add r (.inf x) (.inf y) = (if x = y then inf x else nan) ∧
    f.mul r (.inf x) (.inf y) = inf (x != y) ∧
    f.mul r (.inf x) b = (if m = 0 then nan else inf (x != y)) ∧ f.mul r b (.inf x) = (if m = 0 then nan else inf (x != y)) ∧
    f.fma r (.inf x) b d = (if m = 0 ∨ d = .nan ∨ d = .inf (x == y) then nan else inf (x != y)) ∧
    f.fma r b (.inf x) d = (if m = 0 ∨ d = .nan ∨ d = .inf (x == y) then nan else inf (x != y)) ∧
    f.fma r (.inf x) (.inf y) d = (if d = .nan ∨ d = .inf (x == y) then nan else inf (x != y)) ∧
    (∀ n g, f.fma r b (.fin x n g) (.inf y) = inf y) ∧
    f.div r (.inf x) (.inf y) = nan ∧ f.div r (.inf x) b = inf (x != y) ∧ f.div r b (.inf x) = f.signed (y != x) 0 ∧
    (∀ z g, f.div r b (.fin z 0 g) = if m = 0 then nan else inf (y != z)) ∧
    f.sqrt r (.inf x) = (if x then nan else inf false) ∧ (m ≠ 0 → f.sqrt r (.fin true m e) = nan) ∧
    f.toIntegral r (.inf x) = inf x) ∧
  ∀ f ∈ [fp32, fp16, bf16], ∀ (a b : Nat),
    let va := f.val a
    let vb := f.val b
    (va = .nan → vb = .nan → f.minNum a b = f.nanCode ∧ f.maxNum a b = f.nanCode) ∧
    (va = .nan → vb ≠ .nan → f.minNum a b = b ∧ f.maxNum a b = b) ∧
    (va ≠ .nan → vb = .nan → f.minNum a b = a ∧ f.maxNum a b = a) ∧
    (∀ x y m n e g, va = .fin x m e → vb = .fin y n g →
      (va.real < vb.real → f.minNum a b = a ∧ f.maxNum a b = b) ∧
      (vb.real < va.real → f.minNum a b = b ∧ f.maxNum a b = a) ∧
      (va.real = vb.real → f.minNum a b = (if x then a else b) ∧ f.maxNum a b = if x then b else a)) ∧
    (∀ x y m e, va = .inf x → vb = .fin y m e → f.minNum a b = (if x then a else b) ∧ f.maxNum a b = if x then b else a) ∧
    (∀ x y m e, va = .fin y m e → vb = .inf x → f.minNum a b = (if x then b else a) ∧ f.maxNum a b = if x then a else b) ∧
    (∀ x y, va = .inf x → vb = .inf y → f.minNum a b = (if x then a else b) ∧ f.maxNum a b = if x then b else a)

/-- R346: HADD, HMUL and HFMA, half by half, in FP16 or BF16 by type; FloatArithmetic states that add, mul and fma give the exact result rounded once in both formats. -/
def Obligations.HalfArithmetic : Prop :=
  ∀ (c : Ctl) (ty : Ty) (rnd : Rnd) (d a : VReg) (b : VS),
    let q := if ty = .bf16x2 then bf16 else fp16
    let lo (x : Lane) : FVal := q.val (x.toNat % 2 ^ 16)
    let hi (x : Lane) : FVal := q.val (x.toNat / 2 ^ 16)
    let r (f : FVal → FVal → FVal → Nat) (_ : State) (g : Group) (l : Nat) (r : Word) : Prop :=
      r = (BitVec.ofNat 16 (f (hi (g.vval a l)) (hi (g.vsval b l)) (hi (g.vval d l))) ++
        BitVec.ofNat 16 (f (lo (g.vval a l)) (lo (g.vsval b l)) (lo (g.vval d l)))).setWidth 64
    WritesV (.hadd c ty rnd d a b) c .f32 d (r (fun a b _ => q.add rnd a b)) ∧
    WritesV (.hmul c ty rnd d a b) c .f32 d (r (fun a b _ => q.mul rnd a b)) ∧
    WritesV (.hfma c ty rnd d a b) c .f32 d (r (fun a b d => q.fma rnd a b d))

/-- R340 and R145: the six functions that R145 bounds and does not fix, with their bounds and their special points. An infinite result counts as 2^128 against the bound of FRCP, FEX2 and FLG2, and a candidate outside the bound gives way to the exact result rounded (the model's choices, entry 32). -/
def Obligations.Approximations : Prop :=
  (∀ (c : Ctl) (rnd : Rnd) (d a : VReg),
     let r (f : Lane → FVal → Nat) (_ : State) (g : Group) (l : Nat) (r : Word) : Prop :=
       ∃ free : Lane, r = (BitVec.ofNat 32 (f free (fp32.val (g.vval a l).toNat))).setWidth 64
     WritesFree (.frcp c rnd d a) c 32 .f32 d (r approxRcp) ∧
     WritesFree (.frsq c rnd d a) c 32 .f32 d (r approxRsq) ∧
     WritesFree (.fex2 c rnd d a) c 32 .f32 d (r approxEx2) ∧
     WritesFree (.flg2 c rnd d a) c 32 .f32 d (r approxLg2) ∧
     WritesFree (.fsin c rnd d a) c 32 .f32 d (r (approxTrig false)) ∧
     WritesFree (.fcos c rnd d a) c 32 .f32 d (r (approxTrig true))) ∧
  (∀ (free : Lane) (s : Bool) (n : Nat) (e : Int),
     let nan := 0x7FC00000
     let inf (neg : Bool) : Nat := if neg then 0xFF800000 else 0x7F800000
     let zero (neg : Bool) : Nat := if neg then 0x80000000 else 0
     (∀ f ∈ [approxRcp, approxRsq, approxEx2, approxLg2, approxTrig false, approxTrig true], f free .nan = nan) ∧
     approxRcp free (.fin s 0 e) = inf s ∧ approxRcp free (.inf s) = zero s ∧
     approxRsq free (.fin s 0 e) = inf s ∧ approxRsq free (.inf false) = 0 ∧ approxRsq free (.inf true) = nan ∧
     (n ≠ 0 → approxRsq free (.fin true n e) = nan ∧ approxLg2 free (.fin true n e) = nan) ∧
     approxEx2 free (.inf true) = 0 ∧ approxEx2 free (.inf false) = inf false ∧
     (Dy.le ⟨128, 0⟩ (FVal.dy (.fin s n e)) = true → approxEx2 free (.fin s n e) = inf false) ∧
     ((FVal.dy (.fin s n e)).cmp ⟨-150, 0⟩ = .lt → approxEx2 free (.fin s n e) = 0) ∧
     approxLg2 free (.fin s 0 e) = inf true ∧ approxLg2 free (.inf true) = nan ∧ approxLg2 free (.inf false) = inf false ∧
     approxLg2 free (fp32.val 0x3F800000) = 0 ∧
     (∀ f ∈ [approxTrig false, approxTrig true], f free (.inf s) = nan) ∧
     approxTrig false free (.fin s 0 e) = zero s ∧ approxTrig true free (.fin s 0 e) = 0x3F800000) ∧
  (∀ (free : Lane) (code : Nat) (x : Bool) (m : Nat) (e : Int), fp32.val code = .fin x m e →
     let a := (FVal.fin x m e).real
     (m ≠ 0 → Near (approxRcp free (.fin x m e)) (1 / a) (ulp32 (1 / a)) ∨
       fp32.RoundedTo .rne false x (1 / a) (approxRcp free (.fin x m e))) ∧
     (m ≠ 0 → x = false → Near (approxRsq free (.fin x m e)) (1 / Real.sqrt a) (2 * ulp32 (1 / Real.sqrt a))) ∧
     (-150 ≤ a → a < 128 → Near (approxEx2 free (.fin x m e)) ((2 : ℝ) ^ a) (2 * ulp32 ((2 : ℝ) ^ a))) ∧
     (m ≠ 0 → x = false → a ≠ 1 → Near (approxLg2 free (.fin x m e)) (Real.logb 2 a)
       (max (2 * ulp32 (Real.logb 2 a)) (if 1 / 2 ≤ a ∧ a ≤ 2 then 1 / 2 ^ 22 else 0))) ∧
     (m ≠ 0 → |a| ≤ 2 ^ 20 → Near (approxTrig false free (.fin x m e)) (Real.sin a) (1 / 2 ^ 21) ∧
       Near (approxTrig true free (.fin x m e)) (Real.cos a) (1 / 2 ^ 21)) ∧
     (2 ^ 20 < |a| → Near (approxTrig false free (.fin x m e)) 0 1 ∧ Near (approxTrig true free (.fin x m e)) 0 1))

/-- R39, R344 and R425: the vector compares. -/
def Obligations.VectorCompares : Prop :=
  ∀ (c : Ctl) (ty : Ty) (cond : Cond) (d : BitVec 4) (a : VReg) (b : VSI) (q : VS),
    (∀ s gid g, Ready s gid g c (.vcmp c ty cond d a b) → ∃ m : Mask,
      exec (.vcmp c ty cond d a b) s = .next (after s gid g c (.vcmp c ty cond d a b) (g.setP d.toNat m)) ∧
      ∀ l, l < 32 → bitOf m l = (bitOf (g.active c) l &&
        condHolds cond (cmpInt (laneInt ty (g.tval ty a l))
          (laneInt ty (g.bopnd ty b l))))) ∧
    (∀ s gid g, Ready s gid g c (.fcmp c cond d a q) → ∃ m : Mask,
      exec (.fcmp c cond d a q) s = .next (after s gid g c (.fcmp c cond d a q) (g.setP d.toNat m)) ∧
      ∀ l, l < 32 → bitOf m l = (bitOf (g.active c) l &&
        condHolds cond ((fp32.val (g.vval a l).toNat).cmp (fp32.val (g.vsval q l).toNat))))

/-- R334, R335, R377 and R378: the conversions that write one word or pair for each active lane; R147 to R157: what an element becomes. That f16x2 to bf16x2 and back round as to a narrower format is the model's choice (entry 119). -/
def Obligations.Conversions : Prop :=
  (∀ (c : Ctl) (dty sty : Ty) (dst : Fmt) (sf : ScaleFmt) (len : BlkLen) (tab : BitVec 2) (sat : Bool) (rnd : Rnd) (d a : VReg),
     let src (g : Group) (i l : Nat) : Lane := g.getV (g.vname a + i) l
     let field (r : Word) (i : Nat) : Nat := r.toNat / 2 ^ (fmtBits dst * i) % 2 ^ fmtBits dst
     let scale (g : Group) (l : Nat) : FVal := scaleVal sf ((src g dst.perWord (l * dst.perWord / blkLen len)).setWidth 8)
     WritesV (.cvt c dty sty sat rnd d a) c dty d (fun _ g l r => ∀ i, i < countOf dty →
       elemOf dty r i = BitVec.ofNat (widthOf dty) (cvtElem dty sty sat rnd (elemOf sty (g.tval sty a l) i).toNat)) ∧
     WritesV (.cvtp c dst sty sat rnd d a) c .f32 d (fun _ g l r => ∀ i, i < dst.perWord →
       field r i = cvtpElem dst sty sat rnd (src g i l) % 2 ^ fmtBits dst) ∧
     WritesV (.qcvt c dst sf len rnd d a) c .f32 d (fun _ g l r => ∀ i, i < dst.perWord →
       field r i = quantise dst rnd (scale g l) (fp32.val (src g i l).toNat) % 2 ^ fmtBits dst) ∧
     ∀ s gid g, Active s gid g c (.qcmp c tab d a) → ctldAhead s (s.blockOf g).core = false → ∃ g',
       exec (.qcmp c tab d a) s = .next (after s gid g c (.qcmp c tab d a) g') ∧
       WroteV g g' .f32 d (g.active c) (fun l r => ∀ i, i < 4 → r.toNat / 2 ^ (8 * i) % 2 ^ 8 =
         c8Quantise (s.core (s.blockOf g).core).ctab tab.toNat (fp32.val (src g i l).toNat) % 2 ^ 8)) ∧
  (∀ (dty sty : Ty) (sat : Bool) (rnd : Rnd) (a : Nat), cvtOk dty sty = true → a < 2 ^ widthOf sty →
    let r := cvtElem dty sty sat rnd a
    let n : Int := if elemSigned sty then (BitVec.ofNat (widthOf sty) a).toInt else a
    let narrows : Prop := widthOf dty < widthOf sty ∨ (widthOf dty = widthOf sty ∧ elemSigned sty ≠ elemSigned dty)
    (∀ f, floatOf sty = some f → sty = dty → r = if f.val a = .nan then f.nanCode else a) ∧
    (∀ f q, floatOf sty = some f → floatOf dty = some q → sty ≠ dty → q.Converted rnd sat (f.val a) r) ∧
    (∀ f, floatOf sty = some f → floatOf dty = none → ∃ i, IntOf rnd (widthOf dty) (elemSigned dty) (f.val a) i ∧
      r = (BitVec.ofInt (widthOf dty) i).toNat) ∧
    (∀ q, floatOf sty = none → floatOf dty = some q → q.RoundedTo rnd sat false n r) ∧
    (floatOf sty = none → floatOf dty = none →
      (sat = true ∧ narrows → r = (BitVec.ofInt (widthOf dty) (nearestIn (widthOf dty) (elemSigned dty) n)).toNat) ∧
      (¬ (sat = true ∧ narrows) → r = (BitVec.ofInt (widthOf dty) n).toNat))) ∧
  (∀ (dst : Fmt) (sty : Ty) (sat : Bool) (rnd : Rnd) (a : Lane), cvtpOk dst sty = true →
    let r := cvtpElem dst sty sat rnd a
    (dst ≠ .int8 → dst ≠ .int4 → (Fmt.float dst).Converted rnd sat (fp32.val a.toNat) r) ∧
    (dst = .int8 ∨ dst = .int4 →
      (sty = .f32 → ∃ i, IntOf rnd (fmtBits dst) true (fp32.val a.toNat) i ∧ r = (BitVec.ofInt (fmtBits dst) i).toNat) ∧
      (sty = .i32 → r = (BitVec.ofInt (fmtBits dst) (if sat then nearestIn (fmtBits dst) true a.toInt else a.toInt)).toNat))) ∧
  (∀ (dst : Fmt) (rnd : Rnd) (x : FVal), dst.narrowFloat = true →
    let f := Fmt.float dst
    (∀ s, s = .nan ∨ (∃ g, s = .fin false 0 g) → quantise dst rnd s x = 0) ∧
    (∀ n g, n ≠ 0 →
      (x = .nan → quantise dst rnd (.fin false n g) x = f.nan.getD 0) ∧
      (∀ neg, x = .inf neg → quantise dst rnd (.fin false n g) x = f.signed neg f.maxCode) ∧
      (∀ neg m e, x = .fin neg m e → f.RoundedTo rnd true neg (x.real / (FVal.fin false n g).real) (quantise dst rnd (.fin false n g) x)))) ∧
  (∀ b : Byte,
    scaleVal .e8m0 b = (if b = 0xFF then .nan else .fin false 1 ((b.toNat : Int) - 127)) ∧
    (b.getLsbD 7 = true ∨ b = 0x7F → scaleVal .ue4m3 b = .nan) ∧
    (b.getLsbD 7 = false → b ≠ 0x7F → ∃ m e, scaleVal .ue4m3 b = .fin false m e ∧ (FVal.fin false m e).real = e4m3.magVal b.toNat)) ∧
  ((([.e4m3, .e5m2, .e3m2, .e2m3, .e2m1] : List Fmt).map fun d => let f := Fmt.float d; (f.eb, f.fb, f.bias, f.maxCode, f.inf, f.nan)) =
    [(4, 3, 7, 0x7E, none, some 0x7F), (5, 2, 15, 0x7B, some 0x7C, some 0x7E), (3, 2, 3, 0x1F, none, none), (2, 3, 1, 0x1F, none, none),
      (2, 1, 1, 0x7, none, none)]) ∧
  ∀ (t : Table (BitVec 3 × BitVec 9)) (tab : Nat) (x : FVal), (∀ i j, i < j → j < 128 → c8Mag t tab i < c8Mag t tab j) →
    let code (neg : Bool) (k : Nat) : Nat := if k = 0 then 0 else (if neg then 128 else 0) + k
    let mag (k : Nat) : ℝ := ((segment t tab (k / 8)).2.toNat + k % 8 * 2 ^ (segment t tab (k / 8)).1.toNat : Nat)
    (x = .nan → c8Quantise t tab x = 0) ∧
    (∀ neg, x = .inf neg → c8Quantise t tab x = code neg 127) ∧
    ∀ neg m e, x = .fin neg m e → ∃ k, k < 128 ∧ c8Quantise t tab x = code neg k ∧ ∀ j, j < 128 →
      |(|x.real| - mag k)| ≤ |(|x.real| - mag j)| ∧ (|(|x.real| - mag k)| = |(|x.real| - mag j)| → j ≠ k → k % 2 = 0)

/-- R326, R336 and R376: DQCVT over its run of destinations, and QSCL, which writes lane b for block b; R147 to R150, R155, R156 and R336: the elements and the scale. -/
def Obligations.ConversionRuns : Prop :=
  (∀ (c : Ctl) (dty : Ty) (src dst : Fmt) (sf : ScaleFmt) (tab : BitVec 2) (len : BlkLen) (sat : Bool) (rnd : Rnd) (d a : VReg),
     (∀ s gid g, Active s gid g c (.dqcvt c dty src tab len sat rnd d a) →
       (src = .c8 → ctldAhead s (s.blockOf g).core = false) →
       let scale (l : Nat) : FVal := if len = .none then .fin false 1 0
         else scaleVal (if tab = 0 then .e8m0 else .ue4m3) ((g.getV (g.vname a + 1) (l * src.perWord / blkLen len)).setWidth 8)
       let value (i l : Nat) : Lane := BitVec.ofNat 32 (dqElem (s.core (s.blockOf g).core).ctab tab.toNat src dty sat rnd (scale l)
         ((g.vval a l).toNat / 2 ^ (fmtBits src * i) % 2 ^ fmtBits src))
       ∃ g', exec (.dqcvt c dty src tab len sat rnd d a) s = .next (after s gid g c (.dqcvt c dty src tab len sat rnd d a) g') ∧
         g' = { g with r := { g.r with v := g'.r.v } } ∧
         (∀ i l, i < src.perWord → l < 32 → g'.getV (g.vname d + i) l =
           if bitOf (g.active c) l then value i l else g.getV (g.vname d + i) l) ∧
         ∀ n l, n < g.winV → l < 32 → (∀ i, i < src.perWord → n ≠ g.vname d + i) → g'.getV n l = g.getV n l) ∧
     ∀ s gid g, Active s gid g c (.qscl c dst sf len d a) →
       let span := blkLen len / dst.perWord
       let lanesIn (b : Nat) : List Nat := (lanesOf (g.active c)).filter (fun l => l / span == b)
       let value (b : Nat) : Lane := (chooseScale dst sf (largest ((lanesIn b).flatMap (fun l =>
         (List.range dst.perWord).map (fun i => fp32.val (g.getV (g.vname a + i) l).toNat))))).setWidth 32
       ∃ g', exec (.qscl c dst sf len d a) s = .next (after s gid g c (.qscl c dst sf len d a) g') ∧
         g' = { g with r := { g.r with v := g'.r.v } } ∧
         (∀ b, b < 32 → g'.getV (g.vname d) b =
           if b < 32 / span ∧ lanesIn b ≠ [] then value b else g.getV (g.vname d) b) ∧
         ∀ n l, n < g.winV → l < 32 → n ≠ g.vname d → g'.getV n l = g.getV n l) ∧
  (∀ (ct : Table (BitVec 3 × BitVec 9)) (tab : Nat) (src : Fmt) (dty : Ty) (sat : Bool) (rnd : Rnd) (sc : FVal) (a : Nat), a < 2 ^ fmtBits src →
    let r := dqElem ct tab src dty sat rnd sc a
    let seg := segment ct tab (a % 128 / 8)
    let mag : Nat := seg.2.toNat + a % 8 * 2 ^ seg.1.toNat
    let whole : Int := if src = .c8 then (if 128 ≤ a then -(mag : Int) else mag) else (BitVec.ofNat (fmtBits src) a).toInt
    let x := (Fmt.float src).val a
    (src ∈ [.int8, .int4, .c8] →
      (dty = .f32 → fp32.RoundedTo rnd false false whole r) ∧ (dty = .i32 → r = (BitVec.ofInt 32 whole).toNat)) ∧
    (src ∉ [.int8, .int4, .c8] →
      (sc = .nan ∨ x = .nan → r = 0x7FC00000) ∧
      (∀ n g neg, sc = .fin false n g → x = .inf neg → r = if n = 0 then 0x7FC00000 else if neg then 0xFF800000 else 0x7F800000) ∧
      (∀ n g neg m e, sc = .fin false n g → x = .fin neg m e → fp32.RoundedTo rnd sat neg (sc.real * x.real) r))) ∧
  (∀ (fmt : Fmt) (sf : ScaleFmt) (amax : FVal), fmt.narrowFloat = true →
    let f := Fmt.float fmt
    (amax = .nan ∨ (∃ neg, amax = .inf neg) → chooseScale fmt sf amax = if sf = .e8m0 then 0xFF else 0x7F) ∧
    (∀ neg e, amax = .fin neg 0 e → chooseScale fmt sf amax = 0) ∧
    (∀ neg m e, m ≠ 0 → amax = .fin neg m e →
      (sf = .e8m0 → ∃ x : Int, (2 : ℝ) ^ x ≤ |amax.real| ∧ |amax.real| < 2 ^ (x + 1) ∧
        ((chooseScale fmt sf amax).toNat : Int) = max (-127) (min 127 (x - emaxOf fmt)) + 127) ∧
      (sf = .ue4m3 → ∃ c, RoundsTo e4m3.magVal .rup false (|amax.real| / f.magVal f.maxCode) c ∧
        chooseScale fmt sf amax = BitVec.ofNat 8 (min c 0x7E)))) ∧
  (([.e4m3, .e5m2, .e3m2, .e2m3, .e2m1] : List Fmt).map emaxOf = [8, 15, 4, 2, 2]) ∧
  ∀ l : List FVal,
    (.nan ∈ l → largest l = .nan) ∧
    (.nan ∉ l → (∃ neg, .inf neg ∈ l) → ∃ neg, largest l = .inf neg) ∧
    (.nan ∉ l → (∀ neg, .inf neg ∉ l) → ∃ neg m e, largest l = .fin neg m e ∧ (largest l ∈ l ∨ m = 0) ∧ ∀ v ∈ l, |v.real| ≤ |(largest l).real|)

/-- R302 and R422: the reduction and the exclusive scan; R162 to R164 for the float sums, with R422's '.rne in some order', R146 for minimum and maximum. Where R162 and R163 leave the sum open it is the free choice Config.sumPick (entries 14 and 100); that a minimum over lanes that are all NaNs is the canonical NaN, and not the identity, is the model's choice (entry 70). -/
def Obligations.LaneReductions : Prop :=
  (∀ (c : Ctl) (ty : Ty) (op : RedOp) (d a : VReg),
     let elems (g : Group) (ls : List Nat) (i : Nat) : List (BitVec (widthOf ty)) := ls.map (fun l => elemOf ty (g.tval ty a l) i)
     let below (g : Group) (l : Nat) : List Nat := (lanesOf (g.active c)).filter (fun m => decide (m < l))
     (ty.float = false →
       WritesV (.vred c ty op d a) c ty d (fun _ g _ r => ∀ i, i < countOf ty →
         elemOf ty r i = (elems g (lanesOf (g.active c)) i).foldl (combineOf op (elemSigned ty) (widthOf ty)) (identityOf op (elemSigned ty) (widthOf ty))) ∧
       WritesV (.vscan c ty op d a) c ty d (fun _ g l r => ∀ i, i < countOf ty →
         elemOf ty r i = (elems g (below g l) i).foldl (combineOf op (elemSigned ty) (widthOf ty)) (identityOf op (elemSigned ty) (widthOf ty)))) ∧
     (ty.float = true →
       WritesFree (.vred c ty op d a) c 2 ty d (fun _ g _ r => ∀ i, i < countOf ty → ∃ free : Nat,
         elemOf ty r i = BitVec.ofNat _ (redElems op ty free ((elems g (lanesOf (g.active c)) i).map (fun x => x.toNat)))) ∧
       WritesFree (.vscan c ty op d a) c 64 ty d (fun _ g l r => ∀ i, i < countOf ty → ∃ free : Nat,
         elemOf ty r i = BitVec.ofNat _ (redElems op ty free ((elems g (below g l) i).map (fun x => x.toNat)))))) ∧
  (∀ (ty : Ty) (f : FloatFmt) (free : Nat) (l : List Nat), floatOf ty = some f → l.length ≤ 32 →
    let vs := l.map f.val
    let r := redElems .add ty free l
    let s : ℝ := (vs.map FVal.real).sum
    let c : ℝ := (l.length + 1) / 2 ^ (f.fb + 1)
    (.nan ∈ vs ∨ .inf false ∈ vs ∧ .inf true ∈ vs → r = f.nanCode) ∧
    (∀ neg, .nan ∉ vs → .inf neg ∈ vs → .inf (!neg) ∉ vs → r = f.signed neg (f.inf.getD 0)) ∧
    ((∀ v ∈ vs, ∃ neg e, v = .fin neg 0 e) → r = 0) ∧
    ((∀ v ∈ vs, ∃ neg m e, v = .fin neg m e) →
      (∃ neg, f.val r = .inf neg ∧ f.magVal f.maxCode < |s| * (1 + c) ∧ (neg = true ↔ s < 0)) ∨
      ∃ neg m e, f.val r = .fin neg m e ∧ |(f.val r).real - s| ≤ c * (vs.map fun v => |v.real|).sum) ∧
    ((∀ v ∈ vs, ∃ neg m e, v = .fin neg m e) → ∀ g : ℤ, 1 - (f.bias : Int) - f.fb ≤ g → (∀ v ∈ vs, ∃ k : ℤ, v.real = k * 2 ^ g) →
      (vs.map fun v => |v.real|).sum ≤ 2 ^ (g + (f.fb + 1 : ℕ)) → |s| ≤ f.magVal f.maxCode → ∃ neg m e, f.val r = .fin neg m e ∧ (f.val r).real = s)) ∧
  (∀ (ty : Ty) (f : FloatFmt) (i j : Nat) (p q : List Nat) (a b : Nat), floatOf ty = some f → (p ++ a :: q).length ≤ 32 →
    (f.val a).AtMost (f.val b) → ¬ (f.val b).AtMost (f.val a) →
    let r := redElems .add ty i (p ++ a :: q)
    let t := redElems .add ty j (p ++ b :: q)
    f.val r ≠ .nan → f.val t ≠ .nan → (f.val r).AtMost (f.val t)) ∧
  ∀ (ty : Ty) (f : FloatFmt) (free : Nat) (hi : Bool), floatOf ty = some f →
    let red := redElems (if hi then .max else .min) ty free
    red [] = f.signed hi (f.inf.getD 0) ∧ (∀ a b, red [a, b] = if hi then f.maxNum a b else f.minNum a b) ∧
    ∀ l ≠ [],
      ((∀ a ∈ l, f.val a = .nan) → red l = f.nanCode) ∧
      ((∃ a ∈ l, f.val a ≠ .nan) → red l ∈ l ∧ f.val (red l) ≠ .nan ∧
        ∀ a ∈ l, f.val a ≠ .nan → if hi then (f.val a).AtMost (f.val (red l)) else (f.val (red l)).AtMost (f.val a))

/-- R53 and R436: the end of an instruction within its run. With the statements of single instructions this is their frame. -/
def Obligations.InstructionEnds : Prop :=
  ∀ (t : State) (gid : Nat) (g : Group) (i : Instr) (c : Ctl) (act : Mask) (n : Next) (extra : Nat),
    t.group? gid = some g → c.b = false →
    let u := finish t gid i c act n extra
    let k := (t.blockOf g).core
    let pc := match n with | .jump p => p | _ => g.r.pc + 12
    (∃ run, u.group? gid = some { g with run := some run, r := { g.r with pc := pc, head := false, replay := none } } ∧
      run.count = g.runNow.count + 1 ∧ run.xs = g.runNow.xs ∧ run.slot = g.runNow.slot ∧ run.rg = g.runNow.rg) ∧
    (∀ h, h ≠ gid → u.group? h = t.group? h) ∧
    (∀ j, j ≠ k → u.core j = t.core j) ∧
    (u.core k = { t.core k with slot0 := (u.core k).slot0, slot1 := (u.core k).slot1 }) ∧
    (∀ x, (x = ((t.core k).slot0, (u.core k).slot0) ∨ x = ((t.core k).slot1, (u.core k).slot1)) →
      (x.1.group = some gid → x.2.group = some gid ∧
        x.2.free = max (t.cycle (coreDie k)) x.1.free + slotCycles i + extra) ∧
      (x.1.group ≠ some gid → x.2 = x.1)) ∧
    u = { t with groups := u.groups, cores := u.cores }

/-- R43, R53 and R54: the end of a run by an instruction that neither returns from a trap, nor detaches, nor passes several boundaries.
R338, R370, R386 and R416: what PASS, DETACH, RETT and TLBINV do at the end of their runs. -/
def Obligations.RunBoundaries : Prop :=
  (∀ (t : State) (gid : Nat) (g : Group) (i : Instr) (c : Ctl) (act : Mask) (n : Next) (extra : Nat),
     t.group? gid = some g → c.b = true → g.r.live ≠ 0 → (n = .seq ∨ ∃ p, n = .jump p) →
     let u := finish t gid i c act n extra
     let k := (t.blockOf g).core
     let pc := match n with | .jump p => p | _ => g.r.pc + 12
     (∃ g', u.group? gid = some g' ∧ g'.run = none ∧
       g'.r = { g.r with pc := pc, head := true, replay := none, lstep := g.r.lstep + (if c.l then 1 else 0),
                         gstep := g.r.gstep + (if c.l && c.g then 1 else 0) } ∧
       g' = { g with r := g'.r, run := none, heldX := g'.heldX, shadows := g'.shadows, taken := g'.taken, sent := g'.sent }) ∧
     (∀ h, h ≠ gid → u.group? h = t.group? h) ∧
     (u.core k).slot0.group ≠ some gid ∧ (u.core k).slot1.group ≠ some gid ∧
     (∀ b, (u.block? b).map (fun x => x.mem) = (t.block? b).map (fun x => x.mem)) ∧
     u = { t with groups := u.groups, cores := u.cores, blocks := u.blocks }) ∧
  (∀ (t : State) (gid : Nat) (g : Group) (i : Instr) (c : Ctl) (act : Mask) (n extra : Nat),
     t.group? gid = some g → c.b = true → g.r.live ≠ 0 →
     (∃ g', (finish t gid i c act (.pass n) extra).group? gid = some g' ∧ g'.run = none ∧
       g'.r = { g.r with pc := g.r.pc + 12, head := true, replay := none, lstep := g.r.lstep + n,
                         gstep := g.r.gstep + (if c.g then n else 0) }) ∧
     (∃ g', (finish t gid i c act .detach extra).group? gid = some g' ∧ g'.run = none ∧
       g'.r = { g.r with pc := g.r.pc + 12, head := true, replay := none, lstep := g.r.lstep + (if c.l then 1 else 0),
                         gstep := g.r.gstep + (if c.l && c.g then 1 else 0), detached := true }) ∧
     (∃ g', (finish t gid i c act .later extra).group? gid = some g' ∧ g'.run = none ∧
       g'.r = { g.r with pc := g.r.pc + 12, head := true, replay := none })) ∧
  (∀ (t : State) (gid : Nat) (g : Group) (i : Instr) (c : Ctl) (act : Mask) (extra : Nat),
     t.group? gid = some g → c.b = true → g.r.live ≠ 0 →
     let u := finish t gid i c act .rett extra
     let l := if c.l then 1 else 0
     ∃ (s : State) (h : Group), s.group? gid = some h ∧ h.run = none ∧
       h.r = { g.r with pc := g.r.pc + 12, head := true, replay := none, lstep := g.r.lstep + l, gstep := g.r.gstep + if c.g then l else 0 } ∧
       s = { t with groups := s.groups, cores := s.cores, blocks := s.blocks } ∧
       (∀ b, (s.block? b).map (fun x => x.mem) = (t.block? b).map (fun x => x.mem)) ∧
       u = (if c.l then (s.returnTrap gid h).pushShadow gid else s.returnTrap gid h) ∧
       ∃ g', u.group? gid = some g' ∧ g'.run = none ∧ g'.r.sys = false ∧ g'.r.pc = g.r.xpc ∧ g'.r.head = g.r.xhead ∧
         g'.r.lstep = g.r.lstep + l ∧ g'.r.gstep = (g.r.gstep + if c.g then l else 0) ∧ g'.r.live = g.r.live ∧
         ((s.returnTrap gid h).group? gid).map (fun x => x.r) = some g'.r)

/-- R41 and R42: retirement at a run boundary. -/
def Obligations.GroupRetires : Prop :=
  ∀ (t : State) (gid : Nat) (g : Group) (i : Instr) (c : Ctl) (act : Mask) (n : Next) (extra : Nat),
    t.group? gid = some g → c.b = true → g.r.live = 0 →
    let u := finish t gid i c act n extra
    let k := (t.blockOf g).core
    (∃ g', u.group? gid = some g' ∧ g'.retired = true ∧ g'.run = none ∧ g'.notices = [] ∧ g'.heldX = [] ∧
      g'.r.v = g.r.v ∧ g'.r.s = g.r.s ∧ g'.r.p = g.r.p) ∧
    (u.core k).slot0.group ≠ some gid ∧ (u.core k).slot1.group ≠ some gid ∧
    (∀ h, h ≠ gid → u.group? h = t.group? h) ∧
    u.mem = t.mem ∧ ∀ b, (u.block? b).map (fun x => x.mem) = (t.block? b).map (fun x => x.mem)

/-- R39 and R279: an instruction with no active lane that passes its checks does nothing, unless its entry states an effect.
R279: checks 4 to 7 and the check of R65, made whether or not a lane is active, before any effect.
R225 with R427: the instructions and special registers that the level does not allow. -/
def Obligations.ChecksAndLevels : Prop :=
  ((∀ (s : State) (gid : Nat) (g : Group) (c : Ctl) (i : Instr), ctlOf i = some c → Ready s gid g c i → g.active c = 0 →
     actsIdle i = false → Ends s gid g c i s.tickSeq .seq 0) ∧
   (∀ (s : State) (gid : Nat) (g : Group) (c : Ctl) (fwd : Bool) (d : BitVec 4) (a : SReg) (b : VReg),
     Ready s gid g c (.spawn c fwd d a b) → g.active c = 0 →
     Ends s gid g c (.spawn c fwd d a b) (s.tickSeq.setGroup gid (g.setP d.toNat 0)) .seq 0) ∧
   ∀ (s : State) (gid : Nat) (g : Group) (c : Ctl) (a : SSrc), Ready s gid g c (.pass c a) → g.active c = 0 →
     (∀ q, g.runNow.pass = some q → q.active = false) →
     Ends s gid g c (.pass c a) (s.tickSeq.setGroup gid g) .seq 0) ∧
  (∀ (s : State) (gid : Nat) (g : Group) (c : Ctl) (i : Instr) (t : TrapInfo), ctlOf i = some c →
     s.cur = some gid → s.group? gid = some g → g.retired = false → checkIssue g g.runNow c i = some t →
     exec i s = .next (s.syncTrap gid t)) ∧
  (∀ (s : State) (gid : Nat) (g : Group) (c : Ctl) (i : Instr), ctlOf i = some c → s.cur = some gid → s.group? gid = some g →
     g.retired = false → (usesOf g.runNow.xs i).all (fun u => !(u.even && (u.num.map (fun n => n % 2 == 1)).getD false)) →
     (g.r.sys = false →
       ((i = .rett c ∨ (∃ b d, i = .cpyw c b d) ∨ (∃ a, i = .lnch c a) ∨ (∃ d a, i = .mbxrd c d a) ∨
         (∃ sc h x a b, i = .tlbinv c sc h x a b) ∨ (∃ a, i = .ctxsv c a) ∨ (∃ a, i = .ctxld c a) ∨
         (∃ d a, i = .wrsr c d a ∧ d ≠ .lag)) →
       exec i s = .next (s.syncTrap gid { cause := 0x07 }))) ∧
     (∀ d a, i = .wrsr c d a →
       d ∉ [.lag, .lfm, .nrs, .xcause, .xpc, .xaddr, .xlanes, .xstep, .xprog, .xinfo, .xvec, .wbv, .wbs, .spill, .accst] →
       exec i s = .next (s.syncTrap gid { cause := 0x07 })))

/-- R285, R307 to R309 and R366: NOP and the branches, with the checks of their targets.
R290, R310, R338, R339, R369 to R371, R386 and R417: the other control instructions, with an active lane. -/
def Obligations.Control : Prop :=
  (∀ (s : State) (gid : Nat) (g : Group) (c : Ctl) (imm : BitVec 32) (r : SReg),
     let t := g.r.pc + 12 * imm.signExtend 64
     let stay := s.tickSeq.setGroup gid g
     let off : TrapInfo := { cause := 0x11, addr := t }
     (Active s gid g c (.nop c) → Ends s gid g c (.nop c) stay .seq 0) ∧
     (Active s gid g c (.bra c imm) →
       (canonical t = true → Ends s gid g c (.bra c imm) s.tickSeq (.jump t) 0) ∧
       (canonical t = false → exec (.bra c imm) s = .next (s.tickSeq.syncTrap gid off))) ∧
     (Active s gid g c (.brz c r imm) →
       (g.sval r ≠ 0 → Ends s gid g c (.brz c r imm) stay .seq 0) ∧
       (g.sval r = 0 → canonical t = true → Ends s gid g c (.brz c r imm) s.tickSeq (.jump t) 0) ∧
       (g.sval r = 0 → canonical t = false → exec (.brz c r imm) s = .next (s.tickSeq.syncTrap gid off))) ∧
     (Active s gid g c (.brnz c r imm) →
       (g.sval r = 0 → Ends s gid g c (.brnz c r imm) stay .seq 0) ∧
       (g.sval r ≠ 0 → canonical t = true → Ends s gid g c (.brnz c r imm) s.tickSeq (.jump t) 0) ∧
       (g.sval r ≠ 0 → canonical t = false → exec (.brnz c r imm) s = .next (s.tickSeq.syncTrap gid off))) ∧
     (Active s gid g c (.brx c r) →
       (canonical (g.sval r) = false →
         exec (.brx c r) s = .next (s.tickSeq.syncTrap gid { cause := 0x11, addr := g.sval r })) ∧
       (canonical (g.sval r) = true → (g.sval r).toNat % 4 ≠ 0 →
         exec (.brx c r) s = .next (s.tickSeq.syncTrap gid { cause := 0x10, addr := g.sval r })) ∧
       (canonical (g.sval r) = true → (g.sval r).toNat % 4 = 0 → Ends s gid g c (.brx c r) s.tickSeq (.jump (g.sval r)) 0))) ∧
  (∀ (s : State) (gid : Nat) (g : Group) (c : Ctl) (a : SSrc) (imm : BitVec 14),
     let n := g.ssval a
     let same := ∀ q, g.runNow.pass = some q → q.active = true ∧ q.count = n
     (Active s gid g c (.exit c) → Ends s gid g c (.exit c)
       (s.tickSeq.setGroup gid { g with r := { g.r with live := g.r.live &&& ~~~g.active c } }) .seq 0) ∧
     (Active s gid g c (.pass c a) →
       (same → 1 ≤ n.toNat → n.toNat ≤ 3 → Ends s gid g c (.pass c a) s.tickSeq (.pass n.toNat) 0) ∧
       (same → (n = 0 ∨ 3 < n.toNat) → exec (.pass c a) s = .next (s.tickSeq.syncTrap gid { cause := 0x38, info := n })) ∧
       (¬ same → exec (.pass c a) s = .next (s.tickSeq.syncTrap gid { cause := 0x05, info := 1 }))) ∧
     (Active s gid g c (.detach c) → Ends s gid g c (.detach c) s.tickSeq .detach 0) ∧
     (Active s gid g c (.brk c) → exec (.brk c) s = .next (s.tickSeq.syncTrap gid { cause := 0x52 })) ∧
     (Active s gid g c (.trap c imm) →
       exec (.trap c imm) s = .next (s.tickSeq.syncTrap gid { cause := 0x53, info := imm.signExtend 64, past := true })) ∧
     (Active s gid g c (.rett c) →
       (canonical g.r.xpc = true → Ends s gid g c (.rett c) s.tickSeq .rett
         (((g.r.frame.map (fun f => f.units)).getD []).map (fun u => if u.vec then 8 else 1)).sum) ∧
       (canonical g.r.xpc = false → exec (.rett c) s = .next (s.tickSeq.syncTrap gid { cause := 0x11, addr := g.r.xpc }))) ∧
     (∀ w : IWord, s.cur = some gid → s.group? gid = some g →
       exec (.unassignedOpcode w) s = .next (s.syncTrap gid { cause := 0x01 })))

/-- R59, R60, R305 and R320: calls.
R305 and R385: returns. -/
def Obligations.CallsAndReturns : Prop :=
  (∀ (s : State) (gid : Nat) (g : Group) (c : Ctl) (nv ns : BitVec 4) (imm : BitVec 32) (a : SReg),
     let call (i : Instr) (reg : Bool) (t : Word) : Prop :=
       let us := g.spillSets (8 * nv.toNat) (4 * ns.toNat)
       let base := g.r.spill.toNat
       let n := 1024 * us.1.length + 64 * us.2.length
       let record := leBytes 8 (g.r.pc + 12).toNat ++
         [nv.setWidth 8, ns.setWidth 8, BitVec.ofNat 8 us.1.length, BitVec.ofNat 8 us.2.length, 0, 0, 0, 0]
       Active s gid g c i → badTarget reg t = none →
         (base + n + 16 ≤ g.spillEnd →
           Ends s gid g c i
             ((s.tickSeq.modBlock g.blk (fun b => { b with mem := wrL (putUnits b.mem g.r us base) (base + n) record })).setGroup gid
               { g with r := { g.r with
                   wbv := (g.r.wbv + 8 * nv.toNat) % g.va
                   wbs := (g.r.wbs + 4 * ns.toNat) % g.sa
                   vDepth := g.r.vDepth + 8 * nv.toNat
                   sDepth := g.r.sDepth + 4 * ns.toNat
                   spill := BitVec.ofNat 64 (base + n + 16) } })
             (.jump t) (8 * us.1.length + us.2.length)) ∧
         (g.spillEnd < base + n + 16 → exec i s = .next (s.tickSeq.syncTrap gid { cause := 0x40 }))
     call (.call c nv ns imm) false (g.r.pc + 12 * imm.signExtend 64) ∧ call (.callx c nv ns a) true (g.sval a)) ∧
  (∀ (s : State) (gid : Nat) (g : Group) (c : Ctl), Active s gid g c (.ret c) →
     let mem := (s.blockOf g).mem
     let rec_ := (g.r.spill - 16).toNat
     let nv := 8 * (rd8 mem (rec_ + 8)).toNat
     let ns := 4 * (rd8 mem (rec_ + 9)).toNat
     let nvu := (rd8 mem (rec_ + 10)).toNat
     let nsu := (rd8 mem (rec_ + 11)).toNat
     let base := rec_ - (1024 * nvu + 64 * nsu)
     let open_ := if g.r.sys then (g.r.frame.map (fun f => f.spill)).getD (BitVec.ofNat 64 g.spillBase) else BitVec.ofNat 64 g.spillBase
     (g.r.spill = open_ → exec (.ret c) s = .next (s.tickSeq.syncTrap gid { cause := 0x40, info := 1 })) ∧
     (g.r.spill ≠ open_ → ∃ wbv wbs,
       ((wbv + nv) % g.va = (g.r.wbv + g.va * 256) % g.va ∨ g.r.wbv + g.va * 256 < nv) ∧
       ((wbs + ns) % g.sa = (g.r.wbs + g.sa * 256) % g.sa ∨ g.r.wbs + g.sa * 256 < ns) ∧
       Ends s gid g c (.ret c)
         (s.tickSeq.setGroup gid { g with r := { g.r with
           wbv := wbv
           wbs := wbs
           vDepth := g.r.vDepth - nv
           sDepth := g.r.sDepth - ns
           v := refillV mem g.r.v g.va wbv nv nvu base
           s := refillS mem g.r.s g.sa wbs ns nsu (base + 1024 * nvu)
           spill := g.r.spill - BitVec.ofNat 64 (16 + 1024 * nvu + 64 * nsu) } })
         (.jump (rd64 mem rec_)) (8 * nvu + nsu)))

/-- R226 and R229: the entry of a trap, and what it leaves alone.
R41, R45 and R230: the pc and the record of a synchronous trap. -/
def Obligations.TrapEntries : Prop :=
  (∀ (s : State) (gid : Nat) (g : Group) (t : TrapInfo) (pc : Word) (head : Bool),
     let us := g.spillSets 8 8
     let sp := g.r.spill.toNat + 1024 * us.1.length + 64 * us.2.length
     (g.r.sys = false ∨ t.deferred = true) → s.hasHandler g = true → sp ≤ g.spillEnd →
     let u := s.enterTrap gid g t pc head
     ∃ g', u.group? gid = some g' ∧ g'.run = none ∧
       g' = { g with r := g'.r, run := none } ∧
       g'.r = { g.r with
         sys := true, pc := g.r.xvec, head := true, replay := none,
         xcause := BitVec.ofNat 9 (t.cause + if t.deferred then 256 else 0), xpc := pc, xaddr := t.addr, xlanes := t.lanes,
         xstep := t.step.getD (BitVec.ofNat 64 g.r.gstep), xprog := t.prog, xinfo := t.info, xhead := head,
         wbv := (g.r.wbv + 8) % g.va, wbs := (g.r.wbs + 8) % g.sa, vDepth := g.r.vDepth + 8, sDepth := g.r.sDepth + 8,
         spill := BitVec.ofNat 64 sp, ve := g'.r.ve, se := g'.r.se, frame := g'.r.frame } ∧
       (∀ n, n ∈ g'.r.ve → n ∈ g.r.ve) ∧ (∀ n, n ∈ g'.r.se → n ∈ g.r.se) ∧
       (∃ f, g'.r.frame = some f ∧ f.wbv = g.r.wbv ∧ f.wbs = g.r.wbs ∧ f.vDepth = g.r.vDepth ∧ f.sDepth = g.r.sDepth ∧
         f.spill = BitVec.ofNat 64 sp ∧ f.replay = g.r.replay) ∧
       (∀ h, h ≠ gid → u.group? h = s.group? h) ∧ u.mem = s.mem ∧ u.launches = s.launches ∧ u.loads = s.loads ∧ u.ops = s.ops) ∧
  (∀ (s : State) (gid : Nat) (g : Group) (t : TrapInfo), s.group? gid = some g →
     (g.r.live = 0 → s.syncTrap gid t = s.retire gid) ∧
     (g.r.live ≠ 0 → t.past = false → s.syncTrap gid t =
       s.enterTrap gid g t g.r.pc (decide (g.run = none ∨ ∃ r, g.run = some r ∧ r.count = 0))) ∧
     (g.r.live ≠ 0 → t.past = true → s.syncTrap gid t = s.enterTrap gid g t (g.r.pc + 12) false))

/-- R227 and R228: the traps that no handler takes. -/
def Obligations.TrapWithoutHandler : Prop :=
  ∀ (s : State) (gid : Nat) (g : Group) (t : TrapInfo) (pc : Word) (head : Bool) (l : Nat) (L : Launch),
    g.launch = some l → s.launch? l = some L → L.phase ≠ .completed → L.phase ≠ .rejected → L.phase ≠ .terminated →
    ((g.r.sys = true ∧ t.deferred = false) ∨ s.hasHandler g = false ∨
      g.spillEnd < g.r.spill.toNat + spillBytes (g.spillSets 8 8)) →
    let u := s.enterTrap gid g t pc head
    let p := coreDie (s.blockOf g).core
    (∃ L', u.launch? l = some L' ∧ L'.phase = .terminated) ∧
    ∃ n, tfind (u.die p).bbox n = some ⟨pc, BitVec.ofNat 32 t.cause, BitVec.ofNat 16 (coreIdx (s.blockOf g).core), 0x0B, 0⟩

/-- R226, R211 and R386: what RETT does at the end of its run. -/
def Obligations.TrapReturn : Prop :=
  ∀ (s : State) (gid : Nat) (g : Group) (f : TrapFrame), s.group? gid = some g → g.r.frame = some f →
    let u := s.returnTrap gid g
    ∃ g', u.group? gid = some g' ∧ g' = { g with r := g'.r } ∧
      g'.r = { g.r with
        sys := false, pc := g.r.xpc, head := g.r.xhead, frame := none,
        wbv := f.wbv, wbs := f.wbs, vDepth := f.vDepth, sDepth := f.sDepth,
        spill := f.spill - BitVec.ofNat 64 (1024 * (f.units.filter (fun u => u.vec)).length + 64 * (f.units.filter (fun u => !u.vec)).length),
        replay := if g.r.xlanes = 0 then f.replay else some g.r.xlanes,
        v := g'.r.v, s := g'.r.s, ve := g'.r.ve, se := g'.r.se } ∧
      (f.units = [] → g'.r.v = g.r.v ∧ g'.r.s = g.r.s ∧ g'.r.ve = g.r.ve ∧ g'.r.se = g.r.se) ∧
      (∀ h, h ≠ gid → u.group? h = s.group? h) ∧ u = { s with groups := u.groups, ops := u.ops }

/-- R60, R226 and R386: the units that a trap spills come back with RETT. The hypotheses on the group are those that its placement gives it (R28) and that every instruction keeps. -/
def Obligations.TrapThenReturn : Prop :=
  ∀ (s : State) (gid : Nat) (g : Group) (t : TrapInfo) (pc : Word) (head : Bool),
    s.group? gid = some g → (s.block? g.blk).isSome = true →
    g.r.sys = false → s.hasHandler g = true → g.r.ve = [] → g.r.se = [] →
    g.va % 8 = 0 → 0 < g.va → g.sa % 8 = 0 → 0 < g.sa → g.r.wbv < g.va → g.r.wbs < g.sa → g.spillEnd < 2 ^ 64 →
    g.r.spill.toNat + spillBytes (g.spillSets 8 8) ≤ g.spillEnd →
    ∀ g1, (s.enterTrap gid g t pc head).group? gid = some g1 →
      ∃ g2, ((s.enterTrap gid g t pc head).returnTrap gid g1).group? gid = some g2 ∧
        g2.r.sys = false ∧ g2.r.pc = pc ∧ g2.r.head = head ∧ g2.r.wbv = g.r.wbv ∧ g2.r.wbs = g.r.wbs ∧
        g2.r.vDepth = g.r.vDepth ∧ g2.r.sDepth = g.r.sDepth ∧ g2.r.spill = g.r.spill ∧ g2.r.frame = none ∧
        g2.r.live = g.r.live ∧ g2.r.p = g.r.p ∧ g2.r.x = g.r.x ∧ g2.r.ve = [] ∧ g2.r.se = [] ∧
        (∀ n l, n < g.va → l < 32 → tget 0 g2.r.v (32 * n + l) = tget 0 g.r.v (32 * n + l)) ∧
        (∀ n, n < g.sa → tget 0 g2.r.s n = tget 0 g.r.s n)

/-- R58: the windows of a group. -/
def Obligations.RegisterWindows : Prop :=
  (∀ (g : Group) (n l : Nat),
    g.getV n l = tget 0 g.r.v (32 * ((g.r.wbv + n) % g.va) + l) ∧ g.getS n = tget 0 g.r.s ((g.r.wbs + n) % g.sa)) ∧
  (∀ (s : State) (gid : Nat) (g : Group) (c : Ctl) (i : Instr) (u : Use) (n : Nat), ctlOf i = some c → s.cur = some gid →
    s.group? gid = some g → g.retired = false → forbidden g.r.sys i = false →
    runOut i (usesOf g.runNow.xs i) = false →
    (∀ v ∈ usesOf g.runNow.xs i, v.even = true → ∀ m, v.num = some m → m % 2 = 0) →
    u ∈ usesOf g.runNow.xs i → u.num = some n →
    (if u.vec then (min g.va 128 : Int) - 1 < n else (g.sa : Int) - 1 < n) →
    ∃ info, exec i s = .next (s.syncTrap gid { cause := 0x03, info := info })) ∧
  ∀ (g : Group) (wbv wbs m : Nat),
    let h : Group := { g with r := { g.r with wbv := wbv, wbs := wbs } }
    h.getP m = g.getP m ∧ h.getX m = g.getX m ∧ planeOf h m = planeOf g m

/-- R44: the length of a run. -/
def Obligations.RunLength : Prop :=
  ∀ (s : State) (gid : Nat) (g : Group) (r : Run) (ts : List Turn), s.agenda = .issue gid :: ts → s.group? gid = some g →
    g.retired = false → g.tlbi = none → g.run = some r → 24 ≤ r.count → State.takeable g = [] →
    slotFree s g 0 = true →
    step s = .next (({ s with agenda := ts, cur := some gid } : State).syncTrap gid { cause := 0x04 })

/-- R38, R40 and R225: the registers of a group at its start.
R271 with R34 and R225: what reset leaves. What memory reads as before it is written is the model’s choice. -/
def Obligations.FreshMachine : Prop :=
  (∀ (pc : Word) (lanes step : Nat) (s0 : Word) (spill : Nat) (vec : Word) (n l : Nat), l < 32 →
     let r := Regs.start pc lanes step s0 spill vec false
     r.pc = pc ∧ r.sys = false ∧ r.gstep = step ∧ r.lstep = 0 ∧ r.wbv = 0 ∧ r.wbs = 0 ∧ r.ve = [] ∧ r.se = [] ∧
     tget 0 r.v n = 0 ∧ tget 0 r.s 0 = s0 ∧ (n ≠ 0 → tget 0 r.s n = 0) ∧ tget 0 r.p n = 0 ∧ tget 0 r.x n = 0 ∧
     r.xvec = vec ∧ r.xcause = 0 ∧ r.xpc = 0 ∧ r.xaddr = 0 ∧ r.xlanes = 0 ∧ r.xstep = 0 ∧ r.xprog = 0 ∧ r.xinfo = 0 ∧
     r.head = true ∧ bitOf r.live l = decide (l < lanes)) ∧
  ((∃ P, State.reset.parts = [(0, P)] ∧ P.y0 = 0 ∧ P.y1 = 29 ∧ P.port = 0 ∧
     P.cals.iss = (List.range 128).map (fun e => BitVec.ofNat 8 (e % 4)) ∧
     (∀ e, e < 256 → e % 4 = 0 → P.cals.link[e]? = some 0x10 ∧ P.cals.port[e]? = some 0x10) ∧
     (∀ e, e < 256 → e % 4 = 1 → P.cals.link[e]? = some 0x20 ∧ P.cals.port[e]? = some 0x20) ∧
     (∀ e, e < 256 → 2 ≤ e % 4 → P.cals.link[e]? = some 0x00 ∧ P.cals.port[e]? = some 0x00)) ∧
   State.reset.launches = [] ∧ State.reset.blocks = [] ∧ State.reset.loads = [] ∧ State.reset.ops = [] ∧
   State.reset.canonicalMem = true ∧ (∀ k, rd8 State.reset.mem k = Config.unwritten) ∧
   (∀ p, p < 900 → ∃ g, State.reset.group? p = some g ∧ g.launch = none ∧ g.r.sys = true) ∧
   (∀ (disabled : List Nat) (s : State), gradeOk disabled = true →
     exec (.bringUp disabled) s = .next { State.reset with disabled := disabled, free := s.free, agenda := s.agenda }))

/-- R71, R104, R105, R115, R217, R351 and R399 to R401: the loads from local store and from the weight store. -/
def Obligations.LocalLoads : Prop :=
  ∀ (s : State) (gid : Nat) (g : Group) (c : Ctl) (sz : Size) (d : VReg) (m : VMem) (e : SReg) (q : SMem),
    let n := sz.bytes
    let b := s.blockOf g
    let lim := b.bytes + if g.r.sys then b.groups.length * b.spill else 0
    let ready (deps : List Nat) : Bool := deps.isEmpty && b.closed == g.r.lstep
    let read (deps : List Nat) (l : Nat) (a : Word) : LaneRead :=
      ⟨l, a.toNat, a, .now, if ready deps then some (BitVec.ofNat 64 (rdN b.mem a.toNat n)) else none⟩
    (Active s gid g c (.ldl c sz d m) →
      let addr := g.vaddr false m
      let off := compareMask (g.active c) (fun l => decide (lim < (addr l).toNat + n))
      let rest := g.active c &&& ~~~off
      let deps := writesOver b (laneRange addr n rest)
      (∀ l ∈ lanesOf (g.active c), (addr l).toNat % n = 0) → (∀ l ∈ lanesOf rest, b.poisoned (addr l).toNat n = false) →
      Ends s gid g c (.ldl c sz d m) (startLoad s.tickSeq gid (g.switchOff off) (g.loadDst sz d) sz (.loc g.r.lstep deps)
        ((lanesOf rest).map (fun l => read deps l (addr l)))) .seq 0) ∧
    (Active s gid g c (.sldl c sz e q) →
      let a := g.saddr q
      let deps := writesOver b (some (a.toNat, a.toNat + n))
      a.toNat % n = 0 → a.toNat + n ≤ lim → b.poisoned a.toNat n = false →
      Ends s gid g c (.sldl c sz e q) (startLoad s.tickSeq gid g (.sca (g.physS (g.sname e))) sz (.loc g.r.lstep deps)
        [read deps 0 a]) .seq 0) ∧
    (Active s gid g c (.ldw c sz d m) →
      let addr := g.vaddr false m
      let p := coreDie b.core
      (∀ l ∈ lanesOf (g.active c), (addr l).toNat % n = 0 ∧ (addr l).toNat + n ≤ 2 ^ 29 ∧
        s.poisoned (keyWeight p (addr l).toNat) n = false) →
      Ends s gid g c (.ldw c sz d m) (startLoad s.tickSeq gid g (g.loadDst sz d) sz .weight
        ((lanesOf (g.active c)).map (fun l => ⟨l, keyWeight p (addr l).toNat, addr l, .now, none⟩))) .seq 0)

/-- R79, R80, R209, R212, R351 and R399 to R401: the loads from global memory; R200 and R436: how long a walk holds the slot, for which the manual gives no figure; R83: the cache. -/
def Obligations.GlobalLoads : Prop :=
  (∀ (s : State) (gid : Nat) (g : Group) (c : Ctl) (sz : Size) (kind : Kind) (res : BitVec 4) (d : VReg) (m : VMem) (e : SReg) (q : SMem),
    let n := sz.bytes
    let x := ctxOf s gid g c
    let kindOf (stable : Bool) : Kind := if kind = .stb ∧ stable = false then .now else kind
    let done (i : Instr) (vas : List Word) (t : State) : Prop := Ends s gid g c i (x.walkHold vas t).2 .seq (x.walkHold vas t).1
    (Active s gid g c (.ldg c sz kind res d m) →
      let addr := g.vaddr true m
      let vas := (lanesOf (g.active c)).map addr
      let r := x.checkLanes addr n false false
      (∀ l ∈ lanesOf (g.active c), (addr l).toNat % n = 0) → r.bad = [] →
      ∃ p : Mask, (∀ l, l < 32 → bitOf p l =
          if bitOf (g.active c) l then r.missing.contains l else bitOf (g.getP res.toNat) l) ∧
        (r.good = [] → ∃ g', done (.ldg c sz kind res d m) vas (r.s.setGroup gid g') ∧
          WroteV (g.setP res.toNat p) g' (if sz = .s64 then .i64 else .i32) d (maskOf (fun l => r.missing.contains l)) (fun _ v => v = 0)) ∧
        (r.good ≠ [] → done (.ldg c sz kind res d m) vas
          ((startLoad r.s gid (g.setP res.toNat p) (g.loadDst sz d) sz .glob
            (r.good.map (fun e => ⟨e.1, e.2.2.1, e.2.1, kindOf e.2.2.2, none⟩) ++
              r.missing.map (fun l => ⟨l, 0, addr l, kind, some 0⟩))).llcReads gid c.cph r.lines))) ∧
    (Active s gid g c (.sldg c sz kind res e q) →
      let a := g.saddr q
      let dst := LoadDst.sca (g.physS (g.sname e))
      ∀ t, a.toNat % n = 0 →
        (∀ key tr, s.tickSeq.check (s.blockOf g).core (s.tickSeq.tagOf g) a (x.want n false false) = (.good key tr, t) →
          t.poisoned key n = false →
          done (.sldg c sz kind res e q) [a]
            ((startLoad t gid (g.setP res.toNat 0) dst sz .glob [⟨0, key, a, kindOf tr.e.s, none⟩]).llcReads gid c.cph [(key / 64, tr)])) ∧
        (∀ tr, s.tickSeq.check (s.blockOf g).core (s.tickSeq.tagOf g) a (x.want n false false) = (.missing tr, t) →
          done (.sldg c sz kind res e q) [a]
            (t.setGroup gid ((g.setP res.toNat (BitVec.allOnes 32)).setS (g.sname e) 0))))) ∧
  (∀ (s : State) (gid : Nat) (g : Group) (c : Ctl) (vas : List Word) (t : State),
    let k := (s.blockOf g).core
    let w := (ctxOf s gid g c).walkHold vas t
    let held : Prop := ∀ va ∈ vas, canonical va = true → ∃ e ∈ (s.core k).tlb ++ (s.die (coreDie k)).tlb, e.tag = s.tagOf g ∧ e.page = pageOf va
    (held → w = (0, t)) ∧ (¬ held → w = (Config.freeNat t.free, { t with free := t.free + 1 }))) ∧
  ∀ (s : State) (gid : Nat) (hint : BitVec 2) (lines : List (Nat × Trans)), CacheOnly s (s.llcReads gid hint lines)

/-- R48 and R351: the issue of a load.
R72: a global write is held until the commit of its tag. This is the memory frame of STG, STGA and SSTG. -/
def Obligations.AccessesInFlight : Prop :=
  (∀ (s : State) (gid : Nat) (g : Group) (dst : LoadDst) (sz : Size) (src : LoadSrc) (reads : List LaneRead),
     let u := startLoad s gid g dst sz src reads
     let fills (n : Nat) : Prop := match dst with
       | .vec _ _ => False
       | .sca a => ∃ r ∈ reads, n = (a + r.lane) % g.sa
     let fillsV (n : Nat) : Prop := match dst with
       | .vec a p => n = a ∨ p = some n
       | .sca _ => False
     (reads = [] → u = s.setGroup gid g) ∧
     (reads ≠ [] → ∃ g' op, u.group? gid = some g' ∧ g' = { g with r := { g.r with ve := g'.r.ve, se := g'.r.se } } ∧
       (∀ n, n ∈ g'.r.ve ↔ n ∈ g.r.ve ∨ fillsV n) ∧ (∀ n, n ∈ g'.r.se ↔ n ∈ g.r.se ∨ fills n) ∧
       tfind u.loads s.fresh = some op ∧ op.gid = gid ∧ op.dst = dst ∧ op.size = sz ∧ op.src = src ∧ op.reads = reads ∧
       op.tag = g.r.gstep ∧ op.lag = g.r.lag.toNat ∧
       (∀ j, j ≠ s.fresh → tfind u.loads j = tfind s.loads j) ∧ (∀ h, h ≠ gid → u.group? h = s.group? h) ∧
       u = { s with groups := u.groups, loads := u.loads, fresh := s.fresh + 1 })) ∧
  (∀ (s : State) (g : Group) (l : Nat) (L : Launch) (ws : List Write), g.launch = some l → s.launch? l = some L →
     let u := sendGlobal s g ws
     u.mem = s.mem ∧ u.groups = s.groups ∧ u.blocks = s.blocks ∧
     (∃ L', u.launch? l = some L' ∧ L' = { L with gw := L'.gw } ∧
       ∃ new : List GWrite, L'.gw = L.gw ++ new ∧ new.map (fun w => w.w) = ws ∧ ∀ w ∈ new, w.step = g.r.gstep) ∧
     ∀ j, j ≠ l → u.launch? j = s.launch? j)

/-- R70, R84, R85, R105, R303, R400 and R410 to R412: the stores to local store. -/
def Obligations.LocalStores : Prop :=
  ∀ (s : State) (gid : Nat) (g : Group) (c : Ctl) (sz : Size) (rule : Rule) (sum : SumTy) (d : VReg) (m : VMem) (e : SReg) (q : SMem),
    let n := sz.bytes
    let b := s.blockOf g
    let lim := b.bytes + if g.r.sys then b.groups.length * b.spill else 0
    let vector (i : Instr) (r : WRule) : Prop := Active s gid g c i →
      let addr := g.vaddr false m
      let off := compareMask (g.active c) (fun l => decide (lim < (addr l).toNat + n))
      let rest := g.active c &&& ~~~off
      let deps := rangesOver b (laneRange addr n rest)
      let ws := (lanesOf rest).flatMap (fun l =>
        splitWrite (storeOf s gid r (g.gwid + BitVec.ofNat 64 l)) (addr l).toNat (addr l) n (g.stored sz d l))
      (∀ l ∈ lanesOf (g.active c), (addr l).toNat % n = 0) →
      Ends s gid g c i ((s.tickSeq.setGroup gid (g.switchOff off)).modBlock g.blk (fun b => { b with
        pend := b.pend ++ ws.map (fun w => { w := w, step := g.r.lstep, by_ := deps, ofOp := false }) })) .seq 0
    vector (.stl c sz rule sum d m) (wrule rule sum) ∧ vector (.stla c sz sum d m) (.acc sum) ∧
    (Active s gid g c (.sstl c sz rule sum e q) →
      let a := g.saddr q
      let deps := rangesOver b (some (a.toNat, a.toNat + n))
      let ws := splitWrite (storeOf s gid (wrule rule sum) g.gwid) a.toNat a n (g.sval e)
      a.toNat % n = 0 → a.toNat + n ≤ lim →
      Ends s gid g c (.sstl c sz rule sum e q) (s.tickSeq.modBlock g.blk (fun b => { b with
        pend := b.pend ++ ws.map (fun w => { w := w, step := g.r.lstep, by_ := deps, ofOp := false }) })) .seq 0)

/-- R72, R84, R85, R209, R213, R303, R400 and R410 to R412: the stores to global memory. -/
def Obligations.GlobalStores : Prop :=
  ∀ (s : State) (gid : Nat) (g : Group) (c : Ctl) (sz : Size) (rule : Rule) (sum : SumTy) (d : VReg) (m : VMem) (e : SReg) (q : SMem),
    let n := sz.bytes
    let x := ctxOf s gid g c
    let done (i : Instr) (vas : List Word) (t : State) : Prop := Ends s gid g c i (x.walkHold vas t).2 .seq (x.walkHold vas t).1
    let vector (i : Instr) (r : WRule) (acc : Bool) : Prop := Active s gid g c i →
      let addr := g.vaddr true m
      let k := x.checkLanes addr n true acc
      let g1 : Group := { g with r := { g.r with nrs := g.r.nrs ||| maskOf (fun l => k.missing.contains l) } }
      let ws := k.good.flatMap (fun e =>
        splitWrite (storeOf s gid r (g.gwid + BitVec.ofNat 64 e.1)) e.2.2.1 e.2.1 n (g.stored sz d e.1))
      (∀ l ∈ lanesOf (g.active c), (addr l).toNat % n = 0) → k.bad = [] →
      done i ((lanesOf (g.active c)).map addr) (sendGlobal (k.s.setGroup gid g1) g1 ws)
    vector (.stg c sz rule sum d m) (wrule rule sum) false ∧ vector (.stga c sz sum d m) (.acc sum) true ∧
    (Active s gid g c (.sstg c sz rule sum e q) →
      let a := g.saddr q
      ∀ t, a.toNat % n = 0 →
        (∀ key tr, s.tickSeq.check (s.blockOf g).core (s.tickSeq.tagOf g) a (x.want n true false) = (.good key tr, t) →
          done (.sstg c sz rule sum e q) [a]
            (sendGlobal t g (splitWrite (storeOf s gid (wrule rule sum) g.gwid) key a n (g.sval e)))) ∧
        (∀ tr, s.tickSeq.check (s.blockOf g).core (s.tickSeq.tagOf g) a (x.want n true false) = (.missing tr, t) →
          done (.sstg c sz rule sum e q) [a]
            (t.setGroup gid { g with r := { g.r with nrs := g.r.nrs ||| g.active c } })))

/-- R4, R84 and R411: the words, masks and values of one store. -/
def Obligations.StoredBytes : Prop :=
  ∀ (w0 : Write) (key : Nat) (va x : Word) (n a : Nat), n ∈ [1, 2, 4, 8] → key % n = 0 → (n = 8 ∨ w0.rule.unit64 = false) →
    let ws := splitWrite w0 key va n x
    (∀ w ∈ ws, w.key ≤ a → a < w.key + 8 → w.mask.getLsbD (a - w.key) = true →
      key ≤ a ∧ a < key + n ∧ (w.val >>> (8 * (a - w.key))).setWidth 8 = (x >>> (8 * (a - key))).setWidth 8) ∧
    (key ≤ a → a < key + n → ∃ w ∈ ws, w.key ≤ a ∧ a < w.key + 8 ∧ w.mask.getLsbD (a - w.key) = true)

/-- R104, R209 and R210: alignment. -/
def Obligations.MisalignedLanes : Prop :=
  ∀ (s : State) (gid : Nat) (g : Group) (c : Ctl) (i : Instr) (n : Nat) (addr : Nat → Word) (write : Bool), Active s gid g c i →
    (∃ sz d m, n = sz.bytes ∧
      ((i = .ldl c sz d m ∧ addr = g.vaddr false m ∧ write = false) ∨ (i = .ldw c sz d m ∧ addr = g.vaddr false m ∧ write = false) ∨
        (∃ kind res, i = .ldg c sz kind res d m ∧ addr = g.vaddr true m ∧ write = false) ∨
        (∃ rule sum, i = .stl c sz rule sum d m ∧ addr = g.vaddr false m ∧ write = true) ∨
        (∃ sum, i = .stla c sz sum d m ∧ addr = g.vaddr false m ∧ write = true) ∨
        (∃ rule sum, i = .stg c sz rule sum d m ∧ addr = g.vaddr true m ∧ write = true) ∨
        (∃ sum, i = .stga c sz sum d m ∧ addr = g.vaddr true m ∧ write = true))) →
    (∃ l ∈ lanesOf (g.active c), (addr l).toNat % n ≠ 0) →
    ∃ (mis : Mask) (low : Nat), (∀ l, l < 32 → bitOf mis l = (bitOf (g.active c) l && decide ((addr l).toNat % n ≠ 0))) ∧
      low ∈ lanesOf mis ∧ (∀ l ∈ lanesOf mis, (addr low).toNat ≤ (addr l).toNat) ∧
      exec i s = .next (s.tickSeq.syncTrap gid
        { cause := 0x10, addr := addr low, lanes := mis, info := if write then 2 else 0 })

/-- R215, R256, R258 and R372 to R374: PFG and PGREQ. When a line arrives and which line leaves are free values; that a walk which ends without V = 0 or R = 0 is not logged, and which stage byte 9 names when both have R = 0, are the model’s choices (entry 107). -/
def Obligations.Prefetches : Prop :=
  (∀ (s : State) (gid : Nat) (g : Group) (c : Ctl) (m : VMem),
    let x := ctxOf s gid g c
    let addr := g.vaddr true m
    let vas := (lanesOf (g.active c)).map addr
    let detTrap : TrapInfo := { cause := 0x12, info := 1 }
    (Active s gid g c (.pfg c m) →
      (g.r.detached = true → exec (.pfg c m) s = .next (s.tickSeq.syncTrap gid detTrap)) ∧
      (g.r.detached = false →
        let p := x.prefetch m
        let k := (p.2.blockOf g).core
        let w := x.walkHold vas (p.2.count k (p.2.guestOf g) 0x080 p.1.length)
        Ends s gid g c (.pfg c m)
          (p.1.foldl (fun t line => t.llcFill (t.partAt k) ((t.guestOf g).getD 0) line (some k)) w.2) .seq w.1)) ∧
    (Active s gid g c (.pgreq c m) →
      (g.r.detached = true → exec (.pgreq c m) s = .next (s.tickSeq.syncTrap gid detTrap)) ∧
      (g.r.detached = false →
        let r := x.requests m
        let u : State := if r.1 = [] then r.2.2 else { r.2.2 with msix := r.2.2.msix + 1 }
        let far := (lanesOf (g.active c)).filter (fun l => !canonical (addr l))
        (far = [] → Ends s gid g c (.pgreq c m) (x.walkHold vas u).2 .seq (x.walkHold vas u).1) ∧
        (far ≠ [] → ∃ low ∈ far, (∀ l ∈ far, (addr low).toNat ≤ (addr l).toNat) ∧
          exec (.pgreq c m) s = .next (u.syncTrap gid { cause := 0x11, addr := addr low, lanes := maskOf (fun l => far.contains l) }))))) ∧
  (∀ (x : Ctx) (m : VMem) (l : Nat), lanesOf x.act = [l] →
    let va := x.vaddr true m l
    let k := (x.s.blockOf x.g).core
    (∀ key tr u, x.s.check k (x.s.tagOf x.g) va (x.want 1 false false) = (.good key tr, u) →
      x.prefetch m = (if tr.e.cp = 2 ∨ tr.e.ext = true ∨ x.c.cph = 3 then [] else [key / 64], u)) ∧
    (∀ tr u, x.s.check k (x.s.tagOf x.g) va (x.want 1 false false) = (.missing tr, u) → x.prefetch m = ([], u)) ∧
    (∀ cause i u, x.s.check k (x.s.tagOf x.g) va (x.want 1 false false) = (.bad cause i, u) → x.prefetch m = ([], u)) ∧
    (∀ (n : Nat) (L : Launch) (u : State), canonical va = true → x.g.launch = some n → u.launch? n = some L →
      let logs (b : Nat) : List Nat × List BadLane × State := ([pageOf va], [], u.ringAdd (u.partAt k) (u.partAt k).prring
        (leBytes 8 (va.toNat / 65536 * 65536) ++ leBytes 1 L.guest ++ leBytes 1 b ++
          leBytes 2 (u.logDie (u.partAt k) (coreDie k)) ++ leBytes 4 L.ident.toNat))
      (∀ f, x.s.translate k (x.s.tagOf x.g) (pageOf va) = (.error f, u) →
        x.requests m = if f.v0 = true then logs (1 + if f.nst then 2 else 0) else ([], [], u)) ∧
      (∀ tr, x.s.translate k (x.s.tagOf x.g) (pageOf va) = (.ok tr, u) →
        x.requests m = if tr.res = true then ([], [], u) else logs (if tr.hostR then 2 else 0)))) ∧
  (∀ (s : State) (P : Part) (guest line w k : Nat) (pfg : Option Nat),
    let held := tget [] s.llc w
    CacheOnly s (s.llcFill P guest line pfg) ∧
    (wayOfKey (64 * line) = some w → llcLimit P guest ≠ 0 → (∀ y ∈ held, y.line ≠ line) →
      ∃ due, ⟨line, guest, pfg, due⟩ ∈ tget [] (s.llcFill P guest line pfg).llc w) ∧
    (∀ y : LlcLine, y.pfg = some k → let n := 8192 * y.guest + 0x083
      tget 0 ((s.llcEvict w y).core k).counters n = tget 0 (s.core k).counters n + 1) ∧
    (∀ y ∈ held, wayOfKey (64 * line) = some w → y.line = line → y.pfg = some k → (∀ z ∈ held, z.line = line → z = y) →
      let n := 8192 * y.guest + if y.due ≤ s.tick then 0x081 else 0x082
      tget 0 ((s.llcRead line).core k).counters n = tget 0 (s.core k).counters n + 1 ∧
        ∀ z ∈ tget [] (s.llcRead line).llc w, z.line = line → z.pfg = none))

/-- R110, R122 to R124, R129, R135, R136, R217, R311 to R317 and R322 to R324: the issue of the engines' instructions. -/
def Obligations.EnginesStart : Prop :=
  ∀ (s : State) (gid : Nat) (g : Group) (c : Ctl) (dir : Dir) (rule : Rule) (kind : Kind) (side : Side) (glob : Bool) (d : SReg),
    (Active s gid g c (.cpy c dir rule kind d) → EngineStarts s gid g c (.cpy c dir rule kind d) d 32 32 (copyCheck s.tickSeq g dir)
      (.cpy dir (wrule rule .n32) kind) (fun _ => .cpy dir (wrule rule .n32) kind)
      (fun pb => if dir = .l2g ∨ dir = .l2l ∨ dir = .ferry then [(shapeOf pb).srcSpan] else []) (fun pb => if dir = .g2l ∨ dir = .l2l ∨ dir = .w2l then some (shapeOf pb).dstSpan else none)) ∧
    (Active s gid g c (.cpym c dir rule kind d) → EngineStarts s gid g c (.cpym c dir rule kind d) d 8 56 (multiCheck s.tickSeq g dir)
      (.cpym dir (wrule rule .n32) kind []) (fun pb => .cpym dir (wrule rule .n32) kind (receivers pb))
      (fun pb => if dir = .l2g ∨ dir = .l2l ∨ dir = .ferry then [(shapeOf pb).srcSpan] else []) (fun _ => none)) ∧
    (Active s gid g c (.gth c side rule kind d) → EngineStarts s gid g c (.gth c side rule kind d) d 32 32 (gatherCheck s.tickSeq g (side == .g))
      (.gth side (wrule rule .n32) kind) (fun _ => .gth side (wrule rule .n32) kind)
      (fun pb => (gshapeOf pb).listSpan :: (if side = .l then [(0, (s.blockOf g).bytes)] else [])) (fun pb => some (gshapeOf pb).packSpan)) ∧
    (Active s gid g c (.sct c side rule d) → EngineStarts s gid g c (.sct c side rule d) d 32 32 (gatherCheck s.tickSeq g (side == .g))
      (.sct side (wrule rule .n32)) (fun _ => .sct side (wrule rule .n32))
      (fun pb => [(gshapeOf pb).listSpan, (gshapeOf pb).packSpan]) (fun _ => if side = .l then some (0, (s.blockOf g).bytes) else none)) ∧
    (Active s gid g c (.btst c rule d) → EngineStarts s gid g c (.btst c rule d) d 32 32 (btstCheck s.tickSeq g)
      (.btst (wrule rule .n32)) (fun _ => .btst (wrule rule .n32))
      (fun pb => [(tshapeOf pb).srcSpan]) (fun _ => none)) ∧
    (Active s gid g c (.btdem c d) → EngineStarts s gid g c (.btdem c d) d 32 32 (moveCheck g)
      (.move true) (fun _ => .move true)
      (fun _ => []) (fun _ => none)) ∧
    (Active s gid g c (.btpro c d) → EngineStarts s gid g c (.btpro c d) d 32 32 (moveCheck g)
      (.move false) (fun _ => .move false)
      (fun _ => []) (fun _ => none)) ∧
    (Active s gid g c (.cpyw c glob d) →
      let busy := ((s.partOfDie (coreDie (s.blockOf g).core)).map (launchRuns s)).getD false
      (busy = true → exec (.cpyw c glob d) s = .next (s.tickSeq.syncTrap gid { cause := 0x17 })) ∧
      (busy = false → EngineStarts s gid g c (.cpyw c glob d) d 32 32 (weightCheck s.tickSeq g glob) (.cpyw glob) (fun _ => .cpyw glob)
        (fun pb => if glob then [] else [(shapeOf pb).srcSpan]) (fun _ => none)))

/-- R96, R109 to R113 and R348: what an asynchronous instruction leaves behind at issue. -/
def Obligations.OperationsInFlight : Prop :=
  ∀ (s : State) (gid : Nat) (g : Group) (c : Ctl) (b : Block) (kind : OpKind) (pb : List Byte) (args : List Word)
    (reads : List (Nat × Nat)) (write : Option (Nat × Nat)) (late : Option (Nat × Nat)), s.block? g.blk = some b → s.group? gid = some g →
    let started := (ctxOf s gid g c).startOp kind pb args reads write true late
    let u := started.2
    started.1 = s.fresh ∧
    (∃ op, tfind u.ops s.fresh = some op ∧ op.kind = kind ∧ op.gid = gid ∧ op.blk = g.blk ∧ op.core = b.core ∧
      op.gstep = g.r.gstep ∧ op.lstep = g.r.lstep ∧ op.wid = g.gwid ∧ op.iaddr = g.r.pc ∧ op.pb = pb ∧ op.args = args ∧
      op.snap = b.mem ∧ op.bad = b.poison ∧ op.prog = 0 ∧ op.st = .running ∧ op.sys = g.r.sys ∧
      ((∀ dir rule k rs, kind ≠ .cpym dir rule k rs) → op.accepted = []) ∧
      (∀ r, op.accepted ≠ [] → r ∈ op.accepted → ∃ q ∈ g.again, q.iaddr = g.r.pc ∧ r ∈ q.recv)) ∧
    (∀ o, o ≠ s.fresh → tfind u.ops o = tfind s.ops o) ∧
    (∃ e, u.block? g.blk = some { b with entries := b.entries ++ [e] } ∧ e.op = s.fresh ∧ e.reads = reads ∧ e.write = write ∧
      e.step = g.r.lstep ∧ e.ret = none) ∧
    (∀ h, h ≠ g.blk → u.block? h = s.block? h) ∧ (∀ h, h ≠ gid → u.group? h = s.group? h) ∧
    (∃ h, u.group? gid = some h ∧ h = { g with again := h.again, sent := h.sent }) ∧
    ((∀ dir rule k rs, kind ≠ .cpym dir rule k rs) → u.groups = s.groups) ∧
    u = { s with seq := s.seq + 1, fresh := s.fresh + 1, ops := u.ops, blocks := u.blocks, groups := u.groups }

/-- R117, R131 and R132: landing windows. -/
def Obligations.Landing : Prop :=
  ∀ (s : State) (gid : Nat) (g : Group) (c : Ctl) (d a b : SSrc) (blk : Block), Active s gid g c (.land c d a b) →
    s.block? g.blk = some blk →
    let id := (g.ssval d).toNat
    let base := (g.ssval a).toNat
    let len := (g.ssval b).toNat
    let started := (ctxOf s gid g c).startOp .land [] [] [] (some (base, base + len)) true
    let w : Window := ⟨id, base, len, started.1, gid, g.r.lstep, none, false⟩
    let opened := started.2.modBlock g.blk (fun b => { b with windows := b.windows ++ [w] })
    let ok := id < 8 ∧ base % 4 = 0 ∧ len % 4 = 0 ∧ 4 ≤ len ∧ base + len ≤ blk.bytes ∧ windowOpen s blk.core id = false
    (¬ ok → exec (.land c d a b) s = .next (s.tickSeq.syncTrap gid { cause := 0x38 })) ∧
    (ok → (∀ q ∈ (s.core blk.core).landing, q.win ≠ id) → Ends s gid g c (.land c d a b) opened .seq 0) ∧
    (ok → ∀ q bo, (s.core blk.core).landing.find? (fun q => q.win == id) = some q → opened.block? g.blk = some bo →
      (inOrder bo started.1 = true → Ends s gid g c (.land c d a b)
        (fillWindow (opened.modCore blk.core (fun k => { k with landing := k.landing.erase q })) g.blk w q) .seq 0) ∧
      (inOrder bo started.1 = false → Ends s gid g c (.land c d a b) opened .seq 0))

/-- R165, R166, R176 to R178, R183, R189 to R191: the issue of MMA and MMQ. -/
def Obligations.MatrixMultiplies : Prop :=
  ∀ (s : State) (gid : Nat) (g : Group) (c : Ctl) (kind : Kind) (d : BitVec 4) (a : SReg) (b : SSrc) (v : VReg) (e : SReg),
    let x := ctxOf s gid g c
    let issues (i : Instr) (op : OpKind) (fb k : Nat) (ps : List Part4) : Prop :=
      let blk := s.blockOf g
      let pb := rdL blk.mem fb 16
      let f := fblockOf pb
      let scales := scaleRange f.sa f.la k ++ scaleRange f.sb f.lb k
      let args := BitVec.ofNat 64 k :: ps.flatMap (fun p => [p.ha, p.hb])
      let room := (s.core blk.core).queue.length < 16
      Active s gid g c i →
      (fb % 16 = 0 → fb + 16 ≤ blk.bytes → writesOver blk (some (fb, fb + 16)) = [] →
        ((∀ w ∈ blk.poison, State.wordIn (fb, fb + 16) w = false) → tileOk g f.float d.toNat = true → handlesTrap blk.bytes f k ps = none →
          (g.r.detached = true → ∀ p ∈ ps, handleKind p.ha % 2 = 0 ∧ handleKind p.hb % 2 = 0) →
          fblockBad pb k = none → (∀ r ∈ scales, r.2 ≤ blk.bytes) → modeOk g f.float d.toNat = true →
          1 ≤ k → k ≤ 8192 → k % f.chunk = 0 → room →
          Ends s gid g c i (queued x op pb args
            ((fb, fb + 16) :: ((bounding (ps.flatMap (fun p => tileRange p.ha f.fa k p.rows))).toList ++
              (bounding (ps.flatMap (fun p => tileRange p.hb f.fb k 32))).toList ++
              scaleRange f.sa f.la k ++ scaleRange f.sb f.lb k)) none true
            { g with r := { g.r with ovfMode := f.trap } }) .seq 0) ∧
        (∀ t, multiplyTrap blk blk.poison g d.toNat fb k ps (some pb) = some t →
          exec i s = .next (s.tickSeq.syncTrap gid t))) ∧
      (fb % 16 = 0 → fb + 16 ≤ blk.bytes → writesOver blk (some (fb, fb + 16)) ≠ [] → room →
        multiplyTrap blk blk.poison g d.toNat fb k ps none = none →
        Ends s gid g c i (queued x op [] args [(fb, fb + 16), (0, blk.bytes)] none true g (some (fb, 16))) .seq 0)
    let n := g.sname a
    let qs := (List.range 4).filter (fun q => bitOf (g.active c) (8 * q))
    issues (.mma c kind d a b) (.mma kind d.toNat) (g.getS (n + 2)).toNat (g.ssval b).toNat
      [⟨0, 32, g.getS n, g.getS (n + 1), 0x200⟩] ∧
    issues (.mmq c kind d v e) (.mmq kind d.toNat qs) (g.getS (g.sname e)).toNat (g.getS (g.sname e + 1)).toNat
      (qs.map (fun q => ⟨8 * q, 8, g.getV64 (g.vname v) (8 * q), g.getV64 (g.vname v + 2) (8 * q), 0x200 + 2 * q⟩))

/-- R166, R167, R192 to R194 and R325 to R327: the issue of MZERO, MLDA, MDRN and CTLD. -/
def Obligations.MatrixTiles : Prop :=
  ∀ (s : State) (gid : Nat) (g : Group) (c : Ctl) (clr flt : Bool) (rnd : Rnd) (d : BitVec 4) (a : SReg) (t : SSrc),
    let x := ctxOf s gid g c
    let b := s.blockOf g
    let at_ := (g.sval a).toNat
    let tile := tileOk g flt d.toNat
    let good := at_ % 16 = 0 ∧ at_ + 4096 ≤ b.bytes
    let set : Group := { g with r := { g.r with modeQ := planeBits g.r.modeQ (tilePlanes flt d.toNat) flt } }
    let room := (s.core b.core).queue.length < 16
    let traps (i : Instr) (cause : Nat) (info : Word) : Prop :=
      exec i s = .next (s.tickSeq.syncTrap gid { cause := cause, info := info })
    (Active s gid g c (.mzero c flt d) →
      (tile = true → room → Ends s gid g c (.mzero c flt d) (queued x (.mzero flt d.toNat) [] [] [] none false set) .seq 0) ∧
      (tile = false → traps (.mzero c flt d) 0x31 1)) ∧
    (Active s gid g c (.mlda c flt d a) →
      (tile = true → good → room → Ends s gid g c (.mlda c flt d a)
        (queued x (.mlda flt d.toNat) [] [g.sval a] [(at_, at_ + 4096)] none true set) .seq 0) ∧
      (tile = false → traps (.mlda c flt d a) 0x31 1) ∧ (tile = true → ¬ good → traps (.mlda c flt d a) 0x38 0)) ∧
    (Active s gid g c (.mdrn c clr flt rnd d a) →
      (tile = true → modeOk g flt d.toNat = true → good → room → Ends s gid g c (.mdrn c clr flt rnd d a)
        (queued x (.mdrn clr flt rnd d.toNat) [] [g.sval a] [] (some (at_, at_ + 4096)) true g) .seq 0) ∧
      (tile = false → traps (.mdrn c clr flt rnd d a) 0x31 1) ∧
      (tile = true → modeOk g flt d.toNat = false → traps (.mdrn c clr flt rnd d a) 0x31 2) ∧
      (tile = true → modeOk g flt d.toNat = true → ¬ good → traps (.mdrn c clr flt rnd d a) 0x38 0)) ∧
    (Active s gid g c (.ctld c t a) →
      let n := (g.ssval t).toNat
      let ok := n ≤ 3 ∧ at_ % 32 = 0 ∧ at_ + 32 ≤ b.bytes
      (ok → room → Ends s gid g c (.ctld c t a) (queued x (.ctld n) [] [g.sval a] [(at_, at_ + 32)] none true g) .seq 0) ∧
      (¬ ok → traps (.ctld c t a) 0x38 0))

/-- R61, R405 to R408: spawning. -/
def Obligations.Spawn : Prop :=
  ∀ (s : State) (gid : Nat) (g : Group) (c : Ctl) (fwd : Bool) (d : BitVec 4) (a : SReg) (b : VReg),
    Active s gid g c (.spawn c fwd d a b) →
    let i : Instr := .spawn c fwd d a b
    let entry := g.sval a
    let p := coreDie (s.blockOf g).core
    let dieOf (l : Nat) : Option Nat :=
      if fwd then s.physDie? (s.partAt (s.blockOf g).core) (g.getV (g.vname b + 1) l).toNat else some p
    let traps (t : TrapInfo) : Prop := exec i s = .next (s.tickSeq.syncTrap gid t)
    (canonical entry = false → traps { cause := 0x11, addr := entry }) ∧
    (canonical entry = true → entry.toNat % 4 ≠ 0 → traps { cause := 0x10, addr := entry }) ∧
    (canonical entry = true → entry.toNat % 4 = 0 →
      (∀ l, (lanesOf (g.active c)).find? (fun l => (dieOf l).isNone) = some l →
        traps { cause := 0x38, info := BitVec.ofNat 64 l }) ∧
      ((∀ l ∈ lanesOf (g.active c), (dieOf l).isSome = true) →
        (g.r.detached = true → traps { cause := 0x12, info := 1 }) ∧
        (g.r.detached = false →
          let ls := lanesOf (g.active c)
          let room := coachFree s p
          let failed := maskOf (fun l => (ls.drop room).contains l)
          let items : List Item := (ls.take room).zipIdx.map (fun e =>
            { id := s.fresh + e.2, entry := entry, arg := g.getV (g.vname b) e.1, parent := g.gwid + BitVec.ofNat 64 e.1,
              step := g.r.gstep, die := (dieOf e.1).getD p, src := p, arrived := (dieOf e.1).getD p == p, grp := gid,
              seq := s.seq + 1, cycle := s.cycle p })
          (∀ L, g.launch = some L → Ends s gid g c i ((({ s.tickSeq with fresh := s.fresh + items.length } : State).modLaunch L
            (fun q => { q with items := q.items ++ items })).setGroup gid (g.setP d.toNat failed)) .seq 0) ∧
          (g.launch = none → Ends s gid g c i (s.tickSeq.setGroup gid (g.setP d.toNat failed)) .seq 0))))

/-- R355, R356, R358 to R361: the launch unit and the mailboxes.
R328 to R330, R414 and R415: invalidation and context switching.
R414: the operands of TLBINV. -/
def Obligations.SystemInstructions : Prop :=
  (∀ (s : State) (gid : Nat) (g : Group) (c : Ctl) (d a b : SReg) (q : SSrc),
     let p := coreDie (s.blockOf g).core
     let t := s.tickSeq
     (Active s gid g c (.lnch c a) → Ends s gid g c (.lnch c a)
       (t.modDie p (fun x => { x with launchq := x.launchq ++ [⟨g.getS (g.sname a), g.getS (g.sname a + 1), none⟩] })) .seq 0) ∧
     (Active s gid g c (.mbxrd c d q) →
       ((g.ssval q).toNat ≤ 1 → Ends s gid g c (.mbxrd c d q)
         ((startLoad t gid g (.sca (g.physS (g.sname d))) .s64 (.mailbox (g.ssval q).toNat)
           ((List.range 8).map (fun j => ⟨j, 8 * j, 0, .now, none⟩))).modDie p (fun x => { x with waits := x.waits ++ [⟨gid, s.fresh⟩] })) .seq 0) ∧
       (1 < (g.ssval q).toNat → exec (.mbxrd c d q) s = .next (t.syncTrap gid { cause := 0x38 }))) ∧
     (Active s gid g c (.mbxwr c a b) →
       (g.sval b = 0 →
         let P := s.partAt (s.blockOf g).core
         let u := t.ringAdd P P.dbmsg ((List.range 8).flatMap (fun j => leBytes 8 (g.getS (g.sname a + j)).toNat))
         Ends s gid g c (.mbxwr c a b) { u with msix := u.msix + 1 } .seq 0) ∧
       (g.sval b ≠ 0 → exec (.mbxwr c a b) s = .next (t.syncTrap gid { cause := 0x38 })))) ∧
  (∀ (s : State) (gid : Nat) (g : Group) (c : Ctl) (scope : Scope) (host : Bool) (gctx : BitVec 4) (a : SReg) (b : SSrc),
     let t := s.tickSeq
     let v := g.sval a
     let p := coreDie (s.blockOf g).core
     let bad := fun i => (canonical v = false → exec i s = .next (t.syncTrap gid { cause := 0x11, addr := v })) ∧
       (canonical v = true → v.toNat % 128 ≠ 0 → exec i s = .next (t.syncTrap gid { cause := 0x38 }))
     let starts := fun i ph (f : Nat → Die → Die) => bad i ∧
       (canonical v = true → v.toNat % 128 = 0 → ∀ P, s.partOfDie p = some P →
         (∀ l, commanded s P ph v = some l → Ends s gid g c i (t.modDie p (f l)) .seq 0) ∧
         (commanded s P ph v = none → Ends s gid g c i (t.modPart P (fun q => { q with mode := 2 })) .seq 0))
     (Active s gid g c (.tlbinv c scope host gctx a b) →
       (tlbinvBad scope v (g.ssval b) = none → Ends s gid g c (.tlbinv c scope host gctx a b)
         (t.setGroup gid { g with tlbi := some ⟨scope, host, gctx.toNat, v, (g.ssval b).toNat, g.r.gstep, s.seq + 1, false,
           if c.l then some c.g else none⟩ }) .later 0) ∧
       (∀ e, tlbinvBad scope v (g.ssval b) = some e →
         exec (.tlbinv c scope host gctx a b) s = .next (t.syncTrap gid e))) ∧
     (Active s gid g c (.ctxsv c a) → starts (.ctxsv c a) .preempting (fun l d => { d with save := some l })) ∧
     (Active s gid g c (.ctxld c a) → starts (.ctxld c a) .restoring (fun l d => { d with load := some l }))) ∧
  (∀ (a b : Word),
     let pages := 1 ≤ b.toNat ∧ b.toNat ≤ 2 ^ 20
     let one : TrapInfo := { cause := 0x38, info := 1 }
     let two : TrapInfo := { cause := 0x38, info := 2 }
     (tlbinvBad .va a b = if canonical a = false then some { cause := 0x11, addr := a } else if a.toNat % 65536 ≠ 0 then some one
       else if pages then none else some two) ∧
     (tlbinvBad .gpa a b = if a.toNat % 65536 ≠ 0 ∨ 2 ^ 52 ≤ a.toNat then some one else if pages then none else some two) ∧
     (tlbinvBad .ctx a b = if a ≠ 0 then some one else if b ≠ 0 then some two else none) ∧
     (tlbinvBad .all a b = if a ≠ 0 then some one else if b ≠ 0 then some two else none))

/-- R256, R258, R300 and R380 to R383: the counters and the topology. The free value is the model's own (R256 leaves the counts open). -/
def Obligations.CountersAndTopology : Prop :=
  ∀ (s : State) (gid : Nat) (g : Group) (c : Ctl) (d : SReg) (a b : SSrc) (sel : BitVec 14),
    let k := (s.blockOf g).core
    let n := (g.ssval a).toNat
    (Active s gid g c (.rdcnt c d a) → Ends s gid g c (.rdcnt c d a) (s.tickSeq.setGroup gid (g.setS (g.sname d)
      (match s.guestOf g with
        | some u => if n ≤ 0x86 then tget 0 (s.core k).counters (8192 * u + n) else 0
        | none => 0))) .seq 0) ∧
    (Active s gid g c (.qtopo c d sel b) →
      let used := if sel = 5 then 16 else if sel = 6 ∨ sel = 7 then 32 else if sel = 8 then 64 else 0
      ((g.ssval b).toNat / 2 ^ used = 0 →
        Ends s gid g c (.qtopo c d sel b) (startLoad s.tickSeq gid g (.sca (g.physS (g.sname d))) .s64 .value
          [⟨0, 0, 0, .now, some (BitVec.ofInt 64 (topoValue s (s.partAt k) (coreDie k) sel.toNat (g.ssval b)))⟩]) .seq 0) ∧
      ((g.ssval b).toNat / 2 ^ used ≠ 0 →
        exec (.qtopo c d sel b) s = .next (s.tickSeq.syncTrap gid { cause := 0x38 })))

/-- R16: the values of QTOPO for a whole-panel partition. -/
def Obligations.WholePanelTopology : Prop :=
  ∀ (s : State) (P : Part) (p : Nat) (b : Word), P.y0 = 0 → P.y1 = 29 →
    (s.disabled = [] →
      [0, 1, 2, 3, 9, 10, 11].map (fun n => topoValue s P p n b) = [900, 900, 30, 30, 448, 30, 536870912]) ∧
    (s.disabled.length = 50 → s.disabled.Nodup → (∀ q ∈ s.disabled, q < 900) →
      [0, 1, 2, 3, 9, 10, 11].map (fun n => topoValue s P p n b) = [850, 850, 30, 29, 448, 10, 536870912])

/-- R277 to R290: no bit of an encoding is dropped. An unassigned OPC is a row of its own and has its word; an event has none. -/
def Obligations.RoundTrip : Prop :=
  ∀ i : Instr, i.WellFormed → i.isEvent = false → ∃ w, encode i = some w ∧ decode w = .ok i

/-- R320, R343, R368, R386, R390, R404, R417, R425 and R428: the stored words of their example statements. -/
def Obligations.DecodedWords : Prop :=
  let plain : Ctl := ⟨false, 0, false, false, false, false, false, false, 0, 0, 0, false⟩
  let run : Ctl := ⟨false, 0, true, false, false, false, false, false, 0, 0, 0, false⟩
  decode 0x100802010200202000000000#96 = .ok (.sadd plain .i64 (.dir 4) (.dir 0) (.imm 0x80)) ∧
  decode 0x14480201D0B8000000000000#96 = .ok (.smovi plain .i64 (.dir 7) 0x42E00000) ∧
  decode 0x20800400C400840001000000#96 = .ok (.pxor run 3 2 0) ∧
  decode 0x2D0484004001A00800000000#96 = .ok (.vcmp plain .n32 .lt 1 (.dir 6) (.imm 32)) ∧
  decode 0xB0400A03C202700000000000#96 = .ok (.wrsr plain .lag (.reg (.dir 9))) ∧
  decode 0x038030003000300001000000#96 = .ok (.rett run) ∧
  decode 0x40D0400140018200C1000000#96 = .ok (.ffma run .rtz (.dir 5) (.dir 6) (.sca (.dir 3))) ∧
  decode 0x0188B0000000000281000000#96 = .ok (.call run 2 2 10) ∧
  decode 0x034030002000300001000000#96 = .ok (.trap run 0)

/-- R43, R278 and R279: the step around exec, in the model’s own names. -/
def Obligations.StepRunsInstruction : Prop :=
  (∀ (s : State) (gid : Nat) (ts : List Turn) (g : Group) (bs : List Byte) (i : Instr) (w : IWord) (t : State),
    s.agenda = .issue gid :: ts → s.group? gid = some g → g.retired = false → g.run.isSome = true → g.tlbi = none →
    State.takeable g = [] → slotFree { s with agenda := ts, cur := some gid } g (delayOf i) = true → g.runNow.count < 24 →
    State.fetchFor { s with agenda := ts, cur := some gid } g g.r.pc = (.ok bs, t) →
    i.WellFormed → encode i = some w → bs = bytesOfWord w → i.isEvent = false →
    step s = exec i { t with cur := some gid }) ∧
  (∀ (s : State) (ts : List Turn) (i : Instr), s.agenda = .event i :: ts → i.isEvent = true →
    step s = exec i { s with agenda := ts }) ∧
  (∀ (s : State) (ts : List Turn) (p : Nat) (i : Instr), s.agenda = .firmware p i :: ts → i.isEvent = false →
    step s = exec i { s with agenda := ts, cur := some p })

/-- The model’s own invariant: the canonical form of device memory, whichever instruction, event or trap the step performs. -/
def Obligations.MemoryKept : Prop :=
  ∀ s t : State, Memory.wf s.mem = true → step s = .next t → Memory.wf t.mem = true

/-- R85, R86, R88, R89 and R90: resolution of one word or 64-bit unit, for local closes and commits alike. -/
def Obligations.WriteRules : Prop :=
  (∀ (old : Word) (ws : List Write) (order free : Nat), ws ≠ [] → takePart ws = ws →
    let r := resolve old ws order free
    let byte (x : Word) (i : Nat) : BitVec 8 := x.extractLsb' (8 * i) 8
    ((∃ v ∈ ws, ∃ w ∈ ws, v.rule ≠ w.rule ∨ v.wide ≠ w.wide) → r = ⟨old, true, true⟩) ∧
    (∀ b, (∀ w ∈ ws, w.rule = .lo ∧ w.wide = b) → r.hit = false ∧ ∀ i, i < 8 →
      ((∀ w ∈ ws, w.mask.getLsbD i = false) → byte r.val i = byte old i) ∧
      (∀ w ∈ ws, w.mask.getLsbD i = true → (∀ v ∈ ws, v = w ∨ w.ident < v.ident) → byte r.val i = byte w.val i)) ∧
    (∀ b, (∀ w ∈ ws, w.rule = .any ∧ w.wide = b) → r.hit = false ∧
      ∃ p : List Write, p.Perm ws ∧ r.val = p.foldl (fun x w => putBytes x w.mask w.val) old) ∧
    (∀ b, (∀ w ∈ ws, w.rule = .flt ∧ w.wide = b) →
      (ws.Pairwise (fun v w => v.mask &&& w.mask = 0) → r.hit = false ∧ ∀ i, i < 8 →
        ((∀ w ∈ ws, w.mask.getLsbD i = false) → byte r.val i = byte old i) ∧
        (∀ w ∈ ws, w.mask.getLsbD i = true → byte r.val i = byte w.val i)) ∧
      (¬ ws.Pairwise (fun v w => v.mask &&& w.mask = 0) → r = ⟨old, true, false⟩)) ∧
    (∀ b, (∀ w ∈ ws, w.rule = .sum .n32 ∧ w.wide = b) → r.hit = false ∧
      r.val.toNat = (ws.map (fun w => w.val.toNat % 2 ^ 32)).sum % 2 ^ 32) ∧
    (∀ b, (∀ w ∈ ws, w.rule = .sum .i64 ∧ w.wide = b) → r.hit = false ∧
      r.val.toNat = (ws.map (fun w => w.val.toNat)).sum % 2 ^ 64) ∧
    (∀ b, (∀ w ∈ ws, w.rule = .acc .n32 ∧ w.wide = b) → r.hit = false ∧
      r.val.toNat = ((ws.map (fun w => w.val.toNat % 2 ^ 32)).sum + old.toNat % 2 ^ 32) % 2 ^ 32) ∧
    (∀ b, (∀ w ∈ ws, w.rule = .acc .i64 ∧ w.wide = b) → r.hit = false ∧
      r.val.toNat = ((ws.map (fun w => w.val.toNat)).sum + old.toNat) % 2 ^ 64)) ∧
  (∀ (ws : List Write) (w : Write) (i : Nat), i < 8 → (keptMask ws w).getLsbD i =
    (w.mask.getLsbD i && (w.engine || !w.rule.plain || !ws.any (fun v => !v.engine && v.rule.plain && v.sameWriter w &&
      decide (w.seq < v.seq) && decide (v.key ≤ w.key + i) && v.mask.getLsbD (w.key + i - v.key)))))

/-- R75, R81 and R92: what a commit does to memory, and what reads of earlier steps still see. -/
def Obligations.CommittedBytes : Prop :=
  (∀ (s : State) (lid j : Nat) (u : Nat × Bool) (ws : List Write) (order : Nat),
    let r := resolve (unitOld s.mem u) ws order s.free
    let t := applyUnit s lid j u ws order
    (r.hit = false → (∀ i, i < unitBytes u → rd8 t.mem (u.1 + i) = BitVec.ofNat 8 (r.val.toNat / 256 ^ i)) ∧
      (∀ k, k < u.1 ∨ u.1 + unitBytes u ≤ k → rd8 t.mem k = rd8 s.mem k)) ∧
    (∀ l, s.launch? lid = some l → l.header.log = 0 → r.hit = true → t.mem = s.mem)) ∧
  (∀ (s : State) (lid j key : Nat) (l : Launch) (bs : List Byte), s.launch? lid = some l →
    let t := putLU s lid j key bs
    (∀ i, i < bs.length → rd8 t.mem (key + i) = bs[i]?.getD 0) ∧
    (∀ k, k < key ∨ key + bs.length ≤ k → rd8 t.mem k = rd8 s.mem k) ∧
    (∃ m, t.launch? lid = some m ∧ (∀ e ∈ l.undo, e ∈ m.undo) ∧
      (∀ n k, n ≤ j → byteAsOf m t.mem n k = byteAsOf l s.mem n k) ∧
      (∀ n k, j < n → (∀ e ∈ l.undo, e.2.1 = k → e.1 < n) → byteAsOf m t.mem n k = rd8 t.mem k) ∧
      (∀ w i n, w % 4 = 0 → w < key + bs.length → key < w + 4 → i < 4 → n ≤ j →
        (∀ e ∈ l.undo, e.2.1 / 4 * 4 = w → e.1 < n) → byteAsOf m t.mem n (w + i) = rd8 s.mem (w + i))))

/-- R29, R31 to R36, R356, R357 and R360: the events of a launch from its posting to its completion. -/
def Obligations.Launching : Prop :=
  (∀ (s : State) (part : Nat) (P : Part) (guest : Option (BitVec 3)) (data : BitVec 64), s.part? part = some P →
    let last := (List.range 8).zip (leBytes 8 data.toNat)
    let staged := s.modPart part (fun P => match guest with
      | none => { P with lpkt := last.foldl (fun t e => tput 0 t (56 + e.1) e.2) P.lpkt }
      | some g => { P with vlpkt := last.foldl (fun t e => tput 0 t (64 * g.toNat + 56 + e.1) e.2) P.vlpkt })
    (P.ideUp = true → P.fatal = false →
      exec (.launchPacketPost part guest data) s = .next (postPacket staged part P (packetBytes P guest data))) ∧
    (P.ideUp = true → P.fatal = true → exec (.launchPacketPost part guest data) s = .next staged) ∧
    (P.ideUp = false → exec (.launchPacketPost part guest data) s =
      .next { s with hostr := s.hostr ++ [⟨part, .bar guest 0x78, .unsupported⟩] })) ∧
  (∀ (P : Part) (g : BitVec 3) (data : BitVec 64),
    packetBytes P none data = (List.range 56).map (fun i => tget 0 P.lpkt i) ++ leBytes 8 data.toNat ∧
    (packetBytes P (some g) data)[12]? = some (g.zeroExtend 8) ∧
    ∀ i, i < 56 → i ≠ 12 → (packetBytes P (some g) data)[i]? = some (tget 0 P.vlpkt (64 * g.toNat + i))) ∧
  (∀ (s : State) (p : Nat) (P : Part) (bs : List Byte),
    let ident := BitVec.ofNat 32 (fieldN bs 8 4)
    let guest := fieldN bs 12 1
    let va := BitVec.ofNat 64 (fieldN bs 0 8)
    let fresh := Launch.fresh ident p guest va
    let known := s.launches.any (fun e => e.2.part == p && e.2.ident == ident && e.2.open_)
    let w := (s.walked P (some guest) (va + 73) 2).walked P (some guest) (va + 88) 16
    let rejected (u : State) (byte : Nat) : State := (addLaunch u (fresh 0 [])).2.reject u.fresh 0 byte
    (known = true → ∀ Q, s.part? p = some Q → postPacket s p P bs =
      s.ringAdd Q Q.lrring (leBytes 4 ident.toNat ++ [2#8, 0#8] ++ leBytes 2 8 ++ leBytes 8 (2 ^ 64 - 1))) ∧
    (known = false → ∀ i, packetBad bs = some i → postPacket s p P bs = rejected s i) ∧
    (known = false → packetBad bs = none → readPosting w P guest va = none → postPacket s p P bs = rejected w 0) ∧
    (known = false → packetBad bs = none → ∀ h, readPosting w P guest va = some h →
      let n := fieldN h 1 1
      let preds := (List.range n).map (fun i => BitVec.ofNat 32 (fieldN h (2 + 4 * i) 4))
      let u := (addLaunch w (fresh (fieldN h 0 1) preds)).2
      (4 ≤ fieldN h 0 1 → postPacket s p P bs = rejected w 73) ∧
      (fieldN h 0 1 < 4 → 5 ≤ n → postPacket s p P bs = rejected w 74) ∧
      (fieldN h 0 1 < 4 → n < 5 → postPacket s p P bs = State.rejectFollowers u.launches.length u ∧
        ((∀ i m, u.launch? i = some m → m.phase = .posted → u.badPred m = none) → postPacket s p P bs = u) ∧
        u.launch? w.fresh = some { fresh (fieldN h 0 1) preds with order := w.fresh }))) ∧
  (∀ (s : State) (lid reason byte : Nat) (l : Launch) (P : Part), s.launch? lid = some l → s.part? l.part = some P →
    let t := s.modLaunch lid (fun l => { l with phase := .rejected })
    s.rejectOne lid reason byte = t.ringAdd P P.lrring
      (leBytes 4 l.ident.toNat ++ leBytes 1 2 ++ leBytes 1 reason ++ leBytes 2 byte ++ leBytes 8 (State.cWord l).toNat)) ∧
  (∀ (s : State) (lid : Nat) (l : Launch) (P : Part), s.launch? lid = some l → s.part? l.part = some P →
    mayStart s lid l = true →
    (l.phase = .posted → exec (.launchBroadcast lid) s =
      .next (mailAll (s.modLaunch lid (fun l => { l with phase := .broadcast })) P ⟨0, lid, l.hdrVa, 0⟩)) ∧
    (l.phase = .saved → exec (.launchBroadcast lid) s = .next (mailAll
      (s.modLaunch lid (fun x =>
        { x with phase := .restoring, queued := false, reports := [], part := l.part, image := l.image, cmdTick := s.tick }))
      P ⟨2, lid, l.image, 0⟩))) ∧
  (∀ (s : State) (P : Part) (m : MboxItem) (p : Nat), p ∈ s.dieList P →
    ((mailAll s P m).die p).mbox ++ ((mailAll s P m).die p).inbound = (s.die p).mbox ++ (s.die p).inbound ++ [m] ∧
    ((s.die p).mbox.length ≤ 16 → ((mailAll s P m).die p).mbox.length =
      min 16 ((s.die p).mbox.length + (s.die p).inbound.length + 1))) ∧
  (∀ (s : State) (die p lid : Nat) (q : Packet) (qs : List Packet) (P : Part) (l : Launch),
    (s.die die).launchq = q :: qs → s.partOfDie die = some p → packetLaunch s die p q = some lid → s.part? p = some P →
    s.launch? lid = some l →
    let guest := (q.word.extractLsb' 32 8).toNat
    let places (u : State) (bs : List Byte) : Prop :=
      let h : Hdr := ⟨bs⟩
      let count := h.rootCount (u.logDie P die) (u.dieCount P)
      (cpywOn u die = true → exec (.launchUnitPlace die) s = .next u) ∧
      (cpywOn u die = false → dieRoom u die h < count → exec (.launchUnitPlace die) s = .next (reportDie u die lid (some 44))) ∧
      (∀ t, cpywOn u die = false → count ≤ dieRoom u die h →
        placeRoots die lid { l with hdr := bs, hdrVa := q.hdr, guest := guest } (u.logDie P die) (u.dieCount P) (List.range count) u = some t →
        exec (.launchUnitPlace die) s = .next (reportDie t die lid none))
    (∀ bs, q.read = some bs → places s bs) ∧
    (q.read = none →
      (8 ≤ guest → exec (.launchUnitPlace die) s = .next (reportDie s die lid (some 12))) ∧
      (guest < 8 → q.word.extractLsb' 40 24 ≠ 0#24 → exec (.launchUnitPlace die) s = .next (reportDie s die lid (some 13))) ∧
      (guest < 8 → q.word.extractLsb' 40 24 = 0#24 → q.hdr.toNat % 128 ≠ 0 →
        exec (.launchUnitPlace die) s = .next (reportDie s die lid (some 0))) ∧
      (guest < 8 → q.word.extractLsb' 40 24 = 0#24 → q.hdr.toNat % 128 = 0 → canonical q.hdr = true →
        (s.readVa P (some guest) q.hdr 128 = none →
          exec (.launchUnitPlace die) s = .next (reportDie (unitWalks s P q) die lid (some 0))) ∧
        (∀ bs, s.readVa P (some guest) q.hdr 128 = some bs →
          let limit := firstField ((Hdr.mk bs).limits (entryRuns s P guest (Hdr.mk bs).entry))
          (∀ off, limit = some off → exec (.launchUnitPlace die) s = .next (reportDie (unitWalks s P q) die lid (some off))) ∧
          (limit = none → places (keepHeader (unitWalks s P q) die lid q bs) bs))))) ∧
  (∀ (s : State) (k lid bits ctx : Nat) (l : Launch), s.ctxFor k lid = some ctx → 900 ≤ s.fresh →
    let h := l.header
    let t := placeRoot s k lid l bits
    (∃ b, t.block? s.fresh = some b ∧ b.core = k ∧ b.launch = some lid ∧ b.ctx = ctx ∧ b.bytes = h.bytes ∧ b.spill = h.spill ∧
      b.groups = (List.range h.groups).map (fun i => s.fresh + 1 + i) ∧ b.mem = [] ∧ b.closed = 0) ∧
    (∀ i, i < h.groups → ∃ g, t.group? (s.fresh + 1 + i) = some g ∧ g.blk = s.fresh ∧ g.launch = some lid ∧ g.grp = i ∧
      g.gwid = BitVec.ofNat 64 (bits + h.groupBits h.groupFields i) ∧ g.va = h.vregs ∧ g.sa = h.sregs ∧ g.retired = false ∧
      g.r = Regs.start h.entry h.laneExtent 0 h.param (h.bytes + i * h.spill) h.vector false)) ∧
  (∀ (s : State) (lid : Nat) (l : Launch) (P : Part), s.launch? lid = some l → s.part? l.part = some P →
    l.phase = .broadcast → allReported s P l = true →
    ((∀ r ∈ l.reports, r.2 = none) → exec (.launchStart lid) s = .next ((s.modLaunch lid (fun l =>
      { l with phase := .stepping, sinceTick := s.tick, startTick := s.tick, since := [] })).record lid 0 0xFF 0xFFFF)) ∧
    (∀ p byte, (p, some byte) ∈ l.reports → (∀ q b, (q, some b) ∈ l.reports → byte ≤ b) → exec (.launchStart lid) s =
      .next (((s.blocksOf lid).foldl (fun s b => s.dropBlock b) s).reject lid 0 byte))) ∧
  (∀ (s : State) (lid : Nat) (l : Launch), s.launch? lid = some l → l.phase = .stepping → allDone s lid l = true →
    exec (.launchComplete lid) s = .next ((((s.blocksOf lid).foldl (fun s b => s.dropBlock b) s).modLaunch lid
      (fun l => { l with phase := .completed })).record lid 1 0xFF 0xFFFF))

/-- R62, R72 to R75, R77, R98, R222 and R239: the events from a write’s hold to the visibility of its commit. -/
def Obligations.Commits : Prop :=
  (∀ (s : State) (lid id c : Nat) (l : Launch) (w : GWrite), s.launch? lid = some l →
    l.gw.find? (fun w => w.id == id) = some w → w.stage = .held c → c + 128 ≤ s.cycle (coreDie w.core) →
    (∀ v ∈ l.gw, v.id = id → v = w) →
    exec (.writeHoldExpiry (.write lid id)) s =
      .next (s.modLaunch lid (fun l => { l with gw := l.gw.map (fun v => if v.id = id then { v with stage := .flight } else v) }))) ∧
  (∀ (s : State) (gid k c : Nat) (more rest : List (Nat × Nat)) (g : Group), s.group? gid = some g →
    g.heldX = (k, c) :: (more ++ rest) → (∀ x ∈ more, x.2 = c) → (∀ x ∈ rest.head?, x.2 ≠ c) →
    c + 128 ≤ s.cycle (coreDie (s.blockOf g).core) →
    exec (.writeHoldExpiry (.crossing gid)) s =
      .next (s.setGroup gid { g with heldX := rest, reported := (more.getLast?.getD (k, c)).1 + 1 })) ∧
  (∀ (s : State) (lid id : Nat) (l : Launch), s.launch? lid = some l → (∀ v ∈ l.gw, v.id = id → v.stage = .flight) →
    exec (.writeArrival lid id) s =
      .next (s.modLaunch lid (fun l => { l with gw := l.gw.map (fun v => if v.id = id then { v with stage := .parked } else v) }))) ∧
  (∀ (s : State) (lid : Nat) (l : Launch), s.launch? lid = some l → mayCommit s lid l = true →
    let due (m : Move) : Move := if (m.phase = .copied ∨ m.phase = .stopped) ∧ m.due = none then { m with due := some l.c } else m
    exec (.commitDeclare lid) s = .next (s.modLaunch lid (fun x =>
      { x with
        c := l.c + 1
        gw := x.gw.filter (fun w => w.step != l.c)
        applying := x.applying ++ (l.gw.filter (fun w => w.step == l.c)).map (fun w => { w with cycle := s.tick })
        moves := x.moves.map due
        dueLogs := x.dueLogs ++ x.logs.map (fun r => (l.c, r))
        logs := []
        declared := tset x.declared l.c s.tick
        since := []
        sinceTick := s.tick
        mustCommit := false }))) ∧
  (∀ (s : State) (lid : Nat) (l : Launch), mayCommit s lid l = true →
    (∀ e ∈ s.groups, e.2.launch = some lid → counted e.2 = true → l.c < e.2.reported) ∧
    (∀ w ∈ l.gw, w.step = l.c → w.stage = .parked) ∧ readsArrived s lid l.c = true ∧
    (∀ e ∈ s.ops, ∀ g, s.group? e.2.gid = some g → g.launch = some lid → e.2.gstep = l.c → opHolds e.2 = false) ∧
    (∀ i ∈ l.items, i.step = l.c → i.arrived = true)) ∧
  (∀ (s : State) (lid j word order : Nat) (l : Launch), s.launch? lid = some l → lowestStep s lid l = some j →
    let open_ (w : GWrite) : Bool := w.step == j && w.stage != .applied
    let ws := (l.applying.filter open_).map (fun w => w.w)
    let u := unitAt (wideKeys ws) (word / 4 * 4)
    let mine (w : GWrite) : Bool := w.step == j && w.stage != .applied && unitAt (wideKeys ws) w.w.key == u
    (∀ w ∈ l.applying, j ≤ w.step) ∧ (∀ b ∈ l.btst, b.step < l.c → j ≤ b.step) ∧ (∀ d ∈ l.dueLogs, j ≤ d.1) ∧
    (l.applying.filter mine ≠ [] → (∀ w ∈ l.applying.filter mine, w.cycle + 128 ≤ s.tick) →
      exec (.commitApply lid word order) s = .next ((applyUnit s lid j u (inUnit ws u) order).modLaunch lid
        (fun l => { l with applying := l.applying.map (fun w => if mine w then { w with stage := .applied } else w) }))) ∧
    (l.applying.any open_ = false → tget 0 l.declared j + 128 ≤ s.tick →
      exec (.commitApply lid word order) s =
        .next ((applyHost (applyLogs (applyMoves (applyBtst s lid j l order) lid j l) lid j l) lid j).modLaunch lid (fun l =>
          { l with applying := l.applying.filter (fun w => decide (j < w.step)), hits := [],
                   declared := l.declared.filter (fun e => decide (j < e.1)) })))) ∧
  (∀ (s : State) (lid j order : Nat) (l : Launch), (∀ b ∈ l.btst, b.step ≠ j) → (∀ d ∈ l.dueLogs, d.1 ≠ j) →
    (∀ m ∈ l.moves, m.due ≠ some j ∧ (m.phase = .issued → m.step ≠ j)) → s.launch? lid = some l →
    let t := applyLogs (applyMoves (applyBtst s lid j l order) lid j l) lid j l
    t.mem = s.mem ∧ t.poison = s.poison ∧ t.groups = s.groups ∧ t.dies = s.dies ∧ t.hostw = s.hostw) ∧
  (∀ (s : State) (h : HostW),
    let t := landHost s h
    (∀ i, i < h.data.length → rd8 t.mem (h.key + i) = h.data[i]?.getD 0) ∧
    (∀ k, k < h.key ∨ h.key + h.data.length ≤ k → rd8 t.mem k = rd8 s.mem k) ∧ t.hostw = s.hostw.erase h) ∧
  (∀ (s : State) (lid j : Nat), applyHost s lid j =
    (s.hostw.filter (fun h => h.maps.any (fun m => m.1 == lid && decide (m.2 ≤ j)))).foldl landHost s) ∧
  (∀ (s : State) (lid word order : Nat) (l : Launch) (h : HostW) (hs : List HostW), s.launch? lid = some l →
    lowestStep s lid l = none → s.hostw = h :: hs → (∀ m ∈ h.maps, ∀ x, s.launch? m.1 = some x → x.holds = false) →
    exec (.commitApply lid word order) s = .next (landHost s h)) ∧
  (∀ (s : State) (lid : Nat) (place : Place) (l : Launch), s.launch? lid = some l → tget 0 l.seen (placeNo place) < l.c →
    let j := tget 0 l.seen (placeNo place)
    let t := s.modLaunch lid (fun l => { l with seen := tset l.seen (placeNo place) (j + 1) })
    ((∀ p, place ≠ .die p) → exec (.commitVisible lid place) s = .next t) ∧
    (∀ p, place = .die p →
      let mine (i : Item) : Bool := i.die == p && i.step == j
      let protos := (packItems (sortItems (l.items.filter mine))).map (fun g =>
        { launch := lid, entry := (g.head?.map (fun i => i.entry)).getD 0, step := j + 1, args := g.map (fun i => i.arg),
          parents := g.map (fun i => i.parent), notices := [] : Proto })
      exec (.commitVisible lid place) s = .next (packDie t p lid j) ∧
      ((packDie t p lid j).die p).protos = (s.die p).protos ++ protos)) ∧
  (∀ is : List Item, (packItems is).flatten = is ∧
    ∀ g ∈ packItems is, g ≠ [] ∧ g.length ≤ 32 ∧ ∀ a ∈ g, ∀ b ∈ g, a.entry = b.entry)

/-- R61, R63, R64, R69, R70, R78, R118 and R314: local closes, overruns, tier copies and coach houses. -/
def Obligations.LocalCloses : Prop :=
  (∀ (s : State) (bid order : Nat) (b : Block), s.block? bid = some b → mayClose s b = true →
    let j := b.closed
    let retires (e : Entry) : Bool := (e.ret.map (fun r => decide (r ≤ j))).getD false
    let gone := b.entries.filter retires
    let ls := opLayers (sortBy (fun (e : Entry) => e.seq) gone) []
    let due := (b.pend.filter (lands b j)).map (fun w => (w, layerOf ls w))
    let c := closeLayers j order (BitVec.ofNat 16 (s.logDie (s.partAt b.core) (coreDie b.core))) (BitVec.ofNat 16 (coreIdx b.core)) b due s.free
    let closed : Block :=
      { b with
        mem := c.mem
        poison := c.poison
        closed := j + 1
        pend := b.pend.filter (fun w => !lands b j w)
        entries := b.entries.filter (fun e => !gone.contains e)
        windows := b.windows.filter (fun w => !gone.any (fun e => e.op == w.op))
        crossT := b.crossT.filter (fun e => decide (j < e.1))
        moving := b.moving || ((s.core b.core).retiring && !b.moved) }
    exec (.localClose bid order) s = .next ((c.hits.foldl (localCollision b.launch)
      (moveDispatcher (({ s with free := c.free }.setBlock bid closed).settle bid gone) b.core)).tryFree bid)) ∧
  (∀ (s : State) (b : Block), mayClose s b = true →
    b.moving = false ∧ (∀ e ∈ s.groupsIn b, e.2.retired = true ∨ b.closed < e.2.r.lstep) ∧
    ∀ t, tfind b.crossT b.closed = some t → t + 128 ≤ s.cycle (coreDie b.core)) ∧
  (∀ (j order free : Nat) (die core : BitVec 16) (b : Block) (w : LWrite) (n : Nat),
    let u := unitAt (wideKeys [w.w]) (w.w.key / 4 * 4)
    let r := resolve (unitOld b.mem u) (inUnit [w.w] u) (order + Config.freeNat free) (free + 1)
    unitsOf [w.w] = [u] → r.hit = false →
    let c := closeLayers j order die core b [(w, n)] free
    c.mem = unitPut b.mem u r.val ∧ c.hits = [] ∧
      ∀ k, k < u.1 ∨ u.1 + unitBytes u ≤ k → rd8 c.mem k = rd8 b.mem k) ∧
  (∀ (s : State) (lid : Nat) (l : Launch), s.launch? lid = some l → l.phase = .stepping →
    let k := l.c
    let behind (d : Die) : Bool := d.protos.any (fun q => q.launch == lid && q.step == k)
    let late := overrunGroups s lid l k (s.dies.any (fun e => behind e.2))
    let waiting := ((s.dies.filter (fun e => behind e.2 && expired s l e.1)).map (fun e => e.1))
    (late ≠ [] ∨ waiting ≠ []) → ∃ t, exec (.stepOverrun lid) s = .next t ∧ t.mem = s.mem ∧ t.blocks = s.blocks ∧
      (∀ gid g, s.group? gid = some g → gid ∉ late → t.group? gid = some g) ∧
      (∀ gid g, s.group? gid = some g → gid ∈ late → late.Nodup →
        t.group? gid = some { g with notices := addOverrun k g.notices }) ∧
      (∃ m, t.launch? lid = some m ∧ m.mustCommit = false ∧ m.c = l.c ∧ ∀ p ∈ waiting, (p, s.cycle p) ∈ m.since)) ∧
  (∀ (s : State) (lid k : Nat) (l : Launch) (coach : Bool) (gid : Nat), gid ∈ overrunGroups s lid l k coach ↔
    ∃ g, (gid, g) ∈ s.groups ∧ g.launch = some lid ∧ counted g = true ∧ (coach = true ∨ g.r.gstep ≤ k) ∧
      expired s l (coreDie (s.blockOf g).core) = true) ∧
  (∀ (s t : State) (op lid n : Nat) (l : Launch) (m : Move),
    firstSome (fun (e : Nat × Launch) =>
      (e.2.moves.find? (fun m => m.op == op && m.phase == .copying)).map (fun m => (e.1, e.2, m))) s.launches = some (lid, l, m) →
    freeEngines s (coreDie m.core) ≠ [] →
    (runCopy s l m = (t, n, none) →
      exec (.tierCopyComplete op) s = .next (putMove t lid { m with phase := .copied, whole := true, redo := [] })) ∧
    (∀ c a i, runCopy s l m = (t, n, some (.stop (c, a, i))) → exec (.tierCopyComplete op) s =
      .next (tellGroup (putMove t lid { m with phase := .stopped }) m.grp c m.step a n i)) ∧
    (∀ a w, runCopy s l m = (t, n, some (.freeze a w)) → exec (.tierCopyComplete op) s =
      .next (freezeEngine (putMove t lid { m with phase := .frozen a w n }) (coreDie m.core) m.op true (.move m.op) a))) ∧
  (∀ (s s1 s2 : State) (l : Launch) (m : Move) (now : Bool) (src dst : Word) (a b : Nat),
    copyKey s l m src false = (.ok a, s1) → copyKey s1 l m dst true = (.ok b, s2) →
    (m.demote = true → 2 * 2 ^ 64 ≤ b ∧ b < 3 * 2 ^ 64) → (m.demote = false → b < 2 * 2 ^ 64) → s2.poisoned a 4 = false →
    (copyWord l m now s src dst).1 = .ok () ∧
    (copyWord l m now s src dst).2.mem = wrN s2.mem b 4 (if now then rdN s2.mem a 4 else asOf l s2.mem m.step a 4)) ∧
  (∀ (s : State) (lid id : Nat), exec (.spawnItemArrival lid id) s = .next (s.modLaunch lid (fun l =>
    { l with items := l.items.map (fun i => if i.id = id then { i with arrived := true } else i) }))) ∧
  (∀ (s : State) (die k : Nat) (q : Proto) (l : Launch), placeable s die [] (s.die die).protos = some (q, k, l) →
    exec (.groupPlace die) s =
      .next (placeChild (s.modDie die (fun d => { d with protos := d.protos.erase q })) k q.launch l q)) ∧
  (∀ (s : State) (die : Nat) (q : Proto) (qs : List Proto) (k : Nat) (l : Launch), s.launch? q.launch = some l →
    l.phase = .stepping → s.coreFor die (l.header.childNeed q.launch) = some k →
    placeable s die [] (q :: qs) = some (q, k, l)) ∧
  (∀ (s : State) (k lid ctx : Nat) (l : Launch) (q : Proto), s.launch? lid = some l → s.ctxFor k lid = some ctx →
    let h := l.header
    let t := placeChild s k lid l q
    ∃ b g, t.block? s.fresh = some b ∧ b.core = k ∧ b.launch = some lid ∧ b.groups = [s.fresh + 1] ∧ b.bytes = h.bytes ∧
      t.group? (s.fresh + 1) = some g ∧ g.blk = s.fresh ∧ g.launch = some lid ∧ g.notices = q.notices ∧
      g.gwid = h.child + BitVec.ofNat 64 (32 * l.children) ∧ g.va = h.vregs ∧ g.sa = h.sregs ∧
      g.r = Regs.start q.entry q.args.length q.step h.param h.bytes h.vector false)

/-- R46, R47, R49 to R52, R230 and R232: RUN_GRANT and DEFERRED_TRAP_TAKE. -/
def Obligations.Grants : Prop :=
  (∀ (s : State) (k slot gid : Nat) (g : Group) (i : GrantInfo), granted s k slot = some (gid, g, i) →
    slot < 2 ∧ (slotOf (s.core k) slot).group = none ∧ (slotOf (s.core k) slot).free ≤ s.cycle (coreDie k) ∧
    calendarCtx s k slot = some (s.blockOf g).ctx ∧ s.group? gid = some g ∧ g.retired = false ∧ g.run = none ∧ g.tlbi = none ∧
    State.takeable g = [] ∧ running s g = true ∧ (s.blockOf g).moving = false ∧ nextRun s g = some i) ∧
  (∀ (s : State) (g : Group) (i : GrantInfo), nextRun s g = some i → (i.skip = true ↔ g.r.head = true ∧ i.rg = 0)) ∧
  (∀ (s : State) (slot gid : Nat) (g : Group) (i : GrantInfo), s.group? gid = some g → slot < 2 →
    granted s (s.blockOf g).core slot = some (gid, g, i) → i.skip = false →
    let k := (s.blockOf g).core
    ∃ t r, exec (.runGrant gid slot) s = .next t ∧ t.group? gid = some { g with run := some r } ∧ r.slot = slot ∧ r.count = 0 ∧
      r.xs = g.r.x ∧ r.rg = i.rg ∧ r.reserved = i.reserved ∧ r.matrix = i.matrix ∧ r.pass = i.pass ∧
      (slotOf (t.core k) slot).group = some gid ∧ tfind (t.core k).rr (s.blockOf g).ctx = some gid ∧ t.mem = s.mem ∧
      (∀ u, s.guestOf g = some u → tget 0 (t.core k).counters (8192 * u + 0x084) = tget 0 (s.core k).counters (8192 * u + 0x084) + 1) ∧
      ∀ h, h ≠ gid → t.group? h = s.group? h) ∧
  (∀ (s : State) (slot gid : Nat) (g : Group) (i : GrantInfo), s.group? gid = some g →
    granted s (s.blockOf g).core slot = some (gid, g, i) → i.skip = true →
    let k := (s.blockOf g).core
    let mine := (rrOrder s k (s.blockOf g).ctx).map (fun e => e.1)
    let t := (s.modCore k (fun c =>
      { c with rr := tset c.rr (s.blockOf g).ctx gid, yields := c.yields.filter (fun y => !mine.contains y) })).count k (s.guestOf g) 0x085 1
    let at_ (n : Nat) : Word := g.r.pc + BitVec.ofNat 64 (12 * n)
    (∀ w, i.words.getLast? = some w → (split w).c.b = true → skipFlaw g i.words = none →
      exec (.runGrant gid slot) s = .next (State.endRun ((t.modCore k (fun q => setSlot q slot
          { slotOf q slot with
            free := s.cycle (coreDie k) + (i.words.length + 3) / 4, skip := true, act := 0, rg := 0, live := g.r.live, last := some gid,
            pc := g.r.pc })).setGroup gid { g with r := { g.r with pc := at_ i.words.length, replay := none } }) gid (split w).c .seq)) ∧
    (∀ f n, skipFlaw g i.words = some (f, n) →
      exec (.runGrant gid slot) s = .next (t.enterTrap gid g f (at_ n) (n == 0))) ∧
    (i.words.length = 24 → (∀ w ∈ i.words.getLast?, (split w).c.b = false) → skipFlaw g i.words = none →
      exec (.runGrant gid slot) s = .next (t.enterTrap gid g { cause := 0x04 } (at_ 24) false))) ∧
  (∀ (s : State) (gid : Nat) (g : Group) (n : Notice), s.group? gid = some g → running s g = true → (s.blockOf g).moving = false →
    g.tlbi = none → State.firstNotice (BitVec.ofNat 64 g.r.gstep) (State.takeable g) = some n →
    let t := s.enterTrap gid { g with notices := g.notices.erase n, taken := (s.seq, n) :: g.taken }
      { cause := n.cause, addr := n.addr, step := n.step, prog := n.prog, info := n.info, deferred := n.kind == .deferred, mop := n.mop }
      g.r.pc g.run.isNone
    (n.kind ≠ .deferred → exec (.deferredTrapTake gid) s = .next t) ∧
    (∀ h, n.kind = .deferred → t.group? gid = some h → (h.r.sys = true → (nextRun t h).isSome = true) →
      exec (.deferredTrapTake gid) s = .next t))

/-- R48, R76, R79 to R81, R99, R200, R203, R218 and R351: READ_SERVE, LOAD_FILL, PAGE_WALK and WEIGHT_REFRESH_END. -/
def Obligations.ReadsServed : Prop :=
  (∀ (s : State) (load lane back : Nat) (op : LoadOp) (r : LaneRead) (g : Group), tfind s.loads load = some op →
    op.reads.find? (fun r => r.lane == lane && r.val.isNone) = some r → s.group? op.gid = some g → op.src = .glob → back ≤ op.lag →
    let n := op.size.bytes
    let served (v : Nat) : State := State.rebuilds { s with loads := tset s.loads load { op with reads := op.reads.map (fun q =>
      if q.lane = lane ∧ q.val.isNone then { q with val := some (BitVec.ofNat 64 v) } else q) } } [r.key]
    (∀ lid l, g.launch = some lid → s.launch? lid = some l → externalKey r.key = false → r.kind ≠ .stb →
      let j := if r.kind = .lag then op.tag - back else op.tag
      j ≤ l.c → l.outstanding j r.key n = false → hostDue s lid l r.key n = false →
      exec (.readServe load lane back) s = .next (served (asOf l s.mem j r.key n))) ∧
    ((g.launch = none ∨ externalKey r.key = true ∨ r.kind = .stb) →
      exec (.readServe load lane back) s = .next (served (rdN s.mem r.key n)))) ∧
  (∀ (s : State) (load lane back : Nat) (op : LoadOp) (r : LaneRead) (g : Group), tfind s.loads load = some op →
    op.reads.find? (fun r => r.lane == lane && r.val.isNone) = some r → s.group? op.gid = some g → op.src = .weight →
    refreshing s (coreDie (s.blockOf g).core) (r.key % 2 ^ 29) = false → cpywAhead s g.blk op.seq = false →
    exec (.readServe load lane back) s = .next (State.rebuilds { s with loads := tset s.loads load { op with reads := op.reads.map (fun q =>
      if q.lane = lane ∧ q.val.isNone then { q with val := some (BitVec.ofNat 64 (rdN s.mem r.key op.size.bytes)) } else q) } } [r.key])) ∧
  (∀ (l : Launch) (j key n : Nat), l.btst = [] → l.dueLogs = [] → l.moves = [] →
    (∀ w ∈ l.applying, w.step < j → w.stage ≠ .applied → w.w.key + (if w.w.wide then 8 else 4) ≤ key ∨ key + n ≤ w.w.key) →
    l.outstanding j key n = false) ∧
  (∀ (s : State) (key w : Nat),
    (s.lost = [] → s.rebuilds [key] = s) ∧
    (wayOfKey key = some w → w ∈ s.lost → isCold key = false → s.rebuilds [key] =
      (s.bboxAdd w ⟨BitVec.ofNat 64 (physAddr key), BitVec.ofNat 32 w, 0xFFFF, 0x03, 1⟩).report .correctable w)) ∧
  (∀ (s : State) (load : Nat) (op : LoadOp), tfind s.loads load = some op → (∀ r ∈ op.reads, r.val.isSome = true) →
    exec (.loadFill load) s = .next { fillLoad s op with loads := tdel (fillLoad s op).loads load }) ∧
  (∀ (s : State) (op : LoadOp) (g : Group) (a : Nat), s.group? op.gid = some g → g.r.frame = none → op.dst = .vec a none →
    (op.reads.map (fun r => r.lane)).Nodup → (∀ r ∈ op.reads, r.lane < 32) →
    let live (r : LaneRead) : Bool := bitOf (g.r.live ||| g.r.lfm) r.lane
    ∃ h, (fillLoad s op).group? op.gid = some h ∧ h.r.ve = g.r.ve.filter (fun n => n != a) ∧
      (∀ r ∈ op.reads, live r = true → tget 0 h.r.v (32 * a + r.lane) = (r.val.getD 0).extractLsb' 0 32) ∧
      (∀ n, (∀ r ∈ op.reads, live r = true → n ≠ 32 * a + r.lane) → tget 0 h.r.v n = tget 0 g.r.v n) ∧
      h.r.s = g.r.s ∧ h.r.se = g.r.se ∧ h.r.p = g.r.p ∧ (fillLoad s op).mem = s.mem) ∧
  (∀ (s : State) (op : LoadOp) (g : Group) (a : Nat) (r : LaneRead), s.group? op.gid = some g → g.r.frame = none →
    op.dst = .sca a → op.reads = [r] →
    ∃ h, (fillLoad s op).group? op.gid = some h ∧ h.r.se = g.r.se.filter (fun n => n != (a + r.lane) % g.sa) ∧
      tget 0 h.r.s ((a + r.lane) % g.sa) = r.val.getD 0 ∧
      (∀ n, n ≠ (a + r.lane) % g.sa → tget 0 h.r.s n = tget 0 g.r.s n) ∧ h.r.v = g.r.v ∧ h.r.ve = g.r.ve ∧ h.r.p = g.r.p) ∧
  (∀ (s : State) (core : Nat) (gctx : Option (BitVec 3)) (va : BitVec 64), canonical va = true → core < 900 * 512 →
    let p := coreDie core
    let found := lookup s.mem (s.partAt core) (s.core core).tlb (s.die p).tlb (s.die p).nested (gctx.map (fun g => g.toNat)) (pageOf va)
    ∃ t, exec (.pageWalk core gctx va) s = .next t ∧
      (s.lost = [] → (∀ f, found = .error f → t = { s with mem := setA s.mem f.trail.touch }) ∧
        (∀ x, found = .ok x → t.mem = setA s.mem x.trail.touch ∧
          (x.res = true → (s.core core).gated = false → (t.core core).tlb = tlbFill 64 (s.core core).tlb x.e) ∧
          (x.res = true → (t.die p).tlb = tlbFill 4096 (s.die p).tlb x.e) ∧
          (x.res = false → t.cores = s.cores ∧ t.dies = s.dies)))) ∧
  (∀ (s : State) (die bank : Nat),
    exec (.weightRefreshEnd die bank) s = .next { s with loads := s.loads.map (serveBank s die bank) })

/-- R96, R114, R117, R123 to R126, R128, R130, R132, R136, R313, R318 and R323: ASYNC_COMPLETE, LANDING_ARRIVAL and FERRY_SEND. -/
def Obligations.OperationsComplete : Prop :=
  (∀ (s : State) (o : Nat) (op : AsyncOp) (r : Ran), tfind s.ops o = some op → mayRun s o op = true →
    (∀ dir rule kind, op.kind = .cpy dir rule kind → dirIsFerry dir = false →
      let rows := copyMoves (shapeOf op.pb) (dirSrc dir) (dirDst dir)
      r = runRows op rule kind false rows ⟨s, [], 0, none⟩ → (r.halt = none ∨ ∃ t, r.halt = some (.stop t)) →
      exec (.asyncComplete o) s = .next (endRows r o op (dirDstGlob dir) (rows.map List.length).sum)) ∧
    (∀ side rule kind, op.kind = .gth side rule kind →
      let rows := gatherMoves op side (gshapeOf op.pb)
      r = runRows op rule kind false rows ⟨s, [], 0, none⟩ → (r.halt = none ∨ ∃ t, r.halt = some (.stop t)) →
      exec (.asyncComplete o) s = .next (endRows r o op false (rows.map List.length).sum)) ∧
    (∀ side rule, op.kind = .sct side rule →
      let rows := scatterMoves op side (gshapeOf op.pb)
      r = runRows op rule .now false rows ⟨s, [], 0, none⟩ → (r.halt = none ∨ ∃ t, r.halt = some (.stop t)) →
      exec (.asyncComplete o) s = .next (endRows r o op (side == .g) (rows.map List.length).sum)) ∧
    (∀ glob, op.kind = .cpyw glob →
      r = runRows op .lo .now true (copyMoves (shapeOf op.pb) (if glob then globAt else .loc) .weight) ⟨s, [], 0, none⟩ →
      (r.halt = none ∨ ∃ t, r.halt = some (.stop t)) →
      (∀ e ∈ s.ops, e.2.gid = op.gid → isCpyw e.2.kind = true → op.seq ≤ e.2.seq) →
      exec (.asyncComplete o) s = .next (endRows { r with
        s := { r.s with
          mem := r.ws.foldl (fun m w => wrN m w.key 4 w.val.toNat) r.s.mem
          poison := r.s.poison.filter (fun k => !r.ws.any (fun w => w.key == k)) }
        ws := [] } o op false 0)) ∧
    (∀ dir rule kind g l, op.kind = .cpy dir rule kind → dirIsFerry dir = true → s.group? op.gid = some g → g.launch = some l →
      let q := shapeOf op.pb
      (∀ k < q.rows, firstPoison op.bad (q.src + k * q.sstride) q.rowBytes = none) →
      exec (.asyncComplete o) s = .next (completeOp ({ s with fresh := s.fresh + q.rows }.modLaunch l (fun x =>
        { x with ferry := x.ferry ++ (List.range q.rows).map (fun k =>
          ({ id := s.fresh + k, link := q.dst / 2 ^ 48, off := q.dst % 2 ^ 48 + k * q.dstride, step := op.gstep,
             data := rdL op.snap (q.src + k * q.sstride) q.rowBytes, grp := op.gid, seq := op.seq } : Ferry)) })) o op.blk [])) ∧
    (∀ demote g l, op.kind = .move demote → s.group? op.gid = some g → g.launch = some l →
      exec (.asyncComplete o) s = .next (completeOp (s.modLaunch l (fun x => { x with moves := x.moves ++
        [{ op := o, grp := op.gid, step := op.gstep, wid := op.wid, seq := op.seq, core := op.core, sys := op.sys,
           dir := BitVec.ofNat 64 (fieldN op.pb 0 8), dest := BitVec.ofNat 64 (fieldN op.pb 8 8), demote := demote,
           phase := .issued, tier := 0, due := none, whole := false, redo := [] }] })) o op.blk [])) ∧
    (∀ b w, op.kind = .land → s.block? op.blk = some b → b.windows.find? (fun w => w.op == o) = some w →
      exec (.asyncComplete o) s = .next (takeArrival s op.blk w)) ∧
    (∀ rule bs t, op.kind = .btst rule → readWords s op .now 8 (BitVec.ofNat 64 (tshapeOf op.pb).view) = (.ok bs, t) →
      viewOk bs none = true → (viewOf bs).rowBytes = (tshapeOf op.pb).rowBytes →
      let rows := btstRows op rule (tshapeOf op.pb) (viewOf bs)
      rows.2 = none → ∀ g l, t.group? op.gid = some g → g.launch = some l →
      exec (.asyncComplete o) s = .next (completeOp (t.modLaunch l (fun x => { x with btst := x.btst ++ rows.1 })) o op.blk [])) ∧
    (∀ dir rule kind recv, op.kind = .cpym dir rule kind recv → op.args = [1, 0, 0, 0] → (op.prog = 0 ∨ ∀ x ∈ recv, x ∈ op.accepted) →
      exec (.asyncComplete o) s = .next (completeOp s o op.blk []))) ∧
  (∀ (s : State) (o blk : Nat) (b : Block) (ws : List Write), s.block? blk = some b →
    let t := completeOp s o blk ws
    tfind t.ops o = none ∧ (∀ q, q ≠ o → tfind t.ops q = tfind s.ops q) ∧ t.mem = s.mem ∧ t.groups = s.groups ∧ t.launches = s.launches ∧
    ∃ c, t.block? blk = some c ∧ c.mem = b.mem ∧
      c.entries = b.entries.map (fun e => if e.op = o then { e with ret := some (retireStep b e) } else e) ∧
      c.pend = b.pend ++ ws.map (fun w =>
        { w := w, by_ := [o], ofOp := true, step := ((b.entries.find? (fun e => e.op == o)).map (retireStep b)).getD b.closed })) ∧
  (∀ (b : Block) (e : Entry), max e.step b.closed ≤ retireStep b e ∧
    (∀ f ∈ mustFollow b e.op, ∀ k, f.ret = some k → k ≤ retireStep b e) ∧
    (mustFollow b e.op = [] → retireStep b e = max e.step b.closed)) ∧
  (∀ (r : Ran) (o n : Nat) (op : AsyncOp) (g : Group) (l : Nat), r.halt = none → r.s.group? op.gid = some g → g.launch = some l →
    let s : State := { r.s with free := r.s.free + n + 1 }
    let now := s.cycle (coreDie op.core)
    endRows r o op false n = completeOp s o op.blk r.ws ∧
    endRows r o op true n = completeOp ({ s with fresh := s.fresh + r.ws.length }.modLaunch l (fun x =>
      { x with gw := x.gw ++ r.ws.zipIdx.map (fun (e : Write × Nat) =>
          ({ id := s.fresh + e.2, w := e.1, step := op.gstep, core := op.core, cycle := now, stage := .held now } : GWrite)) })) o op.blk []) ∧
  (∀ (s : State) (o : Nat) (op : AsyncOp) (q : LateBlock), tfind s.ops o = some op → op.late = some q → op.st = .running →
    op.deps = [] → ofQueue op.kind = false → exec (.asyncComplete o) s = .next (latch s o op q)) ∧
  (∀ (s t : State) (o recv : Nat) (op : AsyncOp) (dir : Dir) (rule : WRule) (kind : Kind) (rs : List Nat), tfind s.ops o = some op →
    mayRun s o op = true → op.kind = .cpym dir rule kind rs → recv ∈ rs → recv ∉ op.accepted → op.args ≠ [] → op.prog ≠ 0 →
    arrive s (coreKey (coreDie op.core) recv) (arrivalOf s op rule) = some t →
    exec (.landingArrival o recv) s = .next (({ t with ops := tmod t.ops o (fun o => { o with accepted := o.accepted ++ [recv] }) }
      : State).modGroup op.gid (noteSent op recv))) ∧
  (∀ (s : State) (k : Nat) (a : Arrival), (∀ e ∈ s.blocksOn k, ∀ w ∈ e.2.windows, w.win = a.win → w.filled ≠ none) →
    (((s.core k).landing.map (fun b => b.data.length)).sum + a.data.length ≤ Config.landingBytes →
      arrive s k a = some (s.modCore k (fun c => { c with landing := c.landing ++ [a] }))) ∧
    (Config.landingBytes < ((s.core k).landing.map (fun b => b.data.length)).sum + a.data.length → arrive s k a = none)) ∧
  (∀ (s : State) (k bid : Nat) (b : Block) (w : Window) (a : Arrival), s.blocksOn k = [(bid, b)] → s.block? bid = some b →
    b.windows.find? (fun w => w.win == a.win && w.filled.isNone) = some w → inOrder b w.op = true →
    (∀ x ∈ (s.core k).landing, x.win ≠ a.win) → arrive s k a = some (fillWindow s bid w a)) ∧
  (∀ (s : State) (lid id : Nat) (l : Launch) (f : Ferry), s.launch? lid = some l → l.ferry.find? (fun f => f.id == id) = some f →
    f.step < l.c → exec (.ferrySend lid id) s = .next
      { s.modLaunch lid (fun x => { x with ferry := x.ferry.filter (fun q => q.id != id) }) with sent := s.sent ++ [⟨f.link, f.off, f.data⟩] })

/-- R169 to R172, R183, R189, R192 and R194: MATRIX_KSTEP and the integer accumulators. -/
def Obligations.MatrixSteps : Prop :=
  (∀ (s : State) (core o : Nat) (op : AsyncOp) (g : Group), frontOf s [] (s.core core).queue = some (o, op) →
    s.group? op.gid = some g → queueReady s o op = true →
    let t := s.modCore core (fun c => { c with stalled := none })
    let done (u : State) : Prop := exec (.matrixKstep core) s = .next (patchShadows u op)
    (∀ flt tile, op.kind = .mzero flt tile → done (leaveQueue (clearTile t op g flt tile) o op [])) ∧
    (∀ flt tile, op.kind = .mlda flt tile → done (loadStep t o op g flt tile)) ∧
    (∀ clr flt rnd tile, op.kind = .mdrn clr flt rnd tile → done (drainStep t o op g clr flt rnd tile)) ∧
    (∀ tab, op.kind = .ctld tab → done (tableStep t o op tab)) ∧
    (∀ kind tile q, (op.kind = .mma kind tile ∨ ∃ qs, op.kind = .mmq kind tile qs) → op.late = some q →
      done (latchBlock t o op g tile q)) ∧
    (∀ kind tile, (op.kind = .mma kind tile ∨ ∃ qs, op.kind = .mmq kind tile qs) → op.late = none → op.prog < kOf op →
      draining t (t.core op.core).queue = none →
      let fetched := fetchSlices kind (fblockOf op.pb) (kOf op) op.prog (partsOf op) t op
      (∀ xs u op1 v, fetched = (.ok xs, u, op1) → applyKstep u o op1 g tile xs = (.none, v) → done v) ∧
      (∀ xs u op1, fetched = (.ok xs, u, op1) → (applyKstep u o op1 g tile xs).1 = .full → (fblockOf op.pb).trap = true →
        done (stopMatrix (putOp u o op1) o op1 tile 0x30 0 0 0)) ∧
      (∀ cause addr sub opnd u op1, fetched = (.error (.stop cause addr sub, opnd), u, op1) →
        done (stopMatrix u o op1 tile cause addr opnd sub)))) ∧
  (∀ (u : State) (o : Nat) (op : AsyncOp) (g : Group) (tile : Nat) (xs : List (Part4 × Slice)), (fblockOf op.pb).float = false →
    let c := u.core op.core
    let ts := intTerms (op.tables.getD c.ctab) (fblockOf op.pb) xs
    (freeEntries c < newEntries c (planeOf g tile) ts → applyKstep u o op g tile xs = (.full, u)) ∧
    (newEntries c (planeOf g tile) ts ≤ freeEntries c →
      let r := ts.foldl (addTerm (planeOf g tile)) (c, false)
      let v := { u with free := u.free + 4096 }.setCore op.core r.1
      applyKstep u o op g tile xs = (.none, advance (if r.2 then setWov v op.gid [tile] true else v) o op (kOf op) []))) ∧
  (∀ (x : BitVec 20) (p : Int), -2 ^ 20 ≤ p → p ≤ 2 ^ 20 →
    x.toInt + p = (carry x p).1.toInt + 2 ^ 20 * (carry x p).2 ∧ ((carry x p).2 = -1 ∨ (carry x p).2 = 0 ∨ (carry x p).2 = 1)) ∧
  (∀ (c : Core) (flag : Bool) (plane : Nat) (t : Term), -2 ^ 20 ≤ t.p → t.p ≤ 2 ^ 20 → t.row < 32 → t.col < 32 →
    let r := addTerm plane (c, flag) t
    let total (k : Core) : Int := (getCell k plane t.row t.col).toInt + 2 ^ 20 * (highOf k plane t.row t.col).getD 0
    let h : Int := (highOf c plane t.row t.col).getD 0 + (carry (getCell c plane t.row t.col) t.p).2
    ((carry (getCell c plane t.row t.col) t.p).2 = 0 ∨ (-2048 ≤ h ∧ h ≤ 2047) → total r.1 = total c + t.p ∧ r.2 = flag) ∧
    ((carry (getCell c plane t.row t.col) t.p).2 ≠ 0 → (h < -2048 ∨ 2047 < h) → r.2 = true) ∧
    (∀ q row col, row < 32 → col < 32 → ¬ (q = plane ∧ row = t.row ∧ col = t.col) →
      getCell r.1 q row col = getCell c q row col ∧ highOf r.1 q row col = highOf c q row col)) ∧
  (∀ (s : State) (o : Nat) (op : AsyncOp) (total : Nat) (ws : List Write),
    (op.prog + 1 < total → advance s o op total ws = { s with ops := tset s.ops o { op with prog := op.prog + 1 } }) ∧
    (total ≤ op.prog + 1 → advance s o op total ws = leaveQueue s o op ws))

/-- R98, R102, R128, R217, R242, R244, R245, R250, R259, R264, R266, R268 and R437: HOST_WRITE, HOST_READ, FERRY_ARRIVAL, POISON_MARK, and the IDE stream. The weight-store accesses of the host rest on entry 120. -/
def Obligations.HostAccesses : Prop :=
  (∀ (s : State) (part : Nat) (P : Part) (at_ : HostAt) (data : List Byte), s.part? part = some P →
    ((P.fatal = true ∨ hostFrozen P = true) → exec (.hostWrite part at_ data) s = .next s) ∧
    (P.fatal = false → hostFrozen P = false → P.ideUp = false →
      exec (.hostWrite part at_ data) s = .next { s with hostr := s.hostr ++ [⟨part, .at_ at_, .unsupported⟩] })) ∧
  (∀ (s : State) (part : Nat) (P : Part) (va : BitVec 64) (data : List Byte), s.part? part = some P →
    P.ideUp = true → P.fatal = false → hostFrozen P = false → data ≠ [] → va.toNat % 65536 + data.length ≤ 65536 →
    let r := hostReach s P none va true
    (∀ key, r.1 = .at_ key → mappers r.2 key = [] → exec (.hostWrite part (.mem va) data) s = .next { r.2 with
      mem := wrL r.2.mem key data
      poison := r.2.poison.filter (fun w => !(decide (key ≤ w) && decide (w + 4 ≤ key + data.length))) }) ∧
    (∀ key, r.1 = .at_ key → mappers r.2 key ≠ [] →
      exec (.hostWrite part (.mem va) data) s = .next { r.2 with hostw := r.2.hostw ++ [⟨key, data, mappers r.2 key⟩] }) ∧
    (r.1 = .none_ → exec (.hostWrite part (.mem va) data) s = .next { r.2 with aer := r.2.aer ++ [⟨.nonFatal, part, true⟩] }) ∧
    (r.1 = .beyond → exec (.hostWrite part (.mem va) data) s = .next (freezeHost r.2 part P true va))) ∧
  (∀ (s : State) (part p die off : Nat) (P : Part) (data : List Byte), s.part? part = some P → P.ideUp = true → P.fatal = false →
    hostFrozen P = false → s.physDie? P die = some p →
    (launchRuns s part = true → exec (.hostWrite part (.weight die off) data) s =
      .next { s with hostr := s.hostr ++ [⟨part, .at_ (.weight die off), .unsupported⟩] }) ∧
    (launchRuns s part = false → inWeight off data.length = true → weightBusy s p off data.length = false →
      exec (.hostWrite part (.weight die off) data) s = .next { s with
        mem := wrL s.mem (keyWeight p off) data
        poison := s.poison.filter (fun w => !(decide (keyWeight p off ≤ w) && decide (w + 4 ≤ keyWeight p off + data.length))) })) ∧
  (∀ (s : State) (P : Part) (g : Option Nat) (va : BitVec 64) (write : Bool),
    (canonical va = false → (hostReach s P g va write).1 = .none_) ∧
    (∀ f, canonical va = true → walk s.mem P [] g (pageOf va) = .error f → (hostReach s P g va write).1 = .none_) ∧
    (∀ t, canonical va = true → walk s.mem P [] g (pageOf va) = .ok t →
      ((t.res = false ∨ (write = true ∧ t.e.w = false)) → (hostReach s P g va write).1 = .none_) ∧
      (t.res = true → (write = true → t.e.w = true) → outside P t.e.key = true → (hostReach s P g va write).1 = .beyond) ∧
      (t.res = true → (write = true → t.e.w = true) → outside P t.e.key = false →
        (hostReach s P g va write).1 = .at_ (t.e.key + va.toNat % 65536)))) ∧
  (∀ (s : State) (part : Nat) (P : Part) (at_ : HostAt) (len : Nat), s.part? part = some P →
    ((P.fatal = true ∨ hostFrozen P = true) → exec (.hostRead part (.at_ at_) len) s = .next s) ∧
    (P.fatal = false → hostFrozen P = false → P.ideUp = false →
      exec (.hostRead part (.at_ at_) len) s = .next { s with hostr := s.hostr ++ [⟨part, .at_ at_, .unsupported⟩] })) ∧
  (∀ (s : State) (part : Nat) (P : Part) (va : BitVec 64) (len : Nat), s.part? part = some P → hostFrozen P = false →
    P.ideUp = true → P.fatal = false → 0 < len → va.toNat % 65536 + len ≤ 65536 →
    let r := hostReach s P none va false
    (∀ key, r.1 = .at_ key → exec (.hostRead part (.at_ (.mem va)) len) s =
      .next (answer (r.2.rebuilds (lineKeys key len)) part (.at_ (.mem va)) (.data (rdL r.2.mem key len)))) ∧
    (r.1 = .none_ → exec (.hostRead part (.at_ (.mem va)) len) s = .next { r.2 with
      hostr := r.2.hostr ++ [⟨part, .at_ (.mem va), .abort⟩], aer := r.2.aer ++ [⟨.nonFatal, part, true⟩] }) ∧
    (r.1 = .beyond → exec (.hostRead part (.at_ (.mem va)) len) s = .next (freezeHost r.2 part P false va))) ∧
  (∀ (s : State) (part p die off len : Nat) (P : Part), s.part? part = some P → P.ideUp = true → P.fatal = false →
    hostFrozen P = false → s.physDie? P die = some p → inWeight off len = true → weightBusy s p off len = false →
    exec (.hostRead part (.at_ (.weight die off)) len) s =
      .next (answer s part (.at_ (.weight die off)) (.data (rdL s.mem (keyWeight p off) len)))) ∧
  (∀ (s : State) (part off : Nat) (P : Part) (guest : Option (BitVec 3)), s.part? part = some P →
    (P.ideUp = false → ∀ len, exec (.hostRead part (.bar guest off) len) s = .next (answer s part (.bar guest off) .unsupported)) ∧
    (P.ideUp = true → off % 8 = 0 →
      (guest = none → exec (.hostRead part (.bar guest off) 8) s =
        .next (answer s part (.bar guest off) (.data (leBytes 8 (hostRegister s part P off).toNat)))) ∧
      (∀ g, guest = some g → exec (.hostRead part (.bar guest off) 8) s =
        .next (answer s part (.bar guest off) (.data (leBytes 8 (virtualRegister s P g.toNat off).toNat)))) ∧
      (∀ g, guest = some g → 0x1000 ≤ off → off < 0x10000 →
        let x := virtualRegister s P g.toNat off
        exec (.hostRead part (.bar guest off) 4) s =
          .next (answer (s.modPart part (fun P => { P with latch := tput 0 P.latch g.toNat (x.extractLsb' 32 32) })) part
            (.bar guest off) (.data (leBytes 4 (x.extractLsb' 0 32).toNat))) ∧
        exec (.hostRead part (.bar guest (off + 4)) 4) s =
          .next (answer s part (.bar guest (off + 4)) (.data (leBytes 4 (tget 0 P.latch g.toNat).toNat)))))) ∧
  (∀ (s : State) (part : Nat) (P : Part) (off : BitVec 48) (data : List Byte), s.part? part = some P → P.fatal = false →
    (P.ferryLen.toNat % 2 ^ 48 < off.toNat + data.length → exec (.ferryArrival part off data) s = .next
      (s.modPart part (fun P => { P with ferryRej := if P.ferryRej = 0xFFFF then 0xFFFF else P.ferryRej + 1 }))) ∧
    (off.toNat + data.length ≤ P.ferryLen.toNat % 2 ^ 48 → exec (.ferryArrival part off data) s = .next
      (hostWriteAll s part P (some (P.ferryLen.extractLsb' 48 3).toNat) (P.ferryBase + off.zeroExtend 64) data))) ∧
  (∀ (s : State) (die key : Nat) (store : BitVec 32), exec (.poisonMark die store (.dev key)) s =
    .next ({ s with poison := addTo (key / 4 * 4) s.poison }.bboxAdd die
      ⟨BitVec.ofNat 64 (physAddr (key / 4 * 4)), store, 0xFFFF, 0x04, 0⟩)) ∧
  (∀ (s : State) (die bid addr : Nat) (store : BitVec 32) (b : Block), s.block? bid = some b →
    exec (.poisonMark die store (.loc bid addr)) s = .next ((s.setBlock bid { b with poison := addTo (addr / 4 * 4) b.poison }).bboxAdd die
      ⟨BitVec.ofNat 64 (addr / 4 * 4), store, BitVec.ofNat 16 (coreIdx b.core), 0x04, 0⟩)) ∧
  (∀ (s : State) (p : Nat) (r : BBox), (s.die p).bbIdx < 65536 →
    ((s.bboxAdd p r).die p).bbIdx = ((s.die p).bbIdx + 1) % 65536 ∧
    tfind ((s.bboxAdd p r).die p).bbox ((s.die p).bbIdx % 4096) = some r ∧
    (∀ n, n ≠ (s.die p).bbIdx % 4096 → tfind ((s.bboxAdd p r).die p).bbox n = tfind (s.die p).bbox n) ∧ (s.bboxAdd p r).mem = s.mem) ∧
  (∀ (s : State) (part : Nat) (up : Bool),
    exec (.ideStreamEstablished part up) s = .next (s.modPart part (fun P => { P with ideUp := up })))

/-- R216, R359 to R362, R414 to R416: MAILBOX_DELIVER, TLBINV_BEGIN, TLBINV_COMPLETE and CORE_POWER_GATING. -/
def Obligations.MailboxesAndShootDowns : Prop :=
  (∀ (s u : State) (gid : Nat) (g : Group) (w : MboxWait) (before after : List MboxWait), s.group? gid = some g →
    let p := coreDie (s.blockOf g).core
    (s.die p).waits.filter (fun w => w.group == gid) = before ++ w :: after → (∀ v ∈ before, tryServe s p v = none) →
    tryServe s p w = some u → exec (.mailboxDeliver gid) s = .next u) ∧
  (∀ (s : State) (p : Nat) (w : MboxWait) (chan : Nat), waitChan s w = some chan →
    (s.die p).waits.find? (fun v => waitChan s v == some chan && v.group == w.group) = some w →
    (∀ t, keptFor s p w.group chan = some t →
      tryServe s p w = some ((serveWait s p w chan t.bs).modDie p (fun d => { d with kept := d.kept.erase t }))) ∧
    (keptFor s p w.group chan = none → (s.die p).waits.find? (fun v => waitChan s v == some chan) = some w →
      (∀ m rest, chan = 0 → (s.die p).mbox = m :: rest →
        tryServe s p w = some ((serveWait s p w 0 (itemBytes s m)).modDie p (fun d => Die.letIn { d with mbox := rest }))) ∧
      (∀ bs v, chan ≠ 0 → ringTake s p = some (bs, v) → tryServe s p w = some (serveWait v p w chan bs)))) ∧
  (∀ (s : State) (p : Nat) (w : MboxWait) (chan : Nat) (bs : List Byte) (op : LoadOp), tfind s.loads w.load = some op →
    tfind (serveWait s p w chan bs).loads w.load =
      some { op with reads := op.reads.map (fun r => { r with val := some (BitVec.ofNat 64 (fieldN bs (8 * r.lane) 8)) }) } ∧
    ((serveWait s p w chan bs).die p).waits = (s.die p).waits.erase w ∧
    ((serveWait s p w chan bs).die p).taken = ⟨op.seq, w.group, chan, bs⟩ :: (s.die p).taken) ∧
  (∀ (s : State) (gid : Nat) (g : Group) (t : TlbInv), s.group? gid = some g → g.tlbi = some t →
    (∀ lid l, g.launch = some lid → s.launch? lid = some l → l.steps = true →
      t.step ≤ l.c ∧ ∀ j, lowestStep s lid l = some j → t.step ≤ j) →
    exec (.tlbinvBegin gid) s = .next (s.setGroup gid { g with tlbi := some { t with begun := true } })) ∧
  (∀ (s : State) (gid : Nat) (g : Group) (t : TlbInv), s.group? gid = some g → g.tlbi = some t → t.begun = true →
    let part := s.partOfDie (coreDie (s.blockOf g).core)
    (∀ e ∈ s.launches, some e.2.part = part → t.inFlight e.2 = false) → (∀ e ∈ s.loads, t.reading s part e.2 = false) →
    let u := (shootDown s part t).setGroup gid { g with tlbi := none }
    exec (.tlbinvComplete gid) s = .next (match t.cross with
      | some glob => (u.crossOne gid glob).pushShadow gid
      | none => u)) ∧
  (∀ (s : State) (part : Option Nat) (t : TlbInv),
    let u := shootDown s part t
    u.mem = s.mem ∧ u.launches = s.launches ∧ u.blocks = s.blocks ∧ u.groups = s.groups ∧ u.loads = s.loads ∧
    (∀ e ∈ u.cores, s.partOfDie (coreDie e.1) = part → ∀ x ∈ e.2.tlb, t.covers x = false) ∧
    (∀ e ∈ u.dies, s.partOfDie e.1 = part → (∀ x ∈ e.2.tlb, t.covers x = false) ∧ (∀ x ∈ e.2.nested, t.coversNested x = false)) ∧
    (∀ e ∈ s.cores, s.partOfDie (coreDie e.1) ≠ part → e ∈ u.cores) ∧ (∀ e ∈ s.dies, s.partOfDie e.1 ≠ part → e ∈ u.dies)) ∧
  (∀ (s : State) (core : Nat) (gated : Bool), exec (.corePowerGating core gated) s =
    .next (s.modCore core (fun c => { c with gated := gated, tlb := if gated then [] else c.tlb })))

/-- R67, R234 to R237, R262, R265, R329 to R331: SAVE_SEQUENCE, SAVE_IMAGE_ASSEMBLE, RESTORE_DIE_READY, RESTORE_RESUME, TIME_SLICE_EXPIRY, PREEMPT, RESTORE and TERMINATE. Which dies record a save or restore, and the layout of block records, are entries 121 and 22. -/
def Obligations.ContextSwitches : Prop :=
  (∀ (s : State) (lid : Nat) (image : BitVec 64) (l : Launch) (P : Part), s.launch? lid = some l → s.part? l.part = some P →
    l.phase = .stepping → l.mustCommit = false → sliceTicks P ≠ 0 → l.startTick + sliceTicks P ≤ s.tick → rivalWaits s lid l = true →
    exec (.timeSliceExpiry lid image) s = .next (beginPreempt s lid l.part P image false true)) ∧
  (∀ (s : State) (part : Nat) (P : Part), inProgress s part 0x01 = some P →
    (P.waiting.find? (fun w => preemptNow s part w.1 != .waits)) = none →
    (s.byIdent part P.operand = none → exec (.preempt part) s = .next (finishCommand s part 2)) ∧
    (∀ lid l, s.byIdent part P.operand = some lid → s.launch? lid = some l →
      (heldPhase l.phase = false → exec (.preempt part) s = .next (finishCommand s part 2)) ∧
      (l.phase = .saved → exec (.preempt part) s = .next (finishCommand s part 0)) ∧
      ((l.phase = .restoring ∨ (l.phase = .stepping ∧ l.mustCommit = true)) → exec (.preempt part) s = .next s) ∧
      (l.phase = .stepping → l.mustCommit = false → exec (.preempt part) s =
        .next ((beginPreempt s lid part P P.arg false false).modPart part (fun P => { P with busy := some lid }))))) ∧
  (∀ (s : State) (part lid : Nat) (P : Part) (w : BitVec 32 × BitVec 64), s.part? part = some P →
    P.waiting.find? (fun w => preemptNow s part w.1 != .waits) = some w → preemptNow s part w.1 = .begins lid →
    exec (.preempt part) s =
      .next (beginPreempt (s.modPart part (fun P => { P with waiting := P.waiting.erase w })) lid part P w.2 false false)) ∧
  (∀ (s : State) (lid p : Nat) (l : Launch) (P : Part) (image : Word) (force queued : Bool), s.launch? lid = some l →
    let t := beginPreempt s lid p P image force queued
    (∃ m, t.launch? lid = some m ∧ m.phase = .preempting ∧ m.image = image ∧ m.reports = [] ∧ m.gw = l.gw ∧ m.c = l.c) ∧
    t.mem = s.mem ∧ t.groups = s.groups ∧
    (∀ q ∈ s.dieList P, (t.die q).mbox ++ (t.die q).inbound = (s.die q).mbox ++ (s.die q).inbound ++ [⟨1, lid, image, 0⟩])) ∧
  (∀ (s : State) (part die lid : Nat) (P : Part) (l : Launch), (s.die die).save = some lid → s.part? part = some P →
    s.launch? lid = some l → l.part = part → s.partOfDie die = some part → l.phase = .preempting → drained s lid die l = true →
    ∃ t, exec (.saveSequence part die) s = .next t ∧ t.mem = s.mem ∧ (t.die die).save = none ∧
      (∃ m, t.launch? lid = some m ∧ m.phase = .preempting ∧ m.reports = l.reports ++ [(die, none)]) ∧
      (∀ b ∈ s.blocksOf lid, ∀ x, tfind s.blocks b = some x → coreDie x.core = die → tfind t.blocks b = none) ∧
      (∃ Q, t.part? part = some Q ∧
        savedOf Q.saved lid = some (saveDie s lid die ((savedOf P.saved lid).getD (Saved.fresh s P lid l.image))))) ∧
  (∀ (s : State) (lid die : Nat) (v : Saved), ((groupsHere s lid die).map Prod.fst).Nodup →
    (saveDie s lid die v).launch = v.launch ∧ ∀ e ∈ groupsHere s lid die, tfind (saveDie s lid die v).groups e.1 = some e.2) ∧
  (∀ (s : State) (part lid : Nat) (P : Part) (l : Launch) (v : Saved), s.part? part = some P →
    reportedIn s part P .preempting = some (lid, l) → savedOf P.saved lid = some v →
    let v1 : Saved := { v with parked := if l.force then combined (l.gw.filter (fun w => w.stage == .parked)) else [] }
    let bs := imageBytes s P lid l v1
    let s0 : State := { s.walked P none l.image bs.length with free := s.free + 4 * v1.parked.length + 1 }
    (writable s P l.image bs.length = false → exec (.saveImageAssemble part) s = .next ((endCommand s0 lid 2).terminate lid 3)) ∧
    (writable s P l.image bs.length = true → exec (.saveImageAssemble part) s = .next
      ((endCommand (advanceArea { (((s0.writeVa P none l.image bs).modPart part
          (fun Q => { Q with saved := putSaved Q.saved { v1 with inImage := l.force, bytes := bs, sections := sectionsOf s P lid l v1 } })).modLaunch lid
          (fun l => { l with phase := .saved, reports := [], order := s.fresh, saveTook := s.tick - l.cmdTick,
                             gw := if l.force then l.gw.filter (fun w => w.stage != .parked) else l.gw })) with fresh := s.fresh + 1 } l bs.length) lid 0).record
        lid 4 0xFF 0xFFFF))) ∧
  (∀ (s : State) (part : Nat) (P : Part), inProgress s part 0x02 = some P → P.busy = none →
    (savedAt s part P P.arg = none → exec (.restore part) s = .next (finishCommand (s.walked P none P.arg 8) part 2)) ∧
    (∀ lid, savedAt s part P P.arg = some lid → steppingOrSent s part < 16 → exec (.restore part) s =
      .next ((beginRestore (s.walked P none P.arg 8) lid part P P.arg).modPart part (fun P => { P with busy := some lid })))) ∧
  (∀ (s : State) (part : Nat) (P : Part) (image : Word) (h : List Byte) (lid : Nat) (l : Launch), s.readVa P none image 8 = some h →
    (s.launches.filter (fun e => e.2.phase == .saved && e.2.part == part && e.2.ident.toNat == fieldN h 4 4)) = [(lid, l)] →
    savedAt s part P image = some lid) ∧
  (∀ (s : State) (part die lid holder : Nat) (P : Part) (l : Launch) (v : Saved), (s.die die).load = some lid → s.part? part = some P →
    s.launch? lid = some l → holderOf s lid = some (holder, v) → l.part = part → s.partOfDie die = some part → l.phase = .restoring →
    let s0 := s.walked P none l.image v.bytes.length
    let refused := mailTo (failRestore s0 lid holder) die ⟨3, lid, l.image, 2⟩
    (s.readVa P none l.image v.bytes.length = none → exec (.restoreDieReady part die) s = .next refused) ∧
    (∀ bs, s.readVa P none l.image v.bytes.length = some bs →
      (headerOk s P l v bs = false → exec (.restoreDieReady part die) s = .next refused) ∧
      (headerOk s P l v bs = true →
        let w : Saved := { v with got := bs }
        let i := s.logDie P die
        let mine := w.blocks.filter (fun e => shiftDie w P (coreDie e.2.core) == die)
        (restoreBlocks lid l w P mine s0 = none → exec (.restoreDieReady part die) s = .next s) ∧
        (∀ t, restoreBlocks lid l w P mine s0 = some t →
          exec (.restoreDieReady part die) s = .next (mailTo
            ((((((restoreItems (restoreCores t lid w P die i) lid w P die i).modDie die (fun d => { d with load := none })).modPart holder
              (fun H => { H with saved := putSaved H.saved w })).bboxAdd die ⟨l.image, l.ident, 0xFFFF, 0x09, 0⟩).modLaunch lid
              (fun l => { l with reports := l.reports ++ [(die, none)] }))) die ⟨3, lid, l.image, 0⟩))))) ∧
  (∀ (s : State) (part lid holder : Nat) (P : Part) (l : Launch) (v : Saved), s.part? part = some P →
    reportedIn s part P .restoring = some (lid, l) → holderOf s lid = some (holder, v) →
    exec (.restoreResume part) s = .next ((endCommand ((({ s with fresh := s.fresh + 2 ^ 33 * v.parked.length }.modLaunch lid
      (fun _ => resumed s l v P)).modPart holder (fun P => { P with saved := P.saved.filter (fun w => w.launch != lid) })).modPart part
      (measureSwitch (l.saveTook + (s.tick - l.cmdTick)))) lid 0).record lid 5 0xFF 0xFFFF)) ∧
  (∀ (s : State) (l : Launch) (v : Saved) (P : Part),
    let m := resumed s l v P
    m.phase = .stepping ∧ m.c = (fieldN v.got 16 8 + 1) % 2 ^ 64 ∧ m.children = fieldN v.got 40 8 ∧ m.mustCommit = true ∧
    m.startTick = s.tick ∧ m.ident = l.ident ∧ m.hdr = l.hdr ∧ m.guest = l.guest) ∧
  (∀ (s : State) (part : Nat) (P : Part), inProgress s part 0x03 = some P →
    (s.byIdent part P.operand = none → exec (.terminate part) s = .next (finishCommand s part 2)) ∧
    (∀ lid l, s.byIdent part P.operand = some lid → s.launch? lid = some l →
      ((heldPhase l.phase = true ∨ l.phase = .posted ∨ l.phase = .broadcast) →
        exec (.terminate part) s = .next (finishCommand (s.terminate lid 0) part 0)) ∧
      ((l.phase = .completed ∨ l.phase = .rejected ∨ l.phase = .terminated) →
        exec (.terminate part) s = .next (finishCommand s part 2))))

/-- R244, R251, R254, R259, R264 to R266, R269, R270 and R273: the remaining commands and registers of a partition. -/
def Obligations.PartitionCommands : Prop :=
  (∀ (s : State) (part : Nat) (P : Part), inProgress s part 0x10 = some P →
    (layoutAllowed s P = false → exec (.layoutChange part) s = .next (refuseConfig s part)) ∧
    (layoutAllowed s P = true → (affected s (stagedLayouts s P)).any (launchRuns s) = true →
      exec (.layoutChange part) s = .next (finishCommand s part 1)) ∧
    (layoutAllowed s P = true → (affected s (stagedLayouts s P)).any (launchRuns s) = false →
      exec (.layoutChange part) s = .next (applyLayout s part P))) ∧
  (∀ (s : State) (part : Nat) (P : Part), inProgress s part 0x11 = some P →
    let on (f : Phase → Bool) : List (Nat × Launch) :=
      s.launches.filter (fun e => (affected s (stagedLayouts s P)).contains e.2.part && f e.2.phase)
    (layoutAllowed s P = false → exec (.layoutChangeForce part) s = .next (refuseConfig s part)) ∧
    (layoutAllowed s P = true → on (fun p => p == .preempting || p == .restoring) = [] →
      (∀ lid l rest Q, on (· == .stepping) = (lid, l) :: rest → s.part? l.part = some Q →
        exec (.layoutChangeForce part) s = .next ((beginPreempt s lid l.part Q (forceArea P) true false).modPart part
          (fun P => { P with forceAt := some (forceArea P) }))) ∧
      (on (· == .stepping) = [] → (∀ e ∈ on (· == .saved), e.2.applying = []) →
        exec (.layoutChangeForce part) s = .next (applyLayout s part P)))) ∧
  (∀ (s : State) (part : Nat) (P : Part), inProgress s part 0x12 = some P →
    (masksOk (stagedGuests P) = false → exec (.applyStaged part) s = .next (refuseConfig s part)) ∧
    (masksOk (stagedGuests P) = true → exec (.applyStaged part) s =
      .next (finishCommand (clearGuestCounters (applyGuests s part) part P.guests (stagedGuests P)) part 0))) ∧
  (∀ (s : State) (part : Nat) (P : Part), inProgress s part 0x20 = some P → s.part? part = some P → openLaunches s part = [] →
    ∃ t Q, exec (.partitionReset part) s = .next t ∧ t.part? part = some Q ∧ Q.mode = 0 ∧ Q.cals = Cals.reset ∧ Q.ideUp = false ∧
      Q.cfgErr = false ∧ Q.sliceRaised = false ∧ Q.ferryRej = 0 ∧ Q.saved = [] ∧ Q.fatal = (P.fatal && !(failing s P).isEmpty) ∧
      Q.failures = failing s P ∧ Q.waiting = [] ∧ t.mem = s.mem ∧
      (∀ e ∈ t.cores, t.partOfDie (coreDie e.1) = some part → e.2.counters = [] ∧ e.2.ctab = [])) ∧
  (∀ (s : State) (part : Nat) (P : Part), inProgress s part 0x30 = some P →
    (namedFrozen s P = none → exec (.releaseFault part) s = .next (finishCommand s part 2)) ∧
    (∀ f, namedFrozen s P = some f → let t := finishCommand (unfreeze s part f) part 0
      (∀ a, f.by_ = .host true a → exec (.releaseFault part) s = .next t) ∧
      (∀ a, f.by_ = .host false a → exec (.releaseFault part) s = .next (answer t part (.at_ (.mem a)) .abort)) ∧
      (∀ o, f.by_ = .move o → exec (.releaseFault part) s = .next (faultMove t o)) ∧
      (∀ o, f.by_ = .engine o →
        exec (.releaseFault part) s = .next { t with ops := tmod t.ops o (fun op => { op with st := .denied }) }))) ∧
  (∀ (s : State) (part : Nat) (P : Part), inProgress s part 0x31 = some P →
    (namedFrozen s P = none → exec (.releaseDiscard part) s = .next (finishCommand s part 2)) ∧
    (∀ f, namedFrozen s P = some f → let t := finishCommand (unfreeze s part f) part 0
      (∀ w a, f.by_ = .host w a → exec (.releaseDiscard part) s = .next t) ∧
      (∀ o lid m, f.by_ = .move o → moveOf t o = some (lid, m) → exec (.releaseDiscard part) s = .next (t.terminate lid 0)) ∧
      (∀ o op, f.by_ = .engine o → tfind t.ops o = some op →
        (∀ lid, opLid t op = some lid → exec (.releaseDiscard part) s = .next (t.terminate lid 0)) ∧
        (opLid t op = none → exec (.releaseDiscard part) s = .next (completeOp t o op.blk []))))) ∧
  (∀ (s : State) (part : Nat) (P : Part), inProgress s part 0x40 = some P →
    let s0 := s.walked P none P.arg 32
    (s.readVa P none P.arg 32 = none → exec (.attestationReport part) s = .next (finishCommand s0 part 2)) ∧
    (∀ nonce, s.readVa P none P.arg 32 = some nonce →
      let body := nonce ++ logDigest s ++ gradeMap s
      let report := body ++ leBytes 64 (Config.sm2Sign body).toNat
      let s1 := s0.walked P none (P.arg + 32) report.length
      (writable s P (P.arg + 32) report.length = true → exec (.attestationReport part) s =
        .next (finishCommand (s1.writeVa P none (P.arg + 32) report) part 0)) ∧
      (writable s P (P.arg + 32) report.length = false → exec (.attestationReport part) s = .next (finishCommand s1 part 2)))) ∧
  (∀ (s : State) (part p bid : Nat) (P : Part) (b : Block) (data : BitVec 64), s.part? part = some P →
    P.ideUp = true → (data.extractLsb' 16 16).toNat < Config.coresPerDie → s.physDie? P (data.extractLsb' 0 16).toNat = some p →
    (s.blocksOn (coreKey p (data.extractLsb' 16 16).toNat)).find? (fun e => e.2.slot == (data.extractLsb' 32 2).toNat) = some (bid, b) →
    let gs := (s.groupsIn b).filter (fun e => !e.2.retired)
    exec (.debugStop part data) s = .next (gs.foldl (fun s e => s.notify e.1 ⟨.debug, 0x51, none, 0, 0, 0, none⟩)
      (s.ringAdd P P.dbstop (Config.stopBytes (stopRecord b (b.launch.bind s.launch?) (s.logDie P p) gs))))) ∧
  (∀ (s : State) (part n : Nat) (P : Part) (guest : BitVec 3), s.part? part = some P → P.ideUp = true →
    let v := selectedCounter s P guest.toNat n
    let t := s.modPart part (fun P => { P with latch := tput 0 P.latch guest.toNat (v.extractLsb' 32 32) })
    exec (.counterReadLow part guest n) s =
      .next (answer t part (.bar (some guest) (0x1000 + 8 * n)) (.data (leBytes 4 (v.extractLsb' 0 32).toNat)))) ∧
  (∀ (s : State) (part off n : Nat) (P : Part) (data : RegData) (word : BitVec 64) (vf : Option (BitVec 3)) (g : BitVec 3),
    s.part? part = some P → P.ideUp = false →
    exec (.registerWrite part vf off data) s = .next (answer s part (.bar vf off) .unsupported) ∧
    exec (.debugStop part word) s = .next (answer s part (.bar none 0xA8) .unsupported) ∧
    exec (.counterReadLow part g n) s = .next (answer s part (.bar (some g) (0x1000 + 8 * n)) .unsupported)) ∧
  (∀ (P : Part) (data : BitVec 64), P.mode ≠ 3 →
    let Q := startCommand P data
    Q.cmd = data &&& 0xFFFFFFFF000000FF#64 ∧ Q.arg = P.cmdarg ∧ Q.busy = none ∧
    Q.mode = if (data.extractLsb' 0 8).toNat ∈ [0x01, 0x02, 0x03, 0x10, 0x11, 0x12, 0x20, 0x30, 0x31, 0x40] then 3 else 2) ∧
  (∀ (s : State) (part : Nat) (P : Part) (x : BitVec 32), s.part? part = some P → P.ideUp = true →
    ∃ t, exec (.registerWrite part none 0x04 (.half x)) s = .next t ∧ t.part? part = some P) ∧
  (∀ (s : State) (part : Nat) (P : Part) (data : BitVec 64), s.part? part = some P → P.ideUp = true →
    exec (.registerWrite part none 0x08 (.whole data)) s = .next (s.modPart part (fun P => startCommand P data)) ∧
    exec (.registerWrite part none 0x10 (.whole data)) s = .next (s.modPart part (fun P => { P with cmdarg := data })) ∧
    exec (.registerWrite part none 0x00 (.whole data)) s = .next (s.modPart part (fun P =>
      { P with ferryRej := P.ferryRej &&& ~~~(data.extractLsb' 16 16), cfgErr := P.cfgErr && !data.getLsbD 6,
               sliceRaised := P.sliceRaised && !data.getLsbD 5 })) ∧
    exec (.registerWrite part none 0x90 (.whole data)) s = .next (s.modPart part (fun P => { P with dbstop := data })) ∧
    (∀ g : BitVec 3, exec (.registerWrite part (some g) 0 (.whole data)) s =
      .next (s.modPart part (fun P => { P with csel := tput 0 P.csel g.toNat (BitVec.ofNat 64 (data.toNat % 2 ^ 32)) }))))

/-- R19, R20, R23, R207, R239 to R241, R243, R245, R247, R256, R257, R267, R272, R273 and R304: the recovery events and the clock. That a retiring dispatcher alone on its core moves at once is entry 126, and the record of a lost stack entry 125. -/
def Obligations.Recovery : Prop :=
  (∀ (s : State) (core : Nat), let gs := (s.groupsOn core).map (fun e => e.1)
    let a := s.cycle (coreDie core)
    exec (.strikeAlarm core) s = .next ((((gs.foldl (rollback a core) s).modCore core
        (fun c => { c with alarms := a :: c.alarms.filter (recent a) })).bboxAdd (coreDie core)
      ⟨BitVec.ofNat 64 a, BitVec.ofNat 32 gs.length, BitVec.ofNat 16 (coreIdx core), 0x01, 1⟩).report .correctable (coreDie core))) ∧
  (∀ (g : Group) (x : Shadow), (rewind g x).r = x.r ∧ (rewind g x).run = none ∧ (rewind g x).blk = g.blk ∧ (rewind g x).planes = g.planes ∧
    (∀ e, e ∈ g.taken → x.seq ≤ e.1 → e.2 ∈ (rewind g x).notices) ∧ (∀ n, n ∈ g.notices → n ∈ (rewind g x).notices) ∧
    (∀ e, e ∈ (rewind g x).heldX → e ∈ g.heldX ∧ e.1 < x.r.gstep) ∧ (∀ t, (rewind g x).tlbi = some t → g.tlbi = some t ∧ t.seq ≤ x.seq) ∧
    (∀ r, r ∈ g.sent → x.seq < r.seq → r ∈ (rewind g x).again)) ∧
  (∀ (g : Group) (a : Nat), g.shadows ≠ [] →
    (∀ h rest, g.shadows = h :: rest → h.cycle + Config.strikeReport ≤ a → shadowFor g a = h) ∧
    ((∀ h, h ∈ g.shadows → a < h.cycle + Config.strikeReport) → g.launch.isSome = true → some (shadowFor g a) = g.shadows.getLast?)) ∧
  (∀ (s : State) (way : Nat) (lid : Nat) (l : Launch), s.launch? lid = some l →
    ∃ t, exec (.waystationAlarm way) s = .next t ∧ t.mem = s.mem ∧ t.groups = s.groups ∧ t.blocks = s.blocks ∧
      t.launch? lid = some { l with declared := l.declared.map (fun d => (d.1, s.tick)), applying := l.applying.map (fun w =>
        if w.stage != .applied && wayOfKey w.w.key == some way then { w with cycle := s.tick } else w) }) ∧
  (∀ (s : State) (die store core : Nat) (addr : BitVec 64),
    let counted := if store = 0 then s.modCore (coreKey die core) (fun c => { c with
      eccs := (addr.toNat / 4 % 32, s.cycle die) :: c.eccs.filter (fun e => recent (s.cycle die) e.2) }) else s
    (store < 2 → core < Config.coresPerDie → exec (.eccCorrected die store core addr) s =
      .next ((counted.bboxAdd die ⟨addr, BitVec.ofNat 32 store, BitVec.ofNat 16 core, 0x02, 1⟩).report .correctable die)) ∧
    (2 ≤ store → store < 6 → exec (.eccCorrected die store core addr) s =
      .next ((s.bboxAdd die ⟨addr, BitVec.ofNat 32 store, 0xFFFF, 0x02, 1⟩).report .correctable die))) ∧
  (∀ (s : State) (core : Nat), (s.core core).fenced = false → (s.core core).retiring = false → worn s core = true →
    (Config.spareCores ≤ (s.die (coreDie core)).spares → exec (.coreRetire core) s = .next (fence s core)) ∧
    ((s.die (coreDie core)).spares < Config.spareCores → 
      let t := (s.modDie (coreDie core) (fun d => { d with
        spares := (s.die (coreDie core)).spares + 1
        phys := tset d.phys (coreIdx core) (s.die (coreDie core)).spares })).modCore core (fun c => { c with retiring := true })
      ((∃ e ∈ s.blocksOn core, e.2.launch ≠ none) → exec (.coreRetire core) s = .next (settleCore t core)) ∧
      ((∀ e ∈ s.blocksOn core, e.2.launch = none) → exec (.coreRetire core) s = .next (settleCore (moveDispatcher t core) core)))) ∧
  (∀ p : Nat, p < 900 → (spareNumbers p).Nodup ∧ (spareNumbers p).length = Config.spareCores ∧ ∀ n ∈ spareNumbers p, n < 464) ∧
  (∀ (s : State) (bid : Nat) (b : Block), s.block? bid = some b → b.moving = true →
    (b.moved = false → exec (.blockMigrate bid) s = .next (noteRetirement (s.setBlock bid { b with moved := true }) b.core)) ∧
    (b.moved = true → exec (.migrationComplete bid) s = .next (settleCore (s.setBlock bid { b with moving := false }) b.core))) ∧
  (∀ (s : State) (link : BitVec 64) (flits : BitVec 32),
    exec (.fecCorrection link flits) s = .next ((({ s with free := s.free + 1 }).bboxAdd (Config.freeNat s.free % 900)
      ⟨link, flits, 0xFFFF, 0x0D, 1⟩).report .correctable (Config.freeNat s.free % 900))) ∧
  (∀ (s : State) (part : Nat) (a : BitVec 64) (b : BitVec 32),
    exec (.linkIntegrityFailure part a b) s = .next (contain (recordSomewhere s part ⟨a, b, 0xFFFF, 0x0E, 3⟩) part (.link a)) ∧
    exec (.horizonTreeFailure part a b) s = .next (contain (recordSomewhere s part ⟨a, b, 0xFFFF, 0x10, 3⟩) part (.tree a)) ∧
    exec (.linkRetraining part) s = .next (s.modPart part (fun P => { P with failures := P.failures.filter (fun f => !byLink f) }))) ∧
  (∀ (s : State) (die p : Nat) (cause : BitVec 64) (code : BitVec 32), s.partOfDie die = some p →
    exec (.dieFatalError (.die die) cause code) s = .next (contain (s.bboxAdd die ⟨cause, code, 0xFFFF, 0x0F, 3⟩) p (.die die))) ∧
  (∀ (s : State) (w p : Nat) (cause : BitVec 64) (code : BitVec 32), w < 900 → w ∉ s.lost → s.partOfDie w = some p →
    let t : State := { s with lost := addTo w s.lost }
    ((∀ v ∈ s.lost, v / 5 ≠ w / 5) → exec (.dieFatalError (.stack w) cause code) s = .next t) ∧
    ((∃ v ∈ s.lost, v / 5 = w / 5) → exec (.dieFatalError (.stack w) cause code) s =
      .next (contain (t.bboxAdd w ⟨cause, code, 0xFFFF, 0x0F, 3⟩) p (.stack w)))) ∧
  (∀ (s : State) (p : Nat) (P : Part) (f : FailedPart), s.part? p = some P →
    let t := (s.modPart p (fun P => { P with fatal := true, failures := P.failures ++ [f] })).report .fatal p
    contain s p f = (openLaunches s p).foldl (fun s l => s.terminate l 4) t ∧
    t.part? p = some { P with fatal := true, failures := P.failures ++ [f] } ∧ t.mem = s.mem ∧ t.aer = s.aer ++ [⟨.fatal, p, false⟩]) ∧
  (∀ s : State, ∃ t, exec .laneCycleCount s = .next t ∧ t.tick = s.tick + 1 ∧ t.mem = s.mem ∧ t.groups = s.groups ∧ t.blocks = s.blocks ∧
    t.launches = s.launches ∧ (∀ n, t.cycle n = (s.die n).cycle0 + (s.tick + 1 - (s.die n).tick0) * (s.die n).cap / 24)) ∧
  (∀ (s : State) (die cap : Nat), 12 ≤ cap → cap ≤ 24 → ∃ t, exec (.clockCapChange die cap) s = .next t ∧ t.cycle die = s.cycle die ∧
    (t.die die).cap = cap ∧ (∀ q, q ≠ die → t.die q = s.die q) ∧ t.mem = s.mem ∧ t.groups = s.groups ∧ t.tick = s.tick)
end

