-- ==== Sys2Proof/Laws/Store.lean ====
section
/-! SUPPORT. Laws of sparse tables and of bytes: read after write, what a write leaves alone, and that every write keeps the
canonical form. -/

namespace Sys2Proof.Machine

variable {α : Type}

@[simp] theorem tfind_nil (k : Nat) : tfind ([] : Table α) k = none := rfl

theorem tfind_tset (t : Table α) (k : Nat) (v : α) (j : Nat) :
    tfind (tset t k v) j = if j = k then some v else tfind t j := by
  induction t with
  | nil => simp only [tset, tfind, eq_comm]
  | cons e r ih =>
    obtain ⟨i, u⟩ := e
    by_cases h1 : i = k
    · subst h1
      by_cases h2 : j = i
      · subst h2; simp [tset, tfind]
      · simp [tset, tfind, h2, Ne.symm h2]
    · by_cases h2 : j = k
      · subst h2
        by_cases h3 : j < i <;> simp [tset, tfind, h1, h3, ih]
      · by_cases h3 : k < i <;> simp [tset, tfind, h1, h2, h3, Ne.symm h2, ih]

@[simp] theorem tfind_tset_same (t : Table α) (k : Nat) (v : α) : tfind (tset t k v) k = some v := by simp [tfind_tset]

theorem tfind_tset_other (t : Table α) {j k : Nat} (v : α) (h : j ≠ k) : tfind (tset t k v) j = tfind t j := by
  simp [tfind_tset, h]

theorem tfind_tdel (t : Table α) (k j : Nat) : tfind (tdel t k) j = if j = k then none else tfind t j := by
  induction t with
  | nil => simp [tdel]
  | cons e r ih =>
    obtain ⟨i, u⟩ := e
    simp only [tdel]
    split
    · next h =>
      subst h
      rw [ih]
      by_cases hj : j = i
      · simp [hj]
      · simp [tfind, hj, Ne.symm hj]
    · next h =>
      by_cases hj : i = j
      · subst hj; simp [tfind, h]
      · simp [tfind, hj, ih]

theorem tfind_tmod (t : Table α) (k : Nat) (f : α → α) (j : Nat) :
    tfind (tmod t k f) j = if j = k then (tfind t k).map f else tfind t j := by
  unfold tmod
  cases h : tfind t k with
  | none => by_cases e : j = k <;> simp [e, h]
  | some v => simp [tfind_tset]

theorem tget_tput [DecidableEq α] (d : α) (t : Table α) (k : Nat) (v : α) (j : Nat) :
    tget d (tput d t k v) j = if j = k then v else tget d t j := by
  unfold tput tget
  by_cases hv : v = d <;> by_cases hj : j = k <;> simp [hv, hj, tfind_tdel, tfind_tset]

@[simp] theorem tget_tput_same [DecidableEq α] (d : α) (t : Table α) (k : Nat) (v : α) : tget d (tput d t k v) k = v := by
  simp [tget_tput]

theorem tget_tput_other [DecidableEq α] (d : α) (t : Table α) {j k : Nat} (v : α) (h : j ≠ k) :
    tget d (tput d t k v) j = tget d t j := by simp [tget_tput, h]

/-! ## Bytes -/

theorem rd8_wr8 (m : Table Byte) (k : Nat) (b : Byte) (j : Nat) : rd8 (wr8 m k b) j = if j = k then b else rd8 m j :=
  tget_tput _ _ _ _ _

@[simp] theorem rd8_wr8_same (m : Table Byte) (k : Nat) (b : Byte) : rd8 (wr8 m k b) k = b := by simp [rd8_wr8]

theorem rd8_wr8_other (m : Table Byte) {j k : Nat} (b : Byte) (h : j ≠ k) : rd8 (wr8 m k b) j = rd8 m j := by
  simp [rd8_wr8, h]

/-- A store of `n` bytes leaves every byte outside them alone. -/
theorem rd8_wrN_other (m : Table Byte) (k n x j : Nat) (h : j < k ∨ k + n ≤ j) : rd8 (wrN m k n x) j = rd8 m j := by
  induction n generalizing m k x with
  | zero => rfl
  | succ n ih =>
    simp only [wrN]
    rw [ih _ _ _ (by omega), rd8_wr8_other _ _ (by omega)]

/-- Byte `i` of a store of `n` bytes (R4). -/
theorem rd8_wrN (m : Table Byte) (k n x i : Nat) (h : i < n) : rd8 (wrN m k n x) (k + i) = BitVec.ofNat 8 (x / 256 ^ i) := by
  induction n generalizing m k x i with
  | zero => omega
  | succ n ih =>
    simp only [wrN]
    cases i with
    | zero => rw [rd8_wrN_other _ _ _ _ _ (by omega)]; simp
    | succ i =>
      have := ih (wr8 m k (BitVec.ofNat 8 x)) (k + 1) (x / 256) i (by omega)
      rw [show k + (i + 1) = k + 1 + i by omega, this, Nat.div_div_eq_div_mul, Nat.pow_succ, Nat.mul_comm]

/-- A store of a list of bytes leaves every byte outside it alone. -/
theorem rd8_wrL_other (m : Table Byte) (k : Nat) (bs : List Byte) (j : Nat) (h : j < k ∨ k + bs.length ≤ j) :
    rd8 (wrL m k bs) j = rd8 m j := by
  induction bs generalizing m k with
  | nil => rfl
  | cons b bs ih =>
    simp only [wrL, List.length_cons] at *
    rw [ih _ _ (by omega), rd8_wr8_other _ _ (by omega)]

/-- What was stored is read back (R4). -/
@[simp] theorem length_leBytes (n x : Nat) : (leBytes n x).length = n := by
  induction n generalizing x with
  | zero => rfl
  | succ n ih => simp [leBytes, ih]

theorem getElem?_leBytes {n i : Nat} (x : Nat) (h : i < n) : (leBytes n x)[i]? = some (BitVec.ofNat 8 (x / 256 ^ i)) := by
  induction n generalizing x i with
  | zero => omega
  | succ n ih =>
    cases i with
    | zero => simp [leBytes]
    | succ i => simp only [leBytes, List.getElem?_cons_succ]; rw [ih _ (by omega), Nat.div_div_eq_div_mul, Nat.pow_succ, Nat.mul_comm 256]

theorem rd8_wrL (m : Table Byte) (k : Nat) (bs : List Byte) {i : Nat} (h : i < bs.length) :
    rd8 (wrL m k bs) (k + i) = bs[i]?.getD 0 := by
  induction bs generalizing m k i with
  | nil => simp at h
  | cons b bs ih =>
    simp only [wrL]
    cases i with
    | zero => rw [rd8_wrL_other _ _ _ _ (by omega)]; simp
    | succ i => rw [show k + (i + 1) = (k + 1) + i by omega, ih _ _ (by simpa using h)]; simp

theorem rdN_wrN (m : Table Byte) (k n x : Nat) : rdN (wrN m k n x) k n = x % 256 ^ n := by
  induction n generalizing m k x with
  | zero => simp [rdN, Nat.mod_one]
  | succ n ih =>
    simp only [rdN, wrN]
    rw [ih, rd8_wrN_other _ _ _ _ _ (by omega), rd8_wr8_same]
    rw [Nat.pow_succ, Nat.mul_comm (256 ^ n) 256, Nat.mod_mul]
    simp

@[simp] theorem rd64_wr64 (m : Table Byte) (k : Nat) (x : Word) : rd64 (wr64 m k x) k = x := by
  simp only [rd64, wr64, rdN_wrN]
  apply BitVec.eq_of_toNat_eq
  have := x.isLt
  simp only [BitVec.toNat_ofNat]
  omega

@[simp] theorem rd32_wr32 (m : Table Byte) (k : Nat) (x : Lane) : rd32 (wr32 m k x) k = x := by
  simp only [rd32, wr32, rdN_wrN]
  apply BitVec.eq_of_toNat_eq
  have := x.isLt
  simp only [BitVec.toNat_ofNat]
  omega

/-! ## The canonical form -/

theorem twfFrom_weaken [DecidableEq α] {d : α} {t : Table α} {lo lo' : Nat} (h : twfFrom d lo t = true) (hl : lo' ≤ lo) :
    twfFrom d lo' t = true := by
  cases t with
  | nil => rfl
  | cons e r =>
    simp only [twfFrom, Bool.and_eq_true, decide_eq_true_eq] at *
    exact ⟨⟨by omega, h.1.2⟩, h.2⟩

theorem twfFrom_tset [DecidableEq α] {d : α} (t : Table α) (k : Nat) (v : α) (hv : v ≠ d) (lo : Nat) (hlo : lo ≤ k)
    (h : twfFrom d lo t = true) : twfFrom d lo (tset t k v) = true := by
  induction t generalizing lo with
  | nil => simp [tset, twfFrom, hlo, hv]
  | cons e r ih =>
    obtain ⟨i, u⟩ := e
    simp only [twfFrom, Bool.and_eq_true, decide_eq_true_eq] at h
    simp only [tset]
    split
    · next he => subst he; simp [twfFrom, hlo, hv, h.2]
    · split
      · next hk =>
        simp only [twfFrom, Bool.and_eq_true, decide_eq_true_eq]
        exact ⟨⟨hlo, hv⟩, ⟨hk, h.1.2⟩, h.2⟩
      · simp only [twfFrom, Bool.and_eq_true, decide_eq_true_eq]
        exact ⟨h.1, ih (i + 1) (by omega) h.2⟩

theorem twfFrom_tdel [DecidableEq α] {d : α} (t : Table α) (k lo : Nat) (h : twfFrom d lo t = true) :
    twfFrom d lo (tdel t k) = true := by
  induction t generalizing lo with
  | nil => rfl
  | cons e r ih =>
    obtain ⟨i, u⟩ := e
    simp only [twfFrom, Bool.and_eq_true, decide_eq_true_eq] at h
    simp only [tdel]
    split
    · exact twfFrom_weaken (ih (i + 1) h.2) (by omega)
    · simp only [twfFrom, Bool.and_eq_true, decide_eq_true_eq]
      exact ⟨h.1, ih (i + 1) h.2⟩

theorem twf_tput [DecidableEq α] {d : α} {t : Table α} (k : Nat) (v : α) (h : twf d t = true) : twf d (tput d t k v) = true := by
  unfold tput
  split
  · exact twfFrom_tdel _ _ _ h
  · next hv => exact twfFrom_tset _ _ _ hv _ (Nat.zero_le _) h

/-- A table whose entries are some of a canonical table's keeps the form. -/
theorem twfFrom_filter [DecidableEq α] {d : α} (t : Table α) (p : Nat × α → Bool) (lo : Nat) (h : twfFrom d lo t = true) :
    twfFrom d lo (t.filter p) = true := by
  induction t generalizing lo with
  | nil => rfl
  | cons e r ih =>
    simp only [twfFrom, Bool.and_eq_true, decide_eq_true_eq] at h
    rw [List.filter_cons]
    split
    · simp only [twfFrom, Bool.and_eq_true, decide_eq_true_eq]
      exact ⟨h.1, ih _ h.2⟩
    · exact twfFrom_weaken (ih _ h.2) (by omega)

theorem twf_tcut [DecidableEq α] {d : α} {t : Table α} (lo hi : Nat) (h : twf d t = true) : twf d (tcut t lo hi) = true :=
  twfFrom_filter _ _ _ h

/-- No entry of a canonical table holds what an unlisted key reads as. -/
theorem twfFrom_ne [DecidableEq α] {d : α} (t : Table α) (lo : Nat) (h : twfFrom d lo t = true) : ∀ e ∈ t, e.2 ≠ d := by
  induction t generalizing lo with
  | nil => simp
  | cons e r ih =>
    simp only [twfFrom, Bool.and_eq_true, decide_eq_true_eq] at h
    intro x hx
    rcases List.mem_cons.1 hx with rfl | hx
    · exact h.1.2
    · exact ih _ h.2 x hx

theorem twf_tpaste [DecidableEq α] {d : α} {t u : Table α} (lo hi : Nat) (ht : twf d t = true) (hu : twf d u = true) :
    twf d (tpaste t u lo hi) = true := by
  have key : ∀ (l : Table α), (∀ e ∈ l, e.2 ≠ d) → ∀ t : Table α, twf d t = true →
      twf d (l.foldl (fun acc e => tset acc e.1 e.2) t) = true := by
    intro l
    induction l with
    | nil => intro _ t h; exact h
    | cons e r ih =>
      intro hl t h
      exact ih (fun x hx => hl x (List.mem_cons_of_mem _ hx)) _
        (twfFrom_tset _ _ _ (hl e List.mem_cons_self) _ (Nat.zero_le _) h)
  exact key _ (fun e he => twfFrom_ne _ _ hu e (List.mem_of_mem_filter he)) _ (twf_tcut lo hi ht)

theorem Memory.wf_nil : Memory.wf [] = true := rfl

theorem Memory.wf_wr8 {m : Table Byte} (k : Nat) (b : Byte) (h : Memory.wf m = true) : Memory.wf (wr8 m k b) = true :=
  twf_tput _ _ h

theorem Memory.wf_wrN {m : Table Byte} (k n x : Nat) (h : Memory.wf m = true) : Memory.wf (wrN m k n x) = true := by
  induction n generalizing m k x with
  | zero => exact h
  | succ n ih => exact ih _ _ (Memory.wf_wr8 _ _ h)

theorem Memory.wf_wr32 {m : Table Byte} (k : Nat) (x : Lane) (h : Memory.wf m = true) : Memory.wf (wr32 m k x) = true :=
  Memory.wf_wrN _ _ _ h

theorem Memory.wf_wr64 {m : Table Byte} (k : Nat) (x : Word) (h : Memory.wf m = true) : Memory.wf (wr64 m k x) = true :=
  Memory.wf_wrN _ _ _ h

theorem Memory.wf_wrL {m : Table Byte} (k : Nat) (bs : List Byte) (h : Memory.wf m = true) : Memory.wf (wrL m k bs) = true := by
  induction bs generalizing m k with
  | nil => exact h
  | cons b bs ih => exact ih _ (Memory.wf_wr8 _ _ h)

/-- A fold of writes keeps the canonical form when each of them does. -/
theorem Memory.wf_foldl {β : Type} (f : Table Byte → β → Table Byte) (hf : ∀ m x, Memory.wf m = true → Memory.wf (f m x) = true)
    (l : List β) (m : Table Byte) (h : Memory.wf m = true) : Memory.wf (l.foldl f m) = true := by
  induction l generalizing m with
  | nil => exact h
  | cons x xs ih => exact ih _ (hf _ _ h)

theorem Memory.wf_tcut {m : Table Byte} (lo hi : Nat) (h : Memory.wf m = true) : Memory.wf (tcut m lo hi) = true :=
  twf_tcut _ _ h

theorem Memory.wf_tpaste {m u : Table Byte} (lo hi : Nat) (h : Memory.wf m = true) (hu : Memory.wf u = true) :
    Memory.wf (tpaste m u lo hi) = true := twf_tpaste _ _ h hu

theorem Memory.wf_setA {m : Table Byte} (touch : List Nat) (h : Memory.wf m = true) : Memory.wf (setA m touch) = true :=
  Memory.wf_foldl _ (fun _ _ h => Memory.wf_wr8 _ _ h) _ _ h

theorem Memory.wf_unitPut {m : Table Byte} (u : Nat × Bool) (x : Word) (h : Memory.wf m = true) :
    Memory.wf (unitPut m u x) = true := Memory.wf_wrN _ _ _ h

theorem Memory.wf_putVUnit {m : Table Byte} (v : Table Lane) (u at_ : Nat) (h : Memory.wf m = true) :
    Memory.wf (putVUnit m v u at_) = true :=
  Memory.wf_foldl _ (fun _ _ h => Memory.wf_wr32 _ _ h) _ _ (Memory.wf_tcut _ _ h)

theorem Memory.wf_putSUnit {m : Table Byte} (x : Table Word) (u at_ : Nat) (h : Memory.wf m = true) :
    Memory.wf (putSUnit m x u at_) = true :=
  Memory.wf_foldl _ (fun _ _ h => Memory.wf_wr64 _ _ h) _ _ (Memory.wf_tcut _ _ h)

theorem Memory.wf_putUnits {m : Table Byte} (r : Regs) (us : List Nat × List Nat) (at_ : Nat) (h : Memory.wf m = true) :
    Memory.wf (putUnits m r us at_) = true :=
  Memory.wf_foldl _ (fun _ _ h => Memory.wf_putSUnit _ _ _ h) _ _
    (Memory.wf_foldl _ (fun _ _ h => Memory.wf_putVUnit _ _ _ h) _ _ h)

/-! ## Lists without repeats -/

theorem mem_insertBy {α : Type} (key : α → Nat) (x : α) (l : List α) {y : α} : y ∈ insertBy key x l ↔ y = x ∨ y ∈ l := by
  induction l with
  | nil => simp [insertBy]
  | cons z zs ih =>
    simp only [insertBy]
    split
    · simp
    · rw [List.mem_cons, ih, List.mem_cons]
      tauto

theorem mem_sortBy {α : Type} (key : α → Nat) (l : List α) {y : α} : y ∈ sortBy key l ↔ y ∈ l := by
  have h : ∀ (l acc : List α), y ∈ l.foldl (fun acc x => insertBy key x acc) acc ↔ y ∈ acc ∨ y ∈ l := by
    intro l
    induction l with
    | nil => intro acc; simp
    | cons x xs ih => intro acc; rw [List.foldl_cons, ih, mem_insertBy, List.mem_cons]; tauto
  rw [sortBy, h]; simp

theorem mem_addTo {n m : Nat} {l : List Nat} : m ∈ addTo n l ↔ m = n ∨ m ∈ l := by
  induction l with
  | nil => simp [addTo]
  | cons y ys ih =>
    simp only [addTo]
    split
    · next h => subst h; simp
    · split
      · simp
      · simp only [List.mem_cons, ih]
        tauto

end Sys2Proof.Machine
end

