-- ==== Sys2Proof/Laws/Lanes.lean ====
section
/-! SUPPORT. Masks of lanes, bit by bit: the lanes of a mask, the mask of a test, and the masks that compares and loads write. -/

namespace Sys2Proof.Machine

theorem mem_lanesOf (m : Mask) (l : Nat) : l ∈ lanesOf m ↔ l < 32 ∧ bitOf m l = true := by
  simp [lanesOf, lanes, List.mem_filter, List.mem_range]

theorem bit_foldr (f : Nat → Bool) (ls : List Nat) (l : Nat) (hl : l < 32) (hls : ∀ n ∈ ls, n < 32) :
    bitOf (ls.foldr (fun n (acc : Mask) => if f n then acc ||| (1#32 <<< n) else acc) 0) l = (decide (l ∈ ls) && f l) := by
  induction ls with
  | nil => simp [bitOf]
  | cons a ls ih =>
    have ih' := ih (fun n hn => hls n (List.mem_cons_of_mem _ hn))
    have ha := hls a List.mem_cons_self
    rw [List.foldr_cons]
    by_cases hf : f a = true
    · rw [if_pos hf]
      unfold bitOf at *
      rw [BitVec.getLsbD_or, ih']
      by_cases e : l = a
      · subst e; simp [hf, hl]
      · have : (1#32 <<< a).getLsbD l = false := by
          rw [BitVec.getLsbD_shiftLeft]
          by_cases hla : l < a
          · simp [hla]
          · have : l - a ≠ 0 := by omega
            simp [BitVec.getLsbD_one, this]
        rw [this]; simp [e]
    · rw [if_neg hf, ih']
      by_cases e : l = a
      · subst e; simp [hf]
      · simp [e]

/-- A lane stands in the mask of a test when it satisfies the test. -/
theorem bit_maskOf (f : Nat → Bool) (l : Nat) (hl : l < 32) : bitOf (maskOf f) l = f l := by
  unfold maskOf lanes
  rw [bit_foldr f _ l hl (fun n hn => List.mem_range.1 hn)]
  simp [hl]

/-- A compare gives 1 for the active lanes where it holds and 0 elsewhere. -/
theorem bit_compareMask (act : Mask) (f : Nat → Bool) (l : Nat) (hl : l < 32) :
    bitOf (compareMask act f) l = (bitOf act l && f l) := bit_maskOf _ l hl

/-- R212: the residency predicate of a vector load. -/
theorem bit_residencyMask (old act : Mask) (f : Nat → Bool) (l : Nat) (hl : l < 32) :
    bitOf (residencyMask old act f) l = if bitOf act l then f l else bitOf old l := by
  have h := bit_compareMask act f l hl
  unfold residencyMask
  unfold bitOf at *
  rw [BitVec.getLsbD_or, BitVec.getLsbD_and, BitVec.getLsbD_not, h]
  cases h1 : act.getLsbD l <;> simp [hl]

/-- A mask without lanes is zero. -/
theorem mask_zero {m : Mask} (h : ∀ l, l < 32 → bitOf m l = false) : m = 0 := by
  apply BitVec.eq_of_getLsbD_eq
  intro l hl
  simpa [bitOf] using h l hl

end Sys2Proof.Machine
end

