-- ==== Sys2Proof/Laws/State.lean ====
section
/-! SUPPORT. What each named update of the state changes and leaves alone, field by field. -/

namespace Sys2Proof.Machine.State

/-! ## setDie -/

@[simp] theorem setDie_up (s : State) (p : Nat) (d : Die) : (s.setDie p d).up = s.up := rfl
@[simp] theorem setDie_disabled (s : State) (p : Nat) (d : Die) : (s.setDie p d).disabled = s.disabled := rfl
@[simp] theorem setDie_tick (s : State) (p : Nat) (d : Die) : (s.setDie p d).tick = s.tick := rfl
@[simp] theorem setDie_groups (s : State) (p : Nat) (d : Die) : (s.setDie p d).groups = s.groups := rfl
@[simp] theorem setDie_blocks (s : State) (p : Nat) (d : Die) : (s.setDie p d).blocks = s.blocks := rfl
@[simp] theorem setDie_cores (s : State) (p : Nat) (d : Die) : (s.setDie p d).cores = s.cores := rfl
@[simp] theorem setDie_launches (s : State) (p : Nat) (d : Die) : (s.setDie p d).launches = s.launches := rfl
@[simp] theorem setDie_parts (s : State) (p : Nat) (d : Die) : (s.setDie p d).parts = s.parts := rfl
@[simp] theorem setDie_loads (s : State) (p : Nat) (d : Die) : (s.setDie p d).loads = s.loads := rfl
@[simp] theorem setDie_ops (s : State) (p : Nat) (d : Die) : (s.setDie p d).ops = s.ops := rfl
@[simp] theorem setDie_mem (s : State) (p : Nat) (d : Die) : (s.setDie p d).mem = s.mem := rfl
@[simp] theorem setDie_poison (s : State) (p : Nat) (d : Die) : (s.setDie p d).poison = s.poison := rfl
@[simp] theorem setDie_lost (s : State) (p : Nat) (d : Die) : (s.setDie p d).lost = s.lost := rfl
@[simp] theorem setDie_llc (s : State) (p : Nat) (d : Die) : (s.setDie p d).llc = s.llc := rfl
@[simp] theorem setDie_tiers (s : State) (p : Nat) (d : Die) : (s.setDie p d).tiers = s.tiers := rfl
@[simp] theorem setDie_aer (s : State) (p : Nat) (d : Die) : (s.setDie p d).aer = s.aer := rfl
@[simp] theorem setDie_msix (s : State) (p : Nat) (d : Die) : (s.setDie p d).msix = s.msix := rfl
@[simp] theorem setDie_mlog (s : State) (p : Nat) (d : Die) : (s.setDie p d).mlog = s.mlog := rfl
@[simp] theorem setDie_layouts (s : State) (p : Nat) (d : Die) : (s.setDie p d).layouts = s.layouts := rfl
@[simp] theorem setDie_pinq (s : State) (p : Nat) (d : Die) : (s.setDie p d).pinq = s.pinq := rfl
@[simp] theorem setDie_hostw (s : State) (p : Nat) (d : Die) : (s.setDie p d).hostw = s.hostw := rfl
@[simp] theorem setDie_hostr (s : State) (p : Nat) (d : Die) : (s.setDie p d).hostr = s.hostr := rfl
@[simp] theorem setDie_sent (s : State) (p : Nat) (d : Die) : (s.setDie p d).sent = s.sent := rfl
@[simp] theorem setDie_cur (s : State) (p : Nat) (d : Die) : (s.setDie p d).cur = s.cur := rfl
@[simp] theorem setDie_fresh (s : State) (p : Nat) (d : Die) : (s.setDie p d).fresh = s.fresh := rfl
@[simp] theorem setDie_seq (s : State) (p : Nat) (d : Die) : (s.setDie p d).seq = s.seq := rfl
@[simp] theorem setDie_free (s : State) (p : Nat) (d : Die) : (s.setDie p d).free = s.free := rfl
@[simp] theorem setDie_agenda (s : State) (p : Nat) (d : Die) : (s.setDie p d).agenda = s.agenda := rfl

/-! ## modDie -/

@[simp] theorem modDie_up (s : State) (p : Nat) (f : Die → Die) : (s.modDie p f).up = s.up := rfl
@[simp] theorem modDie_disabled (s : State) (p : Nat) (f : Die → Die) : (s.modDie p f).disabled = s.disabled := rfl
@[simp] theorem modDie_tick (s : State) (p : Nat) (f : Die → Die) : (s.modDie p f).tick = s.tick := rfl
@[simp] theorem modDie_groups (s : State) (p : Nat) (f : Die → Die) : (s.modDie p f).groups = s.groups := rfl
@[simp] theorem modDie_blocks (s : State) (p : Nat) (f : Die → Die) : (s.modDie p f).blocks = s.blocks := rfl
@[simp] theorem modDie_cores (s : State) (p : Nat) (f : Die → Die) : (s.modDie p f).cores = s.cores := rfl
@[simp] theorem modDie_launches (s : State) (p : Nat) (f : Die → Die) : (s.modDie p f).launches = s.launches := rfl
@[simp] theorem modDie_parts (s : State) (p : Nat) (f : Die → Die) : (s.modDie p f).parts = s.parts := rfl
@[simp] theorem modDie_loads (s : State) (p : Nat) (f : Die → Die) : (s.modDie p f).loads = s.loads := rfl
@[simp] theorem modDie_ops (s : State) (p : Nat) (f : Die → Die) : (s.modDie p f).ops = s.ops := rfl
@[simp] theorem modDie_mem (s : State) (p : Nat) (f : Die → Die) : (s.modDie p f).mem = s.mem := rfl
@[simp] theorem modDie_poison (s : State) (p : Nat) (f : Die → Die) : (s.modDie p f).poison = s.poison := rfl
@[simp] theorem modDie_lost (s : State) (p : Nat) (f : Die → Die) : (s.modDie p f).lost = s.lost := rfl
@[simp] theorem modDie_llc (s : State) (p : Nat) (f : Die → Die) : (s.modDie p f).llc = s.llc := rfl
@[simp] theorem modDie_tiers (s : State) (p : Nat) (f : Die → Die) : (s.modDie p f).tiers = s.tiers := rfl
@[simp] theorem modDie_aer (s : State) (p : Nat) (f : Die → Die) : (s.modDie p f).aer = s.aer := rfl
@[simp] theorem modDie_msix (s : State) (p : Nat) (f : Die → Die) : (s.modDie p f).msix = s.msix := rfl
@[simp] theorem modDie_mlog (s : State) (p : Nat) (f : Die → Die) : (s.modDie p f).mlog = s.mlog := rfl
@[simp] theorem modDie_layouts (s : State) (p : Nat) (f : Die → Die) : (s.modDie p f).layouts = s.layouts := rfl
@[simp] theorem modDie_pinq (s : State) (p : Nat) (f : Die → Die) : (s.modDie p f).pinq = s.pinq := rfl
@[simp] theorem modDie_hostw (s : State) (p : Nat) (f : Die → Die) : (s.modDie p f).hostw = s.hostw := rfl
@[simp] theorem modDie_hostr (s : State) (p : Nat) (f : Die → Die) : (s.modDie p f).hostr = s.hostr := rfl
@[simp] theorem modDie_sent (s : State) (p : Nat) (f : Die → Die) : (s.modDie p f).sent = s.sent := rfl
@[simp] theorem modDie_cur (s : State) (p : Nat) (f : Die → Die) : (s.modDie p f).cur = s.cur := rfl
@[simp] theorem modDie_fresh (s : State) (p : Nat) (f : Die → Die) : (s.modDie p f).fresh = s.fresh := rfl
@[simp] theorem modDie_seq (s : State) (p : Nat) (f : Die → Die) : (s.modDie p f).seq = s.seq := rfl
@[simp] theorem modDie_free (s : State) (p : Nat) (f : Die → Die) : (s.modDie p f).free = s.free := rfl
@[simp] theorem modDie_agenda (s : State) (p : Nat) (f : Die → Die) : (s.modDie p f).agenda = s.agenda := rfl

/-! ## setCore -/

@[simp] theorem setCore_up (s : State) (k : Nat) (c : Core) : (s.setCore k c).up = s.up := rfl
@[simp] theorem setCore_disabled (s : State) (k : Nat) (c : Core) : (s.setCore k c).disabled = s.disabled := rfl
@[simp] theorem setCore_tick (s : State) (k : Nat) (c : Core) : (s.setCore k c).tick = s.tick := rfl
@[simp] theorem setCore_groups (s : State) (k : Nat) (c : Core) : (s.setCore k c).groups = s.groups := rfl
@[simp] theorem setCore_blocks (s : State) (k : Nat) (c : Core) : (s.setCore k c).blocks = s.blocks := rfl
@[simp] theorem setCore_dies (s : State) (k : Nat) (c : Core) : (s.setCore k c).dies = s.dies := rfl
@[simp] theorem setCore_launches (s : State) (k : Nat) (c : Core) : (s.setCore k c).launches = s.launches := rfl
@[simp] theorem setCore_parts (s : State) (k : Nat) (c : Core) : (s.setCore k c).parts = s.parts := rfl
@[simp] theorem setCore_loads (s : State) (k : Nat) (c : Core) : (s.setCore k c).loads = s.loads := rfl
@[simp] theorem setCore_ops (s : State) (k : Nat) (c : Core) : (s.setCore k c).ops = s.ops := rfl
@[simp] theorem setCore_mem (s : State) (k : Nat) (c : Core) : (s.setCore k c).mem = s.mem := rfl
@[simp] theorem setCore_poison (s : State) (k : Nat) (c : Core) : (s.setCore k c).poison = s.poison := rfl
@[simp] theorem setCore_lost (s : State) (k : Nat) (c : Core) : (s.setCore k c).lost = s.lost := rfl
@[simp] theorem setCore_llc (s : State) (k : Nat) (c : Core) : (s.setCore k c).llc = s.llc := rfl
@[simp] theorem setCore_tiers (s : State) (k : Nat) (c : Core) : (s.setCore k c).tiers = s.tiers := rfl
@[simp] theorem setCore_aer (s : State) (k : Nat) (c : Core) : (s.setCore k c).aer = s.aer := rfl
@[simp] theorem setCore_msix (s : State) (k : Nat) (c : Core) : (s.setCore k c).msix = s.msix := rfl
@[simp] theorem setCore_mlog (s : State) (k : Nat) (c : Core) : (s.setCore k c).mlog = s.mlog := rfl
@[simp] theorem setCore_layouts (s : State) (k : Nat) (c : Core) : (s.setCore k c).layouts = s.layouts := rfl
@[simp] theorem setCore_pinq (s : State) (k : Nat) (c : Core) : (s.setCore k c).pinq = s.pinq := rfl
@[simp] theorem setCore_hostw (s : State) (k : Nat) (c : Core) : (s.setCore k c).hostw = s.hostw := rfl
@[simp] theorem setCore_hostr (s : State) (k : Nat) (c : Core) : (s.setCore k c).hostr = s.hostr := rfl
@[simp] theorem setCore_sent (s : State) (k : Nat) (c : Core) : (s.setCore k c).sent = s.sent := rfl
@[simp] theorem setCore_cur (s : State) (k : Nat) (c : Core) : (s.setCore k c).cur = s.cur := rfl
@[simp] theorem setCore_fresh (s : State) (k : Nat) (c : Core) : (s.setCore k c).fresh = s.fresh := rfl
@[simp] theorem setCore_seq (s : State) (k : Nat) (c : Core) : (s.setCore k c).seq = s.seq := rfl
@[simp] theorem setCore_free (s : State) (k : Nat) (c : Core) : (s.setCore k c).free = s.free := rfl
@[simp] theorem setCore_agenda (s : State) (k : Nat) (c : Core) : (s.setCore k c).agenda = s.agenda := rfl

/-! ## modCore -/

@[simp] theorem modCore_up (s : State) (k : Nat) (f : Core → Core) : (s.modCore k f).up = s.up := rfl
@[simp] theorem modCore_disabled (s : State) (k : Nat) (f : Core → Core) : (s.modCore k f).disabled = s.disabled := rfl
@[simp] theorem modCore_tick (s : State) (k : Nat) (f : Core → Core) : (s.modCore k f).tick = s.tick := rfl
@[simp] theorem modCore_groups (s : State) (k : Nat) (f : Core → Core) : (s.modCore k f).groups = s.groups := rfl
@[simp] theorem modCore_blocks (s : State) (k : Nat) (f : Core → Core) : (s.modCore k f).blocks = s.blocks := rfl
@[simp] theorem modCore_dies (s : State) (k : Nat) (f : Core → Core) : (s.modCore k f).dies = s.dies := rfl
@[simp] theorem modCore_launches (s : State) (k : Nat) (f : Core → Core) : (s.modCore k f).launches = s.launches := rfl
@[simp] theorem modCore_parts (s : State) (k : Nat) (f : Core → Core) : (s.modCore k f).parts = s.parts := rfl
@[simp] theorem modCore_loads (s : State) (k : Nat) (f : Core → Core) : (s.modCore k f).loads = s.loads := rfl
@[simp] theorem modCore_ops (s : State) (k : Nat) (f : Core → Core) : (s.modCore k f).ops = s.ops := rfl
@[simp] theorem modCore_mem (s : State) (k : Nat) (f : Core → Core) : (s.modCore k f).mem = s.mem := rfl
@[simp] theorem modCore_poison (s : State) (k : Nat) (f : Core → Core) : (s.modCore k f).poison = s.poison := rfl
@[simp] theorem modCore_lost (s : State) (k : Nat) (f : Core → Core) : (s.modCore k f).lost = s.lost := rfl
@[simp] theorem modCore_llc (s : State) (k : Nat) (f : Core → Core) : (s.modCore k f).llc = s.llc := rfl
@[simp] theorem modCore_tiers (s : State) (k : Nat) (f : Core → Core) : (s.modCore k f).tiers = s.tiers := rfl
@[simp] theorem modCore_aer (s : State) (k : Nat) (f : Core → Core) : (s.modCore k f).aer = s.aer := rfl
@[simp] theorem modCore_msix (s : State) (k : Nat) (f : Core → Core) : (s.modCore k f).msix = s.msix := rfl
@[simp] theorem modCore_mlog (s : State) (k : Nat) (f : Core → Core) : (s.modCore k f).mlog = s.mlog := rfl
@[simp] theorem modCore_layouts (s : State) (k : Nat) (f : Core → Core) : (s.modCore k f).layouts = s.layouts := rfl
@[simp] theorem modCore_pinq (s : State) (k : Nat) (f : Core → Core) : (s.modCore k f).pinq = s.pinq := rfl
@[simp] theorem modCore_hostw (s : State) (k : Nat) (f : Core → Core) : (s.modCore k f).hostw = s.hostw := rfl
@[simp] theorem modCore_hostr (s : State) (k : Nat) (f : Core → Core) : (s.modCore k f).hostr = s.hostr := rfl
@[simp] theorem modCore_sent (s : State) (k : Nat) (f : Core → Core) : (s.modCore k f).sent = s.sent := rfl
@[simp] theorem modCore_cur (s : State) (k : Nat) (f : Core → Core) : (s.modCore k f).cur = s.cur := rfl
@[simp] theorem modCore_fresh (s : State) (k : Nat) (f : Core → Core) : (s.modCore k f).fresh = s.fresh := rfl
@[simp] theorem modCore_seq (s : State) (k : Nat) (f : Core → Core) : (s.modCore k f).seq = s.seq := rfl
@[simp] theorem modCore_free (s : State) (k : Nat) (f : Core → Core) : (s.modCore k f).free = s.free := rfl
@[simp] theorem modCore_agenda (s : State) (k : Nat) (f : Core → Core) : (s.modCore k f).agenda = s.agenda := rfl

/-! ## setGroup -/

@[simp] theorem setGroup_up (s : State) (g : Nat) (x : Group) : (s.setGroup g x).up = s.up := rfl
@[simp] theorem setGroup_disabled (s : State) (g : Nat) (x : Group) : (s.setGroup g x).disabled = s.disabled := rfl
@[simp] theorem setGroup_tick (s : State) (g : Nat) (x : Group) : (s.setGroup g x).tick = s.tick := rfl
@[simp] theorem setGroup_blocks (s : State) (g : Nat) (x : Group) : (s.setGroup g x).blocks = s.blocks := rfl
@[simp] theorem setGroup_cores (s : State) (g : Nat) (x : Group) : (s.setGroup g x).cores = s.cores := rfl
@[simp] theorem setGroup_dies (s : State) (g : Nat) (x : Group) : (s.setGroup g x).dies = s.dies := rfl
@[simp] theorem setGroup_launches (s : State) (g : Nat) (x : Group) : (s.setGroup g x).launches = s.launches := rfl
@[simp] theorem setGroup_parts (s : State) (g : Nat) (x : Group) : (s.setGroup g x).parts = s.parts := rfl
@[simp] theorem setGroup_loads (s : State) (g : Nat) (x : Group) : (s.setGroup g x).loads = s.loads := rfl
@[simp] theorem setGroup_ops (s : State) (g : Nat) (x : Group) : (s.setGroup g x).ops = s.ops := rfl
@[simp] theorem setGroup_mem (s : State) (g : Nat) (x : Group) : (s.setGroup g x).mem = s.mem := rfl
@[simp] theorem setGroup_poison (s : State) (g : Nat) (x : Group) : (s.setGroup g x).poison = s.poison := rfl
@[simp] theorem setGroup_lost (s : State) (g : Nat) (x : Group) : (s.setGroup g x).lost = s.lost := rfl
@[simp] theorem setGroup_llc (s : State) (g : Nat) (x : Group) : (s.setGroup g x).llc = s.llc := rfl
@[simp] theorem setGroup_tiers (s : State) (g : Nat) (x : Group) : (s.setGroup g x).tiers = s.tiers := rfl
@[simp] theorem setGroup_aer (s : State) (g : Nat) (x : Group) : (s.setGroup g x).aer = s.aer := rfl
@[simp] theorem setGroup_msix (s : State) (g : Nat) (x : Group) : (s.setGroup g x).msix = s.msix := rfl
@[simp] theorem setGroup_mlog (s : State) (g : Nat) (x : Group) : (s.setGroup g x).mlog = s.mlog := rfl
@[simp] theorem setGroup_layouts (s : State) (g : Nat) (x : Group) : (s.setGroup g x).layouts = s.layouts := rfl
@[simp] theorem setGroup_pinq (s : State) (g : Nat) (x : Group) : (s.setGroup g x).pinq = s.pinq := rfl
@[simp] theorem setGroup_hostw (s : State) (g : Nat) (x : Group) : (s.setGroup g x).hostw = s.hostw := rfl
@[simp] theorem setGroup_hostr (s : State) (g : Nat) (x : Group) : (s.setGroup g x).hostr = s.hostr := rfl
@[simp] theorem setGroup_sent (s : State) (g : Nat) (x : Group) : (s.setGroup g x).sent = s.sent := rfl
@[simp] theorem setGroup_cur (s : State) (g : Nat) (x : Group) : (s.setGroup g x).cur = s.cur := rfl
@[simp] theorem setGroup_fresh (s : State) (g : Nat) (x : Group) : (s.setGroup g x).fresh = s.fresh := rfl
@[simp] theorem setGroup_seq (s : State) (g : Nat) (x : Group) : (s.setGroup g x).seq = s.seq := rfl
@[simp] theorem setGroup_free (s : State) (g : Nat) (x : Group) : (s.setGroup g x).free = s.free := rfl
@[simp] theorem setGroup_agenda (s : State) (g : Nat) (x : Group) : (s.setGroup g x).agenda = s.agenda := rfl

/-! ## modGroup -/

@[simp] theorem modGroup_up (s : State) (g : Nat) (f : Group → Group) : (s.modGroup g f).up = s.up := by unfold State.modGroup; split <;> rfl
@[simp] theorem modGroup_disabled (s : State) (g : Nat) (f : Group → Group) : (s.modGroup g f).disabled = s.disabled := by unfold State.modGroup; split <;> rfl
@[simp] theorem modGroup_tick (s : State) (g : Nat) (f : Group → Group) : (s.modGroup g f).tick = s.tick := by unfold State.modGroup; split <;> rfl
@[simp] theorem modGroup_blocks (s : State) (g : Nat) (f : Group → Group) : (s.modGroup g f).blocks = s.blocks := by unfold State.modGroup; split <;> rfl
@[simp] theorem modGroup_cores (s : State) (g : Nat) (f : Group → Group) : (s.modGroup g f).cores = s.cores := by unfold State.modGroup; split <;> rfl
@[simp] theorem modGroup_dies (s : State) (g : Nat) (f : Group → Group) : (s.modGroup g f).dies = s.dies := by unfold State.modGroup; split <;> rfl
@[simp] theorem modGroup_launches (s : State) (g : Nat) (f : Group → Group) : (s.modGroup g f).launches = s.launches := by unfold State.modGroup; split <;> rfl
@[simp] theorem modGroup_parts (s : State) (g : Nat) (f : Group → Group) : (s.modGroup g f).parts = s.parts := by unfold State.modGroup; split <;> rfl
@[simp] theorem modGroup_loads (s : State) (g : Nat) (f : Group → Group) : (s.modGroup g f).loads = s.loads := by unfold State.modGroup; split <;> rfl
@[simp] theorem modGroup_ops (s : State) (g : Nat) (f : Group → Group) : (s.modGroup g f).ops = s.ops := by unfold State.modGroup; split <;> rfl
@[simp] theorem modGroup_mem (s : State) (g : Nat) (f : Group → Group) : (s.modGroup g f).mem = s.mem := by unfold State.modGroup; split <;> rfl
@[simp] theorem modGroup_poison (s : State) (g : Nat) (f : Group → Group) : (s.modGroup g f).poison = s.poison := by unfold State.modGroup; split <;> rfl
@[simp] theorem modGroup_lost (s : State) (g : Nat) (f : Group → Group) : (s.modGroup g f).lost = s.lost := by unfold State.modGroup; split <;> rfl
@[simp] theorem modGroup_llc (s : State) (g : Nat) (f : Group → Group) : (s.modGroup g f).llc = s.llc := by unfold State.modGroup; split <;> rfl
@[simp] theorem modGroup_tiers (s : State) (g : Nat) (f : Group → Group) : (s.modGroup g f).tiers = s.tiers := by unfold State.modGroup; split <;> rfl
@[simp] theorem modGroup_aer (s : State) (g : Nat) (f : Group → Group) : (s.modGroup g f).aer = s.aer := by unfold State.modGroup; split <;> rfl
@[simp] theorem modGroup_msix (s : State) (g : Nat) (f : Group → Group) : (s.modGroup g f).msix = s.msix := by unfold State.modGroup; split <;> rfl
@[simp] theorem modGroup_mlog (s : State) (g : Nat) (f : Group → Group) : (s.modGroup g f).mlog = s.mlog := by unfold State.modGroup; split <;> rfl
@[simp] theorem modGroup_layouts (s : State) (g : Nat) (f : Group → Group) : (s.modGroup g f).layouts = s.layouts := by unfold State.modGroup; split <;> rfl
@[simp] theorem modGroup_pinq (s : State) (g : Nat) (f : Group → Group) : (s.modGroup g f).pinq = s.pinq := by unfold State.modGroup; split <;> rfl
@[simp] theorem modGroup_hostw (s : State) (g : Nat) (f : Group → Group) : (s.modGroup g f).hostw = s.hostw := by unfold State.modGroup; split <;> rfl
@[simp] theorem modGroup_hostr (s : State) (g : Nat) (f : Group → Group) : (s.modGroup g f).hostr = s.hostr := by unfold State.modGroup; split <;> rfl
@[simp] theorem modGroup_sent (s : State) (g : Nat) (f : Group → Group) : (s.modGroup g f).sent = s.sent := by unfold State.modGroup; split <;> rfl
@[simp] theorem modGroup_cur (s : State) (g : Nat) (f : Group → Group) : (s.modGroup g f).cur = s.cur := by unfold State.modGroup; split <;> rfl
@[simp] theorem modGroup_fresh (s : State) (g : Nat) (f : Group → Group) : (s.modGroup g f).fresh = s.fresh := by unfold State.modGroup; split <;> rfl
@[simp] theorem modGroup_seq (s : State) (g : Nat) (f : Group → Group) : (s.modGroup g f).seq = s.seq := by unfold State.modGroup; split <;> rfl
@[simp] theorem modGroup_free (s : State) (g : Nat) (f : Group → Group) : (s.modGroup g f).free = s.free := by unfold State.modGroup; split <;> rfl
@[simp] theorem modGroup_agenda (s : State) (g : Nat) (f : Group → Group) : (s.modGroup g f).agenda = s.agenda := by unfold State.modGroup; split <;> rfl

/-! ## modAnyGroup -/

@[simp] theorem modAnyGroup_up (s : State) (g : Nat) (f : Group → Group) : (s.modAnyGroup g f).up = s.up := by unfold State.modAnyGroup; split <;> rfl
@[simp] theorem modAnyGroup_disabled (s : State) (g : Nat) (f : Group → Group) : (s.modAnyGroup g f).disabled = s.disabled := by unfold State.modAnyGroup; split <;> rfl
@[simp] theorem modAnyGroup_tick (s : State) (g : Nat) (f : Group → Group) : (s.modAnyGroup g f).tick = s.tick := by unfold State.modAnyGroup; split <;> rfl
@[simp] theorem modAnyGroup_blocks (s : State) (g : Nat) (f : Group → Group) : (s.modAnyGroup g f).blocks = s.blocks := by unfold State.modAnyGroup; split <;> rfl
@[simp] theorem modAnyGroup_cores (s : State) (g : Nat) (f : Group → Group) : (s.modAnyGroup g f).cores = s.cores := by unfold State.modAnyGroup; split <;> rfl
@[simp] theorem modAnyGroup_dies (s : State) (g : Nat) (f : Group → Group) : (s.modAnyGroup g f).dies = s.dies := by unfold State.modAnyGroup; split <;> rfl
@[simp] theorem modAnyGroup_launches (s : State) (g : Nat) (f : Group → Group) : (s.modAnyGroup g f).launches = s.launches := by unfold State.modAnyGroup; split <;> rfl
@[simp] theorem modAnyGroup_loads (s : State) (g : Nat) (f : Group → Group) : (s.modAnyGroup g f).loads = s.loads := by unfold State.modAnyGroup; split <;> rfl
@[simp] theorem modAnyGroup_ops (s : State) (g : Nat) (f : Group → Group) : (s.modAnyGroup g f).ops = s.ops := by unfold State.modAnyGroup; split <;> rfl
@[simp] theorem modAnyGroup_mem (s : State) (g : Nat) (f : Group → Group) : (s.modAnyGroup g f).mem = s.mem := by unfold State.modAnyGroup; split <;> rfl
@[simp] theorem modAnyGroup_poison (s : State) (g : Nat) (f : Group → Group) : (s.modAnyGroup g f).poison = s.poison := by unfold State.modAnyGroup; split <;> rfl
@[simp] theorem modAnyGroup_lost (s : State) (g : Nat) (f : Group → Group) : (s.modAnyGroup g f).lost = s.lost := by unfold State.modAnyGroup; split <;> rfl
@[simp] theorem modAnyGroup_llc (s : State) (g : Nat) (f : Group → Group) : (s.modAnyGroup g f).llc = s.llc := by unfold State.modAnyGroup; split <;> rfl
@[simp] theorem modAnyGroup_tiers (s : State) (g : Nat) (f : Group → Group) : (s.modAnyGroup g f).tiers = s.tiers := by unfold State.modAnyGroup; split <;> rfl
@[simp] theorem modAnyGroup_aer (s : State) (g : Nat) (f : Group → Group) : (s.modAnyGroup g f).aer = s.aer := by unfold State.modAnyGroup; split <;> rfl
@[simp] theorem modAnyGroup_msix (s : State) (g : Nat) (f : Group → Group) : (s.modAnyGroup g f).msix = s.msix := by unfold State.modAnyGroup; split <;> rfl
@[simp] theorem modAnyGroup_mlog (s : State) (g : Nat) (f : Group → Group) : (s.modAnyGroup g f).mlog = s.mlog := by unfold State.modAnyGroup; split <;> rfl
@[simp] theorem modAnyGroup_layouts (s : State) (g : Nat) (f : Group → Group) : (s.modAnyGroup g f).layouts = s.layouts := by unfold State.modAnyGroup; split <;> rfl
@[simp] theorem modAnyGroup_pinq (s : State) (g : Nat) (f : Group → Group) : (s.modAnyGroup g f).pinq = s.pinq := by unfold State.modAnyGroup; split <;> rfl
@[simp] theorem modAnyGroup_hostw (s : State) (g : Nat) (f : Group → Group) : (s.modAnyGroup g f).hostw = s.hostw := by unfold State.modAnyGroup; split <;> rfl
@[simp] theorem modAnyGroup_hostr (s : State) (g : Nat) (f : Group → Group) : (s.modAnyGroup g f).hostr = s.hostr := by unfold State.modAnyGroup; split <;> rfl
@[simp] theorem modAnyGroup_sent (s : State) (g : Nat) (f : Group → Group) : (s.modAnyGroup g f).sent = s.sent := by unfold State.modAnyGroup; split <;> rfl
@[simp] theorem modAnyGroup_cur (s : State) (g : Nat) (f : Group → Group) : (s.modAnyGroup g f).cur = s.cur := by unfold State.modAnyGroup; split <;> rfl
@[simp] theorem modAnyGroup_fresh (s : State) (g : Nat) (f : Group → Group) : (s.modAnyGroup g f).fresh = s.fresh := by unfold State.modAnyGroup; split <;> rfl
@[simp] theorem modAnyGroup_seq (s : State) (g : Nat) (f : Group → Group) : (s.modAnyGroup g f).seq = s.seq := by unfold State.modAnyGroup; split <;> rfl
@[simp] theorem modAnyGroup_free (s : State) (g : Nat) (f : Group → Group) : (s.modAnyGroup g f).free = s.free := by unfold State.modAnyGroup; split <;> rfl
@[simp] theorem modAnyGroup_agenda (s : State) (g : Nat) (f : Group → Group) : (s.modAnyGroup g f).agenda = s.agenda := by unfold State.modAnyGroup; split <;> rfl

/-! ## setBlock -/

@[simp] theorem setBlock_up (s : State) (b : Nat) (x : Block) : (s.setBlock b x).up = s.up := rfl
@[simp] theorem setBlock_disabled (s : State) (b : Nat) (x : Block) : (s.setBlock b x).disabled = s.disabled := rfl
@[simp] theorem setBlock_tick (s : State) (b : Nat) (x : Block) : (s.setBlock b x).tick = s.tick := rfl
@[simp] theorem setBlock_groups (s : State) (b : Nat) (x : Block) : (s.setBlock b x).groups = s.groups := rfl
@[simp] theorem setBlock_cores (s : State) (b : Nat) (x : Block) : (s.setBlock b x).cores = s.cores := rfl
@[simp] theorem setBlock_dies (s : State) (b : Nat) (x : Block) : (s.setBlock b x).dies = s.dies := rfl
@[simp] theorem setBlock_launches (s : State) (b : Nat) (x : Block) : (s.setBlock b x).launches = s.launches := rfl
@[simp] theorem setBlock_parts (s : State) (b : Nat) (x : Block) : (s.setBlock b x).parts = s.parts := rfl
@[simp] theorem setBlock_loads (s : State) (b : Nat) (x : Block) : (s.setBlock b x).loads = s.loads := rfl
@[simp] theorem setBlock_ops (s : State) (b : Nat) (x : Block) : (s.setBlock b x).ops = s.ops := rfl
@[simp] theorem setBlock_mem (s : State) (b : Nat) (x : Block) : (s.setBlock b x).mem = s.mem := rfl
@[simp] theorem setBlock_poison (s : State) (b : Nat) (x : Block) : (s.setBlock b x).poison = s.poison := rfl
@[simp] theorem setBlock_lost (s : State) (b : Nat) (x : Block) : (s.setBlock b x).lost = s.lost := rfl
@[simp] theorem setBlock_llc (s : State) (b : Nat) (x : Block) : (s.setBlock b x).llc = s.llc := rfl
@[simp] theorem setBlock_tiers (s : State) (b : Nat) (x : Block) : (s.setBlock b x).tiers = s.tiers := rfl
@[simp] theorem setBlock_aer (s : State) (b : Nat) (x : Block) : (s.setBlock b x).aer = s.aer := rfl
@[simp] theorem setBlock_msix (s : State) (b : Nat) (x : Block) : (s.setBlock b x).msix = s.msix := rfl
@[simp] theorem setBlock_mlog (s : State) (b : Nat) (x : Block) : (s.setBlock b x).mlog = s.mlog := rfl
@[simp] theorem setBlock_layouts (s : State) (b : Nat) (x : Block) : (s.setBlock b x).layouts = s.layouts := rfl
@[simp] theorem setBlock_pinq (s : State) (b : Nat) (x : Block) : (s.setBlock b x).pinq = s.pinq := rfl
@[simp] theorem setBlock_hostw (s : State) (b : Nat) (x : Block) : (s.setBlock b x).hostw = s.hostw := rfl
@[simp] theorem setBlock_hostr (s : State) (b : Nat) (x : Block) : (s.setBlock b x).hostr = s.hostr := rfl
@[simp] theorem setBlock_sent (s : State) (b : Nat) (x : Block) : (s.setBlock b x).sent = s.sent := rfl
@[simp] theorem setBlock_cur (s : State) (b : Nat) (x : Block) : (s.setBlock b x).cur = s.cur := rfl
@[simp] theorem setBlock_fresh (s : State) (b : Nat) (x : Block) : (s.setBlock b x).fresh = s.fresh := rfl
@[simp] theorem setBlock_seq (s : State) (b : Nat) (x : Block) : (s.setBlock b x).seq = s.seq := rfl
@[simp] theorem setBlock_free (s : State) (b : Nat) (x : Block) : (s.setBlock b x).free = s.free := rfl
@[simp] theorem setBlock_agenda (s : State) (b : Nat) (x : Block) : (s.setBlock b x).agenda = s.agenda := rfl

/-! ## modBlock -/

@[simp] theorem modBlock_up (s : State) (b : Nat) (f : Block → Block) : (s.modBlock b f).up = s.up := by unfold State.modBlock; split <;> rfl
@[simp] theorem modBlock_disabled (s : State) (b : Nat) (f : Block → Block) : (s.modBlock b f).disabled = s.disabled := by unfold State.modBlock; split <;> rfl
@[simp] theorem modBlock_tick (s : State) (b : Nat) (f : Block → Block) : (s.modBlock b f).tick = s.tick := by unfold State.modBlock; split <;> rfl
@[simp] theorem modBlock_groups (s : State) (b : Nat) (f : Block → Block) : (s.modBlock b f).groups = s.groups := by unfold State.modBlock; split <;> rfl
@[simp] theorem modBlock_cores (s : State) (b : Nat) (f : Block → Block) : (s.modBlock b f).cores = s.cores := by unfold State.modBlock; split <;> rfl
@[simp] theorem modBlock_dies (s : State) (b : Nat) (f : Block → Block) : (s.modBlock b f).dies = s.dies := by unfold State.modBlock; split <;> rfl
@[simp] theorem modBlock_launches (s : State) (b : Nat) (f : Block → Block) : (s.modBlock b f).launches = s.launches := by unfold State.modBlock; split <;> rfl
@[simp] theorem modBlock_parts (s : State) (b : Nat) (f : Block → Block) : (s.modBlock b f).parts = s.parts := by unfold State.modBlock; split <;> rfl
@[simp] theorem modBlock_loads (s : State) (b : Nat) (f : Block → Block) : (s.modBlock b f).loads = s.loads := by unfold State.modBlock; split <;> rfl
@[simp] theorem modBlock_ops (s : State) (b : Nat) (f : Block → Block) : (s.modBlock b f).ops = s.ops := by unfold State.modBlock; split <;> rfl
@[simp] theorem modBlock_mem (s : State) (b : Nat) (f : Block → Block) : (s.modBlock b f).mem = s.mem := by unfold State.modBlock; split <;> rfl
@[simp] theorem modBlock_poison (s : State) (b : Nat) (f : Block → Block) : (s.modBlock b f).poison = s.poison := by unfold State.modBlock; split <;> rfl
@[simp] theorem modBlock_lost (s : State) (b : Nat) (f : Block → Block) : (s.modBlock b f).lost = s.lost := by unfold State.modBlock; split <;> rfl
@[simp] theorem modBlock_llc (s : State) (b : Nat) (f : Block → Block) : (s.modBlock b f).llc = s.llc := by unfold State.modBlock; split <;> rfl
@[simp] theorem modBlock_tiers (s : State) (b : Nat) (f : Block → Block) : (s.modBlock b f).tiers = s.tiers := by unfold State.modBlock; split <;> rfl
@[simp] theorem modBlock_aer (s : State) (b : Nat) (f : Block → Block) : (s.modBlock b f).aer = s.aer := by unfold State.modBlock; split <;> rfl
@[simp] theorem modBlock_msix (s : State) (b : Nat) (f : Block → Block) : (s.modBlock b f).msix = s.msix := by unfold State.modBlock; split <;> rfl
@[simp] theorem modBlock_mlog (s : State) (b : Nat) (f : Block → Block) : (s.modBlock b f).mlog = s.mlog := by unfold State.modBlock; split <;> rfl
@[simp] theorem modBlock_layouts (s : State) (b : Nat) (f : Block → Block) : (s.modBlock b f).layouts = s.layouts := by unfold State.modBlock; split <;> rfl
@[simp] theorem modBlock_pinq (s : State) (b : Nat) (f : Block → Block) : (s.modBlock b f).pinq = s.pinq := by unfold State.modBlock; split <;> rfl
@[simp] theorem modBlock_hostw (s : State) (b : Nat) (f : Block → Block) : (s.modBlock b f).hostw = s.hostw := by unfold State.modBlock; split <;> rfl
@[simp] theorem modBlock_hostr (s : State) (b : Nat) (f : Block → Block) : (s.modBlock b f).hostr = s.hostr := by unfold State.modBlock; split <;> rfl
@[simp] theorem modBlock_sent (s : State) (b : Nat) (f : Block → Block) : (s.modBlock b f).sent = s.sent := by unfold State.modBlock; split <;> rfl
@[simp] theorem modBlock_cur (s : State) (b : Nat) (f : Block → Block) : (s.modBlock b f).cur = s.cur := by unfold State.modBlock; split <;> rfl
@[simp] theorem modBlock_fresh (s : State) (b : Nat) (f : Block → Block) : (s.modBlock b f).fresh = s.fresh := by unfold State.modBlock; split <;> rfl
@[simp] theorem modBlock_seq (s : State) (b : Nat) (f : Block → Block) : (s.modBlock b f).seq = s.seq := by unfold State.modBlock; split <;> rfl
@[simp] theorem modBlock_free (s : State) (b : Nat) (f : Block → Block) : (s.modBlock b f).free = s.free := by unfold State.modBlock; split <;> rfl
@[simp] theorem modBlock_agenda (s : State) (b : Nat) (f : Block → Block) : (s.modBlock b f).agenda = s.agenda := by unfold State.modBlock; split <;> rfl

/-! ## modLaunch -/

@[simp] theorem modLaunch_up (s : State) (l : Nat) (f : Launch → Launch) : (s.modLaunch l f).up = s.up := rfl
@[simp] theorem modLaunch_disabled (s : State) (l : Nat) (f : Launch → Launch) : (s.modLaunch l f).disabled = s.disabled := rfl
@[simp] theorem modLaunch_tick (s : State) (l : Nat) (f : Launch → Launch) : (s.modLaunch l f).tick = s.tick := rfl
@[simp] theorem modLaunch_groups (s : State) (l : Nat) (f : Launch → Launch) : (s.modLaunch l f).groups = s.groups := rfl
@[simp] theorem modLaunch_blocks (s : State) (l : Nat) (f : Launch → Launch) : (s.modLaunch l f).blocks = s.blocks := rfl
@[simp] theorem modLaunch_cores (s : State) (l : Nat) (f : Launch → Launch) : (s.modLaunch l f).cores = s.cores := rfl
@[simp] theorem modLaunch_dies (s : State) (l : Nat) (f : Launch → Launch) : (s.modLaunch l f).dies = s.dies := rfl
@[simp] theorem modLaunch_parts (s : State) (l : Nat) (f : Launch → Launch) : (s.modLaunch l f).parts = s.parts := rfl
@[simp] theorem modLaunch_loads (s : State) (l : Nat) (f : Launch → Launch) : (s.modLaunch l f).loads = s.loads := rfl
@[simp] theorem modLaunch_ops (s : State) (l : Nat) (f : Launch → Launch) : (s.modLaunch l f).ops = s.ops := rfl
@[simp] theorem modLaunch_mem (s : State) (l : Nat) (f : Launch → Launch) : (s.modLaunch l f).mem = s.mem := rfl
@[simp] theorem modLaunch_poison (s : State) (l : Nat) (f : Launch → Launch) : (s.modLaunch l f).poison = s.poison := rfl
@[simp] theorem modLaunch_lost (s : State) (l : Nat) (f : Launch → Launch) : (s.modLaunch l f).lost = s.lost := rfl
@[simp] theorem modLaunch_llc (s : State) (l : Nat) (f : Launch → Launch) : (s.modLaunch l f).llc = s.llc := rfl
@[simp] theorem modLaunch_tiers (s : State) (l : Nat) (f : Launch → Launch) : (s.modLaunch l f).tiers = s.tiers := rfl
@[simp] theorem modLaunch_aer (s : State) (l : Nat) (f : Launch → Launch) : (s.modLaunch l f).aer = s.aer := rfl
@[simp] theorem modLaunch_msix (s : State) (l : Nat) (f : Launch → Launch) : (s.modLaunch l f).msix = s.msix := rfl
@[simp] theorem modLaunch_mlog (s : State) (l : Nat) (f : Launch → Launch) : (s.modLaunch l f).mlog = s.mlog := rfl
@[simp] theorem modLaunch_layouts (s : State) (l : Nat) (f : Launch → Launch) : (s.modLaunch l f).layouts = s.layouts := rfl
@[simp] theorem modLaunch_pinq (s : State) (l : Nat) (f : Launch → Launch) : (s.modLaunch l f).pinq = s.pinq := rfl
@[simp] theorem modLaunch_hostw (s : State) (l : Nat) (f : Launch → Launch) : (s.modLaunch l f).hostw = s.hostw := rfl
@[simp] theorem modLaunch_hostr (s : State) (l : Nat) (f : Launch → Launch) : (s.modLaunch l f).hostr = s.hostr := rfl
@[simp] theorem modLaunch_sent (s : State) (l : Nat) (f : Launch → Launch) : (s.modLaunch l f).sent = s.sent := rfl
@[simp] theorem modLaunch_cur (s : State) (l : Nat) (f : Launch → Launch) : (s.modLaunch l f).cur = s.cur := rfl
@[simp] theorem modLaunch_fresh (s : State) (l : Nat) (f : Launch → Launch) : (s.modLaunch l f).fresh = s.fresh := rfl
@[simp] theorem modLaunch_seq (s : State) (l : Nat) (f : Launch → Launch) : (s.modLaunch l f).seq = s.seq := rfl
@[simp] theorem modLaunch_free (s : State) (l : Nat) (f : Launch → Launch) : (s.modLaunch l f).free = s.free := rfl
@[simp] theorem modLaunch_agenda (s : State) (l : Nat) (f : Launch → Launch) : (s.modLaunch l f).agenda = s.agenda := rfl

/-! ## modPart -/

@[simp] theorem modPart_up (s : State) (p : Nat) (f : Part → Part) : (s.modPart p f).up = s.up := rfl
@[simp] theorem modPart_disabled (s : State) (p : Nat) (f : Part → Part) : (s.modPart p f).disabled = s.disabled := rfl
@[simp] theorem modPart_tick (s : State) (p : Nat) (f : Part → Part) : (s.modPart p f).tick = s.tick := rfl
@[simp] theorem modPart_groups (s : State) (p : Nat) (f : Part → Part) : (s.modPart p f).groups = s.groups := rfl
@[simp] theorem modPart_blocks (s : State) (p : Nat) (f : Part → Part) : (s.modPart p f).blocks = s.blocks := rfl
@[simp] theorem modPart_cores (s : State) (p : Nat) (f : Part → Part) : (s.modPart p f).cores = s.cores := rfl
@[simp] theorem modPart_dies (s : State) (p : Nat) (f : Part → Part) : (s.modPart p f).dies = s.dies := rfl
@[simp] theorem modPart_launches (s : State) (p : Nat) (f : Part → Part) : (s.modPart p f).launches = s.launches := rfl
@[simp] theorem modPart_loads (s : State) (p : Nat) (f : Part → Part) : (s.modPart p f).loads = s.loads := rfl
@[simp] theorem modPart_ops (s : State) (p : Nat) (f : Part → Part) : (s.modPart p f).ops = s.ops := rfl
@[simp] theorem modPart_mem (s : State) (p : Nat) (f : Part → Part) : (s.modPart p f).mem = s.mem := rfl
@[simp] theorem modPart_poison (s : State) (p : Nat) (f : Part → Part) : (s.modPart p f).poison = s.poison := rfl
@[simp] theorem modPart_lost (s : State) (p : Nat) (f : Part → Part) : (s.modPart p f).lost = s.lost := rfl
@[simp] theorem modPart_llc (s : State) (p : Nat) (f : Part → Part) : (s.modPart p f).llc = s.llc := rfl
@[simp] theorem modPart_tiers (s : State) (p : Nat) (f : Part → Part) : (s.modPart p f).tiers = s.tiers := rfl
@[simp] theorem modPart_aer (s : State) (p : Nat) (f : Part → Part) : (s.modPart p f).aer = s.aer := rfl
@[simp] theorem modPart_msix (s : State) (p : Nat) (f : Part → Part) : (s.modPart p f).msix = s.msix := rfl
@[simp] theorem modPart_mlog (s : State) (p : Nat) (f : Part → Part) : (s.modPart p f).mlog = s.mlog := rfl
@[simp] theorem modPart_layouts (s : State) (p : Nat) (f : Part → Part) : (s.modPart p f).layouts = s.layouts := rfl
@[simp] theorem modPart_pinq (s : State) (p : Nat) (f : Part → Part) : (s.modPart p f).pinq = s.pinq := rfl
@[simp] theorem modPart_hostw (s : State) (p : Nat) (f : Part → Part) : (s.modPart p f).hostw = s.hostw := rfl
@[simp] theorem modPart_hostr (s : State) (p : Nat) (f : Part → Part) : (s.modPart p f).hostr = s.hostr := rfl
@[simp] theorem modPart_sent (s : State) (p : Nat) (f : Part → Part) : (s.modPart p f).sent = s.sent := rfl
@[simp] theorem modPart_cur (s : State) (p : Nat) (f : Part → Part) : (s.modPart p f).cur = s.cur := rfl
@[simp] theorem modPart_fresh (s : State) (p : Nat) (f : Part → Part) : (s.modPart p f).fresh = s.fresh := rfl
@[simp] theorem modPart_seq (s : State) (p : Nat) (f : Part → Part) : (s.modPart p f).seq = s.seq := rfl
@[simp] theorem modPart_free (s : State) (p : Nat) (f : Part → Part) : (s.modPart p f).free = s.free := rfl
@[simp] theorem modPart_agenda (s : State) (p : Nat) (f : Part → Part) : (s.modPart p f).agenda = s.agenda := rfl

/-! ## tickSeq -/

@[simp] theorem tickSeq_up (s : State) : s.tickSeq.up = s.up := rfl
@[simp] theorem tickSeq_disabled (s : State) : s.tickSeq.disabled = s.disabled := rfl
@[simp] theorem tickSeq_tick (s : State) : s.tickSeq.tick = s.tick := rfl
@[simp] theorem tickSeq_groups (s : State) : s.tickSeq.groups = s.groups := rfl
@[simp] theorem tickSeq_blocks (s : State) : s.tickSeq.blocks = s.blocks := rfl
@[simp] theorem tickSeq_cores (s : State) : s.tickSeq.cores = s.cores := rfl
@[simp] theorem tickSeq_dies (s : State) : s.tickSeq.dies = s.dies := rfl
@[simp] theorem tickSeq_launches (s : State) : s.tickSeq.launches = s.launches := rfl
@[simp] theorem tickSeq_parts (s : State) : s.tickSeq.parts = s.parts := rfl
@[simp] theorem tickSeq_loads (s : State) : s.tickSeq.loads = s.loads := rfl
@[simp] theorem tickSeq_ops (s : State) : s.tickSeq.ops = s.ops := rfl
@[simp] theorem tickSeq_mem (s : State) : s.tickSeq.mem = s.mem := rfl
@[simp] theorem tickSeq_poison (s : State) : s.tickSeq.poison = s.poison := rfl
@[simp] theorem tickSeq_lost (s : State) : s.tickSeq.lost = s.lost := rfl
@[simp] theorem tickSeq_llc (s : State) : s.tickSeq.llc = s.llc := rfl
@[simp] theorem tickSeq_tiers (s : State) : s.tickSeq.tiers = s.tiers := rfl
@[simp] theorem tickSeq_aer (s : State) : s.tickSeq.aer = s.aer := rfl
@[simp] theorem tickSeq_msix (s : State) : s.tickSeq.msix = s.msix := rfl
@[simp] theorem tickSeq_mlog (s : State) : s.tickSeq.mlog = s.mlog := rfl
@[simp] theorem tickSeq_layouts (s : State) : s.tickSeq.layouts = s.layouts := rfl
@[simp] theorem tickSeq_pinq (s : State) : s.tickSeq.pinq = s.pinq := rfl
@[simp] theorem tickSeq_hostw (s : State) : s.tickSeq.hostw = s.hostw := rfl
@[simp] theorem tickSeq_hostr (s : State) : s.tickSeq.hostr = s.hostr := rfl
@[simp] theorem tickSeq_sent (s : State) : s.tickSeq.sent = s.sent := rfl
@[simp] theorem tickSeq_cur (s : State) : s.tickSeq.cur = s.cur := rfl
@[simp] theorem tickSeq_fresh (s : State) : s.tickSeq.fresh = s.fresh := rfl
@[simp] theorem tickSeq_free (s : State) : s.tickSeq.free = s.free := rfl
@[simp] theorem tickSeq_agenda (s : State) : s.tickSeq.agenda = s.agenda := rfl

/-! ## report -/

@[simp] theorem report_up (s : State) (e : Aer) (w : Nat) : (s.report e w).up = s.up := rfl
@[simp] theorem report_disabled (s : State) (e : Aer) (w : Nat) : (s.report e w).disabled = s.disabled := rfl
@[simp] theorem report_tick (s : State) (e : Aer) (w : Nat) : (s.report e w).tick = s.tick := rfl
@[simp] theorem report_groups (s : State) (e : Aer) (w : Nat) : (s.report e w).groups = s.groups := rfl
@[simp] theorem report_blocks (s : State) (e : Aer) (w : Nat) : (s.report e w).blocks = s.blocks := rfl
@[simp] theorem report_cores (s : State) (e : Aer) (w : Nat) : (s.report e w).cores = s.cores := rfl
@[simp] theorem report_dies (s : State) (e : Aer) (w : Nat) : (s.report e w).dies = s.dies := rfl
@[simp] theorem report_launches (s : State) (e : Aer) (w : Nat) : (s.report e w).launches = s.launches := rfl
@[simp] theorem report_parts (s : State) (e : Aer) (w : Nat) : (s.report e w).parts = s.parts := rfl
@[simp] theorem report_loads (s : State) (e : Aer) (w : Nat) : (s.report e w).loads = s.loads := rfl
@[simp] theorem report_ops (s : State) (e : Aer) (w : Nat) : (s.report e w).ops = s.ops := rfl
@[simp] theorem report_mem (s : State) (e : Aer) (w : Nat) : (s.report e w).mem = s.mem := rfl
@[simp] theorem report_poison (s : State) (e : Aer) (w : Nat) : (s.report e w).poison = s.poison := rfl
@[simp] theorem report_lost (s : State) (e : Aer) (w : Nat) : (s.report e w).lost = s.lost := rfl
@[simp] theorem report_llc (s : State) (e : Aer) (w : Nat) : (s.report e w).llc = s.llc := rfl
@[simp] theorem report_tiers (s : State) (e : Aer) (w : Nat) : (s.report e w).tiers = s.tiers := rfl
@[simp] theorem report_msix (s : State) (e : Aer) (w : Nat) : (s.report e w).msix = s.msix := rfl
@[simp] theorem report_mlog (s : State) (e : Aer) (w : Nat) : (s.report e w).mlog = s.mlog := rfl
@[simp] theorem report_layouts (s : State) (e : Aer) (w : Nat) : (s.report e w).layouts = s.layouts := rfl
@[simp] theorem report_pinq (s : State) (e : Aer) (w : Nat) : (s.report e w).pinq = s.pinq := rfl
@[simp] theorem report_hostw (s : State) (e : Aer) (w : Nat) : (s.report e w).hostw = s.hostw := rfl
@[simp] theorem report_hostr (s : State) (e : Aer) (w : Nat) : (s.report e w).hostr = s.hostr := rfl
@[simp] theorem report_sent (s : State) (e : Aer) (w : Nat) : (s.report e w).sent = s.sent := rfl
@[simp] theorem report_cur (s : State) (e : Aer) (w : Nat) : (s.report e w).cur = s.cur := rfl
@[simp] theorem report_fresh (s : State) (e : Aer) (w : Nat) : (s.report e w).fresh = s.fresh := rfl
@[simp] theorem report_seq (s : State) (e : Aer) (w : Nat) : (s.report e w).seq = s.seq := rfl
@[simp] theorem report_free (s : State) (e : Aer) (w : Nat) : (s.report e w).free = s.free := rfl
@[simp] theorem report_agenda (s : State) (e : Aer) (w : Nat) : (s.report e w).agenda = s.agenda := rfl

/-! ## Reading back -/

@[simp] theorem die_setDie (s : State) (p : Nat) (d : Die) (q : Nat) :
    (s.setDie p d).die q = if q = p then d else s.die q := by
  simp only [die, setDie, tfind_tset]; split <;> rfl

@[simp] theorem core_setCore (s : State) (k : Nat) (c : Core) (q : Nat) :
    (s.setCore k c).core q = if q = k then c else s.core q := by
  simp only [core, setCore, tfind_tset]; split <;> rfl

@[simp] theorem core_modCore (s : State) (k : Nat) (f : Core → Core) (q : Nat) :
    (s.modCore k f).core q = if q = k then f (s.core k) else s.core q := core_setCore s k _ q

@[simp] theorem die_modDie (s : State) (p : Nat) (f : Die → Die) (q : Nat) :
    (s.modDie p f).die q = if q = p then f (s.die p) else s.die q := die_setDie s p _ q

@[simp] theorem group_setGroup (s : State) (g : Nat) (x : Group) (h : Nat) :
    (s.setGroup g x).group? h = if h = g then some x else s.group? h := by
  by_cases e : h = g <;> simp [group?, setGroup, tfind_tset, e]

@[simp] theorem block_setBlock (s : State) (b : Nat) (x : Block) (h : Nat) :
    (s.setBlock b x).block? h = if h = b then some x else s.block? h := by
  by_cases e : h = b <;> simp [block?, setBlock, tfind_tset, e]

/-- An accessor depends on the fields it reads alone. -/
theorem group_congr {s t : State} (h : s.groups = t.groups) (hd : s.disabled = t.disabled) (g : Nat) :
    s.group? g = t.group? g := by simp only [group?, h, hd]

theorem block_congr {s t : State} (h : s.blocks = t.blocks) (hd : s.disabled = t.disabled) (b : Nat) :
    s.block? b = t.block? b := by simp only [block?, h, hd]

theorem blockOf_congr {s t : State} (h : s.blocks = t.blocks) (hd : s.disabled = t.disabled) (g : Group) :
    s.blockOf g = t.blockOf g := by simp only [blockOf, block_congr h hd]

theorem core_congr {s t : State} (h : s.cores = t.cores) (k : Nat) : s.core k = t.core k := by simp only [core, h]

theorem die_congr {s t : State} (h : s.dies = t.dies) (p : Nat) : s.die p = t.die p := by simp only [die, h]

theorem launch_congr {s t : State} (h : s.launches = t.launches) (l : Nat) : s.launch? l = t.launch? l := by
  simp only [launch?, h]

theorem part_congr {s t : State} (h : s.parts = t.parts) (p : Nat) : s.part? p = t.part? p := by simp only [part?, h]

@[simp] theorem group_setDie (s : State) (p : Nat) (d : Die) (h : Nat) : (s.setDie p d).group? h = s.group? h :=
  group_congr (by simp) (by simp) h
@[simp] theorem group_modDie (s : State) (p : Nat) (f : Die → Die) (h : Nat) : (s.modDie p f).group? h = s.group? h :=
  group_congr (by simp) (by simp) h
@[simp] theorem group_setCore (s : State) (k : Nat) (c : Core) (h : Nat) : (s.setCore k c).group? h = s.group? h :=
  group_congr (by simp) (by simp) h
@[simp] theorem group_modCore (s : State) (k : Nat) (f : Core → Core) (h : Nat) : (s.modCore k f).group? h = s.group? h :=
  group_congr (by simp) (by simp) h
@[simp] theorem group_setBlock (s : State) (b : Nat) (x : Block) (h : Nat) : (s.setBlock b x).group? h = s.group? h :=
  group_congr (by simp) (by simp) h
@[simp] theorem group_modBlock (s : State) (b : Nat) (f : Block → Block) (h : Nat) : (s.modBlock b f).group? h = s.group? h :=
  group_congr (by simp) (by simp) h
@[simp] theorem group_modLaunch (s : State) (l : Nat) (f : Launch → Launch) (h : Nat) : (s.modLaunch l f).group? h = s.group? h :=
  group_congr (by simp) (by simp) h
@[simp] theorem group_modPart (s : State) (p : Nat) (f : Part → Part) (h : Nat) : (s.modPart p f).group? h = s.group? h :=
  group_congr (by simp) (by simp) h
@[simp] theorem group_tickSeq (s : State) (h : Nat) : s.tickSeq.group? h = s.group? h :=
  group_congr (by simp) (by simp) h
@[simp] theorem group_report (s : State) (e : Aer) (w : Nat) (h : Nat) : (s.report e w).group? h = s.group? h :=
  group_congr (by simp) (by simp) h
@[simp] theorem block_setDie (s : State) (p : Nat) (d : Die) (h : Nat) : (s.setDie p d).block? h = s.block? h :=
  block_congr (by simp) (by simp) h
@[simp] theorem block_modDie (s : State) (p : Nat) (f : Die → Die) (h : Nat) : (s.modDie p f).block? h = s.block? h :=
  block_congr (by simp) (by simp) h
@[simp] theorem block_setCore (s : State) (k : Nat) (c : Core) (h : Nat) : (s.setCore k c).block? h = s.block? h :=
  block_congr (by simp) (by simp) h
@[simp] theorem block_modCore (s : State) (k : Nat) (f : Core → Core) (h : Nat) : (s.modCore k f).block? h = s.block? h :=
  block_congr (by simp) (by simp) h
@[simp] theorem block_setGroup (s : State) (g : Nat) (x : Group) (h : Nat) : (s.setGroup g x).block? h = s.block? h :=
  block_congr (by simp) (by simp) h
@[simp] theorem block_modGroup (s : State) (g : Nat) (f : Group → Group) (h : Nat) : (s.modGroup g f).block? h = s.block? h :=
  block_congr (by simp) (by simp) h
@[simp] theorem block_modAnyGroup (s : State) (g : Nat) (f : Group → Group) (h : Nat) : (s.modAnyGroup g f).block? h = s.block? h :=
  block_congr (by simp) (by simp) h
@[simp] theorem block_modLaunch (s : State) (l : Nat) (f : Launch → Launch) (h : Nat) : (s.modLaunch l f).block? h = s.block? h :=
  block_congr (by simp) (by simp) h
@[simp] theorem block_modPart (s : State) (p : Nat) (f : Part → Part) (h : Nat) : (s.modPart p f).block? h = s.block? h :=
  block_congr (by simp) (by simp) h
@[simp] theorem block_tickSeq (s : State) (h : Nat) : s.tickSeq.block? h = s.block? h :=
  block_congr (by simp) (by simp) h
@[simp] theorem block_report (s : State) (e : Aer) (w : Nat) (h : Nat) : (s.report e w).block? h = s.block? h :=
  block_congr (by simp) (by simp) h
@[simp] theorem blockOf_setDie (s : State) (p : Nat) (d : Die) (h : Group) : (s.setDie p d).blockOf h = s.blockOf h :=
  blockOf_congr (by simp) (by simp) h
@[simp] theorem blockOf_modDie (s : State) (p : Nat) (f : Die → Die) (h : Group) : (s.modDie p f).blockOf h = s.blockOf h :=
  blockOf_congr (by simp) (by simp) h
@[simp] theorem blockOf_setCore (s : State) (k : Nat) (c : Core) (h : Group) : (s.setCore k c).blockOf h = s.blockOf h :=
  blockOf_congr (by simp) (by simp) h
@[simp] theorem blockOf_modCore (s : State) (k : Nat) (f : Core → Core) (h : Group) : (s.modCore k f).blockOf h = s.blockOf h :=
  blockOf_congr (by simp) (by simp) h
@[simp] theorem blockOf_setGroup (s : State) (g : Nat) (x : Group) (h : Group) : (s.setGroup g x).blockOf h = s.blockOf h :=
  blockOf_congr (by simp) (by simp) h
@[simp] theorem blockOf_modGroup (s : State) (g : Nat) (f : Group → Group) (h : Group) : (s.modGroup g f).blockOf h = s.blockOf h :=
  blockOf_congr (by simp) (by simp) h
@[simp] theorem blockOf_modAnyGroup (s : State) (g : Nat) (f : Group → Group) (h : Group) : (s.modAnyGroup g f).blockOf h = s.blockOf h :=
  blockOf_congr (by simp) (by simp) h
@[simp] theorem blockOf_modLaunch (s : State) (l : Nat) (f : Launch → Launch) (h : Group) : (s.modLaunch l f).blockOf h = s.blockOf h :=
  blockOf_congr (by simp) (by simp) h
@[simp] theorem blockOf_modPart (s : State) (p : Nat) (f : Part → Part) (h : Group) : (s.modPart p f).blockOf h = s.blockOf h :=
  blockOf_congr (by simp) (by simp) h
@[simp] theorem blockOf_tickSeq (s : State) (h : Group) : s.tickSeq.blockOf h = s.blockOf h :=
  blockOf_congr (by simp) (by simp) h
@[simp] theorem blockOf_report (s : State) (e : Aer) (w : Nat) (h : Group) : (s.report e w).blockOf h = s.blockOf h :=
  blockOf_congr (by simp) (by simp) h
@[simp] theorem core_setDie (s : State) (p : Nat) (d : Die) (h : Nat) : (s.setDie p d).core h = s.core h :=
  core_congr (by simp) h
@[simp] theorem core_modDie (s : State) (p : Nat) (f : Die → Die) (h : Nat) : (s.modDie p f).core h = s.core h :=
  core_congr (by simp) h
@[simp] theorem core_setGroup (s : State) (g : Nat) (x : Group) (h : Nat) : (s.setGroup g x).core h = s.core h :=
  core_congr (by simp) h
@[simp] theorem core_modGroup (s : State) (g : Nat) (f : Group → Group) (h : Nat) : (s.modGroup g f).core h = s.core h :=
  core_congr (by simp) h
@[simp] theorem core_modAnyGroup (s : State) (g : Nat) (f : Group → Group) (h : Nat) : (s.modAnyGroup g f).core h = s.core h :=
  core_congr (by simp) h
@[simp] theorem core_setBlock (s : State) (b : Nat) (x : Block) (h : Nat) : (s.setBlock b x).core h = s.core h :=
  core_congr (by simp) h
@[simp] theorem core_modBlock (s : State) (b : Nat) (f : Block → Block) (h : Nat) : (s.modBlock b f).core h = s.core h :=
  core_congr (by simp) h
@[simp] theorem core_modLaunch (s : State) (l : Nat) (f : Launch → Launch) (h : Nat) : (s.modLaunch l f).core h = s.core h :=
  core_congr (by simp) h
@[simp] theorem core_modPart (s : State) (p : Nat) (f : Part → Part) (h : Nat) : (s.modPart p f).core h = s.core h :=
  core_congr (by simp) h
@[simp] theorem core_tickSeq (s : State) (h : Nat) : s.tickSeq.core h = s.core h :=
  core_congr (by simp) h
@[simp] theorem core_report (s : State) (e : Aer) (w : Nat) (h : Nat) : (s.report e w).core h = s.core h :=
  core_congr (by simp) h
@[simp] theorem die_setCore (s : State) (k : Nat) (c : Core) (h : Nat) : (s.setCore k c).die h = s.die h :=
  die_congr (by simp) h
@[simp] theorem die_modCore (s : State) (k : Nat) (f : Core → Core) (h : Nat) : (s.modCore k f).die h = s.die h :=
  die_congr (by simp) h
@[simp] theorem die_setGroup (s : State) (g : Nat) (x : Group) (h : Nat) : (s.setGroup g x).die h = s.die h :=
  die_congr (by simp) h
@[simp] theorem die_modGroup (s : State) (g : Nat) (f : Group → Group) (h : Nat) : (s.modGroup g f).die h = s.die h :=
  die_congr (by simp) h
@[simp] theorem die_modAnyGroup (s : State) (g : Nat) (f : Group → Group) (h : Nat) : (s.modAnyGroup g f).die h = s.die h :=
  die_congr (by simp) h
@[simp] theorem die_setBlock (s : State) (b : Nat) (x : Block) (h : Nat) : (s.setBlock b x).die h = s.die h :=
  die_congr (by simp) h
@[simp] theorem die_modBlock (s : State) (b : Nat) (f : Block → Block) (h : Nat) : (s.modBlock b f).die h = s.die h :=
  die_congr (by simp) h
@[simp] theorem die_modLaunch (s : State) (l : Nat) (f : Launch → Launch) (h : Nat) : (s.modLaunch l f).die h = s.die h :=
  die_congr (by simp) h
@[simp] theorem die_modPart (s : State) (p : Nat) (f : Part → Part) (h : Nat) : (s.modPart p f).die h = s.die h :=
  die_congr (by simp) h
@[simp] theorem die_tickSeq (s : State) (h : Nat) : s.tickSeq.die h = s.die h :=
  die_congr (by simp) h
@[simp] theorem die_report (s : State) (e : Aer) (w : Nat) (h : Nat) : (s.report e w).die h = s.die h :=
  die_congr (by simp) h
@[simp] theorem launch_setDie (s : State) (p : Nat) (d : Die) (h : Nat) : (s.setDie p d).launch? h = s.launch? h :=
  launch_congr (by simp) h
@[simp] theorem launch_modDie (s : State) (p : Nat) (f : Die → Die) (h : Nat) : (s.modDie p f).launch? h = s.launch? h :=
  launch_congr (by simp) h
@[simp] theorem launch_setCore (s : State) (k : Nat) (c : Core) (h : Nat) : (s.setCore k c).launch? h = s.launch? h :=
  launch_congr (by simp) h
@[simp] theorem launch_modCore (s : State) (k : Nat) (f : Core → Core) (h : Nat) : (s.modCore k f).launch? h = s.launch? h :=
  launch_congr (by simp) h
@[simp] theorem launch_setGroup (s : State) (g : Nat) (x : Group) (h : Nat) : (s.setGroup g x).launch? h = s.launch? h :=
  launch_congr (by simp) h
@[simp] theorem launch_modGroup (s : State) (g : Nat) (f : Group → Group) (h : Nat) : (s.modGroup g f).launch? h = s.launch? h :=
  launch_congr (by simp) h
@[simp] theorem launch_modAnyGroup (s : State) (g : Nat) (f : Group → Group) (h : Nat) : (s.modAnyGroup g f).launch? h = s.launch? h :=
  launch_congr (by simp) h
@[simp] theorem launch_setBlock (s : State) (b : Nat) (x : Block) (h : Nat) : (s.setBlock b x).launch? h = s.launch? h :=
  launch_congr (by simp) h
@[simp] theorem launch_modBlock (s : State) (b : Nat) (f : Block → Block) (h : Nat) : (s.modBlock b f).launch? h = s.launch? h :=
  launch_congr (by simp) h
@[simp] theorem launch_modPart (s : State) (p : Nat) (f : Part → Part) (h : Nat) : (s.modPart p f).launch? h = s.launch? h :=
  launch_congr (by simp) h
@[simp] theorem launch_tickSeq (s : State) (h : Nat) : s.tickSeq.launch? h = s.launch? h :=
  launch_congr (by simp) h
@[simp] theorem launch_report (s : State) (e : Aer) (w : Nat) (h : Nat) : (s.report e w).launch? h = s.launch? h :=
  launch_congr (by simp) h
@[simp] theorem part_setDie (s : State) (p : Nat) (d : Die) (h : Nat) : (s.setDie p d).part? h = s.part? h :=
  part_congr (by simp) h
@[simp] theorem part_modDie (s : State) (p : Nat) (f : Die → Die) (h : Nat) : (s.modDie p f).part? h = s.part? h :=
  part_congr (by simp) h
@[simp] theorem part_setCore (s : State) (k : Nat) (c : Core) (h : Nat) : (s.setCore k c).part? h = s.part? h :=
  part_congr (by simp) h
@[simp] theorem part_modCore (s : State) (k : Nat) (f : Core → Core) (h : Nat) : (s.modCore k f).part? h = s.part? h :=
  part_congr (by simp) h
@[simp] theorem part_setGroup (s : State) (g : Nat) (x : Group) (h : Nat) : (s.setGroup g x).part? h = s.part? h :=
  part_congr (by simp) h
@[simp] theorem part_modGroup (s : State) (g : Nat) (f : Group → Group) (h : Nat) : (s.modGroup g f).part? h = s.part? h :=
  part_congr (by simp) h
@[simp] theorem part_setBlock (s : State) (b : Nat) (x : Block) (h : Nat) : (s.setBlock b x).part? h = s.part? h :=
  part_congr (by simp) h
@[simp] theorem part_modBlock (s : State) (b : Nat) (f : Block → Block) (h : Nat) : (s.modBlock b f).part? h = s.part? h :=
  part_congr (by simp) h
@[simp] theorem part_modLaunch (s : State) (l : Nat) (f : Launch → Launch) (h : Nat) : (s.modLaunch l f).part? h = s.part? h :=
  part_congr (by simp) h
@[simp] theorem part_tickSeq (s : State) (h : Nat) : s.tickSeq.part? h = s.part? h :=
  part_congr (by simp) h
@[simp] theorem part_report (s : State) (e : Aer) (w : Nat) (h : Nat) : (s.report e w).part? h = s.part? h :=
  part_congr (by simp) h

@[simp] theorem launch_modLaunch (s : State) (l : Nat) (f : Launch → Launch) (h : Nat) :
    (s.modLaunch l f).launch? h = if h = l then (s.launch? l).map f else s.launch? h := by
  simp only [launch?, modLaunch, tfind_tmod]

@[simp] theorem part_modPart (s : State) (p : Nat) (f : Part → Part) (h : Nat) :
    (s.modPart p f).part? h = if h = p then (s.part? p).map f else s.part? h := by
  simp only [part?, modPart, tfind_tmod]

end Sys2Proof.Machine.State
end

