-- ==== Sys2Proof/Laws/Issue.lean ====
section
/-! SUPPORT. What issuing an instruction can do, said once for every meaning. -/

namespace Sys2Proof.Machine

variable {s : State} {gid : Nat} {g : Group} {c : Ctl} {i : Instr}

/-- A ready instruction: without an active lane it only ends, unless its entry acts without one; else its body decides. -/
theorem issue_ready (h : Ready s gid g c i) (always : Bool) (body : Ctx → Res) :
    issue i c always body s =
      if g.active c = 0 ∧ !always then .next (finish s.tickSeq gid i c (g.active c) .seq 0)
      else
        match body ⟨s.tickSeq, gid, g, g.runNow, c, g.active c⟩ with
        | .ok t n extra => .next (finish t gid i c (g.active c) n extra)
        | .trap t u => .next (t.syncTrap gid u)
        | .wait => .next s := by
  simp only [issue, h.cur, h.group, h.alive, h.checked, h.full, Bool.false_eq_true, if_false]
  all_goals (split <;> simp_all)
  all_goals rfl

/-- A ready instruction with an active lane: its body decides. -/
theorem issue_active (h : Active s gid g c i) (always : Bool) (body : Ctx → Res) :
    issue i c always body s =
      match body ⟨s.tickSeq, gid, g, g.runNow, c, g.active c⟩ with
      | .ok t n extra => .next (finish t gid i c (g.active c) n extra)
      | .trap t u => .next (t.syncTrap gid u)
      | .wait => .next s := by
  rw [issue_ready h.toReady, if_neg (fun e => h.lane e.1)]

/-- An instruction with no active lane whose entry does nothing then. -/
theorem issue_idle (h : Ready s gid g c i) (ha : g.active c = 0) (body : Ctx → Res) :
    issue i c false body s = .next (finish s.tickSeq gid i c (g.active c) .seq 0) := by
  rw [issue_ready h, if_pos ⟨ha, rfl⟩]

/-- A check of R279 that fails makes the group take its trap. -/
theorem issue_trap {t : TrapInfo} (hc : s.cur = some gid) (hg : s.group? gid = some g) (hr : g.retired = false)
    (ht : checkIssue g g.runNow c i = some t) (always : Bool) (body : Ctx → Res) :
    issue i c always body s = .next (s.syncTrap gid t) := by
  simp only [issue, hc, hg, hr, ht, Bool.false_eq_true, if_false]

/-! ## Operands -/

@[simp] theorem sreg_mk (s : State) (gid : Nat) (g : Group) (c : Ctl) (act : Mask) (r : SReg) :
    Ctx.sreg ⟨s, gid, g, g.runNow, c, act⟩ r = g.sval r := rfl

@[simp] theorem ssrc_mk (s : State) (gid : Nat) (g : Group) (c : Ctl) (act : Mask) (b : SSrc) :
    Ctx.ssrc ⟨s, gid, g, g.runNow, c, act⟩ b = g.ssval b := by cases b <;> rfl

/-! ## What the checks give -/

/-- Every register that a checked instruction names stands in its window. -/
theorem checkIssue_window {run : Run} (h : checkIssue g run c i = none) : ∀ u ∈ usesOf run.xs i, g.inWindow u = true := by
  intro u hu
  simp only [checkIssue] at h
  split at h
  · exact absurd h (by simp)
  split at h
  · exact absurd h (by simp)
  split at h
  · exact absurd h (by simp)
  · next hn => simpa using List.find?_eq_none.1 hn u hu

/-- A named vector register of a checked instruction, and the second of its pair. -/
theorem vname_window {run : Run} {pos n : Nat} {r : VReg} {h : How} {even : Bool} (k : Nat) (hk : k < n)
    (hu : ∀ u ∈ useV run.xs pos r h n even, g.inWindow u = true) : (vnum run.xs r).getD 0 + k < g.winV := by
  have hm : useAt pos true (vnum run.xs r) (vix r) h even k ∈ useV run.xs pos r h n even :=
    List.mem_map.2 ⟨k, List.mem_range.2 hk, rfl⟩
  have := hu _ hm
  cases hv : vnum run.xs r with
  | none => simp [Group.inWindow, useAt, hv] at this
  | some m => simpa [Group.inWindow, useAt, hv] using this

theorem sname_window {run : Run} {pos n : Nat} {r : SReg} {h : How} (k : Nat) (hk : k < n)
    (hu : ∀ u ∈ useS run.xs pos r h n, g.inWindow u = true) : (snum run.xs r).getD 0 + k < g.winS := by
  have hm : useAt pos false (snum run.xs r) (six r) h false k ∈ useS run.xs pos r h n :=
    List.mem_map.2 ⟨k, List.mem_range.2 hk, rfl⟩
  have := hu _ hm
  cases hv : snum run.xs r with
  | none => simp [Group.inWindow, useAt, hv] at this
  | some m => simpa [Group.inWindow, useAt, hv] using this

end Sys2Proof.Machine
end

