-- ==== Sys2Proof/Laws/Access.lean ====
section
/-! SUPPORT. What loads, stores and engine operations do at issue: their operands, their checks, and the two ends of each check. -/

namespace Sys2Proof.Machine

variable {s : State} {gid : Nat} {g : Group} {c : Ctl} {act : Mask}

/-! ## Operands (R284) -/

theorem vaddr_mk (glob : Bool) (m : VMem) : Ctx.vaddr ⟨s, gid, g, g.runNow, c, act⟩ glob m = g.vaddr glob m := by
  funext l
  obtain ⟨a, b⟩ := m
  cases a <;> cases b <;> rfl

theorem saddr_mk (m : SMem) : Ctx.saddr ⟨s, gid, g, g.runNow, c, act⟩ m = g.saddr m := by
  obtain ⟨a, b⟩ := m
  cases a <;> cases b <;> rfl

theorem vdst_mk (sz : Size) (d : VReg) : Ctx.vdst ⟨s, gid, g, g.runNow, c, act⟩ sz d = g.loadDst sz d := rfl

theorem sdst_mk (d : SReg) : Ctx.sdst ⟨s, gid, g, g.runNow, c, act⟩ d = .sca (g.physS (g.sname d)) := rfl

theorem vdata_mk (sz : Size) (d : VReg) : Ctx.vdata ⟨s, gid, g, g.runNow, c, act⟩ sz d = g.stored sz d := by
  funext l
  simp only [Ctx.vdata, Group.stored]
  split <;> rfl

theorem localLimit_eq (b : Block) (sys : Bool) :
    localLimit b sys = b.bytes + if sys then b.groups.length * b.spill else 0 := by
  cases sys <;> simp [localLimit]

/-! ## Alignment (R104, R209) -/

/-- Active lanes that are all aligned pass the check. -/
theorem misaligned_none {x : Ctx} {addr : Nat → Word} {n : Nat} {w : Bool}
    (h : ∀ l ∈ lanesOf x.act, (addr l).toNat % n = 0) : x.misaligned addr n w = none := by
  unfold Ctx.misaligned
  simp only
  rw [if_pos]
  apply mask_zero
  intro l hl
  rw [bit_compareMask _ _ _ hl]
  by_cases hb : bitOf x.act l = true
  · simp [h l ((mem_lanesOf _ _).2 ⟨hl, hb⟩)]
  · simp [hb]

/-- The lowest of the addresses of some lanes is one of them. -/
theorem lowestAddr_spec (addr : Nat → Word) (ls : List Nat) (h : ls ≠ []) :
    ∃ l ∈ ls, lowestAddr addr ls = addr l ∧ ∀ m ∈ ls, (addr l).toNat ≤ (addr m).toNat := by
  have key : ∀ (ls : List Nat) (a : Nat), ∃ l, (l = a ∨ l ∈ ls) ∧
      ls.foldl (fun a m => if (addr m).toNat < a.toNat then addr m else a) (addr a) = addr l ∧
      (addr l).toNat ≤ (addr a).toNat ∧ ∀ m ∈ ls, (addr l).toNat ≤ (addr m).toNat := by
    intro ls
    induction ls with
    | nil => intro a; exact ⟨a, .inl rfl, rfl, Nat.le_refl _, by simp⟩
    | cons b ls ih =>
      intro a
      rw [List.foldl_cons]
      by_cases hb : (addr b).toNat < (addr a).toNat
      · rw [if_pos hb]
        obtain ⟨w, h1, h2, h3, h4⟩ := ih b
        refine ⟨w, .inr ?_, h2, by omega, ?_⟩
        · rcases h1 with rfl | h1 <;> simp [*]
        · intro m hm
          rcases List.mem_cons.1 hm with rfl | hm
          · exact h3
          · exact h4 m hm
      · rw [if_neg hb]
        obtain ⟨w, h1, h2, h3, h4⟩ := ih a
        refine ⟨w, ?_, h2, h3, ?_⟩
        · rcases h1 with rfl | h1 <;> simp [*]
        · intro m hm
          rcases List.mem_cons.1 hm with rfl | hm
          · omega
          · exact h4 m hm
  cases ls with
  | nil => exact absurd rfl h
  | cons a ls =>
    obtain ⟨w, h1, h2, h3, h4⟩ := key ls a
    refine ⟨w, ?_, h2, ?_⟩
    · rcases h1 with rfl | h1 <;> simp [*]
    · intro m hm
      rcases List.mem_cons.1 hm with rfl | hm
      · exact h3
      · exact h4 m hm

/-- A lane that is not aligned fails the whole instruction: the lanes at fault, and the lowest of their addresses. -/
theorem misaligned_some {x : Ctx} {addr : Nat → Word} {n : Nat} {w : Bool}
    (h : ∃ l ∈ lanesOf x.act, (addr l).toNat % n ≠ 0) :
    ∃ (mis : Mask) (low : Nat),
      (∀ l, l < 32 → bitOf mis l = (bitOf x.act l && decide ((addr l).toNat % n ≠ 0))) ∧
      low ∈ lanesOf mis ∧ (∀ l ∈ lanesOf mis, (addr low).toNat ≤ (addr l).toNat) ∧
      x.misaligned addr n w = some { cause := 0x10, addr := addr low, lanes := mis, info := Info.word { wr := w } } := by
  have hm : ∀ l, l < 32 → bitOf (compareMask x.act (fun l => (addr l).toNat % n != 0)) l =
      (bitOf x.act l && decide ((addr l).toNat % n ≠ 0)) := by
    intro l hl
    rw [bit_compareMask _ _ _ hl]
    simp [bne, Bool.beq_eq_decide_eq]
  unfold Ctx.misaligned
  generalize compareMask x.act (fun l => (addr l).toNat % n != 0) = mis at *
  have hne : lanesOf mis ≠ [] := by
    obtain ⟨l, hl, hb⟩ := h
    obtain ⟨h1, h2⟩ := (mem_lanesOf _ _).1 hl
    exact List.ne_nil_of_mem ((mem_lanesOf _ _).2 ⟨h1, by rw [hm l h1]; simp [h2, hb]⟩)
  obtain ⟨low, h1, h2, h3⟩ := lowestAddr_spec addr _ hne
  refine ⟨mis, low, hm, h1, h3, ?_⟩
  simp only [h2]
  rw [if_neg (fun e => hne (by rw [e]; decide))]

theorem laneTrap_nil : laneTrap [] = none := rfl

/-! ## Parameter blocks (R124) -/

/-- An operation whose parameter block is in reach, written by nothing in flight, and passes its checks starts. -/
theorem engine_ok {x : Ctx} {d : SReg} {kind : OpKind}
    (h1 : (x.sreg d).toNat % (blockForm kind).1 = 0) (h2 : (x.sreg d).toNat + (blockForm kind).2 ≤ (x.s.blockOf x.g).bytes)
    (h3 : writesOver (x.s.blockOf x.g) (some (pbRange (x.sreg d).toNat (blockForm kind).2)) = [])
    (h4 : blockTrap x.s x.g (x.s.blockOf x.g).poison (x.sreg d).toNat (blockForm kind).2
      (rdL (x.s.blockOf x.g).mem (x.sreg d).toNat (blockForm kind).2) kind = none) :
    x.engine d kind =
      let n := (blockForm kind).2
      let pb := rdL (x.s.blockOf x.g).mem (x.sreg d).toNat n
      let k := withBlock pb kind
      .ok (x.startOp k pb [] (pbRange (x.sreg d).toNat n :: sourceRanges (x.s.blockOf x.g).bytes pb k)
        (destRange (x.s.blockOf x.g).bytes pb k) true).2 .seq 0 := by
  simp [Ctx.engine, h1, Nat.not_lt.2 h2, h3, h4]

/-- A parameter block that its checks refuse. -/
theorem engine_bad {x : Ctx} {d : SReg} {kind : OpKind} {t : TrapInfo}
    (h1 : (x.sreg d).toNat % (blockForm kind).1 = 0) (h2 : (x.sreg d).toNat + (blockForm kind).2 ≤ (x.s.blockOf x.g).bytes)
    (h3 : writesOver (x.s.blockOf x.g) (some (pbRange (x.sreg d).toNat (blockForm kind).2)) = [])
    (h4 : blockTrap x.s x.g (x.s.blockOf x.g).poison (x.sreg d).toNat (blockForm kind).2
      (rdL (x.s.blockOf x.g).mem (x.sreg d).toNat (blockForm kind).2) kind = some t) :
    x.engine d kind = x.fail t := by
  simp [Ctx.engine, h1, Nat.not_lt.2 h2, h3, h4]

/-- A parameter block that an operation in flight still writes: the operation starts, and reads it later (R112, R117). -/
theorem engine_late {x : Ctx} {d : SReg} {kind : OpKind}
    (h1 : (x.sreg d).toNat % (blockForm kind).1 = 0) (h2 : (x.sreg d).toNat + (blockForm kind).2 ≤ (x.s.blockOf x.g).bytes)
    (h3 : writesOver (x.s.blockOf x.g) (some (pbRange (x.sreg d).toNat (blockForm kind).2)) ≠ []) :
    ∃ s, x.engine d kind = .ok s .seq 0 := by
  have e : (writesOver (x.s.blockOf x.g) (some (pbRange (x.sreg d).toNat (blockForm kind).2))).isEmpty = false := by
    simpa [List.isEmpty_iff] using h3
  simp [Ctx.engine, h1, Nat.not_lt.2 h2, e]

/-- An address that is not aligned, or a block out of reach. -/
theorem engine_far {x : Ctx} {d : SReg} {kind : OpKind}
    (h : (x.sreg d).toNat % (blockForm kind).1 ≠ 0 ∨ (x.s.blockOf x.g).bytes < (x.sreg d).toNat + (blockForm kind).2) :
    x.engine d kind = x.fail { cause := 0x38 } := by
  have e : ((x.sreg d).toNat % (blockForm kind).1 != 0 ||
      decide ((x.s.blockOf x.g).bytes < (x.sreg d).toNat + (blockForm kind).2)) = true := by
    rcases h with h | h <;> simp [h]
  simp [Ctx.engine, e]

/-! ## The matrix queue (R183, R363) -/

/-- With a place in its core's queue, a matrix instruction joins it. -/
theorem enqueue_room {x : Ctx} (h : (x.s.core (x.s.blockOf x.g).core).queue.length < 16) (kind : OpKind) (pb : List Byte)
    (args : List Word) (reads : List (Nat × Nat)) (write : Option (Nat × Nat)) (entry : Bool) (g : Group)
    (late : Option (Nat × Nat)) :
    x.enqueue kind pb args reads write entry g late = .ok (queued x kind pb args reads write entry g late) .seq 0 := by
  have n : ¬ Config.matrixQueue ≤ (x.s.core (x.s.blockOf x.g).core).queue.length := Nat.not_le.2 h
  simp only [Ctx.enqueue, n, if_false]
  rfl

end Sys2Proof.Machine
end

