-- ==== Sys2Proof/Laws/Float.lean ====
section
/-! SUPPORT. The model's float operations and conversions give the exact value rounded once (R142 to R152), in real numbers. -/

namespace Sys2Proof.Machine

theorem two_zpow_pos (e : Int) : (0 : ℝ) < 2 ^ e := by positivity

theorem two_zpow_shift (a : Int) (d : Nat) (b : Int) (h : a = d + b) : (2 : ℝ) ^ a = 2 ^ d * 2 ^ b := by
  rw [h, zpow_add₀ (by norm_num), zpow_natCast]

theorem FloatFmt.magVal_eq (f : FloatFmt) (q k : Nat) (hq : q = 0 ∨ 2 ^ f.fb ≤ k) (hk : k ≤ 2 ^ (f.fb + 1)) :
    f.magVal (q * 2 ^ f.fb + k) = k * (2 : ℝ) ^ ((q : Int) + (1 - f.bias - f.fb)) := by
  have hp : 0 < 2 ^ f.fb := by positivity
  have hs : 2 ^ (f.fb + 1) = 2 * 2 ^ f.fb := by rw [pow_succ]; ring
  unfold magVal
  rcases Nat.lt_or_ge k (2 ^ f.fb) with h | h
  · obtain rfl : q = 0 := by omega
    rw [if_pos (by simpa using Nat.div_eq_of_lt h)]; simp
  · rcases Nat.lt_or_ge k (2 ^ (f.fb + 1)) with h2 | h2
    · obtain ⟨j, rfl⟩ := Nat.exists_eq_add_of_le h
      have hj : j < 2 ^ f.fb := by omega
      have e1 : q * 2 ^ f.fb + (2 ^ f.fb + j) = j + 2 ^ f.fb * (q + 1) := by ring
      rw [e1, Nat.add_mul_div_left _ _ hp, Nat.add_mul_mod_self_left, Nat.mod_eq_of_lt hj, Nat.div_eq_of_lt hj, if_neg (by omega)]
      push_cast
      congr 2
      ring
    · obtain rfl : k = 2 * 2 ^ f.fb := by omega
      have e1 : q * 2 ^ f.fb + 2 * 2 ^ f.fb = 0 + 2 ^ f.fb * (q + 2) := by ring
      rw [e1, Nat.add_mul_div_left _ _ hp, Nat.add_mul_mod_self_left, Nat.zero_mod, Nat.zero_div, if_neg (by omega),
        two_zpow_shift ((0 + (q + 2) : Nat) - (f.bias : Int) - f.fb) 1 ((q : Int) + (1 - f.bias - f.fb)) (by push_cast; ring)]
      push_cast
      ring

/-- Rounding a magnitude m · 2^e, or one strictly between it and the next multiple of 2^e, onto the grid of the format (R142). -/
theorem FloatFmt.roundMag_rounds (f : FloatFmt) (hf : 0 < f.fb) (r : Rnd) (neg : Bool) (m : Nat) (e : Int) (sticky : Bool) (x : ℝ)
    (hm : m ≠ 0)
    (hx : if sticky then (m : ℝ) * 2 ^ e < x ∧ x < (m + 1) * 2 ^ e ∧ f.fb < m.log2 else x = m * 2 ^ e) :
    RoundsTo f.magVal r neg x (f.roundMag r neg m e sticky) := by
  have hlo : 2 ^ m.log2 ≤ m := Nat.log2_self_le hm
  have hhi : m < 2 ^ (m.log2 + 1) := Nat.lt_log2_self
  have hs : 2 ^ (f.fb + 1) = 2 * 2 ^ f.fb := by rw [pow_succ]; ring
  unfold roundMag
  rw [if_neg hm]
  obtain ⟨emin, he⟩ : ∃ emin : Int, emin = 1 - (f.bias : Int) - f.fb := ⟨_, rfl⟩
  obtain ⟨q, hq⟩ : ∃ q : Int, q = max (e + m.log2 - f.fb) emin := ⟨_, rfl⟩
  obtain ⟨Q, hQ⟩ : ∃ Q : Nat, Q = (q - emin).toNat := ⟨_, rfl⟩
  have hQq : q = (Q : Int) + (1 - f.bias - f.fb) := by omega
  simp only [← he, ← hq, ← hQ]
  split
  case isTrue hqe =>
    have hst : sticky = false := by
      cases sticky
      · rfl
      · exfalso
        simp only [if_true] at hx
        omega
    subst hst
    simp only [Bool.false_eq_true, if_false] at hx
    obtain ⟨d, hd⟩ : ∃ d : Nat, d = (e - q).toNat := ⟨_, rfl⟩
    rw [← hd]
    have hde : e = d + q := by omega
    have hkhi : m * 2 ^ d < 2 ^ (f.fb + 1) := by
      calc m * 2 ^ d < 2 ^ (m.log2 + 1) * 2 ^ d := by gcongr
        _ = 2 ^ (m.log2 + 1 + d) := by rw [← pow_add]
        _ ≤ 2 ^ (f.fb + 1) := Nat.pow_le_pow_right (by omega) (by omega)
    have hklo : Q = 0 ∨ 2 ^ f.fb ≤ m * 2 ^ d := by
      rcases Nat.eq_zero_or_pos Q with h | h
      · exact .inl h
      · right
        calc 2 ^ f.fb ≤ 2 ^ (m.log2 + d) := Nat.pow_le_pow_right (by omega) (by omega)
          _ = 2 ^ m.log2 * 2 ^ d := by rw [← pow_add]
          _ ≤ m * 2 ^ d := by gcongr
    have g0 := f.magVal_eq Q (m * 2 ^ d) hklo (by omega)
    have g1 := f.magVal_eq Q (m * 2 ^ d + 1) (by omega) (by omega)
    rw [← add_assoc] at g1
    rw [← hQq] at g0 g1
    have hxe : x = f.magVal (Q * 2 ^ f.fb + m * 2 ^ d) := by
      rw [hx, g0, two_zpow_shift e d q hde]; push_cast; ring
    have hlt : f.magVal (Q * 2 ^ f.fb + m * 2 ^ d) < f.magVal (Q * 2 ^ f.fb + m * 2 ^ d + 1) := by
      rw [g0, g1]; have := two_zpow_pos q; push_cast; nlinarith
    exact ⟨Q * 2 ^ f.fb + m * 2 ^ d, hxe.ge, hxe ▸ hlt, fun _ => rfl, fun h => absurd hxe h⟩
  case isFalse hqe =>
    obtain ⟨d, hd⟩ : ∃ d : Nat, d = (q - e).toNat := ⟨_, rfl⟩
    simp only [← hd]
    have hde : q = d + e := by omega
    have hd0 : 0 < d := by omega
    obtain ⟨k, hk⟩ : ∃ k : Nat, k = m / 2 ^ d := ⟨_, rfl⟩
    obtain ⟨t, ht⟩ : ∃ t : Nat, t = m % 2 ^ d := ⟨_, rfl⟩
    have hdm : m = k * 2 ^ d + t := by rw [hk, ht]; exact (Nat.div_add_mod' m _).symm
    have htl : t < 2 ^ d := ht ▸ Nat.mod_lt _ (by positivity)
    simp only [← hk, ← ht]
    have hkhi : k < 2 ^ (f.fb + 1) := by
      rw [hk]
      refine Nat.div_lt_of_lt_mul ?_
      calc m < 2 ^ (m.log2 + 1) := hhi
        _ ≤ 2 ^ (d + (f.fb + 1)) := Nat.pow_le_pow_right (by omega) (by omega)
        _ = 2 ^ d * 2 ^ (f.fb + 1) := by rw [pow_add]
    have hklo : Q = 0 ∨ 2 ^ f.fb ≤ k := by
      rcases Nat.eq_zero_or_pos Q with h | h
      · exact .inl h
      · right
        rw [hk]
        refine (Nat.le_div_iff_mul_le (by positivity)).2 ?_
        calc 2 ^ f.fb * 2 ^ d = 2 ^ (f.fb + d) := by rw [← pow_add]
          _ ≤ 2 ^ m.log2 := Nat.pow_le_pow_right (by omega) (by omega)
          _ ≤ m := hlo
    have g0 := f.magVal_eq Q k hklo (by omega)
    have g1 := f.magVal_eq Q (k + 1) (by omega) (by omega)
    rw [← add_assoc] at g1
    rw [← hQq] at g0 g1
    have hpar : (Q * 2 ^ f.fb + k) % 2 = k % 2 := by
      obtain ⟨b, hb⟩ : ∃ b, f.fb = b + 1 := ⟨f.fb - 1, by omega⟩
      rw [hb, pow_succ, ← mul_assoc]; omega
    have hz := two_zpow_pos e
    have hq2 : (2 : ℝ) ^ q = 2 ^ d * 2 ^ e := two_zpow_shift q d e hde
    have hmr : (m : ℝ) = k * 2 ^ d + t := by exact_mod_cast hdm
    have htr : (t : ℝ) + 1 ≤ 2 ^ d := by exact_mod_cast htl
    have htp : (0 : ℝ) ≤ t := by positivity
    -- x lies in [k, k + 1) units
    obtain ⟨y, hy, hy0, hy1, hyt⟩ : ∃ y : ℝ, x = (k * 2 ^ d + y) * 2 ^ e ∧ t ≤ y ∧ y < 2 ^ d ∧
        (if sticky then t < y ∧ y < t + 1 else y = t) := by
      refine ⟨x / 2 ^ e - k * 2 ^ d, by field_simp; ring, ?_⟩
      cases sticky
      · simp only [Bool.false_eq_true, if_false] at hx ⊢
        have : x / 2 ^ e = m := by rw [hx]; field_simp
        rw [this, hmr]
        refine ⟨by linarith, by linarith, by ring⟩
      · simp only [if_true] at hx ⊢
        have h1 : (m : ℝ) < x / 2 ^ e := by rw [lt_div_iff₀ hz]; exact hx.1
        have h2 : x / 2 ^ e < m + 1 := by rw [div_lt_iff₀ hz]; exact hx.2.1
        refine ⟨by linarith, by linarith, by linarith, by linarith⟩
    have gx0 : f.magVal (Q * 2 ^ f.fb + k) = (k * 2 ^ d) * 2 ^ e := by rw [g0, hq2]; ring
    have gx1 : f.magVal (Q * 2 ^ f.fb + k + 1) = (k * 2 ^ d + 2 ^ d) * 2 ^ e := by rw [g1, hq2]; push_cast; ring
    have hD : (0 : ℝ) < 2 ^ d := by positivity
    refine ⟨Q * 2 ^ f.fb + k, ?_, ?_, ?_, ?_⟩
    · rw [gx0, hy]; exact mul_le_mul_of_nonneg_right (by linarith) hz.le
    · rw [gx1, hy]; exact mul_lt_mul_of_pos_right (by linarith) hz
    · intro h
      rw [gx0, hy] at h
      have h' : y = 0 := by have := mul_right_cancel₀ hz.ne' h; linarith
      have hst : sticky = false := by
        cases sticky
        · rfl
        · simp only [if_true] at hyt; exfalso; linarith [hyt.1]
      subst hst
      simp only [Bool.false_eq_true, if_false] at hyt
      have : t = 0 := by have : (t : ℝ) = 0 := by linarith
                         exact_mod_cast this
      simp [roundUp, this]
    · intro h
      rw [gx0, hy] at h
      have h' : y ≠ 0 := by rintro rfl; exact h (by ring)
      have hne : (t == 0 && !sticky) = false := by
        cases sticky
        · simp only [Bool.false_eq_true, if_false] at hyt
          have : t ≠ 0 := by rintro rfl; exact h' (by simpa using hyt)
          simp [this]
        · simp
      simp only [roundUp, hne, Bool.false_eq_true, if_false]
      have hsum : f.magVal (Q * 2 ^ f.fb + k) + f.magVal (Q * 2 ^ f.fb + k + 1) = (2 * (k * 2 ^ d) + 2 ^ d) * 2 ^ e := by
        rw [gx0, gx1]; ring
      cases r
      · rw [hsum, hy]
        have hc1 : 2 * ((k * 2 ^ d + y) * 2 ^ e) < (2 * (k * 2 ^ d) + 2 ^ d) * 2 ^ e ↔ 2 * y < 2 ^ d := by
          rw [show 2 * ((k * 2 ^ d + y) * 2 ^ e) = (2 * (k * 2 ^ d) + 2 * y) * 2 ^ e by ring, mul_lt_mul_iff_left₀ hz]
          constructor <;> intro h <;> linarith
        have hc2 : (2 * (k * 2 ^ d) + 2 ^ d) * 2 ^ e < 2 * ((k * 2 ^ d + y) * 2 ^ e) ↔ (2 : ℝ) ^ d < 2 * y := by
          rw [show 2 * ((k * 2 ^ d + y) * 2 ^ e) = (2 * (k * 2 ^ d) + 2 * y) * 2 ^ e by ring, mul_lt_mul_iff_left₀ hz]
          constructor <;> intro h <;> linarith
        have hc3 : 2 * ((k * 2 ^ d + y) * 2 ^ e) = (2 * (k * 2 ^ d) + 2 ^ d) * 2 ^ e ↔ 2 * y = 2 ^ d := by
          constructor
          · intro h
            have := mul_right_cancel₀ hz.ne' (show (2 * (k * 2 ^ d) + 2 * y) * 2 ^ e = _ from by rw [← h]; ring)
            linarith
          · intro h; rw [← h]; ring
        simp only [hc1, hc2, hc3]
        -- the comparison of the cut-off part with half a unit
        obtain ⟨b, rfl⟩ : ∃ b, d = b + 1 := ⟨d - 1, by omega⟩
        have hb : (2 : ℕ) ^ (b + 1) = 2 * 2 ^ b := by rw [pow_succ]; ring
        have hbr : (2 : ℝ) ^ (b + 1) = 2 * 2 ^ b := by rw [pow_succ]; ring
        rw [hbr]
        have cmp : (cmpInt (2 * (t : ℕ) : ℕ) (2 ^ (b + 1) : ℕ) = .lt ∧ t < 2 ^ b) ∨
            (cmpInt (2 * (t : ℕ) : ℕ) (2 ^ (b + 1) : ℕ) = .eq ∧ t = 2 ^ b) ∨
            (cmpInt (2 * (t : ℕ) : ℕ) (2 ^ (b + 1) : ℕ) = .gt ∧ 2 ^ b < t) := by
          unfold cmpInt
          rcases Nat.lt_trichotomy t (2 ^ b) with h | h | h
          · left; exact ⟨by rw [if_pos (by omega)], h⟩
          · right; left; exact ⟨by rw [if_neg (by omega), if_pos (by omega)], h⟩
          · right; right; exact ⟨by rw [if_neg (by omega), if_neg (by omega)], h⟩
        simp only [Nat.cast_mul, Nat.cast_pow, Nat.cast_ofNat] at cmp
        rcases cmp with ⟨hc, hlt⟩ | ⟨hc, heq⟩ | ⟨hc, hgt⟩ <;> rw [hc]
        · have h1 : (t : ℝ) + 1 ≤ 2 ^ b := by exact_mod_cast hlt
          have h2 : y < 2 ^ b := by
            cases sticky
            · simp only [Bool.false_eq_true, if_false] at hyt; linarith
            · simp only [if_true] at hyt; linarith [hyt.2]
          refine ⟨fun _ => by simp, fun h => by linarith, fun h => by linarith⟩
        · have h1 : (t : ℝ) = 2 ^ b := by exact_mod_cast heq
          cases sticky
          · simp only [Bool.false_eq_true, if_false] at hyt ⊢
            refine ⟨fun h => by linarith, fun h => by linarith, fun _ => ?_⟩
            rcases Nat.mod_two_eq_zero_or_one k with h | h
            · simp only [h]; exact ⟨by simpa using hpar.trans h, .inl rfl⟩
            · simp only [h]; exact ⟨by simp; omega, .inr rfl⟩
          · simp only [if_true] at hyt ⊢
            refine ⟨fun h => by linarith [hyt.1], fun _ => by simp, fun h => by linarith [hyt.1]⟩
        · have h1 : (2 : ℝ) ^ b + 1 ≤ t := by exact_mod_cast hgt
          refine ⟨fun h => by linarith, fun _ => by simp, fun h => by linarith⟩
      · rfl
      · cases neg <;> simp
      · cases neg <;> simp

theorem FloatFmt.round_rounded (f : FloatFmt) (hf : 0 < f.fb) (r : Rnd) (sat neg : Bool) (m : Nat) (e : Int) (sticky : Bool) (x : ℝ)
    (hm : m ≠ 0)
    (hx : if sticky then (m : ℝ) * 2 ^ e < x ∧ x < (m + 1) * 2 ^ e ∧ f.fb < m.log2 else x = m * 2 ^ e) :
    f.Rounded r sat neg x (f.round r sat neg m e sticky) := by
  refine ⟨_, f.roundMag_rounds hf r neg m e sticky x hm hx, ?_⟩
  unfold FloatFmt.round
  simp only
  split
  · rfl
  · unfold FloatFmt.Beyond FloatFmt.overflow
    cases sat
    · rcases hi : f.inf with _ | i
      · rcases hn : f.nan with _ | n <;> simp
      · cases r <;> cases neg <;> simp [roundUp]
    · simp

theorem FloatFmt.round_zero (f : FloatFmt) (r : Rnd) (sat neg : Bool) (e : Int) : f.round r sat neg 0 e false = f.signed neg 0 := by
  simp [FloatFmt.round, FloatFmt.roundMag, roundUp]

/-! ### Numbers of dyadic values -/

theorem Dy.at_real (x : Dy) (e : Int) (h : e ≤ x.e) : (x.at_ e : ℝ) * 2 ^ e = x.real := by
  unfold Dy.at_ Dy.real
  rw [two_zpow_shift x.e (x.e - e).toNat e (by omega)]
  push_cast; ring

@[simp] theorem Dy.real_add (x y : Dy) : (x.add y).real = x.real + y.real := by
  rw [← x.at_real (min x.e y.e) (by omega), ← y.at_real (min x.e y.e) (by omega)]
  simp only [Dy.add, Dy.real]; push_cast; ring

@[simp] theorem Dy.real_mul (x y : Dy) : (x.mul y).real = x.real * y.real := by
  simp only [Dy.mul, Dy.real, zpow_add₀ (show (2 : ℝ) ≠ 0 by norm_num)]; push_cast; ring

@[simp] theorem Dy.real_neg (x : Dy) : x.neg.real = -x.real := by simp [Dy.neg, Dy.real]

@[simp] theorem Dy.real_abs (x : Dy) : x.abs.real = |x.real| := by
  simp only [Dy.abs, Dy.real, abs_mul, abs_of_pos (two_zpow_pos x.e)]
  rw [show ((x.m.natAbs : Int) : ℝ) = |(x.m : ℝ)| from by rw [Int.natCast_natAbs]; push_cast; rfl]

theorem Dy.real_eq_zero (x : Dy) : x.real = 0 ↔ x.m = 0 := by
  simp [Dy.real, (two_zpow_pos x.e).ne']

theorem Dy.real_neg_iff (x : Dy) : x.real < 0 ↔ x.m < 0 := by
  unfold Dy.real
  constructor
  · intro h; by_contra hc; have : (0 : ℝ) ≤ x.m := by exact_mod_cast (not_lt.1 hc)
    have := mul_nonneg this (two_zpow_pos x.e).le; linarith
  · intro h; have : (x.m : ℝ) < 0 := by exact_mod_cast h
    exact mul_neg_of_neg_of_pos this (two_zpow_pos x.e)

theorem Dy.cmp_real (x y : Dy) :
    x.cmp y = if x.real < y.real then .lt else if x.real = y.real then .eq else .gt := by
  have hz := two_zpow_pos (min x.e y.e)
  rw [← x.at_real (min x.e y.e) (by omega), ← y.at_real (min x.e y.e) (by omega)]
  simp only [Dy.cmp, cmpInt, mul_lt_mul_iff_left₀ hz, mul_left_inj' hz.ne', Int.cast_lt, Int.cast_inj]

theorem Dy.le_real (x y : Dy) : x.le y = true ↔ x.real ≤ y.real := by
  rw [Dy.le, Dy.cmp_real]
  split_ifs with h1 h2
  · simp [h1.le]
  · simp [h2]
  · simp only [bne_self_eq_false, Bool.false_eq_true, false_iff, not_le]
    exact lt_of_le_of_ne (not_lt.1 h1) (Ne.symm h2)

theorem Dy.within_real (x y u : Dy) : x.within y u = true ↔ |x.real - y.real| ≤ u.real := by
  rw [Dy.within, Dy.le_real]; simp [sub_eq_add_neg]

theorem FVal.real_fin (neg : Bool) (m : Nat) (e : Int) :
    (FVal.fin neg m e).real = if neg then -(m * (2 : ℝ) ^ e) else m * (2 : ℝ) ^ e := by
  cases neg <;> simp [FVal.real, FVal.dy, Dy.real]

theorem FVal.real_negate (v : FVal) : v.negate.real = -v.real := by
  cases v with
  | fin neg m e => cases neg <;> simp [FVal.negate, FVal.real_fin]
  | _ => simp [FVal.negate, FVal.real, FVal.dy, Dy.real]

/-! ### The exactly rounded operations (R143, R144, R151, R152) -/

theorem FloatFmt.round_roundedTo (f : FloatFmt) (hf : 0 < f.fb) (r : Rnd) (sat neg : Bool) (m : Nat) (e : Int) :
    f.RoundedTo r sat neg (FVal.fin neg m e).real (f.round r sat neg m e false) := by
  have hz := two_zpow_pos e
  rw [FVal.real_fin]
  rcases Nat.eq_zero_or_pos m with rfl | hm
  · simp [FloatFmt.RoundedTo, f.round_zero]
  · have hmr : (0 : ℝ) < m := by exact_mod_cast hm
    have hp : 0 < (m : ℝ) * 2 ^ e := by positivity
    refine ⟨fun h => ?_, fun _ => ?_⟩
    · cases neg
      · simp only [Bool.false_eq_true, if_false] at h; exact absurd h hp.ne'
      · simp only [if_true] at h; linarith
    · have hd : decide ((if neg = true then -((m : ℝ) * 2 ^ e) else m * 2 ^ e) < 0) = neg := by
        cases neg <;> simp [hp, hp.le]
      have ha : |if neg = true then -((m : ℝ) * 2 ^ e) else m * 2 ^ e| = m * 2 ^ e := by
        cases neg <;> simp
      rw [hd, ha]
      exact f.round_rounded hf r sat neg m e false _ hm.ne' (by simp)

theorem FloatFmt.ofDy_roundedTo (f : FloatFmt) (hf : 0 < f.fb) (r : Rnd) (zneg : Bool) (x : Dy) :
    f.RoundedTo r false zneg x.real (f.ofDy r zneg x) := by
  unfold FloatFmt.ofDy
  split
  · next h => exact ⟨fun _ => rfl, fun h' => absurd ((x.real_eq_zero).2 h) h'⟩
  · next h =>
    refine ⟨fun h' => absurd ((x.real_eq_zero).1 h') h, fun _ => ?_⟩
    have hd : decide (x.real < 0) = decide (x.m < 0) := by simp only [x.real_neg_iff]
    rw [hd]
    refine f.round_rounded hf r false _ _ _ false _ (by omega) ?_
    simp only [Bool.false_eq_true, if_false]
    rw [← x.real_abs]; simp [Dy.abs, Dy.real]

theorem FloatFmt.add_roundedTo (f : FloatFmt) (hf : 0 < f.fb) (r : Rnd) (x y : Bool) (m n : Nat) (e g : Int) :
    f.RoundedTo r false (if m = 0 ∧ n = 0 ∧ x = y then x else r == .rdn) ((FVal.fin x m e).real + (FVal.fin y n g).real)
      (f.add r (.fin x m e) (.fin y n g)) := by
  have := f.ofDy_roundedTo hf r (if m = 0 ∧ n = 0 ∧ x = y then x else r == .rdn) ((FVal.fin x m e).dy.add (FVal.fin y n g).dy)
  rw [Dy.real_add] at this
  exact this

theorem FVal.real_mul (x y : Bool) (m n : Nat) (e g : Int) :
    (FVal.fin (x != y) (m * n) (e + g)).real = (FVal.fin x m e).real * (FVal.fin y n g).real := by
  simp only [FVal.real_fin, zpow_add₀ (show (2 : ℝ) ≠ 0 by norm_num)]
  cases x <;> cases y <;> simp <;> ring

theorem FloatFmt.mul_roundedTo (f : FloatFmt) (hf : 0 < f.fb) (r : Rnd) (x y : Bool) (m n : Nat) (e g : Int) :
    f.RoundedTo r false (x != y) ((FVal.fin x m e).real * (FVal.fin y n g).real) (f.mul r (.fin x m e) (.fin y n g)) := by
  rw [← FVal.real_mul]; exact f.round_roundedTo hf r false _ _ _

theorem FloatFmt.fma_roundedTo (f : FloatFmt) (hf : 0 < f.fb) (r : Rnd) (x y z : Bool) (m n p : Nat) (e g h : Int) :
    f.RoundedTo r false (if m * n = 0 ∧ p = 0 ∧ (x != y) = z then x != y else r == .rdn)
      ((FVal.fin x m e).real * (FVal.fin y n g).real + (FVal.fin z p h).real)
      (f.fma r (.fin x m e) (.fin y n g) (.fin z p h)) := by
  rw [← FVal.real_mul]; exact f.add_roundedTo hf r _ _ _ _ _ _

/-- The quotient m · 2^k / n, cut to an integer, brackets the exact quotient with enough bits. -/
theorem quotient_rounds (f : FloatFmt) (hf : 0 < f.fb) (hb : f.fb < 63) (r : Rnd) (sat neg : Bool) (m n : Nat) (e g : Int)
    (hm : m ≠ 0) (hn : n ≠ 0) :
    let k := 64 + n.log2 - m.log2
    f.Rounded r sat neg ((m * (2 : ℝ) ^ e) / (n * 2 ^ g)) (f.round r sat neg (m * 2 ^ k / n) (e - g - k) (m * 2 ^ k % n != 0)) ∧
    RoundsTo f.magVal r neg ((m * (2 : ℝ) ^ e) / (n * 2 ^ g)) (f.roundMag r neg (m * 2 ^ k / n) (e - g - k) (m * 2 ^ k % n != 0)) := by
  intro k
  obtain ⟨q, hq⟩ : ∃ q : Nat, q = m * 2 ^ k / n := ⟨_, rfl⟩
  obtain ⟨t, ht⟩ : ∃ t : Nat, t = m * 2 ^ k % n := ⟨_, rfl⟩
  have hqt : m * 2 ^ k = n * q + t := by rw [hq, ht]; exact (Nat.div_add_mod _ _).symm
  have htn : t < n := ht ▸ Nat.mod_lt _ (by omega)
  have hq64 : 2 ^ 63 ≤ q := by
    rw [hq]
    refine (Nat.le_div_iff_mul_le (by omega)).2 ?_
    have h1 : 2 ^ m.log2 ≤ m := Nat.log2_self_le hm
    have h2 : n < 2 ^ (n.log2 + 1) := Nat.lt_log2_self
    calc 2 ^ 63 * n ≤ 2 ^ 63 * 2 ^ (n.log2 + 1) := by gcongr
      _ = 2 ^ (63 + (n.log2 + 1)) := by rw [← pow_add]
      _ ≤ 2 ^ (m.log2 + k) := Nat.pow_le_pow_right (by omega) (by omega)
      _ = 2 ^ m.log2 * 2 ^ k := by rw [← pow_add]
      _ ≤ m * 2 ^ k := by gcongr
  have hq0 : q ≠ 0 := by have : 0 < 2 ^ 63 := by positivity
                         omega
  have hlog : f.fb < q.log2 := lt_of_lt_of_le hb ((Nat.le_log2 hq0).2 hq64)
  have hnr : (0 : ℝ) < n := by exact_mod_cast Nat.pos_of_ne_zero hn
  have hex : (m * (2 : ℝ) ^ e) / (n * 2 ^ g) = (q + t / n) * 2 ^ (e - g - k) := by
    have h1 : (m : ℝ) * 2 ^ k = n * q + t := by exact_mod_cast hqt
    have hk : (2 : ℝ) ^ (e - g - k) = 2 ^ e / 2 ^ g / 2 ^ k := by
      rw [zpow_sub₀ (by norm_num), zpow_sub₀ (by norm_num), zpow_natCast]
    rw [hk, show (q : ℝ) + t / n = (n * q + t) / n by field_simp, ← h1]
    have := two_zpow_pos g
    field_simp
  have key : if (t != 0) then (q : ℝ) * 2 ^ (e - g - k) < (m * (2 : ℝ) ^ e) / (n * 2 ^ g) ∧
      (m * (2 : ℝ) ^ e) / (n * 2 ^ g) < (q + 1) * 2 ^ (e - g - k) ∧ f.fb < q.log2
      else (m * (2 : ℝ) ^ e) / (n * 2 ^ g) = q * 2 ^ (e - g - k) := by
    have hz := two_zpow_pos (e - g - k)
    have htr : (t : ℝ) < n := by exact_mod_cast htn
    rw [hex]
    rcases Nat.eq_zero_or_pos t with rfl | h
    · simp
    · have : (t != 0) = true := by simp; omega
      rw [this, if_pos rfl, mul_lt_mul_iff_left₀ hz, mul_lt_mul_iff_left₀ hz]
      have htp : (0 : ℝ) < t := by exact_mod_cast h
      refine ⟨by have : (0 : ℝ) < t / n := by positivity
                 linarith, by have : (t : ℝ) / n < 1 := by rw [div_lt_one hnr]; exact htr
                              linarith, hlog⟩
  rw [← hq, ← ht]
  exact ⟨f.round_rounded hf r sat neg q _ _ _ hq0 key, f.roundMag_rounds hf r neg q _ _ _ hq0 key⟩

theorem FloatFmt.div_roundedTo (f : FloatFmt) (hf : 0 < f.fb) (hb : f.fb < 63) (r : Rnd) (x y : Bool) (m n : Nat) (e g : Int)
    (hn : n ≠ 0) :
    f.RoundedTo r false (x != y) ((FVal.fin x m e).real / (FVal.fin y n g).real) (f.div r (.fin x m e) (.fin y n g)) := by
  have hz := two_zpow_pos e
  have hg := two_zpow_pos g
  have hnr : (0 : ℝ) < n := by exact_mod_cast Nat.pos_of_ne_zero hn
  have hreal : (FVal.fin x m e).real / (FVal.fin y n g).real =
      if (x != y) = true then -((m * (2 : ℝ) ^ e) / (n * 2 ^ g)) else (m * (2 : ℝ) ^ e) / (n * 2 ^ g) := by
    simp only [FVal.real_fin]
    cases x <;> cases y <;> simp <;> ring
  unfold FloatFmt.div
  simp only [hn, if_false]
  split
  · next h =>
    subst h
    simp [FloatFmt.RoundedTo, FVal.real_fin]
  · next h =>
    have hmr : (0 : ℝ) < m := by exact_mod_cast Nat.pos_of_ne_zero h
    have hp : 0 < (m * (2 : ℝ) ^ e) / (n * 2 ^ g) := by positivity
    rw [hreal]
    refine ⟨fun h' => ?_, fun _ => ?_⟩
    · split at h' <;> linarith
    · have hd : decide ((if (x != y) = true then -((m * (2 : ℝ) ^ e) / (n * 2 ^ g)) else (m * (2 : ℝ) ^ e) / (n * 2 ^ g)) < 0) = (x != y) := by
        cases hxy : (x != y)
        · simp only [Bool.false_eq_true, if_false]; simpa using hp.le
        · simpa using hp
      have ha : |if (x != y) = true then -((m * (2 : ℝ) ^ e) / (n * 2 ^ g)) else (m * (2 : ℝ) ^ e) / (n * 2 ^ g)| = (m * (2 : ℝ) ^ e) / (n * 2 ^ g) := by
        split
        · rw [abs_neg, abs_of_pos hp]
        · exact abs_of_pos hp
      rw [hd, ha]
      exact (quotient_rounds f hf hb r false (x != y) m n e g h hn).1

/-- The integer square root of a number below 4^n. -/
theorem isqrt_spec (x n : Nat) (h : x < 4 ^ n) : isqrt x n * isqrt x n ≤ x ∧ x < (isqrt x n + 1) * (isqrt x n + 1) := by
  have key : ∀ (k : Nat) (a : Nat), a * a ≤ x → x < (a + 2 ^ k) * (a + 2 ^ k) →
      let q := ((List.range k).reverse).foldl (fun r b => let t := r + 2 ^ b; if t * t ≤ x then t else r) a
      q * q ≤ x ∧ x < (q + 1) * (q + 1) := by
    intro k
    induction k with
    | zero => intro a h1 h2; exact ⟨h1, by simpa using h2⟩
    | succ k ih =>
      intro a h1 h2
      rw [List.range_succ, List.reverse_append, List.reverse_singleton, List.singleton_append, List.foldl_cons]
      have hs : 2 ^ (k + 1) = 2 ^ k + 2 ^ k := by rw [pow_succ]; ring
      simp only
      split
      · next h => exact ih _ h (by rw [hs] at h2; rw [add_assoc]; exact h2)
      · next h => exact ih _ h1 (by omega)
  refine key n 0 (by simp) ?_
  rw [zero_add, ← mul_pow]; exact h

theorem FloatFmt.sqrt_roundedTo (f : FloatFmt) (hf : 0 < f.fb) (hb : f.fb < 63) (r : Rnd) (neg : Bool) (m : Nat) (e : Int)
    (h : m = 0 ∨ neg = false) :
    f.RoundedTo r false neg (Real.sqrt (FVal.fin neg m e).real) (f.sqrt r (.fin neg m e)) := by
  unfold FloatFmt.sqrt
  rcases Nat.eq_zero_or_pos m with rfl | hm
  · simp [FloatFmt.RoundedTo, FVal.real_fin]
  · have hm0 : m ≠ 0 := hm.ne'
    obtain rfl : neg = false := by simpa [hm0] using h
    simp only [hm0, if_false, Bool.false_eq_true]
    obtain ⟨k, hk⟩ : ∃ k : Nat, k = 128 + (if e % 2 = 0 then 0 else 1) := ⟨_, rfl⟩
    rw [← hk]
    obtain ⟨x, hx⟩ : ∃ x : Nat, x = m * 2 ^ k := ⟨_, rfl⟩
    rw [← hx]
    obtain ⟨q, hq⟩ : ∃ q : Nat, q = isqrt x (x.log2 / 2 + 1) := ⟨_, rfl⟩
    rw [← hq]
    have hspec := isqrt_spec x (x.log2 / 2 + 1) (by
      have h1 : x < 2 ^ (x.log2 + 1) := Nat.lt_log2_self
      refine lt_of_lt_of_le h1 ?_
      rw [show (4 : ℕ) = 2 ^ 2 from rfl, ← pow_mul]
      exact Nat.pow_le_pow_right (by omega) (by omega))
    rw [← hq] at hspec
    have hx128 : 2 ^ 128 ≤ x := by
      rw [hx]
      calc 2 ^ 128 ≤ 2 ^ k := Nat.pow_le_pow_right (by omega) (by omega)
        _ ≤ m * 2 ^ k := Nat.le_mul_of_pos_left _ hm
    have hq64 : 2 ^ 64 ≤ q := by
      by_contra hc
      have h1 : q + 1 ≤ 2 ^ 64 := by omega
      have h2 : (q + 1) * (q + 1) ≤ 2 ^ 64 * 2 ^ 64 := Nat.mul_le_mul h1 h1
      have h3 : (2 : ℕ) ^ 64 * 2 ^ 64 = 2 ^ 128 := by norm_num
      omega
    have hq0 : q ≠ 0 := by have : 0 < 2 ^ 64 := by positivity
                           omega
    obtain ⟨j, hj⟩ : ∃ j : Int, j = (e - k) / 2 := ⟨_, rfl⟩
    rw [← hj]
    have hek : e = k + (j + j) := by
      have : (e - k) % 2 = 0 := by rw [hk]; split <;> push_cast <;> omega
      omega
    have hz := two_zpow_pos j
    have hreal : (FVal.fin false m e).real = x * (2 ^ j * 2 ^ j) := by
      simp only [FVal.real_fin, Bool.false_eq_true, if_false]
      rw [two_zpow_shift e k (j + j) hek, zpow_add₀ (by norm_num), hx]; push_cast; ring
    have hsq : Real.sqrt (FVal.fin false m e).real = Real.sqrt x * 2 ^ j := by
      rw [hreal, Real.sqrt_mul (by positivity), Real.sqrt_mul_self hz.le]
    have hxp : (0 : ℝ) < x := by
      have : 0 < x := by have : 0 < 2 ^ 128 := by positivity
                         omega
      exact_mod_cast this
    have hp : 0 < Real.sqrt x * (2 : ℝ) ^ j := mul_pos (Real.sqrt_pos.2 hxp) hz
    rw [hsq]
    refine ⟨fun h' => absurd h' hp.ne', fun _ => ?_⟩
    rw [decide_eq_false (not_lt.2 hp.le), abs_of_pos hp]
    refine f.round_rounded hf r false false q j _ _ hq0 ?_
    have hlt : Real.sqrt x < q + 1 := by
      rw [Real.sqrt_lt' (by positivity)]
      have : (x : ℝ) < (q + 1) * (q + 1) := by exact_mod_cast hspec.2
      nlinarith
    rcases Nat.eq_or_lt_of_le hspec.1 with heq | hlt'
    · have : (q * q != x) = false := by simp [heq]
      rw [this]
      simp only [Bool.false_eq_true, if_false]
      rw [← heq]; push_cast; rw [Real.sqrt_mul_self (by positivity)]
    · have : (q * q != x) = true := by simp; omega
      rw [this, if_pos rfl, mul_lt_mul_iff_left₀ hz, mul_lt_mul_iff_left₀ hz]
      refine ⟨?_, hlt, lt_of_lt_of_le hb ((Nat.le_log2 hq0).2 (le_trans (by norm_num) hq64))⟩
      rw [Real.lt_sqrt (by positivity)]
      have : (q : ℝ) * q < x := by exact_mod_cast hlt'
      nlinarith

/-- A magnitude m / 2^d cut to an integer and raised by the rounding code is that magnitude rounded to an integer. -/
theorem cut_rounds (r : Rnd) (neg : Bool) (m d : Nat) (hd : 0 < d) :
    RoundsTo (fun k => (k : ℝ)) r neg (m / 2 ^ d)
      (m / 2 ^ d + (roundUp r neg (m / 2 ^ d % 2 == 1) (m % 2 ^ d == 0) (cmpInt (2 * (m % 2 ^ d : Nat)) (2 ^ d))).toNat) := by
  obtain ⟨k, hk⟩ : ∃ k : Nat, k = m / 2 ^ d := ⟨_, rfl⟩
  obtain ⟨t, ht⟩ : ∃ t : Nat, t = m % 2 ^ d := ⟨_, rfl⟩
  have hdm : m = k * 2 ^ d + t := by rw [hk, ht]; exact (Nat.div_add_mod' m _).symm
  have htl : t < 2 ^ d := ht ▸ Nat.mod_lt _ (by positivity)
  rw [← hk, ← ht]
  have hD : (0 : ℝ) < 2 ^ d := by positivity
  have htr : (t : ℝ) + 1 ≤ 2 ^ d := by exact_mod_cast htl
  have hx : (m : ℝ) / 2 ^ d = k + t / 2 ^ d := by rw [hdm]; push_cast; field_simp
  have ht1 : (t : ℝ) / 2 ^ d < 1 := by rw [div_lt_one hD]; linarith
  have ht0 : (0 : ℝ) ≤ t / 2 ^ d := by positivity
  rw [hx]
  refine ⟨k, by linarith, by push_cast; linarith, fun h => ?_, fun h => ?_⟩
  · have : (t : ℝ) / 2 ^ d = 0 := by linarith
    have : t = 0 := by have := (div_eq_zero_iff.1 this).resolve_right hD.ne'
                       exact_mod_cast this
    simp [roundUp, this]
  · have hne : (t == 0) = false := by
      have : t ≠ 0 := by rintro rfl; exact h (by simp)
      simp [this]
    simp only [roundUp, hne, Bool.false_eq_true, if_false]
    cases r
    · obtain ⟨b, rfl⟩ : ∃ b, d = b + 1 := ⟨d - 1, by omega⟩
      have hb : (2 : ℕ) ^ (b + 1) = 2 * 2 ^ b := by rw [pow_succ]; ring
      have hbr : (2 : ℝ) ^ (b + 1) = 2 * 2 ^ b := by rw [pow_succ]; ring
      have hB : (0 : ℝ) < 2 ^ b := by positivity
      have cmp : (cmpInt (2 * (t : Nat)) (2 ^ (b + 1)) = .lt ∧ t < 2 ^ b) ∨
          (cmpInt (2 * (t : Nat)) (2 ^ (b + 1)) = .eq ∧ t = 2 ^ b) ∨
          (cmpInt (2 * (t : Nat)) (2 ^ (b + 1)) = .gt ∧ 2 ^ b < t) := by
        have hbi : (2 : ℤ) ^ (b + 1) = ((2 * 2 ^ b : Nat) : Int) := by rw [← hb]; push_cast; rfl
        rw [hbi]
        unfold cmpInt
        rcases Nat.lt_trichotomy t (2 ^ b) with h | h | h
        · left; exact ⟨by rw [if_pos (by omega)], h⟩
        · right; left; exact ⟨by rw [if_neg (by omega), if_pos (by omega)], h⟩
        · right; right; exact ⟨by rw [if_neg (by omega), if_neg (by omega)], h⟩
      rw [hbr]
      have hy : (t : ℝ) / (2 * 2 ^ b) * (2 * 2 ^ b) = t := by field_simp
      rcases cmp with ⟨hc, hlt⟩ | ⟨hc, heq⟩ | ⟨hc, hgt⟩ <;> rw [hc]
      · have h1 : (t : ℝ) < 2 ^ b := by exact_mod_cast hlt
        have h2 : (t : ℝ) / (2 * 2 ^ b) < 1 / 2 := by rw [div_lt_iff₀ (by positivity)]; linarith
        refine ⟨fun _ => by simp, fun h => by push_cast at h; linarith, fun h => by push_cast at h; linarith⟩
      · have h1 : (t : ℝ) = 2 ^ b := by exact_mod_cast heq
        have h2 : (t : ℝ) / (2 * 2 ^ b) = 1 / 2 := by rw [h1]; field_simp
        refine ⟨fun h => by push_cast at h; linarith, fun h => by push_cast at h; linarith, fun _ => ?_⟩
        rcases Nat.mod_two_eq_zero_or_one k with h | h
        · have : (Cmp.eq == Cmp.gt).toNat = 0 := rfl
          simp [h, this]
        · simp only [h]; exact ⟨by simp; omega, .inr rfl⟩
      · have h1 : (2 : ℝ) ^ b < t := by exact_mod_cast hgt
        have h2 : 1 / 2 < (t : ℝ) / (2 * 2 ^ b) := by rw [lt_div_iff₀ (by positivity)]; linarith
        refine ⟨fun h => by push_cast at h; linarith, fun _ => by simp, fun h => by push_cast at h; linarith⟩
    · rfl
    · cases neg <;> rfl
    · cases neg <;> rfl

theorem FVal.fin_sign (neg : Bool) (m : Nat) (e : Int) (hm : m ≠ 0) :
    decide ((FVal.fin neg m e).real < 0) = neg ∧ |(FVal.fin neg m e).real| = m * (2 : ℝ) ^ e ∧ (FVal.fin neg m e).real ≠ 0 := by
  have hz := two_zpow_pos e
  have hmr : (0 : ℝ) < m := by exact_mod_cast Nat.pos_of_ne_zero hm
  have hp : 0 < (m : ℝ) * 2 ^ e := by positivity
  rw [FVal.real_fin]
  cases neg <;> simp [hp.le, hp, hm, hz.ne', abs_of_pos hp]

/-- The magnitude that an integral rounding gives (R341). -/
theorem integral_rounds (r : Rnd) (neg : Bool) (m : Nat) (e : Int) :
    RoundsTo (fun k => (k : ℝ)) r neg (m * (2 : ℝ) ^ e)
      (if 0 ≤ e then m * 2 ^ Int.toNat e
       else m / 2 ^ (-e).toNat + (roundUp r neg (m / 2 ^ (-e).toNat % 2 == 1) (m % 2 ^ (-e).toNat == 0)
         (cmpInt (2 * (m % 2 ^ (-e).toNat : Nat)) (2 ^ (-e).toNat))).toNat) := by
  split
  · next h =>
    have : (m : ℝ) * 2 ^ e = ((m * 2 ^ Int.toNat e : Nat) : ℝ) := by
      rw [two_zpow_shift e (Int.toNat e) 0 (by omega)]; push_cast; simp
    exact ⟨_, this.ge, by rw [this]; push_cast; linarith, fun _ => rfl, fun h' => absurd this h'⟩
  · next h =>
    have : (m : ℝ) * 2 ^ e = m / 2 ^ (-e).toNat := by
      rw [eq_div_iff (by positivity), mul_assoc, ← zpow_natCast, ← zpow_add₀ (by norm_num)]
      rw [show e + ((-e).toNat : Int) = 0 by omega]; simp
    rw [this]
    exact cut_rounds r neg m _ (by omega)

theorem RoundsTo.zero {r : Rnd} {neg : Bool} {c : Nat} (h : RoundsTo (fun k => (k : ℝ)) r neg 0 c) : c = 0 := by
  obtain ⟨k, h1, h2, h3, -⟩ := h
  have : k = 0 := by have : (k : ℝ) ≤ 0 := h1
                     exact_mod_cast le_antisymm this (by positivity)
  subst this
  exact h3 (by simp)

/-- FRND's result: the value rounded to an integer, then into the format, its sign kept (R341). -/
theorem FloatFmt.toIntegral_rounded (f : FloatFmt) (hf : 0 < f.fb) (r : Rnd) (neg : Bool) (m : Nat) (e : Int) :
    ∃ k : Nat, RoundsTo (fun k => (k : ℝ)) r neg |(FVal.fin neg m e).real| k ∧
      f.RoundedTo r false neg (FVal.fin neg k 0).real (f.toIntegral r (.fin neg m e)) := by
  have hz := two_zpow_pos e
  have habs : |(FVal.fin neg m e).real| = m * 2 ^ e := by
    rw [FVal.real_fin]; cases neg <;> simp [abs_of_pos hz]
  rw [habs]
  refine ⟨_, integral_rounds r neg m e, ?_⟩
  unfold FloatFmt.toIntegral
  simp only
  split
  · next h =>
    have := f.round_roundedTo hf r false neg m e
    rw [FVal.real_fin] at this ⊢
    rw [two_zpow_shift e (Int.toNat e) 0 (by omega)] at this
    push_cast
    simpa [mul_assoc] using this
  · next h => simpa using f.round_roundedTo hf r false neg _ 0

/-- The conversion of a finite value to an integer (R152). -/
theorem FVal.toInt_rounded (r : Rnd) (neg : Bool) (m : Nat) (e : Int) :
    RoundedInt r (FVal.fin neg m e).real ((FVal.fin neg m e).toInt r) := by
  have hr := integral_rounds r neg m e
  unfold RoundedInt
  rcases Nat.eq_zero_or_pos m with rfl | hm
  · have h0 : (FVal.fin neg 0 e).real = 0 := by simp [FVal.real_fin]
    rw [h0]
    refine ⟨0, ?_, ?_⟩
    · simp only [abs_zero]
      exact ⟨0, by simp, by simp, fun _ => rfl, fun h => absurd (by simp) h⟩
    · simp [FVal.toInt, roundUp]
  · obtain ⟨h1, h2, h3⟩ := FVal.fin_sign neg m e hm.ne'
    rw [h1, h2]
    refine ⟨_, hr, ?_⟩
    have h4 : ((FVal.fin neg m e).real < 0) = (neg = true) := by simpa using congrArg (· = true) h1
    simp only [h4, FVal.toInt]

theorem FloatFmt.ofInt_roundedTo (f : FloatFmt) (hf : 0 < f.fb) (r : Rnd) (sat : Bool) (v : Int) :
    f.RoundedTo r sat false v (f.ofInt r sat v) := by
  have := f.round_roundedTo hf r sat (decide (v < 0)) v.natAbs 0
  have hv : (FVal.fin (decide (v < 0)) v.natAbs 0).real = v := by
    rw [FVal.real_fin]
    by_cases h : v < 0
    · simp only [h, decide_true, if_true, zpow_zero, mul_one]
      rw [Nat.cast_natAbs, abs_of_neg h]; simp
    · simp only [h, decide_false, Bool.false_eq_true, if_false, zpow_zero, mul_one]
      rw [Nat.cast_natAbs, abs_of_nonneg (not_lt.1 h)]
  rw [hv] at this
  refine ⟨fun h => ?_, this.2⟩
  have h0 : v = 0 := by exact_mod_cast h
  subst h0
  exact f.round_zero r sat false 0

/-- An element quantised under a block scale that is not zero (R150). -/
theorem quantise_roundedTo (fmt : Fmt) (hf : 0 < (Fmt.float fmt).fb) (hb : (Fmt.float fmt).fb < 63) (r : Rnd) (neg : Bool) (m n : Nat)
    (e g : Int) (hn : n ≠ 0) :
    (Fmt.float fmt).RoundedTo r true neg ((FVal.fin neg m e).real / (FVal.fin false n g).real)
      (quantise fmt r (.fin false n g) (.fin neg m e)) := by
  have hg := two_zpow_pos g
  have hnr : (0 : ℝ) < n := by exact_mod_cast Nat.pos_of_ne_zero hn
  unfold quantise
  simp only [hn, if_false]
  split
  · next h => subst h; simp [FloatFmt.RoundedTo, FVal.real_fin]
  · next h =>
    obtain ⟨h1, h2, h3⟩ := FVal.fin_sign neg m e h
    have hd : 0 < (FVal.fin false n g).real := by rw [FVal.real_fin]; simp; positivity
    refine ⟨fun h' => absurd h' (div_ne_zero h3 hd.ne'), fun _ => ?_⟩
    have h5 : decide ((FVal.fin neg m e).real / (FVal.fin false n g).real < 0) = neg := by
      refine Eq.trans ?_ h1; congr 1; rw [div_neg_iff]; simp [hd, hd.not_gt]
    rw [h5, abs_div, h2, abs_of_pos hd]
    have : (FVal.fin false n g).real = n * 2 ^ g := by rw [FVal.real_fin]; simp
    rw [this]
    exact (quotient_rounds _ hf hb r true neg m n e g h hn).1

/-- The scale that QSCL chooses in UE4M3: the largest magnitude over the largest finite element, rounded up (R150). -/
theorem chooseScale_ue4m3 (fmt : Fmt) (neg : Bool) (m : Nat) (e : Int) (hm : m ≠ 0) (n : Nat) (g : Int) (hn : n ≠ 0)
    (hx : (Fmt.float fmt).val (Fmt.float fmt).maxCode = .fin false n g) :
    ∃ c, RoundsTo e4m3.magVal .rup false (|(FVal.fin neg m e).real| / (FVal.fin false n g).real) c ∧
      chooseScale fmt .ue4m3 (.fin neg m e) = BitVec.ofNat 8 (min c 0x7E) := by
  obtain ⟨-, h2, -⟩ := FVal.fin_sign neg m e hm
  have hr : (FVal.fin false n g).real = n * 2 ^ g := by rw [FVal.real_fin]; simp
  rw [h2, hr]
  refine ⟨_, (quotient_rounds e4m3 (by decide) (by decide) .rup false false m n e g hm hn).2, ?_⟩
  simp only [chooseScale, hm, if_false, hx]

/-- The scale that QSCL chooses in E8M0 (R150). -/
theorem chooseScale_e8m0 (fmt : Fmt) (neg : Bool) (m : Nat) (e : Int) (hm : m ≠ 0) :
    ∃ x : Int, (2 : ℝ) ^ x ≤ |(FVal.fin neg m e).real| ∧ |(FVal.fin neg m e).real| < 2 ^ (x + 1) ∧
      ((chooseScale fmt .e8m0 (.fin neg m e)).toNat : Int) = max (-127) (min 127 (x - emaxOf fmt)) + 127 := by
  obtain ⟨-, h2, -⟩ := FVal.fin_sign neg m e hm
  have hz := two_zpow_pos e
  refine ⟨e + m.log2, ?_, ?_, ?_⟩
  · rw [h2, add_comm, zpow_add₀ (by norm_num), zpow_natCast]
    gcongr
    exact_mod_cast Nat.log2_self_le hm
  · rw [h2, show e + (m.log2 : Int) + 1 = ((m.log2 + 1 : Nat) : Int) + e by push_cast; ring, zpow_add₀ (by norm_num), zpow_natCast]
    gcongr
    exact_mod_cast Nat.lt_log2_self
  · simp only [chooseScale, hm, if_false]
    rw [BitVec.toNat_ofInt]
    omega

/-- QCMP's index is nearest to the magnitude among the 128, and even where another is as near, for a table that rises (R157). -/
theorem c8Nearest_spec (t : Table (BitVec 3 × BitVec 9)) (tab : Nat) (x : Dy)
    (ht : ∀ i j, i < j → j < 128 → c8Mag t tab i < c8Mag t tab j) :
    c8Nearest t tab x < 128 ∧ ∀ j, j < 128 →
      |x.real - c8Mag t tab (c8Nearest t tab x)| ≤ |x.real - c8Mag t tab j| ∧
      (|x.real - c8Mag t tab (c8Nearest t tab x)| = |x.real - c8Mag t tab j| → j ≠ c8Nearest t tab x → c8Nearest t tab x % 2 = 0) := by
  obtain ⟨D, hD⟩ : ∃ D : Nat → ℝ, D = fun m => |x.real - c8Mag t tab m| := ⟨_, rfl⟩
  have hdist : ∀ m, ((x.add ⟨-(c8Mag t tab m : Int), 0⟩).abs).real = D m := by
    intro m; rw [hD, Dy.real_abs, Dy.real_add]; simp [Dy.real, sub_eq_add_neg]
  have hmono : ∀ i j, i < j → j < 128 → (c8Mag t tab i : ℝ) < c8Mag t tab j := fun i j h1 h2 => by exact_mod_cast ht i j h1 h2
  -- two equally near indices have no index between them
  have adj : ∀ i j, i < j → j < 128 → D i = D j → (∀ k, k < j + 1 → D i ≤ D k) → j = i + 1 := by
    intro i j hij hj he hmin
    by_contra hc
    have h1 := hmono i (i + 1) (by omega) (by omega)
    have h2 := hmono (i + 1) j (by omega) hj
    have h3 := hmin (i + 1) (by omega)
    rw [hD] at he h3
    simp only at he h3
    rcases abs_cases (x.real - c8Mag t tab i) with ⟨a, _⟩ | ⟨a, _⟩ <;>
      rcases abs_cases (x.real - c8Mag t tab j) with ⟨b, _⟩ | ⟨b, _⟩ <;>
      rcases abs_cases (x.real - c8Mag t tab (i + 1)) with ⟨c, _⟩ | ⟨c, _⟩ <;> linarith
  have key : ∀ n, n ≤ 128 → 0 < n →
      let q := (List.range n).foldl (fun best m =>
        match ((x.add ⟨-(c8Mag t tab m : Int), 0⟩).abs).cmp ((x.add ⟨-(c8Mag t tab best : Int), 0⟩).abs) with
        | .lt => m
        | .eq => if m % 2 = 0 ∧ m ≠ best then m else best
        | _ => best) 0
      q < n ∧ ∀ j, j < n → D q ≤ D j ∧ (D q = D j → j ≠ q → q % 2 = 0) := by
    intro n
    induction n with
    | zero => intro _ h; omega
    | succ n ih =>
      intro hn _
      rcases Nat.eq_zero_or_pos n with rfl | hn0
      · refine ⟨?_, fun j hj => ?_⟩
        · simp [List.range_succ]; split <;> simp
        · obtain rfl : j = 0 := by omega
          simp [List.range_succ]; split <;> simp
      · obtain ⟨h1, h2⟩ := ih (by omega) hn0
        rw [List.range_succ, List.foldl_append, List.foldl_cons, List.foldl_nil]
        generalize (List.range n).foldl _ 0 = q at h1 h2 ⊢
        simp only [Dy.cmp_real, hdist]
        by_cases hlt : D n < D q
        · rw [if_pos hlt]
          refine ⟨by simp, fun j hj => ?_⟩
          rcases Nat.lt_or_ge j n with hjn | hjn
          · have := (h2 j hjn).1
            exact ⟨by simp only; linarith, fun h => by simp only at h; linarith⟩
          · obtain rfl : j = n := by omega
            exact ⟨le_refl _, fun _ h => absurd rfl h⟩
        · rw [if_neg hlt]
          by_cases heq : D n = D q
          · rw [if_pos heq]
            have hadj := adj q n h1 (by omega) heq.symm (fun k hk => by
              rcases Nat.lt_or_ge k n with hkn | hkn
              · exact (h2 k hkn).1
              · obtain rfl : k = n := by omega
                exact heq.ge)
            simp only
            by_cases hev : n % 2 = 0
            · rw [if_pos ⟨hev, by omega⟩]
              refine ⟨by omega, fun j hj => ⟨?_, fun _ _ => hev⟩⟩
              rcases Nat.lt_or_ge j n with hjn | hjn
              · rw [heq]; exact (h2 j hjn).1
              · obtain rfl : j = n := by omega
                exact le_refl _
            · rw [if_neg (fun h => hev h.1)]
              refine ⟨by omega, fun j hj => ?_⟩
              rcases Nat.lt_or_ge j n with hjn | hjn
              · exact h2 j hjn
              · obtain rfl : j = n := by omega
                exact ⟨heq.ge, fun _ _ => by omega⟩
          · rw [if_neg heq]
            refine ⟨by simp only; omega, fun j hj => ?_⟩
            rcases Nat.lt_or_ge j n with hjn | hjn
            · exact h2 j hjn
            · obtain rfl : j = n := by omega
              exact ⟨not_lt.1 hlt, fun h => absurd h.symm heq⟩
  have := key 128 (le_refl _) (by omega)
  rw [hD] at this
  exact this

/-! ### Codes (R138) -/

theorem code_mag (f : FloatFmt) (neg : Bool) (ex fr : Nat) (hx : ex < 2 ^ f.eb) (hr : fr < 2 ^ f.fb) :
    let c := (if neg then 2 ^ (f.width - 1) else 0) + ex * 2 ^ f.fb + fr
    c % 2 ^ (f.eb + f.fb) = ex * 2 ^ f.fb + fr ∧ decide (2 ^ (f.eb + f.fb) ≤ c % 2 ^ f.width) = neg ∧
      (ex * 2 ^ f.fb + fr) / 2 ^ f.fb = ex ∧ (ex * 2 ^ f.fb + fr) % 2 ^ f.fb = fr := by
  have h1 : ex * 2 ^ f.fb + fr < 2 ^ (f.eb + f.fb) := by
    calc ex * 2 ^ f.fb + fr < ex * 2 ^ f.fb + 2 ^ f.fb := by omega
      _ = (ex + 1) * 2 ^ f.fb := by ring
      _ ≤ 2 ^ f.eb * 2 ^ f.fb := by gcongr; omega
      _ = 2 ^ (f.eb + f.fb) := by rw [pow_add]
  have h2 : 2 ^ f.width = 2 * 2 ^ (f.eb + f.fb) := by rw [FloatFmt.width, pow_succ]; ring
  have h3 : 2 ^ (f.width - 1) = 2 ^ (f.eb + f.fb) := by simp [FloatFmt.width]
  have hp : 0 < 2 ^ f.fb := by positivity
  simp only [h3, h2]
  refine ⟨?_, ?_, ?_, ?_⟩
  · cases neg
    · simpa using Nat.mod_eq_of_lt h1
    · simp only [if_true]; rw [add_assoc, Nat.add_mod_left, Nat.mod_eq_of_lt h1]
  · cases neg
    · simp only [Bool.false_eq_true, if_false, zero_add, decide_eq_false_iff_not, not_le]
      rw [Nat.mod_eq_of_lt (by omega)]; exact h1
    · simp only [if_true, decide_eq_true_eq]
      rw [Nat.mod_eq_of_lt (by omega)]; omega
  · rw [mul_comm, Nat.mul_add_div hp, Nat.div_eq_of_lt hr, add_zero]
  · rw [mul_comm, Nat.mul_add_mod, Nat.mod_eq_of_lt hr]

theorem FloatFmt.val_special (f : FloatFmt) (hm : f.maxCode = (2 ^ f.eb - 1) * 2 ^ f.fb - 1) (hi : f.inf = some ((2 ^ f.eb - 1) * 2 ^ f.fb))
    (h0 : 0 < f.eb) (neg : Bool) (ex fr : Nat) (h : ex = 2 ^ f.eb - 1) (hr : fr < 2 ^ f.fb) :
    f.val ((if neg then 2 ^ (f.width - 1) else 0) + ex * 2 ^ f.fb + fr) = if fr = 0 then .inf neg else .nan := by
  have hx : ex < 2 ^ f.eb := by have : 0 < 2 ^ f.eb := by positivity
                                omega
  obtain ⟨h1, h2, -, -⟩ := code_mag f neg ex fr hx hr
  simp only [FloatFmt.val, h1, h2]
  have hb : 1 ≤ (2 ^ f.eb - 1) * 2 ^ f.fb := by
    have h3 : 2 ^ 1 ≤ 2 ^ f.eb := Nat.pow_le_pow_right (by omega) h0
    have h4 : 0 < 2 ^ f.fb := by positivity
    exact Nat.mul_pos (by omega) h4
  rw [← h] at hm hi hb
  rw [hm, hi, if_neg (by omega)]
  by_cases h5 : fr = 0
  · simp [h5]
  · rw [if_neg (by simp; omega), if_neg h5]

theorem FloatFmt.val_finite (f : FloatFmt) (hm : f.maxCode = (2 ^ f.eb - 1) * 2 ^ f.fb - 1) (neg : Bool) (ex fr : Nat)
    (h : ex < 2 ^ f.eb - 1) (hr : fr < 2 ^ f.fb) :
    ∃ m e, f.val ((if neg then 2 ^ (f.width - 1) else 0) + ex * 2 ^ f.fb + fr) = .fin neg m e ∧
      (FVal.fin false m e).real = if ex = 0 then fr * (2 : ℝ) ^ (1 - (f.bias : Int) - f.fb)
        else (1 + fr / 2 ^ f.fb) * (2 : ℝ) ^ ((ex : Int) - f.bias) := by
  obtain ⟨h1, h2, h3, h4⟩ := code_mag f neg ex fr (by omega) hr
  have hle : ex * 2 ^ f.fb + fr ≤ f.maxCode := by
    rw [hm]
    have : (ex + 1) * 2 ^ f.fb ≤ (2 ^ f.eb - 1) * 2 ^ f.fb := Nat.mul_le_mul_right _ h
    have : (ex + 1) * 2 ^ f.fb = ex * 2 ^ f.fb + 2 ^ f.fb := by ring
    omega
  simp only [FloatFmt.val, h1, h2, h3, h4, if_pos hle]
  by_cases h0 : ex = 0
  · rw [if_pos h0, if_pos h0]
    exact ⟨_, _, rfl, by rw [FVal.real_fin]; simp⟩
  · rw [if_neg h0, if_neg h0]
    refine ⟨_, _, rfl, ?_⟩
    rw [FVal.real_fin]
    simp only [Bool.false_eq_true, if_false]
    rw [two_zpow_shift ((ex : Int) - f.bias) f.fb ((ex : Int) - f.bias - f.fb) (by ring)]
    push_cast
    field_simp

/-! ### Conversions (R151 to R154) -/

theorem FloatFmt.conv_converted (f : FloatFmt) (hf : 0 < f.fb) (r : Rnd) (sat : Bool) (v : FVal) : f.Converted r sat v (f.conv r sat v) := by
  cases v with
  | nan => rfl
  | inf neg =>
    simp only [FloatFmt.Converted, FloatFmt.Beyond, FloatFmt.conv, FloatFmt.infCode, FloatFmt.nanCode]
    cases sat
    · rcases f.inf with _ | i
      · rcases f.nan with _ | n <;> simp
      · simp
    · simp
  | fin neg m e => exact f.round_roundedTo hf r sat neg m e

/-- A code as a sign and a magnitude. -/
theorem FloatFmt.val_spec (f : FloatFmt) (a : Nat) (ha : a < 2 ^ f.width) :
    ∃ neg mag, mag < 2 ^ (f.eb + f.fb) ∧ a = f.signed neg mag ∧
      (mag ≤ f.maxCode → ∃ m e, f.val a = .fin neg m e ∧ (FVal.fin false m e).real = f.magVal mag) ∧
      (f.maxCode < mag → f.val a = if f.inf = some mag then .inf neg else .nan) := by
  have hw : 2 ^ f.width = 2 * 2 ^ (f.eb + f.fb) := by rw [FloatFmt.width, pow_succ]; ring
  have hp : 0 < 2 ^ (f.eb + f.fb) := by positivity
  refine ⟨decide (2 ^ (f.eb + f.fb) ≤ a), a % 2 ^ (f.eb + f.fb), Nat.mod_lt _ hp, ?_, fun h => ?_, fun h => ?_⟩
  · unfold FloatFmt.signed
    by_cases h : 2 ^ (f.eb + f.fb) ≤ a
    · rw [decide_eq_true h, if_pos rfl, Nat.mod_eq_sub_mod h, Nat.mod_eq_of_lt (by omega)]; omega
    · rw [decide_eq_false h, if_neg (by simp), Nat.mod_eq_of_lt (by omega)]; omega
  · simp only [FloatFmt.val, if_pos h, Nat.mod_eq_of_lt ha]
    unfold FloatFmt.magVal
    have hq : 0 < 2 ^ f.fb := by positivity
    split
    · next h0 =>
      have hs : a % 2 ^ (f.eb + f.fb) < 2 ^ f.fb := by have := Nat.div_eq_zero_iff.1 h0; omega
      exact ⟨_, _, rfl, by rw [FVal.real_fin, Nat.mod_eq_of_lt hs]; simp⟩
    · exact ⟨_, _, rfl, by rw [FVal.real_fin]; simp⟩
  · simp only [FloatFmt.val, if_neg (not_le.2 h), Nat.mod_eq_of_lt ha]

theorem RoundsTo.exact {f : FloatFmt} {r : Rnd} {neg : Bool} {c d : Nat} (hm : StrictMono f.magVal) (h : RoundsTo f.magVal r neg (f.magVal c) d) :
    d = c := by
  obtain ⟨k, h1, h2, h3, -⟩ := h
  have a := hm.le_iff_le.1 h1
  have b := hm.lt_iff_lt.1 h2
  obtain rfl : k = c := by omega
  exact h3 rfl

/-- The distance from a point of the grid to the next. -/
theorem FloatFmt.gap (f : FloatFmt) (c : Nat) :
    f.magVal c = ((c - (c / 2 ^ f.fb - 1) * 2 ^ f.fb : Nat) : ℝ) * 2 ^ (((c / 2 ^ f.fb - 1 : Nat) : Int) + (1 - f.bias - f.fb)) ∧
    f.magVal (c + 1) = f.magVal c + (2 : ℝ) ^ (((c / 2 ^ f.fb - 1 : Nat) : Int) + (1 - f.bias - f.fb)) := by
  have hp : 0 < 2 ^ f.fb := by positivity
  have hs : 2 ^ (f.fb + 1) = 2 * 2 ^ f.fb := by rw [pow_succ]; ring
  obtain ⟨q, hq⟩ : ∃ q, q = c / 2 ^ f.fb := ⟨_, rfl⟩
  have hdm := Nat.div_add_mod c (2 ^ f.fb)
  have hlt := Nat.mod_lt c hp
  rw [← hq] at hdm ⊢
  obtain ⟨k, hk⟩ : ∃ k, k = c - (q - 1) * 2 ^ f.fb := ⟨_, rfl⟩
  have hc : c = (q - 1) * 2 ^ f.fb + k ∧ k < 2 ^ (f.fb + 1) ∧ (q - 1 = 0 ∨ 2 ^ f.fb ≤ k) := by
    rcases Nat.eq_zero_or_pos q with rfl | h
    · simp at hdm hk ⊢; omega
    · obtain ⟨j, rfl⟩ : ∃ j, q = j + 1 := ⟨q - 1, by omega⟩
      have : 2 ^ f.fb * (j + 1) = j * 2 ^ f.fb + 2 ^ f.fb := by ring
      simp only [Nat.add_sub_cancel] at hk ⊢
      omega
  rw [← hk]
  have g0 := f.magVal_eq (q - 1) k hc.2.2 (by omega)
  have g1 := f.magVal_eq (q - 1) (k + 1) (by omega) (by omega)
  rw [← add_assoc, ← hc.1] at g1
  rw [← hc.1] at g0
  exact ⟨g0, by rw [g1, g0]; push_cast; ring⟩

theorem FloatFmt.magVal_strictMono (f : FloatFmt) : StrictMono f.magVal := by
  refine strictMono_nat_of_lt_succ fun c => ?_
  rw [(f.gap c).2]
  have := two_zpow_pos (((c / 2 ^ f.fb - 1 : Nat) : Int) + (1 - f.bias - f.fb))
  linarith

theorem FloatFmt.magVal_zero (f : FloatFmt) : f.magVal 0 = 0 := by simp [FloatFmt.magVal]

/-- A conversion to the same format copies every value but a NaN (R334). -/
theorem FloatFmt.conv_same (f : FloatFmt) (hf : 0 < f.fb) (r : Rnd) (a : Nat) (ha : a < 2 ^ f.width)
    (hn : f.val a ≠ .nan) : f.conv r false (f.val a) = a := by
  obtain ⟨neg, mag, -, h2, h3, h4⟩ := f.val_spec a ha
  rcases Nat.lt_or_ge f.maxCode mag with h | h
  · have := h4 h
    split at this
    · next hi => rw [this]; simp only [FloatFmt.conv, FloatFmt.infCode, hi, Bool.false_eq_true, if_false]; exact h2.symm
    · exact absurd this hn
  · obtain ⟨m, e, hv, hr⟩ := h3 h
    rw [hv]
    have hro := f.round_roundedTo hf r false neg m e
    have hreal : (FVal.fin neg m e).real = if neg then -f.magVal mag else f.magVal mag := by
      rw [← hr, FVal.real_fin, FVal.real_fin]; simp
    rcases Nat.eq_zero_or_pos mag with h0 | h0
    · rw [h0, f.magVal_zero] at hreal
      have hz : (FVal.fin neg m e).real = 0 := by rw [hreal]; simp
      rw [h2, h0]; exact hro.1 hz
    · have hpos : 0 < f.magVal mag := by rw [← f.magVal_zero]; exact f.magVal_strictMono h0
      have hne : (FVal.fin neg m e).real ≠ 0 := by rw [hreal]; cases neg <;> simp [hpos.ne']
      obtain ⟨c, hc, hcode⟩ := hro.2 hne
      have hd : decide ((FVal.fin neg m e).real < 0) = neg := by rw [hreal]; cases neg <;> simp [hpos, hpos.le]
      have hab : |(FVal.fin neg m e).real| = f.magVal mag := by rw [hreal]; cases neg <;> simp [abs_of_pos hpos]
      rw [hd, hab] at hc
      rw [hd] at hcode
      obtain rfl := hc.exact f.magVal_strictMono
      rw [if_pos h] at hcode
      exact hcode.trans h2.symm

theorem packElems_one (w : Nat) (v : Int) : packElems w [v] = (BitVec.ofInt w v).toNat := by
  simp [packElems, BitVec.toNat_ofInt]

theorem clampTo_eq (w : Nat) (sg : Bool) (v : Int) : clampTo w sg v = nearestIn w sg v := by cases sg <;> rfl

theorem floatToInt_intOf (r : Rnd) (w : Nat) (sg : Bool) (hw : w ≤ 64) (hw' : 1 ≤ w) (v : FVal) : IntOf r w sg v (floatToInt r w sg v) := by
  cases v with
  | nan => rfl
  | inf neg =>
    simp only [IntOf, floatToInt, clampTo]
    have h1 : (2 : Int) ^ w ≤ 2 ^ 64 := pow_le_pow_right₀ (by norm_num) hw
    have h2 : (2 : Int) ^ (w - 1) ≤ 2 ^ 64 := pow_le_pow_right₀ (by norm_num) (by omega)
    have h3 : (1 : Int) ≤ 2 ^ (w - 1) := one_le_pow₀ (by norm_num)
    have h4 : (1 : Int) ≤ 2 ^ w := one_le_pow₀ (by norm_num)
    have h5 : (2 : Int) ^ 64 < 2 ^ 70 := by norm_num
    cases neg <;> cases sg <;> simp only [if_true, if_false, Bool.false_eq_true] <;> omega
  | fin neg m e => exact ⟨_, FVal.toInt_rounded r neg m e, clampTo_eq w sg _⟩

theorem ofNat_toInt (w a : Nat) (hw : 1 ≤ w) (ha : a < 2 ^ w) : (BitVec.ofNat w a).toInt = elemVal w true a := by
  have hp : 2 ^ w = 2 * 2 ^ (w - 1) := by rw [← pow_succ']; congr 1; omega
  have hpi : (2 : Int) ^ w = ((2 ^ w : Nat) : Int) := by push_cast; rfl
  rw [BitVec.toInt_eq_toNat_cond, BitVec.toNat_ofNat, Nat.mod_eq_of_lt ha, elemVal, hpi]
  simp only [Bool.true_and]
  split
  · next h => rw [if_neg (by simp; omega)]
  · next h => rw [if_pos (by simp; omega)]

theorem cvtElem_spec (dty sty : Ty) (sat : Bool) (rnd : Rnd) (a : Nat) (ha : a < 2 ^ widthOf sty) :
    let r := cvtElem dty sty sat rnd a
    let n : Int := if elemSigned sty then (BitVec.ofNat (widthOf sty) a).toInt else a
    let narrows : Prop := widthOf dty < widthOf sty ∨ (widthOf dty = widthOf sty ∧ elemSigned sty ≠ elemSigned dty)
    (∀ f, floatOf sty = some f → sty = dty → r = if f.val a = .nan then f.nanCode else a) ∧
    (∀ f q, floatOf sty = some f → floatOf dty = some q → sty ≠ dty → q.Converted rnd sat (f.val a) r) ∧
    (∀ f, floatOf sty = some f → floatOf dty = none → ∃ i, IntOf rnd (widthOf dty) (elemSigned dty) (f.val a) i ∧
      r = (BitVec.ofInt (widthOf dty) i).toNat) ∧
    (∀ q, floatOf sty = none → floatOf dty = some q → q.RoundedTo rnd sat false n r) ∧
    (floatOf sty = none → floatOf dty = none →
      (sat = true ∧ narrows → r = (BitVec.ofInt (widthOf dty) (nearestIn (widthOf dty) (elemSigned dty) n)).toNat) ∧
      (¬ (sat = true ∧ narrows) → r = (BitVec.ofInt (widthOf dty) n).toNat)) := by
  intro r n narrows
  have hfl : ∀ t, floatOf t = tyFloat t := by intro t; cases t <;> rfl
  have hwid : ∀ t, widthOf t = elemWidth t := by intro t; cases t <;> rfl
  have hsg : ∀ t, elemSigned t = tySigned t := by intro t; cases t <;> rfl
  have hwr : ∀ t, 1 ≤ widthOf t ∧ widthOf t ≤ 64 := by intro t; cases t <;> decide
  have hn : n = elemVal (elemWidth sty) (tySigned sty) a := by
    show (if elemSigned sty then (BitVec.ofNat (widthOf sty) a).toInt else (a : Int)) = _
    rw [hsg]
    cases hs : tySigned sty
    · simp [elemVal]
    · rw [if_pos rfl, ofNat_toInt _ _ (hwr sty).1 ha, hwid]
  have hr : r = cvtElem dty sty sat rnd a := rfl
  have hfb : ∀ t f, tyFloat t = some f → 0 < f.fb ∧ f.width = widthOf t := by
    intro t f h; cases t <;> simp [tyFloat] at h <;> subst h <;> decide
  clear_value r n
  refine ⟨fun f hf hs => ?_, fun f q hf hq hs => ?_, fun f hf hd => ?_, fun q hs hq => ?_, fun hs hd => ⟨fun h => ?_, fun h => ?_⟩⟩
  · subst hs
    rw [hfl] at hf
    obtain ⟨h1, h2⟩ := hfb _ _ hf
    rw [hr]; simp only [cvtElem, hf, if_true]
    split
    · next h => rw [h]; rfl
    · next h => exact f.conv_same h1 rnd a (by rw [h2]; exact ha) h
  · rw [hfl] at hf hq
    rw [hr]; simp only [cvtElem, hf, hq, if_neg hs]
    exact q.conv_converted (hfb _ _ hq).1 rnd sat _
  · rw [hfl] at hf hd
    rw [hr]; simp only [cvtElem, hf, hd, packElems_one, hwid, hsg]
    exact ⟨_, floatToInt_intOf rnd _ _ (by rw [← hwid]; exact (hwr dty).2) (by rw [← hwid]; exact (hwr dty).1) _, rfl⟩
  · rw [hfl] at hs hq
    rw [hr, hn]; simp only [cvtElem, hs, hq]
    exact q.ofInt_roundedTo (hfb _ _ hq).1 rnd sat _
  · rw [hfl] at hs hd
    have h' : sat = true ∧ (widthOf dty < widthOf sty ∨ (widthOf dty = widthOf sty ∧ elemSigned sty ≠ elemSigned dty)) := h
    rw [hwid, hwid, hsg, hsg] at h'
    rw [hr, hn, hwid dty, hsg dty]; simp only [cvtElem, hs, hd, packElems_one, intToInt, h', clampTo_eq, true_and, if_true]
  · rw [hfl] at hs hd
    have h' : ¬ (sat = true ∧ (widthOf dty < widthOf sty ∨ (widthOf dty = widthOf sty ∧ elemSigned sty ≠ elemSigned dty))) := h
    rw [hwid, hwid, hsg, hsg] at h'
    rw [hr, hn, hwid dty]; simp only [cvtElem, hs, hd, packElems_one, intToInt, h', if_false]

theorem cvtpElem_spec (dst : Fmt) (sty : Ty) (sat : Bool) (rnd : Rnd) (a : Lane) :
    let r := cvtpElem dst sty sat rnd a
    (dst ≠ .int8 → dst ≠ .int4 → (Fmt.float dst).Converted rnd sat (fp32.val a.toNat) r) ∧
    (dst = .int8 ∨ dst = .int4 →
      (sty = .f32 → ∃ i, IntOf rnd (fmtBits dst) true (fp32.val a.toNat) i ∧ r = (BitVec.ofInt (fmtBits dst) i).toNat) ∧
      (sty = .i32 → r = (BitVec.ofInt (fmtBits dst) (if sat then nearestIn (fmtBits dst) true a.toInt else a.toInt)).toNat)) := by
  intro r
  refine ⟨fun h1 h2 => ?_, fun h => ⟨fun hs => ?_, fun hs => ?_⟩⟩
  · have hr : r = (Fmt.float dst).conv rnd sat (fp32.val a.toNat) := by cases dst <;> first | rfl | exact absurd rfl h1 | exact absurd rfl h2
    rw [hr]
    exact FloatFmt.conv_converted _ (by cases dst <;> decide) rnd sat _
  · subst hs
    have hr : r = packElems (fmtBits dst) [floatToInt rnd (fmtBits dst) true (fp32.val a.toNat)] := by rcases h with rfl | rfl <;> rfl
    rw [hr, packElems_one]
    exact ⟨_, floatToInt_intOf rnd _ _ (by cases dst <;> decide) (by cases dst <;> decide) _, rfl⟩
  · subst hs
    have hr : r = packElems (fmtBits dst) [intToInt sat 32 true (fmtBits dst) true a.toInt] := by rcases h with rfl | rfl <;> rfl
    have hw : fmtBits dst < 32 := by cases dst <;> decide
    rw [hr, packElems_one, intToInt]
    cases sat
    · simp
    · simp [hw, clampTo_eq]

theorem quantise_spec (dst : Fmt) (rnd : Rnd) (x : FVal) :
    let f := Fmt.float dst
    (∀ s, s = .nan ∨ (∃ g, s = .fin false 0 g) → quantise dst rnd s x = 0) ∧
    (∀ n g, n ≠ 0 →
      (x = .nan → quantise dst rnd (.fin false n g) x = f.nan.getD 0) ∧
      (∀ neg, x = .inf neg → quantise dst rnd (.fin false n g) x = f.signed neg f.maxCode) ∧
      (∀ neg m e, x = .fin neg m e → f.RoundedTo rnd true neg (x.real / (FVal.fin false n g).real) (quantise dst rnd (.fin false n g) x))) := by
  intro f
  refine ⟨fun s hs => ?_, fun n g hn => ⟨fun hx => ?_, fun neg hx => ?_, fun neg m e hx => ?_⟩⟩
  · rcases hs with rfl | ⟨g, rfl⟩ <;> simp [quantise]
  · subst hx; simp [quantise, hn, FloatFmt.conv, FloatFmt.nanCode, f]
  · subst hx; simp [quantise, hn, FloatFmt.conv, FloatFmt.infCode, f]
  · subst hx
    exact quantise_roundedTo dst (by cases dst <;> decide) (by cases dst <;> decide) rnd neg m n e g hn

theorem scaleVal_spec (b : Byte) :
    scaleVal .e8m0 b = (if b = 0xFF then .nan else .fin false 1 ((b.toNat : Int) - 127)) ∧
    (b.getLsbD 7 = true ∨ b = 0x7F → scaleVal .ue4m3 b = .nan) ∧
    (b.getLsbD 7 = false → b ≠ 0x7F → ∃ m e, scaleVal .ue4m3 b = .fin false m e ∧ (FVal.fin false m e).real = e4m3.magVal b.toNat) := by
  refine ⟨rfl, fun h => ?_, fun h1 h2 => ?_⟩
  · unfold scaleVal; simp only; rw [if_pos]; rcases h with h | rfl
    · rw [h]; rfl
    · rfl
  · have h3 : scaleVal .ue4m3 b = e4m3.val b.toNat := by
      unfold scaleVal; simp only; rw [if_neg]; rw [h1, Bool.false_or]; simpa using h2
    have hlt : b.toNat < 127 := by
      have h5 := (show ∀ b : Byte, b.getLsbD 7 = false → b.toNat < 128 by decide) b h1
      have h6 : b.toNat ≠ 127 := fun h => h2 (BitVec.eq_of_toNat_eq (by rw [h]; rfl))
      omega
    rw [h3]
    obtain ⟨neg, mag, g1, g2, g3, -⟩ := e4m3.val_spec b.toNat (lt_of_lt_of_le b.isLt (by decide))
    have hs : e4m3.signed neg mag = mag + if neg then 128 else 0 := rfl
    rw [hs] at g2
    cases neg
    · simp only [Bool.false_eq_true, if_false, add_zero] at g2
      obtain ⟨m, e, k1, k2⟩ := g3 (by rw [show e4m3.maxCode = 126 by rfl]; omega)
      exact ⟨m, e, k1, by rw [k2, g2]⟩
    · simp only [if_true] at g2; omega

theorem c8Quantise_spec (t : Table (BitVec 3 × BitVec 9)) (tab : Nat) (x : FVal) (ht : ∀ i j, i < j → j < 128 → c8Mag t tab i < c8Mag t tab j) :
    let code (neg : Bool) (k : Nat) : Nat := if k = 0 then 0 else (if neg then 128 else 0) + k
    let mag (k : Nat) : ℝ := ((segment t tab (k / 8)).2.toNat + k % 8 * 2 ^ (segment t tab (k / 8)).1.toNat : Nat)
    (x = .nan → c8Quantise t tab x = 0) ∧
    (∀ neg, x = .inf neg → c8Quantise t tab x = code neg 127) ∧
    ∀ neg m e, x = .fin neg m e → ∃ k, k < 128 ∧ c8Quantise t tab x = code neg k ∧ ∀ j, j < 128 →
      |(|x.real| - mag k)| ≤ |(|x.real| - mag j)| ∧ (|(|x.real| - mag k)| = |(|x.real| - mag j)| → j ≠ k → k % 2 = 0) := by
  intro code mag
  refine ⟨fun h => by subst h; rfl, fun neg h => by subst h; cases neg <;> rfl, fun neg m e h => ?_⟩
  subst h
  have hz := two_zpow_pos e
  have hx : |(FVal.fin neg m e).real| = (⟨m, e⟩ : Dy).real := by
    rw [FVal.real_fin]; cases neg <;> simp [Dy.real, abs_of_pos hz]
  obtain ⟨h1, h2⟩ := c8Nearest_spec t tab ⟨m, e⟩ ht
  refine ⟨c8Nearest t tab ⟨m, e⟩, h1, ?_, fun j hj => ?_⟩
  · simp only [c8Quantise, code]; split <;> [rfl; rw [add_comm]]
  · rw [hx]; exact h2 j hj

theorem dqElem_spec (ct : Table (BitVec 3 × BitVec 9)) (tab : Nat) (src : Fmt) (dty : Ty) (sat : Bool) (rnd : Rnd) (sc : FVal) (a : Nat)
    (ha : a < 2 ^ fmtBits src) :
    let r := dqElem ct tab src dty sat rnd sc a
    let seg := segment ct tab (a % 128 / 8)
    let mag : Nat := seg.2.toNat + a % 8 * 2 ^ seg.1.toNat
    let whole : Int := if src = .c8 then (if 128 ≤ a then -(mag : Int) else mag) else (BitVec.ofNat (fmtBits src) a).toInt
    let x := (Fmt.float src).val a
    (src ∈ [.int8, .int4, .c8] →
      (dty = .f32 → fp32.RoundedTo rnd false false whole r) ∧ (dty = .i32 → r = (BitVec.ofInt 32 whole).toNat)) ∧
    (src ∉ [.int8, .int4, .c8] →
      (sc = .nan ∨ x = .nan → r = 0x7FC00000) ∧
      (∀ n g neg, sc = .fin false n g → x = .inf neg → r = if n = 0 then 0x7FC00000 else if neg then 0xFF800000 else 0x7F800000) ∧
      (∀ n g neg m e, sc = .fin false n g → x = .fin neg m e → fp32.RoundedTo rnd sat neg (sc.real * x.real) r)) := by
  intro r seg mag whole x
  refine ⟨fun h => ?_, fun h => ?_⟩
  · have hw : intElem ct tab src a = whole := by
      simp only [List.mem_cons, List.not_mem_nil, or_false] at h
      rcases h with rfl | rfl | rfl
      · exact (ofNat_toInt _ _ (by decide) ha).symm
      · exact (ofNat_toInt _ _ (by decide) ha).symm
      · have ha' : a < 256 := ha
        have h1 : (a / 128 % 2 = 1) = (128 ≤ a) := by apply propext; omega
        have h2 : a % 128 % 8 = a % 8 := by omega
        show c8Expand ct tab a = _
        simp only [c8Expand, c8Mag, h1, h2]
        rfl
    have hr : r = if dty = .f32 then fp32.conv rnd false (intVal whole) else packElems 32 [whole] := by
      rw [← hw]
      simp only [List.mem_cons, List.not_mem_nil, or_false] at h
      rcases h with rfl | rfl | rfl <;> rfl
    refine ⟨fun hd => ?_, fun hd => ?_⟩
    · rw [hr, if_pos hd]; exact fp32.ofInt_roundedTo (by decide) rnd false whole
    · rw [hr, if_neg (by rw [hd]; decide), packElems_one]
  · have hr : r = match sc.mul x with
        | .fin neg m e => fp32.conv rnd sat (.fin neg m e)
        | v => fp32.conv rnd false v := by
      simp only [List.mem_cons, List.not_mem_nil, or_false, not_or] at h
      cases src <;> first | rfl | exact absurd rfl h.1 | exact absurd rfl h.2.1 | exact absurd rfl h.2.2
    refine ⟨fun hn => ?_, fun n g neg hs hx => ?_, fun n g neg m e hs hx => ?_⟩
    · have hm : sc.mul x = .nan := by
        rcases hn with hn | hn <;> rw [hn]
        · rfl
        · cases sc <;> rfl
      rw [hr, hm]; rfl
    · rw [hr, hs, hx]
      by_cases h0 : n = 0
      · simp [FVal.mul, h0]; rfl
      · simp only [FVal.mul, h0, if_false]; cases neg <;> rfl
    · have := fp32.round_roundedTo (by decide) rnd sat (false != neg) (n * m) (g + e)
      rw [FVal.real_mul] at this
      rw [hr, hs, hx]
      cases neg <;> exact this

theorem chooseScale_spec (fmt : Fmt) (sf : ScaleFmt) (amax : FVal) (hf : fmt.narrowFloat = true) :
    let f := Fmt.float fmt
    (amax = .nan ∨ (∃ neg, amax = .inf neg) → chooseScale fmt sf amax = if sf = .e8m0 then 0xFF else 0x7F) ∧
    (∀ neg e, amax = .fin neg 0 e → chooseScale fmt sf amax = 0) ∧
    (∀ neg m e, m ≠ 0 → amax = .fin neg m e →
      (sf = .e8m0 → ∃ x : Int, (2 : ℝ) ^ x ≤ |amax.real| ∧ |amax.real| < 2 ^ (x + 1) ∧
        ((chooseScale fmt sf amax).toNat : Int) = max (-127) (min 127 (x - emaxOf fmt)) + 127) ∧
      (sf = .ue4m3 → ∃ c, RoundsTo e4m3.magVal .rup false (|amax.real| / f.magVal f.maxCode) c ∧
        chooseScale fmt sf amax = BitVec.ofNat 8 (min c 0x7E))) := by
  intro f
  refine ⟨fun h => ?_, fun neg e h => ?_, fun neg m e hm h => ⟨fun hs => ?_, fun hs => ?_⟩⟩
  · rcases h with rfl | ⟨neg, rfl⟩ <;> rfl
  · subst h; rfl
  · subst h hs; exact chooseScale_e8m0 fmt neg m e hm
  · subst h hs
    obtain ⟨n, g, h1, h2, h3⟩ : ∃ n g, (Fmt.float fmt).val (Fmt.float fmt).maxCode = .fin false n g ∧ n ≠ 0 ∧
        (FVal.fin false n g).real = f.magVal f.maxCode := by
      have hlt : (Fmt.float fmt).maxCode < 2 ^ ((Fmt.float fmt).eb + (Fmt.float fmt).fb) := by cases fmt <;> decide
      have hw : 2 ^ (Fmt.float fmt).width = 2 * 2 ^ ((Fmt.float fmt).eb + (Fmt.float fmt).fb) := by rw [FloatFmt.width, pow_succ]; ring
      obtain ⟨neg', mag, g1, g2, g3, -⟩ := (Fmt.float fmt).val_spec (Fmt.float fmt).maxCode (by omega)
      have hs : (Fmt.float fmt).signed neg' mag = mag + if neg' then 2 ^ ((Fmt.float fmt).eb + (Fmt.float fmt).fb) else 0 := rfl
      rw [hs] at g2
      cases neg'
      · simp only [Bool.false_eq_true, if_false, add_zero] at g2
        obtain ⟨n, g, k1, k2⟩ := g3 (by omega)
        refine ⟨n, g, k1, ?_, by rw [k2, ← g2]⟩
        rintro rfl
        have h0 : (FVal.fin false 0 g).real = 0 := by rw [FVal.real_fin]; simp
        rw [h0, ← f.magVal_zero] at k2
        have := f.magVal_strictMono.injective k2
        have hp : 0 < (Fmt.float fmt).maxCode := by cases fmt <;> decide
        omega
      · simp only [if_true] at g2; omega
    rw [← h3]
    exact chooseScale_ue4m3 fmt neg m e hm n g h2 h1

theorem largest_spec (l : List FVal) :
    (.nan ∈ l → largest l = .nan) ∧
    (.nan ∉ l → (∃ neg, .inf neg ∈ l) → ∃ neg, largest l = .inf neg) ∧
    (.nan ∉ l → (∀ neg, .inf neg ∉ l) → ∃ neg m e, largest l = .fin neg m e ∧ (largest l ∈ l ∨ m = 0) ∧ ∀ v ∈ l, |v.real| ≤ |(largest l).real|) := by
  obtain ⟨step, hstep⟩ : ∃ step : FVal → FVal → FVal, step = fun acc v =>
      match acc, v with
      | .inf _, _ => acc
      | _, .inf _ => .inf false
      | _, _ => if acc.dy.abs.cmp v.dy.abs == .lt then v else acc := ⟨_, rfl⟩
  have hdef : .nan ∉ l → largest l = l.foldl step (.fin false 0 0) := by
    intro h
    unfold largest
    exact (if_neg (by simpa using h)).trans (by subst hstep; rfl)
  have hinf : ∀ (l : List FVal) (neg : Bool), l.foldl step (.inf neg) = .inf neg := by
    intro l
    induction l with
    | nil => intro neg; rfl
    | cons v l ih => intro neg; rw [List.foldl_cons, show step (.inf neg) v = .inf neg by rw [hstep]]; exact ih neg
  have hfin : ∀ x m e y n g, step (.fin x m e) (.fin y n g) = if |(FVal.fin x m e).real| < |(FVal.fin y n g).real| then .fin y n g else .fin x m e := by
    intro x m e y n g
    rw [hstep]
    simp only [Dy.cmp_real, Dy.real_abs]
    have e1 : ∀ v : FVal, v.dy.real = v.real := fun _ => rfl
    simp only [e1]
    split_ifs <;> first | rfl | (rename_i h1 h2; simp at h2)
  refine ⟨fun h => by unfold largest; rw [if_pos (by simpa using h)], fun h hi => ?_, fun h hi => ?_⟩
  · rw [hdef h]
    have key : ∀ (l : List FVal) x m e, .nan ∉ l → (∃ neg, .inf neg ∈ l) → ∃ neg, l.foldl step (.fin x m e) = .inf neg := by
      intro l
      induction l with
      | nil => rintro x m e - ⟨neg, hn⟩; exact absurd hn (by simp)
      | cons v l ih =>
        rintro x m e hn ⟨neg, hm⟩
        rw [List.foldl_cons]
        cases v with
        | nan => exact absurd (List.mem_cons_self) hn
        | inf z => exact ⟨false, by rw [show step (.fin x m e) (.inf z) = .inf false by rw [hstep]]; exact hinf l false⟩
        | fin y n g =>
          have hm' : .inf neg ∈ l := by simpa using hm
          have hn' : .nan ∉ l := fun h => hn (List.mem_cons_of_mem _ h)
          rw [hfin]
          split
          · exact ih y n g hn' ⟨neg, hm'⟩
          · exact ih x m e hn' ⟨neg, hm'⟩
    exact key l false 0 0 h hi
  · rw [hdef h]
    have key : ∀ (l : List FVal) x m e, .nan ∉ l → (∀ neg, .inf neg ∉ l) → ∃ y n g, l.foldl step (.fin x m e) = .fin y n g ∧
        (.fin y n g ∈ l ∨ FVal.fin y n g = .fin x m e) ∧ |(FVal.fin x m e).real| ≤ |(FVal.fin y n g).real| ∧ ∀ v ∈ l, |v.real| ≤ |(FVal.fin y n g).real| := by
      intro l
      induction l with
      | nil => intro x m e _ _; exact ⟨x, m, e, rfl, .inr rfl, le_refl _, by simp⟩
      | cons v l ih =>
        intro x m e hn hm
        have hn' : .nan ∉ l := fun h => hn (List.mem_cons_of_mem _ h)
        have hm' : ∀ neg, .inf neg ∉ l := fun neg h => hm neg (List.mem_cons_of_mem _ h)
        rw [List.foldl_cons]
        cases v with
        | nan => exact absurd (List.mem_cons_self) hn
        | inf z => exact absurd (List.mem_cons_self) (hm z)
        | fin y n g =>
          rw [hfin]
          split
          · next hlt =>
            obtain ⟨y', n', g', k1, k2, k3, k4⟩ := ih y n g hn' hm'
            refine ⟨y', n', g', k1, ?_, hlt.le.trans k3, ?_⟩
            · rcases k2 with k2 | k2
              · exact .inl (List.mem_cons_of_mem _ k2)
              · exact .inl (by rw [k2]; exact List.mem_cons_self)
            · intro v hv
              rcases List.mem_cons.1 hv with rfl | hv
              · exact k3
              · exact k4 v hv
          · next hlt =>
            obtain ⟨y', n', g', k1, k2, k3, k4⟩ := ih x m e hn' hm'
            refine ⟨y', n', g', k1, ?_, k3, ?_⟩
            · rcases k2 with k2 | k2
              · exact .inl (List.mem_cons_of_mem _ k2)
              · exact .inr k2
            · intro v hv
              rcases List.mem_cons.1 hv with rfl | hv
              · exact (not_lt.1 hlt).trans k3
              · exact k4 v hv
    obtain ⟨y, n, g, k1, k2, -, k4⟩ := key l false 0 0 h hi
    rw [k1]
    refine ⟨y, n, g, rfl, ?_, k4⟩
    rcases k2 with k2 | k2
    · exact .inl k2
    · right; cases k2; rfl

end Sys2Proof.Machine
end

