-- ==== Sys2Proof/Laws/Approx.lean ====
section
/-! SUPPORT. The six functions that R145 bounds: every result keeps its bound, whatever the free candidate is. -/

namespace Sys2Proof.Machine

/-! ## Candidates and units -/

theorem chooseApprox_cases (cand : Lane) (ok : Dy → Bool) (ref : Nat) :
    (chooseApprox cand ok ref = cand.toNat ∧ ∃ v, candidate cand = some v ∧ ok v = true) ∨ chooseApprox cand ok ref = ref := by
  unfold chooseApprox
  split
  · next v h =>
    by_cases hv : ok v = true
    · exact .inl ⟨by rw [if_pos hv], v, h, hv⟩
    · exact .inr (by rw [if_neg hv])
  · exact .inr rfl

theorem Near.mono {code : Nat} {t u w : ℝ} (h : Near code t u) (hw : u ≤ w) : Near code t w := by
  unfold Near at h ⊢
  split at h
  · exact h
  · exact h.trans hw
  · exact h.trans hw

theorem Near.shift {code : Nat} {t t' u d w : ℝ} (h : Near code t u) (hd : |t - t'| ≤ d) (hw : u + d ≤ w) : Near code t' w := by
  unfold Near at h ⊢
  split at h
  · exact h
  · exact (abs_sub_le _ t t').trans (by linarith)
  · exact (abs_sub_le _ t t').trans (by linarith)

theorem near_candidate {cand : Lane} {v : Dy} (h : candidate cand = some v) {t u : ℝ} (hv : |v.real - t| ≤ u) :
    Near cand.toNat t u := by
  unfold candidate at h
  unfold Near
  cases hc : fp32.val cand.toNat with
  | nan => rw [hc] at h; simp at h
  | inf neg =>
    rw [hc] at h
    obtain rfl := Option.some.inj h
    have : (⟨if neg then -1 else 1, 128⟩ : Dy).real = (if neg then -1 else 1) * (2 : ℝ) ^ 128 := by
      cases neg <;> simp [Dy.real]
    rw [this] at hv
    exact hv
  | fin neg m e =>
    rw [hc] at h
    obtain rfl := Option.some.inj h
    exact hv

theorem log_eq_of_mem {t : ℝ} {k : Int} (h1 : (2 : ℝ) ^ k ≤ t) (h2 : t < 2 ^ (k + 1)) : Int.log 2 t = k := by
  have hp : 0 < t := lt_of_lt_of_le (two_zpow_pos k) h1
  have a : k ≤ Int.log 2 t := (Int.zpow_le_iff_le_log (b := 2) (by norm_num) hp).1 (by exact_mod_cast h1)
  have b : Int.log 2 t < k + 1 := (Int.lt_zpow_iff_log_lt (b := 2) (by norm_num) hp).1 (by exact_mod_cast h2)
  omega

theorem log_mem {t : ℝ} (hp : 0 < t) : (2 : ℝ) ^ Int.log 2 t ≤ t ∧ t < 2 ^ (Int.log 2 t + 1) :=
  ⟨by exact_mod_cast Int.zpow_log_le_self (b := 2) (by norm_num) hp,
   by exact_mod_cast Int.lt_zpow_succ_log_self (b := 2) (by norm_num) t⟩

theorem ulpAt_real {t : ℝ} {k : Int} (h1 : (2 : ℝ) ^ k ≤ |t|) (h2 : |t| < 2 ^ (k + 1)) : (ulpAt k).real = ulp32 t := by
  simp [ulpAt, Dy.real, ulp32, log_eq_of_mem h1 h2]

theorem ulp32_pos (t : ℝ) : 0 < ulp32 t := two_zpow_pos _

/-! ## The distance of a rounded value -/

/-- The step of FP32's grid above a number is at most one unit in its last place. -/
theorem gap_le_ulp {x : ℝ} (hx : 0 < x) {k : Nat} (h : fp32.magVal k ≤ x) : fp32.magVal (k + 1) - fp32.magVal k ≤ ulp32 x := by
  obtain ⟨h1, h2⟩ := fp32.gap k
  rw [h2, add_sub_cancel_left]
  unfold ulp32
  rw [abs_of_pos hx]
  refine zpow_le_zpow_right₀ (by norm_num) ?_
  have hb : (fp32.bias : Int) = 127 ∧ fp32.fb = 23 := by decide
  rw [hb.1, hb.2]
  rw [hb.1, hb.2] at h1
  rcases Nat.eq_zero_or_pos (k / 2 ^ 23 - 1) with h0 | h0
  · rw [h0]; simp only [CharP.cast_eq_zero]; omega
  · have hk : 2 ^ 23 ≤ k - (k / 2 ^ 23 - 1) * 2 ^ 23 := by have := Nat.div_mul_le_self k (2 ^ 23); omega
    have hkr : (2 : ℝ) ^ 23 ≤ ((k - (k / 2 ^ 23 - 1) * 2 ^ 23 : Nat) : ℝ) := by exact_mod_cast hk
    have hz := two_zpow_pos (((k / 2 ^ 23 - 1 : Nat) : Int) + (1 - 127 - (23 : Nat)))
    have h3 : (2 : ℝ) ^ (((k / 2 ^ 23 - 1 : Nat) : Int) + (1 - 127 - (23 : Nat)) + 23) ≤ x := by
      refine le_trans ?_ h
      rw [h1, zpow_add₀ (by norm_num) _ 23, mul_comm]
      exact mul_le_mul_of_nonneg_right (by exact_mod_cast hkr) hz.le
    have : ((k / 2 ^ 23 - 1 : Nat) : Int) + (1 - 127 - (23 : Nat)) + 23 ≤ Int.log 2 x :=
      (Int.zpow_le_iff_le_log (b := 2) (by norm_num) hx).1 (by simpa using h3)
    omega

theorem rounded_near_abs {x : ℝ} {neg : Bool} {c : Nat} (hx : 0 < x) (h : RoundsTo fp32.magVal .rne neg x c) :
    |fp32.magVal c - x| ≤ ulp32 x ∧ (x < 2 ^ 128 → c ≤ fp32.maxCode + 1) := by
  obtain ⟨k, h1, h2, h3, h4⟩ := h
  have hgap := gap_le_ulp hx h1
  have hc : c = k ∨ c = k + 1 := by
    by_cases hk : x = fp32.magVal k
    · exact .inl (h3 hk)
    · obtain ⟨a, b, d⟩ := h4 hk
      rcases lt_trichotomy (2 * x) (fp32.magVal k + fp32.magVal (k + 1)) with h | h | h
      · exact .inl (a h)
      · exact (d h).2
      · exact .inr (b h)
  refine ⟨?_, fun hlt => ?_⟩
  · rcases hc with rfl | rfl <;> rw [abs_le] <;> constructor <;> linarith
  · have h5 : fp32.magVal (fp32.maxCode + 1) = 2 ^ 128 := by
      have := fp32.magVal_eq 253 (2 ^ 24) (.inr (by decide)) (by decide)
      rw [show 253 * 2 ^ fp32.fb + 2 ^ 24 = fp32.maxCode + 1 by decide] at this
      rw [this, show (fp32.bias : Int) = 127 by decide, show fp32.fb = 23 by decide, show ((253 : Nat) : Int) + (1 - 127 - (23 : Nat)) = ((104 : Nat) : Int) by norm_num, zpow_natCast]
      norm_num
    have h6 : k < fp32.maxCode + 1 := by
      by_contra hc
      have := fp32.magVal_strictMono.monotone (not_lt.1 hc)
      linarith
    omega

theorem near_signed {neg : Bool} {c : Nat} {x u : ℝ} (hc : c ≤ fp32.maxCode + 1) (h : |fp32.magVal c - x| ≤ u) :
    Near (fp32.signed neg c) (if neg then -x else x) u := by
  have hs : fp32.signed neg c = (if neg then 2 ^ (fp32.width - 1) else 0) + c / 2 ^ fp32.fb * 2 ^ fp32.fb + c % 2 ^ fp32.fb := by
    have := Nat.div_add_mod c (2 ^ fp32.fb)
    unfold FloatFmt.signed
    rw [show fp32.width - 1 = fp32.eb + fp32.fb by decide]
    rw [mul_comm] at this
    omega
  have hmx : fp32.maxCode + 1 = 255 * 2 ^ fp32.fb := by decide
  have hp : 0 < 2 ^ fp32.fb := by positivity
  rcases Nat.lt_or_ge c (fp32.maxCode + 1) with hlt | hge
  · have hex : c / 2 ^ fp32.fb < 2 ^ fp32.eb - 1 := by
      rw [Nat.div_lt_iff_lt_mul hp]; rw [hmx] at hlt; exact hlt
    obtain ⟨m, e, h1, h2⟩ := fp32.val_finite (by decide) neg (c / 2 ^ fp32.fb) (c % 2 ^ fp32.fb) hex (Nat.mod_lt _ hp)
    rw [← hs] at h1
    have h3 : (FVal.fin false m e).real = fp32.magVal c := by
      rw [h2]; unfold FloatFmt.magVal
      split
      · next h0 => rw [Nat.mod_eq_of_lt (by have := Nat.div_eq_zero_iff.1 h0; omega)]
      · rw [two_zpow_shift (((c / 2 ^ fp32.fb : Nat) : Int) - fp32.bias) fp32.fb (((c / 2 ^ fp32.fb : Nat) : Int) - fp32.bias - fp32.fb) (by ring)]
        field_simp
    unfold Near
    rw [h1]
    simp only
    have h4 : (FVal.fin neg m e).real = if neg then -(FVal.fin false m e).real else (FVal.fin false m e).real := by
      rw [FVal.real_fin, FVal.real_fin]; simp
    rw [h4, h3]
    cases neg
    · simpa using h
    · simp only [if_true]; rw [show -fp32.magVal c - -x = -(fp32.magVal c - x) by ring, abs_neg]; exact h
  · obtain rfl : c = fp32.maxCode + 1 := by omega
    have h1 : fp32.val (fp32.signed neg (fp32.maxCode + 1)) = .inf neg := by cases neg <;> decide
    have h5 : fp32.magVal (fp32.maxCode + 1) = 2 ^ 128 := by
      have := fp32.magVal_eq 253 (2 ^ 24) (.inr (by decide)) (by decide)
      rw [show 253 * 2 ^ fp32.fb + 2 ^ 24 = fp32.maxCode + 1 by decide] at this
      rw [this, show (fp32.bias : Int) = 127 by decide, show fp32.fb = 23 by decide, show ((253 : Nat) : Int) + (1 - 127 - (23 : Nat)) = ((104 : Nat) : Int) by norm_num, zpow_natCast]
      norm_num
    rw [h5] at h
    unfold Near
    rw [h1]
    simp only
    cases neg
    · simpa using h
    · simp only [if_true]; rw [show -1 * (2 : ℝ) ^ 128 - -x = -(2 ^ 128 - x) by ring, abs_neg]; exact h

theorem rounded_near_mag {x : ℝ} {neg : Bool} {code : Nat} (hx : 0 < x) (hlt : x < 2 ^ 128) (h : fp32.Rounded .rne false neg x code) :
    Near code (if neg then -x else x) (ulp32 x) := by
  obtain ⟨c, hc, hcode⟩ := h
  obtain ⟨h1, h2⟩ := rounded_near_abs hx hc
  have hcode' : code = fp32.signed neg c := by
    split at hcode
    · exact hcode
    · have : c = fp32.maxCode + 1 := by have := h2 hlt; omega
      unfold FloatFmt.Beyond at hcode
      rw [show fp32.inf = some 0x7F800000 from rfl] at hcode
      rw [this]
      exact hcode
  rw [hcode']
  exact near_signed (h2 hlt) h1

/-- A number below 2^128 in magnitude, rounded to nearest, lies within one unit. -/
theorem rounded_near {t : ℝ} {z : Bool} {code : Nat} (ht : t ≠ 0) (hlt : |t| < 2 ^ 128) (h : fp32.RoundedTo .rne false z t code) :
    Near code t (ulp32 t) := by
  have := rounded_near_mag (abs_pos.2 ht) hlt (h.2 ht)
  have hu : ulp32 |t| = ulp32 t := by simp [ulp32]
  have ht' : (if decide (t < 0) = true then -|t| else |t|) = t := by
    rcases lt_or_ge t 0 with h | h
    · simp [h, abs_of_neg h]
    · simp [not_lt.2 h, abs_of_nonneg h]
  rw [hu, ht'] at this
  exact this

/-! ## FRCP and FRSQ -/

theorem mantissa_mem {m : Nat} (hm : m ≠ 0) (e : Int) :
    (2 : ℝ) ^ (e + m.log2) ≤ m * 2 ^ e ∧ (m : ℝ) * 2 ^ e < 2 ^ (e + m.log2 + 1) ∧
      ((m : ℝ) * 2 ^ e = 2 ^ (e + m.log2) ↔ m = 2 ^ m.log2) := by
  have hz := two_zpow_pos e
  have h1 : (2 : ℝ) ^ (e + m.log2) = ((2 ^ m.log2 : Nat) : ℝ) * 2 ^ e := by
    rw [add_comm, zpow_add₀ (by norm_num), zpow_natCast]; push_cast; ring
  have h2 : (2 : ℝ) ^ (e + m.log2 + 1) = ((2 ^ (m.log2 + 1) : Nat) : ℝ) * 2 ^ e := by
    rw [show e + (m.log2 : Int) + 1 = ((m.log2 + 1 : Nat) : Int) + e by push_cast; ring, zpow_add₀ (by norm_num), zpow_natCast]; push_cast; ring
  rw [h1, h2]
  refine ⟨?_, ?_, ?_⟩
  · exact mul_le_mul_of_nonneg_right (by exact_mod_cast Nat.log2_self_le hm) hz.le
  · exact mul_lt_mul_of_pos_right (by exact_mod_cast Nat.lt_log2_self) hz
  · rw [mul_left_inj' hz.ne']; norm_cast

theorem inv_mem {m : Nat} (hm : m ≠ 0) (e : Int) :
    let k : Int := -(e + m.log2) - (if m = 2 ^ m.log2 then 0 else 1)
    (2 : ℝ) ^ k ≤ 1 / (m * 2 ^ e) ∧ 1 / (m * (2 : ℝ) ^ e) < 2 ^ (k + 1) := by
  obtain ⟨h1, h2, h3⟩ := mantissa_mem hm e
  have hp : (0 : ℝ) < m * 2 ^ e := lt_of_lt_of_le (two_zpow_pos _) h1
  intro k
  have hk : k = -(e + m.log2) - (if m = 2 ^ m.log2 then 0 else 1) := rfl
  clear_value k
  by_cases hm2 : m = 2 ^ m.log2
  · rw [if_pos hm2] at hk
    rw [hk, h3.2 hm2, one_div, ← zpow_neg]
    exact ⟨by simp, zpow_lt_zpow_right₀ (by norm_num) (by omega)⟩
  · rw [if_neg hm2] at hk
    have h4 : (2 : ℝ) ^ (e + m.log2) < m * 2 ^ e := lt_of_le_of_ne h1 (fun h => hm2 (h3.1 h.symm))
    subst hk
    constructor
    · rw [show -(e + (m.log2 : Int)) - 1 = -(e + m.log2 + 1) by ring, zpow_neg, ← one_div]
      exact one_div_le_one_div_of_le hp h2.le
    · rw [show -(e + (m.log2 : Int)) - 1 + 1 = -(e + m.log2) by ring, zpow_neg, ← one_div]
      exact one_div_lt_one_div_of_lt (two_zpow_pos _) h4

theorem approxRcp_bound (cand : Lane) (x : Bool) (m : Nat) (e : Int) (hm : m ≠ 0) :
    let t := 1 / (FVal.fin x m e).real
    Near (approxRcp cand (.fin x m e)) t (ulp32 t) ∨ fp32.RoundedTo .rne false x t (approxRcp cand (.fin x m e)) := by
  intro t
  obtain ⟨-, habs, hne⟩ := FVal.fin_sign x m e hm
  have ht : |t| = 1 / (m * 2 ^ e) := by rw [show t = 1 / (FVal.fin x m e).real from rfl, abs_div, abs_one, habs]
  obtain ⟨h1, h2⟩ := inv_mem hm e
  rw [← ht] at h1 h2
  have hu := ulpAt_real h1 h2
  simp only [approxRcp, hm, if_false]
  rcases chooseApprox_cases cand _ _ with ⟨hc, v, hv, hok⟩ | hc <;> rw [hc]
  · left
    refine near_candidate hv ?_
    rw [Dy.within_real, Dy.real_mul, Dy.real_mul, Dy.real_abs] at hok
    have hone : (⟨1, 0⟩ : Dy).real = 1 := by simp [Dy.real]
    rw [hone, hu] at hok
    have hA : (FVal.fin x m e).dy.real = (FVal.fin x m e).real := rfl
    rw [hA] at hok
    have hp := abs_pos.2 hne
    have e1 : v.real * (FVal.fin x m e).real - 1 = (v.real - t) * (FVal.fin x m e).real := by
      rw [show t = 1 / (FVal.fin x m e).real from rfl]; field_simp
    rw [e1, abs_mul] at hok
    exact le_of_mul_le_mul_right hok hp
  · right
    have := fp32.div_roundedTo (by decide) (by decide) .rne false x 1 m 0 e hm
    rw [show (FVal.fin false 1 0).real = 1 by rw [FVal.real_fin]; simp] at this
    cases x <;> exact this

theorem rsqrt_mem {m : Nat} (hm : m ≠ 0) (e : Int) :
    let l := e + m.log2
    let k : Int := if m = 2 ^ m.log2 then (-l) / 2 else (-(l + 1)) / 2
    (2 : ℝ) ^ k ≤ 1 / Real.sqrt (m * 2 ^ e) ∧ 1 / Real.sqrt (m * (2 : ℝ) ^ e) < 2 ^ (k + 1) := by
  obtain ⟨h1, h2, h3⟩ := mantissa_mem hm e
  have hp : (0 : ℝ) < m * 2 ^ e := lt_of_lt_of_le (two_zpow_pos _) h1
  have hsp := Real.sqrt_pos.2 hp
  intro l k
  obtain ⟨a, ha⟩ : ∃ a, a = l := ⟨_, rfl⟩
  have hk : k = if m = 2 ^ m.log2 then (-a) / 2 else (-(a + 1)) / 2 := by rw [ha]
  rw [show e + (m.log2 : Int) = a from ha.symm] at h1 h2 h3
  clear_value k
  -- 2^k ≤ 1/√A iff A ≤ 2^(-2k), and so on
  have lower : ∀ j : Int, (m : ℝ) * 2 ^ e ≤ 2 ^ (-(j + j)) → (2 : ℝ) ^ j ≤ 1 / Real.sqrt (m * 2 ^ e) := by
    intro j hj
    rw [le_div_iff₀ hsp]
    have hz := two_zpow_pos j
    have h4 : Real.sqrt (m * 2 ^ e) ≤ 2 ^ (-j) := by
      rw [Real.sqrt_le_left (two_zpow_pos _).le, sq, ← zpow_add₀ (by norm_num)]
      rwa [show -j + -j = -(j + j) by ring]
    calc (2 : ℝ) ^ j * Real.sqrt (m * 2 ^ e) ≤ 2 ^ j * 2 ^ (-j) := by gcongr
      _ = 1 := by rw [← zpow_add₀ (by norm_num)]; simp
  have upper : ∀ j : Int, (2 : ℝ) ^ (-(j + j)) < m * 2 ^ e → 1 / Real.sqrt (m * (2 : ℝ) ^ e) < 2 ^ j := by
    intro j hj
    rw [div_lt_iff₀ hsp]
    have hz := two_zpow_pos j
    have h4 : (2 : ℝ) ^ (-j) < Real.sqrt (m * 2 ^ e) := by
      rw [Real.lt_sqrt (two_zpow_pos _).le, sq, ← zpow_add₀ (by norm_num)]
      rwa [show -j + -j = -(j + j) by ring]
    calc (1 : ℝ) = 2 ^ j * 2 ^ (-j) := by rw [← zpow_add₀ (by norm_num)]; simp
      _ < 2 ^ j * Real.sqrt (m * 2 ^ e) := by gcongr
  by_cases hm2 : m = 2 ^ m.log2
  · rw [if_pos hm2] at hk
    have h4 := h3.2 hm2
    refine ⟨lower k ?_, upper (k + 1) ?_⟩
    · rw [h4]; exact zpow_le_zpow_right₀ (by norm_num) (by omega)
    · rw [h4]; exact zpow_lt_zpow_right₀ (by norm_num) (by omega)
  · rw [if_neg hm2] at hk
    have h4 : (2 : ℝ) ^ a < m * 2 ^ e := lt_of_le_of_ne h1 (fun h => hm2 (h3.1 h.symm))
    refine ⟨lower k ?_, upper (k + 1) ?_⟩
    · exact h2.le.trans (zpow_le_zpow_right₀ (by norm_num) (by omega))
    · exact lt_of_le_of_lt (zpow_le_zpow_right₀ (by norm_num) (by omega)) h4

theorem rsqrtRef_rounded (m : Nat) (e : Int) (hm : m ≠ 0) (hlt : m < 2 ^ 64) :
    fp32.RoundedTo .rne false false (1 / Real.sqrt (m * 2 ^ e)) (rsqrtRef m e) := by
  have hmr : (0 : ℝ) < m := by exact_mod_cast Nat.pos_of_ne_zero hm
  have hz := two_zpow_pos e
  unfold rsqrtRef
  obtain ⟨m1, hm1⟩ : ∃ m1 : Nat, m1 = if e % 2 = 0 then m else 2 * m := ⟨_, rfl⟩
  obtain ⟨e1, he1⟩ : ∃ e1 : Int, e1 = if e % 2 = 0 then e else e - 1 := ⟨_, rfl⟩
  simp only [← hm1, ← he1]
  have h0 : 0 < m1 ∧ m1 < 2 ^ 65 := by rw [hm1]; split <;> omega
  have hA : (m : ℝ) * 2 ^ e = m1 * 2 ^ e1 := by
    rw [hm1, he1]
    split
    · rfl
    · rw [show e = 1 + (e - 1) by ring, zpow_add₀ (by norm_num)]; push_cast; simp; ring
  obtain ⟨j, hj⟩ : ∃ j, e1 = j + j := ⟨e1 / 2, by rw [he1]; split <;> omega⟩
  rw [show e1 / 2 = j by omega]
  obtain ⟨q, hq⟩ : ∃ q, q = isqrt (2 ^ 160 / m1) 81 := ⟨_, rfl⟩
  rw [← hq]
  have hspec := isqrt_spec (2 ^ 160 / m1) 81 (by
    refine lt_of_le_of_lt (Nat.div_le_self _ _) ?_; norm_num)
  rw [← hq] at hspec
  have hlo : q * q * m1 ≤ 2 ^ 160 := by
    have := Nat.div_mul_le_self (2 ^ 160) m1
    exact le_trans (Nat.mul_le_mul_right _ hspec.1) this
  have hhi : 2 ^ 160 < (q + 1) * (q + 1) * m1 := by
    have := (Nat.div_lt_iff_lt_mul h0.1).1 hspec.2
    exact this
  have hq40 : 2 ^ 40 ≤ q := by
    by_contra hc
    have h1 : (q + 1) * (q + 1) ≤ 2 ^ 40 * 2 ^ 40 := Nat.mul_le_mul (by omega) (by omega)
    have h2 : (q + 1) * (q + 1) * m1 ≤ 2 ^ 40 * 2 ^ 40 * 2 ^ 65 := Nat.mul_le_mul h1 h0.2.le
    have h3 : (2 : ℕ) ^ 40 * 2 ^ 40 * 2 ^ 65 = 2 ^ 145 := by norm_num
    have h4 : (2 : ℕ) ^ 145 < 2 ^ 160 := by norm_num
    omega
  have hq0 : q ≠ 0 := by have : 0 < 2 ^ 40 := by positivity
                         omega
  have hm1r : (0 : ℝ) < m1 := by exact_mod_cast h0.1
  have hzj := two_zpow_pos (-j - 80)
  have hs1 := Real.sqrt_pos.2 hm1r
  have hT : 1 / Real.sqrt (m * 2 ^ e) = 2 ^ 80 / Real.sqrt m1 * 2 ^ (-j - 80) := by
    rw [hA, hj, zpow_add₀ (by norm_num), Real.sqrt_mul (by positivity), Real.sqrt_mul_self (two_zpow_pos j).le,
      show -j - 80 = -j + -((80 : Nat) : Int) by norm_num; ring, zpow_add₀ (by norm_num), zpow_neg, zpow_neg, zpow_natCast]
    have := two_zpow_pos j
    field_simp
  have hp : 0 < 2 ^ 80 / Real.sqrt m1 * (2 : ℝ) ^ (-j - 80) := by positivity
  rw [hT]
  refine ⟨fun h => absurd h hp.ne', fun _ => ?_⟩
  rw [decide_eq_false (not_lt.2 hp.le), abs_of_pos hp]
  have hsq : Real.sqrt m1 * Real.sqrt m1 = m1 := Real.mul_self_sqrt hm1r.le
  have hlor : (q : ℝ) * q * m1 ≤ 2 ^ 160 := by exact_mod_cast hlo
  have hhir : (2 : ℝ) ^ 160 < (q + 1) * (q + 1) * m1 := by exact_mod_cast hhi
  have e160 : (2 : ℝ) ^ 160 = 2 ^ 80 * 2 ^ 80 := by norm_num
  refine fp32.round_rounded (by decide) .rne false false q (-j - 80) _ _ hq0 ?_
  have hup : 2 ^ 80 / Real.sqrt m1 < q + 1 := by
    rw [div_lt_iff₀ hs1]
    refine lt_of_mul_self_lt_mul_self₀ (by positivity) ?_
    rw [← e160, show ((q : ℝ) + 1) * Real.sqrt m1 * ((q + 1) * Real.sqrt m1) = (q + 1) * (q + 1) * (Real.sqrt m1 * Real.sqrt m1) by ring, hsq]
    exact hhir
  rcases Nat.eq_or_lt_of_le hlo with heq | hlt'
  · have : (q * q * m1 != 2 ^ 160) = false := by simp [heq]
    rw [this]
    simp only [Bool.false_eq_true, if_false]
    have h6 : 2 ^ 80 / Real.sqrt m1 = q := by
     rw [div_eq_iff hs1.ne']
     have h5 : (q : ℝ) * q * m1 = 2 ^ 160 := by exact_mod_cast heq
     refine (mul_self_inj (by positivity) (by positivity)).1 ?_
     rw [← e160, show (q : ℝ) * Real.sqrt m1 * (q * Real.sqrt m1) = q * q * (Real.sqrt m1 * Real.sqrt m1) by ring, hsq, h5]
    rw [h6]
  · have : (q * q * m1 != 2 ^ 160) = true := by simp; omega
    rw [this, if_pos rfl, mul_lt_mul_iff_left₀ hzj, mul_lt_mul_iff_left₀ hzj]
    refine ⟨?_, hup, lt_of_lt_of_le (show fp32.fb < 40 by decide) ((Nat.le_log2 hq0).2 hq40)⟩
    rw [lt_div_iff₀ hs1]
    have h5 : (q : ℝ) * q * m1 < 2 ^ 160 := by exact_mod_cast hlt'
    refine lt_of_mul_self_lt_mul_self₀ (by positivity) ?_
    rw [← e160, show (q : ℝ) * Real.sqrt m1 * (q * Real.sqrt m1) = q * q * (Real.sqrt m1 * Real.sqrt m1) by ring, hsq]
    exact h5

theorem approxRsq_bound (cand : Lane) (m : Nat) (e : Int) (hm : m ≠ 0) (hlt : m < 2 ^ 64) (hr : (2 : ℝ) ^ (-200 : Int) ≤ m * 2 ^ e) :
    let t := 1 / Real.sqrt (FVal.fin false m e).real
    Near (approxRsq cand (.fin false m e)) t (2 * ulp32 t) := by
  intro t
  have hA : (FVal.fin false m e).real = m * 2 ^ e := by rw [FVal.real_fin]; simp
  have ht : t = 1 / Real.sqrt (m * 2 ^ e) := by rw [show t = 1 / Real.sqrt (FVal.fin false m e).real from rfl, hA]
  have hpA : (0 : ℝ) < m * 2 ^ e := lt_of_lt_of_le (two_zpow_pos _) hr
  have hsp := Real.sqrt_pos.2 hpA
  have htp : 0 < t := by rw [ht]; positivity
  obtain ⟨h1, h2⟩ := rsqrt_mem hm e
  rw [← ht, ← abs_of_pos htp] at h1 h2
  have hu := ulpAt_real h1 h2
  simp only [approxRsq, hm, if_false, Bool.false_eq_true]
  rcases chooseApprox_cases cand _ _ with ⟨hc, v, hv, hok⟩ | hc <;> rw [hc]
  · refine near_candidate hv ?_
    obtain ⟨u, hu'⟩ : ∃ u : Dy, u = (ulpAt (if m = 2 ^ m.log2 then -(e + m.log2) / 2 else -(e + m.log2 + 1) / 2)).mul ⟨2, 0⟩ := ⟨_, rfl⟩
    have hur : u.real = 2 * ulp32 t := by
      rw [hu', Dy.real_mul, hu]; simp [Dy.real]; ring
    rw [← hu'] at hok
    simp only [Bool.and_eq_true, Bool.or_eq_true, decide_eq_true_eq, Dy.le_real, Dy.real_mul, Dy.real_add, Dy.real_neg, hur] at hok
    have hone : (⟨1, 0⟩ : Dy).real = 1 := by simp [Dy.real]
    have hD : (FVal.fin false m e).dy.real = m * 2 ^ e := hA
    rw [hone, hD] at hok
    obtain ⟨⟨hpos, hhi⟩, hlo⟩ := hok
    have hpos' : 0 < v.real + 2 * ulp32 t := by
      rw [← hur, ← Dy.real_add]
      rcases lt_trichotomy 0 (v.add u).real with h | h | h
      · exact h
      · have := (Dy.real_eq_zero _).1 h.symm; omega
      · have := (Dy.real_neg_iff _).1 h; omega
    have hss : Real.sqrt (m * 2 ^ e) * Real.sqrt (m * 2 ^ e) = m * 2 ^ e := Real.mul_self_sqrt hpA.le
    rw [abs_le]
    constructor
    · -- t ≤ v + 2u
      have : t ≤ v.real + 2 * ulp32 t := by
        rw [ht, div_le_iff₀ hsp]; rw [← ht]
        by_contra hc'
        have h6 := not_le.1 hc'
        have h7 : 0 < (v.real + 2 * ulp32 t) * Real.sqrt (m * 2 ^ e) := mul_pos hpos' hsp
        have h8 : ((v.real + 2 * ulp32 t) * Real.sqrt (m * 2 ^ e)) * ((v.real + 2 * ulp32 t) * Real.sqrt (m * 2 ^ e)) =
            (v.real + 2 * ulp32 t) * (v.real + 2 * ulp32 t) * (Real.sqrt (m * 2 ^ e) * Real.sqrt (m * 2 ^ e)) := by ring
        rw [hss] at h8
        nlinarith
      linarith
    · rcases hlo with hlo | hlo
      · have : v.real - 2 * ulp32 t ≤ 0 := by
          have h5 : (v.add u.neg).real = v.real - 2 * ulp32 t := by simp [hur, sub_eq_add_neg]
          rw [← h5]
          by_contra hc'
          have h6 : ¬ (v.add u.neg).real < 0 := by linarith
          rw [Dy.real_neg_iff] at h6
          have h7 : (v.add u.neg).m = 0 := by omega
          have := (Dy.real_eq_zero _).2 h7
          linarith
        linarith
      · have : v.real - 2 * ulp32 t ≤ t := by
          by_contra hc'
          have h5 : t < v.real - 2 * ulp32 t := by linarith
          have h6 : 1 < (v.real - 2 * ulp32 t) * Real.sqrt (m * 2 ^ e) := by
            rw [ht, div_lt_iff₀ hsp] at h5; rw [← ht] at h5; exact h5
          have h7 : 1 < ((v.real - 2 * ulp32 t) * Real.sqrt (m * 2 ^ e)) * ((v.real - 2 * ulp32 t) * Real.sqrt (m * 2 ^ e)) := by nlinarith
          have h8 : ((v.real - 2 * ulp32 t) * Real.sqrt (m * 2 ^ e)) * ((v.real - 2 * ulp32 t) * Real.sqrt (m * 2 ^ e)) =
              (v.real + -(2 * ulp32 t)) * (v.real + -(2 * ulp32 t)) * (m * 2 ^ e) := by
            rw [show ((v.real - 2 * ulp32 t) * Real.sqrt (m * 2 ^ e)) * ((v.real - 2 * ulp32 t) * Real.sqrt (m * 2 ^ e)) =
              (v.real + -(2 * ulp32 t)) * (v.real + -(2 * ulp32 t)) * (Real.sqrt (m * 2 ^ e) * Real.sqrt (m * 2 ^ e)) by ring, hss]
          linarith
        linarith
  · have hlt128 : |t| < 2 ^ 128 := by
      rw [abs_of_pos htp, ht, div_lt_iff₀ hsp]
      have h5 : (2 : ℝ) ^ (-100 : Int) ≤ Real.sqrt (m * 2 ^ e) := by
        rw [Real.le_sqrt (two_zpow_pos _).le hpA.le, sq, ← zpow_add₀ (by norm_num)]
        exact hr
      calc (1 : ℝ) < 2 ^ 128 * 2 ^ (-100 : Int) := by
            rw [← zpow_natCast, ← zpow_add₀ (by norm_num)]; norm_num
        _ ≤ 2 ^ 128 * Real.sqrt (m * 2 ^ e) := by gcongr
    have := rounded_near htp.ne' hlt128 (ht ▸ rsqrtRef_rounded m e hm hlt)
    have hpu := ulp32_pos t
    exact this.mono (by linarith)

/-! ## The roots of two -/

/-- One in fixed point. -/
noncomputable def fixOne : ℝ := 2 ^ 128

theorem fixOne_pos : 0 < fixOne := by unfold fixOne; positivity

/-- A fixed-point number at most three units below σ. -/
def IsRoot (σ : ℝ) (r : Nat) : Prop := 2 ^ 128 ≤ r ∧ (r : ℝ) ≤ σ * fixOne ∧ σ * fixOne ≤ r + 3

theorem isRoot_sqrt {σ : ℝ} {r : Nat} (h : IsRoot σ r) (h2 : σ ≤ 2) : IsRoot (Real.sqrt σ) (isqrt (r * 2 ^ fixBits) (fixBits + 2)) := by
  obtain ⟨h0, hle, hge⟩ := h
  have hF := fixOne_pos
  have hσ1 : 1 ≤ σ := by
    have h3 : (2 : ℝ) ^ 128 ≤ r := by exact_mod_cast h0
    have h4 : fixOne ≤ σ * fixOne := h3.trans hle
    nlinarith
  have hσ0 : 0 ≤ σ := by linarith
  have hr2 : (r : ℝ) ≤ 2 ^ 129 := by
    refine hle.trans ?_
    calc σ * fixOne ≤ 2 * fixOne := by gcongr
      _ = 2 ^ 129 := by unfold fixOne; norm_num
  have hr2' : r ≤ 2 ^ 129 := by exact_mod_cast hr2
  obtain ⟨q, hq⟩ : ∃ q, q = isqrt (r * 2 ^ fixBits) (fixBits + 2) := ⟨_, rfl⟩
  have hspec := isqrt_spec (r * 2 ^ fixBits) (fixBits + 2) (by
    calc r * 2 ^ fixBits ≤ 2 ^ 129 * 2 ^ fixBits := Nat.mul_le_mul_right _ hr2'
      _ < 4 ^ (fixBits + 2) := by unfold fixBits; norm_num)
  rw [← hq] at hspec ⊢
  have hfb : fixBits = 128 := rfl
  rw [hfb] at hspec
  have hs := Real.mul_self_sqrt hσ0
  have hs0 := Real.sqrt_nonneg σ
  have hs1 : 1 ≤ Real.sqrt σ := by rw [Real.one_le_sqrt]; exact hσ1
  have hq1 : (q : ℝ) * q ≤ r * fixOne := by unfold fixOne; exact_mod_cast hspec.1
  have hq2 : (r : ℝ) * fixOne < (q + 1) * (q + 1) := by unfold fixOne; exact_mod_cast hspec.2
  have hqD : 2 ^ 128 ≤ q := by
    by_contra hc
    have h5 : (q + 1) * (q + 1) ≤ 2 ^ 128 * 2 ^ 128 := Nat.mul_le_mul (by omega) (by omega)
    have h6 : 2 ^ 128 * 2 ^ 128 ≤ r * 2 ^ 128 := Nat.mul_le_mul_right _ h0
    omega
  have hqDr : fixOne ≤ q := by unfold fixOne; exact_mod_cast hqD
  have hsq : (Real.sqrt σ * fixOne) ^ 2 = σ * fixOne * fixOne := by
    rw [mul_pow, sq (Real.sqrt σ), hs]; ring
  have hF3 : 3 * fixOne ≤ 3 * q := by linarith
  refine ⟨hqD, ?_, ?_⟩
  · refine abs_le_of_sq_le_sq' ?_ (by positivity) |>.2
    rw [hsq, sq]
    exact hq1.trans (mul_le_mul_of_nonneg_right hle hF.le)
  · -- (√σ F)² ≤ (r + 3) F < (q + 1)² + 3 F ≤ (q + 3)²
    refine abs_le_of_sq_le_sq' ?_ (by positivity) |>.2
    rw [hsq]
    have := mul_le_mul_of_nonneg_right hge hF.le
    nlinarith

/-- 2^(2^-k). -/
noncomputable def pow2Half (k : Nat) : ℝ := (2 : ℝ) ^ ((1 / 2 : ℝ) ^ k)

theorem pow2Half_sqrt (k : Nat) : Real.sqrt (pow2Half k) = pow2Half (k + 1) := by
  unfold pow2Half
  rw [Real.sqrt_eq_rpow, ← Real.rpow_mul (by norm_num), pow_succ]

theorem pow2Half_le (k : Nat) : pow2Half k ≤ 2 := by
  unfold pow2Half
  calc (2 : ℝ) ^ ((1 / 2 : ℝ) ^ k) ≤ 2 ^ (1 : ℝ) := Real.rpow_le_rpow_of_exponent_le (by norm_num) (pow_le_one₀ (by norm_num) (by norm_num))
    _ = 2 := by simp

theorem pow2Half_pos (k : Nat) : 0 < pow2Half k := by unfold pow2Half; positivity

theorem isRoot_two : IsRoot (pow2Half 0) (2 * 2 ^ fixBits) := by
  have : pow2Half 0 = 2 := by simp [pow2Half]
  rw [this]
  unfold IsRoot fixOne fixBits
  norm_num

/-! ## FEX2 -/

/-- The part of the exponent that the first k bits of a fraction give. -/
noncomputable def headOf (f k : Nat) : ℝ := ((f / 2 ^ (128 - k) : Nat) : ℝ) * (1 / 2) ^ k

theorem headOf_succ (f k : Nat) (hk : k < 128) :
    headOf f (k + 1) = headOf f k + ((f / 2 ^ (127 - k) % 2 : Nat) : ℝ) * (1 / 2) ^ (k + 1) := by
  have h1 : f / 2 ^ (128 - k) = f / 2 ^ (127 - k) / 2 := by
    rw [Nat.div_div_eq_div_mul, ← pow_succ]; congr 2; omega
  have h2 : f / 2 ^ (127 - k) = 2 * (f / 2 ^ (127 - k) / 2) + f / 2 ^ (127 - k) % 2 := by omega
  have h3 : 128 - (k + 1) = 127 - k := by omega
  unfold headOf
  rw [h3, h1]
  generalize f / 2 ^ (127 - k) % 2 = b at h2 ⊢
  generalize f / 2 ^ (127 - k) / 2 = a at h2 ⊢
  rw [h2]; push_cast; rw [pow_succ]; ring

/-- The product of the roots so far: at most the power, and short of it by a few units for each root. -/
def PowInv (f k acc : Nat) : Prop :=
  2 ^ 128 ≤ acc ∧ (acc : ℝ) ≤ fixOne * 2 ^ headOf f k ∧ fixOne * 2 ^ headOf f k ≤ acc * (1 + 5 * k / fixOne)

theorem powInv_step (f k acc r : Nat) (hk : k < 128) (hr : IsRoot (pow2Half (k + 1)) r) (h : PowInv f k acc) :
    PowInv f (k + 1) (if f / 2 ^ (fixBits - 1 - k) % 2 = 1 then acc * r / 2 ^ fixBits else acc) := by
  obtain ⟨h0, h1, h2⟩ := h
  obtain ⟨r0, r1, r2⟩ := hr
  have hF := fixOne_pos
  have hs := headOf_succ f k hk
  have hfb : fixBits = 128 := rfl
  rw [hfb, show 128 - 1 - k = 127 - k by omega]
  have haF : fixOne ≤ acc := by unfold fixOne; exact_mod_cast h0
  have hrF : fixOne ≤ r := by unfold fixOne; exact_mod_cast r0
  have hk1 : (k : ℝ) + 1 ≤ 128 := by exact_mod_cast hk
  have hbig : (10000 : ℝ) ≤ fixOne := by unfold fixOne; norm_num
  split
  · next hb =>
    rw [hb] at hs
    have hpow : (2 : ℝ) ^ headOf f (k + 1) = 2 ^ headOf f k * pow2Half (k + 1) := by
      rw [hs, Real.rpow_add (by norm_num)]; unfold pow2Half; simp
    obtain ⟨p, hp⟩ : ∃ p, p = (2 : ℝ) ^ headOf f k := ⟨_, rfl⟩
    obtain ⟨ρ, hρ⟩ : ∃ ρ, ρ = pow2Half (k + 1) := ⟨_, rfl⟩
    have hρ0 : 0 < ρ := hρ ▸ pow2Half_pos _
    have hp0 : 0 < p := by rw [hp]; positivity
    rw [← hρ] at r1 r2
    rw [← hp] at h1 h2
    unfold PowInv
    rw [hpow, ← hp, ← hρ]
    obtain ⟨q, hq⟩ : ∃ q, q = acc * r / 2 ^ 128 := ⟨_, rfl⟩
    rw [← hq]
    have q1 : q * 2 ^ 128 ≤ acc * r := by rw [hq]; exact Nat.div_mul_le_self _ _
    have q2 : acc * r < (q + 1) * 2 ^ 128 := by
      rw [hq]; have := Nat.div_add_mod (acc * r) (2 ^ 128); have := Nat.mod_lt (acc * r) (show 0 < 2 ^ 128 by positivity)
      rw [add_mul, mul_comm _ (2 ^ 128)]; omega
    have q1r : (q : ℝ) * fixOne ≤ acc * r := by unfold fixOne; exact_mod_cast q1
    have q2r : (acc : ℝ) * r < (q + 1) * fixOne := by unfold fixOne; exact_mod_cast q2
    have q0 : acc ≤ q := by
      rw [hq, Nat.le_div_iff_mul_le (by positivity)]
      exact Nat.mul_le_mul_left _ r0
    have q0r : (acc : ℝ) ≤ q := by exact_mod_cast q0
    refine ⟨le_trans h0 q0, ?_, ?_⟩
    · have : (q : ℝ) * fixOne ≤ (fixOne * p) * (ρ * fixOne) := q1r.trans (mul_le_mul h1 r1 (by linarith) (by positivity))
      have h5 : (fixOne * p) * (ρ * fixOne) = (fixOne * (p * ρ)) * fixOne := by ring
      rw [h5] at this
      exact le_of_mul_le_mul_right this hF
    · obtain ⟨δ, hδ⟩ : ∃ δ, δ = 1 / fixOne := ⟨_, rfl⟩
      have hδ0 : 0 < δ := by rw [hδ]; positivity
      have hδF : δ * fixOne = 1 := by rw [hδ]; field_simp
      have hδs : δ ≤ 1 / 10000 := by rw [hδ]; exact one_div_le_one_div_of_le (by norm_num) hbig
      have e1 : 1 + 5 * (k : ℝ) / fixOne = 1 + 5 * k * δ := by rw [hδ]; ring
      have e2 : 1 + 5 * ((k + 1 : Nat) : ℝ) / fixOne = 1 + 5 * (k + 1) * δ := by rw [hδ]; push_cast; ring
      rw [e1] at h2
      rw [e2]
      -- ρ F ≤ r (1 + 3 δ) and acc r ≤ q (1 + δ) F
      have a1 : ρ * fixOne ≤ r * (1 + 3 * δ) := by
        have : 3 ≤ 3 * (r * δ) := by
          have : 1 ≤ r * δ := by rw [← hδF, mul_comm]; gcongr
          linarith
        linarith
      have a2 : (acc : ℝ) * r ≤ q * (1 + δ) * fixOne := by
        have : fixOne ≤ q * (δ * fixOne) := by rw [hδF]; linarith
        have h7 : q * (1 + δ) * fixOne = q * fixOne + q * (δ * fixOne) := by ring
        rw [h7]; linarith
      have a3 : (fixOne * (p * ρ)) * fixOne ≤ (acc * (1 + 5 * k * δ)) * (r * (1 + 3 * δ)) := by
        have := mul_le_mul h2 a1 (by positivity) (by positivity)
        calc (fixOne * (p * ρ)) * fixOne = (fixOne * p) * (ρ * fixOne) := by ring
          _ ≤ _ := this
      have a4 : (acc * (1 + 5 * k * δ)) * (r * (1 + 3 * δ)) ≤ q * (1 + δ) * fixOne * ((1 + 5 * k * δ) * (1 + 3 * δ)) := by
        calc (acc * (1 + 5 * k * δ)) * (r * (1 + 3 * δ)) = acc * r * ((1 + 5 * k * δ) * (1 + 3 * δ)) := by ring
          _ ≤ _ := mul_le_mul_of_nonneg_right a2 (by positivity)
      have a5 : (1 + δ) * ((1 + 5 * k * δ) * (1 + 3 * δ)) ≤ 1 + 5 * (k + 1) * δ := by
        have b2 : (0 : ℝ) ≤ k * δ := by positivity
        have b1 : (k : ℝ) * δ ≤ 128 * δ := mul_le_mul_of_nonneg_right (by linarith) hδ0.le
        obtain ⟨u, hu⟩ : ∃ u, u = (k : ℝ) * δ := ⟨_, rfl⟩
        have e5 : (1 + δ) * ((1 + 5 * k * δ) * (1 + 3 * δ)) = 1 + 5 * u + 4 * δ + (3 * δ + 20 * u + 15 * (u * δ)) * δ := by rw [hu]; ring
        have e6 : 1 + 5 * ((k : ℝ) + 1) * δ = 1 + 5 * u + 5 * δ := by rw [hu]; ring
        rw [e5, e6]
        rw [← hu] at b1 b2
        have b3 : u * δ ≤ u * 1 := mul_le_mul_of_nonneg_left (by linarith) b2
        have b4 : 3 * δ + 20 * u + 15 * (u * δ) ≤ 1 := by linarith
        have b5 := mul_le_mul_of_nonneg_right b4 hδ0.le
        linarith
      have a6 : q * (1 + δ) * fixOne * ((1 + 5 * k * δ) * (1 + 3 * δ)) ≤ (q * (1 + 5 * (k + 1) * δ)) * fixOne := by
        calc q * (1 + δ) * fixOne * ((1 + 5 * k * δ) * (1 + 3 * δ)) = q * fixOne * ((1 + δ) * ((1 + 5 * k * δ) * (1 + 3 * δ))) := by ring
          _ ≤ q * fixOne * (1 + 5 * (k + 1) * δ) := mul_le_mul_of_nonneg_left a5 (by positivity)
          _ = _ := by ring
      exact le_of_mul_le_mul_right (a3.trans (a4.trans a6)) hF
  · next hb =>
    have hb0 : f / 2 ^ (127 - k) % 2 = 0 := by omega
    rw [hb0] at hs
    have : headOf f (k + 1) = headOf f k := by rw [hs]; simp
    unfold PowInv
    rw [this]
    refine ⟨h0, h1, h2.trans (mul_le_mul_of_nonneg_left ?_ (by linarith))⟩
    have hc : ((k + 1 : Nat) : ℝ) = k + 1 := by push_cast; rfl
    rw [hc]
    have : 5 * (k : ℝ) / fixOne ≤ 5 * (k + 1) / fixOne := div_le_div_of_nonneg_right (by linarith) hF.le
    linarith

theorem pow_fold (f : Nat) : ∀ n k r acc, n + k = 128 → IsRoot (pow2Half k) r → PowInv f k acc →
    PowInv f 128 (((rootsOf2 n r).zipIdx k).foldl
      (fun acc e => if f / 2 ^ (fixBits - 1 - e.2) % 2 = 1 then acc * e.1 / 2 ^ fixBits else acc) acc) := by
  intro n
  induction n with
  | zero => intro k r acc hk _ h; obtain rfl : k = 128 := by omega
            exact h
  | succ n ih =>
    intro k r acc hk hr h
    simp only [rootsOf2, List.zipIdx_cons, List.foldl_cons]
    have hr' := isRoot_sqrt hr (pow2Half_le k)
    rw [pow2Half_sqrt] at hr'
    exact ih (k + 1) _ _ (by omega) hr' (powInv_step f k acc _ (by omega) hr' h)

theorem pow2Frac_spec (f : Nat) (hf : f < 2 ^ 128) : PowInv f 128 (pow2Frac f) := by
  refine pow_fold f 128 0 _ _ rfl isRoot_two ⟨le_refl _, ?_, ?_⟩
  all_goals
    have : headOf f 0 = 0 := by unfold headOf; rw [Nat.div_eq_of_lt (by simpa using hf)]; simp
    rw [this]
    unfold fixOne fixBits
    norm_num

/-- A dyadic number in fixed point with b fraction bits, cut down. -/
theorem fix_floor (x : Dy) (b : Nat) :
    let t : Int := if 0 ≤ x.e + b then x.m * 2 ^ Int.toNat (x.e + b) else x.m / 2 ^ Int.toNat (-(x.e + b))
    (t : ℝ) ≤ x.real * 2 ^ b ∧ x.real * 2 ^ b < t + 1 ∧ (0 ≤ x.e + b → x.real * 2 ^ b = t) := by
  intro t
  have ht : t = if 0 ≤ x.e + b then x.m * 2 ^ Int.toNat (x.e + b) else x.m / 2 ^ Int.toNat (-(x.e + b)) := rfl
  clear_value t
  have hx : x.real * 2 ^ b = x.m * (2 : ℝ) ^ (x.e + b) := by
    rw [zpow_add₀ (by norm_num), zpow_natCast, Dy.real]; ring
  rw [hx]
  split at ht
  · next h =>
    have : (x.m : ℝ) * 2 ^ (x.e + (b : Int)) = t := by
      rw [ht, two_zpow_shift (x.e + b) (Int.toNat (x.e + b)) 0 (by omega)]; push_cast; simp
    exact ⟨this.ge, by rw [this]; linarith, fun _ => this⟩
  · next h =>
    obtain ⟨d, hd⟩ : ∃ d, d = Int.toNat (-(x.e + b)) := ⟨_, rfl⟩
    rw [← hd] at ht
    have hD : (0 : ℝ) < 2 ^ d := by positivity
    have he : (x.m : ℝ) * 2 ^ (x.e + (b : Int)) = x.m / 2 ^ d := by
      rw [show x.e + (b : Int) = -(d : Int) by omega, zpow_neg, zpow_natCast]; rfl
    have hDi : (0 : Int) < 2 ^ d := by positivity
    have h1 : t * 2 ^ d ≤ x.m := by rw [ht]; exact Int.ediv_mul_le _ hDi.ne'
    have h2 : x.m < (t + 1) * 2 ^ d := by rw [ht]; exact Int.lt_ediv_add_one_mul_self _ hDi
    have h1r : (t : ℝ) * 2 ^ d ≤ x.m := by exact_mod_cast h1
    have h2r : (x.m : ℝ) < (t + 1) * 2 ^ d := by exact_mod_cast h2
    rw [he]
    exact ⟨by rw [le_div_iff₀ hD]; exact h1r, by rw [div_lt_iff₀ hD]; exact h2r, fun h' => absurd h' h⟩

theorem two_rpow_le {u : ℝ} (h0 : 0 ≤ u) (h1 : u ≤ 1) : (2 : ℝ) ^ u ≤ 1 + u := by
  have := rpow_one_add_le_one_add_mul_self (s := 1) (by norm_num) h0 h1
  rw [show (1 : ℝ) + 1 = 2 by norm_num] at this
  linarith

theorem pow2Frac_zero : pow2Frac 0 = 2 ^ 128 := by
  unfold pow2Frac
  have : ∀ (l : List (Nat × Nat)) (a : Nat), l.foldl (fun acc e => if 0 / 2 ^ (fixBits - 1 - e.2) % 2 = 1 then acc * e.1 / 2 ^ fixBits else acc) a = a := by
    intro l
    induction l with
    | nil => intro a; rfl
    | cons e l ih => intro a; rw [List.foldl_cons, if_neg (by simp)]; exact ih a
  exact this _ _

/-- The enclosure of a power: n the exponent, f the fraction in fixed point, d what is cut off. -/
theorem pow2_enclosure (n : Int) (f y : Nat) (d t : ℝ) (hfl : f < 2 ^ 128) (hd0 : 0 ≤ d) (hd1 : d < 1) (hy : PowInv f 128 y)
    (ht0 : t = (2 : ℝ) ^ (n + f / fixOne + d / fixOne : ℝ)) :
    (2 : ℝ) ^ n ≤ t ∧ t < 2 ^ (n + 1) ∧ |(2 : ℝ) ^ n * (y / fixOne) - t| ≤ 2 ^ n * (2000 / fixOne) ∧ (y : ℝ) + 1 ≤ 2 * fixOne ∧
      (f = 0 → d = 0 → t = 2 ^ n) := by
  have hF := fixOne_pos
  have hFdef : fixOne = 2 ^ 128 := rfl
  have hfF : (f : ℝ) < fixOne := by rw [hFdef]; exact_mod_cast hfl
  have hfF1 : (f : ℝ) + 1 ≤ fixOne := by rw [hFdef]; exact_mod_cast hfl
  have hf0 : (0 : ℝ) ≤ f := by positivity
  obtain ⟨y0, y1, y2⟩ := hy
  have hhead : headOf f 128 = f / fixOne := by unfold headOf; rw [hFdef]; simp; ring
  rw [hhead] at y1 y2
  have hu0 : 0 ≤ d / fixOne := by positivity
  have hbig : (10000 : ℝ) ≤ fixOne := by rw [hFdef]; norm_num
  have hu1 : d / fixOne ≤ 1 / fixOne := by gcongr
  have hu2 : 1 / fixOne ≤ 1 / 10000 := one_div_le_one_div_of_le (by norm_num) hbig
  have hzn := two_zpow_pos n
  obtain ⟨p, hp⟩ : ∃ p, p = (2 : ℝ) ^ (f / fixOne : ℝ) := ⟨_, rfl⟩
  have hp1 : 1 ≤ p := by rw [hp]; exact Real.one_le_rpow (by norm_num) (by positivity)
  have hp2 : p < 2 := by
    rw [hp]
    calc (2 : ℝ) ^ (f / fixOne : ℝ) < 2 ^ (1 : ℝ) := Real.rpow_lt_rpow_of_exponent_lt (by norm_num) (by rw [div_lt_one hF]; exact hfF)
      _ = 2 := by simp
  rw [← hp] at y1 y2
  obtain ⟨w, hw⟩ : ∃ w, w = (2 : ℝ) ^ (d / fixOne) := ⟨_, rfl⟩
  have ht : t = 2 ^ n * (p * w) := by
    rw [ht0, Real.rpow_add (by norm_num), Real.rpow_add (by norm_num), Real.rpow_intCast, hp, hw]; ring
  have hw1 : 1 ≤ w := by rw [hw]; exact Real.one_le_rpow (by norm_num) hu0
  have hw2 : w ≤ 1 + 1 / fixOne := by rw [hw]; exact (two_rpow_le hu0 (by linarith)).trans (by linarith)
  have hpw : 1 ≤ p * w := one_le_mul_of_one_le_of_one_le hp1 hw1
  refine ⟨?_, ?_, ?_, ?_, ?_⟩
  · rw [ht]; exact le_mul_of_one_le_right hzn.le hpw
  · rw [ht0, ← Real.rpow_intCast]
    refine Real.rpow_lt_rpow_of_exponent_lt (by norm_num) ?_
    push_cast
    have : (f + d) / fixOne < 1 := by rw [div_lt_one hF]; linarith
    rw [add_div] at this; linarith
  · rw [ht, ← mul_sub, abs_mul, abs_of_pos hzn]
    refine mul_le_mul_of_nonneg_left ?_ hzn.le
    obtain ⟨δ, hδ⟩ : ∃ δ, δ = 1 / fixOne := ⟨_, rfl⟩
    have hδ0 : 0 < δ := by rw [hδ]; positivity
    obtain ⟨z, hz⟩ : ∃ z, z = (y : ℝ) / fixOne := ⟨_, rfl⟩
    have hyF : z ≤ p := by rw [hz, div_le_iff₀ hF, mul_comm]; exact y1
    have hpy : p ≤ z * (1 + 640 * δ) := by
      have : p * fixOne ≤ z * (1 + 640 * δ) * fixOne := by
        rw [mul_comm p]; refine y2.trans (le_of_eq ?_); rw [hz, hδ]; push_cast; field_simp; norm_num
      exact le_of_mul_le_mul_right this hF
    rw [show (2000 : ℝ) / fixOne = 2000 * δ by rw [hδ]; ring, ← hz]
    rw [← hδ] at hw2
    have hz2 : z ≤ 2 := hyF.trans hp2.le
    have c1 : p * w ≤ p * (1 + δ) := mul_le_mul_of_nonneg_left hw2 (by linarith)
    have c2 : p * δ ≤ 2 * δ := mul_le_mul_of_nonneg_right hp2.le hδ0.le
    have c3 : z * (640 * δ) ≤ 2 * (640 * δ) := mul_le_mul_of_nonneg_right hz2 (by linarith)
    have c4 : p ≤ p * w := le_mul_of_one_le_right (by linarith) hw1
    rw [abs_le]; constructor <;> linarith
  · have h1 : (y : ℝ) < 2 * fixOne := lt_of_le_of_lt y1 (by rw [mul_comm]; exact mul_lt_mul_of_pos_right hp2 hF)
    have h2 : y < 2 ^ 129 := by
      have : (y : ℝ) < 2 ^ 129 := by rw [hFdef] at h1; refine h1.trans_le ?_; norm_num
      exact_mod_cast this
    have h3 : (y : ℝ) + 1 ≤ 2 ^ 129 := by exact_mod_cast h2
    rw [hFdef]; refine h3.trans ?_; norm_num
  · rintro rfl rfl
    rw [ht, hp, hw]; simp

/-- The enclosure of a power rounded to nearest. -/
theorem pow2_ref (n : Int) (y : Nat) (ex : Bool) (t : ℝ) (hn : n + 1 ≤ 128) (y0 : 2 ^ 128 ≤ y) (hy2 : (y : ℝ) + 1 ≤ 2 * fixOne)
    (h1 : (2 : ℝ) ^ n ≤ t) (h2 : t < 2 ^ (n + 1)) (henc : |(2 : ℝ) ^ n * (y / fixOne) - t| ≤ 2 ^ n * (2000 / fixOne))
    (hul : (2 : ℝ) ^ n * (1 / 2 ^ 23) ≤ ulp32 t) :
    Near (fp32.round .rne false false y (n - fixBits) (!ex)) t (2 * ulp32 t) := by
  have hF := fixOne_pos
  have hFdef : fixOne = 2 ^ 128 := rfl
  have hzn := two_zpow_pos n
  have htp : 0 < t := lt_of_lt_of_le hzn h1
  have hy00 : y ≠ 0 := by have : 0 < 2 ^ 128 := by positivity
                          omega
  have hyr : fixOne ≤ y := by rw [hFdef]; exact_mod_cast y0
  have hylog : fp32.fb < y.log2 := lt_of_lt_of_le (show fp32.fb < 128 by decide) ((Nat.le_log2 hy00).2 y0)
  obtain ⟨z, hz⟩ : ∃ z : ℝ, z = if ex = true then (y : ℝ) * 2 ^ (n - fixBits) else (y + 1 / 2) * 2 ^ (n - fixBits) := ⟨_, rfl⟩
  have hzF : (2 : ℝ) ^ (n - (fixBits : Int)) = 2 ^ n * (1 / fixOne) := by
    simp only [fixBits]; rw [zpow_sub₀ (by norm_num), hFdef]; norm_cast; field_simp
  have hz' := two_zpow_pos (n - (fixBits : Int))
  have hround : fp32.Rounded .rne false false z (fp32.round .rne false false y (n - fixBits) (!ex)) := by
    refine fp32.round_rounded (by decide) .rne false false y (n - fixBits) (!ex) z hy00 ?_
    cases ex
    · simp only [Bool.false_eq_true, if_false] at hz
      simp only [Bool.not_false, if_true]
      rw [hz, mul_lt_mul_iff_left₀ hz', mul_lt_mul_iff_left₀ hz']
      exact ⟨by linarith, by linarith, hylog⟩
    · simp only [if_true] at hz
      simpa using hz
  have hzb : (2 : ℝ) ^ n * (y / fixOne) ≤ z ∧ z ≤ 2 ^ n * ((y + 1 / 2) / fixOne) := by
    rw [hz, hzF]
    cases ex
    · simp only [Bool.false_eq_true, if_false]
      constructor
      · rw [show (y + 1 / 2 : ℝ) * (2 ^ n * (1 / fixOne)) = 2 ^ n * ((y + 1 / 2) / fixOne) by ring]
        gcongr; linarith
      · exact le_of_eq (by ring)
    · simp only [if_true]
      constructor
      · exact le_of_eq (by ring)
      · rw [show (y : ℝ) * (2 ^ n * (1 / fixOne)) = 2 ^ n * (y / fixOne) by ring]
        gcongr; linarith
  have hzlo : (2 : ℝ) ^ n ≤ z := by
    refine le_trans ?_ hzb.1
    exact le_mul_of_one_le_right hzn.le (by rw [one_le_div hF]; exact hyr)
  have hzhi : z < 2 ^ (n + 1) := by
    refine lt_of_le_of_lt hzb.2 ?_
    rw [zpow_add₀ (by norm_num), zpow_one]
    refine mul_lt_mul_of_pos_left ?_ hzn
    rw [div_lt_iff₀ hF]; linarith
  have hzp : 0 < z := lt_of_lt_of_le hzn hzlo
  have hzu : ulp32 z = ulp32 t :=
    (ulpAt_real (by rw [abs_of_pos hzp]; exact hzlo) (by rw [abs_of_pos hzp]; exact hzhi)).symm.trans
      (ulpAt_real (by rw [abs_of_pos htp]; exact h1) (by rw [abs_of_pos htp]; exact h2))
  have hz128 : z < 2 ^ 128 := by
    refine lt_of_lt_of_le hzhi ?_
    rw [← zpow_natCast]; exact zpow_le_zpow_right₀ (by norm_num) (by exact_mod_cast hn)
  have hnear := rounded_near_mag hzp hz128 hround
  simp only [Bool.false_eq_true, if_false] at hnear
  rw [hzu] at hnear
  have hdist : |z - t| ≤ ulp32 t := by
    have h1 : |z - 2 ^ n * (y / fixOne)| ≤ 2 ^ n * (1 / fixOne) := by
      rw [abs_of_nonneg (by linarith [hzb.1])]
      have : 2 ^ n * ((y + 1 / 2) / fixOne) = 2 ^ n * (y / fixOne) + 2 ^ n * (1 / 2 / fixOne) := by ring
      have h5 : (2 : ℝ) ^ n * (1 / 2 / fixOne) ≤ 2 ^ n * (1 / fixOne) := by gcongr; norm_num
      linarith [hzb.2]
    have h2 := abs_sub_le z (2 ^ n * (y / fixOne)) t
    have h3 : (2 : ℝ) ^ n * (1 / fixOne) + 2 ^ n * (2000 / fixOne) ≤ 2 ^ n * (1 / 2 ^ 23) := by
      rw [← mul_add, hFdef]
      refine mul_le_mul_of_nonneg_left ?_ hzn.le
      norm_num
    linarith
  exact hnear.shift hdist (by linarith)

theorem ulp32_ge {t : ℝ} {n : Int} (h1 : (2 : ℝ) ^ n ≤ |t|) : (2 : ℝ) ^ n * (1 / 2 ^ 23) ≤ ulp32 t := by
  have hp : 0 < |t| := lt_of_lt_of_le (two_zpow_pos n) h1
  have hlog : n ≤ Int.log 2 |t| := (Int.zpow_le_iff_le_log (b := 2) (by norm_num) hp).1 (by exact_mod_cast h1)
  unfold ulp32
  rw [zpow_sub₀ (by norm_num)]
  have h2 : (2 : ℝ) ^ n ≤ 2 ^ (max (Int.log 2 |t|) (-126)) := zpow_le_zpow_right₀ (by norm_num) (le_trans hlog (le_max_left _ _))
  have h3 : (2 : ℝ) ^ (23 : Int) = 2 ^ 23 := by norm_cast
  rw [h3, mul_one_div]
  exact div_le_div_of_nonneg_right h2 (by positivity)

theorem approxEx2_bound (cand : Lane) (x : Bool) (m : Nat) (e : Int) (hlo : (-150 : ℝ) ≤ (FVal.fin x m e).real)
    (hhi : (FVal.fin x m e).real < 128) :
    let t := (2 : ℝ) ^ (FVal.fin x m e).real
    Near (approxEx2 cand (.fin x m e)) t (2 * ulp32 t) := by
  intro t0
  obtain ⟨X, hX⟩ : ∃ X, X = (FVal.fin x m e).dy := ⟨_, rfl⟩
  have hXr : X.real = (FVal.fin x m e).real := by rw [hX]; rfl
  have hXe : X.e = e := by rw [hX]; rfl
  have ht0 : t0 = (2 : ℝ) ^ X.real := by rw [hXr]
  clear_value t0
  rw [← hXr] at hlo hhi
  have hn1 : Dy.le ⟨128, 0⟩ X = false := by
    rw [Bool.eq_false_iff]; intro h; rw [Dy.le_real] at h
    have : (⟨128, 0⟩ : Dy).real = 128 := by simp [Dy.real]
    linarith
  have hn2 : (X.cmp ⟨-150, 0⟩ == .lt) = false := by
    rw [Dy.cmp_real]
    have : (⟨-150, 0⟩ : Dy).real = -150 := by simp [Dy.real]
    rw [this, if_neg (not_lt.2 hlo)]; split <;> rfl
  obtain ⟨f1, f2, f3⟩ := fix_floor X 128
  obtain ⟨T, hT⟩ : ∃ T : Int, T = if 0 ≤ X.e + (128 : Nat) then X.m * 2 ^ Int.toNat (X.e + (128 : Nat)) else X.m / 2 ^ Int.toNat (-(X.e + (128 : Nat))) := ⟨_, rfl⟩
  rw [← hT] at f1 f2 f3
  have hF := fixOne_pos
  have hFdef : fixOne = 2 ^ 128 := rfl
  rw [← hFdef] at f1 f2 f3
  obtain ⟨n, hn⟩ : ∃ n : Int, n = T / 2 ^ 128 := ⟨_, rfl⟩
  obtain ⟨f, hf⟩ : ∃ f : Nat, f = (T % 2 ^ 128).toNat := ⟨_, rfl⟩
  have hfl : f < 2 ^ 128 := by rw [hf]; have := Int.emod_lt_of_pos T (show (0 : Int) < 2 ^ 128 by positivity); omega
  have hTn : T = n * 2 ^ 128 + f := by
    have h1 := Int.emod_nonneg T (show (2 : Int) ^ 128 ≠ 0 by positivity)
    have h2 := Int.ediv_mul_add_emod T (2 ^ 128)
    rw [hn, hf]; omega
  have hTr : (T : ℝ) = n * fixOne + f := by rw [hTn, hFdef]; push_cast; ring
  obtain ⟨y, hy⟩ : ∃ y, y = pow2Frac f := ⟨_, rfl⟩
  have hinv := pow2Frac_spec f hfl
  rw [← hy] at hinv
  obtain ⟨d, hd⟩ : ∃ d, d = X.real * fixOne - T := ⟨_, rfl⟩
  have hXd : X.real = n + f / fixOne + d / fixOne := by
    have : X.real * fixOne = n * fixOne + f + d := by rw [hd, hTr]; ring
    field_simp; linarith
  have hzn := two_zpow_pos n
  obtain ⟨htlo, hthi, henc, hy2, hexact⟩ := pow2_enclosure n f y d t0 hfl (by linarith) (by linarith) hinv (by rw [ht0, hXd])
  have htp : 0 < t0 := lt_of_lt_of_le hzn htlo
  have hul := ulpAt_real (t := t0) (k := n) (by rw [abs_of_pos htp]; exact htlo) (by rw [abs_of_pos htp]; exact hthi)
  have hulow : (2 : ℝ) ^ n * (1 / 2 ^ 23) ≤ ulp32 t0 := ulp32_ge (by rw [abs_of_pos htp]; exact htlo)
  have hyd : (⟨y, n - fixBits⟩ : Dy).real = 2 ^ n * (y / fixOne) := by
    simp only [Dy.real, fixBits]
    rw [zpow_sub₀ (by norm_num), hFdef]; push_cast; ring
  simp only [approxEx2, ← hX, hn1, hn2, Bool.false_eq_true, if_false]
  have hT' : (if 0 ≤ e + (fixBits : Int) then X.m * 2 ^ Int.toNat (e + fixBits) else X.m / 2 ^ Int.toNat (-(e + (fixBits : Int)))) = T := by
    rw [hT, hXe]; rfl
  rw [hT']
  have hn' : T / (2 : Int) ^ fixBits = n := hn.symm
  have hf' : (T % (2 : Int) ^ fixBits).toNat = f := hf.symm
  rw [hn', hf', ← hy]
  obtain ⟨ex, hex⟩ : ∃ ex : Bool, ex = (decide (f = 0) && decide (0 ≤ e + (fixBits : Int))) := ⟨_, rfl⟩
  rw [← hex]
  rcases chooseApprox_cases cand _ _ with ⟨hc, v, hv, hok⟩ | hc <;> rw [hc]
  · refine near_candidate hv ?_
    rw [Dy.within_real, hyd, Dy.less, Dy.real_add, Dy.real_mul, Dy.real_neg, hul] at hok
    have h2' : (⟨2, 0⟩ : Dy).real = 2 := by simp [Dy.real]
    rw [h2'] at hok
    have herr : |(2 : ℝ) ^ n * (y / fixOne) - t0| ≤ (if ex = true then (⟨0, 0⟩ : Dy) else powError n).real := by
      cases hxx : ex
      · simp only [Bool.false_eq_true, if_false]
        refine henc.trans ?_
        have : (powError n).real = 2 ^ n * (1 / 2 ^ 111) := by
          simp only [powError, Dy.real]; rw [zpow_sub₀ (by norm_num)]; norm_cast; field_simp
        rw [this, hFdef]
        refine mul_le_mul_of_nonneg_left ?_ hzn.le
        norm_num
      · rw [hxx] at hex
        simp only [Bool.true_eq, Bool.and_eq_true, decide_eq_true_eq] at hex
        obtain ⟨hf00, he0⟩ := hex
        have hd00 : d = 0 := by rw [hd, f3 (by rw [hXe]; exact he0)]; ring
        have hy00 : y = 2 ^ 128 := by rw [hy, hf00, pow2Frac_zero]
        have hone : ((2 ^ 128 : Nat) : ℝ) / fixOne = 1 := by rw [hFdef]; norm_num
        rw [hexact hf00 hd00, hy00, hone]
        simp [Dy.real]
    have := abs_sub_le v.real (2 ^ n * (y / fixOne)) t0
    linarith
  · have hn127 : n + 1 ≤ 128 := by
      have : (n : ℝ) < 128 := by
        have h5 : 0 ≤ (f : ℝ) / fixOne := by positivity
        have h6 : 0 ≤ d / fixOne := div_nonneg (by linarith) hF.le
        linarith
      have : n < 128 := by exact_mod_cast this
      omega
    exact pow2_ref n y ex t0 hn127 hinv.1 hy2 htlo hthi henc hulow

/-! ## FLG2 -/

/-- The binary logarithm of a fixed-point number. -/
noncomputable def fixLog (z : ℝ) : ℝ := Real.logb 2 (z / fixOne)

theorem log_two_ge : (2 : ℝ) / 3 ≤ Real.log 2 := by have := Real.log_two_gt_d9; norm_num at *; linarith

theorem logb_one_add_le {u : ℝ} (h : 0 ≤ u) : Real.logb 2 (1 + u) ≤ 3 / 2 * u := by
  unfold Real.logb
  have h2 := log_two_ge
  rw [div_le_iff₀ (by linarith)]
  have := Real.log_le_sub_one_of_pos (show 0 < 1 + u by linarith)
  nlinarith

theorem fixLog_mono {x y : ℝ} (hx : 0 < x) (h : x ≤ y) : fixLog x ≤ fixLog y := by
  have hF := fixOne_pos
  exact Real.logb_le_logb_of_le (by norm_num) (by positivity) (div_le_div_of_nonneg_right h hF.le)

/-- Three units more change the logarithm by little. -/
theorem fixLog_add {x c : ℝ} (hx : fixOne ≤ x) (hc : 0 ≤ c) : fixLog (x + c) ≤ fixLog x + 3 / 2 * c / fixOne := by
  have hF := fixOne_pos
  have hx0 : 0 < x := lt_of_lt_of_le hF hx
  have h1 : (x + c) / fixOne = x / fixOne * (1 + c / x) := by field_simp
  unfold fixLog
  rw [h1, Real.logb_mul (by positivity) (by positivity)]
  have h2 := logb_one_add_le (u := c / x) (by positivity)
  have h3 : c / x ≤ c / fixOne := by gcongr
  have h4 : 3 / 2 * c / fixOne = 3 / 2 * (c / fixOne) := by ring
  linarith

theorem fixLog_root {k r : Nat} (h : IsRoot (pow2Half k) r) :
    fixLog r ≤ (1 / 2) ^ k ∧ (1 / 2 : ℝ) ^ k ≤ fixLog r + 5 / fixOne := by
  obtain ⟨r0, r1, r2⟩ := h
  have hF := fixOne_pos
  have hrF : fixOne ≤ r := by unfold fixOne; exact_mod_cast r0
  have hr0 : (0 : ℝ) < r := lt_of_lt_of_le hF hrF
  have hρ : fixLog (pow2Half k * fixOne) = (1 / 2) ^ k := by
    unfold fixLog
    rw [mul_div_assoc, div_self hF.ne', mul_one, pow2Half, Real.logb_rpow (by norm_num) (by norm_num)]
  constructor
  · rw [← hρ]; exact fixLog_mono hr0 r1
  · rw [← hρ]
    have h1 := fixLog_mono (mul_pos (pow2Half_pos k) hF) r2
    have h2 := fixLog_add hrF (show (0 : ℝ) ≤ 3 by norm_num)
    have h3 : (3 : ℝ) / 2 * 3 / fixOne ≤ 5 / fixOne := by gcongr; norm_num
    linarith

/-- What the division through the first k roots leaves. -/
def LogInv (t : Nat) (k : Nat) (s : Nat × Nat) : Prop :=
  2 ^ 128 ≤ s.1 ∧ s.2 < 2 ^ k ∧ fixLog s.1 ≤ (1 / 2) ^ k + 8 * k / fixOne ∧
    |fixLog t - s.2 * (1 / 2) ^ k - fixLog s.1| ≤ 8 * k / fixOne

theorem logInv_step (t k r : Nat) (s : Nat × Nat) (hr : IsRoot (pow2Half (k + 1)) r) (h : LogInv t k s) :
    LogInv t (k + 1) (logStep s r) := by
  unfold logStep
  obtain ⟨a, b⟩ := s
  obtain ⟨h0, hb, h1, h2⟩ := h
  obtain ⟨g1, g2⟩ := fixLog_root hr
  have r0 := hr.1
  have hF := fixOne_pos
  have hrF : fixOne ≤ r := by unfold fixOne; exact_mod_cast r0
  have hr0 : (0 : ℝ) < r := lt_of_lt_of_le hF hrF
  have haF : fixOne ≤ a := by unfold fixOne; exact_mod_cast h0
  have ha0 : (0 : ℝ) < a := lt_of_lt_of_le hF haF
  have hpw : (1 / 2 : ℝ) ^ k = 2 * (1 / 2) ^ (k + 1) := by rw [pow_succ]; ring
  have hpb : (2 : ℕ) ^ (k + 1) = 2 * 2 ^ k := by rw [pow_succ]; ring
  have hk8 : 8 * ((k + 1 : Nat) : ℝ) / fixOne = 8 * k / fixOne + 8 / fixOne := by push_cast; ring
  have hδ : 0 < 1 / fixOne := by positivity
  have e5 : 5 / fixOne = 5 * (1 / fixOne) := by ring
  have e8 : 8 / fixOne = 8 * (1 / fixOne) := by ring
  simp only at h0 hb h1 h2
  split
  · next hle =>
    simp only at hle
    obtain ⟨q, hq⟩ : ∃ q, q = a * 2 ^ fixBits / r := ⟨_, rfl⟩
    have hrn : 0 < r := by have : 0 < 2 ^ 128 := by positivity
                           omega
    have q1 : q * r ≤ a * 2 ^ 128 := by rw [hq]; exact Nat.div_mul_le_self _ _
    have q2 : a * 2 ^ 128 < (q + 1) * r := by
      rw [hq]; exact Nat.lt_mul_of_div_lt (Nat.lt_succ_self _) hrn
    have q0 : 2 ^ 128 ≤ q := by
      rw [hq, Nat.le_div_iff_mul_le hrn, mul_comm]
      exact Nat.mul_le_mul_right _ hle
    have hqF : fixOne ≤ q := by unfold fixOne; exact_mod_cast q0
    have hq0 : (0 : ℝ) < q := lt_of_lt_of_le hF hqF
    have q1r : (q : ℝ) ≤ a * fixOne / r := by
      rw [le_div_iff₀ hr0]; unfold fixOne; exact_mod_cast q1
    have q2r : a * fixOne / r ≤ (q : ℝ) + 1 := by
      rw [div_le_iff₀ hr0]; unfold fixOne; exact_mod_cast q2.le
    have hdiv : fixLog (a * fixOne / r) = fixLog a - fixLog r := by
      unfold fixLog
      rw [← Real.logb_div (by positivity) (by positivity)]
      congr 1
      field_simp
    have c1 := fixLog_mono hq0 q1r
    have c2 := fixLog_mono (by positivity) q2r
    have c3 := fixLog_add hqF (show (0 : ℝ) ≤ 1 by norm_num)
    have e3 : 3 / 2 * 1 / fixOne = 3 / 2 * (1 / fixOne) := by ring
    rw [hdiv] at c1 c2
    rw [← hq]
    refine ⟨q0, by simp only; omega, ?_, ?_⟩
    · simp only; rw [hk8]; linarith
    · simp only; rw [hk8]
      rw [abs_le] at h2 ⊢
      push_cast
      rw [hpw] at h2
      constructor <;> linarith [h2.1, h2.2]
  · next hle =>
    simp only at hle
    have c1 := fixLog_mono ha0 (show (a : ℝ) ≤ r by exact_mod_cast (not_le.1 hle).le)
    refine ⟨h0, by simp only; omega, ?_, ?_⟩
    · simp only; rw [hk8]
      have : 0 ≤ 8 * (k : ℝ) / fixOne := by positivity
      linarith
    · simp only; rw [hk8]
      rw [abs_le] at h2 ⊢
      push_cast
      rw [hpw] at h2
      constructor <;> linarith [h2.1, h2.2]

theorem log_fold (t : Nat) : ∀ n k r s, IsRoot (pow2Half k) r → LogInv t k s →
    LogInv t (k + n) ((rootsOf2 n r).foldl logStep s) := by
  intro n
  induction n with
  | zero => intro k r s _ h; rw [rootsOf2, List.foldl_nil, Nat.add_zero]; exact h
  | succ n ih =>
    intro k r s hr h
    have hr' := isRoot_sqrt hr (pow2Half_le k)
    rw [pow2Half_sqrt] at hr'
    have h' := ih (k + 1) _ _ hr' (logInv_step t k _ s hr' h)
    rw [rootsOf2, List.foldl_cons, show k + (n + 1) = k + 1 + n by ring]
    exact h'

theorem log2Frac_spec (t : Nat) (h0 : 2 ^ 128 ≤ t) (h1 : t ≤ 2 ^ 129) :
    log2Frac t < 2 ^ 128 ∧ |fixLog t - log2Frac t / fixOne| ≤ 2100 / fixOne := by
  have hF := fixOne_pos
  have htF : fixOne ≤ t := by unfold fixOne; exact_mod_cast h0
  have h := log_fold t fixBits 0 _ (t, 0) isRoot_two ⟨h0, by simp, by
    have : fixLog t ≤ 1 := by
      have h2 := fixLog_mono (lt_of_lt_of_le hF htF) (show (t : ℝ) ≤ 2 * fixOne by unfold fixOne; exact_mod_cast h1)
      have h3 : fixLog (2 * fixOne) = 1 := by
        unfold fixLog; rw [mul_div_assoc, div_self hF.ne', mul_one]; exact Real.logb_self_eq_one (by norm_num)
      linarith
    simpa using this, by simp⟩
  rw [log2Frac, roots]
  generalize (rootsOf2 fixBits (2 * 2 ^ fixBits)).foldl logStep (t, 0) = s at h ⊢
  obtain ⟨a, b⟩ := s
  obtain ⟨g0, gb, g1, g2⟩ := h
  have hfb : 0 + fixBits = 128 := rfl
  rw [hfb] at gb g1 g2
  simp only at g0 gb g1 g2 ⊢
  refine ⟨gb, ?_⟩
  have haF : fixOne ≤ a := by unfold fixOne; exact_mod_cast g0
  have ha : 0 ≤ fixLog a := by
    unfold fixLog
    exact Real.logb_nonneg (by norm_num) (by rw [one_le_div hF]; exact haF)
  have hp : (1 / 2 : ℝ) ^ 128 = 1 / fixOne := by unfold fixOne; norm_num
  rw [hp] at g1 g2
  have hδ : 0 < 1 / fixOne := by positivity
  have e1 : 8 * ((128 : Nat) : ℝ) / fixOne = 1024 * (1 / fixOne) := by push_cast; ring
  have e2 : 2100 / fixOne = 2100 * (1 / fixOne) := by ring
  have e3 : (b : ℝ) / fixOne = b * (1 / fixOne) := by ring
  rw [e1] at g1 g2
  rw [e2, e3]
  rw [abs_le] at g2 ⊢
  constructor <;> linarith [g2.1, g2.2]

theorem expo_mem (y : Dy) (h : y.m ≠ 0) : (2 : ℝ) ^ y.expo ≤ |y.real| ∧ |y.real| < 2 ^ (y.expo + 1) := by
  have hm : y.m.natAbs ≠ 0 := by omega
  have hr : |y.real| = y.m.natAbs * 2 ^ y.e := by rw [← Dy.real_abs]; simp [Dy.abs, Dy.real]
  obtain ⟨h1, h2, -⟩ := mantissa_mem hm y.e
  rw [hr]
  exact ⟨h1, h2⟩

theorem ulpAt_expo (y : Dy) (h : y.m ≠ 0) : (ulpAt y.expo).real = ulp32 y.real := by
  obtain ⟨h1, h2⟩ := expo_mem y h
  exact ulpAt_real h1 h2

/-- Numbers between the same two whole numbers, the lower at least 1, have one unit. -/
theorem ulp32_same {s t : ℝ} {j : Nat} (hj : 1 ≤ j) (h1 : (j : ℝ) ≤ |s|) (h2 : |s| < j + 1) (h3 : (j : ℝ) ≤ |t|) (h4 : |t| < j + 1) :
    ulp32 s = ulp32 t := by
  have hlo : (2 : ℝ) ^ (j.log2 : Int) ≤ j := by
    rw [zpow_natCast]; exact_mod_cast Nat.log2_self_le (by omega)
  have hhi : (j : ℝ) + 1 ≤ 2 ^ ((j.log2 : Int) + 1) := by
    rw [show ((j.log2 : Int) + 1) = ((j.log2 + 1 : Nat) : Int) by push_cast; ring, zpow_natCast]
    exact_mod_cast Nat.lt_log2_self
  rw [← ulpAt_real (k := j.log2) (hlo.trans h1) (lt_of_lt_of_le h2 hhi), ← ulpAt_real (k := j.log2) (hlo.trans h3) (lt_of_lt_of_le h4 hhi)]

theorem ulp32_mono {s t : ℝ} (hs : s ≠ 0) (h : |s| ≤ |t|) : ulp32 s ≤ ulp32 t := by
  have hp := abs_pos.2 hs
  unfold ulp32
  refine zpow_le_zpow_right₀ (by norm_num) ?_
  have : Int.log 2 |s| ≤ Int.log 2 |t| := Int.log_mono_right hp h
  omega

theorem ulp32_one : ulp32 1 = 1 / 2 ^ 23 := by
  have := ulpAt_real (t := 1) (k := 0) (by simp) (by simp)
  rw [← this]
  have : (ulpAt 0).real = (2 : ℝ) ^ (-23 : Int) := by simp [ulpAt, Dy.real]
  rw [this]; norm_num

/-- The fraction of the logarithm of a mantissa that is no power of two: away from both ends. -/
theorem log2_frac_mem (m : Nat) (hm : m ≠ 0) (hlt : m < 2 ^ 24) (h2 : m ≠ 2 ^ m.log2) :
    (1 : ℝ) / 2 ^ 24 ≤ Real.logb 2 (m / 2 ^ m.log2) ∧ Real.logb 2 (m / 2 ^ m.log2) ≤ 1 - 1 / 2 ^ 24 := by
  have hlo : 2 ^ m.log2 ≤ m := Nat.log2_self_le hm
  have hhi : m < 2 ^ (m.log2 + 1) := Nat.lt_log2_self
  have hl23 : m.log2 ≤ 23 := by
    by_contra hc
    have : 2 ^ 24 ≤ 2 ^ m.log2 := Nat.pow_le_pow_right (by omega) (by omega)
    omega
  obtain ⟨P, hP⟩ : ∃ P : Nat, P = 2 ^ m.log2 := ⟨_, rfl⟩
  have hP23 : P ≤ 2 ^ 23 := by rw [hP]; exact Nat.pow_le_pow_right (by omega) hl23
  have hP0 : 0 < P := by rw [hP]; positivity
  have hhi' : m + 1 ≤ 2 * P := by rw [hP]; rw [pow_succ] at hhi; omega
  have hlo' : P + 1 ≤ m := by omega
  have hPr : (2 : ℝ) ^ m.log2 = P := by rw [hP]; push_cast; rfl
  rw [hPr]
  have hP0r : (0 : ℝ) < P := by exact_mod_cast hP0
  have hP23r : (P : ℝ) ≤ 2 ^ 23 := by exact_mod_cast hP23
  have hlor : (P : ℝ) + 1 ≤ m := by exact_mod_cast hlo'
  have hhir : (m : ℝ) + 1 ≤ 2 * P := by exact_mod_cast hhi'
  have hinv : 1 / 2 ^ 23 ≤ 1 / (P : ℝ) := one_div_le_one_div_of_le hP0r hP23r
  have hlog1 : Real.log 2 ≤ 1 := by have := Real.log_two_lt_d9; norm_num at *; linarith
  have hlog0 := log_two_ge
  constructor
  · -- 2^(2^-24) ≤ 1 + 2^-24 ≤ m / P
    rw [Real.le_logb_iff_rpow_le (by norm_num) (by positivity)]
    refine (two_rpow_le (by positivity) (by norm_num)).trans ?_
    have : 1 + 1 / (P : ℝ) ≤ m / P := by rw [show 1 + 1 / (P : ℝ) = (P + 1) / P by field_simp]; gcongr
    have : (1 : ℝ) / 2 ^ 24 ≤ 1 / 2 ^ 23 := by norm_num
    linarith
  · -- m / P = 2 (1 - v), v ≥ 2^-24, and log2 (1 - v) ≤ -v
    have h5 : (m : ℝ) / P ≤ 2 * (1 - 1 / 2 ^ 24) := by
      have : (m : ℝ) / P ≤ 2 - 1 / P := by rw [div_le_iff₀ hP0r]; field_simp; linarith
      have e : (2 : ℝ) * (1 - 1 / 2 ^ 24) = 2 - 1 / 2 ^ 23 := by norm_num
      linarith
    have h6 : Real.logb 2 (m / P) ≤ Real.logb 2 (2 * (1 - 1 / 2 ^ 24)) :=
      Real.logb_le_logb_of_le (by norm_num) (by have : (0 : ℝ) < m := by linarith
                                                positivity) h5
    rw [Real.logb_mul (by norm_num) (by norm_num), Real.logb_self_eq_one (by norm_num)] at h6
    have h7 : Real.logb 2 (1 - 1 / 2 ^ 24) ≤ -(1 / 2 ^ 24) := by
      unfold Real.logb
      rw [div_le_iff₀ (by linarith)]
      have := Real.log_le_sub_one_of_pos (show (0 : ℝ) < 1 - 1 / 2 ^ 24 by norm_num)
      have h8 : (1 : ℝ) / 2 ^ 24 * Real.log 2 ≤ 1 / 2 ^ 24 * 1 := mul_le_mul_of_nonneg_left hlog1 (by positivity)
      linarith
    linarith

/-- FLG2's enclosure y of the exact logarithm E, with what the bound needs of both. -/
theorem log2_enclosure (m : Nat) (e : Int) (hm : m ≠ 0) (hlt : m < 2 ^ 24) :
    let l : Int := e + m.log2
    let f := if m = 2 ^ m.log2 then 0 else log2Frac (m * 2 ^ fixBits / 2 ^ m.log2)
    let y : Dy := ⟨l * 2 ^ fixBits + f, -(fixBits : Int)⟩
    let E := Real.logb 2 (m * 2 ^ e)
    (m = 2 ^ m.log2 → y.real = E ∧ E = l) ∧
    (m ≠ 2 ^ m.log2 → |y.real - E| ≤ 1 / 2 ^ 116 ∧ (l : ℝ) < y.real ∧ y.real < l + 1 ∧ (l : ℝ) < E ∧ E < l + 1) := by
  intro l f y E
  have hF := fixOne_pos
  have hl : l = e + m.log2 := rfl
  have hf : f = if m = 2 ^ m.log2 then 0 else log2Frac (m * 2 ^ fixBits / 2 ^ m.log2) := rfl
  have hmr : (0 : ℝ) < m := by exact_mod_cast Nat.pos_of_ne_zero hm
  have hE : E = l + Real.logb 2 (m / 2 ^ m.log2) := by
    have h1 : (m : ℝ) * 2 ^ e = 2 ^ l * (m / 2 ^ m.log2) := by
      rw [hl, zpow_add₀ (by norm_num), zpow_natCast]; field_simp
    rw [show E = Real.logb 2 (m * 2 ^ e) from rfl, h1, Real.logb_mul (two_zpow_pos l).ne' (by positivity),
      ← Real.rpow_intCast, Real.logb_rpow (by norm_num) (by norm_num)]
  have hy : y.real = l + f / fixOne := by
    show ((l * 2 ^ fixBits + f : Int) : ℝ) * 2 ^ (-(fixBits : Int)) = _
    have : (2 : ℝ) ^ (-(fixBits : Int)) = 1 / fixOne := by rw [zpow_neg, zpow_natCast, one_div]; rfl
    rw [this]
    have h2 : (2 : ℝ) ^ fixBits = fixOne := rfl
    push_cast
    rw [h2]; field_simp
  clear_value y E f
  refine ⟨fun h => ?_, fun h => ?_⟩
  · rw [if_pos h] at hf
    have h1 : (m : ℝ) / 2 ^ m.log2 = 1 := by rw [div_eq_one_iff_eq (by positivity)]; exact_mod_cast h
    rw [h1] at hE
    rw [hy, hE, hf]; simp
  · rw [if_neg h] at hf
    obtain ⟨g1, g2⟩ := log2_frac_mem m hm hlt h
    have hl23 : m.log2 ≤ 23 := by
      by_contra hc
      have h5 : 2 ^ 24 ≤ 2 ^ m.log2 := Nat.pow_le_pow_right (by omega) (by omega)
      have := Nat.log2_self_le hm
      omega
    obtain ⟨T, hT⟩ : ∃ T, T = m * 2 ^ fixBits / 2 ^ m.log2 := ⟨_, rfl⟩
    have hTm : T = m * 2 ^ (128 - m.log2) := by
      rw [hT, show fixBits = m.log2 + (128 - m.log2) by unfold fixBits; omega, pow_add]
      rw [show m * (2 ^ m.log2 * 2 ^ (128 - m.log2)) = 2 ^ m.log2 * (m * 2 ^ (128 - m.log2)) by ring]
      exact Nat.mul_div_cancel_left _ (by positivity)
    have hp128 : (2 : ℕ) ^ 128 = 2 ^ m.log2 * 2 ^ (128 - m.log2) := by rw [← pow_add]; congr 1; omega
    have hT0 : 2 ^ 128 ≤ T := by
      rw [hTm, hp128]; exact Nat.mul_le_mul_right _ (Nat.log2_self_le hm)
    have hT1 : T ≤ 2 ^ 129 := by
      have : (2 : ℕ) ^ 129 = 2 ^ (m.log2 + 1) * 2 ^ (128 - m.log2) := by rw [← pow_add]; congr 1; omega
      rw [hTm, this]; exact Nat.mul_le_mul_right _ Nat.lt_log2_self.le
    have hTF : (T : ℝ) / fixOne = m / 2 ^ m.log2 := by
      have h6 : fixOne = 2 ^ m.log2 * 2 ^ (128 - m.log2) := by unfold fixOne; exact_mod_cast hp128
      rw [h6, hTm]; push_cast; field_simp
    rw [← hT] at hf
    obtain ⟨k1, k2⟩ := log2Frac_spec T hT0 hT1
    rw [← hf] at k1 k2
    have hfl : fixLog T = Real.logb 2 (m / 2 ^ m.log2) := by unfold fixLog; rw [hTF]
    rw [hfl] at k2
    have hbd : 2100 / fixOne ≤ 1 / 2 ^ 116 := by unfold fixOne; norm_num
    have h9 : (1 : ℝ) / 2 ^ 116 < 1 / 2 ^ 24 := by norm_num
    rw [hy, hE]
    have k3 := abs_le.1 (k2.trans hbd)
    refine ⟨?_, ?_, ?_, ?_, ?_⟩
    · rw [abs_le]; constructor <;> linarith [k3.1, k3.2]
    · linarith [k3.1, k3.2]
    · linarith [k3.1, k3.2]
    · have : (0 : ℝ) < 1 / 2 ^ 24 := by positivity
      linarith
    · have : (0 : ℝ) < 1 / 2 ^ 24 := by positivity
      linarith

theorem approxLg2_bound (cand : Lane) (m : Nat) (e : Int) (hm : m ≠ 0) (hlt : m < 2 ^ 24) (he : -1000 ≤ e) (he' : e ≤ 1000)
    (h1 : ¬ (m = 2 ^ m.log2 ∧ e + m.log2 = 0)) :
    let a := (FVal.fin false m e).real
    let t := Real.logb 2 a
    Near (approxLg2 cand (.fin false m e)) t (max (2 * ulp32 t) (if 1 / 2 ≤ a ∧ a ≤ 2 then 1 / 2 ^ 22 else 0)) := by
  intro a t
  have ha : a = m * 2 ^ e := by rw [show a = (FVal.fin false m e).real from rfl, FVal.real_fin]; simp
  have ht : t = Real.logb 2 (m * 2 ^ e) := by rw [← ha]
  have hD : (FVal.fin false m e).dy.real = a := rfl
  clear_value a
  clear_value t
  obtain ⟨l, hl⟩ : ∃ l : Int, l = e + m.log2 := ⟨_, rfl⟩
  obtain ⟨f, hf⟩ : ∃ f, f = if m = 2 ^ m.log2 then 0 else log2Frac (m * 2 ^ fixBits / 2 ^ m.log2) := ⟨_, rfl⟩
  obtain ⟨y, hy⟩ : ∃ y : Dy, y = ⟨l * 2 ^ fixBits + f, -(fixBits : Int)⟩ := ⟨_, rfl⟩
  obtain ⟨enc1, enc2⟩ := log2_enclosure m e hm hlt
  simp only [← hl, ← hf, ← hy, ← ht] at enc1 enc2
  have hl23 : m.log2 ≤ 23 := by
    by_contra hc
    have h5 : 2 ^ 24 ≤ 2 ^ m.log2 := Nat.pow_le_pow_right (by omega) (by omega)
    have := Nat.log2_self_le hm
    omega
  obtain ⟨ma1, ma2, ma3⟩ := mantissa_mem hm e
  rw [← ha, ← hl] at ma1 ma2 ma3
  have h1' : ¬ (m = 2 ^ m.log2 ∧ l = 0) := by rw [hl]; exact h1
  -- y is not zero
  have hyne : y.real ≠ 0 := by
    by_cases hp : m = 2 ^ m.log2
    · rw [(enc1 hp).1, (enc1 hp).2]; intro h0; exact h1' ⟨hp, by exact_mod_cast h0⟩
    · obtain ⟨-, g1, g2, -, -⟩ := enc2 hp
      intro h0
      rw [h0] at g1 g2
      have h5 : l < 0 := by exact_mod_cast g1
      have h6 : (0 : ℝ) < l + 1 := g2
      have h7 : (0 : Int) < l + 1 := by exact_mod_cast h6
      omega
  have hym : y.m ≠ 0 := fun h => hyne ((Dy.real_eq_zero y).2 h)
  have hul := ulpAt_expo y hym
  have herr0 : |y.real - t| ≤ (if m = 2 ^ m.log2 then (⟨0, 0⟩ : Dy) else ⟨1, -112⟩).real := by
    by_cases hp : m = 2 ^ m.log2
    · rw [if_pos hp, (enc1 hp).1]; simp [Dy.real]
    · rw [if_neg hp]
      refine (enc2 hp).1.trans ?_
      have : (⟨1, -112⟩ : Dy).real = 1 / 2 ^ 112 := by simp only [Dy.real]; norm_num
      rw [this]; norm_num
  have herr1 : |y.real - t| ≤ 1 / 2 ^ 112 := by
    refine herr0.trans ?_
    split
    · have : (⟨0, 0⟩ : Dy).real = 0 := by simp [Dy.real]
      rw [this]; positivity
    · have : (⟨1, -112⟩ : Dy).real = 1 / 2 ^ 112 := by simp only [Dy.real]; norm_num
      rw [this]
  -- within [1/2, 2] |y| ≤ 1; beyond it y and t have one unit
  have hnear : (1 / 2 ≤ a ∧ a ≤ 2) → |y.real| ≤ 1 := by
    rintro ⟨b1, b2⟩
    have c1 : -1 ≤ l := by
      by_contra hc
      have h5 : a < 2 ^ (-1 : Int) := lt_of_lt_of_le ma2 (zpow_le_zpow_right₀ (by norm_num) (by omega))
      norm_num at h5; linarith
    have c2 : l ≤ 1 := by
      by_contra hc
      have h5 : (2 : ℝ) ^ (2 : Int) ≤ a := le_trans (zpow_le_zpow_right₀ (by norm_num) (by omega)) ma1
      norm_num at h5; linarith
    have c1r : (-1 : ℝ) ≤ l := by exact_mod_cast c1
    have c2r : (l : ℝ) ≤ 1 := by exact_mod_cast c2
    by_cases hp : m = 2 ^ m.log2
    · rw [(enc1 hp).1, (enc1 hp).2, abs_le]; exact ⟨by linarith, by linarith⟩
    · obtain ⟨-, g1, g2, -, -⟩ := enc2 hp
      have c3 : l ≤ 0 := by
        by_contra hc
        have h5 : l = 1 := by omega
        have h6 : (2 : ℝ) ^ (1 : Int) ≤ a := by rw [← h5]; exact ma1
        have h7 : a = 2 ^ l := by rw [h5]; norm_num at h6 ⊢; linarith
        exact hp (ma3.1 h7)
      have c3r : (l : ℝ) ≤ 0 := by exact_mod_cast c3
      rw [abs_le]; exact ⟨by linarith, by linarith⟩
  have hfar : ¬ (1 / 2 ≤ a ∧ a ≤ 2) → ulp32 y.real = ulp32 t := by
    intro hc
    by_cases hp : m = 2 ^ m.log2
    · rw [(enc1 hp).1]
    · obtain ⟨-, g1, g2, g3, g4⟩ := enc2 hp
      have hcase : 1 ≤ l ∨ l ≤ -2 := by
        by_contra hc2
        have h5 : l = -1 ∨ l = 0 := by omega
        refine hc ⟨?_, ?_⟩
        · refine le_trans ?_ ma1
          have : (2 : ℝ) ^ (-1 : Int) ≤ 2 ^ l := zpow_le_zpow_right₀ (by norm_num) (by omega)
          norm_num at this ⊢; linarith
        · refine ma2.le.trans ?_
          have : (2 : ℝ) ^ (l + 1) ≤ 2 ^ (1 : Int) := zpow_le_zpow_right₀ (by norm_num) (by omega)
          norm_num at this ⊢; linarith
      rcases hcase with h5 | h5
      · obtain ⟨j, rfl⟩ : ∃ j : Nat, l = j := ⟨l.toNat, by omega⟩
        have hj : (1 : ℝ) ≤ j := by exact_mod_cast h5
        push_cast at g1 g2 g3 g4
        exact ulp32_same (j := j) (by omega) (by rw [abs_of_pos (by linarith)]; linarith) (by rw [abs_of_pos (by linarith)]; linarith)
          (by rw [abs_of_pos (by linarith)]; linarith) (by rw [abs_of_pos (by linarith)]; linarith)
      · obtain ⟨j, hj⟩ : ∃ j : Nat, l = -((j : Int) + 1) := ⟨(-l - 1).toNat, by omega⟩
        have hjr : (l : ℝ) = -((j : ℝ) + 1) := by rw [hj]; push_cast; ring
        have hj1 : 1 ≤ j := by omega
        have hj1r : (1 : ℝ) ≤ j := by exact_mod_cast hj1
        rw [hjr] at g1 g2 g3 g4
        exact ulp32_same (j := j) hj1 (by rw [abs_of_neg (by linarith)]; linarith) (by rw [abs_of_neg (by linarith)]; linarith)
          (by rw [abs_of_neg (by linarith)]; linarith) (by rw [abs_of_neg (by linarith)]; linarith)
  have hp22 : (⟨1, -22⟩ : Dy).real = 1 / 2 ^ 22 := by simp only [Dy.real]; norm_num
  have h2' : (⟨2, 0⟩ : Dy).real = 2 := by simp [Dy.real]
  have hnearDy : (Dy.le ⟨1, -1⟩ (FVal.fin false m e).dy && (FVal.fin false m e).dy.le ⟨2, 0⟩) = decide (1 / 2 ≤ a ∧ a ≤ 2) := by
    rw [Bool.eq_iff_iff]
    simp only [Bool.and_eq_true, Dy.le_real, decide_eq_true_eq, hD, h2']
    have : (⟨1, -1⟩ : Dy).real = 1 / 2 := by simp [Dy.real]
    rw [this]
  simp only [approxLg2, hm, if_false, Bool.false_eq_true, ← hl, ← hf, ← hy, h1']
  rcases chooseApprox_cases cand _ _ with ⟨hc, v, hv, hok⟩ | hc <;> rw [hc]
  · refine near_candidate hv ?_
    rw [Dy.within_real, Dy.less, Dy.real_add, Dy.real_neg, hnearDy] at hok
    refine (abs_sub_le v.real y.real t).trans ?_
    by_cases hn : 1 / 2 ≤ a ∧ a ≤ 2
    · rw [if_pos hn]
      refine le_trans ?_ (le_max_right _ _)
      have hu : ulp32 y.real ≤ 1 / 2 ^ 23 := by
        rw [← ulp32_one]; exact ulp32_mono hyne (by rw [abs_one]; exact hnear hn)
      have hcond : ((ulpAt y.expo).mul ⟨2, 0⟩).le ⟨1, -22⟩ = true := by
        rw [Dy.le_real, Dy.real_mul, hul, h2', hp22]
        have e : (1 : ℝ) / 2 ^ 22 = 1 / 2 ^ 23 * 2 := by norm_num
        rw [e]; linarith
      rw [decide_eq_true hn, hcond, Bool.and_self, if_pos rfl, hp22] at hok
      linarith
    · rw [decide_eq_false hn, Bool.false_and, if_neg (by simp), Dy.real_mul, hul, h2', hfar hn] at hok
      refine le_trans ?_ (le_max_left _ _)
      linarith
  · have hr := fp32.ofDy_roundedTo (by decide) .rne false y
    have hb : |y.real| < 2 ^ 128 := by
      have h5 : |y.real| ≤ 2000 := by
        have d1 : (-1000 : ℝ) ≤ l := by have : -1000 ≤ l := by omega
                                        exact_mod_cast this
        have d2 : (l : ℝ) ≤ 1023 := by have : l ≤ 1023 := by omega
                                       exact_mod_cast this
        by_cases hp : m = 2 ^ m.log2
        · rw [(enc1 hp).1, (enc1 hp).2, abs_le]; exact ⟨by linarith, by linarith⟩
        · obtain ⟨-, g1, g2, -, -⟩ := enc2 hp
          rw [abs_le]; exact ⟨by linarith, by linarith⟩
      refine lt_of_le_of_lt h5 ?_; norm_num
    have hn0 := rounded_near hyne hb hr
    have hpu := ulp32_pos t
    by_cases hn : 1 / 2 ≤ a ∧ a ≤ 2
    · have hu : ulp32 y.real ≤ 1 / 2 ^ 23 := by
        rw [← ulp32_one]; exact ulp32_mono hyne (by rw [abs_one]; exact hnear hn)
      refine hn0.shift herr1 ?_
      rw [if_pos hn]
      refine le_trans ?_ (le_max_right _ _)
      have e : (1 : ℝ) / 2 ^ 23 + 1 / 2 ^ 112 ≤ 1 / 2 ^ 22 := by norm_num
      linarith
    · rw [hfar hn] at hn0
      refine hn0.shift herr1 (le_trans ?_ (le_max_left _ _))
      have hge : 1 / 2 ^ 112 ≤ ulp32 t := by
        -- beyond [1/2, 2] the logarithm is at least 1 in magnitude
        have hy1 : (1 : ℝ) ≤ |y.real| := by
          by_cases hp : m = 2 ^ m.log2
          · rw [(enc1 hp).1, (enc1 hp).2]
            have h6 : l ≠ 0 := fun h => h1' ⟨hp, h⟩
            have : 1 ≤ |l| := Int.one_le_abs h6
            exact_mod_cast this
          · obtain ⟨-, g1, g2, -, -⟩ := enc2 hp
            have hcase : 1 ≤ l ∨ l ≤ -2 := by
              by_contra hc2
              have h5 : l = -1 ∨ l = 0 := by omega
              refine hn ⟨?_, ?_⟩
              · refine le_trans ?_ ma1
                have : (2 : ℝ) ^ (-1 : Int) ≤ 2 ^ l := zpow_le_zpow_right₀ (by norm_num) (by omega)
                norm_num at this ⊢; linarith
              · refine ma2.le.trans ?_
                have : (2 : ℝ) ^ (l + 1) ≤ 2 ^ (1 : Int) := zpow_le_zpow_right₀ (by norm_num) (by omega)
                norm_num at this ⊢; linarith
            rcases hcase with h5 | h5
            · have h6 : (1 : ℝ) ≤ l := by exact_mod_cast h5
              rw [abs_of_pos (by linarith)]; linarith
            · have h6 : (l : ℝ) ≤ -2 := by exact_mod_cast h5
              rw [abs_of_neg (by linarith)]; linarith
        have h7 : ulp32 1 ≤ ulp32 y.real := ulp32_mono one_ne_zero (by rw [abs_one]; exact hy1)
        rw [hfar hn, ulp32_one] at h7
        refine le_trans ?_ h7
        norm_num
      linarith

/-! ## FSIN and FCOS -/

theorem arctan_partial {x : ℝ} (h0 : 0 < x) (h1 : x < 1) (n : Nat) :
    |Real.arctan x - ∑ i ∈ Finset.range n, (-1) ^ i * (x ^ (2 * i + 1) / ((2 * i + 1 : Nat) : ℝ))| ≤ x ^ (2 * n + 1) / ((2 * n + 1 : Nat) : ℝ) := by
  have hs := Real.hasSum_arctan (x := x) (by rw [Real.norm_eq_abs, abs_of_pos h0]; exact h1)
  have hf : Antitone (fun i : Nat => x ^ (2 * i + 1) / ((2 * i + 1 : Nat) : ℝ)) := by
    intro i j hij
    have : x ^ (2 * j + 1) ≤ x ^ (2 * i + 1) := pow_le_pow_of_le_one h0.le h1.le (by omega)
    have h2 : ((2 * i + 1 : Nat) : ℝ) ≤ ((2 * j + 1 : Nat) : ℝ) := by exact_mod_cast (by omega)
    have h3 : (0 : ℝ) < ((2 * i + 1 : Nat) : ℝ) := by positivity
    simp only
    gcongr
  have hsum : Summable (fun i : Nat => x ^ (2 * i + 1) / ((2 * i + 1 : Nat) : ℝ)) := by
    refine Summable.of_nonneg_of_le (fun i => by positivity) (fun i => ?_) (summable_geometric_of_lt_one h0.le h1)
    have h3 : (1 : ℝ) ≤ ((2 * i + 1 : Nat) : ℝ) := by exact_mod_cast (by omega)
    calc x ^ (2 * i + 1) / ((2 * i + 1 : Nat) : ℝ) ≤ x ^ (2 * i + 1) := div_le_self (by positivity) h3
      _ ≤ x ^ i := pow_le_pow_of_le_one h0.le h1.le (by omega)
  have := alternating_series_error_bound _ hf hsum n
  have he : (∑' i : Nat, (-1 : ℝ) ^ i * (x ^ (2 * i + 1) / ((2 * i + 1 : Nat) : ℝ))) = Real.arctan x := by
    rw [← hs.tsum_eq]; congr 1; ext i; ring
  rw [he] at this
  exact this

theorem twoPi_near : |2 * Real.pi * 2 ^ 128 - (twoPi : ℝ)| ≤ 2 := by
  have h1 := arctan_partial (x := 5⁻¹) (by norm_num) (by norm_num) 28
  have h2 := arctan_partial (x := 239⁻¹) (by norm_num) (by norm_num) 9
  have h3 := Real.four_mul_arctan_inv_5_sub_arctan_inv_239
  rw [abs_le] at h1 h2 ⊢
  obtain ⟨a1, a2⟩ := h1
  obtain ⟨b1, b2⟩ := h2
  have e1 : (∑ i ∈ Finset.range 28, (-1 : ℝ) ^ i * ((5⁻¹ : ℝ) ^ (2 * i + 1) / ((2 * i + 1 : Nat) : ℝ))) = ((∑ i ∈ Finset.range 28, (-1 : ℚ) ^ i * ((5⁻¹ : ℚ) ^ (2 * i + 1) / ((2 * i + 1 : Nat) : ℚ)) : ℚ) : ℝ) := by push_cast; rfl
  have e2 : (∑ i ∈ Finset.range 9, (-1 : ℝ) ^ i * ((239⁻¹ : ℝ) ^ (2 * i + 1) / ((2 * i + 1 : Nat) : ℝ))) = ((∑ i ∈ Finset.range 9, (-1 : ℚ) ^ i * ((239⁻¹ : ℚ) ^ (2 * i + 1) / ((2 * i + 1 : Nat) : ℚ)) : ℚ) : ℝ) := by push_cast; rfl
  rw [e1] at a1 a2
  rw [e2] at b1 b2
  simp only [Finset.sum_range_succ, Finset.sum_range_zero] at a1 a2 b1 b2
  norm_num at a1 a2 b1 b2
  norm_num at h3
  have ht : (twoPi : ℝ) = 2138057168129933495719360746323741566600 := by norm_num [twoPi]
  rw [ht]
  have hpi : Real.pi = 16 * Real.arctan (1 / 5) - 4 * Real.arctan (1 / 239) := by linarith
  rw [hpi]
  constructor <;> norm_num <;> linarith

/-- The sign of term m of the series of the cosine or the sine. -/
def trigSign (cosine : Bool) (m : Nat) : Int := if m % 2 = (if cosine then 0 else 1) then (if m / 2 % 2 = 0 then 1 else -1) else 0

theorem I_pow_signs (m : Nat) : (Complex.I ^ m).re = trigSign true m ∧ (Complex.I ^ m).im = trigSign false m := by
  obtain ⟨q, r, hr, rfl⟩ : ∃ q r, r < 4 ∧ m = 4 * q + r := ⟨m / 4, m % 4, Nat.mod_lt _ (by norm_num), by omega⟩
  have h1 : Complex.I ^ (4 * q + r) = Complex.I ^ r := by rw [pow_add, pow_mul, Complex.I_pow_four, one_pow, one_mul]
  have h2 : ∀ c, trigSign c (4 * q + r) = trigSign c r := by
    intro c
    unfold trigSign
    have : (4 * q + r) % 2 = r % 2 := by omega
    have : (4 * q + r) / 2 % 2 = r / 2 % 2 := by omega
    simp [*]
  rw [h1, h2, h2]
  interval_cases r <;> simp [trigSign, pow_succ, Complex.I_mul_I]

theorem trig_taylor (x : ℝ) (h0 : 0 ≤ x) (h1 : x ≤ 63 / 10) (c : Bool) :
    |(if c then Real.cos x else Real.sin x) - ∑ m ∈ Finset.range 60, (trigSign c m : ℝ) * (x ^ m / m.factorial)| ≤ 1 / 2 ^ 100 := by
  have hn : ‖(x : ℂ) * Complex.I‖ = x := by simp [abs_of_nonneg h0]
  have hb := Complex.exp_bound' (x := (x : ℂ) * Complex.I) (n := 60) (by rw [hn]; push_cast; linarith)
  rw [hn] at hb
  have hsum : ∀ m : Nat, ((x : ℂ) * Complex.I) ^ m / m.factorial = ((x ^ m / m.factorial : ℝ) : ℂ) * Complex.I ^ m := by
    intro m; rw [mul_pow]; push_cast; ring
  have hsmall : x ^ 60 / (Nat.factorial 60 : ℝ) * 2 ≤ 1 / 2 ^ 100 := by
    calc x ^ 60 / (Nat.factorial 60 : ℝ) * 2 ≤ (63 / 10) ^ 60 / (Nat.factorial 60 : ℝ) * 2 := by gcongr
      _ ≤ 1 / 2 ^ 100 := by norm_num [Nat.factorial]
  have hb' := hb.trans hsmall
  cases c
  · have him := (Complex.abs_im_le_norm _).trans hb'
    rw [Complex.sub_im, Complex.exp_ofReal_mul_I_im, Complex.im_sum] at him
    simp only [hsum, Complex.im_ofReal_mul, (I_pow_signs _).2] at him
    simp only [Bool.false_eq_true, if_false]
    simpa only [mul_comm] using him
  · have hre := (Complex.abs_re_le_norm _).trans hb'
    rw [Complex.sub_re, Complex.exp_ofReal_mul_I_re, Complex.re_sum] at hre
    simp only [hsum, Complex.re_ofReal_mul, (I_pow_signs _).1] at hre
    simp only [if_true]
    simpa only [mul_comm] using hre

/-- The bound on the error of term n in fixed point. -/
def termErr (n : Nat) : ℝ :=
  match n with
  | 0 => 0
  | 1 => 2
  | 2 => 8
  | 3 => 20
  | 4 => 34
  | 5 => 46
  | _ => 64

theorem termErr_nonneg (n : Nat) : 0 ≤ termErr n := by unfold termErr; split <;> norm_num

theorem termErr_le (n : Nat) : termErr n ≤ 64 := by unfold termErr; split <;> norm_num

theorem termErr_step (n : Nat) (θ : ℝ) (h1 : θ ≤ 63 / 10) : (termErr n * θ + 1) / (n + 1) + 1 ≤ termErr (n + 1) := by
  have key : ∀ a : ℝ, 0 ≤ a → (a * θ + 1) / ((n : ℝ) + 1) + 1 ≤ (a * (63 / 10) + 1) / (n + 1) + 1 := by
    intro a ha
    have : a * θ ≤ a * (63 / 10) := mul_le_mul_of_nonneg_left h1 ha
    gcongr
  refine (key _ (termErr_nonneg n)).trans ?_
  rcases Nat.lt_or_ge n 6 with h | h
  · interval_cases n <;> norm_num [termErr]
  · obtain ⟨k, rfl⟩ := Nat.exists_eq_add_of_le h
    have e1 : termErr (6 + k) = 64 := by rw [add_comm]; rfl
    have e2 : termErr (6 + k + 1) = 64 := by rw [show 6 + k + 1 = k + 1 + 6 by ring]; rfl
    rw [e1, e2]
    have : (0 : ℝ) ≤ k := by positivity
    push_cast
    have h5 : (64 * (63 / 10) + 1) / (6 + (k : ℝ) + 1) ≤ (64 * (63 / 10) + 1) / 7 := by
      apply div_le_div_of_nonneg_left <;> [norm_num; norm_num; linarith]
    linarith

/-- Term n of the series for the angle θ, scaled to fixed point. -/
noncomputable def termOf (θ : ℝ) (n : Nat) : ℝ := θ ^ n / n.factorial * 2 ^ trigBits

theorem term_step (x t : Int) (n : Nat) (θ : ℝ) (hx : (x : ℝ) = θ * 2 ^ trigBits) (h0 : 0 ≤ θ) (h1 : θ ≤ 63 / 10)
    (ht : |(t : ℝ) - termOf θ n| ≤ termErr n) :
    |((t * x / 2 ^ trigBits / ((n : Int) + 1) : Int) : ℝ) - termOf θ (n + 1)| ≤ termErr (n + 1) := by
  have hP : (0 : Int) < 2 ^ trigBits := by positivity
  have hPr : (0 : ℝ) < 2 ^ trigBits := by positivity
  have hN : (0 : Int) < (n : Int) + 1 := by omega
  have hNr : (0 : ℝ) < (n : ℝ) + 1 := by positivity
  obtain ⟨a, ha⟩ : ∃ a, a = t * x / 2 ^ trigBits := ⟨_, rfl⟩
  obtain ⟨b, hb⟩ : ∃ b, b = a / ((n : Int) + 1) := ⟨_, rfl⟩
  rw [← ha, ← hb]
  have a1 : (a : ℝ) * 2 ^ trigBits ≤ t * x := by have := Int.ediv_mul_le (t * x) hP.ne'; rw [← ha] at this; exact_mod_cast this
  have a2 : (t : ℝ) * x < (a + 1) * 2 ^ trigBits := by
    have := Int.lt_ediv_add_one_mul_self (t * x) hP; rw [← ha] at this; exact_mod_cast this
  have b1 : (b : ℝ) * (n + 1) ≤ a := by have := Int.ediv_mul_le a hN.ne'; rw [← hb] at this; exact_mod_cast this
  have b2 : (a : ℝ) < (b + 1) * (n + 1) := by
    have := Int.lt_ediv_add_one_mul_self a hN; rw [← hb] at this; exact_mod_cast this
  rw [hx, ← mul_assoc] at a1 a2
  have a1' : (a : ℝ) ≤ t * θ := le_of_mul_le_mul_right a1 hPr
  have a2' : (t : ℝ) * θ < a + 1 := lt_of_mul_lt_mul_right a2 hPr.le
  have hT : termOf θ (n + 1) * (n + 1) = termOf θ n * θ := by
    unfold termOf
    rw [Nat.factorial_succ, pow_succ]; push_cast
    have : (n.factorial : ℝ) ≠ 0 := by positivity
    field_simp
  have hs := termErr_step n θ h1
  have e := abs_le.1 ht
  have e1 : (t : ℝ) * θ ≤ termOf θ n * θ + termErr n * θ := by have := mul_le_mul_of_nonneg_right e.2 h0; linarith
  have e2 : termOf θ n * θ - termErr n * θ ≤ (t : ℝ) * θ := by have := mul_le_mul_of_nonneg_right e.1 h0; linarith
  have hd : (termErr n * θ + 1) / (n + 1) * (n + 1) = termErr n * θ + 1 := div_mul_cancel₀ _ hNr.ne'
  have hup : (b : ℝ) - termOf θ (n + 1) ≤ (termErr n * θ + 1) / (n + 1) := by
    refine le_of_mul_le_mul_right ?_ hNr
    rw [sub_mul, hT, hd]; linarith
  have hlo : -((termErr n * θ + 1) / (n + 1) + 1) ≤ (b : ℝ) - termOf θ (n + 1) := by
    refine le_of_mul_le_mul_right ?_ hNr
    rw [sub_mul, hT, neg_mul, add_mul, hd]
    have : ((b : ℝ) + 1) * (n + 1) = b * (n + 1) + (n + 1) := by ring
    linarith
  have hnn : 0 ≤ (termErr n * θ + 1) / ((n : ℝ) + 1) := by have := termErr_nonneg n; positivity
  rw [abs_le]; constructor <;> linarith

theorem series_fold (c : Bool) (x : Int) (θ : ℝ) (hx : (x : ℝ) = θ * 2 ^ trigBits) (h0 : 0 ≤ θ) (h1 : θ ≤ 63 / 10) :
    ∀ k n (t acc : Int), |(t : ℝ) - termOf θ n| ≤ termErr n →
      |((((powers x k n t).zipIdx n).foldl (fun acc e =>
          if e.2 % 2 = (if c then 0 else 1) then (if e.2 / 2 % 2 = 0 then acc + e.1 else acc - e.1) else acc) acc : Int) : ℝ) -
        (acc + ∑ i ∈ Finset.range k, (trigSign c (n + i) : ℝ) * termOf θ (n + i))| ≤ 64 * k := by
  intro k
  induction k with
  | zero => intro n t acc _; simp [powers]
  | succ k ih =>
    intro n t acc ht
    rw [powers, List.zipIdx_cons, List.foldl_cons]
    have hstep : (if n % 2 = (if c then 0 else 1) then (if n / 2 % 2 = 0 then acc + t else acc - t) else acc) = acc + trigSign c n * t := by
      unfold trigSign
      split_ifs <;> ring
    simp only [hstep]
    have := ih (n + 1) _ (acc + trigSign c n * t) (term_step x t n θ hx h0 h1 ht)
    rw [Finset.sum_range_succ' _ k]
    have hidx : ∑ i ∈ Finset.range k, (trigSign c (n + (i + 1)) : ℝ) * termOf θ (n + (i + 1)) =
        ∑ i ∈ Finset.range k, (trigSign c (n + 1 + i) : ℝ) * termOf θ (n + 1 + i) :=
      Finset.sum_congr rfl fun i _ => by rw [show n + (i + 1) = n + 1 + i by ring]
    rw [hidx, add_zero]
    obtain ⟨S, hS⟩ : ∃ S, S = ∑ i ∈ Finset.range k, (trigSign c (n + 1 + i) : ℝ) * termOf θ (n + 1 + i) := ⟨_, rfl⟩
    rw [← hS] at this ⊢
    have hsg : |(trigSign c n : ℝ) * t - trigSign c n * termOf θ n| ≤ 64 := by
      rw [← mul_sub, abs_mul]
      have h5 : |(trigSign c n : ℝ)| ≤ 1 := by unfold trigSign; split_ifs <;> simp
      calc |(trigSign c n : ℝ)| * |(t : ℝ) - termOf θ n| ≤ 1 * 64 := mul_le_mul h5 (ht.trans (termErr_le n)) (abs_nonneg _) (by norm_num)
        _ = 64 := by norm_num
    push_cast at this ⊢
    rw [abs_le] at this hsg ⊢
    constructor <;> linarith [this.1, this.2, hsg.1, hsg.2]

theorem trigSeries_spec (c : Bool) (x : Int) (hx : 0 ≤ x) (h1 : (x : ℝ) ≤ 63 / 10 * 2 ^ trigBits) :
    |(trigSeries c x : ℝ) / 2 ^ trigBits - (if c then Real.cos (x / 2 ^ trigBits) else Real.sin (x / 2 ^ trigBits))| ≤ 1 / 2 ^ 83 := by
  have hPr : (0 : ℝ) < 2 ^ trigBits := by positivity
  obtain ⟨θ, hθ⟩ : ∃ θ : ℝ, θ = x / 2 ^ trigBits := ⟨_, rfl⟩
  have hx0 : (0 : ℝ) ≤ x := by exact_mod_cast hx
  have hθ0 : 0 ≤ θ := by rw [hθ]; positivity
  have hθ1 : θ ≤ 63 / 10 := by rw [hθ, div_le_iff₀ hPr]; exact h1
  have hxθ : (x : ℝ) = θ * 2 ^ trigBits := by rw [hθ]; field_simp
  have h := series_fold c x θ hxθ hθ0 hθ1 60 0 (2 ^ trigBits) 0 (by simp [termOf, termErr])
  have ht := trig_taylor θ hθ0 hθ1 c
  rw [← hθ]
  have hdef : ((powers x 60 0 (2 ^ trigBits)).zipIdx 0).foldl (fun acc e =>
      if e.2 % 2 = (if c then 0 else 1) then (if e.2 / 2 % 2 = 0 then acc + e.1 else acc - e.1) else acc) 0 = trigSeries c x := by
    cases c <;> rfl
  rw [hdef] at h
  have hs : ∑ i ∈ Finset.range 60, (trigSign c (0 + i) : ℝ) * termOf θ (0 + i) = (∑ m ∈ Finset.range 60, (trigSign c m : ℝ) * (θ ^ m / m.factorial)) * 2 ^ trigBits := by
    rw [Finset.sum_mul]
    refine Finset.sum_congr rfl fun m _ => ?_
    rw [zero_add, termOf]; ring
  rw [hs] at h
  obtain ⟨S, hS⟩ : ∃ S, S = ∑ m ∈ Finset.range 60, (trigSign c m : ℝ) * (θ ^ m / m.factorial) := ⟨_, rfl⟩
  rw [← hS] at h ht
  have h' : |(trigSeries c x : ℝ) / 2 ^ trigBits - S| ≤ 1 / 2 ^ 84 := by
    have h5 : (trigSeries c x : ℝ) / 2 ^ trigBits - S = (trigSeries c x - S * 2 ^ trigBits) / 2 ^ trigBits := by field_simp
    rw [h5, abs_div, abs_of_pos hPr, div_le_iff₀ hPr]
    push_cast at h
    rw [zero_add] at h
    refine h.trans ?_
    unfold trigBits; norm_num
  have := abs_sub_le ((trigSeries c x : ℝ) / 2 ^ trigBits) S (if c then Real.cos θ else Real.sin θ)
  rw [abs_sub_comm] at ht
  have hn : (1 : ℝ) / 2 ^ 84 + 1 / 2 ^ 100 ≤ 1 / 2 ^ 83 := by norm_num
  linarith

theorem twoPi_bounds : (6 : Int) * 2 ^ 128 ≤ twoPi ∧ (twoPi : ℝ) ≤ 63 / 10 * 2 ^ 128 := by
  constructor
  · unfold twoPi; norm_num
  · unfold twoPi; norm_num

theorem approxTrig_bound (c : Bool) (cand : Lane) (x : Bool) (m : Nat) (e : Int) (hm : m ≠ 0) :
    let a := (FVal.fin x m e).real
    (|a| ≤ 2 ^ 20 → Near (approxTrig c cand (.fin x m e)) (if c then Real.cos a else Real.sin a) (1 / 2 ^ 21)) ∧
    (2 ^ 20 < |a| → Near (approxTrig c cand (.fin x m e)) 0 1) := by
  intro a
  obtain ⟨X, hX⟩ : ∃ X, X = (FVal.fin x m e).dy := ⟨_, rfl⟩
  have ha : a = X.real := by rw [hX]; rfl
  have hXe : X.e = e := by rw [hX]; rfl
  clear_value a
  have h20 : (⟨1, 20⟩ : Dy).real = 2 ^ 20 := by simp only [Dy.real]; norm_num
  simp only [approxTrig, hm, if_false, ← hX, Dy.le_real, Dy.real_abs, h20, ← ha]
  refine ⟨fun hle => ?_, fun hgt => ?_⟩
  · rw [if_pos hle]
    obtain ⟨f1, f2, -⟩ := fix_floor X trigBits
    obtain ⟨T, hT⟩ : ∃ T : Int, T = if 0 ≤ X.e + (trigBits : Nat) then X.m * 2 ^ Int.toNat (X.e + (trigBits : Nat)) else X.m / 2 ^ Int.toNat (-(X.e + (trigBits : Nat))) := ⟨_, rfl⟩
    rw [← hT, ← ha] at f1 f2
    rw [hXe] at hT
    rw [← hT]
    have hP : (0 : ℝ) < 2 ^ trigBits := by positivity
    have hpos : (0 : Int) < (twoPi : Int) := by unfold twoPi; norm_num
    obtain ⟨k, hk⟩ : ∃ k : Int, k = T * 2 ^ 32 / (twoPi : Int) := ⟨_, rfl⟩
    obtain ⟨ρ, hρ⟩ : ∃ ρ : Int, ρ = T * 2 ^ 32 % (twoPi : Int) := ⟨_, rfl⟩
    obtain ⟨r, hr⟩ : ∃ r : Int, r = ρ / 2 ^ 32 := ⟨_, rfl⟩
    rw [← hρ, ← hr]
    have hdm : T * 2 ^ 32 = k * twoPi + ρ := by
      rw [hk, hρ]; exact (Int.ediv_mul_add_emod _ _).symm
    have hρ0 : 0 ≤ ρ := by rw [hρ]; exact Int.emod_nonneg _ hpos.ne'
    have hρ1 : ρ < twoPi := by rw [hρ]; exact Int.emod_lt_of_pos _ hpos
    have r1 : r * 2 ^ 32 ≤ ρ := by rw [hr]; exact Int.ediv_mul_le _ (by norm_num)
    have r2 : ρ < (r + 1) * 2 ^ 32 := by rw [hr]; exact Int.lt_ediv_add_one_mul_self _ (by norm_num)
    have r0 : 0 ≤ r := by rw [hr]; exact Int.ediv_nonneg hρ0 (by norm_num)
    obtain ⟨tp1, tp2⟩ := twoPi_bounds
    have hdmr : (T : ℝ) * 2 ^ 32 = k * twoPi + ρ := by exact_mod_cast hdm
    have r1r : (r : ℝ) * 2 ^ 32 ≤ ρ := by exact_mod_cast r1
    have r2r : (ρ : ℝ) < (r + 1) * 2 ^ 32 := by exact_mod_cast r2
    have hρ1r : (ρ : ℝ) < twoPi := by exact_mod_cast hρ1
    have hρ0r : (0 : ℝ) ≤ ρ := by exact_mod_cast hρ0
    have tp1r : (6 : ℝ) * 2 ^ 128 ≤ twoPi := by exact_mod_cast tp1
    have hsplit : (2 : ℝ) ^ 128 = 2 ^ trigBits * 2 ^ 32 := by unfold trigBits; norm_num
    -- the angle that the series gets
    obtain ⟨θ, hθ⟩ : ∃ θ : ℝ, θ = r / 2 ^ trigBits := ⟨_, rfl⟩
    have hrle : (r : ℝ) ≤ 63 / 10 * 2 ^ trigBits := by
      have : (r : ℝ) * 2 ^ 32 ≤ 63 / 10 * 2 ^ trigBits * 2 ^ 32 := by
        rw [mul_assoc (63 / 10 : ℝ), ← hsplit]; linarith
      exact le_of_mul_le_mul_right this (by norm_num)
    have hser := trigSeries_spec c r r0 hrle
    rw [← hθ] at hser
    -- how many turns are taken off
    have hkb : |(k : ℝ)| ≤ 2 ^ 20 := by
      rw [abs_le] at hle
      have hT1 : (T : ℝ) ≤ 2 ^ 20 * 2 ^ trigBits := f1.trans (mul_le_mul_of_nonneg_right hle.2 hP.le)
      have hT2 : -(2 ^ 20 * 2 ^ trigBits) - 1 ≤ (T : ℝ) := by
        have := mul_le_mul_of_nonneg_right hle.1 hP.le
        linarith
      have htp : (0 : ℝ) < twoPi := by exact_mod_cast hpos
      have h32 : (2 : ℝ) ^ 20 * 2 ^ trigBits * 2 ^ 32 = 2 ^ 20 * 2 ^ 128 := by rw [hsplit]; ring
      have hk1 : (k : ℝ) * twoPi ≤ 2 ^ 20 * 2 ^ 128 := by
        have := mul_le_mul_of_nonneg_right hT1 (show (0 : ℝ) ≤ 2 ^ 32 by norm_num)
        linarith
      have hk2 : -(2 ^ 20 * 2 ^ 128) - 2 ^ 32 - twoPi ≤ (k : ℝ) * twoPi := by
        have := mul_le_mul_of_nonneg_right hT2 (show (0 : ℝ) ≤ 2 ^ 32 by norm_num)
        linarith
      have hc : (2 : ℝ) ^ 20 * (6 * 2 ^ 128) ≤ 2 ^ 20 * twoPi := mul_le_mul_of_nonneg_left tp1r (by norm_num)
      have hn1 : (2 : ℝ) ^ 20 * 2 ^ 128 ≤ 2 ^ 20 * (6 * 2 ^ 128) := by norm_num
      have hn2 : (2 : ℝ) ^ 20 * 2 ^ 128 + 2 ^ 32 + 63 / 10 * 2 ^ 128 ≤ 2 ^ 20 * (6 * 2 ^ 128) := by norm_num
      rw [abs_le]
      constructor
      · refine le_of_mul_le_mul_right ?_ htp
        rw [neg_mul]; linarith
      · exact le_of_mul_le_mul_right (hk1.trans (hn1.trans hc)) htp
    have hang : |(a - k * (2 * Real.pi)) - θ| ≤ 1 / 2 ^ 90 := by
      have hpi := twoPi_near
      -- scaled by 2^128
      have e1 : ((a - k * (2 * Real.pi)) - θ) * 2 ^ 128 =
          (a * 2 ^ trigBits - T) * 2 ^ 32 - k * (2 * Real.pi * 2 ^ 128 - twoPi) + (ρ - r * 2 ^ 32) := by
        rw [hθ, hsplit]
        have : (T : ℝ) * 2 ^ 32 = k * twoPi + ρ := hdmr
        field_simp
        linarith
      have e2 : |((a - k * (2 * Real.pi)) - θ) * 2 ^ 128| ≤ 2 ^ 32 + 2 ^ 20 * 2 + 2 ^ 32 := by
        rw [e1]
        have b1 : |(a * 2 ^ trigBits - T) * 2 ^ 32| ≤ 2 ^ 32 := by
          rw [abs_mul, abs_of_pos (show (0 : ℝ) < 2 ^ 32 by norm_num)]
          have : |a * 2 ^ trigBits - T| ≤ 1 := by rw [abs_le]; constructor <;> linarith
          linarith
        have b2 : |(k : ℝ) * (2 * Real.pi * 2 ^ 128 - twoPi)| ≤ 2 ^ 20 * 2 := by
          rw [abs_mul]; exact mul_le_mul hkb hpi (abs_nonneg _) (by norm_num)
        have b3 : |(ρ : ℝ) - r * 2 ^ 32| ≤ 2 ^ 32 := by rw [abs_le]; constructor <;> linarith
        have := abs_add_le ((a * 2 ^ trigBits - T) * 2 ^ 32 - k * (2 * Real.pi * 2 ^ 128 - twoPi)) ((ρ : ℝ) - r * 2 ^ 32)
        have := abs_sub ((a * 2 ^ trigBits - T) * 2 ^ 32) (k * (2 * Real.pi * 2 ^ 128 - twoPi))
        linarith
      rw [abs_mul, abs_of_pos (show (0 : ℝ) < 2 ^ 128 by norm_num)] at e2
      refine le_of_mul_le_mul_right (e2.trans ?_) (show (0 : ℝ) < 2 ^ 128 by norm_num)
      norm_num
    have hred : (if c then Real.cos a else Real.sin a) = if c then Real.cos (a - k * (2 * Real.pi)) else Real.sin (a - k * (2 * Real.pi)) := by
      rw [Real.cos_sub_int_mul_two_pi, Real.sin_sub_int_mul_two_pi]
    have hlip : |(if c then Real.cos θ else Real.sin θ) - (if c then Real.cos a else Real.sin a)| ≤ 1 / 2 ^ 90 := by
      rw [hred]
      rw [abs_sub_comm] at hang
      cases c
      · exact (Real.abs_sin_sub_sin_le _ _).trans hang
      · exact (Real.abs_cos_sub_cos_le _ _).trans hang
    obtain ⟨v, hv⟩ : ∃ v, v = (if c then Real.cos a else Real.sin a) := ⟨_, rfl⟩
    rw [← hv] at hlip ⊢
    have hv1 : |v| ≤ 1 := by rw [hv]; cases c <;> simp [Real.abs_sin_le_one, Real.abs_cos_le_one]
    obtain ⟨y, hy⟩ : ∃ y : Dy, y = ⟨trigSeries c r, -(trigBits : Int)⟩ := ⟨_, rfl⟩
    rw [← hy]
    have hyr : y.real = (trigSeries c r : ℝ) / 2 ^ trigBits := by
      rw [hy]; simp only [Dy.real]; rw [zpow_neg, zpow_natCast]; rfl
    rw [← hyr] at hser
    have henc : |y.real - v| ≤ 1 / 2 ^ 80 := by
      have := abs_sub_le y.real (if c then Real.cos θ else Real.sin θ) v
      have hn : (1 : ℝ) / 2 ^ 83 + 1 / 2 ^ 90 ≤ 1 / 2 ^ 80 := by norm_num
      linarith
    rcases chooseApprox_cases cand _ _ with ⟨hc, w, hw, hok⟩ | hc <;> rw [hc]
    · refine near_candidate hw ?_
      rw [Dy.within_real, Dy.less, Dy.real_add, Dy.real_neg] at hok
      have g1 : (⟨1, -21⟩ : Dy).real = 1 / 2 ^ 21 := by simp only [Dy.real]; norm_num
      have g2 : (⟨1, -80⟩ : Dy).real = 1 / 2 ^ 80 := by simp only [Dy.real]; norm_num
      rw [g1, g2] at hok
      have := abs_sub_le w.real y.real v
      linarith
    · by_cases hy0 : y.real = 0
      · have hcode : fp32.ofDy .rne false y = 0 := by
          rw [FloatFmt.ofDy, if_pos ((Dy.real_eq_zero y).1 hy0)]; rfl
        have hz0 : fp32.val 0 = .fin false 0 (1 - 127 - 23) := by decide
        rw [hcode]
        unfold Near
        rw [hz0]
        rw [hy0] at henc
        have : (FVal.fin false 0 (1 - 127 - 23)).real = 0 := by rw [FVal.real_fin]; simp
        simp only [this]
        refine henc.trans ?_; norm_num
      · have hb : |y.real| < 2 := by
          have h6 := abs_sub_abs_le_abs_sub y.real v
          have hn : (1 : ℝ) + 1 / 2 ^ 80 < 2 := by norm_num
          linarith
        have hnear := rounded_near hy0 (hb.trans (by norm_num)) (fp32.ofDy_roundedTo (by decide) .rne false y)
        have hu : ulp32 y.real ≤ 1 / 2 ^ 23 := by
          unfold ulp32
          have h7 : Int.log 2 |y.real| < 1 := (Int.lt_zpow_iff_log_lt (b := 2) (by norm_num) (abs_pos.2 hy0)).1 (by simpa using hb)
          have h8 : (2 : ℝ) ^ (max (Int.log 2 |y.real|) (-126) - 23) ≤ 2 ^ (-23 : Int) := zpow_le_zpow_right₀ (by norm_num) (by omega)
          refine h8.trans ?_; norm_num
        refine hnear.shift henc ?_
        have hn : (1 : ℝ) / 2 ^ 23 + 1 / 2 ^ 80 ≤ 1 / 2 ^ 21 := by norm_num
        linarith
  · rw [if_neg (not_le.2 hgt)]
    rcases chooseApprox_cases cand _ _ with ⟨hc, w, hw, hok⟩ | hc <;> rw [hc]
    · refine near_candidate hw ?_
      rw [Dy.le_real, Dy.real_abs] at hok
      have g1 : (⟨1, 0⟩ : Dy).real = 1 := by simp [Dy.real]
      rw [g1] at hok
      simpa using hok
    · have hz0 : fp32.val 0 = .fin false 0 (1 - 127 - 23) := by decide
      unfold Near
      rw [hz0]
      have : (FVal.fin false 0 (1 - 127 - 23)).real = 0 := by rw [FVal.real_fin]; simp
      simp only [this]
      norm_num

/-! ## Operands that are FP32 codes -/

theorem fp32_fin {code : Nat} {x : Bool} {m : Nat} {e : Int} (h : fp32.val code = .fin x m e) : m < 2 ^ 24 ∧ -149 ≤ e ∧ e ≤ 104 := by
  unfold FloatFmt.val at h
  have h1 : fp32.eb = 8 ∧ fp32.fb = 23 ∧ fp32.bias = 127 ∧ fp32.maxCode = 0x7F7FFFFF := by decide
  simp only [h1] at h
  split at h
  · next hc =>
    split at h
    · cases h
      exact ⟨by have := Nat.mod_lt (code % 2 ^ (8 + 23)) (show 0 < 2 ^ 23 by norm_num); omega, by norm_num, by norm_num⟩
    · next h0 =>
      cases h
      exact ⟨by have := Nat.mod_lt (code % 2 ^ (8 + 23)) (show 0 < 2 ^ 23 by norm_num); omega, by omega, by omega⟩
  · split at h <;> cases h

theorem approxRsq_code (free : Lane) {code m : Nat} {e : Int} (h : fp32.val code = .fin false m e) (hm : m ≠ 0) :
    let t := 1 / Real.sqrt (FVal.fin false m e).real
    Near (approxRsq free (.fin false m e)) t (2 * ulp32 t) := by
  obtain ⟨h1, h2, -⟩ := fp32_fin h
  refine approxRsq_bound free m e hm (lt_trans h1 (by norm_num)) ?_
  have hm1 : (1 : ℝ) ≤ m := by exact_mod_cast Nat.one_le_iff_ne_zero.2 hm
  calc (2 : ℝ) ^ (-200 : Int) ≤ 2 ^ e := zpow_le_zpow_right₀ (by norm_num) (by omega)
    _ = 1 * 2 ^ e := (one_mul _).symm
    _ ≤ m * 2 ^ e := mul_le_mul_of_nonneg_right hm1 (two_zpow_pos e).le

theorem approxLg2_code (free : Lane) {code m : Nat} {e : Int} (h : fp32.val code = .fin false m e) (hm : m ≠ 0)
    (ha : (FVal.fin false m e).real ≠ 1) :
    let a := (FVal.fin false m e).real
    let t := Real.logb 2 a
    Near (approxLg2 free (.fin false m e)) t (max (2 * ulp32 t) (if 1 / 2 ≤ a ∧ a ≤ 2 then 1 / 2 ^ 22 else 0)) := by
  obtain ⟨h1, h2, h3⟩ := fp32_fin h
  refine approxLg2_bound free m e hm h1 (by omega) (by omega) ?_
  rintro ⟨hp, hl⟩
  refine ha ?_
  have := (mantissa_mem hm e).2.2.2 hp
  rw [FVal.real_fin]
  simp only [Bool.false_eq_true, if_false]
  rw [this, hl, zpow_zero]

end Sys2Proof.Machine
end

