-- ==== Sys2Proof/Laws/Scalar.lean ====
section
/-! SUPPORT. The scalar tables: what the meanings compute in 64 bits is what R388 to R397 give in w bits. -/

namespace Sys2Proof.Machine

theorem low_eq_setWidth {n : Nat} (x : BitVec n) (m : Nat) : x.extractLsb' 0 m = x.setWidth m := by
  apply BitVec.eq_of_toNat_eq
  simp [BitVec.extractLsb'_toNat]

theorem low_zext (x : BitVec 32) : (x.setWidth 64).setWidth 32 = x := by
  apply BitVec.eq_of_toNat_eq
  simp

/-- R389 for an operation whose result in the narrow types depends on the low halves alone. -/
theorem extend_scalarOf {ty : Ty} (ht : ty.scalar = true) (F : Word → Word → Word)
    (f : (w : Nat) → BitVec w → BitVec w → BitVec w)
    (h64 : ty.is64 = true → ∀ a b, F a b = f 64 a b)
    (h32 : ty.is64 = false → ∀ a b : BitVec 32, (F (a.setWidth 64) (b.setWidth 64)).setWidth 32 = f 32 a b) (a b : Word) :
    extend ty (F (narrow ty a) (narrow ty b)) = scalarOf ty f a b := by
  cases ty <;> simp [Ty.scalar, Ty.int32or64] at ht <;>
    first
    | exact h64 rfl a b
    | (simp only [extend, narrow, scalarOf, Ty.is64, low_eq_setWidth, BitVec.zeroExtend, Bool.false_eq_true, if_false, if_true,
         reduceCtorEq]
       rw [h32 rfl])

theorem ofInt_setWidth (z : Int) : (BitVec.ofInt 64 z).setWidth 32 = BitVec.ofInt 32 z := by
  apply BitVec.eq_of_toNat_eq
  simp only [BitVec.toNat_setWidth, BitVec.toNat_ofInt]
  omega

theorem zext_toNat (a : BitVec 32) : (a.setWidth 64).toNat = a.toNat := by
  have := a.isLt
  rw [BitVec.toNat_setWidth, Nat.mod_eq_of_lt (by omega)]

/-- The number that a type gives a value already narrowed to it. -/
theorem tyInt_zext {ty : Ty} (h : ty.is64 = false) (a : BitVec 32) :
    tyInt ty (a.setWidth 64) = if tySigned ty then a.toInt else (a.toNat : Int) := by
  simp [tyInt, h, low_eq_setWidth]

theorem tyInt_wide {ty : Ty} (h : ty.is64 = true) (a : Word) :
    tyInt ty a = if tySigned ty then a.toInt else (a.toNat : Int) := by simp [tyInt, h]

theorem tySigned_scalar {ty : Ty} (h : ty.scalar = true) : tySigned ty = intSigned ty := by
  cases ty <;> simp [Ty.scalar, Ty.int32or64] at h <;> rfl

/-- The high half of an exact product, in any width. -/
theorem mulHigh_width (sg : Bool) (w : Nat) (a b : BitVec w) :
    BitVec.ofInt w ((if sg then a.toInt else (a.toNat : Int)) * (if sg then b.toInt else (b.toNat : Int)) / 2 ^ w) =
      mulHighOf sg w a b := by
  have key : ∀ z : Int, BitVec.ofInt w (z / 2 ^ w) = (BitVec.ofInt (2 * w) z).extractLsb' w w := by
    intro z
    apply BitVec.eq_of_toNat_eq
    simp only [BitVec.extractLsb'_toNat, BitVec.toNat_ofInt, Nat.shiftRight_eq_div_pow]
    have h2 : (2 : Int) ^ (2 * w) = 2 ^ w * 2 ^ w := by rw [two_mul, pow_add]
    have hp : (0 : Int) < 2 ^ w := by positivity
    zify
    rw [Int.toNat_of_nonneg (Int.emod_nonneg _ (by positivity)), Int.toNat_of_nonneg (Int.emod_nonneg _ (by positivity))]
    rw [Int.emod_def z, h2, show z - 2 ^ w * 2 ^ w * (z / (2 ^ w * 2 ^ w)) = z + 2 ^ w * (-(2 ^ w * (z / (2 ^ w * 2 ^ w)))) by ring,
      Int.add_mul_ediv_left _ _ (ne_of_gt hp)]
    rw [show z / 2 ^ w + -(2 ^ w * (z / (2 ^ w * 2 ^ w))) = z / 2 ^ w + 2 ^ w * (-(z / (2 ^ w * 2 ^ w))) by ring,
      Int.add_mul_emod_self_left]
  cases sg
  · simp only [mulHighOf, Bool.false_eq_true, if_false, key]
    congr 1
    apply BitVec.eq_of_toNat_eq
    simp only [BitVec.toNat_mul, BitVec.toNat_setWidth, BitVec.toNat_ofInt]
    have : (2 : Nat) ^ w ≤ 2 ^ (2 * w) := Nat.pow_le_pow_right (by omega) (by omega)
    rw [Nat.mod_eq_of_lt (lt_of_lt_of_le a.isLt this), Nat.mod_eq_of_lt (lt_of_lt_of_le b.isLt this)]
    zify
    rw [Int.toNat_of_nonneg (Int.emod_nonneg _ (by positivity))]
  · simp only [mulHighOf, if_true, key]
    congr 1
    apply BitVec.eq_of_toInt_eq
    rw [BitVec.toInt_mul, BitVec.toInt_ofInt, BitVec.toInt_signExtend_of_le (by omega), BitVec.toInt_signExtend_of_le (by omega)]

theorem ofInt_neg_one (w : Nat) : BitVec.ofInt w (-1) = BitVec.allOnes w := by
  rw [BitVec.ofInt_neg, ← BitVec.neg_one_eq_allOnes]
  rfl

/-- Division in any width (R397). -/
theorem div_width (sg : Bool) (w : Nat) (a b : BitVec w) :
    (if (if sg then b.toInt else (b.toNat : Int)) = 0 then BitVec.ofInt w (-1)
      else BitVec.ofInt w ((if sg then a.toInt else (a.toNat : Int)).tdiv (if sg then b.toInt else (b.toNat : Int)))) =
      divOf sg w a b := by
  have hz : (if sg then b.toInt else (b.toNat : Int)) = 0 ↔ b = 0 := by
    cases sg
    · simp [BitVec.toNat_eq]
    · simp [← BitVec.toInt_inj]
  unfold divOf
  by_cases hb : b = 0
  · rw [if_pos (hz.2 hb), if_pos hb, ofInt_neg_one]
  · rw [if_neg (mt hz.1 hb), if_neg hb]
    cases sg
    · apply BitVec.eq_of_toNat_eq
      simp only [Bool.false_eq_true, if_false, ← Int.ofNat_tdiv, BitVec.ofInt_natCast, BitVec.toNat_ofNat, BitVec.toNat_udiv]
      exact Nat.mod_eq_of_lt (lt_of_le_of_lt (Nat.div_le_self _ _) a.isLt)
    · apply BitVec.eq_of_toInt_eq
      simp only [if_true, BitVec.toInt_ofInt, BitVec.toInt_sdiv]

/-- The remainder in any width (R397). -/
theorem rem_width (sg : Bool) (w : Nat) (a b : BitVec w) :
    (if (if sg then b.toInt else (b.toNat : Int)) = 0 then a
      else BitVec.ofInt w ((if sg then a.toInt else (a.toNat : Int)).tmod (if sg then b.toInt else (b.toNat : Int)))) =
      remOf sg w a b := by
  have hz : (if sg then b.toInt else (b.toNat : Int)) = 0 ↔ b = 0 := by
    cases sg
    · simp [BitVec.toNat_eq]
    · simp [← BitVec.toInt_inj]
  unfold remOf
  by_cases hb : b = 0
  · rw [if_pos (hz.2 hb), if_pos hb]
  · rw [if_neg (mt hz.1 hb), if_neg hb]
    cases sg
    · apply BitVec.eq_of_toNat_eq
      simp only [Bool.false_eq_true, if_false, ← Int.ofNat_tmod, BitVec.ofInt_natCast, BitVec.toNat_ofNat, BitVec.toNat_umod]
      exact Nat.mod_eq_of_lt (lt_of_le_of_lt (Nat.mod_le _ _) a.isLt)
    · simp only [if_true, ← BitVec.toInt_srem, BitVec.ofInt_toInt]

/-- The arithmetic right shift in any width (R388). -/
theorem sar_width (w : Nat) (a : BitVec w) (n : Nat) :
    BitVec.ofInt w (a.toInt / 2 ^ min n w) =
      if w ≤ n then (if a.msb then BitVec.allOnes w else 0) else a.sshiftRight n := by
  by_cases h : w ≤ n
  · rw [if_pos h, Nat.min_eq_right h]
    have h1 := @BitVec.toInt_lt w a
    have h2 := @BitVec.le_toInt w a
    have hp : (2 : Int) ^ w = 2 ^ (w - 1) * 2 ∨ w = 0 := by
      rcases Nat.eq_zero_or_pos w with h0 | h0
      · exact .inr h0
      · left; rw [← pow_succ]; congr 1; omega
    rcases hp with hp | hp
    · cases hm : a.msb
      · have : 0 ≤ a.toInt := by rw [BitVec.toInt_eq_msb_cond, hm]; simp
        rw [Int.ediv_eq_zero_of_lt this (by omega)]; simp
      · have : a.toInt < 0 := BitVec.toInt_neg_of_msb_true hm
        rw [show a.toInt / 2 ^ w = -1 from Int.ediv_eq_neg_one_of_neg_of_le this (by have : (0 : Int) < 2 ^ (w - 1) := by positivity
                                                                                     omega)]
        simp [ofInt_neg_one]
    · subst hp; exact Subsingleton.elim _ _
  · rw [if_neg h, Nat.min_eq_left (by omega)]
    have e : (a.sshiftRight n).toInt = a.toInt / 2 ^ n := by rw [BitVec.toInt_sshiftRight, Int.shiftRight_eq_div_pow]; simp
    rw [← e, BitVec.ofInt_toInt]

/-! ## The tables -/

section
variable {ty : Ty} (ht : ty.scalar = true) (a b : Word)
include ht

theorem salu_add : extend ty (narrow ty a + narrow ty b) = scalarOf ty (fun _ a b => a + b) a b :=
  extend_scalarOf ht (fun a b => a + b) _ (fun _ _ _ => rfl) (fun _ a b => by rw [BitVec.setWidth_add _ _ (by omega), low_zext, low_zext]) a b

theorem salu_mul : extend ty (narrow ty a * narrow ty b) = scalarOf ty (fun _ a b => a * b) a b :=
  extend_scalarOf ht (fun a b => a * b) _ (fun _ _ _ => rfl) (fun _ a b => by rw [BitVec.setWidth_mul _ _ (by omega), low_zext, low_zext]) a b

theorem salu_sub : extend ty (narrow ty a - narrow ty b) = scalarOf ty (fun _ a b => a - b) a b := by
  refine extend_scalarOf ht (fun a b => a - b) _ (fun _ _ _ => rfl) (fun _ a b => ?_) a b
  apply BitVec.eq_of_toNat_eq
  have := a.isLt
  have := b.isLt
  simp only [BitVec.toNat_setWidth, BitVec.toNat_sub]
  omega

theorem salu_and : extend ty (narrow ty a &&& narrow ty b) = scalarOf ty (fun _ a b => a &&& b) a b :=
  extend_scalarOf ht (fun a b => a &&& b) _ (fun _ _ _ => rfl) (fun _ a b => by rw [BitVec.setWidth_and, low_zext, low_zext]) a b

theorem salu_or : extend ty (narrow ty a ||| narrow ty b) = scalarOf ty (fun _ a b => a ||| b) a b :=
  extend_scalarOf ht (fun a b => a ||| b) _ (fun _ _ _ => rfl) (fun _ a b => by rw [BitVec.setWidth_or, low_zext, low_zext]) a b

theorem salu_xor : extend ty (narrow ty a ^^^ narrow ty b) = scalarOf ty (fun _ a b => a ^^^ b) a b :=
  extend_scalarOf ht (fun a b => a ^^^ b) _ (fun _ _ _ => rfl) (fun _ a b => by rw [BitVec.setWidth_xor, low_zext, low_zext]) a b

theorem salu_mulHigh : extend ty (mulHigh ty (narrow ty a) (narrow ty b)) = scalarOf ty (mulHighOf (intSigned ty)) a b := by
  refine extend_scalarOf ht (mulHigh ty) _ (fun h a b => ?_) (fun h a b => ?_) a b
  · rw [mulHigh, tyInt_wide h, tyInt_wide h, tyWidth, if_pos h, tySigned_scalar ht, mulHigh_width]
  · rw [mulHigh, tyInt_zext h, tyInt_zext h, tyWidth, h, tySigned_scalar ht, ofInt_setWidth]
    exact mulHigh_width _ 32 a b

theorem salu_div : extend ty (divide ty (narrow ty a) (narrow ty b)) = scalarOf ty (divOf (intSigned ty)) a b := by
  refine extend_scalarOf ht (divide ty) _ (fun h a b => ?_) (fun h a b => ?_) a b
  · rw [divide, tyInt_wide h, tyInt_wide h, tySigned_scalar ht, div_width]
  · rw [divide, tyInt_zext h, tyInt_zext h, tySigned_scalar ht, apply_ite (BitVec.setWidth 32), ofInt_setWidth, ofInt_setWidth,
      div_width]

theorem salu_rem : extend ty (remainder ty (narrow ty a) (narrow ty b)) = scalarOf ty (remOf (intSigned ty)) a b := by
  refine extend_scalarOf ht (remainder ty) _ (fun h a b => ?_) (fun h a b => ?_) a b
  · rw [remainder, tyInt_wide h, tyInt_wide h, tySigned_scalar ht, rem_width]
  · rw [remainder, tyInt_zext h, tyInt_zext h, tySigned_scalar ht, apply_ite (BitVec.setWidth 32), ofInt_setWidth, low_zext,
      rem_width]

theorem salu_shl : extend ty (shiftLeft (tyWidth ty) (narrow ty a) (narrow ty b)) = scalarOf ty shlOf a b := by
  refine extend_scalarOf ht (shiftLeft (tyWidth ty)) _ (fun h a b => ?_) (fun h a b => ?_) a b
  · rw [shiftLeft, tyWidth, if_pos h, shlOf]
  · rw [shiftLeft, tyWidth, h, zext_toNat, shlOf]
    simp only [Bool.false_eq_true, if_false]
    split
    · rfl
    · apply BitVec.eq_of_toNat_eq
      simp only [BitVec.toNat_setWidth, BitVec.toNat_shiftLeft, Nat.shiftLeft_eq]
      rw [Nat.mod_mod_of_dvd _ (by decide)]
      congr 2
      exact Nat.mod_eq_of_lt (by have := a.isLt; omega)

theorem salu_shr : extend ty (shiftRight (tyWidth ty) (narrow ty a) (narrow ty b)) = scalarOf ty shrOf a b := by
  refine extend_scalarOf ht (shiftRight (tyWidth ty)) _ (fun h a b => ?_) (fun h a b => ?_) a b
  · rw [shiftRight, tyWidth, if_pos h, shrOf]
  · rw [shiftRight, tyWidth, h, zext_toNat, shrOf]
    simp only [Bool.false_eq_true, if_false]
    split
    · rfl
    · apply BitVec.eq_of_toNat_eq
      simp only [BitVec.toNat_setWidth, BitVec.toNat_ushiftRight, Nat.shiftRight_eq_div_pow]
      have := a.isLt
      rw [Nat.mod_eq_of_lt (a := a.toNat) (by omega)]
      exact Nat.mod_eq_of_lt (lt_of_le_of_lt (Nat.div_le_self _ _) this)

theorem salu_sar : extend ty (shiftArith ty (narrow ty a) (narrow ty b)) = scalarOf ty sarOf a b := by
  refine extend_scalarOf ht (shiftArith ty) _ (fun h a b => ?_) (fun h a b => ?_) a b
  · rw [shiftArith, signedOf, if_pos h, tyWidth, if_pos h, sar_width, sarOf]
  · rw [shiftArith, signedOf, tyWidth, h, zext_toNat, low_eq_setWidth, low_zext, ofInt_setWidth]
    simp only [Bool.false_eq_true, if_false]
    rw [sar_width, sarOf]

theorem tyInt_lt_wide (h : ty.is64 = true) :
    tyInt ty a < tyInt ty b ↔ (if intSigned ty then a.slt b else a.ult b) = true := by
  rw [tyInt_wide h, tyInt_wide h, tySigned_scalar ht]
  cases intSigned ty <;> simp [BitVec.slt_iff_toInt_lt, BitVec.ult_iff_toNat_lt]

omit a b in
theorem tyInt_lt_narrow (h : ty.is64 = false) (a b : BitVec 32) :
    tyInt ty (a.setWidth 64) < tyInt ty (b.setWidth 64) ↔ (if intSigned ty then a.slt b else a.ult b) = true := by
  rw [tyInt_zext h, tyInt_zext h, tySigned_scalar ht]
  cases intSigned ty <;> simp [BitVec.slt_iff_toInt_lt, BitVec.ult_iff_toNat_lt]

theorem salu_min : extend ty (if tyInt ty (narrow ty b) < tyInt ty (narrow ty a) then narrow ty b else narrow ty a) =
    scalarOf ty (minOf (intSigned ty)) a b := by
  refine extend_scalarOf ht (fun a b => if tyInt ty b < tyInt ty a then b else a) _ (fun h a b => ?_) (fun h a b => ?_) a b
  · simp only [tyInt_lt_wide ht b a h, minOf]
  · simp only [tyInt_lt_narrow ht h b a, minOf, apply_ite (BitVec.setWidth 32), low_zext]

theorem salu_max : extend ty (if tyInt ty (narrow ty a) < tyInt ty (narrow ty b) then narrow ty b else narrow ty a) =
    scalarOf ty (maxOf (intSigned ty)) a b := by
  refine extend_scalarOf ht (fun a b => if tyInt ty a < tyInt ty b then b else a) _ (fun h a b => ?_) (fun h a b => ?_) a b
  · simp only [tyInt_lt_wide ht a b h, maxOf]
  · simp only [tyInt_lt_narrow ht h a b, maxOf, apply_ite (BitVec.setWidth 32), low_zext]

end

end Sys2Proof.Machine
end

