-- ==== Sys2Proof/Laws/WellFormed.lean ====
section
/-! SUPPORT. What a list of limits that all hold gives. -/

namespace Sys2Proof

@[simp] theorem firstBad_nil : firstBad [] = none := rfl

@[simp] theorem firstBad_cons (p : Bool) (e : IllFormed) (r : List (Bool × IllFormed)) :
    firstBad ((p, e) :: r) = none ↔ p = true ∧ firstBad r = none := by
  cases p <;> simp [firstBad]

theorem typed_ok {c : Ctl} {ok : Bool} (h : typed c ok = none) : ok = true := by
  simp [typed] at h
  exact h.2

theorem vecTyped_ok {c : Ctl} {ty : Ty} {ok : Bool} {d a : VReg} {b : VSI} (h : vecTyped c ty ok d a b = none) :
    ok = true := by
  simp [vecTyped] at h
  exact h.2.1

theorem Ty.scalar_of_int {ty : Ty} (h : ty.int32or64 = true) : ty.scalar = true := by
  cases ty <;> first | rfl | cases h

end Sys2Proof
end

