-- ==== Sys2Proof/Laws/Vector.lean ====
section
/-! SUPPORT. Vector writes lane by lane, and the element tables: what the meanings compute with numbers is what R418 to R425 give
in w bits. -/

namespace Sys2Proof.Machine

/-! ## Lanes -/

theorem setV_rest (g : Group) (n l : Nat) (x : Lane) :
    g.setV n l x = { g with r := { g.r with v := (g.setV n l x).r.v } } := rfl

@[simp] theorem setV_physV (g : Group) (n l : Nat) (x : Lane) (m : Nat) : (g.setV n l x).physV m = g.physV m := rfl

theorem setV_get (g : Group) (n l : Nat) (x : Lane) (k : Nat) :
    tget 0 (g.setV n l x).r.v k = if k = 32 * g.physV n + l then x else tget 0 g.r.v k := tget_tput _ _ _ _ _

/-- A fold that writes one register lane by lane. -/
theorem foldV (n : Nat) (f : Nat → Lane) (ls : List Nat) (hl : ∀ l ∈ ls, l < 32) (g : Group) :
    let g' := ls.foldl (fun g l => g.setV n l (f l)) g
    g' = { g with r := { g.r with v := g'.r.v } } ∧
      ∀ k, tget 0 g'.r.v k = if k / 32 = g.physV n ∧ k % 32 ∈ ls then f (k % 32) else tget 0 g.r.v k := by
  induction ls generalizing g with
  | nil => exact ⟨rfl, fun k => by simp⟩
  | cons l ls ih =>
    have h32 := hl l (by simp)
    obtain ⟨h1, h2⟩ := ih (fun m hm => hl m (by simp [hm])) (g.setV n l (f l))
    refine ⟨by rw [List.foldl_cons]; exact h1.trans rfl, fun k => ?_⟩
    rw [List.foldl_cons, h2 k, setV_physV, setV_get]
    by_cases hp : k / 32 = g.physV n
    · by_cases hk : k % 32 = l
      · have : k = 32 * g.physV n + l := by omega
        rw [if_pos this, hk]
        simp [hp]
      · have : ¬ k = 32 * g.physV n + l := by omega
        simp [hp, hk, this]
    · have : ¬ k = 32 * g.physV n + l := by omega
      simp [hp, this]

theorem setV64_get (g : Group) (n l : Nat) (x : Word) (hl : l < 32) (k : Nat) :
    tget 0 (g.setV64 n l x).r.v k =
      if k % 32 = l ∧ k / 32 = g.physV (n + 1) then x.extractLsb' 32 32
      else if k % 32 = l ∧ k / 32 = g.physV n then x.extractLsb' 0 32 else tget 0 g.r.v k := by
  have a1 : k = 32 * g.physV (n + 1) + l ↔ k % 32 = l ∧ k / 32 = g.physV (n + 1) := by omega
  have a0 : k = 32 * g.physV n + l ↔ k % 32 = l ∧ k / 32 = g.physV n := by omega
  unfold Group.setV64
  rw [setV_get, setV_physV, setV_get]
  simp only [a1, a0]

/-- A fold that writes a pair lane by lane. -/
theorem foldV64 (n : Nat) (f : Nat → Word) (ls : List Nat) (hl : ∀ l ∈ ls, l < 32) (g : Group)
    (hne : g.physV n ≠ g.physV (n + 1)) :
    let g' := ls.foldl (fun g l => g.setV64 n l (f l)) g
    g' = { g with r := { g.r with v := g'.r.v } } ∧
      ∀ k, tget 0 g'.r.v k =
        if k % 32 ∈ ls ∧ k / 32 = g.physV (n + 1) then (f (k % 32)).extractLsb' 32 32
        else if k % 32 ∈ ls ∧ k / 32 = g.physV n then (f (k % 32)).extractLsb' 0 32 else tget 0 g.r.v k := by
  induction ls generalizing g with
  | nil => exact ⟨rfl, fun k => by simp⟩
  | cons l ls ih =>
    have h32 := hl l (by simp)
    obtain ⟨h1, h2⟩ := ih (fun m hm => hl m (by simp [hm])) (g.setV64 n l (f l)) hne
    refine ⟨by rw [List.foldl_cons]; exact h1.trans rfl, fun k => ?_⟩
    rw [List.foldl_cons, h2 k, setV64_get g n l _ h32]
    have e1 : (g.setV64 n l (f l)).physV (n + 1) = g.physV (n + 1) := rfl
    have e0 : (g.setV64 n l (f l)).physV n = g.physV n := rfl
    rw [e1, e0]
    by_cases hk : k % 32 = l
    · by_cases hp1 : k / 32 = g.physV (n + 1)
      · simp [hk, hp1, Ne.symm hne]
      · by_cases hp0 : k / 32 = g.physV n
        · simp [hk, hp0, hne]
        · simp [hp1, hp0]
    · simp [hk]

/-- Registers `n` of the window have places of their own (R58). -/
theorem physV_inj {g : Group} {n m : Nat} (hn : n < g.winV) (hm : m < g.winV) (h : g.physV n = g.physV m) : n = m := by
  unfold Group.winV at hn hm
  unfold Group.physV at h
  have hn' : n < g.va := by omega
  have hm' : m < g.va := by omega
  have h1 : (g.r.wbv + n) ≡ (g.r.wbv + m) [MOD g.va] := h
  have h2 : n ≡ m [MOD g.va] := Nat.ModEq.add_left_cancel' _ h1
  exact Nat.ModEq.eq_of_lt_of_lt h2 hn' hm'

theorem physS_inj {g : Group} {n m : Nat} (hn : n < g.winS) (hm : m < g.winS) (h : g.physS n = g.physS m) : n = m := by
  have h1 : (g.r.wbs + n) ≡ (g.r.wbs + m) [MOD g.sa] := h
  exact Nat.ModEq.eq_of_lt_of_lt (Nat.ModEq.add_left_cancel' _ h1) hn hm

theorem halves (x : Word) : x.extractLsb' 32 32 ++ x.extractLsb' 0 32 = x :=
  (extract_join x 0 32 32).trans BitVec.extractLsb'_eq_self

/-- What writing the active lanes of a vector destination does. -/
theorem toV_wrote (x : Ctx) (hx : x.run = x.g.runNow) (ty : Ty) (d : VReg) (f : Nat → Word)
    (hw : ty.is64 = true → x.g.vname d + 1 < x.g.winV)
    (h32 : ty.is64 = false → ∀ l, ((f l).extractLsb' 0 32).setWidth 64 = f l) :
    ∃ g', x.toV ty d f = x.done g' ∧ WroteV x.g g' ty d x.act (fun l r => r = f l) := by
  have hls : ∀ l ∈ lanesOf x.act, l < 32 := fun l hl => ((mem_lanesOf _ _).1 hl).1
  have hn : (vnum x.run.xs d).getD 0 = x.g.vname d := by rw [hx]; rfl
  unfold Ctx.toV
  cases h : ty.is64
  · obtain ⟨h1, h2⟩ := foldV (x.g.vname d) (fun l => (f l).extractLsb' 0 32) (lanesOf x.act) hls x.g
    refine ⟨x.g.writeLanes (x.g.vname d) x.act (fun l => (f l).extractLsb' 0 32), by simp [hn], ?_⟩
    change x.g.writeLanes _ _ _ = _ at h1
    have hv : ∀ l, l < 32 → (x.g.writeLanes (x.g.vname d) x.act (fun l => (f l).extractLsb' 0 32)).getV (x.g.vname d) l =
        if bitOf x.act l then (f l).extractLsb' 0 32 else x.g.getV (x.g.vname d) l := by
      intro l hl
      unfold Group.getV
      have hp : (x.g.writeLanes (x.g.vname d) x.act (fun l => (f l).extractLsb' 0 32)).physV (x.g.vname d) =
        x.g.physV (x.g.vname d) := by rw [h1]; rfl
      rw [hp]
      refine (h2 _).trans ?_
      have e1 : (32 * x.g.physV (x.g.vname d) + l) / 32 = x.g.physV (x.g.vname d) := by omega
      have e2 : (32 * x.g.physV (x.g.vname d) + l) % 32 = l := by omega
      simp only [e1, e2, mem_lanesOf, hl, true_and]
    have hname : (x.g.writeLanes (x.g.vname d) x.act (fun l => (f l).extractLsb' 0 32)).vname d = x.g.vname d := by rw [h1]; rfl
    refine ⟨h1, fun l hl ha => ?_, fun l hl ha => ?_, fun n hne _ l hl => ?_⟩
    · simp only [Group.tval, h, Group.vval, hname, Bool.false_eq_true, if_false, hv l hl, ha, if_true]
      exact h32 h l
    · simp only [Group.tval, h, Group.vval, hname, Bool.false_eq_true, if_false, hv l hl, ha]
    · refine (h2 _).trans (if_neg ?_)
      rintro ⟨h3, _⟩
      omega
  · have hne : x.g.physV (x.g.vname d) ≠ x.g.physV (x.g.vname d + 1) := by
      intro e
      have h3 := hw h
      have := physV_inj (by omega) h3 e
      omega
    obtain ⟨h1, h2⟩ := foldV64 (x.g.vname d) f (lanesOf x.act) hls x.g hne
    refine ⟨x.g.writeLanes64 (x.g.vname d) x.act f, by simp [hn], ?_⟩
    change x.g.writeLanes64 _ _ _ = _ at h1
    have hname : (x.g.writeLanes64 (x.g.vname d) x.act f).vname d = x.g.vname d := by rw [h1]; rfl
    have hp : ∀ m, (x.g.writeLanes64 (x.g.vname d) x.act f).physV m = x.g.physV m := by intro m; rw [h1]; rfl
    have hlo : ∀ l, l < 32 → (x.g.writeLanes64 (x.g.vname d) x.act f).getV (x.g.vname d) l =
        if bitOf x.act l then (f l).extractLsb' 0 32 else x.g.getV (x.g.vname d) l := by
      intro l hl
      unfold Group.getV
      rw [hp]
      refine (h2 _).trans ?_
      have e1 : (32 * x.g.physV (x.g.vname d) + l) / 32 = x.g.physV (x.g.vname d) := by omega
      have e2 : (32 * x.g.physV (x.g.vname d) + l) % 32 = l := by omega
      simp only [e1, e2, mem_lanesOf, hl, true_and, hne, and_false, if_false, and_true]
    have hhi : ∀ l, l < 32 → (x.g.writeLanes64 (x.g.vname d) x.act f).getV (x.g.vname d + 1) l =
        if bitOf x.act l then (f l).extractLsb' 32 32 else x.g.getV (x.g.vname d + 1) l := by
      intro l hl
      unfold Group.getV
      rw [hp]
      refine (h2 _).trans ?_
      have e1 : (32 * x.g.physV (x.g.vname d + 1) + l) / 32 = x.g.physV (x.g.vname d + 1) := by omega
      have e2 : (32 * x.g.physV (x.g.vname d + 1) + l) % 32 = l := by omega
      simp only [e1, e2, mem_lanesOf, hl, true_and, Ne.symm hne, and_false, if_false, and_true]
    refine ⟨h1, fun l hl ha => ?_, fun l hl ha => ?_, fun n hne0 hne1 l hl => ?_⟩
    · simp only [Group.tval, h, Group.vpair, hname, if_true, hlo l hl, hhi l hl, ha]
      exact halves (f l)
    · simp only [Group.tval, h, Group.vpair, hname, if_true, hlo l hl, hhi l hl, ha, Bool.false_eq_true, if_false]
    · refine (h2 _).trans ?_
      have hn1 := hne1 h
      rw [if_neg (by rintro ⟨_, h3⟩; omega), if_neg (by rintro ⟨_, h3⟩; omega)]

/-! ## Elements -/

theorem packElems_lt (w : Nat) (es : List Int) : packElems w es < 2 ^ (w * es.length) := by
  induction es with
  | nil => simp [packElems]
  | cons e es ih =>
    have h1 : (e % 2 ^ w).toNat < 2 ^ w := by
      have := Int.emod_lt_of_pos e (show (0 : Int) < 2 ^ w by positivity)
      have h0 := Int.emod_nonneg e (show (2 : Int) ^ w ≠ 0 by positivity)
      zify
      rw [Int.toNat_of_nonneg h0]
      exact this
    have e1 : 2 ^ (w * (e :: es).length) = 2 ^ w * 2 ^ (w * es.length) := by
      rw [← pow_add, List.length_cons]; congr 1; ring
    rw [packElems, e1]
    nlinarith [ih, h1, Nat.one_le_two_pow (n := w)]

theorem packElems_elem (w : Nat) (es : List Int) (i : Nat) (hi : i < es.length) :
    packElems w es / 2 ^ (w * i) % 2 ^ w = (es[i] % 2 ^ w).toNat := by
  have hlt : ∀ e : Int, (e % 2 ^ w).toNat < 2 ^ w := by
    intro e
    have := Int.emod_lt_of_pos e (show (0 : Int) < 2 ^ w by positivity)
    have h0 := Int.emod_nonneg e (show (2 : Int) ^ w ≠ 0 by positivity)
    zify
    rw [Int.toNat_of_nonneg h0]
    exact this
  induction es generalizing i with
  | nil => simp at hi
  | cons e es ih =>
    cases i with
    | zero =>
      simp only [packElems, Nat.mul_zero, pow_zero, Nat.div_one, List.getElem_cons_zero]
      rw [Nat.add_mul_mod_self_left, Nat.mod_eq_of_lt (hlt e)]
    | succ i =>
      have hs : i < es.length := by simpa using hi
      rw [packElems, show w * (i + 1) = w + w * i by ring, pow_add, ← Nat.div_div_eq_div_mul,
        Nat.add_mul_div_left _ _ (by positivity), Nat.div_eq_of_lt (hlt e), Nat.zero_add, ih i hs]
      rfl

theorem elemWidth_eq (ty : Ty) : elemWidth ty = widthOf ty := by cases ty <;> rfl
theorem elemCount_eq (ty : Ty) : elemCount ty = countOf ty := by rw [elemCount, countOf, elemWidth_eq]
theorem tySigned_eq (ty : Ty) : tySigned ty = elemSigned ty := by cases ty <;> rfl

theorem elemAt_eq (ty : Ty) (x : Word) (i : Nat) : elemAt (widthOf ty) x i = (elemOf ty x i).toNat := by
  rw [elemAt, elemOf, BitVec.extractLsb'_toNat, Nat.shiftRight_eq_div_pow]

/-- An element of a word packed from numbers. -/
theorem elemOf_pack (ty : Ty) (es : List Int) (hl : es.length = countOf ty) (i : Nat) (hi : i < countOf ty) :
    elemOf ty (BitVec.ofNat 64 (packElems (widthOf ty) es)) i = BitVec.ofInt (widthOf ty) (es[i]'(by omega)) := by
  have hw : widthOf ty * es.length ≤ 64 := by rw [hl]; cases ty <;> decide
  have hlt : packElems (widthOf ty) es < 2 ^ 64 :=
    lt_of_lt_of_le (packElems_lt _ _) (Nat.pow_le_pow_right (by omega) hw)
  apply BitVec.eq_of_toNat_eq
  rw [← elemAt_eq, elemAt, BitVec.toNat_ofNat, Nat.mod_eq_of_lt hlt, packElems_elem _ _ _ (by omega), BitVec.toNat_ofInt]
  simp

/-- The element operation of the meanings is `f` of R418 when their numbers agree modulo 2^w. -/
theorem elemOp_elementwise {ty : Ty} {F : Nat → Bool → Nat → Nat → Nat → Int}
    {f : (w : Nat) → BitVec w → BitVec w → BitVec w → BitVec w}
    (h : ∀ w (a b d : BitVec w), w = widthOf ty → BitVec.ofInt w (F w (elemSigned ty) a.toNat b.toNat d.toNat) = f w a b d)
    (a b d : Word) : Elementwise ty f a b d (elemOp ty F a b d) := by
  intro i hi
  rw [elemOp]
  simp only [elemWidth_eq, elemCount_eq, tySigned_eq]
  rw [elemOf_pack ty _ (by simp) i hi]
  simp only [List.getElem_map, List.getElem_range, elemAt_eq]
  exact h _ _ _ _ rfl

/-- A result of a narrow type stands in the low half. -/
theorem elemOp_low {ty : Ty} (h : ty.is64 = false) (F : Nat → Bool → Nat → Nat → Nat → Int) (a b d : Word) :
    ((elemOp ty F a b d).extractLsb' 0 32).setWidth 64 = elemOp ty F a b d := by
  have hc : elemWidth ty * elemCount ty = 32 := by cases ty <;> simp [Ty.is64] at h <;> decide
  have hlt : packElems (elemWidth ty) ((List.range (elemCount ty)).map (fun i =>
      F (elemWidth ty) (tySigned ty) (elemAt (elemWidth ty) a i) (elemAt (elemWidth ty) b i) (elemAt (elemWidth ty) d i))) <
      2 ^ 32 := by
    refine lt_of_lt_of_eq (packElems_lt _ _) ?_
    simp [hc]
  apply BitVec.eq_of_toNat_eq
  rw [low_eq_setWidth, elemOp]
  simp only [BitVec.toNat_setWidth, BitVec.toNat_ofNat]
  rw [Nat.mod_eq_of_lt (a := packElems _ _) (by omega), Nat.mod_eq_of_lt hlt]
  exact Nat.mod_eq_of_lt (by omega)

/-! ## The element table -/

theorem elemVal_eq (w : Nat) (sg : Bool) (a : BitVec w) (hw : 0 < w) :
    elemVal w sg a.toNat = if sg then a.toInt else (a.toNat : Int) := by
  cases sg
  · simp [elemVal]
  · rw [if_pos rfl, BitVec.toInt_eq_msb_cond, BitVec.msb_eq_decide]
    simp only [elemVal, Bool.true_and]
    by_cases h : 2 ^ (w - 1) ≤ a.toNat <;> simp [h]

theorem ofInt_nat (w n : Nat) : BitVec.ofInt w (n : Int) = BitVec.ofNat w n := by simp

section
variable (w : Nat) (hw : 0 < w) (sg : Bool) (a b d : BitVec w)

theorem elem_add : BitVec.ofInt w ((a.toNat : Int) + b.toNat) = a + b := by
  rw [BitVec.ofInt_add]; simp
theorem elem_mul : BitVec.ofInt w ((a.toNat : Int) * b.toNat) = a * b := by
  rw [BitVec.ofInt_mul]; simp
theorem elem_mad : BitVec.ofInt w ((a.toNat : Int) * b.toNat + d.toNat) = a * b + d := by
  rw [BitVec.ofInt_add, BitVec.ofInt_mul]; simp
theorem elem_sub : BitVec.ofInt w ((a.toNat : Int) - b.toNat) = a - b := by
  rw [Int.sub_eq_add_neg, BitVec.ofInt_add, BitVec.ofInt_neg]; simp [BitVec.sub_eq_add_neg]
theorem elem_and : BitVec.ofInt w ((a.toNat &&& b.toNat : Nat) : Int) = a &&& b := by
  rw [ofInt_nat, ← BitVec.toNat_and]; simp
theorem elem_or : BitVec.ofInt w ((a.toNat ||| b.toNat : Nat) : Int) = a ||| b := by
  rw [ofInt_nat, ← BitVec.toNat_or]; simp
theorem elem_xor : BitVec.ofInt w ((a.toNat ^^^ b.toNat : Nat) : Int) = a ^^^ b := by
  rw [ofInt_nat, ← BitVec.toNat_xor]; simp
theorem elem_shl : BitVec.ofInt w (if w ≤ b.toNat then 0 else ((a.toNat * 2 ^ b.toNat : Nat) : Int)) = shlOf w a b := by
  unfold shlOf
  split
  · rfl
  · rw [ofInt_nat]
    apply BitVec.eq_of_toNat_eq
    simp [BitVec.toNat_shiftLeft, Nat.shiftLeft_eq]
theorem elem_shr : BitVec.ofInt w (if w ≤ b.toNat then 0 else ((a.toNat / 2 ^ b.toNat : Nat) : Int)) = shrOf w a b := by
  unfold shrOf
  split
  · rfl
  · rw [ofInt_nat]
    apply BitVec.eq_of_toNat_eq
    simp only [BitVec.toNat_ofNat, BitVec.toNat_ushiftRight, Nat.shiftRight_eq_div_pow]
    exact Nat.mod_eq_of_lt (lt_of_le_of_lt (Nat.div_le_self _ _) a.isLt)

include hw

theorem elem_mulHigh : BitVec.ofInt w (elemVal w sg a.toNat * elemVal w sg b.toNat / 2 ^ w) = mulHighOf sg w a b := by
  rw [elemVal_eq w sg a hw, elemVal_eq w sg b hw, mulHigh_width]

theorem elem_sar : BitVec.ofInt w (elemVal w true a.toNat / 2 ^ min b.toNat w) = sarOf w a b := by
  rw [elemVal_eq w true a hw, if_pos rfl, sar_width, sarOf]

omit hw in
theorem ofInt_value : BitVec.ofInt w (if sg then a.toInt else (a.toNat : Int)) = a := by cases sg <;> simp

theorem elem_min : BitVec.ofInt w (min (elemVal w sg a.toNat) (elemVal w sg b.toNat)) = minOf sg w a b := by
  rw [elemVal_eq w sg a hw, elemVal_eq w sg b hw, minOf, Int.min_def, apply_ite (BitVec.ofInt w), ofInt_value w, ofInt_value w]
  cases sg
  · simp only [Bool.false_eq_true, if_false, BitVec.ult_iff_toNat_lt]
    by_cases h : b.toNat < a.toNat
    · rw [if_neg (by omega), if_pos h]
    · rw [if_pos (by omega), if_neg h]
  · simp only [if_true, BitVec.slt_iff_toInt_lt]
    by_cases h : b.toInt < a.toInt
    · rw [if_neg (by omega), if_pos h]
    · rw [if_pos (by omega), if_neg h]

theorem elem_max : BitVec.ofInt w (max (elemVal w sg a.toNat) (elemVal w sg b.toNat)) = maxOf sg w a b := by
  rw [elemVal_eq w sg a hw, elemVal_eq w sg b hw, maxOf, Int.max_def, apply_ite (BitVec.ofInt w), ofInt_value w, ofInt_value w]
  cases sg
  · simp only [Bool.false_eq_true, if_false, BitVec.ult_iff_toNat_lt]
    by_cases h : a.toNat < b.toNat
    · rw [if_pos (by omega), if_pos h]
    · by_cases h2 : a.toNat = b.toNat
      · have e : a = b := BitVec.eq_of_toNat_eq h2
        subst e; simp
      · rw [if_neg (by omega), if_neg h]
  · simp only [if_true, BitVec.slt_iff_toInt_lt]
    by_cases h : a.toInt < b.toInt
    · rw [if_pos (by omega), if_pos h]
    · by_cases h2 : a.toInt = b.toInt
      · have e : a = b := BitVec.eq_of_toInt_eq h2
        subst e; simp
      · rw [if_neg (by omega), if_neg h]

theorem elem_abs : BitVec.ofInt w ((elemVal w true a.toNat).natAbs : Int) = absOf w a := by
  rw [elemVal_eq w true a hw, if_pos rfl, absOf]
  cases hm : a.msb
  · have h0 : 0 ≤ a.toInt := by rw [BitVec.toInt_eq_msb_cond, hm]; simp
    rw [Int.natAbs_of_nonneg h0, BitVec.ofInt_toInt]; rfl
  · have h0 : a.toInt < 0 := BitVec.toInt_neg_of_msb_true hm
    rw [Int.ofNat_natAbs_of_nonpos (le_of_lt h0), BitVec.ofInt_neg, BitVec.ofInt_toInt]; rfl

theorem elem_clamp : BitVec.ofInt w (clampTo w sg (elemVal w sg a.toNat + elemVal w sg b.toNat)) = addClampOf sg w a b := by
  rw [elemVal_eq w sg a hw, elemVal_eq w sg b hw, clampTo, addClampOf]
  have hp : (2 : Int) ^ w = 2 * 2 ^ (w - 1) := by rw [← pow_succ']; congr 1; omega
  cases sg
  · simp only [Bool.false_eq_true, if_false]
    have ha := a.isLt
    have hb := b.isLt
    by_cases h : 2 ^ w ≤ a.toNat + b.toNat
    · rw [if_pos h, min_eq_left (by zify at h; omega), max_eq_right (by have : (0 : Int) < 2 ^ w := by positivity
                                                                        omega)]
      rw [← ofInt_neg_one, Int.sub_eq_add_neg, BitVec.ofInt_add]
      have : BitVec.ofInt w (2 ^ w) = 0 := by
        apply BitVec.eq_of_toNat_eq
        simp [BitVec.toNat_ofInt]
      rw [this]; simp
    · rw [if_neg h, min_eq_right (by zify at h; omega), max_eq_right (by omega), elem_add]
  · simp only [if_true]
    have ha := @BitVec.toInt_lt w a
    have hb := @BitVec.toInt_lt w b
    by_cases h : 2 ^ (w - 1) ≤ a.toInt + b.toInt
    · rw [if_pos h, min_eq_left (by omega), max_eq_right (by have : (0 : Int) < 2 ^ (w - 1) := by positivity
                                                             omega)]
      apply BitVec.eq_of_toNat_eq
      have h1 : (0 : Int) < 2 ^ (w - 1) := by positivity
      rw [BitVec.toNat_ofInt, BitVec.toNat_intMax]
      push_cast
      rw [Int.emod_eq_of_lt (by omega) (by omega)]
      have h2 : ((2 ^ (w - 1) - 1 : Nat) : Int) = 2 ^ (w - 1) - 1 := by
        rw [Nat.cast_sub Nat.one_le_two_pow]; push_cast; rfl
      omega
    · rw [if_neg h, min_eq_right (by omega)]
      by_cases h2 : a.toInt + b.toInt < -2 ^ (w - 1)
      · rw [if_pos h2, max_eq_left (by omega)]
        apply BitVec.eq_of_toNat_eq
        have h1 : (0 : Int) < 2 ^ (w - 1) := by positivity
        have hn : (2 : Nat) ^ (w - 1) < 2 ^ w := Nat.pow_lt_pow_right (by omega) (by omega)
        rw [BitVec.toNat_ofInt, BitVec.toNat_intMin, Nat.mod_eq_of_lt hn]
        push_cast
        rw [Int.emod_eq_add_self_emod, Int.emod_eq_of_lt (by omega) (by omega)]
        have h3 : ((2 ^ (w - 1) : Nat) : Int) = 2 ^ (w - 1) := by push_cast; rfl
        omega
      · rw [if_neg h2, max_eq_right (by omega), BitVec.ofInt_add]
        simp

end

theorem bit_ofNat {w : Nat} (h : w ≤ 64) (a : BitVec w) (n : Nat) : (BitVec.ofNat 64 a.toNat).getLsbD n = a.getLsbD n := by
  rw [BitVec.ofNat_toNat, BitVec.getLsbD_setWidth]
  by_cases hn : n < 64
  · simp [hn]
  · rw [BitVec.getLsbD_of_ge a n (by omega)]; simp

theorem popCount_eq {w : Nat} (h : w ≤ 64) (a : BitVec w) : popCount w (BitVec.ofNat 64 a.toNat) = onesOf w a := by
  simp only [popCount, onesOf, bit_ofNat h]

theorem leadingZeros_eq {w : Nat} (h : w ≤ 64) (a : BitVec w) : leadingZeros w (BitVec.ofNat 64 a.toNat) = zerosOf w a := by
  have hlt : a.toNat < 2 ^ 64 := lt_of_lt_of_le a.isLt (Nat.pow_le_pow_right (by omega) h)
  have e : (BitVec.ofNat 64 a.toNat).toNat = a.toNat := by rw [BitVec.toNat_ofNat, Nat.mod_eq_of_lt hlt]
  simp only [leadingZeros, zerosOf, e, BitVec.toNat_eq]
  rfl

/-! ## The B operand (R419) -/

theorem toNat_append' {m n : Nat} (x : BitVec m) (y : BitVec n) : (x ++ y).toNat = x.toNat * 2 ^ n + y.toNat := by
  rw [BitVec.toNat_append, ← Nat.shiftLeft_add_eq_or_of_lt y.isLt, Nat.shiftLeft_eq]

theorem signExtend_toNat {n : Nat} (w : Nat) (i : BitVec n) : (i.signExtend w).toNat = (i.toInt % 2 ^ w).toNat := by
  rw [BitVec.signExtend, BitVec.toNat_ofInt]; simp

theorem narrow_toNat (i : BitVec 14) : (i.setWidth 8).toNat = (i.toInt % 2 ^ 8).toNat := by
  have := i.isLt
  rw [BitVec.toNat_setWidth, BitVec.toInt_eq_toNat_cond]
  split <;> omega

theorem emod_lt (z : Int) (w : Nat) : (z % 2 ^ w).toNat < 2 ^ w := by
  have h1 := Int.emod_lt_of_pos z (show (0 : Int) < 2 ^ w by positivity)
  have h0 := Int.emod_nonneg z (show (2 : Int) ^ w ≠ 0 by positivity)
  zify
  rw [Int.toNat_of_nonneg h0]
  exact h1

theorem pack16 (i : BitVec 14) :
    BitVec.ofNat 64 (packElems 16 [i.toInt, i.toInt]) = (i.signExtend 16 ++ i.signExtend 16).setWidth 64 := by
  apply BitVec.eq_of_toNat_eq
  have h := emod_lt i.toInt 16
  rw [BitVec.toNat_setWidth, toNat_append', signExtend_toNat, BitVec.toNat_ofNat]
  simp only [packElems]
  omega

theorem pack8 (i : BitVec 14) :
    BitVec.ofNat 64 (packElems 8 [i.toInt, i.toInt, i.toInt, i.toInt]) =
      (i.setWidth 8 ++ i.setWidth 8 ++ i.setWidth 8 ++ i.setWidth 8).setWidth 64 := by
  apply BitVec.eq_of_toNat_eq
  have h := emod_lt i.toInt 8
  rw [BitVec.toNat_setWidth, toNat_append', toNat_append', toNat_append', narrow_toNat, BitVec.toNat_ofNat]
  simp only [packElems]
  omega

theorem pack32 (i : BitVec 14) : BitVec.ofNat 64 (packElems 32 [i.toInt]) = (i.signExtend 32).setWidth 64 := by
  apply BitVec.eq_of_toNat_eq
  rw [BitVec.toNat_setWidth, signExtend_toNat, BitVec.toNat_ofNat]
  simp only [packElems]
  omega

theorem pack64 (i : BitVec 14) : BitVec.ofNat 64 (packElems 64 [i.toInt]) = i.signExtend 64 := by
  apply BitVec.eq_of_toNat_eq
  have h := emod_lt i.toInt 64
  rw [signExtend_toNat, BitVec.toNat_ofNat]
  simp only [packElems]
  omega

theorem immElems_eq (ty : Ty) (i : BitVec 14) (g : Group) (l : Nat) : immElems ty i = g.bopnd ty (.imm i) l := by
  cases ty <;> first | exact pack32 i | exact pack16 i | exact pack8 i | exact pack64 i

/-- The B operand that a meaning reads is the one R419 gives. -/
theorem bval_eq (x : Ctx) (hx : x.run = x.g.runNow) (ty : Ty) (b : VSI) (l : Nat) : x.bval ty b l = x.g.bopnd ty b l := by
  cases b with
  | vec r => simp only [Ctx.bval, Ctx.vval, hx, Group.bopnd, Group.tval, Group.vpair, Group.vval, Group.vname, Group.getV64]
  | sca r => simp only [Ctx.bval, Ctx.sreg, hx, Group.bopnd, Group.sval, Group.sname, low_eq_setWidth, Nat.add_zero]
  | imm i => exact immElems_eq ty i x.g l

theorem vval_eq (x : Ctx) (hx : x.run = x.g.runNow) (ty : Ty) (r : VReg) (l : Nat) : x.vval ty r l = x.g.tval ty r l := by
  simp only [Ctx.vval, hx, Group.tval, Group.vpair, Group.vval, Group.vname, Group.getV64]

/-- A vector meaning over elements writes its destination element by element. -/
theorem vint_writes {i : Instr} {c : Ctl} {ty : Ty} {d a : VReg} {b : VSI} {F : Nat → Bool → Nat → Nat → Nat → Int}
    {f : (w : Nat) → BitVec w → BitVec w → BitVec w → BitVec w}
    (he : exec i = issue i c false (fun x => x.vint ty d a b F))
    (hu : ∀ xs, ∃ how rest, usesOf xs i = useV xs 0 d how (if ty.is64 then 2 else 1) ty.is64 ++ rest)
    (hf : ∀ w (a b d : BitVec w), w = widthOf ty → BitVec.ofInt w (F w (elemSigned ty) a.toNat b.toNat d.toNat) = f w a b d) :
    WritesV i c ty d (fun _ g l r => Elementwise ty f (g.tval ty a l) (g.bopnd ty b l) (g.tval ty d l) r) := by
  intro s gid g h
  have hw : ty.is64 = true → g.vname d + 1 < g.winV := by
    intro h64
    obtain ⟨how, rest, hr⟩ := hu g.runNow.xs
    rw [h64] at hr
    exact vname_window 1 (n := 2) (by omega) (fun u hm => checkIssue_window h.checked u (by rw [hr]; exact List.mem_append_left _ hm))
  obtain ⟨g', e, wrote⟩ := toV_wrote ⟨s.tickSeq, gid, g, g.runNow, c, g.active c⟩ rfl ty d
    (fun l => elemOp ty F (g.tval ty a l) (g.bopnd ty b l) (g.tval ty d l)) hw (fun h64 l => elemOp_low h64 F _ _ _)
  refine ⟨g', ?_, wrote.rest, fun l hl ha => ?_, wrote.inactive, wrote.other⟩
  · rw [he, issue_active h]
    simp only [Ctx.vint, vval_eq ⟨s.tickSeq, gid, g, g.runNow, c, g.active c⟩ rfl,
      bval_eq ⟨s.tickSeq, gid, g, g.runNow, c, g.active c⟩ rfl]
    rw [e]
    rfl
  · rw [wrote.active l hl ha]
    exact elemOp_elementwise hf _ _ _

/-- A vector meaning that gives each active lane a value writes it. -/
theorem toV_writes {i : Instr} {c : Ctl} {ty : Ty} {d : VReg} {f : State → Group → Nat → Word} {body : Ctx → Res}
    (he : exec i = issue i c false body)
    (hb : ∀ s gid g, body ⟨s, gid, g, g.runNow, c, g.active c⟩ = Ctx.toV ⟨s, gid, g, g.runNow, c, g.active c⟩ ty d (f s g))
    (hs : ∀ s g, f s.tickSeq g = f s g)
    (hu : ∀ xs, ∃ how rest, usesOf xs i = useV xs 0 d how (if ty.is64 then 2 else 1) ty.is64 ++ rest)
    (hlow : ty.is64 = false → ∀ s g l, ((f s g l).extractLsb' 0 32).setWidth 64 = f s g l) :
    WritesV i c ty d (fun s g l r => r = f s g l) := by
  intro s gid g h
  have hw : ty.is64 = true → g.vname d + 1 < g.winV := by
    intro h64
    obtain ⟨how, rest, hr⟩ := hu g.runNow.xs
    rw [h64] at hr
    exact vname_window 1 (n := 2) (by omega) (fun u hm => checkIssue_window h.checked u (by rw [hr]; exact List.mem_append_left _ hm))
  obtain ⟨g', e, wrote⟩ := toV_wrote ⟨s.tickSeq, gid, g, g.runNow, c, g.active c⟩ rfl ty d (f s g) hw (fun h64 l => hlow h64 s g l)
  refine ⟨g', ?_, wrote⟩
  rw [he, issue_active h, hb, hs, e]
  rfl

/-! ## Bit fields (R392) -/

theorem ofNat_setWidth32 (n : Nat) : (BitVec.ofNat 64 n).setWidth 32 = BitVec.ofNat 32 n := by
  apply BitVec.eq_of_toNat_eq
  simp only [BitVec.toNat_setWidth, BitVec.toNat_ofNat]
  omega

/-- The field in w bits, from the number form. -/
theorem field_width (sg : Bool) (w : Nat) (a c spec : BitVec w) (s : Word) (n : Nat) (hn : n = fieldLen s w) :
    (if sg = true ∧ 0 < n ∧ 2 ^ (n - 1) ≤ (a >>> fieldPos s).toNat % 2 ^ n
      then BitVec.ofInt w (((a >>> fieldPos s).toNat % 2 ^ n : Nat) - 2 ^ n : Int)
      else BitVec.ofNat w ((a >>> fieldPos s).toNat % 2 ^ n)) = fieldOf sg s w a c := by
  subst hn
  have hle : fieldLen s w ≤ w := Nat.min_le_right _ _
  have hnat : ((a >>> fieldPos s).setWidth (fieldLen s w)).toNat = (a >>> fieldPos s).toNat % 2 ^ fieldLen s w := by simp
  generalize hf : (a >>> fieldPos s).setWidth (fieldLen s w) = f at hnat
  rw [← hnat, fieldOf, hf]
  cases sg
  · simp only [Bool.false_eq_true, false_and, if_false]
    apply BitVec.eq_of_toNat_eq
    simp
  · simp only [true_and, if_true]
    apply BitVec.eq_of_toInt_eq
    rw [BitVec.toInt_signExtend_of_le hle]
    rcases Nat.eq_zero_or_pos (fieldLen s w) with h0 | h0
    · rw [if_neg (by omega)]
      have hz : f.toNat < 1 := lt_of_lt_of_eq f.isLt (by rw [h0])
      have h1 : f.toNat = 0 := by omega
      have h2 : f.toInt = 0 := by rw [BitVec.toInt_eq_toNat_cond, h1]; simp
      rw [h1, h2]; simp
    · have hi : BitVec.ofInt w f.toInt = if 0 < fieldLen s w ∧ 2 ^ (fieldLen s w - 1) ≤ f.toNat
          then BitVec.ofInt w ((f.toNat : Int) - 2 ^ fieldLen s w) else BitVec.ofNat w f.toNat := by
        rw [BitVec.toInt_eq_msb_cond, BitVec.msb_eq_decide]
        by_cases h : 2 ^ (fieldLen s w - 1) ≤ f.toNat
        · simp [h, h0]
        · simp [h]
      rw [← hi, BitVec.toInt_ofInt]
      have hb : (2 : Int) ^ (fieldLen s w - 1) ≤ 2 ^ (w - 1) := by
        exact_mod_cast Nat.pow_le_pow_right (by omega) (by omega)
      have h1 := @BitVec.toInt_lt _ f
      have h2 := @BitVec.le_toInt _ f
      have hp : (2 : Int) ^ w = 2 * 2 ^ (w - 1) := by rw [← pow_succ']; congr 1; omega
      refine Int.bmod_eq_of_le_mul_two ?_ ?_ <;> push_cast <;> omega

theorem fieldSpec_eq (w : Nat) (b : Word) : fieldSpec w b = (fieldPos b, fieldLen b w) := rfl

/-- SBFX and VBFX of a value in the type's width (R392). -/
theorem fieldExtract_wide (ty : Ty) (a c b : Word) :
    fieldExtract ty 64 a b = fieldOf (intSigned ty) b 64 a c := by
  rw [fieldExtract, fieldSpec_eq]
  rw [← field_width (intSigned ty) 64 a c c b _ rfl]
  have : (ty = .i32 ∨ ty = .i64) ↔ intSigned ty = true := by cases ty <;> simp [intSigned]
  simp only [this]

theorem fieldExtract_narrow (ty : Ty) (a c : BitVec 32) (b : Word) :
    (fieldExtract ty 32 (a.setWidth 64) b).setWidth 32 = fieldOf (intSigned ty) b 32 a c := by
  rw [fieldExtract, fieldSpec_eq]
  rw [← field_width (intSigned ty) 32 a c c b _ rfl]
  have : (ty = .i32 ∨ ty = .i64) ↔ intSigned ty = true := by cases ty <;> simp [intSigned]
  have hs : ((a.setWidth 64) >>> fieldPos b).toNat = (a >>> fieldPos b).toNat := by
    simp only [BitVec.toNat_ushiftRight, zext_toNat]
  simp only [this, hs, apply_ite (BitVec.setWidth 32), ofInt_setWidth, ofNat_setWidth32]

theorem ofNat_mod (w n : Nat) : BitVec.ofNat w (n % 2 ^ w) = BitVec.ofNat w n := by
  apply BitVec.eq_of_toNat_eq
  simp

/-- SBFI and VBFI in any width (R392). -/
theorem mask_width (w : Nat) (s : Word) :
    BitVec.ofNat w ((2 ^ fieldLen s w - 1) * 2 ^ fieldPos s) = fieldMask s w := by
  have hle : fieldLen s w ≤ w := Nat.min_le_right _ _
  have hp : 2 ^ fieldLen s w ≤ 2 ^ w := Nat.pow_le_pow_right (by omega) hle
  have h1 : 0 < 2 ^ fieldLen s w := by positivity
  apply BitVec.eq_of_toNat_eq
  rw [fieldMask, BitVec.toNat_ofNat, BitVec.toNat_shiftLeft, BitVec.toNat_setWidth, BitVec.toNat_allOnes, Nat.shiftLeft_eq,
    Nat.mod_eq_of_lt (a := 2 ^ fieldLen s w - 1) (by omega)]

theorem fieldInsert_wide (d a b : Word) : fieldInsert 64 d a b = insertOf b 64 d a := by
  have e : BitVec.ofNat 64 ((2 ^ fieldLen b 64 - 1) * 2 ^ fieldPos b % 2 ^ 64) = fieldMask b 64 := by
    rw [← mask_width, ofNat_mod]
  rw [fieldInsert, fieldSpec_eq]
  simp only [e, insertOf]

theorem fieldInsert_narrow (d a : BitVec 32) (b : Word) :
    (fieldInsert 32 (d.setWidth 64) (a.setWidth 64) b).setWidth 32 = insertOf b 32 d a := by
  have e : (BitVec.ofNat 64 ((2 ^ fieldLen b 32 - 1) * 2 ^ fieldPos b % 2 ^ 32)).setWidth 32 = fieldMask b 32 := by
    rw [ofNat_setWidth32, ← mask_width, ofNat_mod]
  have hs : ((a.setWidth 64) <<< fieldPos b).setWidth 32 = a <<< fieldPos b := by
    apply BitVec.eq_of_toNat_eq
    rw [BitVec.toNat_setWidth, BitVec.toNat_shiftLeft, BitVec.toNat_shiftLeft, zext_toNat]
    exact Nat.mod_mod_of_dvd _ ⟨2 ^ 32, by norm_num⟩
  rw [fieldInsert, fieldSpec_eq]
  simp only [BitVec.setWidth_or, BitVec.setWidth_and, BitVec.setWidth_not (by omega : 32 ≤ 64), e, hs, low_zext, insertOf]

/-! ## The rest of the scalar tables -/

/-- Extending a value as R389 says, and the number that a type gives it. -/
theorem extend_eq {ty : Ty} (ht : ty.scalar = true) (x : Word) : extend ty x = scalarOf ty (fun _ a _ => a) x 0 := by
  cases ty <;> simp [Ty.scalar, Ty.int32or64] at ht <;> simp [extend, scalarOf, Ty.is64, low_eq_setWidth]

theorem scmp_value {ty : Ty} (ht : ty.int32or64 = true) (x : Word) :
    tyInt ty x = if intSigned ty then (scalarOf ty (fun _ a _ => a) x 0).toInt
      else ((scalarOf ty (fun _ a _ => a) x 0).toNat : Int) := by
  cases ty <;> simp [Ty.int32or64] at ht <;> simp only [tyInt, scalarOf, Ty.is64, intSigned, tySigned, low_eq_setWidth]
  · simp only [Bool.false_eq_true, if_false, if_true, BitVec.toInt_signExtend_of_le (show 32 ≤ 64 by omega)]
  · simp only [Bool.false_eq_true, if_false, zext_toNat]
  · simp
  · simp

theorem narrow_bits {ty : Ty} (h : ty.is64 = false) (x : Word) : narrow ty x = BitVec.ofNat 64 (x.setWidth 32).toNat := by
  simp only [narrow, h, Bool.false_eq_true, if_false, low_eq_setWidth]
  apply BitVec.eq_of_toNat_eq
  simp

theorem spopc_eq {ty : Ty} (_ : ty.scalar = true) (x : Word) :
    popCount (tyWidth ty) (narrow ty x) = if ty.is64 then onesOf 64 x else onesOf 32 (x.setWidth 32) := by
  cases h : ty.is64
  · rw [narrow_bits h, tyWidth, h]
    exact popCount_eq (w := 32) (by omega) _
  · simp only [tyWidth, narrow, h, if_true]; rfl

theorem sclz_eq {ty : Ty} (_ : ty.scalar = true) (x : Word) :
    leadingZeros (tyWidth ty) (narrow ty x) = if ty.is64 then zerosOf 64 x else zerosOf 32 (x.setWidth 32) := by
  cases h : ty.is64
  · rw [narrow_bits h, tyWidth, h]
    exact leadingZeros_eq (w := 32) (by omega) _
  · have := leadingZeros_eq (w := 64) (by omega) x
    simp only [BitVec.ofNat_toNat, BitVec.setWidth_eq] at this
    simpa only [tyWidth, narrow, h, if_true] using this

theorem sffs_eq {ty : Ty} (_ : ty.scalar = true) (x : Word) :
    firstOne (tyWidth ty) (narrow ty x) = if ty.is64 then lowestOf 64 x else lowestOf 32 (x.setWidth 32) := by
  cases h : ty.is64
  · rw [narrow_bits h, tyWidth, h]
    simp only [Bool.false_eq_true, if_false, firstOne, lowestOf, bit_ofNat (show 32 ≤ 64 by omega), ofInt_neg_one]
    all_goals rfl
  · simp only [tyWidth, narrow, h, if_true, firstOne, lowestOf, ofInt_neg_one]
    all_goals rfl

theorem fieldSpec_narrow (w : Nat) (ty : Ty) (b : Word) :
    fieldPos (narrow ty b) = fieldPos b ∧ fieldLen (narrow ty b) w = fieldLen b w := by
  cases h : ty.is64
  · have e : ∀ k n, k + n ≤ 32 → (narrow ty b).extractLsb' k n = b.extractLsb' k n := by
      intro k n hk
      apply BitVec.eq_of_getLsbD_eq
      intro i hi
      simp only [narrow, h, low_eq_setWidth, BitVec.zeroExtend, BitVec.getLsbD_extractLsb', Bool.false_eq_true, if_false,
        BitVec.getLsbD_setWidth]
      have h1 : k + i < 64 := by omega
      have h2 : k + i < 32 := by omega
      simp [h1, h2]
    simp only [fieldPos, fieldLen, e 0 6 (by omega), e 6 7 (by omega), and_self]
  · simp [narrow, h]

theorem sbfx_eq {ty : Ty} (ht : ty.scalar = true) (a b : Word) :
    extend ty (fieldExtract ty (tyWidth ty) (narrow ty a) (narrow ty b)) = scalarOf ty (fieldOf (intSigned ty) b) a 0 := by
  have hs : fieldExtract ty (tyWidth ty) (narrow ty a) (narrow ty b) = fieldExtract ty (tyWidth ty) (narrow ty a) b := by
    obtain ⟨h1, h2⟩ := fieldSpec_narrow (tyWidth ty) ty b
    have e : fieldSpec (tyWidth ty) (narrow ty b) = fieldSpec (tyWidth ty) b := by rw [fieldSpec_eq, fieldSpec_eq, h1, h2]
    rw [fieldExtract, fieldExtract, e]
  rw [hs]
  have := extend_scalarOf ht (fun x _ => fieldExtract ty (tyWidth ty) x b) (fieldOf (intSigned ty) b)
    (fun h x y => by rw [tyWidth, if_pos h]; exact fieldExtract_wide ty x y b)
    (fun h x y => by rw [tyWidth, h]; exact fieldExtract_narrow ty x y b) a 0
  exact this

theorem sbfi_eq {ty : Ty} (ht : ty.scalar = true) (d a b : Word) :
    extend ty (fieldInsert (tyWidth ty) (narrow ty d) (narrow ty a) (narrow ty b)) = scalarOf ty (insertOf b) d a := by
  have hs : fieldInsert (tyWidth ty) (narrow ty d) (narrow ty a) (narrow ty b) =
      fieldInsert (tyWidth ty) (narrow ty d) (narrow ty a) b := by
    obtain ⟨h1, h2⟩ := fieldSpec_narrow (tyWidth ty) ty b
    simp only [fieldInsert, fieldSpec_eq, h1, h2]
  rw [hs]
  exact extend_scalarOf ht (fun x y => fieldInsert (tyWidth ty) x y b) (insertOf b)
    (fun h x y => by rw [tyWidth, if_pos h]; exact fieldInsert_wide x y b)
    (fun h x y => by rw [tyWidth, h]; exact fieldInsert_narrow x y b) d a

theorem smov_scalar {c : Ctl} {ty : Ty} {d : SMovDst} {a : SMovSrc} (h : (Instr.smov c ty d a).WellFormed) : ty.scalar = true := by
  have h1 : ∃ p, firstBad [(c.flagsOk, .boundary), (ty.scalar, .type), (p, .perLane)] = none := ⟨_, h⟩
  obtain ⟨p, h1⟩ := h1
  simp only [firstBad_cons] at h1
  exact h1.2.1

/-- Reading a special register does not depend on the issue ordinal. -/
theorem special_tickSeq (s : State) (g : Group) (r : Special) : special s.tickSeq g r = special s g r := by cases r <;> rfl

/-! ## The rest of the vector tables -/

theorem bopnd_low {ty : Ty} (h : ty.is64 = false) (g : Group) (b : VSI) (l : Nat) :
    ((g.bopnd ty b l).extractLsb' 0 32).setWidth 64 = g.bopnd ty b l := by
  have hw : widthOf ty ≠ 64 := by cases ty <;> first | decide | cases h
  rw [low_eq_setWidth]
  cases b with
  | vec r => simp only [Group.bopnd, Group.tval, h, Bool.false_eq_true, if_false, low_zext]
  | sca r => simp only [Group.bopnd, h, Bool.false_eq_true, if_false, low_zext]
  | imm i =>
    simp only [Group.bopnd, hw, if_false]
    split
    · rw [low_zext]
    · split <;> exact congrArg _ (low_zext _)

/-- What a vector write keeps of a value is its low half under a narrow type. -/
theorem toV_congr (x : Ctx) (ty : Ty) (d : VReg) (F f : Nat → Word) (h1 : ty.is64 = true → ∀ l, F l = f l)
    (h2 : ty.is64 = false → ∀ l, (F l).setWidth 32 = (f l).setWidth 32) : x.toV ty d F = x.toV ty d f := by
  unfold Ctx.toV
  cases h : ty.is64
  · simp only [Bool.false_eq_true, if_false, low_eq_setWidth, h2 h]
  · simp only [if_true, funext (h1 h)]

theorem vbfx_eq (ty : Ty) (g : Group) (a : VReg) (b : VSI) (x : Ctx) (d : VReg) :
    x.toV ty d (fun l => fieldExtract ty (tyWidth ty) (g.tval ty a l) (g.bopnd ty b l)) =
      x.toV ty d (fun l => laneOf ty (fieldOf (intSigned ty) (g.bopnd ty b l)) (g.tval ty a l) 0) := by
  apply toV_congr
  · intro h l
    simp only [tyWidth, laneOf, h, if_true]
    exact fieldExtract_wide ty _ 0 _
  · intro h l
    simp only [tyWidth, laneOf, h, Bool.false_eq_true, if_false, low_zext]
    rw [show g.tval ty a l = (g.vval a l).setWidth 64 by simp [Group.tval, h], low_zext]
    exact fieldExtract_narrow ty _ 0 _

theorem vbfi_eq (ty : Ty) (g : Group) (a e : VReg) (b : VSI) (x : Ctx) (d : VReg) :
    x.toV ty d (fun l => fieldInsert (tyWidth ty) (g.tval ty e l) (g.tval ty a l) (g.bopnd ty b l)) =
      x.toV ty d (fun l => laneOf ty (insertOf (g.bopnd ty b l)) (g.tval ty e l) (g.tval ty a l)) := by
  apply toV_congr
  · intro h l
    simp only [tyWidth, laneOf, h, if_true]
    exact fieldInsert_wide _ _ _
  · intro h l
    simp only [tyWidth, laneOf, h, Bool.false_eq_true, if_false, low_zext]
    rw [show g.tval ty a l = (g.vval a l).setWidth 64 by simp [Group.tval, h],
      show g.tval ty e l = (g.vval e l).setWidth 64 by simp [Group.tval, h], low_zext, low_zext]
    exact fieldInsert_narrow _ _ _

/-! ## Float lanes -/

theorem toLanes_eq (x : Ctx) (d : VReg) (f : Nat → Nat) :
    x.toLanes d f = x.toV .f32 d (fun l => (BitVec.ofNat 32 (f l)).setWidth 64) := by
  have e : (fun l => ((BitVec.ofNat 32 (f l)).setWidth 64).extractLsb' 0 32) = (fun l => BitVec.ofNat 32 (f l)) := by
    funext l
    rw [low_eq_setWidth]
    apply BitVec.eq_of_toNat_eq
    simp only [BitVec.toNat_setWidth, BitVec.toNat_ofNat]
    omega
  simp only [Ctx.toLanes, Ctx.toV, show (Ty.f32).is64 = false from rfl, Bool.false_eq_true, if_false, e]

/-- An instruction whose body writes codes to its active lanes. -/
theorem toLanes_writes {i : Instr} {c : Ctl} {d : VReg} {f : State → Group → Nat → Nat} {body : Ctx → Res}
    (he : exec i = issue i c false body)
    (hb : ∀ s gid g, body ⟨s, gid, g, g.runNow, c, g.active c⟩ = Ctx.toLanes ⟨s, gid, g, g.runNow, c, g.active c⟩ d (f s g))
    (hs : ∀ s g, f s.tickSeq g = f s g)
    (hu : ∀ xs, ∃ how rest, usesOf xs i = useV xs 0 d how 1 false ++ rest) :
    WritesV i c .f32 d (fun s g l r => r = (BitVec.ofNat 32 (f s g l)).setWidth 64) := by
  refine toV_writes (f := fun s g l => (BitVec.ofNat 32 (f s g l)).setWidth 64) he ?_ ?_ hu ?_
  · intro s gid g
    rw [hb, toLanes_eq]
  · intro s g
    rw [hs]
  · intro _ s g l
    rw [low_eq_setWidth]
    apply BitVec.eq_of_toNat_eq
    simp only [BitVec.toNat_setWidth, BitVec.toNat_ofNat]
    omega

/-- The same for a body that takes free values first. -/
theorem toLanes_free {i : Instr} {c : Ctl} {n : Nat} {d : VReg} {f : State → Group → Nat → Nat} {body : Ctx → Res}
    (he : exec i = issue i c false body)
    (hb : ∀ s gid g, body ⟨s, gid, g, g.runNow, c, g.active c⟩ =
      Ctx.toLanes ⟨{ s with free := s.free + n }, gid, g, g.runNow, c, g.active c⟩ d (f s g))
    (hs : ∀ s g, f s.tickSeq g = f s g) :
    WritesFree i c n .f32 d (fun s g l r => r = (BitVec.ofNat 32 (f s g l)).setWidth 64) := by
  intro s gid g h
  obtain ⟨g', e, wrote⟩ := toV_wrote ⟨{ s.tickSeq with free := s.free + n }, gid, g, g.runNow, c, g.active c⟩ rfl .f32 d
    (fun l => (BitVec.ofNat 32 (f s g l)).setWidth 64) (by intro h; cases h) (by
      intro _ l
      rw [low_eq_setWidth]
      apply BitVec.eq_of_toNat_eq
      simp only [BitVec.toNat_setWidth, BitVec.toNat_ofNat]
      omega)
  refine ⟨g', ?_, wrote⟩
  have e2 : body ⟨s.tickSeq, gid, g, g.runNow, c, g.active c⟩ =
      Ctx.toV ⟨{ s.tickSeq with free := s.free + n }, gid, g, g.runNow, c, g.active c⟩ .f32 d
        (fun l => (BitVec.ofNat 32 (f s g l)).setWidth 64) := by
    rw [hb, toLanes_eq, hs]
    rfl
  rw [he, issue_active h, e2, e]
  rfl

end Sys2Proof.Machine
end

