-- ==== Sys2Proof/Laws/Cache.lean ====
section
/-! SUPPORT. The last-level cache: it changes nothing but itself, its counters and the free values taken (R83), and what it counts (R258). -/

namespace Sys2Proof.Machine

theorem core_modCore (s : State) (k : Nat) (f : Core → Core) (j : Nat) : (s.modCore k f).core j = if j = k then f (s.core k) else s.core j := by
  unfold State.modCore State.setCore State.core
  simp only [tfind_tset]
  split <;> rfl

namespace CacheOnly

theorem refl (s : State) : CacheOnly s s := ⟨rfl, fun _ => rfl, fun _ _ _ => rfl⟩

theorem trans {s t u : State} (h : CacheOnly s t) (k : CacheOnly t u) : CacheOnly s u := by
  refine ⟨?_, fun j => ?_, fun j i hi => (k.counters j i hi).trans (h.counters j i hi)⟩
  · rw [k.rest, h.rest]
  · rw [k.core, h.core]

/-- What neither a core's state nor anything else shows. -/
theorem of_llc (s : State) (l : Table (List LlcLine)) (n : Nat) : CacheOnly s { s with llc := l, free := n } :=
  ⟨rfl, fun _ => rfl, fun _ _ _ => rfl⟩

theorem of_count (s : State) (k : Nat) (u : Option Nat) (n m : Nat) (hn : n ∈ [0x081, 0x082, 0x083]) : CacheOnly s (s.count k u n m) := by
  unfold State.count
  cases u with
  | none => exact refl s
  | some u =>
    refine ⟨rfl, fun j => ?_, fun j i hi => ?_⟩
    · rw [core_modCore]; split
      · next h => subst h; rfl
      · rfl
    · rw [core_modCore]; split
      · next h =>
        subst h
        refine tget_tput_other _ _ _ ?_
        rintro rfl
        simp only [List.mem_cons, List.not_mem_nil, or_false] at hi hn
        omega
      · rfl

end CacheOnly

theorem llcEvict_cache (s : State) (w : Nat) (x : LlcLine) : CacheOnly s (s.llcEvict w x) := by
  unfold State.llcEvict
  dsimp only
  split
  · exact (CacheOnly.of_llc s _ s.free).trans (.of_count _ _ _ _ _ (by simp))
  · exact CacheOnly.of_llc s _ s.free

theorem llcRoom_cache (s : State) (w limit guest : Nat) : CacheOnly s (s.llcRoom w limit guest) := by
  unfold State.llcRoom
  dsimp only
  split
  · exact CacheOnly.of_llc s s.llc _
  · split
    · exact (CacheOnly.of_llc s s.llc _).trans (llcEvict_cache _ _ _)
    · exact CacheOnly.of_llc s s.llc _

theorem llcFill_cache (s : State) (P : Part) (guest line : Nat) (pfg : Option Nat) : CacheOnly s (s.llcFill P guest line pfg) := by
  unfold State.llcFill
  split
  · exact .refl s
  · split
    · exact .refl s
    · exact (llcRoom_cache s _ _ _).trans (CacheOnly.of_llc _ _ _)

theorem llcRead_cache (s : State) (line : Nat) : CacheOnly s (s.llcRead line) := by
  unfold State.llcRead
  split
  · exact .refl s
  · split
    · dsimp only
      split
      · refine (CacheOnly.of_llc s _ s.free).trans (.of_count _ _ _ _ _ ?_)
        split <;> simp
      · exact CacheOnly.of_llc s _ s.free
    · exact .refl s

theorem fold_cache {α : Type} (f : State → α → State) (h : ∀ s a, CacheOnly s (f s a)) (l : List α) : ∀ s, CacheOnly s (l.foldl f s) := by
  induction l with
  | nil => exact .refl
  | cons a l ih => intro s; exact (h s a).trans (ih _)

theorem llcReads_cache (s : State) (gid : Nat) (hint : BitVec 2) (lines : List (Nat × Trans)) : CacheOnly s (s.llcReads gid hint lines) := by
  unfold State.llcReads
  split
  · exact .refl s
  · split
    · exact .refl s
    · refine fold_cache _ (fun s e => ?_) _ s
      dsimp only
      split
      · exact llcRead_cache _ _
      · exact (llcRead_cache _ _).trans (llcFill_cache _ _ _ _ _)

/-- A guest's counter of a core. -/
theorem count_counter (s : State) (k u n m : Nat) :
    tget 0 ((s.count k (some u) n m).core k).counters (8192 * u + n) = tget 0 (s.core k).counters (8192 * u + n) + BitVec.ofNat 64 m := by
  unfold State.count
  dsimp only
  rw [core_modCore, if_pos rfl]
  exact tget_tput_same _ _ _ _

/-- R258: a line that leaves its slice unread counts as useless. -/
theorem llcEvict_counts (s : State) (w : Nat) (x : LlcLine) (k : Nat) (h : x.pfg = some k) :
    tget 0 ((s.llcEvict w x).core k).counters (8192 * x.guest + 0x083) = tget 0 (s.core k).counters (8192 * x.guest + 0x083) + 1 := by
  unfold State.llcEvict
  rw [h]
  exact count_counter _ _ _ _ _

/-- R258: a load's first read of a line that PFG fetched counts it as useful, or as late before it arrives. -/
theorem llcRead_counts (s : State) (line w : Nat) (x : LlcLine) (k : Nat) (hw : wayOfKey (64 * line) = some w) (hx : x ∈ tget [] s.llc w)
    (hl : x.line = line) (hk : x.pfg = some k) (one : ∀ y ∈ tget [] s.llc w, y.line = line → y = x) :
    let n := 8192 * x.guest + if x.due ≤ s.tick then 0x081 else 0x082
    tget 0 ((s.llcRead line).core k).counters n = tget 0 (s.core k).counters n + 1 ∧
      ∀ y ∈ tget [] (s.llcRead line).llc w, y.line = line → y.pfg = none := by
  intro n
  have hf : (tget [] s.llc w).find? (fun x => x.line == line && x.pfg.isSome) = some x := by
    have hs : ((tget [] s.llc w).find? (fun x => x.line == line && x.pfg.isSome)).isSome = true := by
      rw [List.find?_isSome]; exact ⟨x, hx, by simp [hl, hk]⟩
    obtain ⟨y, hy⟩ := Option.isSome_iff_exists.1 hs
    have h1 := List.mem_of_find?_eq_some hy
    have h2 := List.find?_some hy
    simp only [Bool.and_eq_true, beq_iff_eq] at h2
    rw [hy, one y h1 h2.1]
  have hr : s.llcRead line = ({ s with llc := tset s.llc w ((tget [] s.llc w).map (fun y => if y = x then { y with pfg := none } else y)) } : State).count
      k (some x.guest) (if x.due ≤ s.tick then 0x081 else 0x082) 1 := by
    unfold State.llcRead
    simp only [hw, hf, hk]
  refine ⟨?_, ?_⟩
  · rw [hr]; exact count_counter _ _ _ _ _
  · rw [hr]
    have hll : ∀ (s : State) k u n m, (State.count s k u n m).llc = s.llc := by intro s k u n m; unfold State.count; cases u <;> rfl
    rw [hll]
    intro y hy hyl
    have e : tget [] (tset s.llc w ((tget [] s.llc w).map (fun y => if y = x then { y with pfg := none } else y))) w =
        (tget [] s.llc w).map (fun y => if y = x then { y with pfg := none } else y) := by simp [tget]
    change y ∈ tget [] (tset s.llc w _) w at hy
    rw [e] at hy
    obtain ⟨z, hz, rfl⟩ := List.mem_map.1 hy
    by_cases h : z = x
    · simp [h]
    · rw [if_neg h] at hyl
      exact absurd (one z hz hyl) h

/-- R258, R254: a line that its slice lacks is brought in for a guest with a way there. -/
theorem llcFill_holds (s : State) (P : Part) (guest line w : Nat) (pfg : Option Nat) (hw : wayOfKey (64 * line) = some w) (hg : llcLimit P guest ≠ 0)
    (hn : ∀ y ∈ tget [] s.llc w, y.line ≠ line) : ∃ due, ⟨line, guest, pfg, due⟩ ∈ tget [] (s.llcFill P guest line pfg).llc w := by
  have ha : ((tget [] s.llc w).any (fun x => x.line == line)) = false := by
    rw [List.any_eq_false]; intro y hy; simpa using hn y hy
  refine ⟨(s.llcRoom w (llcLimit P guest) guest).tick + Config.freeNat (s.llcRoom w (llcLimit P guest) guest).free, ?_⟩
  unfold State.llcFill
  simp only [hw, ha, hg, Bool.false_or, decide_false, Bool.false_eq_true, if_false]
  simp [tget]

/-! ## Walks and lanes without a page (R212, R436) -/

/-- The walks of a memory instruction hold its slot only when a page was in neither TLB. -/
theorem walkHold_spec (s : State) (gid : Nat) (g : Group) (c : Ctl) (vas : List Word) (t : State) :
    let k := (s.blockOf g).core
    let w := (ctxOf s gid g c).walkHold vas t
    let held : Prop := ∀ va ∈ vas, canonical va = true → ∃ e ∈ (s.core k).tlb ++ (s.die (coreDie k)).tlb, e.tag = s.tagOf g ∧ e.page = pageOf va
    (held → w = (0, t)) ∧ (¬ held → w = (Config.freeNat t.free, { t with free := t.free + 1 })) := by
  intro k w held
  have e : (vas.all (fun va => !canonical va || ((s.core k).tlb ++ (s.die (coreDie k)).tlb).any (fun e => e.tag == s.tagOf g && e.page == pageOf va))) = true ↔ held := by
    rw [List.all_eq_true]
    refine forall_congr' fun va => forall_congr' fun _ => ?_
    rw [Bool.or_eq_true, List.any_eq_true]
    simp only [Bool.not_eq_true', Bool.and_eq_true, beq_iff_eq]
    cases canonical va <;> simp
  have hw : w = if (vas.all (fun va => !canonical va || ((s.core k).tlb ++ (s.die (coreDie k)).tlb).any (fun e => e.tag == s.tagOf g && e.page == pageOf va))) = true
      then (0, t) else (Config.freeNat t.free, { t with free := t.free + 1 }) := rfl
  refine ⟨fun h => by rw [hw, if_pos (e.2 h)], fun h => by rw [hw, if_neg (fun k => h (e.1 k))]⟩

/-- The zeros of lanes whose pages are not resident. -/
theorem zeroLanes_wrote (x : Ctx) (hx : x.run = x.g.runNow) (g : Group) (hg : g.runNow = x.g.runNow) (sz : Size) (d : VReg) (ls : List Nat) :
    WroteV g (x.zeroLanes g sz d ls) (if sz = .s64 then .i64 else .i32) d (maskOf (fun l => ls.contains l)) (fun _ v => v = 0) := by
  have hn : (vnum x.run.xs d).getD 0 = g.vname d := by rw [hx, ← hg]; rfl
  obtain ⟨m, hm⟩ : ∃ m, m = maskOf (fun l => ls.contains l) := ⟨_, rfl⟩
  rw [← hm]
  have hls : ∀ l ∈ lanesOf m, l < 32 := fun l hl => ((mem_lanesOf _ _).1 hl).1
  have key : ∀ (g : Group) (n : Nat), g.writeLanes n m (fun _ => 0) = { g with r := { g.r with v := (g.writeLanes n m (fun _ => 0)).r.v } } ∧
      ∀ k, tget 0 (g.writeLanes n m (fun _ => 0)).r.v k = if k / 32 = g.physV n ∧ k % 32 ∈ lanesOf m then 0 else tget 0 g.r.v k := by
    intro g n
    obtain ⟨h1, h2⟩ := foldV n (fun _ => 0) (lanesOf m) hls g
    exact ⟨h1, h2⟩
  unfold Ctx.zeroLanes
  simp only [hn, ← hm]
  obtain ⟨a1, a2⟩ := key g (g.vname d)
  obtain ⟨g1, hg1⟩ : ∃ g1, g1 = g.writeLanes (g.vname d) m (fun _ => 0) := ⟨_, rfl⟩
  rw [← hg1] at a1 a2 ⊢
  have div : ∀ n l, l < 32 → (32 * n + l) / 32 = n ∧ (32 * n + l) % 32 = l := by intro n l hl; omega
  by_cases h : sz = .s64
  · rw [if_pos h, if_pos h]
    obtain ⟨b1, b2⟩ := key g1 (g.vname d + 1)
    obtain ⟨g2, hg2⟩ : ∃ g2, g2 = g1.writeLanes (g.vname d + 1) m (fun _ => 0) := ⟨_, rfl⟩
    rw [← hg2] at b1 b2 ⊢
    have ep : ∀ n, g1.physV n = g.physV n := by intro n; rw [a1]; rfl
    have ep2 : ∀ n, g2.physV n = g.physV n := by intro n; rw [b1]; exact ep n
    have en : g2.vname d = g.vname d := by rw [b1, a1]; rfl
    have e3 : ∀ n l, l < 32 → tget 0 g2.r.v (32 * n + l) = if (n = g.physV (g.vname d) ∨ n = g.physV (g.vname d + 1)) ∧ bitOf m l = true then 0 else tget 0 g.r.v (32 * n + l) := by
      intro n l hl
      rw [b2, a2, (div n l hl).1, (div n l hl).2, ep]
      simp only [mem_lanesOf, hl, true_and]
      by_cases hb : bitOf m l = true <;> by_cases h1 : n = g.physV (g.vname d) <;> by_cases h2 : n = g.physV (g.vname d + 1) <;> simp [hb, h1, h2]
    have tv : ∀ l, g2.tval .i64 d l = g2.getV (g.vname d + 1) l ++ g2.getV (g.vname d) l := by intro l; rw [← en]; rfl
    refine ⟨by rw [b1, a1], fun l hl hb => ?_, fun l hl hb => ?_, fun n h1 h2 l hl => ?_⟩
    · rw [tv]
      unfold Group.getV
      rw [e3 _ _ hl, e3 _ _ hl, ep2, ep2]
      simp [hb]
    · rw [tv]
      unfold Group.getV
      rw [e3 _ _ hl, e3 _ _ hl, ep2, ep2]
      simp only [hb, Bool.false_eq_true, and_false, if_false]
      rfl
    · rw [e3 _ _ hl, if_neg]
      rintro ⟨h3 | h3, -⟩
      · exact h1 h3
      · exact h2 rfl h3
  · rw [if_neg h, if_neg h]
    have ep : ∀ n, g1.physV n = g.physV n := by intro n; rw [a1]; rfl
    have en : g1.vname d = g.vname d := by rw [a1]; rfl
    have e3 : ∀ n l, l < 32 → tget 0 g1.r.v (32 * n + l) = if n = g.physV (g.vname d) ∧ bitOf m l = true then 0 else tget 0 g.r.v (32 * n + l) := by
      intro n l hl
      rw [a2, (div n l hl).1, (div n l hl).2]
      simp only [mem_lanesOf, hl, true_and]
    have tv : ∀ l, g1.tval .i32 d l = (g1.getV (g.vname d) l).setWidth 64 := by intro l; rw [← en]; rfl
    refine ⟨a1, fun l hl hb => ?_, fun l hl hb => ?_, fun n h1 _ l hl => ?_⟩
    · rw [tv]
      unfold Group.getV
      rw [e3 _ _ hl, ep]
      simp [hb]
    · rw [tv]
      unfold Group.getV
      rw [e3 _ _ hl, ep]
      simp only [hb, Bool.false_eq_true, and_false, if_false]
      rfl
    · rw [e3 _ _ hl, if_neg]
      rintro ⟨h3, -⟩
      exact h1 h3

/-! ## PFG and PGREQ (R215, R373, R374) -/

/-- Lanes of one cause: the trap names them all, and the lowest of their addresses. -/
theorem laneTrap_one (addr : Nat → Word) (cause : Nat) (ls : List Nat) (hne : ls ≠ []) (hc : cause ≠ 0x14) :
    ∃ low ∈ ls, (∀ l ∈ ls, (addr low).toNat ≤ (addr l).toNat) ∧
      laneTrap (ls.map (fun l => ⟨l, addr l, cause, {}⟩)) = some { cause := cause, addr := addr low, lanes := maskOf (fun l => ls.contains l) } := by
  have key : ∀ (ls : List Nat) (a : Nat), ∃ low, (low = a ∨ low ∈ ls) ∧ (addr low).toNat ≤ (addr a).toNat ∧ (∀ l ∈ ls, (addr low).toNat ≤ (addr l).toNat) ∧
      (ls.map (fun l => (⟨l, addr l, cause, {}⟩ : BadLane))).foldl (fun (acc : Option BadLane) b =>
        match acc with
        | none => some b
        | some a =>
          if causeRank b.cause < causeRank a.cause ∨ (causeRank b.cause = causeRank a.cause ∧ b.va.toNat < a.va.toNat)
          then some b else acc) (some ⟨a, addr a, cause, {}⟩) = some ⟨low, addr low, cause, {}⟩ := by
    intro ls
    induction ls with
    | nil => intro a; exact ⟨a, .inl rfl, le_refl _, by simp, rfl⟩
    | cons b ls ih =>
      intro a
      rw [List.map_cons, List.foldl_cons]
      dsimp only
      by_cases h : (addr b).toNat < (addr a).toNat
      · rw [if_pos (.inr ⟨rfl, h⟩)]
        obtain ⟨low, h1, h2, h3, h4⟩ := ih b
        refine ⟨low, .inr (by rcases h1 with rfl | h1 <;> simp [*]), by omega, fun l hl => ?_, h4⟩
        rcases List.mem_cons.1 hl with rfl | hl
        · exact h2
        · exact h3 l hl
      · rw [if_neg (by rintro (h' | ⟨-, h'⟩); exact absurd h' (lt_irrefl _); exact h h')]
        obtain ⟨low, h1, h2, h3, h4⟩ := ih a
        refine ⟨low, by rcases h1 with rfl | h1 <;> simp [*], h2, fun l hl => ?_, h4⟩
        rcases List.mem_cons.1 hl with rfl | hl
        · omega
        · exact h3 l hl
  obtain ⟨a, ls, rfl⟩ := List.exists_cons_of_ne_nil hne
  obtain ⟨low, h1, h2, h3, h4⟩ := key ls a
  refine ⟨low, by rcases h1 with rfl | h1 <;> simp [*], fun l hl => ?_, ?_⟩
  · rcases List.mem_cons.1 hl with rfl | hl
    · exact h2
    · exact h3 l hl
  · unfold laneTrap
    rw [List.map_cons, List.foldl_cons]
    dsimp only
    refine (congrArg _ h4).trans ?_
    simp only [Option.map_some, Option.some.injEq]
    rw [if_neg hc]
    have e : (fun l => ((⟨a, addr a, cause, {}⟩ : BadLane) :: ls.map (fun l => ⟨l, addr l, cause, {}⟩)).any (fun x => x.lane == l)) =
        fun l => (a :: ls).contains l := by
      funext l
      rw [Bool.eq_iff_iff, List.any_eq_true, List.contains_iff_mem, ← List.map_cons (f := fun l => (⟨l, addr l, cause, {}⟩ : BadLane))]
      constructor
      · rintro ⟨b, hb, he⟩
        obtain ⟨k, hk, rfl⟩ := List.mem_map.1 hb
        rw [← beq_iff_eq.1 he]; exact hk
      · intro h; exact ⟨_, List.mem_map.2 ⟨l, h, rfl⟩, beq_self_eq_true _⟩
    rw [e]
    rfl

/-- The lanes at fault of PGREQ are those whose address is not canonical. -/
theorem requests_bad (x : Ctx) (m : VMem) :
    (x.requests m).2.1 = ((lanesOf x.act).filter (fun l => !canonical (x.vaddr true m l))).map (fun l => ⟨l, x.vaddr true m l, 0x11, {}⟩) := by
  unfold Ctx.requests
  have key : ∀ (f : List Nat × List BadLane × State → Nat → List Nat × List BadLane × State)
      (_ : ∀ acc l, (f acc l).2.1 = acc.2.1 ++ if canonical (x.vaddr true m l) then [] else [⟨l, x.vaddr true m l, 0x11, {}⟩])
      (ls : List Nat) (acc : List Nat × List BadLane × State),
      (ls.foldl f acc).2.1 = acc.2.1 ++ (ls.filter (fun l => !canonical (x.vaddr true m l))).map (fun l => ⟨l, x.vaddr true m l, 0x11, {}⟩) := by
    intro f hf ls
    induction ls with
    | nil => intro acc; simp
    | cons l ls ih =>
      intro acc
      rw [List.foldl_cons, ih, hf, List.append_assoc]
      cases h : canonical (x.vaddr true m l) <;> simp [h]
  refine (key _ (fun acc l => ?_) _ _).trans (by simp)
  obtain ⟨pages, bad, t⟩ := acc
  dsimp only
  by_cases h : canonical (x.vaddr true m l) = true
  · rw [if_neg (by simp [h]), if_pos h, List.append_nil]
    split
    · rfl
    · split
      · split <;> rfl
      · split <;> rfl
  · rw [if_pos (by simp [h]), if_neg h]

end Sys2Proof.Machine
end

