-- ==== Sys2Proof/Laws/Finish.lean ====
section
/-! SUPPORT. What the end of an instruction, of a run and of a group do, and the checks that an event meets first. -/

namespace Sys2Proof.Machine

variable {t : State} {gid : Nat} {g : Group} {i : Instr} {c : Ctl} {act : Mask} {n : Next} {extra : Nat}

/-- The slot of a group's run after an instruction. -/
def slotAfter (t : State) (gid : Nat) (g : Group) (i : Instr) (act : Mask) (extra : Nat) (x : Slot) : Slot :=
  if x.group = some gid then
    { x with free := max (t.cycle (coreDie (t.blockOf g).core)) x.free + slotCycles i + extra, skip := false,
             act := act, rg := g.runNow.rg, live := g.r.live, last := some gid, pc := g.r.pc,
             issued := t.cycle (coreDie (t.blockOf g).core) + 1 }
  else x

/-- The group after an instruction within its run. -/
def groupAfter (g : Group) (i : Instr) (n : Next) : Group :=
  let run := g.runNow
  let us := (usesOf run.xs i).filter (fun u => u.emp && g.inWindow u)
  let run1 : Run :=
    { run with
      count := run.count + 1, mkv := run.mkv ++ (us.filter (fun u => u.vec)).map g.physOf,
      mks := run.mks ++ (us.filter (fun u => !u.vec)).map g.physOf, mkx := run.mkx ++ writesX i,
      reserved := if isAsync i then run.reserved - 1 else run.reserved
      matrix := if isMatrix i then run.matrix - 1 else run.matrix }
  { g with run := some run1,
           r := { g.r with pc := match n with | .jump t => t | _ => g.r.pc + 12, head := false, replay := none } }

/-- The state after an instruction within its run. -/
def stateAfter (t : State) (gid : Nat) (g : Group) (i : Instr) (act : Mask) (n : Next) (extra : Nat) : State :=
  (t.modCore (t.blockOf g).core (fun q =>
    { q with slot0 := slotAfter t gid g i act extra q.slot0, slot1 := slotAfter t gid g i act extra q.slot1 })).setGroup gid
    (groupAfter g i n)

/-- The end of an instruction: the state within the run, and the end of the run with B. -/
theorem finish_eq (h : t.group? gid = some g) :
    finish t gid i c act n extra =
      if c.b then (stateAfter t gid g i act n extra).endRun gid c n else stateAfter t gid g i act n extra := by
  simp only [finish, h]
  rfl

theorem finish_stay (h : t.group? gid = some g) (hb : c.b = false) :
    finish t gid i c act n extra = stateAfter t gid g i act n extra := by
  rw [finish_eq h, hb]
  rfl

theorem finish_end (h : t.group? gid = some g) (hb : c.b = true) :
    finish t gid i c act n extra = (stateAfter t gid g i act n extra).endRun gid c n := by
  rw [finish_eq h, hb]
  rfl

theorem stateAfter_group (h : Nat) :
    (stateAfter t gid g i act n extra).group? h = if h = gid then some (groupAfter g i n) else t.group? h := by
  simp [stateAfter]

theorem stateAfter_mem : (stateAfter t gid g i act n extra).mem = t.mem := rfl

end Sys2Proof.Machine
end

