-- ==== Sys2Proof/Laws/Launch.lean ====
section
/-! SUPPORT. What the events of a launch do: mail to dies, rejections that follow a predecessor, groups put on a core. -/

namespace Sys2Proof.Machine

/-! ## Lists and tables -/

theorem firstSome_none {α β : Type} {f : α → Option β} {xs : List α} (h : ∀ x ∈ xs, f x = none) : firstSome f xs = none := by
  induction xs with
  | nil => rfl
  | cons x xs ih =>
    simp only [firstSome, h x (List.mem_cons_self ..)]
    exact ih (fun y hy => h y (List.mem_cons_of_mem _ hy))

/-- Entries put into a table in turn leave the keys that none of them has. -/
theorem tfind_puts_other {α : Type} (es : List (Nat × α)) (t : Table α) {j : Nat} (h : ∀ e ∈ es, e.1 ≠ j) :
    tfind (es.foldl (fun t e => tset t e.1 e.2) t) j = tfind t j := by
  induction es generalizing t with
  | nil => rfl
  | cons e es ih =>
    rw [List.foldl_cons, ih _ (fun x hx => h x (List.mem_cons_of_mem _ hx)),
      tfind_tset_other _ _ (Ne.symm (h e (List.mem_cons_self ..)))]

/-- Entries put under consecutive keys stand there. -/
theorem tfind_puts {α : Type} (n : Nat) (f : Nat → α) (a : Nat) (t : Table α) {i : Nat} (h : i < n) :
    tfind (((List.range n).map (fun i => (a + i, f i))).foldl (fun t e => tset t e.1 e.2) t) (a + i) = some (f i) := by
  induction n generalizing i with
  | zero => omega
  | succ n ih =>
    rw [List.range_succ, List.map_append, List.foldl_append]
    simp only [List.map_cons, List.map_nil, List.foldl_cons, List.foldl_nil]
    by_cases hi : i = n
    · subst hi; simp
    · rw [tfind_tset_other _ _ (by omega)]; exact ih (by omega)

/-! ## Groups changed in turn -/

theorem group_modGroup (s : State) (g : Nat) (f : Group → Group) (h : Nat) :
    (s.modGroup g f).group? h = if h = g then (s.group? g).map f else s.group? h := by
  unfold State.modGroup
  cases hg : s.group? g with
  | none =>
    by_cases e : h = g
    · subst e; simp [hg]
    · simp [e]
  | some x => by_cases e : h = g <;> simp [e]

theorem group_modEach_other (f : Group → Group) (gs : List Nat) (s : State) {h : Nat} (hn : h ∉ gs) :
    (gs.foldl (fun s g => s.modGroup g f) s).group? h = s.group? h := by
  induction gs generalizing s with
  | nil => rfl
  | cons g gs ih =>
    rw [List.mem_cons, not_or] at hn
    rw [List.foldl_cons, ih _ hn.2, group_modGroup, if_neg hn.1]

theorem group_modEach (f : Group → Group) (gs : List Nat) (s : State) {h : Nat} (hd : gs.Nodup) (hm : h ∈ gs) :
    (gs.foldl (fun s g => s.modGroup g f) s).group? h = (s.group? h).map f := by
  induction gs generalizing s with
  | nil => cases hm
  | cons g gs ih =>
    rw [List.nodup_cons] at hd
    rw [List.foldl_cons]
    by_cases e : h = g
    · subst e; rw [group_modEach_other _ _ _ hd.1, group_modGroup, if_pos rfl]
    · rw [ih _ hd.2 (by simpa [e] using hm), group_modGroup, if_neg e]

/-- Groups changed in turn leave every other part of the state. -/
theorem modEach_fields (f : Group → Group) (gs : List Nat) (s : State) :
    let t := gs.foldl (fun s g => s.modGroup g f) s
    t.mem = s.mem ∧ t.blocks = s.blocks ∧ t.launches = s.launches ∧ t.dies = s.dies ∧ t.disabled = s.disabled := by
  induction gs generalizing s with
  | nil => exact ⟨rfl, rfl, rfl, rfl, rfl⟩
  | cons g gs ih => have := ih (s.modGroup g f); simpa using this

/-! ## Mail (R360) -/

theorem die_mailTo (s : State) (a : Nat) (m : MboxItem) (b : Nat) :
    (mailTo s a m).die b =
      if b = a then Die.letIn { s.die b with inbound := (s.die b).inbound ++ [m] } else s.die b := by
  rw [mailTo, State.die_modDie]
  by_cases h : b = a <;> simp [h]

theorem nodup_dieList (s : State) (P : Part) : (s.dieList P).Nodup := by
  unfold State.dieList
  exact List.Nodup.filter _ ((List.nodup_map_iff (fun a b h => by simpa using h)).2 List.nodup_range)

/-- What sending items leaves as it was. -/
theorem mailTo_fields (s : State) (p : Nat) (m : MboxItem) :
    (mailTo s p m).mem = s.mem ∧ (mailTo s p m).parts = s.parts ∧ (mailTo s p m).launches = s.launches ∧
      (mailTo s p m).groups = s.groups ∧ (mailTo s p m).blocks = s.blocks := ⟨rfl, rfl, rfl, rfl, rfl⟩

theorem mailAll_fields (s : State) (P : Part) (m : MboxItem) :
    (mailAll s P m).mem = s.mem ∧ (mailAll s P m).parts = s.parts ∧ (mailAll s P m).launches = s.launches ∧
      (mailAll s P m).groups = s.groups ∧ (mailAll s P m).blocks = s.blocks := by
  have key : ∀ (ps : List Nat) (s : State), (ps.foldl (fun s p => mailTo s p m) s).mem = s.mem ∧
      (ps.foldl (fun s p => mailTo s p m) s).parts = s.parts ∧ (ps.foldl (fun s p => mailTo s p m) s).launches = s.launches ∧
      (ps.foldl (fun s p => mailTo s p m) s).groups = s.groups ∧ (ps.foldl (fun s p => mailTo s p m) s).blocks = s.blocks := by
    intro ps
    induction ps with
    | nil => intro s; exact ⟨rfl, rfl, rfl, rfl, rfl⟩
    | cons p ps ih => intro s; exact ih (mailTo s p m)
  exact key _ _

/-! ## Blocks that are taken off -/

/-- What taking a block off its core leaves as it was, and that the block is gone. -/
theorem dropBlock_fields (s : State) (bid : Nat) :
    (s.dropBlock bid).mem = s.mem ∧ (s.dropBlock bid).parts = s.parts ∧ (s.dropBlock bid).launches = s.launches ∧
      (∀ p, ((s.dropBlock bid).die p).save = (s.die p).save) ∧
      (∀ b, tfind (s.dropBlock bid).blocks b = if b = bid then none else tfind s.blocks b) := by
  have hf : ∀ (s : State) (k l : Nat), (s.freeCtx k l).mem = s.mem ∧ (s.freeCtx k l).parts = s.parts ∧
      (s.freeCtx k l).launches = s.launches ∧ (s.freeCtx k l).dies = s.dies ∧ (s.freeCtx k l).blocks = s.blocks := by
    intro s k l
    unfold State.freeCtx
    split <;> exact ⟨rfl, rfl, rfl, rfl, rfl⟩
  unfold State.dropBlock
  cases hb : tfind s.blocks bid with
  | none =>
    refine ⟨rfl, rfl, rfl, fun _ => rfl, fun b => ?_⟩
    by_cases h : b = bid
    · subst h; simpa using hb
    · simp [h]
  | some b =>
    cases hl : b.launch with
    | none =>
      simp only [hl]
      refine ⟨rfl, rfl, rfl, fun p => ?_, fun b => tfind_tdel _ _ _⟩
      simp only [State.die_modDie]
      by_cases h : p = coreDie b.core <;> simp [h, State.die]
    | some l =>
      simp only [hl]
      refine ⟨(hf _ _ _).1, (hf _ _ _).2.1, (hf _ _ _).2.2.1, fun p => ?_, fun c => ?_⟩
      · rw [State.die, (hf _ _ _).2.2.2.1, ← State.die, State.die_modDie]
        by_cases h : p = coreDie b.core <;> simp [h, State.die]
      · rw [(hf _ _ _).2.2.2.2]; exact tfind_tdel _ _ _

/-- The same of taking off some blocks in turn. -/
theorem dropBlocks_fields (bs : List Nat) (s : State) :
    let t := bs.foldl (fun s b => s.dropBlock b) s
    t.mem = s.mem ∧ t.parts = s.parts ∧ t.launches = s.launches ∧ (∀ p, (t.die p).save = (s.die p).save) ∧
      (∀ b, tfind t.blocks b = if b ∈ bs then none else tfind s.blocks b) := by
  induction bs generalizing s with
  | nil => exact ⟨rfl, rfl, rfl, fun _ => rfl, fun _ => by simp⟩
  | cons x xs ih =>
    obtain ⟨i1, i2, i3, i4, i5⟩ := ih (s.dropBlock x)
    obtain ⟨d1, d2, d3, d4, d5⟩ := dropBlock_fields s x
    rw [List.foldl_cons]
    refine ⟨i1.trans d1, i2.trans d2, i3.trans d3, fun p => (i4 p).trans (d4 p), fun b => ?_⟩
    rw [i5, d5]
    by_cases h1 : b ∈ xs <;> by_cases h2 : b = x <;> simp [h1, h2]

/-- A die that is not sent an item keeps its mailbox. -/
theorem die_mail_other (m : MboxItem) (ps : List Nat) (s : State) {p : Nat} (h : p ∉ ps) :
    (ps.foldl (fun s p => mailTo s p m) s).die p = s.die p := by
  induction ps generalizing s with
  | nil => rfl
  | cons a ps ih =>
    rw [List.mem_cons, not_or] at h
    rw [List.foldl_cons, ih _ h.2, die_mailTo, if_neg h.1]

/-- Every die of a partition is sent an item once. -/
theorem die_mailAll (s : State) (P : Part) (m : MboxItem) {p : Nat} (h : p ∈ s.dieList P) :
    (mailAll s P m).die p = Die.letIn { s.die p with inbound := (s.die p).inbound ++ [m] } := by
  have key : ∀ (ps : List Nat) (s : State), ps.Nodup → p ∈ ps →
      (ps.foldl (fun s p => mailTo s p m) s).die p =
        Die.letIn { s.die p with inbound := (s.die p).inbound ++ [m] } := by
    intro ps
    induction ps with
    | nil => intro s _ h; cases h
    | cons a ps ih =>
      intro s hn h
      rw [List.nodup_cons] at hn
      rw [List.foldl_cons]
      by_cases ha : p = a
      · subst ha; rw [die_mail_other _ _ _ hn.1, die_mailTo, if_pos rfl]
      · rw [ih _ hn.2 (by simpa [ha] using h), die_mailTo, if_neg ha]
  exact key _ _ (nodup_dieList s P) h

/-! ## Rejections (R29) -/

/-- With no posted launch behind a rejected or terminated one, nothing more is rejected. -/
theorem rejectFollowers_none {s : State} (n : Nat)
    (h : ∀ i m, s.launch? i = some m → m.phase = .posted → s.badPred m = none) : State.rejectFollowers n s = s := by
  cases n with
  | zero => rfl
  | succ n =>
    unfold State.rejectFollowers
    rw [firstSome_none]
    intro x _
    cases hx : s.launch? x with
    | none => rfl
    | some m =>
      simp only
      by_cases hm : m.phase = .posted
      · simp [hm, h x m hx hm]
      · simp [hm]

/-- A rejected launch is recorded with its reason and byte. -/
theorem rejectOne_eq {s : State} {lid : Nat} {l : Launch} {P : Part} (hl : s.launch? lid = some l) (hP : s.part? l.part = some P)
    (reason byte : Nat) :
    s.rejectOne lid reason byte = (s.modLaunch lid (fun l => { l with phase := .rejected })).ringAdd P P.lrring
      (leBytes 4 l.ident.toNat ++ leBytes 1 2 ++ leBytes 1 reason ++ leBytes 2 byte ++ leBytes 8 (State.cWord l).toNat) := by
  have h1 : (s.modLaunch lid (fun l => { l with phase := .rejected })).launch? lid = some { l with phase := .rejected } := by
    simp only [State.launch?, State.modLaunch, tfind_tmod]
    rw [show tfind s.launches lid = some l from hl]
    simp
  have h2 : (s.modLaunch lid (fun l => { l with phase := .rejected })).part? l.part = some P := hP
  simp only [State.rejectOne, State.record, h1, h2]
  rfl

/-- Dies that report no byte reject nothing. -/
theorem reportedByte_none {l : Launch} (h : ∀ r ∈ l.reports, r.2 = none) : reportedByte l = none := by
  simp only [reportedByte]
  rw [show l.reports.filterMap (fun r => r.2) = [] from by rw [List.filterMap_eq_nil_iff]; exact h]
  rfl

/-- The byte of a rejection is the lowest that a die reports. -/
theorem reportedByte_lowest {l : Launch} {p byte : Nat} (h : (p, some byte) ∈ l.reports)
    (hm : ∀ q b, (q, some b) ∈ l.reports → byte ≤ b) : reportedByte l = some byte := by
  have key : ∀ (xs : List Nat) (a : Nat), byte ≤ a → (∀ b ∈ xs, byte ≤ b) → (byte = a ∨ byte ∈ xs) →
      xs.foldl (fun acc b => match acc with | none => some b | some a => some (min a b)) (some a) = some byte := by
    intro xs
    induction xs with
    | nil => intro a _ _ h; simpa [eq_comm] using h
    | cons x xs ih =>
      intro a h1 h2 h3
      have hx := h2 x (List.mem_cons_self ..)
      refine ih (min a x) (by omega) (fun b hb => h2 b (List.mem_cons_of_mem _ hb)) ?_
      rcases h3 with h3 | h3
      · exact .inl (by omega)
      · rcases List.mem_cons.1 h3 with h3 | h3
        · exact .inl (by omega)
        · exact .inr h3
  have hin : byte ∈ l.reports.filterMap (fun r => r.2) := List.mem_filterMap.2 ⟨_, h, rfl⟩
  have hle : ∀ b ∈ l.reports.filterMap (fun r => r.2), byte ≤ b := by
    intro b hb
    obtain ⟨⟨q, r⟩, hq, hr⟩ := List.mem_filterMap.1 hb
    exact hm q b (by rw [← show r = some b from hr]; exact hq)
  simp only [reportedByte]
  generalize l.reports.filterMap (fun r => r.2) = xs at *
  cases xs with
  | nil => cases hin
  | cons x xs =>
    exact key xs x (hle x (List.mem_cons_self ..)) (fun b hb => hle b (List.mem_cons_of_mem _ hb)) (List.mem_cons.1 hin)

end Sys2Proof.Machine
end

