-- ==== Sys2Proof/Laws/Run.lean ====
section
/-! SUPPORT. What the end of a run, a crossing and a retirement do: device memory and local stores stay as they are, and of the
groups only the one that ends its run changes. -/

namespace Sys2Proof.Machine.State

/-- Device memory and every local store are the same in both states. -/
structure SameMem (s t : State) : Prop where
  mem : t.mem = s.mem
  blocks : ∀ b, (t.block? b).map (fun x => x.mem) = (s.block? b).map (fun x => x.mem)

/-- Memory and the groups are the same in both states. -/
structure Quiet (s t : State) : Prop extends SameMem s t where
  groups : ∀ h, t.group? h = s.group? h

theorem SameMem.refl (s : State) : SameMem s s := ⟨rfl, fun _ => rfl⟩

theorem SameMem.trans {s t u : State} (a : SameMem s t) (b : SameMem t u) : SameMem s u :=
  ⟨b.mem.trans a.mem, fun x => (b.blocks x).trans (a.blocks x)⟩

theorem Quiet.refl (s : State) : Quiet s s := ⟨.refl s, fun _ => rfl⟩

theorem Quiet.trans {s t u : State} (a : Quiet s t) (b : Quiet t u) : Quiet s u :=
  ⟨a.toSameMem.trans b.toSameMem, fun x => (b.groups x).trans (a.groups x)⟩

theorem sameMem_setGroup (s : State) (gid : Nat) (g : Group) : SameMem s (s.setGroup gid g) := ⟨rfl, fun _ => by simp⟩

theorem quiet_modCore (s : State) (k : Nat) (f : Core → Core) : Quiet s (s.modCore k f) :=
  ⟨⟨rfl, fun _ => by simp⟩, fun _ => by simp⟩

/-- A change of a block that keeps its local store. -/
theorem quiet_modBlock (s : State) (b : Nat) (f : Block → Block) (hf : ∀ x, (f x).mem = x.mem) : Quiet s (s.modBlock b f) := by
  refine ⟨⟨by simp, fun c => ?_⟩, fun h => by simp⟩
  unfold modBlock
  split
  · next x h =>
    rw [block_setBlock]
    split
    · next e => subst e; simp [h, hf]
    · rfl
  · rfl

theorem quiet_noteCross (s : State) (b st : Nat) : Quiet s (s.noteCross b st) := quiet_modBlock _ _ _ (fun _ => rfl)

theorem quiet_faultRecord (s : State) (g : Group) : Quiet s (s.faultRecord g) := by
  unfold faultRecord bboxAdd
  split
  · exact .refl _
  · exact ⟨⟨rfl, fun _ => by simp⟩, fun _ => by simp⟩

theorem quiet_noteFinal (s : State) (g : Group) : Quiet s (s.noteFinal g) := by
  unfold noteFinal
  split
  · split
    · exact .refl _
    · exact ⟨⟨rfl, fun _ => by simp⟩, fun _ => by simp⟩
  · exact .refl _

theorem quiet_settle (s : State) (b : Nat) (l : List Entry) : Quiet s (s.settle b l) := by
  unfold settle
  split
  · exact .refl _
  · exact ⟨⟨rfl, fun _ => rfl⟩, fun _ => rfl⟩

theorem quiet_dropOps (s : State) (b : Nat) (l : List Nat) : Quiet s (s.dropOps b l) := by
  unfold dropOps
  split
  · exact .refl _
  · refine Quiet.trans (Quiet.trans ?_ (quiet_modCore ..)) (quiet_settle ..)
    refine Quiet.trans (t := { s with ops := s.ops.filter (fun e => !l.contains e.1) }) ⟨⟨rfl, fun _ => rfl⟩, fun _ => rfl⟩ ?_
    exact quiet_modBlock _ _ _ (fun _ => rfl)

theorem quiet_abandon (s : State) (g b : Nat) : Quiet s (s.abandon g b) := by
  unfold abandon
  split
  · exact .refl _
  · exact quiet_dropOps ..

/-! ## Crossings (R55, R69) -/

/-- What `n` crossings of a group change of it: its step numbers and the record of its held crossings. -/
def Crossed (glob : Bool) (n : Nat) (g h : Group) : Prop :=
  h = { g with r := { g.r with lstep := g.r.lstep + n, gstep := g.r.gstep + if glob then n else 0 }, heldX := h.heldX }

theorem crossOne_spec (s : State) (gid : Nat) (glob : Bool) :
    SameMem s (s.crossOne gid glob) ∧ (∀ h, h ≠ gid → (s.crossOne gid glob).group? h = s.group? h) ∧
    (∀ g, s.group? gid = some g → ∃ h, (s.crossOne gid glob).group? gid = some h ∧ Crossed glob 1 g h) := by
  unfold crossOne
  split
  · next hn => exact ⟨.refl s, fun _ _ => rfl, fun g hg => by rw [hn] at hg; cases hg⟩
  · next g0 hg0 =>
    refine ⟨(quiet_noteCross ..).toSameMem.trans (sameMem_setGroup ..), fun h hh => ?_, fun g hg => ?_⟩
    · simp only [group_setGroup, hh, if_false]
      exact (quiet_noteCross ..).groups _
    · rw [hg0] at hg
      cases hg
      refine ⟨_, by rw [group_setGroup, if_pos rfl], ?_⟩
      unfold Crossed
      cases glob <;> simp

theorem crossN_spec (s : State) (gid : Nat) (glob : Bool) (n : Nat) :
    SameMem s (s.crossN gid glob n) ∧ (∀ h, h ≠ gid → (s.crossN gid glob n).group? h = s.group? h) ∧
    (∀ g, s.group? gid = some g → ∃ h, (s.crossN gid glob n).group? gid = some h ∧ Crossed glob n g h) := by
  induction n generalizing s with
  | zero =>
    refine ⟨.refl s, fun _ _ => rfl, fun g hg => ⟨g, hg, ?_⟩⟩
    unfold Crossed
    cases g
    cases glob <;> simp
  | succ n ih =>
    unfold crossN
    obtain ⟨h1, h2, h3⟩ := ih (s.crossOne gid glob)
    obtain ⟨k1, k2, k3⟩ := crossOne_spec s gid glob
    refine ⟨k1.trans h1, fun h hh => (h2 h hh).trans (k2 h hh), fun g hg => ?_⟩
    obtain ⟨g1, hg1, e1⟩ := k3 g hg
    obtain ⟨g2, hg2, e2⟩ := h3 g1 hg1
    refine ⟨g2, hg2, ?_⟩
    unfold Crossed at *
    rw [e2, e1]
    cases glob <;> simp <;> omega

/-! ## Retirement (R36) -/

/-- Freeing a retired group's planes touches nothing of the groups but its own mark (R42, R364). -/
theorem freePlanes_spec (s : State) (gid : Nat) (g : Group) (hg : s.group? gid = some g) :
    SameMem s (s.freePlanes gid) ∧ (∀ h, h ≠ gid → (s.freePlanes gid).group? h = s.group? h) ∧
    ∃ f, (s.freePlanes gid).group? gid = some { g with freed := f } := by
  unfold freePlanes
  simp only [hg]
  split
  · exact ⟨.refl s, fun _ _ => rfl, g.freed, hg⟩
  · refine ⟨(quiet_modCore ..).toSameMem.trans (sameMem_setGroup ..), fun h hh => ?_, true, ?_⟩
    · rw [group_setGroup, if_neg hh]
      exact (quiet_modCore ..).groups h
    · rw [group_setGroup, if_pos rfl]

theorem retire_spec (s : State) (gid : Nat) (g : Group) (hg : s.group? gid = some g) :
    SameMem s (s.retire gid) ∧ (∀ h, h ≠ gid → (s.retire gid).group? h = s.group? h) ∧
    ∃ f, (s.retire gid).group? gid =
      some { g with retired := true, run := none, notices := [], tlbi := none, heldX := [], freed := f } := by
  unfold retire
  simp only [hg]
  have q0 : Quiet s ((((s.faultRecord g).noteFinal g).noteCross g.blk g.r.lstep).freeSlot (s.blockOf g).core gid) :=
    (quiet_faultRecord s g).trans ((quiet_noteFinal _ g).trans ((quiet_noteCross ..).trans (quiet_modCore ..)))
  have q1 := quiet_abandon (((((s.faultRecord g).noteFinal g).noteCross g.blk g.r.lstep).freeSlot (s.blockOf g).core gid).setGroup
    gid { g with retired := true, run := none, notices := [], tlbi := none, heldX := [] }) gid g.blk
  obtain ⟨m, o, f, e⟩ := freePlanes_spec _ gid _ (by rw [q1.groups, group_setGroup, if_pos rfl])
  refine ⟨q0.toSameMem.trans ((sameMem_setGroup ..).trans (q1.toSameMem.trans m)), fun h hh => ?_, f, e⟩
  rw [o h hh, q1.groups, group_setGroup, if_neg hh]
  exact q0.groups h

/-! ## The end of a run (R43) -/

/-- Boundaries that an instruction with B crosses. -/
def crossings (c : Ctl) : Next → Nat
  | .pass m => m
  | .later => 0
  | _ => if c.l then 1 else 0

/-- The shadow taken at the end of a run; TLBINV's run crosses and takes it later (R240, R416). -/
def closeShadow (s : State) (gid : Nat) (c : Ctl) : Next → State
  | .later => s
  | _ => if c.l then s.pushShadow gid else s

/-- The group at the end of its run, before any crossing. -/
def runOver (g : Group) : Group := { g with run := none, r := { g.r with head := true } }

/-- The state at the end of a run, before any crossing. -/
def slotOver (s : State) (gid : Nat) (g : Group) (c : Ctl) : State :=
  ((s.setGroup gid (runOver g)).freeSlot (s.blockOf g).core gid).markYield (s.blockOf g).core gid c.y

/-- Where the group goes after the crossings. -/
def leave (s : State) (gid : Nat) (g : Group) : Next → State
  | .rett => s.returnTrap gid g
  | .detach => s.leaveHorizon gid
  | _ => s

/-- The end of a run: the slot is free, the boundaries are crossed, and a group without a live lane retires. -/
theorem endRun_eq {s : State} {gid : Nat} {g : Group} {c : Ctl} {n : Next} (hg : s.group? gid = some g) :
    s.endRun gid c n =
      match ((slotOver s gid g c).crossN gid c.g (crossings c n)).group? gid with
      | none => (slotOver s gid g c).crossN gid c.g (crossings c n)
      | some g2 =>
        if g2.r.live = 0 then ((slotOver s gid g c).crossN gid c.g (crossings c n)).retire gid
        else
          closeShadow (leave ((slotOver s gid g c).crossN gid c.g (crossings c n)) gid g2 n) gid c n := by
  unfold endRun
  rw [hg]
  cases n <;> rfl

theorem slotOver_spec (s : State) (gid : Nat) (g : Group) (c : Ctl) :
    SameMem s (slotOver s gid g c) ∧
    (∀ h, (slotOver s gid g c).group? h = if h = gid then some (runOver g) else s.group? h) := by
  refine ⟨⟨?_, fun b => ?_⟩, fun h => ?_⟩ <;> simp [slotOver, freeSlot, markYield]

/-! ## The rest of the panel -/

/-- Only groups, cores and blocks differ. -/
def Near (s t : State) : Prop := t = { s with groups := t.groups, cores := t.cores, blocks := t.blocks }

theorem Near.trans {s t u : State} (a : Near s t) (b : Near t u) : Near s u := by
  unfold Near at *
  rw [b, a]

theorem near_noteCross (s : State) (b st : Nat) : Near s (s.noteCross b st) := by
  unfold noteCross modBlock
  split <;> rfl

theorem near_crossN (s : State) (gid : Nat) (glob : Bool) (n : Nat) :
    Near s (s.crossN gid glob n) ∧ (s.crossN gid glob n).cores = s.cores := by
  induction n generalizing s with
  | zero => exact ⟨rfl, rfl⟩
  | succ n ih =>
    have h : Near s (s.crossOne gid glob) ∧ (s.crossOne gid glob).cores = s.cores := by
      unfold crossOne
      split
      · exact ⟨rfl, rfl⟩
      · refine ⟨Near.trans (near_noteCross ..) rfl, ?_⟩
        simp only [setGroup_cores]
        unfold noteCross modBlock
        split <;> rfl
    exact ⟨Near.trans h.1 (ih _).1, (ih _).2.trans h.2⟩

/-- Taking a shadow keeps everything but the group's shadows and the records that only they need (R240). -/
theorem pushShadow_spec (s : State) (gid : Nat) :
    (s.pushShadow gid).mem = s.mem ∧ (∀ b, (s.pushShadow gid).block? b = s.block? b) ∧ Near s (s.pushShadow gid) ∧
    (s.pushShadow gid).cores = s.cores ∧ (∀ h, h ≠ gid → (s.pushShadow gid).group? h = s.group? h) ∧
    ∀ g, s.group? gid = some g → ∃ h, (s.pushShadow gid).group? gid = some h ∧
      h = { g with shadows := h.shadows, taken := h.taken, sent := h.sent } := by
  unfold pushShadow
  split
  · next h => exact ⟨rfl, fun _ => rfl, rfl, rfl, fun _ _ => rfl, fun g hg => by rw [h] at hg; cases hg⟩
  · next g0 hg0 =>
    refine ⟨rfl, fun _ => by simp, rfl, rfl, fun h hh => by simp [hh], fun g hg => ?_⟩
    rw [hg0] at hg
    cases hg
    exact ⟨_, by simp; rfl, rfl⟩

/-- At the end of a run neither slot of the core holds the group (R43). -/
theorem slotOver_slots (s : State) (gid : Nat) (g : Group) (c : Ctl) :
    Near s (slotOver s gid g c) ∧ ((slotOver s gid g c).core (s.blockOf g).core).slot0.group ≠ some gid ∧
    ((slotOver s gid g c).core (s.blockOf g).core).slot1.group ≠ some gid := by
  refine ⟨rfl, ?_, ?_⟩ <;> simp only [slotOver, freeSlot, markYield, core_modCore, if_pos, core_setGroup] <;> split <;> simp_all

/-- The next pc of an instruction. -/
def pcAfter (g : Group) : Next → Word
  | .jump p => p
  | _ => g.r.pc + 12

/-- The end of a run of a group with a live lane: the state after its crossings, and what follows in it. -/
theorem finish_live {t : State} {gid : Nat} {g : Group} {i : Instr} {c : Ctl} {act : Mask} {n : Next} {extra : Nat}
    (hg : t.group? gid = some g) (hb : c.b = true) (hl : g.r.live ≠ 0) :
    ∃ (s : State) (h : Group), s.group? gid = some h ∧
      h = { g with
        run := none
        heldX := h.heldX
        r := { g.r with
          pc := pcAfter g n, head := true, replay := none, lstep := g.r.lstep + crossings c n,
          gstep := g.r.gstep + if c.g then crossings c n else 0 } } ∧
      Near t s ∧ SameMem t s ∧ (∀ j, j ≠ gid → s.group? j = t.group? j) ∧
      (s.core (t.blockOf g).core).slot0.group ≠ some gid ∧ (s.core (t.blockOf g).core).slot1.group ≠ some gid ∧
      finish t gid i c act n extra = closeShadow (leave s gid h n) gid c n := by
  rw [finish_end hg hb]
  have hgA : (stateAfter t gid g i act n extra).group? gid = some (groupAfter g i n) := by rw [stateAfter_group, if_pos rfl]
  rw [endRun_eq hgA]
  obtain ⟨o1, o2⟩ := slotOver_spec (stateAfter t gid g i act n extra) gid (groupAfter g i n) c
  obtain ⟨p1, p2, p3⟩ := slotOver_slots (stateAfter t gid g i act n extra) gid (groupAfter g i n) c
  have hk : ((stateAfter t gid g i act n extra).blockOf (groupAfter g i n)).core = (t.blockOf g).core := by
    simp [stateAfter]
    rfl
  rw [hk] at p2 p3
  have hT : Near t (stateAfter t gid g i act n extra) := rfl
  have hM : SameMem t (stateAfter t gid g i act n extra) := ⟨rfl, fun _ => by simp [stateAfter]⟩
  generalize slotOver (stateAfter t gid g i act n extra) gid (groupAfter g i n) c = s1 at *
  obtain ⟨h1, h3, h4⟩ := crossN_spec s1 gid c.g (crossings c n)
  obtain ⟨n1, n2⟩ := near_crossN s1 gid c.g (crossings c n)
  obtain ⟨g2, hg2, e2⟩ := h4 _ (by rw [o2, if_pos rfl])
  rw [hg2]
  have e3 : g2.r.live = g.r.live := by rw [e2]; rfl
  have hcore : ∀ k, (s1.crossN gid c.g (crossings c n)).core k = s1.core k := fun k => core_congr n2 k
  refine ⟨s1.crossN gid c.g (crossings c n), g2, hg2, ?_, (hT.trans p1).trans n1, (hM.trans o1).trans h1, ?_, ?_, ?_, ?_⟩
  · rw [e2]
    cases n <;> rfl
  · intro j hj
    rw [h3 j hj, o2, if_neg hj, stateAfter_group, if_neg hj]
  · rw [hcore]; exact p2
  · rw [hcore]; exact p3
  · have hlive : g2.r.live ≠ 0 := by rw [e3]; exact hl
    simp only [hlive, if_false]

/-- No slot has come to hold the group. -/
structure NoSlot (gid : Nat) (s t : State) : Prop where
  zero : ∀ k, (t.core k).slot0.group = some gid → (s.core k).slot0.group = some gid
  one : ∀ k, (t.core k).slot1.group = some gid → (s.core k).slot1.group = some gid

theorem NoSlot.trans {gid : Nat} {s t u : State} (a : NoSlot gid s t) (b : NoSlot gid t u) : NoSlot gid s u :=
  ⟨fun k h => a.zero k (b.zero k h), fun k h => a.one k (b.one k h)⟩

theorem noSlot_cores {gid : Nat} {s t : State} (h : t.cores = s.cores) : NoSlot gid s t :=
  ⟨fun k e => by rwa [core_congr h k] at e, fun k e => by rwa [core_congr h k] at e⟩

theorem noSlot_modCore (gid : Nat) (s : State) (k : Nat) (f : Core → Core)
    (h : ∀ c : Core, ((f c).slot0.group = some gid → c.slot0.group = some gid) ∧ ((f c).slot1.group = some gid → c.slot1.group = some gid)) :
    NoSlot gid s (s.modCore k f) := by
  constructor <;> intro q <;> rw [core_modCore] <;> split
  · next e => subst e; exact (h _).1
  · exact id
  · next e => subst e; exact (h _).2
  · exact id

theorem noSlot_freePlanes (s : State) (gid : Nat) : NoSlot gid s (s.freePlanes gid) := by
  unfold freePlanes
  split
  · exact noSlot_cores rfl
  · dsimp only
    split
    · exact noSlot_cores rfl
    · refine NoSlot.trans (noSlot_modCore gid s _ _ ?_) (noSlot_cores (setGroup_cores ..))
      exact fun c => ⟨id, id⟩

theorem noSlot_settle (gid : Nat) (s : State) (b : Nat) (l : List Entry) : NoSlot gid s (s.settle b l) := by
  unfold settle
  split <;> exact noSlot_cores rfl

theorem noSlot_abandon (s : State) (gid b : Nat) : NoSlot gid s (s.abandon gid b) := by
  unfold abandon
  split
  · exact noSlot_cores rfl
  · unfold dropOps
    split
    · exact noSlot_cores rfl
    · dsimp only
      refine NoSlot.trans ?_ (noSlot_settle gid _ _ _)
      refine NoSlot.trans ?_ (noSlot_modCore gid _ _ _ (fun c => ⟨id, id⟩))
      exact noSlot_cores (modBlock_cores _ _ _)

/-- A retirement puts its group into no slot. -/
theorem noSlot_retire (s : State) (gid : Nat) : NoSlot gid s (s.retire gid) := by
  unfold retire
  split
  · exact noSlot_cores rfl
  · next g hg =>
    dsimp only
    refine NoSlot.trans ?_ (noSlot_freePlanes _ _)
    refine NoSlot.trans ?_ (noSlot_abandon _ _ _)
    refine NoSlot.trans ?_ (noSlot_cores (setGroup_cores _ _ _))
    unfold freeSlot
    refine NoSlot.trans (noSlot_cores ?_) (noSlot_modCore gid _ _ _ (fun c => ⟨fun h => ?_, fun h => ?_⟩))
    · unfold noteCross
      rw [modBlock_cores]
      unfold noteFinal faultRecord bboxAdd
      split <;> (try split) <;> (try split) <;> rfl
    · dsimp only at h
      split at h
      · cases h
      · exact h
    · dsimp only at h
      split at h
      · cases h
      · exact h

end Sys2Proof.Machine.State
end

