-- ==== Sys2Proof/Laws/Sum.lean ====
section
/-! SUPPORT. Sums of floats in any order (R162 to R164): each result keeps its bound and its special values, and a larger term never
gives a smaller result. -/

namespace Sys2Proof.Machine

/-! ## Places of codes -/

/-- The number at a place of a format's order. -/
noncomputable def FloatFmt.placeReal (f : FloatFmt) (i : Int) : ℝ := if i < 0 then -f.magVal (-i - 1).toNat else f.magVal i.toNat

/-- What the lemmas of sums need of a format; FP32, FP16 and BF16 have it. -/
structure FloatFmt.Full (f : FloatFmt) : Prop where
  fb : 0 < f.fb
  inf : f.inf = some (f.maxCode + 1)
  room : f.maxCode + 1 < 2 ^ (f.eb + f.fb)

theorem full_of_mem {f : FloatFmt} (h : f ∈ [fp32, fp16, bf16]) : f.Full := by
  have hf : f = fp32 ∨ f = fp16 ∨ f = bf16 := by simpa using h
  rcases hf with rfl | rfl | rfl <;> exact ⟨by decide, by decide, by decide⟩

theorem FloatFmt.magVal_nonneg (f : FloatFmt) (c : Nat) : 0 ≤ f.magVal c := by
  rw [← f.magVal_zero]; exact f.magVal_strictMono.monotone (Nat.zero_le c)

theorem FloatFmt.place_signed (f : FloatFmt) (neg : Bool) (mag : Nat) (h : mag < 2 ^ (f.eb + f.fb)) :
    f.place (f.signed neg mag) = if neg then -(mag : Int) - 1 else mag := by
  have hw : 2 ^ f.width = 2 * 2 ^ (f.eb + f.fb) := by rw [FloatFmt.width, pow_succ]; ring
  unfold FloatFmt.place FloatFmt.signed
  cases neg
  · simp only [Bool.false_eq_true, if_false, add_zero]
    rw [Nat.mod_eq_of_lt h, Nat.mod_eq_of_lt (by omega), if_neg (by omega)]
  · simp only [if_true]
    rw [Nat.add_mod_right, Nat.mod_eq_of_lt h, Nat.mod_eq_of_lt (by omega), if_pos (by omega)]

theorem FloatFmt.placeReal_mono (f : FloatFmt) {i j : Int} (h : i ≤ j) : f.placeReal i ≤ f.placeReal j := by
  unfold FloatFmt.placeReal
  split
  · split
    · have := f.magVal_strictMono.monotone (show (-j - 1).toNat ≤ (-i - 1).toNat by omega)
      linarith
    · have := f.magVal_nonneg (-i - 1).toNat; have := f.magVal_nonneg j.toNat; linarith
  · rw [if_neg (by omega)]
    exact f.magVal_strictMono.monotone (by omega)

/-- The value of the code at a place: a number, or an infinity at either end. -/
theorem FloatFmt.val_atPlace (f : FloatFmt) (hf : f.Full) (i : Int) (h1 : -(f.maxCode : Int) - 2 ≤ i) (h2 : i ≤ f.maxCode + 1) :
    (i = f.maxCode + 1 → f.val (f.atPlace i) = .inf false) ∧
    (i = -(f.maxCode : Int) - 2 → f.val (f.atPlace i) = .inf true) ∧
    (-(f.maxCode : Int) - 1 ≤ i → i ≤ f.maxCode → ∃ m e, f.val (f.atPlace i) = .fin (decide (i < 0)) m e ∧
      (FVal.fin (decide (i < 0)) m e).real = f.placeReal i) := by
  have hroom := hf.room
  have hw : 2 ^ f.width = 2 * 2 ^ (f.eb + f.fb) := by rw [FloatFmt.width, pow_succ]; ring
  obtain ⟨mag, hmag⟩ : ∃ mag : Nat, mag = if i < 0 then (-i - 1).toNat else i.toNat := ⟨_, rfl⟩
  have hcode : f.atPlace i = f.signed (decide (i < 0)) mag := by
    unfold FloatFmt.atPlace FloatFmt.signed
    split <;> simp_all
  have hm : mag ≤ f.maxCode + 1 := by rw [hmag]; split <;> omega
  have hlt : f.atPlace i < 2 ^ f.width := by
    rw [hcode]; unfold FloatFmt.signed; split <;> omega
  obtain ⟨neg, g, k1, k2, k3, k4⟩ := f.val_spec (f.atPlace i) hlt
  have hp := f.place_signed neg g k1
  rw [← k2, hcode, f.place_signed _ mag (by omega)] at hp
  have hneg : neg = decide (i < 0) ∧ g = mag := by
    cases neg <;> by_cases hi : i < 0 <;> simp [hi] at hp <;> first | (exfalso; omega) | exact ⟨by simp [hi], by omega⟩
  obtain ⟨rfl, rfl⟩ := hneg
  refine ⟨fun h => ?_, fun h => ?_, fun h3 h4 => ?_⟩
  · have hg : g = f.maxCode + 1 := by rw [hmag, if_neg (by omega)]; omega
    rw [k4 (by omega), hf.inf, if_pos (by rw [hg])]
    rw [decide_eq_false (by omega)]
  · have hg : g = f.maxCode + 1 := by rw [hmag, if_pos (by omega)]; omega
    rw [k4 (by omega), hf.inf, if_pos (by rw [hg])]
    rw [decide_eq_true (by omega)]
  · obtain ⟨m, e, v1, v2⟩ := k3 (by rw [hmag]; split <;> omega)
    refine ⟨m, e, v1, ?_⟩
    rw [FVal.real_fin] at v2 ⊢
    simp only [Bool.false_eq_true, if_false] at v2
    unfold FloatFmt.placeReal
    rw [v2, hmag]
    by_cases hi : i < 0 <;> simp [hi]

theorem RoundsTo.up {f : FloatFmt} {x : ℝ} {c : Nat} (h : RoundsTo f.magVal .rup false x c ∨ RoundsTo f.magVal .rdn true x c) (j : Nat) :
    c ≤ j ↔ x ≤ f.magVal j := by
  have hm := f.magVal_strictMono
  obtain ⟨k, h1, h2, h3, h4⟩ : ∃ k, f.magVal k ≤ x ∧ x < f.magVal (k + 1) ∧ (x = f.magVal k → c = k) ∧ (x ≠ f.magVal k → c = k + 1) := by
    rcases h with ⟨k, h1, h2, h3, h4⟩ | ⟨k, h1, h2, h3, h4⟩ <;> exact ⟨k, h1, h2, h3, fun h => by simpa using h4 h⟩
  by_cases hx : x = f.magVal k
  · rw [h3 hx, hx]; exact hm.le_iff_le.symm
  · rw [h4 hx]
    constructor
    · intro hj; exact h2.le.trans (hm.monotone hj)
    · intro hj
      have : f.magVal k < f.magVal j := lt_of_lt_of_le (lt_of_le_of_ne h1 (Ne.symm hx)) hj
      exact hm.lt_iff_lt.1 this

theorem RoundsTo.down {f : FloatFmt} {x : ℝ} {c : Nat} (h : RoundsTo f.magVal .rup true x c ∨ RoundsTo f.magVal .rdn false x c) (j : Nat) :
    j ≤ c ↔ f.magVal j ≤ x := by
  have hm := f.magVal_strictMono
  obtain ⟨k, h1, h2, h3⟩ : ∃ k, f.magVal k ≤ x ∧ x < f.magVal (k + 1) ∧ c = k := by
    rcases h with ⟨k, h1, h2, h3, h4⟩ | ⟨k, h1, h2, h3, h4⟩ <;>
    · refine ⟨k, h1, h2, ?_⟩
      by_cases hx : x = f.magVal k
      · exact h3 hx
      · simpa using h4 hx
  rw [h3]
  constructor
  · intro hj; exact (hm.monotone hj).trans h1
  · intro hj
    have := hm.lt_iff_lt.1 (lt_of_le_of_lt hj h2)
    omega

/-- The place of a number rounded up, −0 for zero: the least place that is not below it. -/
theorem FloatFmt.lowPlace (f : FloatFmt) (hf : f.Full) (x : Dy) :
    let p := f.place (f.ofDy .rup true x)
    p ≤ f.maxCode + 1 ∧ -(f.maxCode : Int) - 1 ≤ p ∧
      ∀ q : Int, -(f.maxCode : Int) - 1 ≤ q → q ≤ f.maxCode → (p ≤ q ↔ x.real ≤ f.placeReal q) := by
  intro p
  have hroom := hf.room
  have hm := f.magVal_strictMono
  have hr := f.ofDy_roundedTo hf.fb .rup true x
  have hneg1 : ∀ q : Int, q < 0 → f.placeReal q = -f.magVal (-q - 1).toNat := fun q h => by unfold FloatFmt.placeReal; rw [if_pos h]
  have hpos1 : ∀ q : Int, 0 ≤ q → f.placeReal q = f.magVal q.toNat := fun q h => by unfold FloatFmt.placeReal; rw [if_neg (by omega)]
  rcases lt_trichotomy x.real 0 with hx | hx | hx
  · obtain ⟨c, hc, hcode⟩ := hr.2 hx.ne
    rw [decide_eq_true hx, abs_of_neg hx] at hc
    rw [decide_eq_true hx] at hcode
    have hdn := RoundsTo.down (.inl hc)
    split at hcode
    · next hle =>
      have hp : p = -(c : Int) - 1 := by
        show f.place (f.ofDy .rup true x) = _
        rw [hcode, f.place_signed true c (by omega)]; rfl
      refine ⟨by omega, by omega, fun q q1 q2 => ?_⟩
      rw [hp]
      by_cases hq : q < 0
      · rw [hneg1 q hq]
        have := hdn (-q - 1).toNat
        constructor
        · intro h; have := this.1 (by omega); linarith
        · intro h; have := this.2 (by linarith); omega
      · rw [hpos1 q (by omega)]
        have := f.magVal_nonneg q.toNat
        constructor
        · intro _; linarith
        · intro _; omega
    · next hle =>
      have hp : p = -(f.maxCode : Int) - 1 := by
        unfold FloatFmt.Beyond at hcode
        rw [hf.inf] at hcode
        simp only [if_true] at hcode
        show f.place (f.ofDy .rup true x) = _
        rw [hcode, f.place_signed true _ (by omega)]; rfl
      refine ⟨by omega, by omega, fun q q1 q2 => ?_⟩
      rw [hp]
      refine ⟨fun _ => ?_, fun _ => q1⟩
      by_cases hq : q < 0
      · rw [hneg1 q hq]
        have := (hdn (-q - 1).toNat).1 (by omega)
        linarith
      · rw [hpos1 q (by omega)]
        have := f.magVal_nonneg q.toNat
        linarith
  · have hp : p = -1 := by
      show f.place (f.ofDy .rup true x) = _
      rw [hr.1 hx, f.place_signed true 0 (by omega)]; rfl
    refine ⟨by omega, by omega, fun q q1 q2 => ?_⟩
    rw [hp, hx]
    by_cases hq : q < 0
    · rw [hneg1 q hq]
      constructor
      · intro h; have : (-q - 1).toNat = 0 := by omega
        rw [this, f.magVal_zero]; simp
      · intro h
        by_contra hc
        have : 0 < f.magVal (-q - 1).toNat := by rw [← f.magVal_zero]; exact hm (by omega)
        linarith
    · rw [hpos1 q (by omega)]
      have := f.magVal_nonneg q.toNat
      exact ⟨fun _ => this, fun _ => by omega⟩
  · obtain ⟨c, hc, hcode⟩ := hr.2 hx.ne'
    rw [decide_eq_false (not_lt.2 hx.le), abs_of_pos hx] at hc
    rw [decide_eq_false (not_lt.2 hx.le)] at hcode
    have hup := RoundsTo.up (.inl hc)
    split at hcode
    · next hle =>
      have hp : p = c := by
        show f.place (f.ofDy .rup true x) = _
        rw [hcode, f.place_signed false c (by omega)]; rfl
      refine ⟨by omega, by omega, fun q q1 q2 => ?_⟩
      rw [hp]
      by_cases hq : q < 0
      · rw [hneg1 q hq]
        have := f.magVal_nonneg (-q - 1).toNat
        constructor
        · intro h; omega
        · intro h; linarith
      · rw [hpos1 q (by omega), ← hup q.toNat]
        omega
    · next hle =>
      have hp : p = f.maxCode + 1 := by
        unfold FloatFmt.Beyond at hcode
        rw [hf.inf] at hcode
        simp only [Bool.false_eq_true, if_false] at hcode
        show f.place (f.ofDy .rup true x) = _
        rw [hcode, f.place_signed false _ hroom]; simp
      refine ⟨by omega, by omega, fun q q1 q2 => ?_⟩
      rw [hp]
      refine ⟨fun h => by omega, fun h => ?_⟩
      exfalso
      by_cases hq : q < 0
      · rw [hneg1 q hq] at h
        have := f.magVal_nonneg (-q - 1).toNat
        linarith
      · rw [hpos1 q (by omega), ← hup q.toNat] at h
        omega

/-- A rational number's place follows its order. -/
theorem FloatFmt.placeOf_mono (f : FloatFmt) (hf : f.Full) {x y : ℚ} (h : x ≤ y) : f.placeOf x ≤ f.placeOf y := by
  obtain ⟨x1, -, x3⟩ := f.lowPlace hf ⟨⌊x * 2 ^ 1024⌋, -1024⟩
  obtain ⟨-, y2, y3⟩ := f.lowPlace hf ⟨⌊y * 2 ^ 1024⌋, -1024⟩
  have hd : (Dy.mk ⌊x * 2 ^ 1024⌋ (-1024)).real ≤ (Dy.mk ⌊y * 2 ^ 1024⌋ (-1024)).real := by
    unfold Dy.real
    refine mul_le_mul_of_nonneg_right ?_ (two_zpow_pos _).le
    exact_mod_cast Int.floor_le_floor (mul_le_mul_of_nonneg_right h (by positivity))
  unfold FloatFmt.placeOf
  by_cases hp : f.place (f.ofDy .rup true ⟨⌊y * 2 ^ 1024⌋, -1024⟩) ≤ f.maxCode
  · exact (x3 _ y2 hp).2 (hd.trans ((y3 _ y2 hp).1 (le_refl _)))
  · exact x1.trans (by omega)

/-- The place of a number rounded down, +0 for zero: the greatest place that is not above it. -/
theorem FloatFmt.highPlace (f : FloatFmt) (hf : f.Full) (x : Dy) :
    let p := f.place (f.ofDy .rdn false x)
    p ≤ f.maxCode ∧ -(f.maxCode : Int) - 2 ≤ p ∧
      ∀ q : Int, -(f.maxCode : Int) - 1 ≤ q → q ≤ f.maxCode → (q ≤ p ↔ f.placeReal q ≤ x.real) := by
  intro p
  have hroom := hf.room
  have hm := f.magVal_strictMono
  have hr := f.ofDy_roundedTo hf.fb .rdn false x
  have hneg1 : ∀ q : Int, q < 0 → f.placeReal q = -f.magVal (-q - 1).toNat := fun q h => by unfold FloatFmt.placeReal; rw [if_pos h]
  have hpos1 : ∀ q : Int, 0 ≤ q → f.placeReal q = f.magVal q.toNat := fun q h => by unfold FloatFmt.placeReal; rw [if_neg (by omega)]
  rcases lt_trichotomy x.real 0 with hx | hx | hx
  · obtain ⟨c, hc, hcode⟩ := hr.2 hx.ne
    rw [decide_eq_true hx, abs_of_neg hx] at hc
    rw [decide_eq_true hx] at hcode
    have hup := RoundsTo.up (.inr hc)
    split at hcode
    · next hle =>
      have hp : p = -(c : Int) - 1 := by
        show f.place (f.ofDy .rdn false x) = _
        rw [hcode, f.place_signed true c (by omega)]; rfl
      refine ⟨by omega, by omega, fun q q1 q2 => ?_⟩
      rw [hp]
      by_cases hq : q < 0
      · rw [hneg1 q hq]
        have := hup (-q - 1).toNat
        constructor
        · intro h; have := this.1 (by omega); linarith
        · intro h; have := this.2 (by linarith); omega
      · rw [hpos1 q (by omega)]
        have := f.magVal_nonneg q.toNat
        constructor
        · intro _; omega
        · intro _; linarith
    · next hle =>
      have hp : p = -(f.maxCode : Int) - 2 := by
        unfold FloatFmt.Beyond at hcode
        rw [hf.inf] at hcode
        simp only [if_true] at hcode
        show f.place (f.ofDy .rdn false x) = _
        rw [hcode, f.place_signed true _ hroom]; simp; omega
      refine ⟨by omega, by omega, fun q q1 q2 => ?_⟩
      rw [hp]
      refine ⟨fun h => by omega, fun h => ?_⟩
      exfalso
      by_cases hq : q < 0
      · rw [hneg1 q hq] at h
        have := (hup (-q - 1).toNat).2 (by linarith)
        omega
      · rw [hpos1 q (by omega)] at h
        have := f.magVal_nonneg q.toNat
        linarith
  · have hp : p = 0 := by
      show f.place (f.ofDy .rdn false x) = _
      rw [hr.1 hx, f.place_signed false 0 (by omega)]; rfl
    refine ⟨by omega, by omega, fun q q1 q2 => ?_⟩
    rw [hp, hx]
    by_cases hq : q < 0
    · rw [hneg1 q hq]
      have := f.magVal_nonneg (-q - 1).toNat
      exact ⟨fun _ => by linarith, fun _ => by omega⟩
    · rw [hpos1 q (by omega)]
      constructor
      · intro h; have : q.toNat = 0 := by omega
        rw [this, f.magVal_zero]
      · intro h
        by_contra hc
        have : 0 < f.magVal q.toNat := by rw [← f.magVal_zero]; exact hm (by omega)
        linarith
  · obtain ⟨c, hc, hcode⟩ := hr.2 hx.ne'
    rw [decide_eq_false (not_lt.2 hx.le), abs_of_pos hx] at hc
    rw [decide_eq_false (not_lt.2 hx.le)] at hcode
    have hdn := RoundsTo.down (.inr hc)
    split at hcode
    · next hle =>
      have hp : p = c := by
        show f.place (f.ofDy .rdn false x) = _
        rw [hcode, f.place_signed false c (by omega)]; rfl
      refine ⟨by omega, by omega, fun q q1 q2 => ?_⟩
      rw [hp]
      by_cases hq : q < 0
      · rw [hneg1 q hq]
        have := f.magVal_nonneg (-q - 1).toNat
        exact ⟨fun _ => by linarith, fun _ => by omega⟩
      · rw [hpos1 q (by omega), ← hdn q.toNat]
        omega
    · next hle =>
      have hp : p = f.maxCode := by
        unfold FloatFmt.Beyond at hcode
        rw [hf.inf] at hcode
        simp only [Bool.false_eq_true, if_false] at hcode
        show f.place (f.ofDy .rdn false x) = _
        rw [hcode, f.place_signed false _ (by omega)]; simp
      refine ⟨by omega, by omega, fun q q1 q2 => ?_⟩
      rw [hp]
      refine ⟨fun _ => ?_, fun _ => q2⟩
      by_cases hq : q < 0
      · rw [hneg1 q hq]
        have := f.magVal_nonneg (-q - 1).toNat
        linarith
      · rw [hpos1 q (by omega)]
        exact (hdn q.toNat).1 (by omega)

/-! ## What a sum holds -/

/-- The sum `x` is that of the values `vs`. -/
structure FSum.Holds (x : FSum) (vs : List FVal) : Prop where
  terms : x.terms = vs.map FVal.dy
  exact : x.exact.real = (vs.map FVal.real).sum
  size : x.size.real = (vs.map fun v => |v.real|).sum
  nan : x.nan = vs.any (· == .nan)
  pinf : x.pinf = vs.any (· == .inf false)
  ninf : x.ninf = vs.any (· == .inf true)
  zeros : x.zeros = vs.all FVal.isZero
  negs : x.negs = vs.all fun v => v.isZero && v.neg?
  low : ∀ e, (∀ v ∈ vs, e ≤ v.dy.e) → e ≤ x.exact.e

theorem FSum.holds_start (code : Nat) (v : FVal) : (FSum.start code v).Holds [v] := by
  refine ⟨rfl, by simp [FSum.start, FVal.real], by simp [FSum.start, FVal.real], by simp [FSum.start], by simp [FSum.start], by simp [FSum.start],
    by simp [FSum.start], by simp [FSum.start], fun e h => h v (by simp)⟩

theorem FSum.holds_add {x : FSum} {vs : List FVal} (h : x.Holds vs) (v : FVal) : (x.add v).Holds (vs ++ [v]) := by
  refine ⟨by simp [FSum.add, h.terms], by simp [FSum.add, h.exact, FVal.real], by simp [FSum.add, h.size, FVal.real], by simp [FSum.add, h.nan],
    by simp [FSum.add, h.pinf], by simp [FSum.add, h.ninf], by simp [FSum.add, h.zeros], ?_, fun e he => ?_⟩
  · simp [FSum.add, h.negs]; cases v.isZero <;> simp
  · have h1 := h.low e (fun w hw => he w (by simp [hw]))
    have h2 := he v (by simp)
    show e ≤ min x.exact.e v.dy.e
    omega

theorem FSum.holds_fold (l : List FVal) : ∀ {x : FSum} {vs : List FVal}, x.Holds vs → (l.foldl FSum.add x).Holds (vs ++ l) := by
  induction l with
  | nil => intro x vs h; simpa using h
  | cons v l ih => intro x vs h; have := ih (FSum.holds_add h v); simpa using this

theorem boundOf_real (u n : Nat) (up : Bool) (x : Dy) (hn : n + 1 ≤ 2 ^ u) :
    (boundOf u n up x).real = if up then x.real + (n + 1) / 2 ^ u * |x.real| else x.real - (n + 1) / 2 ^ u * |x.real| := by
  have hz := two_zpow_pos x.e
  have hU : (0 : ℝ) < 2 ^ u := by positivity
  have e1 : (2 : ℝ) ^ (x.e - u) = 2 ^ x.e / 2 ^ u := by rw [zpow_sub₀ (by norm_num), zpow_natCast]
  have e2 : ((2 ^ u - (n + 1) : Nat) : ℝ) = 2 ^ u - (n + 1) := by push_cast [Nat.cast_sub hn]; ring
  have ha : |x.real| = |(x.m : ℝ)| * 2 ^ x.e := by unfold Dy.real; rw [abs_mul, abs_of_pos hz]
  rw [ha]
  unfold boundOf
  simp only [Dy.real, e1]
  cases up
  · simp only [Bool.false_eq_true, if_false, decide_eq_true_eq]
    split
    · next h =>
      have : (x.m : ℝ) < 0 := by exact_mod_cast h
      rw [abs_of_neg this]; push_cast; field_simp; ring
    · next h =>
      have : (0 : ℝ) ≤ x.m := by exact_mod_cast not_lt.1 h
      rw [abs_of_nonneg this]; push_cast [e2]; field_simp
  · simp only [if_true, decide_eq_true_eq]
    split
    · next h =>
      have : (0 : ℝ) < x.m := by exact_mod_cast h
      rw [abs_of_pos this]; push_cast; field_simp; ring
    · next h =>
      have : (x.m : ℝ) ≤ 0 := by exact_mod_cast not_lt.1 h
      rw [abs_of_nonpos this]; push_cast [e2]; field_simp; ring

theorem boundSum_real (u n : Nat) (up : Bool) (hn : n + 1 ≤ 2 ^ u) (vs : List FVal) :
    (boundSum u n up (vs.map FVal.dy)).real = if up then (vs.map FVal.real).sum + (n + 1) / 2 ^ u * (vs.map fun v => |v.real|).sum
      else (vs.map FVal.real).sum - (n + 1) / 2 ^ u * (vs.map fun v => |v.real|).sum := by
  have key : ∀ (l : List FVal) (a : Dy), ((l.map FVal.dy).foldl (fun a x => a.add (boundOf u n up x)) a).real = a.real +
      if up then (l.map FVal.real).sum + (n + 1) / 2 ^ u * (l.map fun v => |v.real|).sum
      else (l.map FVal.real).sum - (n + 1) / 2 ^ u * (l.map fun v => |v.real|).sum := by
    intro l
    induction l with
    | nil => intro a; cases up <;> simp
    | cons v l ih =>
      intro a
      rw [List.map_cons, List.foldl_cons, ih, Dy.real_add, boundOf_real u n up v.dy hn]
      have e1 : v.dy.real = v.real := rfl
      simp only [e1, List.map_cons, List.sum_cons]
      cases up <;> simp only [Bool.false_eq_true, if_false, if_true] <;> ring
  have := key vs ⟨0, 0⟩
  have h0 : (⟨0, 0⟩ : Dy).real = 0 := by simp [Dy.real]
  rw [h0, zero_add] at this
  exact this

theorem FloatFmt.val_max (f : FloatFmt) (hf : f.Full) : (f.val f.maxCode).dy.real = f.magVal f.maxCode := by
  have hroom := hf.room
  have hw : 2 ^ f.width = 2 * 2 ^ (f.eb + f.fb) := by rw [FloatFmt.width, pow_succ]; ring
  have h := f.val_atPlace hf f.maxCode (by omega) (by omega)
  obtain ⟨m, e, h1, h2⟩ := h.2.2 (by omega) (le_refl _)
  have hc : f.atPlace f.maxCode = f.maxCode := by unfold FloatFmt.atPlace; rw [if_neg (by omega)]; simp
  rw [hc] at h1
  rw [h1]
  have : f.placeReal f.maxCode = f.magVal f.maxCode := by unfold FloatFmt.placeReal; rw [if_neg (by omega)]; simp
  rw [← this, ← h2]; rfl

theorem mayOverflow_iff (f : FloatFmt) (hf : f.Full) (u n : Nat) (x : FSum) :
    f.mayOverflow u n x = true ↔ f.magVal f.maxCode < |x.exact.real| * (1 + (n + 1) / 2 ^ u) := by
  have hU : (0 : ℝ) < 2 ^ u := by positivity
  unfold FloatFmt.mayOverflow
  rw [Dy.cmp_real, Dy.real_mul, Dy.real_abs, f.val_max hf]
  have e1 : (⟨2 ^ u + n + 1, -(u : Int)⟩ : Dy).real = 1 + (n + 1) / 2 ^ u := by
    simp only [Dy.real]; rw [zpow_neg, zpow_natCast]; push_cast; field_simp; ring
  rw [e1]
  split
  · next h => simp [h]
  · next h =>
    have : ¬ (f.magVal f.maxCode < |x.exact.real| * (1 + (n + 1) / 2 ^ u)) := h
    split <;> simp [this]

theorem sum_abs_ge (vs : List FVal) : |(vs.map FVal.real).sum| ≤ (vs.map fun v => |v.real|).sum := by
  induction vs with
  | nil => simp
  | cons v l ih => simp only [List.map_cons, List.sum_cons]; exact (abs_add_le _ _).trans (by linarith)

/-- The grid point of the format next to a sum towards zero. -/
theorem grid_toward (f : FloatFmt) (hf : f.Full) (x : Dy) (he : 1 - (f.bias : Int) - f.fb ≤ x.e) :
    ∃ k, f.magVal k ≤ |x.real| ∧ |x.real| < f.magVal (k + 1) ∧ |x.real| - f.magVal k ≤ |x.real| / 2 ^ f.fb := by
  obtain ⟨k, h1, h2⟩ : ∃ k, f.magVal k ≤ |x.real| ∧ |x.real| < f.magVal (k + 1) := by
    by_cases h0 : x.real = 0
    · exact ⟨0, by rw [f.magVal_zero]; exact abs_nonneg _, by rw [h0, abs_zero, ← f.magVal_zero]; exact f.magVal_strictMono (by omega)⟩
    · obtain ⟨c, ⟨k, h1, h2, -⟩, -⟩ := (f.ofDy_roundedTo hf.fb .rtz false x).2 h0
      exact ⟨k, h1, h2⟩
  refine ⟨k, h1, h2, ?_⟩
  obtain ⟨g1, g2⟩ := f.gap k
  obtain ⟨emin, hemin⟩ : ∃ emin : Int, emin = 1 - (f.bias : Int) - f.fb := ⟨_, rfl⟩
  rw [← hemin] at g1 g2 he
  have hpos : (0 : ℝ) < 2 ^ f.fb := by positivity
  have hz := two_zpow_pos emin
  rcases Nat.eq_zero_or_pos (k / 2 ^ f.fb - 1) with h0 | h0
  · -- below the second binade the sum is a multiple of the step
    rw [h0] at g1 g2
    simp only [CharP.cast_eq_zero, zero_add, zero_mul, Nat.sub_zero] at g1 g2
    obtain ⟨j, hj⟩ : ∃ j : Nat, |x.real| = j * 2 ^ emin := by
      refine ⟨x.m.natAbs * 2 ^ (x.e - emin).toNat, ?_⟩
      have : |x.real| = x.m.natAbs * 2 ^ x.e := by rw [← Dy.real_abs]; simp [Dy.abs, Dy.real]
      rw [this, two_zpow_shift x.e (x.e - emin).toNat emin (by omega)]; push_cast; ring
    rw [hj, g1] at h1
    rw [hj, g2, g1] at h2
    have e1 : (k : ℝ) ≤ j := le_of_mul_le_mul_right h1 hz
    have e2 : (j : ℝ) < k + 1 := by
      refine lt_of_mul_lt_mul_right ?_ hz.le
      rw [add_mul, one_mul]; exact h2
    have e3 : j = k := by
      have a : k ≤ j := by exact_mod_cast e1
      have b : j < k + 1 := by exact_mod_cast e2
      omega
    rw [hj, g1, e3, sub_self]
    positivity
  · have hk : 2 ^ f.fb ≤ k - (k / 2 ^ f.fb - 1) * 2 ^ f.fb := by
      have := Nat.div_mul_le_self k (2 ^ f.fb)
      have h5 : (k / 2 ^ f.fb - 1) * 2 ^ f.fb + 2 ^ f.fb = k / 2 ^ f.fb * 2 ^ f.fb := by
        obtain ⟨q, hq⟩ : ∃ q, k / 2 ^ f.fb = q + 1 := ⟨k / 2 ^ f.fb - 1, by omega⟩
        rw [hq, Nat.add_sub_cancel]; ring
      omega
    have hkr : (2 : ℝ) ^ f.fb ≤ ((k - (k / 2 ^ f.fb - 1) * 2 ^ f.fb : Nat) : ℝ) := by exact_mod_cast hk
    have hzq := two_zpow_pos (((k / 2 ^ f.fb - 1 : Nat) : Int) + emin)
    have h3 : (2 : ℝ) ^ (((k / 2 ^ f.fb - 1 : Nat) : Int) + emin) * 2 ^ f.fb ≤ f.magVal k := by
      rw [g1, mul_comm]; exact mul_le_mul_of_nonneg_right hkr hzq.le
    have h4 : |x.real| - f.magVal k < 2 ^ (((k / 2 ^ f.fb - 1 : Nat) : Int) + emin) := by rw [g2] at h2; linarith
    rw [le_div_iff₀ hpos]
    have h5 : (|x.real| - f.magVal k) * 2 ^ f.fb ≤ 2 ^ (((k / 2 ^ f.fb - 1 : Nat) : Int) + emin) * 2 ^ f.fb :=
      mul_le_mul_of_nonneg_right h4.le hpos.le
    linarith

/-- The place that a sum's result takes, before an exact zero loses its sign. -/
noncomputable def FloatFmt.sumPlace (f : FloatFmt) (u n : Nat) (x : FSum) (i : Nat) : Int :=
  max (f.lowest u n x) (min (f.highest u n x)
    (f.placeOf (Config.sumPick.pick (f.fb + 1) (1 - (f.bias : Int) - f.fb) i (x.terms.map Dy.rat))))

theorem sumPlace_bounds (f : FloatFmt) (hf : f.Full) (n : Nat) (hn : 1 ≤ n) (hn2 : n + 1 ≤ 2 ^ (f.fb + 1)) (x : FSum) (vs : List FVal)
    (h : x.Holds vs) (he : 1 - (f.bias : Int) - f.fb ≤ x.exact.e) (i : Nat) :
    let p := f.sumPlace (f.fb + 1) n x i
    let s := (vs.map FVal.real).sum
    let c : ℝ := (n + 1) / 2 ^ (f.fb + 1)
    p ≤ f.maxCode + 1 ∧ -(f.maxCode : Int) - 2 ≤ p ∧
    (p = f.maxCode + 1 → f.magVal f.maxCode < |s| * (1 + c) ∧ 0 < s) ∧
    (p = -(f.maxCode : Int) - 2 → f.magVal f.maxCode < |s| * (1 + c) ∧ s < 0) ∧
    (p ≤ f.maxCode → -(f.maxCode : Int) - 1 ≤ p → |f.placeReal p - s| ≤ c * (vs.map fun v => |v.real|).sum) := by
  intro p s c
  have hroom := hf.room
  obtain ⟨u, hu⟩ : ∃ u, u = f.fb + 1 := ⟨_, rfl⟩
  obtain ⟨S, hS⟩ : ∃ S, S = s := ⟨_, rfl⟩
  obtain ⟨A, hA⟩ : ∃ A, A = (vs.map fun v => |v.real|).sum := ⟨_, rfl⟩
  obtain ⟨C, hC⟩ : ∃ C : ℝ, C = c := ⟨_, rfl⟩
  obtain ⟨P, hP⟩ : ∃ P, P = p := ⟨_, rfl⟩
  have hCdef : C = (n + 1) / 2 ^ u := by rw [hC, hu]
  have hex : x.exact.real = S := by rw [h.exact, hS]
  have hSA : |S| ≤ A := by rw [hS, hA]; exact sum_abs_ge vs
  have hU : (0 : ℝ) < 2 ^ u := by positivity
  have hC0 : 0 < C := by rw [hCdef]; positivity
  have hCfb : 1 / 2 ^ f.fb ≤ C := by
    rw [hCdef, hu, pow_succ, div_le_div_iff₀ (by positivity) (by positivity)]
    have : (1 : ℝ) ≤ n := by exact_mod_cast hn
    nlinarith [show (0 : ℝ) < 2 ^ f.fb by positivity]
  have hov := mayOverflow_iff f hf u n x
  rw [hex, ← hCdef] at hov
  have hlo : (boundSum u n false x.terms).real = S - C * A := by
    rw [h.terms, boundSum_real u n false (by rw [hu]; exact hn2), hCdef, hS, hA]; rfl
  have hhi : (boundSum u n true x.terms).real = S + C * A := by
    rw [h.terms, boundSum_real u n true (by rw [hu]; exact hn2), hCdef, hS, hA]; rfl
  obtain ⟨L, hL⟩ : ∃ L, L = f.lowest u n x := ⟨_, rfl⟩
  obtain ⟨H, hH⟩ : ∃ H, H = f.highest u n x := ⟨_, rfl⟩
  obtain ⟨l1, l2, l3⟩ := f.lowPlace hf (boundSum u n false x.terms)
  obtain ⟨g1, g2, g3⟩ := f.highPlace hf (boundSum u n true x.terms)
  rw [hlo] at l3
  rw [hhi] at g3
  have hinf : ∀ neg, f.place (f.infCode false neg) = if neg then -(f.maxCode : Int) - 2 else f.maxCode + 1 := by
    intro neg
    have : f.infCode false neg = f.signed neg (f.maxCode + 1) := by simp [FloatFmt.infCode, hf.inf]
    rw [this, f.place_signed neg _ hroom]; cases neg <;> simp; omega
  have hLdef : L = if f.mayOverflow u n x && decide (x.exact.m < 0) then -(f.maxCode : Int) - 2 else f.place (f.ofDy .rup true (boundSum u n false x.terms)) := by
    rw [hL, FloatFmt.lowest, hinf]; rfl
  have hHdef : H = if f.mayOverflow u n x && decide (0 < x.exact.m) then (f.maxCode : Int) + 1 else f.place (f.ofDy .rdn false (boundSum u n true x.terms)) := by
    rw [hH, FloatFmt.highest, hinf]; rfl
  have hmneg : x.exact.m < 0 ↔ S < 0 := by rw [← hex]; exact (Dy.real_neg_iff _).symm
  have hmpos : 0 < x.exact.m ↔ 0 < S := by
    rw [← hex]
    rcases lt_trichotomy x.exact.real 0 with h | h | h
    · have := (Dy.real_neg_iff _).1 h; constructor <;> intro _ <;> [omega; linarith]
    · have := (Dy.real_eq_zero _).1 h; constructor <;> intro _ <;> [omega; linarith]
    · have h1 : ¬ x.exact.m < 0 := fun h' => by have := (Dy.real_neg_iff _).2 h'; linarith
      have h2 : x.exact.m ≠ 0 := fun h' => by have := (Dy.real_eq_zero _).2 h'; linarith
      exact ⟨fun _ => h, fun _ => by omega⟩
  have hM0 := f.magVal_nonneg f.maxCode
  -- the lowest place is not above the highest
  have hLH : L ≤ H := by
    obtain ⟨k, k1, k2, k3⟩ := grid_toward f hf x.exact he
    rw [hex] at k1 k2 k3
    have hdist : |S| - f.magVal k ≤ C * A := by
      refine k3.trans ?_
      calc |S| / 2 ^ f.fb = 1 / 2 ^ f.fb * |S| := by ring
        _ ≤ C * A := mul_le_mul hCfb hSA (abs_nonneg _) hC0.le
    by_cases hk : k ≤ f.maxCode
    · -- the grid point lies between the bounds
      obtain ⟨q, q1, q2, q3⟩ : ∃ q : Int, -(f.maxCode : Int) - 1 ≤ q ∧ q ≤ f.maxCode ∧ f.placeReal q = if S < 0 then -f.magVal k else f.magVal k := by
        by_cases hs : S < 0
        · refine ⟨-(k : Int) - 1, by omega, by omega, ?_⟩
          unfold FloatFmt.placeReal
          rw [if_pos (by omega), if_pos hs, show (-(-(k : Int) - 1) - 1).toNat = k by omega]
        · refine ⟨k, by omega, by omega, ?_⟩
          unfold FloatFmt.placeReal
          rw [if_neg (by omega), if_neg hs]; simp
      have a1 : S - C * A ≤ f.placeReal q := by
        rw [q3]; split
        · next hs => rw [abs_of_neg hs] at k1 hdist; have := mul_nonneg hC0.le ((abs_nonneg S).trans hSA); linarith
        · next hs => rw [abs_of_nonneg (not_lt.1 hs)] at k1 hdist; linarith
      have a2 : f.placeReal q ≤ S + C * A := by
        rw [q3]; split
        · next hs => rw [abs_of_neg hs] at k1 hdist; linarith
        · next hs => rw [abs_of_nonneg (not_lt.1 hs)] at k1 hdist; have := mul_nonneg hC0.le ((abs_nonneg S).trans hSA); linarith
      have b1 := (l3 q q1 q2).2 a1
      have b2 := (g3 q q1 q2).2 a2
      rw [hLdef, hHdef]
      split <;> split <;> omega
    · -- the sum overflows
      have a1 : f.magVal f.maxCode < |S| := lt_of_lt_of_le (f.magVal_strictMono (not_le.1 hk)) k1
      have a2 : f.mayOverflow u n x = true := by
        rw [hov]; have := mul_nonneg (abs_nonneg S) hC0.le; nlinarith
      have hne : S ≠ 0 := by rintro h0; rw [h0, abs_zero] at a1; linarith
      rw [hLdef, hHdef, a2]
      rcases lt_or_gt_of_ne hne with hs | hs
      · rw [if_pos (by simp [hmneg.2 hs]), if_neg (by simp; have := hmneg.2 hs; omega)]; omega
      · rw [if_pos (by simp [hmpos.2 hs] : (true && decide (0 < x.exact.m)) = true), if_neg (by simp; have := hmpos.2 hs; omega)]; omega
  obtain ⟨Q, hQ⟩ : ∃ Q, Q = f.placeOf (Config.sumPick.pick (f.fb + 1) (1 - (f.bias : Int) - f.fb) i (x.terms.map Dy.rat)) := ⟨_, rfl⟩
  have hPdef : P = max L (min H Q) := by rw [hP, hL, hH, hu, hQ]; rfl
  have hPL : L ≤ P := by omega
  have hPH : P ≤ H := by omega
  have hcs : s = S := hS.symm
  have hcc : c = C := hC.symm
  have hpp : p = P := hP.symm
  rw [hcs, hcc, hpp, ← hA]
  clear_value p s c
  have hLr : L ≤ f.maxCode + 1 ∧ -(f.maxCode : Int) - 2 ≤ L := by rw [hLdef]; split <;> omega
  have hHr : H ≤ f.maxCode + 1 ∧ -(f.maxCode : Int) - 2 ≤ H := by rw [hHdef]; split <;> omega
  have hCA : 0 ≤ C * A := mul_nonneg hC0.le ((abs_nonneg S).trans hSA)
  have hCS : C * |S| ≤ C * A := mul_le_mul_of_nonneg_left hSA hC0.le
  refine ⟨by omega, by omega, fun hp => ?_, fun hp => ?_, fun hp1 hp2 => ?_⟩
  · by_cases hb : (f.mayOverflow u n x && decide (0 < x.exact.m)) = true
    · simp only [Bool.and_eq_true, decide_eq_true_eq] at hb
      exact ⟨hov.1 hb.1, hmpos.1 hb.2⟩
    · rw [if_neg hb] at hHdef; omega
  · by_cases hb : (f.mayOverflow u n x && decide (x.exact.m < 0)) = true
    · simp only [Bool.and_eq_true, decide_eq_true_eq] at hb
      exact ⟨hov.1 hb.1, hmneg.1 hb.2⟩
    · rw [if_neg hb] at hLdef; omega
  · have hm1 : -f.magVal f.maxCode ≤ f.placeReal P := by
      have := f.placeReal_mono hp2
      have e1 : f.placeReal (-(f.maxCode : Int) - 1) = -f.magVal f.maxCode := by
        unfold FloatFmt.placeReal; rw [if_pos (by omega), show (-(-(f.maxCode : Int) - 1) - 1).toNat = f.maxCode by omega]
      linarith
    have hm2 : f.placeReal P ≤ f.magVal f.maxCode := by
      have := f.placeReal_mono hp1
      have e1 : f.placeReal (f.maxCode : Int) = f.magVal f.maxCode := by
        unfold FloatFmt.placeReal; rw [if_neg (by omega)]; simp
      linarith
    have hlow : S - C * A ≤ f.placeReal P := by
      by_cases hb : (f.mayOverflow u n x && decide (x.exact.m < 0)) = true
      · simp only [Bool.and_eq_true, decide_eq_true_eq] at hb
        have h1 := hov.1 hb.1
        have h2 := hmneg.1 hb.2
        rw [abs_of_neg h2] at h1 hCS
        linarith
      · rw [if_neg hb] at hLdef
        exact (l3 P hp2 hp1).1 (by omega)
    have hhigh : f.placeReal P ≤ S + C * A := by
      by_cases hb : (f.mayOverflow u n x && decide (0 < x.exact.m)) = true
      · simp only [Bool.and_eq_true, decide_eq_true_eq] at hb
        have h1 := hov.1 hb.1
        have h2 := hmpos.1 hb.2
        rw [abs_of_pos h2] at h1 hCS
        linarith
      · rw [if_neg hb] at hHdef
        exact (g3 P hp2 hp1).1 (by omega)
    rw [abs_le]; constructor <;> linarith

/-! ## What a sum's code is -/

/-- Every value is finite. -/
def AllFin (vs : List FVal) : Prop := ∀ v ∈ vs, ∃ neg m e, v = .fin neg m e

theorem FVal.zero_iff {v : FVal} : v.isZero = true ↔ ∃ neg e, v = .fin neg 0 e := by
  cases v <;> simp [FVal.isZero]

theorem fin_zero_iff (neg : Bool) (m : Nat) (e : Int) : (FVal.fin neg m e).real = 0 ↔ m = 0 := by
  rw [FVal.real_fin]; cases neg <;> simp [(two_zpow_pos e).ne']

/-- The code of a finite sum that is not all zeros has the value of its place. -/
theorem sumOf_val (f : FloatFmt) (hf : f.Full) (n : Nat) (hn : 1 ≤ n) (hn2 : n + 1 ≤ 2 ^ (f.fb + 1)) (x : FSum) (vs : List FVal)
    (h : x.Holds vs) (he : 1 - (f.bias : Int) - f.fb ≤ x.exact.e) (hfin : AllFin vs) (hz : x.zeros = false) (i : Nat) :
    let p := f.sumPlace (f.fb + 1) n x i
    let v := f.val (f.sumOf (f.fb + 1) n x i)
    (p = f.maxCode + 1 → v = .inf false) ∧ (p = -(f.maxCode : Int) - 2 → v = .inf true) ∧
    (p ≤ f.maxCode → -(f.maxCode : Int) - 1 ≤ p → ∃ neg m e, v = .fin neg m e ∧ v.real = f.placeReal p) := by
  intro p v
  have hroom := hf.room
  have hb := sumPlace_bounds f hf n hn hn2 x vs h he i
  obtain ⟨c1, c2, c3⟩ := f.val_atPlace hf p hb.2.1 hb.1
  have hno : ∀ neg, (.inf neg : FVal) ∉ vs := fun neg hm => by obtain ⟨a, b, c, e⟩ := hfin _ hm; cases e
  have hnn : (.nan : FVal) ∉ vs := fun hm => by obtain ⟨a, b, c, e⟩ := hfin _ hm; cases e
  have k1 : x.nan = false := by rw [h.nan, List.any_eq_false]; intro y hy; simp only [beq_iff_eq]; rintro rfl; exact hnn hy
  have k2 : x.pinf = false := by rw [h.pinf, List.any_eq_false]; intro y hy; simp only [beq_iff_eq]; rintro rfl; exact hno _ hy
  have k3 : x.ninf = false := by rw [h.ninf, List.any_eq_false]; intro y hy; simp only [beq_iff_eq]; rintro rfl; exact hno _ hy
  have hv : v = f.val (if x.exact.m = 0 ∧ (f.val (f.atPlace p)).isZero then 0 else f.atPlace p) := by
    show f.val (f.sumOf (f.fb + 1) n x i) = _
    unfold FloatFmt.sumOf
    simp only [k1, k2, k3, hz, Bool.or_self, Bool.and_self, Bool.false_eq_true, if_false]
    rfl
  have h0 : f.val 0 = .fin false 0 (1 - (f.bias : Int) - f.fb) := by unfold FloatFmt.val; simp
  refine ⟨fun hp => ?_, fun hp => ?_, fun hp1 hp2 => ?_⟩
  · rw [hv, c1 hp, if_neg (by simp [FVal.isZero]), c1 hp]
  · rw [hv, c2 hp, if_neg (by simp [FVal.isZero]), c2 hp]
  · obtain ⟨m, e, v1, v2⟩ := c3 hp2 hp1
    rw [hv]
    split
    · next hc =>
      refine ⟨_, _, _, h0, ?_⟩
      rw [h0, (fin_zero_iff _ _ _).2 rfl]
      rw [v1] at hc
      have hm : m = 0 := by simpa [FVal.isZero] using hc.2
      rw [← v2, (fin_zero_iff _ _ _).2 hm]
    · exact ⟨_, _, _, v1, by rw [v1]; exact v2⟩

theorem sum_zero (vs : List FVal) (h : vs.all FVal.isZero = true) : (vs.map FVal.real).sum = 0 := by
  induction vs with
  | nil => simp
  | cons v l ih =>
    simp only [List.all_cons, Bool.and_eq_true] at h
    obtain ⟨neg, e, rfl⟩ := FVal.zero_iff.1 h.1
    rw [List.map_cons, List.sum_cons, ih h.2, (fin_zero_iff _ _ _).2 rfl, add_zero]

/-- What a sum gives for NaNs, infinities, zeros and finite values (R162, R164). -/
theorem sumOf_spec (f : FloatFmt) (hf : f.Full) (n : Nat) (hn : 1 ≤ n) (hn2 : n + 1 ≤ 2 ^ (f.fb + 1)) (x : FSum) (vs : List FVal)
    (h : x.Holds vs) (he : 1 - (f.bias : Int) - f.fb ≤ x.exact.e) (i : Nat) :
    let r := f.sumOf (f.fb + 1) n x i
    let s := (vs.map FVal.real).sum
    let c : ℝ := (n + 1) / 2 ^ (f.fb + 1)
    (.nan ∈ vs ∨ .inf false ∈ vs ∧ .inf true ∈ vs → r = f.nanCode) ∧
    (∀ neg, .nan ∉ vs → .inf neg ∈ vs → .inf (!neg) ∉ vs → r = f.signed neg (f.inf.getD 0)) ∧
    ((∀ v ∈ vs, v.isZero = true) → r = f.signed (vs.all fun v => v.isZero && v.neg?) 0) ∧
    (AllFin vs →
      (∃ neg, f.val r = .inf neg ∧ f.magVal f.maxCode < |s| * (1 + c) ∧ (neg = true ↔ s < 0) ∧ s ≠ 0) ∨
      ∃ neg m e, f.val r = .fin neg m e ∧ |(f.val r).real - s| ≤ c * (vs.map fun v => |v.real|).sum) := by
  intro r s c
  have e1 : x.nan = true ↔ .nan ∈ vs := by rw [h.nan]; simp
  have e2 : x.pinf = true ↔ .inf false ∈ vs := by rw [h.pinf]; simp
  have e3 : x.ninf = true ↔ .inf true ∈ vs := by rw [h.ninf]; simp
  have hr : r = f.sumOf (f.fb + 1) n x i := rfl
  refine ⟨fun hs => ?_, fun neg h1 h2 h3 => ?_, fun hs => ?_, fun hs => ?_⟩
  · rw [hr]; unfold FloatFmt.sumOf; rw [if_pos]
    rcases hs with hs | hs
    · simp [e1.2 hs]
    · simp [e2.2 hs.1, e3.2 hs.2]
  · have k1 : x.nan = false := by rw [← Bool.not_eq_true, e1]; exact h1
    have hi : f.infCode false neg = f.signed neg (f.inf.getD 0) := by simp [FloatFmt.infCode, hf.inf]
    rw [hr, ← hi]; unfold FloatFmt.sumOf
    cases neg
    · have k3 : x.ninf = false := by rw [← Bool.not_eq_true, e3]; exact h3
      simp [k1, e2.2 h2, k3]
    · have k2 : x.pinf = false := by rw [← Bool.not_eq_true, e2]; exact h3
      simp [k1, e3.2 h2, k2]
  · have hno : ∀ neg, (.inf neg : FVal) ∉ vs := fun neg hm => by have := hs _ hm; simp [FVal.isZero] at this
    have hnn : (.nan : FVal) ∉ vs := fun hm => by have := hs _ hm; simp [FVal.isZero] at this
    have k1 : x.nan = false := by rw [← Bool.not_eq_true, e1]; exact hnn
    have k2 : x.pinf = false := by rw [← Bool.not_eq_true, e2]; exact hno _
    have k3 : x.ninf = false := by rw [← Bool.not_eq_true, e3]; exact hno _
    have k4 : x.zeros = true := by rw [h.zeros]; simpa using hs
    rw [hr, ← h.negs]; unfold FloatFmt.sumOf; simp [k1, k2, k3, k4]
  · by_cases hz : x.zeros = true
    · right
      have hno : ∀ neg, (.inf neg : FVal) ∉ vs := fun neg hm => by obtain ⟨_, _, _, e⟩ := hs _ hm; cases e
      have hnn : (.nan : FVal) ∉ vs := fun hm => by obtain ⟨_, _, _, e⟩ := hs _ hm; cases e
      have k1 : x.nan = false := by rw [← Bool.not_eq_true, e1]; exact hnn
      have k2 : x.pinf = false := by rw [← Bool.not_eq_true, e2]; exact hno _
      have k3 : x.ninf = false := by rw [← Bool.not_eq_true, e3]; exact hno _
      have hrr : r = f.signed x.negs 0 := by rw [hr]; unfold FloatFmt.sumOf; simp [k1, k2, k3, hz]
      have hroom := hf.room
      have hw : 2 ^ f.width = 2 * 2 ^ (f.eb + f.fb) := by rw [FloatFmt.width, pow_succ]; ring
      have hlt : r < 2 ^ f.width := by rw [hrr]; unfold FloatFmt.signed; split <;> omega
      obtain ⟨neg, g, j1, j2, j3, j4⟩ := f.val_spec r hlt
      have hg : g = 0 := by rw [hrr] at j2; unfold FloatFmt.signed at j2; split at j2 <;> split at j2 <;> omega
      obtain ⟨m, e, v1, v2⟩ := j3 (by omega)
      refine ⟨neg, m, e, v1, ?_⟩
      rw [h.zeros] at hz
      have hm : m = 0 := by rw [hg, f.magVal_zero] at v2; exact (fin_zero_iff _ _ _).1 v2
      have hs0 : s = 0 := sum_zero vs hz
      rw [hs0, v1, (fin_zero_iff _ _ _).2 hm]
      simp only [sub_zero, abs_zero]
      refine mul_nonneg (by positivity) ?_
      exact (abs_nonneg _).trans (sum_abs_ge vs)
    · have hz : x.zeros = false := by simpa using hz
      obtain ⟨a1, a2, a3⟩ := sumOf_val f hf n hn hn2 x vs h he hs hz i
      obtain ⟨b1, b2, b3, b4, b5⟩ := sumPlace_bounds f hf n hn hn2 x vs h he i
      by_cases hp1 : f.sumPlace (f.fb + 1) n x i = f.maxCode + 1
      · left
        obtain ⟨q1, q2⟩ := b3 hp1
        exact ⟨false, a1 hp1, q1, by simpa using q2.le, q2.ne'⟩
      · by_cases hp2 : f.sumPlace (f.fb + 1) n x i = -(f.maxCode : Int) - 2
        · left
          obtain ⟨q1, q2⟩ := b4 hp2
          exact ⟨true, a2 hp2, q1, by simpa using q2, q2.ne⟩
        · right
          obtain ⟨neg, m, e, v1, v2⟩ := a3 (by omega) (by omega)
          refine ⟨neg, m, e, v1, ?_⟩
          rw [v2]
          exact b5 (by omega) (by omega)

/-! ## A larger term never gives a smaller sum (R163) -/

theorem Dy.rat_real (x : Dy) : ((x.rat : ℚ) : ℝ) = x.real := by simp [Dy.rat, Dy.real]

theorem Dy.rat_le (x y : Dy) : x.rat ≤ y.rat ↔ x.real ≤ y.real := by rw [← Dy.rat_real, ← Dy.rat_real]; exact Rat.cast_le.symm

theorem forall2_middle {α : Type} {R : α → α → Prop} (hr : ∀ x, R x x) (p q : List α) {a b : α} (h : R a b) :
    List.Forall₂ R (p ++ a :: q) (p ++ b :: q) := by
  have same : ∀ l : List α, List.Forall₂ R l l := fun l => by induction l with | nil => exact .nil | cons x l ih => exact .cons (hr x) ih
  induction p with
  | nil => exact .cons h (same q)
  | cons x p ih => exact .cons (hr x) ih

theorem sum_middle (p q : List FVal) (v w : FVal) :
    ((p ++ w :: q).map FVal.real).sum - ((p ++ v :: q).map FVal.real).sum = w.real - v.real ∧
    ((p ++ w :: q).map fun v => |v.real|).sum - ((p ++ v :: q).map fun v => |v.real|).sum = |w.real| - |v.real| := by
  simp only [List.map_append, List.map_cons, List.sum_append, List.sum_cons]
  constructor <;> ring

/-- With a larger term, a finite sum's place is not less. -/
theorem sumPlace_mono (f : FloatFmt) (hf : f.Full) (n : Nat) (hn2 : n + 1 ≤ 2 ^ (f.fb + 1)) (x y : FSum) (p q : List FVal) (v w : FVal)
    (hx : x.Holds (p ++ v :: q)) (hy : y.Holds (p ++ w :: q)) (hvw : v.real < w.real) (i j : Nat) :
    f.sumPlace (f.fb + 1) n x i ≤ f.sumPlace (f.fb + 1) n y j := by
  obtain ⟨u, hu⟩ : ∃ u, u = f.fb + 1 := ⟨_, rfl⟩
  rw [← hu] at hn2 ⊢
  have hroom := hf.room
  have hU : (0 : ℝ) < 2 ^ u := by positivity
  obtain ⟨m1, m2⟩ := sum_middle p q v w
  obtain ⟨S, hS⟩ : ∃ S, S = ((p ++ v :: q).map FVal.real).sum := ⟨_, rfl⟩
  obtain ⟨T, hT⟩ : ∃ T, T = ((p ++ w :: q).map FVal.real).sum := ⟨_, rfl⟩
  obtain ⟨A, hA⟩ : ∃ A, A = ((p ++ v :: q).map fun v => |v.real|).sum := ⟨_, rfl⟩
  obtain ⟨B, hB⟩ : ∃ B, B = ((p ++ w :: q).map fun v => |v.real|).sum := ⟨_, rfl⟩
  obtain ⟨C, hC⟩ : ∃ C : ℝ, C = (n + 1) / 2 ^ u := ⟨_, rfl⟩
  have hC0 : 0 ≤ C := by rw [hC]; positivity
  have hC1 : C ≤ 1 := by rw [hC, div_le_one hU]; exact_mod_cast hn2
  rw [← hS, ← hT] at m1
  rw [← hA, ← hB] at m2
  have hST : S < T := by linarith
  have hd : |(|w.real| - |v.real|)| ≤ w.real - v.real := by
    have := abs_abs_sub_abs_le_abs_sub w.real v.real
    rwa [abs_of_pos (show 0 < w.real - v.real by linarith)] at this
  have hd1 := abs_le.1 hd
  have hCd : C * |(|w.real| - |v.real|)| ≤ T - S := by
    calc C * |(|w.real| - |v.real|)| ≤ 1 * |(|w.real| - |v.real|)| := mul_le_mul_of_nonneg_right hC1 (abs_nonneg _)
      _ ≤ T - S := by linarith
  have hCd2 : |C * (B - A)| ≤ T - S := by rw [abs_mul, abs_of_nonneg hC0, m2]; exact hCd
  have hCd3 := abs_le.1 hCd2
  have hlo : S - C * A ≤ T - C * B := by nlinarith [hCd3.2]
  have hhi : S + C * A ≤ T + C * B := by nlinarith [hCd3.1]
  have hov : ∀ z : FSum, f.mayOverflow u n z = true ↔ f.magVal f.maxCode < |z.exact.real| * (1 + C) := by
    intro z; rw [hC]; exact mayOverflow_iff f hf u n z
  have xe : x.exact.real = S := by rw [hx.exact, hS]
  have ye : y.exact.real = T := by rw [hy.exact, hT]
  have sgn : ∀ z : Dy, (z.m < 0 ↔ z.real < 0) ∧ (0 < z.m ↔ 0 < z.real) := by
    intro z
    refine ⟨(Dy.real_neg_iff z).symm, ?_⟩
    unfold Dy.real
    rw [mul_pos_iff_of_pos_right (two_zpow_pos z.e)]
    exact_mod_cast Iff.rfl
  obtain ⟨lx1, lx2, lx3⟩ := f.lowPlace hf (boundSum u n false x.terms)
  obtain ⟨ly1, ly2, ly3⟩ := f.lowPlace hf (boundSum u n false y.terms)
  obtain ⟨hx1, hx2, hx3⟩ := f.highPlace hf (boundSum u n true x.terms)
  obtain ⟨hy1, hy2, hy3⟩ := f.highPlace hf (boundSum u n true y.terms)
  rw [hx.terms, boundSum_real u n _ hn2, ← hC, ← hS, ← hA] at lx3 hx3
  rw [hy.terms, boundSum_real u n _ hn2, ← hC, ← hT, ← hB] at ly3 hy3
  rw [← hx.terms] at lx3 hx3
  rw [← hy.terms] at ly3 hy3
  simp only [Bool.false_eq_true, if_false] at lx3 ly3
  simp only [if_true] at hx3 hy3
  have hinf : ∀ neg, f.place (f.infCode false neg) = if neg then -(f.maxCode : Int) - 2 else f.maxCode + 1 := by
    intro neg
    have : f.infCode false neg = f.signed neg (f.maxCode + 1) := by simp [FloatFmt.infCode, hf.inf]
    rw [this, f.place_signed neg _ hroom]; cases neg <;> simp; omega
  have hL : f.lowest u n x ≤ f.lowest u n y := by
    have bx : f.lowest u n x ≤ f.place (f.ofDy .rup true (boundSum u n false x.terms)) := by
      unfold FloatFmt.lowest
      split
      · rw [hinf]; simp; omega
      · exact le_refl _
    unfold FloatFmt.lowest at bx ⊢
    by_cases hb : (f.mayOverflow u n y && decide (y.exact.m < 0)) = true
    · simp only [Bool.and_eq_true, decide_eq_true_eq] at hb
      have h1 := (hov y).1 hb.1
      have h2 := (sgn y.exact).1.1 hb.2
      rw [ye] at h1 h2
      have h3 : f.mayOverflow u n x = true := by
        rw [hov, xe, abs_of_neg (by linarith)]
        rw [abs_of_neg h2] at h1
        have : -T * (1 + C) ≤ -S * (1 + C) := mul_le_mul_of_nonneg_right (by linarith) (by linarith)
        linarith
      have h4 : x.exact.m < 0 := (sgn x.exact).1.2 (by rw [xe]; linarith)
      rw [if_pos (by simp [h3, h4]), if_pos (by simp [hb.1, hb.2])]
    · rw [if_neg hb]
      refine bx.trans ?_
      by_cases hp : f.place (f.ofDy .rup true (boundSum u n false y.terms)) ≤ f.maxCode
      · exact (lx3 _ ly2 hp).2 (hlo.trans ((ly3 _ ly2 hp).1 (le_refl _)))
      · omega
  have hH : f.highest u n x ≤ f.highest u n y := by
    have by' : f.place (f.ofDy .rdn false (boundSum u n true y.terms)) ≤ f.highest u n y := by
      unfold FloatFmt.highest
      split
      · rw [hinf]; simp; omega
      · exact le_refl _
    unfold FloatFmt.highest at by' ⊢
    by_cases hb : (f.mayOverflow u n x && decide (0 < x.exact.m)) = true
    · simp only [Bool.and_eq_true, decide_eq_true_eq] at hb
      have h1 := (hov x).1 hb.1
      have h2 := (sgn x.exact).2.1 hb.2
      rw [xe] at h1 h2
      have h3 : f.mayOverflow u n y = true := by
        rw [hov, ye, abs_of_pos (by linarith)]
        rw [abs_of_pos h2] at h1
        have : S * (1 + C) ≤ T * (1 + C) := mul_le_mul_of_nonneg_right (by linarith) (by linarith)
        linarith
      have h4 : 0 < y.exact.m := (sgn y.exact).2.2 (by rw [ye]; linarith)
      rw [if_pos (by simp [hb.1, hb.2]), if_pos (by simp [h3, h4])]
    · rw [if_neg hb]
      refine le_trans ?_ by'
      by_cases hp : -(f.maxCode : Int) - 1 ≤ f.place (f.ofDy .rdn false (boundSum u n true x.terms))
      · exact (hy3 _ hp hx1).2 (((hx3 _ hp hx1).1 (le_refl _)).trans hhi)
      · omega
  have hP : f.placeOf (Config.sumPick.pick (f.fb + 1) (1 - (f.bias : Int) - f.fb) i (x.terms.map Dy.rat)) ≤
      f.placeOf (Config.sumPick.pick (f.fb + 1) (1 - (f.bias : Int) - f.fb) j (y.terms.map Dy.rat)) := by
    refine f.placeOf_mono hf ?_
    refine Config.sumPick.mono _ _ _ _ _ _ ?_ (.inl fun he => ?_)
    · rw [hx.terms, hy.terms]
      simp only [List.map_append, List.map_cons, List.map_map]
      refine forall2_middle (fun _ => le_refl _) _ _ ((Dy.rat_le _ _).2 hvw.le)
    · rw [hx.terms, hy.terms] at he
      simp only [List.map_append, List.map_cons, List.append_cancel_left_eq, List.cons.injEq, and_true] at he
      have := (Dy.rat_le _ _).1 he.ge
      exact absurd this (not_le.2 hvw)
  unfold FloatFmt.sumPlace
  exact max_le_max hL (min_le_min hH hP)

/-- R163 for finite values. -/
theorem sumOf_mono_fin (f : FloatFmt) (hf : f.Full) (n : Nat) (hn : 1 ≤ n) (hn2 : n + 1 ≤ 2 ^ (f.fb + 1)) (x y : FSum) (p q : List FVal) (v w : FVal)
    (hx : x.Holds (p ++ v :: q)) (hy : y.Holds (p ++ w :: q)) (hex : 1 - (f.bias : Int) - f.fb ≤ x.exact.e) (hey : 1 - (f.bias : Int) - f.fb ≤ y.exact.e)
    (fx : AllFin (p ++ v :: q)) (fy : AllFin (p ++ w :: q)) (hlt : v.real < w.real) (i j : Nat) :
    (f.val (f.sumOf (f.fb + 1) n x i)).AtMost (f.val (f.sumOf (f.fb + 1) n y j)) := by
  obtain ⟨-, -, -, x4⟩ := sumOf_spec f hf n hn hn2 x _ hx hex i
  obtain ⟨-, -, -, y4⟩ := sumOf_spec f hf n hn hn2 y _ hy hey j
  obtain ⟨m1, m2⟩ := sum_middle p q v w
  have hC1 : ((n : ℝ) + 1) / 2 ^ (f.fb + 1) ≤ 1 := by
    rw [div_le_one (by positivity)]; exact_mod_cast hn2
  have hC0 : (0 : ℝ) ≤ ((n : ℝ) + 1) / 2 ^ (f.fb + 1) := by positivity
  have hM0 := f.magVal_nonneg f.maxCode
  have others : ∀ a : FVal, (p ++ a :: q).all FVal.isZero = true → ((p ++ v :: q).map FVal.real).sum = v.real ∧ ((p ++ w :: q).map FVal.real).sum = w.real ∧
      ((p ++ v :: q).map fun v => |v.real|).sum = |v.real| ∧ ((p ++ w :: q).map fun v => |v.real|).sum = |w.real| ∧ a.real = 0 := by
    intro a ha
    have hp : ∀ l : List FVal, l.all FVal.isZero = true → (l.map fun v => |v.real|).sum = 0 := by
      intro l hl
      induction l with
      | nil => simp
      | cons u l ih =>
        simp only [List.all_cons, Bool.and_eq_true] at hl
        obtain ⟨neg, e, rfl⟩ := FVal.zero_iff.1 hl.1
        rw [List.map_cons, List.sum_cons, ih hl.2, (fin_zero_iff _ _ _).2 rfl, abs_zero, add_zero]
    simp only [List.all_append, List.all_cons, Bool.and_eq_true] at ha
    obtain ⟨neg, e, rfl⟩ := FVal.zero_iff.1 ha.2.1
    simp only [List.map_append, List.map_cons, List.sum_append, List.sum_cons, sum_zero p ha.1, sum_zero q ha.2.2, hp p ha.1, hp q ha.2.2, zero_add, add_zero,
      true_and]
    exact (fin_zero_iff _ _ _).2 rfl
  by_cases zx : x.zeros = true
  · -- the first is zero, the second not less
    rw [hx.zeros] at zx
    obtain ⟨o1, o2, o3, o4, o5⟩ := others v zx
    rcases x4 fx with ⟨neg, -, -, -, hs⟩ | ⟨neg, m, e, r1, r2⟩
    · rw [o1, o5] at hs; exact absurd rfl hs
    · rw [o1, o3, o5, abs_zero, mul_zero, sub_zero] at r2
      have r0 : (f.val (f.sumOf (f.fb + 1) n x i)).real = 0 := abs_eq_zero.1 (le_antisymm r2 (abs_nonneg _))
      rcases y4 fy with ⟨neg', t1, t2, t3, -⟩ | ⟨neg', m', e', t1, t2⟩
      · right; left
        rw [t1]
        cases neg'
        · rfl
        · have := t3.1 rfl; rw [o2] at this; linarith
      · right; right
        refine ⟨_, _, _, _, _, _, r1, t1, ?_⟩
        rw [r0]
        rw [o2, o4] at t2
        have hwp : 0 < w.real := by linarith
        rw [abs_of_pos hwp] at t2
        have := (abs_le.1 t2).1
        nlinarith
  by_cases zy : y.zeros = true
  · rw [hy.zeros] at zy
    obtain ⟨o1, o2, o3, o4, o5⟩ := others w zy
    rcases y4 fy with ⟨neg, -, -, -, hs⟩ | ⟨neg, m, e, r1, r2⟩
    · rw [o2, o5] at hs; exact absurd rfl hs
    · rw [o2, o4, o5, abs_zero, mul_zero, sub_zero] at r2
      have r0 : (f.val (f.sumOf (f.fb + 1) n y j)).real = 0 := abs_eq_zero.1 (le_antisymm r2 (abs_nonneg _))
      rcases x4 fx with ⟨neg', t1, t2, t3, t4⟩ | ⟨neg', m', e', t1, t2⟩
      · left
        rw [t1]
        have : neg' = true := t3.2 (by rw [o1]; linarith)
        rw [this]
      · right; right
        refine ⟨_, _, _, _, _, _, t1, r1, ?_⟩
        rw [r0]
        rw [o1, o3] at t2
        have hwp : v.real < 0 := by linarith
        rw [abs_of_neg hwp] at t2
        have := (abs_le.1 t2).2
        nlinarith
  have zx : x.zeros = false := by simpa using zx
  have zy : y.zeros = false := by simpa using zy
  obtain ⟨c1, c2, c3⟩ := sumOf_val f hf n hn hn2 x _ hx hex fx zx i
  obtain ⟨d1, d2, d3⟩ := sumOf_val f hf n hn hn2 y _ hy hey fy zy j
  have bx := sumPlace_bounds f hf n hn hn2 x _ hx hex i
  have by' := sumPlace_bounds f hf n hn hn2 y _ hy hey j
  have hpp := sumPlace_mono f hf n hn2 x y p q v w hx hy hlt i j
  by_cases h1 : f.sumPlace (f.fb + 1) n x i = -(f.maxCode : Int) - 2
  · exact .inl (c2 h1)
  by_cases h2 : f.sumPlace (f.fb + 1) n y j = f.maxCode + 1
  · exact .inr (.inl (d1 h2))
  obtain ⟨neg, m, e, r1, r2⟩ := c3 (by have := by'.1; omega) (by have := bx.2.1; omega)
  obtain ⟨neg', m', e', t1, t2⟩ := d3 (by have := by'.1; omega) (by have := bx.2.1; omega)
  refine .inr (.inr ⟨_, _, _, _, _, _, r1, t1, ?_⟩)
  rw [r2, t2]
  exact f.placeReal_mono hpp

/-- R163: with one larger value, a sum that involves no NaN is not less, whatever the two evaluations are. -/
theorem sumOf_mono (f : FloatFmt) (hf : f.Full) (n : Nat) (hn : 1 ≤ n) (hn2 : n + 1 ≤ 2 ^ (f.fb + 1)) (x y : FSum) (p q : List FVal) (v w : FVal)
    (hx : x.Holds (p ++ v :: q)) (hy : y.Holds (p ++ w :: q)) (hex : 1 - (f.bias : Int) - f.fb ≤ x.exact.e) (hey : 1 - (f.bias : Int) - f.fb ≤ y.exact.e)
    (hvw : v.AtMost w) (hne : ¬ w.AtMost v) (i j : Nat)
    (n1 : f.val (f.sumOf (f.fb + 1) n x i) ≠ .nan) (n2 : f.val (f.sumOf (f.fb + 1) n y j) ≠ .nan)
    (hnc : f.val f.nanCode = .nan) (hic : ∀ neg, f.val (f.signed neg (f.inf.getD 0)) = .inf neg) :
    (f.val (f.sumOf (f.fb + 1) n x i)).AtMost (f.val (f.sumOf (f.fb + 1) n y j)) := by
  obtain ⟨x1, x2, -, -⟩ := sumOf_spec f hf n hn hn2 x _ hx hex i
  obtain ⟨y1, y2, -, -⟩ := sumOf_spec f hf n hn hn2 y _ hy hey j
  have ax : (.nan : FVal) ∉ p ++ v :: q ∧ ¬ ((.inf false : FVal) ∈ p ++ v :: q ∧ (.inf true : FVal) ∈ p ++ v :: q) := by
    exact ⟨fun h => n1 (by rw [x1 (.inl h)]; exact hnc), fun h => n1 (by rw [x1 (.inr h)]; exact hnc)⟩
  have ay : (.nan : FVal) ∉ p ++ w :: q ∧ ¬ ((.inf false : FVal) ∈ p ++ w :: q ∧ (.inf true : FVal) ∈ p ++ w :: q) := by
    exact ⟨fun h => n2 (by rw [y1 (.inl h)]; exact hnc), fun h => n2 (by rw [y1 (.inr h)]; exact hnc)⟩
  by_cases hxi : (.inf true : FVal) ∈ p ++ v :: q
  · left; rw [x2 true ax.1 hxi (fun h => ax.2 ⟨h, hxi⟩)]; exact hic true
  by_cases hyi : (.inf false : FVal) ∈ p ++ w :: q
  · right; left; rw [y2 false ay.1 hyi (fun h => ay.2 ⟨hyi, h⟩)]; exact hic false
  have hv : ∃ neg m e, v = .fin neg m e := by
    rcases v with _ | neg | ⟨neg, m, e⟩
    · exact absurd (by simp) ax.1
    · cases neg
      · rcases hvw with h | h | ⟨_, _, _, _, _, _, h, _⟩
        · cases h
        · rw [h] at hyi; exact absurd (by simp) hyi
        · cases h
      · exact absurd (by simp) hxi
    · exact ⟨_, _, _, rfl⟩
  have hw : ∃ neg m e, w = .fin neg m e := by
    rcases w with _ | neg | ⟨neg, m, e⟩
    · exact absurd (by simp) ay.1
    · cases neg
      · exact absurd (by simp) hyi
      · exact absurd (.inl rfl) hne
    · exact ⟨_, _, _, rfl⟩
  have rest : ∀ u ∈ p ++ q, ∃ neg m e, u = .fin neg m e := by
    intro u hu
    have hu1 : u ∈ p ++ v :: q := by rcases List.mem_append.1 hu with h | h <;> simp [h]
    have hu2 : u ∈ p ++ w :: q := by rcases List.mem_append.1 hu with h | h <;> simp [h]
    rcases u with _ | neg | ⟨neg, m, e⟩
    · exact absurd hu1 ax.1
    · cases neg
      · exact absurd hu2 hyi
      · exact absurd hu1 hxi
    · exact ⟨_, _, _, rfl⟩
  have fx : AllFin (p ++ v :: q) := by
    intro u hu
    simp only [List.mem_append, List.mem_cons] at hu
    rcases hu with hu | rfl | hu
    · exact rest u (by simp [hu])
    · exact hv
    · exact rest u (by simp [hu])
  have fy : AllFin (p ++ w :: q) := by
    intro u hu
    simp only [List.mem_append, List.mem_cons] at hu
    rcases hu with hu | rfl | hu
    · exact rest u (by simp [hu])
    · exact hw
    · exact rest u (by simp [hu])
  have hlt : v.real < w.real := by
    rcases hvw with h | h | ⟨a, b, c, d, e, g, h1, h2, h3⟩
    · rw [h] at hxi; exact absurd (by simp) hxi
    · rw [h] at hyi; exact absurd (by simp) hyi
    · by_contra hc
      exact hne (.inr (.inr ⟨_, _, _, _, _, _, h2, h1, not_lt.1 hc⟩))
  exact sumOf_mono_fin f hf n hn hn2 x y p q v w hx hy hex hey fx fy hlt i j

/-! ## A sum whose partial sums are all numbers of the format (R89, R422) -/

/-- A multiple of a step that the format has, of no more bits than its numbers have, is a number of the format. -/
theorem on_grid (f : FloatFmt) (hf : f.Full) (x : Dy) (g : ℤ) (j : ℕ) (hg : 1 - (f.bias : Int) - f.fb ≤ g) (hx : |x.real| = j * 2 ^ g)
    (hb : |x.real| ≤ 2 ^ (g + (f.fb + 1 : ℕ))) : ∃ k, f.magVal k = |x.real| := by
  by_cases h0 : x.real = 0
  · exact ⟨0, by rw [f.magVal_zero, h0, abs_zero]⟩
  obtain ⟨-, ⟨k, h1, h2, -⟩, -⟩ := (f.ofDy_roundedTo hf.fb .rtz false x).2 h0
  refine ⟨k, h1.antisymm ?_⟩
  obtain ⟨g1, g2⟩ := f.gap k
  obtain ⟨h, hh⟩ : ∃ h : ℕ, h = k / 2 ^ f.fb - 1 := ⟨_, rfl⟩
  rw [← hh] at g1 g2
  obtain ⟨E, hE⟩ : ∃ E : ℤ, E = (h : ℤ) + (1 - f.bias - f.fb) := ⟨_, rfl⟩
  rw [← hE] at g1 g2
  have hz := two_zpow_pos E
  by_cases hc : E ≤ g
  · have e1 : (2 : ℝ) ^ g = 2 ^ (g - E).toNat * 2 ^ E := two_zpow_shift g _ E (by omega)
    rw [g2, g1, hx, e1, ← add_one_mul, ← mul_assoc] at h2
    rw [g1, hx, e1, ← mul_assoc]
    have h3 := lt_of_mul_lt_mul_right h2 hz.le
    refine mul_le_mul_of_nonneg_right ?_ hz.le
    exact_mod_cast Nat.lt_succ_iff.1 (by exact_mod_cast h3)
  · have hq2 : 1 ≤ k / 2 ^ f.fb := by omega
    have hk : 2 ^ f.fb ≤ k - h * 2 ^ f.fb := by
      rw [hh]
      have := Nat.div_mul_le_self k (2 ^ f.fb)
      have h5 : (k / 2 ^ f.fb - 1) * 2 ^ f.fb + 2 ^ f.fb = k / 2 ^ f.fb * 2 ^ f.fb := by
        obtain ⟨q, hq⟩ : ∃ q, k / 2 ^ f.fb = q + 1 := ⟨k / 2 ^ f.fb - 1, by omega⟩
        rw [hq, Nat.add_sub_cancel]; ring
      omega
    have hkr : (2 : ℝ) ^ f.fb ≤ ((k - h * 2 ^ f.fb : Nat) : ℝ) := by exact_mod_cast hk
    calc |x.real| ≤ 2 ^ (g + (f.fb + 1 : ℕ)) := hb
      _ ≤ 2 ^ (E + f.fb) := zpow_le_zpow_right₀ (by norm_num) (by push_cast; omega)
      _ = 2 ^ f.fb * 2 ^ E := by rw [zpow_add₀ (by norm_num), zpow_natCast, mul_comm]
      _ ≤ f.magVal k := by rw [g1]; exact mul_le_mul_of_nonneg_right hkr hz.le

/-- A number of the format keeps its value at its place. -/
theorem placeOf_exact (f : FloatFmt) (hf : f.Full) (y : ℚ) (k : ℕ) (hk : f.magVal k = |(y : ℝ)|) (hm : k ≤ f.maxCode) (j : ℤ) (g : ℤ) (hg : -1024 ≤ g)
    (hy : y = j * 2 ^ g) : f.placeOf y ≤ f.maxCode ∧ -(f.maxCode : Int) - 1 ≤ f.placeOf y ∧ f.placeReal (f.placeOf y) = y := by
  have hd : (Dy.mk ⌊y * 2 ^ 1024⌋ (-1024)).real = y := by
    have e1 : y * 2 ^ 1024 = ((j * 2 ^ (g + 1024).toNat : ℤ) : ℚ) := by
      have : (2 : ℚ) ^ (g + 1024).toNat = 2 ^ g * 2 ^ 1024 := by
        rw [← zpow_natCast, ← zpow_natCast, ← zpow_add₀ (by norm_num)]; congr 1; push_cast; omega
      push_cast
      rw [this, hy, mul_assoc]
    rw [e1, Int.floor_intCast]
    unfold Dy.real
    have : (((j * 2 ^ (g + 1024).toNat : ℤ) : ℚ) : ℝ) = (y : ℝ) * 2 ^ 1024 := by rw [← e1]; push_cast; rfl
    have e2 : ((j * 2 ^ (g + 1024).toNat : ℤ) : ℝ) = (y : ℝ) * 2 ^ 1024 := by rw [← this]; push_cast; ring
    rw [e2, mul_assoc, ← zpow_natCast, ← zpow_add₀ (by norm_num)]
    simp
  obtain ⟨-, l2, l3⟩ := f.lowPlace hf ⟨⌊y * 2 ^ 1024⌋, -1024⟩
  rw [hd] at l3
  change -(f.maxCode : Int) - 1 ≤ f.placeOf y at l2
  change ∀ q : Int, -(f.maxCode : Int) - 1 ≤ q → q ≤ f.maxCode → (f.placeOf y ≤ q ↔ (y : ℝ) ≤ f.placeReal q) at l3
  obtain ⟨q, q1, q2, q3⟩ : ∃ q : Int, -(f.maxCode : Int) - 1 ≤ q ∧ q ≤ f.maxCode ∧ f.placeReal q = y := by
    unfold FloatFmt.placeReal
    rcases lt_or_ge (y : ℝ) 0 with hn | hn
    · exact ⟨-(k : Int) - 1, by omega, by omega, by rw [if_pos (by omega), show (-(-(k : Int) - 1) - 1).toNat = k by omega, hk, abs_of_neg hn, neg_neg]⟩
    · exact ⟨k, by omega, by omega, by rw [if_neg (by omega), Int.toNat_natCast, hk, abs_of_nonneg hn]⟩
  have h1 : f.placeOf y ≤ q := (l3 q q1 q2).2 q3.ge
  refine ⟨by omega, l2, le_antisymm ?_ ((l3 _ l2 (by omega)).1 (le_refl _))⟩
  rw [← q3]; exact f.placeReal_mono h1

/-- Where every partial sum in any order is a number of the format, so is the sum, and the result is it (R89, R422). -/
theorem sumOf_exact (f : FloatFmt) (hf : f.Full) (hE : -1024 ≤ 1 - (f.bias : Int) - f.fb) (n : Nat) (hn : 1 ≤ n) (hn2 : n + 1 ≤ 2 ^ (f.fb + 1)) (x : FSum)
    (vs : List FVal) (h : x.Holds vs) (he : 1 - (f.bias : Int) - f.fb ≤ x.exact.e) (hfin : AllFin vs) (i : Nat) (g : ℤ)
    (hg : 1 - (f.bias : Int) - f.fb ≤ g) (hk : ∀ v ∈ vs, ∃ k : ℤ, v.real = k * 2 ^ g) (hA : (vs.map fun v => |v.real|).sum ≤ 2 ^ (g + (f.fb + 1 : ℕ)))
    (hM : |(vs.map FVal.real).sum| ≤ f.magVal f.maxCode) :
    ∃ neg m e, f.val (f.sumOf (f.fb + 1) n x i) = .fin neg m e ∧ (f.val (f.sumOf (f.fb + 1) n x i)).real = (vs.map FVal.real).sum := by
  have hroom := hf.room
  by_cases hz : x.zeros = true
  · have hz' : vs.all FVal.isZero = true := by rw [← h.zeros]; exact hz
    have s0 := sum_zero vs hz'
    rcases (sumOf_spec f hf n hn hn2 x vs h he i).2.2.2 hfin with ⟨-, -, -, -, hs⟩ | ⟨neg, m, e, r1, r2⟩
    · exact absurd s0 hs
    · refine ⟨neg, m, e, r1, ?_⟩
      have hA0 : (vs.map fun v => |v.real|).sum = 0 := by
        refine List.sum_eq_zero fun a ha => ?_
        obtain ⟨v, hv, rfl⟩ := List.mem_map.1 ha
        obtain ⟨neg, e, rfl⟩ := FVal.zero_iff.1 (List.all_eq_true.1 hz' v hv)
        rw [(fin_zero_iff _ _ _).2 rfl, abs_zero]
      rw [hA0, mul_zero, s0, sub_zero] at r2
      rw [s0]; exact abs_eq_zero.1 (le_antisymm r2 (abs_nonneg _))
  have hz : x.zeros = false := by simpa using hz
  obtain ⟨S, hS⟩ : ∃ S, S = (vs.map FVal.real).sum := ⟨_, rfl⟩
  have habs := sum_abs_ge vs
  rw [← hS] at hM habs ⊢
  -- the pick is the exact sum, a multiple of the step
  have hcast : ∀ l : List FVal, (((l.map FVal.dy).map Dy.rat).sum : ℝ) = (l.map FVal.real).sum := by
    intro l; induction l with
    | nil => simp
    | cons v l ih =>
      simp only [List.map_cons, List.sum_cons, Rat.cast_add, ih, Dy.rat_real]; rfl
  have hcastA : ∀ l : List FVal, ((((l.map FVal.dy).map Dy.rat).map fun x => |x|).sum : ℝ) = (l.map fun v => |v.real|).sum := by
    intro l; induction l with
    | nil => simp
    | cons v l ih => simp only [List.map_cons, List.sum_cons, Rat.cast_add, ih, Rat.cast_abs, Dy.rat_real]; rfl
  have hpick : Config.sumPick.pick (f.fb + 1) (1 - (f.bias : Int) - f.fb) i (x.terms.map Dy.rat) = (x.terms.map Dy.rat).sum := by
    refine Config.sumPick.exact _ _ g i _ hg (fun y hy => ?_) ?_
    · rw [h.terms, List.map_map] at hy
      obtain ⟨v, hv, rfl⟩ := List.mem_map.1 hy
      obtain ⟨k, hk⟩ := hk v hv
      refine ⟨k, ?_⟩
      have : (((v.dy.rat : ℚ)) : ℝ) = ((k * 2 ^ g : ℚ) : ℝ) := by rw [Dy.rat_real]; push_cast; exact hk
      exact_mod_cast this
    · rw [h.terms]
      have : ((((vs.map FVal.dy).map Dy.rat).map fun x => |x|).sum : ℝ) ≤ (((2 : ℚ) ^ (g + (f.fb + 1 : ℕ)) : ℚ) : ℝ) := by
        rw [hcastA]; push_cast; push_cast at hA; exact hA
      exact_mod_cast this
  obtain ⟨y, hy⟩ : ∃ y, y = (x.terms.map Dy.rat).sum := ⟨_, rfl⟩
  have hyS : (y : ℝ) = S := by rw [hy, h.terms, hcast, hS]
  obtain ⟨j, hj⟩ : ∃ j : ℤ, S = j * 2 ^ g := by
    rw [hS]
    clear hS hfin h hA hM habs hcast hcastA hpick hy hyS he hz S
    induction vs with
    | nil => exact ⟨0, by simp⟩
    | cons v l ih =>
      obtain ⟨a, ha⟩ := hk v (by simp)
      obtain ⟨b, hb⟩ := ih fun w hw => hk w (by simp [hw])
      exact ⟨a + b, by rw [List.map_cons, List.sum_cons, ha, hb]; push_cast; ring⟩
  have hyj : y = j * 2 ^ g := by
    have : (y : ℝ) = ((j * 2 ^ g : ℚ) : ℝ) := by rw [hyS, hj]; push_cast; ring
    exact_mod_cast this
  obtain ⟨k, hk'⟩ := on_grid f hf x.exact g j.natAbs hg (by
      rw [h.exact, ← hS, hj, abs_mul, abs_of_pos (two_zpow_pos g), Nat.cast_natAbs]; push_cast; rfl)
    (by rw [h.exact, ← hS]; exact habs.trans hA)
  rw [h.exact, ← hS] at hk'
  have hkm : k ≤ f.maxCode := f.magVal_strictMono.le_iff_le.1 (hk' ▸ hM)
  obtain ⟨p1, p2, p3⟩ := placeOf_exact f hf y k (by rw [hk', hyS]) hkm j g (by omega) hyj
  -- the bounds leave it alone
  obtain ⟨u, hu⟩ : ∃ u, u = f.fb + 1 := ⟨_, rfl⟩
  have hc0 : (0 : ℝ) ≤ (n + 1) / 2 ^ u * (vs.map fun v => |v.real|).sum :=
    mul_nonneg (by positivity) ((abs_nonneg _).trans habs)
  obtain ⟨-, l2, l3⟩ := f.lowPlace hf (boundSum u n false x.terms)
  obtain ⟨-, h2, h3⟩ := f.highPlace hf (boundSum u n true x.terms)
  rw [h.terms, boundSum_real u n _ (hu ▸ hn2), ← hS] at l3 h3
  rw [← h.terms] at l3 h3
  simp only [Bool.false_eq_true, if_false] at l3
  simp only [if_true] at h3
  have hL : f.lowest u n x ≤ f.placeOf y := by
    unfold FloatFmt.lowest
    split
    · have : f.place (f.infCode false true) = -(f.maxCode : Int) - 2 := by
        rw [show f.infCode false true = f.signed true (f.maxCode + 1) by simp [FloatFmt.infCode, hf.inf], f.place_signed true _ hroom]; simp; omega
      omega
    · exact (l3 _ p2 p1).2 (by rw [p3, hyS]; linarith)
  have hH : f.placeOf y ≤ f.highest u n x := by
    unfold FloatFmt.highest
    split
    · have : f.place (f.infCode false false) = f.maxCode + 1 := by
        rw [show f.infCode false false = f.signed false (f.maxCode + 1) by simp [FloatFmt.infCode, hf.inf], f.place_signed false _ hroom]; simp
      omega
    · exact (h3 _ p2 p1).2 (by rw [p3, hyS]; linarith)
  have hP : f.sumPlace (f.fb + 1) n x i = f.placeOf y := by
    unfold FloatFmt.sumPlace
    rw [hpick, ← hy, ← hu, min_eq_right hH, max_eq_right hL]
  obtain ⟨-, -, c3⟩ := sumOf_val f hf n hn hn2 x vs h he hfin hz i
  rw [hP] at c3
  obtain ⟨neg, m, e, r1, r2⟩ := c3 p1 p2
  exact ⟨neg, m, e, r1, by rw [r2, p3, hyS]⟩

/-! ## Reductions (R302, R422) -/

theorem FloatFmt.val_e (f : FloatFmt) (hb : (1 : Int) ≤ f.bias + f.fb) (a : Nat) : 1 - (f.bias : Int) - f.fb ≤ (f.val a).dy.e := by
  unfold FloatFmt.val
  dsimp only
  split
  · split
    · exact le_refl _
    · next h =>
      have : (1 : Int) ≤ ((a % 2 ^ (f.eb + f.fb) / 2 ^ f.fb : Nat) : Int) := by
        have := Nat.pos_of_ne_zero h; omega
      show _ ≤ ((a % 2 ^ (f.eb + f.fb) / 2 ^ f.fb : Nat) : Int) - f.bias - f.fb
      linarith
  · split <;> (show _ ≤ (0 : Int)) <;> omega

theorem tyFloat_floatOf (ty : Ty) : tyFloat ty = floatOf ty := by cases ty <;> rfl

theorem floatOf_mem {ty : Ty} {f : FloatFmt} (h : floatOf ty = some f) : f ∈ [fp32, fp16, bf16] := by
  cases ty <;> simp [floatOf] at h <;> simp [← h]

theorem format_facts {f : FloatFmt} (h : f ∈ [fp32, fp16, bf16]) :
    (1 : Int) ≤ f.bias + f.fb ∧ sumUnit f = f.fb + 1 ∧ 33 ≤ 2 ^ (f.fb + 1) ∧ f.val f.nanCode = .nan ∧
    (∀ neg, f.val (f.signed neg (f.inf.getD 0)) = .inf neg) ∧ (∀ neg, f.infCode false neg = f.signed neg (f.inf.getD 0)) := by
  have hf : f = fp32 ∨ f = fp16 ∨ f = bf16 := by simpa using h
  rcases hf with rfl | rfl | rfl <;> decide

theorem red_holds (f : FloatFmt) (l : List Nat) : (((l.map f.val).foldl FSum.add (FSum.start 0 (.fin false 0 0)))).Holds (.fin false 0 0 :: l.map f.val) :=
  FSum.holds_fold _ (FSum.holds_start 0 _)

theorem red_low {f : FloatFmt} (hb : (1 : Int) ≤ f.bias + f.fb) (l : List Nat) :
    1 - (f.bias : Int) - f.fb ≤ (((l.map f.val).foldl FSum.add (FSum.start 0 (.fin false 0 0)))).exact.e := by
  refine (red_holds f l).low _ fun v hv => ?_
  rcases List.mem_cons.1 hv with rfl | hv
  · show _ ≤ (0 : Int); omega
  · obtain ⟨a, -, rfl⟩ := List.mem_map.1 hv
    exact f.val_e hb a

theorem redElems_add {ty : Ty} {f : FloatFmt} (h : floatOf ty = some f) (free : Nat) (l : List Nat) (hl : l ≠ []) :
    redElems .add ty free l = f.sumOf (f.fb + 1) l.length ((l.map f.val).foldl FSum.add (FSum.start 0 (.fin false 0 0))) free := by
  have hu := (format_facts (floatOf_mem h)).2.1
  unfold redElems
  rw [tyFloat_floatOf, h]
  simp only [List.isEmpty_iff, hl, if_false, FloatFmt.sumFree, hu]

/-- A reduction's float sum (R162, R164, R422). -/
theorem redElems_sum {ty : Ty} {f : FloatFmt} (h : floatOf ty = some f) (free : Nat) (l : List Nat) :
    let vs := l.map f.val
    let r := redElems .add ty free l
    let s := (vs.map FVal.real).sum
    let c : ℝ := (l.length + 1) / 2 ^ (f.fb + 1)
    (.nan ∈ vs ∨ .inf false ∈ vs ∧ .inf true ∈ vs → l.length ≤ 32 → r = f.nanCode) ∧
    (∀ neg, .nan ∉ vs → .inf neg ∈ vs → .inf (!neg) ∉ vs → l.length ≤ 32 → r = f.signed neg (f.inf.getD 0)) ∧
    ((∀ v ∈ vs, ∃ neg e, v = .fin neg 0 e) → l.length ≤ 32 → r = 0) ∧
    ((∀ v ∈ vs, ∃ neg m e, v = .fin neg m e) → l.length ≤ 32 →
      (∃ neg, f.val r = .inf neg ∧ f.magVal f.maxCode < |s| * (1 + c) ∧ (neg = true ↔ s < 0)) ∨
      ∃ neg m e, f.val r = .fin neg m e ∧ |(f.val r).real - s| ≤ c * (vs.map fun v => |v.real|).sum) := by
  intro vs r s c
  by_cases hl : l = []
  · subst hl
    have hr : r = 0 := by show redElems .add ty free [] = 0; unfold redElems; rw [tyFloat_floatOf, h]; rfl
    refine ⟨fun h => by simp [vs] at h, fun neg h1 h2 => by simp [vs] at h2, fun _ _ => hr, fun _ _ => .inr ?_⟩
    have h0 : f.val 0 = .fin false 0 (1 - (f.bias : Int) - f.fb) := by unfold FloatFmt.val; simp
    exact ⟨_, _, _, by rw [hr, h0], by rw [hr, h0, (fin_zero_iff _ _ _).2 rfl]; simp [s, vs]⟩
  · have hn : 1 ≤ l.length := by have := List.length_pos_iff.2 hl; omega
    obtain ⟨hb, -, h33, -⟩ := format_facts (floatOf_mem h)
    have key := fun (hn2 : l.length ≤ 32) => sumOf_spec f (full_of_mem (floatOf_mem h)) l.length hn (by omega) _ _ (red_holds f l) (red_low hb l) free
    have hz : (FVal.fin false 0 0).real = 0 := (fin_zero_iff _ _ _).2 rfl
    simp only [← redElems_add h free l hl, List.map_cons, List.sum_cons, hz, zero_add, abs_zero] at key
    refine ⟨fun hs hn2 => (key hn2).1 ?_, fun neg h1 h2 h3 hn2 => (key hn2).2.1 neg ?_ ?_ ?_, fun hs hn2 => ?_, fun hs hn2 => ?_⟩
    · rcases hs with hs | ⟨hs, ht⟩
      · exact .inl (List.mem_cons_of_mem _ hs)
      · exact .inr ⟨List.mem_cons_of_mem _ hs, List.mem_cons_of_mem _ ht⟩
    · rw [List.mem_cons]; rintro (e | e); · cases e
      exact h1 e
    · exact List.mem_cons_of_mem _ h2
    · rw [List.mem_cons]; rintro (e | e); · cases e
      exact h3 e
    · have := (key hn2).2.2.1 (fun v hv => ?_)
      · rw [show r = _ from this]
        simp [FVal.isZero, FVal.neg?, FloatFmt.signed]
      · rcases List.mem_cons.1 hv with rfl | hv
        · rfl
        · obtain ⟨neg, e, rfl⟩ := hs v hv; rfl
    · have side : AllFin (.fin false 0 0 :: l.map f.val) := fun v hv => by
        rcases List.mem_cons.1 hv with rfl | hv
        · exact ⟨_, _, _, rfl⟩
        · exact hs v hv
      rcases (key hn2).2.2.2 side with ⟨neg, a1, a2, a3, -⟩ | a
      · exact .inl ⟨neg, a1, a2, a3⟩
      · exact .inr a

/-- A reduction whose partial sums are all numbers of the type is exact (R89, R422). -/
theorem redElems_exact {ty : Ty} {f : FloatFmt} (h : floatOf ty = some f) (free : Nat) (l : List Nat) (hl : l.length ≤ 32)
    (hfin : ∀ v ∈ l.map f.val, ∃ neg m e, v = .fin neg m e) (g : ℤ) (hg : 1 - (f.bias : Int) - f.fb ≤ g)
    (hk : ∀ v ∈ l.map f.val, ∃ k : ℤ, v.real = k * 2 ^ g) (hA : ((l.map f.val).map fun v => |v.real|).sum ≤ 2 ^ (g + (f.fb + 1 : ℕ)))
    (hM : |((l.map f.val).map FVal.real).sum| ≤ f.magVal f.maxCode) :
    ∃ neg m e, f.val (redElems .add ty free l) = .fin neg m e ∧ (f.val (redElems .add ty free l)).real = ((l.map f.val).map FVal.real).sum := by
  have hz : (FVal.fin false 0 0).real = 0 := (fin_zero_iff _ _ _).2 rfl
  by_cases he : l = []
  · subst he
    have hr : redElems .add ty free [] = 0 := by unfold redElems; rw [tyFloat_floatOf, h]; rfl
    have h0 : f.val 0 = .fin false 0 (1 - (f.bias : Int) - f.fb) := by unfold FloatFmt.val; simp
    exact ⟨_, _, _, by rw [hr, h0], by rw [hr, h0, (fin_zero_iff _ _ _).2 rfl]; simp⟩
  · have hn : 1 ≤ l.length := by have := List.length_pos_iff.2 he; omega
    obtain ⟨hb, -, h33, -⟩ := format_facts (floatOf_mem h)
    have hE : -1024 ≤ 1 - (f.bias : Int) - f.fb := by
      have hf : f = fp32 ∨ f = fp16 ∨ f = bf16 := by simpa using floatOf_mem h
      rcases hf with rfl | rfl | rfl <;> decide
    have key := sumOf_exact f (full_of_mem (floatOf_mem h)) hE l.length hn (by omega) _ _ (red_holds f l) (red_low hb l)
      (fun v hv => by
        rcases List.mem_cons.1 hv with rfl | hv
        · exact ⟨_, _, _, rfl⟩
        · exact hfin v hv) free g hg
      (fun v hv => by
        rcases List.mem_cons.1 hv with rfl | hv
        · exact ⟨0, by rw [hz]; simp⟩
        · exact hk v hv)
      (by simpa [hz] using hA) (by simpa [hz] using hM)
    rw [redElems_add h free l he]
    simpa [hz] using key

/-- R163 for a reduction: with one larger element, the sum is not less, whatever the two evaluations are. -/
theorem redElems_mono {ty : Ty} {f : FloatFmt} (h : floatOf ty = some f) (i j : Nat) (p q : List Nat) (a b : Nat)
    (hl : (p ++ a :: q).length ≤ 32) (hab : (f.val a).AtMost (f.val b)) (hne : ¬ (f.val b).AtMost (f.val a))
    (n1 : f.val (redElems .add ty i (p ++ a :: q)) ≠ .nan) (n2 : f.val (redElems .add ty j (p ++ b :: q)) ≠ .nan) :
    (f.val (redElems .add ty i (p ++ a :: q))).AtMost (f.val (redElems .add ty j (p ++ b :: q))) := by
  obtain ⟨hb, -, h33, hnc, hic, -⟩ := format_facts (floatOf_mem h)
  have hlen : (p ++ b :: q).length = (p ++ a :: q).length := by simp
  rw [redElems_add h _ _ (by simp)] at n1 n2 ⊢
  rw [redElems_add h _ _ (by simp)]
  rw [hlen] at n2 ⊢
  have ha := red_holds f (p ++ a :: q)
  have hb' := red_holds f (p ++ b :: q)
  have ea : ∀ c, (FVal.fin false 0 0 :: (p ++ c :: q).map f.val) = (FVal.fin false 0 0 :: p.map f.val) ++ f.val c :: q.map f.val := by intro c; simp
  rw [ea] at ha hb'
  exact sumOf_mono f (full_of_mem (floatOf_mem h)) _ (by simp; omega) (by omega) _ _ _ _ _ _ ha hb' (red_low hb _) (red_low hb _) hab hne i j n1 n2 hnc hic

/-! ## The least and the greatest (R146, R422) -/

theorem FVal.cmp_self (v : FVal) (h : v ≠ .nan) : v.cmp v = .eq := by
  rcases v with _ | neg | ⟨neg, m, e⟩
  · exact absurd rfl h
  · simp [FVal.cmp]
  · show Dy.cmp _ _ = _
    rw [Dy.cmp_real]; simp

theorem FVal.cmp_atMost (v w : FVal) (hv : v ≠ .nan) (hw : w ≠ .nan) :
    (v.cmp w = .lt → v.AtMost w) ∧ (v.cmp w = .gt → w.AtMost v) ∧ (v.cmp w = .eq → v.AtMost w ∧ w.AtMost v) ∧ v.cmp w ≠ .unordered := by
  rcases v with _ | neg | ⟨neg, m, e⟩
  · exact absurd rfl hv
  · rcases w with _ | neg' | ⟨neg', m', e'⟩
    · exact absurd rfl hw
    · cases neg <;> cases neg' <;> simp [FVal.cmp, FVal.AtMost]
    · cases neg <;> simp [FVal.cmp, FVal.AtMost]
  · rcases w with _ | neg' | ⟨neg', m', e'⟩
    · exact absurd rfl hw
    · cases neg' <;> simp [FVal.cmp, FVal.AtMost]
    · have hc : FVal.cmp (.fin neg m e) (.fin neg' m' e') = if (FVal.fin neg m e).real < (FVal.fin neg' m' e').real then .lt
          else if (FVal.fin neg m e).real = (FVal.fin neg' m' e').real then .eq else .gt := Dy.cmp_real _ _
      rw [hc]
      have fin : ∀ a b : FVal, (∃ x m e y n g, a = .fin x m e ∧ b = .fin y n g) → a.real ≤ b.real → a.AtMost b := by
        rintro a b ⟨x, m, e, y, n, g, rfl, rfl⟩ h; exact .inr (.inr ⟨_, _, _, _, _, _, rfl, rfl, h⟩)
      rcases lt_trichotomy (FVal.fin neg m e).real (FVal.fin neg' m' e').real with h | h | h
      · rw [if_pos h]
        exact ⟨fun _ => fin _ _ ⟨_, _, _, _, _, _, rfl, rfl⟩ h.le, fun h => (by simp at h), fun h => (by simp at h), by simp⟩
      · rw [if_neg h.not_lt, if_pos h]
        exact ⟨fun h => (by simp at h), fun h => (by simp at h),
          fun _ => ⟨fin _ _ ⟨_, _, _, _, _, _, rfl, rfl⟩ h.le, fin _ _ ⟨_, _, _, _, _, _, rfl, rfl⟩ h.ge⟩, by simp⟩
      · rw [if_neg h.not_gt, if_neg h.ne']
        exact ⟨fun h => (by simp at h), fun _ => fin _ _ ⟨_, _, _, _, _, _, rfl, rfl⟩ h.le, fun h => (by simp at h), by simp⟩

theorem FVal.AtMost.trans {u v w : FVal} (h1 : u.AtMost v) (h2 : v.AtMost w) : u.AtMost w := by
  rcases h1 with h1 | h1 | ⟨x, m, e, y, n, g, h1, h1', h1''⟩
  · exact .inl h1
  · rcases h2 with h2 | h2 | ⟨x, m, e, y, n, g, h2, -, -⟩
    · rw [h1] at h2; cases h2
    · exact .inr (.inl h2)
    · rw [h1] at h2; cases h2
  · rcases h2 with h2 | h2 | ⟨x', m', e', y', n', g', h2, h2', h2''⟩
    · rw [h1'] at h2; cases h2
    · exact .inr (.inl h2)
    · exact .inr (.inr ⟨_, _, _, _, _, _, h1, h2', h1''.trans h2''⟩)

theorem FVal.AtMost.refl (v : FVal) (h : v ≠ .nan) : v.AtMost v := ((v.cmp_atMost v h h).2.2.1 (v.cmp_self h)).1

/-- What the fold of a list keeps: the extreme of the values that are not NaN. -/
def Extreme (f : FloatFmt) (hi : Bool) (c : Nat) (l : List Nat) : Prop :=
  ((∀ a ∈ l, f.val a = .nan) → c = f.nanCode) ∧
  ((∃ a ∈ l, f.val a ≠ .nan) → c ∈ l ∧ f.val c ≠ .nan ∧
    ∀ a ∈ l, f.val a ≠ .nan → if hi then (f.val a).AtMost (f.val c) else (f.val c).AtMost (f.val a))

theorem extreme_pair (f : FloatFmt) (hi : Bool) (x y : Nat) :
    let r := if hi then f.maxNum x y else f.minNum x y
    (f.val x = .nan → f.val y = .nan → r = f.nanCode) ∧ (f.val x = .nan → f.val y ≠ .nan → r = y) ∧ (f.val x ≠ .nan → f.val y = .nan → r = x) ∧
    (f.val x ≠ .nan → f.val y ≠ .nan → (r = x ∨ r = y) ∧
      (if hi then (f.val x).AtMost (f.val r) ∧ (f.val y).AtMost (f.val r) else (f.val r).AtMost (f.val x) ∧ (f.val r).AtMost (f.val y))) := by
  intro r
  refine ⟨fun h1 h2 => ?_, fun h1 h2 => ?_, fun h1 h2 => ?_, fun h1 h2 => ?_⟩
  · have hc : FVal.cmp (f.val x) (f.val y) = .unordered := by rw [h1]; rfl
    show (if hi then f.maxNum x y else f.minNum x y) = _
    simp only [FloatFmt.minNum, FloatFmt.maxNum, hc]
    simp [h1, h2]
  · have hc : FVal.cmp (f.val x) (f.val y) = .unordered := by rw [h1]; rfl
    show (if hi then f.maxNum x y else f.minNum x y) = _
    simp only [FloatFmt.minNum, FloatFmt.maxNum, hc]
    simp [h1, h2]
  · have hc : FVal.cmp (f.val x) (f.val y) = .unordered := by rw [h2]; cases f.val x <;> rfl
    show (if hi then f.maxNum x y else f.minNum x y) = _
    simp only [FloatFmt.minNum, FloatFmt.maxNum, hc]
    simp [h1]
  · obtain ⟨c1, c2, c3, c4⟩ := FVal.cmp_atMost _ _ h1 h2
    have hr : r = if hi then f.maxNum x y else f.minNum x y := rfl
    clear_value r
    have rx := FVal.AtMost.refl _ h1
    have ry := FVal.AtMost.refl _ h2
    cases hcmp : FVal.cmp (f.val x) (f.val y)
    · have := c1 hcmp
      cases hi <;> simp only [FloatFmt.minNum, FloatFmt.maxNum, hcmp, Bool.false_eq_true, if_false, if_true] at hr ⊢ <;> subst hr <;> simp_all
    · have := c3 hcmp
      cases hi <;> simp only [FloatFmt.minNum, FloatFmt.maxNum, hcmp, Bool.false_eq_true, if_false, if_true] at hr ⊢ <;> split at hr <;> subst hr <;> simp_all
    · have := c2 hcmp
      cases hi <;> simp only [FloatFmt.minNum, FloatFmt.maxNum, hcmp, Bool.false_eq_true, if_false, if_true] at hr ⊢ <;> subst hr <;> simp_all
    · exact absurd hcmp c4

theorem extreme_fold (f : FloatFmt) (hi : Bool) (hnc : f.val f.nanCode = .nan) (l : List Nat) : ∀ (c : Nat) (k : List Nat), Extreme f hi c k →
    Extreme f hi (l.foldl (fun x y => if hi then f.maxNum x y else f.minNum x y) c) (k ++ l) := by
  induction l with
  | nil => intro c k h; simpa using h
  | cons y l ih =>
    intro c k h
    obtain ⟨h1, h2⟩ := h
    obtain ⟨p1, p2, p3, p4⟩ := extreme_pair f hi c y
    obtain ⟨r, hr⟩ : ∃ r, r = if hi then f.maxNum c y else f.minNum c y := ⟨_, rfl⟩
    rw [← hr] at p1 p2 p3 p4
    rw [List.foldl_cons, ← hr, List.append_cons]
    refine ih r (k ++ [y]) ?_
    have nanK : (∀ a ∈ k, f.val a = .nan) → f.val c = .nan := fun h => by rw [h1 h]; exact hnc
    refine ⟨fun ha => p1 (nanK fun a hm => ha a (by simp [hm])) (ha y (by simp)), ?_⟩
    rintro ⟨a, hm, hna⟩
    by_cases hk : ∀ a ∈ k, f.val a = .nan
    · have hay : a = y := by
        rcases List.mem_append.1 hm with hm | hm
        · exact absurd (hk a hm) hna
        · simpa using hm
      subst hay
      have hra := p2 (nanK hk) hna
      subst hra
      refine ⟨by simp, hna, fun b hb hnb => ?_⟩
      have : b = r := by
        rcases List.mem_append.1 hb with hb | hb
        · exact absurd (hk b hb) hnb
        · simpa using hb
      subst this
      have := FVal.AtMost.refl _ hnb
      split <;> exact this
    · have hex : ∃ a ∈ k, f.val a ≠ .nan := by by_contra hc; exact hk fun a ha => by by_contra hn; exact hc ⟨a, ha, hn⟩
      obtain ⟨q1, q2, q3⟩ := h2 hex
      by_cases hy : f.val y = .nan
      · have hrc := p3 q2 hy
        subst hrc
        refine ⟨by simp [q1], q2, fun b hb hnb => ?_⟩
        rcases List.mem_append.1 hb with hb | hb
        · exact q3 b hb hnb
        · rw [List.mem_singleton] at hb; subst hb; exact absurd hy hnb
      · obtain ⟨w1, w2⟩ := p4 q2 hy
        have hrn : f.val r ≠ .nan := by rcases w1 with rfl | rfl <;> assumption
        refine ⟨by rcases w1 with rfl | rfl <;> simp [q1], hrn, fun b hb hnb => ?_⟩
        rcases List.mem_append.1 hb with hb | hb
        · have q := q3 b hb hnb
          cases hi
          · exact FVal.AtMost.trans w2.1 q
          · exact FVal.AtMost.trans q w2.1
        · rw [List.mem_singleton] at hb; subst hb
          cases hi
          · exact w2.2
          · exact w2.2

/-- A reduction's float minimum or maximum (R146, R422). -/
theorem redElems_extreme {ty : Ty} {f : FloatFmt} (h : floatOf ty = some f) (free : Nat) (hi : Bool) :
    let red := redElems (if hi then .max else .min) ty free
    red [] = f.signed hi (f.inf.getD 0) ∧ (∀ a b, red [a, b] = if hi then f.maxNum a b else f.minNum a b) ∧
    ∀ l ≠ [], Extreme f hi (red l) l := by
  intro red
  obtain ⟨-, -, -, hnc, -, hic⟩ := format_facts (floatOf_mem h)
  have hred : ∀ l, red l = l.foldl (fun x y => if hi then f.maxNum x y else f.minNum x y) (l.head?.getD (f.infCode false hi)) := by
    intro l
    show redElems _ _ _ _ = _
    unfold redElems redIdentity
    rw [tyFloat_floatOf, h]
    cases hi <;> rfl
  have one : ∀ a, Extreme f hi (if hi then f.maxNum a a else f.minNum a a) [a] := by
    intro a
    obtain ⟨p1, p2, p3, p4⟩ := extreme_pair f hi a a
    refine ⟨fun hn => p1 (hn a (by simp)) (hn a (by simp)), ?_⟩
    rintro ⟨b, hb, hn⟩
    rw [List.mem_singleton] at hb; subst hb
    obtain ⟨w1, w2⟩ := p4 hn hn
    have hb : (if hi then f.maxNum b b else f.minNum b b) = b := by tauto
    rw [hb] at w2 ⊢
    refine ⟨by simp, hn, fun c hc _ => ?_⟩
    rw [List.mem_singleton] at hc; subst hc
    split <;> simp_all
  refine ⟨by rw [hred, ← hic]; rfl, fun a b => ?_, fun l hl => ?_⟩
  · rw [hred]
    show (if hi then f.maxNum (if hi then f.maxNum a a else f.minNum a a) b else f.minNum (if hi then f.maxNum a a else f.minNum a a) b) = _
    obtain ⟨p1, p2, p3, p4⟩ := extreme_pair f hi a a
    by_cases hn : f.val a = .nan
    · obtain ⟨q1, q2, q3, q4⟩ := extreme_pair f hi f.nanCode b
      obtain ⟨s1, s2, s3, s4⟩ := extreme_pair f hi a b
      have ha := p1 hn hn
      by_cases hb : f.val b = .nan
      · have e1 := q1 hnc hb
        have e2 := s1 hn hb
        cases hi <;> simp_all
      · have e1 := q2 hnc hb
        have e2 := s2 hn hb
        cases hi <;> simp_all
    · have hb : (if hi then f.maxNum a a else f.minNum a a) = a := by have := (p4 hn hn).1; tauto
      rw [hb]
  · obtain ⟨a, t, rfl⟩ := List.exists_cons_of_ne_nil hl
    rw [hred]
    exact extreme_fold f hi hnc t _ _ (one a)

end Sys2Proof.Machine
end

