-- ==== Sys2Proof/Laws/Trap.lean ====
section
/-! SUPPORT. What returning from a trap does, and that a poison record touches no group. -/

namespace Sys2Proof.Machine.State

/-- Only registers and their full bits differ. -/
def FillsOnly (r r' : Regs) : Prop := r' = { r with v := r'.v, s := r'.s, ve := r'.ve, se := r'.se }

theorem FillsOnly.trans {a b c : Regs} (h : FillsOnly a b) (k : FillsOnly b c) : FillsOnly a c := by
  unfold FillsOnly at *
  rw [k, h]

theorem fills_mk (r : Regs) (v : Table Lane) (x : Table Word) (ve se : List Nat) :
    FillsOnly r { r with v := v, s := x, ve := ve, se := se } := rfl

theorem fills_foldl {β : Type} (f : Regs → β → Regs) (hf : ∀ r b, FillsOnly r (f r b)) (l : List β) (r : Regs) :
    FillsOnly r (l.foldl f r) := by
  induction l generalizing r with
  | nil => rfl
  | cons a l ih => exact (hf r a).trans (ih _)

/-- A unit that comes back changes registers and their full bits alone (R226). -/
theorem fills_refillUnit (mem : Table Byte) (own : List Nat) (r : Regs) (u : SpillUnit) : FillsOnly r (refillUnit mem own r u) := by
  unfold refillUnit
  refine fills_foldl _ (fun r b => ?_) _ _
  dsimp only
  split
  · rfl
  · split
    · exact fills_mk r _ r.s _ r.se
    · exact fills_mk r r.v _ r.ve _

theorem resumeMatrix_spec (t : State) (r : Regs) (m : Option Nat) :
    (∀ h, (t.resumeMatrix r m).group? h = t.group? h) ∧ t.resumeMatrix r m = { t with ops := (t.resumeMatrix r m).ops } := by
  unfold resumeMatrix
  split
  · exact ⟨fun _ => rfl, rfl⟩
  · exact ⟨fun _ => rfl, rfl⟩

/-- Returning from a trap (R386): the group changes in its registers, its windows, its level and its pc; nothing else changes but the
matrix instruction that continues. -/
theorem returnTrap_spec (s : State) (gid : Nat) (g : Group) :
    ∃ h, (s.returnTrap gid g).group? gid = some h ∧ h = { g with r := h.r } ∧
      h.r = { g.r with
        sys := false, pc := g.r.xpc, head := g.r.xhead, frame := none, replay := h.r.replay,
        wbv := h.r.wbv, wbs := h.r.wbs, vDepth := h.r.vDepth, sDepth := h.r.sDepth, spill := h.r.spill,
        v := h.r.v, s := h.r.s, ve := h.r.ve, se := h.r.se } ∧
      (∀ j, j ≠ gid → (s.returnTrap gid g).group? j = s.group? j) ∧
      s.returnTrap gid g = { s with groups := (s.returnTrap gid g).groups, ops := (s.returnTrap gid g).ops } := by
  unfold returnTrap
  obtain ⟨r1, r2⟩ := resumeMatrix_spec (s.setGroup gid _) g.r (g.r.frame.bind (fun f => f.mop))
  refine ⟨_, by rw [r1, group_setGroup, if_pos rfl], rfl, ?_, fun j hj => by rw [r1, group_setGroup, if_neg hj], by rw [r2]; rfl⟩
  simp only
  cases hf : g.r.frame with
  | none =>
    clear r1 r2
    generalize g.r = r at hf ⊢
    cases r
    simp only at hf
    subst hf
    rfl
  | some f =>
    have h := fills_foldl (fun (r : Regs) (u : SpillUnit) => refillUnit (s.blockOf g).mem
        (if u.vec then entering g.va g.winV f.wbv 8 else entering g.sa g.winS f.wbs 8) r u)
      (fun r u => fills_refillUnit ..) f.units g.r
    unfold FillsOnly at h
    simp only
    conv_lhs => rw [h]

/-- A record of consumed poison touches no group, block, launch, load or operation (R245, R247). -/
theorem poisonUsed_same (s : State) (g : Group) (a : Word) :
    s.poisonUsed g a = { s with dies := (s.poisonUsed g a).dies, aer := (s.poisonUsed g a).aer, free := (s.poisonUsed g a).free } := by
  unfold poisonUsed bboxAdd
  rfl

end Sys2Proof.Machine.State
end

