-- ==== Sys2Proof/Tests/Slice0.lean ====
section
/-! SUPPORT. Tests: the words of the manual decode, each check refuses an ill-formed instruction, single steps give the manual's
results, and every statement with hypotheses has a state and operands that meet them. -/

open Sys2Proof Sys2Proof.Machine

namespace Sys2Proof.Tests

/-- The fields of a word without a guard or a flag. -/
def plain : Ctl := ⟨false, 0, false, false, false, false, false, false, 0, 0, 0, false⟩

/-- The same with a run boundary. -/
def ender : Ctl := { plain with b := true }

/-! ## Decoding: a word for every instruction, from R277 to R290 and the example statements -/

theorem test_decode_control :
    decode 0x00403000300030002BC00E80#96 = .ok (.nop ⟨true, 5, true, true, true, false, false, false, 0, 3, 2, true⟩) ∧
    decode 0x008030003FFFFFFF01000000#96 = .ok (.bra ender (-4)) ∧
    decode 0x00C0020180000001C1000000#96 = .ok (.brz ender (.dir 6) 7) ∧
    decode 0x01000201BFFFFFFF01000000#96 = .ok (.brnz ender (.dir 6) (-4)) ∧
    decode 0x014030001282700001000000#96 = .ok (.brx ender (.idx 2 9)) ∧
    decode 0x0188F0000000000281000000#96 = .ok (.call ender 2 3 10) ∧
    decode 0x01FC7000020FF00001000000#96 = .ok (.callx ender 15 1 (.dir 63)) ∧
    decode 0x020030003000300001000000#96 = .ok (.ret ender) ∧
    decode 0x024030003000300003000000#96 = .ok (.exit ⟨false, 1, true, false, false, false, false, false, 0, 0, 0, false⟩) ∧
    decode 0x028030002000700001C00000#96 = .ok (.pass ⟨false, 0, true, true, true, false, false, false, 0, 0, 0, false⟩ (.imm 1)) ∧
    decode 0x02C030003000300001000000#96 = .ok (.detach ender) ∧
    decode 0x030030003000300000000000#96 = .ok (.brk plain) ∧
    decode 0x034030002800300000000000#96 = .ok (.trap plain (-8192)) ∧
    decode 0x038030003000300001000000#96 = .ok (.rett ender) := by decide

theorem test_decode_scalarA :
    decode 0x100802000205200000000000#96 = .ok (.sadd plain .i64 (.dir 0) (.dir 20) (.imm 0)) ∧
    decode 0x1044020F927F820040300000#96 = .ok (.ssub ⟨false, 0, false, false, false, true, true, false, 0, 0, 0, false⟩ .n32 (.dir 62) (.idx 1 254) (.reg (.dir 1))) ∧
    decode 0x10B002008205A03200000000#96 = .ok (.smul plain .b32 (.dir 2) (.dir 22) (.imm 200)) ∧
    decode 0x10CC020F12FF0200C0300000#96 = .ok (.smulh ⟨false, 0, false, false, false, true, true, false, 0, 0, 0, false⟩ .n64 (.dir 60) (.idx 3 252) (.reg (.dir 3))) ∧
    decode 0x110002010206206400000000#96 = .ok (.sdiv plain .i32 (.dir 4) (.dir 24) (.imm 400)) ∧
    decode 0x1148020E937E820140300000#96 = .ok (.srem ⟨false, 0, false, false, false, true, true, false, 0, 0, 0, false⟩ .i64 (.dir 58) (.idx 5 250) (.reg (.dir 5))) ∧
    decode 0x11B402018206A09600000000#96 = .ok (.sand plain .b64 (.dir 6) (.dir 26) (.imm 600)) := by decide

theorem test_decode_scalarB :
    decode 0x11F0020E13FE0201C0300000#96 = .ok (.sor ⟨false, 0, false, false, false, true, true, false, 0, 0, 0, false⟩ .b32 (.dir 56) (.idx 7 248) (.reg (.dir 7))) ∧
    decode 0x12040202020720C800000000#96 = .ok (.sxor plain .n32 (.dir 8) (.dir 28) (.imm 800)) ∧
    decode 0x1240020D927D820240300000#96 = .ok (.sshl ⟨false, 0, false, false, false, true, true, false, 0, 0, 0, false⟩ .i32 (.dir 54) (.idx 1 246) (.reg (.dir 9))) ∧
    decode 0x128C02028207A0FA00000000#96 = .ok (.sshr plain .n64 (.dir 10) (.dir 30) (.imm 1000)) ∧
    decode 0x12C8020D12FD0202C0300000#96 = .ok (.ssar ⟨false, 0, false, false, false, true, true, false, 0, 0, 0, false⟩ .i64 (.dir 52) (.idx 3 244) (.reg (.dir 11))) ∧
    decode 0x130002030208212C00000000#96 = .ok (.smin plain .i32 (.dir 12) (.dir 32) (.imm 1200)) ∧
    decode 0x1344020C937C820340300000#96 = .ok (.smax ⟨false, 0, false, false, false, true, true, false, 0, 0, 0, false⟩ .n32 (.dir 50) (.idx 5 242) (.reg (.dir 13))) ∧
    decode 0x138542004200AFFFC0000000#96 = .ok (.scmp plain .n32 .ge (.dir 1) (.dir 2) (.imm (-1))) ∧
    decode 0x13F7420042008200C0000000#96 = .ok (.ssel plain .b64 13 (.dir 1) (.dir 2) (.reg (.dir 3))) := by decide

theorem test_decode_scalarC :
    decode 0x140802014A03300000000000#96 = .ok (.smov plain .i64 (.sca (.dir 5)) (.spr .gstep)) ∧
    decode 0x14040801C202700000000000#96 = .ok (.smov plain .n32 (.idx 7) (.sca (.dir 9))) ∧
    decode 0x140802014800F00000000000#96 = .ok (.smov plain .i64 (.sca (.dir 5)) (.idx 3)) ∧
    decode 0x144C0200E26AF37BC0000000#96 = .ok (.smovi plain .n64 (.dir 3) 0x89ABCDEF) ∧
    decode 0x14880200C0048D1580000000#96 = .ok (.smovh plain .i64 (.dir 3) 0x00123456) ∧
    decode 0x14F402004200B00000000000#96 = .ok (.spopc plain .b64 (.dir 1) (.dir 2)) ∧
    decode 0x150002004200B00000000000#96 = .ok (.sclz plain .i32 (.dir 1) (.dir 2)) ∧
    decode 0x154C02004200B00000000000#96 = .ok (.sffs plain .n64 (.dir 1) (.dir 2)) ∧
    decode 0x158802004200A08100000000#96 = .ok (.sbfx plain .i64 (.dir 1) (.dir 2) (.imm 516)) ∧
    decode 0x15CC02004200A02100080000#96 = .ok (.sbfi ⟨false, 0, false, false, false, false, false, true, 0, 0, 0, false⟩ .n64 (.dir 1) (.dir 2) (.imm 132)) ∧
    decode 0x1604020042008200C0000000#96 = .ok (.slea plain .n32 (.dir 1) (.dir 2) (.reg (.dir 3))) := by decide

theorem test_decode_predicate :
    decode 0x20000400C4008403C0000000#96 = .ok (.pand plain 3 2 15) ∧
    decode 0x204004010400C40380000000#96 = .ok (.por plain 4 3 14) ∧
    decode 0x208004014401040340000000#96 = .ok (.pxor plain 5 4 13) ∧
    decode 0x20C004018401440300000000#96 = .ok (.pandn plain 6 5 12) ∧
    decode 0x21000403C403B00000000000#96 = .ok (.pmov plain 15 (.pred 14)) ∧
    decode 0x210004004200B00000000000#96 = .ok (.pmov plain 1 (.sca (.dir 2))) := by decide

theorem test_decode_vectorA :
    decode 0x28000000801F800000000000#96 = .ok (.vadd plain .i32 (.dir 2) (.dir 126) (.vec (.dir 0))) ∧
    decode 0x284C0001001F020040000000#96 = .ok (.vsub plain .n64 (.dir 4) (.dir 124) (.sca (.dir 1))) ∧
    decode 0x289C0001801EAFFF40000000#96 = .ok (.vmul plain .i16x2 (.dir 6) (.dir 122) (.imm (-3))) ∧
    decode 0x28E00002001E000180000000#96 = .ok (.vmulh plain .i8 (.dir 8) (.dir 120) (.vec (.dir 6))) ∧
    decode 0x29300002801D820100000000#96 = .ok (.vmad plain .b32 (.dir 10) (.dir 118) (.sca (.dir 4))) ∧
    decode 0x296C0003001D2FFE80000000#96 = .ok (.vmin plain .n16 (.dir 12) (.dir 116) (.imm (-6))) ∧
    decode 0x29A40003801C800300000000#96 = .ok (.vmax plain .n8 (.dir 14) (.dir 114) (.vec (.dir 12))) ∧
    decode 0x29E800025132300000000000#96 = .ok (.vabs plain .i16 (.dir 9) (.idx 4 200)) := by decide

theorem test_decode_vectorB :
    decode 0x2A340000800F000000000000#96 = .ok (.vand plain .b64 (.dir 2) (.dir 60) (.vec (.dir 0))) ∧
    decode 0x2A400001000E820040000000#96 = .ok (.vor plain .i32 (.dir 4) (.dir 58) (.sca (.dir 1))) ∧
    decode 0x2A840001800E2000C0000000#96 = .ok (.vxor plain .n32 (.dir 6) (.dir 56) (.imm 3)) ∧
    decode 0x2ADC0002000D800180000000#96 = .ok (.vshl plain .i16x2 (.dir 8) (.dir 54) (.vec (.dir 6))) ∧
    decode 0x2B240002800D020100000000#96 = .ok (.vshr plain .n8 (.dir 10) (.dir 52) (.sca (.dir 4))) ∧
    decode 0x2B480003000CA00180000000#96 = .ok (.vsar plain .i64 (.dir 12) (.dir 50) (.imm 6)) ∧
    decode 0x2BB000004000B00000000000#96 = .ok (.vpopc plain .b32 (.dir 1) (.dir 2)) ∧
    decode 0x2BEC00004000B00000000000#96 = .ok (.vclz plain .n16 (.dir 1) (.dir 2)) ∧
    decode 0x2C0000004000A08100000000#96 = .ok (.vbfx plain .i32 (.dir 1) (.dir 2) (.imm 516)) ∧
    decode 0x2C44000040008000C0080000#96 = .ok (.vbfi ⟨false, 0, false, false, false, false, false, true, 0, 0, 0, false⟩ .n32 (.dir 1) (.dir 2) (.vec (.dir 3))) ∧
    decode 0x2CB2400040008200C0000000#96 = .ok (.vsel plain .b32 9 (.dir 1) (.dir 2) (.sca (.dir 3))) ∧
    decode 0x2CE000004000AFE000000000#96 = .ok (.vsadd plain .i8 (.dir 1) (.dir 2) (.imm (-128))) ∧
    decode 0x2D0844014000800100000000#96 = .ok (.vcmp plain .i64 .ne 5 (.dir 2) (.vec (.dir 4))) ∧
    decode 0x2D4000004A00300000000000#96 = .ok (.vmov plain .i32 (.dir 1) (.spr .lane)) ∧
    decode 0x2D440000401FF00000000000#96 = .ok (.vmov plain .n32 (.dir 1) (.vec (.dir 127))) ∧
    decode 0x2D880000BFFFFFFF80000000#96 = .ok (.vmovi plain .i64 (.dir 2) 0xFFFFFFFE) := by decide

theorem test_decode_float :
    decode 0x4010000040008200C0000000#96 = .ok (.fadd plain .rne (.dir 1) (.dir 2) (.sca (.dir 3))) ∧
    decode 0x4050400040008000C0000000#96 = .ok (.fsub plain .rtz (.dir 1) (.dir 2) (.vec (.dir 3))) ∧
    decode 0x4090800040008200C0000000#96 = .ok (.fmul plain .rdn (.dir 1) (.dir 2) (.sca (.dir 3))) ∧
    decode 0x40D0C00040008000C0000000#96 = .ok (.ffma plain .rup (.dir 1) (.dir 2) (.vec (.dir 3))) ∧
    decode 0x4110000040008200C0000000#96 = .ok (.fmin plain .rne (.dir 1) (.dir 2) (.sca (.dir 3))) ∧
    decode 0x4150000040008000C0000000#96 = .ok (.fmax plain .rne (.dir 1) (.dir 2) (.vec (.dir 3))) ∧
    decode 0x4190800040008200C0000000#96 = .ok (.fdiv plain .rdn (.dir 1) (.dir 2) (.sca (.dir 3))) ∧
    decode 0x41D000004000300000000000#96 = .ok (.fsqrt plain .rne (.dir 1) (.dir 0)) ∧
    decode 0x421000004000700000000000#96 = .ok (.frcp plain .rne (.dir 1) (.dir 1)) ∧
    decode 0x425000004000B00000000000#96 = .ok (.frsq plain .rne (.dir 1) (.dir 2)) ∧
    decode 0x429000004000F00000000000#96 = .ok (.fex2 plain .rne (.dir 1) (.dir 3)) ∧
    decode 0x42D000004001300000000000#96 = .ok (.flg2 plain .rne (.dir 1) (.dir 4)) ∧
    decode 0x431000004001700000000000#96 = .ok (.fsin plain .rne (.dir 1) (.dir 5)) ∧
    decode 0x435000004001B00000000000#96 = .ok (.fcos plain .rne (.dir 1) (.dir 6)) ∧
    decode 0x4390C0004001F00000000000#96 = .ok (.frnd plain .rup (.dir 1) (.dir 7)) ∧
    decode 0x43D30400C000400080000000#96 = .ok (.fcmp plain .uge 3 (.dir 1) (.vec (.dir 2))) ∧
    decode 0x4418C00040008000C0000000#96 = .ok (.hadd plain .bf16x2 .rup (.dir 1) (.dir 2) (.vec (.dir 3))) ∧
    decode 0x4454000040008200C0000000#96 = .ok (.hmul plain .f16x2 .rne (.dir 1) (.dir 2) (.sca (.dir 3))) ∧
    decode 0x4494400040008000C0000000#96 = .ok (.hfma plain .f16x2 .rtz (.dir 1) (.dir 2) (.vec (.dir 3))) := by decide

theorem test_decode_conversion :
    decode 0x600240004000A00100000000#96 = .ok (.cvt plain .i32 .f32 true .rtz (.dir 1) (.dir 2)) ∧
    decode 0x604200004001200100000000#96 = .ok (.cvtp plain .e4m3 .f32 true .rne (.dir 1) (.dir 4)) ∧
    decode 0x615000020000A02500000000#96 = .ok (.dqcvt plain .f32 .e2m1 1 .l32 false .rne (.dir 8) (.dir 2)) ∧
    decode 0x615000020000A00E40000000#96 = .ok (.dqcvt plain .f32 .c8 3 .none false .rne (.dir 8) (.dir 2)) ∧
    decode 0x608400004001201500000000#96 = .ok (.qscl plain .e5m2 .ue4m3 .l16 (.dir 1) (.dir 4)) ∧
    decode 0x60D080004002203100000000#96 = .ok (.qcvt plain .e2m1 .e8m0 .l64 .rdn (.dir 1) (.dir 8)) ∧
    decode 0x612400004001200900000000#96 = .ok (.qcmp plain 2 (.dir 1) (.dir 4)) := by decide

theorem test_decode_exchange :
    decode 0x7000000040008000C0000000#96 = .ok (.vperm plain .i32 (.dir 1) (.dir 2) (.vec (.dir 3))) ∧
    decode 0x707400010000A00140000000#96 = .ok (.vbcast plain .b64 (.dir 4) (.dir 2) (.imm 5)) ∧
    decode 0x708480004000B00000000000#96 = .ok (.vred plain .n32 .max (.dir 1) (.dir 2)) ∧
    decode 0x70D000004000B00000000000#96 = .ok (.vscan plain .f32 .add (.dir 1) (.dir 2)) := by decide

theorem test_decode_memory :
    decode 0x7810000042008000C0000000#96 = .ok (.ldl plain .s16 (.dir 1) ⟨some (.dir 2), .vec (.dir 3)⟩) ∧
    decode 0x786880004200AFFF00000000#96 = .ok (.stl plain .s32 .sum .f32 (.dir 1) ⟨some (.dir 2), .imm (-4)⟩) ∧
    decode 0x78B04000B0000000C0000000#96 = .ok (.stla plain .s64 .i64 (.dir 2) ⟨none, .vec (.dir 3)⟩) ∧
    decode 0x78C0020042008200C0000000#96 = .ok (.sldl plain .s8 (.dir 1) ⟨some (.dir 2), .reg (.dir 3)⟩) ∧
    decode 0x793402007000201000000000#96 = .ok (.sstl plain .s64 .any .n32 (.dir 1) ⟨none, .imm 64⟩) ∧
    decode 0x7A28000202010000A7100100#96 = .ok (.ldg ⟨true, 3, true, false, false, false, true, false, 0, 0, 1, false⟩ .s32 .lag 0 (.dir 8) ⟨some (.dir 4), .vec (.dir 2)⟩) ∧
    decode 0x7A7000028202C000C1C00000#96 = .ok (.stg ⟨false, 0, true, true, true, false, false, false, 0, 0, 0, false⟩ .s64 .lo .n32 (.dir 10) ⟨some (.dir 11), .vec (.dir 3)⟩) ∧
    decode 0x7AA000014201200003C00000#96 = .ok (.stga ⟨false, 1, true, true, true, false, false, false, 0, 0, 0, false⟩ .s32 .n32 (.dir 5) ⟨some (.dir 4), .imm 0⟩) ∧
    decode 0x7AE002034200200201000000#96 = .ok (.sldg ender .s32 .now 0 (.dir 13) ⟨some (.dir 0), .imm 8⟩) ∧
    decode 0x7B1C02034200200200000000#96 = .ok (.sstg plain .s16 .flt .n32 (.dir 13) ⟨some (.dir 0), .imm 8⟩) ∧
    decode 0x7C300000B0000001C0000000#96 = .ok (.ldw plain .s64 (.dir 2) ⟨none, .vec (.dir 7)⟩) ∧
    decode 0x7C40300002004001C0000000#96 = .ok (.pfg plain ⟨some (.dir 1), .vec (.dir 7)⟩) ∧
    decode 0x7C8030003000000180000000#96 = .ok (.pgreq plain ⟨none, .vec (.dir 6)⟩) := by decide

theorem test_decode_engines :
    decode 0x88180200F000300000000000#96 = .ok (.cpy plain .g2l .sum .stb (.dir 3)) ∧
    decode 0x8844C200F000300000000000#96 = .ok (.cpym plain .w2l .any .now (.dir 3)) ∧
    decode 0x88802001C200601000000000#96 = .ok (.land plain (.imm 7) (.reg (.dir 1)) (.imm 64)) ∧
    decode 0x88E00200F000300000000000#96 = .ok (.gth plain .g .lo .lag (.dir 3)) ∧
    decode 0x890C8200F000300000000000#96 = .ok (.sct plain .l .flt (.dir 3)) ∧
    decode 0x89400200F000300000000000#96 = .ok (.cpyw plain true (.dir 3)) ∧
    decode 0x8A0C0200F000300000000000#96 = .ok (.btst plain .flt (.dir 3)) ∧
    decode 0x8A400200F000300000000000#96 = .ok (.btdem plain (.dir 3)) ∧
    decode 0x8A801240F000300000000000#96 = .ok (.btpro plain (.idx 1 3)) := by decide

theorem test_decode_matrix :
    decode 0x98000600C201204001000000#96 = .ok (.mma ender .now 3 (.dir 4) (.imm 256)) ∧
    decode 0x98600603C001020140000000#96 = .ok (.mmq plain .lag 15 (.dir 4) (.dir 5)) ∧
    decode 0x98804600B000300000000000#96 = .ok (.mzero plain true 2) ∧
    decode 0x98C006008201F00000000000#96 = .ok (.mlda plain false 2 (.dir 7)) ∧
    decode 0x9902C6008201F00000000000#96 = .ok (.mdrn plain true true .rdn 2 (.dir 7)) ∧
    decode 0x99402000C201F00000000000#96 = .ok (.ctld plain (.imm 3) (.dir 7)) := by decide

theorem test_decode_system :
    decode 0xA800040182020001CBC00000#96 = .ok (.spawn ⟨false, 5, true, true, true, false, false, false, 0, 0, 0, false⟩ false 6 (.dir 8) (.dir 7)) ∧
    decode 0xA84030000200B00000000000#96 = .ok (.lnch plain (.dir 2)) ∧
    decode 0xA88002022000700000000000#96 = .ok (.mbxrd plain (.dir 8) (.imm 1)) ∧
    decode 0xA8C030000202020240000000#96 = .ok (.mbxwr plain (.dir 8) (.dir 9)) ∧
    decode 0xB00002020A0FF00000000000#96 = .ok (.rdsr plain (.dir 8) .ctx) ∧
    decode 0xB0400A0A2FFE300001000000#96 = .ok (.wrsr ender .wbv (.imm (-8))) ∧
    decode 0xB080020227FFF00000000000#96 = .ok (.rdcnt plain (.dir 8) (.imm 8191)) ∧
    decode 0xB0C002022002E00000000000#96 = .ok (.qtopo plain (.dir 8) 11 (.imm 0)) ∧
    decode 0xB14030000200B00000000000#96 = .ok (.ctxsv plain (.dir 2)) ∧
    decode 0xB18030000200B00000000000#96 = .ok (.ctxld plain (.dir 2)) ∧
    decode 0xB11CB0000200A00041000000#96 = .ok (.tlbinv ender .gpa false 7 (.dir 2) (.imm 1)) := by decide

/-- R290: a word of zeros, and an OPC between two assigned ones. -/
theorem test_decode_unassigned :
    decode 0#96 = .ok (.unassignedOpcode 0#96) ∧
    decode 0x1640020040002000C0000000#96 = .ok (.unassignedOpcode 0x1640020040002000C0000000#96) := by decide

/-- R277, R280, R281 and R287: the other reasons that the decoder names. -/
theorem test_decode_rejects :
    decode 0x004030003000300000000001#96 = .error .reserved ∧
    decode 0x004030003000200000000000#96 = .error .operand ∧
    decode 0x280C00208000800000000000#96 = .error .number ∧
    decode 0x007030003000300000000000#96 = .error .modifier ∧
    decode 0x008030003FFFFFFF00000000#96 = .error (.illFormed .mustEndRun) := by decide

/-- R278: the bytes of `SADD s4, s0, 0x80` in memory. -/
theorem test_bytes_of_word : bytesOfWord 0x100802010200202000000000#96 = [0, 0, 0, 0, 0x20, 0x20, 0, 2, 1, 2, 8, 0x10] := by decide


/-- One ill-formed instruction for each check. -/
theorem test_ill_formed :
    Instr.illFormed (.nop ⟨false, 0, false, true, false, false, false, false, 0, 0, 0, false⟩) = some .boundary ∧
    Instr.illFormed (.bra plain 4) = some .mustEndRun ∧
    Instr.illFormed (.trap ⟨false, 0, true, true, false, false, false, false, 0, 0, 0, false⟩ 0) = some .trapBoundary ∧
    Instr.illFormed (.sdiv plain .b64 (.dir 1) (.dir 2) (.imm 3)) = some .type ∧
    Instr.illFormed (.vcmp plain .i32 .uno 1 (.dir 2) (.imm 3)) = some .condition ∧
    Instr.illFormed (.vadd plain .i64 (.dir 3) (.dir 2) (.imm 1)) = some .oddPair ∧
    Instr.illFormed (.stga plain .s32 .i64 (.dir 1) ⟨none, .vec (.dir 2)⟩) = some .sumType ∧
    Instr.illFormed (.cpy plain .l2g .lo .lag (.dir 1)) = some .readKind ∧
    Instr.illFormed (.cpym plain .l2g .lo .now (.dir 1)) = some .direction ∧
    Instr.illFormed (.cpy plain .g2l .lo .now (.idx 1 2)) = some .indexed ∧
    Instr.illFormed (.qtopo plain (.dir 1) 12 (.imm 0)) = some .immediate ∧
    Instr.illFormed (.rdsr plain (.dir 1) .lane) = some .perLane ∧
    Instr.illFormed (.vred plain .f32 .xor (.dir 1) (.dir 2)) = some .operation ∧
    Instr.illFormed (.cvt plain .i32 .f16x2 false .rne (.dir 1) (.dir 2)) = some .conversion ∧
    Instr.illFormed (.qcmp plain 0 (.dir 1) (.dir 125)) = some .runRange ∧
    Instr.illFormed (.tlbinv ender .va false 8 (.dir 1) (.imm 1)) = some .context ∧
    Instr.illFormed (.unassignedOpcode 0x004030003000300000000000#96) = some .assigned := by decide


/-! ## Single steps: results that the manual states -/

/-- The machine of a placed program, its group current. -/
def st : State := { placeWord State.reset [] with cur := some 1001, agenda := [] }

/-- That machine with another group in its place. -/
def with_ (g : Group) : State := st.setGroup 1001 g

/-- The placed group with scalar registers, lane 0 of vector registers, and predicates. -/
def regs (s : List (Nat × Word)) (v : List (Nat × Lane)) (p : List (Nat × Mask)) : Group :=
  let g1 := s.foldl (fun (g : Group) e => g.setS e.1 e.2) placedGroup
  let g2 := v.foldl (fun (g : Group) e => g.setV e.1 0 e.2) g1
  p.foldl (fun (g : Group) e => g.setP e.1 e.2) g2

/-- The group after one instruction. -/
def ran (i : Instr) (g : Group) : Option Group :=
  match exec i (with_ g) with
  | .next t => t.group? 1001
  | _ => none

/-- A scalar register after an instruction that reads s2 and s3. -/
def scalarAfter (i : Instr) (n : Nat) (s : List (Nat × Word)) : Option Word := (ran i (regs s [] [])).map (fun g => g.getS n)

/-- Lane 0 of a vector register after an instruction. -/
def laneAfter (i : Instr) (n : Nat) (s : List (Nat × Word)) (v : List (Nat × Lane)) : Option Lane :=
  (ran i (regs s v [])).map (fun g => g.getV n 0)

/-- R390: the manual's table of scalar results. -/
theorem test_scalar_results :
    scalarAfter (.sadd plain .i32 (.dir 1) (.dir 2) (.imm 1)) 1 [(2, 0x7FFFFFFF)] = some 0xFFFFFFFF80000000 ∧
    scalarAfter (.sadd plain .n32 (.dir 1) (.dir 2) (.imm 1)) 1 [(2, 0x7FFFFFFF)] = some 0x80000000 ∧
    scalarAfter (.ssar plain .i64 (.dir 1) (.dir 2) (.imm 63)) 1 [(2, -5)] = some (-1) ∧
    scalarAfter (.sshr plain .i32 (.dir 1) (.dir 2) (.imm 31)) 1 [(2, 0xFFFFFFFF80000000)] = some 1 ∧
    scalarAfter (.sshl plain .i64 (.dir 1) (.dir 2) (.imm (-1))) 1 [(2, 5)] = some 0 ∧
    scalarAfter (.smulh plain .i64 (.dir 1) (.dir 2) (.imm (-1))) 1 [(2, -1)] = some 0 ∧
    scalarAfter (.smulh plain .n64 (.dir 1) (.dir 2) (.imm (-1))) 1 [(2, -1)] = some 0xFFFFFFFFFFFFFFFE ∧
    scalarAfter (.smin plain .n32 (.dir 1) (.dir 2) (.imm 5)) 1 [(2, -1)] = some 5 := by decide

/-- R397: division. -/
theorem test_division :
    scalarAfter (.sdiv plain .i64 (.dir 1) (.dir 2) (.imm 2)) 1 [(2, -7)] = some (-3) ∧
    scalarAfter (.srem plain .i64 (.dir 1) (.dir 2) (.imm 2)) 1 [(2, -7)] = some (-1) ∧
    scalarAfter (.sdiv plain .n32 (.dir 1) (.dir 2) (.imm 0)) 1 [(2, 9)] = some 0xFFFFFFFF ∧
    scalarAfter (.srem plain .i32 (.dir 1) (.dir 2) (.imm (-1))) 1 [(2, 0xFFFFFFFF80000000)] = some 0 := by decide

/-- R392 and R404: bit fields and wide constants. -/
theorem test_fields_and_constants :
    scalarAfter (.sbfx plain .i64 (.dir 1) (.dir 2) (.imm 516)) 1 [(2, 0x0A50)] = some 0xFFFFFFFFFFFFFFA5 ∧
    scalarAfter (.sbfx plain .n64 (.dir 1) (.dir 2) (.imm 516)) 1 [(2, 0x0A50)] = some 0xA5 ∧
    scalarAfter (.smovi plain .n64 (.dir 3) 0x89ABCDEF) 3 [] = some 0x89ABCDEF ∧
    scalarAfter (.smovi plain .i64 (.dir 3) 0x89ABCDEF) 3 [] = some 0xFFFFFFFF89ABCDEF ∧
    scalarAfter (.smovh plain .i64 (.dir 3) 0x00123456) 3 [(3, 0xFFFFFFFF89ABCDEF)] = some 0x0012345689ABCDEF := by decide

/-- R392: SBFI. -/
theorem test_insert : scalarAfter (.sbfi plain .n64 (.dir 1) (.dir 3) (.imm 132)) 1 [(1, 0xFFFF), (3, 1)] = some 0xFFDF := by decide

/-- R420: bytes against the immediate 1, the magnitude, and VADD where D is also A. -/
theorem test_vector_bytes :
    laneAfter (.vadd plain .i8 (.dir 5) (.dir 4) (.imm 1)) 5 [] [(4, 0x7F8001FF)] = some 0x80810200 ∧
    laneAfter (.vsadd plain .i8 (.dir 5) (.dir 4) (.imm 1)) 5 [] [(4, 0x7F8001FF)] = some 0x7F810200 ∧
    laneAfter (.vabs plain .i8 (.dir 5) (.dir 4)) 5 [] [(4, 0x7F8001FF)] = some 0x7F800101 ∧
    laneAfter (.vadd plain .i64 (.dir 4) (.dir 4) (.imm 1)) 5 [] [(4, 0xFFFFFFFF), (5, 6)] = some 7 := by decide

/-- R343: 3.0 · 2.0 + 0.5, the factor 2.0 in the low word of a scalar. -/
theorem test_fused : laneAfter (.ffma plain .rtz (.dir 5) (.dir 6) (.sca (.dir 3))) 5 [(3, 0xFFFFFFFF40000000)]
    [(6, 0x40400000), (5, 0x3F000000)] = some 0x40D00000 := by decide

/-- R346: the worked example of HFMA. -/
theorem test_half_fused :
    [Rnd.rne, .rtz, .rdn, .rup].map (fun r => laneAfter (.hfma plain .bf16x2 r (.dir 6) (.dir 4) (.vec (.dir 5))) 6 []
      [(4, 0x40403F80), (5, 0x40403F80), (6, 0x3F003B80)]) =
    [some 0x41183F80, some 0x41183F80, some 0x41183F80, some 0x41183F81] := by decide

/-- The fields of a word guarded by p1. -/
def guarded : Ctl := { plain with gpred := 1 }

/-- The registers of the example of R379: lane 0 of v4 to v11, with lanes 0 to 3 under p1. -/
def example379 : List (Nat × Lane) := [(4, 0x3F000000), (5, 0x3F800000), (6, 0x3FC00000), (7, 0x40000000), (8, 0x40400000),
  (9, 0x40800000), (10, 0x40C00000), (11, 0x41400000), (12, 0x80), (13, 0x75432210)]

/-- R379: the scale, the quantised word and the way back. -/
theorem test_quantise :
    (ran (.qscl guarded .e2m1 .e8m0 .l32 (.dir 14) (.dir 4)) (regs [] example379 [(1, 15)])).map (fun g => g.getV 14 0) = some 0x80 ∧
    (ran (.qcvt guarded .e2m1 .e8m0 .l32 .rne (.dir 20) (.dir 4)) (regs [] example379 [(1, 15)])).map (fun g => g.getV 20 0) =
      some 0x75432210 := by decide

theorem test_dequantise :
    (ran (.dqcvt guarded .f32 .e2m1 0 .l32 false .rne (.dir 16) (.dir 13)) (regs [] (example379 ++ [(14, 0x80)]) [(1, 15)])).map
      (fun g => [g.getV 16 0, g.getV 17 0, g.getV 18 0, g.getV 23 0, g.getV 23 4]) =
    some [0, 0x3F800000, 0x40000000, 0x41400000, 0] := by decide

/-- R320: the worked example of a call, with 64 vector and 16 scalar registers. -/
theorem test_call :
    (ran (.call ender 2 2 10) { placedGroup with va := 64, sa := 16 }).map
      (fun g => (g.r.wbv, g.r.wbs, g.r.spill, g.r.pc, g.r.head)) = some (16, 8, 4096 + 2128, 0x100000 + 120, true) := by decide

/-- R320: its record, and the trap with an allowance of 2,048 bytes. -/
theorem test_call_record :
    (match exec (.call ender 2 2 10) (with_ { placedGroup with va := 64, sa := 16 }) with
      | .next t => (t.block? 1000).map (fun b => (rd64 b.mem (4096 + 2112), (List.range 4).map (fun k => rd8 b.mem (4096 + 2120 + k))))
      | _ => none) = some (0x10000C, [2, 2, 2, 1]) ∧
    (ran (.call ender 2 2 10) { placedGroup with va := 64, sa := 16, spillEnd := 4096 + 2048 }).map (fun g => g.r.xcause) =
      some 0x40 := by decide

/-- R413: the three commits of the example. -/
theorem test_accumulate :
    let w (r : WRule) (n wid : Nat) : Write := ⟨0, 0, false, 15, BitVec.ofNat 64 n, r, BitVec.ofNat 64 wid, 0, 0, false, 0⟩
    (resolve 5 [w (.acc .n32) 3 0, w (.acc .n32) 4 32] 0 0).val = 12 ∧
    (resolve 12 [w .lo 1 0, w (.acc .n32) 1 32] 0 0) = ⟨12, true, true⟩ ∧
    (resolve 12 [w (.acc .n32) 1 0, w (.acc .n32) 1 32] 0 0).val = 14 := by decide

/-- R417: TRAP raises 0x53 past itself, and R302: BRZ. -/
theorem test_trap_and_branch :
    (ran (.trap plain (-3)) placedGroup).map (fun g => (g.r.xcause, g.r.xpc, g.r.xinfo, g.r.pc, g.r.sys)) =
      some (0x53, 0x10000C, -3, 0x108000, true) ∧
    (ran (.brz ender (.dir 2) (-4)) (regs [] [] [])).map (fun g => (g.r.pc, g.r.head)) = some (0x100000 - 48, true) ∧
    (ran (.brz ender (.dir 2) (-4)) (regs [(2, 1)] [] [])).map (fun g => g.r.pc) = some 0x10000C := by decide


/-! ## Witnesses: each statement's hypotheses hold of a state, a group and operands -/

def readyB (g : Group) (c : Ctl) (i : Instr) : Bool :=
  i.illFormed.isNone && !g.retired && (checkIssue g g.runNow c i).isNone && !mustWait g g.runNow i c

theorem with_group (g : Group) : (with_ g).group? 1001 = some g := by simp [with_]

theorem ready_of {g : Group} {c : Ctl} {i : Instr} (h : readyB g c i = true) : Ready (with_ g) 1001 g c i := by
  simp only [readyB, Bool.and_eq_true, Bool.not_eq_true', Option.isNone_iff_eq_none] at h
  obtain ⟨⟨⟨h1, h2⟩, h3⟩, h4⟩ := h
  exact ⟨h1, rfl, with_group g, h2, h3, h4⟩

theorem active_of {g : Group} {c : Ctl} {i : Instr} (h : (readyB g c i && g.active c != 0) = true) :
    Active (with_ g) 1001 g c i := by
  simp only [Bool.and_eq_true, bne_iff_ne] at h
  exact ⟨ready_of h.1, h.2⟩

theorem all_active {g : Group} {c : Ctl} {l : List Instr} (h : l.all (fun i => readyB g c i && g.active c != 0) = true) :
    ∀ i ∈ l, Active (with_ g) 1001 g c i := fun i hi => active_of (List.all_eq_true.mp h i hi)

/-- The placed group at system level, as after a trap. -/
def sysGroup : Group := { placedGroup with r := { placedGroup.r with
  sys := true, xpc := 0x100000, frame := some ⟨0, 0, 4096, [], 0, 0, none, none⟩ } }

/-- The fields that make every lane inactive (R277). -/
def nobody : Ctl := { plain with ginv := true }

/-- ScalarResults: each instruction under a type of its own, and SLEA with both kinds of sum. -/
theorem witness_scalar : ∀ i ∈ ([
    .sadd plain .i32 (.dir 1) (.dir 2) (.imm 3), .ssub plain .n32 (.dir 1) (.dir 2) (.reg (.dir 3)),
    .smul plain .i64 (.dir 1) (.dir 2) (.imm 3), .smulh plain .n64 (.dir 1) (.dir 2) (.imm 3),
    .sdiv plain .i64 (.dir 1) (.dir 2) (.imm 0), .srem plain .i32 (.dir 1) (.dir 2) (.imm (-1)),
    .sand plain .b32 (.dir 1) (.dir 2) (.imm 3), .sor plain .b64 (.dir 1) (.dir 2) (.imm 3),
    .sxor plain .n64 (.dir 1) (.dir 2) (.imm 3), .sshl plain .i64 (.dir 1) (.dir 2) (.imm 64),
    .sshr plain .n32 (.dir 1) (.dir 2) (.imm 32), .ssar plain .i32 (.dir 1) (.dir 2) (.imm 31),
    .smin plain .n32 (.dir 1) (.dir 2) (.imm 3), .smax plain .i64 (.dir 1) (.dir 2) (.imm 3),
    .scmp plain .n32 .ge (.dir 1) (.dir 2) (.imm 3), .ssel plain .b64 0 (.dir 1) (.dir 2) (.imm 3),
    .spopc plain .b32 (.dir 1) (.dir 2), .sclz plain .i64 (.dir 1) (.dir 2), .sffs plain .n64 (.dir 1) (.dir 2),
    .sbfx plain .i32 (.dir 1) (.dir 2) (.imm 516), .sbfi plain .n64 (.dir 1) (.dir 2) (.imm 132),
    .slea plain .n32 (.dir 1) (.dir 2) (.imm 3)] : List Instr), Active (with_ placedGroup) 1001 placedGroup plain i :=
  all_active (by decide)

theorem witness_slea :
    (canonical (placedGroup.sval (.dir 2) + 3) = true) ∧
    (let g := regs [(2, 0x0FFFFFFFFFFFFFFF)] [] []
     Active (with_ g) 1001 g plain (.slea plain .i64 (.dir 1) (.dir 2) (.imm 3)) ∧ canonical (g.sval (.dir 2) + 3) = false) :=
  ⟨by decide, active_of (by decide), by decide⟩

/-- ScalarMovesAndSpecials: every form of a move, and every special register that RDSR reads. -/
theorem witness_moves : ∀ i ∈ ([
    .smov plain .i64 (.sca (.dir 1)) (.sca (.dir 2)), .smov plain .i64 (.sca (.dir 1)) (.idx 7), .smov plain .n32 (.sca (.dir 1)) (.spr .live),
    .smov plain .i32 (.idx 0) (.sca (.dir 2)), .smov plain .i64 (.idx 0) (.idx 7), .smov plain .i64 (.idx 0) (.spr .gcmt),
    .smovi plain .n64 (.dir 3) 0x89ABCDEF, .smovh plain .i64 (.dir 3) 1, .wrsr plain .lag (.imm 3)] : List Instr),
    Active (with_ placedGroup) 1001 placedGroup plain i := all_active (by decide)

theorem witness_rdsr : ∀ i ∈ ([.gwid, .fw, .lhdr, .live, .gstep, .lstep, .gcmt, .lag, .die, .core, .grp, .time, .toff, .lfm, .nrs,
    .xcause, .xpc, .xaddr, .xlanes, .xstep, .xprog, .xinfo, .xvec, .wbv, .wbs, .spill, .ovf, .accst, .wsref, .part, .ctx] : List Special).map
      (fun r => .rdsr plain (.dir 1) r),
    Active (with_ placedGroup) 1001 placedGroup plain i := all_active (by decide)

theorem witness_wrsr :
    (∀ i ∈ ([.lag, .lfm, .nrs, .xcause, .xpc, .xaddr, .xlanes, .xstep, .xprog, .xinfo, .xvec, .spill, .accst] : List Special).map
      (fun r => .wrsr plain r (.imm 8)), Active (with_ sysGroup) 1001 sysGroup plain i) ∧
    (∀ i ∈ ([.wbv, .wbs] : List Special).map (fun r => .wrsr ender r (.imm 8)), Active (with_ sysGroup) 1001 sysGroup ender i) :=
  ⟨all_active (by decide), all_active (by decide)⟩

/-- PredicateOperations: with an active lane, and without one. -/
theorem witness_predicates :
    (∀ i ∈ ([.pand plain 1 2 15, .por plain 0 2 3, .pxor plain 1 2 0, .pandn plain 15 2 3, .pmov plain 1 (.pred 2),
      .pmov plain 1 (.sca (.dir 2))] : List Instr), Active (with_ placedGroup) 1001 placedGroup plain i) ∧
    Ready (with_ placedGroup) 1001 placedGroup nobody (.pxor nobody 1 2 0) ∧ placedGroup.active nobody = 0 :=
  ⟨all_active (by decide), ready_of (by decide), by decide⟩

/-- VectorArithmetic, VectorSelectMoveExchange and VectorCompares. -/
theorem witness_vector : ∀ i ∈ ([
    .vadd plain .i64 (.dir 2) (.dir 4) (.vec (.dir 6)), .vsub plain .i8 (.dir 2) (.dir 4) (.imm (-1)),
    .vmul plain .n16 (.dir 2) (.dir 4) (.sca (.dir 1)), .vmulh plain .n64 (.dir 126) (.dir 4) (.imm 1),
    .vmad plain .i16x2 (.dir 2) (.dir 4) (.imm 1), .vmin plain .n8 (.dir 2) (.dir 4) (.imm 1), .vmax plain .i16 (.dir 2) (.dir 4) (.imm 1),
    .vand plain .b64 (.dir 2) (.dir 4) (.imm 1), .vor plain .b32 (.dir 2) (.dir 4) (.imm 1), .vxor plain .n32 (.dir 2) (.dir 4) (.imm 1),
    .vshl plain .i32 (.dir 2) (.dir 4) (.imm 32), .vshr plain .n8 (.dir 2) (.dir 4) (.imm 8), .vsar plain .i16 (.dir 2) (.dir 4) (.imm 16),
    .vsadd plain .i8 (.dir 2) (.dir 4) (.imm 127), .vabs plain .i64 (.dir 2) (.dir 4), .vpopc plain .n16 (.dir 2) (.dir 4),
    .vclz plain .b64 (.dir 2) (.dir 4), .vbfx plain .i64 (.dir 2) (.dir 4) (.imm 132), .vbfi plain .b32 (.dir 2) (.dir 4) (.imm 132),
    .vsel plain .b32 15 (.dir 2) (.dir 4) (.imm 1), .vmov plain .i64 (.dir 2) (.vec (.dir 4)), .vmov plain .n32 (.dir 2) (.sca (.dir 4)),
    .vmov plain .i32 (.dir 2) (.spr .arg), .vmov plain .i8 (.dir 2) (.imm 1), .vmovi plain .i64 (.dir 2) (-1),
    .vperm plain .b64 (.dir 2) (.dir 4) (.vec (.dir 7)), .vbcast plain .i32 (.dir 3) (.dir 4) (.imm 31),
    .vcmp plain .i64 .ge 1 (.dir 2) (.imm 0)] : List Instr), Active (with_ placedGroup) 1001 placedGroup plain i := all_active (by decide)

/-- FloatArithmetic, HalfArithmetic, Approximations, VectorCompares, and the conversions and reductions. -/
theorem witness_float : ∀ i ∈ ([
    .fadd plain .rne (.dir 2) (.dir 4) (.vec (.dir 6)), .fsub plain .rtz (.dir 2) (.dir 4) (.sca (.dir 6)), .fmul plain .rdn (.dir 2) (.dir 4) (.vec (.dir 6)),
    .ffma plain .rup (.dir 2) (.dir 4) (.vec (.dir 6)), .fmin plain .rne (.dir 2) (.dir 4) (.vec (.dir 6)), .fmax plain .rne (.dir 2) (.dir 4) (.vec (.dir 6)),
    .fdiv plain .rne (.dir 2) (.dir 4) (.vec (.dir 6)), .fsqrt plain .rne (.dir 2) (.dir 4), .frnd plain .rup (.dir 2) (.dir 4),
    .frcp plain .rne (.dir 2) (.dir 4), .frsq plain .rne (.dir 2) (.dir 4), .fex2 plain .rne (.dir 2) (.dir 4), .flg2 plain .rne (.dir 2) (.dir 4),
    .fsin plain .rne (.dir 2) (.dir 4), .fcos plain .rne (.dir 2) (.dir 4), .fcmp plain .uge 1 (.dir 2) (.sca (.dir 4)),
    .hadd plain .f16x2 .rne (.dir 2) (.dir 4) (.vec (.dir 6)), .hmul plain .bf16x2 .rtz (.dir 2) (.dir 4) (.vec (.dir 6)),
    .hfma plain .bf16x2 .rup (.dir 2) (.dir 4) (.sca (.dir 6)),
    .cvt plain .i64 .f32 true .rtz (.dir 2) (.dir 4), .cvtp plain .int4 .i32 false .rne (.dir 2) (.dir 120), .qcvt plain .e2m1 .ue4m3 .l16 .rne (.dir 2) (.dir 4),
    .qcmp plain 3 (.dir 2) (.dir 124), .dqcvt plain .i32 .c8 3 .none false .rne (.dir 4) (.dir 2), .dqcvt plain .f32 .e4m3 1 .l32 true .rne (.dir 4) (.dir 2),
    .qscl plain .e5m2 .e8m0 .l64 (.dir 2) (.dir 4), .vred plain .n16 .max (.dir 2) (.dir 4), .vscan plain .i64 .add (.dir 2) (.dir 4),
    .vred plain .f32 .add (.dir 2) (.dir 4), .vscan plain .bf16x2 .min (.dir 2) (.dir 4)] : List Instr),
    Active (with_ placedGroup) 1001 placedGroup plain i := all_active (by decide)

theorem witness_no_table_ahead : ctldAhead (with_ placedGroup) ((with_ placedGroup).blockOf placedGroup).core = false := by decide

/-- Approximations: operands of each clause of the column of specials. -/
theorem witness_specials : Dy.le ⟨128, 0⟩ (FVal.dy (.fin false 128 0)) = true ∧ (FVal.dy (.fin true 151 0)).cmp ⟨-150, 0⟩ = .lt := by decide


/-! ### Numbers -/

/-- FloatArithmetic, Approximations and Conversions: codes of each kind of value, and the numbers of the finite ones. -/
theorem witness_codes :
    fp32.val 0x7FC00000 = .nan ∧ fp32.val 0x7F800000 = .inf false ∧ fp32.val 0xFF800000 = .inf true ∧ fp32.val 0x80000000 = .fin true 0 (-149) ∧
    fp32.val 0x3F800000 = .fin false 8388608 (-23) ∧ fp32.val 0x40000000 = .fin false 8388608 (-22) ∧ fp32.val 0x4A800000 = .fin false 8388608 (-1) ∧
    fp16.val 0x7E00 = .nan ∧ bf16.val 0x7FC0 = .nan ∧ fp16.val 0x3C00 = .fin false 1024 (-10) := by decide

theorem witness_numbers :
    (FVal.fin false 8388608 (-23)).real = 1 ∧ (FVal.fin false 8388608 (-22)).real = 2 ∧ (FVal.fin true 0 (-149)).real = 0 ∧
    (2 : ℝ) ^ 20 < |(FVal.fin false 8388608 (-1)).real| ∧ |(FVal.fin false 8388608 (-22)).real| ≤ 2 ^ 20 ∧
    -150 ≤ (FVal.fin false 8388608 (-22)).real ∧ (FVal.fin false 8388608 (-22)).real < 128 ∧ (FVal.fin false 8388608 (-22)).real ≠ 1 := by
  simp only [FVal.real_fin]
  norm_num [abs_of_pos]

/-- Conversions and ConversionRuns: conversions of each kind, scales of each kind, and the tables of reset. -/
theorem witness_conversions :
    (∀ e ∈ [(Ty.f32, Ty.f32), (.bf16x2, .f16x2), (.f32, .i32), (.i32, .f32), (.i16, .n16), (.i16x2, .f16x2), (.i8, .n8), (.i32, .n32), (.i64, .i32)], cvtOk e.1 e.2 = true) ∧
    (∀ e ∈ [(Fmt.e4m3, Ty.f32), (.int8, .f32), (.int4, .i32), (.bf16, .f32)], cvtpOk e.1 e.2 = true) ∧
    (∀ f ∈ [Fmt.e4m3, .e5m2, .e3m2, .e2m3, .e2m1], f.narrowFloat = true) ∧ Fmt.int8.narrowFloat = false ∧ 0x7F < 2 ^ fmtBits .e4m3 ∧
    scaleVal .e8m0 0xFF = .nan ∧ scaleVal .e8m0 0x80 = .fin false 1 1 ∧ scaleVal .ue4m3 0 = .fin false 0 (-9) ∧
    largest [.nan, .inf true] = .nan ∧ largest [.fin true 3 0, .inf true] = .inf false ∧ largest [.fin true 5 0, .fin false 3 0] = .fin true 5 0 := by decide

theorem witness_tables_rise : ∀ i j, i < j → j < 128 → c8Mag [] 0 i < c8Mag [] 0 j := by
  have h : ∀ i < 127, c8Mag [] 0 i < c8Mag [] 0 (i + 1) := by decide +kernel
  intro i j hij hj
  induction j with
  | zero => omega
  | succ j ih =>
    rcases Nat.lt_or_ge i j with hi | hi
    · exact (ih hi (by omega)).trans (h j (by omega))
    · obtain rfl : i = j := by omega
      exact h i (by omega)

/-- LaneReductions: the lanes 1.0 and 2.0, whose partial sums are all FP32 numbers, in every evaluation (R422). -/
theorem test_sum_of_two (free : Nat) :
    ∃ neg m e, fp32.val (redElems .add .f32 free [0x3F800000, 0x40000000]) = .fin neg m e ∧
      (fp32.val (redElems .add .f32 free [0x3F800000, 0x40000000])).real = 3 := by
  have h1 : fp32.val 0x3F800000 = .fin false 8388608 (-23) := by decide
  have h2 : fp32.val 0x40000000 = .fin false 8388608 (-22) := by decide
  have r1 : (FVal.fin false 8388608 (-23)).real = 1 := witness_numbers.1
  have r2 : (FVal.fin false 8388608 (-22)).real = 2 := witness_numbers.2.1
  have hm : (3 : ℝ) ≤ fp32.magVal fp32.maxCode := by
    have : fp32.maxCode = 0x7F7FFFFF := rfl
    rw [this]; unfold FloatFmt.magVal; norm_num [fp32]
  obtain ⟨neg, m, e, h, hr⟩ := redElems_exact (ty := .f32) (f := fp32) rfl free [0x3F800000, 0x40000000] (by decide)
    (by intro v hv; simp only [List.map_cons, List.map_nil, h1, h2, List.mem_cons, List.not_mem_nil, or_false] at hv
        rcases hv with rfl | rfl <;> exact ⟨_, _, _, rfl⟩) 0 (by decide)
    (by intro v hv; simp only [List.map_cons, List.map_nil, h1, h2, List.mem_cons, List.not_mem_nil, or_false] at hv
        rcases hv with rfl | rfl
        · exact ⟨1, by rw [r1]; norm_num⟩
        · exact ⟨2, by rw [r2]; norm_num⟩)
    (by simp only [List.map_cons, List.map_nil, h1, h2, r1, r2]; norm_num [fp32])
    (by simp only [List.map_cons, List.map_nil, h1, h2, r1, r2]; norm_num; linarith)
  refine ⟨neg, m, e, h, ?_⟩
  rw [hr]; simp only [List.map_cons, List.map_nil, h1, h2, r1, r2]; norm_num

/-- LaneReductions: one lane larger; and lanes that are numbers, NaNs and infinities. -/
theorem witness_larger_lane :
    (fp32.val 0x3F800000).AtMost (fp32.val 0x40000000) ∧ ¬ (fp32.val 0x40000000).AtMost (fp32.val 0x3F800000) ∧
    (∀ i, fp32.val (redElems .add .f32 i ([0x3F800000] ++ 0x40000000 :: [])) ≠ .nan) ∧
    [0x7F800000, 0x3F800000].map fp32.val = [.inf false, .fin false 8388608 (-23)] := by
  have h1 : fp32.val 0x3F800000 = .fin false 8388608 (-23) := by decide
  have h2 : fp32.val 0x40000000 = .fin false 8388608 (-22) := by decide
  have r1 : (FVal.fin false 8388608 (-23)).real = 1 := witness_numbers.1
  have r2 : (FVal.fin false 8388608 (-22)).real = 2 := witness_numbers.2.1
  refine ⟨.inr (.inr ⟨_, _, _, _, _, _, h1, h2, by rw [h1, h2, r1, r2]; norm_num⟩), ?_, fun i h => ?_, by decide⟩
  · rintro (h | h | ⟨_, _, _, _, _, _, h, g, hle⟩)
    · rw [h2] at h; cases h
    · rw [h1] at h; cases h
    · rw [h1, h2, r1, r2] at hle; norm_num at hle
  · obtain ⟨neg, m, e, g, -⟩ := test_sum_of_two i
    have : fp32.val (redElems .add .f32 i [0x3F800000, 0x40000000]) = .nan := h
    rw [g] at this; cases this


/-- The placed group at a register name of an instruction's choice, with no live lane, with a PASS seen in its run. -/
def deadGroup : Group := { placedGroup with r := { placedGroup.r with live := 0 } }
def passGroup (q : PassInfo) (n : Word) : Group :=
  { (regs [(2, n)] [] []) with run := some { Run.fresh [] with pass := some q } }

/-- The fields of PASS. -/
def stepper : Ctl := { ender with l := true }

/-- InstructionEnds, RunBoundaries and GroupRetires. -/
theorem witness_ends : st.group? 1001 = some placedGroup ∧ plain.b = false ∧ ender.b = true ∧ placedGroup.r.live ≠ 0 ∧
    (with_ deadGroup).group? 1001 = some deadGroup ∧ deadGroup.r.live = 0 := by
  refine ⟨by decide, rfl, rfl, by decide, with_group _, rfl⟩

/-- ChecksAndLevels: no lane is active, for an instruction that then does nothing, for SPAWN and for PASS. -/
theorem witness_idle :
    Ready (with_ placedGroup) 1001 placedGroup nobody (.sadd nobody .i64 (.dir 1) (.dir 2) (.imm 3)) ∧
    ctlOf (.sadd nobody .i64 (.dir 1) (.dir 2) (.imm 3)) = some nobody ∧ actsIdle (.sadd nobody .i64 (.dir 1) (.dir 2) (.imm 3)) = false ∧
    Ready (with_ placedGroup) 1001 placedGroup nobody (.spawn nobody false 3 (.dir 2) (.dir 4)) ∧
    Ready (with_ placedGroup) 1001 placedGroup { stepper with ginv := true } (.pass { stepper with ginv := true } (.imm 1)) ∧
    (∀ q, placedGroup.runNow.pass = some q → q.active = false) ∧ placedGroup.active nobody = 0 :=
  ⟨ready_of (by decide), by decide, by decide, ready_of (by decide), ready_of (by decide), by decide, by decide⟩

/-- ChecksAndLevels: a check that fails, a privileged instruction at program level, and a register that is never written. -/
theorem witness_checks :
    (checkIssue placedGroup placedGroup.runNow plain (.sadd plain .i64 (.dir 32) (.dir 2) (.imm 3))).isSome = true ∧
    placedGroup.retired = false ∧ placedGroup.r.sys = false ∧ sysGroup.r.sys = true ∧
    (∀ i ∈ ([.rett ender, .cpyw plain true (.dir 1), .lnch plain (.dir 2), .mbxrd plain (.dir 8) (.imm 1), .tlbinv ender .all false 0 (.dir 1) (.imm 0),
        .ctxsv plain (.dir 1), .ctxld plain (.dir 1), .wrsr plain .xvec (.imm 1), .wrsr plain .live (.imm 0)] : List Instr),
      (usesOf placedGroup.runNow.xs i).all (fun u => !(u.even && (u.num.map (fun n => n % 2 == 1)).getD false)) = true) ∧
    Special.live ∉ [.lag, .lfm, .nrs, .xcause, .xpc, .xaddr, .xlanes, .xstep, .xprog, .xinfo, .xvec, .wbv, .wbs, .spill, .accst] := by
  decide

/-- Control: the branches, taken or not, with good and bad targets. -/
theorem witness_branches :
    (∀ i ∈ ([.bra ender (-4), .brz ender (.dir 2) 3, .brnz ender (.dir 2) 3, .brx ender (.dir 2), .exit ender, .detach ender] : List Instr),
      Active (with_ placedGroup) 1001 placedGroup ender i) ∧
    (∀ i ∈ ([.nop plain, .brk plain, .trap plain (-1)] : List Instr), Active (with_ placedGroup) 1001 placedGroup plain i) ∧
    canonical (placedGroup.r.pc + 12 * (3 : BitVec 32).signExtend 64) = true ∧ placedGroup.sval (.dir 2) = 0 ∧
    canonical (placedGroup.sval (.dir 2)) = true ∧ (placedGroup.sval (.dir 2)).toNat % 4 = 0 :=
  ⟨all_active (by decide), all_active (by decide), by decide, by decide, by decide, by decide⟩

theorem witness_bad_targets :
    (let g := { placedGroup with r := { placedGroup.r with pc := 0x003FFFFFFFFFFFF4, s := [(2, 1)] } }
     (∀ i ∈ ([.bra ender 1, .brnz ender (.dir 2) 1, .brz ender (.dir 3) 1] : List Instr), Active (with_ g) 1001 g ender i) ∧
     canonical (g.r.pc + 12 * (1 : BitVec 32).signExtend 64) = false ∧ g.sval (.dir 2) ≠ 0 ∧ g.sval (.dir 3) = 0) ∧
    (let g := regs [(2, 0x1002), (3, 0x0040000000000000)] [] []
     (∀ i ∈ ([.brx ender (.dir 2), .brx ender (.dir 3)] : List Instr), Active (with_ g) 1001 g ender i) ∧
     canonical (g.sval (.dir 2)) = true ∧ (g.sval (.dir 2)).toNat % 4 ≠ 0 ∧ canonical (g.sval (.dir 3)) = false) :=
  ⟨⟨all_active (by decide), by decide, by decide, by decide⟩, ⟨all_active (by decide), by decide, by decide, by decide⟩⟩

/-- Control: PASS with each kind of count, alone in its run and beside another one. -/
theorem witness_pass :
    (∀ n ∈ ([0, 1, 3, 4] : List Word), ∀ i ∈ ([.pass stepper (.reg (.dir 2))] : List Instr),
      Active (with_ (passGroup ⟨true, n⟩ n)) 1001 (passGroup ⟨true, n⟩ n) stepper i) ∧
    (let g := passGroup ⟨true, 1⟩ 2
     Active (with_ g) 1001 g stepper (.pass stepper (.reg (.dir 2))) ∧
     ¬ (∀ q, g.runNow.pass = some q → q.active = true ∧ q.count = g.ssval (.reg (.dir 2)))) :=
  ⟨fun n hn => by fin_cases hn <;> exact all_active (by decide), active_of (by decide), fun h => absurd (h _ rfl).2 (by decide)⟩

/-- Control: RETT with each kind of resume address. -/
theorem witness_rett :
    (Active (with_ sysGroup) 1001 sysGroup ender (.rett ender) ∧ canonical sysGroup.r.xpc = true) ∧
    (let g := { sysGroup with r := { sysGroup.r with xpc := 0x0040000000000000 } }
     Active (with_ g) 1001 g ender (.rett ender) ∧ canonical g.r.xpc = false) :=
  ⟨⟨active_of (by decide), by decide⟩, active_of (by decide), by decide⟩

/-- CallsAndReturns: calls with room and without, returns with a record and without. -/
theorem witness_calls :
    (let g := { placedGroup with va := 64, sa := 16 }
     (∀ i ∈ ([.call ender 2 2 10, .callx ender 2 2 (.dir 2)] : List Instr), Active (with_ g) 1001 g ender i) ∧
     badTarget false (g.r.pc + 12 * (10 : BitVec 32).signExtend 64) = none ∧ badTarget true (g.sval (.dir 2)) = none ∧
     g.r.spill.toNat + spillBytes (g.spillSets 16 8) + 16 ≤ g.spillEnd) ∧
    (let g := { placedGroup with va := 64, sa := 16, spillEnd := 6144 }
     Active (with_ g) 1001 g ender (.call ender 2 2 10) ∧ g.spillEnd < g.r.spill.toNat + spillBytes (g.spillSets 16 8) + 16) :=
  ⟨⟨all_active (by decide), by decide, by decide, by decide⟩, active_of (by decide), by decide⟩

theorem witness_returns :
    (Active (with_ placedGroup) 1001 placedGroup ender (.ret ender) ∧ placedGroup.r.spill = BitVec.ofNat 64 placedGroup.spillBase) ∧
    (let g := { placedGroup with r := { placedGroup.r with spill := 4112 } }
     Active (with_ g) 1001 g ender (.ret ender) ∧ g.r.spill ≠ BitVec.ofNat 64 g.spillBase) :=
  ⟨⟨active_of (by decide), by decide⟩, active_of (by decide), by decide⟩

/-- A group with 64 vector and 16 scalar registers in its seventh window and a deep stack below it. -/
def deepGroup : Group := { placedGroup with va := 64, sa := 16, r := { placedGroup.r with wbv := 48, wbs := 8, vDepth := 64, sDepth := 16 } }

/-- TrapEntries and TrapThenReturn: a trap that spills one vector and one scalar unit. -/
theorem witness_entries :
    deepGroup.r.sys = false ∧ (with_ deepGroup).hasHandler deepGroup = true ∧ spillBytes (deepGroup.spillSets 8 8) = 1024 + 64 ∧
    deepGroup.r.spill.toNat + spillBytes (deepGroup.spillSets 8 8) ≤ deepGroup.spillEnd ∧
    (with_ deepGroup).group? 1001 = some deepGroup ∧ ((with_ deepGroup).block? deepGroup.blk).isSome = true ∧
    deepGroup.r.ve = [] ∧ deepGroup.r.se = [] ∧ deepGroup.va % 8 = 0 ∧ deepGroup.sa % 8 = 0 ∧ deepGroup.r.wbv < deepGroup.va ∧
    deepGroup.r.wbs < deepGroup.sa ∧ deepGroup.spillEnd < 2 ^ 64 ∧
    ((with_ deepGroup).enterTrap 1001 deepGroup ⟨0x52, 0, 0, none, 0, 0, false, false, none⟩ 0x100000 false).group? 1001 ≠ none := by
  refine ⟨rfl, by decide, by decide, by decide, with_group _, by decide, rfl, rfl, rfl, rfl, by decide, by decide, by decide, by decide⟩

/-- TrapWithoutHandler: a double trap of a launch that runs. -/
theorem witness_double_trap :
    sysGroup.launch = some 1002 ∧ (with_ sysGroup).launch? 1002 = some placedLaunch ∧ placedLaunch.phase = .stepping ∧
    sysGroup.r.sys = true ∧ deepGroup.r.live ≠ 0 ∧ deadGroup.r.live = 0 := by decide

/-- TrapReturn. -/
theorem witness_trap_return : (with_ sysGroup).group? 1001 = some sysGroup ∧ sysGroup.r.frame.isSome = true := ⟨with_group _, rfl⟩

/-- RegisterWindows: a name just outside each window. -/
theorem witness_windows :
    let i : Instr := .sadd plain .i64 (.dir 32) (.dir 2) (.imm 3)
    let g : Group := { placedGroup with va := 16 }
    let j : Instr := .vadd plain .i32 (.dir 16) (.dir 2) (.imm 3)
    (∃ u ∈ usesOf placedGroup.runNow.xs i, u.vec = false ∧ u.num = some 32 ∧ (placedGroup.sa : Int) - 1 < 32) ∧
    (∃ u ∈ usesOf g.runNow.xs j, u.vec = true ∧ u.num = some 16 ∧ (min g.va 128 : Int) - 1 < 16) ∧
    forbidden false i = false ∧ forbidden false j = false ∧ runOut i (usesOf placedGroup.runNow.xs i) = false ∧ runOut j (usesOf g.runNow.xs j) = false ∧
    (∀ v ∈ usesOf g.runNow.xs j, v.even = true → ∀ m, v.num = some m → m % 2 = 0) := by
  refine ⟨by decide, by decide, rfl, rfl, rfl, rfl, by decide⟩

/-- RunLength. -/
theorem witness_length :
    let g : Group := { placedGroup with run := some { Run.fresh [] with count := 24 } }
    let s : State := { with_ g with agenda := [.issue 1001] }
    s.group? 1001 = some g ∧ g.retired = false ∧ g.tlbi = none ∧ State.takeable g = [] ∧ slotFree s g 0 = true := by
  refine ⟨with_group _, rfl, rfl, by decide, by decide⟩

/-- FreshMachine. -/
theorem witness_grade : gradeOk [] = true ∧ gradeOk (List.range 50) = true := by decide


/-- The machine with a page at 0x300000 that is not resident, after its group `g`. -/
def pages (g : Group) : State :=
  let s := with_ g
  { s with mem := wr64 s.mem (keyInter 0 29 (0x30000 + 8 * 48)) (0x300085#64) }

theorem pages_active {g : Group} {c : Ctl} {l : List Instr} (h : l.all (fun i => readyB g c i && g.active c != 0) = true) :
    ∀ i ∈ l, Active (pages g) 1001 g c i := fun i hi => by
  have e := all_active h i hi
  exact ⟨⟨e.wf, rfl, by have := with_group g; simpa [pages, State.group?] using this, e.alive, e.checked, e.full⟩, e.lane⟩

/-- s1 holds a local address, s2 a resident page and s3 one that is not. -/
def memGroup : Group := regs [(1, 64), (2, 0x200000), (3, 0x300000)] [] [(1, 3)]

/-- LocalLoads and LocalStores: good lanes, and lanes beyond the local limit. -/
theorem witness_local :
    (∀ i ∈ ([.ldl plain .s32 (.dir 4) ⟨some (.dir 1), .imm 0⟩, .ldl plain .s64 (.dir 4) ⟨some (.dir 2), .imm 8⟩,
        .sldl plain .s64 (.dir 4) ⟨some (.dir 1), .imm 8⟩, .ldw plain .s16 (.dir 4) ⟨none, .imm 2⟩,
        .stl plain .s32 .sum .f32 (.dir 4) ⟨some (.dir 1), .imm 0⟩, .stla plain .s64 .i64 (.dir 4) ⟨some (.dir 1), .imm 8⟩,
        .sstl plain .s8 .any .n32 (.dir 4) ⟨some (.dir 1), .imm 3⟩] : List Instr), Active (with_ memGroup) 1001 memGroup plain i) ∧
    (∀ l ∈ lanesOf (memGroup.active plain), (memGroup.vaddr false ⟨some (.dir 1), .imm 0⟩ l).toNat % 4 = 0 ∧
      (memGroup.vaddr false ⟨some (.dir 2), .imm 8⟩ l).toNat % 8 = 0) ∧
    (memGroup.saddr ⟨some (.dir 1), .imm 8⟩).toNat % 8 = 0 ∧ (memGroup.saddr ⟨some (.dir 1), .imm 8⟩).toNat + 8 ≤ placedBlock.bytes ∧
    ((with_ memGroup).blockOf memGroup).poison = [] ∧ ((with_ memGroup).blockOf memGroup).bytes = 4096 ∧
    (∀ l ∈ lanesOf (memGroup.active plain), (memGroup.vaddr false ⟨none, .imm 2⟩ l).toNat % 2 = 0 ∧
      (memGroup.vaddr false ⟨none, .imm 2⟩ l).toNat + 2 ≤ 2 ^ 29 ∧
      (with_ memGroup).poisoned (keyWeight 0 (memGroup.vaddr false ⟨none, .imm 2⟩ l).toNat) 2 = false) := by
  refine ⟨all_active (by decide), by decide, by decide, by decide, by decide, by decide, by decide⟩

/-- GlobalLoads and GlobalStores: lanes that are resident and lanes that are not. -/
theorem witness_global :
    (∀ i ∈ ([.ldg guarded .s32 .now 5 (.dir 4) ⟨some (.dir 2), .imm 0⟩, .sldg guarded .s64 .lag 0 (.dir 4) ⟨some (.dir 3), .imm 0⟩,
        .stg guarded .s32 .lo .n32 (.dir 4) ⟨some (.dir 2), .imm 0⟩, .stga guarded .s32 .n32 (.dir 4) ⟨some (.dir 3), .imm 0⟩,
        .sstg guarded .s16 .flt .n32 (.dir 4) ⟨some (.dir 2), .imm 2⟩] : List Instr), Active (pages memGroup) 1001 memGroup guarded i) ∧
    (∀ r ∈ ([.dir 2, .dir 3] : List SReg), ∀ w ∈ [false, true],
      (∀ l ∈ lanesOf (memGroup.active guarded), (memGroup.vaddr true ⟨some r, .imm 0⟩ l).toNat % 4 = 0) ∧
      ((ctxOf (pages memGroup) 1001 memGroup guarded).checkLanes (memGroup.vaddr true ⟨some r, .imm 0⟩) 4 w false).bad = []) :=
  ⟨pages_active (by decide), by decide⟩

theorem witness_global_scalar :
    let s := pages memGroup
    let check (a : Word) (w : Bool) := s.tickSeq.check (s.blockOf memGroup).core (s.tickSeq.tagOf memGroup) a
      ((ctxOf s 1001 memGroup plain).want 8 w false)
    (∀ w ∈ [false, true], (match check 0x200000 w with | (.good key _, t) => !t.poisoned key 8 | _ => false) = true) ∧
    (∀ w ∈ [false, true], (match check 0x300000 w with | (.missing _, _) => true | _ => false) = true) := by decide

/-- AccessesInFlight, StoredBytes and MisalignedLanes. -/
theorem witness_accesses :
    memGroup.launch = some 1002 ∧ (with_ memGroup).launch? 1002 = some placedLaunch ∧
    (12 % 4 = 0 ∧ (storeOf st 1001 .lo 0).rule.unit64 = false ∧ (WRule.sum .i64).unit64 = true) ∧
    (∀ i ∈ ([.ldl plain .s32 (.dir 4) ⟨some (.dir 1), .imm 2⟩, .ldg plain .s64 .stb 5 (.dir 4) ⟨some (.dir 2), .imm 2⟩,
        .stla plain .s32 .n32 (.dir 4) ⟨some (.dir 1), .imm 2⟩, .stg plain .s32 .flt .n32 (.dir 4) ⟨some (.dir 2), .imm 2⟩] : List Instr),
      Active (with_ memGroup) 1001 memGroup plain i) ∧
    (∃ l ∈ lanesOf (memGroup.active plain), (memGroup.vaddr false ⟨some (.dir 1), .imm 2⟩ l).toNat % 4 ≠ 0) :=
  ⟨by decide, by decide, by decide, all_active (by decide), by decide⟩

/-- Prefetches: before DETACH and after it. -/
theorem witness_prefetches :
    let g := { memGroup with r := { memGroup.r with detached := true } }
    (∀ i ∈ ([.pfg plain ⟨some (.dir 2), .imm 0⟩, .pgreq plain ⟨some (.dir 3), .imm 0⟩] : List Instr),
      Active (with_ memGroup) 1001 memGroup plain i ∧ Active (with_ g) 1001 g plain i) ∧
    memGroup.r.detached = false ∧ g.r.detached = true ∧
    (∀ l ∈ lanesOf (memGroup.active plain), canonical (memGroup.vaddr true ⟨some (.dir 3), .imm 0⟩ l) = true) :=
  ⟨fun i hi => ⟨all_active (by decide) i hi, all_active (by decide) i hi⟩, by decide, by decide, by decide⟩

/-- GlobalLoads and GlobalStores: pages that are all resident and pages that are not, with a TLB that holds them and one that does not. -/
theorem witness_walks :
    let s := pages memGroup
    let x := ctxOf s 1001 memGroup guarded
    let good (r : SReg) := (x.checkLanes (memGroup.vaddr true ⟨some r, .imm 0⟩) 4 false false).good
    let t := (x.checkLanes (memGroup.vaddr true ⟨some (.dir 2), .imm 0⟩) 4 false false).s
    let held (u : State) := ((u.core (coreKey 0 1)).tlb ++ (u.die 0).tlb).any (fun e => e.tag == u.tagOf memGroup && e.page == pageOf 0x200000)
    (good (.dir 2)).isEmpty = false ∧ (good (.dir 3)).isEmpty = true ∧ held s = false ∧ held t = true ∧ canonical 0x200000 = true := by decide

/-- Prefetches: one lane at a resident page, at one that is not, and at one without an entry. -/
theorem witness_one_lane :
    let g := regs [(1, 0x700000), (2, 0x200000), (3, 0x300000), (4, 0x0040000000000000)] [] [(1, 1)]
    let s := pages g
    let x := ctxOf s 1001 g guarded
    let look (r : SReg) : Nat := match s.check (coreKey 0 1) (s.tagOf g) (x.vaddr true ⟨some r, .imm 0⟩ 0) (x.want 1 false false) with
      | (.good _ _, _) => 0
      | (.missing _, _) => 1
      | (.bad _ _, _) => 2
    let walks (r : SReg) : Nat × Bool := match s.translate (coreKey 0 1) (s.tagOf g) (pageOf (x.vaddr true ⟨some r, .imm 0⟩ 0)) with
      | (.ok t, u) => (if t.res then 0 else 1, (u.launch? 1002).isSome)
      | (.error f, u) => (if f.v0 then 2 else 3, (u.launch? 1002).isSome)
    lanesOf x.act = [0] ∧ look (.dir 2) = 0 ∧ look (.dir 3) = 1 ∧ look (.dir 1) = 2 ∧ walks (.dir 2) = (0, true) ∧ walks (.dir 3) = (1, true) ∧
    walks (.dir 1) = (2, true) ∧ g.launch = some 1002 ∧
    canonical (x.vaddr true ⟨some (.dir 4), .imm 0⟩ 0) = false := by decide

/-- Prefetches: a line that comes, one that leaves, and one that a load reads, early and late. -/
theorem witness_lines :
    let P : Part := { (st.part? 0).getD (Part.fresh 0 29 0 0 0) with guests := [(0, ⟨0, 0, 1, true⟩)] }
    let y (due : Nat) : LlcLine := ⟨5, 0, some (coreKey 0 1), due⟩
    wayOfKey (64 * 5) = some 0 ∧ llcLimit P 0 ≠ 0 ∧ tget [] st.llc 0 = [] ∧ (y 0).due ≤ st.tick ∧ ¬ ((y 1).due ≤ st.tick) ∧
    (∀ z ∈ [y 0], z.line = 5 → z = y 0) ∧ (y 0).pfg = some (coreKey 0 1) := by decide


/-- A ready instruction stays ready in every state that holds its group. -/
theorem moved {g : Group} {c : Ctl} {i : Instr} {s : State} (hc : s.cur = some 1001) (hg : s.group? 1001 = some g)
    (h : (readyB g c i && g.active c != 0) = true) : Active s 1001 g c i :=
  ⟨⟨(active_of h).wf, hc, hg, (active_of h).alive, (active_of h).checked, (active_of h).full⟩, (active_of h).lane⟩

/-- The machine with bytes in the block's local store. -/
def holding (g : Group) (at_ : Nat) (bs : List Byte) : State := (with_ g).modBlock 1000 (fun b => { b with mem := wrL b.mem at_ bs })

theorem holding_active {g : Group} {c : Ctl} {i : Instr} (a : Nat) (bs : List Byte) (h : (readyB g c i && g.active c != 0) = true) :
    Active (holding g a bs) 1001 g c i := moved rfl (by simp [holding, with_group]) h

/-- EnginesStart: the clauses of one instruction on a parameter block at 64, on the same one misaligned, and on one of zeros. -/
def startsB (g : Group) (i : Instr) (pb : List Byte) (align n : Nat) (check : State → Group → List Byte → Option TrapInfo) : Bool :=
  let s := holding g 64 pb
  let b := s.blockOf g
  readyB g plain i && g.active plain != 0 && decide (64 % align = 0 ∧ 64 + n ≤ b.bytes ∧ 68 % align ≠ 0) &&
    (writesOver b (some (64, 64 + n))).isEmpty && !b.poisoned 64 n && rdL b.mem 64 n == pb &&
    (check s.tickSeq g pb).isNone && (check s.tickSeq g (List.replicate n 0xFF)).isSome

def copyBlock (src dst : Nat) : List Byte := leBytes 8 src ++ leBytes 8 dst ++ leBytes 4 4 ++ leBytes 2 2 ++ [0, 0] ++ leBytes 4 4 ++ leBytes 4 4

theorem witness_engines :
    startsB memGroup (.cpy plain .g2l .lo .now (.dir 1)) (copyBlock 0x200000 2048) 32 32 (fun s g => copyCheck s g .g2l) = true ∧
    startsB memGroup (.cpy plain .l2g .sum .now (.dir 1)) (copyBlock 2048 0x200000) 32 32 (fun s g => copyCheck s g .l2g) = true ∧
    startsB memGroup (.cpym plain .l2l .lo .now (.dir 1)) (copyBlock 1024 2048 ++ [1, 0, 2, 0] ++ List.replicate 20 0xFF) 8 56
      (fun s g => multiCheck s g .l2l) = true ∧
    startsB memGroup (.gth plain .l .lo .now (.dir 1)) (copyBlock 1024 2048) 32 32 (fun s g => gatherCheck s g false) = true ∧
    startsB memGroup (.sct plain .g .flt (.dir 1)) (copyBlock 0x200000 2048) 32 32 (fun s g => gatherCheck s g true) = true ∧
    startsB memGroup (.btst plain .lo (.dir 1)) (leBytes 8 0x200000 ++ leBytes 4 1024 ++ leBytes 4 4 ++ leBytes 4 0 ++ leBytes 4 2 ++
      leBytes 4 4 ++ leBytes 4 0) 32 32 btstCheck = true ∧
    startsB memGroup (.btdem plain (.dir 1)) (leBytes 8 0x200000 ++ leBytes 8 0x200040 ++ leBytes 16 0) 32 32 (fun _ g => moveCheck g) = true ∧
    startsB memGroup (.btpro plain (.dir 1)) (leBytes 8 0x200000 ++ leBytes 8 0x200040 ++ leBytes 16 0) 32 32 (fun _ g => moveCheck g) = true := by
  decide

/-- EnginesStart: poison in the block, and an operation that still writes it. -/
theorem witness_late_blocks :
    let b := (holding memGroup 64 (copyBlock 1024 2048)).blockOf memGroup
    let bad : Block := { b with poison := [64] }
    let later : Block := { b with entries := [⟨7, 1, 1001, [], some (64, 96), 0, none⟩] }
    64 % 32 = 0 ∧ 64 + 32 ≤ b.bytes ∧ writesOver bad (some (64, 96)) = [] ∧ bad.poisoned 64 32 = true ∧ writesOver later (some (64, 96)) ≠ [] := by decide

/-- EnginesStart: CPYW beside a launch that steps, and without one. -/
theorem witness_weights :
    let g := { sysGroup with r := { sysGroup.r with s := [(1, 64)] } }
    let s := holding g 64 (copyBlock 1024 0)
    let t : State := { s with launches := [] }
    Active s 1001 g plain (.cpyw plain false (.dir 1)) ∧ Active t 1001 g plain (.cpyw plain false (.dir 1)) ∧
    ((s.partOfDie (coreDie (s.blockOf g).core)).map (launchRuns s)).getD false = true ∧
    ((t.partOfDie (coreDie (t.blockOf g).core)).map (launchRuns t)).getD false = false ∧
    weightCheck t.tickSeq g false (copyBlock 1024 0) = none :=
  ⟨holding_active 64 (copyBlock 1024 0) (by decide), moved rfl (by decide) (by decide),
    by decide, by decide, by decide⟩

/-- OperationsInFlight and Landing: a window that may open, one that may not, and one whose arrival already waits. -/
theorem witness_landing :
    (∀ i ∈ ([.land plain (.imm 7) (.reg (.dir 1)) (.imm 64), .land plain (.imm 8) (.reg (.dir 1)) (.imm 64)] : List Instr),
      Active (with_ memGroup) 1001 memGroup plain i) ∧
    (let b := (with_ memGroup).blockOf memGroup
     b.bytes = 4096 ∧ windowOpen (with_ memGroup) b.core 7 = false ∧ ((with_ memGroup).core b.core).landing = [] ∧
     (with_ memGroup).block? memGroup.blk = some placedBlock) ∧
    (let q : Arrival := ⟨7, .lo, 4, 1, 4, 0, 0, [1, 2, 3, 4], 1002, 1001, 0, false⟩
     let s := (with_ memGroup).modCore (coreKey 0 1) (fun k => { k with landing := [q] })
     (s.core (s.blockOf memGroup).core).landing.find? (fun q => q.win == 7) = some q ∧
       Active s 1001 memGroup plain (.land plain (.imm 7) (.reg (.dir 1)) (.imm 64))) :=
  ⟨all_active (by decide), by decide, by decide, moved rfl (by simp [with_group]) (by decide)⟩

/-- MatrixMultiplies: INT8 tiles with K = 32 in local store, the format block at 256. -/
def tileGroup : Group :=
  let g := regs [(4, 512), (5, 1536), (6, 256), (8, 256), (9, 32)] [] []
  (List.range 4).foldl (fun (g : Group) q => (g.setV 4 (8 * q) 512).setV 6 (8 * q) 1536) g

theorem witness_tiles :
    (∀ i ∈ ([.mma plain .now 3 (.dir 4) (.imm 32), .mmq plain .now 2 (.dir 4) (.dir 8), .mzero plain false 3, .mlda plain true 1 (.dir 4),
        .mdrn plain true false .rne 0 (.dir 4), .ctld plain (.imm 3) (.dir 4), .ctld plain (.reg (.dir 4)) (.dir 4), .mzero plain true 2,
        .mlda plain false 4 (.dir 4), .mdrn plain false true .rne 2 (.dir 4), .mdrn plain false true .rne 0 (.dir 4)] : List Instr),
      Active (holding tileGroup 256 [0x77]) 1001 tileGroup plain i) ∧
    (let b := (holding tileGroup 256 [0x77]).blockOf tileGroup
     let pb := rdL b.mem 256 16
     let f := fblockOf pb
     let one : Part4 := ⟨0, 32, 512, 1536, 0x200⟩
     256 % 16 = 0 ∧ 256 + 16 ≤ b.bytes ∧ writesOver b (some (256, 272)) = [] ∧ b.poisoned 256 16 = false ∧ f.float = false ∧
     tileOk tileGroup false 3 = true ∧ handlesTrap b.bytes f 32 [one] = none ∧ fblockBad pb 32 = none ∧
     scaleRange f.sa f.la 32 ++ scaleRange f.sb f.lb 32 = [] ∧ modeOk tileGroup false 3 = true ∧ 32 % f.chunk = 0 ∧
     handlesTrap b.bytes f 32 ([0, 1, 2, 3].map (fun q => ⟨8 * q, 8, tileGroup.getV64 4 (8 * q), tileGroup.getV64 6 (8 * q), 0x200 + 2 * q⟩)) = none) :=
  ⟨fun i hi => holding_active _ _ (List.all_eq_true.mp (by decide : List.all _ (fun i => readyB tileGroup plain i && tileGroup.active plain != 0) = true) i hi),
    by decide⟩

/-- MatrixMultiplies: a flaw, a block that an operation still writes, and room in the queue; Landing: a window in its turn and one before it. -/
theorem witness_matrix_waits :
    let s := holding tileGroup 256 [0x77]
    let b := s.blockOf tileGroup
    let one : Part4 := ⟨0, 32, 512, 1536, 0x200⟩
    let e (op seq : Nat) (w : Nat × Nat) : Entry := ⟨op, seq, 1001, [], some w, 0, none⟩
    let later : Block := { b with entries := [e 7 1 (256, 272)] }
    (multiplyTrap b b.poison tileGroup 9 256 32 [one] (some (rdL b.mem 256 16))).isSome = true ∧
    writesOver later (some (256, 272)) ≠ [] ∧ multiplyTrap later later.poison tileGroup 3 256 32 [one] none = none ∧
    (s.core b.core).queue.length < 16 ∧ inOrder { b with entries := [e 7 1 (0, 64), e 8 2 (64, 128)] } 8 = true ∧
    inOrder { b with entries := [e 7 1 (0, 80), e 8 2 (64, 128)] } 8 = false := by decide

/-- MatrixTiles: the checks of MZERO, MLDA, MDRN and CTLD, each side. -/
theorem witness_tile_checks :
    tileOk tileGroup false 3 = true ∧ tileOk tileGroup true 2 = false ∧ tileOk tileGroup false 4 = false ∧ tileOk tileGroup true 1 = true ∧
    modeOk tileGroup false 0 = true ∧ modeOk tileGroup true 0 = false ∧
    (let g := regs [(4, 0)] [] []; (g.sval (.dir 4)).toNat % 16 = 0 ∧ (g.sval (.dir 4)).toNat + 4096 ≤ placedBlock.bytes) ∧
    ¬ ((tileGroup.sval (.dir 4)).toNat + 4096 ≤ placedBlock.bytes) ∧ (tileGroup.sval (.dir 4)).toNat + 32 ≤ placedBlock.bytes := by decide

/-- Spawn: with good and bad entries, with a named die and with one that the partition does not have, and after DETACH. -/
theorem witness_spawn :
    let g := regs [(2, 0x100000), (3, 0x100002), (4, 0x0040000000000000)] [(7, 3), (9, 900)] [(1, 1)]
    let d := { g with r := { g.r with detached := true } }
    let p := coreDie ((with_ g).blockOf g).core
    let die (n : Nat) := (with_ g).physDie? ((with_ g).partAt ((with_ g).blockOf g).core) (g.getV n 0).toNat
    (∀ i ∈ ([.spawn guarded false 3 (.dir 2) (.dir 6), .spawn guarded false 3 (.dir 3) (.dir 6), .spawn guarded false 3 (.dir 4) (.dir 6),
      .spawn guarded true 3 (.dir 2) (.dir 6), .spawn guarded true 3 (.dir 2) (.dir 8)] : List Instr), Active (with_ g) 1001 g guarded i) ∧
    Active (with_ d) 1001 d guarded (.spawn guarded false 3 (.dir 2) (.dir 6)) ∧ lanesOf (g.active guarded) = [0] ∧
    canonical (g.sval (.dir 2)) = true ∧ (g.sval (.dir 2)).toNat % 4 = 0 ∧ canonical (g.sval (.dir 3)) = true ∧ (g.sval (.dir 3)).toNat % 4 ≠ 0 ∧
    canonical (g.sval (.dir 4)) = false ∧ (die 7).isSome = true ∧ die 9 = none ∧ g.launch = some 1002 ∧ coachFree (with_ g) p = 65536 :=
  ⟨all_active (by decide), active_of (by decide), by decide, by decide, by decide, by decide, by decide, by decide, by decide, by decide, by decide,
    by decide⟩

/-- Spawn: a dispatcher's group belongs to no launch. -/
theorem witness_spawn_alone :
    let g := { placedGroup with launch := none }
    Active (with_ g) 1001 g plain (.spawn plain false 3 (.dir 2) (.dir 6)) ∧ g.launch = none := ⟨active_of (by decide), rfl⟩

/-- SystemInstructions. -/
theorem witness_system :
    let g := { sysGroup with r := { sysGroup.r with s := [(1, 1), (2, 2), (3, 0x200000), (4, 0x200080), (5, 0x200004), (6, 0x0040000000000000)] } }
    (∀ i ∈ ([.lnch plain (.dir 2), .mbxrd plain (.dir 8) (.imm 1), .mbxrd plain (.dir 8) (.reg (.dir 2)), .mbxwr plain (.dir 8) (.dir 7),
      .mbxwr plain (.dir 8) (.dir 1), .ctxsv plain (.dir 4), .ctxld plain (.dir 4), .ctxsv plain (.dir 5), .ctxld plain (.dir 6)] : List Instr),
      Active (with_ g) 1001 g plain i) ∧
    (∀ i ∈ ([.tlbinv ender .va false 0 (.dir 3) (.imm 1), .tlbinv ender .gpa false 7 (.dir 1) (.imm 1), .tlbinv ender .all false 0 (.dir 7) (.imm 0)] :
      List Instr), Active (with_ g) 1001 g ender i) ∧
    g.ssval (.imm 1) = 1 ∧ g.ssval (.reg (.dir 2)) = 2 ∧ g.sval (.dir 7) = 0 ∧ g.sval (.dir 1) ≠ 0 ∧
    tlbinvBad .va (g.sval (.dir 3)) 1 = none ∧ (tlbinvBad .gpa (g.sval (.dir 1)) 1).isSome = true ∧ tlbinvBad .all 0 0 = none ∧
    canonical (g.sval (.dir 4)) = true ∧ (g.sval (.dir 4)).toNat % 128 = 0 ∧ canonical (g.sval (.dir 5)) = true ∧
    (g.sval (.dir 5)).toNat % 128 ≠ 0 ∧ canonical (g.sval (.dir 6)) = false :=
  ⟨all_active (by decide), all_active (by decide), by decide, by decide, by decide, by decide, by decide, by decide, by decide, by decide, by decide,
    by decide, by decide, by decide⟩

/-- SystemInstructions: the sequencer's command is there, and is not. -/
theorem witness_sequencers :
    let s := (with_ sysGroup).modLaunch 1002 (fun l => { l with phase := .preempting, image := 0x200080 })
    let t := (with_ sysGroup).modLaunch 1002 (fun l => { l with phase := .restoring, image := 0x200080 })
    (with_ sysGroup).partOfDie 0 = some 0 ∧ commanded s 0 .preempting 0x200080 = some 1002 ∧ commanded t 0 .restoring 0x200080 = some 1002 ∧
    commanded (with_ sysGroup) 0 .preempting 0x200080 = none := by decide

/-- CountersAndTopology and WholePanelTopology. -/
theorem witness_counters :
    (∀ i ∈ ([.rdcnt plain (.dir 8) (.imm 0x80), .rdcnt plain (.dir 8) (.imm 0x84), .rdcnt plain (.dir 8) (.imm 0x81), .qtopo plain (.dir 8) 5 (.reg (.dir 2)),
      .qtopo plain (.dir 8) 0 (.reg (.dir 2))] : List Instr), Active (with_ memGroup) 1001 memGroup plain i) ∧
    (memGroup.ssval (.imm 0x80)).toNat < 0x81 ∧ 0x83 < (memGroup.ssval (.imm 0x84)).toNat ∧ (memGroup.ssval (.reg (.dir 4))).toNat / 2 ^ 16 = 0 ∧
    (memGroup.ssval (.reg (.dir 2))).toNat / 2 ^ 16 ≠ 0 :=
  ⟨all_active (by decide), by decide, by decide, by decide, by decide⟩

theorem witness_grades : State.reset.disabled = [] ∧ (List.range 50).length = 50 ∧ (List.range 50).Nodup ∧ (∀ q ∈ List.range 50, q < 900) ∧
    (State.reset.parts.head?.map (fun e => (e.2.y0, e.2.y1))) = some (0, 29) := by decide

/-- RoundTrip: an instruction that is well formed and no event. -/
theorem witness_round_trip : (Instr.mma plain .now 3 (.dir 4) (.imm 256)).WellFormed ∧ (Instr.mma plain .now 3 (.dir 4) (.imm 256)).isEvent = false :=
  ⟨(by decide : Instr.illFormed (.mma plain .now 3 (.dir 4) (.imm 256)) = none), rfl⟩


/-! ### Steps, launches, commits and closes -/

/-- The state that an outcome gives. -/
def Machine.Out.state (o : Out) : State := match o with | .next t => t | _ => st

/-- StepRunsInstruction: a placed word is fetched and decodes. -/
theorem witness_step :
    let w : IWord := 0x14480201D0B8000000000000#96
    let i : Instr := .smovi plain .i64 (.dir 7) 0x42E00000
    let s := placeWord State.reset (bytesOfWord w)
    s.agenda = [.issue 1001] ∧ s.group? 1001 = some placedGroup ∧ placedGroup.retired = false ∧ placedGroup.run.isSome = true ∧
    placedGroup.tlbi = none ∧ State.takeable placedGroup = [] ∧ slotFree { s with agenda := [], cur := some 1001 } placedGroup (delayOf i) = true ∧
    placedGroup.runNow.count < 24 ∧
    (match (State.fetchFor { s with agenda := [], cur := some 1001 } placedGroup placedGroup.r.pc).1 with
      | .ok bs => bs == bytesOfWord w | _ => false) = true ∧
    i.illFormed = none ∧ encode i = some w ∧ i.isEvent = false := by
  refine ⟨by decide, by decide, by decide, by decide, by decide, by decide, by decide, by decide, by decide, by decide, by decide, by decide⟩

/-- StepRunsInstruction: an event and a dispatcher's instruction on the agenda; MemoryKept: a step that answers a next state. -/
theorem witness_turns :
    ({ st with agenda := [.event .laneCycleCount] } : State).agenda = [.event .laneCycleCount] ∧ Instr.laneCycleCount.isEvent = true ∧
    ({ st with agenda := [.firmware 0 (.nop plain)] } : State).agenda = [.firmware 0 (.nop plain)] ∧ (Instr.nop plain).isEvent = false ∧
    Memory.wf ({ st with agenda := [.event .laneCycleCount] } : State).mem = true ∧
    (match step { st with agenda := [.event .laneCycleCount] } with | .next _ => true | _ => false) = true := by
  refine ⟨rfl, rfl, rfl, rfl, by decide, by decide⟩

/-- A store's word at key 64. -/
def wr (r : WRule) (mask : BitVec 8) (x wid : Nat) : Write := ⟨64, 64, r.unit64, mask, BitVec.ofNat 64 x, r, BitVec.ofNat 64 wid, 0, 1001, false, 1⟩

/-- WriteRules: two writers under each rule, and two rules that meet. -/
theorem witness_rules :
    (∀ r ∈ ([.lo, .any, .flt, .sum .n32, .sum .i64, .acc .n32, .acc .i64] : List WRule),
      takePart [wr r 0x0F 3 0, wr r 0x0F 4 32] = [wr r 0x0F 3 0, wr r 0x0F 4 32] ∧
      (∀ w ∈ [wr r 0x0F 3 0, wr r 0x0F 4 32], w.rule = r ∧ w.wide = r.unit64)) ∧
    takePart [wr .lo 0x0F 3 0, wr .flt 0x0F 4 32] = [wr .lo 0x0F 3 0, wr .flt 0x0F 4 32] ∧ (wr .lo 0x0F 3 0).rule ≠ (wr .flt 0x0F 4 32).rule ∧
    (wr .lo 0x0F 3 0).ident < (wr .lo 0x0F 4 32).ident ∧
    ([wr .flt 3 3 0, wr .flt 12 4 32].Pairwise (fun v w => v.mask &&& w.mask = 0)) ∧
    ¬ ([wr .flt 3 3 0, wr .flt 6 4 32].Pairwise (fun v w => v.mask &&& w.mask = 0)) := by decide

/-- CommittedBytes: a unit that resolves, and one that collides in a launch without a log. -/
theorem witness_units :
    (resolve (unitOld st.mem (64, false)) [wr .lo 0x0F 3 0] 0 st.free).hit = false ∧ st.launch? 1002 = some placedLaunch ∧
    placedLaunch.header.log = 0 ∧ (resolve (unitOld st.mem (64, false)) [wr .flt 3 3 0, wr .flt 6 4 32] 0 st.free).hit = true ∧
    (0 < 1 ∧ ∀ e ∈ placedLaunch.undo, e.2.1 = 64 → e.1 < 1) := by
  refine ⟨by decide, by decide, by decide, by decide, by decide, by decide⟩

/-- The packet of a header at `va`. -/
def packet (va ident guest : Nat) : List Byte := leBytes 8 va ++ leBytes 4 ident ++ [BitVec.ofNat 8 guest] ++ List.replicate 51 0

/-- The placed partition. -/
def part0 : Part := (st.part? 0).getD (Part.fresh 0 29 0 0 0)

/-- The machine with a good header at 0x200000, a launch 2000 in a phase, and its packet at die 0's launch unit. -/
def posted (ph : Phase) (hdr : List Byte) : State :=
  let s : State := { st with mem := wrL st.mem (keyInter 0 29 0x200000) hdr, blocks := [], groups := [] }
  ({ s with launches := [(2000, { Launch.fresh 7 0 0 0x200000 0 [] with phase := ph, order := 2000 })] }).modDie 0
    (fun d => { d with launchq := [⟨0x200000, 7, none⟩] })

set_option maxRecDepth 20000 in
/-- Launching: packets that are held, rejected and unreadable. -/
theorem witness_posting :
    (∀ up ∈ [false, true], ∀ f ∈ [false, true], ({ st with parts := [(0, { part0 with ideUp := up, fatal := f })] } : State).part? 0 =
      some { part0 with ideUp := up, fatal := f }) ∧ st.part? 0 = some part0 ∧
    (posted .posted placedHeader).launches.any (fun e => e.2.part == 0 && e.2.ident == 7 && e.2.open_) = true ∧
    (∀ bs ∈ [packet 0x200000 7 0, packet 0x300000 7 0, packet 0x200000 7 8],
      (st.launches.any (fun e => e.2.part == 0 && e.2.ident == BitVec.ofNat 32 (fieldN bs 8 4) && e.2.open_)) = false) ∧
    packetBad (packet 0x200000 7 8) = some 12 ∧ packetBad (packet 0x200000 7 0) = none ∧
    (let s := posted .posted placedHeader;
      (readPosting ((s.walked part0 (some 0) 0x200049 2).walked part0 (some 0) 0x200058 16) part0 0 0x200000).isSome) = true ∧
    (readPosting (posted .posted placedHeader) part0 0 0x200000).map (fun h => (fieldN h 0 1, fieldN h 1 1)) = some (0, 0) ∧
    (readPosting (posted .posted (placedHeader.set 73 4)) part0 0 0x200000).map (fun h => decide (4 ≤ fieldN h 0 1)) = some true ∧
    (readPosting (posted .posted (placedHeader.set 74 5)) part0 0 0x200000).map (fun h => decide (fieldN h 0 1 < 4 ∧ 5 ≤ fieldN h 1 1)) = some true ∧
    readPosting st part0 0 0x700000 = none := by
  refine ⟨by decide, by decide, by decide, by decide, by decide, by decide, by decide, by decide, by decide, by decide, by decide⟩

set_option maxRecDepth 20000 in
/-- Launching: a launch that may be sent, fresh or saved at the end of its slice. -/
theorem witness_broadcast :
    (let s := posted .posted placedHeader
     s.launch? 2000 = some { Launch.fresh 7 0 0 0x200000 0 [] with phase := .posted, order := 2000 } ∧ s.part? 0 = some part0 ∧
     mayStart s 2000 { Launch.fresh 7 0 0 0x200000 0 [] with phase := .posted, order := 2000 } = true) ∧
    (let l : Launch := { Launch.fresh 7 0 0 0x200000 0 [] with phase := .saved, queued := true }
     mayStart { st with launches := [(2000, l)] } 2000 l = true) ∧
    (0 ∈ (posted .posted placedHeader).dieList { part0 with y1 := 0 } ∧ ((posted .posted placedHeader).die 0).mbox.length ≤ 16) := by
  refine ⟨⟨by decide, by decide, by decide⟩, by decide, by decide, by decide⟩

/-- A header of which die 0 of a whole panel gets more root blocks than it can hold. -/
def wideHeader : List Byte := placedHeader.take 44 ++ leBytes 4 0x200000 ++ (placedHeader.drop 48).take 17 ++ [21] ++ placedHeader.drop 66

/-- The machine with a broadcast launch on one row of dies. -/
def rowOf (hdr : List Byte) : State := let s := posted .broadcast hdr; { s with parts := [(0, { part0 with y1 := 0 })] }

set_option maxRecDepth 20000 in
/-- Launching: a packet at a launch unit whose header reads, fails a limit, asks for too much, and is placed. -/
theorem witness_unit :
    let s := posted .broadcast placedHeader
    let q : Packet := ⟨0x200000, 7, none⟩
    (s.die 0).launchq = [q] ∧ s.partOfDie 0 = some 0 ∧ packetLaunch s 0 0 q = some 2000 ∧
    (q.word.extractLsb' 32 8).toNat < 8 ∧ q.word.extractLsb' 40 24 = 0#24 ∧ q.hdr.toNat % 128 = 0 ∧ canonical q.hdr = true ∧
    (s.readVa part0 (some 0) q.hdr 128).isSome = true ∧ s.readVa part0 (some 0) 0x700000 128 = none ∧
    firstField ((Hdr.mk (placedHeader.set 72 0)).limits true) = some 72 := by
  refine ⟨by decide, by decide, by decide, by decide, by decide, by decide, by decide, by decide, by decide, by decide⟩

set_option maxRecDepth 20000 in
theorem witness_unit_room :
    let s := posted .broadcast placedHeader
    let h : Hdr := ⟨placedHeader⟩
    s.readVa part0 (some 0) 0x200000 128 = some placedHeader ∧ firstField (h.limits (entryRuns s part0 0 h.entry)) = none ∧
    cpywOn s 0 = false ∧ h.rootCount 0 900 ≤ dieRoom s 0 h ∧ firstField ((Hdr.mk wideHeader).limits true) = none ∧
    dieRoom s 0 ⟨wideHeader⟩ < (Hdr.mk wideHeader).rootCount 0 900 ∧
    ((keepHeader (unitWalks s part0 ⟨0x200000, 7, none⟩) 0 2000 ⟨0x200000, 7, none⟩ placedHeader).die 0).launchq = [⟨0x200000, 7, some placedHeader⟩] := by
  refine ⟨by decide, by decide, by decide, by decide, by decide, by decide, by decide⟩

set_option maxRecDepth 20000 in
theorem witness_unit_places :
    (placeRoots 0 2000 { Launch.fresh 7 0 0 0x200000 0 [] with phase := .broadcast, order := 2000, hdr := placedHeader, hdrVa := 0x200000 } 0 900 [0]
      (posted .broadcast placedHeader)).isSome = true := by decide

/-- Launching: a start after every die's report, good or bad, and a completion. -/
theorem witness_start :
    let l (b : Option Nat) : Launch := { Launch.fresh 7 0 0 0x200000 0 [] with phase := .broadcast, reports := (List.range 30).map (fun p => (p, b)) }
    allReported (rowOf placedHeader) { part0 with y1 := 0 } (l none) = true ∧ reportedByte (l none) = none ∧ reportedByte (l (some 44)) = some 44 ∧
    allDone (posted .stepping placedHeader) 2000 { Launch.fresh 7 0 0 0x200000 0 [] with phase := .stepping, c := 1 } = true := by decide

/-- A global write of the placed launch, of step 0, in a stage. -/
def gwrite (g : Stage) : GWrite := ⟨5, wr .lo 0x0F 3 0, 0, coreKey 0 1, 0, g⟩

/-- Commits: a write that is held, in flight and parked, and crossings that leave their core together and one by one. -/
theorem witness_writes :
    let s := { st with tick := 1000 }.modLaunch 1002 (fun l => { l with gw := [gwrite (.held 0)] })
    let g := { placedGroup with heldX := [(0, 0), (1, 0), (2, 7)] }
    (s.launch? 1002).map (fun l => l.gw.find? (fun w => w.id == 5)) = some (some (gwrite (.held 0))) ∧
    0 + Config.hold ≤ s.cycle (coreDie (gwrite (.held 0)).core) ∧ (∀ v ∈ [gwrite (.held 0)], v.id = 5 → v = gwrite (.held 0)) ∧
    (∀ v ∈ [gwrite .flight], v.id = 5 → v.stage = .flight) ∧
    (s.setGroup 1001 g).group? 1001 = some g ∧ g.heldX = (0, 0) :: ([(1, 0)] ++ [(2, 7)]) ∧
    (∀ x ∈ ([(2, 7)] : List (Nat × Nat)).head?, x.2 ≠ 0) ∧
    0 + Config.hold ≤ (s.setGroup 1001 g).cycle (coreDie ((s.setGroup 1001 g).blockOf g).core) := by
  refine ⟨by decide, by decide, by decide, by decide, by simp, by decide, by decide, by decide⟩

/-- Commits: a launch that may commit, and the three pieces of its application. -/
theorem witness_commit :
    (let s := st.setGroup 1001 { placedGroup with reported := 1 }
     s.launch? 1002 = some placedLaunch ∧ mayCommit s 1002 placedLaunch = true) ∧
    (let s := { st with tick := 1000 }
     let l : Launch := { placedLaunch with c := 1, applying := [gwrite .parked] }
     lowestStep s 1002 l = some 0 ∧ l.applying.filter (fun w => w.step == 0 && w.stage != .applied &&
       unitAt (wideKeys ((l.applying.filter (fun w => w.step == 0 && w.stage != .applied)).map (fun w => w.w))) w.w.key ==
       unitAt (wideKeys ((l.applying.filter (fun w => w.step == 0 && w.stage != .applied)).map (fun w => w.w))) 64) ≠ [] ∧
     ∀ w ∈ l.applying, w.cycle + 128 ≤ s.tick) ∧
    (let s := { st with tick := 1000 }
     let l : Launch := { placedLaunch with c := 1, applying := [gwrite .applied], btst := [⟨1001, 0, 0x200000, 0, .lo, 0, 0, 1, [1, 2, 3, 4]⟩] }
     lowestStep s 1002 l = some 0 ∧ l.applying.any (fun w => w.step == 0 && w.stage != .applied) = false ∧ tget 0 l.declared 0 + 128 ≤ s.tick) ∧
    (let l : Launch := { placedLaunch with c := 1, applying := [gwrite .applied] }
     (∀ b ∈ l.btst, b.step ≠ 0) ∧ (∀ d ∈ l.dueLogs, d.1 ≠ 0) ∧ (∀ m ∈ l.moves, m.due ≠ some 0) ∧ tget 0 l.seen (placeNo (.die 3)) < l.c) := by
  refine ⟨⟨by decide, by decide⟩, ⟨by decide, by decide, by decide⟩, ⟨by decide, by decide, by decide⟩, by decide, by decide, by decide, by decide⟩

/-- Commits: a host write that waited for a launch that is over. -/
theorem witness_host_turn :
    let h : HostW := ⟨64, [1, 2], [(1002, 0)]⟩
    let s := { st with hostw := [h] }.modLaunch 1002 (fun l => { l with phase := .completed })
    s.hostw = h :: [] ∧ (∀ m ∈ h.maps, ((s.launch? m.1).map Launch.holds).getD false = false) ∧
    (s.launch? 1002).map (fun l => lowestStep s 1002 l) = some none := by decide

/-- LocalCloses: a block that closes its step, a close of one word, and a group and a coach house over the limit. -/
theorem witness_close :
    (let s := with_ { placedGroup with r := { placedGroup.r with lstep := 1 } }
     s.block? 1000 = some placedBlock ∧ mayClose s placedBlock = true) ∧
    (unitsOf [wr .lo 0x0F 3 0] = [unitAt (wideKeys [wr .lo 0x0F 3 0]) 64] ∧ (resolve (unitOld [] (64, false)) [wr .lo 0x0F 3 0] 0 0).hit = false) ∧
    (let s := ({ st with tick := 2 ^ 31 }).modDie 0 (fun d => { d with protos := [⟨1002, 0x100000, 0, [3], [0], []⟩] })
     let behind (d : Die) : Bool := d.protos.any (fun q => q.launch == 1002 && q.step == placedLaunch.c)
     s.launch? 1002 = some placedLaunch ∧ placedLaunch.phase = .stepping ∧
     overrunGroups s 1002 placedLaunch placedLaunch.c (s.dies.any (fun e => behind e.2)) = [1001] ∧
     ((s.dies.filter (fun e => behind e.2 && expired s placedLaunch e.1)).map (fun e => e.1)) = [0] ∧ [1001].Nodup) := by
  refine ⟨⟨by decide, by decide⟩, ⟨by decide, by decide⟩, by decide, by decide, by decide, by decide, by decide⟩

/-- A promotion of launch 1002, its entry at `dir` and its destination at `dest`. -/
def moving (dir dest : Word) : Move := ⟨9, 1001, 0, 0, 0, coreKey 0 1, false, dir, dest, false, .copying, 0, none, false, []⟩

/-- The machine with that move of a block at 0x204000 with rows of 4 bytes, and a TLB entry of page 0x400000 outside the partition. -/
def movingState (dir dest : Word) : State :=
  let s := st.modLaunch 1002 (fun l => { l with moves := [moving dir dest] })
  let m1 := wrN s.mem (keyInter 0 29 0x2000D4) 4 4
  ({ s with mem := wr64 m1 (keyInter 0 29 0x200100) 0x204000 }).modCore (coreKey 0 1) (fun c => { c with
    tlb := [⟨some 0, pageOf 0x400000, keyInter 3 29 0, true, false, false, false, false, 0, 2, 0, false, false, false, 0⟩] })

/-- How that move's copy ends: copied, stopped or frozen. -/
def moveEnd (dir dest : Word) : Nat :=
  match (runCopy (movingState dir dest) { placedLaunch with moves := [moving dir dest] } (moving dir dest)).2 with
  | (_, none) => 0
  | (_, some (.stop _)) => 1
  | (_, some (.freeze _ _)) => 2

set_option maxRecDepth 20000 in
/-- LocalCloses: a move whose copy runs, one whose directory entry cannot be read, and one that leaves the partition. -/
theorem witness_move :
    (let l : Launch := { placedLaunch with moves := [moving 0x200100 0x208000] }
     (movingState 0x200100 0x208000).launches.map (fun e => (e.1, e.2.moves)) = [(1002, l.moves)] ∧
     l.moves.find? (fun m => m.op == 9 && m.phase == .copying) = some (moving 0x200100 0x208000)) ∧
    freeEngines (movingState 0x200100 0x208000) (coreDie (moving 0x200100 0x208000).core) ≠ [] := by
  refine ⟨⟨by decide, by decide⟩, by decide⟩

theorem witness_move_ends :
    moveEnd 0x200100 0x208000 = 0 ∧ moveEnd 0x700000 0x208000 = 1 ∧ moveEnd 0x200100 0x400000 = 2 := by
  refine ⟨by decide +kernel, by decide +kernel, by decide +kernel⟩

/-- LocalCloses: a word of that copy. -/
theorem witness_word :
    let m := moving 0x200100 0x208000
    (match copyKey (movingState 0x200100 0x208000) placedLaunch m 0x204000 false with
      | (.ok a, s1) =>
        (match copyKey s1 placedLaunch m 0x208000 true with
          | (.ok b, s2) => decide (b < 2 * 2 ^ 64) && !s2.poisoned a 4
          | _ => false)
      | _ => false) = true ∧ m.demote = false := by
  refine ⟨by decide +kernel, rfl⟩

/-- LocalCloses: a waiting group that finds a core. -/
theorem witness_place :
    let q : Proto := ⟨1002, 0x100000, 1, [3], [0], []⟩
    st.launch? 1002 = some placedLaunch ∧ placedLaunch.phase = .stepping ∧ (st.coreFor 0 (placedLaunch.header.childNeed 1002)).isSome = true ∧
    (placeable st 0 [] [q]).isSome = true ∧ (st.ctxFor (coreKey 0 1) 1002).isSome = true := by
  refine ⟨by decide, by decide, by decide, by decide, by decide⟩


/-! ### Grants, reads, operations and the host -/

/-- The state that an outcome gives. -/
def outState (o : Out) : State := match o with | .next t => t | _ => st

/-- `NOP | run`, and the same under a run guard that no lane passes. -/
def nopRun : IWord := 0x004030003000300001000000#96
def nopSkip : IWord := 0x004030003000300001004000#96

/-- A group that stands at a run head, its slots free. -/
def waiting (w : IWord) (g : Group) : State :=
  (({ placeWord State.reset (bytesOfWord w) with agenda := [] } : State).modCore (coreKey 0 1) (fun c => { c with slot0 := Slot.fresh })).setGroup 1001
    { g with run := none, r := { g.r with head := true } }

/-- Grants: a run that is granted, one that is skipped, and notices of both kinds. -/
theorem witness_grants :
    (granted (waiting nopRun placedGroup) (coreKey 0 1) 0).map (fun e => (e.1, e.2.2.skip)) = some (1001, false) ∧
    (granted (waiting nopSkip placedGroup) (coreKey 0 1) 0).map (fun e => (e.1, e.2.2.skip)) = some (1001, true) ∧
    ((waiting nopRun placedGroup).blockOf placedGroup).core = coreKey 0 1 := by decide

/-- How the run at the head of a program is granted: skipped or not, its length, whether its last word ends it, and its flaw's place. -/
def skipped (ws : List IWord) : Option (Bool × Nat × Option Bool × Option Nat) :=
  let s := waiting 0 placedGroup
  (granted { s with mem := wrL s.mem (keyInter 0 29 0x100000) (ws.flatMap bytesOfWord) } (coreKey 0 1) 0).map (fun e =>
    (e.2.2.skip, e.2.2.words.length, e.2.2.words.getLast?.map (fun w => (split w).c.b), (skipFlaw e.2.1 e.2.2.words).map (fun f => f.2)))

/-- Grants: skipped runs that end, that have a flaw, and that are too long. -/
theorem witness_skips :
    skipped [nopSkip] = some (true, 1, some true, none) ∧
    skipped [nopSkip - 0x1000000 + 0x800000, nopRun] = some (true, 2, some true, some 0) ∧
    skipped ((nopSkip - 0x1000000) :: List.replicate 23 (nopRun - 0x1000000)) = some (true, 24, some false, none) := by
  refine ⟨by decide +kernel, by decide +kernel, by decide +kernel⟩

theorem witness_notices :
    let n (k : NoticeKind) : Notice := ⟨k, 0x50, none, 0, 0, 0, none⟩
    let g (k : NoticeKind) : Group := { placedGroup with notices := [n k], run := none }
    let s (k : NoticeKind) := waiting nopRun (g k)
    (∀ k ∈ [NoticeKind.overrun, .deferred], (s k).group? 1001 = some { g k with r := { (g k).r with head := true } } ∧ running (s k) (g k) = true ∧
      ((s k).blockOf (g k)).moving = false ∧
      State.firstNotice (BitVec.ofNat 64 (g k).r.gstep) (State.takeable { g k with r := { (g k).r with head := true } }) = some (n k)) ∧
    (match ((s .deferred).takeNotice 1001 { g .deferred with r := { (g .deferred).r with head := true } }).group? 1001 with
      | some h => !h.r.sys || (nextRun ((s .deferred).takeNotice 1001 { g .deferred with r := { (g .deferred).r with head := true } }) h).isSome
      | none => false) = true := by
  refine ⟨by decide, by decide⟩

/-- ReadsServed: a global load, one of no launch, a load of the weight store, and a full load. -/
theorem witness_reads :
    let r (k : Kind) (v : Option Word) : LaneRead := ⟨3, 64, 64, k, v⟩
    let op (src : LoadSrc) (k : Kind) (v : Option Word) : LoadOp := ⟨1001, .vec 4 none, .s32, src, 0, 0, [r k v], 0, 0⟩
    (op .glob .now none).reads.find? (fun r => r.lane == 3 && r.val.isNone) = some (r .now none) ∧ st.group? 1001 = some placedGroup ∧
    placedGroup.launch = some 1002 ∧ st.launch? 1002 = some placedLaunch ∧ externalKey 64 = false ∧ 0 ≤ placedLaunch.c ∧
    placedLaunch.outstanding 0 64 4 = false ∧ hostDue st 1002 placedLaunch 64 4 = false ∧
    (op .glob .stb none).reads.find? (fun r => r.lane == 3 && r.val.isNone) = some (r .stb none) ∧
    refreshing { st with tick := 600 } (coreDie (st.blockOf placedGroup).core) 64 = false ∧ cpywAhead st placedGroup.blk 0 = false ∧
    (∀ q ∈ (op .glob .now (some 5)).reads, q.val.isSome = true ∧ q.lane < 32) ∧ placedGroup.r.frame = none ∧
    canonical 0x200000 = true ∧ coreKey 0 1 < 900 * 512 := by
  refine ⟨by decide, by decide, by decide, by decide, by decide, by decide, by decide, by decide, by decide, by decide, by decide, by decide,
    by decide, by decide, by decide⟩

/-- The state after an engine's instruction has issued with its block at 64. -/
def issued (g : Group) (i : Instr) (pb : List Byte) : State := outState (exec i (holding g 64 pb))

/-- The operation that it started. -/
def theOp (s : State) : Option AsyncOp := tfind s.ops 1003

/-- An operation that may run and whose rows all run. -/
def rowsB (g : Group) (i : Instr) (pb : List Byte) (rows : AsyncOp → List (List WordMove)) (rule : WRule) (kind : Kind) (direct : Bool) : Bool :=
  let s := issued g i pb
  match theOp s with
  | some op => mayRun s 1003 op && (runRows op rule kind direct (rows op) ⟨s, [], 0, none⟩).halt.isNone
  | none => false

/-- OperationsComplete: the copies, gathers, scatters and weight copies. -/
theorem witness_operations :
    rowsB memGroup (.cpy plain .l2l .lo .now (.dir 1)) (copyBlock 1024 2048) (fun op => copyMoves (shapeOf op.pb) (dirSrc .l2l) (dirDst .l2l)) .lo .now false = true ∧
    rowsB memGroup (.cpy plain .g2l .any .now (.dir 1)) (copyBlock 0x200000 2048) (fun op => copyMoves (shapeOf op.pb) (dirSrc .g2l) (dirDst .g2l)) .any .now false = true ∧
    rowsB memGroup (.gth plain .l .lo .now (.dir 1)) (copyBlock 1024 2048) (fun op => gatherMoves op .l (gshapeOf op.pb)) .lo .now false = true ∧
    rowsB memGroup (.sct plain .g .flt (.dir 1)) (copyBlock 0x200000 2048) (fun op => scatterMoves op .g (gshapeOf op.pb)) .flt .now false = true ∧
    dirIsFerry .l2l = false ∧ dirIsFerry .ferry = true := by decide

/-- OperationsComplete: a copy that stops at its first row, and an operation that still waits for its block. -/
theorem witness_stopped :
    let s := issued memGroup (.cpy plain .g2l .lo .now (.dir 1)) (copyBlock 0x700000 2048)
    (match theOp s with
      | some op => mayRun s 1003 op &&
          (match (runRows op .lo .now false (copyMoves (shapeOf op.pb) (dirSrc .g2l) (dirDst .g2l)) ⟨s, [], 0, none⟩).halt with
            | some (.stop _) => true
            | _ => false) && op.late.isNone && op.st == .running && op.deps.isEmpty && !ofQueue op.kind
      | none => false) = true := by decide

theorem witness_weight_copy :
    let s : State := { holding { sysGroup with r := { sysGroup.r with s := [(1, 64)] } } 64 (copyBlock 1024 0) with launches := [], tick := 600 }
    let t := outState (exec (.cpyw plain false (.dir 1)) s)
    (match theOp t with
      | some op => mayRun t 1003 op && (runRows op .lo .now true (copyMoves (shapeOf op.pb) .loc .weight) ⟨t, [], 0, none⟩).halt.isNone
      | none => false) = true := by decide

set_option maxRecDepth 20000 in
/-- OperationsComplete: a BTST whose view names one row of 4 bytes, a move, and a CPYM whose receivers have accepted. -/
theorem witness_tables :
    let s0 := issued memGroup (.btst plain .lo (.dir 1)) (leBytes 8 0x200000 ++ leBytes 4 1024 ++ leBytes 4 4 ++ leBytes 4 0 ++ leBytes 4 1 ++
      leBytes 4 4 ++ leBytes 4 0)
    let view := leBytes 8 0x200100 ++ [16, 0, 0, 0] ++ leBytes 4 4 ++ leBytes 4 0 ++ leBytes 4 1 ++ leBytes 8 0
    let s : State := { s0 with mem := wrL s0.mem (keyInter 0 29 0x200000) view }
    (match theOp s with
      | some op => mayRun s 1003 op &&
          (match (readWords s op .now 8 (BitVec.ofNat 64 (tshapeOf op.pb).view)).1 with
            | .ok bs => viewOk bs none && (viewOf bs).rowBytes == (tshapeOf op.pb).rowBytes &&
                (btstRows op .lo (tshapeOf op.pb) (viewOf bs)).2.isNone
            | _ => false)
      | none => false) = true := by decide

set_option maxRecDepth 20000 in
theorem witness_moves_run :
    (let s := issued memGroup (.btdem plain (.dir 1)) (leBytes 8 0x200000 ++ leBytes 8 0x200040 ++ leBytes 16 0)
     (theOp s).map (fun op => (op.kind, mayRun s 1003 op)) = some (.move true, true)) ∧
    (let s := issued memGroup (.cpym plain .l2l .lo .now (.dir 1)) (copyBlock 1024 2048 ++ [1, 0] ++ List.replicate 22 0xFF)
     (theOp s).map (fun op => (op.kind, mayRun s 1003 op, op.accepted)) = some (.cpym .l2l .lo .now [1], true, []) ∧
     (theOp s).map (fun op =>
       let op := { op with args := [1, 0, 0, 0], prog := 1 }
       (decide (op.args ≠ [] ∧ op.prog ≠ 0 ∧ 1 ∉ op.accepted), (arrive s (coreKey (coreDie op.core) 1) (arrivalOf s op .lo)).isSome)) = some (true, true)) := by
  refine ⟨by decide, by decide, by decide⟩

/-- OperationsComplete: an arrival at a core without a window, with room in its buffer and without, and one at an open window. -/
theorem witness_arrivals :
    (∀ e ∈ st.blocksOn (coreKey 0 1), ∀ w ∈ e.2.windows, w.win = 3 → w.filled ≠ none) ∧
    ((st.core (coreKey 0 1)).landing.map (fun b => b.data.length)).sum + 4 ≤ Config.landingBytes ∧
    Config.landingBytes < ((st.core (coreKey 0 1)).landing.map (fun b => b.data.length)).sum + 100000 ∧
    (let s := outState (exec (.land plain (.imm 7) (.reg (.dir 1)) (.imm 64)) (with_ memGroup))
     (s.blocksOn (coreKey 0 1)).map (fun e => (e.1, (e.2.windows.find? (fun w => w.win == 7 && w.filled.isNone)).map (fun w => inOrder e.2 w.op))) =
       [(1000, some true)] ∧ (s.core (coreKey 0 1)).landing = []) := by decide

/-- OperationsComplete: a ferry row whose step has committed. -/
theorem witness_ferry :
    let f : Ferry := ⟨5, 0, 0, 0, [1, 2, 3, 4], 1001, 1⟩
    ({ placedLaunch with ferry := [f], c := 1 } : Launch).ferry.find? (fun f => f.id == 5) = some f ∧ f.step < 1 := by decide

/-- MatrixSteps: each kind of operation at the front of its core's queue. -/
def frontB (i : Instr) (kind : OpKind) : Bool :=
  let s := outState (exec i (holding tileGroup 256 [0x77]))
  match frontOf s [] (s.core (coreKey 0 1)).queue with
  | some (o, op) => o == 1003 && op.kind == kind && (s.group? op.gid).isSome && queueReady s o op
  | none => false

theorem witness_fronts :
    frontB (.mzero plain false 3) (.mzero false 3) = true ∧ frontB (.mlda plain false 3 (.dir 10)) (.mlda false 3) = true ∧
    frontB (.mdrn plain true false .rne 0 (.dir 10)) (.mdrn true false .rne 0) = true ∧ frontB (.ctld plain (.imm 3) (.dir 4)) (.ctld 3) = true := by decide

set_option maxRecDepth 20000 in
theorem witness_kstep :
    let s := outState (exec (.mma plain .now 3 (.dir 4) (.imm 32)) (holding tileGroup 256 [0x77]))
    (match frontOf s [] (s.core (coreKey 0 1)).queue with
      | some (o, op) => queueReady s o op && op.late.isNone && decide (op.prog < kOf op) && (draining s (s.core op.core).queue).isNone &&
          (match fetchSlices .now (fblockOf op.pb) (kOf op) op.prog (partsOf op) s op with
            | (.ok xs, u, op1) => (match applyKstep u o op1 tileGroup 3 xs with | (.none, _) => true | _ => false)
            | _ => false)
      | none => false) = true := by decide

/-- What the next K-step of an MMA on local store with the format block `fb` meets in a machine that `f` changed: whether its operands
were fetched, and whether its products went in. -/
def kstep (fb : List Byte) (f : State → State) : Option (Bool × Bool) :=
  let s := f (outState (exec (.mma plain .now 3 (.dir 4) (.imm 32)) (f (holding tileGroup 256 fb))))
  match frontOf s [] (s.core (coreKey 0 1)).queue with
  | some (o, op) =>
    (match fetchSlices .now (fblockOf op.pb) (kOf op) op.prog (partsOf op) s op with
      | (.ok xs, u, op1) => (match applyKstep u o op1 tileGroup 3 xs with | (.none, _) => some (true, true) | _ => some (true, false))
      | (.error (.stop _ _ _, _), _, _) => some (false, false)
      | _ => none)
  | none => none

/-- MatrixSteps: operands that poison stops, and an integer tile that finds no free entry, under trap mode. -/
theorem witness_kstep_stops :
    kstep [0x77] (fun s => s.modBlock 1000 (fun b => { b with poison := [512] })) = some (false, false) ∧
    kstep [0x77, 0x80] (fun s => (s.modBlock 1000 (fun b => { b with mem := wrL (wrL b.mem 512 [1]) 1536 [1] })).modCore (coreKey 0 1)
      (fun c => { setCell c (planeOf tileGroup 3) 0 0 0x7FFFF with ovf := List.replicate 128 ⟨9, 0, 0, 1⟩ })) = some (true, false) ∧
    (fblockOf [0x77, 0x80]).trap = true := by
  refine ⟨by decide +kernel, by decide +kernel, by decide⟩

set_option maxRecDepth 20000 in
/-- MatrixSteps: carries of each kind, and an integer term within its row and column. -/
theorem witness_carries :
    (carry 0x7FFFF 1).2 = 1 ∧ (carry 0x80000 (-1)).2 = -1 ∧ (carry 0 (2 ^ 20)).2 = 1 ∧ (carry 5 7).2 = 0 ∧ 0 + 1 < 32 ∧ 32 ≤ 31 + 1 := by decide

set_option maxRecDepth 20000 in
/-- HostAccesses: a partition with its stream up, and down, or its host requester frozen; a page that a running launch maps, and one that
none does. -/
theorem witness_host :
    let P : Part := { part0 with ideUp := true, hostRoot := 0x10000, ferryLen := 64 }
    let s : State := { st with parts := [(0, P)] }
    let t : State := { s with launches := [] }
    s.part? 0 = some P ∧ P.ideUp = true ∧ P.fatal = false ∧ hostFrozen P = false ∧ part0.ideUp = false ∧
    hostFrozen { P with frozen := [⟨0, 0xFF, .host true 5⟩] } = true ∧
    (match hostReach s P none 0x200010 true with | (.at_ key, u) => !(mappers u key).isEmpty | _ => false) = true ∧
    (match hostReach t P none 0x200010 true with | (.at_ key, u) => (mappers u key).isEmpty | _ => false) = true ∧
    (hostReach s P none 0x700000 true).1 = .none_ ∧ canonical 0x700000 = true ∧ canonical 0x0040000000000000 = false ∧
    (match hostReach s P none 0x200010 false with | (.at_ _, _) => true | _ => false) = true ∧
    (0x200010 : Word).toNat % 65536 + 4 ≤ 65536 ∧ 64 < 61 + 4 ∧ 60 + 4 ≤ P.ferryLen.toNat % 2 ^ 48 ∧ (s.die 0).bbIdx < 65536 ∧
    (match walk s.mem P [] none (pageOf 0x200000) with | .ok t => t.res && t.e.w && !outside P t.e.key | _ => false) = true ∧
    (match walk s.mem P [] none (pageOf 0x700000) with | .ok _ => false | _ => true) = true := by
  refine ⟨by decide, by decide, by decide, by decide, by decide, by decide, by decide, by decide, by decide, by decide, by decide, by decide,
    by decide, by decide, by decide, by decide, by decide, by decide⟩

/-- HostAccesses: the weight store of a die while a launch steps, and without one. -/
theorem witness_host_weight :
    st.physDie? part0 3 = some 3 ∧ launchRuns st 0 = true ∧ launchRuns { st with launches := [] } 0 = false ∧
    inWeight (2 ^ 29 - 4) 4 = true ∧ inWeight (2 ^ 29 - 3) 4 = false ∧ weightBusy { st with tick := 600 } 3 64 4 = false := by decide

/-- MailboxesAndShootDowns: a request whose turn it is, one that a returned item waits for, and an invalidation that waits and begins. -/
theorem witness_mailbox :
    let g := { sysGroup with r := { sysGroup.r with s := [] } }
    let s := (outState (exec (.mbxrd plain (.dir 8) (.imm 0)) (with_ g))).modDie 0 (fun d => { d with mbox := [⟨0, 1002, 5, 0⟩] })
    let u := s.modDie 0 (fun d => { d with kept := [⟨4, 1001, 0, [1, 2]⟩] })
    let w : MboxWait := ⟨1001, 1003⟩
    (s.group? 1001).isSome = true ∧ (s.die 0).waits.filter (fun w => w.group == 1001) = [] ++ w :: [] ∧ waitChan s w = some 0 ∧
    (s.die 0).waits.find? (fun v => waitChan s v == some 0 && v.group == 1001) = some w ∧ keptFor s 0 1001 0 = none ∧
    (s.die 0).waits.find? (fun v => waitChan s v == some 0) = some w ∧ (s.die 0).mbox = [⟨0, 1002, 5, 0⟩] ∧ (tfind s.loads 1003).isSome = true ∧
    keptFor u 0 1001 0 = some ⟨4, 1001, 0, [1, 2]⟩ ∧ waitChan u w = some 0 ∧ (tryServe s 0 w).isSome = true := by
  refine ⟨by decide, by decide, by decide, by decide, by decide, by decide, by decide, by decide, by decide, by decide, by decide⟩

set_option maxRecDepth 20000 in
/-- MailboxesAndShootDowns: a request on the in-ring, with a record. -/
theorem witness_ring :
    let P : Part := { part0 with hostRoot := 0x10000, dbin := 0x200000 }
    let s0 := outState (exec (.mbxrd plain (.dir 8) (.imm 1)) (with_ { sysGroup with r := { sysGroup.r with s := [] } }))
    let s : State := { s0 with parts := [(0, P)], mem := wrL s0.mem (keyInter 0 29 0x200000) (leBytes 8 1 ++ leBytes 8 0 ++ leBytes 8 16) }
    waitChan s ⟨1001, 1003⟩ = some 1 ∧ (ringTake s 0).isSome = true := by
  refine ⟨by decide, by decide⟩

theorem witness_shoot_down :
    let t (b : Bool) (x : Option Bool) : TlbInv := ⟨.va, false, 0, 0x200000, 1, 0, 1, b, x⟩
    let g (b : Bool) (x : Option Bool) : Group := { placedGroup with tlbi := some (t b x) }
    (∀ b ∈ [false, true], ∀ x ∈ [none, some true], (with_ (g b x)).group? 1001 = some (g b x)) ∧ (t false none).step ≤ placedLaunch.c ∧
    lowestStep st 1002 placedLaunch = none ∧ (∀ e ∈ (with_ (g true none)).launches, (t true none).inFlight e.2 = false) ∧
    (∀ e ∈ (with_ (g true none)).loads, (t true none).reading (with_ (g true none)) (some 0) e.2 = false) := by
  refine ⟨fun b _ x _ => with_group _, by decide, by decide, by decide, by decide⟩

/-! ### Contexts, partitions and recovery -/

/-- The placed partition with its own tables at 0x10000 and a command in progress. -/
def commanded (code operand : Nat) (arg : Word) : Part :=
  { part0 with hostRoot := 0x10000, mode := 3, cmd := BitVec.ofNat 64 (code + operand * 2 ^ 32), cmdarg := arg, arg := arg }

/-- A launch 2000 in a phase, with an image at 0x200000. -/
def phased (ph : Phase) : Launch := { Launch.fresh 7 0 0 0x200000 0 [] with phase := ph, order := 2000, image := 0x200000 }

/-- A machine of one partition and one launch. -/
def only (P : Part) (l : Launch) : State := { st with parts := [(0, P)], launches := [(2000, l)], blocks := [], groups := [] }

set_option maxRecDepth 20000 in
/-- ContextSwitches: a slice that ran out while a rival waits, a launch named by PREEMPT in each phase, and a Pre-empt that waited. -/
theorem witness_preempt :
    (let P := { part0 with tslice := 1 }
     let s : State := { st with tick := 2000, parts := [(0, P)], launches := [(2000, phased .stepping), (2001, { phased .posted with ident := 8 })] }
     s.launch? 2000 = some (phased .stepping) ∧ s.part? 0 = some P ∧ sliceTicks P ≠ 0 ∧ 0 + sliceTicks P ≤ s.tick ∧ rivalWaits s 2000 (phased .stepping) = true) ∧
    (let P (n : Nat) := commanded 1 n 0x200000
     (∀ n ∈ [6, 7], ∀ ph ∈ [Phase.stepping, .saved, .restoring, .completed], inProgress (only (P n) (phased ph)) 0 0x01 = some (P n) ∧ (P n).waiting = []) ∧
     (∀ ph ∈ [Phase.stepping, .saved, .restoring, .completed], (only (P 6) (phased ph)).byIdent 0 (P 6).operand = none ∧
       (only (P 7) (phased ph)).byIdent 0 (P 7).operand = some 2000 ∧ (only (P 7) (phased ph)).launch? 2000 = some (phased ph)) ∧
     heldPhase .completed = false ∧ (phased .stepping).mustCommit = false) ∧
    (let P : Part := { commanded 0x12 0 0 with waiting := [(7, 0x200000)] }
     (∀ ph ∈ [Phase.stepping, .restoring], (only P (phased ph)).part? 0 = some P) ∧
     P.waiting.find? (fun w => preemptNow (only P (phased .stepping)) 0 w.1 != .waits) = some (7, 0x200000) ∧
     preemptNow (only P (phased .stepping)) 0 7 = .begins 2000 ∧
     P.waiting.find? (fun w => preemptNow (only P (phased .restoring)) 0 w.1 != .waits) = none ∧ 0 ∈ (only P (phased .stepping)).dieList P) := by
  refine ⟨⟨by decide +kernel, by decide +kernel, by decide +kernel, by decide +kernel, by decide +kernel⟩,
    ⟨by decide +kernel, by decide +kernel, by decide +kernel, by decide +kernel⟩,
    by decide +kernel, by decide +kernel, by decide +kernel, by decide +kernel, by decide +kernel⟩

/-- ContextSwitches: a die that has drained the placed group. -/
theorem witness_save :
    let l := { placedLaunch with phase := .preempting }
    let s := ((with_ { placedGroup with run := none }).modLaunch 1002 (fun _ => l)).modDie 0 (fun d => { d with save := some 1002 })
    (s.die 0).save = some 1002 ∧ s.part? 0 = some part0 ∧ s.launch? 1002 = some l ∧ l.part = 0 ∧ s.partOfDie 0 = some 0 ∧
    drained s 1002 0 l = true ∧ ((groupsHere s 1002 0).map Prod.fst) = [1001] := by
  refine ⟨by decide +kernel, by decide +kernel, by decide +kernel, by decide +kernel, by decide +kernel, by decide +kernel, by decide +kernel⟩

/-- A saved context without blocks. -/
def emptySaved (P : Part) : Saved := Saved.fresh (only P (phased .saved)) P 2000 0x200000

/-- A launch that every die of the first row has reported. -/
def reportedBy (ph : Phase) (image : Word) : Launch := { phased ph with image := image, reports := (List.range 30).map (fun p => (p, none)) }

/-- The partition of one row that saves launch 2000. -/
def savingPart : Part := { commanded 1 7 0x200000 with y1 := 0, saved := [emptySaved part0] }

/-- The machine of one row whose own tables stand where the placed ones did. -/
def rowOnly (P : Part) (l : Launch) : State :=
  { only P l with mem := st.mem.map (fun c => (c.1 - keyInter 0 29 0 + keyInter 0 0 0, c.2)) }

set_option maxRecDepth 20000 in
/-- ContextSwitches: an image that can be written and one that cannot. -/
theorem witness_image :
    reportedIn (rowOnly savingPart (reportedBy .preempting 0x200000)) 0 savingPart .preempting = some (2000, reportedBy .preempting 0x200000) ∧
    reportedIn (rowOnly savingPart (reportedBy .preempting 0x700000)) 0 savingPart .preempting = some (2000, reportedBy .preempting 0x700000) ∧
    savedOf savingPart.saved 2000 = some (emptySaved part0) := by
  refine ⟨by decide +kernel, by decide +kernel, by decide +kernel⟩

theorem witness_image_room :
    (imageBytes (rowOnly savingPart (reportedBy .preempting 0x200000)) savingPart 2000 (reportedBy .preempting 0x200000) (emptySaved part0)).length = 128 ∧
    (imageBytes (rowOnly savingPart (reportedBy .preempting 0x700000)) savingPart 2000 (reportedBy .preempting 0x700000) (emptySaved part0)).length = 128 ∧
    writable (rowOnly savingPart (reportedBy .preempting 0x200000)) savingPart 0x200000 128 = true ∧
    writable (rowOnly savingPart (reportedBy .preempting 0x700000)) savingPart 0x700000 128 = false := by
  refine ⟨by decide +kernel, by decide +kernel, by decide +kernel, by decide +kernel⟩

/-- ContextSwitches: a restore that ends. -/
theorem witness_resume :
    reportedIn (only savingPart (reportedBy .restoring 0x200000)) 0 savingPart .restoring = some (2000, reportedBy .restoring 0x200000) ∧
    holderOf (only savingPart (reportedBy .restoring 0x200000)) 2000 = some (0, emptySaved part0) := by
  refine ⟨by decide +kernel, by decide +kernel⟩

/-- A launch 2000 that is restored from `va`. -/
def loading (va : Word) : Launch := { phased .restoring with image := va }

/-- The header of the image that a save of it writes, and the saved context with that image. -/
def goodImage : List Byte := headerImage (only (commanded 2 0 0x200000) (loading 0x200000)) part0 (loading 0x200000) (emptySaved part0) 128
def imaged : Saved := { emptySaved part0 with bytes := goodImage }

/-- The whole partition that restores launch 2000 from `va`. -/
def heldPart (va : Word) : Part := { commanded 2 0 va with saved := [imaged] }

/-- A machine that restores launch `l` on die 0 from `va`, where `h` stands at 0x200000. -/
def restoringAt (h : List Byte) (va : Word) (l : Launch) : State :=
  let s := only (heldPart va) l
  ({ s with mem := wrL s.mem (keyInter 0 29 0x200000) h }).modDie 0 (fun d => { d with load := some 2000 })

/-- ContextSwitches: a restore that begins, and one whose image names nothing. -/
theorem witness_restores :
    (∀ a, inProgress (restoringAt goodImage a (phased .saved)) 0 0x02 = some (heldPart a)) ∧
    (∀ a, (heldPart a).busy = none ∧ (heldPart a).arg = a) ∧
    savedAt (restoringAt goodImage 0x700000 (phased .saved)) 0 (heldPart 0x700000) 0x700000 = none ∧
    savedAt (restoringAt goodImage 0x200000 (phased .saved)) 0 (heldPart 0x200000) 0x200000 = some 2000 ∧
    (match (restoringAt goodImage 0x200000 (phased .saved)).readVa (heldPart 0x200000) none 0x200000 8 with
      | some h => (restoringAt goodImage 0x200000 (phased .saved)).launches.filter (fun e =>
          e.2.phase == .saved && e.2.part == 0 && e.2.ident.toNat == fieldN h 4 4) == [(2000, phased .saved)]
      | none => false) = true ∧
    steppingOrSent (restoringAt goodImage 0x200000 (phased .saved)) 0 < 16 := by
  refine ⟨fun a => rfl, fun a => ⟨rfl, rfl⟩, by decide +kernel, by decide +kernel, by decide +kernel, by decide +kernel⟩

/-- ContextSwitches: a die that restores, with an image without a page, one that does not fit the partition, and one that does. -/
theorem witness_restore :
    let s := restoringAt goodImage 0x200000 (loading 0x200000)
    (s.die 0).load = some 2000 ∧ s.part? 0 = some (heldPart 0x200000) ∧ s.launch? 2000 = some (loading 0x200000) ∧ s.partOfDie 0 = some 0 ∧
    holderOf s 2000 = some (0, imaged) ∧ imaged.bytes.length = 128 ∧
    (restoreBlocks 2000 (loading 0x200000) { imaged with got := goodImage } (heldPart 0x200000)
      (imaged.blocks.filter (fun e => shiftDie imaged (heldPart 0x200000) (coreDie e.2.core) == 0)) s).isSome = true := by
  refine ⟨by decide +kernel, by decide +kernel, by decide +kernel, by decide +kernel, by decide +kernel, by decide +kernel, by decide +kernel⟩

theorem witness_restore_header :
    (restoringAt goodImage 0x700000 (loading 0x700000)).readVa (heldPart 0x700000) none 0x700000 128 = none ∧
    (restoringAt goodImage 0x200000 (loading 0x200000)).readVa (heldPart 0x200000) none 0x200000 128 = some goodImage ∧
    headerOk (restoringAt goodImage 0x200000 (loading 0x200000)) (heldPart 0x200000) (loading 0x200000) imaged goodImage = true ∧
    headerOk (restoringAt goodImage 0x200000 (loading 0x200000)) (heldPart 0x200000) (loading 0x200000) imaged (goodImage.set 4 9) = false := by
  refine ⟨by decide +kernel, by decide +kernel, by decide +kernel, by decide +kernel⟩

/-- ContextSwitches: a launch that TERMINATE names, in each phase. -/
theorem witness_terminate :
    let P (n : Nat) := commanded 3 n 0
    inProgress (only (P 6) (phased .saved)) 0 0x03 = some (P 6) ∧ (only (P 6) (phased .saved)).byIdent 0 (P 6).operand = none ∧
    (∀ ph ∈ [Phase.stepping, .saved, .posted, .broadcast, .completed, .rejected, .terminated],
      inProgress (only (P 7) (phased ph)) 0 0x03 = some (P 7) ∧ (only (P 7) (phased ph)).byIdent 0 (P 7).operand = some 2000 ∧
      (only (P 7) (phased ph)).launch? 2000 = some (phased ph)) := by
  refine ⟨by decide +kernel, by decide +kernel, by decide +kernel⟩

/-- A staged layout of two bands, and one whose second band is a single row. -/
def twoBands (y : Nat) : List Staged :=
  [⟨0x100, layoutWord ⟨0, y, 0, true, 0⟩⟩, ⟨0x108, layoutWord ⟨y + 1, 29, 1, true, 0⟩⟩]

set_option maxRecDepth 20000 in
/-- PartitionCommands: layouts that are refused, that a running launch holds up, and that take effect. -/
theorem witness_layout :
    let P (code y : Nat) : Part := { commanded code 0 0x200000 with staged := twoBands y }
    (∀ c ∈ [0x10, 0x11], ∀ y ∈ [14, 28], inProgress (only (P c y) (phased .stepping)) 0 c = some (P c y)) ∧
    layoutAllowed (only (P 0x10 28) (phased .stepping)) (P 0x10 28) = false ∧
    (∀ ph ∈ [Phase.stepping, .completed], layoutAllowed (only (P 0x10 14) (phased ph)) (P 0x10 14) = true ∧
      (affected (only (P 0x10 14) (phased ph)) (stagedLayouts (only (P 0x10 14) (phased ph)) (P 0x10 14))).any
        (launchRuns (only (P 0x10 14) (phased ph))) = (ph == .stepping)) := by
  refine ⟨by decide +kernel, by decide +kernel, by decide +kernel⟩

set_option maxRecDepth 20000 in
theorem witness_force :
    let P : Part := { commanded 0x11 0 0x200000 with staged := twoBands 14, y1 := 0 }
    let on (s : State) (f : Phase → Bool) : List (Nat × Launch) :=
      s.launches.filter (fun e => (affected s (stagedLayouts s P)).contains e.2.part && f e.2.phase)
    (∀ ph ∈ [Phase.stepping, .saved], inProgress (only P (phased ph)) 0 0x11 = some P ∧ layoutAllowed (only P (phased ph)) P = true ∧
      on (only P (phased ph)) (fun p => p == .preempting || p == .restoring) = []) ∧
    on (only P (phased .stepping)) (· == .stepping) = [(2000, phased .stepping)] ∧ (only P (phased .stepping)).part? 0 = some P ∧
    on (only P (phased .saved)) (· == .stepping) = [] ∧ (∀ e ∈ on (only P (phased .saved)) (· == .saved), e.2.applying = []) := by
  refine ⟨by decide +kernel, by decide +kernel, by decide +kernel, by decide +kernel, by decide +kernel⟩

/-- Guest settings 0 and 1 with 3 LLC ways each, the second's starting at way `n`. -/
def ways (n : Nat) : List Staged := [⟨0x210, 7⟩, ⟨0x250, BitVec.ofNat 64 (7 * 2 ^ n)⟩]

/-- PartitionCommands: masks that meet and masks that do not, a reset, and masters that are frozen. -/
theorem witness_commands :
    (∀ n ∈ [2, 3], inProgress (only { commanded 0x12 0 0 with staged := ways n } (phased .completed)) 0 0x12 = some { commanded 0x12 0 0 with staged := ways n } ∧
      masksOk (stagedGuests { commanded 0x12 0 0 with staged := ways n }) = decide (n = 3)) ∧
    (inProgress (only (commanded 0x20 0 0) (phased .completed)) 0 0x20 = some (commanded 0x20 0 0) ∧
      openLaunches (only (commanded 0x20 0 0) (phased .completed)) 0 = []) ∧
    (∀ c ∈ [0x30, 0x31], ∀ f ∈ [[], [⟨0, 0xFF, .host true 5⟩], [⟨0, 0xFF, .host false 5⟩]],
      inProgress (only { commanded c 0xFF0000 0 with frozen := f } (phased .completed)) 0 c = some { commanded c 0xFF0000 0 with frozen := f } ∧
      namedFrozen (only { commanded c 0xFF0000 0 with frozen := f } (phased .completed)) { commanded c 0xFF0000 0 with frozen := f } = f.head?) := by
  refine ⟨by decide +kernel, by decide +kernel, by decide +kernel⟩

/-- PartitionCommands: an operation that is frozen, whose launch is open. -/
theorem witness_frozen :
    let s0 := issued memGroup (.cpy plain .l2l .lo .now (.dir 1)) (copyBlock 1024 2048)
    ∀ c ∈ [0x30, 0x31],
      let P : Part := { commanded c 0x010000 0 with frozen := [⟨0, 1, .engine 1003⟩] }
      let s : State := { s0 with parts := [(0, P)] }
      inProgress s 0 c = some P ∧ namedFrozen s P = some ⟨0, 1, .engine 1003⟩ ∧
      ((tfind (finishCommand (unfreeze s 0 ⟨0, 1, .engine 1003⟩) 0 0).ops 1003).map (fun op => opLid s op)) = some (some 1002) := by decide +kernel

/-- A partition that asks for a report with its nonce at `a`. -/
def reporting (a : Word) : State := only (commanded 0x40 0 a) (phased .completed)

/-- PartitionCommands: a nonce that reads and one that does not; a report with a page and one without. -/
theorem witness_report :
    (∀ a, inProgress (reporting a) 0 0x40 = some (commanded 0x40 0 a)) ∧
    ((reporting 0x200000).readVa (commanded 0x40 0 0x200000) none 0x200000 32).isSome = true ∧
    ((reporting 0x20FFE0).readVa (commanded 0x40 0 0x20FFE0) none 0x20FFE0 32).isSome = true ∧
    (reporting 0x700000).readVa (commanded 0x40 0 0x700000) none 0x700000 32 = none ∧
    writable (reporting 0x200000) (commanded 0x40 0 0x200000) 0x200020 256 = true ∧
    writable (reporting 0x20FFE0) (commanded 0x40 0 0x20FFE0) 0x210000 256 = false := by
  refine ⟨fun a => rfl, by decide +kernel, by decide +kernel, by decide +kernel, by decide +kernel, by decide +kernel⟩

/-- PartitionCommands: a tier move that is frozen. -/
theorem witness_frozen_move :
    ∀ c ∈ [0x30, 0x31],
      let P : Part := { commanded c 0x010000 0 with frozen := [⟨0, 1, .move 9⟩] }
      let m : Move := { moving 0x200100 0x400000 with phase := .frozen 0x400000 true 0 }
      let s : State := { st.modLaunch 1002 (fun l => { l with moves := [m] }) with parts := [(0, P)] }
      inProgress s 0 c = some P ∧ namedFrozen s P = some ⟨0, 1, .move 9⟩ ∧
      moveOf (finishCommand (unfreeze s 0 ⟨0, 1, .move 9⟩) 0 0) 9 = some (1002, m) := by decide +kernel

/-- PartitionCommands: a block that a debug stop names, and a partition without its stream. -/
theorem witness_debug_stop :
    let P : Part := { part0 with ideUp := true }
    let s : State := { st with parts := [(0, P)] }
    s.part? 0 = some P ∧ s.physDie? P ((0x10000 : BitVec 64).extractLsb' 0 16).toNat = some 0 ∧
    ((0x10000 : BitVec 64).extractLsb' 16 16).toNat < Config.coresPerDie ∧
    (s.blocksOn (coreKey 0 ((0x10000 : BitVec 64).extractLsb' 16 16).toNat)).find?
      (fun e => e.2.slot == ((0x10000 : BitVec 64).extractLsb' 32 2).toNat) = some (1000, placedBlock) ∧
    st.part? 0 = some part0 ∧ part0.ideUp = false ∧ part0.mode ≠ 3 := by
  refine ⟨by decide +kernel, by decide +kernel, by decide +kernel, by decide +kernel, by decide +kernel, by decide +kernel, by decide +kernel⟩

/-- A group with two shadows. -/
def shadowed : Group :=
  { placedGroup with shadows := [⟨200, placedGroup.r, [], 0, [], [], 5⟩, ⟨100, placedGroup.r, [], 0, [], [], 2⟩] }

/-- Recovery: alarms after the later shadow, and before both. -/
theorem witness_shadows :
    shadowed.shadows ≠ [] ∧ 200 + Config.strikeReport ≤ 296 ∧ (∀ h ∈ shadowed.shadows, 195 < h.cycle + Config.strikeReport) ∧ shadowed.launch.isSome = true := by
  decide

/-- Recovery: a worn core with a spare and one without, a dispatcher alone and a launch's block, and a block before and after its move. -/
theorem witness_retire :
    (∀ n ∈ [0, Config.spareCores],
      let s := (st.modCore (coreKey 0 1) (fun c => { c with alarms := List.replicate 16 0 })).modDie 0 (fun d => { d with spares := n })
      (s.core (coreKey 0 1)).fenced = false ∧ (s.core (coreKey 0 1)).retiring = false ∧ worn s (coreKey 0 1) = true ∧
      decide (Config.spareCores ≤ (s.die (coreDie (coreKey 0 1))).spares) = decide (n ≠ 0)) ∧
    (∃ e ∈ st.blocksOn (coreKey 0 1), e.2.launch ≠ none) ∧ (∀ e ∈ st.blocksOn (coreKey 0 0), e.2.launch = none) ∧
    (∀ m ∈ [false, true],
      (st.setBlock 1000 { placedBlock with moving := true, moved := m }).block? 1000 = some { placedBlock with moving := true, moved := m }) := by
  refine ⟨by decide +kernel, by decide +kernel, by decide +kernel, by decide +kernel⟩

/-- Recovery: a partition whose launches are all over, a die of it, stacks whose parity group has lost a member and has not, and a launch at
a waystation. -/
theorem witness_contain :
    let s := only part0 (phased .completed)
    s.part? 0 = some part0 ∧ s.partOfDie 0 = some 0 ∧ st.launch? 1002 = some placedLaunch ∧ 12 ≤ 24 ∧
    (let t : State := { s with lost := [1] }
     (∀ w ∈ [2, 7], w < 900 ∧ w ∉ t.lost ∧ t.partOfDie w = some 0) ∧ (∃ v ∈ t.lost, v / 5 = 2 / 5) ∧ ∀ v ∈ t.lost, v / 5 ≠ 7 / 5) := by decide +kernel

end Sys2Proof.Tests
end

/-! The values of QTOPO on a partition that covers the panel (R16). -/

namespace Sys2Proof.Machine

/-! ## The dies of a whole-panel partition -/

theorem Part.ways_of_wholePanel {P : Part} (hy0 : P.y0 = 0) (hy1 : P.y1 = 29) : P.ways = 900 := by
  simp [Part.ways, hy0, hy1]

/-- The band of such a partition holds every disabled die, so each one counts, wherever it stands (R13, R14). -/
theorem State.dieCount_of_wholePanel {s : State} {P : Part} (hy0 : P.y0 = 0) (hy1 : P.y1 = 29)
    (hlt : ∀ q ∈ s.disabled, q < 900) : s.dieCount P = 900 - s.disabled.length := by
  have inBand : s.disabled.filter (fun q => decide (30 * P.y0 ≤ q) && decide (q < 30 * (P.y1 + 1))) = s.disabled :=
    List.filter_eq_self.mpr fun q hq => by simp [hy0, hy1, hlt q hq]
  rw [State.dieCount, Part.ways_of_wholePanel hy0 hy1, inBand]

/-! ## The selectors that do not read B (R381) -/

section
variable (s : State) (P : Part) (p : Nat) (b : Word)

@[simp] theorem topoValue_grade : topoValue s P p 0 b = if s.disabled.isEmpty then 900 else 850 := rfl

@[simp] theorem topoValue_dies : topoValue s P p 1 b = s.dieCount P := rfl

@[simp] theorem topoValue_columns : topoValue s P p 2 b = 30 := rfl

@[simp] theorem topoValue_rows : topoValue s P p 3 b = ((s.dieCount P : Int) + 29) / 30 := rfl

@[simp] theorem topoValue_cores : topoValue s P p 9 b = 448 := rfl

@[simp] theorem topoValue_lastRow :
    topoValue s P p 10 b = s.dieCount P - 30 * (topoValue s P p 3 b - 1) := rfl

@[simp] theorem topoValue_weightStore : topoValue s P p 11 b = 536870912 := rfl

end

/-! ## The table of the two grades -/

/-- Settles O42: the number of disabled dies, wherever they stand, fixes the count of dies, and with it the rows and the last row. -/
theorem wholePanelTopology : Obligations.WholePanelTopology := by
  intro s P p b hy0 hy1
  constructor
  case left =>
    intro noneDisabled
    have grade : s.disabled.isEmpty = true := by simp [noneDisabled]
    have dies : s.dieCount P = 900 := by
      simpa [noneDisabled] using State.dieCount_of_wholePanel (s := s) hy0 hy1 (by simp [noneDisabled])
    simp [grade, dies]
  case right =>
    intro fifty _ hlt
    have grade : s.disabled.isEmpty = false :=
      List.isEmpty_eq_false_iff.mpr (List.ne_nil_of_length_pos (by omega))
    have dies : s.dieCount P = 850 := by
      simpa [fifty] using State.dieCount_of_wholePanel hy0 hy1 hlt
    simp [grade, dies]

end Sys2Proof.Machine

/-! Register windows and the length of a run (R44, R58): checks that come before an instruction executes. -/

namespace Sys2Proof.Machine

/-! ## Every instruction word passes the checks of R279 -/

/-- An instruction with common fields is issued: its meaning is the body of an issue under those fields. -/
theorem exec_eq_issue {i : Instr} {c : Ctl} (h : ctlOf i = some c) (s : State) :
    ∃ always body, exec i s = issue i c always body s := by
  cases i <;> cases h <;> (unfold exec; exact ⟨_, _, rfl⟩)

/-- A trap of the checks is all that the instruction does. -/
theorem exec_of_checkIssue {s : State} {gid : Nat} {g : Group} {c : Ctl} {i : Instr} {t : TrapInfo} (hi : ctlOf i = some c)
    (hc : s.cur = some gid) (hg : s.group? gid = some g) (hr : g.retired = false) (ht : checkIssue g g.runNow c i = some t) :
    exec i s = .next (s.syncTrap gid t) := by
  obtain ⟨always, body, he⟩ := exec_eq_issue hi s
  rw [he, issue_trap hc hg hr ht]

/-! ## The window check (R58) -/

section
variable {g : Group} {run : Run} {c : Ctl} {i : Instr}

/-- A name above the top of its window is outside it. -/
theorem inWindow_of_above {u : Use} {n : Nat} (hn : u.num = some n)
    (above : if u.vec then (min g.va 128 : Int) - 1 < n else (g.sa : Int) - 1 < n) : g.inWindow u = false := by
  cases hv : u.vec with
  | true =>
    have top : g.winV ≤ n := by
      simp only [hv, if_true, Group.winV] at above ⊢
      omega
    simpa [Group.inWindow, hn, hv] using top
  | false =>
    have top : g.winS ≤ n := by
      simp only [hv, Bool.false_eq_true, if_false, Group.winS] at above ⊢
      omega
    simpa [Group.inWindow, hn, hv] using top

/-- Pairs that start at even names pass the pair check (R284, R286). -/
theorem oddPair_of_even {us : List Use} (even : ∀ v ∈ us, v.even = true → ∀ m, v.num = some m → m % 2 = 0) :
    us.any (fun u => u.even && (u.num.map (fun n => n % 2 == 1)).getD false) = false := by
  rw [List.any_eq_false]
  intro v hv
  cases hn : v.num with
  | none => simp
  | some m => simpa using fun he => even v hv he m hn

/-- Past the checks of operands and level, the first name outside its window decides the trap. -/
theorem checkIssue_outside (even : ∀ v ∈ usesOf run.xs i, v.even = true → ∀ m, v.num = some m → m % 2 = 0)
    (inRun : runOut i (usesOf run.xs i) = false) (level : forbidden g.r.sys i = false) {u : Use} (hu : u ∈ usesOf run.xs i)
    (outside : g.inWindow u = false) : ∃ info, checkIssue g run c i = some { cause := 0x03, info := info } := by
  obtain ⟨w, first⟩ : ∃ w, (usesOf run.xs i).find? (fun u => !g.inWindow u) = some w :=
    Option.isSome_iff_exists.1 (List.find?_isSome.2 ⟨u, hu, by simp [outside]⟩)
  exact ⟨BitVec.ofNat 64 w.pos, by simp [checkIssue, oddPair_of_even even, inRun, level, first]⟩

end

/-- Settles O23: the trap is the window check's, which every instruction word passes through before its meaning. -/
theorem registerWindows : Obligations.RegisterWindows := by
  refine ⟨fun g n l => ⟨rfl, rfl⟩, ?_, fun g wbv wbs m => ⟨rfl, rfl, rfl⟩⟩
  intro s gid g c i u n hi hc hg hr level inRun even hu hn above
  obtain ⟨info, trap⟩ := checkIssue_outside (c := c) even inRun level hu (inWindow_of_above hn above)
  exact ⟨info, exec_of_checkIssue hi hc hg hr trap⟩

/-! ## The length of a run (R44) -/

/-- After 24 instructions a run reaches a trap and not a word: nothing is fetched. -/
theorem reach_full {s : State} {g : Group} (full : 24 ≤ g.runNow.count) : reach s g = (.error { cause := 0x04 }, s) := by
  rw [reach, if_pos full]

/-- The turn of a group whose run reaches a trap, with its slot free and no notice to take before it (R230). -/
theorem issueTurn_of_reach_error {s s1 : State} {gid : Nat} {g : Group} {t : TrapInfo} (hg : s.group? gid = some g)
    (hr : g.retired = false) (ht : g.tlbi = none) (hrun : g.run.isSome = true) (hn : State.takeable g = [])
    (free : slotFree s g 0 = true) (reached : reach s g = (.error t, s1)) :
    issueTurn gid s = .next (s1.syncTrap gid t) := by
  have granted : g.run.isNone = false := by simpa using hrun
  simp [issueTurn, hg, hr, ht, granted, hn, free, reached]

/-- Settles O24: the twenty-fifth instruction is never fetched, so neither its word nor its guard matters. -/
theorem runLength : Obligations.RunLength := by
  intro s gid g r ts ha hg hr ht hrun full hn free
  have count : g.runNow.count = r.count := by simp [Group.runNow, hrun]
  let s1 : State := { s with agenda := ts, cur := some gid }
  calc step s
    _ = issueTurn gid s1 := by simp only [step, nextTurn, ha, turn, s1]
    _ = .next (s1.syncTrap gid { cause := 0x04 }) :=
      issueTurn_of_reach_error hg hr ht (by simp [hrun]) hn free (reach_full (by omega))

end Sys2Proof.Machine

/-! The predicate family (R281, R367, R368): PAND, POR, PXOR, PANDN and PMOV. -/

namespace Sys2Proof.Machine

/-! ## Reading and writing predicate registers (R281) -/

section
variable (g : Group) (x : Mask)

@[simp] theorem Group.getP_zero : g.getP 0 = BitVec.allOnes 32 := rfl

@[simp] theorem Group.setP_zero : g.setP 0 x = g := rfl

theorem Group.getP_setP {m : Nat} (hm : m ≠ 0) (n : Nat) : (g.setP m x).getP n = if n = m then x else g.getP n := by
  by_cases hn : n = 0
  · subst hn
    rw [if_neg hm.symm, getP_zero, getP_zero]
  · simp only [getP, setP, if_neg hm, if_neg hn, tget_tput]

end

/-! ## Instructions that change their group alone, and nothing without an active lane (R39) -/

section
variable {i : Instr} {c : Ctl} {f : Ctx → Group} (meaning : ∀ s, exec i s = issue i c false (fun x => x.done (f x)) s)
include meaning

theorem changes_of_done {r : State → Group → Group} (value : ∀ s gid g, f (ctxOf s gid g c) = r s g) :
    Changes i c r := by
  intro s gid g ready
  rw [meaning, issue_active ready, after, ← value s gid g]
  rfl

theorem exec_of_no_lane {s : State} {gid : Nat} {g : Group} (ready : Ready s gid g c i) (idle : g.active c = 0) :
    exec i s = .next (finish s.tickSeq gid i c 0 .seq 0) := by
  rw [meaning, issue_idle ready idle, idle]

end

/-! ## What each instruction issues (R367) -/

section
variable (c : Ctl) (d a b : BitVec 4) (s : State)

theorem exec_pand : exec (.pand c d a b) s =
    issue (.pand c d a b) c false (fun x => x.done (x.g.setP d.toNat (x.g.getP a.toNat &&& x.g.getP b.toNat))) s := rfl

theorem exec_por : exec (.por c d a b) s =
    issue (.por c d a b) c false (fun x => x.done (x.g.setP d.toNat (x.g.getP a.toNat ||| x.g.getP b.toNat))) s := rfl

theorem exec_pxor : exec (.pxor c d a b) s =
    issue (.pxor c d a b) c false (fun x => x.done (x.g.setP d.toNat (x.g.getP a.toNat ^^^ x.g.getP b.toNat))) s := rfl

theorem exec_pandn : exec (.pandn c d a b) s =
    issue (.pandn c d a b) c false (fun x => x.done (x.g.setP d.toNat (x.g.getP a.toNat &&& ~~~(x.g.getP b.toNat)))) s := rfl

/-- The source of PMOV: a predicate register, or the low half of a scalar register. -/
def Ctx.psrc (x : Ctx) : PSrc → Mask
  | .pred p => x.g.getP p.toNat
  | .sca r => (x.sreg r).extractLsb' 0 32

theorem exec_pmov (a : PSrc) :
    exec (.pmov c d a) s = issue (.pmov c d a) c false (fun x => x.done (x.g.setP d.toNat (x.psrc a))) s := by
  cases a <;> rfl

theorem psrc_sca (gid : Nat) (g : Group) (r : SReg) : (ctxOf s gid g c).psrc (.sca r) = (g.sval r).setWidth 32 := by
  rw [Ctx.psrc, ctxOf, sreg_mk, BitVec.setWidth_eq_extractLsb' (by decide)]

end

/-! ## The family (R368) -/

/-- Settles O3: each operation is one write to pD of a value that neither %live nor the guard enters, issued only with an active lane. -/
theorem predicateOperations : Obligations.PredicateOperations := by
  refine ⟨?active, ?idle, fun g m n x => ⟨g.getP_zero, g.setP_zero x, fun hm => g.getP_setP x hm n⟩⟩
  case active =>
    intro c d a b r
    exact ⟨changes_of_done (exec_pand c d a b) fun _ _ _ => rfl,
      changes_of_done (exec_por c d a b) fun _ _ _ => rfl,
      changes_of_done (exec_pxor c d a b) fun _ _ _ => rfl,
      changes_of_done (exec_pandn c d a b) fun _ _ _ => rfl,
      changes_of_done (fun s => exec_pmov c d s (.pred a)) fun _ _ _ => rfl,
      changes_of_done (fun s => exec_pmov c d s (.sca r)) fun s gid g => by rw [psrc_sca, ctxOf]⟩
  case idle =>
    rintro c i (⟨d, a, b, rfl | rfl | rfl | rfl⟩ | ⟨d, a, rfl⟩)
    · exact ⟨fun _ _ _ => exec_of_no_lane (exec_pand c d a b), rfl⟩
    · exact ⟨fun _ _ _ => exec_of_no_lane (exec_por c d a b), rfl⟩
    · exact ⟨fun _ _ _ => exec_of_no_lane (exec_pxor c d a b), rfl⟩
    · exact ⟨fun _ _ _ => exec_of_no_lane (exec_pandn c d a b), rfl⟩
    · exact ⟨fun _ _ _ => exec_of_no_lane (fun s => exec_pmov c d s a), rfl⟩

end Sys2Proof.Machine

/-! The round trip of the encoding (R277 to R290): assembled from the law of each instruction. -/

namespace Sys2Proof

section
open Laws.RoundTrip

-- In one text with the tests, the proofs below would wait in memory while the tests are evaluated: this one waits for them instead.
set_option Elab.async false in
/-- The law of the round trip holds of every instruction, in the order of the opcode table. -/
theorem roundTrip_statement (i : Instr) : Laws.RoundTrip.Statement i := by
  cases i
  exacts [nop _, bra _ _, brz _ _ _, brnz _ _ _, brx _ _, call _ _ _ _, callx _ _ _ _, ret _, exit _, pass _ _, detach _,
    brk _, trap _ _, rett _, sadd _ _ _ _ _, ssub _ _ _ _ _, smul _ _ _ _ _, smulh _ _ _ _ _, sdiv _ _ _ _ _, srem _ _ _ _ _,
    sand _ _ _ _ _, sor _ _ _ _ _, sxor _ _ _ _ _, sshl _ _ _ _ _, sshr _ _ _ _ _, ssar _ _ _ _ _, smin _ _ _ _ _,
    smax _ _ _ _ _, scmp _ _ _ _ _ _, ssel _ _ _ _ _ _, smov _ _ _ _, smovi _ _ _ _, smovh _ _ _ _, spopc _ _ _ _,
    sclz _ _ _ _, sffs _ _ _ _, sbfx _ _ _ _ _, sbfi _ _ _ _ _, slea _ _ _ _ _, pand _ _ _ _, por _ _ _ _, pxor _ _ _ _,
    pandn _ _ _ _, pmov _ _ _, vadd _ _ _ _ _, vsub _ _ _ _ _, vmul _ _ _ _ _, vmulh _ _ _ _ _, vmad _ _ _ _ _,
    vmin _ _ _ _ _, vmax _ _ _ _ _, vabs _ _ _ _, vand _ _ _ _ _, vor _ _ _ _ _, vxor _ _ _ _ _, vshl _ _ _ _ _,
    vshr _ _ _ _ _, vsar _ _ _ _ _, vsadd _ _ _ _ _, vpopc _ _ _ _, vclz _ _ _ _, vbfx _ _ _ _ _, vbfi _ _ _ _ _,
    vsel _ _ _ _ _ _, vcmp _ _ _ _ _ _, vmov _ _ _ _, vmovi _ _ _ _, fadd _ _ _ _ _, fsub _ _ _ _ _, fmul _ _ _ _ _,
    ffma _ _ _ _ _, fmin _ _ _ _ _, fmax _ _ _ _ _, fdiv _ _ _ _ _, fsqrt _ _ _ _, frcp _ _ _ _, frsq _ _ _ _, fex2 _ _ _ _,
    flg2 _ _ _ _, fsin _ _ _ _, fcos _ _ _ _, frnd _ _ _ _, fcmp _ _ _ _ _, hadd _ _ _ _ _ _, hmul _ _ _ _ _ _,
    hfma _ _ _ _ _ _, cvt _ _ _ _ _ _ _, cvtp _ _ _ _ _ _ _, dqcvt _ _ _ _ _ _ _ _ _, qscl _ _ _ _ _ _, qcvt _ _ _ _ _ _ _,
    qcmp _ _ _ _, vperm _ _ _ _ _, vbcast _ _ _ _ _, vred _ _ _ _ _, vscan _ _ _ _ _, ldl _ _ _ _, stl _ _ _ _ _ _,
    stla _ _ _ _ _, sldl _ _ _ _, sstl _ _ _ _ _ _, ldg _ _ _ _ _ _, stg _ _ _ _ _ _, stga _ _ _ _ _, sldg _ _ _ _ _ _,
    sstg _ _ _ _ _ _, ldw _ _ _ _, pfg _ _, pgreq _ _, cpy _ _ _ _ _, cpym _ _ _ _ _, land _ _ _ _, gth _ _ _ _ _,
    sct _ _ _ _, cpyw _ _ _, btst _ _ _, btdem _ _, btpro _ _, mma _ _ _ _ _, mmq _ _ _ _ _, mzero _ _ _, mlda _ _ _ _,
    mdrn _ _ _ _ _ _, ctld _ _ _, spawn _ _ _ _ _, lnch _ _, mbxrd _ _ _, mbxwr _ _ _, rdsr _ _ _, wrsr _ _ _, rdcnt _ _ _,
    qtopo _ _ _ _, tlbinv _ _ _ _ _ _, ctxsv _ _, ctxld _ _, launchPacketPost _ _ _, launchBroadcast _, launchUnitPlace _,
    launchStart _, launchComplete _, runGrant _ _, deferredTrapTake _, writeHoldExpiry _, writeArrival _ _, readServe _ _ _,
    loadFill _, commitDeclare _, commitApply _ _ _, commitVisible _ _, localClose _ _, stepOverrun _, spawnItemArrival _ _,
    groupPlace _, asyncComplete _, matrixKstep _, landingArrival _ _, mailboxDeliver _, pageWalk _ _ _, tlbinvBegin _,
    tlbinvComplete _, tierCopyComplete _, ferrySend _ _, ferryArrival _ _ _, hostWrite _ _ _, hostRead _ _ _,
    saveSequence _ _, saveImageAssemble _, restoreDieReady _ _, restoreResume _, timeSliceExpiry _ _, preempt _, restore _,
    terminate _, layoutChange _, layoutChangeForce _, applyStaged _, partitionReset _, releaseFault _, releaseDiscard _,
    attestationReport _, debugStop _ _, counterReadLow _ _ _, registerWrite _ _ _ _, strikeAlarm _, waystationAlarm _,
    eccCorrected _ _ _ _, coreRetire _, blockMigrate _, poisonMark _ _ _, fecCorrection _ _, linkIntegrityFailure _ _ _,
    dieFatalError _ _ _, horizonTreeFailure _ _ _, clockCapChange _ _, bringUp _, weightRefreshEnd _ _,
    ideStreamEstablished _ _, migrationComplete _, laneCycleCount, unassignedOpcode _, corePowerGating _ _, linkRetraining _]

end

/-- Every instruction that is no event has a word. -/
theorem encode_isSome {i : Instr} (h : i.isEvent = false) : (encode i).isSome = true := by
  cases i <;> first | rfl | cases h

/-- Settles O43: an instruction has a word, and its word decodes to it by its own law. -/
theorem roundTrip : Obligations.RoundTrip := by
  intro i wf instr
  obtain ⟨w, hw⟩ := Option.isSome_iff_exists.1 (encode_isSome instr)
  exact ⟨w, hw, roundTrip_statement i w wf hw⟩

end Sys2Proof

/-! The scalar arithmetic, compares, selects, counts and bit fields (R388 to R397, R402). -/

namespace Sys2Proof.Machine

/-! ## Instructions that write one scalar register -/

section
variable {i : Instr} {c : Ctl} {d : SReg}

/-- An instruction whose body writes the scalar `d` writes it, with the value that its body computes. -/
theorem writesS_of_toS {v : State → Group → Word} (f : Ctx → Word)
    (meaning : ∀ s, exec i s = issue i c false (fun x => x.toS d (f x)) s)
    (value : i.WellFormed → ∀ s gid g, f (ctxOf s gid g c) = v s g) : WritesS i c d v := by
  intro s gid g ready
  rw [meaning, issue_active ready, ← value ready.wf s gid g]
  rfl

/-- An operation of the scalar tables: computed in 64 bits on narrowed operands, it is the one that the table gives in w bits. -/
theorem writesS_of_salu {ty : Ty} {a : SReg} {b : SSrc} {r : Group → Word} (F : Ctx → Word → Word → Word)
    (meaning : ∀ s, exec i s = issue i c false (fun x => x.salu ty d a b (F x)) s) (typed : i.WellFormed → ty.scalar = true)
    (law : ty.scalar = true → ∀ s gid g, extend ty (F (ctxOf s gid g c) (narrow ty (g.sval a)) (narrow ty (g.ssval b))) = r g) :
    WritesS i c d (fun _ g => r g) :=
  writesS_of_toS _ meaning fun wf s gid g => by rw [← law (typed wf) s gid g, ctxOf, sreg_mk, ssrc_mk]

end

theorem Ty.scalar_of_typed {c : Ctl} {ty : Ty} (h : typed c ty.int32or64 = none) : ty.scalar = true :=
  Ty.scalar_of_int (typed_ok h)

theorem int32or64_of_scmp {c : Ctl} {ty : Ty} {cond : Cond} {d a : SReg} {b : SSrc}
    (h : (Instr.scmp c ty cond d a b).WellFormed) : ty.int32or64 = true := by
  simp only [Instr.WellFormed, Instr.illFormed, firstBad_cons] at h
  obtain ⟨_, int, _⟩ := h
  exact int

/-! ## The address of SLEA (R402) -/

/-- The index of SLEA under its type. -/
def sleaIndex (ty : Ty) (y : Word) : Word :=
  match ty with
  | .i32 => (y.setWidth 32).signExtend 64
  | .n32 => (y.setWidth 32).setWidth 64
  | _ => y

theorem sleaIndex_eq (ty : Ty) (y : Word) :
    (if ty = .i32 then (y.extractLsb' 0 32).signExtend 64 else if ty = .n32 then (y.extractLsb' 0 32).zeroExtend 64 else y) =
      sleaIndex ty y := by
  cases ty <;> simp [sleaIndex, low_eq_setWidth]

theorem exec_slea {s : State} {gid : Nat} {g : Group} {c : Ctl} {ty : Ty} {d a : SReg} {b : SSrc}
    (h : Active s gid g c (.slea c ty d a b)) :
    exec (.slea c ty d a b) s =
      if canonical (g.sval a + sleaIndex ty (g.ssval b)) then
        .next (afterS s gid g c (.slea c ty d a b) d (g.sval a + sleaIndex ty (g.ssval b)))
      else .next (s.tickSeq.syncTrap gid { cause := 0x11, addr := g.sval a + sleaIndex ty (g.ssval b) }) := by
  change execSlea c ty d a b s = _
  simp only [execSlea, issue_active h, sreg_mk, ssrc_mk, sleaIndex_eq]
  cases canonical (g.sval a + sleaIndex ty (g.ssval b)) <;> rfl

/-- Settles O1: each operation computes on narrowed operands what its table gives in w bits. -/
theorem scalarResults : Obligations.ScalarResults := by
  refine ⟨fun c ty d a b => ?tables, fun c ty d a b cond sel => ?others⟩
  case tables =>
    refine ⟨?_, ?_, ?_, ?_, ?_, ?_, ?_, ?_, ?_, ?_, ?_, ?_, ?_, ?_⟩
    · exact writesS_of_salu (fun _ a b => a + b) (fun _ => rfl) typed_ok fun ht _ _ _ => salu_add ht _ _
    · exact writesS_of_salu (fun _ a b => a - b) (fun _ => rfl) typed_ok fun ht _ _ _ => salu_sub ht _ _
    · exact writesS_of_salu (fun _ a b => a * b) (fun _ => rfl) typed_ok fun ht _ _ _ => salu_mul ht _ _
    · exact writesS_of_salu (fun _ => mulHigh ty) (fun _ => rfl)
        Ty.scalar_of_typed fun ht _ _ _ => salu_mulHigh ht _ _
    · exact writesS_of_salu (fun _ => divide ty) (fun _ => rfl) Ty.scalar_of_typed fun ht _ _ _ => salu_div ht _ _
    · exact writesS_of_salu (fun _ => remainder ty) (fun _ => rfl) Ty.scalar_of_typed fun ht _ _ _ => salu_rem ht _ _
    · exact writesS_of_salu (fun _ a b => a &&& b) (fun _ => rfl) typed_ok fun ht _ _ _ => salu_and ht _ _
    · exact writesS_of_salu (fun _ a b => a ||| b) (fun _ => rfl) typed_ok fun ht _ _ _ => salu_or ht _ _
    · exact writesS_of_salu (fun _ a b => a ^^^ b) (fun _ => rfl) typed_ok fun ht _ _ _ => salu_xor ht _ _
    · exact writesS_of_salu (fun _ => shiftLeft (tyWidth ty)) (fun _ => rfl) typed_ok fun ht _ _ _ => salu_shl ht _ _
    · exact writesS_of_salu (fun _ => shiftRight (tyWidth ty)) (fun _ => rfl) typed_ok fun ht _ _ _ => salu_shr ht _ _
    · exact writesS_of_salu (fun _ => shiftArith ty) (fun _ => rfl) typed_ok fun ht _ _ _ => salu_sar ht _ _
    · exact writesS_of_salu (fun _ a b => if tyInt ty b < tyInt ty a then b else a) (fun _ => rfl)
        Ty.scalar_of_typed fun ht _ _ _ => salu_min ht _ _
    · exact writesS_of_salu (fun _ a b => if tyInt ty a < tyInt ty b then b else a) (fun _ => rfl)
        Ty.scalar_of_typed fun ht _ _ _ => salu_max ht _ _
  case others =>
    refine ⟨?scmp, ?ssel, ?spopc, ?sclz, ?sffs, ?sbfx, ?sbfi, fun s gid g ready => ⟨fun good => ?_, fun bad => ?_⟩⟩
    case scmp =>
      refine writesS_of_toS (fun x => if condHolds cond (cmpInt (tyInt ty (x.sreg a)) (tyInt ty (x.ssrc b))) then 1 else 0)
        (fun _ => rfl) fun wf s gid g => ?_
      have int := int32or64_of_scmp wf
      rw [← scmp_value int, ← scmp_value int, ctxOf, sreg_mk, ssrc_mk]
    case ssel =>
      refine writesS_of_toS (fun x => extend ty (if x.g.getP sel.toNat &&& x.g.r.live = 0 then x.ssrc b else x.sreg a))
        (fun _ => rfl) fun wf s gid g => ?_
      rw [← extend_eq (typed_ok wf), ctxOf, sreg_mk, ssrc_mk]
    case spopc =>
      refine writesS_of_toS (fun x => BitVec.ofNat 64 (popCount (tyWidth ty) (narrow ty (x.sreg a))))
        (fun _ => rfl) fun wf s gid g => ?_
      rw [← spopc_eq (typed_ok wf), ctxOf, sreg_mk]
    case sclz =>
      refine writesS_of_toS (fun x => BitVec.ofNat 64 (leadingZeros (tyWidth ty) (narrow ty (x.sreg a))))
        (fun _ => rfl) fun wf s gid g => ?_
      rw [← sclz_eq (typed_ok wf), ctxOf, sreg_mk]
    case sffs =>
      refine writesS_of_toS (fun x => firstOne (tyWidth ty) (narrow ty (x.sreg a)))
        (fun _ => rfl) fun wf s gid g => ?_
      rw [← sffs_eq (typed_ok wf), ctxOf, sreg_mk]
    case sbfx => exact writesS_of_salu (fun _ => fieldExtract ty (tyWidth ty)) (fun _ => rfl) typed_ok fun ht _ _ _ => sbfx_eq ht _ _
    case sbfi => exact writesS_of_salu (fun x => fieldInsert (tyWidth ty) (narrow ty (x.sreg d))) (fun _ => rfl) typed_ok fun ht _ _ _ => sbfi_eq ht _ _ _
    · exact (exec_slea ready).trans (if_pos good)
    · exact (exec_slea ready).trans (if_neg (Bool.eq_false_iff.1 bad))

end Sys2Proof.Machine

/-! From the bytes at a group's pc to the instruction that a step runs (R4, R278, R279). -/

namespace Sys2Proof

/-! ## Twelve bytes hold one word -/

/-- The bytes of a word from number `k` on, put together, are its bits from `8 k` on. -/
theorem getLsbD_foldr_bytes (w : IWord) (n k i : Nat) (hi : i < 96) :
    (((List.range' k n).map (fun j => w.extractLsb' (8 * j) 8)).foldr (fun (b : Byte) (acc : IWord) => (acc <<< 8) ||| b.zeroExtend 96) 0).getLsbD i =
      (decide (i < 8 * n) && w.getLsbD (8 * k + i)) := by
  induction n generalizing k i with
  | zero => simp
  | succ n ih =>
    rw [List.range'_succ, List.map_cons, List.foldr_cons, BitVec.getLsbD_or, BitVec.getLsbD_shiftLeft, ih _ _ (by omega)]
    by_cases low : i < 8
    · simp [low, hi, show i < 8 * (n + 1) by omega]
    · simp only [low, hi, BitVec.getLsbD_setWidth, BitVec.getLsbD_extractLsb', BitVec.zeroExtend, decide_true, decide_false,
        Bool.not_false, Bool.true_and, Bool.false_and, Bool.or_false]
      congr 1
      · simp only [decide_eq_decide]
        omega
      · congr 1
        omega

theorem length_bytesOfWord (w : IWord) : (bytesOfWord w).length = 12 := by simp [bytesOfWord]

@[simp] theorem wordOfBytes_bytesOfWord (w : IWord) : wordOfBytes (bytesOfWord w) = some w := by
  rw [wordOfBytes, if_neg (by simp [length_bytesOfWord]), List.take_of_length_le (by simp [length_bytesOfWord]), bytesOfWord,
    List.range_eq_range']
  refine congrArg some (BitVec.eq_of_getLsbD_eq fun i hi => ?_)
  rw [getLsbD_foldr_bytes w 12 0 i hi]
  simp [hi]

/-- The bytes of a well-formed instruction's word decode to it. -/
theorem decodeBytes_of_encode {i : Instr} {w : IWord} (wf : i.WellFormed) (hw : encode i = some w) :
    decodeBytes (bytesOfWord w) = some (.ok i, []) := by
  rw [decodeBytes, wordOfBytes_bytesOfWord, Option.map_some, roundTrip_statement i w wf hw,
    List.drop_of_length_le (by simp [length_bytesOfWord])]

namespace Machine

/-! ## The turn of a group -/

/-- Bytes that decode are the instruction that the run reaches, within 24 instructions (R44). -/
theorem reach_of_bytes {s t : State} {g : Group} {bs rest : List Byte} {i : Instr} (count : g.runNow.count < 24)
    (fetched : s.fetchFor g g.r.pc = (.ok bs, t)) (decoded : decodeBytes bs = some (.ok i, rest)) : reach s g = (.ok i, t) := by
  rw [reach, if_neg (by omega), reach.fetchInstr?, State.fetchInstr, fetched]
  simp only [decoded]

/-- A slot that is free for an instruction with an issue delay is free for one without (R53). -/
theorem slotFree_zero {s : State} {g : Group} {n : Nat} (h : slotFree s g n = true) : slotFree s g 0 = true := by
  simp only [slotFree, Bool.and_eq_true, decide_eq_true_eq, Nat.add_zero] at h ⊢
  obtain ⟨free, order⟩ := h
  exact ⟨by omega, order⟩

/-- The turn of a group whose run reaches an instruction, with its slot free for it and no notice to take before it. -/
theorem issueTurn_of_reach {s t : State} {gid : Nat} {g : Group} {i : Instr} (hg : s.group? gid = some g)
    (alive : g.retired = false) (ht : g.tlbi = none) (hrun : g.run.isSome = true) (hn : State.takeable g = [])
    (free : slotFree s g (delayOf i) = true) (reached : reach s g = (.ok i, t)) :
    issueTurn gid s = exec i { t with cur := some gid } := by
  have granted : g.run.isNone = false := by simpa using hrun
  simp [issueTurn, hg, alive, ht, granted, hn, slotFree_zero free, free, reached]

/-- Settles O45: the turn's own checks pass, and what the run reaches is what the fetched bytes decode to. -/
theorem stepRunsInstruction : Obligations.StepRunsInstruction := by
  refine ⟨?issue, ?event, ?firmware⟩
  case issue =>
    intro s gid ts g bs i w t ha hg alive hrun ht hn free count fetched wf hw hbs _
    subst hbs
    let s1 : State := { s with agenda := ts, cur := some gid }
    calc step s
      _ = issueTurn gid s1 := by simp only [step, nextTurn, ha, turn, s1]
      _ = exec i { t with cur := some gid } :=
        issueTurn_of_reach hg alive ht hrun hn free (reach_of_bytes count fetched (decodeBytes_of_encode wf hw))
  case event =>
    intro s ts i ha event
    simp [step, nextTurn, ha, turn, event]
  case firmware =>
    intro s ts p i ha instr
    simp [step, nextTurn, ha, turn, instr]

end Machine

end Sys2Proof

/-! The words that the manual writes out. -/

namespace Sys2Proof

theorem decode_of_encode {i : Instr} {w : IWord} (wf : i.illFormed = none) (hw : encode i = some w) : decode w = .ok i :=
  roundTrip_statement i w wf hw

/-- Settles O44: each statement that the manual prints is well formed and encodes to the word beside it. -/
theorem decodedWords : Obligations.DecodedWords :=
  ⟨decode_of_encode rfl rfl, decode_of_encode rfl rfl, decode_of_encode rfl rfl, decode_of_encode rfl rfl, decode_of_encode rfl rfl,
    decode_of_encode rfl rfl, decode_of_encode rfl rfl, decode_of_encode rfl rfl, decode_of_encode rfl rfl⟩

end Sys2Proof

/-! The vector integer instructions: arithmetic and logic, counts, bit fields, select, moves and exchanges (R418 to R426). -/

namespace Sys2Proof.Machine

/-! ## Element by element (R418, R420, R424) -/

theorem widthOf_pos (ty : Ty) : 0 < widthOf ty := by cases ty <;> decide

theorem widthOf_le (ty : Ty) : widthOf ty ≤ 64 := by cases ty <;> decide

theorem pos_of_width {w : Nat} {ty : Ty} (h : w = widthOf ty) : 0 < w := h ▸ widthOf_pos ty

theorem le_of_width {w : Nat} {ty : Ty} (h : w = widthOf ty) : w ≤ 64 := h ▸ widthOf_le ty

/-- The destination is the first register that a vector instruction on D, A and B names. -/
theorem vector3_dst (xs : Table (BitVec 16)) (ty : Ty) (h : How) (d a : VReg) (b : VSI) :
    ∃ how rest, vector3 xs ty h d a b = useV xs 0 d how (if ty.is64 then 2 else 1) ty.is64 ++ rest :=
  ⟨h, _, List.append_assoc ..⟩

/-- Settles O4: on the numbers of its elements each instruction computes what its table gives modulo 2^w. -/
theorem vectorArithmetic : Obligations.VectorArithmetic := by
  intro c ty d a b
  refine ⟨?_, ?_, ?_, ?_, ?_, ?_, ?_, ?_, ?_, ?_, ?_, ?_, ?_, ?_, ?_, ?_, ?_⟩
  · exact vint_writes (F := fun _ _ a b _ => (a : Int) + b) rfl (fun _ => vector3_dst ..) fun w a b _ _ => elem_add w a b
  · exact vint_writes (F := fun _ _ a b _ => (a : Int) - b) rfl (fun _ => vector3_dst ..) fun w a b _ _ => elem_sub w a b
  · exact vint_writes (F := fun _ _ a b _ => (a : Int) * b) rfl (fun _ => vector3_dst ..) fun w a b _ _ => elem_mul w a b
  · exact vint_writes (F := fun w sg a b _ => elemVal w sg a * elemVal w sg b / 2 ^ w) rfl (fun _ => vector3_dst ..)
      fun w a b _ h => elem_mulHigh w (pos_of_width h) _ a b
  · exact vint_writes (F := fun _ _ a b d => (a : Int) * b + d) rfl (fun _ => vector3_dst ..) fun w a b d _ => elem_mad w a b d
  · exact vint_writes (F := fun w sg a b _ => min (elemVal w sg a) (elemVal w sg b)) rfl (fun _ => vector3_dst ..)
      fun w a b _ h => elem_min w (pos_of_width h) _ a b
  · exact vint_writes (F := fun w sg a b _ => max (elemVal w sg a) (elemVal w sg b)) rfl (fun _ => vector3_dst ..)
      fun w a b _ h => elem_max w (pos_of_width h) _ a b
  · exact vint_writes (F := fun _ _ a b _ => (a &&& b : Nat)) rfl (fun _ => vector3_dst ..) fun w a b _ _ => elem_and w a b
  · exact vint_writes (F := fun _ _ a b _ => (a ||| b : Nat)) rfl (fun _ => vector3_dst ..) fun w a b _ _ => elem_or w a b
  · exact vint_writes (F := fun _ _ a b _ => (a ^^^ b : Nat)) rfl (fun _ => vector3_dst ..) fun w a b _ _ => elem_xor w a b
  · exact vint_writes (F := fun w _ a b _ => if w ≤ b then 0 else (a * 2 ^ b : Nat)) rfl (fun _ => vector3_dst ..)
      fun w a b _ _ => elem_shl w a b
  · exact vint_writes (F := fun w _ a b _ => if w ≤ b then 0 else (a / 2 ^ b : Nat)) rfl (fun _ => vector3_dst ..)
      fun w a b _ _ => elem_shr w a b
  · exact vint_writes (F := fun w _ a b _ => elemVal w true a / 2 ^ min b w) rfl (fun _ => vector3_dst ..)
      fun w a b _ h => elem_sar w (pos_of_width h) a b
  · exact vint_writes (F := fun w sg a b _ => clampTo w sg (elemVal w sg a + elemVal w sg b)) rfl (fun _ => vector3_dst ..)
      fun w a b _ h => elem_clamp w (pos_of_width h) _ a b
  · exact vint_writes (F := fun w _ a _ _ => ((elemVal w true a).natAbs : Int)) rfl (fun _ => ⟨_, _, rfl⟩)
      fun w a _ _ h => elem_abs w (pos_of_width h) a
  · exact vint_writes (F := fun w _ a _ _ => (popCount w (BitVec.ofNat 64 a) : Int)) rfl (fun _ => ⟨_, _, rfl⟩)
      fun w a _ _ h => by rw [popCount_eq (le_of_width h), ofInt_nat]
  · exact vint_writes (F := fun w _ a _ _ => (leadingZeros w (BitVec.ofNat 64 a) : Int)) rfl (fun _ => ⟨_, _, rfl⟩)
      fun w a _ _ h => by rw [leadingZeros_eq (le_of_width h), ofInt_nat]

/-! ## Lane by lane (R421 to R423, R425, R426) -/

/-- The operands of a meaning are those of its group under the run's index registers. -/
theorem vval_mk (s : State) (gid : Nat) (g : Group) (c : Ctl) (act : Mask) (ty : Ty) (r : VReg) :
    Ctx.vval ⟨s, gid, g, g.runNow, c, act⟩ ty r = g.tval ty r := funext fun l => vval_eq _ rfl ty r l

theorem bval_mk (s : State) (gid : Nat) (g : Group) (c : Ctl) (act : Mask) (ty : Ty) (b : VSI) :
    Ctx.bval ⟨s, gid, g, g.runNow, c, act⟩ ty b = g.bopnd ty b := funext fun l => bval_eq _ rfl ty b l

/-- A word of a narrow type stands in the low half of its lane's value. -/
theorem low_of_setWidth32 (x : BitVec 32) : ((x.setWidth 64).extractLsb' 0 32).setWidth 64 = x.setWidth 64 := by
  rw [low_eq_setWidth, low_zext]

theorem tval_low {ty : Ty} (h : ty.is64 = false) (g : Group) (r : VReg) (l : Nat) :
    ((g.tval ty r l).extractLsb' 0 32).setWidth 64 = g.tval ty r l := by
  simp only [Group.tval, h, Bool.false_eq_true, if_false, low_of_setWidth32]

theorem laneOf_low {ty : Ty} (h : ty.is64 = false) (f : (w : Nat) → BitVec w → BitVec w → BitVec w) (a b : Word) :
    ((laneOf ty f a b).extractLsb' 0 32).setWidth 64 = laneOf ty f a b := by
  simp only [laneOf, h, Bool.false_eq_true, if_false, low_of_setWidth32]

/-- What VMOV reads of a special register in a lane (R426). -/
def specialOf (s : State) (g : Group) (r : Special) (l : Nat) : Word :=
  match r with
  | .lane => BitVec.ofNat 64 l
  | .widlo => ((g.gwid + BitVec.ofNat 64 l).setWidth 32).setWidth 64
  | .widhi => (g.gwid + BitVec.ofNat 64 l) >>> 32
  | .arg => (tget 0 g.args l).setWidth 64
  | r => special s g r

theorem high_eq_shift (x : Word) : (x.extractLsb' 32 32).zeroExtend 64 = x >>> 32 := by
  apply BitVec.eq_of_toNat_eq
  have := x.isLt
  simp only [BitVec.zeroExtend, BitVec.toNat_setWidth, BitVec.extractLsb'_toNat, BitVec.toNat_ushiftRight, Nat.shiftRight_eq_div_pow]
  omega

theorem specialLane_eq (s : State) (g : Group) (r : Special) (l : Nat) : specialLane s g r l = specialOf s g r l := by
  cases r <;> first | rfl | simp [specialLane, specialOf, Group.widOf, high_eq_shift]

theorem specialOf_tickSeq (s : State) (g : Group) (r : Special) (l : Nat) : specialOf s.tickSeq g r l = specialOf s g r l := by
  cases r <;> rfl

/-- VMOVI sign-extends its immediate under i64 (R426). -/
theorem movi_low {ty : Ty} (h : ty.is64 = false) (imm : BitVec 32) :
    ((if ty = .i64 then imm.signExtend 64 else imm.setWidth 64).extractLsb' 0 32).setWidth 64 =
      if ty = .i64 then imm.signExtend 64 else imm.setWidth 64 := by
  rw [if_neg (by rintro rfl; cases h), low_of_setWidth32]

/-- The lane of A that VPERM takes (R421, R422). -/
def Group.permLane (g : Group) (b : VSI) (l : Nat) : Nat :=
  match b with
  | .vec q => (g.vval q l).toNat % 32
  | .sca q => l ^^^ (g.sval q).toNat % 32
  | .imm i => l ^^^ (i.signExtend 64 : Word).toNat % 32

/-- The lane of A that VBCAST takes (R421, R422). -/
def Group.castLane (g : Group) (act : Mask) (b : VSI) : Nat :=
  match b with
  | .vec q => (g.vval q ((lanesOf act).head?.getD 0)).toNat % 32
  | .sca q => (g.sval q).toNat % 32
  | .imm i => (i.signExtend 64 : Word).toNat % 32

section
variable (c : Ctl) (ty : Ty) (d a : VReg) (b : VSI)

theorem vbfx_writes : WritesV (.vbfx c ty d a b) c ty d (fun _ g l r =>
    r = laneOf ty (fieldOf (intSigned ty) (g.bopnd ty b l)) (g.tval ty a l) 0) :=
  toV_writes (f := fun _ g l => laneOf ty (fieldOf (intSigned ty) (g.bopnd ty b l)) (g.tval ty a l) 0)
    (body := fun x => x.toV ty d (fun l => fieldExtract ty (tyWidth ty) (x.vval ty a l) (x.bval ty b l))) rfl
    (fun s gid g => by rw [vval_mk, bval_mk, vbfx_eq]) (fun _ _ => rfl) (fun _ => vector3_dst ..) fun h _ _ _ => laneOf_low h ..

theorem vbfi_writes : WritesV (.vbfi c ty d a b) c ty d (fun _ g l r =>
    r = laneOf ty (insertOf (g.bopnd ty b l)) (g.tval ty d l) (g.tval ty a l)) :=
  toV_writes (f := fun _ g l => laneOf ty (insertOf (g.bopnd ty b l)) (g.tval ty d l) (g.tval ty a l))
    (body := fun x => x.toV ty d (fun l => fieldInsert (tyWidth ty) (x.vval ty d l) (x.vval ty a l) (x.bval ty b l))) rfl
    (fun s gid g => by rw [vval_mk, vval_mk, bval_mk, vbfi_eq]) (fun _ _ => rfl) (fun _ => vector3_dst ..) fun h _ _ _ => laneOf_low h ..

theorem vsel_writes (sel : BitVec 4) : WritesV (.vsel c ty sel d a b) c ty d (fun _ g l r =>
    r = if bitOf (g.getP sel.toNat) l then g.tval ty a l else g.bopnd ty b l) :=
  toV_writes (f := fun _ g l => if bitOf (g.getP sel.toNat) l then g.tval ty a l else g.bopnd ty b l)
    (body := fun x => x.toV ty d (fun l => if bitOf (x.g.getP sel.toNat) l then x.vval ty a l else x.bval ty b l)) rfl
    (fun s gid g => by rw [vval_mk, bval_mk]) (fun _ _ => rfl) (fun _ => vector3_dst ..)
    fun h _ _ _ => by split <;> [exact tval_low h ..; exact bopnd_low h ..]

/-- VMOV gives each active lane what its source gives it (R426). -/
theorem vmov_writes (src : VMovSrc) (f : State → Group → Nat → Word)
    (value : ∀ s gid g l, Ctx.vmovVal ⟨s, gid, g, g.runNow, c, g.active c⟩ ty src l = f s g l) (same : ∀ s g, f s.tickSeq g = f s g)
    (low : ty.is64 = false → ∀ s g l, ((f s g l).extractLsb' 0 32).setWidth 64 = f s g l) :
    WritesV (.vmov c ty d src) c ty d (fun s g l r => r = f s g l) :=
  toV_writes (body := fun x => x.toV ty d (x.vmovVal ty src)) rfl (fun s gid g => by rw [show Ctx.vmovVal _ ty src = f s g from funext (value s gid g)]) same
    (fun _ => ⟨.dst, _, rfl⟩) low

theorem vmovi_writes (imm : BitVec 32) : WritesV (.vmovi c ty d imm) c ty d (fun _ _ _ r =>
    r = if ty = .i64 then imm.signExtend 64 else imm.setWidth 64) :=
  toV_writes (f := fun _ _ _ => if ty = .i64 then imm.signExtend 64 else imm.setWidth 64)
    (body := fun x => x.toV ty d (fun _ => if ty = .i64 then imm.signExtend 64 else imm.zeroExtend 64)) rfl (fun _ _ _ => rfl) (fun _ _ => rfl)
    (fun _ => ⟨.dst, [], (List.append_nil _).symm⟩) fun h _ _ _ => movi_low h imm

theorem vmov_special (r : Special) (s : State) (gid : Nat) (g : Group) (l : Nat) :
    Ctx.vmovVal ⟨s, gid, g, g.runNow, c, g.active c⟩ ty (.spr r) l = laneOf ty (fun _ v _ => v) (specialOf s g r l) 0 := by
  simp only [Ctx.vmovVal, specialLane_eq, laneOf, low_eq_setWidth, BitVec.zeroExtend]

theorem vperm_writes : WritesV (.vperm c ty d a b) c ty d (fun _ g l r => r = g.tval ty a (g.permLane b l)) :=
  toV_writes (f := fun _ g l => g.tval ty a (g.permLane b l))
    (body := fun x => x.toV ty d (fun l => x.vval ty a (match b with | .vec _ => x.selector b l | _ => l ^^^ x.selector b l))) rfl
    (fun s gid g => by rw [vval_mk]; cases b <;> rfl) (fun _ _ => rfl)
    (fun _ => ⟨.dst, _, List.append_assoc ..⟩) fun h _ _ _ => tval_low h ..

theorem vbcast_writes : WritesV (.vbcast c ty d a b) c ty d (fun _ g _ r => r = g.tval ty a (g.castLane (g.active c) b)) :=
  toV_writes (f := fun _ g _ => g.tval ty a (g.castLane (g.active c) b))
    (body := fun x => x.toV ty d (fun _ => x.vval ty a (x.selector b ((lanesOf x.act).head?.getD 0)))) rfl
    (fun s gid g => by rw [vval_mk]; cases b <;> rfl) (fun _ _ => rfl)
    (fun _ => ⟨.dst, _, List.append_assoc ..⟩) fun h _ _ _ => tval_low h ..

end

/-- Settles O5: each of these writes one value in each active lane, computed from operands read before the write. -/
theorem vectorSelectMoveExchange : Obligations.VectorSelectMoveExchange := by
  refine ⟨fun c ty d a b sel ra sp i imm => ?lanes, fun c ty d a b => ⟨vperm_writes c ty d a b, vbcast_writes c ty d a b⟩⟩
  case lanes =>
    refine ⟨vbfx_writes c ty d a b, vbfi_writes c ty d a b, vsel_writes c ty d a b sel, ?vec, ?sca, ?spr, ?imm, vmovi_writes c ty d imm⟩
    case vec =>
      exact vmov_writes c ty d (.vec a) (fun _ g l => g.tval ty a l) (fun s gid g l => vval_eq _ rfl ty a l) (fun _ _ => rfl)
        fun h _ _ _ => tval_low h ..
    case sca =>
      exact vmov_writes c ty d (.sca ra) (fun _ g l => g.bopnd ty (.sca ra) l) (fun s gid g l => bval_eq _ rfl ty (.sca ra) l)
        (fun _ _ => rfl) fun h _ _ _ => bopnd_low h ..
    case spr =>
      exact vmov_writes c ty d (.spr sp) (fun s g l => laneOf ty (fun _ v _ => v) (specialOf s g sp l) 0) (vmov_special c ty sp)
        (fun s g => funext fun l => by rw [specialOf_tickSeq]) fun h _ _ _ => laneOf_low h ..
    case imm =>
      exact vmov_writes c ty d (.imm i) (fun _ g l => g.bopnd ty (.imm i) l) (fun s gid g l => immElems_eq ty i g l) (fun _ _ => rfl)
        fun h _ _ _ => bopnd_low h ..

end Sys2Proof.Machine

/-! The vector float instructions: FP32 and half-precision arithmetic and the compares (R340 to R346, R425), and what their operations
give in the three formats (R138 to R146). -/

namespace Sys2Proof.Machine

/-! ## Lanes (R301, R341) -/

section
variable (s : State) (gid : Nat) (g : Group) (c : Ctl) (act : Mask)

theorem lane_mk (r : VReg) (l : Nat) : Ctx.lane ⟨s, gid, g, g.runNow, c, act⟩ r l = g.vval r l := rfl

theorem vsLane_mk (b : VS) (l : Nat) : Ctx.vsLane ⟨s, gid, g, g.runNow, c, act⟩ b l = g.vsval b l := by
  cases b
  · rfl
  · exact low_eq_setWidth ..

end

/-- The destination is the first register that a float instruction names. -/
theorem float3_dst (xs : Table (BitVec 16)) (h : How) (d a : VReg) (b : VS) :
    ∃ how rest, float3 xs h d a b = useV xs 0 d how 1 false ++ rest := ⟨h, _, List.append_assoc ..⟩

theorem float2_dst (xs : Table (BitVec 16)) (d a : VReg) :
    ∃ how rest, float2 xs d a = useV xs 0 d how 1 false ++ rest := ⟨.dst, _, rfl⟩

section
variable {i : Instr} {c : Ctl} {d a : VReg} {b : VS}

/-- An operation on the codes of A, B and the old D (R341). -/
theorem float3_writes (f : Nat → Nat → Nat → Nat) (meaning : exec i = issue i c false (fun x => x.float3 d a b f))
    (dst : ∀ xs, ∃ how rest, usesOf xs i = useV xs 0 d how 1 false ++ rest) :
    WritesV i c .f32 d (fun _ g l r => r = (BitVec.ofNat 32 (f (g.vval a l).toNat (g.vsval b l).toNat (g.vval d l).toNat)).setWidth 64) :=
  toLanes_writes (f := fun _ g l => f (g.vval a l).toNat (g.vsval b l).toNat (g.vval d l).toNat) meaning
    (fun s gid g => by simp only [Ctx.float3, lane_mk, vsLane_mk]) (fun _ _ => rfl) dst

/-- An operation on the codes of A alone. -/
theorem float1_writes (f : Nat → Nat) (meaning : exec i = issue i c false (fun x => x.toLanes d (fun l => f (x.lane a l).toNat)))
    (dst : ∀ xs, ∃ how rest, usesOf xs i = useV xs 0 d how 1 false ++ rest) :
    WritesV i c .f32 d (fun _ g l r => r = (BitVec.ofNat 32 (f (g.vval a l).toNat)).setWidth 64) :=
  toLanes_writes (f := fun _ g l => f (g.vval a l).toNat) meaning (fun _ _ _ => rfl) (fun _ _ => rfl) dst

end

/-! ## Codes stay within their format's bits (R138) -/

theorem FloatFmt.signed_lt {f : FloatFmt} {mag : Nat} (h : mag < 2 ^ (f.eb + f.fb)) (neg : Bool) : f.signed neg mag < 2 ^ f.width := by
  have twice : 2 ^ f.width = 2 ^ (f.eb + f.fb) + 2 ^ (f.eb + f.fb) := by rw [FloatFmt.width, pow_succ]; omega
  cases neg <;> simp only [FloatFmt.signed, if_true, Bool.false_eq_true, if_false] <;> omega

section
variable {f : FloatFmt} (hf : f.Full)
include hf

theorem FloatFmt.overflow_lt (r : Rnd) (sat neg : Bool) : f.overflow r sat neg < 2 ^ (f.eb + f.fb) := by
  have room := hf.room
  simp only [FloatFmt.overflow, hf.inf]
  split
  · omega
  · split <;> omega

theorem FloatFmt.round_lt (r : Rnd) (sat neg : Bool) (m : Nat) (e : Int) (sticky : Bool) : f.round r sat neg m e sticky < 2 ^ f.width := by
  have room := hf.room
  simp only [FloatFmt.round, hf.inf, Option.isNone_some, Bool.false_and, Bool.false_eq_true, if_false]
  split
  · exact FloatFmt.signed_lt (by omega) neg
  · exact FloatFmt.signed_lt (FloatFmt.overflow_lt hf r sat neg) neg

theorem FloatFmt.infCode_lt (neg : Bool) : f.infCode false neg < 2 ^ f.width := by
  simpa [FloatFmt.infCode, hf.inf] using FloatFmt.signed_lt hf.room neg

theorem FloatFmt.ofDy_lt (r : Rnd) (zneg : Bool) (x : Dy) : f.ofDy r zneg x < 2 ^ f.width := by
  unfold FloatFmt.ofDy
  split
  · exact FloatFmt.signed_lt (Nat.two_pow_pos _) zneg
  · exact FloatFmt.round_lt hf ..

variable (hn : f.nanCode < 2 ^ f.width)
include hn

theorem FloatFmt.mul_lt (r : Rnd) (a b : FVal) : f.mul r a b < 2 ^ f.width := by
  unfold FloatFmt.mul FloatFmt.conv
  split
  · exact hn
  · exact FloatFmt.infCode_lt hf _
  · exact FloatFmt.round_lt hf ..

theorem FloatFmt.add_lt (r : Rnd) (a b : FVal) : f.add r a b < 2 ^ f.width := by
  unfold FloatFmt.add
  split
  · exact hn
  · exact hn
  · split
    · exact FloatFmt.infCode_lt hf _
    · exact hn
  · exact FloatFmt.infCode_lt hf _
  · exact FloatFmt.infCode_lt hf _
  · exact FloatFmt.ofDy_lt hf ..

end

theorem halfFmt_mem (ty : Ty) : halfFmt ty ∈ [fp32, fp16, bf16] := by
  unfold halfFmt
  split <;> simp

/-- A code of a half format stands in 16 bits. -/
theorem halfFmt_bits (ty : Ty) : 2 ^ (halfFmt ty).width = 2 ^ 16 ∧ (halfFmt ty).nanCode < 2 ^ (halfFmt ty).width := by
  unfold halfFmt
  split <;> decide

theorem half_add_lt (ty : Ty) (r : Rnd) (a b : FVal) : (halfFmt ty).add r a b < 2 ^ 16 :=
  (halfFmt_bits ty).1 ▸ FloatFmt.add_lt (full_of_mem (halfFmt_mem ty)) (halfFmt_bits ty).2 r a b

theorem half_mul_lt (ty : Ty) (r : Rnd) (a b : FVal) : (halfFmt ty).mul r a b < 2 ^ 16 :=
  (halfFmt_bits ty).1 ▸ FloatFmt.mul_lt (full_of_mem (halfFmt_mem ty)) (halfFmt_bits ty).2 r a b

/-! ## Half-precision pairs (R346) -/

/-- Two codes of 16 bits side by side. -/
theorem pair_eq {lo : Nat} (hi : Nat) (h : lo < 2 ^ 16) :
    BitVec.ofNat 32 (lo + 65536 * hi) = BitVec.ofNat 16 hi ++ BitVec.ofNat 16 lo := by
  apply BitVec.eq_of_toNat_eq
  rw [toNat_append']
  simp only [BitVec.toNat_ofNat]
  omega

/-- An operation on both halves of A, B and the old D. -/
theorem half3_writes {i : Instr} {c : Ctl} {d a : VReg} {b : VS} {ty : Ty} (f : FloatFmt → FVal → FVal → FVal → Nat)
    (meaning : exec i = issue i c false (fun x => x.half3 ty d a b f))
    (dst : ∀ xs, ∃ how rest, usesOf xs i = useV xs 0 d how 1 false ++ rest)
    (small : ∀ x y z, f (halfFmt ty) x y z < 2 ^ 16) :
    let q := halfFmt ty
    let lo (x : Lane) : FVal := q.val (x.toNat % 2 ^ 16)
    let hi (x : Lane) : FVal := q.val (x.toNat / 2 ^ 16)
    WritesV i c .f32 d (fun _ g l r => r = (BitVec.ofNat 16 (f q (hi (g.vval a l)) (hi (g.vsval b l)) (hi (g.vval d l))) ++
      BitVec.ofNat 16 (f q (lo (g.vval a l)) (lo (g.vsval b l)) (lo (g.vval d l)))).setWidth 64) := by
  intro q lo hi
  have top (x : Lane) : q.val (x.toNat / 65536 % 65536) = hi x :=
    congrArg q.val (Nat.mod_eq_of_lt (by have := x.isLt; omega))
  have value (g : Group) (l : Nat) :
      (BitVec.ofNat 16 (f q (hi (g.vval a l)) (hi (g.vsval b l)) (hi (g.vval d l))) ++
        BitVec.ofNat 16 (f q (lo (g.vval a l)) (lo (g.vsval b l)) (lo (g.vval d l)))) =
      BitVec.ofNat 32 (f q (lo (g.vval a l)) (lo (g.vsval b l)) (lo (g.vval d l)) +
        65536 * f q (hi (g.vval a l)) (hi (g.vsval b l)) (hi (g.vval d l))) := (pair_eq _ (small _ _ _)).symm
  simp only [value]
  refine toLanes_writes meaning (fun s gid g => ?_) (fun _ _ => rfl) dst
  simp only [Ctx.half3, lane_mk, vsLane_mk, Nat.mul_zero, pow_zero, Nat.div_one, Nat.mul_one, Nat.reducePow, q, lo, hi] at top ⊢
  simp only [top]

/-- Settles O7: each half of the result is the operation's code on the halves in its place, and no code leaves its 16 bits. -/
theorem halfArithmetic : Obligations.HalfArithmetic := by
  intro c ty rnd d a b
  exact ⟨half3_writes (fun q a b _ => q.add rnd a b) rfl (fun _ => float3_dst ..) fun x y _ => half_add_lt ty rnd x y,
    half3_writes (fun q a b _ => q.mul rnd a b) rfl (fun _ => float3_dst ..) fun x y _ => half_mul_lt ty rnd x y,
    half3_writes (fun q a b d => q.fma rnd a b d) rfl (fun _ => float3_dst ..) fun x y z => half_add_lt ty rnd (x.mul y) z⟩

/-! ## Compares (R39, R344, R425) -/

/-- An instruction that acts also without an active lane, whose body changes its group alone. -/
theorem exec_always {s : State} {gid : Nat} {g : Group} {i : Instr} {c : Ctl} (ready : Ready s gid g c i) (f : Ctx → Group)
    (meaning : exec i = issue i c true (fun x => x.done (f x))) :
    exec i s = .next (after s gid g c i (f (ctxOf s gid g c))) := by
  rw [meaning, issue_ready ready, if_neg (by simp)]
  rfl

theorem int32or64_of_vcmp {c : Ctl} {ty : Ty} {cond : Cond} {d : BitVec 4} {a : VReg} {b : VSI}
    (h : (Instr.vcmp c ty cond d a b).WellFormed) : ty.int32or64 = true := by
  simp only [Instr.WellFormed, Instr.illFormed, firstBad_cons] at h
  obtain ⟨_, int, _⟩ := h
  exact int

/-- The number that a compare takes of a lane (R425). -/
theorem tyInt_eq_laneInt {ty : Ty} (h : ty.int32or64 = true) (x : Word) : tyInt ty x = laneInt ty x := by
  cases ty <;> simp [Ty.int32or64] at h <;> simp [tyInt, laneInt, tySigned, Ty.is64, low_eq_setWidth]

/-- Settles O9: both compares write the mask of the active lanes in which the condition holds. -/
theorem vectorCompares : Obligations.VectorCompares := by
  intro c ty cond d a b q
  refine ⟨fun s gid g ready => ?vcmp, fun s gid g ready => ?fcmp⟩
  case vcmp =>
    have int := int32or64_of_vcmp ready.wf
    refine ⟨_, exec_always ready (fun x => x.g.setP d.toNat (compareMask x.act (fun l =>
      condHolds cond (cmpInt (tyInt ty (x.vval ty a l)) (tyInt ty (x.bval ty b l)))))) rfl, fun l hl => ?_⟩
    rw [bit_compareMask _ _ _ hl, ctxOf, vval_mk, bval_mk, tyInt_eq_laneInt int, tyInt_eq_laneInt int]
  case fcmp =>
    refine ⟨_, exec_always ready (fun x => x.g.setP d.toNat (compareMask x.act (fun l =>
      condHolds cond ((fp32.val (x.lane a l).toNat).cmp (fp32.val (x.vsLane q l).toNat))))) rfl, fun l hl => ?_⟩
    rw [bit_compareMask _ _ _ hl, ctxOf, lane_mk, vsLane_mk]

end Sys2Proof.Machine

/-! FP32, FP16 and BF16 arithmetic (R138 to R146): codes, the exact results rounded once, the special values, and the order. -/

namespace Sys2Proof.Machine

/-! ## What the three formats share -/

theorem infCode_eq {f : FloatFmt} (hf : f ∈ [fp32, fp16, bf16]) (neg : Bool) : f.infCode false neg = f.signed neg (f.inf.getD 0) := by
  obtain ⟨_, _, _, _, _, code⟩ := format_facts hf
  exact code neg

/-- The code of an infinity follows the largest finite one, and the canonical NaN has the top bit of its fraction alone (R138, R140). -/
theorem format_codes {f : FloatFmt} (hf : f ∈ [fp32, fp16, bf16]) :
    0 < f.eb ∧ 0 < f.fb ∧ f.fb < 63 ∧ f.maxCode = (2 ^ f.eb - 1) * 2 ^ f.fb - 1 ∧ f.inf = some ((2 ^ f.eb - 1) * 2 ^ f.fb) ∧
      f.nanCode = (2 ^ f.eb - 1) * 2 ^ f.fb + 2 ^ (f.fb - 1) := by
  have : f = fp32 ∨ f = fp16 ∨ f = bf16 := by simpa using hf
  rcases this with rfl | rfl | rfl <;> decide

/-! ## Special values (R144) -/

section
variable (f : FloatFmt) (r : Rnd) (a : FVal)

@[simp] theorem FVal.nan_mul : FVal.mul .nan a = .nan := by cases a <;> rfl
@[simp] theorem FVal.mul_nan : FVal.mul a .nan = .nan := by cases a <;> rfl
@[simp] theorem FloatFmt.nan_add : f.add r .nan a = f.nanCode := by cases a <;> rfl
@[simp] theorem FloatFmt.add_nan : f.add r a .nan = f.nanCode := by cases a <;> rfl
@[simp] theorem FloatFmt.nan_div : f.div r .nan a = f.nanCode := by cases a <;> rfl
@[simp] theorem FloatFmt.div_nan : f.div r a .nan = f.nanCode := by cases a <;> rfl

@[simp] theorem FVal.inf_mul_inf (x y : Bool) : FVal.mul (.inf x) (.inf y) = .inf (x != y) := rfl
@[simp] theorem FVal.inf_mul_fin (x y : Bool) (m : Nat) (e : Int) :
    FVal.mul (.inf x) (.fin y m e) = if m = 0 then .nan else .inf (x != y) := rfl
@[simp] theorem FVal.fin_mul_inf (x y : Bool) (m : Nat) (e : Int) :
    FVal.mul (.fin y m e) (.inf x) = if m = 0 then .nan else .inf (x != y) := by rw [bne_comm]; rfl

/-- An infinity and an addend. -/
theorem FloatFmt.inf_add (x : Bool) (d : FVal) :
    f.add r (.inf x) d = if d = .nan ∨ d = .inf (!x) then f.nanCode else f.infCode false x := by
  cases d with
  | nan => simp
  | inf y => cases x <;> cases y <;> simp [FloatFmt.add]
  | fin y m e => simp [FloatFmt.add]

end

section
variable {f : FloatFmt} (hf : f ∈ [fp32, fp16, bf16]) (r : Rnd) (x y : Bool) (m : Nat) (e : Int) (a d : FVal)

theorem nan_results : ∀ c ∈ [f.add r .nan a, f.add r a .nan, f.mul r .nan a, f.mul r a .nan, f.div r .nan a, f.div r a .nan,
    f.fma r .nan a d, f.fma r a .nan d, f.fma r a d .nan, f.sqrt r .nan, f.toIntegral r .nan], c = f.nanCode := by
  simp [FloatFmt.mul, FloatFmt.conv, FloatFmt.fma, FloatFmt.sqrt, FloatFmt.toIntegral]

include hf

/-- A product with an infinity, in an addition that is not rounded between. -/
theorem fma_of_inf_product {b c : FVal} (product : b.mul c = if m = 0 then .nan else .inf (x != y)) :
    f.fma r b c d = if m = 0 ∨ d = .nan ∨ d = .inf (x == y) then f.nanCode else f.signed (x != y) (f.inf.getD 0) := by
  rw [FloatFmt.fma, product]
  by_cases zero : m = 0
  · simp [zero]
  · have opposite : (!(x != y)) = (x == y) := by cases x <;> cases y <;> rfl
    rw [if_neg zero, FloatFmt.inf_add, infCode_eq hf, opposite]
    simp only [zero, false_or]

theorem special_results :
    let nan := f.nanCode
    let inf (s : Bool) : Nat := f.signed s (f.inf.getD 0)
    let b : FVal := .fin y m e
    f.add r (.inf x) b = inf x ∧ f.add r b (.inf x) = inf x ∧ f.add r (.inf x) (.inf y) = (if x = y then inf x else nan) ∧
    f.mul r (.inf x) (.inf y) = inf (x != y) ∧
    f.mul r (.inf x) b = (if m = 0 then nan else inf (x != y)) ∧ f.mul r b (.inf x) = (if m = 0 then nan else inf (x != y)) ∧
    f.fma r (.inf x) b d = (if m = 0 ∨ d = .nan ∨ d = .inf (x == y) then nan else inf (x != y)) ∧
    f.fma r b (.inf x) d = (if m = 0 ∨ d = .nan ∨ d = .inf (x == y) then nan else inf (x != y)) ∧
    f.fma r (.inf x) (.inf y) d = (if d = .nan ∨ d = .inf (x == y) then nan else inf (x != y)) ∧
    (∀ n g, f.fma r b (.fin x n g) (.inf y) = inf y) ∧
    f.div r (.inf x) (.inf y) = nan ∧ f.div r (.inf x) b = inf (x != y) ∧ f.div r b (.inf x) = f.signed (y != x) 0 ∧
    (∀ z g, f.div r b (.fin z 0 g) = if m = 0 then nan else inf (y != z)) ∧
    f.sqrt r (.inf x) = (if x then nan else inf false) ∧ (m ≠ 0 → f.sqrt r (.fin true m e) = nan) ∧
    f.toIntegral r (.inf x) = inf x := by
  intro nan inf b
  have code (neg : Bool) : f.infCode false neg = inf neg := infCode_eq hf neg
  have conv (v : FVal) (s : Bool) (hv : v = if m = 0 then .nan else .inf s) :
      f.conv r false v = if m = 0 then nan else inf s := by
    rw [hv]
    split
    · rfl
    · exact code s
  refine ⟨code x, code x, ?_, code _, conv _ _ rfl, conv _ _ (FVal.fin_mul_inf ..), ?_, ?_, ?_, fun n g => code y, rfl, code _, rfl,
    fun z g => ?_, ?_, fun nonzero => ?_, code x⟩
  · rw [FloatFmt.add, code]
  · exact fma_of_inf_product hf r x y m d rfl
  · exact fma_of_inf_product hf r x y m d (FVal.fin_mul_inf ..)
  · simpa using fma_of_inf_product hf r x y 1 d (b := .inf x) (c := .inf y) rfl
  · simp only [FloatFmt.div, if_pos, code, b]
    rfl
  · rw [FloatFmt.sqrt, code]
  · simp only [FloatFmt.sqrt, nonzero, if_false, if_true]
    rfl

end

/-! ## The order of codes (R146) -/

section
variable (f : FloatFmt) {a b : Nat}

theorem min_max_of_lt (h : (f.val a).cmp (f.val b) = .lt) : f.minNum a b = a ∧ f.maxNum a b = b := by
  simp only [FloatFmt.minNum, FloatFmt.maxNum, h, and_self]

theorem min_max_of_gt (h : (f.val a).cmp (f.val b) = .gt) : f.minNum a b = b ∧ f.maxNum a b = a := by
  simp only [FloatFmt.minNum, FloatFmt.maxNum, h, and_self]

theorem min_max_of_eq (h : (f.val a).cmp (f.val b) = .eq) :
    f.minNum a b = (if (f.val a).neg? then a else b) ∧ f.maxNum a b = if (f.val a).neg? then b else a := by
  simp only [FloatFmt.minNum, FloatFmt.maxNum, h, and_self]

theorem min_max_of_unordered (h : (f.val a).cmp (f.val b) = .unordered) :
    f.minNum a b = (if f.val a = .nan then (if f.val b = .nan then f.nanCode else b) else a) ∧
    f.maxNum a b = if f.val a = .nan then (if f.val b = .nan then f.nanCode else b) else a := by
  simp only [FloatFmt.minNum, FloatFmt.maxNum, h, and_self]

theorem cmp_nan_left (v : FVal) : FVal.cmp .nan v = .unordered := by cases v <;> rfl
theorem cmp_nan_right (v : FVal) : FVal.cmp v .nan = .unordered := by cases v <;> rfl

/-- Finite values compare as their numbers do. -/
theorem cmp_fin (x y : Bool) (m n : Nat) (e g : Int) :
    (FVal.fin x m e).cmp (.fin y n g) = if (FVal.fin x m e).real < (FVal.fin y n g).real then .lt
      else if (FVal.fin x m e).real = (FVal.fin y n g).real then .eq else .gt := Dy.cmp_real _ _

theorem min_max_results :
    let va := f.val a
    let vb := f.val b
    (va = .nan → vb = .nan → f.minNum a b = f.nanCode ∧ f.maxNum a b = f.nanCode) ∧
    (va = .nan → vb ≠ .nan → f.minNum a b = b ∧ f.maxNum a b = b) ∧
    (va ≠ .nan → vb = .nan → f.minNum a b = a ∧ f.maxNum a b = a) ∧
    (∀ x y m n e g, va = .fin x m e → vb = .fin y n g →
      (va.real < vb.real → f.minNum a b = a ∧ f.maxNum a b = b) ∧
      (vb.real < va.real → f.minNum a b = b ∧ f.maxNum a b = a) ∧
      (va.real = vb.real → f.minNum a b = (if x then a else b) ∧ f.maxNum a b = if x then b else a)) ∧
    (∀ x y m e, va = .inf x → vb = .fin y m e → f.minNum a b = (if x then a else b) ∧ f.maxNum a b = if x then b else a) ∧
    (∀ x y m e, va = .fin y m e → vb = .inf x → f.minNum a b = (if x then b else a) ∧ f.maxNum a b = if x then a else b) ∧
    (∀ x y, va = .inf x → vb = .inf y → f.minNum a b = (if x then a else b) ∧ f.maxNum a b = if x then b else a) := by
  intro va vb
  refine ⟨fun ha hb => ?_, fun ha hb => ?_, fun ha hb => ?_, fun x y m n e g ha hb => ⟨fun lt => ?_, fun gt => ?_, fun eq => ?_⟩,
    fun x y m e ha hb => ?_, fun x y m e ha hb => ?_, fun x y ha hb => ?_⟩
  · simpa [va, vb, ha, hb] using min_max_of_unordered f (a := a) (b := b) (by rw [show f.val a = .nan from ha, cmp_nan_left])
  · simpa [va, vb, ha, hb] using min_max_of_unordered f (a := a) (b := b) (by rw [show f.val a = .nan from ha, cmp_nan_left])
  · simpa [va, vb, ha, hb] using min_max_of_unordered f (a := a) (b := b) (by rw [show f.val b = .nan from hb, cmp_nan_right])
  · exact min_max_of_lt f (by rw [ha, hb] at lt; rw [show f.val a = _ from ha, show f.val b = _ from hb, cmp_fin, if_pos lt])
  · refine min_max_of_gt f ?_
    rw [ha, hb] at gt
    rw [show f.val a = _ from ha, show f.val b = _ from hb, cmp_fin, if_neg gt.not_gt, if_neg gt.ne']
  · have := min_max_of_eq f (a := a) (b := b)
      (by rw [ha, hb] at eq; rw [show f.val a = _ from ha, show f.val b = _ from hb, cmp_fin, if_neg eq.not_lt, if_pos eq])
    rwa [show f.val a = _ from ha] at this
  · cases x with
    | true => exact min_max_of_lt f (by rw [show f.val a = _ from ha, show f.val b = _ from hb]; rfl)
    | false => exact min_max_of_gt f (by rw [show f.val a = _ from ha, show f.val b = _ from hb]; rfl)
  · cases x with
    | true => exact min_max_of_gt f (by rw [show f.val a = _ from ha, show f.val b = _ from hb]; rfl)
    | false => exact min_max_of_lt f (by rw [show f.val a = _ from ha, show f.val b = _ from hb]; rfl)
  · have cmp : (f.val a).cmp (f.val b) = if x = y then .eq else if x then .lt else .gt := by
      rw [show f.val a = _ from ha, show f.val b = _ from hb]
      rfl
    by_cases same : x = y
    · simpa [show f.val a = _ from ha, FVal.neg?] using min_max_of_eq f (cmp.trans (if_pos same))
    · cases x with
      | true => exact min_max_of_lt f (cmp.trans (if_neg same))
      | false => exact min_max_of_gt f (cmp.trans (if_neg same))

end

/-! ## The exact results, rounded once (R138, R143) -/

section
variable {f : FloatFmt} (hf : f ∈ [fp32, fp16, bf16])
include hf

/-- What the codes of a format stand for. -/
theorem code_values :
    let code (neg : Bool) (ex fr : Nat) : Nat := (if neg then 2 ^ (f.width - 1) else 0) + ex * 2 ^ f.fb + fr
    let ones : Nat := 2 ^ f.eb - 1
    (∀ neg ex fr, ex ≤ ones → fr < 2 ^ f.fb →
      (ex = ones → f.val (code neg ex fr) = if fr = 0 then .inf neg else .nan) ∧
      (ex < ones → ∃ m e, f.val (code neg ex fr) = .fin neg m e ∧
        (FVal.fin false m e).real = if ex = 0 then fr * (2 : ℝ) ^ (1 - (f.bias : Int) - f.fb) else (1 + fr / 2 ^ f.fb) * (2 : ℝ) ^ ((ex : Int) - f.bias))) ∧
    f.maxCode = code false ones 0 - 1 ∧ f.inf = some (code false ones 0) ∧ f.nanCode = code false ones (2 ^ (f.fb - 1)) := by
  obtain ⟨eb, _, _, max, inf, nan⟩ := format_codes hf
  refine ⟨fun neg ex fr _ hr => ⟨fun top => f.val_special max inf eb neg ex fr top hr, fun below => f.val_finite max neg ex fr below hr⟩,
    ?_, ?_, ?_⟩
  · simpa using max
  · simpa using inf
  · simpa using nan

theorem rounded_results (r : Rnd) (x y z : Bool) (m n p : Nat) (e g h : Int) :
    let a : FVal := .fin x m e
    let b : FVal := .fin y n g
    let d : FVal := .fin z p h
    f.RoundedTo r false (if m = 0 ∧ n = 0 ∧ x = y then x else r == .rdn) (a.real + b.real) (f.add r a b) ∧
    f.RoundedTo r false (x != y) (a.real * b.real) (f.mul r a b) ∧
    f.RoundedTo r false (if m * n = 0 ∧ p = 0 ∧ (x != y) = z then z else r == .rdn) (a.real * b.real + d.real) (f.fma r a b d) ∧
    (n ≠ 0 → f.RoundedTo r false (x != y) (a.real / b.real) (f.div r a b)) ∧
    (m = 0 ∨ x = false → f.RoundedTo r false x (Real.sqrt a.real) (f.sqrt r a)) ∧
    ∃ k : Nat, RoundsTo (fun k => (k : ℝ)) r x |a.real| k ∧ f.RoundedTo r false x (FVal.fin x k 0).real (f.toIntegral r a) := by
  obtain ⟨_, fb, fb63, _⟩ := format_codes hf
  have sign : (if m * n = 0 ∧ p = 0 ∧ (x != y) = z then x != y else r == .rdn) =
      if m * n = 0 ∧ p = 0 ∧ (x != y) = z then z else r == .rdn := by
    split
    · next same => exact same.2.2
    · rfl
  exact ⟨f.add_roundedTo fb r x y m n e g, f.mul_roundedTo fb r x y m n e g, sign ▸ f.fma_roundedTo fb r x y z m n p e g h,
    f.div_roundedTo fb fb63 r x y m n e g, f.sqrt_roundedTo fb fb63 r x m e, f.toIntegral_rounded fb r x m e⟩

end

/-- Settles O6: each instruction writes its operation's code in each active lane, and the operations are exact up to one rounding. -/
theorem floatArithmetic : Obligations.FloatArithmetic := by
  refine ⟨fun c rnd d a b => ?writes, fun f hf => code_values hf, rfl, rfl, rfl,
    fun f hf r x y z m n p e g h => rounded_results hf r x y z m n p e g h,
    fun f hf r x y m e a d => ⟨nan_results r a d, special_results hf r x y m e d⟩, fun f _ a b => min_max_results f⟩
  case writes =>
    refine ⟨?_, ?_, ?_, ?_, ?_, ?_, ?_, ?_, ?_⟩
    · exact float3_writes (fun a b _ => fp32.add rnd (fp32.val a) (fp32.val b)) rfl fun _ => float3_dst ..
    · exact float3_writes (fun a b _ => fp32.add rnd (fp32.val a) (fp32.val b).negate) rfl fun _ => float3_dst ..
    · exact float3_writes (fun a b _ => fp32.mul rnd (fp32.val a) (fp32.val b)) rfl fun _ => float3_dst ..
    · exact float3_writes (fun a b d => fp32.fma rnd (fp32.val a) (fp32.val b) (fp32.val d)) rfl fun _ => float3_dst ..
    · exact float3_writes (fun a b _ => fp32.minNum a b) rfl fun _ => float3_dst ..
    · exact float3_writes (fun a b _ => fp32.maxNum a b) rfl fun _ => float3_dst ..
    · exact float3_writes (fun a b _ => fp32.div rnd (fp32.val a) (fp32.val b)) rfl fun _ => float3_dst ..
    · exact float1_writes (fun a => fp32.sqrt rnd (fp32.val a)) rfl fun _ => float2_dst ..
    · exact float1_writes (fun a => fp32.toIntegral rnd (fp32.val a)) rfl fun _ => float2_dst ..

end Sys2Proof.Machine

/-! The functions that R145 bounds: FRCP, FRSQ, FEX2, FLG2, FSIN and FCOS (R340). -/

namespace Sys2Proof.Machine

/-! ## A free candidate for each lane -/

/-- Each active lane holds the function's result for a candidate of its own. -/
theorem float2_writes {i : Instr} {c : Ctl} {d a : VReg} (f : FVal → Lane → Nat)
    (meaning : exec i = issue i c false (fun x => x.float2 d a f)) :
    WritesFree i c 32 .f32 d (fun _ g l r => ∃ free : Lane, r = (BitVec.ofNat 32 (f (fp32.val (g.vval a l).toNat) free)).setWidth 64) := by
  have wrote : WritesFree i c 32 .f32 d (fun s g l r =>
      r = (BitVec.ofNat 32 (f (fp32.val (g.vval a l).toNat) (Config.freeWord (s.free + l)))).setWidth 64) :=
    toLanes_free (f := fun s g l => f (fp32.val (g.vval a l).toNat) (Config.freeWord (s.free + l))) meaning (fun _ _ _ => rfl)
      (fun _ _ => rfl)
  intro s gid g ready
  obtain ⟨g', run, ⟨rest, active, inactive, other⟩⟩ := wrote s gid g ready
  exact ⟨g', run, rest, fun l hl act => ⟨_, active l hl act⟩, inactive, other⟩

/-! ## Special points -/

section
variable (free : Lane)

theorem approx_nan : ∀ f ∈ [approxRcp, approxRsq, approxEx2, approxLg2, approxTrig false, approxTrig true], f free .nan = 0x7FC00000 := by
  simp only [List.mem_cons, List.not_mem_nil, or_false, forall_eq_or_imp, forall_eq]
  exact ⟨rfl, rfl, rfl, rfl, rfl, rfl⟩

/-- 2^a of a value of 128 and more is beyond FP32. -/
theorem approxEx2_large {s : Bool} {n : Nat} {e : Int} (h : Dy.le ⟨128, 0⟩ (FVal.dy (.fin s n e)) = true) :
    approxEx2 free (.fin s n e) = 0x7F800000 := by
  simp only [approxEx2, h, if_true]
  rfl

/-- 2^a of a value below −150 is zero. -/
theorem approxEx2_small {s : Bool} {n : Nat} {e : Int} (h : (FVal.dy (.fin s n e)).cmp ⟨-150, 0⟩ = .lt) :
    approxEx2 free (.fin s n e) = 0 := by
  have notLarge : Dy.le ⟨128, 0⟩ (FVal.dy (.fin s n e)) = false := by
    rw [Dy.cmp_real] at h
    split at h
    · next below =>
      refine Bool.eq_false_iff.2 fun large => ?_
      have order := (Dy.le_real _ _).1 large
      norm_num [Dy.real] at below order
      linarith
    · split at h <;> cases h
  simp only [approxEx2, notLarge, h, Bool.false_eq_true, if_false, beq_self_eq_true, if_true]

theorem approxLg2_one : approxLg2 free (fp32.val 0x3F800000) = 0 := by
  have one : fp32.val 0x3F800000 = .fin false (2 ^ 23) (-23) := by decide
  have log : Nat.log2 (2 ^ 23) = 23 := Nat.log2_two_pow
  rw [one, approxLg2]
  simp only [log]
  norm_num

theorem approx_specials (s : Bool) (n : Nat) (e : Int) :
    let nan := 0x7FC00000
    let inf (neg : Bool) : Nat := if neg then 0xFF800000 else 0x7F800000
    let zero (neg : Bool) : Nat := if neg then 0x80000000 else 0
    (∀ f ∈ [approxRcp, approxRsq, approxEx2, approxLg2, approxTrig false, approxTrig true], f free .nan = nan) ∧
    approxRcp free (.fin s 0 e) = inf s ∧ approxRcp free (.inf s) = zero s ∧
    approxRsq free (.fin s 0 e) = inf s ∧ approxRsq free (.inf false) = 0 ∧ approxRsq free (.inf true) = nan ∧
    (n ≠ 0 → approxRsq free (.fin true n e) = nan ∧ approxLg2 free (.fin true n e) = nan) ∧
    approxEx2 free (.inf true) = 0 ∧ approxEx2 free (.inf false) = inf false ∧
    (Dy.le ⟨128, 0⟩ (FVal.dy (.fin s n e)) = true → approxEx2 free (.fin s n e) = inf false) ∧
    ((FVal.dy (.fin s n e)).cmp ⟨-150, 0⟩ = .lt → approxEx2 free (.fin s n e) = 0) ∧
    approxLg2 free (.fin s 0 e) = inf true ∧ approxLg2 free (.inf true) = nan ∧ approxLg2 free (.inf false) = inf false ∧
    approxLg2 free (fp32.val 0x3F800000) = 0 ∧
    (∀ f ∈ [approxTrig false, approxTrig true], f free (.inf s) = nan) ∧
    approxTrig false free (.fin s 0 e) = zero s ∧ approxTrig true free (.fin s 0 e) = 0x3F800000 := by
  have inf : fp32.infCode false s = if s then 0xFF800000 else 0x7F800000 := by cases s <;> rfl
  have zero : fp32.signed s 0 = if s then 0x80000000 else 0 := by cases s <;> rfl
  have one : fp32.round .rne false false 1 0 false = 0x3F800000 := by decide
  refine ⟨approx_nan free, inf, zero, inf, rfl, rfl, fun hn => ⟨?_, ?_⟩, rfl, rfl, approxEx2_large free, approxEx2_small free, rfl, rfl, rfl,
    approxLg2_one free, ?_, zero, one⟩
  · simp only [approxRsq, hn, if_false, if_true]
    rfl
  · simp only [approxLg2, hn, if_false, if_true]
    rfl
  · simp only [List.mem_cons, List.not_mem_nil, or_false, forall_eq_or_imp, forall_eq]
    exact ⟨rfl, rfl⟩

end

/-- Settles O8: every candidate is either within the bound or replaced, and the special points do not look at it. -/
theorem approximations : Obligations.Approximations := by
  refine ⟨fun c rnd d a => ?writes, fun free s n e => approx_specials free s n e, fun free code x m e hc => ?bounds⟩
  case writes =>
    exact ⟨float2_writes (fun a c => approxRcp c a) rfl, float2_writes (fun a c => approxRsq c a) rfl,
      float2_writes (fun a c => approxEx2 c a) rfl, float2_writes (fun a c => approxLg2 c a) rfl,
      float2_writes (fun a c => approxTrig false c a) rfl, float2_writes (fun a c => approxTrig true c a) rfl⟩
  case bounds =>
    refine ⟨fun hm => approxRcp_bound free x m e hm, fun hm positive => ?_, approxEx2_bound free x m e, fun hm positive one => ?_,
      fun hm within => ?_, fun beyond => ?_⟩
    · subst positive
      exact approxRsq_code free hc hm
    · subst positive
      exact approxLg2_code free hc hm one
    · exact ⟨(approxTrig_bound false free x m e hm).1 within, (approxTrig_bound true free x m e hm).1 within⟩
    · have hm : m ≠ 0 := by
        rintro rfl
        norm_num [FVal.real_fin] at beyond
      exact ⟨(approxTrig_bound false free x m e hm).2 beyond, (approxTrig_bound true free x m e hm).2 beyond⟩

end Sys2Proof.Machine

/-! The conversions that write one word or pair in each active lane: CVT, CVTP, QCVT and QCMP (R334, R335, R377, R378). -/

namespace Sys2Proof.Machine

/-- What holds of the values that an instruction writes may be said in any weaker way. -/
theorem WritesV.mono {i : Instr} {c : Ctl} {ty : Ty} {d : VReg} {P Q : State → Group → Nat → Word → Prop} (h : WritesV i c ty d P)
    (weaker : i.WellFormed → ∀ s g l r, P s g l r → Q s g l r) : WritesV i c ty d Q := by
  intro s gid g ready
  obtain ⟨g', run, ⟨rest, active, inactive, other⟩⟩ := h s gid g ready
  exact ⟨g', run, rest, fun l hl act => weaker ready.wf _ _ _ _ (active l hl act), inactive, other⟩

/-- Only well-formed instructions are asked about. -/
theorem WritesV.of_wf {i : Instr} {c : Ctl} {ty : Ty} {d : VReg} {P : State → Group → Nat → Word → Prop}
    (h : i.WellFormed → WritesV i c ty d P) : WritesV i c ty d P :=
  fun s gid g ready => h ready.wf s gid g ready

/-! ## Packed words (R137, R335) -/

theorem fmtBits_perWord (dst : Fmt) : fmtBits dst * dst.perWord ≤ 32 := by cases dst <;> decide

theorem packWord_lt (dst : Fmt) (f : Nat → Nat) : packWord dst f < 2 ^ 32 := by
  have bound := packElems_lt (fmtBits dst) ((List.range dst.perWord).map (fun i => (f i : Int)))
  rw [List.length_map, List.length_range] at bound
  exact lt_of_lt_of_le bound (Nat.pow_le_pow_right (by omega) (fmtBits_perWord dst))

/-- Field `i` of a packed word is the element that was packed there, in the format's bits. -/
theorem packWord_field (dst : Fmt) (f : Nat → Nat) {i : Nat} (hi : i < dst.perWord) :
    ((BitVec.ofNat 32 (packWord dst f)).setWidth 64).toNat / 2 ^ (fmtBits dst * i) % 2 ^ fmtBits dst = f i % 2 ^ fmtBits dst := by
  rw [zext_toNat, BitVec.toNat_ofNat, Nat.mod_eq_of_lt (packWord_lt dst f), packWord,
    packElems_elem _ _ _ (by simpa using hi), List.getElem_map, List.getElem_range]
  norm_cast

/-! ## CVT (R334) -/

theorem cvtOk_of_wf {c : Ctl} {dty sty : Ty} {sat : Bool} {rnd : Rnd} {d a : VReg} (h : (Instr.cvt c dty sty sat rnd d a).WellFormed) :
    cvtOk dty sty = true := by
  simp only [Instr.WellFormed, Instr.illFormed, firstBad_cons] at h
  obtain ⟨_, ok, _⟩ := h
  exact ok

/-- CVT keeps the number of elements. -/
theorem countOf_of_cvtOk {dty sty : Ty} (h : cvtOk dty sty = true) : countOf sty = countOf dty := by
  cases dty <;> cases sty <;> first | rfl | cases h

theorem widthOf_countOf {ty : Ty} (h : ty.is64 = false) : widthOf ty * countOf ty = 32 := by
  cases ty <;> first | rfl | cases h

/-- Elements of a narrow type fill the low half. -/
theorem pack_low {ty : Ty} (h : ty.is64 = false) {es : List Int} (hl : es.length = countOf ty) :
    ((BitVec.ofNat 64 (packElems (widthOf ty) es)).extractLsb' 0 32).setWidth 64 = BitVec.ofNat 64 (packElems (widthOf ty) es) := by
  have bound := packElems_lt (widthOf ty) es
  rw [hl, widthOf_countOf h] at bound
  apply BitVec.eq_of_toNat_eq
  rw [low_eq_setWidth]
  simp only [BitVec.toNat_setWidth, BitVec.toNat_ofNat]
  omega

/-- The elements of a word, converted and packed (R334). -/
def cvtWord (dty sty : Ty) (sat : Bool) (rnd : Rnd) (w : Word) : Word :=
  BitVec.ofNat 64 (packElems (widthOf dty) ((List.range (countOf sty)).map (fun i => (cvtElem dty sty sat rnd (elemOf sty w i).toNat : Int))))

theorem elemOf_cvtWord {dty sty : Ty} (ok : cvtOk dty sty = true) (sat : Bool) (rnd : Rnd) (w : Word) {i : Nat} (hi : i < countOf dty) :
    elemOf dty (cvtWord dty sty sat rnd w) i = BitVec.ofNat (widthOf dty) (cvtElem dty sty sat rnd (elemOf sty w i).toNat) := by
  rw [cvtWord, elemOf_pack dty _ (by simp [countOf_of_cvtOk ok]) i hi, List.getElem_map, List.getElem_range, ofInt_nat]

theorem cvt_writes (c : Ctl) (dty sty : Ty) (sat : Bool) (rnd : Rnd) (d a : VReg) :
    WritesV (.cvt c dty sty sat rnd d a) c dty d (fun _ g l r => ∀ i, i < countOf dty →
      elemOf dty r i = BitVec.ofNat (widthOf dty) (cvtElem dty sty sat rnd (elemOf sty (g.tval sty a l) i).toNat)) := by
  refine WritesV.of_wf fun wf => ?_
  have ok := cvtOk_of_wf wf
  have wrote : WritesV (.cvt c dty sty sat rnd d a) c dty d (fun _ g l r => r = cvtWord dty sty sat rnd (g.tval sty a l)) := by
    refine toV_writes (f := fun _ g l => cvtWord dty sty sat rnd (g.tval sty a l)) (body := fun x => x.toV dty d (fun l =>
        BitVec.ofNat 64 (packElems (elemWidth dty) ((List.range (elemCount sty)).map (fun i =>
          (cvtElem dty sty sat rnd (elemAt (elemWidth sty) (x.vval sty a l) i) : Int)))))) rfl (fun s gid g => ?_) (fun _ _ => rfl)
      (fun _ => ⟨.dst, _, rfl⟩) fun h _ _ _ => pack_low h (by simp [countOf_of_cvtOk ok])
    simp only [vval_mk, elemWidth_eq, elemCount_eq, elemAt_eq, cvtWord]
  exact wrote.mono fun _ _ _ _ _ hr i hi => hr ▸ elemOf_cvtWord ok sat rnd _ hi

/-! ## CVTP, QCVT and QCMP (R335, R377, R378) -/

theorem runLane_mk (s : State) (gid : Nat) (g : Group) (c : Ctl) (act : Mask) (r : VReg) (i l : Nat) :
    Ctx.runLane ⟨s, gid, g, g.runNow, c, act⟩ r i l = g.getV (g.vname r + i) l := rfl

/-- An instruction that packs one word in each active lane, field by field. -/
theorem packed_writes {i : Instr} {c : Ctl} {d : VReg} {dst : Fmt} (f : Group → Nat → Nat → Nat) {body : Ctx → Res}
    (meaning : exec i = issue i c false body)
    (packs : ∀ s gid g, body ⟨s, gid, g, g.runNow, c, g.active c⟩ =
      Ctx.toLanes ⟨s, gid, g, g.runNow, c, g.active c⟩ d (fun l => packWord dst (f g l)))
    (names : ∀ xs, ∃ how rest, usesOf xs i = useV xs 0 d how 1 false ++ rest) :
    WritesV i c .f32 d (fun _ g l r => ∀ j, j < dst.perWord → r.toNat / 2 ^ (fmtBits dst * j) % 2 ^ fmtBits dst = f g l j % 2 ^ fmtBits dst) :=
  (toLanes_writes (f := fun _ g l => packWord dst (f g l)) meaning packs (fun _ _ => rfl) names).mono
    fun _ _ _ _ _ hr _ hj => hr ▸ packWord_field dst _ hj

theorem cvtp_writes (c : Ctl) (dst : Fmt) (sty : Ty) (sat : Bool) (rnd : Rnd) (d a : VReg) :
    WritesV (.cvtp c dst sty sat rnd d a) c .f32 d (fun _ g l r => ∀ i, i < dst.perWord →
      r.toNat / 2 ^ (fmtBits dst * i) % 2 ^ fmtBits dst = cvtpElem dst sty sat rnd (g.getV (g.vname a + i) l) % 2 ^ fmtBits dst) :=
  packed_writes (fun g l i => cvtpElem dst sty sat rnd (g.getV (g.vname a + i) l))
    (body := fun x => x.toLanes d (fun l => packWord dst (fun i => cvtpElem dst sty sat rnd (x.runLane a i l)))) rfl (fun _ _ _ => rfl)
    fun _ => ⟨.dst, _, rfl⟩

theorem scaled_of_wf {c : Ctl} {dst : Fmt} {sf : ScaleFmt} {len : BlkLen} {rnd : Rnd} {d a : VReg}
    (h : (Instr.qcvt c dst sf len rnd d a).WellFormed) : len ≠ .none := by
  simp only [Instr.WellFormed, Instr.illFormed, firstBad_cons, quantOk, Bool.and_eq_true, bne_iff_ne] at h
  obtain ⟨_, ⟨_, scaled⟩, _⟩ := h
  exact scaled

/-- The scale of a lane's elements stands in a byte of the register after the run's (R377). -/
theorem scaleOf_mk (s : State) (gid : Nat) (g : Group) (c : Ctl) (act : Mask) (fmt : Fmt) (sf : ScaleFmt) {len : BlkLen} (h : len ≠ .none)
    (a : VReg) (k l : Nat) : Ctx.scaleOf ⟨s, gid, g, g.runNow, c, act⟩ fmt sf len a k l =
      scaleVal sf ((g.getV (g.vname a + k) (l * fmt.perWord / blkLen len)).setWidth 8) := by
  rw [Ctx.scaleOf, if_neg h, runLane_mk, low_eq_setWidth]

theorem qcvt_writes (c : Ctl) (dst : Fmt) (sf : ScaleFmt) (len : BlkLen) (rnd : Rnd) (d a : VReg) :
    WritesV (.qcvt c dst sf len rnd d a) c .f32 d (fun _ g l r => ∀ i, i < dst.perWord →
      r.toNat / 2 ^ (fmtBits dst * i) % 2 ^ fmtBits dst =
        quantise dst rnd (scaleVal sf ((g.getV (g.vname a + dst.perWord) (l * dst.perWord / blkLen len)).setWidth 8))
          (fp32.val (g.getV (g.vname a + i) l).toNat) % 2 ^ fmtBits dst) :=
  WritesV.of_wf fun wf =>
    packed_writes (fun g l i => quantise dst rnd (scaleVal sf ((g.getV (g.vname a + dst.perWord) (l * dst.perWord / blkLen len)).setWidth 8))
        (fp32.val (g.getV (g.vname a + i) l).toNat))
      (body := fun x => x.toLanes d (fun l => packWord dst (fun i =>
        quantise dst rnd (x.scaleOf dst sf len a dst.perWord l) (fp32.val (x.runLane a i l).toNat)))) rfl
      (fun s gid g => by simp only [scaleOf_mk _ _ _ _ _ _ _ (scaled_of_wf wf), runLane_mk]) fun _ => ⟨.dst, _, rfl⟩

/-- A body that writes packed codes to its active lanes changes its group alone. -/
theorem toLanes_packs (s : State) (gid : Nat) (g : Group) (c : Ctl) (d : VReg) (dst : Fmt) (f : Nat → Nat → Nat) :
    ∃ g', Ctx.toLanes ⟨s, gid, g, g.runNow, c, g.active c⟩ d (fun l => packWord dst (f l)) =
        Ctx.done ⟨s, gid, g, g.runNow, c, g.active c⟩ g' ∧
      WroteV g g' .f32 d (g.active c) (fun l r => ∀ i, i < dst.perWord →
        r.toNat / 2 ^ (fmtBits dst * i) % 2 ^ fmtBits dst = f l i % 2 ^ fmtBits dst) := by
  obtain ⟨g', done, ⟨rest, active, inactive, other⟩⟩ := toV_wrote ⟨s, gid, g, g.runNow, c, g.active c⟩ rfl .f32 d
    (fun l => (BitVec.ofNat 32 (packWord dst (f l))).setWidth 64) (fun h => by cases h) (fun _ _ => low_of_setWidth32 _)
  exact ⟨g', (toLanes_eq ..).trans done, rest, fun l hl act i hi => active l hl act ▸ packWord_field dst _ hi, inactive, other⟩

theorem exec_qcmp {s : State} {gid : Nat} {g : Group} {c : Ctl} {tab : BitVec 2} {d a : VReg} (ready : Active s gid g c (.qcmp c tab d a))
    (first : ctldAhead s (s.blockOf g).core = false) : ∃ g',
      exec (.qcmp c tab d a) s = .next (after s gid g c (.qcmp c tab d a) g') ∧
      WroteV g g' .f32 d (g.active c) (fun l r => ∀ i, i < 4 → r.toNat / 2 ^ (8 * i) % 2 ^ 8 =
        c8Quantise (s.core (s.blockOf g).core).ctab tab.toNat (fp32.val (g.getV (g.vname a + i) l).toNat) % 2 ^ 8) := by
  obtain ⟨g', done, wrote⟩ := toLanes_packs s.tickSeq gid g c d .c8 (fun l i =>
    c8Quantise (s.core (s.blockOf g).core).ctab tab.toNat (fp32.val (g.getV (g.vname a + i) l).toNat))
  refine ⟨g', ?_, wrote⟩
  have idle : ctldAhead s.tickSeq (s.tickSeq.blockOf g).core = false := first
  change execQcmp c tab d a s = _
  simp only [execQcmp, issue_active ready, idle, Bool.false_eq_true, if_false]
  simp only [State.blockOf_tickSeq, State.core_tickSeq, runLane_mk, done]
  rfl

/-- Settles O10: each instruction converts the elements in their places, and each conversion is what its rule says. -/
theorem conversions : Obligations.Conversions := by
  refine ⟨fun c dty sty dst sf len tab sat rnd d a => ⟨cvt_writes c dty sty sat rnd d a, cvtp_writes c dst sty sat rnd d a,
      qcvt_writes c dst sf len rnd d a, fun s gid g ready first => exec_qcmp ready first⟩,
    fun dty sty sat rnd a _ small => cvtElem_spec dty sty sat rnd a small, fun dst sty sat rnd a _ => cvtpElem_spec dst sty sat rnd a,
    fun dst rnd x _ => quantise_spec dst rnd x, scaleVal_spec, rfl, fun t tab x rising => c8Quantise_spec t tab x rising⟩

end Sys2Proof.Machine

/-! The scalar moves and the special registers (R384, R403, R404, R427, R428). -/

namespace Sys2Proof.Machine

/-- The word that a source of SMOV gives (R403). -/
def smovValue (s : State) (g : Group) : SMovSrc → Word
  | .sca r => g.sval r
  | .idx n => (g.getX n.toNat).signExtend 64
  | .spr r => special s g r

theorem smov_value (s : State) (gid : Nat) (g : Group) (c : Ctl) (a : SMovSrc) :
    (match a with
      | .sca r => (ctxOf s gid g c).sreg r
      | .idx n => ((ctxOf s gid g c).g.getX n.toNat).signExtend 64
      | .spr r => special (ctxOf s gid g c).s (ctxOf s gid g c).g r) = smovValue s g a := by
  cases a with
  | sca r => rfl
  | idx n => rfl
  | spr r => exact special_tickSeq s g r

/-- SMOV to a scalar extends its source by type. -/
theorem smov_writes (c : Ctl) (ty : Ty) (d : SReg) (a : SMovSrc) :
    WritesS (.smov c ty (.sca d) a) c d (fun s g => scalarOf ty (fun _ v _ => v) (smovValue s g a) 0) := by
  refine writesS_of_toS (fun x => extend ty (match a with
      | .sca r => x.sreg r
      | .idx n => (x.g.getX n.toNat).signExtend 64
      | .spr r => special x.s x.g r)) (fun _ => rfl) fun wf s gid g => ?_
  rw [smov_value, extend_eq (smov_scalar wf)]

/-- SMOV to an index register keeps bits [15:0]. -/
theorem smov_changes (c : Ctl) (ty : Ty) (y : BitVec 3) (a : SMovSrc) :
    Changes (.smov c ty (.idx y) a) c (fun s g => g.setX y.toNat ((smovValue s g a).setWidth 16)) := by
  intro s gid g ready
  change execSmov c ty (.idx y) a s = _
  simp only [execSmov, issue_active ready, ← smov_value s gid g c a, ← low_eq_setWidth]
  rfl

theorem signExtend_index (x : BitVec 16) : (x.signExtend 64).setWidth 16 = x := by
  ext i hi
  simp [hi, show i < 64 by omega, BitVec.getElem_signExtend]

/-- SMOVH joins its immediate and the low half. -/
theorem smovh_value (imm : BitVec 32) (v : Word) : imm ++ v.extractLsb' 0 32 = (imm.setWidth 64 <<< 32) ||| (v &&& 0xFFFFFFFF) := by
  have low : v &&& 0xFFFFFFFF = (v.setWidth 32).setWidth 64 := by
    apply BitVec.eq_of_toNat_eq
    have cut : v.toNat &&& 0xFFFFFFFF = v.toNat % 2 ^ 32 := Nat.and_two_pow_sub_one_eq_mod v.toNat 32
    simp only [BitVec.toNat_and, BitVec.toNat_setWidth]
    exact cut.trans (by omega)
  rw [low, low_eq_setWidth]
  ext i hi
  rw [BitVec.getElem_append]
  by_cases below : i < 32
  · simp [below]
  · simp [below, show i - 32 < 32 by omega]

/-- WRSR writes its register alone. -/
theorem wrsr_changes (c : Ctl) (d : Special) (a : SSrc) : Changes (.wrsr c d a) c (fun _ g => writeSpecial g d (g.ssval a)) := by
  intro s gid g ready
  change execWrsr c d a s = _
  simp only [execWrsr, issue_active ready, ssrc_mk]
  rfl

theorem rdsr_writes (c : Ctl) (d : SReg) (r : Special) : WritesS (.rdsr c d r) c d (fun s g => special s g r) :=
  writesS_of_toS (fun x => special x.s x.g r) (fun _ => rfl) fun _ s _ g => special_tickSeq s g r

/-- Settles O2: every move writes its source, extended or cut as its destination asks. -/
theorem scalarMovesAndSpecials : Obligations.ScalarMovesAndSpecials := by
  refine ⟨fun c ty d a x y r imm => ⟨smov_writes c ty d (.sca a), smov_writes c ty d (.idx x), smov_writes c ty d (.spr r),
    smov_changes c ty y (.sca a), ?idx, smov_changes c ty y (.spr r), ?movi, ?movh⟩, fun c d r => ?rdsr, fun c a => ?wrsr⟩
  case idx =>
    have moved := smov_changes c ty y (.idx x)
    simp only [smovValue, signExtend_index] at moved
    exact moved
  case movi =>
    refine writesS_of_toS (fun _ => if ty = .i32 ∨ ty = .i64 then imm.signExtend 64 else imm.zeroExtend 64) (fun _ => rfl) fun _ _ _ _ => ?_
    cases ty <;> rfl
  case movh =>
    exact writesS_of_toS (fun x => imm ++ (x.sreg d).extractLsb' 0 32) (fun _ => rfl) fun _ _ _ _ => smovh_value imm _
  case rdsr =>
    have read := rdsr_writes c d r
    cases r <;> exact read
  case wrsr =>
    have written (d : Special) := wrsr_changes c d a
    simp only [writeSpecial, low_eq_setWidth] at written
    exact ⟨written .lag, written .lfm, written .nrs, written .xcause, written .xpc, written .xaddr, written .xlanes, written .xstep,
      written .xprog, written .xinfo, written .xvec, written .wbv, written .wbs, written .spill, written .accst⟩

end Sys2Proof.Machine

/-! The conversions that write several registers, or one lane for each block: DQCVT and QSCL (R336, R376). -/

namespace Sys2Proof.Machine

/-! ## Writes by name within the window (R58) -/

theorem getV_setV {g : Group} {n k l m : Nat} {x : Lane} (hn : n < g.winV) (hk : k < g.winV) (hl : l < 32) (hm : m < 32) :
    (g.setV n l x).getV k m = if k = n ∧ m = l then x else g.getV k m := by
  have same : 32 * g.physV k + m = 32 * g.physV n + l ↔ k = n ∧ m = l :=
    ⟨fun h => ⟨physV_inj hk hn (by omega), by omega⟩, fun ⟨hkn, hml⟩ => by rw [hkn, hml]⟩
  exact (setV_get g n l x _).trans (if_congr same rfl rfl)

/-- `g'` is `g` but for its vector registers. -/
def OnlyVectors (g g' : Group) : Prop := g' = { g with r := { g.r with v := g'.r.v } }

theorem OnlyVectors.refl (g : Group) : OnlyVectors g g := rfl

theorem OnlyVectors.winV {g g' : Group} (h : OnlyVectors g g') : g'.winV = g.winV := by rw [h]; rfl

theorem OnlyVectors.physV {g g' : Group} (h : OnlyVectors g g') (n : Nat) : g'.physV n = g.physV n := by rw [h]; rfl

theorem OnlyVectors.trans {a b d : Group} (h : OnlyVectors a b) (k : OnlyVectors b d) : OnlyVectors a d := by
  rw [OnlyVectors, k, h]

theorem OnlyVectors.setV (g : Group) (n l : Nat) (x : Lane) : OnlyVectors g (g.setV n l x) := rfl

theorem writeLanes_only (g : Group) (n : Nat) (act : Mask) (f : Nat → Lane) : OnlyVectors g (g.writeLanes n act f) :=
  (foldV n f (lanesOf act) (fun _ hl => ((mem_lanesOf _ _).1 hl).1) g).1

theorem getV_writeLanes {g : Group} {n k m : Nat} {act : Mask} {f : Nat → Lane} (hn : n < g.winV) (hk : k < g.winV) (hm : m < 32) :
    (g.writeLanes n act f).getV k m = if k = n ∧ bitOf act m = true then f m else g.getV k m := by
  obtain ⟨_, wrote⟩ := foldV n f (lanesOf act) (fun _ hl => ((mem_lanesOf _ _).1 hl).1) g
  rw [Group.getV, (writeLanes_only g n act f).physV]
  refine (wrote _).trans ?_
  have place : (32 * g.physV k + m) / 32 = g.physV n ↔ k = n :=
    ⟨fun h => physV_inj hk hn (by omega), fun h => by rw [h]; omega⟩
  simp only [place, show (32 * g.physV k + m) % 32 = m by omega, mem_lanesOf, hm, true_and]
  rfl

theorem writeRun_succ (g : Group) (n m : Nat) (act : Mask) (f : Nat → Nat → Lane) :
    g.writeRun n (m + 1) act f = (g.writeRun n m act f).writeLanes (n + m) act (f m) := by
  simp [Group.writeRun, List.range_succ]

theorem writeRun_only (g : Group) (n m : Nat) (act : Mask) (f : Nat → Nat → Lane) : OnlyVectors g (g.writeRun n m act f) := by
  induction m with
  | zero => exact .refl g
  | succ m ih => rw [writeRun_succ]; exact ih.trans (writeLanes_only ..)

/-- A run of registers written in the active lanes: within the window, each name gives its own register. -/
theorem getV_writeRun {g : Group} {n m k l : Nat} {act : Mask} {f : Nat → Nat → Lane} (hw : n + m ≤ g.winV) (hk : k < g.winV) (hl : l < 32) :
    (g.writeRun n m act f).getV k l = if (n ≤ k ∧ k < n + m) ∧ bitOf act l = true then f (k - n) l else g.getV k l := by
  induction m with
  | zero => rw [if_neg (by omega)]; rfl
  | succ m ih =>
    have win := (writeRun_only g n m act f).winV
    rw [writeRun_succ, getV_writeLanes (by omega) (by omega) hl, ih (by omega)]
    by_cases last : k = n + m
    · simp [last]
    · have inner : (n ≤ k ∧ k < n + (m + 1)) ↔ (n ≤ k ∧ k < n + m) := by omega
      simp only [last, inner, false_and, if_false]

/-! ## DQCVT (R336) -/

/-- The scale of an element's block, 1 when the source is not scaled. -/
def dqScale (g : Group) (src : Fmt) (tab : BitVec 2) (len : BlkLen) (a : VReg) (l : Nat) : FVal :=
  if len = .none then .fin false 1 0
  else scaleVal (if tab = 0 then .e8m0 else .ue4m3) ((g.getV (g.vname a + 1) (l * src.perWord / blkLen len)).setWidth 8)

/-- The element that DQCVT writes to lane `l` of its register `i`. -/
def dqLane (ct : Table (BitVec 3 × BitVec 9)) (g : Group) (dty : Ty) (src : Fmt) (tab : BitVec 2) (len : BlkLen) (sat : Bool) (rnd : Rnd)
    (a : VReg) (i l : Nat) : Lane :=
  BitVec.ofNat 32 (dqElem ct tab.toNat src dty sat rnd (dqScale g src tab len a l)
    ((g.vval a l).toNat / 2 ^ (fmtBits src * i) % 2 ^ fmtBits src))

theorem dqScale_mk (s : State) (gid : Nat) (g : Group) (c : Ctl) (act : Mask) (src : Fmt) (tab : BitVec 2) (len : BlkLen) (a : VReg) (l : Nat) :
    Ctx.scaleOf ⟨s, gid, g, g.runNow, c, act⟩ src (if tab = 0 then .e8m0 else .ue4m3) len a 1 l = dqScale g src tab len a l := by
  by_cases unscaled : len = .none
  · rw [Ctx.scaleOf, dqScale, if_pos unscaled, if_pos unscaled]
  · rw [scaleOf_mk _ _ _ _ _ _ _ unscaled, dqScale, if_neg unscaled]

theorem exec_dqcvt {s : State} {gid : Nat} {g : Group} {c : Ctl} {dty : Ty} {src : Fmt} {tab : BitVec 2} {len : BlkLen} {sat : Bool}
    {rnd : Rnd} {d a : VReg} (ready : Active s gid g c (.dqcvt c dty src tab len sat rnd d a))
    (first : src = .c8 → ctldAhead s (s.blockOf g).core = false) :
    exec (.dqcvt c dty src tab len sat rnd d a) s = .next (after s gid g c (.dqcvt c dty src tab len sat rnd d a)
      (g.writeRun (g.vname d) src.perWord (g.active c)
        (dqLane (s.core (s.blockOf g).core).ctab g dty src tab len sat rnd a))) := by
  have idle : ¬ (src = .c8 ∧ ctldAhead s.tickSeq (s.tickSeq.blockOf g).core = true) := fun ⟨h, ahead⟩ =>
    Bool.false_ne_true ((first h).symm.trans ahead)
  change execDqcvt c dty src tab len sat rnd d a s = _
  simp only [execDqcvt, issue_active ready, idle, if_false]
  simp only [dqScale_mk, lane_mk]
  rfl

theorem dqcvt_window {s : State} {gid : Nat} {g : Group} {c : Ctl} {dty : Ty} {src : Fmt} {tab : BitVec 2} {len : BlkLen} {sat : Bool}
    {rnd : Rnd} {d a : VReg} (ready : Ready s gid g c (.dqcvt c dty src tab len sat rnd d a)) : g.vname d + src.perWord ≤ g.winV := by
  have names := checkIssue_window ready.checked
  have last := vname_window (src.perWord - 1) (by cases src <;> decide) fun u hu => names u (List.mem_append_left _ hu)
  have some : 0 < src.perWord := by cases src <;> decide
  change g.vname d + (src.perWord - 1) < g.winV at last
  omega

theorem dqcvt_writes (c : Ctl) (dty : Ty) (src : Fmt) (tab : BitVec 2) (len : BlkLen) (sat : Bool) (rnd : Rnd) (d a : VReg)
    (s : State) (gid : Nat) (g : Group) (ready : Active s gid g c (.dqcvt c dty src tab len sat rnd d a))
    (first : src = .c8 → ctldAhead s (s.blockOf g).core = false) :
    ∃ g', exec (.dqcvt c dty src tab len sat rnd d a) s = .next (after s gid g c (.dqcvt c dty src tab len sat rnd d a) g') ∧
      OnlyVectors g g' ∧
      (∀ i l, i < src.perWord → l < 32 → g'.getV (g.vname d + i) l =
        if bitOf (g.active c) l then dqLane (s.core (s.blockOf g).core).ctab g dty src tab len sat rnd a i l
        else g.getV (g.vname d + i) l) ∧
      ∀ n l, n < g.winV → l < 32 → (∀ i, i < src.perWord → n ≠ g.vname d + i) → g'.getV n l = g.getV n l := by
  have window := dqcvt_window ready.toReady
  refine ⟨_, exec_dqcvt ready first, writeRun_only .., fun i l hi hl => ?_, fun n l hn hl apart => ?_⟩
  · rw [getV_writeRun window (by omega) hl]
    simp only [Nat.le_add_right, Nat.add_lt_add_left hi, true_and, Nat.add_sub_cancel_left, and_self]
  · rw [getV_writeRun window hn hl, if_neg]
    rintro ⟨⟨low, high⟩, _⟩
    exact apart (n - g.vname d) (by omega) (by omega)

/-! ## QSCL (R376) -/

/-- The active lanes of block `b`. -/
def blockLanes (act : Mask) (span b : Nat) : List Nat := (lanesOf act).filter (fun l => l / span == b)

/-- The scale that QSCL chooses for block `b`. -/
def blockScale (g : Group) (act : Mask) (dst : Fmt) (sf : ScaleFmt) (span : Nat) (a : VReg) (b : Nat) : Lane :=
  (chooseScale dst sf (largest ((blockLanes act span b).flatMap (fun l =>
    (List.range dst.perWord).map (fun i => fp32.val (g.getV (g.vname a + i) l).toNat))))).setWidth 32

/-- A register written in the first `m` lanes where `p` holds. -/
def writeWhere (n : Nat) (p : Nat → Bool) (f : Nat → Lane) (m : Nat) (g : Group) : Group :=
  (List.range m).foldl (fun g' b => if p b then g' else g'.setV n b (f b)) g

theorem writeWhere_succ (n : Nat) (p : Nat → Bool) (f : Nat → Lane) (m : Nat) (g : Group) :
    writeWhere n p f (m + 1) g = if p m then writeWhere n p f m g else (writeWhere n p f m g).setV n m (f m) := by
  simp [writeWhere, List.range_succ]

theorem writeWhere_only (n : Nat) (p : Nat → Bool) (f : Nat → Lane) (m : Nat) (g : Group) : OnlyVectors g (writeWhere n p f m g) := by
  induction m with
  | zero => exact .refl g
  | succ m ih =>
    rw [writeWhere_succ]
    split
    · exact ih
    · exact ih.trans (.setV ..)

theorem getV_writeWhere {n : Nat} {p : Nat → Bool} {f : Nat → Lane} {m k l : Nat} {g : Group} (hn : n < g.winV) (hk : k < g.winV)
    (hl : l < 32) (hm : m ≤ 32) :
    (writeWhere n p f m g).getV k l = if k = n ∧ l < m ∧ p l = false then f l else g.getV k l := by
  induction m with
  | zero => rw [if_neg (by omega)]; rfl
  | succ m ih =>
    have win := (writeWhere_only n p f m g).winV
    rw [writeWhere_succ]
    by_cases last : l = m
    · subst last
      cases skip : p l <;> simp [skip, getV_setV, hn, hk, hl, win, ih (by omega)]
    · have inner : l < m + 1 ↔ l < m := by omega
      cases p m <;> simp [getV_setV, hn, hk, hl, win, ih (by omega), show m < 32 by omega, last, inner]

/-- The body of QSCL writes the scale of each block with an active lane. -/
theorem exec_qscl {s : State} {gid : Nat} {g : Group} {c : Ctl} {dst : Fmt} {sf : ScaleFmt} {len : BlkLen} {d a : VReg}
    (ready : Active s gid g c (.qscl c dst sf len d a)) :
    exec (.qscl c dst sf len d a) s = .next (after s gid g c (.qscl c dst sf len d a)
      (writeWhere (g.vname d) (fun b => (blockLanes (g.active c) (blkLen len / dst.perWord) b).isEmpty)
        (blockScale g (g.active c) dst sf (blkLen len / dst.perWord) a) (32 / (blkLen len / dst.perWord)) g)) := by
  change execQscl c dst sf len d a s = _
  simp only [execQscl, issue_active ready, runLane_mk]
  rfl

theorem qscl_window {s : State} {gid : Nat} {g : Group} {c : Ctl} {dst : Fmt} {sf : ScaleFmt} {len : BlkLen} {d a : VReg}
    (ready : Ready s gid g c (.qscl c dst sf len d a)) : g.vname d < g.winV := by
  have names := checkIssue_window ready.checked
  exact vname_window 0 (by decide) fun u hu => names u (List.mem_append_left _ hu)

theorem qscl_writes (c : Ctl) (dst : Fmt) (sf : ScaleFmt) (len : BlkLen) (d a : VReg) (s : State) (gid : Nat) (g : Group)
    (ready : Active s gid g c (.qscl c dst sf len d a)) :
    ∃ g', exec (.qscl c dst sf len d a) s = .next (after s gid g c (.qscl c dst sf len d a) g') ∧
      OnlyVectors g g' ∧
      (∀ b, b < 32 → g'.getV (g.vname d) b =
        if b < 32 / (blkLen len / dst.perWord) ∧ blockLanes (g.active c) (blkLen len / dst.perWord) b ≠ [] then
          blockScale g (g.active c) dst sf (blkLen len / dst.perWord) a b
        else g.getV (g.vname d) b) ∧
      ∀ n l, n < g.winV → l < 32 → n ≠ g.vname d → g'.getV n l = g.getV n l := by
  have window := qscl_window ready.toReady
  have blocks : 32 / (blkLen len / dst.perWord) ≤ 32 := Nat.div_le_self _ _
  refine ⟨_, exec_qscl ready, writeWhere_only .., fun b hb => ?_, fun n l hn hl apart => ?_⟩
  · rw [getV_writeWhere window window hb blocks]
    simp only [true_and, List.isEmpty_eq_false_iff]
  · rw [getV_writeWhere window hn hl blocks, if_neg fun ⟨same, _⟩ => apart same]

/-- Settles O11: DQCVT and QSCL write within their window, and their elements and scales are what R336 and R150 give. -/
theorem conversionRuns : Obligations.ConversionRuns :=
  ⟨fun c dty src dst sf tab len sat rnd d a => ⟨dqcvt_writes c dty src tab len sat rnd d a, qscl_writes c dst sf len d a⟩,
    dqElem_spec, chooseScale_spec, rfl, largest_spec⟩

end Sys2Proof.Machine

/-! The lane reductions: VRED and VSCAN (R302, R421, R422). -/

namespace Sys2Proof.Machine

/-! ## Integer elements -/

/-- Combining the numbers of two elements is combining the elements. -/
theorem redInt_combine (op : RedOp) {w : Nat} (hw : 0 < w) (sg : Bool) (a b : BitVec w) :
    redInt op w sg a.toNat b.toNat = (combineOf op sg w a b).toNat := by
  cases op with
  | add => exact (BitVec.toNat_add a b).symm
  | min =>
    simp only [redInt, combineOf, minOf, elemVal_eq w sg _ hw, apply_ite BitVec.toNat]
    cases sg <;> simp [BitVec.ult_iff_toNat_lt, BitVec.slt_iff_toInt_lt]
  | max =>
    simp only [redInt, combineOf, maxOf, elemVal_eq w sg _ hw, apply_ite BitVec.toNat]
    cases sg <;> simp [BitVec.ult_iff_toNat_lt, BitVec.slt_iff_toInt_lt]
  | and => exact (BitVec.toNat_and a b).symm
  | or => exact (BitVec.toNat_or a b).symm
  | xor => exact (BitVec.toNat_xor a b).symm

theorem foldl_redInt (op : RedOp) {w : Nat} (hw : 0 < w) (sg : Bool) (l : List (BitVec w)) (a : BitVec w) :
    (l.map BitVec.toNat).foldl (redInt op w sg) a.toNat = (l.foldl (combineOf op sg w) a).toNat := by
  induction l generalizing a with
  | nil => rfl
  | cons b l ih => rw [List.map_cons, List.foldl_cons, List.foldl_cons, redInt_combine op hw, ih]

theorem tyFloat_of_integer {ty : Ty} (h : ty.float = false) : tyFloat ty = none := by
  cases ty <;> first | rfl | cases h

theorem redIdentity_toNat (op : RedOp) {ty : Ty} (h : ty.float = false) :
    redIdentity op ty = (identityOf op (elemSigned ty) (widthOf ty)).toNat := by
  cases op <;> cases ty <;> first | rfl | cases h

/-- The number that a list of integer elements gives is that of the elements combined. -/
theorem redElems_integer (op : RedOp) {ty : Ty} (h : ty.float = false) (free : Nat) (l : List (BitVec (widthOf ty))) :
    redElems op ty free (l.map BitVec.toNat) =
      (l.foldl (combineOf op (elemSigned ty) (widthOf ty)) (identityOf op (elemSigned ty) (widthOf ty))).toNat := by
  rw [redElems, tyFloat_of_integer h, redIdentity_toNat op h, elemWidth_eq, tySigned_eq]
  exact foldl_redInt op (widthOf_pos ty) _ l _

/-! ## What each lane receives -/

/-- The elements `i` of operand A in a list of lanes. -/
def laneElems (ty : Ty) (g : Group) (a : VReg) (ls : List Nat) (i : Nat) : List (BitVec (widthOf ty)) :=
  ls.map (fun l => elemOf ty (g.tval ty a l) i)

/-- Operand A combined over a list of lanes. -/
def redWord (ty : Ty) (op : RedOp) (g : Group) (a : VReg) (ls : List Nat) (free : Nat) : Word :=
  BitVec.ofNat 64 (packElems (widthOf ty) ((List.range (countOf ty)).map (fun i =>
    (redElems op ty (free + i) ((laneElems ty g a ls i).map BitVec.toNat) : Int))))

theorem redLanes_mk (s : State) (gid : Nat) (g : Group) (c : Ctl) (act : Mask) (op : RedOp) (ty : Ty) (a : VReg) (ls : List Nat) (free : Nat) :
    Ctx.redLanes ⟨s, gid, g, g.runNow, c, act⟩ op ty a ls free = redWord ty op g a ls free := by
  simp only [Ctx.redLanes, redWord, laneElems, vval_mk, elemWidth_eq, elemCount_eq, elemAt_eq, List.map_map, Function.comp_def]

theorem elemOf_redWord (ty : Ty) (op : RedOp) (g : Group) (a : VReg) (ls : List Nat) (free : Nat) {i : Nat} (hi : i < countOf ty) :
    elemOf ty (redWord ty op g a ls free) i =
      BitVec.ofNat (widthOf ty) (redElems op ty (free + i) ((laneElems ty g a ls i).map BitVec.toNat)) := by
  rw [redWord, elemOf_pack ty _ (by simp) i hi, List.getElem_map, List.getElem_range, ofInt_nat]

theorem redWord_low {ty : Ty} (h : ty.is64 = false) (op : RedOp) (g : Group) (a : VReg) (ls : List Nat) (free : Nat) :
    ((redWord ty op g a ls free).extractLsb' 0 32).setWidth 64 = redWord ty op g a ls free :=
  pack_low h (by simp)

theorem elemOf_redWord_integer {ty : Ty} (h : ty.float = false) (op : RedOp) (g : Group) (a : VReg) (ls : List Nat) (free : Nat) {i : Nat}
    (hi : i < countOf ty) : elemOf ty (redWord ty op g a ls free) i =
      (laneElems ty g a ls i).foldl (combineOf op (elemSigned ty) (widthOf ty)) (identityOf op (elemSigned ty) (widthOf ty)) := by
  rw [elemOf_redWord ty op g a ls free hi, redElems_integer op h, BitVec.ofNat_toNat, BitVec.setWidth_eq]

/-! ## The instructions -/

/-- An instruction on integer types that gives each active lane a combination of A over some lanes. -/
theorem reduces_integer {i : Instr} {c : Ctl} {ty : Ty} {op : RedOp} {d a : VReg} (h : ty.float = false) {body : Ctx → Res}
    (meaning : exec i = issue i c false body) (ls : Group → Nat → List Nat) (free : State → Nat → Nat)
    (value : ∀ s gid g, body ⟨s, gid, g, g.runNow, c, g.active c⟩ =
      Ctx.toV ⟨s, gid, g, g.runNow, c, g.active c⟩ ty d (fun l => redWord ty op g a (ls g l) (free s l)))
    (ticks : ∀ s l, free s.tickSeq l = free s l)
    (names : ∀ xs, ∃ how rest, usesOf xs i = useV xs 0 d how (if ty.is64 then 2 else 1) ty.is64 ++ rest) :
    WritesV i c ty d (fun _ g l r => ∀ i, i < countOf ty → elemOf ty r i =
      (laneElems ty g a (ls g l) i).foldl (combineOf op (elemSigned ty) (widthOf ty)) (identityOf op (elemSigned ty) (widthOf ty))) :=
  (toV_writes (f := fun s g l => redWord ty op g a (ls g l) (free s l)) meaning value (fun s g => by simp only [ticks]) names
    fun narrow _ _ _ => redWord_low narrow ..).mono fun _ _ _ _ _ hr _ hi => hr ▸ elemOf_redWord_integer h op _ _ _ _ hi

/-- An instruction on float types, which takes `n` free values. -/
theorem reduces_float {i : Instr} {c : Ctl} {ty : Ty} {op : RedOp} {d a : VReg} (h : ty.float = true) {body : Ctx → Res} {n : Nat}
    (meaning : exec i = issue i c false body) (ls : Group → Nat → List Nat) (free : State → Nat → Nat)
    (value : ∀ s gid g, body ⟨s, gid, g, g.runNow, c, g.active c⟩ =
      Ctx.toV ⟨{ s with free := s.free + n }, gid, g, g.runNow, c, g.active c⟩ ty d (fun l => redWord ty op g a (ls g l) (free s l))) :
    WritesFree i c n ty d (fun _ g l r => ∀ i, i < countOf ty → ∃ k : Nat, elemOf ty r i =
      BitVec.ofNat _ (redElems op ty k ((laneElems ty g a (ls g l) i).map (fun x => x.toNat)))) := by
  intro s gid g ready
  have narrow : ty.is64 = false := by cases ty <;> first | rfl | cases h
  obtain ⟨g', done, ⟨rest, active, inactive, other⟩⟩ := toV_wrote
    ⟨{ s.tickSeq with free := s.tickSeq.free + n }, gid, g, g.runNow, c, g.active c⟩ rfl ty d
    (fun l => redWord ty op g a (ls g l) (free s.tickSeq l)) (fun wide => absurd wide (by simp [narrow])) (fun _ _ => redWord_low narrow ..)
  refine ⟨g', ?_, rest, fun l hl act i hi => ⟨_, active l hl act ▸ elemOf_redWord ty op g a _ _ hi⟩, inactive, other⟩
  rw [meaning, issue_active ready, value, done]
  rfl

section
variable (c : Ctl) (ty : Ty) (op : RedOp) (d a : VReg)

/-- The active lanes below a lane. -/
def lanesBelow (g : Group) (c : Ctl) (l : Nat) : List Nat := (lanesOf (g.active c)).filter (fun m => decide (m < l))

theorem vred_integer (h : ty.float = false) : WritesV (.vred c ty op d a) c ty d (fun _ g _ r => ∀ i, i < countOf ty →
    elemOf ty r i = (laneElems ty g a (lanesOf (g.active c)) i).foldl (combineOf op (elemSigned ty) (widthOf ty))
      (identityOf op (elemSigned ty) (widthOf ty))) :=
  reduces_integer h (body := fun x => let v := x.redLanes op ty a (lanesOf x.act) x.s.free
      (if ty.float then x.takeFree 2 else x).toV ty d (fun _ => v)) rfl (fun g _ => lanesOf (g.active c)) (fun s _ => s.free)
    (fun s gid g => by simp only [redLanes_mk, h, Bool.false_eq_true, if_false]) (fun _ _ => rfl) fun _ => ⟨_, _, rfl⟩

theorem vscan_integer (h : ty.float = false) : WritesV (.vscan c ty op d a) c ty d (fun _ g l r => ∀ i, i < countOf ty →
    elemOf ty r i = (laneElems ty g a (lanesBelow g c l) i).foldl (combineOf op (elemSigned ty) (widthOf ty))
      (identityOf op (elemSigned ty) (widthOf ty))) :=
  reduces_integer h (body := fun x => (if ty.float then x.takeFree 64 else x).toV ty d (fun l =>
      x.redLanes op ty a ((lanesOf x.act).filter (fun m => decide (m < l))) (x.s.free + 2 * l))) rfl (fun g l => lanesBelow g c l)
    (fun s l => s.free + 2 * l)
    (fun s gid g => by simp only [redLanes_mk, h, Bool.false_eq_true, if_false, lanesBelow]) (fun _ _ => rfl) fun _ => ⟨_, _, rfl⟩

theorem vred_float (h : ty.float = true) : WritesFree (.vred c ty op d a) c 2 ty d (fun _ g _ r => ∀ i, i < countOf ty → ∃ free : Nat,
    elemOf ty r i = BitVec.ofNat _ (redElems op ty free ((laneElems ty g a (lanesOf (g.active c)) i).map (fun x => x.toNat)))) :=
  reduces_float h (body := fun x => let v := x.redLanes op ty a (lanesOf x.act) x.s.free
      (if ty.float then x.takeFree 2 else x).toV ty d (fun _ => v)) rfl (fun g _ => lanesOf (g.active c)) (fun s _ => s.free)
    fun s gid g => by simp only [redLanes_mk, h, if_true]; rfl

theorem vscan_float (h : ty.float = true) : WritesFree (.vscan c ty op d a) c 64 ty d (fun _ g l r => ∀ i, i < countOf ty → ∃ free : Nat,
    elemOf ty r i = BitVec.ofNat _ (redElems op ty free ((laneElems ty g a (lanesBelow g c l) i).map (fun x => x.toNat)))) :=
  reduces_float h (body := fun x => (if ty.float then x.takeFree 64 else x).toV ty d (fun l =>
      x.redLanes op ty a ((lanesOf x.act).filter (fun m => decide (m < l))) (x.s.free + 2 * l))) rfl (fun g l => lanesBelow g c l)
    (fun s l => s.free + 2 * l)
    fun s gid g => by simp only [redLanes_mk, h, if_true, lanesBelow]; rfl

end

/-- Settles O12: integer elements combine as in w bits, and float elements as R162 to R164 and R146 ask. -/
theorem laneReductions : Obligations.LaneReductions := by
  refine ⟨fun c ty op d a => ⟨fun h => ⟨vred_integer c ty op d a h, vscan_integer c ty op d a h⟩,
      fun h => ⟨vred_float c ty op d a h, vscan_float c ty op d a h⟩⟩, fun ty f free l h len => ?sums,
    fun ty f i j p q a b h len low below hr ht => redElems_mono h i j p q a b len low below hr ht,
    fun ty f free hi h => redElems_extreme h free hi⟩
  case sums =>
    obtain ⟨nan, inf, zero, finite⟩ := redElems_sum h free l
    exact ⟨fun special => nan special len, fun neg noNan isInf one => inf neg noNan isInf one len, fun zeros => zero zeros len,
      fun fin => finite fin len, fun fin g low steps few small => redElems_exact h free l len fin g low steps few small⟩

end Sys2Proof.Machine

/-! Taking a trap and returning from it (R226 to R232, R386). -/

namespace Sys2Proof.Machine.State

/-! ## Taking a trap -/

/-- The state after the record of consumed poison, where the trap has one. -/
def noted (s : State) (g : Group) (t : TrapInfo) : State := if t.cause = 0x14 ∧ !t.deferred then s.poisonUsed g t.addr else s

/-- The vector units of a trap's slides as its frame keeps them, with the registers in them that were empty. -/
def trapVUnits (g : Group) : List SpillUnit :=
  (g.spillSets 8 8).1.zipIdx.map (fun e => SpillUnit.mk true e.1 (g.r.spill.toNat + 1024 * e.2)
    ((g.r.ve.filter (fun r => r / 8 * 8 == e.1)).filter (entering g.va g.winV g.r.wbv 8).contains))

/-- The scalar units, which stand past the vector units. -/
def trapSUnits (g : Group) : List SpillUnit :=
  (g.spillSets 8 8).2.zipIdx.map (fun e =>
    SpillUnit.mk false e.1 (g.r.spill.toNat + 1024 * (g.spillSets 8 8).1.length + 64 * e.2)
      ((g.r.se.filter (fun r => r / 8 * 8 == e.1)).filter (entering g.sa g.winS g.r.wbs 8).contains))

/-- The registers of a list without those that units keep as empty. -/
def without (l : List Nat) (units : List SpillUnit) : List Nat := l.filter (fun r => !(units.flatMap (fun u => u.empty)).contains r)

/-- %spill past a trap's units. -/
def trapSpill (g : Group) : Word := BitVec.ofNat 64 (g.r.spill.toNat + spillBytes (g.spillSets 8 8))

/-- The frame that a trap keeps. -/
def trapFrame (g : Group) (t : TrapInfo) : TrapFrame :=
  { wbv := g.r.wbv, wbs := g.r.wbs, spill := trapSpill g, units := trapVUnits g ++ trapSUnits g, vDepth := g.r.vDepth, sDepth := g.r.sDepth,
    replay := g.r.replay, mop := t.mop }

/-- The group as it enters its handler. -/
def trapGroup (g : Group) (t : TrapInfo) (pc : Word) (head : Bool) : Group :=
  (({ g with
      r := { Regs.report g.r t pc head with
        ve := without g.r.ve (trapVUnits g), se := without g.r.se (trapSUnits g), spill := trapSpill g, sys := true, pc := g.r.xvec, head := true, replay := none,
        frame := some (trapFrame g t) }
      run := none } : Group).slide 8 8)

theorem hasHandler_noted (s : State) (g h : Group) (t : TrapInfo) : (s.noted h t).hasHandler g = s.hasHandler g := by
  unfold noted
  split <;> rfl

/-- A trap that a handler takes. -/
theorem enterTrap_handled {s : State} {gid : Nat} {g : Group} {t : TrapInfo} {pc : Word} {head : Bool}
    (level : g.r.sys = false ∨ t.deferred = true) (handler : s.hasHandler g = true)
    (room : g.r.spill.toNat + spillBytes (g.spillSets 8 8) ≤ g.spillEnd) :
    s.enterTrap gid g t pc head =
      (((s.noted g t).modBlock g.blk (fun b => { b with mem := putUnits b.mem g.r (g.spillSets 8 8) g.r.spill.toNat })).freeSlot
        ((s.noted g t).blockOf g).core gid).setGroup gid (trapGroup g t pc head) := by
  have level' : (g.r.sys && !t.deferred) = false := by
    rcases level with h | h <;> simp [h]
  have handler' : (s.noted g t).hasHandler g = true := (hasHandler_noted ..).trans handler
  have room' : ¬ g.spillEnd < g.r.spill.toNat + spillBytes (g.spillSets 8 8) := by omega
  simp only [noted] at handler'
  simp only [enterTrap, level', handler', room', Bool.false_eq_true, if_false, Bool.not_true]
  rfl

theorem group_noted (s : State) (g : Group) (t : TrapInfo) (h : Nat) : (s.noted g t).group? h = s.group? h := by
  unfold noted
  split
  · exact group_congr (by rw [poisonUsed_same]) (by rw [poisonUsed_same]) h
  · rfl

theorem block_noted (s : State) (g : Group) (t : TrapInfo) (b : Nat) : (s.noted g t).block? b = s.block? b := by
  unfold noted
  split
  · exact block_congr (by rw [poisonUsed_same]) (by rw [poisonUsed_same]) b
  · rfl

/-- A record of consumed poison touches no memory, launch, load or operation. -/
theorem noted_fields (s : State) (g : Group) (t : TrapInfo) :
    (s.noted g t).mem = s.mem ∧ (s.noted g t).launches = s.launches ∧ (s.noted g t).loads = s.loads ∧ (s.noted g t).ops = s.ops := by
  unfold noted
  split <;> exact ⟨rfl, rfl, rfl, rfl⟩

/-- What a handled trap leaves alone (R226). -/
theorem enterTrap_frame {s : State} {gid : Nat} {g : Group} {t : TrapInfo} {pc : Word} {head : Bool}
    (level : g.r.sys = false ∨ t.deferred = true) (handler : s.hasHandler g = true)
    (room : g.r.spill.toNat + spillBytes (g.spillSets 8 8) ≤ g.spillEnd) :
    let u := s.enterTrap gid g t pc head
    u.group? gid = some (trapGroup g t pc head) ∧ (∀ h, h ≠ gid → u.group? h = s.group? h) ∧
      u.mem = s.mem ∧ u.launches = s.launches ∧ u.loads = s.loads ∧ u.ops = s.ops := by
  obtain ⟨mem, launches, loads, ops⟩ := noted_fields s g t
  rw [enterTrap_handled level handler room]
  refine ⟨by rw [group_setGroup, if_pos rfl], fun h apart => ?_, ?_, ?_, ?_, ?_⟩
  · rw [group_setGroup, if_neg apart, freeSlot, group_modCore, group_modBlock, group_noted]
  all_goals simp only [freeSlot, setGroup_mem, modCore_mem, modBlock_mem, setGroup_launches, modCore_launches, modBlock_launches,
    setGroup_loads, modCore_loads, modBlock_loads, setGroup_ops, modCore_ops, modBlock_ops, mem, launches, loads, ops]

/-- The registers of the group as it enters its handler. -/
theorem trapGroup_regs (g : Group) (t : TrapInfo) (pc : Word) (head : Bool) :
    (trapGroup g t pc head).r = { g.r with
      sys := true, pc := g.r.xvec, head := true, replay := none,
      xcause := BitVec.ofNat 9 (t.cause + if t.deferred then 256 else 0), xpc := pc, xaddr := t.addr, xlanes := t.lanes,
      xstep := t.step.getD (BitVec.ofNat 64 g.r.gstep), xprog := t.prog, xinfo := t.info, xhead := head,
      wbv := (g.r.wbv + 8) % g.va, wbs := (g.r.wbs + 8) % g.sa, vDepth := g.r.vDepth + 8, sDepth := g.r.sDepth + 8,
      spill := trapSpill g, ve := without g.r.ve (trapVUnits g), se := without g.r.se (trapSUnits g), frame := some (trapFrame g t) } := rfl

/-- A group with a live lane takes a synchronous trap (R230). -/
theorem syncTrap_live {s : State} {gid : Nat} {g : Group} {t : TrapInfo} (hg : s.group? gid = some g) (live : g.r.live ≠ 0) :
    s.syncTrap gid t = s.enterTrap gid g t (if t.past then g.r.pc + 12 else g.r.pc)
      (((g.run.map (fun r => r.count)).getD 0 == 0) && !t.past) := by
  simp only [syncTrap, hg, live, if_false]

/-- The instruction at the pc is the first of its run. -/
theorem first_iff (g : Group) : ((g.run.map (fun r => r.count)).getD 0 == 0) = true ↔ g.run = none ∨ ∃ r, g.run = some r ∧ r.count = 0 := by
  cases g.run <;> simp

end Sys2Proof.Machine.State

namespace Sys2Proof.Machine
open State

/-- Settles O19: the handler is entered from the group as `trapGroup` gives it, and a synchronous trap enters it at the trapping
instruction or, for TRAP, after it. -/
theorem trapEntries : Obligations.TrapEntries := by
  refine ⟨?entry, fun s gid g t hg => ⟨fun dead => ?_, fun live here => ?_, fun live past => ?_⟩⟩
  case entry =>
    intro s gid g t pc head us sp level handler room
    have bytes : g.r.spill.toNat + spillBytes (g.spillSets 8 8) = sp := (Nat.add_assoc ..).symm
    obtain ⟨own, others, mem, launches, loads, ops⟩ :=
      enterTrap_frame (gid := gid) (pc := pc) (head := head) level handler (bytes ▸ room)
    refine ⟨_, own, rfl, rfl, ?_, fun n hn => List.mem_of_mem_filter hn, fun n hn => List.mem_of_mem_filter hn,
      ⟨_, rfl, rfl, rfl, rfl, rfl, ?_, rfl⟩, others, mem, launches, loads, ops⟩
    · rw [trapGroup_regs, trapSpill, bytes]
    · exact congrArg (BitVec.ofNat 64) bytes
  · simp only [syncTrap, hg, dead, if_true]
  · rw [syncTrap_live hg live, here]
    simp only [Bool.false_eq_true, if_false, Bool.not_false, Bool.and_true]
    congr 1
    rw [Bool.eq_iff_iff, first_iff, decide_eq_true_iff]
  · rw [syncTrap_live hg live, past]
    simp only [if_true, Bool.not_true, Bool.and_false]

end Sys2Proof.Machine

/-! Returning from a trap (R226, R386). -/

namespace Sys2Proof.Machine.State

/-- The registers after a frame's units have come back. -/
def refilledRegs (mem : Table Byte) (g : Group) (f : TrapFrame) : Regs :=
  f.units.foldl (fun r u =>
    refillUnit mem (if u.vec then entering g.va g.winV f.wbv 8 else entering g.sa g.winS f.wbs 8) r u) g.r

theorem fills_refilledRegs (mem : Table Byte) (g : Group) (f : TrapFrame) : FillsOnly g.r (refilledRegs mem g f) :=
  fills_foldl _ (fun _ _ => fills_refillUnit ..) _ _

/-- The group after it has returned from a trap whose frame is `f`. -/
def returnGroup (mem : Table Byte) (g : Group) (f : TrapFrame) : Group :=
  let r := refilledRegs mem g f
  { g with
    r := { r with
      sys := false, pc := g.r.xpc, head := g.r.xhead, frame := none,
      wbv := f.wbv, wbs := f.wbs, vDepth := f.vDepth, sDepth := f.sDepth,
      spill := f.spill - BitVec.ofNat 64 (1024 * (f.units.filter (fun u => u.vec)).length + 64 * (f.units.filter (fun u => !u.vec)).length),
      replay := if g.r.xlanes = 0 then f.replay else some g.r.xlanes } }

theorem group_returnTrap {s : State} {gid : Nat} {g : Group} {f : TrapFrame} (frame : g.r.frame = some f) :
    (s.returnTrap gid g).group? gid = some (returnGroup (s.blockOf g).mem g f) := by
  simp only [returnTrap, frame]
  rw [(resumeMatrix_spec _ _ _).1, group_setGroup, if_pos rfl]
  rfl

theorem returnGroup_regs (mem : Table Byte) (g : Group) (f : TrapFrame) :
    (returnGroup mem g f).r = { g.r with
      sys := false, pc := g.r.xpc, head := g.r.xhead, frame := none,
      wbv := f.wbv, wbs := f.wbs, vDepth := f.vDepth, sDepth := f.sDepth,
      spill := f.spill - BitVec.ofNat 64 (1024 * (f.units.filter (fun u => u.vec)).length + 64 * (f.units.filter (fun u => !u.vec)).length),
      replay := if g.r.xlanes = 0 then f.replay else some g.r.xlanes,
      v := (refilledRegs mem g f).v, s := (refilledRegs mem g f).s,
      ve := (refilledRegs mem g f).ve, se := (refilledRegs mem g f).se } := by
  have fills := fills_refilledRegs mem g f
  unfold FillsOnly at fills
  simp only [returnGroup]
  conv_lhs => rw [fills]

end Sys2Proof.Machine.State

namespace Sys2Proof.Machine
open State

/-- Settles O21: the group comes back as `returnGroup` gives it, and nothing else moves but the matrix instruction that continues. -/
theorem trapReturn : Obligations.TrapReturn := by
  intro s gid g f hg frame u
  obtain ⟨_, _, _, _, others, rest⟩ := returnTrap_spec s gid g
  refine ⟨_, group_returnTrap frame, rfl, returnGroup_regs .., fun empty => ?_, others, rest⟩
  have same : refilledRegs (s.blockOf g).mem g f = g.r := by rw [refilledRegs, empty]; rfl
  rw [returnGroup_regs, same]
  exact ⟨rfl, rfl, rfl, rfl⟩

/-! ## Bytes of the spill area (R60) -/

section
variable {α : Type}

theorem tfind_tslice (t : Table α) {lo hi k : Nat} (inside : lo ≤ k ∧ k < hi) : tfind (tslice t lo hi) k = tfind t k := by
  induction t with
  | nil => rfl
  | cons e t ih =>
    obtain ⟨j, v⟩ := e
    unfold tslice at ih ⊢
    by_cases same : j = k
    · subst same
      simp [tfind, inside]
    · rw [List.filter_cons]
      split
      · simp only [tfind, same, if_false, ih]
      · simp only [tfind, same, if_false, ih]

theorem tfind_tcut (t : Table α) (lo hi k : Nat) : tfind (tcut t lo hi) k = if lo ≤ k ∧ k < hi then none else tfind t k := by
  induction t with
  | nil => simp [tcut]
  | cons e t ih =>
    obtain ⟨j, v⟩ := e
    unfold tcut at ih ⊢
    rw [List.filter_cons]
    by_cases inside : lo ≤ j ∧ j < hi
    · rw [if_neg (by simp [inside]), ih]
      by_cases same : j = k
      · rw [if_pos (same ▸ inside), if_pos (same ▸ inside)]
      · simp only [tfind, same, if_false]
    · rw [if_pos (by simp; omega)]
      by_cases same : j = k
      · rw [if_neg (same ▸ inside)]
        simp only [tfind, same, if_true]
      · simp only [tfind, same, if_false, ih]

end

theorem rd8_tcut (m : Table Byte) (lo hi k : Nat) : rd8 (tcut m lo hi) k = if lo ≤ k ∧ k < hi then Config.unwritten else rd8 m k := by
  unfold rd8 tget
  rw [tfind_tcut]
  split <;> rfl

theorem rdN_congr {m m' : Table Byte} {k n : Nat} (same : ∀ i, i < n → rd8 m (k + i) = rd8 m' (k + i)) : rdN m k n = rdN m' k n := by
  induction n generalizing k with
  | zero => rfl
  | succ n ih =>
    have first : rd8 m k = rd8 m' k := same 0 (by omega)
    have rest : rdN m (k + 1) n = rdN m' (k + 1) n := ih fun i hi => by
      have next := same (i + 1) (by omega)
      rwa [show k + (i + 1) = k + 1 + i by omega] at next
    rw [rdN, rdN, first, rest]

theorem rdN_unwritten {m : Table Byte} {k n : Nat} (bare : ∀ i, i < n → rd8 m (k + i) = Config.unwritten) : rdN m k n = 0 := by
  have empty (k n : Nat) : rdN [] k n = 0 := by
    induction n generalizing k with
    | zero => rfl
    | succ n ih => rw [rdN, ih]; rfl
  exact (rdN_congr bare).trans (empty k n)

/-! ## Entries of a table in the spill area -/

section
variable {α : Type}

/-- The entries `lo` to `lo + cnt − 1` of a table of registers, of `n` bytes each, stored from `at_`. -/
def putEntries (n : Nat) (num : α → Nat) (t : Table α) (cnt : Nat) (m : Table Byte) (lo at_ : Nat) : Table Byte :=
  (tslice t lo (lo + cnt)).foldr (fun e m => wrN m (at_ + n * (e.1 - lo)) n (num e.2)) (tcut m at_ (at_ + n * cnt))

theorem mem_tslice {t : Table α} {lo hi : Nat} {e : Nat × α} (h : e ∈ tslice t lo hi) : lo ≤ e.1 ∧ e.1 < hi := by
  have inside := (List.mem_filter.1 h).2
  simpa using inside

theorem rd8_putEntries_other {n : Nat} {num : α → Nat} {t : Table α} {cnt : Nat} {m : Table Byte} {lo at_ k : Nat}
    (apart : k < at_ ∨ at_ + n * cnt ≤ k) : rd8 (putEntries n num t cnt m lo at_) k = rd8 m k := by
  have cut : rd8 (tcut m at_ (at_ + n * cnt)) k = rd8 m k := by rw [rd8_tcut, if_neg (by omega)]
  refine List.foldrRecOn (motive := fun m' => rd8 m' k = rd8 m k) _ _ cut fun m' same e he => ?_
  obtain ⟨low, high⟩ := mem_tslice he
  have place : n * (e.1 - lo) + n ≤ n * cnt := by rw [← Nat.mul_succ]; exact Nat.mul_le_mul_left n (by omega)
  rw [rd8_wrN_other _ _ _ _ _ (by omega), same]

/-- Entries written one over the other: each place holds the entry that is found under its key. -/
theorem rdN_foldr {n : Nat} {num : α → Nat} (small : ∀ x, num x < 256 ^ n) (L : Table α) (m : Table Byte) {lo : Nat}
    (low : ∀ e ∈ L, lo ≤ e.1) (at_ j : Nat) :
    rdN (L.foldr (fun e m => wrN m (at_ + n * (e.1 - lo)) n (num e.2)) m) (at_ + n * j) n =
      ((tfind L (lo + j)).map num).getD (rdN m (at_ + n * j) n) := by
  induction L with
  | nil => rfl
  | cons e L ih =>
    obtain ⟨k, x⟩ := e
    have hk : lo ≤ k := low (k, x) (List.mem_cons_self ..)
    have rest := ih fun e he => low e (List.mem_cons_of_mem _ he)
    rw [List.foldr_cons]
    by_cases same : k = lo + j
    · have place : k - lo = j := by omega
      simp only [place]
      rw [rdN_wrN, tfind, if_pos same, Nat.mod_eq_of_lt (small x)]
      rfl
    · rw [tfind, if_neg same, ← rest]
      refine rdN_congr fun i hi => rd8_wrN_other _ _ _ _ _ ?_
      simp only
      rcases Nat.lt_or_gt_of_ne (show k - lo ≠ j by omega) with below | above
      · have order : n * (k - lo) + n ≤ n * j := by rw [← Nat.mul_succ]; exact Nat.mul_le_mul_left n (by omega)
        omega
      · have order : n * j + n ≤ n * (k - lo) := by rw [← Nat.mul_succ]; exact Nat.mul_le_mul_left n (by omega)
        omega

theorem rdN_putEntries {n : Nat} {num : α → Nat} (small : ∀ x, num x < 256 ^ n) (t : Table α) {cnt j : Nat} (hj : j < cnt)
    (m : Table Byte) (lo at_ : Nat) : rdN (putEntries n num t cnt m lo at_) (at_ + n * j) n = ((tfind t (lo + j)).map num).getD 0 := by
  have place : n * j + n ≤ n * cnt := by rw [← Nat.mul_succ]; exact Nat.mul_le_mul_left n (by omega)
  rw [putEntries, rdN_foldr small _ _ (fun e he => (mem_tslice he).1), tfind_tslice t (by omega), rdN_unwritten]
  exact fun i hi => by rw [rd8_tcut, if_pos (by omega)]

/-- A list of units stored one after another, from place `i` on. -/
def putList (n : Nat) (num : α → Nat) (t : Table α) (cnt : Nat) (lo : Nat → Nat) (at_ i : Nat) (us : List Nat) (m : Table Byte) : Table Byte :=
  (us.zipIdx i).foldl (fun m e => putEntries n num t cnt m (lo e.1) (at_ + n * cnt * e.2)) m

theorem rd8_putList_below {n : Nat} {num : α → Nat} {t : Table α} {cnt : Nat} {lo : Nat → Nat} {at_ : Nat} (us : List Nat) {i k : Nat}
    (m : Table Byte) (below : k < at_ + n * cnt * i) : rd8 (putList n num t cnt lo at_ i us m) k = rd8 m k := by
  induction us generalizing i m with
  | nil => rfl
  | cons u us ih =>
    have next : n * cnt * (i + 1) = n * cnt * i + n * cnt := Nat.mul_succ ..
    exact (ih _ (by omega)).trans (rd8_putEntries_other (.inl below))

theorem rdN_putList {n : Nat} {num : α → Nat} (small : ∀ x, num x < 256 ^ n) (t : Table α) {cnt j : Nat} (hj : j < cnt)
    (lo : Nat → Nat) (at_ : Nat) (us : List Nat) {i : Nat} (m : Table Byte) {e : Nat × Nat} (he : e ∈ us.zipIdx i) :
    rdN (putList n num t cnt lo at_ i us m) (at_ + n * cnt * e.2 + n * j) n = ((tfind t (lo e.1 + j)).map num).getD 0 := by
  induction us generalizing i m with
  | nil => cases he
  | cons u us ih =>
    rw [List.zipIdx_cons, List.mem_cons] at he
    rcases he with rfl | he
    · have next : n * cnt * (i + 1) = n * cnt * i + n * cnt := Nat.mul_succ ..
      have place : n * j + n ≤ n * cnt := by rw [← Nat.mul_succ]; exact Nat.mul_le_mul_left n (by omega)
      refine (rdN_congr fun k hk => ?_).trans (rdN_putEntries small t hj m (lo u) (at_ + n * cnt * i))
      exact rd8_putList_below us _ (by simp only; omega)
    · exact ih _ he

end

theorem putVUnit_eq (m : Table Byte) (v : Table Lane) (u at_ : Nat) : putVUnit m v u at_ = putEntries 4 BitVec.toNat v 256 m (32 * u) at_ := by
  rw [putVUnit, List.foldl_reverse]
  rfl

theorem putSUnit_eq (m : Table Byte) (x : Table Word) (u at_ : Nat) : putSUnit m x u at_ = putEntries 8 BitVec.toNat x 8 m u at_ := by
  rw [putSUnit, List.foldl_reverse]
  rfl

theorem putUnits_eq (m : Table Byte) (r : Regs) (us : List Nat × List Nat) (at_ : Nat) :
    putUnits m r us at_ = putList 8 BitVec.toNat r.s 8 (fun u => u) (at_ + 1024 * us.1.length) 0 us.2
      (putList 4 BitVec.toNat r.v 256 (fun u => 32 * u) at_ 0 us.1 m) := by
  simp only [putUnits, putList, putVUnit_eq, putSUnit_eq]

theorem lane_small (x : Lane) : x.toNat < 256 ^ 4 := x.isLt

theorem word_small (x : Word) : x.toNat < 256 ^ 8 := x.isLt

/-- What a spilled vector unit holds: its eight registers, lane by lane (R60). -/
theorem rd32_putUnits (m : Table Byte) (r : Regs) (us : List Nat × List Nat) (at_ : Nat) {e : Nat × Nat} (he : e ∈ us.1.zipIdx) {i l : Nat}
    (hi : i < 8) (hl : l < 32) : rd32 (putUnits m r us at_) (at_ + 1024 * e.2 + 128 * i + 4 * l) = tget 0 r.v (32 * (e.1 + i) + l) := by
  have index : e.2 < us.1.length := by
    obtain ⟨u, k⟩ := e
    simpa using (List.mem_zipIdx he).2.1
  have stored := rdN_putList (n := 4) (cnt := 256) lane_small r.v (j := 32 * i + l) (by omega) (fun u => 32 * u) at_ us.1 m he
  have read : rdN (putUnits m r us at_) (at_ + 1024 * e.2 + 128 * i + 4 * l) 4 =
      ((tfind r.v (32 * (e.1 + i) + l)).map BitVec.toNat).getD 0 := by
    rw [show 32 * (e.1 + i) + l = 32 * e.1 + (32 * i + l) by omega, ← stored, putUnits_eq,
      show at_ + 1024 * e.2 + 128 * i + 4 * l = at_ + 4 * 256 * e.2 + 4 * (32 * i + l) by omega]
    exact rdN_congr fun k hk => rd8_putList_below _ _ (by omega)
  rw [rd32, read, tget]
  cases tfind r.v (32 * (e.1 + i) + l) with
  | none => rfl
  | some x => simp

/-- What a spilled scalar unit holds (R60). -/
theorem rd64_putUnits (m : Table Byte) (r : Regs) (us : List Nat × List Nat) (at_ : Nat) {e : Nat × Nat} (he : e ∈ us.2.zipIdx) {i : Nat}
    (hi : i < 8) : rd64 (putUnits m r us at_) (at_ + 1024 * us.1.length + 64 * e.2 + 8 * i) = tget 0 r.s (e.1 + i) := by
  have read := rdN_putList (n := 8) (cnt := 8) word_small r.s hi (fun u => u) (at_ + 1024 * us.1.length) us.2
    (putList 4 BitVec.toNat r.v 256 (fun u => 32 * u) at_ 0 us.1 m) he
  rw [rd64, putUnits_eq, read, tget]
  cases tfind r.s (e.1 + i) with
  | none => rfl
  | some x => simp

/-! ## A trap and its return (R226, R386) -/

/-- The registers of both hold the same values, and no register of the first is empty. -/
structure SameValues (r r' : Regs) : Prop where
  vec : ∀ k, tget 0 r'.v k = tget 0 r.v k
  sca : ∀ k, tget 0 r'.s k = tget 0 r.s k
  full : r'.ve = [] ∧ r'.se = []

/-- The memory holds what the registers of a unit hold, and the unit has no empty register. -/
def Holds (mem : Table Byte) (r : Regs) (u : SpillUnit) : Prop :=
  u.empty = [] ∧ ∀ i, i < 8 →
    if u.vec then ∀ l, l < 32 → rd32 mem (u.at_ + 128 * i + 4 * l) = tget 0 r.v (32 * (u.first + i) + l)
    else rd64 mem (u.at_ + 8 * i) = tget 0 r.s (u.first + i)

theorem getVReg_same {mem : Table Byte} {v w : Table Lane} {reg at_ : Nat} (same : ∀ k, tget 0 w k = tget 0 v k)
    (held : ∀ l, l < 32 → rd32 mem (at_ + 4 * l) = tget 0 v (32 * reg + l)) (k : Nat) : tget 0 (getVReg mem w reg at_) k = tget 0 v k := by
  have lane (l : Nat) (hl : l ∈ lanes) : l < 32 := List.mem_range.1 hl
  refine List.foldlRecOn (motive := fun w => tget 0 w k = tget 0 v k) _ _ (same k) fun w' ih l hl => ?_
  rw [tget_tput]
  split
  · next here => rw [held l (lane l hl), here]
  · exact ih

theorem SameValues.refillUnit {mem : Table Byte} {own : List Nat} {r r' : Regs} {u : SpillUnit} (same : SameValues r r') (held : Holds mem r u) :
    SameValues r (State.refillUnit mem own r' u) := by
  obtain ⟨none, values⟩ := held
  refine List.foldlRecOn (motive := SameValues r) _ _ same fun r' ih i hi => ?_
  have value := values i (List.mem_range.1 hi)
  obtain ⟨vec, sca, ve, se⟩ := ih
  simp only [none, List.contains_nil, Bool.false_eq_true, if_false]
  split
  · exact ⟨vec, sca, ve, se⟩
  · split
    · next isVec =>
      rw [if_pos isVec] at value
      exact ⟨getVReg_same vec value, sca, by simp [ve], se⟩
    · next isSca =>
      rw [if_neg isSca] at value
      refine ⟨vec, fun k => ?_, ve, by simp [se]⟩
      rw [tget_tput]
      split
      · next here => rw [value, here]
      · exact sca k

theorem SameValues.refilledRegs {mem : Table Byte} {g : Group} {f : TrapFrame} {r : Regs} (same : SameValues r g.r)
    (held : ∀ u ∈ f.units, Holds mem r u) : SameValues r (State.refilledRegs mem g f) :=
  List.foldlRecOn (motive := SameValues r) _ _ same fun _ ih u hu => ih.refillUnit (held u hu)

/-- The units that a trap of a group without empty registers spills hold what the registers hold. -/
theorem holds_trapUnits {g : Group} (hve : g.r.ve = []) (hse : g.r.se = []) (m : Table Byte) :
    ∀ u ∈ trapVUnits g ++ trapSUnits g, Holds (putUnits m g.r (g.spillSets 8 8) g.r.spill.toNat) g.r u := by
  intro u hu
  rcases List.mem_append.1 hu with hu | hu
  · obtain ⟨e, he, rfl⟩ := List.mem_map.1 hu
    refine ⟨by simp [hve], fun i hi => ?_⟩
    rw [if_pos rfl]
    exact fun l hl => rd32_putUnits m g.r _ _ he hi hl
  · obtain ⟨e, he, rfl⟩ := List.mem_map.1 hu
    refine ⟨by simp [hse], fun i hi => ?_⟩
    rw [if_neg (by simp)]
    exact rd64_putUnits m g.r _ _ he hi

theorem trapUnits_counts (g : Group) :
    1024 * ((trapVUnits g ++ trapSUnits g).filter (fun u => u.vec)).length +
      64 * ((trapVUnits g ++ trapSUnits g).filter (fun u => !u.vec)).length = spillBytes (g.spillSets 8 8) := by
  have vec : ∀ u ∈ trapVUnits g, u.vec = true := fun u hu => by obtain ⟨e, _, rfl⟩ := List.mem_map.1 hu; rfl
  have sca : ∀ u ∈ trapSUnits g, u.vec = false := fun u hu => by obtain ⟨e, _, rfl⟩ := List.mem_map.1 hu; rfl
  have vecs : (trapVUnits g ++ trapSUnits g).filter (fun u => u.vec) = trapVUnits g := by
    rw [List.filter_append, List.filter_eq_self.2 vec, List.filter_eq_nil_iff.2 fun u hu => by simp [sca u hu], List.append_nil]
  have scas : (trapVUnits g ++ trapSUnits g).filter (fun u => !u.vec) = trapSUnits g := by
    rw [List.filter_append, List.filter_eq_nil_iff.2 fun u hu => by simp [vec u hu], List.filter_eq_self.2 fun u hu => by simp [sca u hu],
      List.nil_append]
  rw [vecs, scas, spillBytes]
  simp only [trapVUnits, trapSUnits, List.length_map, List.length_zipIdx]

/-- The spill area that a handled trap leaves. -/
theorem spillArea_enterTrap {s : State} {gid : Nat} {g : Group} {t : TrapInfo} {pc : Word} {head : Bool}
    (level : g.r.sys = false ∨ t.deferred = true) (handler : s.hasHandler g = true)
    (room : g.r.spill.toNat + spillBytes (g.spillSets 8 8) ≤ g.spillEnd) (placed : (s.block? g.blk).isSome = true) :
    ∃ m, ((s.enterTrap gid g t pc head).blockOf (trapGroup g t pc head)).mem = putUnits m g.r (g.spillSets 8 8) g.r.spill.toNat := by
  obtain ⟨b, hb⟩ := Option.isSome_iff_exists.1 placed
  have noted : (s.noted g t).block? g.blk = some b := (block_noted ..).trans hb
  refine ⟨b.mem, ?_⟩
  have here : (trapGroup g t pc head).blk = g.blk := rfl
  rw [enterTrap_handled level handler room, blockOf, here, block_setGroup, freeSlot, block_modCore, modBlock, noted]
  simp only [block_setBlock, if_true, Option.getD_some]

/-- Settles O22: what a unit of the spill area gives back is what the register held, so the slides and the refills of a trap and of its
return undo each other. -/
theorem trapThenReturn : Obligations.TrapThenReturn := by
  intro s gid g t pc head _ placed level handler hve hse _ _ _ _ _ _ _ room g1 hg1
  obtain ⟨own, _⟩ := enterTrap_frame (gid := gid) (t := t) (pc := pc) (head := head) (.inl level) handler room
  obtain rfl : trapGroup g t pc head = g1 := Option.some.inj (own.symm.trans hg1)
  obtain ⟨m, area⟩ := spillArea_enterTrap (gid := gid) (t := t) (pc := pc) (head := head) (.inl level) handler room placed
  have start : SameValues g.r (trapGroup g t pc head).r :=
    ⟨fun _ => rfl, fun _ => rfl, by simp [trapGroup_regs, without, hve], by simp [trapGroup_regs, without, hse]⟩
  obtain ⟨vec, sca, full⟩ := start.refilledRegs (f := trapFrame g t) (holds_trapUnits hve hse m)
  have spill : trapSpill g - BitVec.ofNat 64 (spillBytes (g.spillSets 8 8)) = g.r.spill := by
    rw [trapSpill, BitVec.ofNat_add, BitVec.add_sub_cancel, BitVec.ofNat_toNat, BitVec.setWidth_eq]
  refine ⟨_, group_returnTrap (f := trapFrame g t) rfl, ?_⟩
  rw [area, returnGroup_regs]
  refine ⟨rfl, rfl, rfl, rfl, rfl, rfl, rfl, ?_, rfl, rfl, rfl, rfl, full.1, full.2, fun n l _ _ => vec _, fun n _ => sca n⟩
  simp only [trapFrame, trapUnits_counts, spill]

end Sys2Proof.Machine

/-! The end of an instruction, of a run and of a group (R41 to R43, R53, R54). -/

namespace Sys2Proof.Machine
open State

/-! ## Within a run -/

theorem stateAfter_only (t : State) (gid : Nat) (g : Group) (i : Instr) (act : Mask) (n : Next) (extra : Nat) :
    stateAfter t gid g i act n extra =
      { t with groups := (stateAfter t gid g i act n extra).groups, cores := (stateAfter t gid g i act n extra).cores } := rfl

theorem core_stateAfter (t : State) (gid : Nat) (g : Group) (i : Instr) (act : Mask) (n : Next) (extra k : Nat) :
    (stateAfter t gid g i act n extra).core k = if k = (t.blockOf g).core then
      { t.core k with slot0 := slotAfter t gid g i act extra (t.core k).slot0, slot1 := slotAfter t gid g i act extra (t.core k).slot1 }
    else t.core k := by
  rw [stateAfter, core_setGroup, core_modCore]
  split
  · next here => rw [here]
  · rfl

/-- A slot that holds the group is taken for the instruction's cycles, and no other slot changes. -/
theorem slotAfter_cases (t : State) (gid : Nat) (g : Group) (i : Instr) (act : Mask) (extra : Nat) (x : Slot) :
    (x.group = some gid → (slotAfter t gid g i act extra x).group = some gid ∧
      (slotAfter t gid g i act extra x).free = max (t.cycle (coreDie (t.blockOf g).core)) x.free + slotCycles i + extra) ∧
    (x.group ≠ some gid → slotAfter t gid g i act extra x = x) := by
  refine ⟨fun held => ?_, fun other => ?_⟩
  · rw [slotAfter, if_pos held]
    exact ⟨held, rfl⟩
  · rw [slotAfter, if_neg other]

/-- Settles O13: within a run an instruction's end changes its group's run and pc and its slot. -/
theorem instructionEnds : Obligations.InstructionEnds := by
  intro t gid g i c act n extra hg inRun u k pc
  have here : u = stateAfter t gid g i act n extra := finish_stay hg inRun
  have slots : u.core k = { t.core k with
      slot0 := slotAfter t gid g i act extra (t.core k).slot0, slot1 := slotAfter t gid g i act extra (t.core k).slot1 } := by
    rw [here, core_stateAfter, if_pos rfl]
  refine ⟨?group, fun h other => ?_, fun j other => ?_, ?_, ?slot, ?_⟩
  case group =>
    have own : u.group? gid = some (groupAfter g i n) := by rw [here, stateAfter_group, if_pos rfl]
    exact ⟨_, own, rfl, rfl, rfl, rfl⟩
  · rw [here, stateAfter_group, if_neg other]
  · rw [here, core_stateAfter, if_neg other]
  · rw [slots]
  case slot =>
    rintro x (rfl | rfl) <;> simp only [slots] <;> exact slotAfter_cases ..
  · rw [here]
    exact stateAfter_only ..

/-! ## The end of a run -/

theorem near_closeShadow (s : State) (gid : Nat) (c : Ctl) (n : Next) :
    s.Near (closeShadow s gid c n) ∧ SameMem s (closeShadow s gid c n) ∧ (closeShadow s gid c n).cores = s.cores ∧
      ∀ h, h ≠ gid → (closeShadow s gid c n).group? h = s.group? h := by
  obtain ⟨mem, blocks, near, cores, others, _⟩ := pushShadow_spec s gid
  have pushed : SameMem s (s.pushShadow gid) := ⟨mem, fun b => by rw [blocks b]⟩
  unfold closeShadow
  split
  · exact ⟨rfl, .refl s, rfl, fun _ _ => rfl⟩
  · split
    · exact ⟨near, pushed, cores, others⟩
    · exact ⟨rfl, .refl s, rfl, fun _ _ => rfl⟩

/-- Taking the shadow of a run's end keeps the group but for its shadows and the records that only they need. -/
theorem group_closeShadow {s : State} {gid : Nat} {h : Group} (hg : s.group? gid = some h) (c : Ctl) (n : Next) :
    ∃ g', (closeShadow s gid c n).group? gid = some g' ∧ g' = { h with shadows := g'.shadows, taken := g'.taken, sent := g'.sent } := by
  obtain ⟨_, _, _, _, _, own⟩ := pushShadow_spec s gid
  unfold closeShadow
  split
  · exact ⟨h, hg, rfl⟩
  · split
    · exact own h hg
    · exact ⟨h, hg, rfl⟩

/-- DETACH at the end of its run leaves the group detached. -/
theorem group_leaveHorizon {s : State} {gid : Nat} {h : Group} (hg : s.group? gid = some h) :
    (s.leaveHorizon gid).group? gid = some { h with r := { h.r with detached := true } } := by
  unfold leaveHorizon
  simp only [hg]
  split
  · next already => rw [hg]; simp only [← already]
  · rw [group_modGroup, if_pos rfl, (quiet_noteFinal s h).groups, hg]
    rfl

theorem gstep_crossings (c : Ctl) : (if c.g then (if c.l then 1 else 0) else 0 : Nat) = if c.l && c.g then 1 else 0 := by
  cases c.l <;> cases c.g <;> rfl

/-- The end of a run that does not return from a trap, nor detach, nor hold its crossing. -/
theorem finish_boundary {t : State} {gid : Nat} {g : Group} {i : Instr} {c : Ctl} {act : Mask} {n : Next} {extra : Nat}
    (hg : t.group? gid = some g) (ends : c.b = true) (live : g.r.live ≠ 0) (stays : ∀ s h, leave s gid h n = s) :
    let u := finish t gid i c act n extra
    (∃ g', u.group? gid = some g' ∧ g'.run = none ∧
      g'.r = { g.r with
        pc := pcAfter g n, head := true, replay := none, lstep := g.r.lstep + crossings c n,
        gstep := g.r.gstep + if c.g then crossings c n else 0 } ∧
      g' = { g with r := g'.r, run := none, heldX := g'.heldX, shadows := g'.shadows, taken := g'.taken, sent := g'.sent }) ∧
    (∀ h, h ≠ gid → u.group? h = t.group? h) ∧
    (u.core (t.blockOf g).core).slot0.group ≠ some gid ∧ (u.core (t.blockOf g).core).slot1.group ≠ some gid ∧
    SameMem t u ∧ t.Near u := by
  obtain ⟨s, h, hs, eh, near, same, others, zero, one, out⟩ :=
    finish_live (i := i) (act := act) (n := n) (extra := extra) hg ends live
  rw [stays] at out
  obtain ⟨near', same', cores, others'⟩ := near_closeShadow s gid c n
  obtain ⟨g', hg', eg'⟩ := group_closeShadow hs c n
  have regs : g'.r = h.r := by rw [eg']
  rw [out]
  refine ⟨⟨g', hg', by rw [eg', eh], by rw [regs, eh], by rw [eg', eh]⟩, fun j hj => (others' j hj).trans (others j hj), ?_, ?_,
    same.trans same', near.trans near'⟩
  · rwa [core_congr cores]
  · rwa [core_congr cores]

/-- The end of a run by DETACH. -/
theorem finish_detach {t : State} {gid : Nat} {g : Group} {i : Instr} {c : Ctl} {act : Mask} {extra : Nat}
    (hg : t.group? gid = some g) (ends : c.b = true) (live : g.r.live ≠ 0) :
    ∃ g', (finish t gid i c act .detach extra).group? gid = some g' ∧ g'.run = none ∧
      g'.r = { g.r with
        pc := g.r.pc + 12, head := true, replay := none, lstep := g.r.lstep + (if c.l then 1 else 0),
        gstep := g.r.gstep + (if c.l && c.g then 1 else 0), detached := true } := by
  obtain ⟨s, h, hs, eh, _, _, _, _, _, out⟩ := finish_live (i := i) (act := act) (n := .detach) (extra := extra) hg ends live
  obtain ⟨g', hg', eg'⟩ := group_closeShadow (group_leaveHorizon hs) c .detach
  have regs : g'.r = { h.r with detached := true } := by rw [eg']
  refine ⟨g', by rw [out]; exact hg', by rw [eg', eh], ?_⟩
  rw [regs, eh, ← gstep_crossings]
  rfl

/-- The end of a run by RETT. -/
theorem finish_rett {t : State} {gid : Nat} {g : Group} {i : Instr} {c : Ctl} {act : Mask} {extra : Nat}
    (hg : t.group? gid = some g) (ends : c.b = true) (live : g.r.live ≠ 0) :
    let u := finish t gid i c act .rett extra
    let l := if c.l then 1 else 0
    ∃ (s : State) (h : Group), s.group? gid = some h ∧ h.run = none ∧
      h.r = { g.r with pc := g.r.pc + 12, head := true, replay := none, lstep := g.r.lstep + l, gstep := g.r.gstep + if c.g then l else 0 } ∧
      t.Near s ∧ (∀ b, (s.block? b).map (fun x => x.mem) = (t.block? b).map (fun x => x.mem)) ∧
      u = (if c.l then (s.returnTrap gid h).pushShadow gid else s.returnTrap gid h) ∧
      ∃ g', u.group? gid = some g' ∧ g'.run = none ∧ g'.r.sys = false ∧ g'.r.pc = g.r.xpc ∧ g'.r.head = g.r.xhead ∧
        g'.r.lstep = g.r.lstep + l ∧ g'.r.gstep = (g.r.gstep + if c.g then l else 0) ∧ g'.r.live = g.r.live ∧
        ((s.returnTrap gid h).group? gid).map (fun x => x.r) = some g'.r := by
  intro u l
  obtain ⟨s, h, hs, eh, near, same, _, _, _, out⟩ :=
    finish_live (i := i) (act := act) (n := .rett) (extra := extra) hg ends live
  obtain ⟨h', hs', eh', regs', _, _⟩ := returnTrap_spec s gid h
  obtain ⟨g', hg', eg'⟩ := group_closeShadow hs' c .rett
  have regs : g'.r = h'.r := by rw [eg']
  have same_r : h.r = { g.r with
      pc := g.r.pc + 12, head := true, replay := none, lstep := g.r.lstep + l, gstep := g.r.gstep + if c.g then l else 0 } := by
    rw [eh]
    rfl
  have leaves : u = if c.l then (s.returnTrap gid h).pushShadow gid else s.returnTrap gid h := out
  refine ⟨s, h, hs, by rw [eh], same_r, near, same.blocks, leaves, g', by rw [← hg']; exact congrArg (fun x => x.group? gid) out,
    by rw [eg', eh', eh], ?_, ?_, ?_, ?_, ?_, ?_, by rw [hs', regs]; rfl⟩ <;> rw [regs, regs', same_r]

/-- Settles O14: a run's end crosses what its last instruction says, and nothing else moves. -/
theorem runBoundaries : Obligations.RunBoundaries := by
  refine ⟨fun t gid g i c act n extra hg ends live plain => ?boundary, fun t gid g i c act n extra hg ends live =>
    ⟨?pass, finish_detach hg ends live, ?later⟩, fun t gid g i c act extra hg ends live => finish_rett hg ends live⟩
  case boundary =>
    obtain ⟨own, others, zero, one, same, near⟩ := finish_boundary (i := i) (act := act) (n := n) (extra := extra) hg ends live
      (by rcases plain with rfl | ⟨p, rfl⟩ <;> exact fun _ _ => rfl)
    have crossed : crossings c n = if c.l then 1 else 0 := by rcases plain with rfl | ⟨p, rfl⟩ <;> rfl
    rw [crossed, gstep_crossings] at own
    refine ⟨?_, others, zero, one, same.blocks, near⟩
    rcases plain with rfl | ⟨p, rfl⟩ <;> exact own
  case pass =>
    obtain ⟨⟨g', hg', run, regs, _⟩, _⟩ := finish_boundary (i := i) (act := act) (n := .pass n) (extra := extra) hg ends live fun _ _ => rfl
    exact ⟨g', hg', run, regs⟩
  case later =>
    obtain ⟨⟨g', hg', run, regs, _⟩, _⟩ := finish_boundary (i := i) (act := act) (n := .later) (extra := extra) hg ends live fun _ _ => rfl
    refine ⟨g', hg', run, regs.trans ?_⟩
    simp only [crossings, Nat.add_zero, ite_self]
    rfl

/-- Settles O15: a group without a live lane leaves its run, its slot and its pending traps at the end of its run. -/
theorem groupRetires : Obligations.GroupRetires := by
  intro t gid g i c act n extra hg ends dead u k
  have hgA : (stateAfter t gid g i act n extra).group? gid = some (groupAfter g i n) := by rw [stateAfter_group, if_pos rfl]
  obtain ⟨sameO, groupsO⟩ := slotOver_spec (stateAfter t gid g i act n extra) gid (groupAfter g i n) c
  obtain ⟨_, zero, one⟩ := slotOver_slots (stateAfter t gid g i act n extra) gid (groupAfter g i n) c
  generalize hs : slotOver (stateAfter t gid g i act n extra) gid (groupAfter g i n) c = s at *
  obtain ⟨sameC, othersC, ownC⟩ := crossN_spec s gid c.g (crossings c n)
  obtain ⟨_, coresC⟩ := near_crossN s gid c.g (crossings c n)
  obtain ⟨g2, hg2, eg2⟩ := ownC (runOver (groupAfter g i n)) (by rw [groupsO, if_pos rfl])
  have dead2 : g2.r.live = 0 := by rw [eg2]; exact dead
  have out : u = (s.crossN gid c.g (crossings c n)).retire gid := by
    have ended := endRun_eq (c := c) (n := n) hgA
    rw [hs, hg2] at ended
    exact ((finish_end hg ends).trans ended).trans (if_pos dead2)
  obtain ⟨sameR, othersR, freed, ownR⟩ := retire_spec (s.crossN gid c.g (crossings c n)) gid g2 hg2
  have noSlot := noSlot_retire (s.crossN gid c.g (crossings c n)) gid
  have before : SameMem t (stateAfter t gid g i act n extra) := ⟨rfl, fun _ => by simp [stateAfter]⟩
  have same : SameMem t u := out ▸ ((before.trans sameO).trans sameC).trans sameR
  have core : ((stateAfter t gid g i act n extra).blockOf (groupAfter g i n)).core = k := by
    simp only [stateAfter, blockOf_setGroup]
    exact congrArg Block.core (blockOf_modCore ..)
  rw [core] at zero one
  refine ⟨⟨_, out ▸ ownR, rfl, rfl, rfl, rfl, by rw [eg2]; rfl, by rw [eg2]; rfl, by rw [eg2]; rfl⟩, fun held => ?_, fun held => ?_,
    fun h other => ?_, same.mem, same.blocks⟩
  · rw [out] at held
    exact zero (core_congr coresC k ▸ noSlot.zero k held)
  · rw [out] at held
    exact one (core_congr coresC k ▸ noSlot.one k held)
  · rw [out, othersR h other, othersC h other, groupsO, if_neg other, stateAfter_group, if_neg other]

end Sys2Proof.Machine

/-! The checks before an instruction's effect, and the control instructions (R39, R225, R279, R285, R307 to R310, R366, R369 to R371). -/

namespace Sys2Proof.Machine
open State

/-! ## Instructions without an active lane (R39) -/

/-- An instruction whose entry states no effect without an active lane is issued as one that needs a lane. -/
theorem exec_eq_issue_lane {i : Instr} {c : Ctl} (h : ctlOf i = some c) (idle : actsIdle i = false) (s : State) :
    ∃ body, exec i s = issue i c false body s := by
  cases i <;> cases h <;> first | (unfold exec; exact ⟨_, rfl⟩) | cases idle

theorem ends_of_idle {s : State} {gid : Nat} {g : Group} {c : Ctl} {i : Instr} (hi : ctlOf i = some c) (ready : Ready s gid g c i)
    (none : g.active c = 0) (idle : actsIdle i = false) : Ends s gid g c i s.tickSeq .seq 0 := by
  obtain ⟨body, meaning⟩ := exec_eq_issue_lane hi idle s
  exact meaning.trans (issue_idle ready none body)

/-- SPAWN without an active lane clears its predicate. -/
theorem ends_spawn_idle {s : State} {gid : Nat} {g : Group} {c : Ctl} {fwd : Bool} {d : BitVec 4} {a : SReg} {b : VReg}
    (ready : Ready s gid g c (.spawn c fwd d a b)) (none : g.active c = 0) :
    Ends s gid g c (.spawn c fwd d a b) (s.tickSeq.setGroup gid (g.setP d.toNat 0)) .seq 0 := by
  change execSpawn c fwd d a b s = _
  rw [execSpawn, issue_ready ready]
  simp only [none, Bool.not_true, Bool.false_eq_true, and_false, if_false, Ctx.spawn, if_true]
  rfl

/-- PASS whose grant found no active lane either ends as it is. -/
theorem ends_pass_idle {s : State} {gid : Nat} {g : Group} {c : Ctl} {a : SSrc} (ready : Ready s gid g c (.pass c a)) (none : g.active c = 0)
    (same : ∀ q, g.runNow.pass = some q → q.active = false) : Ends s gid g c (.pass c a) (s.tickSeq.setGroup gid g) .seq 0 := by
  change execPass c a s = _
  rw [execPass, issue_ready ready]
  simp only [none, Bool.not_true, Bool.false_eq_true, and_false, if_false, bne_self_eq_false, Bool.false_and, Bool.or_false]
  cases hp : g.runNow.pass with
  | none => rfl
  | some q => simp only [same q hp, Bool.not_false, if_true]; rfl

/-! ## Levels (R225, R427) -/

/-- With even pairs, an instruction that its level does not allow takes trap 0x07. -/
theorem exec_forbidden {s : State} {gid : Nat} {g : Group} {c : Ctl} {i : Instr} (hi : ctlOf i = some c) (cur : s.cur = some gid)
    (hg : s.group? gid = some g) (alive : g.retired = false)
    (even : (usesOf g.runNow.xs i).all (fun u => !(u.even && (u.num.map (fun n => n % 2 == 1)).getD false)) = true)
    (inRun : runOut i (usesOf g.runNow.xs i) = false) (level : forbidden g.r.sys i = true) :
    exec i s = .next (s.syncTrap gid { cause := 0x07 }) := by
  refine exec_of_checkIssue hi cur hg alive ?_
  have noOdd : (usesOf g.runNow.xs i).any (fun u => u.even && (u.num.map (fun n => n % 2 == 1)).getD false) = false := by
    rw [List.any_eq_false]
    intro u hu
    have pair := List.all_eq_true.1 even u hu
    simpa [or_iff_not_imp_left] using pair
  simp only [checkIssue, noOdd, inRun, level, Bool.or_false, Bool.false_eq_true, if_false, if_true]

theorem writable_never {d : Special}
    (h : d ∉ [.lag, .lfm, .nrs, .xcause, .xpc, .xaddr, .xlanes, .xstep, .xprog, .xinfo, .xvec, .wbv, .wbs, .spill, .accst]) (sys : Bool) :
    Special.writable sys d = false := by
  cases d <;> first | rfl | simp at h

theorem writable_program {d : Special} (h : d ≠ .lag) : Special.writable false d = false := by
  cases d <;> first | rfl | exact absurd rfl h

/-- Settles O16: the checks come before any effect, and what no lane executes only ends. -/
theorem checksAndLevels : Obligations.ChecksAndLevels := by
  refine ⟨⟨fun s gid g c i hi ready none idle => ends_of_idle hi ready none idle,
      fun s gid g c fwd d a b ready none => ends_spawn_idle ready none, fun s gid g c a ready none same => ends_pass_idle ready none same⟩,
    fun s gid g c i t hi cur hg alive trap => exec_of_checkIssue hi cur hg alive trap,
    fun s gid g c i hi cur hg alive even => ⟨fun program which => ?_, fun d a isWrsr never => ?_⟩⟩
  · refine exec_forbidden hi cur hg alive even ?_ ?_
    · rcases which with rfl | ⟨_, _, rfl⟩ | ⟨_, rfl⟩ | ⟨_, _, rfl⟩ | ⟨_, _, _, _, _, rfl⟩ | ⟨_, rfl⟩ | ⟨_, rfl⟩ | ⟨_, _, rfl, _⟩ <;> rfl
    · rw [program]
      rcases which with rfl | ⟨_, _, rfl⟩ | ⟨_, rfl⟩ | ⟨_, _, rfl⟩ | ⟨_, _, _, _, _, rfl⟩ | ⟨_, rfl⟩ | ⟨_, rfl⟩ | ⟨_, _, rfl, other⟩
      all_goals first | rfl | simp only [forbidden, writable_program other, Bool.not_false]
  · subst isWrsr
    refine exec_forbidden hi cur hg alive even rfl ?_
    simp only [forbidden, writable_never never, Bool.not_false]

/-! ## Branches (R307 to R309) -/

section
variable {s : State} {gid : Nat} {g : Group} {c : Ctl}

/-- What a taken branch answers. -/
theorem branch_mk (act : Mask) (reg : Bool) (t : Word) : Ctx.branch ⟨s, gid, g, g.runNow, c, act⟩ reg t =
    match badTarget reg t with
    | some e => .trap s e
    | none => .ok s (.jump t) 0 := by
  unfold Ctx.branch
  cases badTarget reg t <;> rfl

theorem badTarget_far {reg : Bool} {t : Word} (h : canonical t = false) : badTarget reg t = some { cause := 0x11, addr := t } := by
  simp [badTarget, h]

theorem badTarget_word {t : Word} (h : canonical t = true) : badTarget false t = none := by simp [badTarget, h]

theorem badTarget_odd {t : Word} (h : canonical t = true) (odd : t.toNat % 4 ≠ 0) : badTarget true t = some { cause := 0x10, addr := t } := by
  simp [badTarget, h, odd]

theorem badTarget_none {t : Word} (h : canonical t = true) (even : t.toNat % 4 = 0) : badTarget true t = none := by
  simp [badTarget, h, even]

/-- A ready instruction whose body goes to a good target ends there, and one whose target is bad traps. -/
theorem exec_branch {i : Instr} {body : Ctx → Res} (meaning : ∀ s, exec i s = issue i c false body s) (ready : Active s gid g c i)
    {reg : Bool} {t : Word} (goes : body (ctxOf s gid g c) = (ctxOf s gid g c).branch reg t) :
    (∀ e, badTarget reg t = some e → exec i s = .next (s.tickSeq.syncTrap gid e)) ∧
      (badTarget reg t = none → Ends s gid g c i s.tickSeq (.jump t) 0) := by
  have run : exec i s = match badTarget reg t with
      | some e => .next (s.tickSeq.syncTrap gid e)
      | none => .next (finish s.tickSeq gid i c (g.active c) (.jump t) 0) := by
    unfold ctxOf at goes
    rw [meaning, issue_active ready, goes, branch_mk]
    cases badTarget reg t <;> rfl
  refine ⟨fun e bad => ?_, fun good => ?_⟩
  · rw [run, bad]
  · rw [Ends, run, good]

/-- A ready instruction whose body leaves its group as it is only ends. -/
theorem ends_done {i : Instr} {body : Ctx → Res} (meaning : ∀ s, exec i s = issue i c false body s) (ready : Active s gid g c i) {g' : Group}
    (does : body (ctxOf s gid g c) = (ctxOf s gid g c).done g') : Ends s gid g c i (s.tickSeq.setGroup gid g') .seq 0 := by
  unfold ctxOf at does
  rw [Ends, meaning, issue_active ready, does]
  rfl

/-- A ready instruction whose body fails traps. -/
theorem exec_fail {i : Instr} {body : Ctx → Res} (meaning : ∀ s, exec i s = issue i c false body s) (ready : Active s gid g c i) {t : TrapInfo}
    (fails : body (ctxOf s gid g c) = (ctxOf s gid g c).fail t) : exec i s = .next (s.tickSeq.syncTrap gid t) := by
  unfold ctxOf at fails
  rw [meaning, issue_active ready, fails]
  rfl

end

section
variable {s : State} {gid : Nat} {g : Group} {c : Ctl}

theorem ends_nop (ready : Active s gid g c (.nop c)) : Ends s gid g c (.nop c) (s.tickSeq.setGroup gid g) .seq 0 :=
  ends_done (body := fun x => x.done x.g) (fun _ => rfl) ready rfl

theorem exec_bra {imm : BitVec 32} (ready : Active s gid g c (.bra c imm)) :
    (∀ e, badTarget false (jTarget g.r.pc imm) = some e → exec (.bra c imm) s = .next (s.tickSeq.syncTrap gid e)) ∧
      (badTarget false (jTarget g.r.pc imm) = none → Ends s gid g c (.bra c imm) s.tickSeq (.jump (jTarget g.r.pc imm)) 0) :=
  exec_branch (body := fun x => x.branch false (jTarget x.g.r.pc imm)) (fun _ => rfl) ready rfl

/-- BRZ on a register that is zero goes to its target. -/
theorem exec_brz {r : SReg} {imm : BitVec 32} (ready : Active s gid g c (.brz c r imm)) (zero : g.sval r = 0) :
    (∀ e, badTarget false (jTarget g.r.pc imm) = some e → exec (.brz c r imm) s = .next (s.tickSeq.syncTrap gid e)) ∧
      (badTarget false (jTarget g.r.pc imm) = none → Ends s gid g c (.brz c r imm) s.tickSeq (.jump (jTarget g.r.pc imm)) 0) :=
  exec_branch (body := fun x => if x.sreg r = 0 then x.branch false (jTarget x.g.r.pc imm) else x.done x.g) (fun _ => rfl) ready
    (if_pos zero)

theorem ends_brz {r : SReg} {imm : BitVec 32} (ready : Active s gid g c (.brz c r imm)) (other : g.sval r ≠ 0) :
    Ends s gid g c (.brz c r imm) (s.tickSeq.setGroup gid g) .seq 0 :=
  ends_done (body := fun x => if x.sreg r = 0 then x.branch false (jTarget x.g.r.pc imm) else x.done x.g) (fun _ => rfl) ready
    (if_neg other)

/-- BRNZ on a register that is not zero goes to its target. -/
theorem exec_brnz {r : SReg} {imm : BitVec 32} (ready : Active s gid g c (.brnz c r imm)) (other : g.sval r ≠ 0) :
    (∀ e, badTarget false (jTarget g.r.pc imm) = some e → exec (.brnz c r imm) s = .next (s.tickSeq.syncTrap gid e)) ∧
      (badTarget false (jTarget g.r.pc imm) = none → Ends s gid g c (.brnz c r imm) s.tickSeq (.jump (jTarget g.r.pc imm)) 0) :=
  exec_branch (body := fun x => if x.sreg r = 0 then x.done x.g else x.branch false (jTarget x.g.r.pc imm)) (fun _ => rfl) ready
    (if_neg other)

theorem ends_brnz {r : SReg} {imm : BitVec 32} (ready : Active s gid g c (.brnz c r imm)) (zero : g.sval r = 0) :
    Ends s gid g c (.brnz c r imm) (s.tickSeq.setGroup gid g) .seq 0 :=
  ends_done (body := fun x => if x.sreg r = 0 then x.done x.g else x.branch false (jTarget x.g.r.pc imm)) (fun _ => rfl) ready
    (if_pos zero)

theorem exec_brx {r : SReg} (ready : Active s gid g c (.brx c r)) :
    (∀ e, badTarget true (g.sval r) = some e → exec (.brx c r) s = .next (s.tickSeq.syncTrap gid e)) ∧
      (badTarget true (g.sval r) = none → Ends s gid g c (.brx c r) s.tickSeq (.jump (g.sval r)) 0) :=
  exec_branch (body := fun x => x.branch true (x.sreg r)) (fun _ => rfl) ready rfl

/-! ## PASS and RETT (R369 to R371, R386) -/

/-- PASS has the activity and the count that its run's grant used. -/
def passSame (g : Group) (n : Word) : Prop := ∀ q, g.runNow.pass = some q → q.active = true ∧ q.count = n

/-- The activity or the count of PASS has changed since the grant of its run. -/
def passChanged (g : Group) (n : Word) : Bool :=
  match g.runNow.pass with
  | none => false
  | some q => q.active != true || (true && q.count != n)

theorem passChanged_eq_false {n : Word} : passChanged g n = false ↔ passSame g n := by
  unfold passChanged passSame
  cases g.runNow.pass with
  | none => simp
  | some q => simp

/-- What an active PASS answers. -/
theorem exec_pass {a : SSrc} (ready : Active s gid g c (.pass c a)) : exec (.pass c a) s =
    if passChanged g (g.ssval a) then .next (s.tickSeq.syncTrap gid { cause := 0x05, info := 1 })
    else if 1 ≤ (g.ssval a).toNat ∧ (g.ssval a).toNat ≤ 3 then .next (finish s.tickSeq gid (.pass c a) c (g.active c) (.pass (g.ssval a).toNat) 0)
    else .next (s.tickSeq.syncTrap gid { cause := 0x38, info := g.ssval a }) := by
  have active : (g.active c != 0) = true := bne_iff_ne.2 ready.lane
  change execPass c a s = _
  rw [execPass, issue_active ready]
  simp only [active, ssrc_mk]
  unfold passChanged
  cases g.runNow.pass with
  | none => by_cases few : 1 ≤ (g.ssval a).toNat ∧ (g.ssval a).toNat ≤ 3 <;> simp only [few, Bool.false_eq_true, if_false] <;> rfl
  | some q =>
    by_cases changed : (q.active != true || (true && q.count != g.ssval a)) = true
    · simp only [changed, if_true]
      rfl
    · by_cases few : 1 ≤ (g.ssval a).toNat ∧ (g.ssval a).toNat ≤ 3 <;> simp only [changed, few, Bool.false_eq_true, if_false] <;> rfl

/-- What an active RETT answers. -/
theorem exec_rett (ready : Active s gid g c (.rett c)) : exec (.rett c) s =
    if canonical g.r.xpc then .next (finish s.tickSeq gid (.rett c) c (g.active c) .rett
      (((g.r.frame.map (fun f => f.units)).getD []).map (fun u => if u.vec then 8 else 1)).sum)
    else .next (s.tickSeq.syncTrap gid { cause := 0x11, addr := g.r.xpc }) := by
  change execRett c s = _
  rw [execRett, issue_active ready]
  cases canonical g.r.xpc <;> rfl

theorem ends_exit (ready : Active s gid g c (.exit c)) :
    Ends s gid g c (.exit c) (s.tickSeq.setGroup gid { g with r := { g.r with live := g.r.live &&& ~~~g.active c } }) .seq 0 :=
  ends_done (body := fun x => x.done { x.g with r := { x.g.r with live := x.g.r.live &&& ~~~x.act } }) (fun _ => rfl) ready rfl

theorem ends_detach (ready : Active s gid g c (.detach c)) : Ends s gid g c (.detach c) s.tickSeq .detach 0 := by
  change execDetach c s = _
  rw [execDetach, issue_active ready]

theorem exec_unassigned {w : IWord} (cur : s.cur = some gid) (hg : s.group? gid = some g) :
    exec (.unassignedOpcode w) s = .next (s.syncTrap gid { cause := 0x01 }) := by
  change raiseWord { cause := 0x01 } s = _
  simp only [raiseWord, cur, hg, Option.isNone_some, Bool.false_eq_true, if_false]

end

/-- Settles O17: each control instruction goes where it says, or raises the trap of its check. -/
theorem control : Obligations.Control := by
  refine ⟨fun s gid g c imm r => ?branches, fun s gid g c a imm => ?others⟩
  case branches =>
    refine ⟨ends_nop, fun ready => ⟨fun good => (exec_bra ready).2 (badTarget_word good), fun far => (exec_bra ready).1 _ (badTarget_far far)⟩,
      fun ready => ⟨ends_brz ready, fun zero good => (exec_brz ready zero).2 (badTarget_word good),
        fun zero far => (exec_brz ready zero).1 _ (badTarget_far far)⟩,
      fun ready => ⟨ends_brnz ready, fun other good => (exec_brnz ready other).2 (badTarget_word good),
        fun other far => (exec_brnz ready other).1 _ (badTarget_far far)⟩,
      fun ready => ⟨fun far => (exec_brx ready).1 _ (badTarget_far far), fun good odd => (exec_brx ready).1 _ (badTarget_odd good odd),
        fun good even => (exec_brx ready).2 (badTarget_none good even)⟩⟩
  case others =>
    intro n same
    have unchanged : same ↔ passChanged g n = false := passChanged_eq_false.symm
    refine ⟨ends_exit,
      fun ready => ⟨fun hs low high => ?_, fun hs bad => ?_, fun hs => ?_⟩, ends_detach,
      fun ready => exec_fail (body := fun x => x.fail { cause := 0x52 }) (fun _ => rfl) ready rfl,
      fun ready => exec_fail (body := fun x => x.fail { cause := 0x53, info := immW imm, past := true }) (fun _ => rfl) ready rfl,
      fun ready => ⟨fun good => ?_, fun far => ?_⟩, fun w cur hg => exec_unassigned cur hg⟩
    · rw [Ends, exec_pass ready, unchanged.1 hs, if_neg Bool.false_ne_true, if_pos ⟨low, high⟩]
    · have outside : ¬ (1 ≤ n.toNat ∧ n.toNat ≤ 3) := by
        rcases bad with zero | more
        · rw [zero]
          simp
        · omega
      rw [exec_pass ready, unchanged.1 hs, if_neg Bool.false_ne_true, if_neg outside]
    · rw [exec_pass ready, if_pos (Bool.eq_true_of_not_eq_false fun h => hs (unchanged.2 h))]
    · rw [Ends, exec_rett ready, if_pos good]
    · rw [exec_rett ready, if_neg (Bool.eq_false_iff.1 far)]

end Sys2Proof.Machine

/-! Calls and returns (R59, R60, R305, R320, R385). -/

namespace Sys2Proof.Machine
open State

/-! ## Calls (R305, R320) -/

/-- The state after a call with room: units and record in the spill area, and the windows and %spill moved. -/
def afterCall (s : State) (gid : Nat) (g : Group) (nv ns : BitVec 4) : State :=
  let us := g.spillSets (8 * nv.toNat) (4 * ns.toNat)
  let base := g.r.spill.toNat
  let n := 1024 * us.1.length + 64 * us.2.length
  let record := leBytes 8 (g.r.pc + 12).toNat ++
    [nv.setWidth 8, ns.setWidth 8, BitVec.ofNat 8 us.1.length, BitVec.ofNat 8 us.2.length, 0, 0, 0, 0]
  (s.modBlock g.blk (fun b => { b with mem := wrL (putUnits b.mem g.r us base) (base + n) record })).setGroup gid
    { g with r := { g.r with
        wbv := (g.r.wbv + 8 * nv.toNat) % g.va
        wbs := (g.r.wbs + 4 * ns.toNat) % g.sa
        vDepth := g.r.vDepth + 8 * nv.toNat
        sDepth := g.r.sDepth + 4 * ns.toNat
        spill := BitVec.ofNat 64 (base + n + 16) } }

/-- What a call with a good target answers. -/
theorem call_mk (s : State) (gid : Nat) (g : Group) (c : Ctl) (act : Mask) (nv ns : BitVec 4) {reg : Bool} {t : Word}
    (good : badTarget reg t = none) : Ctx.call ⟨s, gid, g, g.runNow, c, act⟩ nv ns reg t =
      let us := g.spillSets (8 * nv.toNat) (4 * ns.toNat)
      if g.spillEnd < g.r.spill.toNat + (1024 * us.1.length + 64 * us.2.length) + 16 then .trap s { cause := 0x40 }
      else .ok (afterCall s gid g nv ns) (.jump t) (8 * us.1.length + us.2.length) := by
  simp only [Ctx.call, good]
  rfl

/-- A call with a good target, ready, completes when its units and record have room, and traps otherwise. -/
theorem exec_call {s : State} {gid : Nat} {g : Group} {c : Ctl} {i : Instr} {nv ns : BitVec 4} {reg : Bool} {t : Word} {body : Ctx → Res}
    (meaning : ∀ s, exec i s = issue i c false body s) (calls : body (ctxOf s gid g c) = (ctxOf s gid g c).call nv ns reg t)
    (ready : Active s gid g c i) (good : badTarget reg t = none) :
    let us := g.spillSets (8 * nv.toNat) (4 * ns.toNat)
    let n := 1024 * us.1.length + 64 * us.2.length
    (g.r.spill.toNat + n + 16 ≤ g.spillEnd →
      Ends s gid g c i (afterCall s.tickSeq gid g nv ns) (.jump t) (8 * us.1.length + us.2.length)) ∧
    (g.spillEnd < g.r.spill.toNat + n + 16 → exec i s = .next (s.tickSeq.syncTrap gid { cause := 0x40 })) := by
  intro us n
  unfold ctxOf at calls
  refine ⟨fun room => ?_, fun full => ?_⟩
  · have fits : ¬ g.spillEnd < g.r.spill.toNat + n + 16 := by omega
    rw [Ends, meaning, issue_active ready, calls, call_mk s.tickSeq gid g c (g.active c) nv ns good]
    simp only
    rw [if_neg fits]
  · rw [meaning, issue_active ready, calls, call_mk s.tickSeq gid g c (g.active c) nv ns good]
    simp only
    rw [if_pos full]

/-! ## Returns (R385) -/

/-- A base that has slid down, modulo its allotment, comes back when it slides up again. -/
theorem slide_back (w a n : Nat) : ((w + a * 256 - n) % a + n) % a = (w + a * 256) % a ∨ w + a * 256 < n := by
  by_cases reach : n ≤ w + a * 256
  · left
    rw [Nat.mod_add_mod, Nat.sub_add_cancel reach]
  · right
    omega

/-- What an active RET answers. -/
theorem exec_ret {s : State} {gid : Nat} {g : Group} {c : Ctl} (ready : Active s gid g c (.ret c)) : exec (.ret c) s =
    let mem := (s.blockOf g).mem
    let at_ := (g.r.spill - 16).toNat
    let nv := 8 * (rd8 mem (at_ + 8)).toNat
    let ns := 4 * (rd8 mem (at_ + 9)).toNat
    let nvu := (rd8 mem (at_ + 10)).toNat
    let nsu := (rd8 mem (at_ + 11)).toNat
    let base := at_ - (1024 * nvu + 64 * nsu)
    let wbv := (g.r.wbv + g.va * 256 - nv) % g.va
    let wbs := (g.r.wbs + g.sa * 256 - ns) % g.sa
    if g.r.spill = frameBase g then .next (s.tickSeq.syncTrap gid { cause := 0x40, info := 1 })
    else .next (finish (s.tickSeq.setGroup gid { g with r := { g.r with
        wbv := wbv
        wbs := wbs
        vDepth := g.r.vDepth - nv
        sDepth := g.r.sDepth - ns
        v := refillV mem g.r.v g.va wbv nv nvu base
        s := refillS mem g.r.s g.sa wbs ns nsu (base + 1024 * nvu)
        spill := g.r.spill - BitVec.ofNat 64 (16 + 1024 * nvu + 64 * nsu) } }) gid (.ret c) c (g.active c) (.jump (rd64 mem at_))
      (8 * nvu + nsu)) := by
  change execRet c s = _
  rw [execRet, issue_active ready]
  by_cases bottom : g.r.spill = frameBase g
  · simp only [Ctx.ret, bottom, if_true]
    rfl
  · simp only [Ctx.ret, bottom, if_false]
    rfl

/-- Settles O18: a call and a return move the windows, %spill and their units as their records say. -/
theorem callsAndReturns : Obligations.CallsAndReturns := by
  refine ⟨fun s gid g c nv ns imm a => ⟨fun ready good => ?_, fun ready good => ?_⟩, fun s gid g c ready => ⟨fun bottom => ?_, fun deep => ?_⟩⟩
  · exact exec_call (body := fun x => x.call nv ns false (jTarget x.g.r.pc imm)) (fun _ => rfl) rfl ready good
  · exact exec_call (body := fun x => x.call nv ns true (x.sreg a)) (fun _ => rfl) rfl ready good
  · rw [exec_ret ready]
    exact if_pos bottom
  · refine ⟨_, _, slide_back g.r.wbv g.va _, slide_back g.r.wbs g.sa _, ?_⟩
    rw [Ends, exec_ret ready]
    exact if_neg deep

end Sys2Proof.Machine

/-! The local accesses: LDL, SLDL, LDW, STL, STLA and SSTL, alignment, and the bytes of a store (R70, R84, R104, R105, R351, R399 to R401, R410 to R413). -/

namespace Sys2Proof.Machine
open State

section
variable {s : State} {gid : Nat} {g : Group} {c : Ctl} {i : Instr} {body : Ctx → Res}

/-- A ready instruction whose body completes ends after what the body did. -/
theorem ends_of_ok (meaning : ∀ s, exec i s = issue i c false body s) (ready : Active s gid g c i) {t : State} {n : Next} {extra : Nat}
    (does : body (ctxOf s gid g c) = .ok t n extra) : Ends s gid g c i t n extra := by
  unfold ctxOf at does
  rw [Ends, meaning, issue_active ready, does]

/-- A ready instruction whose body raises a trap takes it after what the body did. -/
theorem exec_of_trap (meaning : ∀ s, exec i s = issue i c false body s) (ready : Active s gid g c i) {t : State} {u : TrapInfo}
    (does : body (ctxOf s gid g c) = .trap t u) : exec i s = .next (t.syncTrap gid u) := by
  unfold ctxOf at does
  rw [meaning, issue_active ready, does]

end

/-! ## Operands, through the context of a ready instruction -/

section
variable (s : State) (gid : Nat) (g : Group) (c : Ctl)

theorem vaddr_ctxOf (glob : Bool) (m : VMem) : (ctxOf s gid g c).vaddr glob m = g.vaddr glob m := vaddr_mk glob m

theorem saddr_ctxOf (m : SMem) : (ctxOf s gid g c).saddr m = g.saddr m := saddr_mk m

theorem vdata_ctxOf (sz : Size) (d : VReg) : (ctxOf s gid g c).vdata sz d = g.stored sz d := vdata_mk sz d

theorem vdst_ctxOf (sz : Size) (d : VReg) : (ctxOf s gid g c).vdst sz d = g.loadDst sz d := vdst_mk sz d

theorem sdst_ctxOf (d : SReg) : (ctxOf s gid g c).sdst d = .sca (g.physS (g.sname d)) := sdst_mk d

theorem act_ctxOf : (ctxOf s gid g c).act = g.active c := rfl

theorem block_ctxOf : (ctxOf s gid g c).s.blockOf (ctxOf s gid g c).g = s.blockOf g := State.blockOf_tickSeq s g

/-- The lanes that LDL, STL and STLA switch off, and those that remain (R105). -/
theorem inBounds_ctxOf (addr : Nat → Word) (n : Nat) :
    let b := s.blockOf g
    let off := compareMask (g.active c) (fun l =>
      decide ((b.bytes + if g.r.sys then b.groups.length * b.spill else 0) < (addr l).toNat + n))
    (ctxOf s gid g c).inBounds addr n = (g.switchOff off, g.active c &&& ~~~off) := by
  simp only [Ctx.inBounds, block_ctxOf, localLimit_eq]
  rfl

end

/-! ## Lanes with and without a flaw -/

/-- A list from which no element is dropped. -/
theorem filter_not_eq_self {ls : List Nat} {p : Nat → Bool} (h : ∀ l ∈ ls, p l = false) : ls.filter (fun l => !p l) = ls :=
  List.filter_eq_self.2 fun l hl => by simp [h l hl]

theorem filter_eq_nil_of_false {ls : List Nat} {p : Nat → Bool} (h : ∀ l ∈ ls, p l = false) : ls.filter p = [] :=
  List.filter_eq_nil_iff.2 fun l hl => by simp [h l hl]

/-! ## Loads -/

section
variable {s : State} {gid : Nat} {g : Group} {c : Ctl}

theorem loadLocal_ok {sz : Size} {d : VReg} {m : VMem} {addr : Nat → Word} {off rest : Mask} {deps : List Nat} (isAddr : addr = g.vaddr false m)
    (isOff : off = compareMask (g.active c) (fun l => decide (((s.blockOf g).bytes + if g.r.sys then (s.blockOf g).groups.length * (s.blockOf g).spill else 0) <
      (addr l).toNat + sz.bytes)))
    (isRest : rest = g.active c &&& ~~~off) (isDeps : deps = writesOver (s.blockOf g) (laneRange addr sz.bytes rest))
    (aligned : ∀ l ∈ lanesOf (g.active c), (addr l).toNat % sz.bytes = 0)
    (clean : ∀ l ∈ lanesOf rest, (s.blockOf g).poisoned (addr l).toNat sz.bytes = false) :
    (ctxOf s gid g c).loadLocal sz d m = .ok (startLoad s.tickSeq gid (g.switchOff off) (g.loadDst sz d) sz (.loc g.r.lstep deps)
      ((lanesOf rest).map (fun l => ⟨l, (addr l).toNat, addr l, .now,
        if (deps.isEmpty && (s.blockOf g).closed == g.r.lstep) = true then some (BitVec.ofNat 64 (rdN (s.blockOf g).mem (addr l).toNat sz.bytes))
        else none⟩))) .seq 0 := by
  subst isDeps isRest isOff isAddr
  simp only [Ctx.loadLocal, vaddr_ctxOf, misaligned_none (x := ctxOf s gid g c) (w := false) aligned, inBounds_ctxOf, block_ctxOf, vdst_ctxOf,
    filter_not_eq_self clean, filter_eq_nil_of_false clean, List.map_nil, laneTrap_nil]
  rfl

theorem checkLocal_ok {a : Word} {n : Nat} {write : Bool} (aligned : a.toNat % n = 0)
    (inside : a.toNat + n ≤ (s.blockOf g).bytes + if g.r.sys then (s.blockOf g).groups.length * (s.blockOf g).spill else 0)
    (clean : write = false → (s.blockOf g).poisoned a.toNat n = false) : (ctxOf s gid g c).checkLocal a n write = none := by
  have poison : (!write && (s.blockOf g).poisoned a.toNat n) = false := by
    cases write
    · simp [clean rfl]
    · rfl
  have fits : ¬ localLimit (s.blockOf g) g.r.sys < a.toNat + n := by rw [localLimit_eq]; omega
  simp only [Ctx.checkLocal, block_ctxOf, aligned, bne_self_eq_false, Bool.false_eq_true, if_false, poison]
  exact if_neg fits

theorem loadWeight_ok {sz : Size} {d : VReg} {m : VMem} {addr : Nat → Word} (isAddr : addr = g.vaddr false m)
    (good : ∀ l ∈ lanesOf (g.active c), (addr l).toNat % sz.bytes = 0 ∧ (addr l).toNat + sz.bytes ≤ 2 ^ 29 ∧
      s.poisoned (keyWeight (coreDie (s.blockOf g).core) (addr l).toNat) sz.bytes = false) :
    (ctxOf s gid g c).loadWeight sz d m = .ok (startLoad s.tickSeq gid g (g.loadDst sz d) sz .weight
      ((lanesOf (g.active c)).map (fun l => ⟨l, keyWeight (coreDie (s.blockOf g).core) (addr l).toNat, addr l, .now, none⟩))) .seq 0 := by
  subst isAddr
  have fine : ∀ l ∈ lanesOf (g.active c), (if Config.weightBytes < (g.vaddr false m l).toNat + sz.bytes then some 0x12
      else if (ctxOf s gid g c).s.poisoned (keyWeight (coreDie (s.blockOf g).core) (g.vaddr false m l).toNat) sz.bytes = true then some 0x14
      else none) = none := by
    intro l hl
    obtain ⟨-, inside, clean⟩ := good l hl
    have fits : ¬ Config.weightBytes < (g.vaddr false m l).toNat + sz.bytes := by
      rw [show Config.weightBytes = 2 ^ 29 from rfl]; omega
    have clean' : (ctxOf s gid g c).s.poisoned (keyWeight (coreDie (s.blockOf g).core) (g.vaddr false m l).toNat) sz.bytes = false := clean
    rw [if_neg fits, clean', if_neg (by decide)]
  have aligned : ∀ l ∈ lanesOf (ctxOf s gid g c).act, (g.vaddr false m l).toNat % sz.bytes = 0 := fun l hl => (good l hl).1
  simp only [Ctx.loadWeight, vaddr_ctxOf, misaligned_none (w := false) aligned, block_ctxOf, vdst_ctxOf, act_ctxOf]
  rw [List.filterMap_eq_nil_iff.2 (fun l hl => by rw [fine l hl]; rfl), List.filter_eq_self.2 (fun l hl => by rw [fine l hl]; rfl), laneTrap_nil]
  rfl

/-- Settles O26: the loads from the local store and the weight store. -/
theorem localLoads : Obligations.LocalLoads := by
  intro s gid g c sz d m e q n b lim ready read
  refine ⟨?_, ?_, ?_⟩
  · intro active addr off rest deps aligned clean
    exact ends_of_ok (body := fun x => x.loadLocal sz d m) (fun _ => rfl) active (loadLocal_ok rfl rfl rfl rfl aligned clean)
  · intro active a deps aligned inside clean
    refine ends_of_ok (body := fun x => x.sloadLocal sz e q) (fun _ => rfl) active ?_
    have passes : (ctxOf s gid g c).checkLocal (g.saddr q) sz.bytes false = none := checkLocal_ok aligned inside fun _ => clean
    simp only [Ctx.sloadLocal, saddr_ctxOf, passes, block_ctxOf, sdst_ctxOf]
    rfl
  · intro active addr p good
    exact ends_of_ok (body := fun x => x.loadWeight sz d m) (fun _ => rfl) active (loadWeight_ok rfl good)

/-! ## Stores -/

theorem storeLocal_ok {sz : Size} {rule : WRule} {d : VReg} {m : VMem} {addr : Nat → Word} {off : Mask} (isAddr : addr = g.vaddr false m)
    (isOff : off = compareMask (g.active c) (fun l => decide (((s.blockOf g).bytes + if g.r.sys then (s.blockOf g).groups.length * (s.blockOf g).spill else 0) <
      (addr l).toNat + sz.bytes)))
    (aligned : ∀ l ∈ lanesOf (g.active c), (addr l).toNat % sz.bytes = 0) :
    (ctxOf s gid g c).storeLocal sz rule d m = .ok ((s.tickSeq.setGroup gid (g.switchOff off)).modBlock g.blk (fun b => { b with
      pend := b.pend ++ ((lanesOf (g.active c &&& ~~~off)).flatMap (fun l =>
        splitWrite (storeOf s gid rule (g.gwid + BitVec.ofNat 64 l)) (addr l).toNat (addr l) sz.bytes (g.stored sz d l))).map (fun w =>
          { w := w, step := g.r.lstep, by_ := rangesOver (s.blockOf g) (laneRange addr sz.bytes (g.active c &&& ~~~off)), ofOp := false }) })) .seq 0 := by
  subst isOff isAddr
  simp only [Ctx.storeLocal, vaddr_ctxOf, misaligned_none (x := ctxOf s gid g c) (w := true) aligned, inBounds_ctxOf, block_ctxOf, vdata_ctxOf]
  rfl

/-- Settles O29: the stores to the local store. -/
theorem localStores : Obligations.LocalStores := by
  intro s gid g c sz rule sum d m e q n b lim vector
  refine ⟨?_, ?_, ?_⟩
  · intro active addr off rest deps ws aligned
    exact ends_of_ok (body := fun x => x.storeLocal sz (wrule rule sum) d m) (fun _ => rfl) active (storeLocal_ok rfl rfl aligned)
  · intro active addr off rest deps ws aligned
    exact ends_of_ok (body := fun x => x.storeLocal sz (.acc sum) d m) (fun _ => rfl) active (storeLocal_ok rfl rfl aligned)
  · intro active a deps ws aligned inside
    refine ends_of_ok (body := fun x => x.sstoreLocal sz (wrule rule sum) e q) (fun _ => rfl) active ?_
    have passes : (ctxOf s gid g c).checkLocal (g.saddr q) sz.bytes true = none := checkLocal_ok aligned inside nofun
    simp only [Ctx.sstoreLocal, saddr_ctxOf, passes, block_ctxOf]
    rfl

/-! ## Alignment (R104, R209) -/

/-- A body that starts with the alignment check of its lanes fails where a lane is not aligned. -/
theorem exec_misaligned {i : Instr} {body : Ctx → Res} (meaning : ∀ s, exec i s = issue i c false body s) (ready : Active s gid g c i)
    {addr : Nat → Word} {n : Nat} {write : Bool} (checks : ∀ t, (ctxOf s gid g c).misaligned addr n write = some t →
      body (ctxOf s gid g c) = (ctxOf s gid g c).fail t) (bad : ∃ l ∈ lanesOf (g.active c), (addr l).toNat % n ≠ 0) :
    ∃ (mis : Mask) (low : Nat), (∀ l, l < 32 → bitOf mis l = (bitOf (g.active c) l && decide ((addr l).toNat % n ≠ 0))) ∧
      low ∈ lanesOf mis ∧ (∀ l ∈ lanesOf mis, (addr low).toNat ≤ (addr l).toNat) ∧
      exec i s = .next (s.tickSeq.syncTrap gid { cause := 0x10, addr := addr low, lanes := mis, info := if write then 2 else 0 }) := by
  obtain ⟨mis, low, isMis, lowIn, lowest, trap⟩ := misaligned_some (x := ctxOf s gid g c) (w := write) bad
  refine ⟨mis, low, isMis, lowIn, lowest, ?_⟩
  rw [exec_fail meaning ready (checks _ trap)]
  cases write <;> rfl

end

section
variable (s : State) (gid : Nat) (g : Group) (c : Ctl) (sz : Size) (rule : WRule) (d : VReg) (m : VMem) (t : TrapInfo)

theorem loadLocal_misaligned (h : (ctxOf s gid g c).misaligned (g.vaddr false m) sz.bytes false = some t) :
    (ctxOf s gid g c).loadLocal sz d m = (ctxOf s gid g c).fail t := by
  simp only [Ctx.loadLocal, vaddr_ctxOf, h]

theorem loadWeight_misaligned (h : (ctxOf s gid g c).misaligned (g.vaddr false m) sz.bytes false = some t) :
    (ctxOf s gid g c).loadWeight sz d m = (ctxOf s gid g c).fail t := by
  simp only [Ctx.loadWeight, vaddr_ctxOf, h]

theorem loadGlobal_misaligned (kind : Kind) (res : BitVec 4) (h : (ctxOf s gid g c).misaligned (g.vaddr true m) sz.bytes false = some t) :
    (ctxOf s gid g c).loadGlobal sz kind res d m = (ctxOf s gid g c).fail t := by
  simp only [Ctx.loadGlobal, vaddr_ctxOf, h]

theorem storeLocal_misaligned (h : (ctxOf s gid g c).misaligned (g.vaddr false m) sz.bytes true = some t) :
    (ctxOf s gid g c).storeLocal sz rule d m = (ctxOf s gid g c).fail t := by
  simp only [Ctx.storeLocal, vaddr_ctxOf, h]

theorem storeGlobal_misaligned (h : (ctxOf s gid g c).misaligned (g.vaddr true m) sz.bytes true = some t) :
    (ctxOf s gid g c).storeGlobal sz rule d m = (ctxOf s gid g c).fail t := by
  simp only [Ctx.storeGlobal, vaddr_ctxOf, h]

end

/-- Settles O32: a lane that is not aligned fails the whole instruction. -/
theorem misalignedLanes : Obligations.MisalignedLanes := by
  rintro s gid g c i n addr write active ⟨sz, d, m, rfl, which⟩ bad
  rcases which with ⟨rfl, rfl, rfl⟩ | ⟨rfl, rfl, rfl⟩ | ⟨kind, res, rfl, rfl, rfl⟩ | ⟨rule, sum, rfl, rfl, rfl⟩ | ⟨sum, rfl, rfl, rfl⟩ |
    ⟨rule, sum, rfl, rfl, rfl⟩ | ⟨sum, rfl, rfl, rfl⟩
  · exact exec_misaligned (body := fun x => x.loadLocal sz d m) (fun _ => rfl) active (loadLocal_misaligned s gid g c sz d m) bad
  · exact exec_misaligned (body := fun x => x.loadWeight sz d m) (fun _ => rfl) active (loadWeight_misaligned s gid g c sz d m) bad
  · exact exec_misaligned (body := fun x => x.loadGlobal sz kind res d m) (fun _ => rfl) active
      (fun t => loadGlobal_misaligned s gid g c sz d m t kind res) bad
  · exact exec_misaligned (body := fun x => x.storeLocal sz (wrule rule sum) d m) (fun _ => rfl) active
      (storeLocal_misaligned s gid g c sz _ d m) bad
  · exact exec_misaligned (body := fun x => x.storeLocal sz (.acc sum) d m) (fun _ => rfl) active (storeLocal_misaligned s gid g c sz _ d m) bad
  · exact exec_misaligned (body := fun x => x.storeGlobal sz (wrule rule sum) d m) (fun _ => rfl) active
      (storeGlobal_misaligned s gid g c sz _ d m) bad
  · exact exec_misaligned (body := fun x => x.storeGlobal sz (.acc sum) d m) (fun _ => rfl) active (storeGlobal_misaligned s gid g c sz _ d m) bad

/-! ## The bytes of a store (R84, R411) -/

/-- Byte `j` of a word is byte `j - o` of `x` when the word holds the bytes of `x` from byte `o` on. -/
theorem storedByte_shift (x : Word) (n o j : Nat) (inWord : n + o ≤ 8) (low : o ≤ j) (high : j < o + n) :
    ((BitVec.ofNat 64 (x.toNat % 2 ^ (8 * n) * 2 ^ (8 * o))) >>> (8 * j)).setWidth 8 = (x >>> (8 * (j - o))).setWidth 8 := by
  apply BitVec.eq_of_getLsbD_eq
  intro k hk
  have bit : 8 * j + k = (8 * (j - o) + k) + 8 * o := by omega
  simp only [BitVec.getLsbD_setWidth, hk, decide_true, Bool.true_and, BitVec.getLsbD_ushiftRight, BitVec.getLsbD_ofNat,
    show 8 * j + k < 64 by omega, Nat.testBit_mul_two_pow, Nat.testBit_mod_two_pow]
  rw [show 8 * j + k - 8 * o = 8 * (j - o) + k by omega]
  simp [show 8 * o ≤ 8 * j + k by omega, show 8 * (j - o) + k < 8 * n by omega, BitVec.getLsbD]

/-- The bytes that the mask of `n` bytes from byte `o` on names. -/
theorem storedMask_bit (n o j : Nat) (hj : j < 8) :
    (BitVec.ofNat 8 ((2 ^ n - 1) * 2 ^ o)).getLsbD j = (decide (o ≤ j) && decide (j < o + n)) := by
  simp only [BitVec.getLsbD_ofNat, hj, decide_true, Bool.true_and, Nat.testBit_mul_two_pow, Nat.testBit_two_pow_sub_one]
  by_cases low : o ≤ j
  · simp [low]; omega
  · simp [low]

/-- A store that is no 64-bit unit is one word with a byte mask, or for 8 bytes two full words. -/
theorem splitWrite_word {w0 : Write} (key : Nat) (va x : Word) {n : Nat} (small : n ≠ 8) (narrow : w0.rule.unit64 = false) :
    ∃ w, splitWrite w0 key va n x = [w] ∧ w.key = key - key % 4 ∧ w.mask = BitVec.ofNat 8 ((2 ^ n - 1) * 2 ^ (key % 4)) ∧
      w.val = BitVec.ofNat 64 (x.toNat % 2 ^ (8 * n) * 2 ^ (8 * (key % 4))) := by
  simp [splitWrite, narrow, small]

theorem splitWrite_pair {w0 : Write} (key : Nat) (va x : Word) (narrow : w0.rule.unit64 = false) :
    ∃ lo hi, splitWrite w0 key va 8 x = [lo, hi] ∧ lo.key = key ∧ hi.key = key + 4 ∧ lo.mask = 0x0F ∧ hi.mask = 0x0F ∧
      lo.val = (x.extractLsb' 0 32).zeroExtend 64 ∧ hi.val = (x.extractLsb' 32 32).zeroExtend 64 := by
  simp [splitWrite, narrow]

theorem splitWrite_unit {w0 : Write} (key : Nat) (va x : Word) (n : Nat) (wide : w0.rule.unit64 = true) :
    ∃ w, splitWrite w0 key va n x = [w] ∧ w.key = key ∧ w.mask = 0xFF ∧ w.val = x := by
  simp [splitWrite, wide]

/-- The four bytes that a full word's mask names. -/
theorem lowMask_bit (j : Nat) : (0x0F : BitVec 8).getLsbD j = decide (j < 4) := by
  by_cases h : j < 8
  · interval_cases j <;> rfl
  · rw [BitVec.getLsbD_of_ge _ _ (by omega)]
    simp; omega

theorem fullMask_bit (j : Nat) (h : j < 8) : (0xFF : BitVec 8).getLsbD j = true := by
  interval_cases j <;> rfl

/-- Byte `j` of the word that holds the half of `x` from byte `o` on. -/
theorem halfByte (x : Word) (o j : Nat) (h : j < 4) :
    (((x.extractLsb' (8 * o) 32).zeroExtend 64) >>> (8 * j)).setWidth 8 = (x >>> (8 * (j + o))).setWidth 8 := by
  apply BitVec.eq_of_getLsbD_eq
  intro k hk
  simp [hk, show 8 * j + k < 32 by omega, show 8 * j + k < 64 by omega]
  congr 1
  omega

/-- Settles O31: a store writes its own bytes, each with its data, and no other byte. -/
theorem storedBytes : Obligations.StoredBytes := by
  intro w0 key va x n a size aligned unit ws
  by_cases wide : w0.rule.unit64 = true
  · obtain ⟨w, isWs, isKey, isMask, isVal⟩ := splitWrite_unit key va x n wide
    have eight : n = 8 := unit.resolve_right (by simp [wide])
    subst eight
    simp only [ws, isWs, List.mem_singleton, forall_eq, exists_eq_left, isKey, isMask, isVal]
    exact ⟨fun low high _ => ⟨low, high, trivial⟩, fun low high => ⟨low, high, fullMask_bit _ (by omega)⟩⟩
  have narrow : w0.rule.unit64 = false := by simpa using wide
  by_cases eight : n = 8
  · subst eight
    obtain ⟨lo, hi, isWs, loKey, hiKey, loMask, hiMask, loVal, hiVal⟩ := splitWrite_pair key va x narrow
    simp only [ws, isWs, List.mem_cons, List.not_mem_nil, or_false, forall_eq_or_imp, forall_eq, exists_eq_or_imp, exists_eq_left, loKey, hiKey,
      loMask, hiMask, loVal, hiVal, lowMask_bit, decide_eq_true_eq]
    refine ⟨⟨fun low _ inLow => ⟨low, by omega, ?_⟩, fun low _ inHigh => ⟨by omega, by omega, ?_⟩⟩, fun low high => by omega⟩
    · exact halfByte x 0 (a - key) inLow
    · rw [show 8 * (a - key) = 8 * (a - (key + 4) + 4) by omega]
      exact halfByte x 4 (a - (key + 4)) inHigh
  · obtain ⟨w, isWs, isKey, isMask, isVal⟩ := splitWrite_word key va x eight narrow
    have fits : key % 4 + n ≤ 4 := by
      simp only [List.mem_cons, List.not_mem_nil, or_false] at size
      rcases size with rfl | rfl | rfl | rfl <;> omega
    simp only [ws, isWs, List.mem_singleton, forall_eq, exists_eq_left, isKey, isMask, isVal]
    refine ⟨fun low high named => ?_, fun low high => ⟨by omega, by omega, ?_⟩⟩
    · rw [storedMask_bit _ _ _ (by omega), Bool.and_eq_true, decide_eq_true_eq, decide_eq_true_eq] at named
      obtain ⟨fromO, toO⟩ := named
      refine ⟨by omega, by omega, ?_⟩
      rw [storedByte_shift x n (key % 4) _ (by omega) fromO toO]
      congr 3
      omega
    · rw [storedMask_bit _ _ _ (by omega), Bool.and_eq_true, decide_eq_true_eq, decide_eq_true_eq]
      omega

end Sys2Proof.Machine

/-! The global accesses: LDG, SLDG, STG, STGA and SSTG, what stands in flight, PFG and PGREQ (R48, R72, R79, R80, R209, R212, R213, R351, R372 to R374). -/

namespace Sys2Proof.Machine
open State

theorem lanesAt_ctxOf (s : State) (gid : Nat) (g : Group) (c : Ctl) (addr : Nat → Word) :
    (ctxOf s gid g c).lanesAt addr = (lanesOf (g.active c)).map addr := rfl

/-- A predicate register is not part of the run. -/
theorem runNow_setP (g : Group) (n : Nat) (p : Mask) : (g.setP n p).runNow = g.runNow := by
  unfold Group.setP
  split <;> rfl

/-! ## Loads (R79, R80, R212, R351) -/

section
variable {s : State} {gid : Nat} {g : Group} {c : Ctl}

theorem loadGlobal_ok {sz : Size} {kind : Kind} {res : BitVec 4} {d : VReg} {m : VMem} {r : Lanes} {p : Mask}
    (isR : r = (ctxOf s gid g c).checkLanes (g.vaddr true m) sz.bytes false false)
    (isP : p = residencyMask (g.getP res.toNat) (g.active c) (fun l => r.missing.contains l))
    (aligned : ∀ l ∈ lanesOf (g.active c), (g.vaddr true m l).toNat % sz.bytes = 0) (noBad : r.bad = []) :
    let x := ctxOf s gid g c
    let t := if r.good.isEmpty then r.s.setGroup gid (x.zeroLanes (g.setP res.toNat p) sz d r.missing)
      else (startLoad r.s gid (g.setP res.toNat p) (g.loadDst sz d) sz .glob
        (r.good.map (fun e => ⟨e.1, e.2.2.1, e.2.1, kindOn kind e.2.2.2, none⟩) ++
          r.missing.map (fun l => ⟨l, 0, g.vaddr true m l, kind, some 0⟩))).llcReads gid c.cph r.lines
    x.loadGlobal sz kind res d m = .ok (x.walkHold ((lanesOf (g.active c)).map (g.vaddr true m)) t).2 .seq
      (x.walkHold ((lanesOf (g.active c)).map (g.vaddr true m)) t).1 := by
  subst isP
  intro x t
  simp only [x, Ctx.loadGlobal, vaddr_ctxOf, misaligned_none (x := ctxOf s gid g c) (w := false) aligned, ← isR, noBad, laneTrap_nil, vdst_ctxOf,
    lanesAt_ctxOf]
  rfl

/-- The kind of a read, as GlobalLoads writes it (R80). -/
theorem kindOn_eq (kind : Kind) (stable : Bool) : kindOn kind stable = if kind = .stb ∧ stable = false then .now else kind := by
  cases stable <;> simp [kindOn]

theorem ends_ldg {sz : Size} {kind : Kind} {res : BitVec 4} {d : VReg} {m : VMem} {r : Lanes} (active : Active s gid g c (.ldg c sz kind res d m))
    (isR : r = (ctxOf s gid g c).checkLanes (g.vaddr true m) sz.bytes false false)
    (aligned : ∀ l ∈ lanesOf (g.active c), (g.vaddr true m l).toNat % sz.bytes = 0) (noBad : r.bad = []) :
    let x := ctxOf s gid g c
    let vas := (lanesOf (g.active c)).map (g.vaddr true m)
    let done (t : State) : Prop := Ends s gid g c (.ldg c sz kind res d m) (x.walkHold vas t).2 .seq (x.walkHold vas t).1
    let p := residencyMask (g.getP res.toNat) (g.active c) (fun l => r.missing.contains l)
    (r.good = [] → done (r.s.setGroup gid (x.zeroLanes (g.setP res.toNat p) sz d r.missing))) ∧
    (r.good ≠ [] → done ((startLoad r.s gid (g.setP res.toNat p) (g.loadDst sz d) sz .glob
      (r.good.map (fun e => ⟨e.1, e.2.2.1, e.2.1, kindOn kind e.2.2.2, none⟩) ++
        r.missing.map (fun l => ⟨l, 0, g.vaddr true m l, kind, some 0⟩))).llcReads gid c.cph r.lines)) := by
  intro x vas done p
  have run := ends_of_ok (body := fun x => x.loadGlobal sz kind res d m) (fun _ => rfl) active
    (loadGlobal_ok (kind := kind) (res := res) (d := d) isR rfl aligned noBad)
  refine ⟨fun none => ?_, fun some => ?_⟩
  · rw [if_pos (by rw [none]; rfl)] at run
    exact run
  · rw [if_neg (by simpa using some)] at run
    exact run

/-! ### One address (R399 to R401) -/

theorem checkScalar_good {a : Word} {n key : Nat} {write : Bool} {tr : Trans} {t : State} (aligned : a.toNat % n = 0)
    (seen : s.tickSeq.check (s.blockOf g).core (s.tickSeq.tagOf g) a ((ctxOf s gid g c).want n write false) = (.good key tr, t))
    (clean : write = false → t.poisoned key n = false) :
    (ctxOf s gid g c).checkScalar a n write = (.ok (some (key, tr)), t) := by
  have poison : (!write && t.poisoned key n) = false := by
    cases write
    · simp [clean rfl]
    · rfl
  simp only [Ctx.checkScalar, aligned, bne_self_eq_false, Bool.false_eq_true, if_false, block_ctxOf]
  erw [seen]
  simp only [poison, Bool.false_eq_true, if_false]

theorem checkScalar_missing {a : Word} {n : Nat} {write : Bool} {tr : Trans} {t : State} (aligned : a.toNat % n = 0)
    (seen : s.tickSeq.check (s.blockOf g).core (s.tickSeq.tagOf g) a ((ctxOf s gid g c).want n write false) = (.missing tr, t)) :
    (ctxOf s gid g c).checkScalar a n write = (.ok none, t) := by
  simp only [Ctx.checkScalar, aligned, bne_self_eq_false, Bool.false_eq_true, if_false, block_ctxOf]
  erw [seen]

end

/-- Settles O27: the loads from global memory, the walks that hold their slot, and the cache. -/
theorem globalLoads : Obligations.GlobalLoads := by
  refine ⟨?_, fun s gid g c vas t => walkHold_spec s gid g c vas t, llcReads_cache⟩
  intro s gid g c sz kind res d m e q n x kindOf done
  have kinds : kindOn kind = kindOf := funext (kindOn_eq kind)
  refine ⟨?_, ?_⟩
  · intro active addr vas r aligned noBad
    obtain ⟨without, withSome⟩ := ends_ldg active rfl aligned noBad
    rw [kinds] at withSome
    refine ⟨_, fun l hl => bit_residencyMask _ _ _ l hl, fun none => ⟨_, without none, ?_⟩, withSome⟩
    exact zeroLanes_wrote x rfl (g.setP res.toNat (residencyMask (g.getP res.toNat) (g.active c) fun l => r.missing.contains l)) (runNow_setP _ _ _) sz d r.missing
  · intro active a dst t aligned
    refine ⟨fun key tr seen clean => ?_, fun tr seen => ?_⟩
    · refine ends_of_ok (body := fun x => x.sloadGlobal sz kind res e q) (fun _ => rfl) active ?_
      have found := checkScalar_good aligned seen fun _ => clean
      simp only [Ctx.sloadGlobal, saddr_ctxOf, sdst_ctxOf, kinds]
      rw [found]
      rfl
    · refine ends_of_ok (body := fun x => x.sloadGlobal sz kind res e q) (fun _ => rfl) active ?_
      have away := checkScalar_missing aligned seen
      simp only [Ctx.sloadGlobal, saddr_ctxOf]
      rw [away]
      rfl

/-! ## Stores (R72, R213, R411) -/

section
variable {s : State} {gid : Nat} {g : Group} {c : Ctl}

theorem storeGlobal_ok {sz : Size} {rule : WRule} {d : VReg} {m : VMem} {r : Lanes} {g1 : Group}
    (isR : r = (ctxOf s gid g c).checkLanes (g.vaddr true m) sz.bytes true (!rule.plain))
    (isG1 : g1 = { g with r := { g.r with nrs := g.r.nrs ||| maskOf (fun l => r.missing.contains l) } })
    (aligned : ∀ l ∈ lanesOf (g.active c), (g.vaddr true m l).toNat % sz.bytes = 0) (noBad : r.bad = []) :
    let x := ctxOf s gid g c
    let t := sendGlobal (r.s.setGroup gid g1) g1 (r.good.flatMap (fun e =>
      splitWrite (storeOf s gid rule (g.gwid + BitVec.ofNat 64 e.1)) e.2.2.1 e.2.1 sz.bytes (g.stored sz d e.1)))
    x.storeGlobal sz rule d m = .ok (x.walkHold ((lanesOf (g.active c)).map (g.vaddr true m)) t).2 .seq
      (x.walkHold ((lanesOf (g.active c)).map (g.vaddr true m)) t).1 := by
  subst isG1
  intro x t
  simp only [x, Ctx.storeGlobal, vaddr_ctxOf, misaligned_none (x := ctxOf s gid g c) (w := true) aligned, ← isR, noBad, laneTrap_nil, vdata_ctxOf,
    lanesAt_ctxOf]
  rfl

end

theorem wrule_plain (rule : Rule) (sum : SumTy) : (wrule rule sum).plain = true := by cases rule <;> rfl

/-- Settles O30: the stores to global memory. -/
theorem globalStores : Obligations.GlobalStores := by
  intro s gid g c sz rule sum d m e q n x done vector
  refine ⟨?_, ?_, ?_⟩
  · intro active addr k g1 ws aligned noBad
    refine ends_of_ok (body := fun x => x.storeGlobal sz (wrule rule sum) d m) (fun _ => rfl) active (storeGlobal_ok ?_ rfl aligned noBad)
    rw [wrule_plain]
    rfl
  · intro active addr k g1 ws aligned noBad
    exact ends_of_ok (body := fun x => x.storeGlobal sz (.acc sum) d m) (fun _ => rfl) active (storeGlobal_ok rfl rfl aligned noBad)
  · intro active a t aligned
    refine ⟨fun key tr seen => ?_, fun tr seen => ?_⟩
    · refine ends_of_ok (body := fun x => x.sstoreGlobal sz (wrule rule sum) e q) (fun _ => rfl) active ?_
      have found := checkScalar_good aligned seen nofun
      simp only [Ctx.sstoreGlobal, saddr_ctxOf]
      rw [found]
      rfl
    · refine ends_of_ok (body := fun x => x.sstoreGlobal sz (wrule rule sum) e q) (fun _ => rfl) active ?_
      have away := checkScalar_missing aligned seen
      simp only [Ctx.sstoreGlobal, saddr_ctxOf]
      rw [away]
      rfl

/-! ## In flight (R48, R72) -/

theorem mem_foldl_addTo {α : Type} (f : α → Nat) (as : List α) (l : List Nat) (n : Nat) :
    n ∈ as.foldl (fun l a => addTo (f a) l) l ↔ n ∈ l ∨ ∃ a ∈ as, n = f a := by
  induction as generalizing l with
  | nil => simp
  | cons a as ih =>
    rw [List.foldl_cons, ih, mem_addTo]
    simp only [List.mem_cons, exists_eq_or_imp]
    tauto

/-- The registers of a group once a load to `dst` is on its way (R48). -/
def emptied (g : Group) (dst : LoadDst) (reads : List LaneRead) : Regs :=
  match dst with
  | .vec a p => { g.r with ve := (p.toList).foldl (fun l n => addTo n l) (addTo a g.r.ve) }
  | .sca a => { g.r with se := reads.foldl (fun l e => addTo ((a + e.lane) % g.sa) l) g.r.se }

/-- What a load of at least one read leaves: itself in flight, and the registers that it fills empty. -/
theorem startLoad_reads (s : State) (gid : Nat) (g : Group) (dst : LoadDst) (sz : Size) (src : LoadSrc) {reads : List LaneRead}
    (some : reads ≠ []) :
    startLoad s gid g dst sz src reads = ({ s with
      fresh := s.fresh + 1
      loads := tset s.loads s.fresh
        { gid := gid, dst := dst, size := sz, src := src, tag := g.r.gstep, lag := g.r.lag.toNat, reads := reads,
          seq := s.seq, cycle := s.cycle (coreDie (s.blockOf g).core) } } : State).setGroup gid { g with r := emptied g dst reads } := by
  have nonempty : reads.isEmpty = false := by simpa using some
  simp only [startLoad, nonempty, Bool.false_eq_true, if_false]
  cases dst <;> rfl

theorem mem_emptied_ve (g : Group) (dst : LoadDst) (reads : List LaneRead) (n : Nat) :
    n ∈ (emptied g dst reads).ve ↔ n ∈ g.r.ve ∨ match dst with | .vec a p => n = a ∨ p = some n | .sca _ => False := by
  cases dst with
  | vec a p => cases p <;> simp [emptied, mem_addTo, eq_comm (b := n), or_assoc, or_comm, or_left_comm]
  | sca a => simp [emptied]

theorem mem_emptied_se (g : Group) (dst : LoadDst) (reads : List LaneRead) (n : Nat) :
    n ∈ (emptied g dst reads).se ↔ n ∈ g.r.se ∨ match dst with | .vec _ _ => False | .sca a => ∃ r ∈ reads, n = (a + r.lane) % g.sa := by
  cases dst with
  | vec a p => simp [emptied]
  | sca a => exact mem_foldl_addTo (fun r : LaneRead => (a + r.lane) % g.sa) reads g.r.se n

/-- Global writes of a group of a launch, as its launch holds them (R72, R239). -/
def heldWrites (s : State) (g : Group) (ws : List Write) : List GWrite :=
  ws.zipIdx.map (fun e =>
    { id := s.fresh + e.2, w := e.1, step := g.r.gstep, core := (s.blockOf g).core, cycle := s.cycle (coreDie (s.blockOf g).core),
      stage := .held (s.cycle (coreDie (s.blockOf g).core)) })

theorem heldWrites_w (s : State) (g : Group) (ws : List Write) : (heldWrites s g ws).map (fun w => w.w) = ws := by
  rw [heldWrites, List.map_map]
  exact List.zipIdx_map_fst 0 ws

theorem heldWrites_step (s : State) (g : Group) (ws : List Write) : ∀ w ∈ heldWrites s g ws, w.step = g.r.gstep := by
  intro w hw
  obtain ⟨e, -, rfl⟩ := List.mem_map.1 hw
  rfl

theorem sendGlobal_launch (s : State) (g : Group) (ws : List Write) {l : Nat} (h : g.launch = some l) :
    sendGlobal s g ws = { s with fresh := s.fresh + ws.length }.modLaunch l (fun x => { x with gw := x.gw ++ heldWrites s g ws }) := by
  simp only [sendGlobal, h]
  rfl

/-- Settles O28: a load in flight empties its registers, and held writes stand in their launch; no memory changes. -/
theorem accessesInFlight : Obligations.AccessesInFlight := by
  refine ⟨?_, ?_⟩
  · intro s gid g dst sz src reads u fills fillsV
    refine ⟨fun none => ?_, fun some => ?_⟩
    · simp only [u, none]
      rfl
    · rw [show u = _ from startLoad_reads s gid g dst sz src some]
      refine ⟨{ g with r := emptied g dst reads }, _, by rw [group_setGroup, if_pos rfl], ?_, mem_emptied_ve g dst reads, mem_emptied_se g dst reads,
        tfind_tset_same _ _ _, rfl, rfl, rfl, rfl, rfl, rfl, rfl, fun j other => tfind_tset_other _ _ other,
        fun h other => by rw [group_setGroup, if_neg other]; rfl, rfl⟩
      cases dst <;> rfl
  · intro s g l L ws ofLaunch isL u
    have sent : u = _ := sendGlobal_launch s g ws ofLaunch
    refine ⟨by rw [sent]; rfl, by rw [sent]; rfl, by rw [sent]; rfl, ?_, fun j other => by rw [sent, launch_modLaunch, if_neg other]; rfl⟩
    refine ⟨{ L with gw := L.gw ++ heldWrites s g ws }, ?_, rfl, heldWrites s g ws, rfl, heldWrites_w s g ws, heldWrites_step s g ws⟩
    rw [sent, launch_modLaunch, if_pos rfl, show ({ s with fresh := s.fresh + ws.length } : State).launch? l = _ from isL]
    rfl

/-! ## PFG and PGREQ (R215, R258, R372 to R374) -/

/-- What PFG does for a lane. -/
def Ctx.fetchLane (x : Ctx) (m : VMem) (acc : List Nat × State) (l : Nat) : List Nat × State :=
  match acc.2.check (x.s.blockOf x.g).core (acc.2.tagOf x.g) (x.vaddr true m l) (x.want 1 false false) with
  | (.good key t, s1) => if notFetched t x.c.cph then (acc.1, s1) else (addTo (key / 64) acc.1, s1)
  | (_, s1) => (acc.1, s1)

theorem prefetch_lane {x : Ctx} {m : VMem} {l : Nat} (only : lanesOf x.act = [l]) : x.prefetch m = x.fetchLane m ([], x.s) l := by
  rw [Ctx.prefetch, only]
  rfl

theorem notFetched_iff (t : Trans) (hint : BitVec 2) : notFetched t hint = true ↔ t.e.cp = 2 ∨ t.e.ext = true ∨ hint = 3 := by
  simp [notFetched, or_assoc]

/-- The record that PGREQ appends for a page (R215). -/
def Ctx.requestLog (x : Ctx) (u : State) (va : Word) (v0 host : Bool) : State :=
  let k := (x.s.blockOf x.g).core
  u.ringAdd (u.partAt k) (u.partAt k).prring (requestRec u k x.g va v0 host)

theorem requestRec_launch {u : State} {k : Nat} {g : Group} {n : Nat} {L : Launch} (va : Word) (v0 host : Bool) (ofLaunch : g.launch = some n)
    (isL : u.launch? n = some L) : requestRec u k g va v0 host =
      leBytes 8 (va.toNat / 65536 * 65536) ++ leBytes 1 L.guest ++ leBytes 1 (v0.toNat + 2 * host.toNat) ++
        leBytes 2 (u.logDie (u.partAt k) (coreDie k)) ++ leBytes 4 L.ident.toNat := by
  simp only [requestRec, ofLaunch, Option.bind_some, isL, Option.map_some, Option.getD_some]

/-- What PGREQ does for its only lane, whose address is canonical. -/
theorem requests_lane {x : Ctx} {m : VMem} {l : Nat} (only : lanesOf x.act = [l]) (fine : canonical (x.vaddr true m l) = true) :
    let va := x.vaddr true m l
    x.requests m = match x.s.translate (x.s.blockOf x.g).core (x.s.tagOf x.g) (pageOf va) with
      | (.error f, u) => if f.v0 then ([pageOf va], [], x.requestLog u va true f.nst) else ([], [], u)
      | (.ok t, u) => if t.res then ([], [], u) else ([pageOf va], [], x.requestLog u va false t.hostR) := by
  intro va
  rw [Ctx.requests, only]
  simp only [List.foldl_cons, List.foldl_nil, fine, Bool.not_true, Bool.false_eq_true, if_false, List.contains_nil]
  rfl

/-- The meaning of PFG (R373). -/
def pfgMeaning (m : VMem) (x : Ctx) : Res :=
  if x.g.r.detached then x.fail detTrap
  else
    let (lines, s1) := x.prefetch m
    let k := (s1.blockOf x.g).core
    let w := x.walkHold (x.lanesAt (x.vaddr true m)) (s1.count k (s1.guestOf x.g) 0x080 lines.length)
    .ok (lines.foldl (fun s l => s.llcFill (s.partAt k) ((s.guestOf x.g).getD 0) l (some k)) w.2) .seq w.1

/-- The meaning of PGREQ (R374). -/
def pgreqMeaning (m : VMem) (x : Ctx) : Res :=
  if x.g.r.detached then x.fail detTrap
  else
    let (pages, bad, s0) := x.requests m
    let s1 : State := if pages.isEmpty then s0 else { s0 with msix := s0.msix + 1 }
    match laneTrap bad with
    | some t => .trap s1 t
    | none => let w := x.walkHold (x.lanesAt (x.vaddr true m)) s1; .ok w.2 .seq w.1

theorem exec_pfg (c : Ctl) (m : VMem) (s : State) : exec (.pfg c m) s = issue (.pfg c m) c false (pfgMeaning m) s := rfl

theorem exec_pgreq (c : Ctl) (m : VMem) (s : State) : exec (.pgreq c m) s = issue (.pgreq c m) c false (pgreqMeaning m) s := rfl

section
variable {s : State} {gid : Nat} {g : Group} {c : Ctl} {m : VMem}

theorem pfg_detached (active : Active s gid g c (.pfg c m)) (det : g.r.detached = true) :
    exec (.pfg c m) s = .next (s.tickSeq.syncTrap gid detTrap) :=
  exec_fail (exec_pfg c m) active (if_pos det)

theorem pgreq_detached (active : Active s gid g c (.pgreq c m)) (det : g.r.detached = true) :
    exec (.pgreq c m) s = .next (s.tickSeq.syncTrap gid detTrap) :=
  exec_fail (exec_pgreq c m) active (if_pos det)

theorem ends_pfg (active : Active s gid g c (.pfg c m)) (det : g.r.detached = false) :
    let x := ctxOf s gid g c
    let p := x.prefetch m
    let k := (p.2.blockOf g).core
    let w := x.walkHold ((lanesOf (g.active c)).map (g.vaddr true m)) (p.2.count k (p.2.guestOf g) 0x080 p.1.length)
    Ends s gid g c (.pfg c m) (p.1.foldl (fun t line => t.llcFill (t.partAt k) ((t.guestOf g).getD 0) line (some k)) w.2) .seq w.1 := by
  refine ends_of_ok (exec_pfg c m) active ?_
  have attached : ¬ (ctxOf s gid g c).g.r.detached = true := ne_true_of_eq_false det
  rw [pfgMeaning, if_neg attached, vaddr_ctxOf, lanesAt_ctxOf]
  rfl

/-- The state once PGREQ has logged its pages: one signal for all of them (R374). -/
def requested (r : List Nat × List BadLane × State) : State := if r.1 = [] then r.2.2 else { r.2.2 with msix := r.2.2.msix + 1 }

theorem pgreqMeaning_attached (det : g.r.detached = false) :
    let x := ctxOf s gid g c
    let u := requested (x.requests m)
    pgreqMeaning m x = match laneTrap (x.requests m).2.1 with
      | some t => .trap u t
      | none => .ok (x.walkHold ((lanesOf (g.active c)).map (g.vaddr true m)) u).2 .seq
          (x.walkHold ((lanesOf (g.active c)).map (g.vaddr true m)) u).1 := by
  intro x u
  have attached : ¬ x.g.r.detached = true := ne_true_of_eq_false det
  rw [pgreqMeaning, if_neg attached, vaddr_ctxOf, lanesAt_ctxOf]
  simp only [List.isEmpty_iff, u, requested]

theorem ends_pgreq (active : Active s gid g c (.pgreq c m)) (det : g.r.detached = false)
    (near : (lanesOf (g.active c)).filter (fun l => !canonical (g.vaddr true m l)) = []) :
    let x := ctxOf s gid g c
    let w := x.walkHold ((lanesOf (g.active c)).map (g.vaddr true m)) (requested (x.requests m))
    Ends s gid g c (.pgreq c m) w.2 .seq w.1 := by
  refine ends_of_ok (exec_pgreq c m) active ?_
  rw [pgreqMeaning_attached det, requests_bad, vaddr_ctxOf, act_ctxOf, near]
  rfl

theorem pgreq_far (active : Active s gid g c (.pgreq c m)) (det : g.r.detached = false) {far : List Nat}
    (isFar : far = (lanesOf (g.active c)).filter (fun l => !canonical (g.vaddr true m l))) (some : far ≠ []) :
    ∃ low ∈ far, (∀ l ∈ far, (g.vaddr true m low).toNat ≤ (g.vaddr true m l).toNat) ∧
      exec (.pgreq c m) s = .next ((requested ((ctxOf s gid g c).requests m)).syncTrap gid
        { cause := 0x11, addr := g.vaddr true m low, lanes := maskOf (fun l => far.contains l) }) := by
  obtain ⟨low, isIn, lowest, trap⟩ := laneTrap_one (g.vaddr true m) 0x11 far some (by decide)
  refine ⟨low, isIn, lowest, exec_of_trap (exec_pgreq c m) active ?_⟩
  rw [pgreqMeaning_attached det, requests_bad, vaddr_ctxOf, act_ctxOf, ← isFar, trap]

end

/-- Settles O33: PFG and PGREQ, what one lane of each does, and the counts of the lines that PFG fetched. -/
theorem prefetches : Obligations.Prefetches := by
  refine ⟨?_, ?_, ?_⟩
  · intro s gid g c m x addr vas det
    exact ⟨fun active => ⟨pfg_detached active, ends_pfg active⟩, fun active => ⟨pgreq_detached active,
      fun attached => ⟨ends_pgreq active attached, pgreq_far active attached rfl⟩⟩⟩
  · intro x m l only va k
    refine ⟨fun key tr u seen => ?_, fun tr u seen => ?_, fun cause i u seen => ?_, ?_⟩
    · rw [prefetch_lane only, Ctx.fetchLane, seen]
      simp only [notFetched_iff]
      split <;> rfl
    · rw [prefetch_lane only, Ctx.fetchLane, seen]
    · rw [prefetch_lane only, Ctx.fetchLane, seen]
    · intro n L u fine ofLaunch isL logs
      refine ⟨fun f seen => ?_, fun tr seen => ?_⟩
      · rw [requests_lane only fine, seen]
        simp only [Ctx.requestLog, requestRec_launch _ _ _ ofLaunch isL]
        cases f.nst <;> rfl
      · rw [requests_lane only fine, seen]
        simp only [Ctx.requestLog, requestRec_launch _ _ _ ofLaunch isL]
        cases tr.hostR <;> rfl
  · intro s P guest line w k pfg held
    exact ⟨llcFill_cache s P guest line pfg, llcFill_holds s P guest line w pfg, fun y hy => llcEvict_counts s w y k hy,
      fun y isIn isWay isLine hy one => llcRead_counts s line w y k isWay isIn isLine hy one⟩

end Sys2Proof.Machine

/-! The issue of the engines' operations and of LAND, and what an operation in flight holds (R96, R109 to R117, R122 to R136, R217, R311 to R317, R348). -/

namespace Sys2Proof.Machine
open State

section
variable {s : State} {gid : Nat} {g : Group} {c : Ctl} {i : Instr} {body : Ctx → Res} {d : SReg} {kind : OpKind} {align n : Nat}
  {check : List Byte → Option TrapInfo} {known : List Byte → OpKind} {reads : List Byte → List (Nat × Nat)}
  {write : List Byte → Option (Nat × Nat)}

theorem poisoned_eq_any (b : Block) (a n : Nat) : b.poisoned a n = b.poison.any (wordIn (pbRange a n)) := by
  simp only [Block.poisoned, pbRange, Bool.and_comm]
  rfl

theorem blockTrap_poisoned (t : State) (b : Block) {a n : Nat} (poisoned : b.poisoned a n = true) (pb : List Byte) (k : OpKind) :
    blockTrap t g b.poison a n pb k = some { cause := 0x14, addr := BitVec.ofNat 64 a } := by
  rw [blockTrap, if_pos (by rw [← poisoned_eq_any, poisoned])]

theorem blockTrap_clean (t : State) (b : Block) {a n : Nat} (clean : b.poisoned a n = false) (pb : List Byte) (k : OpKind) :
    blockTrap t g b.poison a n pb k = blockCheck t g pb k := by
  rw [blockTrap, if_neg (by rw [← poisoned_eq_any, clean]; decide)]

/-- An engine instruction does at issue what its operation's form, checks and ranges say. -/
theorem engineStarts (meaning : ∀ s, exec i s = issue i c false body s) (active : Active s gid g c i)
    (goes : body (ctxOf s gid g c) = (ctxOf s gid g c).engine d kind) (form : blockForm kind = (align, n))
    (isCheck : ∀ pb, check pb = blockCheck s.tickSeq g pb kind) (isKnown : ∀ pb, known pb = withBlock pb kind)
    (isReads : ∀ pb, reads pb = sourceRanges (s.blockOf g).bytes pb (withBlock pb kind))
    (isWrite : ∀ pb, write pb = destRange (s.blockOf g).bytes pb (withBlock pb kind)) :
    EngineStarts s gid g c i d align n check kind known reads write := by
  have isAlign : (blockForm kind).1 = align := by rw [form]
  have isSize : (blockForm kind).2 = n := by rw [form]
  have isBlock := block_ctxOf s gid g c
  have isAddr : (ctxOf s gid g c).sreg d = g.sval d := sreg_mk _ _ _ _ _ d
  refine ⟨fun far => ?_, fun aligned inside free => ⟨fun poisoned => ?_, fun clean t bad => ?_, fun clean good => ?_⟩, fun aligned inside held => ?_⟩
  · refine exec_fail meaning active (goes.trans (engine_far ?_))
    rwa [isAlign, isSize, isBlock, isAddr]
  · refine exec_fail meaning active (goes.trans (engine_bad ?_ ?_ ?_ ?_))
    · rwa [isAlign, isAddr]
    · rwa [isSize, isBlock, isAddr]
    · rw [isSize, isBlock, isAddr]; exact free
    · rw [isSize, isBlock, isAddr]; exact blockTrap_poisoned _ _ poisoned _ _
  · refine exec_fail meaning active (goes.trans (engine_bad ?_ ?_ ?_ ?_))
    · rwa [isAlign, isAddr]
    · rwa [isSize, isBlock, isAddr]
    · rw [isSize, isBlock, isAddr]; exact free
    · rw [isSize, isBlock, isAddr, blockTrap_clean _ _ clean, ← bad, isCheck]; rfl
  · refine ends_of_ok meaning active (goes.trans ((engine_ok ?_ ?_ ?_ ?_).trans ?_))
    · rwa [isAlign, isAddr]
    · rwa [isSize, isBlock, isAddr]
    · rw [isSize, isBlock, isAddr]; exact free
    · rw [isSize, isBlock, isAddr, blockTrap_clean _ _ clean, ← good, isCheck]; rfl
    · rw [isSize, isBlock, isAddr, isKnown, isReads, isWrite]
      rfl
  · have busy : (!(writesOver ((ctxOf s gid g c).s.blockOf (ctxOf s gid g c).g)
        (some (pbRange ((ctxOf s gid g c).sreg d).toNat (blockForm kind).2))).isEmpty) = true := by
      rw [isSize, isBlock, isAddr]
      simpa [List.isEmpty_eq_false_iff, pbRange] using held
    have near : ((((ctxOf s gid g c).sreg d).toNat % (blockForm kind).1 != 0) ||
        decide (((ctxOf s gid g c).s.blockOf (ctxOf s gid g c).g).bytes < ((ctxOf s gid g c).sreg d).toNat + (blockForm kind).2)) = false := by
      rw [isAlign, isSize, isBlock, isAddr, aligned]
      simpa using inside
    refine ⟨if (sourceRanges (s.blockOf g).bytes [] kind).isEmpty then [] else [(0, (s.blockOf g).bytes)],
      (destRange (s.blockOf g).bytes [] kind).map (fun _ => (0, (s.blockOf g).bytes)), ends_of_ok meaning active (goes.trans ?_)⟩
    simp only [Ctx.engine]
    rw [near, busy, if_neg (by decide), if_pos rfl, isSize, isBlock, isAddr]
    rfl

end

/-- The sources of a copy that stand in the local store. -/
theorem dirSrcLoc_iff (dir : Dir) : dirSrcLoc dir = true ↔ dir = .l2g ∨ dir = .l2l ∨ dir = .ferry := by
  cases dir <;> simp [dirSrcLoc]

theorem dirDstLoc_iff (dir : Dir) : dirDstLoc dir = true ↔ dir = .g2l ∨ dir = .l2l ∨ dir = .w2l := by
  cases dir <;> simp [dirDstLoc]

/-- The meaning of CPYW (R324). -/
def cpywMeaning (glob : Bool) (d : SReg) (x : Ctx) : Res :=
  if ((x.s.partOfDie (coreDie (x.s.blockOf x.g).core)).map (launchRuns x.s)).getD false then x.fail { cause := 0x17 }
  else x.engine d (.cpyw glob)

theorem exec_cpyw (c : Ctl) (glob : Bool) (d : SReg) (s : State) :
    exec (.cpyw c glob d) s = issue (.cpyw c glob d) c false (cpywMeaning glob d) s := rfl

/-- Settles O34: each engine instruction starts its operation, or takes the trap that its block's checks name. -/
theorem enginesStart : Obligations.EnginesStart := by
  intro s gid g c dir rule kind side glob d
  refine ⟨fun active => ?_, fun active => ?_, fun active => ?_, fun active => ?_, fun active => ?_, fun active => ?_, fun active => ?_, fun active => ?_⟩
  · refine engineStarts (body := fun x => x.engine d (.cpy dir (wrule rule .n32) kind)) (fun _ => rfl) active rfl rfl (fun _ => rfl) (fun _ => rfl)
      (fun pb => ?_) (fun pb => ?_)
    · simp only [withBlock, sourceRanges, dirSrcLoc_iff]
    · simp only [withBlock, destRange, dirDstLoc_iff]
  · refine engineStarts (body := fun x => x.engine d (.cpym dir (wrule rule .n32) kind [])) (fun _ => rfl) active rfl rfl (fun _ => rfl) (fun _ => rfl)
      (fun pb => ?_) (fun _ => rfl)
    simp only [withBlock, sourceRanges, dirSrcLoc_iff]
  · exact engineStarts (body := fun x => x.engine d (.gth side (wrule rule .n32) kind)) (fun _ => rfl) active rfl rfl (fun _ => rfl) (fun _ => rfl)
      (fun _ => rfl) (fun _ => rfl)
  · exact engineStarts (body := fun x => x.engine d (.sct side (wrule rule .n32))) (fun _ => rfl) active rfl rfl (fun _ => rfl) (fun _ => rfl)
      (fun _ => rfl) (fun _ => rfl)
  · exact engineStarts (body := fun x => x.engine d (.btst (wrule rule .n32))) (fun _ => rfl) active rfl rfl (fun _ => rfl) (fun _ => rfl)
      (fun _ => rfl) (fun _ => rfl)
  · exact engineStarts (body := fun x => x.engine d (.move true)) (fun _ => rfl) active rfl rfl (fun _ => rfl) (fun _ => rfl)
      (fun _ => rfl) (fun _ => rfl)
  · exact engineStarts (body := fun x => x.engine d (.move false)) (fun _ => rfl) active rfl rfl (fun _ => rfl) (fun _ => rfl)
      (fun _ => rfl) (fun _ => rfl)
  · intro busy
    have isBusy : (((ctxOf s gid g c).s.partOfDie (coreDie ((ctxOf s gid g c).s.blockOf (ctxOf s gid g c).g).core)).map
        (launchRuns (ctxOf s gid g c).s)).getD false = busy := by rw [block_ctxOf]; rfl
    refine ⟨fun runs => exec_fail (exec_cpyw c glob d) active (if_pos (isBusy.trans runs)), fun idle => ?_⟩
    exact engineStarts (exec_cpyw c glob d) active (if_neg (by rw [isBusy, idle]; decide)) rfl (fun _ => rfl) (fun _ => rfl) (fun _ => rfl) (fun _ => rfl)

/-! ## Operations in flight (R96, R109 to R113, R348) -/

/-- The receivers that hold a CPYM's rows already when its group issues it again (R348). -/
def keptReceivers (g : Group) (kind : OpKind) : List Nat := ((reissued g kind).map (fun r => r.recv)).getD []

/-- The operation that a group of block `b` starts (R96, R110). -/
def startedOp (s : State) (gid : Nat) (g : Group) (b : Block) (kind : OpKind) (pb : List Byte) (args : List Word)
    (reads : List (Nat × Nat)) (late : Option (Nat × Nat)) : AsyncOp :=
  { kind := kind, gid := gid, blk := g.blk, core := b.core, gstep := g.r.gstep, lstep := g.r.lstep,
    lag := g.r.lag.toNat, wid := g.gwid, seq := s.seq + 1, iaddr := g.r.pc, pb := pb, args := args, snap := b.mem,
    bad := b.poison, late := late.map (fun r => ⟨r.1, r.2, g.r.detached⟩),
    deps := distinct (reads.flatMap (fun r => writesOver b (some r))), prog := 0, st := .running, sys := g.r.sys,
    accepted := keptReceivers g kind, pins := [], lines := [], begun := false, sums := [], tables := none }

/-- Its entry of the scoreboard (R111). -/
def startedEntry (s : State) (gid : Nat) (g : Group) (reads : List (Nat × Nat)) (write : Option (Nat × Nat)) : Entry :=
  { op := s.fresh, seq := s.seq + 1, grp := gid, reads := reads, write := write, step := g.r.lstep, ret := none }

/-- The group once a CPYM that it issues again has taken its receivers (R348). -/
def resentGroup (s : State) (g : Group) (r : SentRows) : Group :=
  { g with again := g.again.erase r, sent := ⟨s.seq + 1, r.iaddr, r.recv⟩ :: g.sent }

/-- The groups once an operation of `g` has started. -/
def startedGroups (s : State) (gid : Nat) (g : Group) (kind : OpKind) : Table Group :=
  match reissued g kind with
  | some r => tset s.groups gid (resentGroup s g r)
  | none => s.groups

theorem modBlock_eq {t : State} {k : Nat} {x : Block} (h : t.block? k = some x) (f : Block → Block) :
    t.modBlock k f = { t with blocks := tset t.blocks k (f x) } := by
  rw [modBlock, h]
  rfl

theorem modGroup_eq {t : State} {k : Nat} {x : Group} (h : t.group? k = some x) (f : Group → Group) :
    t.modGroup k f = { t with groups := tset t.groups k (f x) } := by
  rw [modGroup, h]
  rfl

theorem startOp_eq {s : State} {gid : Nat} {g : Group} {b : Block} (isBlock : s.block? g.blk = some b) (isGroup : s.group? gid = some g) (c : Ctl)
    (kind : OpKind) (pb : List Byte) (args : List Word) (reads : List (Nat × Nat)) (write late : Option (Nat × Nat)) :
    (ctxOf s gid g c).startOp kind pb args reads write true late = (s.fresh, { s with
      seq := s.seq + 1
      fresh := s.fresh + 1
      ops := tset s.ops s.fresh (startedOp s gid g b kind pb args reads late)
      groups := startedGroups s gid g kind
      blocks := tset s.blocks g.blk { b with entries := b.entries ++ [startedEntry s gid g reads write] } }) := by
  have ofBlock : (ctxOf s gid g c).s.blockOf (ctxOf s gid g c).g = b := by rw [block_ctxOf, blockOf, isBlock]; rfl
  cases h : reissued g kind with
  | none =>
    have h' : reissued (ctxOf s gid g c).g kind = none := h
    simp only [Ctx.startOp, ofBlock, h', startedGroups, h, if_true]
    rw [modBlock_eq (x := b)]
    · simp only [startedOp, keptReceivers, h]
      rfl
    · exact isBlock
  | some r =>
    have h' : reissued (ctxOf s gid g c).g kind = some r := h
    simp only [Ctx.startOp, ofBlock, h', startedGroups, h, if_true]
    rw [modGroup_eq (x := g), modBlock_eq (x := b)]
    · simp only [startedOp, keptReceivers, h]
      rfl
    · exact isBlock
    · exact isGroup

theorem reissued_mem {g : Group} {kind : OpKind} {r : SentRows} (h : reissued g kind = some r) : r ∈ g.again ∧ r.iaddr = g.r.pc := by
  unfold reissued at h
  split at h
  · exact ⟨List.mem_of_find?_eq_some h, by simpa using List.find?_some h⟩
  · cases h

theorem reissued_none {g : Group} {kind : OpKind} (h : ∀ dir rule k rs, kind ≠ .cpym dir rule k rs) : reissued g kind = none := by
  unfold reissued
  split
  · exact absurd rfl (h _ _ _ _)
  · rfl

theorem keptReceivers_mem {g : Group} {kind : OpKind} {r : Nat} (h : r ∈ keptReceivers g kind) : ∃ q ∈ g.again, q.iaddr = g.r.pc ∧ r ∈ q.recv := by
  unfold keptReceivers at h
  cases again : reissued g kind with
  | none => rw [again] at h; cases h
  | some q =>
    rw [again] at h
    obtain ⟨isIn, here⟩ := reissued_mem again
    exact ⟨q, isIn, here, h⟩

theorem startedGroups_other (s : State) (gid : Nat) (g : Group) (kind : OpKind) {h : Nat} (other : h ≠ gid) :
    ({ s with groups := startedGroups s gid g kind } : State).group? h = s.group? h := by
  unfold startedGroups
  split
  · exact (group_setGroup _ _ _ _).trans (if_neg other)
  · rfl

theorem startedGroups_self {s : State} {gid : Nat} {g : Group} (isGroup : s.group? gid = some g) (kind : OpKind) :
    ∃ h, ({ s with groups := startedGroups s gid g kind } : State).group? gid = some h ∧ h = { g with again := h.again, sent := h.sent } := by
  unfold startedGroups
  split
  · exact ⟨_, (group_setGroup _ _ _ _).trans (if_pos rfl), rfl⟩
  · exact ⟨g, isGroup, rfl⟩

/-- Settles O35: an operation that starts stands in flight with what it captures, and changes nothing else. -/
theorem operationsInFlight : Obligations.OperationsInFlight := by
  intro s gid g c b kind pb args reads write late isBlock isGroup started u
  have isStarted : started = _ := startOp_eq isBlock isGroup c kind pb args reads write late
  have isU : u = _ := congrArg Prod.snd isStarted
  refine ⟨by rw [isStarted], ?_, ?_, ?_, ?_, ?_, ?_, ?_, ?_⟩
  · refine ⟨startedOp s gid g b kind pb args reads late, by rw [isU]; exact tfind_tset_same _ _ _, rfl, rfl, rfl, rfl, rfl, rfl, rfl, rfl, rfl, rfl,
      rfl, rfl, rfl, rfl, rfl, fun other => ?_, fun r _ isIn => keptReceivers_mem isIn⟩
    simp only [startedOp, keptReceivers, reissued_none other]
    rfl
  · intro o other
    rw [isU]
    exact tfind_tset_other _ _ other
  · refine ⟨startedEntry s gid g reads write, ?_, rfl, rfl, rfl, rfl, rfl⟩
    rw [isU]
    exact (block_setBlock _ _ _ _).trans (if_pos rfl)
  · intro h other
    rw [isU]
    exact (block_setBlock _ _ _ _).trans (if_neg other)
  · intro h other
    rw [isU]
    exact startedGroups_other s gid g kind other
  · rw [isU]
    exact startedGroups_self isGroup kind
  · intro other
    rw [isU]
    simp only [startedGroups, reissued_none other]
  · rw [isU]

/-! ## Landing windows (R117, R131, R132) -/

section
variable {s : State} {gid : Nat} {g : Group} {c : Ctl} {blk : Block} {d a b : SSrc}

/-- The condition of LAND's operands (R131). -/
def landFits (s : State) (blk : Block) (id base len : Nat) : Prop :=
  id < 8 ∧ base % 4 = 0 ∧ len % 4 = 0 ∧ 4 ≤ len ∧ base + len ≤ blk.bytes ∧ windowOpen s blk.core id = false

/-- The state in which LAND has opened its window. -/
def landOpened (s : State) (gid : Nat) (g : Group) (c : Ctl) (w : Window) : State :=
  ((ctxOf s gid g c).startOp .land [] [] [] (some (w.base, w.base + w.len)) true).2.modBlock g.blk (fun b => { b with windows := b.windows ++ [w] })

theorem land_refused (isBlock : s.block? g.blk = some blk) (bad : ¬ landFits s blk (g.ssval d).toNat (g.ssval a).toNat (g.ssval b).toNat) :
    (ctxOf s gid g c).land d a b = (ctxOf s gid g c).fail { cause := 0x38 } := by
  have ofBlock : (ctxOf s gid g c).s.blockOf (ctxOf s gid g c).g = blk := by rw [block_ctxOf, blockOf, isBlock]; rfl
  have src : ∀ r, (ctxOf s gid g c).ssrc r = g.ssval r := fun r => ssrc_mk _ _ _ _ _ r
  simp only [Ctx.land, src, ofBlock]
  rw [if_pos]
  by_contra fits
  refine bad ?_
  simp only [Bool.or_eq_true, decide_eq_true_eq, bne_iff_ne, not_or, Decidable.not_not, Nat.not_le, Nat.not_lt, Bool.not_eq_true] at fits
  obtain ⟨⟨⟨⟨⟨h1, h2⟩, h3⟩, h4⟩, h5⟩, h6⟩ := fits
  exact ⟨h1, h2, h3, h4, h5, h6⟩

theorem land_opens (isBlock : s.block? g.blk = some blk) (fits : landFits s blk (g.ssval d).toNat (g.ssval a).toNat (g.ssval b).toNat)
    (isGroup : s.group? gid = some g) {w : Window} (isWindow : w = ⟨(g.ssval d).toNat, (g.ssval a).toNat, (g.ssval b).toNat, s.fresh, gid, g.r.lstep, none, false⟩) :
    (ctxOf s gid g c).land d a b = .ok (takeArrival (landOpened s gid g c w) g.blk w) .seq 0 := by
  have ofBlock : (ctxOf s gid g c).s.blockOf (ctxOf s gid g c).g = blk := by rw [block_ctxOf, blockOf, isBlock]; rfl
  have src : ∀ r, (ctxOf s gid g c).ssrc r = g.ssval r := fun r => ssrc_mk _ _ _ _ _ r
  obtain ⟨h1, h2, h3, h4, h5, h6⟩ := fits
  have noOpen : windowOpen (ctxOf s gid g c).s blk.core (g.ssval d).toNat = false := h6
  have first := startOp_eq isBlock isGroup c .land [] [] [] (some ((g.ssval a).toNat, (g.ssval a).toNat + (g.ssval b).toNat)) none
  simp only [Ctx.land, src, ofBlock]
  rw [if_neg]
  · simp only [landOpened, isWindow]
    rw [first]
    rfl
  · simp only [Bool.or_eq_true, decide_eq_true_eq, bne_iff_ne, not_or, Decidable.not_not, Nat.not_le, Nat.not_lt, Bool.not_eq_true]
    exact ⟨⟨⟨⟨⟨h1, h2⟩, h3⟩, h4⟩, h5⟩, noOpen⟩

theorem landOpened_fields (isBlock : s.block? g.blk = some blk) (isGroup : s.group? gid = some g) (w : Window) :
    (landOpened s gid g c w).cores = s.cores ∧ ∃ bo, (landOpened s gid g c w).block? g.blk = some bo ∧ bo.core = blk.core := by
  rw [landOpened, startOp_eq isBlock isGroup, modBlock_eq]
  rotate_left
  · exact (block_setBlock _ _ _ _).trans (if_pos rfl)
  · exact ⟨rfl, _, (block_setBlock _ _ _ _).trans (if_pos rfl), rfl⟩

/-- An arrival that stands ready for a new window fills it once LAND is in order (R117, R132). -/
theorem takeArrival_found {t : State} {k : Nat} {bo : Block} {w : Window} {q : Arrival} (isBlock : t.block? k = some bo) (empty : w.filled = none)
    (found : (t.core bo.core).landing.find? (fun q => q.win == w.win) = some q) :
    takeArrival t k w = if inOrder bo w.op then fillWindow (t.modCore bo.core (fun c => { c with landing := c.landing.erase q })) k w q else t := by
  simp only [takeArrival, isBlock, found, empty, Option.isSome_none, Bool.false_or]
  cases inOrder bo w.op <;> rfl

theorem takeArrival_none {t : State} {k : Nat} {bo : Block} {w : Window} (isBlock : t.block? k = some bo)
    (absent : (t.core bo.core).landing.find? (fun q => q.win == w.win) = none) : takeArrival t k w = t := by
  simp only [takeArrival, isBlock, absent]

end

/-- Settles O36: LAND opens its window, and the earliest arrival for it fills it once LAND is in order. -/
theorem landing : Obligations.Landing := by
  intro s gid g c d a b blk active isBlock id base len started w opened ok
  have isStarted : started.1 = s.fresh := by rw [show started = _ from startOp_eq isBlock active.group c _ _ _ _ _ _]
  have isWindow : w = ⟨id, base, len, s.fresh, gid, g.r.lstep, none, false⟩ := by simp only [w, isStarted]
  have isOpened : landOpened s gid g c w = opened := rfl
  obtain ⟨cores, bo', isBo', coreBo'⟩ := landOpened_fields (c := c) isBlock active.group w
  rw [isOpened] at cores isBo'
  have landingOf : ∀ bo, opened.block? g.blk = some bo → (opened.core bo.core).landing = (s.core blk.core).landing := by
    intro bo isBo
    have : bo = bo' := Option.some.inj (isBo.symm.trans isBo')
    rw [this, coreBo', core_congr cores]
  refine ⟨fun bad => ?_, fun fits none => ?_, fun fits q bo found isBo => ?_⟩
  · exact exec_fail (body := fun x => x.land d a b) (fun _ => rfl) active (land_refused isBlock bad)
  · refine ends_of_ok (body := fun x => x.land d a b) (fun _ => rfl) active ((land_opens isBlock fits active.group isWindow).trans ?_)
    rw [isOpened, takeArrival_none isBo']
    rw [landingOf _ isBo', List.find?_eq_none]
    intro q isIn
    simpa using none q isIn
  · have run := ends_of_ok (body := fun x => x.land d a b) (fun _ => rfl) active (land_opens isBlock fits active.group isWindow)
    rw [isOpened, takeArrival_found isBo rfl (by rw [landingOf _ isBo]; exact found)] at run
    have sameCore : bo.core = blk.core := by rw [Option.some.inj (isBo.symm.trans isBo'), coreBo']
    refine ⟨fun order => ?_, fun late => ?_⟩
    · rw [if_pos order, sameCore] at run
      exact run
    · rw [if_neg (by rw [show w.op = _ from rfl, late]; decide)] at run
      exact run

end Sys2Proof.Machine

/-! The issue of the matrix instructions (R165 to R167, R176 to R178, R183, R189 to R194, R325 to R327, R363). -/

namespace Sys2Proof.Machine
open State

/-! ## MMA and MMQ (R189 to R191) -/

/-- The first check of R189 that fails, on a format block that is read. -/
theorem multiplyTrap_none {b : Block} {g : Group} {tile fb k : Nat} {ps : List Part4} {pb : List Byte}
    (clean : ∀ w ∈ b.poison, wordIn (fb, fb + 16) w = false) (isTile : tileOk g (fblockOf pb).float tile = true)
    (handles : handlesTrap b.bytes (fblockOf pb) k ps = none)
    (inside : g.r.detached = true → ∀ p ∈ ps, handleKind p.ha % 2 = 0 ∧ handleKind p.hb % 2 = 0) (fields : fblockBad pb k = none)
    (scales : ∀ r ∈ scaleRange (fblockOf pb).sa (fblockOf pb).la k ++ scaleRange (fblockOf pb).sb (fblockOf pb).lb k, r.2 ≤ b.bytes)
    (mode : modeOk g (fblockOf pb).float tile = true) (low : 1 ≤ k) (high : k ≤ 8192) (chunk : k % (fblockOf pb).chunk = 0) :
    multiplyTrap b b.poison g tile fb k ps (some pb) = none := by
  have attached : (g.r.detached && ps.any (fun p => handleKind p.ha % 2 == 1 || handleKind p.hb % 2 == 1)) = false := by
    cases det : g.r.detached with
    | false => rfl
    | true =>
      rw [Bool.true_and, List.any_eq_false]
      intro p hp
      obtain ⟨ha, hb⟩ := inside det p hp
      simp [ha, hb]
  have noPoison : b.poison.any (wordIn (fb, fb + 16)) = false := by
    rw [List.any_eq_false]
    exact fun w hw => by simp [clean w hw]
  have inside' : (scaleRange (fblockOf pb).sa (fblockOf pb).la k ++ scaleRange (fblockOf pb).sb (fblockOf pb).lb k).all (inStore b) = true := by
    rw [List.all_eq_true]
    exact fun r hr => decide_eq_true (scales r hr)
  have size : ¬ (k = 0 ∨ 8192 < k ∨ k % (fblockOf pb).chunk ≠ 0) := by omega
  simp only [multiplyTrap, Option.getD_some, isTile, handles, attached, noPoison, fields, inside', mode, Bool.not_true, Bool.false_eq_true, if_false]
  exact if_neg size

section
variable {s : State} {gid : Nat} {g : Group} {c : Ctl} {op : OpKind} {tile fb k : Nat} {ps : List Part4}

/-- What MMA and MMQ do with a format block in the block's store. -/
theorem multiply_there (aligned : fb % 16 = 0) (inside : fb + 16 ≤ (s.blockOf g).bytes) :
    let x := ctxOf s gid g c
    let b := s.blockOf g
    let args := BitVec.ofNat 64 k :: ps.flatMap (fun p => [p.ha, p.hb])
    let late := !(writesOver b (some (fb, fb + 16))).isEmpty
    let pb := rdL b.mem fb 16
    x.multiply op tile fb k ps = match multiplyTrap b b.poison g tile fb k ps (if !late then some pb else none) with
      | some t => x.fail t
      | none =>
        if late then x.enqueue op [] args [(fb, fb + 16), (0, b.bytes)] none true g (some (fb, 16))
        else x.enqueue op pb args (multiplyRanges (fblockOf pb) fb k ps) none true { g with r := { g.r with ovfMode := (fblockOf pb).trap } } := by
  intro x b args late pb
  have there : (fb % 16 == 0 && decide (fb + 16 ≤ b.bytes)) = true := by
    rw [aligned, decide_eq_true inside]
    rfl
  simp only [x, Ctx.multiply, block_ctxOf]
  rw [there]
  rfl

theorem multiply_trap (aligned : fb % 16 = 0) (inside : fb + 16 ≤ (s.blockOf g).bytes)
    (free : writesOver (s.blockOf g) (some (fb, fb + 16)) = []) {t : TrapInfo}
    (trap : multiplyTrap (s.blockOf g) (s.blockOf g).poison g tile fb k ps (some (rdL (s.blockOf g).mem fb 16)) = some t) :
    (ctxOf s gid g c).multiply op tile fb k ps = (ctxOf s gid g c).fail t := by
  rw [multiply_there aligned inside, free]
  simp only [List.isEmpty_nil, Bool.not_true, Bool.not_false, if_true, trap]

theorem room_ctxOf (room : (s.core (s.blockOf g).core).queue.length < 16) :
    ((ctxOf s gid g c).s.core ((ctxOf s gid g c).s.blockOf (ctxOf s gid g c).g).core).queue.length < 16 := by
  rw [block_ctxOf]
  exact room

theorem multiply_ok (aligned : fb % 16 = 0) (inside : fb + 16 ≤ (s.blockOf g).bytes)
    (free : writesOver (s.blockOf g) (some (fb, fb + 16)) = []) (room : (s.core (s.blockOf g).core).queue.length < 16)
    (good : multiplyTrap (s.blockOf g) (s.blockOf g).poison g tile fb k ps (some (rdL (s.blockOf g).mem fb 16)) = none) :
    (ctxOf s gid g c).multiply op tile fb k ps = .ok (queued (ctxOf s gid g c) op (rdL (s.blockOf g).mem fb 16)
      (BitVec.ofNat 64 k :: ps.flatMap (fun p => [p.ha, p.hb])) (multiplyRanges (fblockOf (rdL (s.blockOf g).mem fb 16)) fb k ps) none true
      { g with r := { g.r with ovfMode := (fblockOf (rdL (s.blockOf g).mem fb 16)).trap } }) .seq 0 := by
  rw [multiply_there aligned inside, free]
  simp only [List.isEmpty_nil, Bool.not_true, Bool.not_false, if_true, good, Bool.false_eq_true, if_false]
  exact enqueue_room (room_ctxOf room) ..

theorem multiply_late (aligned : fb % 16 = 0) (inside : fb + 16 ≤ (s.blockOf g).bytes)
    (held : writesOver (s.blockOf g) (some (fb, fb + 16)) ≠ []) (room : (s.core (s.blockOf g).core).queue.length < 16)
    (good : multiplyTrap (s.blockOf g) (s.blockOf g).poison g tile fb k ps none = none) :
    (ctxOf s gid g c).multiply op tile fb k ps = .ok (queued (ctxOf s gid g c) op []
      (BitVec.ofNat 64 k :: ps.flatMap (fun p => [p.ha, p.hb])) [(fb, fb + 16), (0, (s.blockOf g).bytes)] none true g (some (fb, 16))) .seq 0 := by
  have busy : (writesOver (s.blockOf g) (some (fb, fb + 16))).isEmpty = false := by simpa [List.isEmpty_eq_false_iff] using held
  rw [multiply_there aligned inside]
  simp only [busy, Bool.not_true, Bool.not_false, Bool.false_eq_true, if_false, good, if_true]
  exact enqueue_room (room_ctxOf room) ..

end

/-- Settles O37: MMA and MMQ join their core's queue, or trap at the first check of R189 that fails. -/
theorem matrixMultiplies : Obligations.MatrixMultiplies := by
  intro s gid g c kind d a b v e x issues n qs
  have all : ∀ (i : Instr) (body : Ctx → Res) (op : OpKind) (fb k : Nat) (ps : List Part4), (∀ s, exec i s = issue i c false body s) →
      body (ctxOf s gid g c) = (ctxOf s gid g c).multiply op d.toNat fb k ps → issues i op fb k ps := by
    intro i body op fb k ps meaning goes active
    refine ⟨fun aligned inside free => ⟨?_, fun t trap => ?_⟩, fun aligned inside held room good => ?_⟩
    · intro clean isTile handles near fields inScales mode low high chunk room
      exact ends_of_ok meaning active (goes.trans (multiply_ok aligned inside free room
        (multiplyTrap_none clean isTile handles near fields inScales mode low high chunk)))
    · exact exec_fail meaning active (goes.trans (multiply_trap aligned inside free trap))
    · exact ends_of_ok meaning active (goes.trans (multiply_late aligned inside held room good))
  refine ⟨?_, ?_⟩
  · refine all _ (fun x => x.multiply (.mma kind d.toNat) d.toNat (x.sreg a 2).toNat (x.ssrc b).toNat [⟨0, 32, x.sreg a 0, x.sreg a 1, 0x200⟩]) _ _ _ _
      (fun _ => rfl) ?_
    rw [show (ctxOf s gid g c).ssrc b = g.ssval b from ssrc_mk _ _ _ _ _ b]
    rfl
  · exact all _ (fun x => x.multiply (.mmq kind d.toNat (quarters x.act)) d.toNat (x.sreg e 0).toNat (x.sreg e 1).toNat
      ((quarters x.act).map (fun q => ⟨8 * q, 8, x.g.getV64 ((vnum x.run.xs v).getD 0) (8 * q), x.g.getV64 ((vnum x.run.xs v).getD 0 + 2) (8 * q),
        0x200 + 2 * q⟩))) _ _ _ _ (fun _ => rfl) rfl

/-! ## MZERO, MLDA, MDRN and CTLD (R192 to R194, R325 to R327) -/

/-- The group once MZERO or MLDA has set its tile's mode (R167). -/
def modeSet (g : Group) (flt : Bool) (tile : Nat) : Group :=
  { g with r := { g.r with modeQ := planeBits g.r.modeQ (tilePlanes flt tile) flt } }

/-- The meaning of MZERO (R192). -/
def mzeroMeaning (flt : Bool) (d : BitVec 4) (x : Ctx) : Res :=
  if !tileOk x.g flt d.toNat then x.fail badTile
  else x.enqueue (.mzero flt d.toNat) [] [] [] none false (modeSet x.g flt d.toNat)

/-- The meaning of MLDA (R193). -/
def mldaMeaning (flt : Bool) (d : BitVec 4) (a : SReg) (x : Ctx) : Res :=
  if !tileOk x.g flt d.toNat then x.fail badTile
  else if !x.tileAddr (x.sreg a).toNat then x.fail { cause := 0x38 }
  else x.enqueue (.mlda flt d.toNat) [] [x.sreg a] [((x.sreg a).toNat, (x.sreg a).toNat + 4096)] none true (modeSet x.g flt d.toNat)

/-- The meaning of MDRN (R194). -/
def mdrnMeaning (clr flt : Bool) (rnd : Rnd) (d : BitVec 4) (a : SReg) (x : Ctx) : Res :=
  if !tileOk x.g flt d.toNat then x.fail badTile
  else if !modeOk x.g flt d.toNat then x.fail badMode
  else if !x.tileAddr (x.sreg a).toNat then x.fail { cause := 0x38 }
  else x.enqueue (.mdrn clr flt rnd d.toNat) [] [x.sreg a] [] (some ((x.sreg a).toNat, (x.sreg a).toNat + 4096)) true x.g

/-- The meaning of CTLD (R325 to R327). -/
def ctldMeaning (t : SSrc) (a : SReg) (x : Ctx) : Res :=
  if 3 < (x.ssrc t).toNat then x.fail { cause := 0x38 }
  else if (x.sreg a).toNat % 32 != 0 || !inStore (x.s.blockOf x.g) ((x.sreg a).toNat, (x.sreg a).toNat + 32) then x.fail { cause := 0x38 }
  else x.enqueue (.ctld (x.ssrc t).toNat) [] [x.sreg a] [((x.sreg a).toNat, (x.sreg a).toNat + 32)] none true x.g

theorem exec_mzero (c : Ctl) (flt : Bool) (d : BitVec 4) (s : State) : exec (.mzero c flt d) s = issue (.mzero c flt d) c false (mzeroMeaning flt d) s := rfl

theorem exec_mlda (c : Ctl) (flt : Bool) (d : BitVec 4) (a : SReg) (s : State) :
    exec (.mlda c flt d a) s = issue (.mlda c flt d a) c false (mldaMeaning flt d a) s := rfl

theorem exec_mdrn (c : Ctl) (clr flt : Bool) (rnd : Rnd) (d : BitVec 4) (a : SReg) (s : State) :
    exec (.mdrn c clr flt rnd d a) s = issue (.mdrn c clr flt rnd d a) c false (mdrnMeaning clr flt rnd d a) s := rfl

theorem exec_ctld (c : Ctl) (t : SSrc) (a : SReg) (s : State) : exec (.ctld c t a) s = issue (.ctld c t a) c false (ctldMeaning t a) s := rfl

/-- The address check of MLDA and MDRN. -/
theorem tileAddr_iff (s : State) (gid : Nat) (g : Group) (c : Ctl) (a : Nat) :
    (ctxOf s gid g c).tileAddr a = true ↔ a % 16 = 0 ∧ a + 4096 ≤ (s.blockOf g).bytes := by
  simp only [Ctx.tileAddr, inStore, block_ctxOf, Bool.and_eq_true, beq_iff_eq, decide_eq_true_eq]

section
variable {s : State} {gid : Nat} {g : Group} {c : Ctl} {flt : Bool} {d : BitVec 4} {a : SReg}

/-- A condition that a meaning checks first, as it reads through a ready instruction's context. -/
theorem pass_not {α : Type} {p : Bool} (h : p = true) (x y : α) : (if (!p) = true then x else y) = y := by simp [h]

theorem stop_not {α : Type} {p : Bool} (h : p = false) (x y : α) : (if (!p) = true then x else y) = x := by simp [h]

theorem sreg_ctxOf (r : SReg) : (ctxOf s gid g c).sreg r = g.sval r := sreg_mk _ _ _ _ _ r

theorem ssrc_ctxOf (r : SSrc) : (ctxOf s gid g c).ssrc r = g.ssval r := ssrc_mk _ _ _ _ _ r

theorem ctld_ok {t : SSrc} (table : (g.ssval t).toNat ≤ 3) (aligned : (g.sval a).toNat % 32 = 0) (inside : (g.sval a).toNat + 32 ≤ (s.blockOf g).bytes)
    (room : (s.core (s.blockOf g).core).queue.length < 16) :
    ctldMeaning t a (ctxOf s gid g c) = .ok (queued (ctxOf s gid g c) (.ctld (g.ssval t).toNat) [] [g.sval a]
      [((g.sval a).toNat, (g.sval a).toNat + 32)] none true g) .seq 0 := by
  have fits : ((g.sval a).toNat % 32 != 0 || !inStore (s.blockOf g) ((g.sval a).toNat, (g.sval a).toNat + 32)) = false := by
    simp [aligned, inStore, inside]
  simp only [ctldMeaning, sreg_ctxOf, ssrc_ctxOf, block_ctxOf, fits, Bool.false_eq_true, if_false]
  rw [if_neg (Nat.not_lt.2 table)]
  exact enqueue_room (room_ctxOf room) ..

theorem ctld_refused {t : SSrc} (bad : ¬ ((g.ssval t).toNat ≤ 3 ∧ (g.sval a).toNat % 32 = 0 ∧ (g.sval a).toNat + 32 ≤ (s.blockOf g).bytes)) :
    ctldMeaning t a (ctxOf s gid g c) = (ctxOf s gid g c).fail { cause := 0x38 } := by
  simp only [ctldMeaning, sreg_ctxOf, ssrc_ctxOf, block_ctxOf]
  by_cases table : 3 < (g.ssval t).toNat
  · rw [if_pos table]
  · rw [if_neg table, if_pos]
    simp only [inStore, Bool.or_eq_true, bne_iff_ne, Bool.not_eq_true', decide_eq_false_iff_not]
    omega

end

/-- Settles O38: MZERO, MLDA, MDRN and CTLD join their core's queue, or trap at the first check that fails. -/
theorem matrixTiles : Obligations.MatrixTiles := by
  intro s gid g c clr flt rnd d a t x b at_ tile good set room traps
  refine ⟨fun active => ⟨fun isTile room => ?_, fun noTile => ?_⟩,
    fun active => ⟨fun isTile isGood room => ?_, fun noTile => ?_, fun isTile bad => ?_⟩,
    fun active => ⟨fun isTile mode isGood room => ?_, fun noTile => ?_, fun isTile noMode => ?_, fun isTile mode bad => ?_⟩, ?_⟩
  · exact ends_of_ok (exec_mzero c flt d) active ((pass_not isTile _ _).trans (enqueue_room (room_ctxOf room) ..))
  · exact exec_fail (exec_mzero c flt d) active (stop_not noTile _ _)
  · exact ends_of_ok (exec_mlda c flt d a) active ((pass_not isTile _ _).trans ((pass_not ((tileAddr_iff s gid g c _).2 isGood) _ _).trans
      (enqueue_room (room_ctxOf room) ..)))
  · exact exec_fail (exec_mlda c flt d a) active (stop_not noTile _ _)
  · exact exec_fail (exec_mlda c flt d a) active ((pass_not isTile _ _).trans
      (stop_not (Bool.eq_false_iff.2 fun h => bad ((tileAddr_iff s gid g c _).1 h)) _ _))
  · exact ends_of_ok (exec_mdrn c clr flt rnd d a) active ((pass_not isTile _ _).trans ((pass_not mode _ _).trans
      ((pass_not ((tileAddr_iff s gid g c _).2 isGood) _ _).trans (enqueue_room (room_ctxOf room) ..))))
  · exact exec_fail (exec_mdrn c clr flt rnd d a) active (stop_not noTile _ _)
  · exact exec_fail (exec_mdrn c clr flt rnd d a) active ((pass_not isTile _ _).trans (stop_not noMode _ _))
  · exact exec_fail (exec_mdrn c clr flt rnd d a) active ((pass_not isTile _ _).trans ((pass_not mode _ _).trans
      (stop_not (Bool.eq_false_iff.2 fun h => bad ((tileAddr_iff s gid g c _).1 h)) _ _)))
  · intro active n ok
    exact ⟨fun isOk room => ends_of_ok (exec_ctld c t a) active (ctld_ok isOk.1 isOk.2.1 isOk.2.2 room),
      fun bad => exec_fail (exec_ctld c t a) active (ctld_refused bad)⟩

end Sys2Proof.Machine

/-! The issue of SPAWN, LNCH, the mailbox instructions, TLBINV, CTXSV, CTXLD, RDCNT and QTOPO (R256, R328 to R330, R355 to R361, R380 to R383, R405 to R408, R414). -/

namespace Sys2Proof.Machine
open State

/-! ## SPAWN (R405 to R408) -/

section
variable {s : State} {gid : Nat} {g : Group} {c : Ctl} {fwd : Bool} {d : BitVec 4} {a : SReg} {b : VReg}

/-- The meaning of SPAWN (R407, R408). -/
def spawnMeaning (fwd : Bool) (d : BitVec 4) (a : SReg) (b : VReg) (x : Ctx) : Res :=
  if x.act = 0 then x.done (x.g.setP d.toNat 0) else x.spawn fwd d a b

theorem exec_spawn (c : Ctl) (fwd : Bool) (d : BitVec 4) (a : SReg) (b : VReg) (s : State) :
    exec (.spawn c fwd d a b) s = issue (.spawn c fwd d a b) c true (spawnMeaning fwd d a b) s := rfl

theorem spawnMeaning_active (active : Active s gid g c (.spawn c fwd d a b)) :
    spawnMeaning fwd d a b ⟨s.tickSeq, gid, g, g.runNow, c, g.active c⟩ = (ctxOf s gid g c).spawn fwd d a b :=
  if_neg active.lane

theorem ends_spawn (active : Active s gid g c (.spawn c fwd d a b)) {t : State} (does : (ctxOf s gid g c).spawn fwd d a b = .ok t .seq 0) :
    Ends s gid g c (.spawn c fwd d a b) t .seq 0 := by
  rw [Ends, exec_spawn, issue_active active, spawnMeaning_active active, does]

theorem spawn_traps (active : Active s gid g c (.spawn c fwd d a b)) {t : TrapInfo}
    (fails : (ctxOf s gid g c).spawn fwd d a b = (ctxOf s gid g c).fail t) : exec (.spawn c fwd d a b) s = .next (s.tickSeq.syncTrap gid t) := by
  rw [exec_spawn, issue_active active, spawnMeaning_active active, fails]
  rfl

/-- The die of a lane's item, as the obligation writes it (R407). -/
def itemDie (s : State) (g : Group) (fwd : Bool) (b : VReg) (l : Nat) : Option Nat :=
  if fwd then s.physDie? (s.partAt (s.blockOf g).core) (g.getV (g.vname b + 1) l).toNat else some (coreDie (s.blockOf g).core)

theorem spawnDie_ctxOf (s : State) (gid : Nat) (g : Group) (c : Ctl) (fwd : Bool) (b : VReg) :
    (ctxOf s gid g c).spawnDie fwd (g.vname b) = itemDie s g fwd b := by
  funext l
  simp only [Ctx.spawnDie, block_ctxOf]
  rfl

/-- SPAWN with a good entry address, by the dies of its lanes and the horizon. -/
theorem spawn_good (canon : canonical (g.sval a) = true) (even : (g.sval a).toNat % 4 = 0) :
    let x := ctxOf s gid g c
    let ls := lanesOf (g.active c)
    let room := coachFree s (coreDie (s.blockOf g).core)
    let items := x.spawnItems fwd (g.sval a) (g.vname b) (ls.take room)
    x.spawn fwd d a b = match ls.find? (fun l => (itemDie s g fwd b l).isNone) with
      | some l => x.fail { cause := 0x38, info := BitVec.ofNat 64 l }
      | none =>
        if g.r.detached then x.fail detTrap
        else .ok ((match g.launch with
          | some l => ({ s.tickSeq with fresh := s.fresh + items.length } : State).modLaunch l (fun q => { q with items := q.items ++ items })
          | none => s.tickSeq).setGroup gid (g.setP d.toNat (maskOf (fun l => (ls.drop room).contains l)))) .seq 0 := by
  intro x ls room items
  have dies : x.spawnDie fwd ((vnum x.run.xs b).getD 0) = itemDie s g fwd b := spawnDie_ctxOf s gid g c fwd b
  have aligned : ((g.sval a).toNat % 4 != 0) = false := by simp [even]
  simp only [Ctx.spawn, dies, show x.sreg a = g.sval a from sreg_ctxOf a, canon, aligned, Bool.not_true, Bool.false_eq_true, if_false]
  rfl

theorem spawnItems_ctxOf (s : State) (gid : Nat) (g : Group) (c : Ctl) (fwd : Bool) (b : VReg) (entry : Word) (ls : List Nat) :
    (ctxOf s gid g c).spawnItems fwd entry (g.vname b) ls =
      let p := coreDie (s.blockOf g).core
      ls.zipIdx.map (fun e =>
        { id := s.fresh + e.2, entry := entry, arg := g.getV (g.vname b) e.1, parent := g.gwid + BitVec.ofNat 64 e.1,
          step := g.r.gstep, die := (itemDie s g fwd b e.1).getD p, src := p, arrived := (itemDie s g fwd b e.1).getD p == p, grp := gid,
          seq := s.seq + 1, cycle := s.cycle p }) := by
  simp only [Ctx.spawnItems, spawnDie_ctxOf, block_ctxOf]
  rfl

end

/-- Settles O39: SPAWN adds an item for each active lane that finds a place. -/
theorem spawn : Obligations.Spawn := by
  intro s gid g c fwd d a b active i entry p dieOf traps
  have isDie : dieOf = itemDie s g fwd b := rfl
  refine ⟨fun far => ?_, fun canon odd => ?_, fun canon even => ⟨fun l bad => ?_, fun dies => ⟨fun det => ?_, fun attached => ?_⟩⟩⟩
  · refine spawn_traps active ?_
    simp only [Ctx.spawn, sreg_ctxOf, show canonical (g.sval a) = false from far, Bool.not_false, if_true]
    rfl
  · refine spawn_traps active ?_
    have misaligned : ((g.sval a).toNat % 4 != 0) = true := by simpa using odd
    simp only [Ctx.spawn, sreg_ctxOf, show canonical (g.sval a) = true from canon, misaligned, Bool.not_true, Bool.false_eq_true, if_false, if_true]
    rfl
  · refine spawn_traps active ?_
    rw [spawn_good canon even, ← isDie, bad]
  · have all : (lanesOf (g.active c)).find? (fun l => (itemDie s g fwd b l).isNone) = none := by
      rw [List.find?_eq_none]
      exact fun l hl => by rw [← isDie, ← Option.not_isSome, dies l hl]; decide
    refine spawn_traps active ?_
    rw [spawn_good canon even, all]
    exact if_pos det
  · have all : (lanesOf (g.active c)).find? (fun l => (itemDie s g fwd b l).isNone) = none := by
      rw [List.find?_eq_none]
      exact fun l hl => by rw [← isDie, ← Option.not_isSome, dies l hl]; decide
    have run := spawn_good (s := s) (gid := gid) (g := g) (c := c) (fwd := fwd) (d := d) (a := a) (b := b) canon even
    simp only [all, spawnItems_ctxOf, attached, Bool.false_eq_true, if_false] at run
    refine ⟨fun L ofLaunch => ?_, fun none => ?_⟩
    · rw [ofLaunch] at run
      exact ends_spawn active run
    · rw [none] at run
      exact ends_spawn active run

/-! ## The launch unit, the mailboxes, the counters and the topology (R256, R355 to R361, R380 to R383) -/

/-- The meaning of LNCH (R355). -/
def lnchMeaning (a : SReg) (x : Ctx) : Res :=
  .ok (x.s.modDie (coreDie (x.s.blockOf x.g).core) (fun d => { d with launchq := d.launchq ++ [⟨x.sreg a 0, x.sreg a 1, none⟩] })) .seq 0

/-- The meaning of MBXRD (R358, R359). -/
def mbxrdMeaning (d : SReg) (a : SSrc) (x : Ctx) : Res :=
  let sel := (x.ssrc a).toNat
  if 1 < sel then x.fail { cause := 0x38 }
  else
    let reads := (List.range 8).map (fun j => LaneRead.mk j (8 * j) 0 .now none)
    let s1 := startLoad x.s x.gid x.g (x.sdst d) .s64 (.mailbox sel) reads
    .ok (s1.modDie (coreDie (x.s.blockOf x.g).core) (fun d => { d with waits := d.waits ++ [⟨x.gid, x.s.fresh⟩] })) .seq 0

/-- The meaning of MBXWR (R358, R361). -/
def mbxwrMeaning (a b : SReg) (x : Ctx) : Res :=
  if x.sreg b ≠ 0 then x.fail { cause := 0x38 }
  else
    let P := x.s.partAt (x.s.blockOf x.g).core
    let s1 := x.s.ringAdd P P.dbmsg (x.bundle a)
    .ok { s1 with msix := s1.msix + 1 } .seq 0

/-- The meaning of RDCNT (R383). -/
def rdcntMeaning (d : SReg) (a : SSrc) (x : Ctx) : Res :=
  x.done (x.g.setS ((snum x.run.xs d).getD 0) (counterValue x.s (x.s.blockOf x.g).core (x.s.guestOf x.g) (x.ssrc a).toNat))

/-- The meaning of QTOPO (R380 to R382). -/
def qtopoMeaning (d : SReg) (sel : BitVec 14) (b : SSrc) (x : Ctx) : Res :=
  let v := x.ssrc b
  let k := (x.s.blockOf x.g).core
  if v.toNat / 2 ^ topoUses sel.toNat ≠ 0 then x.fail { cause := 0x38 }
  else
    let r := BitVec.ofInt 64 (topoValue x.s (x.s.partAt k) (coreDie k) sel.toNat v)
    .ok (startLoad x.s x.gid x.g (x.sdst d) .s64 .value [⟨0, 0, 0, .now, some r⟩]) .seq 0

/-- The meaning of TLBINV (R414). -/
def tlbinvMeaning (c : Ctl) (scope : Scope) (host : Bool) (gctx : BitVec 4) (a : SReg) (b : SSrc) (x : Ctx) : Res :=
  match tlbinvBad scope (x.sreg a) (x.ssrc b) with
  | some t => x.fail t
  | none =>
    let t : TlbInv := ⟨scope, host, gctx.toNat, x.sreg a, (x.ssrc b).toNat, x.g.r.gstep, x.s.seq, false, if c.l then some c.g else none⟩
    .ok (x.s.setGroup x.gid { x.g with tlbi := some t }) .later 0

theorem exec_lnch (c : Ctl) (a : SReg) (s : State) : exec (.lnch c a) s = issue (.lnch c a) c false (lnchMeaning a) s := rfl

theorem exec_mbxrd (c : Ctl) (d : SReg) (a : SSrc) (s : State) : exec (.mbxrd c d a) s = issue (.mbxrd c d a) c false (mbxrdMeaning d a) s := rfl

theorem exec_mbxwr (c : Ctl) (a b : SReg) (s : State) : exec (.mbxwr c a b) s = issue (.mbxwr c a b) c false (mbxwrMeaning a b) s := rfl

theorem exec_rdcnt (c : Ctl) (d : SReg) (a : SSrc) (s : State) : exec (.rdcnt c d a) s = issue (.rdcnt c d a) c false (rdcntMeaning d a) s := rfl

theorem exec_qtopo (c : Ctl) (d : SReg) (sel : BitVec 14) (b : SSrc) (s : State) :
    exec (.qtopo c d sel b) s = issue (.qtopo c d sel b) c false (qtopoMeaning d sel b) s := rfl

theorem exec_tlbinv (c : Ctl) (scope : Scope) (host : Bool) (gctx : BitVec 4) (a : SReg) (b : SSrc) (s : State) :
    exec (.tlbinv c scope host gctx a b) s = issue (.tlbinv c scope host gctx a b) c false (tlbinvMeaning c scope host gctx a b) s := rfl

/-- The bits of B that a selector uses, as the obligation writes them (R380). -/
theorem topoUses_eq (sel : BitVec 14) :
    topoUses sel.toNat = if sel = 5 then 16 else if sel = 6 ∨ sel = 7 then 32 else if sel = 8 then 64 else 0 := by
  have num : ∀ n : BitVec 14, sel = n ↔ sel.toNat = n.toNat := fun n => BitVec.toNat_inj.symm
  simp only [topoUses, num]
  rfl

section
variable {s : State} {gid : Nat} {g : Group} {c : Ctl}

/-- Settles O41: the counter and the topology value that an instruction reads. -/
theorem countersAndTopology : Obligations.CountersAndTopology := by
  intro s gid g c d a b sel k n
  refine ⟨fun active => ?_, ?_⟩
  · refine ends_of_ok (exec_rdcnt c d a) active ?_
    have value : counterValue (ctxOf s gid g c).s k ((ctxOf s gid g c).s.guestOf (ctxOf s gid g c).g) n =
        match s.guestOf g with | some u => if n ≤ 0x86 then tget 0 (s.core k).counters (8192 * u + n) else 0 | none => 0 := by
      rw [show (ctxOf s gid g c).s.guestOf (ctxOf s gid g c).g = s.guestOf g from rfl]
      cases s.guestOf g with
      | none => rfl
      | some u =>
        by_cases known : n ≤ 0x86
        · exact (if_neg (Nat.not_lt.2 known)).trans (if_pos known).symm
        · exact (if_pos (Nat.lt_of_not_le known)).trans (if_neg known).symm
    simp only [rdcntMeaning, ssrc_ctxOf, block_ctxOf]
    rw [show (g.ssval a).toNat = n from rfl, show (s.blockOf g).core = k from rfl, value]
    rfl
  · intro active used
    have isUsed : topoUses sel.toNat = used := topoUses_eq sel
    refine ⟨fun fits => ?_, fun bad => ?_⟩
    · refine ends_of_ok (exec_qtopo c d sel b) active ?_
      simp only [qtopoMeaning, ssrc_ctxOf, block_ctxOf, isUsed]
      rw [if_neg (not_not.2 fits)]
      rfl
    · refine exec_fail (exec_qtopo c d sel b) active ?_
      simp only [qtopoMeaning, ssrc_ctxOf, isUsed]
      exact if_pos bad

/-! ## Invalidation and context switching (R328 to R330, R414) -/

theorem tlbinv_va (a b : Word) : tlbinvBad .va a b =
    if canonical a = false then some { cause := 0x11, addr := a } else if a.toNat % 65536 ≠ 0 then some { cause := 0x38, info := 1 }
    else if 1 ≤ b.toNat ∧ b.toNat ≤ 2 ^ 20 then none else some { cause := 0x38, info := 2 } := by
  simp only [tlbinvBad, Bool.not_eq_true', bne_iff_ne, Bool.and_eq_true, decide_eq_true_eq]

theorem tlbinv_gpa (a b : Word) : tlbinvBad .gpa a b =
    if a.toNat % 65536 ≠ 0 ∨ 2 ^ 52 ≤ a.toNat then some { cause := 0x38, info := 1 }
    else if 1 ≤ b.toNat ∧ b.toNat ≤ 2 ^ 20 then none else some { cause := 0x38, info := 2 } := by
  simp only [tlbinvBad, Bool.or_eq_true, bne_iff_ne, Bool.and_eq_true, decide_eq_true_eq]

theorem tlbinv_wide (scope : Scope) (h : scope = .ctx ∨ scope = .all) (a b : Word) : tlbinvBad scope a b =
    if a ≠ 0 then some { cause := 0x38, info := 1 } else if b ≠ 0 then some { cause := 0x38, info := 2 } else none := by
  rcases h with rfl | rfl <;> simp only [tlbinvBad, bne_iff_ne]

/-- The image addresses that CTXSV and CTXLD take (R328). -/
theorem imageBad_far {a : Word} (far : canonical a = false) : imageBad a = some { cause := 0x11, addr := a } := by simp [imageBad, far]

theorem imageBad_odd {a : Word} (canon : canonical a = true) (odd : a.toNat % 128 ≠ 0) : imageBad a = some { cause := 0x38 } := by
  simp [imageBad, canon, odd]

theorem imageBad_none {a : Word} (canon : canonical a = true) (even : a.toNat % 128 = 0) : imageBad a = none := by simp [imageBad, canon, even]

theorem sequence_bad {ph : Phase} {a : Word} {f : Nat → Die → Die} {t : TrapInfo} (bad : imageBad a = some t) :
    (ctxOf s gid g c).sequence ph a f = (ctxOf s gid g c).fail t := by
  simp only [Ctx.sequence, bad]

theorem sequence_launch {ph : Phase} {a : Word} {f : Nat → Die → Die} {P l : Nat} (good : imageBad a = none)
    (isPart : s.partOfDie (coreDie (s.blockOf g).core) = some P) (named : commanded s P ph a = some l) :
    (ctxOf s gid g c).sequence ph a f = .ok (s.tickSeq.modDie (coreDie (s.blockOf g).core) (f l)) .seq 0 := by
  have isPart' : (ctxOf s gid g c).s.partOfDie (coreDie (s.blockOf g).core) = some P := isPart
  have named' : commanded (ctxOf s gid g c).s P ph a = some l := named
  simp only [Ctx.sequence, good, block_ctxOf, isPart', named']
  rfl

theorem sequence_idle {ph : Phase} {a : Word} {f : Nat → Die → Die} {P : Nat} (good : imageBad a = none)
    (isPart : s.partOfDie (coreDie (s.blockOf g).core) = some P) (unnamed : commanded s P ph a = none) :
    (ctxOf s gid g c).sequence ph a f = .ok (s.tickSeq.modPart P (fun q => { q with mode := 2 })) .seq 0 := by
  have isPart' : (ctxOf s gid g c).s.partOfDie (coreDie (s.blockOf g).core) = some P := isPart
  have unnamed' : commanded (ctxOf s gid g c).s P ph a = none := unnamed
  simp only [Ctx.sequence, good, block_ctxOf, isPart', unnamed']
  rfl

/-- What CTXSV and CTXLD answer, by their address and the command that waits. -/
theorem exec_sequence {i : Instr} {a : SReg} {ph : Phase} {f : Nat → Die → Die}
    (meaning : ∀ s, exec i s = issue i c false (fun x => x.sequence ph (x.sreg a) f) s) (active : Active s gid g c i) :
    let v := g.sval a
    let p := coreDie (s.blockOf g).core
    ((canonical v = false → exec i s = .next (s.tickSeq.syncTrap gid { cause := 0x11, addr := v })) ∧
      (canonical v = true → v.toNat % 128 ≠ 0 → exec i s = .next (s.tickSeq.syncTrap gid { cause := 0x38 }))) ∧
    (canonical v = true → v.toNat % 128 = 0 → ∀ P, s.partOfDie p = some P →
      (∀ l, commanded s P ph v = some l → Ends s gid g c i (s.tickSeq.modDie p (f l)) .seq 0) ∧
      (commanded s P ph v = none → Ends s gid g c i (s.tickSeq.modPart P (fun q => { q with mode := 2 })) .seq 0)) := by
  intro v p
  exact ⟨⟨fun far => exec_fail meaning active (sequence_bad (imageBad_far far)),
      fun canon odd => exec_fail meaning active (sequence_bad (imageBad_odd canon odd))⟩,
    fun canon even P isPart => ⟨fun l named => ends_of_ok meaning active (sequence_launch (imageBad_none canon even) isPart named),
      fun unnamed => ends_of_ok meaning active (sequence_idle (imageBad_none canon even) isPart unnamed)⟩⟩

end

/-- Settles O40: the system instructions, each with the operands that it refuses. -/
theorem systemInstructions : Obligations.SystemInstructions := by
  refine ⟨?_, ?_, ?_⟩
  · intro s gid g c d a b q p t
    refine ⟨fun active => ?_, fun active => ⟨fun sel => ?_, fun bad => ?_⟩, fun active => ⟨fun zero => ?_, fun other => ?_⟩⟩
    · refine ends_of_ok (exec_lnch c a) active ?_
      rw [lnchMeaning, block_ctxOf]
      rfl
    · refine ends_of_ok (exec_mbxrd c d q) active ?_
      simp only [mbxrdMeaning, ssrc_ctxOf, block_ctxOf]
      rw [if_neg (Nat.not_lt.2 sel)]
      rfl
    · refine exec_fail (exec_mbxrd c d q) active ?_
      simp only [mbxrdMeaning, ssrc_ctxOf]
      exact if_pos bad
    · refine ends_of_ok (exec_mbxwr c a b) active ?_
      simp only [mbxwrMeaning, sreg_ctxOf, block_ctxOf]
      rw [if_neg (not_not.2 zero)]
      rfl
    · exact exec_fail (exec_mbxwr c a b) active (if_pos other)
  · intro s gid g c scope host gctx a b t v p bad starts
    refine ⟨fun active => ⟨fun good => ?_, fun e refused => ?_⟩, fun active => ?_, fun active => ?_⟩
    · refine ends_of_ok (exec_tlbinv c scope host gctx a b) active ?_
      simp only [tlbinvMeaning, sreg_ctxOf, ssrc_ctxOf]
      rw [good]
      rfl
    · refine exec_fail (exec_tlbinv c scope host gctx a b) active ?_
      simp only [tlbinvMeaning, sreg_ctxOf, ssrc_ctxOf]
      rw [refused]
    · exact exec_sequence (ph := .preempting) (f := fun l d => { d with save := some l }) (fun _ => rfl) active
    · exact exec_sequence (ph := .restoring) (f := fun l d => { d with load := some l }) (fun _ => rfl) active
  · intro a b pages one two
    exact ⟨tlbinv_va a b, tlbinv_gpa a b, tlbinv_wide .ctx (.inl rfl) a b, tlbinv_wide .all (.inr rfl) a b⟩

end Sys2Proof.Machine

/-! What a commit writes, and what reads of earlier steps still find (R75, R81, R92, R100). -/

namespace Sys2Proof.Machine
open State

/-! ## Words kept whole (R81) -/

/-- What a commit keeps of a word. -/
def keptOf (m : Table Byte) (j w : Nat) : List (Nat × Nat × Byte) := (List.range 4).map (fun i => (j, w + i, rd8 m (w + i)))

theorem keepWords_fields (lid j : Nat) (ws : List Nat) (s : State) {l : Launch} (isLaunch : s.launch? lid = some l) :
    (ws.foldl (keepWord lid j) s).mem = s.mem ∧
      (ws.foldl (keepWord lid j) s).launch? lid = some { l with undo := ws.reverse.flatMap (keptOf s.mem j) ++ l.undo } := by
  induction ws generalizing s l with
  | nil => exact ⟨rfl, isLaunch⟩
  | cons w ws ih =>
    have kept : (keepWord lid j s w).launch? lid = some { l with undo := keptOf s.mem j w ++ l.undo } := by
      rw [keepWord, launch_modLaunch, if_pos rfl, isLaunch]
      rfl
    obtain ⟨sameMem, isNext⟩ := ih (keepWord lid j s w) kept
    refine ⟨sameMem, ?_⟩
    rw [List.foldl_cons, isNext]
    simp only [List.reverse_cons, List.flatMap_append, List.flatMap_cons, List.flatMap_nil, List.append_nil, List.append_assoc]
    rfl

theorem keepWords_mem (lid j : Nat) (ws : List Nat) (s : State) : (ws.foldl (keepWord lid j) s).mem = s.mem := by
  induction ws generalizing s with
  | nil => rfl
  | cons w ws ih => exact ih (keepWord lid j s w)

/-- What a commit keeps of all the words that its bytes touch. -/
def keptBytes (m : Table Byte) (j key n : Nat) : List (Nat × Nat × Byte) := (wordsAt key n).reverse.flatMap (keptOf m j)

theorem keptBytes_spec {m : Table Byte} {j key n : Nat} {e : Nat × Nat × Byte} (h : e ∈ keptBytes m j key n) : e.1 = j ∧ e.2.2 = rd8 m e.2.1 := by
  obtain ⟨w, -, isIn⟩ := List.mem_flatMap.1 h
  obtain ⟨i, -, rfl⟩ := List.mem_map.1 isIn
  exact ⟨rfl, rfl⟩

/-- Every byte that the commit writes is kept. -/
theorem keptBytes_covers (m : Table Byte) (j : Nat) {key n k : Nat} (low : key ≤ k) (high : k < key + n) : ∃ e ∈ keptBytes m j key n, e.2.1 = k := by
  refine ⟨(j, k / 4 * 4 + k % 4, rd8 m (k / 4 * 4 + k % 4)), List.mem_flatMap.2 ⟨k / 4 * 4, ?_, ?_⟩, by simp only; omega⟩
  · rw [List.mem_reverse, wordsAt, List.mem_map]
    exact ⟨k / 4 - key / 4, List.mem_range.2 (by omega), by omega⟩
  · exact List.mem_map.2 ⟨k % 4, List.mem_range.2 (by omega), rfl⟩

theorem putLU_mem (s : State) (lid j key : Nat) (bs : List Byte) : (putLU s lid j key bs).mem = wrL s.mem key bs := by
  simp only [putLU, keepWords_mem]

theorem putLU_launch {s : State} {lid : Nat} {l : Launch} (isLaunch : s.launch? lid = some l) (j key : Nat) (bs : List Byte) :
    (putLU s lid j key bs).launch? lid = some { l with undo := keptBytes s.mem j key bs.length ++ l.undo } :=
  (keepWords_fields lid j (wordsAt key bs.length) s isLaunch).2

/-! ## Reads of earlier steps -/

/-- What a launch kept of a byte for reads as of commit `n`. -/
def undoFor (undo : List (Nat × Nat × Byte)) (n k : Nat) : List (Nat × Nat × Byte) := undo.filter (fun e => e.2.1 == k && decide (n ≤ e.1))

theorem mem_undoFor {undo : List (Nat × Nat × Byte)} {n k : Nat} {e : Nat × Nat × Byte} :
    e ∈ undoFor undo n k ↔ e ∈ undo ∧ e.2.1 = k ∧ n ≤ e.1 := by
  simp [undoFor, List.mem_filter]

theorem byteAsOf_eq (l : Launch) (m : Table Byte) (n k : Nat) : byteAsOf l m n k = ((undoFor l.undo n k).getLast?.map (fun e => e.2.2)).getD (rd8 m k) := by
  unfold byteAsOf undoFor
  split <;> simp [*]

theorem byteAsOf_kept_none {l : Launch} {m : Table Byte} {n k : Nat} (none : undoFor l.undo n k = []) : byteAsOf l m n k = rd8 m k := by
  rw [byteAsOf_eq, none]
  rfl

theorem undoFor_nil {undo : List (Nat × Nat × Byte)} {n k : Nat} (h : ∀ e ∈ undo, e.2.1 = k → e.1 < n) : undoFor undo n k = [] := by
  rw [List.eq_nil_iff_forall_not_mem]
  intro e isIn
  obtain ⟨isIn, here, late⟩ := mem_undoFor.1 isIn
  exact absurd (h e isIn here) (by omega)

section
variable {l : Launch} {m m' : Table Byte} {new : List (Nat × Nat × Byte)} {j : Nat}

/-- A read as of an earlier commit finds what it found before: the bytes that changed since were kept first. -/
theorem byteAsOf_earlier (isNew : ∀ e ∈ new, e.1 = j ∧ e.2.2 = rd8 m e.2.1) {n k : Nat} (changed : rd8 m' k = rd8 m k ∨ ∃ e ∈ new, e.2.1 = k)
    (early : n ≤ j) : byteAsOf { l with undo := new ++ l.undo } m' n k = byteAsOf l m n k := by
  have split : undoFor (new ++ l.undo) n k = undoFor new n k ++ undoFor l.undo n k := List.filter_append ..
  rw [byteAsOf_eq, byteAsOf_eq, split]
  by_cases old : undoFor l.undo n k = []
  · rw [old, List.append_nil]
    cases last : (undoFor new n k).getLast? with
    | none =>
      refine changed.resolve_right ?_
      rintro ⟨e, isIn, here⟩
      have kept : e ∈ undoFor new n k := mem_undoFor.2 ⟨isIn, here, by rw [(isNew e isIn).1]; exact early⟩
      rw [List.getLast?_eq_none_iff.1 last] at kept
      cases kept
    | some e =>
      obtain ⟨isIn, here, -⟩ := mem_undoFor.1 (List.mem_of_getLast? last)
      simp [(isNew e isIn).2, here]
  · rw [List.getLast?_append_of_ne_nil _ old]
    obtain ⟨e, isLast⟩ := Option.ne_none_iff_exists'.1 (mt List.getLast?_eq_none_iff.1 old)
    rw [isLast]
    rfl

/-- A read as of a later commit finds what memory holds. -/
theorem byteAsOf_later (isNew : ∀ e ∈ new, e.1 = j ∧ e.2.2 = rd8 m e.2.1) {n k : Nat} (late : j < n) (older : ∀ e ∈ l.undo, e.2.1 = k → e.1 < n) :
    byteAsOf { l with undo := new ++ l.undo } m' n k = rd8 m' k := by
  refine byteAsOf_kept_none (undoFor_nil fun e isIn here => ?_)
  rcases List.mem_append.1 isIn with isIn | isIn
  · rw [(isNew e isIn).1]
    exact late
  · exact older e isIn here

end

/-! ## Collisions without a log (R92) -/

theorem sendCollision_mem (s : State) (hits : List LogRec) (r : LogRec) (lost : Bool) : (sendCollision s hits r lost).mem = s.mem := by
  have each : ∀ (n : Notice) (gs : List Nat) (s : State), (gs.foldl (fun s g =>
      s.modAnyGroup g (fun x => if x.retired || hasTaken hits g n x then x else { x with notices := mergeNotice n x.notices })) s).mem = s.mem := by
    intro n gs
    induction gs with
    | nil => intro s; rfl
    | cons g gs ih =>
      intro s
      rw [List.foldl_cons, ih, modAnyGroup_mem]
  exact each _ _ _

theorem reportCollision_unlogged {s : State} {lid : Nat} {l : Launch} (isLaunch : s.launch? lid = some l) (unlogged : l.header.log = 0) (j : Nat)
    (r : LogRec) : (reportCollision s lid j r).mem = s.mem := by
  have noLog : logAppend s lid j l r = (false, s) := by rw [logAppend]; exact if_pos unlogged
  simp only [reportCollision, isLaunch, noLog]
  split
  · exact sendCollision_mem ..
  · exact sendCollision_mem ..

/-- Settles O48: a commit writes its unit, and reads of earlier steps still find what they found. -/
theorem committedBytes : Obligations.CommittedBytes := by
  refine ⟨?_, ?_⟩
  · intro s lid j u ws order r t
    refine ⟨fun fine => ?_, fun l isLaunch unlogged hit => ?_⟩
    · have isMem : t.mem = wrL s.mem u.1 (leBytes (unitBytes u) r.val.toNat) := by
        have fine' : (resolve (unitOld s.mem u) ws order s.free).hit = false := fine
        simp only [t, applyUnit, fine', Bool.false_eq_true, if_false]
        exact putLU_mem ..
      refine ⟨fun i hi => ?_, fun k outside => ?_⟩
      · rw [isMem, rd8_wrL _ _ _ (by rwa [length_leBytes]), getElem?_leBytes _ hi]
        rfl
      · rw [isMem, rd8_wrL_other _ _ _ _ (by rwa [length_leBytes])]
    · have hit' : (resolve (unitOld s.mem u) ws order s.free).hit = true := hit
      simp only [t, applyUnit, hit', if_true]
      exact reportCollision_unlogged (s := { s with free := s.free + 2 }) isLaunch unlogged j _
  · intro s lid j key l bs isLaunch t
    have isMem : t.mem = wrL s.mem key bs := putLU_mem ..
    have isNew := fun (e : Nat × Nat × Byte) (h : e ∈ keptBytes s.mem j key bs.length) => keptBytes_spec h
    have changed : ∀ k, rd8 t.mem k = rd8 s.mem k ∨ ∃ e ∈ keptBytes s.mem j key bs.length, e.2.1 = k := by
      intro k
      by_cases inside : key ≤ k ∧ k < key + bs.length
      · exact .inr (keptBytes_covers _ _ inside.1 inside.2)
      · exact .inl (by rw [isMem, rd8_wrL_other _ _ _ _ (by omega)])
    refine ⟨fun i hi => by rw [isMem, rd8_wrL _ _ _ hi], fun k outside => by rw [isMem, rd8_wrL_other _ _ _ _ outside],
      _, putLU_launch isLaunch j key bs, fun e he => List.mem_append_right _ he, fun n k early => byteAsOf_earlier isNew (changed k) early,
      fun n k late older => byteAsOf_later isNew late older, fun w i n word _ _ hi early older => ?_⟩
    rw [byteAsOf_earlier isNew (changed (w + i)) early]
    refine byteAsOf_kept_none (undoFor_nil fun e isIn here => older e isIn ?_)
    omega

end Sys2Proof.Machine

/-! The events of a launch from its posting to its completion (R27 to R38, R355 to R357, R360). -/

namespace Sys2Proof.Machine
open State

/-! ## Posting (R32, R33, R264, R266) -/

/-- The partition's staging area with a packet's last doubleword (R264, R266). -/
def stagePacket (guest : Option (BitVec 3)) (data : BitVec 64) (P : Part) : Part :=
  match guest with
  | none => { P with lpkt := ((List.range 8).zip (leBytes 8 data.toNat)).foldl (fun t e => tput 0 t (56 + e.1) e.2) P.lpkt }
  | some g => { P with vlpkt := ((List.range 8).zip (leBytes 8 data.toNat)).foldl (fun t e => tput 0 t (64 * g.toNat + 56 + e.1) e.2) P.vlpkt }

theorem exec_post {s : State} {part : Nat} {P : Part} (isPart : s.part? part = some P) (guest : Option (BitVec 3)) (data : BitVec 64) :
    exec (.launchPacketPost part guest data) s =
      if !P.ideUp then .next (answer s part (.bar guest 0x78) .unsupported)
      else if P.fatal then .next (s.modPart part (stagePacket guest data))
      else .next (postPacket (s.modPart part (stagePacket guest data)) part P (packetBytes P guest data)) := by
  change execLaunchPacketPost part guest data s = _
  simp only [execLaunchPacketPost, isPart]
  cases guest <;> rfl

theorem packetBytes_host (P : Part) (data : BitVec 64) :
    packetBytes P none data = (List.range 56).map (fun i => tget 0 P.lpkt i) ++ leBytes 8 data.toNat := by
  simp only [packetBytes, Nat.zero_add]

/-- The bytes that a guest has staged, before its number is put in. -/
def guestBytes (P : Part) (g : BitVec 3) (data : BitVec 64) : List Byte :=
  (List.range 56).map (fun i => tget 0 P.vlpkt (64 * g.toNat + i)) ++ leBytes 8 data.toNat

theorem packetBytes_guest (P : Part) (g : BitVec 3) (data : BitVec 64) :
    packetBytes P (some g) data = (guestBytes P g data).take 12 ++ [g.zeroExtend 8] ++ (guestBytes P g data).drop 13 := rfl

theorem length_guestBytes (P : Part) (g : BitVec 3) (data : BitVec 64) : (guestBytes P g data).length = 64 := by
  simp [guestBytes]

theorem guestBytes_get (P : Part) (g : BitVec 3) (data : BitVec 64) {i : Nat} (h : i < 56) :
    (guestBytes P g data)[i]? = some (tget 0 P.vlpkt (64 * g.toNat + i)) := by
  simp [guestBytes, List.getElem?_append, h]

theorem packetBytes_number (P : Part) (g : BitVec 3) (data : BitVec 64) : (packetBytes P (some g) data)[12]? = some (g.zeroExtend 8) := by
  simp [packetBytes_guest, length_guestBytes]

theorem packetBytes_staged (P : Part) (g : BitVec 3) (data : BitVec 64) {i : Nat} (h : i < 56) (other : i ≠ 12) :
    (packetBytes P (some g) data)[i]? = some (tget 0 P.vlpkt (64 * g.toNat + i)) := by
  rw [← guestBytes_get P g data h, packetBytes_guest, List.append_assoc]
  by_cases low : i < 12
  · rw [List.getElem?_append_left (by simp [length_guestBytes]; omega), List.getElem?_take_of_lt low]
  · rw [List.getElem?_append_right (by simp [length_guestBytes]; omega), List.getElem?_append_right (by simp [length_guestBytes]; omega),
      List.getElem?_drop]
    simp only [List.length_take, length_guestBytes, List.length_singleton]
    congr 1
    omega

/-! ## A posted packet (R33, R357, R360) -/

section
variable {s : State} {p : Nat} {P : Part} {bs : List Byte}

/-- The launch that a packet posts. -/
def postedLaunch (p : Nat) (bs : List Byte) (prio : Nat) (preds : List (BitVec 32)) : Launch :=
  Launch.fresh (BitVec.ofNat 32 (fieldN bs 8 4)) p (fieldN bs 12 1) (BitVec.ofNat 64 (fieldN bs 0 8)) prio preds

/-- A packet rejected with its first offending byte. -/
def rejectedPacket (p : Nat) (bs : List Byte) (u : State) (byte : Nat) : State :=
  (addLaunch u (postedLaunch p bs 0 [])).2.reject u.fresh 0 byte

/-- The state once the mailbox has walked to the bytes of the header that it reads (R27, R200). -/
def postingWalks (s : State) (P : Part) (bs : List Byte) : State :=
  let va := BitVec.ofNat 64 (fieldN bs 0 8)
  (s.walked P (some (fieldN bs 12 1)) (va + 73) 2).walked P (some (fieldN bs 12 1)) (va + 88) 16

/-- The partition knows an open launch of the packet's identifier. -/
def knownPacket (s : State) (p : Nat) (bs : List Byte) : Bool :=
  s.launches.any (fun e => e.2.part == p && e.2.ident == BitVec.ofNat 32 (fieldN bs 8 4) && e.2.open_)

theorem postPacket_known {Q : Part} (known : knownPacket s p bs = true) (isPart : s.part? p = some Q) :
    postPacket s p P bs =
      s.ringAdd Q Q.lrring (leBytes 4 (BitVec.ofNat 32 (fieldN bs 8 4)).toNat ++ [2#8, 0#8] ++ leBytes 2 8 ++ leBytes 8 (2 ^ 64 - 1)) := by
  refine (if_pos known).trans ?_
  simp only [recordPacket, isPart]

theorem postPacket_bad {i : Nat} (new : knownPacket s p bs = false) (bad : packetBad bs = some i) :
    postPacket s p P bs = rejectedPacket p bs s i := by
  refine (if_neg (ne_true_of_eq_false new)).trans ?_
  simp only [bad]
  rfl

theorem postPacket_unread (new : knownPacket s p bs = false) (good : packetBad bs = none)
    (unread : readPosting (postingWalks s P bs) P (fieldN bs 12 1) (BitVec.ofNat 64 (fieldN bs 0 8)) = none) :
    postPacket s p P bs = rejectedPacket p bs (postingWalks s P bs) 0 := by
  refine (if_neg (ne_true_of_eq_false new)).trans ?_
  unfold postingWalks at unread
  simp only [good, unread]
  rfl

/-- The predecessors that a header names (R27). -/
def postedPreds (h : List Byte) : List (BitVec 32) := (List.range (fieldN h 1 1)).map (fun i => BitVec.ofNat 32 (fieldN h (2 + 4 * i) 4))

/-- A packet whose header is read, by the priority and the number of predecessors that the header gives. -/
theorem postPacket_read {h : List Byte} (new : knownPacket s p bs = false) (good : packetBad bs = none)
    (read : readPosting (postingWalks s P bs) P (fieldN bs 12 1) (BitVec.ofNat 64 (fieldN bs 0 8)) = some h) :
    let w := postingWalks s P bs
    let u := (addLaunch w (postedLaunch p bs (fieldN h 0 1) (postedPreds h))).2
    postPacket s p P bs = if 4 ≤ fieldN h 0 1 then rejectedPacket p bs w 73 else if 5 ≤ fieldN h 1 1 then rejectedPacket p bs w 74
      else State.rejectFollowers u.launches.length u := by
  refine (if_neg (ne_true_of_eq_false new)).trans ?_
  unfold postingWalks at read
  simp only [good, read]
  rfl

theorem launch_addLaunch (s : State) (l : Launch) : (addLaunch s l).2.launch? s.fresh = some { l with order := s.fresh } := tfind_tset_same _ _ _

end

/-! ## Broadcast (R33, R262, R360) -/

section
variable {s : State} {lid : Nat} {l : Launch} {P : Part}

theorem broadcast_posted (isLaunch : s.launch? lid = some l) (isPart : s.part? l.part = some P) (may : mayStart s lid l = true)
    (posted : l.phase = .posted) : exec (.launchBroadcast lid) s =
      .next (mailAll (s.modLaunch lid (fun l => { l with phase := .broadcast })) P ⟨0, lid, l.hdrVa, 0⟩) := by
  change execLaunchBroadcast lid s = _
  have fresh : (l.phase == .saved) = false := by rw [posted]; rfl
  simp only [execLaunchBroadcast, isLaunch, isPart, may, fresh, Bool.not_true, Bool.false_eq_true, if_false]

theorem broadcast_saved (isLaunch : s.launch? lid = some l) (isPart : s.part? l.part = some P) (may : mayStart s lid l = true)
    (saved : l.phase = .saved) : exec (.launchBroadcast lid) s = .next (beginRestore s lid l.part P l.image) := by
  change execLaunchBroadcast lid s = _
  have back : (l.phase == .saved) = true := by rw [saved]; rfl
  simp only [execLaunchBroadcast, isLaunch, isPart, may, back, Bool.not_true, Bool.false_eq_true, if_false, if_true]

end

/-- A die's mailbox takes in what it has room for, and no item is lost. -/
theorem letIn_items (d : Die) : d.letIn.mbox ++ d.letIn.inbound = d.mbox ++ d.inbound := by
  simp only [Die.letIn, List.append_assoc, List.take_append_drop]

theorem letIn_length {d : Die} (fits : d.mbox.length ≤ 16) : d.letIn.mbox.length = min 16 (d.mbox.length + d.inbound.length) := by
  simp only [Die.letIn, List.length_append, List.length_take, show Config.mailboxItems = 16 from rfl]
  omega

/-! ## The launch unit (R27 to R29, R31, R35, R356) -/

section
variable {s : State} {die p lid : Nat} {q : Packet} {qs : List Packet} {P : Part} {l : Launch}

theorem exec_unitPlace (isQueue : (s.die die).launchq = q :: qs) (onPart : s.partOfDie die = some p) (stands : packetLaunch s die p q = some lid)
    (isPart : s.part? p = some P) (isLaunch : s.launch? lid = some l) :
    exec (.launchUnitPlace die) s = .next (unitPlace s die lid P l q) := by
  change execLaunchUnitPlace die s = _
  simp only [execLaunchUnitPlace, isQueue, onPart, stands, isPart, isLaunch]

/-- The root blocks of a die. -/
def unitCount (s : State) (die : Nat) (P : Part) (bs : List Byte) : Nat := (Hdr.mk bs).rootCount (s.logDie P die) (s.dieCount P)

theorem unitRoots_waits (bs : List Byte) (busy : cpywOn s die = true) : unitRoots s die lid P l q bs = s := if_pos busy

theorem unitRoots_full {bs : List Byte} (idle : cpywOn s die = false) (full : dieRoom s die ⟨bs⟩ < unitCount s die P bs) :
    unitRoots s die lid P l q bs = reportDie s die lid (some 44) :=
  (if_neg (ne_true_of_eq_false idle)).trans (if_pos full)

theorem unitRoots_placed {bs : List Byte} {t : State} (idle : cpywOn s die = false) (room : unitCount s die P bs ≤ dieRoom s die ⟨bs⟩)
    (placed : placeRoots die lid { l with hdr := bs, hdrVa := q.hdr, guest := (q.word.extractLsb' 32 8).toNat } (s.logDie P die) (s.dieCount P)
      (List.range (unitCount s die P bs)) s = some t) : unitRoots s die lid P l q bs = reportDie t die lid none := by
  unfold unitCount at room placed
  refine (if_neg (ne_true_of_eq_false idle)).trans ((if_neg (Nat.not_lt.2 room)).trans ?_)
  simp only [placed]

theorem unitPlace_read {bs : List Byte} (read : q.read = some bs) : unitPlace s die lid P l q = unitRoots s die lid P l q bs := by
  simp only [unitPlace, read]

theorem unitPlace_refused {byte : Nat} (unread : q.read = none) (refused : unitCheck s P q = .error byte) :
    unitPlace s die lid P l q = reportDie (unitWalks s P q) die lid (some byte) := by
  simp only [unitPlace, unread, refused]

theorem unitPlace_good {bs : List Byte} (unread : q.read = none) (good : unitCheck s P q = .ok bs) :
    unitPlace s die lid P l q = unitRoots (keepHeader (unitWalks s P q) die lid q bs) die lid P l q bs := by
  simp only [unitPlace, unread, good]

/-- The fields of a packet let its header be read (R356). -/
structure PacketFits (q : Packet) : Prop where
  guest : (q.word.extractLsb' 32 8).toNat < 8
  zero : q.word.extractLsb' 40 24 = 0#24
  aligned : q.hdr.toNat % 128 = 0
  canon : canonical q.hdr = true

theorem unitCheck_unread (fits : PacketFits q) (unread : s.readVa P (some (q.word.extractLsb' 32 8).toNat) q.hdr 128 = none) :
    unitCheck s P q = .error 0 := by
  have fields : (q.hdr.toNat % 128 != 0 || !canonical q.hdr) = false := by simp [fits.aligned, fits.canon]
  simp only [unitCheck, Nat.not_le.2 fits.guest, fits.zero, bne_self_eq_false, fields, Bool.false_eq_true, if_false, unread]

theorem unitCheck_limit {bs : List Byte} {off : Nat} (fits : PacketFits q)
    (read : s.readVa P (some (q.word.extractLsb' 32 8).toNat) q.hdr 128 = some bs)
    (bad : firstField ((Hdr.mk bs).limits (entryRuns s P (q.word.extractLsb' 32 8).toNat (Hdr.mk bs).entry)) = some off) :
    unitCheck s P q = .error off := by
  have fields : (q.hdr.toNat % 128 != 0 || !canonical q.hdr) = false := by simp [fits.aligned, fits.canon]
  simp only [unitCheck, Nat.not_le.2 fits.guest, fits.zero, bne_self_eq_false, fields, Bool.false_eq_true, if_false, read, bad]

theorem unitCheck_ok {bs : List Byte} (fits : PacketFits q) (read : s.readVa P (some (q.word.extractLsb' 32 8).toNat) q.hdr 128 = some bs)
    (good : firstField ((Hdr.mk bs).limits (entryRuns s P (q.word.extractLsb' 32 8).toNat (Hdr.mk bs).entry)) = none) :
    unitCheck s P q = .ok bs := by
  have fields : (q.hdr.toNat % 128 != 0 || !canonical q.hdr) = false := by simp [fits.aligned, fits.canon]
  simp only [unitCheck, Nat.not_le.2 fits.guest, fits.zero, bne_self_eq_false, fields, Bool.false_eq_true, if_false, read, good]

theorem unitCheck_guest (far : 8 ≤ (q.word.extractLsb' 32 8).toNat) : unitCheck s P q = .error 12 := if_pos far

theorem unitCheck_zero (guest : (q.word.extractLsb' 32 8).toNat < 8) (bad : q.word.extractLsb' 40 24 ≠ 0#24) : unitCheck s P q = .error 13 :=
  (if_neg (Nat.not_le.2 guest)).trans (if_pos (bne_iff_ne.2 bad))

theorem unitCheck_aligned (guest : (q.word.extractLsb' 32 8).toNat < 8) (zero : q.word.extractLsb' 40 24 = 0#24) (bad : q.hdr.toNat % 128 ≠ 0) :
    unitCheck s P q = .error 0 := by
  have fields : (q.hdr.toNat % 128 != 0 || !canonical q.hdr) = true := by simp [bad]
  simp only [unitCheck, Nat.not_le.2 guest, zero, bne_self_eq_false, fields, Bool.false_eq_true, if_false, if_true]

theorem unitWalks_none (bad : 8 ≤ (q.word.extractLsb' 32 8).toNat ∨ q.word.extractLsb' 40 24 ≠ 0#24 ∨ q.hdr.toNat % 128 ≠ 0) :
    unitWalks s P q = s := by
  refine if_pos ?_
  simp only [Bool.or_eq_true, decide_eq_true_eq, bne_iff_ne, or_assoc]
  exact bad

end

/-! ## Placement (R35, R37, R38) -/

section
variable {s : State} {k lid bits ctx : Nat} {l : Launch}

/-- The block that a root block takes (R35, R37). -/
def rootBlock (s : State) (k lid ctx : Nat) (l : Launch) : Block :=
  { core := k, slot := freeBlockSlot s k, launch := some lid, ctx := ctx, bytes := l.header.bytes, spill := l.header.spill,
    groups := (List.range l.header.groups).map (fun i => s.fresh + 1 + i), closed := 0, mem := [], pend := [], entries := [], windows := [],
    crossT := [], poison := [], moving := false, moved := false }

/-- Group `i` of a root block (R37, R38). -/
def rootGroup (s : State) (k lid bits : Nat) (l : Launch) (i : Nat) : Group :=
  let h := l.header
  newGroup s k s.fresh lid l i h.laneExtent 0 h.entry (BitVec.ofNat 64 (bits + h.groupBits h.groupFields i)) [] (h.bytes + i * h.spill)
    (((freePlanes s k (h.groups * h.tiles)).drop (i * h.tiles)).take h.tiles) []

theorem group_of_tfind {t : State} {j : Nat} {g : Group} (h : tfind t.groups j = some g) : t.group? j = some g := by
  simp only [State.group?, h]

theorem placeRoot_block (room : s.ctxFor k lid = some ctx) :
    (placeRoot s k lid l bits).block? s.fresh = some (rootBlock s k lid ctx l) := by
  simp only [placeRoot, placeBlock, room, State.block?, tfind_tset_same]
  rfl

theorem placeRoot_group (room : s.ctxFor k lid = some ctx) {i : Nat} (h : i < l.header.groups) :
    (placeRoot s k lid l bits).group? (s.fresh + 1 + i) = some (rootGroup s k lid bits l i) := by
  simp only [placeRoot, placeBlock, room]
  exact group_of_tfind (tfind_puts l.header.groups (fun i => rootGroup s k lid bits l i) (s.fresh + 1) _ h)

end

/-! ## Start and completion (R29, R36, R357) -/

section
variable {s : State} {lid : Nat} {l : Launch} {P : Part}

theorem launchStart_good (isLaunch : s.launch? lid = some l) (isPart : s.part? l.part = some P) (sent : l.phase = .broadcast)
    (all : allReported s P l = true) (good : ∀ r ∈ l.reports, r.2 = none) : exec (.launchStart lid) s =
      .next ((s.modLaunch lid (fun l => { l with phase := .stepping, sinceTick := s.tick, startTick := s.tick, since := [] })).record lid 0 0xFF 0xFFFF) := by
  change execLaunchStart lid s = _
  have ready : (l.phase != .broadcast || !allReported s P l) = false := by rw [sent, all]; rfl
  simp only [execLaunchStart, isLaunch, isPart, ready, Bool.false_eq_true, if_false, reportedByte_none good]

theorem launchStart_bad {p byte : Nat} (isLaunch : s.launch? lid = some l) (isPart : s.part? l.part = some P) (sent : l.phase = .broadcast)
    (all : allReported s P l = true) (isIn : (p, some byte) ∈ l.reports) (lowest : ∀ q b, (q, some b) ∈ l.reports → byte ≤ b) :
    exec (.launchStart lid) s = .next (((s.blocksOf lid).foldl (fun s b => s.dropBlock b) s).reject lid 0 byte) := by
  change execLaunchStart lid s = _
  have ready : (l.phase != .broadcast || !allReported s P l) = false := by rw [sent, all]; rfl
  simp only [execLaunchStart, isLaunch, isPart, ready, Bool.false_eq_true, if_false, reportedByte_lowest isIn lowest]

theorem launchComplete_done (isLaunch : s.launch? lid = some l) (steps : l.phase = .stepping) (done : allDone s lid l = true) :
    exec (.launchComplete lid) s = .next ((((s.blocksOf lid).foldl (fun s b => s.dropBlock b) s).modLaunch lid
      (fun l => { l with phase := .completed })).record lid 1 0xFF 0xFFFF) := by
  change execLaunchComplete lid s = _
  have ready : (l.phase == .stepping && allDone s lid l) = true := by rw [steps, done]; rfl
  simp only [execLaunchComplete, isLaunch, ready, if_true]

end

/-- Settles O49: a launch is posted, broadcast, placed, started and completed. -/
theorem launching : Obligations.Launching := by
  refine ⟨?_, ?_, ?_, ?_, ?_, ?_, ?_, ?_, ?_, ?_⟩
  · intro s part P guest data isPart last staged
    have isStaged : staged = s.modPart part (stagePacket guest data) := by cases guest <;> rfl
    refine ⟨fun up calm => ?_, fun up fatal => ?_, fun down => ?_⟩
    · rw [exec_post isPart, up, calm, isStaged]
      rfl
    · rw [exec_post isPart, up, fatal, isStaged]
      rfl
    · rw [exec_post isPart, down]
      rfl
  · intro P g data
    exact ⟨packetBytes_host P data, packetBytes_number P g data, fun i hi other => packetBytes_staged P g data hi other⟩
  · intro s p P bs ident guest va fresh known w rejected
    refine ⟨fun old Q isPart => postPacket_known old isPart, fun new i bad => postPacket_bad new bad,
      fun new good unread => postPacket_unread new good unread, ?_⟩
    intro new good h read n preds u
    have run := postPacket_read new good read
    refine ⟨fun high => ?_, fun low many => ?_, fun low few => ⟨?_, fun none => ?_, launch_addLaunch w _⟩⟩
    · rw [run, if_pos high]
      rfl
    · rw [run, if_neg (Nat.not_le.2 low), if_pos many]
      rfl
    · rw [run, if_neg (Nat.not_le.2 low), if_neg (Nat.not_le.2 few)]
      rfl
    · rw [run, if_neg (Nat.not_le.2 low), if_neg (Nat.not_le.2 few)]
      exact rejectFollowers_none _ none
  · intro s lid reason byte l P isLaunch isPart t
    exact rejectOne_eq isLaunch isPart reason byte
  · intro s lid l P isLaunch isPart may
    exact ⟨broadcast_posted isLaunch isPart may, broadcast_saved isLaunch isPart may⟩
  · intro s P m p isIn
    rw [die_mailAll s P m isIn]
    refine ⟨?_, fun fits => ?_⟩
    · rw [letIn_items, List.append_assoc]
    · have grown := letIn_length (d := { s.die p with inbound := (s.die p).inbound ++ [m] }) fits
      rw [List.length_append, List.length_singleton, ← Nat.add_assoc] at grown
      exact grown
  · intro s die p lid q qs P l isQueue onPart stands isPart isLaunch guest places
    have run := exec_unitPlace isQueue onPart stands isPart isLaunch
    have rooted : ∀ u bs, unitPlace s die lid P l q = unitRoots u die lid P l q bs → places u bs := by
      intro u bs isRoots
      rw [isRoots] at run
      refine ⟨fun busy => ?_, fun idle full => ?_, fun t idle room placed => ?_⟩
      · rw [run, unitRoots_waits bs busy]
      · rw [run, unitRoots_full idle full]
      · rw [run, unitRoots_placed idle room placed]
    refine ⟨fun bs read => rooted s bs (unitPlace_read read), fun unread => ⟨fun far => ?_, fun near bad => ?_, fun near zero odd => ?_, ?_⟩⟩
    · rw [run, unitPlace_refused unread (unitCheck_guest far), unitWalks_none (.inl far)]
    · rw [run, unitPlace_refused unread (unitCheck_zero near bad), unitWalks_none (.inr (.inl bad))]
    · rw [run, unitPlace_refused unread (unitCheck_aligned near zero odd), unitWalks_none (.inr (.inr odd))]
    · intro near zero aligned canon
      have fits : PacketFits q := ⟨near, zero, aligned, canon⟩
      refine ⟨fun away => ?_, fun bs read => ⟨fun off bad => ?_, fun good => ?_⟩⟩
      · rw [run, unitPlace_refused unread (unitCheck_unread fits away)]
      · rw [run, unitPlace_refused unread (unitCheck_limit fits read bad)]
      · exact rooted _ bs (unitPlace_good unread (unitCheck_ok fits read good))
  · intro s k lid bits ctx l room _ h t
    exact ⟨⟨_, placeRoot_block room, rfl, rfl, rfl, rfl, rfl, rfl, rfl, rfl⟩,
      fun i hi => ⟨_, placeRoot_group room hi, rfl, rfl, rfl, rfl, rfl, rfl, rfl, rfl⟩⟩
  · intro s lid l P isLaunch isPart sent all
    exact ⟨launchStart_good isLaunch isPart sent all, fun p byte isIn lowest => launchStart_bad isLaunch isPart sent all isIn lowest⟩
  · intro s lid l isLaunch steps done
    exact launchComplete_done isLaunch steps done

end Sys2Proof.Machine

/-! From a write's hold to the visibility of its commit (R57, R62, R72 to R75, R77, R98, R222, R239). -/

namespace Sys2Proof.Machine
open State

/-! ## Holds and arrivals (R77, R239) -/

section
variable {s : State} {lid : Nat} {l : Launch}

theorem modLaunch_congr (isLaunch : s.launch? lid = some l) {f f' : Launch → Launch} (same : f l = f' l) :
    s.modLaunch lid f = s.modLaunch lid f' := by
  have found : tfind s.launches lid = some l := isLaunch
  simp only [modLaunch, tmod, found, same]

/-- The stage of every write of an identifier, once it moves on. -/
theorem setStage_eq (isLaunch : s.launch? lid = some l) {id : Nat} {f : Stage → Option Stage} {st : Stage}
    (moves : ∀ v ∈ l.gw, v.id = id → f v.stage = some st) :
    setStage s lid id f = s.modLaunch lid (fun l => { l with gw := l.gw.map (fun v => if v.id = id then { v with stage := st } else v) }) := by
  refine modLaunch_congr isLaunch ?_
  have each : l.gw.map (fun w => if w.id = id then { w with stage := (f w.stage).getD w.stage } else w) =
      l.gw.map (fun v => if v.id = id then { v with stage := st } else v) := by
    refine List.map_congr_left fun v isIn => ?_
    by_cases mine : v.id = id
    · rw [if_pos mine, if_pos mine, moves v isIn mine]
      rfl
    · rw [if_neg mine, if_neg mine]
  simp only [each]

theorem holdExpiry_write {id c : Nat} {w : GWrite} (isLaunch : s.launch? lid = some l) (found : l.gw.find? (fun w => w.id == id) = some w)
    (held : w.stage = .held c) (passed : c + 128 ≤ s.cycle (coreDie w.core)) (only : ∀ v ∈ l.gw, v.id = id → v = w) :
    exec (.writeHoldExpiry (.write lid id)) s =
      .next (s.modLaunch lid (fun l => { l with gw := l.gw.map (fun v => if v.id = id then { v with stage := .flight } else v) })) := by
  change execWriteHoldExpiry (.write lid id) s = _
  simp only [execWriteHoldExpiry, isLaunch, Option.bind_some, found]
  rw [setStage_eq isLaunch]
  intro v isIn mine
  rw [only v isIn mine, held]
  exact if_pos passed

theorem writeArrival_flight {id : Nat} (isLaunch : s.launch? lid = some l) (flying : ∀ v ∈ l.gw, v.id = id → v.stage = .flight) :
    exec (.writeArrival lid id) s =
      .next (s.modLaunch lid (fun l => { l with gw := l.gw.map (fun v => if v.id = id then { v with stage := .parked } else v) })) := by
  change execWriteArrival lid id s = _
  rw [execWriteArrival, setStage_eq isLaunch]
  intro v isIn mine
  rw [flying v isIn mine]

end

/-- Held crossings of one cycle reach the horizon together (R370). -/
theorem takeWhile_prefix {α : Type} {p : α → Bool} {more rest : List α} (all : ∀ x ∈ more, p x = true) (stop : ∀ x ∈ rest.head?, p x = false) :
    (more ++ rest).takeWhile p = more := by
  rw [List.takeWhile_append_of_pos all]
  cases rest with
  | nil => simp
  | cons x rest => simp [stop x rfl]

theorem holdExpiry_crossing {s : State} {gid k c : Nat} {more rest : List (Nat × Nat)} {g : Group} (isGroup : s.group? gid = some g)
    (isHeld : g.heldX = (k, c) :: (more ++ rest)) (same : ∀ x ∈ more, x.2 = c) (next : ∀ x ∈ rest.head?, x.2 ≠ c)
    (passed : c + 128 ≤ s.cycle (coreDie (s.blockOf g).core)) :
    exec (.writeHoldExpiry (.crossing gid)) s =
      .next (s.setGroup gid { g with heldX := rest, reported := (more.getLast?.getD (k, c)).1 + 1 }) := by
  change execWriteHoldExpiry (.crossing gid) s = _
  have isMore : (more ++ rest).takeWhile (fun x => x.2 == c) = more :=
    takeWhile_prefix (fun x hx => by simpa using same x hx) (fun x hx => by simpa using next x hx)
  have due : c + Config.hold ≤ s.cycle (coreDie (s.blockOf g).core) := passed
  simp only [execWriteHoldExpiry, isGroup, isHeld, isMore, List.drop_left]
  exact if_pos due

/-! ## Declaration (R72, R73, R94) -/

section
variable {s : State} {lid : Nat} {l : Launch}

theorem commitDeclare_may (isLaunch : s.launch? lid = some l) (may : mayCommit s lid l = true) :
    exec (.commitDeclare lid) s = .next (s.modLaunch lid (fun x =>
      { x with
        c := l.c + 1
        gw := x.gw.filter (fun w => w.step != l.c)
        applying := x.applying ++ (l.gw.filter (fun w => w.step == l.c)).map (fun w => { w with cycle := s.tick })
        moves := x.moves.map (fun m => if (m.phase = .copied ∨ m.phase = .stopped) ∧ m.due = none then { m with due := some l.c } else m)
        dueLogs := x.dueLogs ++ x.logs.map (fun r => (l.c, r))
        logs := []
        declared := tset x.declared l.c s.tick
        since := []
        sinceTick := s.tick
        mustCommit := false })) := by
  change execCommitDeclare lid s = _
  simp only [execCommitDeclare, isLaunch]
  exact if_pos may

/-- What the conditions of R72 say of groups, writes, reads, operations and items. -/
theorem mayCommit_facts (may : mayCommit s lid l = true) :
    (∀ e ∈ s.groups, e.2.launch = some lid → counted e.2 = true → l.c < e.2.reported) ∧
    (∀ w ∈ l.gw, w.step = l.c → w.stage = .parked) ∧ readsArrived s lid l.c = true ∧
    (∀ e ∈ s.ops, ∀ g, s.group? e.2.gid = some g → g.launch = some lid → e.2.gstep = l.c → opHolds e.2 = false) ∧
    (∀ i ∈ l.items, i.step = l.c → i.arrived = true) := by
  simp only [mayCommit, Bool.and_eq_true, List.all_eq_true] at may
  obtain ⟨⟨⟨⟨⟨⟨⟨⟨-, groups⟩, -⟩, writes⟩, reads⟩, ops⟩, -⟩, items⟩, -⟩ := may
  refine ⟨fun e isIn ofLaunch counts => ?_, fun w isIn step => ?_, reads, fun e isIn g isGroup ofLaunch step => ?_, fun i isIn step => ?_⟩
  · have mine : e ∈ (groupsOf s lid ++ (savedParts s lid).flatMap (fun v => v.groups)).filter (fun e => counted e.2) :=
      List.mem_filter.2 ⟨List.mem_append_left _ (List.mem_filter.2 ⟨isIn, by simp [ofLaunch]⟩), counts⟩
    simpa using groups e mine
  · have stage := writes w isIn
    simpa [step] using stage
  · have done := ops e isIn
    simpa [step, isGroup, ofLaunch] using done
  · have there := items i isIn
    rwa [if_pos step] at there

end

/-! ## The lowest step with declared work (R75, R222) -/

theorem foldl_lower_le (ks : List Nat) : ∀ (acc : Option Nat) (j : Nat), ks.foldl lower acc = some j → (∀ a ∈ acc, j ≤ a) ∧ ∀ k ∈ ks, j ≤ k := by
  induction ks with
  | nil => rintro acc j rfl; simp
  | cons k ks ih =>
    intro acc j lowest
    obtain ⟨first, rest⟩ := ih _ _ lowest
    cases acc with
    | none => exact ⟨by simp, List.forall_mem_cons.2 ⟨first k rfl, rest⟩⟩
    | some a =>
      have both : j ≤ min a k := first _ rfl
      exact ⟨fun b hb => by cases hb; omega, List.forall_mem_cons.2 ⟨by omega, rest⟩⟩

section
variable {s : State} {lid j : Nat} {l : Launch}

theorem lowestStep_le (lowest : lowestStep s lid l = some j) :
    (∀ w ∈ l.applying, j ≤ w.step) ∧ (∀ b ∈ l.btst, b.step < l.c → j ≤ b.step) ∧ (∀ d ∈ l.dueLogs, j ≤ d.1) := by
  obtain ⟨-, all⟩ := foldl_lower_le _ _ _ lowest
  simp only [List.mem_append, or_imp, forall_and] at all
  obtain ⟨⟨⟨⟨⟨writes, rows⟩, -⟩, -⟩, logs⟩, -⟩ := all
  refine ⟨fun w isIn => writes _ (List.mem_map_of_mem isIn), fun b isIn done => rows _ ?_, fun d isIn => logs _ (List.mem_map_of_mem isIn)⟩
  exact List.mem_map_of_mem (List.mem_filter.2 ⟨isIn, decide_eq_true done⟩)

/-- A write of step `j` waits to be applied. -/
def awaits (j : Nat) (w : GWrite) : Bool := w.step == j && w.stage != .applied

/-- The writes of step `j` that wait. -/
def awaiting (l : Launch) (j : Nat) : List Write := (l.applying.filter (awaits j)).map (fun w => w.w)

/-- The unit of a word among those that wait, and a write of it. -/
def unitOfWord (l : Launch) (j word : Nat) : Nat × Bool := unitAt (wideKeys (awaiting l j)) (word / 4 * 4)

def ofUnit (l : Launch) (j word : Nat) (w : GWrite) : Bool :=
  w.step == j && w.stage != .applied && unitAt (wideKeys (awaiting l j)) w.w.key == unitOfWord l j word

theorem commitApply_word {word order : Nat} (isLaunch : s.launch? lid = some l) (lowest : lowestStep s lid l = some j)
    (some : l.applying.filter (ofUnit l j word) ≠ []) (passed : ∀ w ∈ l.applying.filter (ofUnit l j word), w.cycle + 128 ≤ s.tick) :
    exec (.commitApply lid word order) s =
      .next ((applyUnit s lid j (unitOfWord l j word) (inUnit (awaiting l j) (unitOfWord l j word)) order).modLaunch lid
        (fun x => { x with applying := x.applying.map (fun w => if ofUnit l j word w then { w with stage := .applied } else w) })) := by
  change execCommitApply lid word order s = _
  have waits : l.applying.any (fun w => w.step == j && w.stage != .applied) = true := by
    obtain ⟨w, isIn⟩ := List.exists_mem_of_ne_nil _ some
    obtain ⟨isIn, mine⟩ := List.mem_filter.1 isIn
    exact List.any_eq_true.2 ⟨w, isIn, (Bool.and_eq_true_iff.1 mine).1⟩
  have due : ((l.applying.filter (ofUnit l j word)).isEmpty ||
      !(l.applying.filter (ofUnit l j word)).all (fun w => decide (w.cycle + Config.hold ≤ s.tick))) = false := by
    rw [Bool.or_eq_false_iff, List.isEmpty_eq_false_iff, Bool.not_eq_false', List.all_eq_true]
    exact ⟨some, fun w isIn => decide_eq_true (passed w isIn)⟩
  simp only [execCommitApply, isLaunch, lowest, waits, if_true]
  exact congrArg Host.Outcome.next (if_neg (ne_true_of_eq_false due))

theorem commitApply_rest {word order : Nat} (isLaunch : s.launch? lid = some l) (lowest : lowestStep s lid l = some j)
    (none : l.applying.any (awaits j) = false) (passed : tget 0 l.declared j + 128 ≤ s.tick) :
    exec (.commitApply lid word order) s =
      .next ((applyHost (applyLogs (applyMoves (applyBtst s lid j l order) lid j l) lid j l) lid j).modLaunch lid (fun l =>
        { l with applying := l.applying.filter (fun w => decide (j < w.step)), hits := [],
                 declared := l.declared.filter (fun e => decide (j < e.1)) })) := by
  change execCommitApply lid word order s = _
  have none' : l.applying.any (fun w => w.step == j && w.stage != .applied) = false := none
  have due : ¬ s.tick < tget 0 l.declared j + Config.hold := Nat.not_lt.2 passed
  simp only [execCommitApply, isLaunch, lowest, none', Bool.false_eq_true, if_false]
  exact congrArg Host.Outcome.next (if_neg due)

/-- With no rows, moves or entries of its own, a commit's later phases change only its launch. -/
theorem laterPhases_idle {order : Nat} (noRows : ∀ b ∈ l.btst, b.step ≠ j) (noLogs : ∀ d ∈ l.dueLogs, d.1 ≠ j)
    (noMoves : ∀ m ∈ l.moves, m.due ≠ some j ∧ (m.phase = .issued → m.step ≠ j)) :
    applyLogs (applyMoves (applyBtst s lid j l order) lid j l) lid j l =
      (s.modLaunch lid (fun l => { l with btst := l.btst.filter (fun b => b.step != j) })).modLaunch lid
        (fun l => { l with dueLogs := l.dueLogs.filter (fun d => d.1 != j) }) := by
  have rows : l.btst.filter (fun b => b.step == j) = [] := List.filter_eq_nil_iff.2 fun b hb => by simpa using noRows b hb
  have due : l.moves.filter (fun m => m.due == some j) = [] := List.filter_eq_nil_iff.2 fun m hm => by simpa using (noMoves m hm).1
  have issued : l.moves.filter (fun m => m.phase == .issued && m.step == j) = [] :=
    List.filter_eq_nil_iff.2 fun m hm => by simpa using (noMoves m hm).2
  have logs : l.dueLogs.filter (fun d => d.1 == j) = [] := List.filter_eq_nil_iff.2 fun d hd => by simpa using noLogs d hd
  simp only [applyLogs, applyMoves, applyBtst, rows, due, issued, logs]
  rfl

theorem commitApply_orphan {word order : Nat} {h : HostW} {hs : List HostW} (isLaunch : s.launch? lid = some l) (idle : lowestStep s lid l = none)
    (first : s.hostw = h :: hs) (free : ∀ m ∈ h.maps, ∀ x, s.launch? m.1 = some x → x.holds = false) :
    exec (.commitApply lid word order) s = .next (landHost s h) := by
  change execCommitApply lid word order s = _
  have orphan : h.maps.all (fun m => !((s.launch? m.1).map Launch.holds).getD false) = true := by
    rw [List.all_eq_true]
    intro m isIn
    cases found : s.launch? m.1 with
    | none => rfl
    | some x => simp [free m isIn x found]
  simp only [execCommitApply, isLaunch, idle, applyOrphan, first, List.find?_cons, orphan]

end

/-! ## Host writes (R98) -/

theorem landHost_mem (s : State) (h : HostW) : (landHost s h).mem = wrL s.mem h.key h.data := rfl

/-! ## Visibility and packing (R57, R62, R74) -/

section
variable {s : State} {lid : Nat} {l : Launch}

/-- The groups that a coach house packs of a launch's items of step `j` (R62). -/
def packedGroups (l : Launch) (lid p j : Nat) : List Proto :=
  (packItems (sortItems (l.items.filter (fun i => i.die == p && i.step == j)))).map (fun g =>
    { launch := lid, entry := (g.head?.map (fun i => i.entry)).getD 0, step := j + 1, args := g.map (fun i => i.arg),
      parents := g.map (fun i => i.parent), notices := [] })

theorem packDie_protos {p j : Nat} (isLaunch : s.launch? lid = some l) :
    ((packDie s p lid j).die p).protos = (s.die p).protos ++ packedGroups l lid p j := by
  simp only [packDie, isLaunch]
  split
  · next none =>
    have none' : packedGroups l lid p j = [] := List.isEmpty_iff.1 none
    rw [none', List.append_nil, State.die_modLaunch]
  · rw [State.die_modDie, if_pos rfl]
    rfl

theorem commitVisible_die {p : Nat} (isLaunch : s.launch? lid = some l) (behind : tget 0 l.seen (placeNo (.die p)) < l.c) :
    exec (.commitVisible lid (.die p)) s = .next (packDie
      (s.modLaunch lid (fun x => { x with seen := tset x.seen (placeNo (.die p)) (tget 0 l.seen (placeNo (.die p)) + 1) })) p lid
      (tget 0 l.seen (placeNo (.die p)))) := by
  change execCommitVisible lid (.die p) s = _
  simp only [execCommitVisible, isLaunch]
  exact if_neg (Nat.not_le.2 behind)

theorem commitVisible_other {place : Place} (isLaunch : s.launch? lid = some l) (behind : tget 0 l.seen (placeNo place) < l.c)
    (other : ∀ p, place ≠ .die p) : exec (.commitVisible lid place) s =
      .next (s.modLaunch lid (fun x => { x with seen := tset x.seen (placeNo place) (tget 0 l.seen (placeNo place) + 1) })) := by
  change execCommitVisible lid place s = _
  simp only [execCommitVisible, isLaunch, if_neg (Nat.not_le.2 behind)]

end

/-- The groups that a coach house has packed so far: together they are the items, and each is of one entry and at most 32. -/
def PackedWell (gs : List (List Item)) (is : List Item) : Prop :=
  gs.flatten = is ∧ ∀ g ∈ gs, g ≠ [] ∧ g.length ≤ 32 ∧ ∀ a ∈ g, ∀ b ∈ g, a.entry = b.entry

theorem packedWell_new {gs : List (List Item)} {is : List Item} (h : PackedWell gs is) (i : Item) : PackedWell (gs ++ [[i]]) (is ++ [i]) := by
  obtain ⟨flat, each⟩ := h
  refine ⟨by simp [flat], fun g isIn => ?_⟩
  rcases List.mem_append.1 isIn with old | new
  · exact each g old
  · rw [List.mem_singleton.1 new]
    simp

theorem packedWell_grown {gs : List (List Item)} {g : List Item} {is : List Item} (h : PackedWell (gs ++ [g]) is) {i : Item}
    (same : ∀ j ∈ g.head?, j.entry = i.entry) (room : g.length < 32) : PackedWell (gs ++ [g ++ [i]]) (is ++ [i]) := by
  obtain ⟨flat, each⟩ := h
  have ofLast := each g (List.mem_append_right _ (List.mem_singleton_self _))
  obtain ⟨some, -, alike⟩ := ofLast
  refine ⟨by rw [← flat]; simp, fun x isIn => ?_⟩
  rcases List.mem_append.1 isIn with old | new
  · exact each x (List.mem_append_left _ old)
  · rw [List.mem_singleton.1 new]
    obtain ⟨j, tail, rfl⟩ := List.exists_cons_of_ne_nil some
    have asNew : ∀ a ∈ j :: tail, a.entry = i.entry := fun a ha => (alike a ha j (List.mem_cons_self ..)).trans (same j rfl)
    have all : ∀ a ∈ (j :: tail) ++ [i], a.entry = i.entry := fun a ha =>
      (List.mem_append.1 ha).elim (asNew a) (fun e => by rw [List.mem_singleton.1 e])
    exact ⟨by simp, by rw [List.length_append, List.length_singleton]; omega, fun a ha b hb => (all a ha).trans (all b hb).symm⟩

theorem packedWell_packOne {gs : List (List Item)} {is : List Item} (h : PackedWell gs is) (i : Item) : PackedWell (packOne gs i) (is ++ [i]) := by
  unfold packOne
  split
  · next g last =>
    have isGs : gs = gs.dropLast ++ [g] := (List.dropLast_append_getLast? g last).symm
    split
    · next fits =>
      rw [Bool.and_eq_true, decide_eq_true_eq] at fits
      obtain ⟨same, room⟩ := fits
      rw [isGs] at h
      refine packedWell_grown h (fun j isHead => ?_) room
      rw [show g.head? = some j from isHead] at same
      simpa using same
    · exact packedWell_new h i
  · next none =>
    rw [List.getLast?_eq_none_iff.1 none] at h
    exact packedWell_new h i

theorem packItems_well (is : List Item) : PackedWell (packItems is) is := by
  have key : ∀ (is done : List Item) (gs : List (List Item)), PackedWell gs done → PackedWell (is.foldl packOne gs) (done ++ is) := by
    intro is
    induction is with
    | nil => intro done gs h; rwa [List.append_nil]
    | cons i is ih =>
      intro done gs h
      rw [List.foldl_cons, show done ++ i :: is = (done ++ [i]) ++ is by simp]
      exact ih _ _ (packedWell_packOne h i)
  exact key is [] [] ⟨rfl, fun g h => nomatch h⟩

/-- Settles O50: writes travel, steps commit, and commits are applied and seen. -/
theorem commits : Obligations.Commits := by
  refine ⟨?_, ?_, ?_, ?_, ?_, ?_, ?_, ?_, ?_, ?_, ?_, ?_⟩
  · exact fun s lid id c l w isLaunch found held passed only => holdExpiry_write isLaunch found held passed only
  · exact fun s gid k c more rest g isGroup isHeld same next passed => holdExpiry_crossing isGroup isHeld same next passed
  · exact fun s lid id l isLaunch flying => writeArrival_flight isLaunch flying
  · exact fun s lid l isLaunch may => commitDeclare_may isLaunch may
  · exact fun s lid l may => mayCommit_facts may
  · intro s lid j word order l isLaunch lowest open_ ws u mine
    obtain ⟨writes, rows, logs⟩ := lowestStep_le lowest
    exact ⟨writes, rows, logs, commitApply_word isLaunch lowest, commitApply_rest isLaunch lowest⟩
  · intro s lid j order l noRows noLogs noMoves isLaunch t
    rw [show t = _ from laterPhases_idle noRows noLogs noMoves]
    exact ⟨rfl, rfl, rfl, rfl, rfl⟩
  · exact fun s h => ⟨fun i hi => rd8_wrL _ _ _ hi, fun k outside => rd8_wrL_other _ _ _ _ outside, rfl⟩
  · exact fun s lid j => rfl
  · exact fun s lid word order l h hs isLaunch idle first free => commitApply_orphan isLaunch idle first free
  · intro s lid place l isLaunch behind j t
    refine ⟨fun other => commitVisible_other isLaunch behind other, ?_⟩
    rintro p rfl mine protos
    refine ⟨commitVisible_die isLaunch behind, ?_⟩
    have isT : t.launch? lid = some { l with seen := tset l.seen (placeNo (.die p)) (j + 1) } := by
      rw [launch_modLaunch, if_pos rfl, isLaunch]
      rfl
    rw [packDie_protos isT]
    rfl
  · exact fun is => packItems_well is

end Sys2Proof.Machine

/-! Local closes, step overruns, tier copies and the placement of spawned groups (R61, R63, R64, R69, R70, R78, R118, R314). -/

namespace Sys2Proof.Machine
open State

/-! ## Local closes (R69, R70, R118) -/

section
variable {s : State} {b : Block}

theorem localClose_may {bid : Nat} (isBlock : s.block? bid = some b) (may : mayClose s b = true) (order : Nat) :
    let j := b.closed
    let gone := b.entries.filter (fun e => (e.ret.map (fun r => decide (r ≤ j))).getD false)
    let ls := opLayers (sortBy (fun (e : Entry) => e.seq) gone) []
    let due := (b.pend.filter (lands b j)).map (fun w => (w, layerOf ls w))
    let c := closeLayers j order (BitVec.ofNat 16 (s.logDie (s.partAt b.core) (coreDie b.core))) (BitVec.ofNat 16 (coreIdx b.core)) b due s.free
    let closed : Block :=
      { b with
        mem := c.mem
        poison := c.poison
        closed := j + 1
        pend := b.pend.filter (fun w => !lands b j w)
        entries := b.entries.filter (fun e => !gone.contains e)
        windows := b.windows.filter (fun w => !gone.any (fun e => e.op == w.op))
        crossT := b.crossT.filter (fun e => decide (j < e.1))
        moving := b.moving || ((s.core b.core).retiring && !b.moved) }
    exec (.localClose bid order) s = .next ((c.hits.foldl (localCollision b.launch)
      (moveDispatcher (({ s with free := c.free }.setBlock bid closed).settle bid gone) b.core)).tryFree bid) := by
  intro j gone ls due c closed
  change execLocalClose bid order s = _
  simp only [execLocalClose, isBlock]
  exact if_neg (by rw [may]; decide)

theorem mayClose_facts (may : mayClose s b = true) :
    b.moving = false ∧ (∀ e ∈ s.groupsIn b, e.2.retired = true ∨ b.closed < e.2.r.lstep) ∧
      ∀ t, tfind b.crossT b.closed = some t → t + 128 ≤ s.cycle (coreDie b.core) := by
  simp only [mayClose, Bool.and_eq_true, Bool.not_eq_true', List.all_eq_true, Bool.or_eq_true, decide_eq_true_eq] at may
  obtain ⟨⟨⟨still, -⟩, crossed⟩, held⟩ := may
  refine ⟨still, crossed, fun t crossing => ?_⟩
  have passed : t + Config.hold ≤ s.cycle (coreDie b.core) := by simpa [crossing] using held
  exact passed

theorem closeLayers_one {j order free n : Nat} {die core : BitVec 16} {w : LWrite} {u : Nat × Bool} (units : unitsOf [w.w] = [u])
    (fine : (resolve (unitOld b.mem u) (inUnit [w.w] u) (order + Config.freeNat free) (free + 1)).hit = false) :
    closeLayers j order die core b [(w, n)] free =
      ⟨unitPut b.mem u (resolve (unitOld b.mem u) (inUnit [w.w] u) (order + Config.freeNat free) (free + 1)).val,
        unpoison b.poison u (inUnit [w.w] u), [], free + 3⟩ := by
  have layers : distinct [n] = [n] := rfl
  have mine : [(w, n)].filter (fun w => w.2 == n) = [(w, n)] := by simp
  simp only [closeLayers, List.map_cons, List.map_nil, layers, List.foldl_cons, List.foldl_nil, mine, units, closeUnit, fine, Bool.false_eq_true,
    if_false]

end

/-! ## Step overruns (R64, R78) -/

theorem mem_distinct {n : Nat} {l : List Nat} : n ∈ distinct l ↔ n ∈ l := by
  rw [distinct, mem_foldl_addTo (fun x => x)]
  simp

section
variable {s : State} {lid : Nat} {l : Launch}

/-- A die's coach house holds a group of the step that the launch has not committed. -/
def behindOn (lid k : Nat) (d : Die) : Bool := d.protos.any (fun q => q.launch == lid && q.step == k)

/-- The groups in which STEP_OVERRUN raises an overrun (R64). -/
def lateGroups (s : State) (lid : Nat) (l : Launch) : List Nat := overrunGroups s lid l l.c (s.dies.any (fun e => behindOn lid l.c e.2))

/-- The dies whose coach houses wait beyond the limit. -/
def lateDies (s : State) (lid : Nat) (l : Launch) : List Nat :=
  (s.dies.filter (fun e => behindOn lid l.c e.2 && expired s l e.1)).map (fun e => e.1)

/-- The state once the late groups have their overruns. -/
def overrunTold (s : State) (lid : Nat) (l : Launch) : State :=
  (lateGroups s lid l).foldl (fun s g => s.modGroup g (fun x => { x with notices := addOverrun l.c x.notices })) s

/-- The dies of an overrun, on which the limit counts afresh. -/
def overrunDies (s : State) (lid : Nat) (l : Launch) : List Nat :=
  distinct (lateDies s lid l ++ (lateGroups s lid l).filterMap (fun g => (s.group? g).map (fun x => coreDie (s.blockOf x).core)))

/-- The launch after an overrun. -/
def overrunLaunch (s : State) (lid : Nat) (l : Launch) (x : Launch) : Launch :=
  { x with mustCommit := false
           since := (overrunDies s lid l).map (fun p => (p, s.cycle p)) ++ x.since.filter (fun e => !(overrunDies s lid l).contains e.1) }

/-- The coach houses after an overrun. -/
def overrunCoaches (lid k : Nat) (dies : Table Die) : Table Die :=
  dies.map (fun e => (e.1, { e.2 with protos := e.2.protos.map (fun q =>
    if q.launch = lid ∧ q.step = k then { q with notices := addOverrun k q.notices } else q) }))

theorem stepOverrun_late (isLaunch : s.launch? lid = some l) (steps : l.phase = .stepping) (some : lateGroups s lid l ≠ [] ∨ lateDies s lid l ≠ []) :
    exec (.stepOverrun lid) s = .next (({ overrunTold s lid l with
      dies := overrunCoaches lid l.c (overrunTold s lid l).dies } : State).modLaunch lid (overrunLaunch s lid l)) := by
  change execStepOverrun lid s = _
  have goes : (l.phase != .stepping || ((lateGroups s lid l).isEmpty && (lateDies s lid l).isEmpty)) = false := by
    rw [steps, Bool.or_eq_false_iff, Bool.and_eq_false_iff, List.isEmpty_eq_false_iff, List.isEmpty_eq_false_iff]
    exact ⟨rfl, some⟩
  simp only [execStepOverrun, isLaunch]
  exact if_neg (ne_true_of_eq_false goes)

theorem mem_overrunGroups {k : Nat} {coach : Bool} {gid : Nat} : gid ∈ overrunGroups s lid l k coach ↔
    ∃ g, (gid, g) ∈ s.groups ∧ g.launch = some lid ∧ counted g = true ∧ (coach = true ∨ g.r.gstep ≤ k) ∧
      expired s l (coreDie (s.blockOf g).core) = true := by
  simp only [overrunGroups, groupsOf, List.mem_map, List.mem_filter, Bool.and_eq_true, Bool.or_eq_true, decide_eq_true_eq, beq_iff_eq]
  constructor
  · rintro ⟨⟨i, g⟩, ⟨⟨isIn, ofLaunch⟩, ⟨counts, step⟩, limit⟩, rfl⟩
    exact ⟨g, isIn, ofLaunch, counts, step, limit⟩
  · rintro ⟨g, isIn, ofLaunch, counts, step, limit⟩
    exact ⟨(gid, g), ⟨⟨isIn, ofLaunch⟩, ⟨counts, step⟩, limit⟩, rfl⟩

end

/-! ## Tier copies (R224, R314) -/

section
variable {s t : State} {op lid n : Nat} {l : Launch} {m : Move}

/-- The move whose copy an operation is. -/
def copyingMove (s : State) (op : Nat) : Option (Nat × Launch × Move) :=
  firstSome (fun (e : Nat × Launch) => (e.2.moves.find? (fun m => m.op == op && m.phase == .copying)).map (fun m => (e.1, e.2, m))) s.launches

theorem tierCopy_done (found : copyingMove s op = some (lid, l, m)) (engine : freeEngines s (coreDie m.core) ≠ [])
    (ran : runCopy s l m = (t, n, none)) :
    exec (.tierCopyComplete op) s = .next (putMove t lid { m with phase := .copied, whole := true, redo := [] }) := by
  change execTierCopyComplete op s = _
  unfold copyingMove at found
  have free : (freeEngines s (coreDie m.core)).isEmpty = false := List.isEmpty_eq_false_iff.2 engine
  simp only [execTierCopyComplete, found, free, Bool.false_eq_true, if_false, ran]

theorem tierCopy_stopped {c : Nat} {a i : Word} (found : copyingMove s op = some (lid, l, m)) (engine : freeEngines s (coreDie m.core) ≠ [])
    (ran : runCopy s l m = (t, n, some (.stop (c, a, i)))) :
    exec (.tierCopyComplete op) s = .next (tellGroup (putMove t lid { m with phase := .stopped }) m.grp c m.step a n i) := by
  change execTierCopyComplete op s = _
  unfold copyingMove at found
  have free : (freeEngines s (coreDie m.core)).isEmpty = false := List.isEmpty_eq_false_iff.2 engine
  simp only [execTierCopyComplete, found, free, Bool.false_eq_true, if_false, ran]

theorem tierCopy_frozen {a : Word} {w : Bool} (found : copyingMove s op = some (lid, l, m)) (engine : freeEngines s (coreDie m.core) ≠ [])
    (ran : runCopy s l m = (t, n, some (.freeze a w))) :
    exec (.tierCopyComplete op) s =
      .next (freezeEngine (putMove t lid { m with phase := .frozen a w n }) (coreDie m.core) m.op true (.move m.op) a) := by
  change execTierCopyComplete op s = _
  unfold copyingMove at found
  have free : (freeEngines s (coreDie m.core)).isEmpty = false := List.isEmpty_eq_false_iff.2 engine
  simp only [execTierCopyComplete, found, free, Bool.false_eq_true, if_false, ran]

theorem copyWord_ok {s1 s2 : State} {now : Bool} {src dst : Word} {a b : Nat} (isSrc : copyKey s l m src false = (.ok a, s1))
    (isDst : copyKey s1 l m dst true = (.ok b, s2)) (cold : m.demote = true → 2 * 2 ^ 64 ≤ b ∧ b < 3 * 2 ^ 64)
    (hot : m.demote = false → b < 2 * 2 ^ 64) (clean : s2.poisoned a 4 = false) :
    copyWord l m now s src dst = (.ok (), { s2.rebuilds [a] with
      mem := wrN s2.mem b 4 (if now then rdN s2.mem a 4 else asOf l s2.mem m.step a 4)
      poison := s2.poison.filter (· != b) }) := by
  have tier : (if m.demote then coldKey b else stacked b) = true := by
    cases demotes : m.demote with
    | true =>
      obtain ⟨low, high⟩ := cold demotes
      rw [if_pos rfl, coldKey, decide_eq_true low, decide_eq_true high]
      rfl
    | false =>
      rw [if_neg (by decide), stacked, decide_eq_true (hot demotes)]
  simp only [copyWord, isSrc, isDst, tier, clean, Bool.not_true, Bool.false_eq_true, if_false]

end

/-! ## Coach houses (R61 to R64) -/

section
variable {s : State} {k lid ctx : Nat} {l : Launch} {q : Proto}

theorem placeable_first {die : Nat} (isLaunch : s.launch? q.launch = some l) (steps : l.phase = .stepping)
    (room : s.coreFor die (l.header.childNeed q.launch) = some k) (qs : List Proto) : placeable s die [] (q :: qs) = some (q, k, l) := by
  have stepping : (l.phase != .stepping) = false := by rw [steps]; rfl
  simp only [placeable, List.contains_nil, Bool.false_eq_true, if_false, isLaunch, stepping, room]

theorem groupPlace_found {die : Nat} (found : placeable s die [] (s.die die).protos = some (q, k, l)) : exec (.groupPlace die) s =
    .next (placeChild (s.modDie die (fun d => { d with protos := d.protos.erase q })) k q.launch l q) := by
  change execGroupPlace die s = _
  simp only [execGroupPlace, found]

/-- The block of a spawned group (R63). -/
def childBlock (s : State) (k lid ctx : Nat) (l : Launch) : Block :=
  { core := k, slot := freeBlockSlot s k, launch := some lid, ctx := ctx, bytes := l.header.bytes, spill := l.header.spill,
    groups := [s.fresh + 1], closed := 0, mem := [], pend := [], entries := [], windows := [], crossT := [], poison := [], moving := false,
    moved := false }

/-- A spawned group as it starts (R63, R64). -/
def childGroup (s : State) (k lid : Nat) (l : Launch) (q : Proto) : Group :=
  newGroup s k s.fresh lid l 0 q.args.length q.step q.entry (l.header.child + BitVec.ofNat 64 (32 * l.children))
    (q.args.zipIdx.foldl (fun t e => tput 0 t e.2 e.1) []) l.header.bytes (((freePlanes s k (1 * l.header.tiles)).drop (0 * l.header.tiles)).take l.header.tiles)
    q.notices

theorem placeChild_block (room : s.ctxFor k lid = some ctx) :
    (placeChild s k lid l q).block? s.fresh = some (childBlock s k lid ctx l) := by
  have room' : (s.modLaunch lid (fun l => { l with children := l.children + 1 })).ctxFor k lid = some ctx := room
  simp only [placeChild, placeBlock, room']
  exact (block_setBlock _ _ _ _).trans (if_pos rfl)

theorem placeChild_group (room : s.ctxFor k lid = some ctx) :
    (placeChild s k lid l q).group? (s.fresh + 1) = some (childGroup s k lid l q) := by
  have room' : (s.modLaunch lid (fun l => { l with children := l.children + 1 })).ctxFor k lid = some ctx := room
  simp only [placeChild, placeBlock, room']
  exact group_of_tfind (tfind_puts 1 (fun _ => childGroup s k lid l q) (s.fresh + 1) _ Nat.one_pos)

end

/-- Settles O51: local steps close, steps overrun, copies end, and spawned groups are placed. -/
theorem localCloses : Obligations.LocalCloses := by
  refine ⟨?_, ?_, ?_, ?_, ?_, ?_, ?_, ?_, ?_, ?_, ?_⟩
  · exact fun s bid order b isBlock may => localClose_may isBlock may order
  · exact fun s b may => mayClose_facts may
  · intro j order free die core b w n u r units fine c
    have isC : c = _ := closeLayers_one units fine
    refine ⟨by rw [isC], by rw [isC], fun k outside => ?_⟩
    rw [isC]
    exact rd8_wrN_other _ _ _ _ _ outside
  · intro s lid l isLaunch steps k behind late waiting some
    refine ⟨_, stepOverrun_late isLaunch steps some, ?_⟩
    obtain ⟨mem, blocks, launches, -, disabled⟩ := modEach_fields (fun x => { x with notices := addOverrun l.c x.notices }) (lateGroups s lid l) s
    refine ⟨mem, blocks, fun gid g isGroup other => ?_, fun gid g isGroup mine once => ?_, ?_⟩
    · rw [← isGroup]
      exact group_modEach_other _ _ _ other
    · refine (group_modEach _ _ _ once mine).trans ?_
      rw [isGroup]
      rfl
    · refine ⟨overrunLaunch s lid l l, ?_, rfl, rfl, fun p isIn => ?_⟩
      · have told : ({ overrunTold s lid l with dies := overrunCoaches lid l.c (overrunTold s lid l).dies } : State).launch? lid = .some l :=
          (launch_congr launches lid).trans isLaunch
        exact (launch_modLaunch ..).trans ((if_pos rfl).trans (congrArg (Option.map _) told))
      · exact List.mem_append_left _ (List.mem_map_of_mem (mem_distinct.2 (List.mem_append_left _ isIn)))
  · exact fun s lid k l coach gid => mem_overrunGroups
  · exact fun s t op lid n l m found engine => ⟨tierCopy_done found engine, fun c a i => tierCopy_stopped found engine,
      fun a w => tierCopy_frozen found engine⟩
  · intro s s1 s2 l m now src dst a b isSrc isDst cold hot clean
    rw [copyWord_ok isSrc isDst cold hot clean]
    exact ⟨rfl, rfl⟩
  · exact fun s lid id => rfl
  · exact fun s die k q l found => groupPlace_found found
  · exact fun s die q qs k l isLaunch steps room => placeable_first isLaunch steps room qs
  · exact fun s k lid ctx l q _ room => ⟨_, _, placeChild_block room, rfl, rfl, rfl, rfl, placeChild_group room, rfl, rfl, rfl, rfl, rfl, rfl, rfl⟩

end Sys2Proof.Machine

/-! The grant of runs and the delivery of pending traps (R46, R47, R51, R52, R230, R232): O52. -/

namespace Sys2Proof.Machine
open State

section Order

theorem firstSome_found {α β : Type} {f : α → Option β} {y : β} : ∀ {xs : List α}, firstSome f xs = some y → ∃ x ∈ xs, f x = some y
  | [], found => by simp [firstSome] at found
  | x :: xs, found => by
    rw [firstSome] at found
    split at found
    · next z isZ => exact ⟨x, List.mem_cons_self, isZ.trans found⟩
    · obtain ⟨a, isIn, isA⟩ := firstSome_found found
      exact ⟨a, List.mem_cons_of_mem _ isIn, isA⟩

variable {s : State} {k ctx slot gid : Nat} {g : Group} {i : GrantInfo}

theorem group_of_groupsOn (isOn : (gid, g) ∈ s.groupsOn k) : s.group? gid = some g := by
  obtain ⟨⟨b, block⟩, -, isIn⟩ := List.mem_flatMap.1 (List.mem_filter.1 isOn).1
  obtain ⟨h, -, isH⟩ := List.mem_filterMap.1 isIn
  obtain ⟨x, isX, same⟩ := Option.map_eq_some_iff.1 isH
  cases same
  exact isX

/-- The rotation and the yield marks of R52 only reorder the groups of the context. -/
theorem groupsOn_of_rrOrder (isIn : (gid, g) ∈ rrOrder s k ctx) : (gid, g) ∈ s.groupsOn k ∧ (s.blockOf g).ctx = ctx := by
  have ofYield {l : List (Nat × Group)} {f : Nat × Group → Bool} {x : Nat × Group}
      (h : x ∈ l.filter f ++ l.filter (fun e => !f e)) : x ∈ l :=
    (List.mem_append.1 h).elim (fun a => (List.mem_filter.1 a).1) (fun a => (List.mem_filter.1 a).1)
  have sorted : (gid, g) ∈ sortBy (fun e => e.1) ((s.groupsOn k).filter (fun e => (s.blockOf e.2).ctx == ctx)) := by
    unfold rrOrder at isIn
    rcases List.mem_append.1 isIn with h | h <;>
    · have := (List.mem_filter.1 h).1
      split at this
      · exact this
      · exact (List.mem_append.1 this).elim (fun a => (List.mem_filter.1 a).1) (fun a => (List.mem_filter.1 a).1)
  obtain ⟨isOn, same⟩ := List.mem_filter.1 ((mem_sortBy _ _).1 sorted)
  exact ⟨isOn, eq_of_beq same⟩

/-- R52: what makes a group ready. -/
theorem ready_facts (isReady : ready s g = some i) :
    g.retired = false ∧ g.run = none ∧ g.tlbi = none ∧ takeable g = [] ∧ running s g = true ∧ (s.blockOf g).moving = false ∧ nextRun s g = some i := by
  rw [ready] at isReady
  split at isReady
  · cases isReady
  · next free =>
    simp only [Bool.or_eq_true, not_or, Bool.not_eq_true, Bool.not_eq_false', Option.isSome_eq_false_iff, Option.isNone_iff_eq_none,
      List.isEmpty_iff] at free
    obtain ⟨⟨⟨⟨⟨a, b⟩, c⟩, d⟩, e⟩, f⟩ := free
    exact ⟨a, b, c, f, d, e, isReady⟩

theorem granted_facts (isGranted : granted s k slot = some (gid, g, i)) :
    slot < 2 ∧ (slotOf (s.core k) slot).group = none ∧ (slotOf (s.core k) slot).free ≤ s.cycle (coreDie k) ∧
      calendarCtx s k slot = some (s.blockOf g).ctx ∧ s.group? gid = some g ∧ ready s g = some i := by
  simp only [granted] at isGranted
  split at isGranted
  · next isFree =>
    simp only [Bool.and_eq_true, decide_eq_true_eq, Option.isNone_iff_eq_none] at isFree
    obtain ⟨⟨low, none⟩, past⟩ := isFree
    split at isGranted
    · cases isGranted
    · next ctx isCtx =>
      obtain ⟨⟨h, x⟩, isIn, found⟩ := firstSome_found isGranted
      split at found
      · obtain ⟨j, isReady, same⟩ := Option.map_eq_some_iff.1 found
        cases same
        obtain ⟨isOn, isCtx'⟩ := groupsOn_of_rrOrder isIn
        exact ⟨low, none, past, isCtx'.symm ▸ isCtx, group_of_groupsOn isOn, isReady⟩
      · cases found
  · cases isGranted

theorem some_of_ite {α : Type} {a ok fine : Prop} [Decidable a] [Decidable ok] [Decidable fine] {x y z : α}
    (found : (if a then (if ok then some x else none) else if fine then some y else none) = some z) : a ∧ x = z ∨ ¬ a ∧ y = z := by
  split_ifs at found with first
  · exact .inl ⟨first, Option.some.inj found⟩
  · exact .inr ⟨first, Option.some.inj found⟩

/-- R46: a run is skipped when its head's guard holds no live lane. -/
theorem nextRun_skip (found : nextRun s g = some i) : i.skip = true ↔ g.r.head = true ∧ i.rg = 0 := by
  unfold nextRun at found
  rcases some_of_ite found with ⟨skips, rfl⟩ | ⟨goes, rfl⟩
  · simpa using skips
  · simpa using goes

end Order

section Grant
variable {s : State} {k slot gid : Nat} {g : Group} {i : GrantInfo}

/-- The state after the order and the counters noted the grant (R52, R256). -/
def grantNoted (s : State) (gid : Nat) (g : Group) (n : Nat) : State :=
  let k := (s.blockOf g).core
  let mine := (rrOrder s k (s.blockOf g).ctx).map (fun e => e.1)
  (s.modCore k (fun c =>
    { c with rr := tset c.rr (s.blockOf g).ctx gid, yields := c.yields.filter (fun y => !mine.contains y) })).count k (s.guestOf g) n 1

theorem runGrant_found (isGroup : s.group? gid = some g) (isGranted : granted s (s.blockOf g).core slot = some (gid, g, i)) :
    exec (.runGrant gid slot) s = .next (
      if i.skip then skipRun (grantNoted s gid g (if i.skip then 0x085 else 0x084)) gid g (s.blockOf g).core slot i.words
      else startRun (grantNoted s gid g (if i.skip then 0x085 else 0x084)) gid g (s.blockOf g).core slot i) := by
  change execRunGrant gid slot s = _
  simp only [execRunGrant, isGroup, isGranted, ne_eq, not_true_eq_false, if_false]
  rfl

theorem count_cores (s : State) (k : Nat) (u : Option Nat) (n m : Nat) : s.count k u n m = { s with cores := (s.count k u n m).cores } := by
  cases u <;> rfl

theorem grantNoted_cores (s : State) (gid : Nat) (g : Group) (n : Nat) : grantNoted s gid g n = { s with cores := (grantNoted s gid g n).cores } := by
  rw [grantNoted, count_cores]
  rfl

theorem cycle_grantNoted (n p : Nat) : (grantNoted s gid g n).cycle p = s.cycle p := by
  rw [grantNoted_cores]
  rfl

theorem count_rr (u : Option Nat) (n m j : Nat) : ((s.count k u n m).core j).rr = (s.core j).rr := by
  cases u with
  | none => rfl
  | some u =>
    rw [State.count, core_modCore]
    split
    · next same => rw [same]
    · rfl

theorem slotOf_setSlot (c : Core) (x : Slot) : slotOf (setSlot c slot x) slot = x := by
  unfold slotOf setSlot
  split <;> rfl

theorem setSlot_rr (c : Core) (x : Slot) : (setSlot c slot x).rr = c.rr := by
  unfold setSlot
  split <;> rfl

theorem setSlot_counters (c : Core) (x : Slot) : (setSlot c slot x).counters = c.counters := by
  unfold setSlot
  split <;> rfl

/-- The core of a granted run. -/
theorem core_startRun : (startRun s gid g k slot i).core k =
    setSlot (s.core k) slot { slotOf (s.core k) slot with
      group := some gid, free := max (s.cycle (coreDie k)) (slotOf (s.core k) slot).free, skip := false } :=
  (core_setGroup ..).trans ((core_modCore ..).trans (if_pos rfl))

theorem group_startRun (h : Nat) : (startRun s gid g k slot i).group? h =
    if h = gid then some { g with run := some { Run.fresh g.r.x with
      slot := slot, reserved := i.reserved, matrix := i.matrix, rg := i.rg, pass := i.pass } } else s.group? h :=
  group_setGroup ..

end Grant

section Skip
variable {s : State} {k slot gid : Nat} {g : Group} {ws : List IWord}

theorem skipRun_ends {w : IWord} (isLast : ws.getLast? = some w) (ends : (split w).c.b = true) (fine : skipFlaw g ws = none) :
    skipRun s gid g k slot ws = ((s.modCore k (fun q => setSlot q slot
      { slotOf q slot with
        free := s.cycle (coreDie k) + (ws.length + 3) / 4, skip := true, act := 0, rg := 0, live := g.r.live, last := some gid,
        pc := g.r.pc })).setGroup gid { g with r := { g.r with pc := g.r.pc + BitVec.ofNat 64 (12 * ws.length), replay := none } }).endRun
          gid (split w).c .seq := by
  simp only [skipRun, fine, isLast, Option.map_some, Option.getD_some, ends, Bool.not_true, Bool.false_eq_true, if_false]

theorem skipRun_flaw {f : TrapInfo} {n : Nat} (flaw : skipFlaw g ws = some (f, n)) :
    skipRun s gid g k slot ws = s.enterTrap gid g f (g.r.pc + BitVec.ofNat 64 (12 * n)) (n == 0) := by
  simp only [skipRun, flaw]

theorem skipRun_long (long : ws.length = 24) (open_ : ∀ w ∈ ws.getLast?, (split w).c.b = false) (fine : skipFlaw g ws = none) :
    skipRun s gid g k slot ws = s.enterTrap gid g { cause := 0x04 } (g.r.pc + BitVec.ofNat 64 (12 * 24)) false := by
  have unended : (ws.getLast?.map (fun w => (split w).c.b)).getD false = false := by
    cases isLast : ws.getLast? with
    | none => rfl
    | some w => exact open_ w isLast
  simp only [skipRun, fine, unended, Bool.not_false, if_true, long]

end Skip

section Notices

theorem firstNotice_nil (now : Word) : firstNotice now [] = none := rfl

variable {s : State} {gid : Nat} {g : Group} {n : Notice}

/-- The group as it takes a notice. -/
def noticed (s : State) (gid : Nat) (g : Group) (n : Notice) : State :=
  s.enterTrap gid { g with notices := g.notices.erase n, taken := (s.seq, n) :: g.taken }
    { cause := n.cause, addr := n.addr, step := n.step, prog := n.prog, info := n.info, deferred := n.kind == .deferred, mop := n.mop }
    g.r.pc g.run.isNone

/-- R230, R232: a deferred trap waits until the handler's first run can be granted. -/
theorem deferredTrapTake_first (isGroup : s.group? gid = some g) (runs : running s g = true) (still : (s.blockOf g).moving = false)
    (idle : g.tlbi = none) (first : firstNotice (BitVec.ofNat 64 g.r.gstep) (takeable g) = some n) :
    exec (.deferredTrapTake gid) s = .next (
      if n.kind != .deferred then noticed s gid g n
      else match (noticed s gid g n).group? gid with
        | some h => if h.r.sys && (nextRun (noticed s gid g n) h).isNone then s else noticed s gid g n
        | none => noticed s gid g n) := by
  have some_ : (takeable g).isEmpty = false := by
    cases isNil : takeable g with
    | nil => rw [isNil] at first; cases first
    | cons => rfl
  have taken : s.takeNotice gid g = noticed s gid g n := by simp only [takeNotice, first]; rfl
  change execDeferredTrapTake gid s = _
  simp only [execDeferredTrapTake, isGroup, some_, idle, runs, still, Option.isSome_none, Bool.not_true, Bool.or_self, Bool.false_eq_true, if_false,
    execDeferredTrapTake.firstNotice?, first, taken]
  split
  · rfl
  · cases (noticed s gid g n).group? gid with
    | none => rfl
    | some h => exact (apply_ite Host.Outcome.next ..).symm

end Notices

/-- Settles O52: the grant of runs, skipped runs and pending traps at a boundary. -/
theorem grants : Obligations.Grants := by
  refine ⟨?_, fun s g i => nextRun_skip, ?_, ?_, ?_⟩
  · intro s k slot gid g i isGranted
    obtain ⟨low, free, past, ctx, isGroup, isReady⟩ := granted_facts isGranted
    obtain ⟨a, b, c, d, e, f, next⟩ := ready_facts isReady
    exact ⟨low, free, past, ctx, isGroup, a, b, c, d, e, f, next⟩
  · intro s slot gid g i isGroup low isGranted goes k
    have ran := runGrant_found isGroup isGranted
    rw [goes, if_neg Bool.false_ne_true, if_neg Bool.false_ne_true] at ran
    refine ⟨_, _, ran, (group_startRun gid).trans (if_pos rfl), rfl, rfl, rfl, rfl, rfl, rfl, rfl, ?_, ?_, ?_, fun u isGuest => ?_, fun h other => ?_⟩
    · rw [core_startRun, slotOf_setSlot]
    · rw [core_startRun, setSlot_rr, grantNoted, count_rr, core_modCore, if_pos rfl]
      exact tfind_tset_same _ _ _
    · change (grantNoted s gid g 0x084).mem = s.mem
      rw [grantNoted_cores]
    · rw [core_startRun, setSlot_counters, grantNoted, isGuest, count_counter, core_modCore, if_pos rfl]
      rfl
    · rw [group_startRun, if_neg other, grantNoted_cores]
      rfl
  · intro s slot gid g i isGroup isGranted skips k mine t at_
    have ran := runGrant_found isGroup isGranted
    rw [skips, if_pos rfl, if_pos rfl] at ran
    refine ⟨fun w isLast ends fine => ?_, fun f n flaw => ?_, fun long open_ fine => ?_⟩
    · rw [ran, skipRun_ends isLast ends fine, cycle_grantNoted]
      rfl
    · rw [ran, skipRun_flaw flaw]
      rfl
    · rw [ran, skipRun_long long open_ fine]
      rfl
  · intro s gid g n isGroup runs still idle first t
    have ran := deferredTrapTake_first isGroup runs still idle first
    refine ⟨fun kind => ?_, fun h kind isH granted => ?_⟩
    · rw [ran, if_pos (bne_iff_ne.2 kind)]
      rfl
    · have isH' : (noticed s gid g n).group? gid = some h := isH
      have grants : ¬ (h.r.sys && (nextRun (noticed s gid g n) h).isNone) = true := by
        intro waits
        obtain ⟨sys, none⟩ := Bool.and_eq_true_iff.1 waits
        have some_ : (nextRun (noticed s gid g n) h).isSome = true := granted sys
        rw [Option.isNone_iff_eq_none.1 none] at some_
        cases some_
      rw [ran, if_neg (by simp [kind]), isH']
      exact congrArg Host.Outcome.next (if_neg grants)

end Sys2Proof.Machine

/-! Serving reads, filling loads and looking pages up (R48, R76, R79 to R81, R99, R200, R203, R207, R218, R351): O53. -/

namespace Sys2Proof.Machine
open State

section Serve
variable {s : State} {load lane back : Nat} {op : LoadOp} {r : LaneRead} {g : Group} {v : Nat}

theorem readServe_value (isLoad : tfind s.loads load = some op)
    (isRead : op.reads.find? (fun r => r.lane == lane && r.val.isNone) = some r) (isGroup : s.group? op.gid = some g)
    (isValue : serveValue s op g r back = some v) : exec (.readServe load lane back) s =
      .next (State.rebuilds { s with loads := tset s.loads load { op with reads := op.reads.map (fun q =>
        if q.lane = lane ∧ q.val.isNone then { q with val := some (BitVec.ofNat 64 v) } else q) } } [r.key]) := by
  change execReadServe load lane back s = _
  simp only [execReadServe, isLoad, isRead, isGroup, isValue]

theorem serveValue_glob (glob : op.src = .glob) (near : back ≤ op.lag) :
    serveValue s op g r back = readGlobal s g.launch r.kind op.tag back r.key op.size.bytes := by
  rw [serveValue, glob]
  exact if_pos near

theorem serveValue_weight (weight : op.src = .weight) (still : refreshing s (coreDie (s.blockOf g).core) (r.key % 2 ^ 29) = false)
    (first : cpywAhead s g.blk op.seq = false) : serveValue s op g r back = some (rdN s.mem r.key op.size.bytes) := by
  rw [serveValue, weight]
  exact if_neg (by rw [still, first]; exact Bool.false_ne_true)

end Serve

section Global
variable {s : State} {kind : Kind} {tag back key n lid : Nat} {l : Launch}

/-- R76, R79, R80: a read of a step returns memory as of its step once the commits before it are declared and applied to its words. -/
theorem readGlobal_step (isLaunch : s.launch? lid = some l) (inner : externalKey key = false) (old : kind ≠ .stb)
    (declared : (if kind = .lag then tag - back else tag) ≤ l.c) (applied : l.outstanding (if kind = .lag then tag - back else tag) key n = false)
    (host : hostDue s lid l key n = false) :
    readGlobal s (some lid) kind tag back key n = some (asOf l s.mem (if kind = .lag then tag - back else tag) key n) := by
  have stepped : (externalKey key || kind == .stb) = false := by rw [inner, Bool.false_or]; exact beq_false_of_ne old
  simp only [readGlobal, Option.bind_some, isLaunch, stepped, Bool.false_eq_true, if_false, declared, applied, host, Bool.not_false, and_self, if_true]

/-- R81, R99: a read outside steps, of host memory or under .stb returns what memory holds. -/
theorem readGlobal_now {lid : Option Nat} (now : lid = none ∨ externalKey key = true ∨ kind = .stb) :
    readGlobal s lid kind tag back key n = some (rdN s.mem key n) := by
  unfold readGlobal
  split
  · next i l _ =>
    have outside : (externalKey key || kind == .stb) = true := by
      rcases now with none | ext | stb
      · cases none
      · rw [ext, Bool.true_or]
      · rw [stb]; exact Bool.or_true _
    rw [if_pos outside]
  · rfl

/-- R75: a word with no write of the earlier commits on its way waits for none. -/
theorem not_outstanding {l : Launch} {j : Nat} (btst : l.btst = []) (logs : l.dueLogs = []) (moves : l.moves = [])
    (apart : ∀ w ∈ l.applying, w.step < j → w.stage ≠ .applied → w.w.key + (if w.w.wide then 8 else 4) ≤ key ∨ key + n ≤ w.w.key) :
    l.outstanding j key n = false := by
  have applying : l.applying.any (fun w => decide (w.step < j) && w.stage != .applied && decide (w.w.key < key + n) &&
      decide (key < w.w.key + (if w.w.wide then 8 else 4))) = false := by
    refine List.any_eq_false.2 fun w isIn touches => ?_
    simp only [Bool.and_eq_true, decide_eq_true_eq, bne_iff_ne] at touches
    obtain ⟨⟨⟨early, waits⟩, below⟩, above⟩ := touches
    rcases apart w isIn early waits with h | h <;> omega
  simp only [Launch.outstanding, applying, btst, logs, moves, List.any_nil, Bool.or_self]

end Global

section Parity
variable {s : State} {key w : Nat}

theorem rebuilds_whole (keys : List Nat) (whole : s.lost = []) : s.rebuilds keys = s := if_pos (by rw [whole]; rfl)

/-- R207: a read from a lost stack is rebuilt, recorded and reported. -/
theorem rebuilds_lost (isWay : wayOfKey key = some w) (lost : w ∈ s.lost) (hot : isCold key = false) : s.rebuilds [key] =
    (s.bboxAdd w ⟨BitVec.ofNat 64 (physAddr key), BitVec.ofNat 32 w, 0xFFFF, 0x03, 1⟩).report .correctable w := by
  have some_ : ¬ s.lost.isEmpty = true := by
    rw [List.isEmpty_iff]
    rintro none
    rw [none] at lost
    cases lost
  have rebuilt : (s.lost.contains w && !isCold key) = true := by
    rw [hot, List.contains_iff_mem.2 lost]
    rfl
  refine (if_neg some_).trans ?_
  simp only [List.foldl_cons, List.foldl_nil, parity, isWay, rebuilt, if_true]

theorem trailed_whole (t : Trail) (whole : s.lost = []) : s.trailed t = { s with mem := setA s.mem t.touch } :=
  rebuilds_whole _ whole

end Parity

section Fill

/-- A table filled at the places of a list reads as before elsewhere. -/
theorem tget_foldl_tput_other {β : Type} [DecidableEq β] (f : Nat × β → Nat) (d : β) (es : List (Nat × β)) : ∀ (t : Table β) {n : Nat},
    (∀ e ∈ es, n ≠ f e) → tget d (es.foldl (fun v e => tput d v (f e) e.2) t) n = tget d t n := by
  induction es with
  | nil => exact fun _ _ _ => rfl
  | cons e es ih =>
    intro t n apart
    exact (ih _ fun x isIn => apart x (List.mem_cons_of_mem _ isIn)).trans (tget_tput_other _ _ _ (apart e List.mem_cons_self))

theorem tget_foldl_tput_mem {β : Type} [DecidableEq β] (f : Nat × β → Nat) (d : β) (es : List (Nat × β)) : ∀ (t : Table β) {e : Nat × β},
    (es.map f).Nodup → e ∈ es → tget d (es.foldl (fun v e => tput d v (f e) e.2) t) (f e) = e.2 := by
  induction es with
  | nil => exact fun _ _ _ isIn => absurd isIn List.not_mem_nil
  | cons a es ih =>
    intro t e once isIn
    obtain ⟨apart, rest⟩ := List.nodup_cons.1 once
    rcases List.mem_cons.1 isIn with rfl | isIn
    · refine (tget_foldl_tput_other f d es _ fun x hx same => apart ?_).trans (tget_tput_same _ _ _ _)
      rw [same]
      exact List.mem_map_of_mem hx
    · exact ih _ rest isIn

variable {s : State} {op : LoadOp} {g : Group}

theorem fillLoad_group (isGroup : s.group? op.gid = some g) : (fillLoad s op).group? op.gid =
    some { g with r := (fillRegs s op g.sa (g.r, (s.blockOf g).mem)).1, shadows := g.shadows.map (fillShadow s op g.sa) } := by
  simp only [fillLoad, isGroup]
  exact (group_setGroup ..).trans (if_pos rfl)

theorem fillLoad_mem : (fillLoad s op).mem = s.mem := by
  unfold fillLoad
  split
  · rfl
  · exact modBlock_mem ..

theorem spilledUnit_none {r : Regs} (open_ : r.frame = none) (vec : Bool) (reg : Nat) : spilledUnit r vec reg = none := by
  rw [spilledUnit, open_]

/-- The lanes that a vector load fills. -/
def filledLanes (op : LoadOp) (r : Regs) (shift : Nat) : List (Nat × Lane) :=
  (op.reads.filter (fun q => takes r q.lane)).map (fun q => (q.lane, (q.val.getD 0).extractLsb' shift 32))

/-- Outside a trap handler a load fills its vector register (R48). -/
theorem fillV_open {x : Regs × Table Byte} (open_ : x.1.frame = none) (sa reg shift : Nat) : fillV s op sa reg shift x =
    ({ x.1 with v := (filledLanes op x.1 shift).foldl (fun v e => tput 0 v (32 * reg + e.1) e.2) x.1.v, ve := x.1.ve.filter (· != reg) }, x.2) := by
  simp only [fillV, spilledUnit_none open_, ite_self, filledLanes]

theorem fillS_open {x : Regs × Table Byte} (open_ : x.1.frame = none) (sa reg : Nat) (w : Word) : fillS s op sa reg w x =
    ({ x.1 with s := tput 0 x.1.s reg w, se := x.1.se.filter (· != reg) }, x.2) := by
  simp only [fillS, spilledUnit_none open_, ite_self]

theorem filledLanes_nodup {r : Regs} (a shift : Nat) (once : (op.reads.map (fun q => q.lane)).Nodup) :
    ((filledLanes op r shift).map (fun e => 32 * a + e.1)).Nodup := by
  have lanes : ((op.reads.filter (fun q => takes r q.lane)).map (fun q => q.lane)).Nodup :=
    once.sublist (List.filter_sublist.map _)
  rw [filledLanes, List.map_map]
  rw [show (fun e : Nat × Lane => 32 * a + e.1) ∘ (fun q : LaneRead => (q.lane, (q.val.getD 0).extractLsb' shift 32)) =
    (fun n => 32 * a + n) ∘ (fun q => q.lane) from rfl, ← List.map_map]
  exact lanes.map (fun x y same => Nat.add_left_cancel same)

end Fill

section Walk
variable {s : State} {core : Nat} {gctx : Option (BitVec 3)} {va : BitVec 64}

theorem pageWalk_good (good : canonical va = true) (inside : core < 900 * 512) : exec (.pageWalk core gctx va) s =
    .next (s.translate core (gctx.map (fun g => g.toNat)) (pageOf va)).2 := by
  change execPageWalk core gctx va s = _
  exact if_pos ⟨good, inside⟩

variable {k page : Nat} {tag : Option Nat}

theorem translate_fault {f : WalkFault}
    (found : lookup s.mem (s.partAt k) (s.core k).tlb (s.die (coreDie k)).tlb (s.die (coreDie k)).nested tag page = .error f) :
    (s.translate k tag page).2 = s.trailed f.trail := by
  simp only [State.translate, found]

theorem translate_away {x : Trans}
    (found : lookup s.mem (s.partAt k) (s.core k).tlb (s.die (coreDie k)).tlb (s.die (coreDie k)).nested tag page = .ok x) (away : x.res = false) :
    (s.translate k tag page).2 = s.trailed x.trail := by
  simp only [State.translate, found, away, Bool.not_false, if_true]

/-- The core's TLB once a lookup found a resident page (R203). -/
def coreFilled (s : State) (k : Nat) (e : TlbEntry) : State :=
  if (s.core k).gated then s else s.modCore k (fun c => { c with tlb := tlbFill 64 c.tlb e })

theorem coreFilled_core {e : TlbEntry} (awake : (s.core k).gated = false) : ((coreFilled s k e).core k).tlb = tlbFill 64 (s.core k).tlb e := by
  rw [coreFilled, if_neg (ne_true_of_eq_false awake), core_modCore, if_pos rfl]

theorem coreFilled_mem (s : State) (k : Nat) (e : TlbEntry) : (coreFilled s k e).mem = s.mem := by
  unfold coreFilled
  split <;> rfl

theorem coreFilled_die (s : State) (k : Nat) (e : TlbEntry) (p : Nat) : (coreFilled s k e).die p = s.die p := by
  unfold coreFilled
  split <;> rfl

theorem translate_resident {x : Trans} (whole : s.lost = [])
    (found : lookup s.mem (s.partAt k) (s.core k).tlb (s.die (coreDie k)).tlb (s.die (coreDie k)).nested tag page = .ok x) (resident : x.res = true) :
    (s.translate k tag page).2 = (coreFilled { s with mem := setA s.mem x.trail.touch } k x.e).modDie (coreDie k) (fun d =>
      { d with tlb := tlbFill 4096 d.tlb x.e,
               nested := match x.nest with | some e => tlbFill 1024 d.nested e | none => d.nested }) := by
  simp only [State.translate, found, resident, Bool.not_true, Bool.false_eq_true, if_false, trailed_whole _ whole]
  rfl

end Walk

/-- Settles O53: reads are served as of their step, loads fill as a whole, and pages are looked up. -/
theorem readsServed : Obligations.ReadsServed := by
  refine ⟨?_, ?_, ?_, ?_, ?_, ?_, ?_, ?_, fun s die bank => rfl⟩
  · intro s load lane back op r g isLoad isRead isGroup glob near n served
    refine ⟨?_, fun now => ?_⟩
    · intro lid l isLid isLaunch inner old j declared applied host
      refine readServe_value isLoad isRead isGroup ((serveValue_glob glob near).trans ?_)
      rw [isLid]
      exact readGlobal_step isLaunch inner old declared applied host
    · exact readServe_value isLoad isRead isGroup ((serveValue_glob glob near).trans (readGlobal_now now))
  · intro s load lane back op r g isLoad isRead isGroup weight still first
    exact readServe_value isLoad isRead isGroup (serveValue_weight weight still first)
  · exact fun l j key n btst logs moves apart => not_outstanding btst logs moves apart
  · exact fun s key w => ⟨rebuilds_whole _, rebuilds_lost⟩
  · intro s load op isLoad arrived
    change execLoadFill load s = _
    simp only [execLoadFill, isLoad, List.all_eq_true.2 arrived, if_true]
  · intro s op g a isGroup open_ dst once _ live
    have filled : fillRegs s op g.sa (g.r, (s.blockOf g).mem) = _ := (by rw [fillRegs, dst] :
      _ = fillV s op g.sa a 0 (g.r, (s.blockOf g).mem)).trans (fillV_open open_ g.sa a 0)
    refine ⟨_, fillLoad_group isGroup, ?_⟩
    rw [filled]
    refine ⟨rfl, fun r isIn lives => ?_, fun n apart => ?_, rfl, rfl, rfl, fillLoad_mem⟩
    · refine tget_foldl_tput_mem (fun e => 32 * a + e.1) 0 _ _ (filledLanes_nodup a 0 once)
        (e := (r.lane, (r.val.getD 0).extractLsb' 0 32)) (List.mem_map.2 ⟨r, List.mem_filter.2 ⟨isIn, lives⟩, rfl⟩)
    · refine tget_foldl_tput_other (fun e => 32 * a + e.1) 0 _ _ fun e isIn => ?_
      obtain ⟨r, isRead, rfl⟩ := List.mem_map.1 isIn
      obtain ⟨isIn, lives⟩ := List.mem_filter.1 isRead
      exact apart r isIn lives
  · intro s op g a r isGroup open_ dst reads
    have filled : fillRegs s op g.sa (g.r, (s.blockOf g).mem) = _ := (by rw [fillRegs, dst, reads]; rfl :
      _ = fillS s op g.sa ((a + r.lane) % g.sa) (r.val.getD 0) (g.r, (s.blockOf g).mem)).trans (fillS_open open_ ..)
    refine ⟨_, fillLoad_group isGroup, ?_⟩
    rw [filled]
    exact ⟨rfl, tget_tput_same _ _ _ _, fun n other => tget_tput_other _ _ _ other, rfl, rfl, rfl⟩
  · intro s core gctx va good inside p found
    refine ⟨_, pageWalk_good good inside, fun whole => ⟨fun f fault => ?_, fun x isOk => ?_⟩⟩
    · rw [translate_fault fault, trailed_whole _ whole]
    · cases isRes : x.res with
      | false =>
        rw [translate_away isOk isRes, trailed_whole _ whole]
        exact ⟨rfl, fun h => absurd h Bool.false_ne_true, fun h => absurd h Bool.false_ne_true, fun _ => ⟨rfl, rfl⟩⟩
      | true =>
        rw [translate_resident whole isOk isRes]
        refine ⟨?_, fun _ awake => ?_, fun _ => ?_, fun h => absurd h.symm Bool.false_ne_true⟩
        · rw [modDie_mem, coreFilled_mem]
        · exact coreFilled_core (s := { s with mem := setA s.mem x.trail.touch }) awake
        · rw [die_modDie, if_pos rfl, coreFilled_die]
          rfl

end Sys2Proof.Machine

/-! Engine operations run and complete (R114, R117, R123 to R126, R128, R130, R132, R136, R313, R318, R323): O54. -/

namespace Sys2Proof.Machine
open State

section Run
variable {s : State} {o : Nat} {op : AsyncOp}

theorem mayRun_facts (may : mayRun s o op = true) : (op.st = .running ∨ op.st = .denied) ∧ op.late = none := by
  simp only [mayRun, Bool.and_eq_true, Bool.or_eq_true, beq_iff_eq, Option.isNone_iff_eq_none] at may
  obtain ⟨⟨⟨⟨st, late⟩, -⟩, -⟩, -⟩ := may
  exact ⟨st, late⟩

/-- R114: an operation that may run is run to its end. -/
theorem asyncComplete_runs (isOp : tfind s.ops o = some op) (may : mayRun s o op = true) : exec (.asyncComplete o) s = .next (runOp s o op) := by
  change execAsyncComplete o s = _
  simp only [execAsyncComplete, isOp, (mayRun_facts may).2, may, if_true]

theorem finishRows_ends {rule : WRule} {kind : Kind} {glob : Bool} {rows : List (List WordMove)} {r : Ran}
    (ran : r = runRows op rule kind false rows ⟨s, [], 0, none⟩) (ended : r.halt = none ∨ ∃ t, r.halt = some (.stop t)) :
    finishRows s o op rule kind glob rows = endRows r o op glob (rows.map List.length).sum := by
  subst ran
  rcases ended with done | ⟨t, stopped⟩
  · simp only [finishRows, done]
  · simp only [finishRows, stopped]

theorem finishCpyw_ends {glob : Bool} {r : Ran}
    (ran : r = runRows op .lo .now true (copyMoves (shapeOf op.pb) (if glob then globAt else .loc) .weight) ⟨s, [], 0, none⟩)
    (ended : r.halt = none ∨ ∃ t, r.halt = some (.stop t))
    (first : ∀ e ∈ s.ops, e.2.gid = op.gid → isCpyw e.2.kind = true → op.seq ≤ e.2.seq) :
    finishCpyw s o op glob = endRows { r with
      s := { r.s with
        mem := r.ws.foldl (fun m w => wrN m w.key 4 w.val.toNat) r.s.mem
        poison := r.s.poison.filter (fun k => !r.ws.any (fun w => w.key == k)) }
      ws := [] } o op false 0 := by
  have none : s.ops.any (fun e => e.2.gid == op.gid && decide (e.2.seq < op.seq) && isCpyw e.2.kind) = false := by
    refine List.any_eq_false.2 fun e isIn ahead => ?_
    simp only [Bool.and_eq_true, beq_iff_eq, decide_eq_true_eq] at ahead
    obtain ⟨⟨same, early⟩, cpyw⟩ := ahead
    exact absurd (first e isIn same cpyw) (Nat.not_le.2 early)
  subst ran
  rcases ended with done | ⟨t, stopped⟩
  · simp only [finishCpyw, none, Bool.false_eq_true, if_false, done]
  · simp only [finishCpyw, none, Bool.false_eq_true, if_false, stopped]

theorem takeWhile_range {p : Nat → Bool} {n : Nat} (all : ∀ k < n, p k = true) : (List.range n).takeWhile p = List.range n :=
  List.takeWhile_eq_self_iff.2 fun k isIn => all k (List.mem_range.1 isIn)

variable {g : Group} {l : Nat}

/-- R128: a ferry copy holds its rows. -/
theorem finishFerry_good (isGroup : s.group? op.gid = some g) (isLaunch : g.launch = some l)
    (clean : ∀ k < (shapeOf op.pb).rows, firstPoison op.bad ((shapeOf op.pb).src + k * (shapeOf op.pb).sstride) (shapeOf op.pb).rowBytes = none) :
    finishFerry s o op = completeOp ({ s with fresh := s.fresh + (shapeOf op.pb).rows }.modLaunch l (fun x =>
      { x with ferry := x.ferry ++ (List.range (shapeOf op.pb).rows).map (fun k =>
        ({ id := s.fresh + k, link := (shapeOf op.pb).dst / 2 ^ 48, off := (shapeOf op.pb).dst % 2 ^ 48 + k * (shapeOf op.pb).dstride,
           step := op.gstep, data := rdL op.snap ((shapeOf op.pb).src + k * (shapeOf op.pb).sstride) (shapeOf op.pb).rowBytes, grp := op.gid,
           seq := op.seq } : Ferry)) })) o op.blk [] := by
  have whole : (List.range (shapeOf op.pb).rows).takeWhile (fun k =>
      (firstPoison op.bad ((shapeOf op.pb).src + k * (shapeOf op.pb).sstride) (shapeOf op.pb).rowBytes).isNone) = List.range (shapeOf op.pb).rows :=
    takeWhile_range fun k small => Option.isNone_iff_eq_none.2 (clean k small)
  simp only [finishFerry, whole, isGroup, Option.bind_some, isLaunch, List.length_range, Nat.lt_irrefl, if_false]

/-- R313: a move waits for the commit of its issue step. -/
theorem finishMove_held {demote : Bool} (isGroup : s.group? op.gid = some g) (isLaunch : g.launch = some l) :
    finishMove s o op demote = completeOp (s.modLaunch l (fun x => { x with moves := x.moves ++
      [{ op := o, grp := op.gid, step := op.gstep, wid := op.wid, seq := op.seq, core := op.core, sys := op.sys,
         dir := BitVec.ofNat 64 (fieldN op.pb 0 8), dest := BitVec.ofNat 64 (fieldN op.pb 8 8), demote := demote,
         phase := .issued, tier := 0, due := none, whole := false, redo := [] }] })) o op.blk [] := by
  simp only [finishMove, isGroup, Option.bind_some, isLaunch]

/-- R318: the rows of a view travel to their commit. -/
theorem finishBtst_sent {rule : WRule} {bs : List Byte} {t : State}
    (read : readWords s op .now 8 (BitVec.ofNat 64 (tshapeOf op.pb).view) = (.ok bs, t)) (good : viewOk bs none = true)
    (width : (viewOf bs).rowBytes = (tshapeOf op.pb).rowBytes) (whole : (btstRows op rule (tshapeOf op.pb) (viewOf bs)).2 = none)
    (isGroup : t.group? op.gid = some g) (isLaunch : g.launch = some l) :
    finishBtst s o op rule =
      completeOp (t.modLaunch l (fun x => { x with btst := x.btst ++ (btstRows op rule (tshapeOf op.pb) (viewOf bs)).1 })) o op.blk [] := by
  have fine : (!viewOk bs none || (viewOf bs).rowBytes != (tshapeOf op.pb).rowBytes) = false := by simp [good, width]
  simp only [finishBtst, read, fine, Bool.false_eq_true, if_false, whole, isGroup, Option.bind_some, isLaunch]

/-- R130: a CPYM completes when all its receivers hold its rows. -/
theorem finishMulti_done {recv : List Nat} (read : op.args = [1, 0, 0, 0]) (all : op.prog = 0 ∨ ∀ x ∈ recv, x ∈ op.accepted) :
    finishMulti s o op recv = completeOp s o op.blk [] := by
  have done : multiDone op recv = true := by
    rcases all with none | all
    · simp [multiDone, read, none]
    · rw [multiDone, List.all_eq_true.2 fun x isIn => List.contains_iff_mem.2 (all x isIn), Bool.true_or]
  simp only [finishMulti, done, Bool.not_true, Bool.false_eq_true, if_false, read]
  rfl

end Run

section Complete
variable {s : State} {o blk : Nat} {b : Block} {ws : List Write}

/-- The block of an operation that completes (R114). -/
def completedBlock (b : Block) (o : Nat) (ws : List Write) : Block :=
  { b with
    entries := b.entries.map (fun e => if e.op = o then { e with ret := some (retireStep b e) } else e)
    pend := b.pend ++ ws.map (fun w =>
      { w := w, step := ((b.entries.find? (fun e => e.op == o)).map (retireStep b)).getD b.closed, by_ := [o], ofOp := true }) }

theorem completeOp_eq (isBlock : s.block? blk = some b) :
    completeOp s o blk ws = { s.setBlock blk (completedBlock b o ws) with ops := tdel s.ops o } := by
  rw [completeOp, modBlock_eq isBlock]
  rfl

theorem le_retireFold (es : List Entry) : ∀ n : Nat, n ≤ es.foldl (fun m f => max m (f.ret.getD 0)) n ∧
    ∀ f ∈ es, ∀ k, f.ret = some k → k ≤ es.foldl (fun m f => max m (f.ret.getD 0)) n := by
  induction es with
  | nil => exact fun n => ⟨Nat.le_refl n, fun f isIn => absurd isIn List.not_mem_nil⟩
  | cons e es ih =>
    intro n
    obtain ⟨above, later⟩ := ih (max n (e.ret.getD 0))
    refine ⟨(Nat.le_max_left _ _).trans above, fun f isIn k isRet => ?_⟩
    rcases List.mem_cons.1 isIn with rfl | isIn
    · have : k ≤ max n (f.ret.getD 0) := by rw [isRet]; exact Nat.le_max_right _ _
      exact this.trans above
    · exact later f isIn k isRet

end Complete

section Deliver
variable {r : Ran} {o n : Nat} {op : AsyncOp} {g : Group} {l : Nat}

theorem endRows_local (whole : r.halt = none) : endRows r o op false n = completeOp { r.s with free := r.s.free + n + 1 } o op.blk r.ws := by
  simp only [endRows, whole, Bool.false_eq_true, if_false]

/-- R96, R239: the global writes of an operation leave after the hold window, with its issue step as tag. -/
theorem endRows_global (whole : r.halt = none) (isGroup : r.s.group? op.gid = some g) (isLaunch : g.launch = some l) :
    endRows r o op true n = completeOp ({ r.s with free := r.s.free + n + 1, fresh := r.s.fresh + r.ws.length }.modLaunch l (fun x =>
      { x with gw := x.gw ++ r.ws.zipIdx.map (fun (e : Write × Nat) =>
        ({ id := r.s.fresh + e.2, w := e.1, step := op.gstep, core := op.core,
           cycle := ({ r.s with free := r.s.free + n + 1 } : State).cycle (coreDie op.core),
           stage := .held (({ r.s with free := r.s.free + n + 1 } : State).cycle (coreDie op.core)) } : GWrite)) })) o op.blk [] := by
  have isGroup' : ({ r.s with free := r.s.free + n + 1 } : State).group? op.gid = some g := isGroup
  simp only [endRows, whole, if_true, deliver, isGroup', Option.bind_some, isLaunch]

end Deliver

section Arrive
variable {s : State} {k bid : Nat} {b : Block} {w : Window} {a : Arrival}

theorem arrive_waits (shut : ∀ e ∈ s.blocksOn k, ∀ w ∈ e.2.windows, w.win = a.win → w.filled ≠ none) : arrive s k a =
    if Config.landingBytes < ((s.core k).landing.map (fun b => b.data.length)).sum + a.data.length then none
    else some (s.modCore k (fun c => { c with landing := c.landing ++ [a] })) := by
  have miss : firstSome (fun (e : Nat × Block) =>
      (e.2.windows.find? (fun w => w.win == a.win && w.filled.isNone)).map (fun w => (e.1, w))) (s.blocksOn k) = none := by
    refine firstSome_none fun e isIn => ?_
    rw [List.find?_eq_none.2 fun w isWin hit => ?_]
    · rfl
    · obtain ⟨same, empty⟩ := Bool.and_eq_true_iff.1 hit
      exact shut e isIn w isWin (eq_of_beq same) (Option.isNone_iff_eq_none.1 empty)
  simp only [arrive, miss, Option.bind_none]

theorem arrive_fills (only : s.blocksOn k = [(bid, b)]) (isBlock : s.block? bid = some b)
    (open_ : b.windows.find? (fun w => w.win == a.win && w.filled.isNone) = some w) (order : inOrder b w.op = true)
    (first : ∀ x ∈ (s.core k).landing, x.win ≠ a.win) : arrive s k a = some (fillWindow s bid w a) := by
  have none : (s.core k).landing.any (fun b => b.win == a.win) = false :=
    List.any_eq_false.2 fun x isIn same => first x isIn (eq_of_beq same)
  simp only [arrive, only, firstSome, open_, Option.map_some, Option.bind_some, isBlock, order, Option.getD_some, none, Bool.not_false, Bool.and_self,
    if_true]

variable {o recv : Nat} {op : AsyncOp} {dir : Dir} {rule : WRule} {kind : Kind} {rs : List Nat} {t : State}

/-- R130: a receiver accepts the rows that a CPYM has read. -/
theorem landingArrival_accepted (isOp : tfind s.ops o = some op) (may : mayRun s o op = true) (cpym : op.kind = .cpym dir rule kind rs)
    (isRecv : recv ∈ rs) (new : recv ∉ op.accepted) (read : op.args ≠ []) (some_ : op.prog ≠ 0)
    (arrives : arrive s (coreKey (coreDie op.core) recv) (arrivalOf s op rule) = some t) :
    exec (.landingArrival o recv) s = .next (({ t with ops := tmod t.ops o (fun o => { o with accepted := o.accepted ++ [recv] }) }
      : State).modGroup op.gid (noteSent op recv)) := by
  have goes : (!mayRun s o op || !rs.contains recv || op.accepted.contains recv) = false := by
    rw [may, List.contains_iff_mem.2 isRecv, Bool.eq_false_iff.2 fun h => new (List.contains_iff_mem.1 h)]
    rfl
  have unread : op.args.isEmpty = false := by
    cases h : op.args with
    | nil => exact absurd h read
    | cons => rfl
  have sends : ((op.st != .running && op.st != .denied) || op.prog == 0) = false := by
    rcases (mayRun_facts may).1 with st | st <;> simp [st, some_]
  change execLandingArrival o recv s = _
  simp only [execLandingArrival, isOp, cpym, goes, unread, sends, Bool.false_eq_true, if_false, arrives]

end Arrive

theorem ferrySend_committed {s : State} {lid id : Nat} {l : Launch} {f : Ferry} (isLaunch : s.launch? lid = some l)
    (isRow : l.ferry.find? (fun f => f.id == id) = some f) (committed : f.step < l.c) : exec (.ferrySend lid id) s = .next
      { s.modLaunch lid (fun x => { x with ferry := x.ferry.filter (fun q => q.id != id) }) with sent := s.sent ++ [⟨f.link, f.off, f.data⟩] } := by
  change execFerrySend lid id s = _
  simp only [execFerrySend, isLaunch, isRow, committed, if_true]

/-- Settles O54: engine operations run their rows, deliver their writes and complete. -/
theorem operationsComplete : Obligations.OperationsComplete := by
  refine ⟨?_, ?_, ?_, ?_, ?_, ?_, ?_, ?_, ?_⟩
  · intro s o op r isOp may
    have runs := asyncComplete_runs isOp may
    refine ⟨?_, ?_, ?_, ?_, ?_, ?_, ?_, ?_, ?_⟩
    · intro dir rule kind isKind inner rows ran ended
      rw [runs]
      simp only [runOp, isKind, inner, Bool.false_eq_true, if_false]
      exact congrArg _ (finishRows_ends ran ended)
    · intro side rule kind isKind rows ran ended
      rw [runs]
      simp only [runOp, isKind]
      exact congrArg _ (finishRows_ends ran ended)
    · intro side rule isKind rows ran ended
      rw [runs]
      simp only [runOp, isKind]
      exact congrArg _ (finishRows_ends ran ended)
    · intro glob isKind ran ended first
      rw [runs]
      simp only [runOp, isKind]
      exact congrArg _ (finishCpyw_ends ran ended first)
    · intro dir rule kind g l isKind ferry isGroup isLaunch q clean
      rw [runs]
      simp only [runOp, isKind, ferry, if_true]
      exact congrArg _ (finishFerry_good isGroup isLaunch clean)
    · intro demote g l isKind isGroup isLaunch
      rw [runs]
      simp only [runOp, isKind]
      exact congrArg _ (finishMove_held isGroup isLaunch)
    · intro b w isKind isBlock isWin
      rw [runs]
      simp only [runOp, isKind, isBlock, Option.map_some, Option.getD_some, isWin]
    · intro rule bs t isKind read good width rows whole g l isGroup isLaunch
      rw [runs]
      simp only [runOp, isKind]
      exact congrArg _ (finishBtst_sent read good width whole isGroup isLaunch)
    · intro dir rule kind recv isKind read all
      rw [runs]
      simp only [runOp, isKind]
      exact congrArg _ (finishMulti_done read all)
  · intro s o blk b ws isBlock t
    have isT : t = _ := completeOp_eq isBlock
    rw [isT]
    exact ⟨(tfind_tdel ..).trans (if_pos rfl), fun q other => (tfind_tdel ..).trans (if_neg other), rfl, rfl, rfl, completedBlock b o ws,
      (block_setBlock s blk _ blk).trans (if_pos rfl), rfl, rfl, rfl⟩
  · intro b e
    obtain ⟨above, later⟩ := le_retireFold (mustFollow b e.op) (max e.step b.closed)
    exact ⟨above, later, fun none => by rw [retireStep, none]; rfl⟩
  · intro r o n op g l whole isGroup isLaunch s now
    exact ⟨endRows_local whole, endRows_global whole isGroup isLaunch⟩
  · intro s o op q isOp late running free outside
    change execAsyncComplete o s = _
    simp only [execAsyncComplete, isOp, late, running, free, outside, and_self, if_true]
  · exact fun s t o recv op dir rule kind rs isOp may cpym isRecv new read some_ arrives =>
      landingArrival_accepted isOp may cpym isRecv new read some_ arrives
  · exact fun s k a shut => ⟨fun room => (arrive_waits shut).trans (if_neg (Nat.not_lt.2 room)), fun full => (arrive_waits shut).trans (if_pos full)⟩
  · exact fun s k bid b w a only isBlock open_ order first => arrive_fills only isBlock open_ order first
  · exact fun s lid id l f isLaunch isRow committed => ferrySend_committed isLaunch isRow committed

end Sys2Proof.Machine

/-! The matrix queue and the integer accumulators (R169 to R172, R183, R189, R192, R194): O55. -/

namespace Sys2Proof.Machine
open State

section Queue
variable {s t u v : State} {core o : Nat} {op op1 : AsyncOp} {g : Group} {kind : Kind} {tile : Nat}

/-- R183: the front of a queue makes one step. -/
theorem matrixKstep_front (front : frontOf s [] (s.core core).queue = some (o, op)) (isGroup : s.group? op.gid = some g)
    (goes : queueReady s o op = true) : exec (.matrixKstep core) s =
      .next (patchShadows (frontStep (s.modCore core (fun c => { c with stalled := none })) o op g) op) := by
  change execMatrixKstep core s = _
  simp only [execMatrixKstep, front, isGroup, goes, if_true]

theorem frontStep_multiply (isKind : op.kind = .mma kind tile ∨ ∃ qs, op.kind = .mmq kind tile qs) :
    frontStep t o op g = multiplyStep t o op g kind tile := by
  rcases isKind with mma | ⟨qs, mmq⟩
  · rw [frontStep, mma]
  · rw [frontStep, mmq]

theorem multiplyStep_late {q : LateBlock} (late : op.late = some q) : multiplyStep t o op g kind tile = latchBlock t o op g tile q := by
  simp only [multiplyStep, late]

section Step
variable {xs : List (Part4 × Slice)} (read : op.late = none) (more : op.prog < kOf op) (idle : draining t (t.core op.core).queue = none)
include read more idle

theorem multiplyStep_next (fetched : fetchSlices kind (fblockOf op.pb) (kOf op) op.prog (partsOf op) t op = (.ok xs, u, op1))
    (fits : applyKstep u o op1 g tile xs = (.none, v)) : multiplyStep t o op g kind tile = v := by
  simp only [multiplyStep, read, idle, Nat.not_le.2 more, if_false, fetched, fits]

theorem multiplyStep_full (fetched : fetchSlices kind (fblockOf op.pb) (kOf op) op.prog (partsOf op) t op = (.ok xs, u, op1))
    (full : (applyKstep u o op1 g tile xs).1 = .full) (trap : (fblockOf op.pb).trap = true) :
    multiplyStep t o op g kind tile = stopMatrix (putOp u o op1) o op1 tile 0x30 0 0 0 := by
  obtain ⟨w, isFull⟩ : ∃ w, applyKstep u o op1 g tile xs = (.full, w) := ⟨_, Prod.ext full rfl⟩
  simp only [multiplyStep, read, idle, Nat.not_le.2 more, if_false, fetched, isFull, trap, if_true]

theorem multiplyStep_fault {cause sub opnd : Nat} {addr : Word}
    (fetched : fetchSlices kind (fblockOf op.pb) (kOf op) op.prog (partsOf op) t op = (.error (.stop cause addr sub, opnd), u, op1)) :
    multiplyStep t o op g kind tile = stopMatrix u o op1 tile cause addr opnd sub := by
  simp only [multiplyStep, read, idle, Nat.not_le.2 more, if_false, fetched]

end Step
end Queue

section Cells
variable {c : Core} {plane q row col a b : Nat}

/-- R169: a cell and its carry together hold the exact sum. -/
theorem carry_exact (x : BitVec 20) {p : Int} (low : -2 ^ 20 ≤ p) (high : p ≤ 2 ^ 20) :
    x.toInt + p = (carry x p).1.toInt + 2 ^ 20 * (carry x p).2 ∧ ((carry x p).2 = -1 ∨ (carry x p).2 = 0 ∨ (carry x p).2 = 1) := by
  have below : x.toInt < 2 ^ 19 := by have := BitVec.toInt_lt (x := x); simpa using this
  have above : -2 ^ 19 ≤ x.toInt := by have := BitVec.le_toInt (x := x); simpa using this
  have holds {t : Int} (h : -2 ^ 19 ≤ t) (h' : t < 2 ^ 19) : (BitVec.ofInt 20 t).toInt = t :=
    BitVec.toInt_ofInt_eq_self (by omega) (by simpa using h) (by simpa using h')
  unfold carry
  dsimp only
  split
  · exact ⟨by dsimp only; rw [holds (by omega) (by omega)]; omega, .inr (.inr rfl)⟩
  · split
    · exact ⟨by dsimp only; rw [holds (by omega) (by omega)]; omega, .inl rfl⟩
    · exact ⟨by dsimp only; rw [holds (by omega) (by omega)]; omega, .inr (.inl rfl)⟩

theorem getCell_setCell_same (x : BitVec 20) : getCell (setCell c plane row col x) plane row col = x := tget_tput_same _ _ _ _

theorem cellKey_inj (hr : row < 32) (hc : col < 32) (ha : a < 32) (hb : b < 32) (same : cellKey q row col = cellKey plane a b) :
    q = plane ∧ row = a ∧ col = b := by
  unfold cellKey at same
  omega

theorem getCell_setCell_other (x : BitVec 20) (hr : row < 32) (hc : col < 32) (ha : a < 32) (hb : b < 32)
    (other : ¬ (q = plane ∧ row = a ∧ col = b)) : getCell (setCell c plane a b x) q row col = getCell c q row col :=
  tget_tput_other _ _ _ fun same => other (cellKey_inj hr hc ha hb same)

theorem highOf_setCell (x : BitVec 20) : highOf (setCell c plane a b x) q row col = highOf c q row col := rfl

theorem getCell_setHigh (h : Int) : getCell (setHigh c plane a b h) q row col = getCell c q row col := rfl

theorem isAt_iff (e : OvfEntry) : e.isAt plane row col = true ↔ e.plane = plane ∧ e.row = row ∧ e.col = col := by
  simp [OvfEntry.isAt, and_assoc]

/-- R170: a count of 0 frees the entry, and reads as 0 all the same. -/
theorem highOf_setHigh_same (h : Int) : (highOf (setHigh c plane row col h) plane row col).getD 0 = h := by
  have none : (c.ovf.filter (fun e => !e.isAt plane row col)).find? (fun e => e.isAt plane row col) = none := by
    refine List.find?_eq_none.2 fun e isIn at_ => ?_
    have := (List.mem_filter.1 isIn).2
    rw [at_] at this
    cases this
  unfold highOf setHigh
  dsimp only
  split_ifs with zero
  · rw [none, zero]
    rfl
  · have new : (⟨plane, row, col, h⟩ : OvfEntry).isAt plane row col = true := (isAt_iff _).2 ⟨rfl, rfl, rfl⟩
    simp only [List.find?_append, none, List.find?_cons, new, Option.none_or, Option.map_some, Option.getD_some]

theorem highOf_setHigh_other (h : Int) (other : ¬ (q = plane ∧ row = a ∧ col = b)) :
    highOf (setHigh c plane a b h) q row col = highOf c q row col := by
  have apart (e : OvfEntry) (here : e.isAt q row col = true) : (!e.isAt plane a b) = true := by
    obtain ⟨rfl, rfl, rfl⟩ := (isAt_iff e).1 here
    rw [Bool.not_eq_true']
    exact Bool.eq_false_iff.2 fun at_ => other ((isAt_iff e).1 at_)
  have kept : (c.ovf.filter (fun e => !e.isAt plane a b)).find? (fun e => e.isAt q row col) = c.ovf.find? (fun e => e.isAt q row col) := by
    rw [List.find?_filter]
    congr 1
    funext e
    cases here : e.isAt q row col with
    | false => simp
    | true => simp [apart e here]
  unfold highOf setHigh
  dsimp only
  split_ifs with zero
  · rw [kept]
  · have notNew : (⟨plane, a, b, h⟩ : OvfEntry).isAt q row col = false :=
      Bool.eq_false_iff.2 fun at_ => other (by obtain ⟨x, y, z⟩ := (isAt_iff _).1 at_; exact ⟨x.symm, y.symm, z.symm⟩)
    rw [List.find?_append, kept, List.find?_cons_of_neg (by rw [notNew]; exact Bool.false_ne_true)]
    cases c.ovf.find? (fun e => e.isAt q row col) <;> rfl

variable {flag : Bool} {t : Term}

/-- The high count of a cell after a product, before it saturates (R169). -/
def nextHigh (c : Core) (plane : Nat) (t : Term) : Int :=
  (highOf c plane t.row t.col).getD 0 + (carry (getCell c plane t.row t.col) t.p).2

/-- A core whose cell has taken a product, its high count still the old one. -/
def carried (c : Core) (plane : Nat) (t : Term) : Core :=
  setCell c plane t.row t.col (carry (getCell c plane t.row t.col) t.p).1

theorem addTerm_still (still : (carry (getCell c plane t.row t.col) t.p).2 = 0) : addTerm plane (c, flag) t = (carried c plane t, flag) :=
  if_pos still

theorem addTerm_carries (carries : (carry (getCell c plane t.row t.col) t.p).2 ≠ 0) : addTerm plane (c, flag) t =
    (setHigh (carried c plane t) plane t.row t.col (max (-2048) (min 2047 (nextHigh c plane t))),
      flag || decide (nextHigh c plane t < -2048) || decide (2047 < nextHigh c plane t)) :=
  if_neg carries

/-- The value of a cell with its high count (R169). -/
def cellTotal (c : Core) (plane row col : Nat) : Int := (getCell c plane row col).toInt + 2 ^ 20 * (highOf c plane row col).getD 0

theorem addTerm_exact (low : -2 ^ 20 ≤ t.p) (high : t.p ≤ 2 ^ 20)
    (fits : (carry (getCell c plane t.row t.col) t.p).2 = 0 ∨ (-2048 ≤ nextHigh c plane t ∧ nextHigh c plane t ≤ 2047)) :
    cellTotal (addTerm plane (c, flag) t).1 plane t.row t.col = cellTotal c plane t.row t.col + t.p ∧ (addTerm plane (c, flag) t).2 = flag := by
  obtain ⟨sum, -⟩ := carry_exact (getCell c plane t.row t.col) low high
  by_cases still : (carry (getCell c plane t.row t.col) t.p).2 = 0
  · rw [addTerm_still still]
    refine ⟨?_, rfl⟩
    rw [cellTotal, carried, getCell_setCell_same, highOf_setCell, cellTotal]
    rw [still] at sum
    omega
  · obtain ⟨above, below⟩ := fits.resolve_left still
    rw [addTerm_carries still, show max (-2048) (min 2047 (nextHigh c plane t)) = nextHigh c plane t by omega]
    refine ⟨?_, ?_⟩
    · rw [cellTotal, getCell_setHigh, carried, getCell_setCell_same, highOf_setHigh_same, cellTotal, nextHigh]
      omega
    · rw [decide_eq_false (by omega), decide_eq_false (by omega), Bool.or_false, Bool.or_false]

theorem addTerm_saturates (carries : (carry (getCell c plane t.row t.col) t.p).2 ≠ 0)
    (beyond : nextHigh c plane t < -2048 ∨ 2047 < nextHigh c plane t) : (addTerm plane (c, flag) t).2 = true := by
  rw [addTerm_carries carries]
  rcases beyond with h | h
  · rw [decide_eq_true h, Bool.or_true, Bool.true_or]
  · rw [decide_eq_true h, Bool.or_true]

theorem addTerm_other (ha : t.row < 32) (hb : t.col < 32) (hr : row < 32) (hc : col < 32) (other : ¬ (q = plane ∧ row = t.row ∧ col = t.col)) :
    getCell (addTerm plane (c, flag) t).1 q row col = getCell c q row col ∧
      highOf (addTerm plane (c, flag) t).1 q row col = highOf c q row col := by
  by_cases still : (carry (getCell c plane t.row t.col) t.p).2 = 0
  · rw [addTerm_still still]
    exact ⟨getCell_setCell_other _ hr hc ha hb other, rfl⟩
  · rw [addTerm_carries still]
    exact ⟨getCell_setCell_other _ hr hc ha hb other, (highOf_setHigh_other _ other).trans rfl⟩

end Cells

section Integer
variable {u : State} {o tile : Nat} {op : AsyncOp} {g : Group} {xs : List (Part4 × Slice)}

theorem applyKstep_full (int : (fblockOf op.pb).float = false)
    (full : freeEntries (u.core op.core) <
      newEntries (u.core op.core) (planeOf g tile) (intTerms (op.tables.getD (u.core op.core).ctab) (fblockOf op.pb) xs)) :
    applyKstep u o op g tile xs = (.full, u) := by
  simp only [applyKstep, int, Bool.false_eq_true, if_false, full, if_true]

theorem applyKstep_fits (int : (fblockOf op.pb).float = false)
    (fits : newEntries (u.core op.core) (planeOf g tile) (intTerms (op.tables.getD (u.core op.core).ctab) (fblockOf op.pb) xs) ≤
      freeEntries (u.core op.core)) :
    let r := (intTerms (op.tables.getD (u.core op.core).ctab) (fblockOf op.pb) xs).foldl (addTerm (planeOf g tile)) (u.core op.core, false)
    let v := { u with free := u.free + 4096 }.setCore op.core r.1
    applyKstep u o op g tile xs = (.none, advance (if r.2 then setWov v op.gid [tile] true else v) o op (kOf op) []) := by
  simp only [applyKstep, int, Bool.false_eq_true, if_false, Nat.not_lt.2 fits]

end Integer

/-- Settles O55: the matrix unit takes its queue in order, and a cell with its high count holds the exact sum. -/
theorem matrixSteps : Obligations.MatrixSteps := by
  refine ⟨?_, ?_, fun x p low high => carry_exact x low high, ?_, ?_⟩
  · intro s core o op g front isGroup goes t done
    have ran {v : State} (isStep : frontStep t o op g = v) : done v := by
      change exec (.matrixKstep core) s = _
      rw [matrixKstep_front front isGroup goes, ← isStep]
    refine ⟨fun flt tile isKind => ran ?_, fun flt tile isKind => ran ?_, fun clr flt rnd tile isKind => ran ?_, fun tab isKind => ran ?_,
      fun kind tile q isKind late => ran ((frontStep_multiply isKind).trans (multiplyStep_late late)), ?_⟩
    · rw [frontStep, isKind]
    · rw [frontStep, isKind]
    · rw [frontStep, isKind]
    · rw [frontStep, isKind]
    · intro kind tile isKind read more idle fetched
      exact ⟨fun xs u op1 v isFetched fits => ran ((frontStep_multiply isKind).trans (multiplyStep_next read more idle isFetched fits)),
        fun xs u op1 isFetched full trap => ran ((frontStep_multiply isKind).trans (multiplyStep_full read more idle isFetched full trap)),
        fun cause addr sub opnd u op1 isFetched => ran ((frontStep_multiply isKind).trans (multiplyStep_fault read more idle isFetched))⟩
  · exact fun u o op g tile xs int => ⟨applyKstep_full int, applyKstep_fits int⟩
  · intro c flag plane t low high ha hb r total h
    exact ⟨addTerm_exact low high, addTerm_saturates, fun q row col hr hc other => addTerm_other ha hb hr hc other⟩
  · exact fun s o op total ws => ⟨fun more => if_neg (Nat.not_le.2 more), fun last => if_pos last⟩

end Sys2Proof.Machine

/-! The host's accesses, ferry rows and poison marks (R98, R102, R128, R217, R242, R244, R250, R264, R266, R437): O56. -/

namespace Sys2Proof.Machine
open State

section Pieces

/-- An access within one page is one piece. -/
theorem cutsOf_one {va : Word} {n : Nat} (some_ : n ≠ 0) (inside : va.toNat % 65536 + n ≤ 65536) : cutsOf va n = [(0, n)] := by
  have whole : min n (65536 - va.toNat % 65536) = n := by omega
  simp only [cutsOf, pageCuts, if_neg some_, whole, Nat.sub_self, if_true]

theorem add_zeroWord (va : Word) : va + BitVec.ofNat 64 0 = va := BitVec.add_zero va

end Pieces

section Reach
variable {s : State} {P : Part} {g : Option Nat} {va : Word} {write : Bool}

theorem hostReach_uncanonical (bad : canonical va = false) : hostReach s P g va write = (.none_, s) := by
  simp only [hostReach, bad, Bool.not_false, if_true]

theorem hostReach_fault {f : WalkFault} (good : canonical va = true) (fault : walk s.mem P [] g (pageOf va) = .error f) :
    hostReach s P g va write = (.none_, s.trailed f.trail) := by
  simp only [hostReach, good, Bool.not_true, Bool.false_eq_true, if_false, fault]

variable {t : Trans} (good : canonical va = true) (found : walk s.mem P [] g (pageOf va) = .ok t)
include good found

theorem hostReach_refused (refused : t.res = false ∨ (write = true ∧ t.e.w = false)) : hostReach s P g va write = (.none_, s.trailed t.trail) := by
  have refused' : (!t.res || (write && !t.e.w)) = true := by
    rcases refused with away | ⟨isWrite, fixed⟩
    · rw [away]; rfl
    · rw [isWrite, fixed]; exact Bool.or_true _
  simp only [hostReach, good, Bool.not_true, Bool.false_eq_true, if_false, found, refused', if_true]

theorem hostReach_let (resident : t.res = true) (writable : write = true → t.e.w = true) : hostReach s P g va write =
    if outside P t.e.key then (.beyond, s.trailed t.trail) else (.at_ (t.e.key + va.toNat % 65536), s.trailed t.trail) := by
  have allowed : (!t.res || (write && !t.e.w)) = false := by
    rw [resident]
    cases isWrite : write with
    | false => rfl
    | true => rw [writable isWrite]; rfl
  simp only [hostReach, good, Bool.not_true, Bool.false_eq_true, if_false, found, allowed]

end Reach

section Write
variable {s t : State} {part : Nat} {P : Part} {at_ : HostAt} {va : Word} {data : List Byte} {key : Nat}

theorem port_refuses (stopped : P.fatal = true ∨ hostFrozen P = true) : (P.fatal || hostFrozen P) = true := Bool.or_eq_true_iff.2 stopped

theorem hostWrite_refused (isPart : s.part? part = some P) (stopped : P.fatal = true ∨ hostFrozen P = true) :
    exec (.hostWrite part at_ data) s = .next s := by
  change execHostWrite part at_ data s = _
  simp only [execHostWrite, isPart, port_refuses stopped, if_true]

theorem hostWrite_outside (isPart : s.part? part = some P) (alive : P.fatal = false) (thawed : hostFrozen P = false) (down : P.ideUp = false) :
    exec (.hostWrite part at_ data) s = .next { s with hostr := s.hostr ++ [⟨part, .at_ at_, .unsupported⟩] } := by
  change execHostWrite part at_ data s = _
  simp only [execHostWrite, isPart, alive, thawed, down, Bool.or_self, Bool.false_eq_true, if_false, Bool.not_false, if_true]
  rfl

theorem hostWrite_goes (isPart : s.part? part = some P) (alive : P.fatal = false) (thawed : hostFrozen P = false) (up : P.ideUp = true) :
    exec (.hostWrite part at_ data) s =
      .next (match at_ with | .mem va => hostWriteAll s part P none va data | .weight die off => hostWeight s part P die off data) := by
  change execHostWrite part at_ data s = _
  simp only [execHostWrite, isPart, alive, thawed, up, Bool.or_self, Bool.false_eq_true, if_false, Bool.not_true]
  cases at_ <;> rfl

theorem hostWriteAll_one {g : Option Nat} (some_ : data ≠ []) (inside : va.toNat % 65536 + data.length ≤ 65536) :
    hostWriteAll s part P g va data = hostWritePiece part P g s va data := by
  have length : data.length ≠ 0 := fun none => some_ (List.eq_nil_of_length_eq_zero none)
  rw [hostWriteAll, cutsOf_one length inside]
  simp only [List.foldl_cons, List.foldl_nil, add_zeroWord, List.drop_zero, List.take_length]

/-- R98: a page that no running launch maps takes the bytes at once. -/
theorem landWrite_free (free : mappers s key = []) : landWrite s key data = { s with
    mem := wrL s.mem key data
    poison := s.poison.filter (fun w => !(decide (key ≤ w) && decide (w + 4 ≤ key + data.length))) } := by
  simp only [landWrite, free]

theorem landWrite_held (held : mappers s key ≠ []) : landWrite s key data = { s with hostw := s.hostw ++ [⟨key, data, mappers s key⟩] } := by
  unfold landWrite
  split
  · next none => exact absurd none held
  · rfl

theorem hostWritePiece_eq {g : Option Nat} : hostWritePiece part P g s va data = match (hostReach s P g va true).1 with
    | .at_ key => landWrite (hostReach s P g va true).2 key data
    | .none_ => (hostReach s P g va true).2.reportAbort part
    | .beyond => freezeHost (hostReach s P g va true).2 part P true va := by
  unfold hostWritePiece
  split <;> next isReach => rw [isReach]

variable {p die off : Nat} (isDie : s.physDie? P die = some p)
include isDie

theorem hostWeight_refused (runs : launchRuns s part = true) :
    hostWeight s part P die off data = { s with hostr := s.hostr ++ [⟨part, .at_ (.weight die off), .unsupported⟩] } := by
  simp only [hostWeight, isDie, runs, Bool.true_or, if_true]
  rfl

theorem hostWeight_lands (idle : launchRuns s part = false) (inside : inWeight off data.length = true)
    (still : weightBusy s p off data.length = false) : hostWeight s part P die off data = { s with
      mem := wrL s.mem (keyWeight p off) data
      poison := s.poison.filter (fun w => !(decide (keyWeight p off ≤ w) && decide (w + 4 ≤ keyWeight p off + data.length))) } := by
  simp only [hostWeight, isDie, idle, inside, still, Bool.not_true, Bool.or_self, Bool.false_eq_true, if_false]

end Write

section Read
variable {s : State} {part off len : Nat} {P : Part} {a : HostAt} {va : Word}

theorem hostRead_refused (isPart : s.part? part = some P) (stopped : P.fatal = true ∨ hostFrozen P = true) :
    exec (.hostRead part (.at_ a) len) s = .next s := by
  change execHostRead part (.at_ a) len s = _
  simp only [execHostRead, isPart, port_refuses stopped, if_true]

theorem hostRead_outside (isPart : s.part? part = some P) (alive : P.fatal = false) (thawed : hostFrozen P = false) (down : P.ideUp = false) :
    exec (.hostRead part (.at_ a) len) s = .next { s with hostr := s.hostr ++ [⟨part, .at_ a, .unsupported⟩] } := by
  change execHostRead part (.at_ a) len s = _
  simp only [execHostRead, isPart, alive, thawed, down, Bool.or_self, Bool.false_eq_true, if_false, Bool.not_false, if_true]
  rfl

theorem hostRead_goes (isPart : s.part? part = some P) (alive : P.fatal = false) (thawed : hostFrozen P = false) (up : P.ideUp = true) :
    exec (.hostRead part (.at_ a) len) s =
      .next (match a with | .mem va => hostReadMem s part P va len | .weight die off => hostReadWeight s part P die off len) := by
  change execHostRead part (.at_ a) len s = _
  simp only [execHostRead, isPart, alive, thawed, up, Bool.or_self, Bool.false_eq_true, if_false, Bool.not_true]
  cases a <;> rfl

theorem hostReadAll_one : hostReadAll s P va [(0, len)] = match (hostReach s P none va false).1 with
    | .at_ key => (.ok (rdL (hostReach s P none va false).2.mem key len), (hostReach s P none va false).2.rebuilds (lineKeys key len))
    | r => (.error r, (hostReach s P none va false).2) := by
  rw [hostReadAll, add_zeroWord]
  split
  · next isReach => rw [isReach, hostReadAll]; simp only [List.append_nil]
  · next r u other isReach =>
    rw [isReach]
    cases r with
    | at_ key => exact absurd rfl (other key)
    | none_ => rfl
    | beyond => rfl

variable (some_ : 0 < len) (inside : va.toNat % 65536 + len ≤ 65536)
include some_ inside

theorem hostReadMem_found {key : Nat} (found : (hostReach s P none va false).1 = .at_ key) : hostReadMem s part P va len =
    answer ((hostReach s P none va false).2.rebuilds (lineKeys key len)) part (.at_ (.mem va))
      (.data (rdL (hostReach s P none va false).2.mem key len)) := by
  simp only [hostReadMem, cutsOf_one (Nat.pos_iff_ne_zero.1 some_) inside, hostReadAll_one, found]

theorem hostReadMem_lost (lost : (hostReach s P none va false).1 = .none_) : hostReadMem s part P va len = { (hostReach s P none va false).2 with
    hostr := (hostReach s P none va false).2.hostr ++ [⟨part, .at_ (.mem va), .abort⟩]
    aer := (hostReach s P none va false).2.aer ++ [⟨.nonFatal, part, true⟩] } := by
  simp only [hostReadMem, cutsOf_one (Nat.pos_iff_ne_zero.1 some_) inside, hostReadAll_one, lost]
  rfl

theorem hostReadMem_beyond (beyond : (hostReach s P none va false).1 = .beyond) :
    hostReadMem s part P va len = freezeHost (hostReach s P none va false).2 part P false va := by
  simp only [hostReadMem, cutsOf_one (Nat.pos_iff_ne_zero.1 some_) inside, hostReadAll_one, beyond]

end Read

section Bar
variable {s : State} {part off len : Nat} {P : Part} {guest : Option (BitVec 3)} {g : BitVec 3}

theorem hostRead_bar (isPart : s.part? part = some P) (up : P.ideUp = true) :
    exec (.hostRead part (.bar guest off) len) s = .next (barRead s part P guest off len) := by
  change execHostRead part (.bar guest off) len s = _
  simp only [execHostRead, isPart, up, Bool.not_true, Bool.false_eq_true, if_false]

theorem hostRead_bar_outside (isPart : s.part? part = some P) (down : P.ideUp = false) :
    exec (.hostRead part (.bar guest off) len) s = .next (answer s part (.bar guest off) .unsupported) := by
  change execHostRead part (.bar guest off) len s = _
  simp only [execHostRead, isPart, down, Bool.not_false, if_true]

theorem barRead_host (aligned : off % 8 = 0) :
    barRead s part P none off 8 = answer s part (.bar none off) (.data (leBytes 8 (hostRegister s part P off).toNat)) := by
  have base : off / 8 * 8 = off := by omega
  simp [barRead, aligned, base]

theorem barRead_guest (aligned : off % 8 = 0) :
    barRead s part P (some g) off 8 = answer s part (.bar (some g) off) (.data (leBytes 8 (virtualRegister s P g.toNat off).toNat)) := by
  have base : off / 8 * 8 = off := by omega
  simp [barRead, aligned, base]

/-- R259: the low half of a counter latches the high one. -/
theorem barRead_low (aligned : off % 8 = 0) (low : 0x1000 ≤ off) (high : off < 0x10000) : barRead s part P (some g) off 4 =
    answer (s.modPart part (fun R => { R with latch := tput 0 R.latch g.toNat ((virtualRegister s P g.toNat off).extractLsb' 32 32) })) part
      (.bar (some g) off) (.data (leBytes 4 ((virtualRegister s P g.toNat off).extractLsb' 0 32).toNat)) := by
  have base : off / 8 * 8 = off := by omega
  have whole : off % 4 = 0 := by omega
  simp [barRead, aligned, base, whole, low, high, halfOf]

theorem barRead_high (aligned : off % 8 = 0) (low : 0x1000 ≤ off) (high : off < 0x10000) : barRead s part P (some g) (off + 4) 4 =
    answer s part (.bar (some g) (off + 4)) (.data (leBytes 4 (tget 0 P.latch g.toNat).toNat)) := by
  have base : (off + 4) / 8 * 8 = off := by omega
  have upper : (off + 4) % 8 = 4 := by omega
  have whole : (off + 4) % 4 = 0 := by omega
  simp [barRead, base, upper, whole, low, high]

end Bar

/-- R246: a black box takes a record at its index. -/
theorem bboxAdd_die (s : State) (p : Nat) (r : BBox) : (s.bboxAdd p r).die p =
    { s.die p with bbox := tset (s.die p).bbox ((s.die p).bbIdx % 4096) r, bbIdx := ((s.die p).bbIdx + 1) % 65536 } :=
  (die_modDie ..).trans (if_pos rfl)

/-- Settles O56: the host reads and writes device memory, ferry rows land, and poison is marked. -/
theorem hostAccesses : Obligations.HostAccesses := by
  refine ⟨?_, ?_, ?_, ?_, ?_, ?_, ?_, ?_, ?_, ?_, ?_, ?_, fun s part up => rfl⟩
  · exact fun s part P at_ data isPart => ⟨hostWrite_refused isPart, hostWrite_outside isPart⟩
  · intro s part P va data isPart up alive thawed some_ inside r
    have goes : exec (.hostWrite part (.mem va) data) s = .next (hostWritePiece part P none s va data) :=
      (hostWrite_goes isPart alive thawed up).trans (congrArg _ (hostWriteAll_one some_ inside))
    refine ⟨fun key found free => ?_, fun key found held => ?_, fun lost => ?_, fun beyond => ?_⟩
    · have isFound : (hostReach s P none va true).1 = .at_ key := found
      rw [goes, hostWritePiece_eq, isFound]
      exact congrArg _ (landWrite_free free)
    · have isFound : (hostReach s P none va true).1 = .at_ key := found
      rw [goes, hostWritePiece_eq, isFound]
      exact congrArg _ (landWrite_held held)
    · have isLost : (hostReach s P none va true).1 = .none_ := lost
      rw [goes, hostWritePiece_eq, isLost]
      rfl
    · have isBeyond : (hostReach s P none va true).1 = .beyond := beyond
      rw [goes, hostWritePiece_eq, isBeyond]
  · intro s part p die off P data isPart up alive thawed isDie
    have goes : exec (.hostWrite part (.weight die off) data) s = .next (hostWeight s part P die off data) := hostWrite_goes isPart alive thawed up
    exact ⟨fun runs => goes.trans (congrArg _ (hostWeight_refused isDie runs)),
      fun idle inside still => goes.trans (congrArg _ (hostWeight_lands isDie idle inside still))⟩
  · intro s P g va write
    refine ⟨fun bad => congrArg Prod.fst (hostReach_uncanonical bad), fun f good fault => congrArg Prod.fst (hostReach_fault good fault),
      fun t good found => ⟨fun refused => congrArg Prod.fst (hostReach_refused good found refused), fun resident writable out => ?_,
        fun resident writable within => ?_⟩⟩
    · rw [hostReach_let good found resident writable, if_pos out]
    · rw [hostReach_let good found resident writable, if_neg (ne_true_of_eq_false within)]
  · exact fun s part P at_ len isPart => ⟨hostRead_refused isPart, hostRead_outside isPart⟩
  · intro s part P va len isPart thawed up alive some_ inside r
    have goes : exec (.hostRead part (.at_ (.mem va)) len) s = .next (hostReadMem s part P va len) := hostRead_goes isPart alive thawed up
    exact ⟨fun key found => goes.trans (congrArg _ (hostReadMem_found some_ inside found)),
      fun lost => goes.trans (congrArg _ (hostReadMem_lost some_ inside lost)),
      fun beyond => goes.trans (congrArg _ (hostReadMem_beyond some_ inside beyond))⟩
  · intro s part p die off len P isPart up alive thawed isDie inside still
    refine (hostRead_goes isPart alive thawed up).trans (congrArg _ ?_)
    simp only [hostReadWeight, isDie, inside, still, Bool.not_true, Bool.false_eq_true, if_false]
  · intro s part off P guest isPart
    refine ⟨fun down len => hostRead_bar_outside isPart down, fun up aligned => ⟨?_, ?_, ?_⟩⟩
    · rintro rfl
      exact (hostRead_bar isPart up).trans (congrArg _ (barRead_host aligned))
    · rintro g rfl
      exact (hostRead_bar isPart up).trans (congrArg _ (barRead_guest aligned))
    · rintro g rfl low high x
      exact ⟨(hostRead_bar isPart up).trans (congrArg _ (barRead_low aligned low high)),
        (hostRead_bar isPart up).trans (congrArg _ (barRead_high aligned low high))⟩
  · intro s part P off data isPart alive
    have goes : exec (.ferryArrival part off data) s = execFerryArrival part off data s := rfl
    refine ⟨fun far => ?_, fun inside => ?_⟩
    · rw [goes]
      simp only [execFerryArrival, isPart, alive, Bool.false_eq_true, if_false, far, if_true]
    · rw [goes]
      simp only [execFerryArrival, isPart, alive, Bool.false_eq_true, if_false, Nat.not_lt.2 inside]
  · exact fun s die key store => rfl
  · intro s die bid addr store b isBlock
    change execPoisonMark die store (.loc bid addr) s = _
    simp only [execPoisonMark, isBlock]
  · intro s p r _
    refine ⟨?_, ?_, fun n other => ?_, rfl⟩
    · rw [bboxAdd_die]
    · rw [bboxAdd_die]
      exact tfind_tset_same _ _ _
    · rw [bboxAdd_die]
      exact tfind_tset_other _ _ other

end Sys2Proof.Machine

/-! Mailboxes and shoot-downs (R216, R359 to R362, R414 to R416): O57. -/

namespace Sys2Proof.Machine
open State

section Mailbox

theorem firstSome_append {α β : Type} {f : α → Option β} {x : α} {y : β} {after : List α} (isY : f x = some y) :
    ∀ {before : List α}, (∀ v ∈ before, f v = none) → firstSome f (before ++ x :: after) = some y
  | [], _ => by rw [List.nil_append, firstSome, isY]
  | v :: before, dry => by
    rw [List.cons_append, firstSome, dry v List.mem_cons_self]
    exact firstSome_append isY fun u isIn => dry u (List.mem_cons_of_mem _ isIn)

variable {s : State} {p chan : Nat} {w : MboxWait}

theorem tryServe_kept {t : Taken} (isChan : waitChan s w = some chan)
    (first : (s.die p).waits.find? (fun v => waitChan s v == some chan && v.group == w.group) = some w)
    (kept : keptFor s p w.group chan = some t) :
    tryServe s p w = some ((serveWait s p w chan t.bs).modDie p (fun d => { d with kept := d.kept.erase t })) := by
  simp only [tryServe, isChan, first, beq_self_eq_true, if_true, kept]

/-- R359: without a returned item, the earliest request of a channel is served. -/
theorem tryServe_head (isChan : waitChan s w = some chan) (none_ : keptFor s p w.group chan = none)
    (head : (s.die p).waits.find? (fun v => waitChan s v == some chan) = some w) : tryServe s p w =
      if chan = 0 then
        match (s.die p).mbox with
        | [] => none
        | m :: rest => some ((serveWait s p w 0 (itemBytes s m)).modDie p (fun d => Die.letIn { d with mbox := rest }))
      else (ringTake s p).map (fun r => serveWait r.2 p w chan r.1) := by
  have notOther : ((some w : Option MboxWait) != some w) = false := bne_self_eq_false _
  simp only [tryServe, isChan, none_, ite_self, head, notOther, Bool.false_eq_true, if_false] <;> rfl

theorem serveWait_load {bs : List Byte} {op : LoadOp} (isLoad : tfind s.loads w.load = some op) :
    tfind (serveWait s p w chan bs).loads w.load =
      some { op with reads := op.reads.map (fun r => { r with val := some (BitVec.ofNat 64 (fieldN bs (8 * r.lane) 8)) }) } := by
  have filled : tfind (tmod s.loads w.load (fillItem bs)) w.load = some (fillItem bs op) := by rw [tfind_tmod, if_pos rfl, isLoad]; rfl
  exact filled

theorem serveWait_die {bs : List Byte} {op : LoadOp} (isLoad : tfind s.loads w.load = some op) : (serveWait s p w chan bs).die p =
    { s.die p with waits := (s.die p).waits.erase w, taken := ⟨op.seq, w.group, chan, bs⟩ :: (s.die p).taken } := by
  simp only [serveWait, isLoad, Option.map_some, Option.getD_some]
  exact (die_modDie ..).trans (if_pos rfl)

end Mailbox

section Invalidate
variable {s : State} {gid : Nat} {g : Group} {t : TlbInv}

/-- R415: an invalidation begins once the commit before its step has been applied. -/
theorem tlbinvBegin_free (isGroup : s.group? gid = some g) (isInv : g.tlbi = some t)
    (applied : ∀ lid l, g.launch = some lid → s.launch? lid = some l → l.steps = true →
      t.step ≤ l.c ∧ ∀ j, lowestStep s lid l = some j → t.step ≤ j) :
    exec (.tlbinvBegin gid) s = .next (s.setGroup gid { g with tlbi := some { t with begun := true } }) := by
  have free : (match g.launch.bind (fun i => (s.launch? i).map (fun l => (i, l))) with
      | some (i, l) => !l.steps || (decide (t.step ≤ l.c) && ((lowestStep s i l).map (fun j => decide (t.step ≤ j))).getD true)
      | none => true) = true := by
    split
    · next i l found =>
      obtain ⟨lid, isLid, isPair⟩ := Option.bind_eq_some_iff.1 found
      obtain ⟨m, isLaunch, same⟩ := Option.map_eq_some_iff.1 isPair
      cases same
      cases steps : l.steps with
      | false => rfl
      | true =>
        obtain ⟨behind, below⟩ := applied i l isLid isLaunch steps
        rw [decide_eq_true behind]
        cases lowest : lowestStep s i l with
        | none => rfl
        | some j => exact decide_eq_true (below j lowest)
    · rfl
  change execTlbinvBegin gid s = _
  simp only [execTlbinvBegin, isGroup, isInv]
  exact if_pos free

theorem tlbinvComplete_clear (isGroup : s.group? gid = some g) (isInv : g.tlbi = some t) (begun : t.begun = true)
    (writes : ∀ e ∈ s.launches, some e.2.part = s.partOfDie (coreDie (s.blockOf g).core) → t.inFlight e.2 = false)
    (reads : ∀ e ∈ s.loads, t.reading s (s.partOfDie (coreDie (s.blockOf g).core)) e.2 = false) :
    let u := (shootDown s (s.partOfDie (coreDie (s.blockOf g).core)) t).setGroup gid { g with tlbi := none }
    exec (.tlbinvComplete gid) s = .next (match t.cross with
      | some glob => (u.crossOne gid glob).pushShadow gid
      | none => u) := by
  have noWrite : s.launches.any (fun e => some e.2.part == s.partOfDie (coreDie (s.blockOf g).core) && t.inFlight e.2) = false := by
    refine List.any_eq_false.2 fun e isIn flies => ?_
    obtain ⟨here, flies⟩ := Bool.and_eq_true_iff.1 flies
    exact absurd flies (ne_true_of_eq_false (writes e isIn (eq_of_beq here)))
  have noRead : s.loads.any (fun e => t.reading s (s.partOfDie (coreDie (s.blockOf g).core)) e.2) = false :=
    List.any_eq_false.2 fun e isIn => ne_true_of_eq_false (reads e isIn)
  intro u
  change execTlbinvComplete gid s = _
  simp only [execTlbinvComplete, isGroup, isInv, begun, noWrite, noRead, Bool.not_true, Bool.or_self, Bool.false_eq_true, if_false]
  rfl

variable {part : Option Nat}

/-- R414: no core of the partition keeps an entry that the invalidation covers. -/
theorem shootDown_core {e : Nat × Core} (isIn : e ∈ (shootDown s part t).cores) (here : s.partOfDie (coreDie e.1) = part) :
    ∀ x ∈ e.2.tlb, t.covers x = false := by
  obtain ⟨f, -, rfl⟩ := List.mem_map.1 isIn
  have here' : (s.partOfDie (coreDie f.1) == part) = true := beq_iff_eq.2 here
  intro x isX
  rw [if_pos here'] at isX
  simpa using (List.mem_filter.1 isX).2

theorem shootDown_die {e : Nat × Die} (isIn : e ∈ (shootDown s part t).dies) (here : s.partOfDie e.1 = part) :
    (∀ x ∈ e.2.tlb, t.covers x = false) ∧ ∀ x ∈ e.2.nested, t.coversNested x = false := by
  obtain ⟨f, -, rfl⟩ := List.mem_map.1 isIn
  have here' : (s.partOfDie f.1 == part) = true := beq_iff_eq.2 here
  refine ⟨fun x isX => ?_, fun x isX => ?_⟩
  · rw [if_pos here'] at isX
    simpa using (List.mem_filter.1 isX).2
  · rw [if_pos here'] at isX
    simpa using (List.mem_filter.1 isX).2

theorem shootDown_core_other {e : Nat × Core} (isIn : e ∈ s.cores) (other : s.partOfDie (coreDie e.1) ≠ part) : e ∈ (shootDown s part t).cores :=
  List.mem_map.2 ⟨e, isIn, Prod.ext rfl (if_neg fun here => other (eq_of_beq here))⟩

theorem shootDown_die_other {e : Nat × Die} (isIn : e ∈ s.dies) (other : s.partOfDie e.1 ≠ part) : e ∈ (shootDown s part t).dies :=
  List.mem_map.2 ⟨e, isIn, Prod.ext rfl (if_neg fun here => other (eq_of_beq here))⟩

end Invalidate

/-- Settles O57: mailboxes answer requests in order, and invalidations begin and end. -/
theorem mailboxesAndShootDowns : Obligations.MailboxesAndShootDowns := by
  refine ⟨?_, ?_, ?_, ?_, ?_, ?_, fun s core gated => rfl⟩
  · intro s u gid g w before after isGroup p waits none serves
    have isWaits : (s.die (coreDie (s.blockOf g).core)).waits.filter (fun w => w.group == gid) = before ++ w :: after := waits
    have served : firstSome (tryServe s (coreDie (s.blockOf g).core)) (before ++ w :: after) = some u := firstSome_append serves none
    change execMailboxDeliver gid s = _
    simp only [execMailboxDeliver, isGroup, isWaits, served, Option.getD_some]
  · intro s p w chan isChan first
    refine ⟨fun t kept => tryServe_kept isChan first kept, fun none head => ⟨fun m rest isZero box => ?_, fun bs v ring taken => ?_⟩⟩
    · rw [tryServe_head isChan none head, if_pos isZero, box]
    · rw [tryServe_head isChan none head, if_neg ring, taken]
      rfl
  · intro s p w chan bs op isLoad
    refine ⟨serveWait_load isLoad, ?_, ?_⟩
    · rw [serveWait_die isLoad]
    · rw [serveWait_die isLoad]
  · exact fun s gid g t isGroup isInv applied => tlbinvBegin_free isGroup isInv applied
  · intro s gid g t isGroup isInv begun part writes reads
    exact tlbinvComplete_clear isGroup isInv begun writes reads
  · exact fun s part t => ⟨rfl, rfl, rfl, rfl, rfl, fun e isIn here => shootDown_core isIn here, fun e isIn here => shootDown_die isIn here,
      fun e isIn other => shootDown_core_other isIn other, fun e isIn other => shootDown_die_other isIn other⟩

end Sys2Proof.Machine

/-! Launches are saved, restored and resumed (R67, R234 to R237, R262, R265, R329 to R331): O58. -/

namespace Sys2Proof.Machine
open State

section Commands
variable {s : State} {part lid : Nat} {P : Part} {l : Launch}

theorem inProgress_part {code : Nat} (runs : inProgress s part code = some P) : s.part? part = some P := by
  obtain ⟨Q, isPart, isSome⟩ := Option.bind_eq_some_iff.1 runs
  split at isSome
  · cases isSome
    exact isPart
  · cases isSome

/-- The launch that a command's identifier names. -/
theorem named_bind {id : BitVec 32} (isNamed : s.byIdent part id = some lid) (isLaunch : s.launch? lid = some l) :
    (s.byIdent part id).bind (fun i => (s.launch? i).map (fun l => (i, l))) = some (lid, l) := by
  rw [isNamed, Option.bind_some, isLaunch, Option.map_some]

theorem preemptNow_unnamed {id : BitVec 32} (none_ : s.byIdent part id = none) : preemptNow s part id = .ends 2 := by
  simp only [preemptNow, none_, Option.bind_none]

/-- R67, R265: what a Pre-empt of a launch meets, by the launch's phase. -/
theorem preemptNow_named {id : BitVec 32} (isNamed : s.byIdent part id = some lid) (isLaunch : s.launch? lid = some l) :
    preemptNow s part id = if !heldPhase l.phase then .ends 2 else if l.phase = .saved then .ends 0
      else if l.phase = .preempting then .joins lid else if l.phase = .restoring || l.mustCommit then .waits else .begins lid := by
  simp only [preemptNow, named_bind isNamed isLaunch]

theorem preempt_now (runs : inProgress s part 0x01 = some P) (idle : P.waiting.find? (fun w => preemptNow s part w.1 != .waits) = none) :
    exec (.preempt part) s = match preemptNow s part P.operand with
      | .ends m => .next (finishCommand s part m)
      | .waits => .next s
      | .joins lid => .next (s.modPart part (fun P => { P with busy := some lid }))
      | .begins lid => .next ((beginPreempt s lid part P P.arg false false).modPart part (fun P => { P with busy := some lid })) := by
  change execPreempt part s = _
  simp only [execPreempt, inProgress_part runs, idle, runs] <;> rfl

theorem preempt_waiting {w : BitVec 32 × Word} (isPart : s.part? part = some P)
    (ready : P.waiting.find? (fun w => preemptNow s part w.1 != .waits) = some w) (begins : preemptNow s part w.1 = .begins lid) :
    exec (.preempt part) s =
      .next (beginPreempt (s.modPart part (fun P => { P with waiting := P.waiting.erase w })) lid part P w.2 false false) := by
  change execPreempt part s = _
  simp only [execPreempt, isPart, ready, takeWaiting, begins]

theorem terminate_named (runs : inProgress s part 0x03 = some P) (isNamed : s.byIdent part P.operand = some lid) (isLaunch : s.launch? lid = some l) :
    exec (.terminate part) s = if heldPhase l.phase || l.phase = .posted || l.phase = .broadcast then
      .next (finishCommand (s.terminate lid 0) part 0) else .next (finishCommand s part 2) := by
  change execTerminate part s = _
  simp only [execTerminate, runs, named_bind isNamed isLaunch]

theorem restore_unsaved (runs : inProgress s part 0x02 = some P) (idle : P.busy = none) (absent : savedAt s part P P.arg = none) :
    exec (.restore part) s = .next (finishCommand (s.walked P none P.arg 8) part 2) := by
  change execRestore part s = _
  simp only [execRestore, runs, idle, Option.isSome_none, Bool.false_eq_true, if_false, absent]

theorem restore_begins (runs : inProgress s part 0x02 = some P) (idle : P.busy = none) (found : savedAt s part P P.arg = some lid)
    (room : steppingOrSent s part < 16) : exec (.restore part) s =
      .next ((beginRestore (s.walked P none P.arg 8) lid part P P.arg).modPart part (fun P => { P with busy := some lid })) := by
  change execRestore part s = _
  simp only [execRestore, runs, idle, Option.isSome_none, Bool.false_eq_true, if_false, found, Nat.not_le.2 room]

/-- R265: an image names the saved launch whose identifier its header holds. -/
theorem savedAt_only {image : Word} {h : List Byte} (read : s.readVa P none image 8 = some h)
    (only : s.launches.filter (fun e => e.2.phase == .saved && e.2.part == part && e.2.ident.toNat == fieldN h 4 4) = [(lid, l)]) :
    savedAt s part P image = some lid := by
  simp only [savedAt, read, ← List.head?_filter, only, List.head?_cons, Option.map_some]

end Commands

section Begin
variable {s : State} {lid p : Nat} {l : Launch} {P : Part} {image : Word} {force queued : Bool}

theorem timeSlice_expires (isLaunch : s.launch? lid = some l) (isPart : s.part? l.part = some P) (steps : l.phase = .stepping)
    (committed : l.mustCommit = false) (limited : sliceTicks P ≠ 0) (over_ : l.startTick + sliceTicks P ≤ s.tick) (rival : rivalWaits s lid l = true) :
    exec (.timeSliceExpiry lid image) s = .next (beginPreempt s lid l.part P image false true) := by
  have expires : (l.phase == .stepping && !l.mustCommit && sliceTicks P != 0 && decide (l.startTick + sliceTicks P ≤ s.tick) &&
      rivalWaits s lid l) = true := by
    rw [steps, committed, bne_iff_ne.2 limited, decide_eq_true over_, rival]
    rfl
  change execTimeSliceExpiry lid image s = _
  simp only [execTimeSliceExpiry, isLaunch, isPart, expires, if_true]

/-- A launch that is being saved (R329). -/
def preempted (s : State) (image : Word) (force queued : Bool) (l : Launch) : Launch :=
  { l with phase := .preempting, image := image, reports := [], force := force, queued := queued, cmdTick := s.tick }

/-- The state in which the dies are told to save a launch. -/
def savingState (s : State) (lid p : Nat) (image : Word) (force queued : Bool) : State :=
  (s.modLaunch lid (preempted s image force queued)).modPart p (fun Q => { Q with saved := putSaved Q.saved (Saved.fresh s Q lid image) })

theorem beginPreempt_eq : beginPreempt s lid p P image force queued = mailAll (savingState s lid p image force queued) P ⟨1, lid, image, 0⟩ := rfl

theorem beginPreempt_launch (isLaunch : s.launch? lid = some l) :
    (beginPreempt s lid p P image force queued).launch? lid = some (preempted s image force queued l) := by
  obtain ⟨-, -, launches, -, -⟩ := mailAll_fields (savingState s lid p image force queued) P ⟨1, lid, image, 0⟩
  refine (launch_congr launches lid).trans ?_
  have modified : (s.modLaunch lid (preempted s image force queued)).launch? lid = some (preempted s image force queued l) := by
    rw [launch_modLaunch, if_pos rfl, isLaunch]
    rfl
  exact modified

theorem beginPreempt_mail {q : Nat} (isDie : q ∈ s.dieList P) :
    ((beginPreempt s lid p P image force queued).die q).mbox ++ ((beginPreempt s lid p P image force queued).die q).inbound =
      (s.die q).mbox ++ (s.die q).inbound ++ [⟨1, lid, image, 0⟩] := by
  have isDie' : q ∈ (savingState s lid p image force queued).dieList P := isDie
  rw [beginPreempt_eq, die_mailAll _ _ _ isDie', letIn_items, List.append_assoc]
  rfl

end Begin

section Saved

theorem savedOf_putSaved (vs : List Saved) (v : Saved) : savedOf (putSaved vs v) v.launch = some v := by
  have gone : (vs.filter (fun w => w.launch != v.launch)).find? (fun w => w.launch == v.launch) = none := by
    refine List.find?_eq_none.2 fun w isIn same => ?_
    have other := (List.mem_filter.1 isIn).2
    rw [bne, same] at other
    cases other
  simp only [savedOf, putSaved, List.find?_append, gone, Option.none_or, List.find?_cons, beq_self_eq_true]

theorem savedOf_launch {vs : List Saved} {lid : Nat} {v : Saved} (found : savedOf vs lid = some v) : v.launch = lid :=
  eq_of_beq (List.find?_some (p := fun v : Saved => v.launch == lid) found)

/-- Entries under distinct keys put into a table in turn stand there. -/
theorem tfind_puts_mem {α : Type} : ∀ (es : List (Nat × α)) (t : Table α) {e : Nat × α}, (es.map Prod.fst).Nodup → e ∈ es →
    tfind (es.foldl (fun t e => tset t e.1 e.2) t) e.1 = some e.2
  | [], _, _, _, isIn => absurd isIn List.not_mem_nil
  | a :: es, t, e, once, isIn => by
    obtain ⟨apart, rest⟩ := List.nodup_cons.1 once
    rcases List.mem_cons.1 isIn with rfl | isIn
    · refine (tfind_puts_other es _ fun x hx same => apart ?_).trans (tfind_tset_same _ _ _)
      rw [← same]
      exact List.mem_map_of_mem hx
    · exact tfind_puts_mem es _ rest isIn

variable {s : State} {part die lid : Nat} {P : Part} {l : Launch}

/-- Cores changed in turn leave every other part of the state. -/
theorem modCores_only (f : Core → Core) (ks : List Nat) : ∀ s : State,
    ks.foldl (fun s k => s.modCore k f) s = { s with cores := (ks.foldl (fun s k => s.modCore k f) s).cores } := by
  induction ks with
  | nil => exact fun _ => rfl
  | cons k ks ih =>
    intro s
    rw [List.foldl_cons, ih]
    rfl

/-- The context that a save adds a die's records to. -/
def savedSoFar (s : State) (die lid : Nat) (P : Part) (l : Launch) : Saved :=
  saveDie s lid die ((savedOf P.saved lid).getD (Saved.fresh s P lid l.image))

theorem savedSoFar_launch : (savedSoFar s die lid P l).launch = lid := by
  change ((savedOf P.saved lid).getD (Saved.fresh s P lid l.image)).launch = lid
  cases found : savedOf P.saved lid with
  | none => rfl
  | some v => exact savedOf_launch found

/-- The blocks of a launch on a die. -/
def blocksHere (s : State) (lid die : Nat) : List Nat :=
  (s.blocksOf lid).filter (fun b => ((tfind s.blocks b).map (fun x => coreDie x.core == die)).getD false)

/-- The state once the blocks that a die saved are off it. -/
def unloaded (s : State) (part die lid : Nat) (P : Part) (l : Launch) : State :=
  (coresHere s lid die).foldl (fun s k => s.modCore k (fun c => { c with landing := c.landing.filter (fun a => a.launch != lid) }))
    ((blocksHere s lid die).foldl (fun s b => s.dropBlock b)
      (s.modPart part (fun Q => { Q with saved := putSaved Q.saved (savedSoFar s die lid P l) })))

theorem unloaded_fields :
    (unloaded s part die lid P l).mem = s.mem ∧
    (unloaded s part die lid P l).parts =
      (s.modPart part (fun Q => { Q with saved := putSaved Q.saved (savedSoFar s die lid P l) })).parts ∧
    (unloaded s part die lid P l).launches = s.launches ∧
    (∀ b, tfind (unloaded s part die lid P l).blocks b = if b ∈ blocksHere s lid die then none else tfind s.blocks b) := by
  obtain ⟨mem, parts, launches, -, blocks⟩ := dropBlocks_fields (blocksHere s lid die)
    (s.modPart part (fun Q => { Q with saved := putSaved Q.saved (savedSoFar s die lid P l) }))
  rw [unloaded, modCores_only]
  exact ⟨mem, parts, launches, blocks⟩

/-- A die's save is noted: in its black box, at the launch and in its own mailbox (R329). -/
def dieNoted (u : State) (die lid : Nat) (l : Launch) : State :=
  mailTo (((u.modDie die (fun d => { d with save := none, protos := d.protos.filter (fun q => q.launch != lid) })).bboxAdd die
    ⟨l.image, l.ident, 0xFFFF, 0x08, 0⟩).modLaunch lid (fun l => { l with reports := l.reports ++ [(die, none)] })) die ⟨3, lid, l.image, 0⟩

theorem dieNoted_fields (u : State) : (dieNoted u die lid l).mem = u.mem ∧ (dieNoted u die lid l).parts = u.parts ∧
    (dieNoted u die lid l).blocks = u.blocks ∧
    (dieNoted u die lid l).launches = (u.modLaunch lid (fun l => { l with reports := l.reports ++ [(die, none)] })).launches :=
  ⟨rfl, rfl, rfl, rfl⟩

/-- The state that a die's save ends in (R329). -/
def dieSaved (s : State) (part die lid : Nat) (P : Part) (l : Launch) : State := dieNoted (unloaded s part die lid P l) die lid l

theorem saveSequence_drained (saves : (s.die die).save = some lid) (isPart : s.part? part = some P) (isLaunch : s.launch? lid = some l)
    (mine : l.part = part) (here : s.partOfDie die = some part) (phase : l.phase = .preempting) (done : drained s lid die l = true) :
    exec (.saveSequence part die) s = .next (dieSaved s part die lid P l) := by
  have goes : (l.part != part || s.partOfDie die != some part || l.phase != .preempting || !drained s lid die l) = false := by
    rw [mine, here, phase, done, bne_self_eq_false, bne_self_eq_false]
    rfl
  change execSaveSequence part die s = _
  simp only [execSaveSequence, saves, isPart, isLaunch, goes, Bool.false_eq_true, if_false]
  rfl

theorem dieSaved_save : ((dieSaved s part die lid P l).die die).save = none := by
  rw [dieSaved, dieNoted, die_mailTo, if_pos rfl]
  simp only [Die.letIn]
  rw [die_modLaunch, bboxAdd_die, die_modDie, if_pos rfl]

theorem dieSaved_launch (isLaunch : s.launch? lid = some l) :
    (dieSaved s part die lid P l).launch? lid = some { l with reports := l.reports ++ [(die, none)] } := by
  obtain ⟨-, -, launches, -⟩ := unloaded_fields (s := s) (part := part) (die := die) (lid := lid) (P := P) (l := l)
  obtain ⟨-, -, -, noted⟩ := dieNoted_fields (die := die) (lid := lid) (l := l) (unloaded s part die lid P l)
  rw [dieSaved, launch_congr noted, launch_modLaunch, if_pos rfl, launch_congr launches, isLaunch, Option.map_some]

theorem dieSaved_part (isPart : s.part? part = some P) :
    (dieSaved s part die lid P l).part? part = some { P with saved := putSaved P.saved (savedSoFar s die lid P l) } := by
  obtain ⟨-, parts, -, -⟩ := unloaded_fields (s := s) (part := part) (die := die) (lid := lid) (P := P) (l := l)
  obtain ⟨-, noted, -, -⟩ := dieNoted_fields (die := die) (lid := lid) (l := l) (unloaded s part die lid P l)
  rw [dieSaved, part_congr (noted.trans parts), part_modPart, if_pos rfl, isPart, Option.map_some]

theorem dieSaved_mem : (dieSaved s part die lid P l).mem = s.mem := by
  obtain ⟨mem, -⟩ := unloaded_fields (s := s) (part := part) (die := die) (lid := lid) (P := P) (l := l)
  obtain ⟨noted, -⟩ := dieNoted_fields (die := die) (lid := lid) (l := l) (unloaded s part die lid P l)
  exact noted.trans mem

theorem dieSaved_block {b : Nat} (isHere : b ∈ blocksHere s lid die) : tfind (dieSaved s part die lid P l).blocks b = none := by
  obtain ⟨-, -, -, blocks⟩ := unloaded_fields (s := s) (part := part) (die := die) (lid := lid) (P := P) (l := l)
  obtain ⟨-, -, noted, -⟩ := dieNoted_fields (die := die) (lid := lid) (l := l) (unloaded s part die lid P l)
  rw [dieSaved, noted, blocks, if_pos isHere]

end Saved

section Restore
variable {s : State} {part die lid holder : Nat} {P : Part} {l : Launch} {v : Saved} {bs : List Byte}

section Ready
variable (loads : (s.die die).load = some lid) (isPart : s.part? part = some P) (isLaunch : s.launch? lid = some l)
  (held : holderOf s lid = some (holder, v)) (mine : l.part = part) (here : s.partOfDie die = some part) (phase : l.phase = .restoring)
include loads isPart isLaunch held mine here phase

/-- R330: a die of a restoring launch reads the image. -/
theorem restoreDieReady_reads : exec (.restoreDieReady part die) s =
    match s.readVa P none l.image v.bytes.length with
    | none => .next (rejectRestore (s.walked P none l.image v.bytes.length) lid holder die l.image)
    | some bs =>
      if !headerOk s P l v bs then .next (rejectRestore (s.walked P none l.image v.bytes.length) lid holder die l.image)
      else
        let w : Saved := { v with got := bs }
        let i := s.logDie P die
        match restoreBlocks lid l w P (w.blocks.filter (fun e => shiftDie w P (coreDie e.2.core) == die))
          (s.walked P none l.image v.bytes.length) with
        | none => .next s
        | some t => .next (mailTo
            ((((((restoreItems (restoreCores t lid w P die i) lid w P die i).modDie die (fun d => { d with load := none })).modPart holder
              (fun H => { H with saved := putSaved H.saved w })).bboxAdd die ⟨l.image, l.ident, 0xFFFF, 0x09, 0⟩).modLaunch lid
              (fun l => { l with reports := l.reports ++ [(die, none)] }))) die ⟨3, lid, l.image, 0⟩) := by
  have goes : (l.part != part || s.partOfDie die != some part || l.phase != .restoring) = false := by
    rw [mine, here, phase, bne_self_eq_false, bne_self_eq_false]
    rfl
  change execRestoreDieReady part die s = _
  simp only [execRestoreDieReady, loads, isPart, isLaunch, held, goes, Bool.false_eq_true, if_false] <;> rfl

end Ready

theorem restoreResume_eq (isPart : s.part? part = some P) (ready : reportedIn s part P .restoring = some (lid, l))
    (held : holderOf s lid = some (holder, v)) : exec (.restoreResume part) s =
    .next ((endCommand ((({ s with fresh := s.fresh + 2 ^ 33 * v.parked.length }.modLaunch lid
      (fun _ => resumed s l v P)).modPart holder (fun P => { P with saved := P.saved.filter (fun w => w.launch != lid) })).modPart part
      (measureSwitch (l.saveTook + (s.tick - l.cmdTick)))) lid 0).record lid 5 0xFF 0xFFFF) := by
  change execRestoreResume part s = _
  simp only [execRestoreResume, isPart, ready, held]

end Restore

/-- Settles O58: launches are saved, their images assembled, restored and resumed. -/
theorem contextSwitches : Obligations.ContextSwitches := by
  refine ⟨?_, ?_, ?_, ?_, ?_, ?_, ?_, ?_, ?_, ?_, ?_, fun s l v P => ⟨rfl, rfl, rfl, rfl, rfl, rfl, rfl, rfl⟩, ?_⟩
  · exact fun s lid image l P isLaunch isPart steps committed limited over_ rival =>
      timeSlice_expires isLaunch isPart steps committed limited over_ rival
  · intro s part P runs idle
    refine ⟨fun unnamed => ?_, fun lid l isNamed isLaunch => ?_⟩
    · rw [preempt_now runs idle, preemptNow_unnamed unnamed]
    · rw [preempt_now runs idle, preemptNow_named isNamed isLaunch]
      refine ⟨fun unheld => ?_, fun saved => ?_, fun waits => ?_, fun steps committed => ?_⟩
      · simp only [unheld, Bool.not_false, if_true]
      · simp only [saved, heldPhase, Bool.not_true, Bool.false_eq_true, if_false, if_true]
      · rcases waits with restoring | ⟨steps, must⟩
        · simp [restoring, heldPhase]
        · simp [steps, must, heldPhase]
      · simp [steps, committed, heldPhase]
  · exact fun s part lid P w isPart ready begins => preempt_waiting isPart ready begins
  · intro s lid p l P image force queued isLaunch t
    obtain ⟨mem, -, -, groups, -⟩ := mailAll_fields (savingState s lid p image force queued) P ⟨1, lid, image, 0⟩
    exact ⟨⟨_, beginPreempt_launch isLaunch, rfl, rfl, rfl, rfl, rfl⟩, mem, groups, fun q isDie => beginPreempt_mail isDie⟩
  · intro s part die lid P l saves isPart isLaunch mine here phase done
    refine ⟨_, saveSequence_drained saves isPart isLaunch mine here phase done, dieSaved_mem, dieSaved_save,
      ⟨_, dieSaved_launch isLaunch, phase, rfl⟩, fun b isOf x isBlock isHere => ?_, ⟨_, dieSaved_part isPart, ?_⟩⟩
    · refine dieSaved_block (List.mem_filter.2 ⟨isOf, ?_⟩)
      rw [isBlock, Option.map_some, Option.getD_some, isHere, beq_self_eq_true]
    · have put := savedOf_putSaved P.saved (savedSoFar s die lid P l)
      rw [savedSoFar_launch] at put
      exact put
  · exact fun s lid die v once => ⟨rfl, fun e isIn => tfind_puts_mem _ _ once isIn⟩
  · intro s part lid P l v isPart ready isSaved v1 bs s0
    have assembles : exec (.saveImageAssemble part) s = execSaveImageAssemble part s := rfl
    refine ⟨fun refused => ?_, fun allowed => ?_⟩
    · rw [assembles]
      simp only [execSaveImageAssemble, isPart, ready, isSaved, Option.getD_some]
      exact if_pos (congrArg not refused)
    · rw [assembles]
      simp only [execSaveImageAssemble, isPart, ready, isSaved, Option.getD_some]
      exact if_neg (ne_true_of_eq_false (congrArg not allowed))
  · exact fun s part P runs idle => ⟨restore_unsaved runs idle, fun lid found room => restore_begins runs idle found room⟩
  · exact fun s part P image h lid l read only => savedAt_only read only
  · intro s part die lid holder P l v loads isPart isLaunch held mine here phase s0 refused
    have reads := restoreDieReady_reads loads isPart isLaunch held mine here phase
    refine ⟨fun unread => ?_, fun bs read => ⟨fun bad => ?_, ?_⟩⟩
    · rw [reads, unread]
      rfl
    · rw [reads, read]
      exact if_pos (congrArg not bad)
    · intro good w i blocks
      rw [reads, read]
      refine ⟨fun full => (if_neg (ne_true_of_eq_false (congrArg not good))).trans ?_,
        fun t placed => (if_neg (ne_true_of_eq_false (congrArg not good))).trans ?_⟩
      · dsimp only
        split
        · rfl
        · next isPlaced => cases full.symm.trans isPlaced
      · dsimp only
        split
        · next isFull => cases placed.symm.trans isFull
        · next isPlaced =>
          obtain rfl := Option.some.inj (placed.symm.trans isPlaced)
          rfl
  · exact fun s part lid holder P l v isPart ready held => restoreResume_eq isPart ready held
  · intro s part P runs
    refine ⟨fun unnamed => ?_, fun lid l isNamed isLaunch => ⟨fun held => ?_, fun ended => ?_⟩⟩
    · change execTerminate part s = _
      simp only [execTerminate, runs, unnamed, Option.bind_none]
    · rw [terminate_named runs isNamed isLaunch, if_pos]
      simpa [or_assoc] using held
    · rw [terminate_named runs isNamed isLaunch, if_neg]
      rcases ended with h | h | h <;> simp [h, heldPhase]

end Sys2Proof.Machine

/-! The commands and registers of a partition (R244, R251, R254, R259, R264 to R266, R269, R270, R273): O59. -/

namespace Sys2Proof.Machine
open State

section Layouts
variable {s : State} {part : Nat} {P : Part}

theorem layoutChange_refused (runs : inProgress s part 0x10 = some P) (bad : layoutAllowed s P = false) :
    exec (.layoutChange part) s = .next (refuseConfig s part) := by
  change execLayoutChange part s = _
  simp only [execLayoutChange, runs, bad, Bool.not_false, if_true]

theorem layoutChange_allowed (runs : inProgress s part 0x10 = some P) (good : layoutAllowed s P = true) : exec (.layoutChange part) s =
    if (affected s (stagedLayouts s P)).any (launchRuns s) then .next (finishCommand s part 1) else .next (applyLayout s part P) := by
  change execLayoutChange part s = _
  simp only [execLayoutChange, runs, good, Bool.not_true, Bool.false_eq_true, if_false]

/-- The launches of the partitions that a staged layout affects, in some phases. -/
def affectedLaunches (s : State) (P : Part) (f : Phase → Bool) : List (Nat × Launch) :=
  s.launches.filter (fun e => (affected s (stagedLayouts s P)).contains e.2.part && f e.2.phase)

theorem layoutForce_refused (runs : inProgress s part 0x11 = some P) (bad : layoutAllowed s P = false) :
    exec (.layoutChangeForce part) s = .next (refuseConfig s part) := by
  change execLayoutChangeForce part s = _
  simp only [execLayoutChangeForce, runs, bad, Bool.not_false, if_true]

section Force
variable (runs : inProgress s part 0x11 = some P) (good : layoutAllowed s P = true)
  (settled : affectedLaunches s P (fun p => p == .preempting || p == .restoring) = [])
include runs good settled

/-- R251: a forced change saves the next running launch. -/
theorem layoutForce_saves {lid : Nat} {l : Launch} {rest : List (Nat × Launch)} {Q : Part}
    (next : affectedLaunches s P (· == .stepping) = (lid, l) :: rest) (isPart : s.part? l.part = some Q) :
    exec (.layoutChangeForce part) s = .next ((beginPreempt s lid l.part Q (forceArea P) true false).modPart part
      (fun R => { R with forceAt := some (forceArea R) })) := by
  have isSettled : s.launches.filter (fun e => (affected s (stagedLayouts s P)).contains e.2.part &&
    (e.2.phase == .preempting || e.2.phase == .restoring)) = [] := settled
  have isNext : s.launches.filter (fun e => (affected s (stagedLayouts s P)).contains e.2.part && e.2.phase == .stepping) = (lid, l) :: rest := next
  change execLayoutChangeForce part s = _
  simp only [execLayoutChangeForce, runs, good, Bool.not_true, Bool.false_eq_true, if_false, isSettled, List.isEmpty_nil, isNext, isPart]

theorem layoutForce_applies (none_ : affectedLaunches s P (· == .stepping) = [])
    (applied : ∀ e ∈ affectedLaunches s P (· == .saved), e.2.applying = []) : exec (.layoutChangeForce part) s = .next (applyLayout s part P) := by
  have isSettled : s.launches.filter (fun e => (affected s (stagedLayouts s P)).contains e.2.part &&
    (e.2.phase == .preempting || e.2.phase == .restoring)) = [] := settled
  have isNone : s.launches.filter (fun e => (affected s (stagedLayouts s P)).contains e.2.part && e.2.phase == .stepping) = [] := none_
  have done : s.launches.any (fun e => (affected s (stagedLayouts s P)).contains e.2.part && e.2.phase == .saved && !e.2.applying.isEmpty) = false := by
    refine List.any_eq_false.2 fun e isIn waits => ?_
    obtain ⟨saved, writes⟩ := Bool.and_eq_true_iff.1 waits
    rw [applied e (List.mem_filter.2 ⟨isIn, saved⟩)] at writes
    cases writes
  change execLayoutChangeForce part s = _
  simp only [execLayoutChangeForce, runs, good, Bool.not_true, Bool.false_eq_true, if_false, isSettled, List.isEmpty_nil, isNone, done]

end Force
end Layouts

section Reset
variable {s : State} {part : Nat} {P : Part}

/-- A table keeps an entry in its place when it is put in again. -/
theorem find_tset_again {α : Type} (q : α → Bool) {k : Nat} {v w : α} (same : q w = q v) : ∀ t : Table α,
    ((tset (tset t k v) k w).find? (fun e => q e.2)).map Prod.fst = ((tset t k v).find? (fun e => q e.2)).map Prod.fst
  | [] => by
    simp only [tset, if_true, List.find?_cons, same]
    cases q v <;> rfl
  | (j, u) :: t => by
    rw [show tset ((j, u) :: t) k v = if j = k then (k, v) :: t else if k < j then (k, v) :: (j, u) :: t else (j, u) :: tset t k v from rfl]
    split
    · simp only [tset, if_true, List.find?_cons, same]
      cases q v <;> rfl
    · next other =>
      split
      · simp only [tset, if_true, List.find?_cons, same]
        cases q v <;> rfl
      · next above =>
        simp only [tset, other, above, if_false, List.find?_cons]
        cases q u with
        | true => rfl
        | false => exact find_tset_again q same t

/-- A partition that has been reset (R273). -/
def resetPart (s : State) (P Q : Part) : Part :=
  { Q with saved := [], cals := Cals.reset, ferryRej := 0, cfgErr := false, sliceRaised := false, ideUp := false,
           fatal := Q.fatal && !(failing s P).isEmpty, failures := failing s P, waiting := [] }

/-- The panel with a partition reset, before its command ends. -/
def resetState (s : State) (part : Nat) (P : Part) : State := s.modPart part (resetPart s P)

/-- The cores of a partition that is reset (R256, R273). -/
def resetCores (u : State) (part : Nat) : Table Core :=
  u.cores.map (fun e => (e.1, if u.partOfDie (coreDie e.1) = some part then { e.2 with counters := [], ctab := [] } else e.2))

theorem partitionReset_idle (runs : inProgress s part 0x20 = some P) (idle : openLaunches s part = []) :
    exec (.partitionReset part) s =
      .next (finishCommand { resetState s part P with cores := resetCores (resetState s part P) part } part 0) := by
  change execPartitionReset part s = _
  simp only [execPartitionReset, runs, idle, List.foldl_nil]
  rfl

theorem resetState_parts (isPart : s.part? part = some P) : (resetState s part P).parts = tset s.parts part (resetPart s P P) := by
  have found : tfind s.parts part = some P := isPart
  simp only [resetState, modPart, tmod, found]

/-- A partition whose command has ended. -/
def finishedPart (mode : BitVec 2) (P : Part) : Part := { P with mode := mode, busy := none, forceAt := none }

theorem finishCommand_part (isPart : s.part? part = some P) (mode : BitVec 2) : (finishCommand s part mode).part? part = some (finishedPart mode P) := by
  rw [finishCommand, part_modPart, if_pos rfl, isPart]
  rfl

/-- The end of a reset keeps the partition of every die. -/
theorem resetDie (isPart : s.part? part = some P) (cs : Table Core) (p : Nat) :
    (finishCommand { resetState s part P with cores := cs } part 0).partOfDie p = (resetState s part P).partOfDie p := by
  have parts : (finishCommand { resetState s part P with cores := cs } part 0).parts =
      tset (tset s.parts part (resetPart s P P)) part (finishedPart 0 (resetPart s P P)) := by
    simp only [finishCommand, modPart, tmod, resetState_parts isPart, tfind_tset_same]
    rfl
  unfold partOfDie partOfRow
  rw [parts, resetState_parts isPart]
  exact find_tset_again (v := resetPart s P P) (w := finishedPart 0 (resetPart s P P)) (fun P => decide (P.y0 ≤ p / 30) && decide (p / 30 ≤ P.y1))
    rfl s.parts

theorem resetCores_cleared {u : State} {e : Nat × Core} (isIn : e ∈ resetCores u part) (here : u.partOfDie (coreDie e.1) = some part) :
    e.2.counters = [] ∧ e.2.ctab = [] := by
  obtain ⟨f, -, rfl⟩ := List.mem_map.1 isIn
  have isHere : u.partOfDie (coreDie f.1) = some part := here
  exact ⟨by rw [if_pos isHere], by rw [if_pos isHere]⟩

end Reset

section Release
variable {s : State} {part : Nat} {P : Part} {f : Frozen}

theorem releaseFault_unnamed (runs : inProgress s part 0x30 = some P) (absent : namedFrozen s P = none) :
    exec (.releaseFault part) s = .next (finishCommand s part 2) := by
  change execReleaseFault part s = _
  simp only [execReleaseFault, runs, absent]

theorem releaseFault_named (runs : inProgress s part 0x30 = some P) (named : namedFrozen s P = some f) :
    let t := finishCommand (unfreeze s part f) part 0
    exec (.releaseFault part) s = match f.by_ with
      | .host write a => .next (if write then t else answer t part (.at_ (.mem a)) .abort)
      | .move o => .next (faultMove t o)
      | .engine o => .next { t with ops := tmod t.ops o (fun op => { op with st := .denied }) } := by
  change execReleaseFault part s = _
  simp only [execReleaseFault, runs, named] <;> rfl

theorem releaseDiscard_unnamed (runs : inProgress s part 0x31 = some P) (absent : namedFrozen s P = none) :
    exec (.releaseDiscard part) s = .next (finishCommand s part 2) := by
  change execReleaseDiscard part s = _
  simp only [execReleaseDiscard, runs, absent]

theorem releaseDiscard_named (runs : inProgress s part 0x31 = some P) (named : namedFrozen s P = some f) :
    let t := finishCommand (unfreeze s part f) part 0
    exec (.releaseDiscard part) s = match f.by_ with
      | .host _ _ => .next t
      | .move o => .next (((moveOf t o).map (fun m => t.terminate m.1 0)).getD t)
      | .engine o =>
        match tfind t.ops o with
        | none => .next t
        | some op =>
          match opLid t op with
          | some lid => .next (t.terminate lid 0)
          | none => .next (completeOp t o op.blk []) := by
  change execReleaseDiscard part s = _
  simp only [execReleaseDiscard, runs, named] <;> rfl

end Release

section Registers
variable {s : State} {part off : Nat} {P : Part} {data : RegData} {guest : Option (BitVec 3)}

/-- R264: an aligned write inside an IDE stream reaches the register. -/
theorem registerWrite_aligned (isPart : s.part? part = some P) (up : P.ideUp = true) (aligned : writtenAligned data off = true) :
    exec (.registerWrite part guest off data) s = .next (match guest with
      | some g => writeVirtual s part g.toNat (off / 8 * 8) (off % 8 == 4) data
      | none => writeRegister s part P (off / 8 * 8) (off % 8 == 4) data) := by
  change execRegisterWrite part guest off data s = _
  simp only [execRegisterWrite, isPart, up, aligned, Bool.not_true, Bool.false_eq_true, if_false]
  cases guest <;> rfl

theorem registerWrite_outside (isPart : s.part? part = some P) (down : P.ideUp = false) :
    exec (.registerWrite part guest off data) s = .next (answer s part (.bar guest off) .unsupported) := by
  change execRegisterWrite part guest off data s = _
  simp only [execRegisterWrite, isPart, down, Bool.not_false, if_true]

/-- R260: the bits that a one clears stand in the low half of PSTAT. -/
theorem statusHalf_clears (x : BitVec 32) : (P.ferryRej &&& ~~~((writtenOver (.half x) true 0).extractLsb' 16 16)) = P.ferryRej ∧
    (P.cfgErr && !(writtenOver (.half x) true 0).getLsbD 6) = P.cfgErr ∧
    (P.sliceRaised && !(writtenOver (.half x) true 0).getLsbD 5) = P.sliceRaised := by
  have low (i : Nat) (small : i < 32) : (writtenOver (.half x) true 0).getLsbD i = false := by
    change (x ++ (0 : Word).extractLsb' 0 32).getLsbD i = false
    rw [BitVec.getLsbD_append, if_pos small]
    simp
  refine ⟨?_, by rw [low 6 (by omega)]; exact Bool.and_true _, by rw [low 5 (by omega)]; exact Bool.and_true _⟩
  have none : (writtenOver (.half x) true 0).extractLsb' 16 16 = 0 := by
    ext i small
    rw [BitVec.getElem_extractLsb', low (16 + i) (by omega)]
    simp
  rw [none]
  exact BitVec.and_allOnes

/-- A partition after a write of PSTAT: a one clears its bit (R260). -/
def clearedStatus (data : Word) (P : Part) : Part :=
  { P with ferryRej := P.ferryRej &&& ~~~(data.extractLsb' 16 16), cfgErr := P.cfgErr && !data.getLsbD 6,
           sliceRaised := P.sliceRaised && !data.getLsbD 5 }

theorem clearedStatus_half (x : BitVec 32) : clearedStatus (writtenOver (.half x) true 0) P = P := by
  obtain ⟨ferry, config, slice⟩ := statusHalf_clears (P := P) x
  rw [clearedStatus, ferry, config, slice]

theorem startCommand_new {word : Word} (idle : P.mode ≠ 3) : startCommand P word =
    { P with cmd := word &&& 0xFFFFFFFF000000FF#64, arg := P.cmdarg,
             mode := if commandCodes.contains (word.extractLsb' 0 8).toNat then 3 else 2, busy := none, forceAt := none } :=
  if_pos idle

end Registers

section Others
variable {s : State} {part : Nat} {P : Part}

/-- R270: a debug stop keeps a record and gives every group of the block its trap. -/
theorem debugStop_found {p bid : Nat} {b : Block} {data : BitVec 64} (isPart : s.part? part = some P) (up : P.ideUp = true)
    (isCore : (data.extractLsb' 16 16).toNat < Config.coresPerDie) (isDie : s.physDie? P (data.extractLsb' 0 16).toNat = some p)
    (found : (s.blocksOn (coreKey p (data.extractLsb' 16 16).toNat)).find? (fun e => e.2.slot == (data.extractLsb' 32 2).toNat) = some (bid, b)) :
    exec (.debugStop part data) s = .next (((s.groupsIn b).filter (fun e => !e.2.retired)).foldl
      (fun s e => s.notify e.1 ⟨.debug, 0x51, none, 0, 0, 0, none⟩)
      (s.ringAdd P P.dbstop (Config.stopBytes (stopRecord b (b.launch.bind s.launch?) (s.logDie P p)
        ((s.groupsIn b).filter (fun e => !e.2.retired)))))) := by
  change execDebugStop part data s = _
  simp only [execDebugStop, isPart, up, Bool.not_true, Bool.false_eq_true, if_false, Nat.not_le.2 isCore, isDie, found]

end Others

/-- Settles O59: the remaining commands and registers of a partition. -/
theorem partitionCommands : Obligations.PartitionCommands := by
  refine ⟨?_, ?_, ?_, ?_, ?_, ?_, ?_, ?_, ?_, ?_, ?_, ?_, ?_⟩
  · intro s part P runs
    refine ⟨layoutChange_refused runs, fun good busy => ?_, fun good idle => ?_⟩
    · rw [layoutChange_allowed runs good, if_pos busy]
    · rw [layoutChange_allowed runs good, if_neg (ne_true_of_eq_false idle)]
  · intro s part P runs on
    exact ⟨layoutForce_refused runs, fun good settled => ⟨fun lid l rest Q next isPart => layoutForce_saves runs good settled next isPart,
      fun none applied => layoutForce_applies runs good settled none applied⟩⟩
  · intro s part P runs
    refine ⟨fun bad => ?_, fun good => ?_⟩
    · change execApplyStaged part s = _
      simp only [execApplyStaged, runs, bad, Bool.not_false, if_true]
    · change execApplyStaged part s = _
      simp only [execApplyStaged, runs, good, Bool.not_true, Bool.false_eq_true, if_false]
  · intro s part P runs isPart idle
    have isReset : (resetState s part P).part? part = some (resetPart s P P) := by
      rw [resetState, part_modPart, if_pos rfl, isPart, Option.map_some]
    refine ⟨_, finishedPart 0 (resetPart s P P), partitionReset_idle runs idle, finishCommand_part isReset 0, rfl, rfl, rfl, rfl, rfl, rfl, rfl, rfl,
      rfl, rfl, rfl, fun e isIn here => ?_⟩
    rw [resetDie isPart] at here
    exact resetCores_cleared isIn here
  · intro s part P runs
    refine ⟨releaseFault_unnamed runs, ?_⟩
    intro f named t
    have released := releaseFault_named runs named
    refine ⟨fun a by_ => ?_, fun a by_ => ?_, fun o by_ => ?_, fun o by_ => ?_⟩ <;> rw [released, by_] <;> rfl
  · intro s part P runs
    refine ⟨releaseDiscard_unnamed runs, ?_⟩
    intro f named t
    have released := releaseDiscard_named runs named
    refine ⟨fun w a by_ => ?_, fun o lid m by_ isMove => ?_, fun o op by_ isOp => ⟨fun lid isLid => ?_, fun none => ?_⟩⟩
    · rw [released, by_]
    · have isMove' : moveOf (finishCommand (unfreeze s part f) part 0) o = some (lid, m) := isMove
      simp only [released, by_, isMove', Option.map_some, Option.getD_some]
      rfl
    · have isOp' : tfind (finishCommand (unfreeze s part f) part 0).ops o = some op := isOp
      have isLid' : opLid (finishCommand (unfreeze s part f) part 0) op = some lid := isLid
      simp only [released, by_, isOp', isLid']
      rfl
    · have isOp' : tfind (finishCommand (unfreeze s part f) part 0).ops o = some op := isOp
      have none' : opLid (finishCommand (unfreeze s part f) part 0) op = Option.none := none
      simp only [released, by_, isOp', none']
      rfl
  · intro s part P runs s0
    have reports : exec (.attestationReport part) s = execAttestationReport part s := rfl
    refine ⟨fun unread => ?_, ?_⟩
    · rw [reports]
      simp only [execAttestationReport, runs, unread]
      rfl
    · intro nonce read body report s1
      rw [reports]
      simp only [execAttestationReport, runs, read]
      exact ⟨fun allowed => if_pos allowed, fun refused => if_neg (ne_true_of_eq_false refused)⟩
  · intro s part p bid P b data isPart up isCore isDie found gs
    exact debugStop_found isPart up isCore isDie found
  · intro s part n P guest isPart up v t
    change execCounterReadLow part guest n s = _
    simp only [execCounterReadLow, isPart, up, Bool.not_true, Bool.false_eq_true, if_false]
    rfl
  · intro s part off n P data word vf g isPart down
    refine ⟨registerWrite_outside isPart down, ?_, ?_⟩
    · change execDebugStop part word s = _
      simp only [execDebugStop, isPart, down, Bool.not_false, if_true]
    · change execCounterReadLow part g n s = _
      simp only [execCounterReadLow, isPart, down, Bool.not_false, if_true]
  · intro P data idle Q
    have isQ : Q = _ := startCommand_new idle
    rw [isQ]
    refine ⟨rfl, rfl, rfl, ?_⟩
    simp only [List.contains_iff_mem]
    rfl
  · intro s part P x isPart up
    refine ⟨_, registerWrite_aligned isPart up rfl, (part_modPart ..).trans ((if_pos rfl).trans ?_)⟩
    rw [isPart]
    exact congrArg some (clearedStatus_half x)
  · intro s part P data isPart up
    exact ⟨registerWrite_aligned isPart up rfl, registerWrite_aligned isPart up rfl, registerWrite_aligned isPart up rfl,
      registerWrite_aligned isPart up rfl, fun g => registerWrite_aligned isPart up rfl⟩

end Sys2Proof.Machine

/-! Recovery, containment and the clock (R19, R23, R207, R239 to R243, R245, R257, R267, R272, R273, R304): O60. -/

namespace Sys2Proof.Machine
open State

section Tables

theorem tfind_mapValues {α β : Type} (f : α → β) (k : Nat) : ∀ t : Table α, tfind (t.map (fun e => (e.1, f e.2))) k = (tfind t k).map f
  | [] => rfl
  | (j, v) :: t => by
    rw [List.map_cons]
    simp only [tfind]
    split
    · rfl
    · exact tfind_mapValues f k t

/-- Picking takes elements of a list, each once (R19). -/
theorem pick_spec (f : Nat → Nat) : ∀ (n : Nat) (l : List Nat), l.Nodup → n ≤ l.length →
    (pick f n l).Nodup ∧ (pick f n l).length = n ∧ ∀ x ∈ pick f n l, x ∈ l
  | 0, _, _, _ => ⟨List.nodup_nil, rfl, fun _ isIn => absurd isIn List.not_mem_nil⟩
  | n + 1, l, once, long => by
    have inside : f n % l.length < l.length := Nat.mod_lt _ (by omega)
    obtain ⟨x, isX⟩ : ∃ x, x = l.getD (f n % l.length) 0 := ⟨_, rfl⟩
    have isIn : x ∈ l := by
      rw [isX, List.getD_eq_getElem l 0 inside]
      exact List.getElem_mem inside
    have rest : l.filter (· != x) = l.erase x := (once.erase_eq_filter x).symm
    have shorter : (l.erase x).length = l.length - 1 := List.length_erase_of_mem isIn
    obtain ⟨nodup, length, from_⟩ := pick_spec f n (l.erase x) (once.erase x) (by omega)
    rw [pick, ← isX, rest]
    refine ⟨List.nodup_cons.2 ⟨fun again => ?_, nodup⟩, by rw [List.length_cons, length], fun y isY => ?_⟩
    · exact absurd rfl (List.Nodup.mem_erase_iff once |>.1 (from_ x again)).1
    · rcases List.mem_cons.1 isY with rfl | isY
      · exact isIn
      · exact List.mem_of_mem_erase (from_ y isY)

end Tables

section Rollback
variable {g : Group} {x : Shadow} {a : Nat}

theorem rewind_pending {e : Nat × Notice} (isTaken : e ∈ g.taken) (later : x.seq ≤ e.1) : e.2 ∈ (rewind g x).notices :=
  List.mem_append_left _ (List.mem_reverse.2 (List.mem_map_of_mem (List.mem_filter.2 ⟨isTaken, decide_eq_true later⟩)))

theorem rewind_notices {n : Notice} (isIn : n ∈ g.notices) : n ∈ (rewind g x).notices := List.mem_append_right _ isIn

theorem rewind_held {e : Nat × Nat} (isIn : e ∈ (rewind g x).heldX) : e ∈ g.heldX ∧ e.1 < x.r.gstep :=
  (List.mem_filter.1 isIn).imp_right of_decide_eq_true

/-- R240: an invalidation of the span is none. -/
theorem rewind_tlbi {t : TlbInv} (isInv : (rewind g x).tlbi = some t) : g.tlbi = some t ∧ t.seq ≤ x.seq := by
  obtain ⟨u, isU, kept⟩ := Option.bind_eq_some_iff.1 isInv
  split at kept
  · cases kept
  · next early =>
    cases kept
    exact ⟨isU, Nat.not_lt.1 early⟩

theorem rewind_again {r : SentRows} (isSent : r ∈ g.sent) (later : x.seq < r.seq) : r ∈ (rewind g x).again :=
  List.mem_append_left _ ((mem_sortBy _ _).2 (List.mem_filter.2 ⟨isSent, decide_eq_true later⟩))

/-- R240: the latest boundary at least 96 cycles old is the shadow of an alarm. -/
theorem shadowFor_head {h : Shadow} {rest : List Shadow} (shadows : g.shadows = h :: rest) (old : h.cycle + Config.strikeReport ≤ a) :
    shadowFor g a = h := by
  simp only [shadowFor, shadows, List.find?_cons, decide_eq_true old]

theorem shadowFor_first (some_ : g.shadows ≠ []) (young : ∀ h ∈ g.shadows, a < h.cycle + Config.strikeReport) (launched : g.launch.isSome = true) :
    some (shadowFor g a) = g.shadows.getLast? := by
  have none_ : g.shadows.find? (fun h => decide (h.cycle + Config.strikeReport ≤ a)) = none :=
    List.find?_eq_none.2 fun h isIn old => absurd (of_decide_eq_true old) (Nat.not_le.2 (young h isIn))
  have here : ¬ g.launch.isNone = true := by
    rw [Option.isNone_iff_eq_none]
    rintro none
    rw [none] at launched
    cases launched
  rw [shadowFor, none_]
  simp only [if_neg here, List.getLast?_eq_some_getLast some_, Option.getD_some]

end Rollback

section Alarms
variable {s : State} {lid way : Nat} {l : Launch}

/-- A launch after a waystation's alarm (R239, R241). -/
def heldAnew (s : State) (way : Nat) (l : Launch) : Launch :=
  { l with
    applying := l.applying.map (fun w => if w.stage != .applied && wayOfKey w.w.key == some way then { w with cycle := s.tick } else w)
    declared := l.declared.map (fun d => (d.1, s.tick)) }

theorem waystationAlarm_launch (isLaunch : s.launch? lid = some l) :
    tfind (s.launches.map (fun e => (e.1, heldAnew s way e.2))) lid = some (heldAnew s way l) := by
  have found : tfind s.launches lid = some l := isLaunch
  rw [tfind_mapValues, found, Option.map_some]

variable {die store core : Nat} {addr : BitVec 64}

theorem eccCorrected_core (near : store < 2) (isCore : core < Config.coresPerDie) : exec (.eccCorrected die store core addr) s =
    .next (((if store = 0 then s.modCore (coreKey die core) (fun c => { c with
      eccs := (addr.toNat / 4 % 32, s.cycle die) :: c.eccs.filter (fun e => recent (s.cycle die) e.2) }) else s).bboxAdd die
      ⟨addr, BitVec.ofNat 32 store, BitVec.ofNat 16 core, 0x02, 1⟩).report .correctable die) := by
  change execEccCorrected die store core addr s = _
  simp only [execEccCorrected, near, Nat.not_le.2 isCore, if_true, if_false]
  rfl

theorem eccCorrected_die (far : 2 ≤ store) (known : store < 6) : exec (.eccCorrected die store core addr) s =
    .next ((s.bboxAdd die ⟨addr, BitVec.ofNat 32 store, 0xFFFF, 0x02, 1⟩).report .correctable die) := by
  change execEccCorrected die store core addr s = _
  simp only [execEccCorrected, Nat.not_lt.2 far, known, if_true, if_false]

end Alarms

section Retire
variable {s : State} {core bid : Nat} {b : Block}

section Worn
variable (whole : (s.core core).fenced = false) (new : (s.core core).retiring = false) (isWorn : worn s core = true)
include whole new isWorn

theorem coreRetire_fences (none_ : Config.spareCores ≤ (s.die (coreDie core)).spares) : exec (.coreRetire core) s = .next (fence s core) := by
  change execCoreRetire core s = _
  simp only [execCoreRetire, whole, new, isWorn, Bool.not_true, Bool.false_eq_true, if_false, none_, if_true]

/-- R243: a worn core is retired to the next spare of its die. -/
theorem coreRetire_spare (some_ : (s.die (coreDie core)).spares < Config.spareCores) :
    let t := (s.modDie (coreDie core) (fun d => { d with
      spares := (s.die (coreDie core)).spares + 1
      phys := tset d.phys (coreIdx core) (s.die (coreDie core)).spares })).modCore core (fun c => { c with retiring := true })
    exec (.coreRetire core) s =
      .next (settleCore (if (s.blocksOn core).all (fun e => e.2.launch.isNone) then moveDispatcher t core else t) core) := by
  change execCoreRetire core s = _
  simp only [execCoreRetire, whole, new, isWorn, Bool.not_true, Bool.false_eq_true, if_false, Nat.not_le.2 some_]

end Worn

theorem blockMigrate_moves (isBlock : s.block? bid = some b) (moving : b.moving = true) (new : b.moved = false) :
    exec (.blockMigrate bid) s = .next (noteRetirement (s.setBlock bid { b with moved := true }) b.core) := by
  change execBlockMigrate bid s = _
  simp only [execBlockMigrate, isBlock, moving, new, Bool.not_false, Bool.and_self, if_true]

theorem migrationComplete_settles (isBlock : s.block? bid = some b) (moving : b.moving = true) (moved : b.moved = true) :
    exec (.migrationComplete bid) s = .next (settleCore (s.setBlock bid { b with moving := false }) b.core) := by
  change execMigrationComplete bid s = _
  simp only [execMigrationComplete, isBlock, moving, moved, Bool.and_self, if_true]

end Retire

section Fatal
variable {s : State} {w p : Nat} {cause : BitVec 64} {code : BitVec 32}

theorem dieFatal_contained {die : Nat} (isPart : s.partOfDie die = some p) : exec (.dieFatalError (.die die) cause code) s =
    .next (contain (s.bboxAdd die ⟨cause, code, 0xFFFF, 0x0F, 3⟩) p (.die die)) := by
  change execDieFatalError (.die die) cause code s = _
  simp only [execDieFatalError, isPart, Option.map_some, Option.getD_some]

/-- R207: the first loss of a parity group is rebuilt, a second is fatal. -/
theorem stackFatal_lost (low : w < 900) (new : w ∉ s.lost) (isPart : s.partOfDie w = some p) :
    let t : State := { s with lost := addTo w s.lost }
    exec (.dieFatalError (.stack w) cause code) s =
      .next (if mateLost s w then contain (t.bboxAdd w ⟨cause, code, 0xFFFF, 0x0F, 3⟩) p (.stack w) else t) := by
  have goes : ¬ (900 ≤ w ∨ s.lost.contains w = true) := by
    rw [List.contains_iff_mem]
    exact fun h => h.elim (fun far => absurd low (Nat.not_lt.2 far)) new
  have isPart' : ({ s with lost := addTo w s.lost } : State).partOfDie w = some p := isPart
  change execDieFatalError (.stack w) cause code s = _
  simp only [execDieFatalError, if_neg goes, isPart', Option.map_some, Option.getD_some]

theorem mateLost_iff (new : w ∉ s.lost) : mateLost s w = true ↔ ∃ v ∈ s.lost, v / 5 = w / 5 := by
  rw [mateLost, List.any_eq_true]
  refine exists_congr fun v => and_congr_right fun isIn => ?_
  have other : v ≠ w := fun same => new (same ▸ isIn)
  rw [bne_iff_ne.2 other, Bool.true_and, beq_iff_eq]

variable {P : Part} {f : FailedPart}

theorem contained_part (isPart : s.part? p = some P) :
    ((s.modPart p (fun P => { P with fatal := true, failures := P.failures ++ [f] })).report .fatal p).part? p =
      some { P with fatal := true, failures := P.failures ++ [f] } := by
  have modified : (s.modPart p (fun P => { P with fatal := true, failures := P.failures ++ [f] })).part? p =
      some { P with fatal := true, failures := P.failures ++ [f] } := by
    rw [part_modPart, if_pos rfl, isPart, Option.map_some]
  exact modified

end Fatal

section Clock

/-- Nothing but cores differs. -/
def CoresOnly (s t : State) : Prop := ∃ cs, t = { s with cores := cs }

theorem CoresOnly.refl (s : State) : CoresOnly s s := ⟨s.cores, rfl⟩

theorem CoresOnly.trans {s t u : State} : CoresOnly s t → CoresOnly t u → CoresOnly s u := by
  rintro ⟨_, rfl⟩ ⟨cs, rfl⟩
  exact ⟨cs, rfl⟩

theorem CoresOnly.foldl {α : Type} {f : State → α → State} (each : ∀ s x, CoresOnly s (f s x)) (xs : List α) : ∀ s, CoresOnly s (xs.foldl f s) := by
  induction xs with
  | nil => exact .refl
  | cons x xs ih => exact fun s => (each s x).trans (ih _)

theorem CoresOnly.count (s : State) (k : Nat) (u : Option Nat) (n m : Nat) : CoresOnly s (s.count k u n m) := ⟨_, count_cores s k u n m⟩

theorem addTally_cores (k : Nat) (s : State) (t : Tally) : CoresOnly s (addTally k s t) := by
  refine CoresOnly.foldl (fun s c => ?_) _ s
  split
  · exact .refl s
  · exact .count ..

/-- R257: a core's cycle changes counters of cores alone. -/
theorem countCore_cores (s : State) (k : Nat) : CoresOnly s (countCore s k) := by
  have tallied (ts : List (Option Tally)) (f : State → Option Tally → State)
      (isF : ∀ st t, f st t = match t with | some t => addTally k st t | none => st) : CoresOnly s (ts.foldl f s) := by
    refine CoresOnly.foldl (fun st t => ?_) ts s
    rw [isF]
    cases t with
    | none => exact .refl st
    | some t => exact addTally_cores k st t
  unfold countCore
  dsimp only
  split
  · exact (tallied _ _ fun st t => by cases t <;> rfl).trans (.count ..)
  · exact tallied _ _ fun st t => by cases t <;> rfl

theorem countCores_cores (ks : List Nat) (s : State) : CoresOnly s (ks.foldl countCore s) := CoresOnly.foldl countCore_cores ks s

/-- R272: the cycles that a die has counted stay. -/
theorem cycle_capped (s : State) (ls : Table Launch) (die cap : Nat) :
    (({ s with launches := ls } : State).modDie die (fun d => { d with cap := cap, cycle0 := s.cycle die, tick0 := s.tick })).cycle die = s.cycle die := by
  rw [State.cycle, die_modDie, if_pos rfl]
  simp only [modDie_tick, Nat.sub_self, Nat.zero_mul, Nat.zero_div, Nat.add_zero]

end Clock

/-- Settles O60: recovery, containment and the clock. -/
theorem recovery : Obligations.Recovery := by
  refine ⟨fun s core => rfl, ?_, ?_, ?_, ?_, ?_, ?_, ?_, fun s link flits => rfl, fun s part a b => ⟨rfl, rfl, rfl⟩, ?_, ?_, ?_, ?_, ?_⟩
  · exact fun g x => ⟨rfl, rfl, rfl, rfl, fun e isTaken later => rewind_pending isTaken later, fun n isIn => rewind_notices isIn,
      fun e isIn => rewind_held isIn, fun t isInv => rewind_tlbi isInv, fun r isSent later => rewind_again isSent later⟩
  · exact fun g a some_ => ⟨fun h rest shadows old => shadowFor_head shadows old, fun young launched => shadowFor_first some_ young launched⟩
  · exact fun s way lid l isLaunch => ⟨_, rfl, rfl, rfl, rfl, waystationAlarm_launch isLaunch⟩
  · intro s die store core addr counted
    exact ⟨fun near isCore => eccCorrected_core near isCore, fun far known => eccCorrected_die far known⟩
  · intro s core whole new isWorn
    refine ⟨coreRetire_fences whole new isWorn, ?_⟩
    intro some_ t
    have retires := coreRetire_spare whole new isWorn some_
    refine ⟨fun ⟨e, isIn, launched⟩ => ?_, fun alone => ?_⟩
    · refine retires.trans (congrArg (fun u => Host.Outcome.next (settleCore u core)) (if_neg fun all => launched ?_))
      exact Option.isNone_iff_eq_none.1 (List.all_eq_true.1 all e isIn)
    · refine retires.trans (congrArg (fun u => Host.Outcome.next (settleCore u core)) (if_pos (List.all_eq_true.2 fun e isIn => ?_)))
      exact Option.isNone_iff_eq_none.2 (alone e isIn)
  · intro p _
    obtain ⟨nodup, length, from_⟩ := pick_spec (Config.sparePhysical p) Config.spareCores (List.range (Config.coresPerDie + Config.spareCores))
      List.nodup_range (by rw [List.length_range]; exact Nat.le_add_left ..)
    exact ⟨nodup, length, fun n isIn => List.mem_range.1 (from_ n isIn)⟩
  · exact fun s bid b isBlock moving => ⟨blockMigrate_moves isBlock moving, migrationComplete_settles isBlock moving⟩
  · exact fun s die p cause code isPart => dieFatal_contained isPart
  · intro s w p cause code low new isPart t
    have fatal := stackFatal_lost (cause := cause) (code := code) low new isPart
    refine ⟨fun alone => fatal.trans (congrArg _ (if_neg fun lost => ?_)), fun mate => fatal.trans (congrArg _ (if_pos ((mateLost_iff new).2 mate)))⟩
    obtain ⟨v, isIn, same⟩ := (mateLost_iff new).1 lost
    exact alone v isIn same
  · exact fun s p P f isPart => ⟨rfl, contained_part isPart, rfl, rfl⟩
  · intro s
    obtain ⟨ks, isKs⟩ : ∃ ks : List Nat, exec .laneCycleCount s = .next { ks.foldl countCore s with tick := s.tick + 1 } := ⟨_, rfl⟩
    refine ⟨_, isKs, ?_⟩
    obtain ⟨cs, isCores⟩ := countCores_cores ks s
    rw [isCores]
    exact ⟨rfl, rfl, rfl, rfl, rfl, fun n => rfl⟩
  · intro s die cap low high
    have goes : ¬ (cap < 12 ∨ 24 < cap) := by omega
    refine ⟨_, (if_neg goes : exec (.clockCapChange die cap) s = _), ?_, ?_, fun q other => ?_, rfl, rfl, rfl⟩
    · exact cycle_capped ..
    · rw [die_modDie, if_pos rfl]
    · exact (die_modDie ..).trans (if_neg other)

end Sys2Proof.Machine

/-! The panel after bring-up, and a group at its start (R14, R34, R64, R271): O25. -/

namespace Sys2Proof.Machine
open State

section Start
variable {pc : Word} {lanes step spill : Nat} {s0 vec : Word}

/-- R64: a group starts with its parameter pointer in s0 and zero in every other scalar. -/
theorem start_scalar (n : Nat) : tget 0 (Regs.start pc lanes step s0 spill vec false).s n = if n = 0 then s0 else 0 := by
  split
  · next zero =>
    rw [zero]
    exact tget_tput_same _ _ _ _
  · next other => exact tget_tput_other _ _ _ other

theorem start_live {l : Nat} (small : l < 32) : bitOf (Regs.start pc lanes step s0 spill vec false).live l = decide (l < lanes) :=
  bit_maskOf _ l small

end Start

section Calendars
variable {e : Nat}

/-- R271: the link and port calendars of bring-up. -/
theorem reset_calendar (inside : e < 256) : Cals.reset.link[e]? = some (if e % 4 = 0 then 0x10 else if e % 4 = 1 then 0x20 else 0) ∧
    Cals.reset.port[e]? = some (if e % 4 = 0 then 0x10 else if e % 4 = 1 then 0x20 else 0) := by
  have entry : (List.range 256)[e]? = some e := List.getElem?_range inside
  exact ⟨by simp only [Cals.reset, List.getElem?_map, entry, Option.map_some], by simp only [Cals.reset, List.getElem?_map, entry, Option.map_some]⟩

end Calendars

/-- After bring-up each die's dispatcher stands (R34). -/
theorem reset_dispatcher {p : Nat} (low : p < 900) : State.reset.group? p = some (dispatcher p) := by
  have enabled : (decide (p < 900) && !State.reset.disabled.contains p) = true := by rw [decide_eq_true low]; rfl
  exact if_pos enabled

/-- Settles O25: the panel after bring-up, and a group at its start. -/
theorem freshMachine : Obligations.FreshMachine := by
  refine ⟨?_, ⟨Part.fresh 0 29 0 0 0, rfl, rfl, rfl, rfl, rfl, fun e inside first => ?_, fun e inside second => ?_, fun e inside late => ?_⟩,
    rfl, rfl, rfl, rfl, rfl, fun k => rfl, fun p low => ⟨_, reset_dispatcher low, rfl, rfl⟩, fun disabled s good => if_pos good⟩
  · intro pc lanes step s0 spill vec n l small r
    exact ⟨rfl, rfl, rfl, rfl, rfl, rfl, rfl, rfl, rfl, start_scalar 0, fun other => (start_scalar n).trans (if_neg other), rfl, rfl, rfl, rfl, rfl,
      rfl, rfl, rfl, rfl, rfl, rfl, start_live small⟩
  · rw [← if_pos (c := e % 4 = 0) (t := (0x10 : Byte)) (e := if e % 4 = 1 then 0x20 else 0) first]
    exact reset_calendar inside
  · have isEntry : (if e % 4 = 0 then (0x10 : Byte) else if e % 4 = 1 then 0x20 else 0) = 0x20 := by rw [if_neg (by omega), if_pos second]
    rw [← isEntry]
    exact reset_calendar inside
  · have isEntry : (if e % 4 = 0 then (0x10 : Byte) else if e % 4 = 1 then 0x20 else 0) = 0x00 := by rw [if_neg (by omega), if_neg (by omega)]
    rw [← isEntry]
    exact reset_calendar inside

end Sys2Proof.Machine

/-! O46, the frame: the functions of the model that leave device memory as it is, each with the equation that says so. -/

namespace Sys2Proof.Machine
open State

/-- A fold of a function that leaves memory leaves memory. -/
@[simp] theorem mem_foldl {β : Type} {f : State → β → State} (hf : ∀ s x, (f s x).mem = s.mem) (l : List β) (s : State) :
    (l.foldl f s).mem = s.mem := by
  induction l generalizing s with
  | nil => rfl
  | cons x l ih => exact (ih _).trans (hf s x)

@[simp] theorem freeSlot_mem (s : State) (k g : Nat) : (State.freeSlot s k g).mem = s.mem := rfl

@[simp] theorem bboxAdd_mem (s : State) (p : Nat) (r : BBox) : (State.bboxAdd s p r).mem = s.mem := rfl

@[simp] theorem parity_mem (s : State) (key : Nat) : (parity s key).mem = s.mem := by
  unfold parity
  repeat' split
  all_goals simp

@[simp] theorem rebuilds_mem (s : State) (keys : List Nat) : (State.rebuilds s keys).mem = s.mem := by unfold State.rebuilds; split <;> simp

@[simp] theorem freeCtx_mem (s : State) (k lid : Nat) : (State.freeCtx s k lid).mem = s.mem := by unfold State.freeCtx; split <;> rfl

@[simp] theorem dropBlock_mem (s : State) (bid : Nat) : (State.dropBlock s bid).mem = s.mem := by
  unfold State.dropBlock
  repeat' split
  all_goals simp

@[simp] theorem termRecords_mem (s : State) (lid : Nat) (l : Launch) (reason : Nat) : (State.termRecords s lid l reason).mem = s.mem := by
  have told (x : BBox) : ((s.diesOf lid l).foldl (fun s p => s.bboxAdd p x) s).mem = s.mem := mem_foldl (fun _ _ => by rfl) _ _
  simp only [State.termRecords]
  split <;> simp [told]

@[simp] theorem poisonUsed_mem (s : State) (g : Group) (addr : Word) : (State.poisonUsed s g addr).mem = s.mem := rfl

@[simp] theorem settle_mem (s : State) (bid : Nat) (gone : List Entry) :
    (State.settle s bid gone).mem = s.mem := by unfold State.settle; split <;> rfl

@[simp] theorem dropOps_mem (s : State) (bid : Nat) (ids : List Nat) :
    (State.dropOps s bid ids).mem = s.mem := by unfold State.dropOps; split <;> simp

@[simp] theorem abandon_mem (s : State) (gid bid : Nat) : (State.abandon s gid bid).mem = s.mem := by unfold State.abandon; split <;> simp

@[simp] theorem freePlanes_mem (s : State) (gid : Nat) : (State.freePlanes s gid).mem = s.mem := by
  simp only [State.freePlanes]
  repeat' split
  all_goals simp

@[simp] theorem noteCross_mem (s : State) (b step : Nat) : (State.noteCross s b step).mem = s.mem := by simp [State.noteCross]

@[simp] theorem faultRecord_mem (s : State) (g : Group) : (State.faultRecord s g).mem = s.mem := by unfold State.faultRecord; split <;> rfl

@[simp] theorem noteFinal_mem (s : State) (g : Group) : (State.noteFinal s g).mem = s.mem := by
  unfold State.noteFinal
  repeat' split
  all_goals simp

@[simp] theorem retire_mem (s : State) (gid : Nat) : (State.retire s gid).mem = s.mem := by unfold State.retire; split <;> simp

@[simp] theorem count_mem (s : State) (k : Nat) (guest : Option Nat) (n amount : Nat) :
    (State.count s k guest n amount).mem = s.mem := by unfold State.count; split <;> rfl

@[simp] theorem addTally_mem (k : Nat) (s : State) (t : Tally) :
    (addTally k s t).mem = s.mem := mem_foldl (fun _ _ => by split <;> simp) _ _

@[simp] theorem noteRetirement_mem (s : State) (k : Nat) : (noteRetirement s k).mem = s.mem := by unfold noteRetirement; split <;> rfl

@[simp] theorem settleCore_mem (s : State) (k : Nat) : (settleCore s k).mem = s.mem := by
  simp only [settleCore]
  split <;> simp

@[simp] theorem recordSomewhere_mem (s : State) (p : Nat) (r : BBox) :
    (recordSomewhere s p r).mem = s.mem := by unfold recordSomewhere; split <;> rfl

@[simp] theorem moveDispatcher_mem (s : State) (k : Nat) : (moveDispatcher s k).mem = s.mem := by unfold moveDispatcher; split <;> simp

@[simp] theorem returnItems_mem (s : State) (p gid q : Nat) : (returnItems s p gid q).mem = s.mem := rfl

@[simp] theorem returnArrivals_mem (s : State) (b : Block) (ids : List Nat) : (returnArrivals s b ids).mem = s.mem := rfl

@[simp] theorem rollback_mem (a k : Nat) (s : State) (gid : Nat) : (rollback a k s gid).mem = s.mem := by unfold rollback; split <;> simp

@[simp] theorem writeRegister_mem (s : State) (p : Nat) (P : Part) (off : Nat) (upper : Bool) (d : RegData) :
    (writeRegister s p P off upper d).mem = s.mem := by
  simp only [writeRegister, apply_ite State.mem, modPart_mem, ite_self]

@[simp] theorem writeVirtual_mem (s : State) (p g off : Nat) (upper : Bool) (d : RegData) :
    (writeVirtual s p g off upper d).mem = s.mem := by
  unfold writeVirtual
  repeat' split
  all_goals simp

@[simp] theorem answer_mem (s : State) (p : Nat) (src : HostSrc) (a : HostAns) : (answer s p src a).mem = s.mem := rfl

@[simp] theorem notify_mem (s : State) (gid : Nat) (n : Notice) : (State.notify s gid n).mem = s.mem := by
  unfold State.notify
  repeat' split
  all_goals simp

@[simp] theorem finishCommand_mem (s : State) (part : Nat) (mode : BitVec 2) : (finishCommand s part mode).mem = s.mem := rfl

@[simp] theorem completeOp_mem (s : State) (oid : Nat) (blk : Nat) (ws : List Write) :
    (completeOp s oid blk ws).mem = s.mem := by simp [completeOp]

@[simp] theorem unfreeze_mem (s : State) (part : Nat) (f : Frozen) : (unfreeze s part f).mem = s.mem := rfl

@[simp] theorem putMove_mem (s : State) (lid : Nat) (m : Move) : (putMove s lid m).mem = s.mem := rfl

@[simp] theorem tellGroup_mem (s : State) (g cause j : Nat) (addr : Word) (rows : Nat) (info : Word) :
    (tellGroup s g cause j addr rows info).mem = s.mem := by simp [tellGroup]

@[simp] theorem faultMove_mem (s : State) (o : Nat) : (faultMove s o).mem = s.mem := by
  unfold faultMove
  repeat' split
  all_goals simp

@[simp] theorem applyGuests_mem (s : State) (part : Nat) : (applyGuests s part).mem = s.mem := rfl

@[simp] theorem clearGuestCounters_mem (s : State) (part : Nat) (old new : Table GuestCfg) :
    (clearGuestCounters s part old new).mem = s.mem := by
  simp only [clearGuestCounters]
  split <;> simp

@[simp] theorem refuseConfig_mem (s : State) (part : Nat) : (refuseConfig s part).mem = s.mem := rfl

@[simp] theorem inherit_mem (s : State) (t : Table Layout) (part : Nat) : (inherit s t part).mem = s.mem := rfl

@[simp] theorem mailTo_mem (s : State) (p : Nat) (m : MboxItem) : (mailTo s p m).mem = s.mem := rfl

@[simp] theorem mailAll_mem (s : State) (P : Part) (m : MboxItem) : (mailAll s P m).mem = s.mem := mem_foldl (fun _ _ => by rfl) _ _

@[simp] theorem beginPreempt_mem (s : State) (lid p : Nat) (P : Part) (image : Word) (force queued : Bool) :
    (beginPreempt s lid p P image force queued).mem = s.mem := by simp [beginPreempt]

@[simp] theorem beginRestore_mem (s : State) (lid p : Nat) (P : Part) (image : Word) :
    (beginRestore s lid p P image).mem = s.mem := by simp [beginRestore]

@[simp] theorem takeWaiting_mem (s : State) (part : Nat) (P : Part) (w : BitVec 32 × Word) :
    (takeWaiting s part P w).mem = s.mem := by unfold takeWaiting; split <;> simp

@[simp] theorem endCommand_mem (s : State) (lid : Nat) (mode : BitVec 2) : (endCommand s lid mode).mem = s.mem := rfl

@[simp] theorem restoreCores_mem (s : State) (lid : Nat) (v : Saved) (P : Part) (p i : Nat) :
    (restoreCores s lid v P p i).mem = s.mem := mem_foldl (fun _ _ => by rfl) _ _

@[simp] theorem packDie_mem (s : State) (p lid step : Nat) : (packDie s p lid step).mem = s.mem := by
  simp only [packDie]
  repeat' split
  all_goals simp

@[simp] theorem restoreItems_mem (s : State) (lid : Nat) (v : Saved) (P : Part) (p i : Nat) : (restoreItems s lid v P p i).mem = s.mem := by
  simp only [restoreItems]
  repeat' split
  all_goals simp

@[simp] theorem restoreBlock_mem (s : State) (lid : Nat) (v : Saved) (P : Part) (bid : Nat) (b : Block) :
    (restoreBlock s lid v P bid b).mem = s.mem := mem_foldl (fun _ _ => by rfl) _ _

@[simp] theorem failRestore_mem (s : State) (lid holder : Nat) : (failRestore s lid holder).mem = s.mem := by simp [failRestore]

@[simp] theorem rejectRestore_mem (s : State) (lid holder die : Nat) (image : Word) :
    (rejectRestore s lid holder die image).mem = s.mem := by simp [rejectRestore]

@[simp] theorem advanceArea_mem (s : State) (l : Launch) (n : Nat) : (advanceArea s l n).mem = s.mem := by unfold advanceArea; split <;> rfl

@[simp] theorem hostReadWeight_mem (s : State) (part : Nat) (P : Part) (die off len : Nat) :
    (hostReadWeight s part P die off len).mem = s.mem := by
  unfold hostReadWeight
  repeat' split
  all_goals simp

@[simp] theorem reportAbort_mem (s : State) (what : Nat) : (State.reportAbort s what).mem = s.mem := rfl

@[simp] theorem freezeHost_mem (s : State) (p : Nat) (P : Part) (write : Bool) (va : Word) : (freezeHost s p P write va).mem = s.mem := rfl

@[simp] theorem barRead_mem (s : State) (part : Nat) (P : Part) (guest : Option (BitVec 3)) (off len : Nat) :
    (barRead s part P guest off len).mem = s.mem := by
  simp only [barRead]
  repeat' split
  all_goals simp

@[simp] theorem freezeEngine_mem (s : State) (p oid : Nat) (die : Bool) (by_ : FrozenBy) (a : Word) :
    (freezeEngine s p oid die by_ a).mem = s.mem := by
  simp only [freezeEngine]
  repeat' split
  all_goals simp

@[simp] theorem crossOne_mem (s : State) (gid : Nat) (glob : Bool) :
    (State.crossOne s gid glob).mem = s.mem := by unfold State.crossOne; split <;> simp

@[simp] theorem pushShadow_mem (s : State) (gid : Nat) : (State.pushShadow s gid).mem = s.mem := by unfold State.pushShadow; split <;> rfl

@[simp] theorem shootDown_mem (s : State) (part : Option Nat) (t : TlbInv) : (shootDown s part t).mem = s.mem := rfl

@[simp] theorem serveWait_mem (s : State) (p : Nat) (w : MboxWait) (chan : Nat) (bs : List Byte) :
    (serveWait s p w chan bs).mem = s.mem := rfl

@[simp] theorem fillWindow_mem (s : State) (bid : Nat) (w : Window) (a : Arrival) : (fillWindow s bid w a).mem = s.mem := by
  simp only [fillWindow]
  split <;> simp

@[simp] theorem freezeOp_mem (s : State) (oid : Nat) (op : AsyncOp) (a : Word) : (freezeOp s oid op a).mem = s.mem := by simp [freezeOp]

@[simp] theorem keepTables_mem (s : State) (ids : List Nat) (t : Table (BitVec 3 × BitVec 9)) : (keepTables s ids t).mem = s.mem := rfl

@[simp] theorem leaveQueue_mem (s : State) (oid : Nat) (op : AsyncOp) (ws : List Write) :
    (leaveQueue s oid op ws).mem = s.mem := by simp [leaveQueue]

@[simp] theorem tableStep_mem (s : State) (oid : Nat) (op : AsyncOp) (tab : Nat) : (tableStep s oid op tab).mem = s.mem := by
  simp only [tableStep]
  repeat' split
  all_goals simp

@[simp] theorem putOp_mem (s : State) (oid : Nat) (op : AsyncOp) : (putOp s oid op).mem = s.mem := rfl

@[simp] theorem advance_mem (s : State) (oid : Nat) (op : AsyncOp) (total : Nat) (ws : List Write) :
    (advance s oid op total ws).mem = s.mem := by unfold advance; split <;> simp

@[simp] theorem setWov_mem (s : State) (gid : Nat) (ps : List Nat) (on : Bool) : (setWov s gid ps on).mem = s.mem := by simp [setWov]

@[simp] theorem drainStep_mem (s : State) (oid : Nat) (op : AsyncOp) (g : Group) (clr flt : Bool) (rnd : Rnd) (tile : Nat) :
    (drainStep s oid op g clr flt rnd tile).mem = s.mem := by
  unfold drainStep
  repeat' split
  all_goals simp

@[simp] theorem tryFree_mem (s : State) (bid : Nat) : (State.tryFree s bid).mem = s.mem := by
  simp only [State.tryFree]
  repeat' split
  all_goals simp

@[simp] theorem stopMatrix_mem (s : State) (oid : Nat) (op : AsyncOp) (tile cause : Nat) (addr : Word) (opnd sub : Nat) :
    (stopMatrix s oid op tile cause addr opnd sub).mem = s.mem := by
  simp only [stopMatrix]
  split <;> simp

@[simp] theorem openTile_mem (s : State) (op : AsyncOp) (g : Group) (flt : Bool) (tile : Nat) :
    (openTile s op g flt tile).mem = s.mem := by simp [openTile]

@[simp] theorem loadStep_mem (s : State) (oid : Nat) (op : AsyncOp) (g : Group) (flt : Bool) (tile : Nat) :
    (loadStep s oid op g flt tile).mem = s.mem := by
  simp only [loadStep]
  repeat' split
  all_goals simp

@[simp] theorem clearTile_mem (s : State) (op : AsyncOp) (g : Group) (flt : Bool) (tile : Nat) :
    (clearTile s op g flt tile).mem = s.mem := by simp [clearTile]

@[simp] theorem patchShadows_mem (s : State) (op : AsyncOp) : (patchShadows s op).mem = s.mem := by simp [patchShadows]

@[simp] theorem relieve_mem (s : State) (oid : Nat) (x : AsyncOp) : (relieve s oid x).mem = s.mem := by
  simp only [relieve]
  repeat' split
  all_goals simp

@[simp] theorem latchBlock_mem (s : State) (oid : Nat) (op : AsyncOp) (g : Group) (tile : Nat) (q : LateBlock) :
    (latchBlock s oid op g tile q).mem = s.mem := by
  simp only [latchBlock]
  split <;> simp

@[simp] theorem takeArrival_mem (s : State) (bid : Nat) (w : Window) : (takeArrival s bid w).mem = s.mem := by
  unfold takeArrival
  repeat' split
  all_goals simp

@[simp] theorem finishMove_mem (s : State) (oid : Nat) (op : AsyncOp) (demote : Bool) :
    (finishMove s oid op demote).mem = s.mem := by unfold finishMove; split <;> simp

@[simp] theorem finishMulti_mem (s : State) (oid : Nat) (op : AsyncOp) (recv : List Nat) : (finishMulti s oid op recv).mem = s.mem := by
  simp only [finishMulti]
  repeat' split
  all_goals simp

@[simp] theorem finishFerry_mem (s : State) (oid : Nat) (op : AsyncOp) : (finishFerry s oid op).mem = s.mem := by
  simp only [finishFerry]
  repeat' split
  all_goals simp

@[simp] theorem latch_mem (s : State) (oid : Nat) (op : AsyncOp) (q : LateBlock) : (latch s oid op q).mem = s.mem := by
  simp only [latch]
  repeat' split
  all_goals simp

@[simp] theorem clearFor_mem (s : State) (k : Nat) (ps : List Nat) : (clearFor s k ps).mem = s.mem := rfl

@[simp] theorem placeBlock_mem (s : State) (k lid bytes spill n tiles : Nat) (mk : Nat → Nat → List Nat → Group) :
    (placeBlock s k lid bytes spill n tiles mk).mem = s.mem := by unfold placeBlock; split <;> rfl

@[simp] theorem placeChild_mem (s : State) (k lid : Nat) (l : Launch) (q : Proto) :
    (placeChild s k lid l q).mem = s.mem := by simp [placeChild]

@[simp] theorem keepWord_mem (lid j : Nat) (s : State) (w : Nat) : (keepWord lid j s w).mem = s.mem := rfl

@[simp] theorem redoRows_mem (s : State) (dk : Nat) (rows : List Nat) : (redoRows s dk rows).mem = s.mem := rfl

@[simp] theorem dropMove_mem (s : State) (lid : Nat) (m : Move) : (dropMove s lid m).mem = s.mem := rfl

@[simp] theorem setStage_mem (s : State) (lid id : Nat) (f : Stage → Option Stage) : (setStage s lid id f).mem = s.mem := rfl

@[simp] theorem startRun_mem (s : State) (gid : Nat) (g : Group) (k slot : Nat) (i : GrantInfo) :
    (startRun s gid g k slot i).mem = s.mem := rfl

@[simp] theorem leaveHorizon_mem (s : State) (gid : Nat) : (State.leaveHorizon s gid).mem = s.mem := by
  unfold State.leaveHorizon
  repeat' split
  all_goals simp

@[simp] theorem resumeMatrix_mem (s : State) (r : Regs) (mop : Option Nat) :
    (State.resumeMatrix s r mop).mem = s.mem := by unfold State.resumeMatrix; split <;> rfl

@[simp] theorem returnTrap_mem (s : State) (gid : Nat) (g : Group) : (State.returnTrap s gid g).mem = s.mem := by simp [State.returnTrap]

@[simp] theorem markYield_mem (s : State) (k gid : Nat) (y : Bool) : (State.markYield s k gid y).mem = s.mem := rfl

@[simp] theorem crossN_mem (gid : Nat) (glob : Bool) (n : Nat) (s : State) : (s.crossN gid glob n).mem = s.mem := by
  induction n generalizing s with
  | zero => rfl
  | succ n ih => exact (ih _).trans (crossOne_mem ..)

@[simp] theorem endRun_mem (s : State) (gid : Nat) (c : Ctl) (n : Next) : (State.endRun s gid c n).mem = s.mem := by
  unfold State.endRun
  split
  · rfl
  · dsimp only
    split
    · simp
    · split
      · simp
      · repeat' split
        all_goals simp

@[simp] theorem keepHeader_mem (s : State) (p lid : Nat) (q : Packet) (bs : List Byte) : (keepHeader s p lid q bs).mem = s.mem := rfl

@[simp] theorem reportDie_mem (s : State) (p lid : Nat) (byte : Option Nat) : (reportDie s p lid byte).mem = s.mem := rfl

@[simp] theorem placeRoot_mem (s : State) (k lid : Nat) (l : Launch) (bits : Nat) :
    (placeRoot s k lid l bits).mem = s.mem := by simp [placeRoot]

theorem placeRoots_mem {p lid : Nat} {l : Launch} {i n : Nat} {bs : List Nat} {s t : State}
    (placed : placeRoots p lid l i n bs s = some t) : t.mem = s.mem := by
  induction bs generalizing s with
  | nil => cases placed; rfl
  | cons b bs ih =>
    unfold placeRoots at placed
    split at placed
    · cases placed
    · exact (ih placed).trans (placeRoot_mem ..)

@[simp] theorem unitRoots_mem (s : State) (p lid : Nat) (P : Part) (l : Launch) (q : Packet) (bs : List Byte) :
    (unitRoots s p lid P l q bs).mem = s.mem := by
  simp only [unitRoots]
  split
  · rfl
  · split
    · simp
    · split
      · rfl
      · next placed => simpa using placeRoots_mem placed

@[simp] theorem finish_mem (s : State) (gid : Nat) (i : Instr) (c : Ctl) (act : Mask) (n : Next) (extra : Nat) :
    (finish s gid i c act n extra).mem = s.mem := by
  unfold finish
  repeat' split
  all_goals simp

@[simp] theorem startLoad_mem (s : State) (gid : Nat) (g : Group) (dst : LoadDst) (sz : Size) (src : LoadSrc) (reads : List LaneRead) :
    (startLoad s gid g dst sz src reads).mem = s.mem := by unfold startLoad; split <;> rfl

@[simp] theorem llcEvict_mem (s : State) (w : Nat) (x : LlcLine) :
    (State.llcEvict s w x).mem = s.mem := by unfold State.llcEvict; split <;> rfl

@[simp] theorem llcRoom_mem (s : State) (w limit guest : Nat) : (State.llcRoom s w limit guest).mem = s.mem := by
  simp only [State.llcRoom]
  repeat' split
  all_goals simp

@[simp] theorem llcFill_mem (s : State) (P : Part) (guest line : Nat) (pfg : Option Nat) :
    (State.llcFill s P guest line pfg).mem = s.mem := by
  unfold State.llcFill
  repeat' split
  all_goals simp

@[simp] theorem llcRead_mem (s : State) (line : Nat) : (State.llcRead s line).mem = s.mem := by
  unfold State.llcRead
  repeat' split
  all_goals simp

@[simp] theorem llcReads_mem (s : State) (gid : Nat) (hint : BitVec 2) (lines : List (Nat × Trans)) :
    (State.llcReads s gid hint lines).mem = s.mem := by
  unfold State.llcReads
  split
  · rfl
  · split
    · rfl
    · exact mem_foldl (fun _ _ => by dsimp only; split <;> simp) _ _

@[simp] theorem sendLocal_mem (s : State) (g : Group) (deps : List Nat) (ws : List Write) :
    (sendLocal s g deps ws).mem = s.mem := by simp [sendLocal]

end Sys2Proof.Machine

/-! O46, the writers: every function of the model that writes device memory or sees a state that another has written keeps its
canonical form. -/

namespace Sys2Proof.Machine
open State

/-- A fold of a function that keeps the canonical form keeps it. -/
theorem canonical_foldl {β : Type} {f : State → β → State} (keeps : ∀ s x, Memory.wf s.mem = true → Memory.wf (f s x).mem = true)
    (l : List β) (s : State) (h : Memory.wf s.mem = true) : Memory.wf (l.foldl f s).mem = true := by
  induction l generalizing s with
  | nil => exact h
  | cons x l ih => exact ih _ (keeps s x h)

/-- The same of a fold whose carrier holds the state among other things. -/
theorem canonical_foldl_at {σ β : Type} (get : σ → State) {f : σ → β → σ}
    (keeps : ∀ r x, Memory.wf (get r).mem = true → Memory.wf (get (f r x)).mem = true)
    (l : List β) (r : σ) (h : Memory.wf (get r).mem = true) : Memory.wf (get (l.foldl f r)).mem = true := by
  induction l generalizing r with
  | nil => exact h
  | cons x l ih => exact ih _ (keeps r x h)

/-- The form is a property of memory alone. -/
theorem canonical_of_mem {s t : State} (same : t.mem = s.mem) (h : Memory.wf s.mem = true) : Memory.wf t.mem = true := same ▸ h

theorem canonical_ite {c : Prop} [Decidable c] {s t : State} (h : Memory.wf s.mem = true) (h1 : Memory.wf t.mem = true) :
    Memory.wf (if c then s else t).mem = true := by
  split
  · exact h
  · exact h1

/-- A state that a pair answers. -/
theorem canonical_snd {α : Type} {x : α × State} {a : α} {t : State} (e : x = (a, t)) (h : Memory.wf x.2.mem = true) :
    Memory.wf t.mem = true := by
  subst e
  exact h

theorem canonical_fst {α : Type} {x : State × α} {a : α} {t : State} (e : x = (t, a)) (h : Memory.wf x.1.mem = true) :
    Memory.wf t.mem = true := by
  subst e
  exact h

/-- A state that a fetch answers. -/
theorem canonical_mid {α β : Type} {x : α × State × β} {a : α} {t : State} {b : β} (e : x = (a, t, b)) (h : Memory.wf x.2.1.mem = true) :
    Memory.wf t.mem = true := by
  subst e
  exact h

section Records
variable {s : State} (h : Memory.wf s.mem = true)
include h

@[simp] theorem canonical_writeVa (P : Part) (g : Option Nat) (va : Word) (bs : List Byte) :
    Memory.wf (s.writeVa P g va bs).mem = true := by
  induction bs generalizing s va with
  | nil => exact h
  | cons b bs ih =>
    unfold State.writeVa
    split
    · exact ih (Memory.wf_wr8 _ _ h) _
    · exact ih h _

@[simp] theorem canonical_trailed (t : Trail) : Memory.wf (s.trailed t).mem = true := by
  simpa [State.trailed] using Memory.wf_setA t.touch h

@[simp] theorem canonical_walked (P : Part) (g : Option Nat) (va : Word) (n : Nat) : Memory.wf (s.walked P g va n).mem = true :=
  canonical_foldl (fun s a h => by split <;> simp [h]) _ _ h

@[simp] theorem canonical_ringAdd (P : Part) (base : Word) (rec : List Byte) : Memory.wf (s.ringAdd P base rec).mem = true := by
  unfold State.ringAdd
  split
  · simp [h]
  · have walkedOnce := canonical_walked h P none base 32
    dsimp only
    split
    · simp [walkedOnce]
    · exact canonical_writeVa (canonical_writeVa (canonical_walked walkedOnce ..) ..) ..

@[simp] theorem canonical_record (lid state reason byte : Nat) : Memory.wf (s.record lid state reason byte).mem = true := by
  unfold State.record
  repeat' split
  all_goals simp [h]

@[simp] theorem canonical_rejectOne (lid reason byte : Nat) : Memory.wf (s.rejectOne lid reason byte).mem = true := by
  simp [State.rejectOne, h]

@[simp] theorem canonical_rejectFollowers (n : Nat) : Memory.wf (State.rejectFollowers n s).mem = true := by
  induction n generalizing s with
  | zero => exact h
  | succ n ih =>
    unfold State.rejectFollowers
    split
    · exact h
    · exact ih (canonical_rejectOne h ..)

@[simp] theorem canonical_reject (lid reason byte : Nat) : Memory.wf (s.reject lid reason byte).mem = true := by
  simp [State.reject, h]

@[simp] theorem canonical_terminate (lid reason : Nat) : Memory.wf (s.terminate lid reason).mem = true := by
  unfold State.terminate
  split
  · exact h
  · split
    · exact h
    · exact canonical_rejectFollowers (canonical_record (canonical_of_mem (by simp) h) ..) _

end Records

section Traps
variable {s : State} (h : Memory.wf s.mem = true)
include h

@[simp] theorem canonical_fatalTrap (gid : Nat) (g : Group) (pc : Word) (cause reason : Nat) :
    Memory.wf (s.fatalTrap gid g pc cause reason).mem = true := by
  unfold State.fatalTrap
  dsimp only
  split <;> simp [h]

@[simp] theorem canonical_enterTrap (gid : Nat) (g : Group) (t : TrapInfo) (pc : Word) (head : Bool) :
    Memory.wf (s.enterTrap gid g t pc head).mem = true := by
  unfold State.enterTrap
  dsimp only
  repeat' split
  all_goals simp [h]

@[simp] theorem canonical_syncTrap (gid : Nat) (t : TrapInfo) : Memory.wf (s.syncTrap gid t).mem = true := by
  unfold State.syncTrap
  repeat' split
  all_goals simp [h]

@[simp] theorem canonical_takeNotice (gid : Nat) (g : Group) : Memory.wf (s.takeNotice gid g).mem = true := by
  unfold State.takeNotice
  split <;> simp [h]

end Traps

section Lookups
variable {s : State} (h : Memory.wf s.mem = true)
include h

theorem canonical_translate (k : Nat) (tag : Option Nat) (page : Nat) : Memory.wf (s.translate k tag page).2.mem = true := by
  unfold State.translate
  dsimp only
  split
  · simp [h]
  · split
    · simp [h]
    · split <;> simp [h]

theorem canonical_check (k : Nat) (tag : Option Nat) (va : Word) (w : Want) : Memory.wf (s.check k tag va w).2.mem = true := by
  unfold State.check
  dsimp only
  split
  · exact h
  · split
    · next e => exact canonical_snd e (canonical_translate h ..)
    · next e =>
      have found := canonical_snd e (canonical_translate h ..)
      repeat' split
      all_goals exact found

theorem canonical_fetchWord (k : Nat) (tag : Option Nat) (sys : Bool) (va : Word) :
    Memory.wf (s.fetchWord k tag sys va).2.mem = true := by
  unfold State.fetchWord
  split
  · next e => exact canonical_snd e (canonical_check h ..)
  · next e => exact canonical_snd e (canonical_check h ..)
  · next e =>
    have seen := canonical_snd e (canonical_check h ..)
    split <;> simp [seen]

theorem canonical_fetchAt (k : Nat) (tag : Option Nat) (sys : Bool) (pc : Word) :
    Memory.wf (s.fetchAt k tag sys pc).2.mem = true := by
  unfold State.fetchAt
  split
  · exact h
  · split
    · next e => exact canonical_snd e (canonical_fetchWord h ..)
    · next e =>
      have first := canonical_snd e (canonical_fetchWord h ..)
      split
      · next e => exact canonical_snd e (canonical_fetchWord first ..)
      · next e =>
        have second := canonical_snd e (canonical_fetchWord first ..)
        split
        · next e => exact canonical_snd e (canonical_fetchWord second ..)
        · next e => exact canonical_snd e (canonical_fetchWord second ..)

theorem canonical_fetchFor (g : Group) (pc : Word) : Memory.wf (s.fetchFor g pc).2.mem = true := canonical_fetchAt h ..

theorem canonical_hostReach (P : Part) (g : Option Nat) (va : Word) (write : Bool) :
    Memory.wf (hostReach s P g va write).2.mem = true := by
  unfold hostReach
  split
  · exact h
  · split
    · simp [h]
    · dsimp only
      repeat' split
      all_goals simp [h]

theorem canonical_hostReadAll (P : Part) (va : Word) (cs : List (Nat × Nat)) :
    Memory.wf (hostReadAll s P va cs).2.mem = true := by
  induction cs generalizing s with
  | nil => exact h
  | cons c cs ih =>
    unfold hostReadAll
    split
    · next key s1 e =>
      have reached := canonical_snd e (canonical_hostReach h ..)
      have rest := ih (canonical_of_mem (rebuilds_mem s1 (lineKeys key c.2)) reached)
      split
      · next e => exact canonical_snd e rest
      · exact rest
    · next e => exact canonical_snd e (canonical_hostReach h ..)

@[simp] theorem canonical_hostReadMem (part : Nat) (P : Part) (va : Word) (len : Nat) :
    Memory.wf (hostReadMem s part P va len).mem = true := by
  have whole := canonical_hostReadAll h P va (cutsOf va len)
  unfold hostReadMem
  split <;> next e => simpa using canonical_snd e whole

end Lookups

section HostWrites
variable {s : State} (h : Memory.wf s.mem = true)
include h

@[simp] theorem canonical_hostWeight (part : Nat) (P : Part) (die off : Nat) (data : List Byte) :
    Memory.wf (hostWeight s part P die off data).mem = true := by
  unfold hostWeight
  repeat' split
  all_goals simp [h, Memory.wf_wrL]

@[simp] theorem canonical_landWrite (key : Nat) (data : List Byte) : Memory.wf (landWrite s key data).mem = true := by
  unfold landWrite
  split <;> simp [h, Memory.wf_wrL]

theorem canonical_hostWritePiece (p : Nat) (P : Part) (g : Option Nat) (va : Word) (data : List Byte) :
    Memory.wf (hostWritePiece p P g s va data).mem = true := by
  have reached := canonical_hostReach h P g va true
  unfold hostWritePiece
  split <;> next e => simp [canonical_snd e reached]

@[simp] theorem canonical_hostWriteAll (p : Nat) (P : Part) (g : Option Nat) (va : Word) (data : List Byte) :
    Memory.wf (hostWriteAll s p P g va data).mem = true :=
  canonical_foldl (fun _ _ h => canonical_hostWritePiece h ..) _ _ h

@[simp] theorem canonical_landHost (w : HostW) : Memory.wf (landHost s w).mem = true := Memory.wf_wrL _ _ h

@[simp] theorem canonical_applyHost (lid j : Nat) : Memory.wf (applyHost s lid j).mem = true :=
  canonical_foldl (fun _ w h => canonical_landHost h w) _ _ h

@[simp] theorem canonical_applyOrphan : Memory.wf (applyOrphan s).mem = true := by
  unfold applyOrphan
  split <;> simp [h]

end HostWrites

section Copies
variable {s : State} (h : Memory.wf s.mem = true)
include h

theorem canonical_copyKey (l : Launch) (m : Move) (va : Word) (write : Bool) : Memory.wf (copyKey s l m va write).2.mem = true := by
  have seen := canonical_check h m.core (some l.guest) va { size := 4, write := write, sys := m.sys, eng := true }
  unfold copyKey
  dsimp only
  split
  · next e => exact canonical_snd e seen
  · next e => exact canonical_snd e seen
  · next e =>
    split
    · exact canonical_snd e seen
    · exact canonical_snd e seen

theorem canonical_copyWord (l : Launch) (m : Move) (now : Bool) (src dst : Word) :
    Memory.wf (copyWord l m now s src dst).2.mem = true := by
  unfold copyWord
  split
  · next e => exact canonical_snd e (canonical_copyKey h ..)
  · next e =>
    have source := canonical_snd e (canonical_copyKey h ..)
    split
    · next e => exact canonical_snd e (canonical_copyKey source ..)
    · next e =>
      have target := canonical_snd e (canonical_copyKey source ..)
      repeat' split
      all_goals simp [target, Memory.wf_wrN]

theorem canonical_copyWords (l : Launch) (m : Move) (now : Bool) (old : Word) (os : List Nat) (n : Nat) :
    Memory.wf (copyWords l m now old os n s).1.mem = true := by
  induction os generalizing s n with
  | nil => exact h
  | cons o os ih =>
    unfold copyWords
    split
    · next e => exact canonical_snd e (canonical_copyWord h ..)
    · next e => exact ih (canonical_snd e (canonical_copyWord h ..)) _

theorem canonical_runCopy (l : Launch) (m : Move) : Memory.wf (runCopy s l m).1.mem = true := by
  unfold runCopy
  split
  · next e => exact canonical_snd e (canonical_copyKey h ..)
  · next e =>
    have dir := canonical_snd e (canonical_copyKey h ..)
    dsimp only
    split
    · next e => exact canonical_snd e (canonical_copyKey dir ..)
    · next e =>
      have pool := canonical_snd e (canonical_copyKey dir ..)
      split
      · next e => exact canonical_fst e (canonical_copyWords pool ..)
      · next e => exact canonical_copyWords (canonical_fst e (canonical_copyWords pool ..)) ..

end Copies
end Sys2Proof.Machine

/-! O46, the engines and the matrix unit: what they read, run and deliver keeps device memory in its canonical form. -/

namespace Sys2Proof.Machine
open State

section Accesses
variable {s : State} (h : Memory.wf s.mem = true)
include h

theorem canonical_writeLoc (op : AsyncOp) (rule : WRule) (a : Loc) (x n : Nat) :
    Memory.wf (writeLoc s op rule a x n).2.mem = true := by
  cases a with
  | glob va =>
    have seen := canonical_check h op.core (opTag s op) va { size := 4, write := true, sys := op.sys, eng := true }
    simp only [writeLoc]
    split
    · next e => exact canonical_snd e seen
    · next e => exact canonical_snd e seen
    · next e => split <;> exact canonical_snd e seen
  | loc a =>
    simp only [writeLoc]
    split <;> exact h
  | weight off =>
    simp only [writeLoc]
    split <;> exact h

theorem canonical_engineRead (op : AsyncOp) (kind : Kind) (direct : Bool) (va : Word) (n : Nat) :
    Memory.wf (engineRead s op kind direct va n).2.mem = true := by
  have seen := canonical_check h op.core (opTag s op) va { size := 4, sys := op.sys, eng := true }
  unfold engineRead
  split
  · next e => exact canonical_snd e seen
  · next e => exact canonical_snd e seen
  · next e =>
    have found := canonical_snd e seen
    dsimp only
    repeat' split
    all_goals simp [found]

theorem canonical_readLoc (op : AsyncOp) (kind : Kind) (direct : Bool) (a : Loc) (n : Nat) :
    Memory.wf (readLoc s op kind direct a n).2.mem = true := by
  cases a with
  | glob va => exact canonical_engineRead h ..
  | loc a =>
    simp only [readLoc]
    repeat' split
    all_goals exact h
  | weight off =>
    simp only [readLoc]
    repeat' split
    all_goals exact h

theorem canonical_runWords (op : AsyncOp) (rule : WRule) (kind : Kind) (direct : Bool) (ms : List WordMove) (acc : List Write) :
    Memory.wf (runWords op rule kind direct ms acc s).2.mem = true := by
  induction ms generalizing s acc with
  | nil => exact h
  | cons m ms ih =>
    unfold runWords
    split
    · next e => exact canonical_snd e (canonical_readLoc h ..)
    · next e =>
      have taken := canonical_snd e (canonical_readLoc h ..)
      split
      · next e => exact canonical_snd e (canonical_writeLoc taken ..)
      · next e => exact ih (canonical_snd e (canonical_writeLoc taken ..)) _

theorem canonical_readWords (op : AsyncOp) (kind : Kind) (n : Nat) (va : Word) :
    Memory.wf (readWords s op kind n va).2.mem = true := by
  induction n generalizing s va with
  | zero => exact h
  | succ n ih =>
    unfold readWords
    split
    · next e => exact canonical_snd e (canonical_engineRead h ..)
    · next e =>
      have rest := ih (canonical_snd e (canonical_engineRead h ..)) (va + 4)
      split <;> next e => exact canonical_snd e rest

end Accesses

theorem canonical_runRows (op : AsyncOp) (rule : WRule) (kind : Kind) (direct : Bool) (rows : List (List WordMove)) (r : Ran)
    (h : Memory.wf r.s.mem = true) : Memory.wf (runRows op rule kind direct rows r).s.mem = true := by
  induction rows generalizing r with
  | nil => exact h
  | cons row rows ih =>
    have words := canonical_runWords h op rule kind direct row []
    unfold runRows
    split
    · next e => exact canonical_snd e words
    · next e => exact ih _ (canonical_snd e words)

section Deliveries
variable {s : State} (h : Memory.wf s.mem = true)
include h

theorem canonical_readMulti (oid : Nat) (op : AsyncOp) (dir : Dir) (kind : Kind) {t : State}
    (e : readMulti s oid op dir kind = some t) : Memory.wf t.mem = true := by
  unfold readMulti at e
  dsimp only at e
  split at e
  · cases e
  · cases e
    simpa using h
  · cases e
    exact canonical_runRows _ _ _ _ _ _ h

@[simp] theorem canonical_applyNow (ws : List Write) : Memory.wf (applyNow s ws).mem = true :=
  canonical_foldl (fun _ _ h => Memory.wf_unitPut _ _ h) _ _ h

@[simp] theorem canonical_deliver (op : AsyncOp) (ws : List Write) : Memory.wf (deliver s op ws).mem = true := by
  unfold deliver
  split <;> simp [h]

@[simp] theorem canonical_sendGlobal (g : Group) (ws : List Write) : Memory.wf (sendGlobal s g ws).mem = true := by
  unfold sendGlobal
  split <;> simp [h]

end Deliveries

theorem canonical_endRows (r : Ran) (oid : Nat) (op : AsyncOp) (glob : Bool) (words : Nat) (h : Memory.wf r.s.mem = true) :
    Memory.wf (endRows r oid op glob words).mem = true := by
  unfold endRows
  dsimp only
  repeat' split
  all_goals simp [h]

section Operations
variable {s : State} (h : Memory.wf s.mem = true)
include h

@[simp] theorem canonical_finishBtst (oid : Nat) (op : AsyncOp) (rule : WRule) : Memory.wf (finishBtst s oid op rule).mem = true := by
  have words := canonical_readWords h op .now 8 (BitVec.ofNat 64 (tshapeOf op.pb).view)
  unfold finishBtst
  dsimp only
  split
  · exact h
  · simpa using h
  · next e => simpa using canonical_snd e words
  · next e =>
    have held := canonical_snd e words
    repeat' split
    all_goals simp [held]

@[simp] theorem canonical_finishCpyw (oid : Nat) (op : AsyncOp) (glob : Bool) : Memory.wf (finishCpyw s oid op glob).mem = true := by
  unfold finishCpyw
  split
  · exact h
  · dsimp only
    split
    · exact h
    · simpa using h
    · exact canonical_endRows _ _ _ _ _ (Memory.wf_foldl _ (fun _ _ h => Memory.wf_wrN _ _ _ h) _ _ (canonical_runRows _ _ _ _ _ _ h))

@[simp] theorem canonical_finishRows (oid : Nat) (op : AsyncOp) (rule : WRule) (kind : Kind) (glob : Bool) (rows : List (List WordMove)) :
    Memory.wf (finishRows s oid op rule kind glob rows).mem = true := by
  unfold finishRows
  dsimp only
  split
  · exact h
  · simpa using h
  · exact canonical_endRows _ _ _ _ _ (canonical_runRows _ _ _ _ _ _ h)

@[simp] theorem canonical_runOp (oid : Nat) (op : AsyncOp) : Memory.wf (runOp s oid op).mem = true := by
  unfold runOp
  repeat' split
  all_goals simp [h]

end Operations
end Sys2Proof.Machine

/-! O46, the matrix unit: its fetches and its steps keep device memory in its canonical form. -/

namespace Sys2Proof.Machine
open State

/-- A fetch that keeps the canonical form of device memory. -/
structure Fetch.Keeps {α : Type} (f : Fetch α) : Prop where
  mem : ∀ s op, Memory.wf s.mem = true → Memory.wf (f s op).2.1.mem = true

theorem Fetch.Keeps.state {α : Type} {f : Fetch α} (keeps : f.Keeps) {s t : State} {op op1 : AsyncOp} {x : Except MHalt α}
    (h : Memory.wf s.mem = true) (e : f s op = (x, t, op1)) : Memory.wf t.mem = true := canonical_mid e (keeps.mem s op h)

theorem keeps_fetchEach {α β : Type} {f : α → Fetch β} (keeps : ∀ a, (f a).Keeps) (l : List α) : (fetchEach f l).Keeps := by
  induction l with
  | nil => exact ⟨fun _ _ h => h⟩
  | cons a l ih =>
    refine ⟨fun s op h => ?_⟩
    unfold fetchEach
    split
    · next e => exact (keeps a).state h e
    · next e =>
      have first := (keeps a).state h e
      split <;> next e => exact ih.state first e

theorem keeps_fetchLine (kind : Kind) (pairs : Bool) (va : Word) : (fetchLine kind pairs va).Keeps := by
  refine ⟨fun s op h => ?_⟩
  have seen := canonical_check h op.core (opTag s op) va { size := 1, sys := op.sys }
  unfold fetchLine
  split
  · next e => exact canonical_snd e seen
  · next e => exact canonical_snd e seen
  · next e =>
    have found := canonical_snd e seen
    dsimp only
    repeat' split
    all_goals simp [found]

theorem keeps_fetchByte (kind : Kind) (pairs : Bool) (a : Loc) : (fetchByte kind pairs a).Keeps := by
  refine ⟨fun s op h => ?_⟩
  cases a with
  | loc a =>
    simp only [fetchByte]
    split <;> exact h
  | glob va =>
    simp only [fetchByte]
    split
    · exact h
    · exact (keeps_fetchLine ..).mem _ _ h
  | weight off =>
    simp only [fetchByte]
    repeat' split
    all_goals exact h

theorem keeps_fetchBytes (kind : Kind) (pairs : Bool) (a : Loc) (n : Nat) : (fetchBytes kind pairs a n).Keeps := by
  refine ⟨fun s op h => ?_⟩
  have each := keeps_fetchEach (fun i => keeps_fetchByte kind pairs (a.plus i)) (List.range n)
  unfold fetchBytes
  split <;> next e => exact each.state h e

theorem keeps_fetchScale (f : FBlock) (a len n k row : Nat) : (fetchScale f a len n k row).Keeps := by
  refine ⟨fun s op h => ?_⟩
  unfold fetchScale
  split
  · exact h
  · split <;> next e => exact (keeps_fetchBytes ..).state h e

theorem keeps_fetchViewRow (kind : Kind) (v : View) (i : Nat) : (fetchViewRow kind v i).Keeps := by
  refine ⟨fun s op h => ?_⟩
  unfold fetchViewRow
  dsimp only
  split
  · next e => exact (keeps_fetchBytes ..).state h e
  · next e =>
    have entry := (keeps_fetchBytes ..).state h e
    split
    · exact entry
    · split <;> next e => exact (keeps_fetchBytes ..).state entry e

theorem keeps_fetchDesc (kind : Kind) (a : Loc) (addr : Word) (ok : List Byte → Bool) : (fetchDesc kind a addr ok).Keeps := by
  refine ⟨fun s op h => ?_⟩
  unfold fetchDesc
  split
  · next e => exact (keeps_fetchBytes ..).state h e
  · next e => split <;> exact (keeps_fetchBytes ..).state h e

theorem keeps_fetchRow (kind : Kind) (x : Word) (code n i k : Nat) : (fetchRow kind x code n i k).Keeps := by
  refine ⟨fun s op h => ?_⟩
  unfold fetchRow
  dsimp only
  split
  · exact h
  · split
    · split
      · next e => exact (keeps_fetchDesc ..).state h e
      · next e =>
        have desc := (keeps_fetchDesc ..).state h e
        split
        · exact desc
        · exact (keeps_fetchViewRow ..).mem _ _ desc
    · split
      · next e => exact (keeps_fetchDesc ..).state h e
      · next e => split <;> exact (keeps_fetchDesc ..).state h e

theorem keeps_fetchElem (kind : Kind) (x : Word) (code n k i : Nat) : (fetchElem kind x code n k i).Keeps := by
  refine ⟨fun s op h => ?_⟩
  unfold fetchElem
  dsimp only
  split
  · next e => exact (keeps_fetchRow ..).state h e
  · next e => exact (keeps_fetchRow ..).state h e
  · next e =>
    have row := (keeps_fetchRow ..).state h e
    split <;> next e => exact (keeps_fetchBytes ..).state row e

theorem noteOpnd_state {α : Type} (n : Nat) (r : Except MHalt α × State × AsyncOp) : (noteOpnd n r).2.1 = r.2.1 := by
  unfold noteOpnd
  split <;> rfl

/-- A state that the fetch of one operand answers. -/
theorem canonical_noteOpnd {α : Type} {f : Fetch α} (keeps : f.Keeps) {n : Nat} {s t : State} {op op1 : AsyncOp} {x : Except Faulty α}
    (h : Memory.wf s.mem = true) (e : noteOpnd n (f s op) = (x, t, op1)) : Memory.wf t.mem = true :=
  canonical_mid e (noteOpnd_state n _ ▸ keeps.mem s op h)

section Steps
variable {s : State} (h : Memory.wf s.mem = true)
include h

theorem canonical_fetchSlice (kind : Kind) (f : FBlock) (n k : Nat) (p : Part4) (op : AsyncOp) :
    Memory.wf (fetchSlice kind f n k p s op).2.1.mem = true := by
  have elems (x : Word) (code : Nat) (l : List Nat) := keeps_fetchEach (fun i => keeps_fetchElem kind x code n k i) l
  have scales (a len row : Nat) (l : List Nat) := keeps_fetchEach (fun i => keeps_fetchScale f a len n k (row + i)) l
  have bScales := keeps_fetchEach (fun i => keeps_fetchScale f f.sb f.lb n k i) (List.range 32)
  unfold fetchSlice
  dsimp only
  split
  · next e => exact canonical_noteOpnd (elems ..) h e
  · next e =>
    have first := canonical_noteOpnd (elems ..) h e
    split
    · next e => exact canonical_noteOpnd (elems ..) first e
    · next e =>
      have second := canonical_noteOpnd (elems ..) first e
      split
      · next e => exact canonical_noteOpnd (scales ..) second e
      · next e =>
        have third := canonical_noteOpnd (scales ..) second e
        split <;> next e => exact canonical_noteOpnd bScales third e

theorem canonical_fetchSlices (kind : Kind) (f : FBlock) (n k : Nat) (ps : List Part4) (op : AsyncOp) :
    Memory.wf (fetchSlices kind f n k ps s op).2.1.mem = true := by
  induction ps generalizing s op with
  | nil => exact h
  | cons p ps ih =>
    unfold fetchSlices
    split
    · next e => exact canonical_mid e (canonical_fetchSlice h ..)
    · next op1 _ e =>
      have rest := ih (canonical_mid e (canonical_fetchSlice h ..))
      split <;> next e => exact canonical_mid e (rest _)

omit h in
theorem applyKstep_mem (s : State) (oid : Nat) (op : AsyncOp) (g : Group) (tile : Nat) (xs : List (Part4 × Slice)) :
    (applyKstep s oid op g tile xs).2.mem = s.mem := by
  simp only [applyKstep]
  repeat' split
  all_goals simp

@[simp] theorem canonical_multiplyStep (oid : Nat) (op : AsyncOp) (g : Group) (kind : Kind) (tile : Nat) :
    Memory.wf (multiplyStep s oid op g kind tile).mem = true := by
  have fetched := canonical_fetchSlices h kind (fblockOf op.pb) (kOf op) op.prog (partsOf op) op
  unfold multiplyStep
  dsimp only
  split
  · simp [h]
  · simp [h]
  · split
    · simp [h]
    · split
      · exact h
      · next e => simpa using canonical_mid e fetched
      · next e =>
        have stepped := canonical_mid e fetched
        split
        · next e => exact canonical_snd e (canonical_of_mem (applyKstep_mem ..) stepped)
        · split <;> simpa using stepped

@[simp] theorem canonical_frontStep (oid : Nat) (op : AsyncOp) (g : Group) : Memory.wf (frontStep s oid op g).mem = true := by
  unfold frontStep
  split <;> simp [h]

end Steps
end Sys2Proof.Machine

/-! O46, commits: what a commit applies keeps device memory in its canonical form. -/

namespace Sys2Proof.Machine
open State

section Puts
variable {s : State} (h : Memory.wf s.mem = true)
include h

@[simp] theorem canonical_putLU (lid j key : Nat) (bs : List Byte) : Memory.wf (putLU s lid j key bs).mem = true := by
  rw [putLU_mem]
  exact Memory.wf_wrL _ _ h

@[simp] theorem canonical_putU (lid j key n x : Nat) : Memory.wf (putU s lid j key n x).mem = true := canonical_putLU h ..

@[simp] theorem canonical_panelWalk (l : Launch) (va : Word) (n : Nat) : Memory.wf (panelWalk s l va n).mem = true := by
  unfold panelWalk
  split <;> simp [h]

theorem canonical_logAppend (lid j : Nat) (l : Launch) (r : LogRec) : Memory.wf (logAppend s lid j l r).2.mem = true := by
  have head := canonical_panelWalk h l l.header.log 16
  unfold logAppend
  dsimp only
  split
  · exact h
  · split
    · exact head
    · split
      · have slot := canonical_panelWalk head l
        split
        · exact slot _ _
        · exact canonical_putLU (canonical_putU (slot _ _) ..) ..
      · exact canonical_putU head ..

@[simp] theorem canonical_reportCollision (lid j : Nat) (r : LogRec) : Memory.wf (reportCollision s lid j r).mem = true := by
  unfold reportCollision
  split
  · exact h
  · have logged := canonical_logAppend h lid j
    dsimp only
    split <;> simp [sendCollision_mem, logged]

theorem canonical_localCollision (lid : Option Nat) (r : LogRec) : Memory.wf (localCollision lid s r).mem = true := by
  unfold localCollision
  repeat' split
  all_goals simp [sendCollision_mem, h]

@[simp] theorem canonical_applyUnit (lid j : Nat) (u : Nat × Bool) (ws : List Write) (order : Nat) :
    Memory.wf (applyUnit s lid j u ws order).mem = true := by
  unfold applyUnit
  dsimp only
  split <;> simp [h]

@[simp] theorem canonical_applyWord (lid j : Nat) (l : Launch) (word order : Nat) :
    Memory.wf (applyWord s lid j l word order).mem = true := by
  unfold applyWord
  dsimp only
  split <;> simp [h]

end Puts

theorem canonical_applyRowUnit (lid j order : Nat) (r : Rows) (u : Nat × Bool) (h : Memory.wf r.s.mem = true) :
    Memory.wf (applyRowUnit lid j order r u).s.mem = true := by
  unfold applyRowUnit
  dsimp only
  split
  · exact h
  · split
    · split <;> simp [h]
    · simp [h]

section Rows
variable {s : State} (h : Memory.wf s.mem = true)
include h

theorem canonical_copyOnWrite (lid j : Nat) (l : Launch) (te tk : Nat) (dirVa : Word) (d : DirEntry) :
    Memory.wf (copyOnWrite lid j l te tk dirVa d s).2.mem = true := by
  have pool := canonical_panelWalk h l
  have top (va n) := canonical_panelWalk (pool va n) l
  have fresh (va n va1 n1) := canonical_panelWalk (top va n va1 n1) l
  have rows (va n va1 n1 va2 n2 va3 n3) := canonical_panelWalk (canonical_panelWalk (fresh va n va1 n1 va2 n2) l va3 n3) l
  unfold copyOnWrite
  dsimp only
  split
  · exact pool _ _
  · split
    · exact pool _ _
    · split
      · exact top _ _ _ _
      · split
        · exact fresh _ _ _ _ _ _
        · split
          · exact rows _ _ _ _ _ _ _ _ _ _
          · exact rows _ _ _ _ _ _ _ _ _ _
          · iterate 4 apply canonical_putU
            dsimp only
            refine canonical_foldl (fun _ _ h => canonical_putU h ..) _ _ (canonical_putU ?_ ..)
            rw [rebuilds_mem]
            exact rows _ _ _ _ _ _ _ _ _ _

end Rows

theorem canonical_tellGroups (gs : List Nat) (cause j : Nat) (addr : Word) (rows : Nat) (info : Word) {s : State}
    (h : Memory.wf s.mem = true) : Memory.wf (gs.foldl (fun s g => tellGroup s g cause j addr rows info) s).mem = true :=
  canonical_foldl (fun _ _ h => by simpa using h) _ _ h

theorem canonical_applyEntry (lid j order : Nat) (r : Rows) (bs : List Btst) (h : Memory.wf r.s.mem = true) :
    Memory.wf (applyEntry lid j order r bs).s.mem = true := by
  unfold applyEntry
  split
  · next b l _ _ =>
    have entry := canonical_panelWalk h l b.entry 16
    dsimp only
    split
    · exact canonical_tellGroups _ _ _ _ _ _ entry
    · split
      · exact canonical_tellGroups _ _ _ _ _ _ entry
      · have dir (va n) := canonical_panelWalk entry l va n
        split
        · exact canonical_tellGroups _ _ _ _ _ _ (dir _ _)
        · have read (va n keys) : Memory.wf ((panelWalk (panelWalk r.s l b.entry 16) l va n).rebuilds keys).mem = true := by
            simp [dir]
          have copied (va n keys) (c : Prop) [Decidable c] (te tk dirVa d x) :
              Memory.wf (if c then copyOnWrite lid j l te tk dirVa d ((panelWalk (panelWalk r.s l b.entry 16) l va n).rebuilds keys)
                else (.ok x, (panelWalk (panelWalk r.s l b.entry 16) l va n).rebuilds keys)).2.mem = true := by
            split
            · exact canonical_copyOnWrite (read va n keys) ..
            · exact read va n keys
          split
          · next e => exact canonical_tellGroups _ _ _ _ _ _ (canonical_snd e (copied ..))
          · next e =>
            have ready := canonical_snd e (copied ..)
            have walks (base : Word) := canonical_foldl
              (fun _ (b : Btst) h => canonical_panelWalk h l (base + BitVec.ofNat 64 (b.row * b.data.length)) b.data.length) bs _ ready
            split
            · exact canonical_tellGroups _ _ _ _ _ _ (walks _)
            · have written (ws : List Write) (us : List (Nat × Bool)) (base : Word) := canonical_foldl_at Rows.s
                (fun r u h => canonical_applyRowUnit lid j order r u h) us ⟨_, r.ws ++ ws, r.olds⟩ (walks base)
              split <;> simp [written]
  · exact h

section Rest
variable {s : State} (h : Memory.wf s.mem = true)
include h

@[simp] theorem canonical_applyBtst (lid j : Nat) (l : Launch) (order : Nat) : Memory.wf (applyBtst s lid j l order).mem = true := by
  have rows (es : List (List Btst)) : Memory.wf (es.foldl (applyEntry lid j order) ⟨s, [], []⟩).s.mem = true :=
    canonical_foldl_at Rows.s (fun r bs h => canonical_applyEntry lid j order r bs h) es _ h
  simp [applyBtst, rows]

@[simp] theorem canonical_moveWord (lid j : Nat) (m : Move) (key : Nat) (va : Word) (x : Nat) :
    Memory.wf (moveWord s lid j m key va x).mem = true := by
  unfold moveWord
  split
  · exact h
  · dsimp only
    split <;> simp [h]

theorem canonical_startMove (lid j : Nat) (m : Move) : Memory.wf (startMove lid j s m).mem = true := by
  unfold startMove
  split
  · exact h
  · next l _ =>
    have walks := canonical_panelWalk h l m.dir 16
    dsimp only
    split
    · simp [walks]
    · have marked (t : State) (same : t.mem = (panelWalk s l m.dir 16).mem) (key x : Nat) : Memory.wf (putU t lid j key 1 x).mem = true :=
        canonical_putU (canonical_of_mem same walks) ..
      refine canonical_ite (canonical_ite ?_ ?_) ?_
      · rw [dropMove_mem]
        exact marked _ (by simp) _ _
      · rw [putMove_mem]
        exact marked _ (by simp) _ _
      · simp [walks]

theorem canonical_endMove (lid j : Nat) (m : Move) : Memory.wf (endMove lid j s m).mem = true := by
  unfold endMove
  split
  · exact h
  · have walks := canonical_panelWalk h
    dsimp only
    split
    · simp [walks]
    · refine canonical_ite ?_ ?_
      · rw [dropMove_mem]
        iterate 3 apply canonical_moveWord
        exact walks ..
      · rw [dropMove_mem]
        apply canonical_moveWord
        exact walks ..

@[simp] theorem canonical_applyMoves (lid j : Nat) (l : Launch) : Memory.wf (applyMoves s lid j l).mem = true :=
  canonical_foldl (fun _ m h => canonical_startMove h lid j m) _ _ (canonical_foldl (fun _ m h => canonical_endMove h lid j m) _ _ h)

@[simp] theorem canonical_applyLogs (lid j : Nat) (l : Launch) : Memory.wf (applyLogs s lid j l).mem = true :=
  canonical_foldl (fun _ d h => canonical_reportCollision h lid j d.2) _ _ h

@[simp] theorem canonical_applyRest (lid j : Nat) (l : Launch) (order : Nat) : Memory.wf (applyRest s lid j l order).mem = true := by
  unfold applyRest
  split
  · exact h
  · exact canonical_applyHost (canonical_applyLogs (canonical_applyMoves (canonical_applyBtst h ..) ..) ..) ..

end Rest
end Sys2Proof.Machine

/-! O46, the instructions: what an instruction's meaning answers, and the issue around it, keep device memory in its canonical
form. -/

namespace Sys2Proof.Machine
open State

/-- Every state that an outcome answers has device memory in its canonical form. -/
structure Canonical (o : Out) : Prop where
  next : ∀ t, o = .next t → Memory.wf t.mem = true

/-- Every state that a meaning answers has device memory in its canonical form. -/
def Res.Canonical : Res → Prop
  | .ok s _ _ => Memory.wf s.mem = true
  | .trap s _ => Memory.wf s.mem = true
  | .wait => True

@[simp] theorem canonical_next_iff (s : State) : Canonical (.next s) ↔ Memory.wf s.mem = true :=
  ⟨fun c => c.next s rfl, fun h => ⟨fun t e => by cases e; exact h⟩⟩

@[simp] theorem canonical_fault (f : Fault) : Canonical (.fault f) := ⟨fun _ e => by cases e⟩

theorem canonical_out_ite {c : Prop} [Decidable c] {o p : Out} (h : Canonical o) (h1 : Canonical p) : Canonical (if c then o else p) := by
  split
  · exact h
  · exact h1

@[simp] theorem Res.canonical_ok (s : State) (n : Next) (k : Nat) : (Res.ok s n k).Canonical ↔ Memory.wf s.mem = true := Iff.rfl

@[simp] theorem Res.canonical_trap (s : State) (t : TrapInfo) : (Res.trap s t).Canonical ↔ Memory.wf s.mem = true := Iff.rfl

@[simp] theorem Res.canonical_wait : Res.wait.Canonical := trivial

theorem canonical_issue {i : Instr} {c : Ctl} {always : Bool} {body : Ctx → Res} {s : State} (h : Memory.wf s.mem = true)
    (keeps : ∀ x : Ctx, Memory.wf x.s.mem = true → (body x).Canonical) : Canonical (issue i c always body s) := by
  unfold issue
  split
  · simp
  · split
    · simp
    · next gid _ _ g _ =>
      split
      · simp
      · dsimp only
        split
        · simp [h]
        · split
          · simp [h]
          · split
            · simp [h]
            · have kept := keeps ⟨s.tickSeq, gid, g, g.runNow, c, g.active c⟩ h
              split
              · next e => simpa [e] using kept
              · next e => simpa using canonical_syncTrap (s := _) (by simpa [e] using kept) ..
              · simp [h]

section Meanings
variable {x : Ctx} (h : Memory.wf x.s.mem = true)
include h

theorem canonical_done (g : Group) : (x.done g).Canonical := h

theorem canonical_fail (t : TrapInfo) : (x.fail t).Canonical := h

theorem canonical_branch (reg : Bool) (t : Word) : (x.branch reg t).Canonical := by
  unfold Ctx.branch
  split <;> exact h

theorem canonical_call (nv ns : BitVec 4) (reg : Bool) (t : Word) : (x.call nv ns reg t).Canonical := by
  unfold Ctx.call
  split
  · exact h
  · dsimp only
    split
    · exact h
    · simp [h]

theorem canonical_ret : x.ret.Canonical := by
  unfold Ctx.ret
  split <;> exact h

theorem canonical_spawn (fwd : Bool) (d : BitVec 4) (a : SReg) (b : VReg) : (x.spawn fwd d a b).Canonical := by
  unfold Ctx.spawn
  dsimp only
  split
  · exact h
  · split
    · exact h
    · split
      · exact h
      · split
        · exact h
        · split <;> simp [h]

omit h in
@[simp] theorem startOp_mem (x : Ctx) (kind : OpKind) (pb : List Byte) (args : List Word) (reads : List (Nat × Nat))
    (write : Option (Nat × Nat)) (entry : Bool) (late : Option (Nat × Nat)) :
    (x.startOp kind pb args reads write entry late).2.mem = x.s.mem := by
  unfold Ctx.startOp
  dsimp only
  repeat' split
  all_goals simp [State.take]

theorem canonical_enqueue (kind : OpKind) (pb : List Byte) (args : List Word) (reads : List (Nat × Nat))
    (write : Option (Nat × Nat)) (entry : Bool) (g : Group) (late : Option (Nat × Nat)) :
    (x.enqueue kind pb args reads write entry g late).Canonical := by
  unfold Ctx.enqueue
  split <;> simp [h]

theorem canonical_multiply (kind : OpKind) (tile fb k : Nat) (ps : List Part4) : (x.multiply kind tile fb k ps).Canonical := by
  unfold Ctx.multiply
  dsimp only
  split
  · exact h
  · split
    · exact h
    · split <;> exact canonical_enqueue h ..

theorem canonical_engine (d : SReg) (kind : OpKind) : (x.engine d kind).Canonical := by
  unfold Ctx.engine
  dsimp only
  split
  · exact h
  · split
    · simp [h]
    · split
      · exact h
      · simp [h]

theorem canonical_land (d a b : SSrc) : (x.land d a b).Canonical := by
  unfold Ctx.land
  dsimp only
  split
  · exact h
  · simp [h]

omit h in
@[simp] theorem walkHold_mem (x : Ctx) (vas : List Word) (s1 : State) : (x.walkHold vas s1).2.mem = s1.mem := by
  unfold Ctx.walkHold
  dsimp only
  split <;> rfl

theorem canonical_sequence (ph : Phase) (a : Word) (f : Nat → Die → Die) : (x.sequence ph a f).Canonical := by
  unfold Ctx.sequence
  dsimp only
  repeat' split
  all_goals exact h

theorem canonical_loadWeight (sz : Size) (d : VReg) (m : VMem) : (x.loadWeight sz d m).Canonical := by
  unfold Ctx.loadWeight
  dsimp only
  split
  · exact h
  · split <;> simp [h]

theorem canonical_sstoreLocal (sz : Size) (rule : WRule) (d : SReg) (m : SMem) : (x.sstoreLocal sz rule d m).Canonical := by
  unfold Ctx.sstoreLocal
  dsimp only
  split
  · exact h
  · simp [h]

theorem canonical_sloadLocal (sz : Size) (d : SReg) (m : SMem) : (x.sloadLocal sz d m).Canonical := by
  unfold Ctx.sloadLocal
  dsimp only
  split
  · exact h
  · simp [h]

theorem canonical_storeLocal (sz : Size) (rule : WRule) (d : VReg) (m : VMem) : (x.storeLocal sz rule d m).Canonical := by
  unfold Ctx.storeLocal
  dsimp only
  split
  · exact h
  · simp [h]

theorem canonical_loadLocal (sz : Size) (d : VReg) (m : VMem) : (x.loadLocal sz d m).Canonical := by
  unfold Ctx.loadLocal
  dsimp only
  split
  · exact h
  · split <;> simp [h]

theorem canonical_checkScalar (a : Word) (n : Nat) (write : Bool) : Memory.wf (x.checkScalar a n write).2.mem = true := by
  have seen := canonical_check h (x.s.blockOf x.g).core (x.s.tagOf x.g) a (x.want n write false)
  unfold Ctx.checkScalar
  split
  · exact h
  · split
    · next e => exact canonical_snd e seen
    · next e => exact canonical_snd e seen
    · next e => split <;> exact canonical_snd e seen

theorem canonical_sstoreGlobal (sz : Size) (rule : WRule) (d : SReg) (m : SMem) : (x.sstoreGlobal sz rule d m).Canonical := by
  have seen := canonical_checkScalar h (x.saddr m) sz.bytes true
  unfold Ctx.sstoreGlobal
  dsimp only
  split <;> next e => simp [canonical_snd e seen]

theorem canonical_sloadGlobal (sz : Size) (kind : Kind) (res : BitVec 4) (d : SReg) (m : SMem) :
    (x.sloadGlobal sz kind res d m).Canonical := by
  have seen := canonical_checkScalar h (x.saddr m) sz.bytes false
  unfold Ctx.sloadGlobal
  dsimp only
  split <;> next e => simp [canonical_snd e seen]

theorem canonical_checkLanes (addr : Nat → Word) (n : Nat) (write acc : Bool) :
    Memory.wf (x.checkLanes addr n write acc).s.mem = true := by
  refine canonical_foldl_at Lanes.s (fun r l h => ?_) _ _ h
  have seen := canonical_check h (x.s.blockOf x.g).core (r.s.tagOf x.g) (addr l) (x.want n write acc)
  split
  · next e => exact canonical_snd e seen
  · next e => exact canonical_snd e seen
  · next e => split <;> exact canonical_snd e seen

theorem canonical_storeGlobal (sz : Size) (rule : WRule) (d : VReg) (m : VMem) : (x.storeGlobal sz rule d m).Canonical := by
  unfold Ctx.storeGlobal
  dsimp only
  split
  · exact h
  · split <;> simp [canonical_checkLanes h]

theorem canonical_loadGlobal (sz : Size) (kind : Kind) (res : BitVec 4) (d : VReg) (m : VMem) :
    (x.loadGlobal sz kind res d m).Canonical := by
  unfold Ctx.loadGlobal
  dsimp only
  split
  · exact h
  · repeat' split
    all_goals simp [canonical_checkLanes h]

theorem canonical_prefetch (m : VMem) : Memory.wf (x.prefetch m).2.mem = true := by
  refine canonical_foldl_at Prod.snd (fun acc l h => ?_) _ _ h
  have seen := canonical_check h (x.s.blockOf x.g).core (acc.2.tagOf x.g) (x.vaddr true m l) (x.want 1 false false)
  split
  · next e => split <;> exact canonical_snd e seen
  · next e => exact canonical_snd e seen

theorem canonical_requests (m : VMem) : Memory.wf (x.requests m).2.2.mem = true := by
  refine canonical_foldl_at (fun acc : List Nat × List BadLane × State => acc.2.2) (fun acc l h => ?_) _ _ h
  have found := canonical_translate h (x.s.blockOf x.g).core (acc.2.2.tagOf x.g) (pageOf (x.vaddr true m l))
  dsimp only
  split
  · exact h
  · split
    · exact h
    · split
      · next e => split <;> simp [canonical_snd e found]
      · next e => split <;> simp [canonical_snd e found]

end Meanings
theorem canonical_float2 {x : Ctx} (h : Memory.wf x.s.mem = true) (d a : VReg) (f : FVal → Lane → Nat) :
    (x.float2 d a f).Canonical := canonical_done (x := { x with s := { x.s with free := x.s.free + 32 } }) h _

/-- An instruction with common fields: its meaning is one of those above, under an issue. -/
theorem canonical_exec_of_ctl {i : Instr} {c : Ctl} (issued : ctlOf i = some c) {s : State} (h : Memory.wf s.mem = true) :
    Canonical (exec i s) := by
  cases i
  case nop | exit | sadd | ssub | smul | smulh | sdiv | srem | sand | sor | sxor | sshl | sshr | ssar | smin | smax | scmp | ssel | smovi
      | smovh | spopc | sclz | sffs | sbfx | sbfi | pand | por | pxor | pandn | pmov | vadd | vsub | vmul | vmulh | vmad | vmin | vmax
      | vabs | vand | vor | vxor | vshl | vshr | vsar | vsadd | vpopc | vclz | vbfx | vbfi | vsel | vcmp | vmov | vmovi | fadd | fsub
      | fmul | ffma | fmin | fmax | fdiv | fsqrt | frnd | fcmp | hadd | hmul | hfma | cvt | cvtp
      | qscl | qcvt | vperm | vbcast | rdsr | wrsr | rdcnt =>
    unfold exec
    refine canonical_issue h fun _ h => ?_
    exact canonical_done h _
  case vred | vscan =>
    unfold exec
    refine canonical_issue h fun _ h => ?_
    exact canonical_done (by split <;> exact h) _
  case dqcvt | qcmp =>
    unfold exec
    refine canonical_issue h fun _ h => ?_
    dsimp only
    split
    exacts [trivial, canonical_done h _]
  case frcp | frsq | fex2 | flg2 | fsin | fcos =>
    unfold exec
    refine canonical_issue h fun _ h => ?_
    exact canonical_float2 h ..
  case bra | brx =>
    unfold exec
    refine canonical_issue h fun _ h => ?_
    exact canonical_branch h ..
  case brz =>
    unfold exec
    refine canonical_issue h fun _ h => ?_
    split
    exacts [canonical_branch h .., canonical_done h _]
  case brnz =>
    unfold exec
    refine canonical_issue h fun _ h => ?_
    split
    exacts [canonical_done h _, canonical_branch h ..]
  case call | callx =>
    unfold exec
    refine canonical_issue h fun _ h => ?_
    exact canonical_call h ..
  case ret =>
    unfold exec
    refine canonical_issue h fun _ h => ?_
    exact canonical_ret h
  case pass =>
    unfold exec
    refine canonical_issue h fun _ h => ?_
    dsimp only
    repeat' split
    all_goals exact h
  case detach =>
    unfold exec
    refine canonical_issue h fun _ h => ?_
    exact h
  case brk | trap =>
    unfold exec
    refine canonical_issue h fun _ h => ?_
    exact canonical_fail h _
  case rett =>
    unfold exec
    refine canonical_issue h fun _ h => ?_
    split
    exacts [canonical_fail h _, h]
  case smov =>
    unfold exec
    refine canonical_issue h fun _ h => ?_
    dsimp only
    split <;> exact canonical_done h _
  case slea =>
    unfold exec
    refine canonical_issue h fun _ h => ?_
    dsimp only
    repeat' split
    all_goals exact h
  case ldl =>
    unfold exec
    refine canonical_issue h fun _ h => ?_
    exact canonical_loadLocal h ..
  case stl | stla =>
    unfold exec
    refine canonical_issue h fun _ h => ?_
    exact canonical_storeLocal h ..
  case sldl =>
    unfold exec
    refine canonical_issue h fun _ h => ?_
    exact canonical_sloadLocal h ..
  case sstl =>
    unfold exec
    refine canonical_issue h fun _ h => ?_
    exact canonical_sstoreLocal h ..
  case ldg =>
    unfold exec
    refine canonical_issue h fun _ h => ?_
    exact canonical_loadGlobal h ..
  case stg | stga =>
    unfold exec
    refine canonical_issue h fun _ h => ?_
    exact canonical_storeGlobal h ..
  case sldg =>
    unfold exec
    refine canonical_issue h fun _ h => ?_
    exact canonical_sloadGlobal h ..
  case sstg =>
    unfold exec
    refine canonical_issue h fun _ h => ?_
    exact canonical_sstoreGlobal h ..
  case ldw =>
    unfold exec
    refine canonical_issue h fun _ h => ?_
    exact canonical_loadWeight h ..
  case pfg =>
    unfold exec
    refine canonical_issue h fun _ h => ?_
    split
    · exact canonical_fail h _
    · refine canonical_foldl (fun _ _ h => by simpa using h) _ _ ?_
      rw [walkHold_mem, count_mem]
      exact canonical_prefetch h _
  case pgreq =>
    unfold exec
    refine canonical_issue h fun _ h => ?_
    have asked := canonical_requests h
    split
    · exact canonical_fail h _
    · dsimp only
      split
      · exact canonical_ite (asked _) (asked _)
      · rw [Res.canonical_ok, walkHold_mem]
        exact canonical_ite (asked _) (asked _)
  case cpy | cpym | gth | sct | btst | btdem | btpro =>
    unfold exec
    refine canonical_issue h fun _ h => ?_
    exact canonical_engine h ..
  case cpyw =>
    unfold exec
    refine canonical_issue h fun _ h => ?_
    split
    exacts [canonical_fail h _, canonical_engine h ..]
  case land =>
    unfold exec
    refine canonical_issue h fun _ h => ?_
    exact canonical_land h ..
  case mma | mmq =>
    unfold exec
    refine canonical_issue h fun _ h => ?_
    exact canonical_multiply h ..
  case mzero =>
    unfold exec
    refine canonical_issue h fun _ h => ?_
    split
    exacts [canonical_fail h _, canonical_enqueue h ..]
  case mlda | ctld =>
    unfold exec
    refine canonical_issue h fun _ h => ?_
    dsimp only
    repeat' split
    exacts [canonical_fail h _, canonical_fail h _, canonical_enqueue h ..]
  case mdrn =>
    unfold exec
    refine canonical_issue h fun _ h => ?_
    dsimp only
    repeat' split
    exacts [canonical_fail h _, canonical_fail h _, canonical_fail h _, canonical_enqueue h ..]
  case spawn =>
    unfold exec
    refine canonical_issue h fun _ h => ?_
    split
    exacts [canonical_done h _, canonical_spawn h ..]
  case lnch =>
    unfold exec
    refine canonical_issue h fun _ h => ?_
    exact h
  case mbxrd | mbxwr | qtopo | tlbinv =>
    unfold exec
    refine canonical_issue h fun _ h => ?_
    dsimp only
    split <;> simp [Ctx.fail, h]
  case ctxsv | ctxld =>
    unfold exec
    refine canonical_issue h fun _ h => ?_
    exact canonical_sequence h ..
  all_goals cases issued

end Sys2Proof.Machine

/-! O46, the events: every event keeps device memory in its canonical form; the instructions are in the part before. -/

namespace Sys2Proof.Machine
open State

theorem arrive_mem {s t : State} {k : Nat} {a : Arrival} (taken : arrive s k a = some t) : t.mem = s.mem := by
  unfold arrive at taken
  dsimp only at taken
  split at taken
  · cases taken
    simp
  · split at taken
    · cases taken
    · cases taken
      rfl

theorem restoreBlocks_mem {lid : Nat} {l : Launch} {v : Saved} {P : Part} {es : List (Nat × Block)} {s t : State}
    (restored : restoreBlocks lid l v P es s = some t) : t.mem = s.mem := by
  induction es generalizing s with
  | nil => cases restored; rfl
  | cons e es ih =>
    unfold restoreBlocks at restored
    dsimp only at restored
    split at restored
    · exact (ih restored).trans (restoreBlock_mem ..)
    · cases restored

@[simp] theorem countCore_mem (s : State) (k : Nat) : (countCore s k).mem = s.mem := by
  have tallies (ts : List (Option Tally)) :
      (ts.foldl (fun st t => match t with | some t => addTally k st t | none => st) s).mem = s.mem :=
    mem_foldl (fun _ t => by cases t <;> simp) _ _
  unfold countCore
  dsimp only
  split
  · exact (count_mem ..).trans (tallies _)
  · exact tallies _

section
variable {s : State} (h : Memory.wf s.mem = true)
include h

theorem canonical_terminates (ls : List Nat) (reason : Nat) : Memory.wf (ls.foldl (fun s l => s.terminate l reason) s).mem = true :=
  canonical_foldl (fun _ l h => canonical_terminate h l reason) _ _ h

theorem canonical_raiseWord (t : TrapInfo) : Canonical (raiseWord t s) := by
  unfold raiseWord
  split
  · simp
  · split <;> simp [h]

@[simp] theorem canonical_contain (p : Nat) (f : FailedPart) : Memory.wf (contain s p f).mem = true :=
  canonical_terminates (canonical_of_mem (by simp) h) ..

@[simp] theorem canonical_fence (k : Nat) : Memory.wf (fence s k).mem = true := canonical_terminates (canonical_of_mem (by simp) h) ..

theorem canonical_rejectWaiting (lid : Nat) : Memory.wf (rejectWaiting s lid).mem = true := by
  unfold rejectWaiting
  split
  · exact h
  · exact canonical_reject (canonical_of_mem (by simp) h) ..

@[simp] theorem canonical_applyLayout (part : Nat) (P : Part) : Memory.wf (applyLayout s part P).mem = true := by
  have waiting (ls : List Nat) := canonical_foldl (fun _ l h => canonical_rejectWaiting h l) ls _ h
  simp [applyLayout, waiting]

theorem canonical_ringTake (p : Nat) {bs : List Byte} {t : State} (taken : ringTake s p = some (bs, t)) : Memory.wf t.mem = true := by
  unfold ringTake at taken
  dsimp only at taken
  split at taken
  · cases taken
  · split at taken
    · cases taken
    · split at taken
      · cases taken
      · cases taken
        exact canonical_writeVa (canonical_walked (canonical_walked h ..) ..) ..

theorem canonical_tryServe (p : Nat) (w : MboxWait) {t : State} (served : tryServe s p w = some t) : Memory.wf t.mem = true := by
  unfold tryServe at served
  dsimp only at served
  split at served
  · cases served
  · split at served
    · cases served
      exact h
    · split at served
      · cases served
      · split at served
        · split at served
          · cases served
          · cases served
            exact h
        · obtain ⟨r, taken, rfl⟩ := Option.map_eq_some_iff.mp served
          exact canonical_ringTake h p (bs := r.1) (t := r.2) taken

@[simp] theorem canonical_skipRun (gid : Nat) (g : Group) (k slot : Nat) (ws : List IWord) :
    Memory.wf (skipRun s gid g k slot ws).mem = true := by
  simp only [skipRun]
  split
  · simp [h]
  · refine canonical_ite ?_ (by simp [h])
    split
    · simp [h]
    · split <;> simp [h]

@[simp] theorem canonical_unitWalks (P : Part) (q : Packet) : Memory.wf (unitWalks s P q).mem = true := by
  unfold unitWalks
  dsimp only
  split
  · exact h
  · split <;> simp [h]

@[simp] theorem canonical_unitPlace (p lid : Nat) (P : Part) (l : Launch) (q : Packet) :
    Memory.wf (unitPlace s p lid P l q).mem = true := by
  unfold unitPlace
  split
  · simp [h]
  · dsimp only
    split <;> simp [h]

@[simp] theorem canonical_recordPacket (p : Nat) (ident : BitVec 32) (byte : Nat) :
    Memory.wf (recordPacket s p ident byte).mem = true := by
  unfold recordPacket
  split <;> simp [h]

omit h in
@[simp] theorem addLaunch_mem (s : State) (l : Launch) : (addLaunch s l).2.mem = s.mem := rfl

@[simp] theorem canonical_postPacket (p : Nat) (P : Part) (bs : List Byte) : Memory.wf (postPacket s p P bs).mem = true := by
  unfold postPacket
  dsimp only
  split
  · simp [h]
  · split
    · simp [h]
    · have walks (g va1 n1 va2 n2) := canonical_walked (canonical_walked h P g va1 n1) P g va2 n2
      split
      · simp [walks]
      · split
        · simp [walks]
        · split <;> simp [walks]

end

section
variable {s : State} (h : Memory.wf s.mem = true)
include h

theorem canonical_execLinkRetraining (part : Nat) : Canonical (execLinkRetraining part s) := by
  unfold execLinkRetraining
  simp [h]

theorem canonical_execCorePowerGating (core : Nat) (gated : Bool) : Canonical (execCorePowerGating core gated s) := by
  unfold execCorePowerGating
  repeat' split
  all_goals simp [h]

theorem canonical_execUnassignedOpcode (_word : IWord) : Canonical (execUnassignedOpcode _word s) := by
  exact canonical_raiseWord h _

theorem canonical_execLaneCycleCount  : Canonical (execLaneCycleCount  s) := by
  unfold execLaneCycleCount
  simp [h]

theorem canonical_execMigrationComplete (block : Nat) : Canonical (execMigrationComplete block s) := by
  unfold execMigrationComplete
  repeat' split
  all_goals simp [h]

theorem canonical_execIdeStreamEstablished (part : Nat) (up : Bool) : Canonical (execIdeStreamEstablished part up s) := by
  unfold execIdeStreamEstablished
  simp [h]

theorem canonical_execWeightRefreshEnd (die bank : Nat) : Canonical (execWeightRefreshEnd die bank s) := by
  unfold execWeightRefreshEnd
  simp [h]

theorem canonical_execBringUp (disabled : List Nat) : Canonical (execBringUp disabled s) := by
  unfold execBringUp
  split
  · exact (canonical_next_iff _).mpr Memory.wf_nil
  · simp [h]

theorem canonical_execClockCapChange (die cap : Nat) : Canonical (execClockCapChange die cap s) := by
  unfold execClockCapChange
  repeat' split
  all_goals simp [h]

theorem canonical_execHorizonTreeFailure (part : Nat) (segment : BitVec 64) (id : BitVec 32) :
    Canonical (execHorizonTreeFailure part segment id s) := by
  unfold execHorizonTreeFailure
  simp [h]

theorem canonical_execDieFatalError (at_ : FatalAt) (cause : BitVec 64) (code : BitVec 32) :
    Canonical (execDieFatalError at_ cause code s) := by
  have hit (t : State) (same : t.mem = s.mem) (p : Nat) (f : FailedPart) (r : BBox) :
      Memory.wf (((t.partOfDie p).map (fun q => contain (t.bboxAdd p r) q f)).getD (t.bboxAdd p r)).mem = true := by
    cases t.partOfDie p <;> simp [same, h]
  unfold execDieFatalError
  dsimp only
  split
  · exact (canonical_next_iff _).mpr (hit _ rfl ..)
  · split
    · simp [h]
    · exact (canonical_next_iff _).mpr (canonical_ite (hit _ (by rfl) ..) h)

theorem canonical_execLinkIntegrityFailure (part : Nat) (link : BitVec 64) (flit : BitVec 32) :
    Canonical (execLinkIntegrityFailure part link flit s) := by
  unfold execLinkIntegrityFailure
  simp [h]

theorem canonical_execFecCorrection (link : BitVec 64) (flits : BitVec 32) : Canonical (execFecCorrection link flits s) := by
  unfold execFecCorrection
  simp [h]

theorem canonical_execPoisonMark (die : Nat) (store : BitVec 32) (at_ : PoisonAt) : Canonical (execPoisonMark die store at_ s) := by
  unfold execPoisonMark
  repeat' split
  all_goals simp [h]

theorem canonical_execBlockMigrate (block : Nat) : Canonical (execBlockMigrate block s) := by
  unfold execBlockMigrate
  repeat' split
  all_goals simp [h]

theorem canonical_execCoreRetire (core : Nat) : Canonical (execCoreRetire core s) := by
  simp only [execCoreRetire]
  repeat' split
  all_goals simp [h]

theorem canonical_execEccCorrected (die store core : Nat) (addr : BitVec 64) : Canonical (execEccCorrected die store core addr s) := by
  unfold execEccCorrected
  repeat' split
  all_goals simp [h]

theorem canonical_execWaystationAlarm (way : Nat) : Canonical (execWaystationAlarm way s) := by
  unfold execWaystationAlarm
  simp [h]

theorem canonical_execStrikeAlarm (core : Nat) : Canonical (execStrikeAlarm core s) := by
  unfold execStrikeAlarm
  simp [h]

theorem canonical_execRegisterWrite (part : Nat) (guest : Option (BitVec 3)) (off : Nat) (data : RegData) :
    Canonical (execRegisterWrite part guest off data s) := by
  unfold execRegisterWrite
  repeat' split
  all_goals simp [h]

theorem canonical_execCounterReadLow (part : Nat) (guest : BitVec 3) (n : Nat) : Canonical (execCounterReadLow part guest n s) := by
  unfold execCounterReadLow
  repeat' split
  all_goals simp [h]

theorem canonical_execDebugStop (part : Nat) (data : BitVec 64) : Canonical (execDebugStop part data s) := by
  simp only [execDebugStop]
  repeat' split
  all_goals simp [h]

theorem canonical_execAttestationReport (part : Nat) : Canonical (execAttestationReport part s) := by
  simp only [execAttestationReport]
  split
  · simp [h]
  · split
    · simp [h]
    · split
      · refine (canonical_next_iff _).mpr ?_
        rw [finishCommand_mem]
        exact canonical_writeVa (canonical_walked (canonical_walked h ..) ..) ..
      · simp [h]

theorem canonical_execReleaseDiscard (part : Nat) : Canonical (execReleaseDiscard part s) := by
  simp only [execReleaseDiscard]
  split
  · simp [h]
  · split
    · simp [h]
    · next f _ =>
      split
      · simp [h]
      · next o _ => cases moveOf (finishCommand (unfreeze s part f) part 0) o <;> simp [h]
      · repeat' split
        all_goals simp [h]

theorem canonical_execReleaseFault (part : Nat) : Canonical (execReleaseFault part s) := by
  unfold execReleaseFault
  repeat' split
  all_goals simp [h]

theorem canonical_execPartitionReset (part : Nat) : Canonical (execPartitionReset part s) := by
  unfold execPartitionReset
  split
  · simp [h]
  · exact (canonical_next_iff _).mpr (canonical_terminates h ..)

theorem canonical_execApplyStaged (part : Nat) : Canonical (execApplyStaged part s) := by
  unfold execApplyStaged
  repeat' split
  all_goals simp [h]

theorem canonical_execLayoutChangeForce (part : Nat) : Canonical (execLayoutChangeForce part s) := by
  simp only [execLayoutChangeForce]
  repeat' split
  all_goals simp [h]

theorem canonical_execLayoutChange (part : Nat) : Canonical (execLayoutChange part s) := by
  unfold execLayoutChange
  repeat' split
  all_goals simp [h]

theorem canonical_execTerminate (part : Nat) : Canonical (execTerminate part s) := by
  unfold execTerminate
  repeat' split
  all_goals simp [h]

theorem canonical_execRestore (part : Nat) : Canonical (execRestore part s) := by
  unfold execRestore
  repeat' split
  all_goals simp [h]

theorem canonical_execPreempt (part : Nat) : Canonical (execPreempt part s) := by
  unfold execPreempt
  repeat' split
  all_goals simp [h]

theorem canonical_execTimeSliceExpiry (launch : Nat) (image : BitVec 64) : Canonical (execTimeSliceExpiry launch image s) := by
  unfold execTimeSliceExpiry
  repeat' split
  all_goals simp [h]

theorem canonical_execRestoreResume (part : Nat) : Canonical (execRestoreResume part s) := by
  unfold execRestoreResume
  repeat' split
  all_goals simp [h]

theorem canonical_execRestoreDieReady (part die : Nat) : Canonical (execRestoreDieReady part die s) := by
  simp only [execRestoreDieReady]
  split
  · split
    · split
      · simp [h]
      · split
        · simp [h]
        · split
          · simp [h]
          · split
            · simp [h]
            · next restored => simp [restoreBlocks_mem restored, h]
    · simp [h]
  · simp [h]

theorem canonical_execSaveImageAssemble (part : Nat) : Canonical (execSaveImageAssemble part s) := by
  unfold execSaveImageAssemble
  split
  · simp [h]
  · split
    · simp [h]
    · refine canonical_out_ite ?_ ?_
      · simp [h]
      · refine (canonical_next_iff _).mpr (canonical_record ?_ ..)
        rw [endCommand_mem, advanceArea_mem]
        dsimp only
        rw [modLaunch_mem, modPart_mem]
        apply canonical_writeVa
        exact canonical_walked h ..

theorem canonical_execSaveSequence (part die : Nat) : Canonical (execSaveSequence part die s) := by
  have freed (t : State) (ks bs : List Nat) (f : Core → Core) :
      ((ks.foldl (fun s k => s.modCore k f) (bs.foldl (fun s b => s.dropBlock b) t))).mem = t.mem :=
    (mem_foldl (fun _ _ => by rfl) _ _).trans (mem_foldl (fun _ _ => by simp) _ _)
  simp only [execSaveSequence]
  repeat' split
  all_goals simp [freed, h]

theorem canonical_execHostRead (part : Nat) (src : HostSrc) (len : Nat) : Canonical (execHostRead part src len s) := by
  unfold execHostRead
  repeat' split
  all_goals simp [h]

theorem canonical_execHostWrite (part : Nat) (at_ : HostAt) (data : List Byte) : Canonical (execHostWrite part at_ data s) := by
  unfold execHostWrite
  repeat' split
  all_goals simp [h]

theorem canonical_execFerryArrival (part : Nat) (off : BitVec 48) (data : List Byte) : Canonical (execFerryArrival part off data s) := by
  unfold execFerryArrival
  repeat' split
  all_goals simp [h]

theorem canonical_execFerrySend (lid id : Nat) : Canonical (execFerrySend lid id s) := by
  unfold execFerrySend
  repeat' split
  all_goals simp [h]

theorem canonical_execTierCopyComplete (op : Nat) : Canonical (execTierCopyComplete op s) := by
  unfold execTierCopyComplete
  split
  · simp [h]
  · next l m _ =>
    split
    · simp [h]
    · have copied := canonical_runCopy h l m
      split <;> next e => simpa using canonical_fst e copied

theorem canonical_execTlbinvComplete (group : Nat) : Canonical (execTlbinvComplete group s) := by
  simp only [execTlbinvComplete]
  repeat' split
  all_goals simp [h]

theorem canonical_execTlbinvBegin (group : Nat) : Canonical (execTlbinvBegin group s) := by
  simp only [execTlbinvBegin]
  repeat' split
  all_goals simp [h]

theorem canonical_execPageWalk (core : Nat) (gctx : Option (BitVec 3)) (va : BitVec 64) : Canonical (execPageWalk core gctx va s) := by
  unfold execPageWalk
  split
  · exact (canonical_next_iff _).mpr (canonical_translate h ..)
  · simp [h]

theorem canonical_execMailboxDeliver (group : Nat) : Canonical (execMailboxDeliver group s) := by
  simp only [execMailboxDeliver]
  split
  · simp [h]
  · next g _ =>
    refine (canonical_next_iff _).mpr ?_
    cases e : firstSome (tryServe s (coreDie (s.blockOf g).core)) ((s.die (coreDie (s.blockOf g).core)).waits.filter (fun w => w.group == group)) with
    | none => exact h
    | some t =>
      obtain ⟨w, _, served⟩ := firstSome_found e
      exact canonical_tryServe h _ w served

theorem canonical_execLandingArrival (oid recv : Nat) : Canonical (execLandingArrival oid recv s) := by
  have read (c : Bool) (op : AsyncOp) (dir : Dir) (kind : Kind) {t : State}
      (e : (if c then readMulti s oid op dir kind else some s) = some t) : Memory.wf t.mem = true := by
    split at e
    · exact canonical_readMulti h oid op dir kind e
    · cases e
      exact h
  simp only [execLandingArrival]
  split
  · simp [h]
  · split
    · split
      · simp [h]
      · split
        · simp [h]
        · next e =>
          have kept := read _ _ _ _ e
          repeat' split
          · simp [kept]
          · simp [kept]
          · simp [kept]
          · next taken => simp [arrive_mem taken, kept]
    · simp [h]

theorem canonical_execMatrixKstep (core : Nat) : Canonical (execMatrixKstep core s) := by
  unfold execMatrixKstep
  repeat' split
  all_goals simp [h]

theorem canonical_execAsyncComplete (oid : Nat) : Canonical (execAsyncComplete oid s) := by
  unfold execAsyncComplete
  repeat' split
  all_goals simp [h]

theorem canonical_execGroupPlace (die : Nat) : Canonical (execGroupPlace die s) := by
  unfold execGroupPlace
  repeat' split
  all_goals simp [h]

theorem canonical_execSpawnItemArrival (launch id : Nat) : Canonical (execSpawnItemArrival launch id s) := by
  unfold execSpawnItemArrival
  simp [h]

theorem canonical_execStepOverrun (launch : Nat) : Canonical (execStepOverrun launch s) := by
  simp only [execStepOverrun]
  repeat' split
  all_goals simp [h]

theorem canonical_execLocalClose (block order : Nat) : Canonical (execLocalClose block order s) := by
  have told (t : State) (same : t.mem = s.mem) (lid : Option Nat) (rs : List LogRec) :=
    canonical_foldl (fun _ r h => canonical_localCollision h lid r) rs t (canonical_of_mem same h)
  simp only [execLocalClose]
  split
  · simp [h]
  · split
    · simp [h]
    · refine (canonical_next_iff _).mpr ?_
      rw [tryFree_mem]
      exact told _ (by simp) ..

theorem canonical_execCommitVisible (launch : Nat) (place : Place) : Canonical (execCommitVisible launch place s) := by
  simp only [execCommitVisible]
  repeat' split
  all_goals simp [h]

theorem canonical_execCommitApply (launch word order : Nat) : Canonical (execCommitApply launch word order s) := by
  unfold execCommitApply
  repeat' split
  all_goals simp [h]

theorem canonical_execCommitDeclare (launch : Nat) : Canonical (execCommitDeclare launch s) := by
  unfold execCommitDeclare
  repeat' split
  all_goals simp [h]

theorem canonical_execLoadFill (load : Nat) : Canonical (execLoadFill load s) := by
  simp only [execLoadFill]
  repeat' split
  all_goals simp [fillLoad_mem, h]

theorem canonical_execReadServe (load lane back : Nat) : Canonical (execReadServe load lane back s) := by
  unfold execReadServe
  repeat' split
  all_goals simp [h]

theorem canonical_execWriteArrival (launch id : Nat) : Canonical (execWriteArrival launch id s) := by
  unfold execWriteArrival
  simp [h]

theorem canonical_execWriteHoldExpiry (h : Held) : Canonical (execWriteHoldExpiry h s) := by
  unfold execWriteHoldExpiry
  repeat' split
  all_goals simp [h]

theorem canonical_execDeferredTrapTake (group : Nat) : Canonical (execDeferredTrapTake group s) := by
  simp only [execDeferredTrapTake]
  repeat' split
  all_goals simp [h]

theorem canonical_execRunGrant (group slot : Nat) : Canonical (execRunGrant group slot s) := by
  simp only [execRunGrant]
  repeat' split
  all_goals simp [h]

theorem canonical_execLaunchComplete (launch : Nat) : Canonical (execLaunchComplete launch s) := by
  unfold execLaunchComplete
  repeat' split
  all_goals simp [h]

theorem canonical_execLaunchStart (launch : Nat) : Canonical (execLaunchStart launch s) := by
  unfold execLaunchStart
  repeat' split
  all_goals simp [h]

theorem canonical_execLaunchUnitPlace (die : Nat) : Canonical (execLaunchUnitPlace die s) := by
  unfold execLaunchUnitPlace
  repeat' split
  all_goals simp [h]

theorem canonical_execLaunchBroadcast (launch : Nat) : Canonical (execLaunchBroadcast launch s) := by
  unfold execLaunchBroadcast
  repeat' split
  all_goals simp [h]

theorem canonical_execLaunchPacketPost (part : Nat) (guest : Option (BitVec 3)) (data : BitVec 64) :
    Canonical (execLaunchPacketPost part guest data s) := by
  unfold execLaunchPacketPost
  repeat' split
  all_goals simp [h]

/-- Every event keeps the form: it is one of those above. -/
theorem canonical_exec_of_event {i : Instr} (event : ctlOf i = none) : Canonical (exec i s) := by
  cases i
  case linkRetraining =>
    unfold exec
    exact canonical_execLinkRetraining h ..
  case corePowerGating =>
    unfold exec
    exact canonical_execCorePowerGating h ..
  case unassignedOpcode =>
    unfold exec
    exact canonical_execUnassignedOpcode h ..
  case laneCycleCount =>
    unfold exec
    exact canonical_execLaneCycleCount h ..
  case migrationComplete =>
    unfold exec
    exact canonical_execMigrationComplete h ..
  case ideStreamEstablished =>
    unfold exec
    exact canonical_execIdeStreamEstablished h ..
  case weightRefreshEnd =>
    unfold exec
    exact canonical_execWeightRefreshEnd h ..
  case bringUp =>
    unfold exec
    exact canonical_execBringUp h ..
  case clockCapChange =>
    unfold exec
    exact canonical_execClockCapChange h ..
  case horizonTreeFailure =>
    unfold exec
    exact canonical_execHorizonTreeFailure h ..
  case dieFatalError =>
    unfold exec
    exact canonical_execDieFatalError h ..
  case linkIntegrityFailure =>
    unfold exec
    exact canonical_execLinkIntegrityFailure h ..
  case fecCorrection =>
    unfold exec
    exact canonical_execFecCorrection h ..
  case poisonMark =>
    unfold exec
    exact canonical_execPoisonMark h ..
  case blockMigrate =>
    unfold exec
    exact canonical_execBlockMigrate h ..
  case coreRetire =>
    unfold exec
    exact canonical_execCoreRetire h ..
  case eccCorrected =>
    unfold exec
    exact canonical_execEccCorrected h ..
  case waystationAlarm =>
    unfold exec
    exact canonical_execWaystationAlarm h ..
  case strikeAlarm =>
    unfold exec
    exact canonical_execStrikeAlarm h ..
  case registerWrite =>
    unfold exec
    exact canonical_execRegisterWrite h ..
  case counterReadLow =>
    unfold exec
    exact canonical_execCounterReadLow h ..
  case debugStop =>
    unfold exec
    exact canonical_execDebugStop h ..
  case attestationReport =>
    unfold exec
    exact canonical_execAttestationReport h ..
  case releaseDiscard =>
    unfold exec
    exact canonical_execReleaseDiscard h ..
  case releaseFault =>
    unfold exec
    exact canonical_execReleaseFault h ..
  case partitionReset =>
    unfold exec
    exact canonical_execPartitionReset h ..
  case applyStaged =>
    unfold exec
    exact canonical_execApplyStaged h ..
  case layoutChangeForce =>
    unfold exec
    exact canonical_execLayoutChangeForce h ..
  case layoutChange =>
    unfold exec
    exact canonical_execLayoutChange h ..
  case terminate =>
    unfold exec
    exact canonical_execTerminate h ..
  case restore =>
    unfold exec
    exact canonical_execRestore h ..
  case preempt =>
    unfold exec
    exact canonical_execPreempt h ..
  case timeSliceExpiry =>
    unfold exec
    exact canonical_execTimeSliceExpiry h ..
  case restoreResume =>
    unfold exec
    exact canonical_execRestoreResume h ..
  case restoreDieReady =>
    unfold exec
    exact canonical_execRestoreDieReady h ..
  case saveImageAssemble =>
    unfold exec
    exact canonical_execSaveImageAssemble h ..
  case saveSequence =>
    unfold exec
    exact canonical_execSaveSequence h ..
  case hostRead =>
    unfold exec
    exact canonical_execHostRead h ..
  case hostWrite =>
    unfold exec
    exact canonical_execHostWrite h ..
  case ferryArrival =>
    unfold exec
    exact canonical_execFerryArrival h ..
  case ferrySend =>
    unfold exec
    exact canonical_execFerrySend h ..
  case tierCopyComplete =>
    unfold exec
    exact canonical_execTierCopyComplete h ..
  case tlbinvComplete =>
    unfold exec
    exact canonical_execTlbinvComplete h ..
  case tlbinvBegin =>
    unfold exec
    exact canonical_execTlbinvBegin h ..
  case pageWalk =>
    unfold exec
    exact canonical_execPageWalk h ..
  case mailboxDeliver =>
    unfold exec
    exact canonical_execMailboxDeliver h ..
  case landingArrival =>
    unfold exec
    exact canonical_execLandingArrival h ..
  case matrixKstep =>
    unfold exec
    exact canonical_execMatrixKstep h ..
  case asyncComplete =>
    unfold exec
    exact canonical_execAsyncComplete h ..
  case groupPlace =>
    unfold exec
    exact canonical_execGroupPlace h ..
  case spawnItemArrival =>
    unfold exec
    exact canonical_execSpawnItemArrival h ..
  case stepOverrun =>
    unfold exec
    exact canonical_execStepOverrun h ..
  case localClose =>
    unfold exec
    exact canonical_execLocalClose h ..
  case commitVisible =>
    unfold exec
    exact canonical_execCommitVisible h ..
  case commitApply =>
    unfold exec
    exact canonical_execCommitApply h ..
  case commitDeclare =>
    unfold exec
    exact canonical_execCommitDeclare h ..
  case loadFill =>
    unfold exec
    exact canonical_execLoadFill h ..
  case readServe =>
    unfold exec
    exact canonical_execReadServe h ..
  case writeArrival =>
    unfold exec
    exact canonical_execWriteArrival h ..
  case writeHoldExpiry =>
    unfold exec
    exact canonical_execWriteHoldExpiry h ..
  case deferredTrapTake =>
    unfold exec
    exact canonical_execDeferredTrapTake h ..
  case runGrant =>
    unfold exec
    exact canonical_execRunGrant h ..
  case launchComplete =>
    unfold exec
    exact canonical_execLaunchComplete h ..
  case launchStart =>
    unfold exec
    exact canonical_execLaunchStart h ..
  case launchUnitPlace =>
    unfold exec
    exact canonical_execLaunchUnitPlace h ..
  case launchBroadcast =>
    unfold exec
    exact canonical_execLaunchBroadcast h ..
  case launchPacketPost =>
    unfold exec
    exact canonical_execLaunchPacketPost h ..
  all_goals cases event

theorem canonical_exec (i : Instr) : Canonical (exec i s) := by
  cases fields : ctlOf i with
  | none => exact canonical_exec_of_event h fields
  | some c => exact canonical_exec_of_ctl fields h

theorem canonical_fetchInstr (g : Group) (pc : Word) : Memory.wf (s.fetchInstr g pc).2.mem = true := by
  have fetched := canonical_fetchFor h g pc
  unfold State.fetchInstr
  split
  · next e => exact canonical_snd e fetched
  · next e => split <;> exact canonical_snd e fetched

theorem canonical_reach (g : Group) : Memory.wf (reach s g).2.mem = true := by
  unfold reach
  split
  · exact h
  · exact canonical_fetchInstr h ..

theorem canonical_issueTurn (gid : Nat) : Canonical (issueTurn gid s) := by
  unfold issueTurn
  split
  · simp [h]
  · next g _ =>
    split
    · simp [h]
    · split
      · exact canonical_exec h _
      · split
        · simp [h]
        · split
          · simp [h]
          · split
            · next e => simp [canonical_snd e (canonical_reach h g)]
            · next e =>
              have fetched := canonical_snd e (canonical_reach h g)
              split
              · refine canonical_exec ?_ _
                exact fetched
              · simp [h]

theorem canonical_turn (t : Turn) : Canonical (turn t s) := by
  cases t with
  | issue gid =>
    refine canonical_issueTurn ?_ gid
    exact h
  | event i => exact canonical_out_ite (canonical_exec h i) ((canonical_next_iff _).mpr h)
  | firmware p i =>
    refine canonical_out_ite ((canonical_next_iff _).mpr h) (canonical_exec ?_ i)
    exact h

theorem canonical_nextTurn : Canonical (nextTurn s) := by
  unfold nextTurn
  split
  · refine canonical_turn ?_ _
    exact h
  · exact canonical_turn h _

end

/-- Settles O46, turn by turn: each of the functions that write device memory goes through the writes of Memory, which keep its form. -/
theorem memoryKept : Obligations.MemoryKept := fun _ t h stepped => (canonical_nextTurn h).next t stepped

end Sys2Proof.Machine

/-! Traps that no handler takes: the record of the fatal trap is written, and its launch is terminated, but the black box
is a ring of 4096 entries and the termination may write more. A stack that is lost on the die (R246, R211) adds a parity
record at every walk of the host's tables, and every follower that the terminated launch drags with it makes one such walk. -/

namespace Sys2Proof.Machine

open State

/-! ### A table of the entries of a list -/

/-- The table that lists the members of a list under successive keys. -/
def numbered {α : Type} : Nat → List α → Table α
  | _, [] => []
  | i, x :: xs => (i, x) :: numbered (i + 1) xs

section Numbered

variable {α : Type}

theorem length_numbered (i : Nat) (xs : List α) : (numbered i xs).length = xs.length := by
  induction xs generalizing i with
  | nil => rfl
  | cons x xs ih => simp [numbered, ih]

theorem tfind_numbered (i j : Nat) (xs : List α) : tfind (numbered i xs) (i + j) = xs[j]? := by
  induction xs generalizing i j with
  | nil => simp [numbered]
  | cons x xs ih =>
    cases j with
    | zero => simp [numbered, tfind]
    | succ j =>
      have later : i ≠ i + (j + 1) := by omega
      simpa [numbered, tfind, later, Nat.add_comm, Nat.add_left_comm] using ih (i + 1) j

theorem tset_numbered (i : Nat) (xs : List α) (v w : α) (ys : List α) :
    tset (numbered i (xs ++ v :: ys)) (i + xs.length) w = numbered i (xs ++ w :: ys) := by
  induction xs generalizing i with
  | nil => simp [numbered, tset]
  | cons x xs ih =>
    have key : i + 1 + xs.length = i + (xs.length + 1) := by omega
    have rest := ih (i + 1)
    rw [key] at rest
    simp [numbered, tset, rest]

theorem tmod_numbered (i : Nat) (xs : List α) (v : α) (ys : List α) (f : α → α) :
    tmod (numbered i (xs ++ v :: ys)) (i + xs.length) f = numbered i (xs ++ f v :: ys) := by
  have listed : tfind (numbered i (xs ++ v :: ys)) (i + xs.length) = some v := by simp [tfind_numbered]
  simp only [tmod, listed, tset_numbered]

theorem tsel_numbered_none (i : Nat) (xs : List α) (p : α → Bool) (none_ : ∀ x ∈ xs, p x = false) :
    tsel (numbered i xs) p = [] := by
  induction xs generalizing i with
  | nil => rfl
  | cons x xs ih =>
    have rest := ih (i + 1) fun y isIn => none_ y (.tail _ isIn)
    simpa [tsel, numbered, none_ x (.head _)] using rest

/-- The first key for which a search answers, where it answers for none before it. -/
theorem firstSome_numbered {β : Type} (f : Nat → Option β) (i : Nat) (xs : List α) (v : α) (ys : List α)
    (before : ∀ j, j < xs.length → f (i + j) = none) (b : β) (here : f (i + xs.length) = some b) :
    firstSome f ((numbered i (xs ++ v :: ys)).map Prod.fst) = some b := by
  induction xs generalizing i with
  | nil => simp_all [numbered, firstSome]
  | cons x xs ih =>
    have first : f i = none := before 0 (by simp)
    have rest := ih (i + 1) (fun j less => by
      have := before (j + 1) (by simpa using less)
      rwa [Nat.add_comm j, ← Nat.add_assoc] at this) (by
      rwa [List.length_cons, Nat.add_comm xs.length, ← Nat.add_assoc] at here)
    simpa [numbered, firstSome, first] using rest

end Numbered

/-! ### The black box of a die that takes parity records only -/

/-- The host's root table: the place of its lowest byte in the interleaved pool. -/
def lostRoot : Nat := 29 * 2 ^ 52

/-- The record of a rebuilt read of that byte. -/
def parityRecord : BBox := ⟨BitVec.ofNat 64 (physAddr lostRoot), 0, 0xFFFF, 0x03, 1⟩

/-- A die whose black box has taken one more record. -/
def boxed (d : Die) (r : BBox) : Die := { d with bbox := tset d.bbox (d.bbIdx % 4096) r, bbIdx := (d.bbIdx + 1) % 65536 }

/-- Every record that is not the parity record stands where the next `4096 - k` records go. -/
def Aged (d : Die) (k : Nat) : Prop :=
  ∀ m r, tfind d.bbox m = some r → r = parityRecord ∨ (m < 4096 ∧ (m + 4096 - d.bbIdx % 4096) % 4096 + k < 4096)

/-- One parity record more ages the others. -/
theorem aged_boxed {d : Die} {k : Nat} (aged : Aged d k) : Aged (boxed d parityRecord) (k + 1) := by
  intro m r isAt
  simp only [boxed, tfind_tset] at isAt ⊢
  by_cases same : m = d.bbIdx % 4096
  · rw [if_pos same] at isAt
    exact .inl (Option.some.inj isAt).symm
  · rw [if_neg same] at isAt
    refine (aged m r isAt).imp_right fun ⟨isSlot, old⟩ => ⟨isSlot, ?_⟩
    omega

/-- A box that has gone round holds nothing else. -/
theorem Aged.all {d : Die} {k : Nat} (aged : Aged d k) (round : 4096 ≤ k) {m : Nat} {r : BBox} (isAt : tfind d.bbox m = some r) :
    r = parityRecord := by
  refine (aged m r isAt).resolve_right fun ⟨_, old⟩ => ?_
  omega

/-! ### A launch with followers on a panel whose host tables stand on a lost stack -/

/-- A running launch, and the launches that follow it. -/
def leader : Launch := { Launch.fresh 1 0 0 0 0 [] with phase := .stepping }

def follower : Launch := Launch.fresh 2 0 0 0 0 [1]

def refused : Launch := { follower with phase := .rejected }

/-- The leader in a phase, the first `r` followers rejected and `k` more posted. -/
def trailing (ph : Phase) (r k : Nat) : List Launch :=
  ({ leader with phase := ph } :: List.replicate r refused) ++ List.replicate k follower

/-- The whole panel as one partition, as bring-up leaves it. -/
def wholePanel : Part := Part.fresh 0 29 0 0 0

/-- The panel with these launches alone, the host's root table being on the lost stack of die 0. -/
def followed (ph : Phase) (r k : Nat) (dies : Table Die) (aer : List AerRec) : State :=
  { State.reset with
    mem := [(lostRoot, 2)], lost := [0], dies := dies, aer := aer,
    launches := numbered 0 (trailing ph r k) }

/-- A posted launch that a bad predecessor drags with it, and that predecessor's place in its packet. -/
def dueFollower (s : State) (lid : Nat) : Option (Nat × Nat) :=
  match s.launch? lid with
  | some l => if l.phase = .posted then (s.badPred l).map (fun i => (lid, i)) else none
  | none => none

theorem rejectFollowers_succ (fuel : Nat) (s : State) : rejectFollowers (fuel + 1) s =
    match firstSome (dueFollower s) (s.launches.map Prod.fst) with
    | none => s
    | some e => rejectFollowers fuel (s.rejectOne e.1 6 (88 + 4 * e.2)) := by
  rw [rejectFollowers]
  change (match firstSome (dueFollower s) (s.launches.map Prod.fst) with
    | none => s
    | some (lid, i) => rejectFollowers fuel (s.rejectOne lid 6 (88 + 4 * i))) = _
  cases firstSome (dueFollower s) (s.launches.map Prod.fst) <;> rfl

section Followed

variable {ph : Phase} {r k : Nat} {d : Die} {aer : List AerRec}

theorem followed_launch (j : Nat) : (followed ph r k [(0, d)] aer).launch? j = (trailing ph r k)[j]? := by
  have listed := tfind_numbered 0 j (trailing ph r k)
  rwa [Nat.zero_add] at listed

/-- The next follower to be rejected stands first among the posted ones. -/
theorem trailing_succ : trailing ph r (k + 1) = ({ leader with phase := ph } :: List.replicate r refused) ++
    follower :: List.replicate k follower := rfl

theorem trailing_refused : ({ leader with phase := ph } :: List.replicate r refused) ++ refused :: List.replicate k follower =
    trailing ph (r + 1) k := by
  simp [trailing, List.replicate_succ']

/-- The walk of the first page of the host's address space faults at the byte that the lost stack held. -/
theorem walk_lostRoot : walk [(lostRoot, 2)] wholePanel [] none 0 = .error ⟨3, false, false, true, false, ⟨[], [lostRoot]⟩⟩ := rfl

theorem keyFor_followed : (followed ph r k [(0, d)] aer).keyFor wholePanel none 0 false = none := by
  have faults : walk (followed ph r k [(0, d)] aer).mem wholePanel [] none 0 = _ := walk_lostRoot
  simp [keyFor, faults, canonical]

theorem trailFor_followed : (followed ph r k [(0, d)] aer).trailFor wholePanel none 0 = ⟨[], [lostRoot]⟩ := by
  have faults : walk (followed ph r k [(0, d)] aer).mem wholePanel [] none 0 = _ := walk_lostRoot
  simp [trailFor, faults, canonical]

theorem parity_followed : parity (followed ph r k [(0, d)] aer) lostRoot =
    followed ph r k [(0, boxed d parityRecord)] (aer ++ [⟨.correctable, 0, false⟩]) := by
  have way : wayOfKey lostRoot = some 0 := rfl
  have isLost : ((followed ph r k [(0, d)] aer).lost.contains 0 && !isCold lostRoot) = true := rfl
  simp only [parity, way, isLost, if_true]
  rfl

theorem walked_followed : (followed ph r k [(0, d)] aer).walked wholePanel none 0 32 =
    followed ph r k [(0, boxed d parityRecord)] (aer ++ [⟨.correctable, 0, false⟩]) := by
  have page : (followed ph r k [(0, d)] aer).walked wholePanel none 0 32 =
      (followed ph r k [(0, d)] aer).trailed ((followed ph r k [(0, d)] aer).trailFor wholePanel none 0) := rfl
  rw [page, trailFor_followed, ← parity_followed]
  rfl

/-- A record of a launch reaches the root table, finds it invalid, and reports the byte as rebuilt. -/
theorem record_followed {lid : Nat} {L : Launch} (isLaunch : (followed ph r k [(0, d)] aer).launch? lid = some L)
    (isWhole : L.part = 0) (state reason byte : Nat) :
    (followed ph r k [(0, d)] aer).record lid state reason byte =
      followed ph r k [(0, boxed d parityRecord)] (aer ++ [⟨.correctable, 0, false⟩]) := by
  have part : (followed ph r k [(0, d)] aer).part? L.part = some wholePanel := by rw [isWhole]; rfl
  have unread : (followed ph r k [(0, d)] aer).readVa wholePanel none 0 32 = none := by
    simp only [readVa, keyFor_followed]
  have ring : wholePanel.lrring = 0 := rfl
  simp only [record, isLaunch, part, ring, ringAdd, unread, walked_followed]

/-- A follower of a terminated leader is due to be rejected. -/
theorem badPred_follower : (followed .terminated r k [(0, d)] aer).badPred follower = some 0 := by
  have others : tsel (numbered 1 (List.replicate r refused ++ List.replicate k follower))
      (fun L => L.part == 0 && L.ident == 1) = [] := by
    refine tsel_numbered_none _ _ _ fun L isIn => ?_
    obtain isIn | isIn := List.mem_append.mp isIn <;> rw [List.eq_of_mem_replicate isIn] <;> rfl
  have named : (followed .terminated r k [(0, d)] aer).byIdent 0 1 = some 0 := congrArg (fun l => (0 :: l).getLast?) others
  have isLeader : (followed .terminated r k [(0, d)] aer).launch? 0 = some { leader with phase := .terminated } := rfl
  have preds : follower.preds = [1] := rfl
  have whole : follower.part = 0 := rfl
  simp only [badPred, preds, whole, firstSome, named, isLeader, indexIn, or_true, if_true]

/-- Rejecting the first posted follower costs the black box one parity record. -/
theorem rejectOne_followed (reason byte : Nat) : (followed ph r (k + 1) [(0, d)] aer).rejectOne (r + 1) reason byte =
    followed ph (r + 1) k [(0, boxed d parityRecord)] (aer ++ [⟨.correctable, 0, false⟩]) := by
  have changed := tmod_numbered 0 ({ leader with phase := ph } :: List.replicate r refused) follower (List.replicate k follower)
    (fun l => { l with phase := .rejected })
  rw [Nat.zero_add, List.length_cons, List.length_replicate, ← trailing_succ] at changed
  have modified : (followed ph r (k + 1) [(0, d)] aer).modLaunch (r + 1) (fun l => { l with phase := .rejected }) =
      followed ph (r + 1) k [(0, d)] aer :=
    congrArg (fun ls => { followed ph r (k + 1) [(0, d)] aer with launches := ls })
      (changed.trans (congrArg (numbered 0) trailing_refused))
  have isRefused : (followed ph (r + 1) k [(0, d)] aer).launch? (r + 1) = some refused := by
    rw [followed_launch, ← trailing_refused]
    simp
  rw [rejectOne, modified, record_followed isRefused rfl]

/-- No launch before the first posted follower is due to be rejected. -/
theorem dueFollower_before {j : Nat} (before : j < r + 1) : dueFollower (followed .terminated r k [(0, d)] aer) j = none := by
  have isAt : (trailing .terminated r k)[j]? = ({ leader with phase := .terminated } :: List.replicate r refused)[j]? :=
    List.getElem?_append_left (by simpa using before)
  rw [dueFollower, followed_launch, isAt]
  cases j with
  | zero => rfl
  | succ j =>
    have isRefused : (List.replicate r refused)[j]? = some refused := List.getElem?_replicate_of_lt (by omega)
    rw [List.getElem?_cons_succ, isRefused]
    rfl

theorem dueFollower_first : dueFollower (followed .terminated r (k + 1) [(0, d)] aer) (r + 1) = some (r + 1, 0) := by
  have isFirst : (trailing .terminated r (k + 1))[r + 1]? = some follower := by rw [trailing_succ]; simp
  have isPosted : follower.phase = .posted := rfl
  simp [dueFollower, followed_launch, isFirst, isPosted, badPred_follower]

/-- The fixed point of the rejections finds every follower. -/
theorem rejectFollowers_followed {m : Nat} (aged : Aged d m) (fuel : Nat) (enough : k ≤ fuel) :
    ∃ d' aer', rejectFollowers fuel (followed .terminated r k [(0, d)] aer) = followed .terminated (r + k) 0 [(0, d')] aer' ∧
      Aged d' (m + k) := by
  induction k generalizing r d aer m fuel with
  | zero =>
    refine ⟨d, aer, ?_, aged⟩
    cases fuel with
    | zero => rfl
    | succ fuel =>
      have ended : firstSome (dueFollower (followed .terminated r 0 [(0, d)] aer))
          ((followed .terminated r 0 [(0, d)] aer).launches.map Prod.fst) = none := by
        refine firstSome_none fun j _ => ?_
        by_cases before : j < r + 1
        · exact dueFollower_before before
        · have beyond : (trailing .terminated r 0)[j]? = none := by simp [trailing]; omega
          simp [dueFollower, followed_launch, beyond]
      rw [rejectFollowers_succ, ended]
      rfl
  | succ k ih =>
    obtain ⟨fuel, rfl⟩ : ∃ n, fuel = n + 1 := ⟨fuel - 1, by omega⟩
    have found := firstSome_numbered (dueFollower (followed .terminated r (k + 1) [(0, d)] aer)) 0
      ({ leader with phase := .terminated } :: List.replicate r refused) follower (List.replicate k follower)
      (fun j less => by rw [Nat.zero_add]; exact dueFollower_before (by simpa using less)) (r + 1, 0) (by
        rw [Nat.zero_add, List.length_cons, List.length_replicate]; exact dueFollower_first)
    obtain ⟨d', aer', isEnd, old⟩ := ih (aged_boxed aged) fuel (by omega) (r := r + 1) (aer := aer ++ [⟨.correctable, 0, false⟩])
    refine ⟨d', aer', ?_, ?_⟩
    · have launches : (followed .terminated r (k + 1) [(0, d)] aer).launches =
          numbered 0 (({ leader with phase := .terminated } :: List.replicate r refused) ++ follower :: List.replicate k follower) := rfl
      rw [rejectFollowers_succ, launches, found]
      simp only [rejectOne_followed, isEnd]
      rw [Nat.add_right_comm, Nat.add_assoc]
    · rwa [Nat.add_right_comm, Nat.add_assoc] at old

end Followed

/-! ### A double trap of the leader's group -/

/-- A group of the leader that is at system level, so that a second trap is fatal (R227). -/
def doomed : Group := { placedGroup with blk := 0, launch := some 0, r := { placedGroup.r with sys := true } }

def secondTrap : TrapInfo := { cause := 1 }

/-- The record of the double trap, and that of the launch's end. -/
def fatalRecord : BBox := ⟨0, 1, 0, 0x0B, 0⟩

def endRecord : BBox := ⟨cWord leader, 1, 0xFFFF, 0x0A, 0⟩

def trappedDie : Die := boxed (boxed Die.fresh fatalRecord) endRecord

theorem enterTrap_doomed (k : Nat) : (followed .stepping 0 k [] []).enterTrap 0 doomed secondTrap 0 false =
    (followed .stepping 0 k [(0, boxed Die.fresh fatalRecord)] []).terminate 0 1 := by
  have again : (doomed.r.sys && !secondTrap.deferred) = true := rfl
  have unpoisoned : ¬(secondTrap.cause = 0x14 ∧ (!secondTrap.deferred) = true) := by decide
  have kept : (followed .stepping 0 k [] []).bboxAdd (coreDie ((followed .stepping 0 k [] []).blockOf doomed).core)
      ⟨0, BitVec.ofNat 32 secondTrap.cause, BitVec.ofNat 16 (coreIdx ((followed .stepping 0 k [] []).blockOf doomed).core), 0x0B, 0⟩ =
      followed .stepping 0 k [(0, boxed Die.fresh fatalRecord)] [] := by
    have core : ((followed .stepping 0 k [] []).blockOf doomed).core = coreKey 0 0 := rfl
    rw [core]
    rfl
  have launch : doomed.launch = some 0 := rfl
  rw [enterTrap, if_neg unpoisoned]
  simp only [again, if_true, fatalTrap, launch, kept]

theorem termRecords_leader (k : Nat) : (followed .stepping 0 k [(0, boxed Die.fresh fatalRecord)] []).termRecords 0 leader 1 =
    followed .stepping 0 k [(0, trappedDie)] [] := by
  have dies : (followed .stepping 0 k [(0, boxed Die.fresh fatalRecord)] []).diesOf 0 leader = [0] := rfl
  simp only [termRecords, dies, List.foldl_cons, List.foldl_nil]
  rfl

/-- The end of the leader: its record is the first parity record, and its followers are then rejected. -/
theorem terminate_leader (k : Nat) : (followed .stepping 0 k [(0, boxed Die.fresh fatalRecord)] []).terminate 0 1 =
    rejectFollowers (k + 1) (followed .terminated 0 k [(0, boxed trappedDie parityRecord)] [⟨.correctable, 0, false⟩]) := by
  have isLeader : (followed .stepping 0 k [(0, boxed Die.fresh fatalRecord)] []).launch? 0 = some leader := rfl
  have runs : ¬(leader.phase = .completed ∨ leader.phase = .rejected ∨ leader.phase = .terminated) := by decide
  have noBlocks : (followed .stepping 0 k [(0, trappedDie)] []).blocksOf 0 = [] := rfl
  have isEnded : (followed .terminated 0 k [(0, trappedDie)] []).launch? 0 = some { leader with phase := .terminated } := rfl
  have recorded := record_followed isEnded rfl 3 1 0xFFFF
  have count : (followed .terminated 0 k [(0, boxed trappedDie parityRecord)] [⟨.correctable, 0, false⟩]).launches.length = k + 1 := by
    simp [followed, trailing, length_numbered]
  simp only [terminate, isLeader, if_neg runs, termRecords_leader, noBlocks, List.foldl_nil]
  rw [List.nil_append] at recorded
  rw [← count, ← recorded]
  rfl

/-- The black box after the trap and its 4096 rejections. -/
theorem parityOnly_doomed {m : Nat} {r : BBox}
    (isAt : tfind (((followed .stepping 0 4096 [] []).enterTrap 0 doomed secondTrap 0 false).die 0).bbox m = some r) :
    r = parityRecord := by
  have fresh : Aged trappedDie 0 := by
    intro n q isIn
    refine .inr ?_
    have index : trappedDie.bbIdx = 2 := rfl
    have box : trappedDie.bbox = [(0, fatalRecord), (1, endRecord)] := rfl
    rw [box] at isIn
    rw [index]
    by_cases zero : n = 0
    · omega
    · by_cases one : n = 1
      · omega
      · simp [tfind, Ne.symm zero, Ne.symm one] at isIn
  rw [enterTrap_doomed, terminate_leader] at isAt
  obtain ⟨d, aer, isEnd, aged⟩ := rejectFollowers_followed (k := 4096) (aged_boxed fresh) _ (Nat.le_succ _)
  rw [isEnd] at isAt
  exact aged.all (by omega) isAt

/-- Refutes O20: the record of the fatal trap is kept only as long as the black box does not go round. Here the host's root
table stands on a lost stack of the same die, so that the record of each of the 4096 followers that the terminated launch
drags with it adds a parity record, and the last of them takes the place of the trap's own. -/
theorem not_trapWithoutHandler : ¬ Obligations.TrapWithoutHandler := by
  intro holds
  obtain ⟨-, m, isAt⟩ := holds (followed .stepping 0 4096 [] []) 0 doomed secondTrap 0 false 0 leader rfl rfl
    (by decide) (by decide) (by decide) (.inl ⟨rfl, rfl⟩)
  have kinds := congrArg BBox.kind (parityOnly_doomed isAt)
  exact absurd kinds (by decide)

end Sys2Proof.Machine
